-- ==== Sys2Proof/Word.lean ====
section
/-! DEFINITION. The word types of the A4 and their plainest arithmetic (00_scope.md R1, R2), and the
enumerations that instructions and state name. -/

namespace Sys2Proof

/-- A byte, 8 bits (R2). -/
abbrev Byte := BitVec 8
/-- A word of 32 bits (R2): an instruction word, an FP32 lane. -/
abbrev W32 := BitVec 32
/-- A doubleword of 64 bits (R2): a g- or e-register, an address while it is computed. -/
abbrev Word := BitVec 64
/-- A vector register, 512 bits (08_formats.md R152). -/
abbrev Vec := BitVec 512

/-- The field of `w` that starts at the bit of weight `lo` and takes `size` values. -/
def fld (w lo size : Nat) : Nat := w / lo % size

/-- Bits [lo + width - 1 : lo] of a value (R1). -/
def bits (w lo width : Nat) : Nat := w / 2 ^ lo % 2 ^ width

/-- Bit `i` of a value (R1). -/
def bitAt (w i : Nat) : Bool := w / 2 ^ i % 2 == 1

/-- 1 for true, 0 for false. -/
def b2n (b : Bool) : Nat := if b then 1 else 0

/-- Sign extension of the low `width` bits of `n` to an integer (R6). -/
def sextNat (width n : Nat) : Int :=
  let m := n % 2 ^ width
  if m < 2 ^ (width - 1) then (m : Int) else (m : Int) - (2 ^ width : Nat)

/-- A natural number as a doubleword. -/
def w64 (n : Nat) : Word := BitVec.ofNat 64 n

/-- An integer as a doubleword, modulo 2^64 (R6). -/
def i64 (n : Int) : Word := BitVec.ofInt 64 n

/-- The width of an M-format access, the w field (R37). -/
inductive Width where
  | byte | half | word | dword | nbyte | nhalf | nword | vec
deriving DecidableEq, Repr

/-- The size of a full/empty access in L and M (R37). -/
inductive FeSize where
  | word | dword
deriving DecidableEq, Repr

/-- The space of an atomic: AMOL, AMOM, AMOG (R47). -/
inductive AmoSpace where
  | l | m | g
deriving DecidableEq, Repr

/-- The order field of an atomic (R38). -/
inductive AmoOrder where
  | rlx | acq | rel | ar
deriving DecidableEq, Repr

/-- A scope (R7). -/
inductive Scope where
  | tile | quad | clu | die | dev | sys
deriving DecidableEq, Repr

/-- A register class (R58); `latch` is class 6, which stands only in tval values (R219). -/
inductive RegClass where
  | g | e | v | k | c | q | latch
deriving DecidableEq, Repr

/-- The class field of CLRE (R38). -/
inductive ClreClass where
  | g | e | v
deriving DecidableEq, Repr

/-- The element type of VFP and VRED (R39). -/
inductive FTy where
  | f32 | bf16 | f16
deriving DecidableEq, Repr

/-- The element type of VINT (R39). -/
inductive ITy where
  | i32 | i16 | i8 | n32 | n16 | n8
deriving DecidableEq, Repr

/-- The element type of VCVT (R39). -/
inductive CTy where
  | e4m3 | e5m2 | e3m2 | e2m3 | e2m1 | bf16 | f16 | nfd
deriving DecidableEq, Repr

/-- The element width of VPERM (R39). -/
inductive EltW where
  | w32 | w16 | w8
deriving DecidableEq, Repr

/-- The rounding code of the V format (R39). -/
inductive Rm where
  | frm | rne | rtz | sr
deriving DecidableEq, Repr

/-- The kind of a local barrier (R147). -/
inductive BarKind where
  | tbar | qbar | clbar
deriving DecidableEq, Repr

/-- A hart: hart `h` of tile `t` (0 to 7 the slots, 8 the matrix sequencer, 9 the vector sequencer), or a service slot of
a mender (R51, R172, R303). -/
inductive HartId where
  | tile (t : Nat) (h : Fin 10)
  | mender (m : Nat) (slot : Fin 8)
deriving DecidableEq, Repr

/-- What an access needs of the page it touches (R281). -/
inductive Need where
  | read | write | readWrite | exec | probe
deriving DecidableEq, Repr

/-- The answer to a PRI page request (R284). -/
inductive PageAnswer where
  | success | invalid | failure
deriving DecidableEq, Repr

/-- A reward message (R318): context, domain address, trajectory id, step and FP32 reward. -/
structure RewardMsg where
  ctx : Nat
  dom : Word
  id : Nat
  step : Nat
  reward : W32
deriving DecidableEq, Repr

/-- What a member of a collective group sends for one collective (R335, R337, R338): the function, length and type that it
runs under this sequence number, and words that it supplies to this device, in order, as far as they arrived; the places of
those that are poisoned. `words` is empty for DECL and BAR. -/
structure CollAnswer where
  f : Nat
  c : Nat
  ty : Nat
  bad : List Nat
  words : List W32
deriving DecidableEq, Repr

/-- What a link flit carries (R299, R326, R327, R329, R332). -/
inductive FlitBody where
  | idle
  /-- the capability exchange: highest version, device identity, wavelength count -/
  | hello (ver : Nat) (id : BitVec 16) (waves : Nat)
  | widen
  | narrow
  | reward (m : RewardMsg) (h : HartId)
  | rewardAnswer (h : HartId)
  /-- a poisoned completion: the reward of this hart was lost with both copies of its header -/
  | lost (h : HartId)
  | coll (ctx gid seq member : Nat) (ans : CollAnswer)
  /-- a poisoned completion: a flit of this collective was lost with both copies of its header -/
  | collLost (ctx gid seq : Nat)
deriving DecidableEq, Repr

/-- A link flit as it arrives (R298, R299, R328): whether its payload CRC and each of its header copies check, which of its 64 bytes
were damaged, and what it carries. -/
structure Flit where
  crcOk : Bool
  hdr1Ok : Bool
  hdr2Ok : Bool
  hurt : List Nat
  body : FlitBody
deriving DecidableEq, Repr

end Sys2Proof
end

