-- ==== Sys2Proof/Config.lean ====
section
/-! DEFINITION. What an implementation of the A4 fixes and the spec leaves open: constants with a value are named in a log
entry; constants without a body are the free values of log 9, of which nothing can be proved. -/

namespace Sys2Proof.Config

/-- The physical address at which the host maps the device's memory range (R324); log 7. -/
def hdmBase : Nat := 0x100_0000_0000

/-- A free bit of the `n`-th open choice (log 9): which neighbour of the exact value VEXP2, VLOG2 and VTANH give for an
input (R192). The three are fixed functions of the input bits, so the choice depends on the function, the type and the
input alone. -/
opaque approxHigh : Nat → Nat → Nat → Bool

/-- The tree of the `n`-th execution of VRSUM.u (R195; log 9): the split point of a node over `k` elements. -/
opaque freeSplit : Nat → Nat → Nat

/-- The LFSR bits that a mender uses for stochastic rounding (R158, R303; log 9, log 16). -/
opaque freeBits : Nat → Nat

/-- The highest version of the interface of images of a kind that the boot ROM supports (R8, R344; log 6). -/
opaque imageVersion : Nat → Nat

/-- The SHA3-256 digest of `n` bytes (R344, R346): the spec names the function and does not define it (log 9). -/
opaque sha3 : Nat → Nat → Nat

/-- An ML-DSA-44 signature over a digest verifies under a public key (R344; log 9). -/
opaque verifies : Nat → Nat → Nat → Bool

/-- The ML-DSA-44 signature of 2,420 bytes that a secret key gives a digest (R346; log 9). -/
opaque sign : Nat → Nat → Nat

/-- The address that VAMAXU takes on mender `m` for scale pointer `j`: R48 lets a mender run it, and R303 gives it no scale pointer
(log 16). -/
opaque menderScp : Nat → Nat → Nat

/-- A value that the spec does not state, the `n`-th one used (log 9). -/
opaque freeWord : Nat → Nat

end Sys2Proof.Config
end

