-- ==== Sys2Proof/Syntax.lean ====
section
/-! DEFINITION. The syntax of Sarpex instructions and of the machine's events: one constructor of `Instr` for each row
of spec/opcode_table.json. Register numbers are `Fin`s of the size R22 gives; formats are those of 03_encoding.md. -/

namespace Sys2Proof

/-- A g-register number (R22, R35). -/
abbrev GReg := Fin 32
/-- An e-register number (R22, R40). -/
abbrev EReg := Fin 8
/-- A v-register number (R22). -/
abbrev VReg := Fin 16
/-- A k-register number (R22). -/
abbrev KReg := Fin 4
/-- An accumulator tile c0 to c15 (R22). -/
abbrev CTile := Fin 16
/-- A Q-fold q0 to q3 (R22). -/
abbrev QReg := Fin 4
/-- A lookahead count (R41). -/
abbrev La := Fin 16
/-- A g-register g0 to g15 named by the n field of the E format (R40). -/
abbrev GLow := Fin 16
/-- A tensor slot, or another two-bit control value (R39, R164). -/
abbrev Slot4 := Fin 4
/-- A four-bit control value (R164, R195, R196). -/
abbrev Nib := Fin 16
/-- A shift amount (R72). -/
abbrev Sh6 := Fin 64
/-- The sequencer mask of FORK (R40). -/
abbrev SeqMask := Fin 4
/-- imm15 of the I format (R36). -/
abbrev Imm15 := BitVec 15
/-- imm8 of the M format (R36). -/
abbrev Imm8 := BitVec 8
/-- A seven-bit immediate of a compact form (R44). -/
abbrev Imm7 := BitVec 7
/-- off12 (R36). -/
abbrev Off12 := BitVec 12
/-- off20 (R36). -/
abbrev Off20 := BitVec 20
/-- A CSR number (R67). -/
abbrev CsrNo := BitVec 12

/-- One constructor for each row of spec/opcode_table.json: the encoded instructions with the operands
their encoding carries, and the machine's events, which have no encoding: what object an event befalls stands in `State.ev`.
Lean's runtime can build no constructor with operands past the 244th, so three rows drop an operand on which nothing depends: the
scope of FENCE_ACQ, FENCE_REL and FENCE_FULL, which the decoder checks (R109; log 17). -/
inductive Instr where
  /-- ADD (R69): g[d] := g[a] + g[b], wrapping modulo 2^64. -/
  | add (d : GReg) (a : GReg) (b : GReg)
  /-- SUB (R69): g[d] := g[a] - g[b]. -/
  | sub (d : GReg) (a : GReg) (b : GReg)
  /-- AND (R69): Bitwise AND of g[a] and g[b]. -/
  | and (d : GReg) (a : GReg) (b : GReg)
  /-- OR (R69): Bitwise OR of g[a] and g[b]. -/
  | or (d : GReg) (a : GReg) (b : GReg)
  /-- XOR (R69): Bitwise XOR of g[a] and g[b]. -/
  | xor (d : GReg) (a : GReg) (b : GReg)
  /-- SLL (R69): Shift g[a] left by g[b][5:0]. -/
  | sll (d : GReg) (a : GReg) (b : GReg)
  /-- SRL (R69): Shift g[a] right logically by g[b][5:0]. -/
  | srl (d : GReg) (a : GReg) (b : GReg)
  /-- SRA (R69): Shift g[a] right arithmetically by g[b][5:0]. -/
  | sra (d : GReg) (a : GReg) (b : GReg)
  /-- SLT (R69): g[d] := 1 if g[a] < g[b] as int64, else 0. -/
  | slt (d : GReg) (a : GReg) (b : GReg)
  /-- SLTN (R69): g[d] := 1 if g[a] < g[b] as nat64, else 0. -/
  | sltn (d : GReg) (a : GReg) (b : GReg)
  /-- MIN (R69): Signed minimum of g[a] and g[b]. -/
  | min (d : GReg) (a : GReg) (b : GReg)
  /-- MAX (R69): Signed maximum of g[a] and g[b]. -/
  | max (d : GReg) (a : GReg) (b : GReg)
  /-- MINN (R69): Natural minimum of g[a] and g[b]. -/
  | minn (d : GReg) (a : GReg) (b : GReg)
  /-- MAXN (R69): Natural maximum of g[a] and g[b]. -/
  | maxn (d : GReg) (a : GReg) (b : GReg)
  /-- ADDW (R69): Sign-extended 32-bit sum of g[a] and g[b]. -/
  | addw (d : GReg) (a : GReg) (b : GReg)
  /-- SUBW (R69): Sign-extended 32-bit difference of g[a] and g[b]. -/
  | subw (d : GReg) (a : GReg) (b : GReg)
  /-- MUL (R69): Long operation: low 64 bits of g[a] x g[b]. -/
  | mul (la : La) (d : GReg) (a : GReg) (b : GReg)
  /-- MULH (R69): Long operation: high 64 bits of the signed product. -/
  | mulh (la : La) (d : GReg) (a : GReg) (b : GReg)
  /-- MULHN (R69): Long operation: high 64 bits of the natural product. -/
  | mulhn (la : La) (d : GReg) (a : GReg) (b : GReg)
  /-- MULW (R69): Long operation: sign-extended 32-bit product. -/
  | mulw (la : La) (d : GReg) (a : GReg) (b : GReg)
  /-- DIV (R70): Long operation: signed division truncating toward zero, with fixed edge cases. -/
  | div (la : La) (d : GReg) (a : GReg) (b : GReg)
  /-- DIVN (R70): Long operation: natural division, all ones for a zero divisor. -/
  | divn (la : La) (d : GReg) (a : GReg) (b : GReg)
  /-- REM (R70): Long operation: signed remainder. -/
  | rem (la : La) (d : GReg) (a : GReg) (b : GReg)
  /-- REMN (R70): Long operation: natural remainder. -/
  | remn (la : La) (d : GReg) (a : GReg) (b : GReg)
  /-- CLZ (R69): Count leading zero bits of g[a]. -/
  | clz (d : GReg) (a : GReg)
  /-- CTZ (R69): Count trailing zero bits of g[a]. -/
  | ctz (d : GReg) (a : GReg)
  /-- POPC (R69): Count one bits of g[a]. -/
  | popc (d : GReg) (a : GReg)
  /-- ROL (R69): Rotate g[a] left by g[b][5:0]. -/
  | rol (d : GReg) (a : GReg) (b : GReg)
  /-- ROR (R69): Rotate g[a] right by g[b][5:0]. -/
  | ror (d : GReg) (a : GReg) (b : GReg)
  /-- SEL (R69): g[d] := g[a] if g[d] is nonzero, else g[b]. -/
  | sel (d : GReg) (a : GReg) (b : GReg)
  /-- BFX (R69): Extract a bit field of g[a] by position and length from g[b]. -/
  | bfx (d : GReg) (a : GReg) (b : GReg)
  /-- BFI (R69): Insert the low bits of g[a] into a field of g[d]. -/
  | bfi (d : GReg) (a : GReg) (b : GReg)
  /-- ADDI (R71): g[d] := g[a] + sign-extended imm15. -/
  | addi (d : GReg) (a : GReg) (imm : Imm15)
  /-- ANDI (R71): g[d] := g[a] AND sign-extended imm15. -/
  | andi (d : GReg) (a : GReg) (imm : Imm15)
  /-- ORI (R71): g[d] := g[a] OR sign-extended imm15. -/
  | ori (d : GReg) (a : GReg) (imm : Imm15)
  /-- XORI (R71): g[d] := g[a] XOR sign-extended imm15. -/
  | xori (d : GReg) (a : GReg) (imm : Imm15)
  /-- SLTI (R71): g[d] := 1 if g[a] < imm as int64, else 0. -/
  | slti (d : GReg) (a : GReg) (imm : Imm15)
  /-- SLLI (R72): Shift g[a] left by an immediate amount. -/
  | slli (d : GReg) (a : GReg) (n : Sh6)
  /-- SRLI (R72): Shift g[a] right logically by an immediate amount. -/
  | srli (d : GReg) (a : GReg) (n : Sh6)
  /-- SRAI (R72): Shift g[a] right arithmetically by an immediate amount. -/
  | srai (d : GReg) (a : GReg) (n : Sh6)
  /-- RORI (R72): Rotate g[a] right by an immediate amount. -/
  | rori (d : GReg) (a : GReg) (n : Sh6)
  /-- LDK (R73): Load a 64-bit literal from the code space relative to pc, parking on a page request. -/
  | ldk (d : GReg) (imm : Imm15)
  /-- SETX (R42): Write g[a] into an e-register and set it full. -/
  | setx (e : EReg) (a : GReg)
  /-- GETX (R42): Read an e-register into g[d]. -/
  | getx (d : GReg) (e : EReg)
  /-- BEQ (R75): Branch when g[a] equals g[b]. -/
  | beq (a : GReg) (b : GReg) (off : Off12)
  /-- BNE (R75): Branch when g[a] differs from g[b]. -/
  | bne (a : GReg) (b : GReg) (off : Off12)
  /-- BLT (R75): Branch when g[a] < g[b] as int64. -/
  | blt (a : GReg) (b : GReg) (off : Off12)
  /-- BGE (R75): Branch when g[a] >= g[b] as int64. -/
  | bge (a : GReg) (b : GReg) (off : Off12)
  /-- BLTN (R75): Branch when g[a] < g[b] as nat64. -/
  | bltn (a : GReg) (b : GReg) (off : Off12)
  /-- BGEN (R75): Branch when g[a] >= g[b] as nat64. -/
  | bgen (a : GReg) (b : GReg) (off : Off12)
  /-- BBS (R75): Branch when bit b of g[a] is 1. -/
  | bbs (a : GReg) (bit : GReg) (off : Off12)
  /-- BBC (R75): Branch when bit b of g[a] is 0. -/
  | bbc (a : GReg) (bit : GReg) (off : Off12)
  /-- JAL (R76): Jump pc-relative and write the return address. -/
  | jal (d : GReg) (off : Off20)
  /-- JALR (R76): Jump to g[a] + imm, trapping on an odd target, and write the link. -/
  | jalr (d : GReg) (a : GReg) (imm : Imm15)
  /-- PARK (R77): Park the thread until the timebase reaches g[a]. -/
  | park (a : GReg)
  /-- CSRR (R67): Read a CSR into g[d]. -/
  | csrr (d : GReg) (csr : CsrNo)
  /-- CSRW (R67): Write g[a] to the RW bits of a CSR, clearing RC bits where the mask is 1. -/
  | csrw (csr : CsrNo) (a : GReg)
  /-- CSRS (R67): Return the old CSR value and set the bits of g[a]. -/
  | csrs (d : GReg) (csr : CsrNo) (a : GReg)
  /-- CSRC (R67): Return the old CSR value and clear the bits of g[a]. -/
  | csrc (d : GReg) (csr : CsrNo) (a : GReg)
  /-- CSRX (R67): Return the old CSR value and write g[a]. -/
  | csrx (d : GReg) (csr : CsrNo) (a : GReg)
  /-- LDL (R93): Long load from the tile's own L-store. -/
  | ldl (la : La) (imm : Imm8) (w : Width) (a : GReg) (d : GReg)
  /-- STL (R93): Long store to the tile's own L-store. -/
  | stl (la : La) (imm : Imm8) (w : Width) (a : GReg) (d : GReg)
  /-- LDM (R93): Long load from any tile's L-store by mesh address. -/
  | ldm (la : La) (imm : Imm8) (w : Width) (a : GReg) (d : GReg)
  /-- STM (R93): Long store to any tile's L-store by mesh address. -/
  | stm (la : La) (imm : Imm8) (w : Width) (a : GReg) (d : GReg)
  /-- LDG (R93): Long load from global memory through the G read cache. -/
  | ldg (la : La) (imm : Imm8) (w : Width) (a : GReg) (d : GReg)
  /-- STG (R93): Long store to global memory, written through. -/
  | stg (la : La) (imm : Imm8) (w : Width) (a : GReg) (d : GReg)
  /-- LDH (R139): Read a neighbour's window word at the version fixed by distance and lag. -/
  | ldh (la : La) (imm : Imm8) (natural : Bool) (a : GReg) (d : GReg)
  /-- PUB (R140): Write a word of the tile's publish row. -/
  | pub (la : La) (imm : Imm8) (a : GReg) (d : GReg)
  /-- LDWS (R93): Long load from the W-store. -/
  | ldws (la : La) (imm : Imm8) (w : Width) (a : GReg) (d : GReg)
  /-- STWS (R93): Long store to the W-store. -/
  | stws (la : La) (imm : Imm8) (w : Width) (a : GReg) (d : GReg)
  /-- LDAS (R93): Long load from the A-store. -/
  | ldas (la : La) (imm : Imm8) (w : Width) (a : GReg) (d : GReg)
  /-- STAS (R93): Long store to the A-store. -/
  | stas (la : La) (imm : Imm8) (w : Width) (a : GReg) (d : GReg)
  /-- LDCS (R87): Long load from the C-store, parking while a touched accumulator tile is empty. -/
  | ldcs (la : La) (imm : Imm8) (w : Width) (a : GReg) (d : GReg)
  /-- STCS (R87): Long store to the C-store, parking while a touched accumulator tile is empty. -/
  | stcs (la : La) (imm : Imm8) (w : Width) (a : GReg) (d : GReg)
  /-- LDFL_C (R97): Consume an L word when full, leaving it empty; acquire. -/
  | ldflC (imm : Imm8) (sz : FeSize) (a : GReg) (d : GReg)
  /-- LDFL_P (R97): Peek an L word when full, leaving it full; acquire. -/
  | ldflP (imm : Imm8) (sz : FeSize) (a : GReg) (d : GReg)
  /-- STFL_F (R97): Fill an empty L word and set it full; release. -/
  | stflF (imm : Imm8) (sz : FeSize) (a : GReg) (d : GReg)
  /-- STFL_X (R97): Write an L word unconditionally and set it full; release. -/
  | stflX (imm : Imm8) (sz : FeSize) (a : GReg) (d : GReg)
  /-- STFL_E (R97): Set an L word empty without changing data. -/
  | stflE (imm : Imm8) (a : GReg)
  /-- LDFM_C (R97): Consume a mesh word when full; device-scope acquire. -/
  | ldfmC (imm : Imm8) (sz : FeSize) (a : GReg) (d : GReg)
  /-- LDFM_P (R97): Peek a mesh word when full; device-scope acquire. -/
  | ldfmP (imm : Imm8) (sz : FeSize) (a : GReg) (d : GReg)
  /-- STFM_F (R97): Fill an empty mesh word; device-scope release. -/
  | stfmF (imm : Imm8) (sz : FeSize) (a : GReg) (d : GReg)
  /-- STFM_X (R97): Write a mesh word unconditionally and set it full. -/
  | stfmX (imm : Imm8) (sz : FeSize) (a : GReg) (d : GReg)
  /-- STFM_E (R97): Set a mesh word empty. -/
  | stfmE (imm : Imm8) (a : GReg)
  /-- LDFG_C (R97): Consume a device-memory doubleword when full. -/
  | ldfgC (imm : Imm8) (a : GReg) (d : GReg)
  /-- LDFG_P (R97): Peek a device-memory doubleword when full. -/
  | ldfgP (imm : Imm8) (a : GReg) (d : GReg)
  /-- STFG_F (R97): Fill an empty device-memory doubleword. -/
  | stfgF (imm : Imm8) (a : GReg) (d : GReg)
  /-- STFG_X (R97): Write a device-memory doubleword and set it full. -/
  | stfgX (imm : Imm8) (a : GReg) (d : GReg)
  /-- STFG_E (R97): Set a device-memory doubleword empty. -/
  | stfgE (imm : Imm8) (a : GReg)
  /-- AMO_ADD_W (R104): Atomic 32-bit add at the home, returning the old value. -/
  | amoAddW (sp : AmoSpace) (o : AmoOrder) (sc : Scope) (d : GReg) (b : GReg) (a : GReg)
  /-- AMO_ADD_D (R104): Atomic 64-bit add. -/
  | amoAddD (sp : AmoSpace) (o : AmoOrder) (sc : Scope) (d : GReg) (b : GReg) (a : GReg)
  /-- AMO_AND_D (R104): Atomic AND. -/
  | amoAndD (sp : AmoSpace) (o : AmoOrder) (sc : Scope) (d : GReg) (b : GReg) (a : GReg)
  /-- AMO_OR_D (R104): Atomic OR. -/
  | amoOrD (sp : AmoSpace) (o : AmoOrder) (sc : Scope) (d : GReg) (b : GReg) (a : GReg)
  /-- AMO_XOR_D (R104): Atomic XOR. -/
  | amoXorD (sp : AmoSpace) (o : AmoOrder) (sc : Scope) (d : GReg) (b : GReg) (a : GReg)
  /-- AMO_MIN_D (R104): Atomic signed minimum. -/
  | amoMinD (sp : AmoSpace) (o : AmoOrder) (sc : Scope) (d : GReg) (b : GReg) (a : GReg)
  /-- AMO_MAX_D (R104): Atomic signed maximum. -/
  | amoMaxD (sp : AmoSpace) (o : AmoOrder) (sc : Scope) (d : GReg) (b : GReg) (a : GReg)
  /-- AMO_MINN_D (R104): Atomic natural minimum. -/
  | amoMinnD (sp : AmoSpace) (o : AmoOrder) (sc : Scope) (d : GReg) (b : GReg) (a : GReg)
  /-- AMO_MAXN_D (R104): Atomic natural maximum. -/
  | amoMaxnD (sp : AmoSpace) (o : AmoOrder) (sc : Scope) (d : GReg) (b : GReg) (a : GReg)
  /-- AMO_SWAP_W (R104): Atomic 32-bit swap. -/
  | amoSwapW (sp : AmoSpace) (o : AmoOrder) (sc : Scope) (d : GReg) (b : GReg) (a : GReg)
  /-- AMO_SWAP_D (R104): Atomic 64-bit swap. -/
  | amoSwapD (sp : AmoSpace) (o : AmoOrder) (sc : Scope) (d : GReg) (b : GReg) (a : GReg)
  /-- AMO_CAS_W (R104): Atomic 32-bit compare-and-swap against g[d]. -/
  | amoCasW (sp : AmoSpace) (o : AmoOrder) (sc : Scope) (d : GReg) (b : GReg) (a : GReg)
  /-- AMO_CAS_D (R104): Atomic 64-bit compare-and-swap against g[d]. -/
  | amoCasD (sp : AmoSpace) (o : AmoOrder) (sc : Scope) (d : GReg) (b : GReg) (a : GReg)
  /-- AMO_FADD_U (R104): Atomic FP32 add in arrival order, unordered encoding. -/
  | amoFaddU (sp : AmoSpace) (o : AmoOrder) (sc : Scope) (d : GReg) (b : GReg) (a : GReg)
  /-- AMO_FMAX (R104): Atomic FP32 maximum. -/
  | amoFmax (sp : AmoSpace) (o : AmoOrder) (sc : Scope) (d : GReg) (b : GReg) (a : GReg)
  /-- AMO_FMIN (R104): Atomic FP32 minimum. -/
  | amoFmin (sp : AmoSpace) (o : AmoOrder) (sc : Scope) (d : GReg) (b : GReg) (a : GReg)
  /-- AMO_ESADD (R107): Add an FP32 value exactly into an exact-sum cell. -/
  | amoEsadd (sp : AmoSpace) (o : AmoOrder) (sc : Scope) (b : GReg) (a : GReg)
  /-- AMO_ESRD (R107): Read an exact-sum cell rounded to FP32. -/
  | amoEsrd (sp : AmoSpace) (o : AmoOrder) (sc : Scope) (d : GReg) (a : GReg)
  /-- AMO_ESCLR (R107): Clear an exact-sum cell. -/
  | amoEsclr (sp : AmoSpace) (o : AmoOrder) (sc : Scope) (a : GReg)
  /-- SPAWN (R249): Start a child thread on a named tile of the group, or run it inline. -/
  | spawn (d : GReg) (a : GReg) (b : GReg)
  /-- SPAWN_H (R249): Start a child thread on a tile chosen by hashing its fork path, or inline. -/
  | spawnH (d : GReg) (a : GReg) (b : GReg)
  /-- SENDM (R181): Post a tag and payload to a tile mailbox as a release; a sequencer then ends. -/
  | sendm (d : GReg) (a : GReg) (b : GReg)
  /-- RECVM (R181): Pop the mailbox head as an acquire. -/
  | recvm (d : GReg) (a : GReg)
  /-- RECVM_O (R181): Pop the entry whose tag equals mnext and advance mnext. -/
  | recvmO (d : GReg) (a : GReg)
  /-- PEEKM (R181): Read the mailbox count and head tag. -/
  | peekm (d : GReg) (a : GReg)
  /-- CLRE (R81): Set a g, e or v register empty. -/
  | clre (cls : ClreClass) (i : GReg)
  /-- ISFULL (R82): Read the full/empty bit of a designated register. -/
  | isfull (d : GReg) (cls : RegClass) (i : GReg)
  /-- PUTR (R84): Long operation that fills a register of another thread when it is empty. -/
  | putr (la : La) (a : GReg) (b : GReg)
  /-- FORK (R178): Start one or both sequencers together into the fork set. -/
  | fork (mask : SeqMask) (ea : EReg) (eb : EReg)
  /-- KICK (R177): Release, wait for the sequencer to be idle, and start it at a pc. -/
  | kick (vector : Bool) (ea : EReg)
  /-- WLPUSH (R252): Push two doublewords on the tile work list as a release. -/
  | wlpush (d : GReg) (a : GReg) (b : GReg)
  /-- WLPOP (R252): Pop the top work-list entry as an acquire. -/
  | wlpop (d : GReg) (a : GReg)
  /-- WLCNT (R252): Read the work-list count. -/
  | wlcnt (d : GReg)
  /-- TBAR (R147): Arrive at the tile barrier and wait for its generation. -/
  | tbar (d : GReg)
  /-- QBAR (R147): Arrive at the quad barrier and wait for its generation. -/
  | qbar (d : GReg)
  /-- CLBAR (R147): Arrive at the cluster barrier and wait for its generation. -/
  | clbar (d : GReg)
  /-- STEPIDLE (R136): Supervisor: put a tile's step counter in the idle state. -/
  | stepidle (a : GReg)
  /-- CPY_LM (R186): Check and hand to the porter a copy from local space to a mesh tile or register. -/
  | cpyLm (la : La) (n : GLow) (ec : EReg) (eb : EReg) (ea : EReg)
  /-- CPY_GL (R186): Check and hand to the porter a copy from G to local space or a register. -/
  | cpyGl (la : La) (n : GLow) (ec : EReg) (eb : EReg) (ea : EReg)
  /-- CPY_LG (R186): Check and hand to the porter a copy from local space to G. -/
  | cpyLg (la : La) (n : GLow) (ec : EReg) (eb : EReg) (ea : EReg)
  /-- CPY_GG (R186): Check and hand to the porter a copy from G to G. -/
  | cpyGg (la : La) (n : GLow) (ec : EReg) (eb : EReg) (ea : EReg)
  /-- CPYX (R190): Cancel the thread's moving or pending copies with a given tag. -/
  | cpyx (n : GLow)
  /-- LAUNCH (R242): Link a node to its queue and arm the queue in one action at the home. -/
  | launch (ea : EReg)
  /-- VADD (R192): Vector floating-point add. -/
  | vadd (t : FTy) (rm : Rm) (k : KReg) (b : VReg) (a : VReg) (d : VReg)
  /-- VSUB (R192): Vector floating-point subtract. -/
  | vsub (t : FTy) (rm : Rm) (k : KReg) (b : VReg) (a : VReg) (d : VReg)
  /-- VMUL (R192): Vector floating-point multiply. -/
  | vmul (t : FTy) (rm : Rm) (k : KReg) (b : VReg) (a : VReg) (d : VReg)
  /-- VFMA (R192): Vector fused A x B + D. -/
  | vfma (t : FTy) (rm : Rm) (k : KReg) (b : VReg) (a : VReg) (d : VReg)
  /-- VFMS (R192): Vector fused A x B - D. -/
  | vfms (t : FTy) (rm : Rm) (k : KReg) (b : VReg) (a : VReg) (d : VReg)
  /-- VFNMA (R192): Vector fused D - A x B. -/
  | vfnma (t : FTy) (rm : Rm) (k : KReg) (b : VReg) (a : VReg) (d : VReg)
  /-- VMAX (R192): Vector maximum by the FMAX rule. -/
  | vmax (t : FTy) (k : KReg) (b : VReg) (a : VReg) (d : VReg)
  /-- VMIN (R192): Vector minimum by the FMIN rule. -/
  | vmin (t : FTy) (k : KReg) (b : VReg) (a : VReg) (d : VReg)
  /-- VABS (R192): Vector absolute value. -/
  | vabs (t : FTy) (k : KReg) (a : VReg) (d : VReg)
  /-- VNEG (R192): Vector negation. -/
  | vneg (t : FTy) (k : KReg) (a : VReg) (d : VReg)
  /-- VCEQ (R192): Vector equality compare into a mask register. -/
  | vceq (t : FTy) (k : KReg) (b : VReg) (a : VReg) (kd : KReg)
  /-- VCLT (R192): Vector less-than compare into a mask register. -/
  | vclt (t : FTy) (k : KReg) (b : VReg) (a : VReg) (kd : KReg)
  /-- VCLE (R192): Vector less-or-equal compare into a mask register. -/
  | vcle (t : FTy) (k : KReg) (b : VReg) (a : VReg) (kd : KReg)
  /-- VSEL (R192): Select A or B per lane by mask. -/
  | vsel (t : FTy) (k : KReg) (b : VReg) (a : VReg) (d : VReg)
  /-- VRCP (R192): Vector reciprocal, correctly rounded. -/
  | vrcp (t : FTy) (rm : Rm) (k : KReg) (a : VReg) (d : VReg)
  /-- VRSQ (R192): Vector reciprocal square root. -/
  | vrsq (t : FTy) (rm : Rm) (k : KReg) (a : VReg) (d : VReg)
  /-- VSQRT (R192): Vector square root. -/
  | vsqrt (t : FTy) (rm : Rm) (k : KReg) (a : VReg) (d : VReg)
  /-- VEXP2 (R192): Vector base-2 exponential, faithfully rounded. -/
  | vexp2 (t : FTy) (k : KReg) (a : VReg) (d : VReg)
  /-- VLOG2 (R192): Vector base-2 logarithm. -/
  | vlog2 (t : FTy) (k : KReg) (a : VReg) (d : VReg)
  /-- VTANH (R192): Vector hyperbolic tangent. -/
  | vtanh (t : FTy) (k : KReg) (a : VReg) (d : VReg)
  /-- VAMAXU (R193): Raise the running maximum of a scale-table entry by the largest magnitude of va. -/
  | vamaxu (t : FTy) (k : KReg) (j : Slot4) (a : VReg)
  /-- VIADD (R194): Vector integer add. -/
  | viadd (t : ITy) (k : KReg) (b : VReg) (a : VReg) (d : VReg)
  /-- VISUB (R194): Vector integer subtract. -/
  | visub (t : ITy) (k : KReg) (b : VReg) (a : VReg) (d : VReg)
  /-- VIMUL (R194): Vector integer multiply, low half. -/
  | vimul (t : ITy) (k : KReg) (b : VReg) (a : VReg) (d : VReg)
  /-- VIAND (R194): Vector bitwise AND. -/
  | viand (t : ITy) (k : KReg) (b : VReg) (a : VReg) (d : VReg)
  /-- VIOR (R194): Vector bitwise OR. -/
  | vior (t : ITy) (k : KReg) (b : VReg) (a : VReg) (d : VReg)
  /-- VIXOR (R194): Vector bitwise XOR. -/
  | vixor (t : ITy) (k : KReg) (b : VReg) (a : VReg) (d : VReg)
  /-- VISHL (R194): Vector shift left. -/
  | vishl (t : ITy) (k : KReg) (b : VReg) (a : VReg) (d : VReg)
  /-- VISHR (R194): Vector logical shift right. -/
  | vishr (t : ITy) (k : KReg) (b : VReg) (a : VReg) (d : VReg)
  /-- VISRA (R194): Vector arithmetic shift right. -/
  | visra (t : ITy) (k : KReg) (b : VReg) (a : VReg) (d : VReg)
  /-- VIMIN (R194): Vector integer minimum. -/
  | vimin (t : ITy) (k : KReg) (b : VReg) (a : VReg) (d : VReg)
  /-- VIMAX (R194): Vector integer maximum. -/
  | vimax (t : ITy) (k : KReg) (b : VReg) (a : VReg) (d : VReg)
  /-- VIADDS (R194): Vector saturating add. -/
  | viadds (t : ITy) (k : KReg) (b : VReg) (a : VReg) (d : VReg)
  /-- VISUBS (R194): Vector saturating subtract. -/
  | visubs (t : ITy) (k : KReg) (b : VReg) (a : VReg) (d : VReg)
  /-- VICEQ (R194): Vector integer equality compare into a mask. -/
  | viceq (t : ITy) (k : KReg) (b : VReg) (a : VReg) (kd : KReg)
  /-- VICLT (R194): Vector integer less-than compare into a mask. -/
  | viclt (t : ITy) (k : KReg) (b : VReg) (a : VReg) (kd : KReg)
  /-- VCVT (R165): Narrow FP32 lanes into a format or widen a part back to FP32. -/
  | vcvt (t : CTy) (rm : Rm) (j : Slot4) (widen : Bool) (part : Slot4) (a : VReg) (d : VReg)
  /-- VQUANT (R166): Quantise 32 FP32 elements with block or delayed scales. -/
  | vquant (t : CTy) (rm : Rm) (j : Slot4) (mode : Slot4) (a : VReg) (d : VReg)
  /-- VQUANTV (R167): Quantise 64 elements with variable blocks drawn by a bitmap. -/
  | vquantv (t : CTy) (rm : Rm) (j : Slot4) (thr : Nib) (a : VReg) (d : VReg)
  /-- VDEQ (R168): Decode a quantised layout back to FP32. -/
  | vdeq (t : CTy) (rm : Rm) (j : Slot4) (mode : Slot4) (a : VReg) (d : VReg)
  /-- SCLNEXT (R169): Advance a scale-table entry's ring and compute the next scale at its home. -/
  | sclnext (t : CTy) (j : Slot4)
  /-- VPACK (R170): Pack byte containers into nibbles. -/
  | vpack (t : CTy) (j : Slot4) (b : VReg) (a : VReg) (d : VReg)
  /-- VUNPK (R170): Unpack nibbles into byte containers. -/
  | vunpk (t : CTy) (j : Slot4) (h : Bool) (a : VReg) (d : VReg)
  /-- VRSUM_O (R195): Sum present elements by the index-keyed tree into lane 0. -/
  | vrsumO (t : FTy) (k : KReg) (c : Nib) (a : VReg) (d : VReg)
  /-- VRSUM_U (R195): Sum present elements by an unspecified tree, unordered encoding. -/
  | vrsumU (t : FTy) (k : KReg) (c : Nib) (a : VReg) (d : VReg)
  /-- VRMAX (R195): Reduce to the maximum. -/
  | vrmax (t : FTy) (k : KReg) (c : Nib) (a : VReg) (d : VReg)
  /-- VRAMAX (R195): Reduce to the largest magnitude. -/
  | vramax (t : FTy) (k : KReg) (c : Nib) (a : VReg) (d : VReg)
  /-- VRMIN (R195): Reduce to the minimum. -/
  | vrmin (t : FTy) (k : KReg) (c : Nib) (a : VReg) (d : VReg)
  /-- VSHUF (R196): Permute elements by indices in vb. -/
  | vshuf (t : EltW) (k : KReg) (b : VReg) (a : VReg) (d : VReg)
  /-- VBCAST (R196): Broadcast one element to all elements. -/
  | vbcast (t : EltW) (k : KReg) (n : Nib) (a : VReg) (d : VReg)
  /-- VINS (R196): Insert a g-register into one lane. -/
  | vins (g : GReg) (n : Nib) (d : VReg)
  /-- VEXT (R196): Extract one lane into a g-register. -/
  | vext (g : GReg) (n : Nib) (a : VReg)
  /-- VSLIDE (R196): Slide elements down by n, filling with zero. -/
  | vslide (t : EltW) (k : KReg) (n : Nib) (a : VReg) (d : VReg)
  /-- MLD (R205): Load a stationary operand from the W-store into a PE bank. -/
  | mld (la : La) (bank : Bool) (ea : EReg)
  /-- MMA (R206): Stream A-store rows against the bank, accumulating X.S into tiles. -/
  | mma (la : La) (n : CTile) (bank : Bool) (ea : EReg)
  /-- MMA_LATCH (R206): Stream the ring latch against the bank, accumulating X.S into tiles. -/
  | mmaLatch (la : La) (n : CTile) (bank : Bool)
  /-- MMAT (R206): Stream A-store rows, accumulating G.S transposed into tiles. -/
  | mmat (la : La) (n : CTile) (bank : Bool) (ea : EReg)
  /-- MMAT_LATCH (R206): Stream the ring latch, accumulating G.S transposed into tiles. -/
  | mmatLatch (la : La) (n : CTile) (bank : Bool)
  /-- MOUT (R207): Add the outer product X transposed times G into the bank's in-array accumulator. -/
  | mout (la : La) (bank : Bool) (eb : EReg) (ea : EReg)
  /-- MDRAIN (R208): Copy a bank's in-array accumulator into an accumulator tile. -/
  | mdrain (la : La) (n : CTile) (bank : Bool)
  /-- MZERO (R208): Clear an accumulator tile and a bank's in-array accumulator. -/
  | mzero (la : La) (n : CTile) (bank : Bool)
  /-- RINGDEF (R216): Name the tile's ring successor. -/
  | ringdef (la : La) (ea : EReg)
  /-- LATCH (R217): Copy an operand block from the A-store into the empty ring latch. -/
  | latch (la : La) (ea : EReg)
  /-- QINIT (R223): Reset a Q-fold to compact with no reflectors. -/
  | qinit (la : La) (q : QReg)
  /-- QHH (R229): Generate and stage a Householder reflector from a tile column. -/
  | qhh (la : La) (n : CTile) (q : QReg) (ea : EReg)
  /-- QAPP (R230): Append the staged reflector to the fold. -/
  | qapp (la : La) (q : QReg)
  /-- QGEN (R230): Generate a reflector and append it in one instruction. -/
  | qgen (la : La) (n : CTile) (q : QReg) (ea : EReg)
  /-- QAPL (R231): Replace a tile X by Q.X. -/
  | qapl (la : La) (n : CTile) (q : QReg)
  /-- QAPLT (R231): Replace a tile X by Q transposed times X. -/
  | qaplt (la : La) (n : CTile) (q : QReg)
  /-- QAPR (R231): Replace a tile X by X.Q. -/
  | qapr (la : La) (n : CTile) (q : QReg)
  /-- QAPRT (R231): Replace a tile X by X times Q transposed. -/
  | qaprt (la : La) (n : CTile) (q : QReg)
  /-- QDENSE (R233): Write the explicit Q into a tile. -/
  | qdense (la : La) (n : CTile) (q : QReg)
  /-- QSAVE (R232): Save a fold into two accumulator tiles. -/
  | qsave (la : La) (n : CTile) (q : QReg)
  /-- QLOAD (R232): Load a fold from two accumulator tiles. -/
  | qload (la : La) (n : CTile) (q : QReg)
  /-- GQPUSH (R308): Push an entry to a gradient queue, parking at the home for a credit. -/
  | gqpush (b : GReg) (a : GReg) (d : VReg)
  /-- GQPOP (R308): Pop and decode the oldest gradient-queue entry as an acquire. -/
  | gqpop (b : GReg) (a : GReg) (d : VReg)
  /-- GQWIN (R308): Grant credits to pushers of the receiver's queue. -/
  | gqwin (b : GReg) (a : GReg)
  /-- GQLEN (R308): Read a queue's occupancy and credits at its home. -/
  | gqlen (d : GReg) (a : GReg)
  /-- OPT_ADAMW (R311): Mender: apply fused AdamW updates over a gradient stream. -/
  | optAdamw (la : La) (ec : EReg) (eb : EReg) (ea : EReg)
  /-- OPT_SGDM (R311): Mender: apply fused SGD-with-momentum updates. -/
  | optSgdm (la : La) (ec : EReg) (eb : EReg) (ea : EReg)
  /-- OPT_CLIP (R311): Mender: scale a gradient stream by the clip factor. -/
  | optClip (la : La) (ec : EReg) (ea : EReg)
  /-- EPOPEN (R317): Open an episode entry in the claim-ticket table and return a ticket. -/
  | epopen (d : GReg) (a : GReg) (b : GReg)
  /-- EPREC (R317): Record a step's value estimate and done bit. -/
  | eprec (d : GReg) (a : GReg) (b : GReg)
  /-- EPCLOSE (R317): Close an episode and take its close number. -/
  | epclose (d : GReg) (a : GReg)
  /-- RWSEND (R318): Send a reward message to a table on this or a linked device. -/
  | rwsend (d : GReg) (a : GReg) (b : GReg)
  /-- EPSTAT (R317): Read an episode entry's state, count and rewards present. -/
  | epstat (d : GReg) (a : GReg)
  /-- COLL_DECL (R335): Declare a collective group from a group descriptor. -/
  | collDecl (la : La) (n : GLow) (ea : EReg)
  /-- COLL_AG (R337): All-gather across the members of a group. -/
  | collAg (la : La) (n : GLow) (ec : EReg) (eb : EReg) (ea : EReg)
  /-- COLL_RS_O (R337): Reduce-scatter with the ordered tree. -/
  | collRsO (la : La) (n : GLow) (ec : EReg) (eb : EReg) (ea : EReg)
  /-- COLL_RS_U (R337): Reduce-scatter in arrival order, unordered encoding. -/
  | collRsU (la : La) (n : GLow) (ec : EReg) (eb : EReg) (ea : EReg)
  /-- COLL_AR_O (R337): All-reduce with the ordered tree. -/
  | collArO (la : La) (n : GLow) (ec : EReg) (eb : EReg) (ea : EReg)
  /-- COLL_AR_U (R337): All-reduce in arrival order, unordered encoding. -/
  | collArU (la : La) (n : GLow) (ec : EReg) (eb : EReg) (ea : EReg)
  /-- COLL_A2A (R337): All-to-all exchange across members. -/
  | collA2a (la : La) (n : GLow) (ec : EReg) (eb : EReg) (ea : EReg)
  /-- COLL_BAR (R337): Barrier across the live members of a group. -/
  | collBar (la : La) (n : GLow) (ec : EReg)
  /-- TLBINV (R287): Supervisor: drop matching TLB and walk-cache entries on every die. -/
  | tlbinv (b : GReg) (a : GReg)
  /-- TLBPROBE (R288): Supervisor: translate an address without side effects and return the leaf. -/
  | tlbprobe (d : GReg) (a : GReg)
  /-- LKCTL_STATUS (R330): Supervisor: return a device link's status word. -/
  | lkctlStatus (d : GReg) (a : GReg) (b : GReg)
  /-- SWREQ_SWITCH (R275): Supervisor: request a gang switch of a partition at time T. -/
  | swreqSwitch (d : GReg) (a : GReg)
  /-- REPORT (R275): Supervisor: post a kind-11 record to the report queue. -/
  | report (b : GReg) (a : GReg)
  /-- C_ADDI (R44): Compact ADDI d, d, imm7. -/
  | cAddi (d : GReg) (imm : Imm7)
  /-- C_MOV (R44): Compact ADD d, a, g0. -/
  | cMov (d : GReg) (a : GReg)
  /-- C_ADD (R44): Compact ADD d, d, a. -/
  | cAdd (d : GReg) (a : GReg)
  /-- C_SUB (R44): Compact SUB d, d, a. -/
  | cSub (d : GReg) (a : GReg)
  /-- C_AND (R44): Compact AND d, d, a. -/
  | cAnd (d : GReg) (a : GReg)
  /-- C_LDL_D (R44): Compact doubleword L load with an unsigned offset. -/
  | cLdlD (off : Nib) (a : EReg) (d : GReg)
  /-- C_STL_D (R44): Compact doubleword L store with an unsigned offset. -/
  | cStlD (off : Nib) (a : EReg) (d : GReg)
  /-- C_BEQZ (R44): Compact branch when g[a] is zero. -/
  | cBeqz (off : Imm7) (a : GReg)
  /-- C_BNEZ (R44): Compact branch when g[a] is nonzero. -/
  | cBnez (off : Imm7) (a : GReg)
  /-- C_J (R44): Compact jump. -/
  | cJ (off : Off12)
  /-- TID (R85): g[d] := tile number x 8 + slot. -/
  | tid (d : GReg)
  /-- BROT (R218): Pass the latch block to the successor when it may move. -/
  | brot (la : La)
  /-- C_CLRE (R45): Compact CLRE of a g-register. -/
  | cClre (d : GReg)
  /-- NOP (R77): No effect. -/
  | nop
  /-- FENCE_ACQ (R109): Acquire fence: invalidate the G read cache and hold later accesses. -/
  | fenceAcq
  /-- FENCE_REL (R109): Release fence: wait until earlier writes are acknowledged. -/
  | fenceRel
  /-- FENCE_FULL (R109): Release then acquire. -/
  | fenceFull
  /-- ECALL (R77): Trap with cause 0x04 or 0x05 by mode. -/
  | ecall
  /-- EBREAK (R77): Trap with cause 0x06. -/
  | ebreak
  /-- TRET (R77): Return from a handler to tepc and clear INH, or trap illegal if INH is 0. -/
  | tret
  /-- IFENCE (R77): Wait for outstanding operations and store acknowledgements, then invalidate the tile instruction cache. -/
  | ifence
  /-- FENCE_LB (R109): Order the private and loop-back paths of the thread. -/
  | fenceLb
  /-- WAITM (R181): Park until the mailbox holds an entry. -/
  | waitm
  /-- EXIT (R79): Wait for outstanding operations, then free the slot or return to the inline parent. -/
  | exit
  /-- YIELD (R80): Step out of the rotation until every other ready slot has issued. -/
  | yield
  /-- RDV (R178): Wait until the fork set is empty, acquire, and trap with a recorded fault. -/
  | rdv
  /-- STEP (R135): Record arrival for the current step and park until the tile advances. -/
  | step
  /-- CPYQ (R189): Write the thread's active and pending copy counts to cpyq. -/
  | cpyq
  /-- C_SYS_NOP (R45): Compact NOP, used for padding. -/
  | cSysNop
  /-- C_STEP (R45): Compact STEP. -/
  | cStep
  /-- C_YIELD (R45): Compact YIELD. -/
  | cYield
  /-- C_EXIT (R45): Compact EXIT. -/
  | cExit
  /-- C_RET (R45): Compact JALR g0, g1, 0. -/
  | cRet
  /-- C_WAITM (R45): Compact WAITM. -/
  | cWaitm
  /-- BRING_UP (R343): At the end of power-on reset, verify images, train stacks and host ports, and set boot. -/
  | bringUp
  /-- ATTESTATION_START (R346): A host write of ATT = 1 starts building a signed attestation report. -/
  | attestationStart
  /-- ATTESTATION_DONE (R346): The report is written at offset 0x1000 and ABUSY clears. -/
  | attestationDone
  /-- THERMAL_TRIP (R342): A junction sensor reaching 105 C sets TRIP and sends the thermal MSI-X vector. -/
  | thermalTrip
  /-- TRIP_CLEAR (R342): A host write of 1 clears TRIP, which is set again while a sensor stays hot. -/
  | tripClear
  /-- REGISTER_WRITE (R345): Host write to a register with no behaviour of its own, such as devid, tvec, the nonce or dper. -/
  | registerWrite
  /-- ARM_ALIAS_STORE (R259): A host CXL.mem store to a context's arm alias writes a queue's arm word and sets it full. -/
  | armAliasStore
  /-- REWARD_WINDOW_WRITE (R318): A host 64-byte write to the reward window sends a reward message to the claim-ticket table. -/
  | rewardWindowWrite
  /-- HOST_MEM_ACCESS (R96): A host CXL.mem read or write of device memory, keeping full/empty state and returning poison indication. -/
  | hostMemAccess
  /-- QUEUE_WALK (R260): The queue unit consumes a full arm word and walks the queue's new nodes. -/
  | queueWalk
  /-- PERIOD_BOUNDARY (R263): Every 100,000 ns each queue unit reassigns its 64 slots by rank. -/
  | periodBoundary
  /-- NODE_DISPATCH (R261): A mapped queue dispatches a ready node, running a copy, marker or host notify, or starting a kernel load. -/
  | nodeDispatch
  /-- KERNEL_CHECKING (R239): Read the kernel header and pool table, scan the code image and compute the promise, or refuse. -/
  | kernelChecking
  /-- GROUP_PLACEMENT (R258): Reserve the group rectangles once the tiles are free. -/
  | groupPlacement
  /-- GROUP_LOAD (R143): Load stores, window images and work packets into every tile of a group. -/
  | groupLoad
  /-- GROUP_RELEASE (R144): Every tile of a loaded group is released in one cycle at step 0. -/
  | groupRelease
  /-- GROUP_RETIRE (R245): When every slot is free or trapped and no engine or copy runs, the group retires and resets its tiles. -/
  | groupRetire
  /-- LONG_OP_COMPLETE (R60): A long operation completes, writing its destination full and waking readers. -/
  | longOpComplete
  /-- REGISTER_WAIT_LIMIT (R57): A wait on an empty register, tile, fold or latch reaches wlim and traps with 0x33. -/
  | registerWaitLimit
  /-- FE_WAIT_LIMIT (R99): A full/empty wait reaches wlim; a withdrawal is sent and the request completes or traps. -/
  | feWaitLimit
  /-- FE_LIST_FULL_RETRY (R98): A request refused by a full wait list is sent again 64 cycles later. -/
  | feListFullRetry
  /-- PUTR_FILL (R84): A pending fill writes the target register once it is empty, completing the PUTR. -/
  | putrFill
  /-- PUTR_RETRY (R84): A PUTR refused for a full fill buffer is sent again 64 cycles later. -/
  | putrRetry
  /-- PARK_DEADLINE (R77): The timebase reaches a PARK deadline and the thread becomes ready. -/
  | parkDeadline
  /-- SPAWN_ANSWER (R249): The target tile answers a SPAWN, starting the child or sending it inline. -/
  | spawnAnswer
  /-- STEP_ADVANCE (R131): The tile advances its step when all enrolled slots arrived and neighbours allow, committing the window version. -/
  | stepAdvance
  /-- STEPWATCH_REPORT (R142): A tile waiting stepwatch us on a held neighbour posts a step-wait report. -/
  | stepwatchReport
  /-- BARRIER_GENERATION_COMPLETE (R147): A barrier generation completes when every participant has arrived, waking the waiting slots. -/
  | barrierGenerationComplete
  /-- BARRIER_WAIT_REPORT (R148): A tile waiting stepwatch us at a quad or cluster barrier posts a barrier-wait report. -/
  | barrierWaitReport
  /-- TILE_SLEEP (R64): A tile with no ready slot and no running engine enters its sleep depth. -/
  | tileSleep
  /-- TILE_WAKE (R64): A wake event ends sleep after the wake latency. -/
  | tileWake
  /-- MAILBOX_POST_ARRIVAL (R179): A post reaches a tile mailbox and is accepted or held. -/
  | mailboxPostArrival
  /-- COPY_ACCEPT (R186): A checked copy is written to the porter's buffer once room and acknowledgements allow. -/
  | copyAccept
  /-- COPY_BURST (R187): The porter moves a burst of a copy's rows. -/
  | copyBurst
  /-- COPY_RESUME (R188): A pending copy resumes when the target partition returns. -/
  | copyResume
  /-- COPY_POST (R187): After all writes are acknowledged, the porter posts the copy's tag and status. -/
  | copyPost
  /-- RING_MOVE (R218): A waiting BROT, or a closed cycle of them, copies its latch block to the successor. -/
  | ringMove
  /-- PAGE_WALK (R280): A walker completes a walk, filling the TLBs, faulting, or raising a page request. -/
  | pageWalk
  /-- PAGE_RESPONSE (R284): A PRI response restarts the walk or traps the waiting accesses. -/
  | pageResponse
  /-- TABLE_LINE_SNOOP (R285): A host snoop or slice notice on a table line drops tagged translations and restarts walks. -/
  | tableLineSnoop
  /-- TIME_SLICE_NAMING (R271): At s + slice - 2,000 the switch unit names T for the next context of the run list. -/
  | timeSliceNaming
  /-- GANG_SWITCH_STOP (R269): At T every tile of the partition stops, work in flight settles and messages fall out. -/
  | gangSwitchStop
  /-- GANG_SWITCH_SAVE_DONE (R270): The press has saved every tile and the outgoing context becomes saved. -/
  | gangSwitchSaveDone
  /-- GANG_SWITCH_RESTORE (R269): The press restores the incoming context, re-injects fallout and releases every tile together. -/
  | gangSwitchRestore
  /-- DARNER_LINE (R301): The darner checks one line at its pace, correcting or marking it poisoned. -/
  | darnerLine
  /-- LEVELLER_TICK (R253): Every 4,096 cycles the leveller moves work-list entries to the least-loaded neighbour. -/
  | levellerTick
  /-- ESCAPE_ENTRY (R334): A message blocked escwait cycles enters the dimension-order escape channel. -/
  | escapeEntry
  /-- LINK_TRAINING_DONE (R326): Training finds a passing wavelength and a peer answer; the link goes up at the negotiated version. -/
  | linkTrainingDone
  /-- LINK_TRAINING_TIMEOUT (R326): No wavelength passes within 100 ms and the link returns down. -/
  | linkTrainingTimeout
  /-- LINK_IDLE_TIMEOUT (R326): No flit for 10 us takes the link down and its collective members down. -/
  | linkIdleTimeout
  /-- IDLE_FLIT_SEND (R326): A transmitter idle for 1 us sends an idle control flit. -/
  | idleFlitSend
  /-- FLIT_RECEIVE (R298): A link flit is received, checked by CRC and passed on or poisoned. -/
  | flitReceive
  /-- LINK_WIDEN (R329): A queue above wide for 1 us starts waking parked wavelengths. -/
  | linkWiden
  /-- WAKE_COMPLETE (R329): After the 2 us wake the sender inserts a widen control flit. -/
  | wakeComplete
  /-- LINK_NARROW (R329): A queue below narrow for hold us inserts a narrow flit and parks half the wavelengths. -/
  | linkNarrow
  /-- WIDTH_FLIT_RECEIVE (R329): The receiver changes stripe width exactly at a widen or narrow control flit. -/
  | widthFlitReceive
  /-- COLL_ACCEPT (R338): A checked collective is accepted once fewer than 64 are in flight and stores are acknowledged. -/
  | collAccept
  /-- COLL_MEMBER_ANSWER (R335): A member's answer or contribution arrives for a forming group or running collective. -/
  | collMemberAnswer
  /-- COLL_MEMBER_TIMEOUT (R335): A member silent for tmo us is marked down. -/
  | collMemberTimeout
  /-- COLL_POST (R339): After all writes are acknowledged the collective posts its tag and status. -/
  | collPost
  /-- MENDER_SLOT_START (R304): EN set on a descriptor naming a free mender slot starts it at the service pc. -/
  | menderSlotStart
  /-- GQ_EN_CLEAR (R308): Clearing EN withdraws parked pushes and pops, trapping or freeing the waiters. -/
  | gqEnClear
  /-- REWARD_ARRIVAL (R319): The claim-ticket table takes a reward message into a step record or as an orphan. -/
  | rewardArrival
  /-- RWSEND_REMOTE_ANSWER (R318): The far table's answer completes an RWSEND sent through a link. -/
  | rwsendRemoteAnswer
  /-- EPISODE_TIMEOUT (R315): tmo us after EPCLOSE a joining episode becomes judged with TMO. -/
  | episodeTimeout
  /-- WRINGER_SCAN (R320): On entering judged, staleness is decided and the wringer computes advantages. -/
  | wringerScan
  /-- EPISODE_RELEASE (R321): When its close number comes up and a credit exists, the release record is pushed and the entry freed. -/
  | episodeRelease
  /-- ILLEGAL_INSTRUCTION (R34): Fetching an encoding that no instruction defines (0x0000, major 0x00 or 0x3F, a reserved major, an unlisted function code or sub-field value) raises illegal-instruction, cause 0x00. -/
  | illegalInstruction
  /-- HOST_PORT_DOWN (R324): A host port's CXL link is lost, and the other port carries all traffic, including MSI-X messages. -/
  | hostPortDown
  /-- HOME_CHANNEL_POWER_DOWN (R341): A loom home channel that has had no request for 1 us lowers its power, and the next request wakes it within 200 ns. -/
  | homeChannelPowerDown
  /-- SELF_REFRESH_ENTRY (R341): A memory slice with no access for 10 us enters self-refresh, and the next access wakes it. -/
  | selfRefreshEntry
  /-- HOST_LINE_SNOOP (R123): A CXL.cache snoop from the host takes back a host-memory line that a slice holds, and arrives in shuttle order with device requests. -/
  | hostLineSnoop
  /-- LKCTL_THRESH (R330): Supervisor: set a link's widen and narrow thresholds. -/
  | lkctlThresh (d : GReg) (a : GReg) (b : GReg)
  /-- LKCTL_MAXW (R330): Supervisor: set a link's maximum stripe width. -/
  | lkctlMaxw (d : GReg) (a : GReg) (b : GReg)
  /-- LKCTL_RETRAIN (R330): Supervisor: take a link down and start training. -/
  | lkctlRetrain (d : GReg) (a : GReg) (b : GReg)
  /-- SWREQ_DEFPART (R275): Supervisor: define a partition of whole clusters. -/
  | swreqDefpart (d : GReg) (a : GReg)
  /-- SWREQ_SETRUN (R275): Supervisor: set a partition's run list and slice. -/
  | swreqSetrun (d : GReg) (a : GReg)
  /-- SWREQ_DESTROY (R275): Supervisor: destroy a context that is not resident. -/
  | swreqDestroy (d : GReg) (a : GReg)
deriving DecidableEq, Repr

end Sys2Proof
end

