-- ==== Sys2Proof/Machine/State.lean ====
section
/-! DEFINITION. The state of the A4: harts, tiles, dies, contexts, queues, menders, links and memory, as plain data, and the
state after reset. Sparse collections are lists of (key, value) with keys strictly rising; a key that is not listed has its
reset value. Reset values the spec does not give are those of log 5. -/

namespace Sys2Proof.Machine

/-- Memory: (address, byte) pairs, addresses strictly rising, no zero byte listed; an unlisted byte reads 0 (log 4). -/
abbrev Mem := List Host.Cell

/-! ## Harts -/

/-- A register designation (R58). -/
structure RegId where
  cls : RegClass
  idx : Nat
deriving DecidableEq, Repr

/-- A value on its way to a register. -/
structure WriteBack where
  reg : RegId
  val : Nat
deriving DecidableEq, Repr

/-- An access to memory that is on its way to its home: to the L-store of a tile, or, with no tile, to a physical address;
`ea` and `pc` are its address and its instruction as its report shows them (R60, R93, R94). -/
structure MemAcc where
  tile : Option Nat
  addr : Nat
  size : Nat
  ea : Word
  pc : Word
  /-- the cycle at which it was sent: its place among the messages of its pair of tiles (R334) -/
  sent : Nat
  /-- it is in the escape channel (R334) -/
  escape : Bool
  /-- the table lines from which its translation was made (R125) -/
  lines : List Nat
deriving DecidableEq, Repr

/-- The state of a ring latch (R214). -/
inductive LatchSt where
  | empty | filling | full
deriving DecidableEq, Repr

/-- The ring latch (R214, R216): rows of 32 elements as in a bank. `bad` and `sbad` are the indices of its uncorrectable
elements and scale bytes, `flaws` the errors not found yet, with whether each is uncorrectable: index i for element i, 4096 + k for
scale byte k. -/
structure Latch where
  st : LatchSt
  rows : Nat
  ty : Nat
  nfd : Nat
  smode : Nat
  axis : Nat
  pack : Bool
  data : List Nat
  scales : List Nat
  bad : List Nat
  sbad : List Nat
  flaws : List (Nat × Bool)
deriving DecidableEq, Repr

/-- An MMA, MMAT or MOUT on the array (R213): the descriptors it has taken, the bank, the first accumulator tile, its rows and the
cycle at which the array began with it; what it found in the C-store or, for MOUT, the in-array accumulators after each block of 32
rows, the old ones first; the rows done and what is still to be written, once a gang switch has stopped it. -/
structure MatRun where
  out : Bool
  descs : List Word
  bank : Bool
  n : Nat
  rows : Nat
  start : Nat
  cycles : Nat
  old : Mem
  accs : List (List W32)
  done : Nat
  rest : List (Nat × Nat)
deriving DecidableEq, Repr

/-- How far an OPT instruction has come that has issued and waits for a page or an entry (R311; log 20): its function (0 ADAMW, 1 SGDM,
2 CLIP), its pc, its two addresses and its block's, the block's physical address and its 64 bytes, the elements done, the elements popped and not yet
used as (index, gradient, where it is poisoned), the entries popped, the elements skipped, the flags, and a page that was refused. -/
structure OptRun where
  fn : Nat
  pc : Word
  ea : Nat
  eb : Nat
  ec : Nat
  pa : Nat
  blk : Nat
  done : Nat
  pend : List (Nat × Nat × Option Nat)
  pops : Nat
  skip : Nat
  fl : BitVec 5
  ref : Option Nat
deriving DecidableEq, Repr

/-- What the completion of a long operation does beside its registers and flags. -/
inductive OpFx where
  | none
  /-- a load is performed, and the destination receives what it delivers (R93) -/
  | load (a : MemAcc) (w : Width)
  /-- a store is performed (R93) -/
  | store (a : MemAcc) (val : Nat)
  /-- words of the C-store are written: (offset, bytes, value) (R208, R229, R231, R232) -/
  | words (l : List (Nat × Nat × Nat))
  /-- a multiply of the array ends (R206, R207) -/
  | rows (r : MatRun)
  /-- the copy of a BROT ends: the successor, the block, and whether the BROT moved alone (R218) -/
  | ring (u : Nat) (block : Latch) (alone : Bool)
  /-- an OPT goes on (R311) -/
  | opt (r : OptRun)
deriving DecidableEq, Repr

/-- What an outstanding long operation waits for beside its time (R60, R61). -/
inductive Await where
  /-- nothing: it completes at its due cycle -/
  | time
  /-- PUTR: the target register is written (R84) -/
  | fill (id : Nat)
  /-- a copy or a collective: the unit accepts the request (R41, R186) -/
  | accept (id : Nat)
  /-- a sequencer's BROT waits to move (R218) -/
  | move
  /-- an OPT waits for a page (R284, R311) -/
  | page (ctx vpn : Nat)
  /-- an OPT waits for an entry of its queue, the descriptor of which is at `desc` (R308, R311) -/
  | queue (desc : Nat)
  /-- an OPT waits for the hart's earlier accesses to the bytes of its next element (R61) -/
  | order (a : MemAcc)
deriving DecidableEq, Repr

/-- An outstanding long operation (R59 to R62). -/
structure LongOp where
  /-- instructions of the shadow that may still issue -/
  left : Nat
  /-- the cycle from which it completes -/
  due : Nat
  /-- what completion writes; these registers are empty until then -/
  wbs : List WriteBack
  /-- floating-point flags ORed into fflags at completion -/
  flags : BitVec 5
  /-- completion sets hst.PRE (R139) -/
  pre : Bool
  /-- Q-fold counts written at completion, as (q, qcnt) (R224) -/
  qcnt : List (Nat × Nat)
  await : Await
  /-- the operation can set floating-point flags (R67) -/
  fp : Bool
  /-- the operation runs inline: the thread waits in *inline* (R51) -/
  inl : Bool
  /-- words of the publish row that completion writes (R140) -/
  win : List (Nat × W32)
  fx : OpFx
deriving DecidableEq, Repr

/-- What a short instruction that holds its slot waits for (R54). -/
inductive SlotWait where
  /-- no long operation of the hart is outstanding (R108) -/
  | drain
  /-- the hart's earlier stores, fills and atomics are acknowledged (R109, R112) -/
  | acks
  /-- the hart's earlier accesses to the bytes of this one are performed (R61) -/
  | order (a : MemAcc)
  /-- the messages from the hart's tile to tile `u` that were sent before are delivered (R334) -/
  | pair (u : Nat)
  /-- no outstanding operation of the hart can set flags (R67) -/
  | flags
deriving DecidableEq, Repr

/-- Why a thread is *parked* (R51, R293). -/
inductive Reason where
  /-- a source register, accumulator tile, fold or latch is empty (R57, R87, R219, R223) -/
  | reg (r : RegId)
  /-- four long operations are outstanding (R61) -/
  | outFull
  /-- an atomic has been performed, and the FENCE.acq after it waits until no long operation is outstanding (R108, R109) -/
  | fence (next : Word)
  /-- the instruction waits until no long operation is outstanding (R79, R109, R134) -/
  | drain
  /-- FENCE.acq waits until the hart's long operations have completed; `lb` for FENCE.lb, which the loop-back port holds up too (R109) -/
  | fenced (lb : Bool)
  /-- an access waits for the hart's earlier accesses to its bytes (R61) -/
  | order (a : MemAcc)
  /-- a message waits for those from its tile to tile `u` that were sent before it (R334) -/
  | pair (u : Nat)
  /-- MODEL: the short instruction of word `word` has issued, and holds its slot (R54) -/
  | slot (w : SlotWait) (word : Nat)
  /-- the release of the instruction waits until the hart's earlier stores, fills and atomics are acknowledged (R109, R112) -/
  | acks
  /-- a full/empty request waits at the home (R98) -/
  | word (sp : AmoSpace) (ea : Nat)
  /-- a full/empty request was refused for a full list and is sent again (R98) -/
  | wordRetry (sp : AmoSpace) (ea : Nat) (due : Nat)
  /-- a full/empty request that a gang switch withdrew is to be issued again, in the order `ord` among those (R100, R128) -/
  | wordAgain (sp : AmoSpace) (ea : Nat) (ord : Nat)
  /-- an access to a switched-out partition is held (R101); `fe` for a full/empty request, which keeps its wait limit; `ord` is its
  place among the held accesses (R128) -/
  | held (tile : Nat) (fe : Bool) (sp : AmoSpace) (ea : Nat) (ord : Nat)
  /-- an access to a tile whose group is loading is held (R88) -/
  | loading (tile : Nat)
  /-- an access to the L-store of a tile that sleeps at depth 2 waits for the wake (R64) -/
  | waking (tile : Nat)
  /-- a page request is outstanding (R284) -/
  | page (ctx vpn : Nat)
  /-- PARK (R77) -/
  | deadline (t : Nat)
  /-- STEP waits for the advance; `next` is the following instruction (R135) -/
  | step (next : Word)
  /-- a barrier waits for its generation; completion writes `d` and goes to `next` (R147) -/
  | bar (kind : BarKind) (d : GReg) (next : Word)
  /-- a slot that joined ahead waits for the open generation (R147) -/
  | barAhead (kind : BarKind) (gen : BitVec 16)
  /-- WAITM or RECVM waits for an entry (R181) -/
  | mail
  /-- RECVM.o waits for the tag mnext (R181) -/
  | mailTag
  /-- SENDM waits for its entry to be accepted (R181) -/
  | post (id : Nat) (next : Word)
  /-- a SENDM to a switched-out partition, or another message, is on the mesh -/
  | mesh (id : Nat)
  /-- KICK or FORK waits for idle sequencers (R177, R178) -/
  | engine (mask : Nat)
  /-- RDV (R178) -/
  | rdv
  /-- SPAWN waits for its answer (R249) -/
  | spawn (id : Nat)
  /-- PUTR was refused for a full fill buffer and is sent again (R84) -/
  | putrRetry (due : Nat)
  /-- a thread's BROT waits to move; its lookahead follows the move (R218, R219) -/
  | ring (next : Word) (la : Nat)
  /-- GQPUSH waits for a credit, GQPOP for an entry, at the descriptor of physical address `desc` (R308) -/
  | gradQueue (desc : Nat) (push : Bool)
  /-- an instruction holds its slot while it waits for an answer: RWSEND for a table's or another device's, REPORT for the
  end of its post (R54, R273, R318, R323) -/
  | remote (id : Nat)
  /-- EPCLOSE waits, in its slot, behind the rewards that reached the table before it (R54, R323) -/
  | closing (id : Nat)
  /-- a trap waits for the outstanding long operations (R63) -/
  | trap (cause : Nat) (val : Word)
deriving DecidableEq, Repr

/-- The state of a slot or a sequencer (R51, R173): *free* is also *idle*, *ready* also *running*, *parked* also *waiting*. -/
inductive Status where
  | free
  | ready
  | parked (r : Reason)
  | inline
  | trapped
  /-- a sequencer's program has ended and its post waits; `fault` for a fault entry (R173, R174) -/
  | posting (tag payload : Word) (fault : Bool)
deriving DecidableEq, Repr

/-- An entry of the inline stack (R249). -/
structure Frame where
  ret : Word
  d : GReg
  path : Word
deriving DecidableEq, Repr

/-- The cell that an error has hit: a register, or a CSR (R296). -/
inductive CellLoc where
  | reg (r : RegId)
  | csr (n : Nat)
deriving DecidableEq, Repr

/-- What is wrong with a cell: a correctable error, an uncorrectable one that no read has found, or one that was found, so that the
cell is poisoned (R296). -/
inductive Flaw where
  | soft | hard | found
deriving DecidableEq, Repr

/-- A report that has been made and not yet posted: the context whose tables translate, the die whose rlost counts, the
report queue header, the 64-byte record, and the source, whose posts keep their order (R272, R273). -/
structure PendReport where
  ctx : Nat
  die : Fin 4
  repq : Word
  data : Nat
  src : Nat
  /-- the hart whose REPORT waits for the end of the post, and the instruction after it (R275) -/
  waiter : Option (HartId × Word) := none
deriving DecidableEq, Repr

/-- MODEL: what an instruction has met in reading, before it is known whether it takes effect: the cell whose error it met, the report
that it is to make, and whether it was met in fetching the instruction (R6, R94, R296; log 46). -/
structure ReadNote where
  cell : Option (HartId × CellLoc × Flaw)
  report : Option PendReport
  fetch : Bool
deriving DecidableEq, Repr

/-- A fault that a forked sequencer recorded (R174, R178). -/
structure ForkFault where
  engine : Nat
  cause : Nat
  val : Word
deriving DecidableEq, Repr

/-- A hart: a thread's slot, a sequencer or a mender's service slot (R55, R66, R172, R303). -/
structure Hart where
  status : Status
  pc : Word
  g : Vector Word 32
  e : Vector Word 8
  v : Vector Vec 16
  k : Vector (BitVec 16) 4
  /-- full/empty bits: bit i is 1 when register i is full (R57) -/
  gF : BitVec 32
  eF : BitVec 8
  vF : BitVec 16
  kF : BitVec 4
  fflags : BitVec 5
  frm : BitVec 3
  /-- hst.PRE (R66) -/
  pre : Bool
  mtag : Word
  wlx : Word
  cpyq : Word
  path : Word
  wlim : BitVec 16
  tcause : Word
  tval : Word
  tepc : Word
  tvec : Word
  tscratch : Word
  /-- tstatus.INH and tstatus.SUP; IDEP and OUT are the lengths of `stack` and `out` -/
  inh : Bool
  sup : Bool
  /-- tdbg.SS -/
  ss : Bool
  out : List LongOp
  stack : List Frame
  /-- the sequencers this thread forked and has not met (R178) -/
  fork : List Nat
  forkFaults : List ForkFault
  /-- for a sequencer: the slot whose FORK started it (R174) -/
  forkedBy : Option (Fin 10)
  /-- counts of TBAR, QBAR and CLBAR (R146) -/
  bar : Vector (BitVec 16) 3
  /-- MODEL: the reason that has cleared, of a hart that is to run its instruction again (R51) -/
  why : Option Reason
  /-- the cycle at which the thread parked; in a saved tile, the part of the wait that was over (R57, R99, R100) -/
  since : Nat
  /-- the cycle of the last issue (R53) -/
  issued : Option Nat
  /-- the slots that must issue or leave *ready* first, after a YIELD (R80) -/
  yield : List (Fin 10)
  /-- MODEL: the page whose refusal this hart has still to meet (R284) -/
  refused : Option Nat
  /-- a register that PUTR filled and that has not been read: the first read is an acquire (R84, R112) -/
  filled : List RegId
  /-- errors in the cells of this hart's registers and thread-scope CSRs (R296) -/
  flaws : List (CellLoc × Flaw)
deriving DecidableEq, Repr

/-- The registers of a thread that leaves *free* (R55), in status *free*. -/
def Hart.reset : Hart where
  status := .free
  pc := 0
  g := Vector.replicate 32 0
  e := Vector.replicate 8 0
  v := Vector.replicate 16 0
  k := #v[0xFFFF, 0, 0, 0]
  gF := 0xFFFF_FFFF
  eF := 0xFF
  vF := 0xFFFF
  kF := 0xF
  fflags := 0
  frm := 0
  pre := false
  mtag := 0
  wlx := 0
  cpyq := 0
  path := 0
  wlim := 0x1000
  tcause := 0
  tval := 0
  tepc := 0
  tvec := 0
  tscratch := 0
  inh := false
  sup := false
  ss := false
  out := []
  stack := []
  fork := []
  forkFaults := []
  forkedBy := none
  bar := Vector.replicate 3 0
  why := none
  since := 0
  issued := none
  yield := []
  refused := none
  filled := []
  flaws := []

/-! ## Tiles -/

/-- A post: tag, payload, whether its release has device scope (R112, R179), and what is wrong with its entry (R296). -/
structure Post where
  tag : Word
  payload : Word
  dev : Bool
  flaw : Option Flaw
deriving DecidableEq, Repr

/-- A post held at a full mailbox, with the hart or unit that waits for it (R179). -/
structure HeldPost where
  post : Post
  id : Nat
  sender : Option HartId
deriving DecidableEq, Repr

/-- An entry of a work list, and what is wrong with it (R251, R296). -/
structure WorkItem where
  x : Word
  y : Word
  flaw : Option Flaw
deriving DecidableEq, Repr

/-- A pending PUTR or copy fill of a register (R84, R187); `bad` says that its value was poisoned on the way (R297). -/
structure Fill where
  id : Nat
  slot : Fin 10
  reg : RegId
  val : Word
  /-- the hart whose PUTR it is; none for a copy -/
  sender : Option HartId
  bad : Bool
deriving DecidableEq, Repr

/-- The four full/empty requests that can wait (R97). -/
inductive FeOp where
  | consume | peek | fill
deriving DecidableEq, Repr

/-- A full/empty request waiting at a home (R98). -/
structure FeReq where
  hart : HartId
  op : FeOp
  /-- L offset of the word, or physical address in device memory -/
  addr : Nat
  size : Nat
  /-- destination of .c and .p; value of .f -/
  d : GReg
  val : Word
  /-- the instruction after this one, and this access's own address for a trap -/
  next : Word
  ea : Word
  sp : AmoSpace
  /-- what it carries failed a check on the way (R298) -/
  bad : Bool
  /-- MODEL: what its instruction met in reading, made good when it is served (log 46) -/
  notes : List ReadNote
deriving DecidableEq, Repr

/-- A committed version of the window, or the row being built: its words, and the words that are poisoned (R137, R141). -/
structure WinVer where
  words : List W32
  bad : List Nat
  /-- words with an error not found yet: (word, uncorrectable) (R296) -/
  flaws : List (Nat × Bool)
deriving DecidableEq, Repr

/-- The direction of a copy (R183). -/
inductive CopyDir where
  | lm | gl | lg | gg
deriving DecidableEq, Repr

/-- The state of a copy (R188). -/
inductive CopySt where
  | requested | moving | pending | posting
deriving DecidableEq, Repr

/-- A copy with the snapshot of its descriptors (R183 to R190). -/
structure Copy where
  id : Nat
  hart : HartId
  pc : Word
  sup : Bool
  dir : CopyDir
  src : Word
  dst : Word
  len : Nat
  rows : Nat
  sst : Int
  dstS : Int
  tag : Word
  st : CopySt
  /-- rows written in full -/
  done : Nat
  poison : Bool
  cancel : Bool
  fault : Bool
  /-- the copy waits for a page of this number (R187) -/
  page : Option Nat
  refused : Option Nat
  /-- the cycle at which it became *pending* (R188) -/
  pendAt : Nat
  /-- its thread has left its slot -/
  orphan : Bool
deriving DecidableEq, Repr

/-- A bank of processing elements (R198, R199). -/
structure PeBank where
  loaded : Bool
  /-- Simg, the encodings of 32 rows of 32 elements in row order; the indices of its uncorrectable elements stand in `bad` -/
  data : List Nat
  ty : Nat
  nfd : Nat
  smode : Nat
  axis : Nat
  scales : List Nat
  bad : List Nat
  /-- elements with an error not found yet: (element, uncorrectable) (R296) -/
  flaws : List (Nat × Bool)
  /-- in-array accumulator, FP32, 32 by 32, and its errors not found yet: (element, uncorrectable) (R296) -/
  acc : List W32
  accFlaws : List (Nat × Bool)
deriving DecidableEq, Repr

/-- A Q-fold (R221 to R224): V and T as 32 by 32 FP32 in row order, the reflector count, mode, applied count and stage. -/
structure QFold where
  v : List W32
  t : List W32
  k : Nat
  dense : Bool
  napp : Nat
  stageV : List W32
  stageTau : W32
  stageP : Nat
  stageOk : Bool
  /-- qcnt as CSR 0x040+q shows it; it changes at completion (R224) -/
  cnt : Nat
  full : Bool
deriving DecidableEq, Repr

/-- A tile (R9 to R14). -/
structure Tile where
  harts : Vector Hart 10
  /-- the stores; L offset, W offset, A offset, C offset (R14) -/
  l : Mem
  w : Mem
  a : Mem
  c : Mem
  /-- L words that are empty, rising (R96) -/
  lEmpty : List Nat
  /-- poisoned granules of L, W, A and C: (space number of R89, address / 32), (R94) -/
  poison : List (Nat × Nat)
  /-- granules with an error not found yet: (space, address / 32, uncorrectable) (R296) -/
  flaws : List (Nat × Nat × Bool)
  /-- errors in the cells of the tile-scope CSRs (R296) -/
  csrFlaws : List (CellLoc × Flaw)
  /-- full bits of c0 to c15 (R55) -/
  cF : BitVec 16
  /-- the G read cache: (physical line number, 64 bytes), newest first (R91, log 8) -/
  gcache : List (Nat × BitVec 512)
  /-- the instruction cache: (physical line number, 64 bytes), newest first (R14, R77, log 8) -/
  icache : List (Nat × BitVec 512)
  /-- window: words n, image, committed versions newest first, publish row (R137) -/
  winN : Nat
  winImg : WinVer
  hist : List WinVer
  pub : WinVer
  /-- step.count, step.WR (R130) -/
  step : BitVec 32
  wr : Bool
  /-- STEPIDLE has been applied (R133, R136) -/
  idle : Bool
  /-- slots that have arrived at the current step (R132) -/
  arrived : BitVec 7
  /-- what the seam carries: the counter and the *held* bit, now and one cycle ago (R131, R133) -/
  seam : Vector (BitVec 32 × Bool) 2
  stepmask : BitVec 7
  stepwatch : BitVec 32
  /-- the cycle since which the tile is *waiting*, and whether it has reported (R142) -/
  waitSince : Option Nat
  waitTold : Bool
  /-- generations of TBAR, QBAR, CLBAR, the slots recorded as arrived at them, and the wait reports (R146, R148) -/
  gen : Vector (BitVec 16) 3
  barArr : Vector (BitVec 7) 3
  barSince : Vector (Option Nat) 3
  barTold : Vector Bool 3
  fmt : Vector W32 4
  scp : Vector Word 4
  seed : Word
  gid : Word
  /-- promise.DET, UNO, LVL (R240) -/
  promise : BitVec 3
  lfsr : Vector W32 16
  q : Vector QFold 4
  pe : Vector PeBank 2
  latch : Latch
  /-- ring successor: tile number, none before RINGDEF (R216) -/
  ring : Option Nat
  /-- BROTs that ask for this tile's latch: (cycle at which the request reaches the router, tile, hart) (R218) -/
  ringReq : List (Nat × Nat × Fin 10)
  /-- the cycle from which the matrix array is free (R175) -/
  arrayFree : Nat
  /-- oerr.ERR, LOST, CNT and oerrloc0 to oerrloc7 (R211, R212) -/
  oerrErr : Bool
  oerrLost : Bool
  oerrCnt : Nat
  oerrloc : Vector Word 8
  mbox : List Post
  mheld : List HeldPost
  mnext : Word
  /-- hart slots waiting in RECVM and RECVM.o, in arrival order (R181) -/
  mwait : List (Fin 10)
  work : List WorkItem
  fills : List Fill
  /-- waiting full/empty requests of this home, in arrival order (R98) -/
  fe : List FeReq
  copies : List Copy
  sleepDepth : BitVec 2
  /-- ctxid CSR; 0 outside a context -/
  ctx : Nat
  repq : Word
  escwait : BitVec 16
  asleep : Bool
  /-- the cycle at which a waking tile is awake (R64) -/
  wakeAt : Nat
  /-- the group that occupies the tile -/
  grp : Option Nat
  /-- slots of the kernel header, and LVL (R236) -/
  slots : Nat
  lvl : Bool
  /-- the slot that issued last (R53) -/
  last : Fin 8
  /-- cycles since the last leveller interval (R253) -/
  level : Nat
  /-- messages that fell out at a gang switch (R269) -/
  fallout : List Nat
deriving DecidableEq, Repr

/-- An unloaded bank: every element +0 (R199). -/
def PeBank.reset : PeBank := ⟨false, [], 0, 0, 0, 0, [], [], [], [], []⟩

/-- An empty latch (R214). -/
def Latch.reset : Latch := ⟨.empty, 0, 0, 0, 0, 0, false, [], [], [], [], []⟩

/-- A fold in compact mode with no reflector (R224). -/
def QFold.reset : QFold := ⟨[], [], 0, false, 0, [], 0, 0, false, 0, true⟩

/-- A tile that no group has occupied (log 5). -/
def Tile.reset : Tile where
  harts := Vector.replicate 10 Hart.reset
  l := []
  w := []
  a := []
  c := []
  lEmpty := []
  poison := []
  flaws := []
  csrFlaws := []
  cF := 0xFFFF
  gcache := []
  icache := []
  winN := 0
  winImg := ⟨[], [], []⟩
  hist := []
  pub := ⟨[], [], []⟩
  step := 0
  wr := false
  idle := false
  arrived := 0
  seam := Vector.replicate 2 (0, true)
  stepmask := 0
  stepwatch := 1000
  waitSince := none
  waitTold := false
  gen := Vector.replicate 3 0
  barArr := Vector.replicate 3 0
  barSince := Vector.replicate 3 none
  barTold := Vector.replicate 3 false
  fmt := Vector.replicate 4 0
  scp := Vector.replicate 4 0
  seed := 0
  gid := 0
  promise := 0
  lfsr := Vector.replicate 16 1
  q := Vector.replicate 4 QFold.reset
  pe := Vector.replicate 2 PeBank.reset
  latch := Latch.reset
  ring := none
  ringReq := []
  arrayFree := 0
  oerrErr := false
  oerrLost := false
  oerrCnt := 0
  oerrloc := Vector.replicate 8 0
  mbox := []
  mheld := []
  mnext := 0
  mwait := []
  work := []
  fills := []
  fe := []
  copies := []
  sleepDepth := 1
  ctx := 0
  repq := 0
  escwait := 256
  asleep := false
  wakeAt := 0
  grp := none
  slots := 0
  lvl := false
  last := 0
  level := 0
  fallout := []

/-! ## Translation -/

/-- The TLB that holds a translation: a tile's, a cluster's, or, for menders and units, one of the die (R16, R283; log 11). -/
inductive Holder where
  | tile (t : Nat)
  | cluster (c : Nat)
  | die
deriving DecidableEq, Repr

/-- A translation that a TLB holds: page of `vpn * 4096` at leaf level `lvl` (R283, R284; log 11). -/
structure Tlb where
  at_ : Holder
  ctx : Nat
  vpn : Nat
  lvl : Nat
  frame : Nat
  pte : Nat
  /-- the table lines its walk read: physical line numbers (R285) -/
  lines : List Nat
deriving DecidableEq, Repr

/-- A non-leaf entry that the walk cache of walker `walker` holds: the table at `base`, of level `lvl`, of the addresses whose bits
above that level are `pre` (R283). -/
structure WalkEntry where
  walker : Nat
  ctx : Nat
  lvl : Nat
  pre : Nat
  base : Nat
  lines : List Nat
deriving DecidableEq, Repr

/-- An outstanding page request, one per 4 KiB page (R284). -/
structure PageReq where
  ctx : Nat
  vpn : Nat
deriving DecidableEq, Repr

/-- Who waits for a page on behalf of a unit (R284, R370): a hart whose instruction asks a unit, a queue of the queue unit, the
claim-ticket table with its arrivals, an episode that is scanned or released, a collective, the arm alias, a source of reports,
the press. -/
inductive Agent where
  | hart (h : HartId)
  | queue (ctx q : Nat)
  | table (d : Nat)
  | episode (d idx : Nat)
  | coll (id : Nat)
  | arm (ctx q : Nat)
  | report (src : Nat)
  | press
deriving DecidableEq, Repr

/-- A page that an agent waits for, or whose refusal it has still to meet. -/
structure UnitPage where
  who : Agent
  ctx : Nat
  vpn : Nat
deriving DecidableEq, Repr

/-- The table format descriptor of a context as it was read (R278). -/
structure Tfd where
  levels : Nat
  vpos : Nat
  rpos : Nat
  wpos : Nat
  xpos : Nat
  upos : Nat
  apos : Nat
  dpos : Nat
  lpos : Nat
  lmode : Nat
  ppos : Nat
  pwid : Nat
  canon : Nat
  ureq : Bool
deriving DecidableEq, Repr

/-! ## Contexts and partitions -/

/-- The residency of a context in one partition (R268). -/
inductive Residency where
  | fresh | entering | resident | leaving | saved | destroyed
deriving DecidableEq, Repr

/-- A tile as the press saved it (R270): the structured part of its record; log 13. -/
structure SavedTile where
  part : Nat
  tile : Nat
  state : Tile
deriving DecidableEq, Repr

/-- A context: its descriptor as the switch unit read it, and its residency in each partition it has entered (R266). -/
structure Ctx where
  desc : Word
  /-- the context of the thread whose SWREQ named the descriptor, in whose address space it lies (R266, R281; log 36) -/
  byCtx : Nat
  root : Nat
  tfd : Tfd
  qbase : Word
  qcnt : Nat
  supok : Bool
  repq : Word
  save : Word
  pmask : Nat
  destroyed : Bool
  res : List (Nat × Residency)
  saved : List SavedTile
  /-- ns charged and switches (R270, R271) -/
  ns : Nat
  switches : Nat
deriving DecidableEq, Repr

/-- A gang switch under way (R269): its time, the incoming context (0 none), who asked, and how far it is: 0 named,
1 stopped, 2 saved. -/
structure Switch where
  t : Nat
  target : Nat
  desc : Word
  /-- context and report queue of the SWREQ's issuer; none for a slice (R275) -/
  issuer : Option (Nat × Word)
  phase : Nat
deriving DecidableEq, Repr

/-- A partition (R267). `valid` is false before DEFPART. -/
structure Part where
  valid : Bool
  cx : Nat
  cy : Nat
  cw : Nat
  ch : Nat
  run : List Nat
  /-- time slice in µs, as SETRUN last set it -/
  slice : Nat
  /-- the slice of the interval that runs: a change takes effect at the next (R275) -/
  running : Nat
  resident : Option Nat
  /-- the time of the resident context's release -/
  start : Nat
  sw : Option Switch
deriving DecidableEq, Repr

/-! ## Launches and groups -/

/-- The state of a kernel or copy node on its way (R238, R244). -/
inductive LaunchSt where
  | checking | placing | running | copying
  /-- its work has ended, and its completion is to be written (R262) -/
  | ending
deriving DecidableEq, Repr

/-- A node that a queue unit has dispatched (R238, R256, R261). -/
structure Launch where
  key : Nat
  die : Nat
  ctx : Nat
  queue : Nat
  node : Word
  /-- the node's 64 bytes as dispatch read them -/
  nodeV : Nat
  /-- the kernel header's 64 bytes and the pool table, as *checking* read them once (R239) -/
  hdr : Option Nat
  pool : Option Nat
  /-- the launch block and the argument block with the poisoned ranges (offset, length) of the latter, as loading read them once
  (R241) -/
  packet : Option (Nat × Nat × List (Nat × Nat))
  promise : Nat
  st : LaunchSt
  /-- groups placed, and groups retired -/
  placed : Nat
  retired : Nat
  trap : Bool
  poison : Bool
  /-- the bits of the status word at completion, beside state 3 (R256, R262) -/
  ends : Nat
deriving DecidableEq, Repr

/-- The state of a group (R244). -/
inductive GroupSt where
  | placed | loading | running
deriving DecidableEq, Repr

/-- A group (R244). -/
structure Group where
  id : Nat
  launch : Nat
  ctx : Nat
  part : Nat
  index : Nat
  ox : Nat
  oy : Nat
  w : Nat
  h : Nat
  st : GroupSt
  /-- tiles loaded so far -/
  loaded : Nat
deriving DecidableEq, Repr

/-- A queue that a die's unit has seen: boundaries passed over, whether it holds a slot, and since when it waits (R261,
R263). -/
structure QueueRec where
  ctx : Nat
  q : Nat
  mapped : Bool
  p : Nat
  waitSince : Option Nat
  /-- the nodes that have been walked and have not completed, in list order -/
  nodes : List Nat
deriving DecidableEq, Repr

/-- MODEL: an arm word that its queue unit has seen *full*: the queue, the word's physical address, and the die of the queue (R260, R370;
log 22). -/
structure ArmSeen where
  ctx : Nat
  q : Nat
  pa : Nat
  die : Fin 4
deriving DecidableEq, Repr

/-! ## Dies -/

/-- The state of an episode (R315); a free entry is not listed. -/
inductive EpState where
  | opened | joining | judged | releasing
deriving DecidableEq, Repr

/-- An entry of a claim-ticket table (R313 to R321). -/
structure Episode where
  idx : Nat
  ctx : Nat
  dom : Word
  id : Nat
  st : EpState
  buf : Word
  cap : Nat
  ver : Nat
  count : Nat
  /-- the steps whose reward is present -/
  rp : List Nat
  csn : Nat
  /-- the time of EPCLOSE -/
  closed : Nat
  /-- the domain's join time-out in µs, as EPCLOSE read it -/
  tmo : Nat
  tmoHit : Bool
  stale : Bool
  lag : Nat
  miss : Nat
deriving DecidableEq, Repr

/-- A reward that has reached a table: who waits for its taking, with the instruction that follows, or the link and the far
hart to answer (R318). An EPCLOSE that reached the table after it waits behind it (R323). -/
structure Arrival where
  msg : RewardMsg
  sender : Option (HartId × Word)
  link : Option (Nat × HartId)
  /-- its payload failed a check on the way (R298) -/
  bad : Bool
  /-- the cycle at which it reached the table -/
  time : Nat
  /-- an EPCLOSE: the entry, and the register that receives the close number -/
  close : Option (Nat × GReg)
  /-- MODEL: what an EPCLOSE met in reading, made good when the table takes it (log 46) -/
  notes : List ReadNote
deriving DecidableEq, Repr

/-- The error block of a die (R300). -/
structure ErrBlock where
  sce : Nat
  sue : Nat
  mce : Nat
  mue : Nat
  lcrc : Nat
  hdr : Nat
  dpass : Nat
  dper : Nat
  rlost : Nat
deriving DecidableEq, Repr

/-- A compute die and its units (R16). -/
structure Die where
  /-- the TLBs of the die's tiles and clusters, and its walk caches (R16, R283), newest first -/
  tlb : List Tlb
  wcache : List WalkEntry
  /-- the table-line directory (R285) -/
  dir : List Nat
  /-- the page requests outstanding, at most 256, and the further faults in order of arrival (R284) -/
  preq : List PageReq
  preqMore : List PageReq
  queues : List QueueRec
  err : ErrBlock
  /-- the next line the darner checks, counted over the die's four stacks, and the cycle of its last check (R301) -/
  darn : Nat
  darnAt : Nat
  eps : List Episode
  /-- rewards that have reached the die's table, in order -/
  arrivals : List Arrival
  /-- pages that a unit of the die waits for, and refusals that it has still to meet (R284) -/
  unitWait : List UnitPage
  unitRef : List UnitPage
  /-- junction sensors at or above 105 °C (R342) -/
  hot : Vector Bool 4
deriving DecidableEq, Repr

/-- A die after reset. -/
def Die.reset : Die := ⟨[], [], [], [], [], [], ⟨0, 0, 0, 0, 0, 0, 0, 24, 0⟩, 0, 0, [], [], [], [], Vector.replicate 4 false⟩

/-! ## Menders and gradient queues -/

/-- A service slot's queue: descriptor physical address and context (R304). -/
structure SlotUse where
  desc : Nat
  ctx : Nat
deriving DecidableEq, Repr

/-- A mender: its slots, what they serve, its gradient-queue buffer and the slot that issued last (R303). -/
structure Mender where
  harts : Vector Hart 8
  use : Vector (Option SlotUse) 8
  buf : Mem
  /-- poisoned granules of the buffer, by address / 32 (R296, R298; log 44) -/
  poison : List Nat
  /-- descriptors whose EN was set and whose slot was not free (R304) -/
  pend : List Nat
  /-- slots whose wait or stop ended with EN of their queue: they are to become *free* (R304) -/
  ended : List (Fin 8)
  last : Fin 8
deriving DecidableEq, Repr

/-- A mender after reset. -/
def Mender.reset : Mender := ⟨Vector.replicate 8 Hart.reset, Vector.replicate 8 none, [], [], [], [], 0⟩

/-! ## Collectives and links -/

/-- A collective function (R336). -/
inductive CollFn where
  | decl | ag | rsO | rsU | arO | arU | a2a | bar
deriving DecidableEq, Repr

/-- A collective group of a context (R335): `st` 1 forming, 2 ready. -/
structure CollGroup where
  ctx : Nat
  gid : Nat
  st : Nat
  n : Nat
  rank : Nat
  tmo : Nat
  mem : List Nat
  down : List Nat
  seq : Nat
deriving DecidableEq, Repr

/-- How far a collective is (R338, R339): issued and not yet accepted, accepted, running with its sources read, and ended
with its post to be made. -/
inductive CollSt where
  | issued | accepted | running | posting
deriving DecidableEq, Repr

/-- A collective in flight (R336 to R339). -/
structure Coll where
  id : Nat
  hart : HartId
  pc : Word
  ctx : Nat
  fn : CollFn
  gid : Nat
  seq : Nat
  src : Word
  dst : Word
  c : Nat
  ty : Nat
  tag : Word
  /-- the group descriptor of a DECL -/
  desc : Nat
  st : CollSt
  /-- its place in the order of acceptance (R338) -/
  acc : Nat
  /-- a page was refused, or a permission failed -/
  fault : Bool
  /-- poisoned data was read, or what was sent or written did not arrive whole (R299, R339) -/
  bad : Bool
  /-- the cycle since which each awaited member has sent nothing: (member, cycle) -/
  heard : List (Nat × Nat)
  status : Nat
deriving DecidableEq, Repr

/-- What has arrived from a member of a group for one sequence number (R335, R338); it may come before the collective runs
here. -/
structure CollIn where
  ctx : Nat
  gid : Nat
  seq : Nat
  member : Nat
  ans : CollAnswer
deriving DecidableEq, Repr

/-- The state of a device link (R326). -/
inductive LinkSt where
  | down | training | up
deriving DecidableEq, Repr

/-- A device link (R326 to R331). Wavelength sets are masks of eight bits. -/
structure Link where
  st : LinkSt
  ver : Nat
  /-- transmit width, and the width of the receive direction -/
  width : Nat
  rxWidth : Nat
  good : BitVec 8
  maxw : Nat
  /-- the peer's identity and wavelength count, as the capability exchange gave them (R327) -/
  peer : BitVec 16
  peerWaves : Nat
  downs : Nat
  wide : Nat
  narrow : Nat
  hold : Nat
  /-- the cycle at which a wake ends (R329) -/
  wake : Option Nat
  /-- flits queued for transmission, oldest first, and what of the oldest is on the way, in 24ths of a flit (R16, R17) -/
  queue : List FlitBody
  part : Nat
  /-- since when the queue has held at least `wide` flits, and since when fewer than `narrow` (R329) -/
  wideSince : Option Nat
  narrowSince : Option Nat
  /-- the cycles of the last flit sent and received -/
  sent : Nat
  rcvd : Nat
  /-- the cycle at which training began, and devid as read then (R327, R347) -/
  train : Nat
  devid : BitVec 16
  /-- lanes that failed CRC in the last millisecond: (wavelength, cycle) (R328) -/
  fails : List (Nat × Nat)
deriving DecidableEq, Repr

/-- A link after bring-up (R326, R330). -/
def Link.reset : Link where
  st := .down
  ver := 0
  width := 0
  rxWidth := 0
  good := 0
  maxw := 8
  peer := 0
  peerWaves := 0
  downs := 0
  wide := 64
  narrow := 8
  hold := 50
  wake := none
  queue := []
  part := 0
  wideSince := none
  narrowSince := none
  sent := 0
  rcvd := 0
  train := 0
  devid := 0
  fails := []

/-! ## Messages and events -/

/-- A message on the mesh (R334). -/
inductive MsgBody where
  /-- a thread's SENDM; `sel` is its g[a] and `next` the instruction after it (R181) -/
  | post (p : Post) (sel next : Word)
  /-- SPAWN: child pc, arguments, path, mode, and the parent's d, spawn word and next instruction (R249) -/
  | spawn (pc : Word) (args : Vector Word 4) (path : Word) (sup : Bool) (d : GReg) (word next : Word)
deriving DecidableEq, Repr

/-- A message with its sender and target tile. -/
structure Msg where
  id : Nat
  hart : HartId
  ctx : Nat
  target : Nat
  body : MsgBody
  /-- the cycle since which it is blocked (R334) -/
  since : Nat
  escape : Bool
  /-- its payload failed a check on the way (R298) -/
  bad : Bool
  /-- MODEL: what its instruction met in reading, made good when it is accepted (log 46) -/
  notes : List ReadNote
deriving DecidableEq, Repr

/-- An RWSEND that waits for the far device's answer (R318). -/
structure RemoteReward where
  id : Nat
  hart : HartId
  link : Nat
  msg : RewardMsg
  next : Word
deriving DecidableEq, Repr

/-- What an event of the machine befalls (the data of the rows of spec/opcode_table.json that have no encoding). -/
inductive EvData where
  | none
  | die (d : Nat)
  | dieSensor (d sensor : Nat)
  | hart (h : HartId)
  | op (h : HartId) (i : Nat)
  | tile (t : Nat)
  | tileItem (t id : Nat)
  | kindTile (k : BarKind) (t : Nat)
  | msg (id : Nat)
  | ctxQueue (ctx q : Nat)
  | node (ctx q : Nat) (node : Word)
  | key (k : Nat)
  | walk (d ctx : Nat) (va : Word) (need : Need)
  | page (d ctx vpn : Nat) (ans : PageAnswer)
  | dieItem (d i : Nat)
  | link (l : Nat)
  /-- the peer's answer in training: version, identity, wavelength count (R327) -/
  | trained (l : Nat) (good : BitVec 8) (ver : Nat) (peer : BitVec 16) (waves : Nat)
  | flit (l : Nat) (f : Flit)
  | widthFlit (l : Nat) (widen : Bool)
  | coll (ctx gid seq member : Nat) (ans : CollAnswer)
  | collMember (id member : Nat)
  | reward (m : RewardMsg)
  | reg (off : Nat) (val : Word)
  /-- a host read of the doubleword at `off` of the register space (R325) -/
  | regRead (off : Nat)
  /-- the host sets, through CXL.io, the IDE key of a stream of port `p`: 0 CXL.io, 1 CXL.cache and CXL.mem (R324) -/
  | ideKey (p stream key : Nat)
  | armStore (off size : Nat) (val : Word)
  | window (off size : Nat) (data : List Word)
  /-- an access of the host to `n` bytes of one line: a read, or a write with its poison indication -/
  | hostMem (pa n : Nat) (data : Option Nat) (bad : Bool)
  /-- an atomic addition of the host on `n` bytes of one line (R123) -/
  | hostAdd (pa n val : Nat)
  /-- the junction sensors at or above 105 °C: (die, sensor) -/
  | hot (l : List (Nat × Nat))
  | part (p : Nat)
deriving DecidableEq, Repr

/-- What befalls a packet on the loom: nothing, a payload CRC failure received on die `d`, a failure of one header copy, or of both
(R298, R299). -/
inductive Noise where
  | none
  | crc (d : Fin 4)
  | header (d : Fin 4)
  | lost (d : Fin 4)
deriving DecidableEq, Repr

/-- A host port (R324): its CXL version and features while it is up, and what its host offers in training; none if the port does
not train. -/
structure Port where
  up : Bool
  ver : Nat
  feat : Nat
  offer : Option (Nat × Nat)
  /-- the IDE keys that the host has set: (0 for CXL.io, 1 for CXL.cache and CXL.mem; the key) -/
  keys : List (Nat × Nat)
deriving DecidableEq, Repr

/-- The answer to the host's last access of device memory or of the register space (R297, R324, R325). -/
inductive HostAnswer where
  | data (v : Nat) (poison : Bool)
  | unsupported
deriving DecidableEq, Repr

/-- An image (R344): the kind, version and length of its header, its bytes, its digest and its signature of 2,420 bytes; and the version
at which its interface runs, once it is loaded (R8; log 6). -/
structure Image where
  kind : Nat
  ver : Nat
  len : Nat
  body : Nat
  digest : Nat
  sig : Nat
  runs : Option Nat
deriving DecidableEq, Repr

/-- An event: its row and what it befalls; for an event of the outside world, the cycle from which it may come about. -/
structure Occurrence where
  row : Instr
  data : EvData
  time : Nat
deriving DecidableEq, Repr

/-! ## The machine -/

/-- The whole machine. -/
structure State where
  /-- MODEL: the hart that executes the instruction (log 1) -/
  cur : HartId
  /-- MODEL: the word being executed, as tval shows it (R50; log 17) -/
  iword : Nat
  /-- MODEL: what the instruction being executed has met in reading (log 46) -/
  reads : List ReadNote
  /-- MODEL: for whom a unit acts (log 22) -/
  agent : Agent
  /-- MODEL: what the event being run befalls (log 15) -/
  ev : EvData
  /-- MODEL: events of the outside world, in the order in which they come about -/
  inputs : List Occurrence
  /-- MODEL: free values used so far (log 9) -/
  free : Nat
  /-- MODEL: the last identity given to a message, a copy, a group or a launch -/
  ids : Nat
  /-- period boundaries that the queue units have met (R263) -/
  bounds : Nat
  /-- cycles of the 2.4 GHz clock since power-on reset ended (R2, R343) -/
  cycle : Nat
  tiles : List (Nat × Tile)
  dies : Vector Die 4
  menders : List (Nat × Mender)
  /-- device and host memory by physical address (R15) -/
  mem : Mem
  /-- empty doublewords of device memory, by physical address / 8, rising (R96) -/
  gEmpty : List Nat
  /-- poisoned 64-byte lines, by physical address / 64, rising (R296) -/
  gPoison : List Nat
  /-- lines with an error not yet found: (line, uncorrectable) (R301) -/
  gLatent : List (Nat × Bool)
  /-- waiting full/empty requests of the slices, in arrival order (R98) -/
  gfe : List FeReq
  /-- waiters of gradient queues, harts and wringers, in arrival order, with the descriptor (R308, R321) -/
  gqWait : List (Nat × Agent)
  ctxs : List (Nat × Ctx)
  parts : Vector Part 32
  launches : List Launch
  groups : List Group
  /-- copies of queue units (R257): (launch key, copy) -/
  qcopies : List (Nat × Copy)
  msgs : List Msg
  rewards : List RemoteReward
  reports : List PendReport
  collGroups : List CollGroup
  colls : List Coll
  collIn : List CollIn
  links : Vector Link 16
  /-- host ports 0 and 1 (R324) -/
  ports : Vector Port 2
  /-- MSI-X messages sent, newest first: the vector, the port, and the value that a host-notify node sends (R261, R325) -/
  msix : List (Nat × Nat × Option Word)
  /-- what befalls the packets on the loom, in the order in which they travel; nothing befalls those beyond its end (R298) -/
  noise : List Noise
  /-- flits that have left through each link, newest first (R332) -/
  sentFlits : List (Nat × FlitBody)
  /-- host-memory lines that the slices hold through CXL.cache, by physical address / 64 (R123) -/
  hostHeld : List Nat
  /-- the answer to the host's last access (R297, R324) -/
  hostGot : Option HostAnswer
  /-- arm alias stores that wait for the page of their arm word: context, queue and value (R259) -/
  armPend : List (Nat × Nat × Word)
  /-- MODEL: the arm words that are *full* and have not been consumed (R370; log 22) -/
  armSeen : List ArmSeen
  /-- devstat (R345) -/
  boot : BitVec 2
  fcode : BitVec 6
  trip : Bool
  abusy : Bool
  aerr : Bool
  devid : BitVec 16
  /-- devctl.tvec (R345) -/
  tvec : BitVec 11
  nonce : BitVec 256
  /-- the MSI-X table as the host wrote it, by doubleword; 0 where it did not (R325) -/
  msixTab : List (Nat × Nat)
  /-- the nonce and devid that the report being built has taken (R346) -/
  attest : Option (BitVec 256 × BitVec 16)
  /-- the attestation report at offset 0x1000, its parts in order as (bytes, value) (R346) -/
  report : Option (List (Nat × Nat))
  /-- the identity key pair: its secret half, which the boot ROM alone reads, and its public key of 1,312 bytes (R346) -/
  idKey : Nat
  idPub : Nat
  /-- the images in load order, the public key that signs them, the digest of it that is fused into the boot ROM, and the fused
  rollback counter (R344; log 6) -/
  images : List Image
  bootKey : Nat
  keyFuse : Nat
  rollback : Nat
  /-- the stacks train successfully (R343; log 6) -/
  stacksOk : Bool
  /-- slices whose home channel is down, and slices whose stack part is in self-refresh (R341) -/
  chanDown : List Nat
  selfRefresh : List Nat
  /-- the cycle of the last access of each slice -/
  lastReq : List (Nat × Nat)
deriving DecidableEq, Repr

/-- A partition that DEFPART has not defined. -/
def Part.reset : Part := ⟨false, 0, 0, 0, 0, [], 0, 0, none, 0, none⟩

/-- The machine at the end of power-on reset, before bring-up (R343; log 5, log 6). -/
def State.reset : State where
  cur := .tile 0 0
  iword := 0
  reads := []
  agent := .press
  ev := .none
  inputs := []
  free := 0
  ids := 0
  bounds := 0
  cycle := 0
  tiles := []
  dies := Vector.replicate 4 Die.reset
  menders := []
  mem := []
  gEmpty := []
  gPoison := []
  gLatent := []
  gfe := []
  gqWait := []
  ctxs := []
  parts := Vector.replicate 32 Part.reset
  launches := []
  groups := []
  qcopies := []
  msgs := []
  rewards := []
  reports := []
  collGroups := []
  colls := []
  collIn := []
  links := Vector.replicate 16 Link.reset
  ports := Vector.replicate 2 ⟨false, 0, 0, some (3, 31), []⟩
  msix := []
  noise := []
  sentFlits := []
  hostHeld := []
  hostGot := none
  armPend := []
  armSeen := []
  boot := 0
  fcode := 0
  trip := false
  abusy := false
  aerr := false
  devid := 0
  tvec := 0
  nonce := 0
  msixTab := []
  attest := none
  report := none
  idKey := 0
  idPub := 0
  images := [⟨0, 0, 0, 0, 0, 0, none⟩, ⟨1, 0, 0, 0, 0, 0, none⟩, ⟨2, 0, 0, 0, 0, 0, none⟩]
  bootKey := 0
  keyFuse := 0
  rollback := 0
  stacksOk := true
  chanDown := []
  selfRefresh := []
  lastReq := []

/-! ## Stops -/

/-- A step never ends in a fault: every trap, park and lost message is a next state (R63, R68), and no address is outside
the machine without a trap of its own. The one fault is kept for a state that no run reaches. -/
inductive Fault where
  /-- Raised by nothing. Safe: it can only keep a true claim from being proved. -/
  | unreachable
deriving DecidableEq, Repr

/-- Why an instruction has no meaning in this model. -/
inductive Refusal where
  /-- Raised by an arm of `exec` that has no meaning yet, with the instruction's mnemonic. Safe: the run ends. -/
  | notModelled (mnemonic : String)
deriving DecidableEq, Repr

/-- The outcome of an instruction. -/
abbrev Out := Host.Outcome State Fault Refusal

end Sys2Proof.Machine
end

