-- ==== Sys2Proof/Machine/Mem.lean ====
section
/-! DEFINITION. Memory as a sparse list of bytes in canonical form (log 4), and sorted association lists. -/

namespace Sys2Proof.Machine

/-- The canonical form: addresses strictly rising from `lo` on, no zero byte listed. -/
def memWfFrom : Nat → Mem → Bool
  | _, [] => true
  | lo, (k, b) :: m => decide (lo ≤ k) && b != 0 && memWfFrom (k + 1) m

/-- The canonical form of memory (log 4). -/
def Memory.wf (m : Mem) : Bool := memWfFrom 0 m

/-- The `n` bytes at `a`, little-endian (R1). -/
def memRead : Mem → Nat → Nat → Nat
  | [], _, _ => 0
  | (k, b) :: m, a, n =>
    if k < a then memRead m a n
    else if k < a + n then b.toNat * 256 ^ (k - a) + memRead m a n
    else memRead m a n

/-- The `n` low bytes of `v` at `a`, little-endian, as the entries of a memory: zero bytes are not listed. -/
def memCells : Nat → Nat → Nat → Mem
  | _, 0, _ => []
  | a, n + 1, v =>
    if v % 256 = 0 then memCells (a + 1) n (v / 256)
    else (a, BitVec.ofNat 8 v) :: memCells (a + 1) n (v / 256)

/-- Writes the `n` low bytes of `v` at `a`, little-endian (R1). -/
def memWrite (m : Mem) (a n v : Nat) : Mem :=
  m.filter (fun c => c.1 < a) ++ memCells a n v ++ m.filter (fun c => decide (a + n ≤ c.1))

/-- Sets `n` bytes at `a` to zero. -/
def memZero (m : Mem) (a n : Nat) : Mem :=
  m.filter (fun c => c.1 < a) ++ m.filter (fun c => decide (a + n ≤ c.1))

/-- The entries of `n` bytes at `a`, moved to `b`. -/
def memMoved (m : Mem) (a n b : Nat) : Mem :=
  (m.filter (fun c => decide (a ≤ c.1 ∧ c.1 < a + n))).map fun c => (c.1 - a + b, c.2)

/-- Copies `n` bytes at `a` of `src` to `b` of `dst`. -/
def memCopy (dst src : Mem) (a n b : Nat) : Mem :=
  dst.filter (fun c => c.1 < b) ++ memMoved src a n b ++ dst.filter (fun c => decide (b + n ≤ c.1))

/-! ## Vectors, association lists and sets -/

/-- A function applied to each element of a vector. -/
def vmap {α β : Type} {n : Nat} (v : Vector α n) (f : α → β) : Vector β n := Vector.ofFn fun i => f (v.get i)

/-- Some element of a vector satisfies `p`. -/
def vany {α : Type} {n : Nat} (v : Vector α n) (p : α → Bool) : Bool := v.toList.any p

/-- The value under a key. -/
def alGet {α : Type} (l : List (Nat × α)) (k : Nat) : Option α :=
  match l with
  | [] => none
  | (k', x) :: r => if k' = k then some x else alGet r k

/-- Sets the value under a key, keys rising. -/
def alSet {α : Type} (l : List (Nat × α)) (k : Nat) (x : α) : List (Nat × α) :=
  match l with
  | [] => [(k, x)]
  | (k', y) :: r =>
    if k < k' then (k, x) :: (k', y) :: r
    else if k' = k then (k, x) :: r
    else (k', y) :: alSet r k x

/-- Inserts into a rising list of numbers. -/
def insNat (l : List Nat) (k : Nat) : List Nat :=
  match l with
  | [] => [k]
  | a :: r => if k < a then k :: a :: r else if a = k then a :: r else a :: insNat r k

/-- Removes from a list of numbers. -/
def delNat (l : List Nat) (k : Nat) : List Nat := l.filter (· != k)

/-- Inserts each of `n` consecutive numbers from `k` on. -/
def insRange (l : List Nat) (k : Nat) : Nat → List Nat
  | 0 => l
  | n + 1 => insRange (insNat l k) (k + 1) n

/-- Element `i` of a list, 0 beyond its end. -/
def nth (l : List Nat) (i : Nat) : Nat := l.getD i 0

/-- Element `i` of a list of words, 0 beyond its end. -/
def nthW (l : List W32) (i : Nat) : W32 := l.getD i 0

/-- Bytes of a value: byte `i` of `v`. -/
def byteOf (v i : Nat) : Nat := v / 256 ^ i % 256

/-- 32-bit lane `i` of a value. -/
def laneOf (v i : Nat) : Nat := v / 2 ^ (32 * i) % 2 ^ 32

/-- A value with bits [lo + width - 1 : lo] replaced. -/
def putBits (w lo width v : Nat) : Nat :=
  w % 2 ^ lo + v % 2 ^ width * 2 ^ lo + w / 2 ^ (lo + width) * 2 ^ (lo + width)

/-- The value whose elements of `w` bits are the list's, element 0 lowest. -/
def packBits (w : Nat) : List Nat → Nat
  | [] => 0
  | x :: r => x % 2 ^ w + 2 ^ w * packBits w r

/-- Fields of given widths as one value, the first lowest. -/
def packF : List (Nat × Nat) → Nat
  | [] => 0
  | (w, x) :: r => x % 2 ^ w + 2 ^ w * packF r

/-- The `n` low elements of `w` bits of a value, element 0 first. -/
def unpackBits (w : Nat) : Nat → Nat → List Nat
  | 0, _ => []
  | n + 1, v => v % 2 ^ w :: unpackBits w n (v / 2 ^ w)

end Sys2Proof.Machine
end

