-- ==== Sys2Proof/Machine/Regs.lean ====
section
/-! DEFINITION. Tiles, harts and their registers, each with its full/empty bit: the only readers and writers of
`Hart.g` to `Hart.kF` (R55, R57), and the geometry of the mesh (R9 to R12). -/

namespace Sys2Proof.Machine

/-! ## The mesh -/

/-- x and y of a tile (R9). -/
def tileX (t : Nat) : Nat := t % 72
def tileY (t : Nat) : Nat := t / 72

/-- The tile at (x, y) (R9). -/
def tileAt (x y : Nat) : Nat := y * 72 + x

/-- The die that holds a tile (R9). -/
def dieOf (t : Nat) : Fin 4 := Fin.ofNat 4 ((tileY t / 32) * 2 + tileX t / 36)

/-- The quad and the cluster of a tile (R10). -/
def quadOf (t : Nat) : Nat := (tileY t / 2) * 36 + tileX t / 2
def clusterOf (t : Nat) : Nat := (tileY t / 4) * 18 + tileX t / 4

/-- The tiles of the square block of side `n` that holds a tile, in tile order. -/
def blockTiles (n t : Nat) : List Nat :=
  let x0 := tileX t / n * n
  let y0 := tileY t / n * n
  (List.range n).flatMap fun j => (List.range n).map fun i => tileAt (x0 + i) (y0 + j)

/-- The neighbours of a tile in the order N, E, S, W, with the bit of R368 for each (R11). -/
def neighbours (t : Nat) : List (Nat × Nat) :=
  let x := tileX t
  let y := tileY t
  (if y = 0 then [] else [(tileAt x (y - 1), 0)]) ++ (if x < 71 then [(tileAt (x + 1) y, 2)] else []) ++
    (if y < 63 then [(tileAt x (y + 1), 1)] else []) ++ (if x = 0 then [] else [(tileAt (x - 1) y, 3)])

/-- Hops between two tiles, and the die edges a message between them crosses (R95, R141). -/
def hops (t u : Nat) : Nat :=
  (tileX t - tileX u) + (tileX u - tileX t) + ((tileY t - tileY u) + (tileY u - tileY t))
def dieEdges (t u : Nat) : Nat :=
  b2n (tileX t / 36 != tileX u / 36) + b2n (tileY t / 32 != tileY u / 32)

/-! ## Tiles and harts -/

/-- A tile of the machine. -/
def getTile (s : State) (t : Nat) : Tile := (alGet s.tiles t).getD Tile.reset

/-- Replaces a tile. -/
def setTile (s : State) (t : Nat) (x : Tile) : State := { s with tiles := alSet s.tiles t x }

/-- Changes a tile. -/
def modTile (s : State) (t : Nat) (f : Tile → Tile) : State := setTile s t (f (getTile s t))

/-- A mender. -/
def getMender (s : State) (m : Nat) : Mender := (alGet s.menders m).getD Mender.reset

/-- Replaces a mender. -/
def setMender (s : State) (m : Nat) (x : Mender) : State := { s with menders := alSet s.menders m x }

/-- A hart. -/
def getHart (s : State) (h : HartId) : Hart :=
  match h with
  | .tile t i => (getTile s t).harts.get i
  | .mender m i => (getMender s m).harts.get i

/-- Replaces a hart. -/
def setHart (s : State) (h : HartId) (x : Hart) : State :=
  match h with
  | .tile t i => setTile s t { getTile s t with harts := (getTile s t).harts.set i x }
  | .mender m i => setMender s m { getMender s m with harts := (getMender s m).harts.set i x }

/-- Changes a hart. -/
def modHart (s : State) (h : HartId) (f : Hart → Hart) : State := setHart s h (f (getHart s h))

/-- The hart that executes. -/
def me (s : State) : Hart := getHart s s.cur

/-- Changes the hart that executes. -/
def modMe (s : State) (f : Hart → Hart) : State := modHart s s.cur f

/-- The kinds of hart (R48). -/
inductive HartKind where
  | thread | matSeq | vecSeq | mender
deriving DecidableEq, Repr

/-- The kind of a hart. -/
def kindOf (h : HartId) : HartKind :=
  match h with
  | .tile _ i => if i.val < 8 then .thread else if i.val = 8 then .matSeq else .vecSeq
  | .mender _ _ => .mender

/-- The tile of a hart; a mender has none. -/
def tileOf? (h : HartId) : Option Nat :=
  match h with
  | .tile t _ => some t
  | .mender _ _ => none

/-- The tile of the hart that executes; 0 for a mender, which executes no instruction that asks. -/
def myTile (s : State) : Nat := (tileOf? s.cur).getD 0

/-- The slot number of a hart. -/
def slotOf (h : HartId) : Nat :=
  match h with
  | .tile _ i => i.val
  | .mender _ i => i.val

/-- The die on which a hart sits (R9, R303). -/
def hartDie (h : HartId) : Fin 4 :=
  match h with
  | .tile t _ => dieOf t
  | .mender m _ => Fin.ofNat 4 (m / 32)

/-- The context in which a hart fetches, translates and reports; 0 for none (R267, R304). -/
def hartCtx (s : State) (h : HartId) : Nat :=
  match h with
  | .tile t _ => (getTile s t).ctx
  | .mender m i => match (getMender s m).use.get i with
    | some u => u.ctx
    | none => 0

/-- Whether a hart runs in supervisor mode (R56). -/
def isSup (s : State) : Bool := (me s).sup

/-! ## Registers (R55, R57) -/

/-- The errors of a hart's cells after one of them has been written whole (R296). -/
def healed (h : Hart) (c : CellLoc) : List (CellLoc × Flaw) := h.flaws.filter (·.1 != c)

/-- g-register `r`; g0 reads zero. -/
def rg (h : Hart) (r : GReg) : Word := if r = 0 then 0 else h.g.get r

/-- Writes g-register `r` and sets it full, which ends an error of its cell (R296); a write to g0 is discarded. -/
def wg (h : Hart) (r : GReg) (x : Word) : Hart :=
  if r = 0 then h else { h with g := h.g.set r x, gF := h.gF ||| (1#32 <<< r.val), flaws := healed h (.reg ⟨.g, r.val⟩) }

/-- e-register `r`. -/
def re (h : Hart) (r : EReg) : Word := h.e.get r

/-- Writes e-register `r` and sets it full. -/
def we (h : Hart) (r : EReg) (x : Word) : Hart :=
  { h with e := h.e.set r x, eF := h.eF ||| (1#8 <<< r.val), flaws := healed h (.reg ⟨.e, r.val⟩) }

/-- v-register `r`. -/
def rv (h : Hart) (r : VReg) : Vec := h.v.get r

/-- Writes v-register `r` and sets it full. -/
def wv (h : Hart) (r : VReg) (x : Vec) : Hart :=
  { h with v := h.v.set r x, vF := h.vF ||| (1#16 <<< r.val), flaws := healed h (.reg ⟨.v, r.val⟩) }

/-- k-register `r`; k0 reads all ones. -/
def rk (h : Hart) (r : KReg) : BitVec 16 := if r = 0 then 0xFFFF else h.k.get r

/-- Writes k-register `r` and sets it full; a write to k0 is discarded. -/
def wk (h : Hart) (r : KReg) (x : BitVec 16) : Hart :=
  if r = 0 then h else { h with k := h.k.set r x, kF := h.kF ||| (1#4 <<< r.val), flaws := healed h (.reg ⟨.k, r.val⟩) }

/-- Whether a register of the hart is full; g0 and k0 always are. Classes c and q are the tile's, see `tileRegFull`. -/
def hartRegFull (h : Hart) (r : RegId) : Bool :=
  match r.cls with
  | .g => r.idx == 0 || h.gF.getLsbD r.idx
  | .e => h.eF.getLsbD r.idx
  | .v => h.vF.getLsbD r.idx
  | .k => r.idx == 0 || h.kF.getLsbD r.idx
  | .c | .q | .latch => true

/-- Whether a tile-wide register is full (R55). -/
def tileRegFull (t : Tile) (r : RegId) : Bool :=
  match r.cls with
  | .c => t.cF.getLsbD r.idx
  | .q => (t.q.get (Fin.ofNat 4 r.idx)).full
  | .latch => t.latch.st == .full
  | .g | .e | .v | .k => true

/-- Whether the register that `r` designates for hart `h` is full (R55, R58). -/
def regFull (s : State) (h : HartId) (r : RegId) : Bool :=
  match r.cls, h with
  | .c, .tile t _ | .q, .tile t _ | .latch, .tile t _ => tileRegFull (getTile s t) r
  | _, _ => hartRegFull (getHart s h) r

/-- Sets a register of the hart empty (R57, R81); g0 and k0 stay full. -/
def emptyHartReg (h : Hart) (r : RegId) : Hart :=
  match r.cls with
  | .g => if r.idx = 0 then h else { h with gF := h.gF &&& ~~~(1#32 <<< r.idx) }
  | .e => { h with eF := h.eF &&& ~~~(1#8 <<< r.idx) }
  | .v => { h with vF := h.vF &&& ~~~(1#16 <<< r.idx) }
  | .k => if r.idx = 0 then h else { h with kF := h.kF &&& ~~~(1#4 <<< r.idx) }
  | .c | .q | .latch => h

/-- Sets a tile-wide register empty or full. -/
def markTileReg (t : Tile) (r : RegId) (full : Bool) : Tile :=
  match r.cls with
  | .c => { t with cF := if full then t.cF ||| (1#16 <<< r.idx) else t.cF &&& ~~~(1#16 <<< r.idx) }
  | .q => { t with q := t.q.set (Fin.ofNat 4 r.idx) { t.q.get (Fin.ofNat 4 r.idx) with full := full } }
  | .latch => { t with latch := { t.latch with st := if full then .full else .filling } }
  | .g | .e | .v | .k => t

/-- Sets a register of hart `h` empty. -/
def emptyReg (s : State) (h : HartId) (r : RegId) : State :=
  match r.cls, h with
  | .c, .tile t _ | .q, .tile t _ | .latch, .tile t _ => modTile s t fun x => markTileReg x r false
  | _, _ => modHart s h fun x => emptyHartReg x r

/-- Writes a value to a register of a hart and sets it full. -/
def putHartReg (h : Hart) (r : RegId) (v : Nat) : Hart :=
  match r.cls with
  | .g => wg h (Fin.ofNat 32 r.idx) (w64 v)
  | .e => we h (Fin.ofNat 8 r.idx) (w64 v)
  | .v => wv h (Fin.ofNat 16 r.idx) (BitVec.ofNat 512 v)
  | .k => wk h (Fin.ofNat 4 r.idx) (BitVec.ofNat 16 v)
  | .c | .q | .latch => h

/-- Performs a write-back: the register is written and set full (R57, R60). For a tile-wide register the data is in place
already, and only the bit is set. -/
def putReg (s : State) (h : HartId) (w : WriteBack) : State :=
  match w.reg.cls, h with
  | .c, .tile t _ | .q, .tile t _ | .latch, .tile t _ => modTile s t fun x => markTileReg x w.reg true
  | _, _ => modHart s h fun x => putHartReg x w.reg w.val

/-- The code of a register class (R58, R219). -/
def classCode (c : RegClass) : Nat :=
  match c with
  | .g => 0
  | .e => 1
  | .v => 2
  | .k => 3
  | .c => 4
  | .q => 5
  | .latch => 6

/-- A register designation (R58). -/
def designation (r : RegId) : Word := w64 (classCode r.cls * 256 + r.idx)

/-- Register designations by class. -/
def gId (r : GReg) : RegId := ⟨.g, r.val⟩
def eId (r : EReg) : RegId := ⟨.e, r.val⟩
def vId (r : VReg) : RegId := ⟨.v, r.val⟩
def kId (r : KReg) : RegId := ⟨.k, r.val⟩
def cId (r : CTile) : RegId := ⟨.c, r.val⟩
def qId (r : QReg) : RegId := ⟨.q, r.val⟩

/-! ## The error counts of a die (R300) -/

/-- Adds to the error counts of a die, which saturate (R300). -/
def countErr (s : State) (d : Fin 4) (f : ErrBlock → ErrBlock) : State :=
  let x := s.dies.get d
  { s with dies := s.dies.set d { x with err := f x.err } }

/-- A count that saturates at 2^64 - 1. -/
def satAdd (n : Nat) : Nat := if n + 1 < 2 ^ 64 then n + 1 else n

/-- An error in the tile SRAMs or the register files of die `d` is found, uncorrectable or corrected (R296, R300). -/
def countCell (s : State) (d : Fin 4) (unc : Bool) : State :=
  countErr s d fun e => if unc then { e with sue := satAdd e.sue } else { e with sce := satAdd e.sce }

/-- The timebase in ns: 2.4 cycles a nanosecond, from 0 at the end of power-on reset (R2, R66). -/
def timeNs (s : State) : Nat := s.cycle * 5 / 12

end Sys2Proof.Machine
end

