-- ==== Sys2Proof/Machine/Ops.lean ====
section
/-! DEFINITION. The shared operations of every meaning: completing an instruction, parking, reports, taking a trap and
returning from one (R57, R63, R66, R68, R77, R174, R272, R294), posts to a mailbox (R179), and issuing a long operation
(R59 to R62). -/

namespace Sys2Proof.Machine

/-! ## Completion and parking -/

/-- One instruction of every outstanding operation's shadow has issued (R59). -/
def spendShadow (l : List LongOp) : List LongOp := l.map fun o => { o with left := o.left - 1 }

/-- The instruction of hart `h`, with registers `x` at its issue, is followed by a step trap (R294). -/
def stepped (h : HartId) (x : Hart) : Bool := x.ss && !x.inh && kindOf h == .thread

/-- The instruction of hart `h` completes and `next` follows it; `st` says that a step trap is due, which the hart takes
next (R294). -/
def completeAs (st : Bool) (s : State) (h : HartId) (next : Word) : State :=
  modHart s h fun x =>
    { x with pc := next, status := if st then .parked (.trap 0x07 x.pc) else .ready, out := spendShadow x.out,
             refused := none, why := none }

/-- The instruction of hart `h` completes and `next` follows it. -/
def complete (s : State) (h : HartId) (next : Word) : State := completeAs (stepped h (getHart s h)) s h next

/-- The executing instruction completes and `next` follows it. -/
def goto (next : Word) (s : State) : Out := .next (complete s s.cur next)

/-- The executing instruction, of `len` bytes, completes. -/
def done (len : Nat) (s : State) : Out := goto ((me s).pc + w64 len) s

/-- Reasons of a full/empty access, whose wait-limit count runs on from one to the next (R98, R99, R101). -/
def isFeWait (r : Reason) : Bool :=
  match r with
  | .word _ _ | .wordRetry _ _ _ | .wordAgain _ _ _ | .held _ true _ _ _ => true
  | _ => false

/-- What a hart waits for, or waited for before it became *ready* to run its instruction again (R51). -/
def waitOf (x : Hart) : Option Reason :=
  match x.status with
  | .parked r => some r
  | .ready => x.why
  | .free | .inline | .trapped | .posting _ _ _ => none

/-- Parks hart `h` (R6, R57); the count of a full/empty wait that is parked again runs on. -/
def parkHart (s : State) (h : HartId) (r : Reason) : State :=
  modHart s h fun x =>
    let keep := (waitOf x).any isFeWait && isFeWait r
    { x with status := .parked r, why := none, since := if keep then x.since else s.cycle }

/-- Park(reason): nothing of the instruction takes effect, and it runs again from its start (R6). -/
def park (r : Reason) (s : State) : Out := .next (parkHart s s.cur r)

/-- The instruction has issued and holds its slot: nothing of it takes effect until what it waits for has come about, and its slot is
no candidate meanwhile (R54). -/
def hold (w : SlotWait) (s : State) : Out := park (.slot w s.iword) s

/-! ## Reports (R272, R368) -/

/-- A 64-byte report record. -/
def record (s : State) (kind cause tile slot : Nat) (pc val : Word) (d0 d1 : Nat) : Nat :=
  kind % 256 + cause % 128 * 2 ^ 8 + tile % 2 ^ 16 * 2 ^ 16 + slot % 8 * 2 ^ 32 + pc.toNat * 2 ^ 64 +
    val.toNat * 2 ^ 128 + timeNs s % 2 ^ 64 * 2 ^ 192 + d0 % 2 ^ 64 * 2 ^ 256 + d1 % 2 ^ 64 * 2 ^ 320

/-- The report queue that a context's descriptor names. -/
def ctxRepq (s : State) (c : Nat) : Word :=
  match alGet s.ctxs c with
  | some x => x.repq
  | none => 0

/-- Makes a report of an agent of tile `t`, to the queue that the tile's repq names. -/
def tileReport (s : State) (t kind cause slot : Nat) (pc val : Word) (d0 d1 : Nat) : State :=
  { s with reports := s.reports ++ [{ ctx := (getTile s t).ctx, die := dieOf t, repq := (getTile s t).repq,
                                      data := record s kind cause t slot pc val d0 d1, src := t }] }

/-- Makes a report of a unit of context `c`, on die `d`: queue unit, switch unit, claim-ticket table, wringer. -/
def unitReport (s : State) (d : Fin 4) (c kind cause : Nat) (pc val : Word) (d0 d1 : Nat) : State :=
  { s with reports := s.reports ++ [{ ctx := c, die := d, repq := ctxRepq s c,
                                      data := record s kind cause 0xFFFF 0 pc val d0 d1, src := 0x1_0000 + d.val }] }

/-- A report of hart `h` with the slot number R368 gives it: a sequencer's is 0 or 1. -/
def hartRecord (s : State) (h : HartId) (kind cause : Nat) (pc val : Word) (d0 d1 : Nat) : PendReport :=
  match h with
  | .tile t i =>
    { ctx := (getTile s t).ctx, die := dieOf t, repq := (getTile s t).repq,
      data := record s kind cause t (if i.val < 8 then i.val else i.val - 8) pc val d0 d1, src := t }
  | .mender m i =>
    { ctx := hartCtx s h, die := hartDie h, repq := ctxRepq s (hartCtx s h),
      data := record s kind cause (0x8000 + m) i.val pc val d0 d1, src := 0x8000 + m }

/-- Makes a report of hart `h`. -/
def hartReport (s : State) (h : HartId) (kind cause : Nat) (pc val : Word) (d0 d1 : Nat) : State :=
  { s with reports := s.reports ++ [hartRecord s h kind cause pc val d0 d1] }

/-- The poison report of a reader for its instruction at `pc` (R94, R297): `space` is the space number of R89. -/
def poisonReportAt (s : State) (h : HartId) (pc : Word) (space : Nat) (ea : Word) : State := hartReport s h 1 0 pc ea space 0

/-- The poison report of the instruction that a hart is at. -/
def poisonReport (s : State) (h : HartId) (space : Nat) (ea : Word) : State := poisonReportAt s h (getHart s h).pc space ea

/-! ## What an instruction meets in reading (R6, R94, R296; log 46)

An instruction that parks or traps leaves no trace: the poison that it has met is reported, and the errors of cells are found, once it
takes effect. -/

/-- The instruction of hart `h` has read poison: its report is noted. -/
def notePoisonRead (fetch : Bool) (s : State) (h : HartId) (space : Nat) (ea : Word) : State :=
  { s with reads := s.reads ++ [⟨none, some (hartRecord s h 1 0 (getHart s h).pc ea space 0), fetch⟩] }

/-! ## Errors in the cells of registers (R296)

A correctable error is corrected in the cell and counted. A cell with an uncorrectable one is poisoned until it is written whole, and
each read of it delivers zero and posts a poison report with the register's designation or the CSR's number. -/

/-- Takes the next number of the counter of free values (log 9). -/
def nextFree (s : State) : State × Nat := ({ s with free := s.free + 1 }, s.free)

/-- The poison report of a cell; a cell has no space number (log 9). -/
def cellReport (s : State) (h : HartId) (val : Word) : State :=
  let (s, n) := nextFree s
  hartReport s h 1 0 (getHart s h).pc val (Config.freeWord n % 8) 0

/-- What is wrong with a cell, in a list of errors. -/
def flawAt (l : List (CellLoc × Flaw)) (c : CellLoc) : Option Flaw := (l.find? (·.1 == c)).map (·.2)

/-- The errors of a list after cell `c` has been read. -/
def flawRead (l : List (CellLoc × Flaw)) (c : CellLoc) (f : Flaw) : List (CellLoc × Flaw) :=
  let r := l.filter (·.1 != c)
  if f == .soft then r else (c, .found) :: r

/-- The count and the report that reading a flawed cell makes. -/
def flawSeen (s : State) (h : HartId) (f : Flaw) (val : Word) : State :=
  match f with
  | .soft => countCell s (hartDie h) false
  | .hard => cellReport (countCell s (hartDie h) true) h val
  | .found => cellReport s h val

/-- The instruction of hart `h` has read a cell with flaw `f`, once: that is noted; `val` is what its report names. -/
def noteCell (s : State) (h : HartId) (c : CellLoc) (f : Flaw) (val : Word) : State :=
  if s.reads.any (fun n => n.cell == some (h, c, f)) then s
  else if f == .soft then { s with reads := s.reads ++ [⟨some (h, c, f), none, false⟩] }
  else
    let (s, n) := nextFree s
    { s with reads := s.reads ++
      [⟨some (h, c, f), some (hartRecord s h 1 0 (getHart s h).pc val (Config.freeWord n % 8) 0), false⟩] }

/-- Hart `h` reads register `r`: an uncorrectable cell delivers zero. -/
def readCell (s : State) (h : HartId) (r : RegId) : State :=
  match flawAt (getHart s h).flaws (.reg r) with
  | none => s
  | some f =>
    noteCell (if f == .soft then s else modHart s h fun x => { putHartReg x r 0 with flaws := x.flaws }) h (.reg r) f (designation r)

/-- The instruction of hart `h` that met an error in its cell takes effect: the error is found, and counted (R296, R300). -/
def findCell (s : State) (h : HartId) (c : CellLoc) (f : Flaw) : State :=
  let s := modHart s h fun x => if flawAt x.flaws c = some f then { x with flaws := flawRead x.flaws c f } else x
  match f with
  | .soft => countCell s (hartDie h) false
  | .hard => countCell s (hartDie h) true
  | .found => s

/-- A note is made good. -/
def commitNote (s : State) (n : ReadNote) : State :=
  let s := match n.cell with
    | some (h, c, f) => findCell s h c f
    | none => s
  match n.report with
  | some r => { s with reports := s.reports ++ [r] }
  | none => s

/-- Notes are made good. -/
def commitNotes (s : State) (l : List ReadNote) : State := l.foldl commitNote s

/-- Hart `h` pops or reads an entry of a mailbox or a work list: the state after, and whether the entry delivers zero. The spec gives
the report of an entry no val (R296; log 9). -/
def readEntry (s : State) (h : HartId) (f : Option Flaw) : State × Bool :=
  match f with
  | none => (s, false)
  | some f =>
    let (s, n) := nextFree s
    (flawSeen s h f (w64 (Config.freeWord n)), f != .soft)

/-- What is wrong with an entry after it has been read in place. -/
def entryFlaw (f : Option Flaw) : Option Flaw :=
  match f with
  | some .hard | some .found => some .found
  | some .soft | none => none

/-- Hart `h` reads registers, in order. -/
def readCells (s : State) (h : HartId) (rs : List RegId) : State :=
  if (getHart s h).flaws = [] then s else rs.foldl (fun s r => readCell s h r) s

/-! ## The mailbox (R179) -/

/-- The sequencer's program ends: it is *idle*, and it leaves the fork set of the thread that forked it (R173, R178). -/
def endSequencer (s : State) (h : HartId) : State :=
  let x := getHart s h
  let s := modHart s h fun x => { x with status := .free, forkedBy := none }
  match x.forkedBy, h with
  | some n, .tile t i => modHart s (.tile t n) fun y => { y with fork := delNat y.fork (i.val - 8) }
  | _, _ => s

/-- A post has been accepted: its poster goes on (R173, R181). -/
def posterGoesOn (s : State) (p : HeldPost) : State :=
  match p.sender with
  | none => s
  | some h =>
    match (getHart s h).status with
    | .posting _ _ _ => endSequencer s h
    | .parked (.post id next) => if id = p.id then complete s h next else s
    | _ => s

/-- The mailbox of tile `t` has filled without an entry of the tag mnext: each slot that waits in RECVM.o traps with 0x39 (R181). -/
def mailFilled (s : State) (t : Nat) : State :=
  let x := getTile s t
  if x.mbox.length < 32 || x.mbox.any (·.tag == x.mnext) then s
  else
    (List.finRange 10).foldl (fun s i =>
      if (getHart s (.tile t i)).status == .parked .mailTag then
        parkHart (modTile s t fun y => { y with mwait := y.mwait.filter (· != i) }) (.tile t i) (.trap 0x39 x.mnext)
      else s) s

/-- A post reaches the mailbox of tile `t`: it is accepted, or held while 32 entries are in it (R179). -/
def mailPost (s : State) (t : Nat) (p : HeldPost) : State :=
  let x := getTile s t
  if x.mbox.length < 32 then mailFilled (posterGoesOn (setTile s t { x with mbox := x.mbox ++ [p.post] }) p) t
  else setTile s t { x with mheld := x.mheld ++ [p] }

/-- An entry has been freed: the oldest held post is accepted (R179). -/
def mailRefill (s : State) (t : Nat) : State :=
  let x := getTile s t
  match x.mheld with
  | p :: r =>
    if x.mbox.length < 32 then
      mailFilled (posterGoesOn (setTile s t { x with mbox := x.mbox ++ [p.post], mheld := r }) p) t
    else s
  | [] => s

/-! ## Traps -/

/-- A fresh identity for a message, copy, group or launch (a bookkeeping number of the model). -/
def freshId (s : State) : State × Nat := ({ s with ids := s.ids + 1 }, s.ids + 1)

/-- The fault of sequencer `e` (0 matrix, 1 vector) of tile `t` (R174): recorded for the forking thread's RDV, or
reported; then the fault entry is posted. -/
def sequencerFault (s : State) (t : Nat) (h : HartId) (e cause : Nat) (val : Word) : State :=
  let x := getHart s h
  let s := match x.forkedBy with
    | some n =>
      if (getHart s (.tile t n)).fork.contains e then
        modHart s (.tile t n) fun y => { y with forkFaults := y.forkFaults ++ [⟨e, cause, val⟩] }
      else hartReport s h 4 cause x.pc val 0 0
    | none => hartReport s h 4 cause x.pc val 0 0
  let tag := w64 (0xFFFF_FFFF_FFFF_FF00 + cause % 128 * 2 + e)
  let (s, id) := freshId s
  let s := modHart s h fun y => { y with status := .posting tag x.pc true }
  mailPost s t ⟨⟨tag, x.pc, false, none⟩, id, some h⟩

/-- The trap registers at an entry (R66, R68). -/
def saveTrap (x : Hart) (cause : Nat) (val : Word) : Hart :=
  { x with tcause := w64 cause, tval := val, tepc := x.pc, refused := none, why := none }

/-- d0 of a trap report: the cause that the handler was serving (R292). -/
def trapD0 (x : Hart) : Nat := if x.inh then 128 + x.tcause.toNat % 128 else 0

/-- Trap entry (R68): the saved registers are written; then the thread goes to its handler, or it is *trapped* and a report
is made. A sequencer's fault is R174's, and a mender's slot has no handler (R303, R304). -/
def takeTrap (s : State) (h : HartId) (cause : Nat) (val : Word) : State :=
  match h with
  | .tile t i =>
    if i.val < 8 then
      let x := getHart s h
      if x.tvec ≠ 0 ∧ x.inh = false then
        setHart s h { saveTrap x cause val with inh := true, pc := x.tvec, status := .ready }
      else
        hartReport (setHart s h { saveTrap x cause val with status := .trapped }) h 0 cause x.pc val (trapD0 x)
          (getTile s t).step.toNat
    else sequencerFault s t h (i.val - 8) cause val
  | .mender _ _ =>
    let x := getHart s h
    hartReport (setHart s h { saveTrap x cause val with status := .trapped }) h 0 cause x.pc val 0 0

/-- Trap(cause, val) of hart `h` (R6, R63): taken once no long operation of the hart is outstanding. -/
def trapOn (s : State) (h : HartId) (cause : Nat) (val : Word) : State :=
  if (getHart s h).out = [] then takeTrap s h cause val else parkHart s h (.trap cause val)

/-- Trap(cause, val) of the executing instruction. -/
def trap (cause : Nat) (val : Word) (s : State) : Out := .next (trapOn s s.cur cause val)

/-- The illegal-instruction trap, tval the instruction word (R50). -/
def illegal (s : State) : Out := trap 0x00 (w64 s.iword) s

/-- TRET (R77): the return from a trap. -/
def trapReturn (s : State) : Out :=
  if (me s).inh then
    let s := modMe s fun x => { x with inh := false }
    .next (modMe s fun x =>
      { x with pc := x.tepc, status := .ready, out := spendShadow x.out, refused := none, why := none })
  else illegal s

/-! ## Checks before an instruction -/

/-- The instruction lies in the set of the hart, or engine-illegal (R48, R50). -/
def inSet (ok : HartKind → Bool) (s : State) (k : State → Out) : Out :=
  if ok (kindOf s.cur) then k s else trap 0x0B (w64 s.iword) s

/-- Tile threads and menders. -/
def threadOrMender (x : HartKind) : Bool := x == .thread || x == .mender
/-- Tile threads. -/
def threadOnly (x : HartKind) : Bool := x == .thread
/-- Tile threads and sequencers. -/
def tileHarts (x : HartKind) : Bool := x != .mender
/-- Every hart. -/
def allHarts (_ : HartKind) : Bool := true

/-- The instruction is privileged: cause 0x03 in user mode (R48). -/
def supOnly (s : State) (k : State → Out) : Out := if isSup s then k s else trap 0x03 (w64 s.iword) s

/-- An acquire by a hart: it empties the G read cache of its tile (R91); a mender has none. -/
def acquire (s : State) (h : HartId) : State :=
  match h with
  | .tile t _ => modTile s t fun x => { x with gcache := [] }
  | .mender _ _ => s

/-- The first read of a register that PUTR filled is an acquire (R112). -/
def readFilled (s : State) (rs : List RegId) : State :=
  if (me s).filled.any (rs.contains ·) then
    acquire (modMe s fun x => { x with filled := x.filled.filter fun r => !rs.contains r }) s.cur
  else s

/-- Every source register is full, or the instruction parks before any effect (R57). -/
def sources (rs : List RegId) (s : State) (k : State → Out) : Out :=
  match rs.find? (fun r => !regFull s s.cur r) with
  | some r => park (.reg r) s
  | none => k (readCells (readFilled s rs) s.cur rs)

/-- A register that is the destination of an outstanding operation of the hart (R60); c- and q-registers park instead. -/
def hazard (x : Hart) (r : RegId) : Bool := x.out.any fun o => o.wbs.any fun w => w.reg == r

/-- No destination is that of an outstanding operation, or lookahead hazard (R60). g0 and k0 are never such. -/
def dests (rs : List RegId) (s : State) (k : State → Out) : Out :=
  match rs.find? (fun r => hazard (me s) r) with
  | some r => trap 0x02 (designation r) s
  | none => k s

/-- The instruction waits until no long operation of the hart is outstanding (R79, R109, R134). -/
def drained (s : State) (k : State → Out) : Out := if (me s).out = [] then k s else park .drain s

/-- The operation is an OPT under way (R311). -/
def isOpt (o : LongOp) : Bool :=
  match o.fx with
  | .opt _ => true
  | .none | .load _ _ | .store _ _ | .words _ | .rows _ | .ring _ _ _ => false

/-- An outstanding operation that writes no register and completes with the acknowledgement of its home: a store, or the stores of an
OPT. -/
def isStoreOp (o : LongOp) : Bool := (o.await == .time && o.wbs == []) || isOpt o

/-- A release waits until every earlier store and fill of the hart has been acknowledged by its home (R109, R112). -/
def acked (s : State) (k : State → Out) : Out := if (me s).out.any isStoreOp then park .acks s else k s

/-- A short instruction that holds its slot waits until no long operation of the hart is outstanding (R54, R109). -/
def heldDrained (s : State) (k : State → Out) : Out := if (me s).out = [] then k s else hold .drain s

/-- The release of a short instruction that holds its slot (R54, R109, R112). -/
def heldAcked (s : State) (k : State → Out) : Out := if (me s).out.any isStoreOp then hold .acks s else k s

/-- The operation is a store that has been sent and is not acknowledged yet: for its thread it has completed (R60, R109, R126;
log 47). -/
def isSent (now : Nat) (o : LongOp) : Bool :=
  match o.fx with
  | .store _ _ => decide (o.due ≤ now)
  | .none | .load _ _ | .words _ | .rows _ | .ring _ _ _ | .opt _ => false

/-- The long operations of a hart that are outstanding for it: those that have not completed (R59 to R61, R66, R109). -/
def openOps (now : Nat) (x : Hart) : List LongOp := x.out.filter fun o => !isSent now o

/-- A long operation may start: at most four are outstanding (R61). -/
def roomForLong (s : State) (k : State → Out) : Out := if (openOps s.cycle (me s)).length < 4 then k s else park .outFull s

/-! ## Long operations -/

/-- The destinations of a long operation that the hazard rule sees: g0 and k0 are discarded. -/
def realDests (wbs : List WriteBack) : List WriteBack :=
  wbs.filter fun w => !((w.reg.cls == .g || w.reg.cls == .k) && w.reg.idx == 0)

/-- Writes word `i` of a publish row, which clears its poison (R140, R141). -/
def putWindow (w : WinVer) (i : Nat) (x : W32) : WinVer :=
  ⟨w.words.set i x, w.bad.filter (· != i), w.flaws.filter (·.1 != i)⟩

/-- PUBs complete without effect in an *idle* tile (R136): one that was issued before a STEPIDLE took effect, too, when it completes after
it. R136 says both that PUBs made before still form the next version and that PUBs complete without effect from then on (DESIGN CHOICE;
log 43). -/
def pubWord (t : Tile) (i : Nat) (x : W32) : Tile := if t.idle then t else { t with pub := putWindow t.pub i x }

/-- An outstanding operation completes: its destinations are written and set full, its flags are ORed, and what else is due at
its completion is done (R60, R66, R139, R140, R224). -/
def writeBack (s : State) (h : HartId) (o : LongOp) : State :=
  let s := o.wbs.foldl (fun s w => putReg s h w) s
  let s := modHart s h fun x => { x with fflags := x.fflags ||| o.flags, pre := x.pre || o.pre }
  match h with
  | .tile t _ =>
    let s := o.qcnt.foldl (fun s c => modTile s t fun x =>
      { x with q := x.q.set (Fin.ofNat 4 c.1) { x.q.get (Fin.ofNat 4 c.1) with cnt := c.2 } }) s
    o.win.foldl (fun s w => modTile s t fun x => pubWord x w.1 w.2) s
  | .mender _ _ => s

/-- The lookahead of an instruction with la = `la`: 0 while tdbg.SS is 1 (R60). -/
def lookahead (s : State) (la : Nat) : Nat := if (me s).ss then 0 else la

/-- The access that an operation has on its way. -/
def opAccess (o : LongOp) : Option MemAcc :=
  match o.fx with
  | .load a _ | .store a _ => some a
  | .none | .words _ | .rows _ | .ring _ _ _ | .opt _ => none

/-- An access that is served as it issues. -/
def hereAcc (tile : Option Nat) (addr size : Nat) (ea : Word) : MemAcc := ⟨tile, addr, size, ea, 0, 0, false, []⟩

/-- An access that the executing hart sends; `lines` are the table lines behind its translation. -/
def sentAcc (s : State) (tile : Option Nat) (addr size : Nat) (ea : Word) (lines : List Nat) : MemAcc :=
  ⟨tile, addr, size, ea, (me s).pc, s.cycle, false, lines⟩

/-- The operation holds a place in the loop-back port of the tile of hart `h` (R102, R109). -/
def inLoopBack (h : HartId) (o : LongOp) : Bool := (opAccess o).any fun a => a.tile.isSome && a.tile == tileOf? h

/-- FENCE.acq may complete, and, with `lb`, FENCE.lb: the hart's long operations have completed, its stores may not be acknowledged
yet, and the loop-back port holds none of its accesses (R109). -/
def fenceClear (s : State) (h : HartId) (lb : Bool) : Bool :=
  openOps s.cycle (getHart s h) == [] && !(lb && (getHart s h).out.any (inLoopBack h))

/-- FENCE.acq and FENCE.lb wait for the hart's accesses (R109). -/
def finished (lb : Bool) (s : State) (k : State → Out) : Out := if fenceClear s s.cur lb then k s else park (.fenced lb) s

/-- Two accesses touch a common byte. -/
def overlap (a b : MemAcc) : Bool := a.tile == b.tile && decide (a.addr < b.addr + b.size ∧ b.addr < a.addr + a.size)

/-- The bytes that an OPT under way is still to read and write, as (virtual address, length): those of the elements left, or, where it
pops its gradients, of the elements popped; what it pops later is not known before (R61, R311; log 20). -/
def optSpans (r : OptRun) : List (Nat × Nat) :=
  let span (i n : Nat) : List (Nat × Nat) :=
    [(r.ea + 4 * i, 4 * n)] ++ match r.fn with
      | 0 => [(r.eb + 8 * i, 8 * n)]
      | 1 => [(r.eb + 4 * i, 4 * n)]
      | _ => []
  if bitAt r.blk 32 then r.pend.flatMap fun e => span e.1 1
  else span r.done (bits r.blk 0 32 - r.done) ++ if r.fn = 2 then [] else [(bits r.blk 64 64 + 4 * r.done, 4 * (bits r.blk 0 32 - r.done))]

/-- An operation touches a byte of access `a`: by its own access, or by what an OPT is still to do (R61). -/
def opTouches (o : LongOp) (a : MemAcc) : Bool :=
  match o.fx with
  | .load b _ | .store b _ => overlap a b
  | .opt r => a.tile.isNone && (decide (a.addr < r.pa + 64 ∧ r.pa + 56 < a.addr + a.size) ||
      (optSpans r).any fun p => decide (a.ea.toNat < p.1 + p.2 ∧ p.1 < a.ea.toNat + a.size))
  | .none | .words _ | .rows _ | .ring _ _ _ => false

/-- Outstanding operations of the executing hart that touch a byte of `a` (R61). -/
def ahead (s : State) (a : MemAcc) : List LongOp := (me s).out.filter fun o => opTouches o a

/-- An access that is served when it issues waits for the hart's earlier accesses to the same bytes, in its slot or *parked*
(R54, R61). -/
def inOrder (holds : Bool) (a : MemAcc) (s : State) (k : State → Out) : Out :=
  if ahead s a = [] then k s else if holds then hold (.order a) s else park (.order a) s

/-- The cycle before which an operation may not complete, for the hart's earlier accesses to the same bytes (R61). -/
def orderDue (s : State) (o : LongOp) : Nat :=
  match opAccess o with
  | some a => (ahead s a).foldl (fun m o => max m o.due) 0
  | none => 0

/-- Issues a long operation that has passed its last point of fault: its destinations are empty until it completes. After it
the hart issues as many instructions as its lookahead says, and no more until it completes (R59, R60; log 2). -/
def issueLong (len la lat : Nat) (o : LongOp) (s : State) : Out :=
  let o := { o with wbs := realDests o.wbs, left := lookahead s la + 1, due := max (s.cycle + lat) (orderDue s o) }
  let s := o.wbs.foldl (fun s w => emptyReg s s.cur w.reg) s
  done len (modMe s fun x => { x with out := x.out ++ [o] })

/-- Issues a long operation that completes by an event of its own: PUTR, CPY, COLL (R59, R60). -/
def issueAwait (len la : Nat) (a : Await) (s : State) : Out :=
  done len (modMe s fun x => { x with out := x.out ++ [⟨lookahead s la + 1, 0, [], 0, false, [], a, false, false, [], .none⟩] })

/-- The FENCE.acq after an atomic ends once no operation of its hart is outstanding (R108, R109). -/
def fenceGoesOn (s : State) (h : HartId) : State :=
  match (getHart s h).status with
  | .parked (.fence next) => if (getHart s h).out = [] then complete (acquire s h) h next else s
  | _ => s

/-- The operation of hart `h` that awaits `a` completes. -/
def awaitDone (s : State) (h : HartId) (a : Await) : State :=
  fenceGoesOn (modHart s h fun x => { x with out := x.out.filter fun o => o.await != a }) h

/-- A long operation that writes the registers `wbs`. -/
def longOp (wbs : List WriteBack) : LongOp := ⟨0, 0, wbs, 0, false, [], .time, false, false, [], .none⟩

end Sys2Proof.Machine
end

