-- ==== Sys2Proof/Machine/Xlate.lean ====
section
/-! DEFINITION. Physical memory (R15, R94, R96, R285) and the translation of virtual addresses (R277 to R285; log 7,
log 11). -/

namespace Sys2Proof.Machine

/-! ## Physical memory -/

/-- Bytes of device memory (R324). -/
def devSize : Nat := 0xC0_0000_0000

/-- The physical address lies in device memory. -/
def isDevice (pa : Nat) : Bool := decide (Config.hdmBase ≤ pa ∧ pa < Config.hdmBase + devSize)

/-- The home slice of a physical address (R15). -/
def sliceOf (pa : Nat) : Nat := pa / 256 % 128

/-- The notice of a write to the line of `pa`: every die drops the translations built from it (R285). -/
def dropLine (s : State) (line : Nat) : State :=
  if vany s.dies (fun d => d.dir.contains line) then
    { s with dies := vmap s.dies fun d =>
        { d with tlb := d.tlb.filter (fun e => !e.lines.contains line),
                 wcache := d.wcache.filter (fun e => !e.lines.contains line), dir := delNat d.dir line } }
  else s

/-- An error that a line holds is found at its home: a correctable one is corrected; an uncorrectable one marks the line
poisoned (R296, R301). Either is counted. -/
def findError (s : State) (line : Nat) : State :=
  let d : Fin 4 := Fin.ofNat 4 (sliceOf (line * 64) / 32)
  match s.gLatent.find? (·.1 == line) with
  | none => s
  | some (_, unc) =>
    let s := { s with gLatent := s.gLatent.filter (·.1 != line) }
    if unc then
      if s.gPoison.contains line then s
      else countErr { s with gPoison := insNat s.gPoison line } d fun e => { e with mue := satAdd e.mue }
    else countErr s d fun e => { e with mce := satAdd e.mce }

/-- An access wakes the slice's home channel and its stack part, and meets an error that the line holds (R301, R341). -/
def wakeSlice (s : State) (pa : Nat) : State :=
  let s := if s.gLatent = [] then s else findError s (pa / 64)
  { s with chanDown := delNat s.chanDown (sliceOf pa), selfRefresh := delNat s.selfRefresh (sliceOf pa),
           lastReq := alSet s.lastReq (sliceOf pa) s.cycle }

/-- Some byte of `n` at `pa` lies in a line that is poisoned, or whose uncorrectable error the access itself finds. -/
def physPoison (s : State) (pa n : Nat) : Bool :=
  (s.gPoison.any fun l => decide (pa / 64 ≤ l ∧ l ≤ (pa + n - 1) / 64)) ||
    s.gLatent.any fun l => l.2 && decide (pa / 64 ≤ l.1 ∧ l.1 ≤ (pa + n - 1) / 64)

/-- Reads physical memory: poisoned lines read as zero (R94). The access lies within one line. -/
def physRead (s : State) (pa n : Nat) : Nat := if physPoison s pa n then 0 else memRead s.mem pa n

/-- A write at the slice has set EN of a gradient queue descriptor of a mender slot from 0 to 1: the slot is to start (R304).
A line counts as a descriptor when it names its slice's mender, as RK 0 and with a context that exists (log 18). -/
def noteEnable (s : State) (pa : Nat) : State :=
  let d := memRead s.mem pa 64
  let m := sliceOf pa
  if isDevice pa && !bitAt d 3 && bits d 8 7 == m && s.ctxs.any (fun c => c.2.desc == w64 (bits d 128 64)) then
    setMender s m { getMender s m with pend := (getMender s m).pend ++ [pa] }
  else s

/-- The hart is *parked* in GQPUSH or GQPOP at the gradient queue whose descriptor is at `pa` (R308). -/
def atQueue (x : Hart) (pa : Nat) : Bool :=
  match waitOf x with
  | some (.gradQueue p _) => p == pa
  | _ => false

/-- An OPT of the hart that has issued waits there for an entry, or is about to go on (R311). -/
def optWaits (x : Hart) (pa : Nat) : Bool := x.out.any fun o => o.await == .queue pa || (isOpt o && o.await == .time)

/-- The queue is the one that a mender slot serves (R304). -/
def ownQueue (s : State) (h : HartId) (pa : Nat) : Bool :=
  match h with
  | .mender m i => ((getMender s m).use.get i).any (·.desc == pa)
  | .tile _ _ => false

/-- A mender's slot is to become *free* (R304). -/
def slotEnds (s : State) (h : HartId) : State :=
  match h with
  | .mender m i => setMender s m { getMender s m with ended := (getMender s m).ended ++ [i] }
  | .tile _ _ => s

/-- The queue whose EN a write has cleared ends the wait of a hart: a mender slot that waits for an entry of its own queue, in GQPOP or
by an OPT, is to become *free*; every other hart that is *parked* there traps with 0x44, reason 1 (R304, R308). An OPT at another queue
ends with FAULT when it goes on (log 20), and a wringer waits on (R321). -/
def endWait (s : State) (pa : Nat) (who : Agent) : State :=
  match who with
  | .hart h =>
    if ownQueue s h pa && (waitOf (getHart s h) == some (.gradQueue pa false) || optWaits (getHart s h) pa) then slotEnds s h
    else if atQueue (getHart s h) pa then parkHart s h (.trap 0x44 1)
    else s
  | _ => s

/-- The agent is a hart. -/
def isHartAgent (x : Agent) : Bool :=
  match x with
  | .hart _ => true
  | _ => false

/-- A write at the home has cleared EN of the descriptor at `pa`: every wait at it ends, and *trapped* slots that serve it are to
become *free* (R304, R308). -/
def noteDisable (s : State) (pa : Nat) : State :=
  let w := s.gqWait.filter (·.1 == pa)
  let s := w.foldl (fun s x => endWait s pa x.2) { s with gqWait := s.gqWait.filter fun x => !(x.1 == pa && isHartAgent x.2) }
  s.menders.foldl (fun s m => setMender s m.1 (
    let x := getMender s m.1
    { x with ended := x.ended ++ (List.finRange 8).filter fun i =>
        (x.use.get i).any (·.desc == pa) && (x.harts.get i).status == .trapped })) s

/-- Writes `n` bytes within one line at their home: a whole line clears its poison (R94), the dies that hold it as a table
line are told (R285), and a host line becomes the slice's (R108). -/
def physWrite (s : State) (pa n v : Nat) : State :=
  let line := pa / 64
  let old := bitAt (memRead s.mem pa 1) 4
  let set := pa % 64 = 0 ∧ !old ∧ bitAt v 4
  let clr := pa % 64 = 0 ∧ old ∧ !bitAt v 4
  let s := dropLine { s with mem := memWrite s.mem pa n v } line
  let s := if set then noteEnable s pa else if clr then noteDisable s pa else s
  let s := if n ≥ 64 then { s with gPoison := delNat s.gPoison line, gLatent := s.gLatent.filter (·.1 != line) } else s
  wakeSlice (if isDevice pa then s else { s with hostHeld := insNat s.hostHeld line }) pa

/-! ## The loom (R298, R299) -/

/-- How a packet arrives: whole, with poisoned data, or not at all. -/
inductive Arrived where
  | whole | bad | lost
deriving DecidableEq, Repr

/-- A packet travels on the loom: a payload that fails its CRC is poisoned, a header copy that fails is counted, and with both the
packet is lost (R298, R299). -/
def travel (s : State) : State × Arrived :=
  match s.noise with
  | [] => (s, .whole)
  | .none :: r => ({ s with noise := r }, .whole)
  | .crc d :: r => (countErr { s with noise := r } d fun e => { e with lcrc := satAdd e.lcrc }, .bad)
  | .header d :: r => (countErr { s with noise := r } d fun e => { e with hdr := satAdd e.hdr }, .whole)
  | .lost d :: r => (countErr { s with noise := r } d fun e => { e with hdr := satAdd (satAdd e.hdr) }, .lost)

/-- `n` packets travel, until one does not arrive whole. -/
def travelAll : Nat → State → State × Bool
  | 0, s => (s, true)
  | n + 1, s =>
    match travel s with
    | (s, .whole) => travelAll n s
    | (s, _) => (s, false)

/-! ## The walk (R278, R280) -/

/-- The result of a translation. -/
inductive XRes where
  | ok (pa : Nat)
  /-- not present: a page request for this 4 KiB page is out (R284) -/
  | absent (vpn : Nat)
  | refused
  | access
  | perm
deriving DecidableEq, Repr

/-- The top bit of a canonical address (R278). -/
def tfdTop (t : Tfd) : Nat := 12 + 9 * t.levels - 1

/-- A virtual address is canonical (R278). -/
def canonical (t : Tfd) (va : Nat) : Bool :=
  if t.levels ≥ 6 then true
  else
    let high := va / 2 ^ (tfdTop t + 1)
    let ones := 2 ^ (63 - tfdTop t) - 1
    if t.canon = 1 then high == 0
    else if bitAt va (tfdTop t) then high == ones else high == 0

/-- A leaf entry found by a walk. -/
structure Leaf where
  frame : Nat
  lvl : Nat
  pte : Nat
  addr : Nat
deriving DecidableEq, Repr

/-- How a walk ends. -/
inductive WalkEnd where
  | leaf (l : Leaf)
  | absent
  | fault
deriving DecidableEq, Repr

/-- An entry is a leaf (R278, lmode). -/
def isLeaf (t : Tfd) (pte : Nat) : Bool :=
  if t.lmode = 0 then bitAt pte t.lpos else bitAt pte t.rpos || bitAt pte t.wpos || bitAt pte t.xpos

/-- One level after another, from level `fuel - 1` down; the second component is the table lines read (R280). -/
def walkFrom (s : State) (t : Tfd) (va : Nat) : Nat → Nat → List Nat → WalkEnd × List Nat
  | 0, _, ls => (.fault, ls)
  | l + 1, base, ls =>
    let a := base + 8 * (va / 2 ^ (12 + 9 * l) % 512)
    let ls := insNat ls (a / 64)
    if physPoison s a 8 then (.fault, ls)
    else
      let pte := memRead s.mem a 8
      if !bitAt pte t.vpos then (.absent, ls)
      else
        let f := pte / 2 ^ t.ppos % 2 ^ t.pwid
        if isLeaf t pte then
          if l > 3 ∨ f % 2 ^ (9 * l) ≠ 0 ∨ (bitAt pte t.wpos && !bitAt pte t.rpos) then (.fault, ls)
          else (.leaf ⟨f, l, pte, a⟩, ls)
        else if t.lmode = 0 ∧ (bitAt pte t.rpos || bitAt pte t.wpos || bitAt pte t.xpos) then (.fault, ls)
        else walkFrom s t va l (f * 4096) ls

/-- The walk of `va` in a context (R280). -/
def walk (s : State) (c : Ctx) (va : Nat) : WalkEnd × List Nat :=
  if canonical c.tfd va then walkFrom s c.tfd va c.tfd.levels c.root [] else (.fault, [])

/-! ## Permission (R281) -/

/-- The leaf permits the access. -/
def permits (t : Tfd) (pte : Nat) (n : Need) : Bool :=
  (!t.ureq || bitAt pte t.upos) &&
    match n with
    | .read | .probe => bitAt pte t.rpos
    | .write => bitAt pte t.wpos
    | .readWrite => bitAt pte t.rpos && bitAt pte t.wpos
    | .exec => bitAt pte t.xpos

/-- The access dirties the page (R282). -/
def dirties (n : Need) : Bool := n == .write || n == .readWrite

/-! ## Translation with the TLBs of a die (R282 to R284) -/

/-- The TLBs in which a hart looks, nearest first: its tile's and its cluster's; a mender and a unit look in the one of the die
(R283; log 11). -/
def looksIn (h : HartId) : List Holder :=
  match h with
  | .tile t _ => [.tile t, .cluster (clusterOf t)]
  | .mender _ _ => [.die]

/-- The translation of `va` that TLB `at_` of a die holds. -/
def tlbFind (d : Die) (h : Holder) (c va : Nat) : Option Tlb :=
  d.tlb.find? fun e => e.at_ == h && e.ctx == c && va / 2 ^ (12 + 9 * e.lvl) == e.vpn / 2 ^ (9 * e.lvl)

/-- Enters table lines into a die's directory; when it is full, every translation of the die is dropped first (R285). -/
def enterLines (d : Die) (ls : List Nat) : Die :=
  let new := ls.filter fun l => !d.dir.contains l
  if d.dir.length + new.length > 65536 then { d with tlb := [], wcache := [], dir := ls }
  else { d with dir := new.foldl insNat d.dir }

/-- Two entries compete for a place: they lie in one set of a tile's TLB, of 64 sets of 8 ways, or in one of the others, of 8,192
entries (R16, R283; log 11). -/
def sameSet (a b : Tlb) : Bool :=
  a.at_ == b.at_ &&
    match a.at_ with
    | .tile _ => a.vpn / 2 ^ (9 * a.lvl) % 64 == b.vpn / 2 ^ (9 * b.lvl) % 64
    | .cluster _ | .die => true

/-- The entries that can compete for one place. -/
def ways (h : Holder) : Nat :=
  match h with
  | .tile _ => 8
  | .cluster _ | .die => 8192

/-- The tag of an entry: the page that it translates (R283). -/
def sameTag (a b : Tlb) : Bool := a.at_ == b.at_ && a.ctx == b.ctx && a.lvl == b.lvl && a.vpn / 2 ^ (9 * a.lvl) == b.vpn / 2 ^ (9 * b.lvl)

/-- Puts an entry into its TLB; where no place is free, the entry that leaves is a free value (R283; log 9). -/
def tlbPut (s : State) (d : Fin 4) (e : Tlb) : State :=
  let x := s.dies.get d
  let l := x.tlb.filter fun o => !sameTag o e
  let rivals := l.filter (sameSet e)
  if rivals.length < ways e.at_ then { s with dies := s.dies.set d { x with tlb := e :: l } }
  else
    let gone := rivals[Config.freeWord s.free % rivals.length]?
    { s with free := s.free + 1, dies := s.dies.set d { x with tlb := e :: l.filter fun o => some o != gone } }

/-- The physical address of `va` under a leaf (R277). -/
def leafPa (frame lvl va : Nat) : Nat := frame * 4096 + va % 2 ^ (12 + 9 * lvl)

/-! ### Walkers (R283) -/

/-- The walker of a die that takes a miss (R283). -/
def walkerOf (va : Nat) : Nat := bits va 12 2

/-- The deepest table of `va` that the walk cache of its walker holds. -/
def walkCached (d : Die) (c va : Nat) : Option WalkEntry :=
  (d.wcache.filter fun e => e.walker == walkerOf va && e.ctx == c && va / 2 ^ (21 + 9 * e.lvl) == e.pre).foldl
    (fun o e => match o with
      | some b => if e.lvl < b.lvl then some e else some b
      | none => some e) none

/-- The tables below the first that a walk reads: level, base, and the lines read before. -/
def tablesBelow (s : State) (t : Tfd) (va : Nat) : Nat → Nat → List Nat → List (Nat × Nat × List Nat)
  | 0, _, _ => []
  | l + 1, base, ls =>
    let a := base + 8 * (va / 2 ^ (12 + 9 * l) % 512)
    let ls := insNat ls (a / 64)
    let pte := memRead s.mem a 8
    if physPoison s a 8 || !bitAt pte t.vpos || isLeaf t pte || l == 0 ||
        (t.lmode == 0 && (bitAt pte t.rpos || bitAt pte t.wpos || bitAt pte t.xpos)) then []
    else
      let base := pte / 2 ^ t.ppos % 2 ^ t.pwid * 4096
      (l - 1, base, ls) :: tablesBelow s t va l base ls

/-- Keeps a non-leaf entry in the walk cache of its walker, of 2,048 entries; the oldest beyond leaves (R16, R283; log 11). -/
def wcachePut (l : List WalkEntry) (e : WalkEntry) : List WalkEntry :=
  let l := l.filter fun o => !(o.walker == e.walker && o.ctx == e.ctx && o.lvl == e.lvl && o.pre == e.pre)
  let mine := l.filter (·.walker == e.walker)
  e :: if mine.length < 2048 then l else l.filter fun o => some o != mine.getLast?

/-- The non-leaf entries that a walk has read are kept in its walker's cache; a walk that meets a malformed or unreadable entry leaves
nothing there (R280, R283). -/
def walkKept (cid va : Nat) (below : List (Nat × Nat × List Nat)) (e : WalkEnd) (x : Die) : Die :=
  if e == .fault then x
  else { x with wcache := below.foldl (fun l t => wcachePut l ⟨walkerOf va, cid, t.1, va / 2 ^ (21 + 9 * t.1), t.2.1, t.2.2⟩) x.wcache }

/-- A walk of `va` by the walker of a die: it starts from the deepest entry of its walk cache, enters every line that it reads in the
directory, keeps the non-leaf entries, and wakes the slices that it reads. A line that does not arrive whole is a poisoned one (R280,
R283, R285, R297 to R299, R341). -/
def walkBy (s : State) (d : Fin 4) (cid : Nat) (c : Ctx) (va : Nat) : State × WalkEnd × List Nat :=
  if !canonical c.tfd va then (s, .fault, [])
  else
    let from_ : Nat × Nat × List Nat := match walkCached (s.dies.get d) cid va with
      | some e => (e.lvl + 1, e.base, e.lines)
      | none => (c.tfd.levels, c.root, [])
    let r := walkFrom s c.tfd va from_.1 from_.2.1 from_.2.2
    let below := tablesBelow s c.tfd va from_.1 from_.2.1 from_.2.2
    let new := r.2.filter fun l => !from_.2.2.contains l
    let s := new.foldl (fun s l => wakeSlice s (l * 64)) { s with dies := s.dies.set d (enterLines (s.dies.get d) r.2) }
    let (s, whole) := travelAll new.length s
    let e := if whole then r.1 else .fault
    ({ s with dies := s.dies.set d (walkKept cid va below e (s.dies.get d)) }, e, r.2)

/-- A page request for a page that is not outstanding: it is sent while fewer than 256 are, and queues behind them otherwise
(R284). -/
def askPage (x : Die) (p : PageReq) : Die :=
  if x.preq.contains p || x.preqMore.contains p then x
  else if x.preq.length < 256 then { x with preq := x.preq ++ [p] }
  else { x with preqMore := x.preqMore ++ [p] }

/-- A page of a die is *requested*, or its fault waits for a place among the requests (R284). -/
def pageAsked (x : Die) (p : PageReq) : Bool := x.preq.contains p || x.preqMore.contains p

/-- A translation is kept in each of the TLBs in which its agent looks. -/
def tlbFill (s : State) (d : Fin 4) (hs : List Holder) (e : Tlb) : State :=
  hs.foldl (fun s h => tlbPut s d { e with at_ := h }) s

/-- A walk for an access: it asks for an absent page, keeps the accessed and dirty bits, and fills the TLBs (R282, R284). -/
def walkAccess (s : State) (d : Fin 4) (hs : List Holder) (cid : Nat) (c : Ctx) (va : Nat) (n : Need) : State × XRes :=
  match walkBy s d cid c va with
  | (s, .fault, _) => (s, .access)
  | (s, .absent, _) => ({ s with dies := s.dies.set d (askPage (s.dies.get d) ⟨cid, va / 4096⟩) }, .absent (va / 4096))
  | (s, .leaf l, ls) =>
    if !permits c.tfd l.pte n then (s, .perm)
    else
      let bits := 2 ^ c.tfd.apos ||| (if dirties n then 2 ^ c.tfd.dpos else 0)
      let pte := l.pte ||| bits
      let s := if pte = l.pte then s else physWrite s l.addr 8 pte
      let s := { s with dies := s.dies.set d (enterLines (s.dies.get d) ls) }
      (tlbFill s d hs ⟨.die, cid, va / 4096, l.lvl, l.frame, pte, ls⟩, .ok (leafPa l.frame l.lvl va))

/-- A walk that is for no access: TLBPROBE's, or a prefetch of the copy channel. It sets no bit and sends no request, and fills the
TLBs with a leaf whose accessed bit is set (R282, R288). -/
def walkQuiet (s : State) (d : Fin 4) (hs : List Holder) (cid : Nat) (c : Ctx) (va : Nat) : State × WalkEnd :=
  match walkBy s d cid c va with
  | (s, .leaf l, ls) =>
    (if bitAt l.pte c.tfd.apos then tlbFill s d hs ⟨.die, cid, va / 4096, l.lvl, l.frame, l.pte, ls⟩ else s, .leaf l)
  | (s, e, _) => (s, e)

/-- The translation of `va` that the nearest of some TLBs holds, and whether it is the first of them. -/
def tlbLook (d : Die) (c va : Nat) : List Holder → Option Tlb
  | [] => none
  | h :: r => match tlbFind d h c va with
    | some e => some e
    | none => tlbLook d c va r

/-- The translation of `va` for an access in context `cid` from die `d`, by an agent that looks in the TLBs `hs`; `ref` is the page
whose refusal the agent has still to meet (R284). A context that does not exist translates nothing. -/
def xlate (s : State) (d : Fin 4) (hs : List Holder) (cid : Nat) (va : Nat) (n : Need) (ref : Option Nat) : State × XRes :=
  match alGet s.ctxs cid with
  | none => (s, .access)
  | some c =>
    if !canonical c.tfd va then (s, .access)
    else if ref = some (va / 4096) then (s, .refused)
    else
      match tlbLook (s.dies.get d) cid va hs with
      | some e =>
        if !permits c.tfd e.pte n then (s, .perm)
        else if dirties n && !bitAt e.pte c.tfd.dpos then walkAccess s d hs cid c va n
        else (if hs.head? = some e.at_ then s else tlbFill s d (hs.take 1) e, .ok (leafPa e.frame e.lvl va))
      | none => walkAccess s d hs cid c va n

/-- The table lines from which the translation of `va` that hart `h` uses was made (R125, R285). -/
def tableLines (s : State) (h : HartId) (va : Nat) : List Nat :=
  match tlbLook (s.dies.get (hartDie h)) (hartCtx s h) va (looksIn h) with
  | some e => e.lines
  | none => []

/-- The translation of `va` for hart `h`. -/
def xlateHart (s : State) (h : HartId) (va : Nat) (n : Need) : State × XRes :=
  xlate s (hartDie h) (looksIn h) (hartCtx s h) va n (getHart s h).refused

/-- An access of the executing instruction at `va`: it goes on with the physical address, waits on a page request, or traps
with the cause of the space whose access cause is `base + 1` (R88, R280). -/
def withPa (base : Nat) (va : Word) (n : Need) (s : State) (k : Nat → State → Out) : Out :=
  match xlateHart s s.cur va.toNat n with
  | (s, .ok pa) => k pa s
  | (s, .absent vpn) => park (.page (hartCtx s s.cur) vpn) s
  | (s, .refused) => trap (base + 2) va s
  | (s, .access) => trap (base + 1) va s
  | (s, .perm) => trap (base + 3) va s

/-- The checks of R88 for a G access of `n` bytes at `va`: aligned, canonical, present, permitted. -/
def gAccess (n : Nat) (need : Need) (va : Word) (s : State) (k : Nat → State → Out) : Out :=
  if va.toNat % n ≠ 0 then trap 0x18 va s else withPa 0x18 va need s k

end Sys2Proof.Machine
end

