-- ==== Sys2Proof/Machine/Home.lean ====
section
/-! DEFINITION. The homes of words: a tile's stores with their poison (R86, R94), full/empty bits (R96), and the service of
waiting full/empty requests (R97, R98). -/

namespace Sys2Proof.Machine

/-! ## A tile's stores -/

/-- The stores of a tile that ordinary instructions reach (R86). -/
inductive Store where
  | l | w | a | c
deriving DecidableEq, Repr

/-- The space number of a store (R89). -/
def Store.space (x : Store) : Nat :=
  match x with
  | .l => 0
  | .w => 4
  | .a => 5
  | .c => 6

/-- The size of a store in bytes (R14). -/
def Store.size (x : Store) : Nat :=
  match x with
  | .l => 0x2_0000
  | .w => 0x3_0000
  | .a => 0x3_0000
  | .c => 0x1_0000

/-- The bytes of a store. -/
def storeMem (t : Tile) (x : Store) : Mem :=
  match x with
  | .l => t.l
  | .w => t.w
  | .a => t.a
  | .c => t.c

/-- Replaces the bytes of a store. -/
def setStoreMem (t : Tile) (x : Store) (m : Mem) : Tile :=
  match x with
  | .l => { t with l := m }
  | .w => { t with w := m }
  | .a => { t with a := m }
  | .c => { t with c := m }

/-- A 32-byte granule of a store is poisoned (R94). -/
def granBad (t : Tile) (x : Store) (g : Nat) : Bool := t.poison.contains (x.space, g)

/-- Some byte of `n` at `a` lies in a poisoned granule. -/
def storePoison (t : Tile) (x : Store) (a n : Nat) : Bool :=
  t.poison.any fun p => p.1 == x.space && decide (a / 32 ≤ p.2 ∧ p.2 ≤ (a + n - 1) / 32)

/-- Reads `n` bytes at `a` of a store; bytes of a poisoned granule read as zero (R94). An access spans at most two
granules. -/
def storeRead (t : Tile) (x : Store) (a n : Nat) : Nat :=
  if !storePoison t x a n then memRead (storeMem t x) a n
  else
    let n0 := min n (32 - a % 32)
    (if granBad t x (a / 32) then 0 else memRead (storeMem t x) a n0) +
      (if n0 < n ∧ !granBad t x (a / 32 + 1) then memRead (storeMem t x) (a + n0) (n - n0) * 256 ^ n0 else 0)

/-- `n` bytes at `a` cover granule `g` whole. -/
def granWhole (a n g : Nat) : Bool := decide (a ≤ g * 32 ∧ g * 32 + 32 ≤ a + n)

/-- Writes `n` bytes at `a` of a store; a granule written whole loses its poison and its error (R94, R296). -/
def storeWrite (t : Tile) (x : Store) (a n v : Nat) : Tile :=
  let t := setStoreMem t x (memWrite (storeMem t x) a n v)
  if t.poison = [] ∧ t.flaws = [] then t
  else { t with poison := t.poison.filter fun p => !(p.1 == x.space && granWhole a n p.2),
                flaws := t.flaws.filter fun p => !(p.1 == x.space && granWhole a n p.2.1) }

/-- Marks the granules that hold `n` bytes at `a` poisoned. -/
def storeTaint (t : Tile) (x : Store) (a n : Nat) : Tile :=
  (List.range ((a + n - 1) / 32 + 1 - a / 32)).foldl
    (fun t i => if granBad t x (a / 32 + i) then t
      else { t with poison := t.poison ++ [(x.space, a / 32 + i)] }) t

/-- An error of a store that an access to `n` bytes at `a` meets. -/
def flawHit (x : Store) (a n : Nat) (f : Nat × Nat × Bool) : Bool :=
  f.1 == x.space && decide (a / 32 ≤ f.2.1 ∧ f.2.1 ≤ (a + n - 1) / 32)

/-- An access to `n` bytes at `a` of a store of tile `t` finds the errors of their granules: a correctable one is corrected in place,
an uncorrectable one poisons its granule; each is counted (R296, R300). -/
def meetFlaws (s : State) (t : Nat) (x : Store) (a n : Nat) : State :=
  let y := getTile s t
  if y.flaws = [] then s
  else
    let l := y.flaws.filter (flawHit x a n)
    let y := { y with flaws := y.flaws.filter fun f => !flawHit x a n f }
    let y := l.foldl (fun y f => if f.2.2 then storeTaint y x (f.2.1 * 32) 32 else y) y
    l.foldl (fun s f => countCell s (dieOf t) f.2.2) (setTile s t y)

/-- The `g` indices that lie in one granule with index `i`. -/
def granuleOf (g i : Nat) : List Nat := (List.range g).map (i / g * g + ·)

/-- The errors of a list that hits, as the indices below `n` that become poisoned, and the rest: one found in `hit` is corrected, or
poisons its granule of `g` indices (R296). -/
def flawsMet (n g : Nat) (l : List (Nat × Bool)) (hit : Nat → Bool) : List Nat × List (Nat × Bool) :=
  (((l.filter fun f => hit f.1 && f.2).flatMap fun f => granuleOf g f.1).eraseDups.filter (decide <| · < n), l.filter fun f => !hit f.1)

/-- The counts that meeting errors makes on die `d` (R300). -/
def countFlaws (s : State) (d : Fin 4) (l : List (Nat × Bool)) (hit : Nat → Bool) : State :=
  (l.filter fun f => hit f.1).foldl (fun s f => countCell s d f.2) s

/-! ## Full/empty bits (R96) -/

/-- The `n` words from word `i` of a tile's L-store are all full, or all empty. -/
def lAllFull (t : Tile) (i n : Nat) : Bool := (List.range n).all fun k => !t.lEmpty.contains (i + k)
def lAllEmpty (t : Tile) (i n : Nat) : Bool := (List.range n).all fun k => t.lEmpty.contains (i + k)

/-- Sets `n` words from word `i` full, or empty. -/
def lFill (t : Tile) (i n : Nat) : Tile :=
  { t with lEmpty := t.lEmpty.filter fun k => !decide (i ≤ k ∧ k < i + n) }
def lDrain (t : Tile) (i n : Nat) : Tile := { t with lEmpty := insRange t.lEmpty i n }

/-- A doubleword of device memory is full. -/
def gFull (s : State) (pa : Nat) : Bool := !s.gEmpty.contains (pa / 8)

/-- Sets a doubleword of device memory full, or empty. -/
def gFill (s : State) (pa : Nat) : State := { s with gEmpty := delNat s.gEmpty (pa / 8) }
def gDrain (s : State) (pa : Nat) : State := { s with gEmpty := insNat s.gEmpty (pa / 8) }

/-! ## Requests at a home (R97, R98) -/

/-- The value of a load of `n` bytes: the word forms are sign-extended. -/
def feValue (n v : Nat) : Word := if n = 4 then i64 (sextNat 32 v) else w64 v

/-- The condition under which a request at a tile's home is served (R97). -/
def tileCan (t : Tile) (r : FeReq) : Bool :=
  match r.op with
  | .consume | .peek => lAllFull t (r.addr / 4) (r.size / 4)
  | .fill => lAllEmpty t (r.addr / 4) (r.size / 4)

/-- The effect at the tile's home of a request that is served (R97). -/
def tileEffect (t : Tile) (r : FeReq) : Tile :=
  match r.op with
  | .consume => lDrain t (r.addr / 4) (r.size / 4)
  | .peek => t
  | .fill => lFill (storeWrite t .l r.addr r.size r.val.toNat) (r.addr / 4) (r.size / 4)

/-- What the issuer of a request receives when it is served: the value of .c and .p, with the acquire (R97). -/
def feDeliver (s : State) (r : FeReq) (v : Nat) : State :=
  match r.op with
  | .consume | .peek => acquire (modHart s r.hart fun x => wg x r.d (feValue r.size v)) r.hart
  | .fill => s

/-- The space number of an atomic or a full/empty access (R89). -/
def spaceNo (sp : AmoSpace) : Nat :=
  match sp with
  | .l => 0
  | .m => 1
  | .g => 2

/-- A request is served at tile `t`: the value and the state change together (R98); poison reads as zero and is reported
(R94). What a fill brings in poisoned is stored as a poisoned granule (R298). -/
def tileServe (s : State) (t : Nat) (r : FeReq) : State :=
  let s := if r.op == .fill then s else meetFlaws s t .l r.addr r.size
  let x := getTile s t
  let v := if r.bad then 0 else storeRead x .l r.addr r.size
  let s := if r.bad || (r.op != .fill && storePoison x .l r.addr r.size) then poisonReport s r.hart (spaceNo r.sp) r.ea else s
  let s := feDeliver (modTile s t fun x => tileEffect x r) r v
  let s := if r.bad && r.op == .fill then modTile s t fun x => storeTaint x .l r.addr r.size else s
  complete (commitNotes s r.notes) r.hart r.next

/-- The home of tile `t` serves its waiting requests in list order until none can proceed (R98). -/
def serveTile (s : State) (t : Nat) : Nat → State
  | 0 => s
  | n + 1 =>
    match (getTile s t).fe.find? (tileCan (getTile s t)) with
    | none => s
    | some r =>
      serveTile (tileServe (modTile s t fun x => { x with fe := x.fe.filter fun q => q.hart != r.hart }) t r) t n

/-- Serves every request that can proceed at a tile. -/
def serveTileAll (s : State) (t : Nat) : State := serveTile s t (getTile s t).fe.length

/-- The condition under which a request at a slice is served (R97). -/
def sliceCan (s : State) (r : FeReq) : Bool :=
  match r.op with
  | .consume | .peek => gFull s r.addr
  | .fill => !gFull s r.addr

/-- The effect at the slice of a request that is served (R97). -/
def sliceEffect (s : State) (r : FeReq) : State :=
  match r.op with
  | .consume => gDrain s r.addr
  | .peek => s
  | .fill => gFill (physWrite s r.addr 8 r.val.toNat) r.addr

/-- A full/empty access in G drops the issuing tile's copy of its line (R91). -/
def dropCached (s : State) (h : HartId) (pa : Nat) : State :=
  match h with
  | .tile t _ => modTile s t fun x => { x with gcache := x.gcache.filter (·.1 != pa / 64) }
  | .mender _ _ => s

/-- The line of a write that arrived poisoned (R298). -/
def taintLine (s : State) (pa : Nat) : State := { s with gPoison := insNat s.gPoison (pa / 64) }

/-- A request is served at its slice. -/
def sliceServe (s : State) (r : FeReq) : State :=
  let s := wakeSlice s r.addr
  let v := if r.bad then 0 else physRead s r.addr 8
  let s := if r.bad || (r.op != .fill && physPoison s r.addr 8) then poisonReport s r.hart 2 r.ea else s
  let s := feDeliver (dropCached (sliceEffect s r) r.hart r.addr) r v
  let s := if r.bad && r.op == .fill then taintLine s r.addr else s
  complete (commitNotes s r.notes) r.hart r.next

/-- The slices serve their waiting requests in list order until none can proceed (R98). -/
def serveSlices (s : State) : Nat → State
  | 0 => s
  | n + 1 =>
    match s.gfe.find? (sliceCan s) with
    | none => s
    | some r => serveSlices (sliceServe { s with gfe := s.gfe.filter fun q => q.hart != r.hart } r) n

/-- Serves every request that can proceed at the slices. -/
def serveSlicesAll (s : State) : State := serveSlices s s.gfe.length

/-! ## The read caches of a tile (log 8) -/

/-- Looks a physical line up in a cache; a miss reads the line and puts it in front, and the oldest beyond `cap` lines
leaves. -/
def cacheLine (s : State) (c : List (Nat × BitVec 512)) (cap line : Nat) : List (Nat × BitVec 512) × BitVec 512 :=
  match alGet c line with
  | some v => (c, v)
  | none => let v := BitVec.ofNat 512 (memRead s.mem (line * 64) 64); (((line, v) :: c).take cap, v)

/-- The bytes `n` at `pa` of the line that holds them. -/
def lineBytes (v : BitVec 512) (pa n : Nat) : Nat := v.toNat / 256 ^ (pa % 64) % 256 ^ n

/-- An access to `n` bytes at `pa` that a cache of tile `t` holds meets the errors of their granules, as in a store (R296); `sp` is 2 for
the G read cache and 7 for the instruction cache. -/
def meetCached (s : State) (t sp pa n : Nat) : State :=
  let y := getTile s t
  if y.flaws = [] then s
  else
    let hit (f : Nat × Nat × Bool) : Bool := f.1 == sp && decide (pa / 32 ≤ f.2.1 ∧ f.2.1 ≤ (pa + n - 1) / 32)
    let l := y.flaws.filter hit
    let bad := (l.filter (·.2.2)).map fun f => (sp, f.2.1)
    l.foldl (fun s f => countCell s (dieOf t) f.2.2)
      (setTile s t { y with flaws := y.flaws.filter (fun f => !hit f), poison := y.poison ++ bad.filter fun g => !y.poison.contains g })

/-- A granule of what a cache of a tile holds is poisoned (R296). -/
def cachedBad (t : Tile) (sp pa n : Nat) : Bool :=
  t.poison.any fun p => p.1 == sp && decide (pa / 32 ≤ p.2 ∧ p.2 ≤ (pa + n - 1) / 32)

/-- A line that a cache takes in has neither poison nor an error there. -/
def freshLine (t : Tile) (sp line : Nat) : Tile :=
  if t.poison = [] ∧ t.flaws = [] then t
  else { t with poison := t.poison.filter fun p => !(p.1 == sp && p.2 / 2 == line), flaws := t.flaws.filter fun f => !(f.1 == sp && f.2.1 / 2 == line) }

/-- A line of device or host memory comes to an agent of the device: its bytes `n` at `pa`, and whether they are poisoned; what does not
arrive whole is (R94, R298, R299, R341). -/
def lineRead (s : State) (pa n : Nat) : State × Nat × Bool :=
  let (s, w) := travel (wakeSlice s pa)
  let bad := w != .whole || physPoison s pa n
  (s, if bad then 0 else memRead s.mem pa n, bad)

/-- Reads physical chunks, each within one line and in a packet of its own, as one value, and whether any is poisoned. -/
def readLines (s : State) : List (Nat × Nat) → State × Nat × Bool
  | [] => (s, 0, false)
  | (pa, n) :: r =>
    let (s, v, b) := lineRead s pa n
    let (s, w, c) := readLines s r
    (s, v + 256 ^ n * w, b || c)

/-- An instruction of hart `h` at `pc` writes `n` bytes at `pa`, of virtual address `va`, within one line, as the packet arrives: one that
fails a check leaves its line poisoned, one that is lost leaves it as it was, and either is reported (R298, R299). -/
def lineWrite (h : HartId) (pc : Word) (s : State) (pa va n v : Nat) : State :=
  match travel s with
  | (s, .whole) => physWrite s pa n v
  | (s, .bad) => poisonReportAt (taintLine (physWrite s pa n v) pa) h pc 2 (w64 va)
  | (s, .lost) => poisonReportAt s h pc 2 (w64 va)

/-- Reads `n` bytes of code at `pa`, within one line, through the instruction cache of the hart's tile: the bytes, and whether they are
poisoned (R73, R77, R94). A hit sends nothing to the slice (R341). -/
def codeRead (s : State) (h : HartId) (pa n : Nat) : State × Nat × Bool :=
  match h with
  | .tile t _ =>
    match alGet (getTile s t).icache (pa / 64) with
    | some v =>
      let s := meetCached s t 7 pa n
      let bad := cachedBad (getTile s t) 7 pa n
      (s, if bad then 0 else lineBytes v pa n, bad)
    | none =>
      let (s, v, bad) := lineRead s pa n
      if bad then (s, 0, true)
      else (modTile s t fun x => freshLine { x with icache := (cacheLine s x.icache 512 (pa / 64)).1 } 7 (pa / 64), v, false)
  | .mender _ _ => lineRead s pa n

/-- The line of `pa` is in the G read cache of the hart's tile. -/
def lineCached (s : State) (h : HartId) (pa : Nat) : Bool :=
  match h with
  | .tile t _ => (alGet (getTile s t).gcache (pa / 64)).isSome
  | .mender _ _ => false

/-- Reads `n` bytes at `pa`, within one line, from the line that the G read cache of tile `t` holds: what it gives, and whether that is
poisoned (R91, R296). -/
def cacheHit (s : State) (t pa n : Nat) : State × Nat × Bool :=
  let s := meetCached s t 2 pa n
  let bad := cachedBad (getTile s t) 2 pa n
  (s, if bad then 0 else match alGet (getTile s t).gcache (pa / 64) with
    | some v => lineBytes v pa n
    | none => 0, bad)

/-- Reads `n` bytes at `pa`, within one line, at the slice, and keeps the line in the G read cache of the hart's tile, unless it is
poisoned (R91, R94); a mender has no cache (R303). -/
def sliceRead (s : State) (h : HartId) (pa n : Nat) : State × Nat × Bool :=
  let s := wakeSlice s pa
  let bad := physPoison s pa n
  let v := physRead s pa n
  match h with
  | .tile t _ =>
    if bad then (s, v, bad)
    else (modTile s t fun x => freshLine { x with gcache := (cacheLine s x.gcache 128 (pa / 64)).1 } 2 (pa / 64), v, bad)
  | .mender _ _ => (s, v, bad)

/-- A thread's store to G updates the line of its tile's G read cache if it is there (R91). -/
def cacheStore (s : State) (h : HartId) (pa n v : Nat) : State :=
  match h with
  | .tile t _ => modTile s t fun x => { x with
      poison := if x.poison = [] then [] else x.poison.filter fun g => !(g.1 == 2 && granWhole pa n g.2)
      flaws := if x.flaws = [] then [] else x.flaws.filter fun g => !(g.1 == 2 && granWhole pa n g.2.1)
      gcache := x.gcache.map fun c =>
      if c.1 = pa / 64 then
        let lo := 256 ^ (pa % 64)
        (c.1, BitVec.ofNat 512 (c.2.toNat % lo + v % 256 ^ n * lo + c.2.toNat / (lo * 256 ^ n) * (lo * 256 ^ n)))
      else c }
  | .mender _ _ => s

/-- A hardware fill of a device doubleword: the value is written, and the word is *full* (R259, R262, R272). -/
def hwFill (s : State) (pa v : Nat) : State :=
  let s := physWrite s pa 8 v
  if isDevice pa then serveSlicesAll (gFill s pa) else s

end Sys2Proof.Machine
end

