-- ==== Sys2Proof/Machine/Operands.lean ====
section
/-! DEFINITION. Operand forms: widths and effective addresses of the M format (R36, R37, R88), mesh addresses (R12, R88),
immediates and branch targets (R36, R44), and the register groups that instructions name. -/

namespace Sys2Proof.Machine

/-- The access size in bytes (R37). -/
def widthSize (w : Width) : Nat :=
  match w with
  | .byte | .nbyte => 1
  | .half | .nhalf => 2
  | .word | .nword => 4
  | .dword => 8
  | .vec => 64

/-- The size of a full/empty access (R37). -/
def feSize (z : FeSize) : Nat :=
  match z with
  | .word => 4
  | .dword => 8

/-- What a load of width `w` delivers of the bytes `v`: the signed forms are sign-extended (R93). -/
def loadValue (w : Width) (v : Nat) : Nat :=
  match w with
  | .byte => (i64 (sextNat 8 v)).toNat
  | .half => (i64 (sextNat 16 v)).toNat
  | .word => (i64 (sextNat 32 v)).toNat
  | .dword | .nbyte | .nhalf | .nword | .vec => v

/-- The register that an M-format access moves: v[d[3:0]] for .v (R37). -/
def dataReg (w : Width) (d : GReg) : RegId :=
  match w with
  | .vec => ⟨.v, d.val % 16⟩
  | .byte | .half | .word | .dword | .nbyte | .nhalf | .nword => gId d

/-- The value of a store's data register. -/
def dataVal (h : Hart) (w : Width) (d : GReg) : Nat :=
  match w with
  | .vec => (rv h (Fin.ofNat 16 d.val)).toNat
  | .byte | .half | .word | .dword | .nbyte | .nhalf | .nword => (rg h d).toNat

/-- ea := g[a] + SExt(imm8) × size, wrapping (R88). -/
def effAddr (h : Hart) (a : GReg) (imm : Imm8) (size : Nat) : Word :=
  rg h a + imm.signExtend 64 * w64 size

/-- I := SExt(imm15) (R71). -/
def immI (imm : Imm15) : Word := imm.signExtend 64

/-- The target of a branch at `pc` (R75). -/
def brTarget (pc : Word) (off : Off12) : Word := pc + off.signExtend 64 * 2

/-- The target of JAL (R76). -/
def jalTarget (pc : Word) (off : Off20) : Word := pc + off.signExtend 64 * 2

/-- x, y and offset of a mesh address (R12). -/
def meshX (ea : Word) : Nat := bits ea.toNat 17 8
def meshY (ea : Word) : Nat := bits ea.toNat 25 8
def meshOff (ea : Word) : Nat := bits ea.toNat 0 17

/-- The partition that holds a tile. -/
def partOf (s : State) (t : Nat) : Option (Fin 32) :=
  (List.finRange 32).find? fun p =>
    let x := s.parts.get p
    x.valid && decide (x.cx * 4 ≤ tileX t ∧ tileX t < (x.cx + x.cw) * 4 ∧ x.cy * 4 ≤ tileY t ∧ tileY t < (x.cy + x.ch) * 4)

/-- A gang switch has stopped a partition (R269). -/
def partStopped (p : Part) : Bool :=
  match p.sw with
  | some w => decide (1 ≤ w.phase)
  | none => false

/-- A gang switch has stopped the partition of a tile (R269). -/
def stopped (s : State) (t : Nat) : Bool :=
  match partOf s t with
  | some p => partStopped (s.parts.get p)
  | none => false

/-- The tile's group is *running* and its partition is not stopped (R244, R269). -/
def tileRuns (s : State) (t : Nat) : Bool :=
  match (getTile s t).grp with
  | some g => s.groups.any (fun x => x.id == g && x.st == .running) && !stopped s t
  | none => false

/-- Cycles in `n` µs (R2). -/
def usCycles (n : Nat) : Nat := 2400 * n

/-- A tile lies in a partition of context `c` (R88, R266). -/
def inCtxParts (s : State) (c t : Nat) : Bool :=
  match partOf s t, alGet s.ctxs c with
  | some p, some x => bitAt x.pmask p.val
  | _, _ => false

/-- The partition of tile `t` is switched out for context `c`: the context has entered it and is not resident, or a gang switch has
stopped it (R101, R269). -/
def switchedOut (s : State) (c t : Nat) : Bool :=
  match partOf s t, alGet s.ctxs c with
  | some p, some x =>
    ((s.parts.get p).resident != some c || partStopped (s.parts.get p)) &&
      (alGet x.res p.val).any (fun r => r != .fresh && r != .destroyed)
  | _, _ => false

/-- The group that occupies a tile, if it is of context `c`. -/
def groupAt (s : State) (c t : Nat) : Option Group :=
  match (getTile s t).grp with
  | some g => s.groups.find? fun x => x.id == g && x.ctx == c
  | none => none

/-- Hart `h` may be held by no rule but its own: its tile's group runs (R269). -/
def hartHere (s : State) (h : HartId) : Bool :=
  match h with
  | .tile t _ => tileRuns s t
  | .mender _ _ => true

/-- The harts of the tiles that are listed. -/
def allHartIds (s : State) : List HartId := s.tiles.flatMap fun t => (List.finRange 10).map fun i => .tile t.1 i

/-- Hart `h` is parked on an access to tile `t`, held before place `n` (R128). -/
def heldBefore (s : State) (t n : Nat) (h : HartId) : Bool :=
  match waitOf (getHart s h) with
  | some (.held u _ _ _ m) => u == t && decide (m < n) && hartHere s h
  | _ => false

/-- Hart `h` has a withdrawn full/empty request to issue again before place `n` (R128). -/
def againBefore (s : State) (n : Nat) (h : HartId) : Bool :=
  match waitOf (getHart s h) with
  | some (.wordAgain _ _ m) => decide (m < n) && hartHere s h
  | _ => false

/-- The executing hart's access to tile `t` is held; it keeps the place that it has among the held accesses (R101, R128). -/
def parkHeld (t : Nat) (fe : Bool) (sp : AmoSpace) (ea : Nat) (s : State) : Out :=
  match waitOf (me s) with
  | some (.held u _ _ _ n) =>
    if u = t then park (.held t fe sp ea n) s else park (.held t fe sp ea (s.ids + 1)) (freshId s).1
  | _ => park (.held t fe sp ea (s.ids + 1)) (freshId s).1

/-- An access reaches the L-store of tile `t`, which sleeps at depth 2: it wakes the tile (R64). -/
def rouse (s : State) (t : Nat) : State :=
  let x := getTile s t
  if x.asleep && x.sleepDepth == 2 then setTile s t { x with asleep := false, wakeAt := s.cycle + 960 } else s

/-- A tile whose L-store an access from outside has woken is not awake yet (R64). -/
def lSleeps (s : State) (t : Nat) : Bool :=
  let x := getTile s t
  x.sleepDepth == 2 && (x.asleep || decide (s.cycle < x.wakeAt))

/-- The state of a mesh target for an access of context `c` (R88, R101). -/
inductive Target where
  | ok (t off : Nat)
  | bad
  | held (t : Nat)
  | loading (t : Nat)
deriving DecidableEq, Repr

/-- The target tile `t` of an access or message of context `c`: outside, switched out, without a group, loading (R88). -/
def tileTarget (s : State) (c t off : Nat) : Target :=
  if !inCtxParts s c t then .bad
  else if switchedOut s c t then .held t
  else
    match groupAt s c t with
    | none => .bad
    | some g => if g.st == .running then .ok t off else .loading t

/-- The target of a mesh address (R12, R88). -/
def meshTarget (s : State) (c : Nat) (ea : Word) : Target :=
  if ea.toNat / 2 ^ 33 ≠ 0 ∨ meshX ea > 71 ∨ meshY ea > 63 then .bad
  else tileTarget s c (tileAt (meshX ea) (meshY ea)) (meshOff ea)

/-- An M access of `n` bytes at `ea` (R88): aligned, inside, accepted by its target; `fe` says that a held access keeps its
wait limit (R101). -/
def mAccess (n : Nat) (fe : Bool) (ea : Word) (s : State) (k : Nat → Nat → State → Out) : Out :=
  if ea.toNat % n ≠ 0 then trap 0x14 ea s
  else
    match meshTarget s (hartCtx s s.cur) ea with
    | .bad => trap 0x15 ea s
    | .held t => parkHeld t fe .m ea.toNat s
    | .loading t => park (.loading t) s
    | .ok t off => k t off s

/-- What is in flight on the mesh from tile `t` to tile `u`: accesses, posts and SPAWNs, each with the cycle at which it was sent and
whether it is in the escape channel (R334). What a tile sends to itself stays off the mesh (R12). -/
def pairFlights (s : State) (t u : Nat) : List (Nat × Bool) :=
  if t = u then []
  else
    (List.finRange 10).flatMap (fun i => ((getTile s t).harts.get i).out.filterMap fun o =>
      ((opAccess o).filter fun a => a.tile == some u).map fun a => (a.sent, a.escape)) ++
    (s.msgs.filter fun m => tileOf? m.hart == some t && m.target == u).map fun m => (m.since, m.escape)

/-- What was sent from tile `t` to tile `u` at cycle `n` is the next of its pair to be delivered (R334). -/
def pairNext (s : State) (t u n : Nat) : Bool := (pairFlights s t u).all fun m => decide (n ≤ m.1)

/-- A message of the pair that was sent before cycle `n` is in the escape channel (R334). -/
def pairEscaped (s : State) (t u n : Nat) : Bool := (pairFlights s t u).any fun m => m.2 && decide (m.1 < n)

/-- A message that its target takes as it is sent comes after those of its pair that were sent before, which it awaits in its slot or
*parked* (R54, R334). -/
def pairOrder (holds : Bool) (u : Nat) (s : State) (k : State → Out) : Out :=
  if pairFlights s (myTile s) u = [] then k s else if holds then hold (.pair u) s else park (.pair u) s

/-- An access that its home serves as it arrives waits for the wake of a tile that sleeps at depth 2 (R64). -/
def awake (t : Nat) (s : State) (k : State → Out) : Out :=
  if t ≠ myTile s ∧ lSleeps s t then park (.waking t) (rouse s t) else k s

/-- An access of `n` bytes at `ea` to a store of the hart's own tile (R88). -/
def storeAccess (x : Store) (n : Nat) (ea : Word) (s : State) (k : State → Out) : Out :=
  if ea.toNat % n ≠ 0 then trap (0x10 + 4 * x.space) ea s
  else if ea.toNat ≥ x.size then trap (0x10 + 4 * x.space + 1) ea s
  else k s

end Sys2Proof.Machine
end

