-- ==== Sys2Proof/Machine/Alu.lean ====
section
/-! DEFINITION. The integer instructions (R69 to R74) and their compact forms (R44). -/

namespace Sys2Proof.Machine

/-! ## The functions of R69 and R70 -/

/-- 1 for true, 0 for false. -/
def flagWord (b : Bool) : Word := if b then 1 else 0

/-- SExt of the low word. -/
def sextW (x : Word) : Word := i64 (sextNat 32 x.toNat)

/-- B[5:0]. -/
def amount (b : Word) : Nat := b.toNat % 64

/-- The high half of a product of integers. -/
def mulHigh (x y : Int) : Word := i64 (x * y / 2 ^ 64)

/-- DIV (R70). -/
def divS (a b : Word) : Word :=
  if b = 0 then w64 (2 ^ 64 - 1) else i64 (Int.tdiv a.toInt b.toInt)

/-- REM (R70). -/
def remS (a b : Word) : Word := if b = 0 then a else i64 (Int.tmod a.toInt b.toInt)

/-- DIVN (R70). -/
def divN (a b : Word) : Word := if b = 0 then w64 (2 ^ 64 - 1) else w64 (a.toNat / b.toNat)

/-- REMN (R70). -/
def remN (a b : Word) : Word := if b = 0 then a else w64 (a.toNat % b.toNat)

/-- The number of one bits among the `n` low bits. -/
def popCount : Nat → Nat → Nat
  | 0, _ => 0
  | n + 1, x => x % 2 + popCount n (x / 2)

/-- The number of zero bits below the lowest one bit of the `n` low bits. -/
def trailZeros : Nat → Nat → Nat
  | 0, _ => 0
  | n + 1, x => if x % 2 = 1 then 0 else 1 + trailZeros n (x / 2)

/-- The number of zero bits above the highest one bit of the `n` low bits. -/
def leadZeros : Nat → Nat → Nat
  | 0, _ => 0
  | n + 1, x => if x / 2 ^ n % 2 = 1 then 0 else 1 + leadZeros n x

/-- Rotation left and right by `n` (R69). -/
def rotL (a : Word) (n : Nat) : Word := a <<< n ||| a >>> (64 - n)
def rotR (a : Word) (n : Nat) : Word := a >>> n ||| a <<< (64 - n)

/-- pos and len of BFX and BFI, the length cut at bit 63 (R69). -/
def bfPos (b : Word) : Nat := b.toNat % 64
def bfLen (b : Word) : Nat := min (b.toNat / 256 % 64) (64 - bfPos b)

/-- BFX (R69). -/
def bfExtract (a b : Word) : Word := w64 (a.toNat / 2 ^ bfPos b % 2 ^ bfLen b)

/-- BFI (R69). -/
def bfInsert (a b d : Word) : Word :=
  let lo := 2 ^ bfPos b
  let n := 2 ^ bfLen b
  w64 (d.toNat % lo + a.toNat % n * lo + d.toNat / (lo * n) * (lo * n))

/-! ## The shapes of the integer instructions -/

/-- g[d] := f(A, B); short. -/
def alu2 (f : Word → Word → Word) (len : Nat) (d a b : GReg) (s : State) : Out :=
  inSet threadOrMender s fun s => sources [gId a, gId b] s fun s => dests [gId d] s fun s =>
    done len (modMe s fun h => wg h d (f (rg h a) (rg h b)))

/-- g[d] := f(A, B, D); short, d is read. -/
def alu3 (f : Word → Word → Word → Word) (d a b : GReg) (s : State) : Out :=
  inSet threadOrMender s fun s => sources [gId a, gId b, gId d] s fun s => dests [gId d] s fun s =>
    done 4 (modMe s fun h => wg h d (f (rg h a) (rg h b) (rg h d)))

/-- g[d] := f(A); short. -/
def alu1 (ok : HartKind → Bool) (f : Word → Word) (len : Nat) (d a : GReg) (s : State) : Out :=
  inSet ok s fun s => sources [gId a] s fun s => dests [gId d] s fun s =>
    done len (modMe s fun h => wg h d (f (rg h a)))

/-- g[d] := f(A, B); long, with the latency of R62. -/
def aluLong (f : Word → Word → Word) (lat : Nat) (la : La) (d a b : GReg) (s : State) : Out :=
  inSet threadOrMender s fun s => sources [gId a, gId b] s fun s => roomForLong s fun s => dests [gId d] s fun s =>
    issueLong 4 la.val lat (longOp [⟨gId d, (f (rg (me s) a) (rg (me s) b)).toNat⟩]) s

/-! ## ALU, major 0x01 (R69) -/

/-- ADD (R69). -/
def execAdd (d a b : GReg) (s : State) : Out := alu2 (fun x y => x + y) 4 d a b s
/-- SUB (R69). -/
def execSub (d a b : GReg) (s : State) : Out := alu2 (fun x y => x - y) 4 d a b s
/-- AND (R69). -/
def execAnd (d a b : GReg) (s : State) : Out := alu2 (fun x y => x &&& y) 4 d a b s
/-- OR (R69). -/
def execOr (d a b : GReg) (s : State) : Out := alu2 (fun x y => x ||| y) 4 d a b s
/-- XOR (R69). -/
def execXor (d a b : GReg) (s : State) : Out := alu2 (fun x y => x ^^^ y) 4 d a b s
/-- SLL (R69). -/
def execSll (d a b : GReg) (s : State) : Out := alu2 (fun x y => x <<< amount y) 4 d a b s
/-- SRL (R69). -/
def execSrl (d a b : GReg) (s : State) : Out := alu2 (fun x y => x >>> amount y) 4 d a b s
/-- SRA (R69). -/
def execSra (d a b : GReg) (s : State) : Out := alu2 (fun x y => x.sshiftRight (amount y)) 4 d a b s
/-- SLT (R69). -/
def execSlt (d a b : GReg) (s : State) : Out := alu2 (fun x y => flagWord (x.slt y)) 4 d a b s
/-- SLTN (R69). -/
def execSltn (d a b : GReg) (s : State) : Out := alu2 (fun x y => flagWord (x.ult y)) 4 d a b s
/-- MIN (R69). -/
def execMin (d a b : GReg) (s : State) : Out := alu2 (fun x y => if x.slt y then x else y) 4 d a b s
/-- MAX (R69). -/
def execMax (d a b : GReg) (s : State) : Out := alu2 (fun x y => if x.slt y then y else x) 4 d a b s
/-- MINN (R69). -/
def execMinn (d a b : GReg) (s : State) : Out := alu2 (fun x y => if x.ult y then x else y) 4 d a b s
/-- MAXN (R69). -/
def execMaxn (d a b : GReg) (s : State) : Out := alu2 (fun x y => if x.ult y then y else x) 4 d a b s
/-- ADDW (R69). -/
def execAddw (d a b : GReg) (s : State) : Out := alu2 (fun x y => sextW (x + y)) 4 d a b s
/-- SUBW (R69). -/
def execSubw (d a b : GReg) (s : State) : Out := alu2 (fun x y => sextW (x - y)) 4 d a b s
/-- MUL (R69). -/
def execMul (la : La) (d a b : GReg) (s : State) : Out := aluLong (fun x y => x * y) 8 la d a b s
/-- MULH (R69). -/
def execMulh (la : La) (d a b : GReg) (s : State) : Out := aluLong (fun x y => mulHigh x.toInt y.toInt) 10 la d a b s
/-- MULHN (R69). -/
def execMulhn (la : La) (d a b : GReg) (s : State) : Out := aluLong (fun x y => mulHigh x.toNat y.toNat) 10 la d a b s
/-- MULW (R69). -/
def execMulw (la : La) (d a b : GReg) (s : State) : Out := aluLong (fun x y => sextW (x * y)) 8 la d a b s
/-- DIV (R70). -/
def execDiv (la : La) (d a b : GReg) (s : State) : Out := aluLong divS 36 la d a b s
/-- DIVN (R70). -/
def execDivn (la : La) (d a b : GReg) (s : State) : Out := aluLong divN 36 la d a b s
/-- REM (R70). -/
def execRem (la : La) (d a b : GReg) (s : State) : Out := aluLong remS 36 la d a b s
/-- REMN (R70). -/
def execRemn (la : La) (d a b : GReg) (s : State) : Out := aluLong remN 36 la d a b s
/-- CLZ (R69). -/
def execClz (d a : GReg) (s : State) : Out := alu1 threadOrMender (fun x => w64 (leadZeros 64 x.toNat)) 4 d a s
/-- CTZ (R69). -/
def execCtz (d a : GReg) (s : State) : Out := alu1 threadOrMender (fun x => w64 (trailZeros 64 x.toNat)) 4 d a s
/-- POPC (R69). -/
def execPopc (d a : GReg) (s : State) : Out := alu1 threadOrMender (fun x => w64 (popCount 64 x.toNat)) 4 d a s
/-- ROL (R69). -/
def execRol (d a b : GReg) (s : State) : Out := alu2 (fun x y => rotL x (amount y)) 4 d a b s
/-- ROR (R69). -/
def execRor (d a b : GReg) (s : State) : Out := alu2 (fun x y => rotR x (amount y)) 4 d a b s
/-- SEL (R69). -/
def execSel (d a b : GReg) (s : State) : Out := alu3 (fun x y z => if z ≠ 0 then x else y) d a b s
/-- BFX (R69). -/
def execBfx (d a b : GReg) (s : State) : Out := alu2 bfExtract 4 d a b s
/-- BFI (R69). -/
def execBfi (d a b : GReg) (s : State) : Out := alu3 bfInsert d a b s

/-! ## Immediates (R71, R72) -/

/-- ADDI (R71), open to every hart (R48). -/
def execAddi (d a : GReg) (imm : Imm15) (s : State) : Out := alu1 allHarts (fun x => x + immI imm) 4 d a s
/-- ANDI (R71). -/
def execAndi (d a : GReg) (imm : Imm15) (s : State) : Out := alu1 threadOrMender (fun x => x &&& immI imm) 4 d a s
/-- ORI (R71). -/
def execOri (d a : GReg) (imm : Imm15) (s : State) : Out := alu1 threadOrMender (fun x => x ||| immI imm) 4 d a s
/-- XORI (R71). -/
def execXori (d a : GReg) (imm : Imm15) (s : State) : Out := alu1 threadOrMender (fun x => x ^^^ immI imm) 4 d a s
/-- SLTI (R71). -/
def execSlti (d a : GReg) (imm : Imm15) (s : State) : Out :=
  alu1 threadOrMender (fun x => flagWord (x.slt (immI imm))) 4 d a s
/-- SLLI (R72). -/
def execSlli (d a : GReg) (n : Sh6) (s : State) : Out := alu1 threadOrMender (fun x => x <<< n.val) 4 d a s
/-- SRLI (R72). -/
def execSrli (d a : GReg) (n : Sh6) (s : State) : Out := alu1 threadOrMender (fun x => x >>> n.val) 4 d a s
/-- SRAI (R72). -/
def execSrai (d a : GReg) (n : Sh6) (s : State) : Out := alu1 threadOrMender (fun x => x.sshiftRight n.val) 4 d a s
/-- RORI (R72). -/
def execRori (d a : GReg) (n : Sh6) (s : State) : Out := alu1 threadOrMender (fun x => rotR x n.val) 4 d a s

/-! ## LDK, SETX, GETX (R73, R74) -/

/-- The address of a literal (R73). -/
def literalAddr (pc : Word) (imm : Imm15) : Word := w64 (pc.toNat / 8 * 8) + immI imm * 8

/-- LDK (R73): 64 bits through the instruction cache; a fetch that fails traps with a K-space cause. -/
def execLdk (d : GReg) (imm : Imm15) (s : State) : Out :=
  inSet threadOrMender s fun s => dests [gId d] s fun s =>
    withPa 0x2C (literalAddr (me s).pc imm) .read s fun pa s =>
      let (s, v, bad) := codeRead s s.cur pa 8
      done 4 (modMe (if bad then poisonReport s s.cur 7 (literalAddr (me s).pc imm) else s) fun h => wg h d (w64 v))

/-- SETX (R42). -/
def execSetx (e : EReg) (a : GReg) (s : State) : Out :=
  inSet threadOrMender s fun s => sources [gId a] s fun s => dests [eId e] s fun s =>
    done 4 (modMe s fun h => we h e (rg h a))

/-- GETX (R42). -/
def execGetx (d : GReg) (e : EReg) (s : State) : Out :=
  inSet threadOrMender s fun s => sources [eId e] s fun s => dests [gId d] s fun s =>
    done 4 (modMe s fun h => wg h d (re h e))

/-! ## Compact forms (R44): the alias, of two bytes -/

/-- C.ADDI: ADDI d, d, imm (R44). -/
def execCAddi (d : GReg) (imm : Imm7) (s : State) : Out := alu1 allHarts (fun x => x + imm.signExtend 64) 2 d d s
/-- C.MOV: ADD d, a, g0 (R44). -/
def execCMov (d a : GReg) (s : State) : Out := alu2 (fun x y => x + y) 2 d a 0 s
/-- C.ADD: ADD d, d, a (R44). -/
def execCAdd (d a : GReg) (s : State) : Out := alu2 (fun x y => x + y) 2 d d a s
/-- C.SUB: SUB d, d, a (R44). -/
def execCSub (d a : GReg) (s : State) : Out := alu2 (fun x y => x - y) 2 d d a s
/-- C.AND: AND d, d, a (R44). -/
def execCAnd (d a : GReg) (s : State) : Out := alu2 (fun x y => x &&& y) 2 d d a s

end Sys2Proof.Machine
end

