-- ==== Sys2Proof/Machine/Float.lean ====
section
/-! DEFINITION. Numbers and formats (R151 to R158): exact values, decoding, the one rounding of R156 and R157, and exact or
sufficiently precise arithmetic on the values. -/

namespace Sys2Proof.Machine

/-- A value of a format: NaN, an infinity, or (-1)^neg · m · 2^e; m = 0 is a zero with its sign. -/
inductive FV where
  | nan
  | inf (neg : Bool)
  | fin (neg : Bool) (m : Nat) (e : Int)
deriving DecidableEq, Repr

/-- A format: sign bit present, exponent and mantissa bits, bias, policy (0 IEEE, 1 FIN, 2 SAT), subnormals (R153). -/
structure Fmt where
  s : Bool
  e : Nat
  m : Nat
  bias : Int
  policy : Nat
  sub : Bool
deriving DecidableEq, Repr

/-- The fixed formats (R151). -/
def fp32 : Fmt := ⟨true, 8, 23, 127, 0, true⟩
def bf16 : Fmt := ⟨true, 8, 7, 127, 0, true⟩
def fp16 : Fmt := ⟨true, 5, 10, 15, 0, true⟩
def e4m3 : Fmt := ⟨true, 4, 3, 7, 1, true⟩
def e5m2 : Fmt := ⟨true, 5, 2, 15, 0, true⟩
def e3m2 : Fmt := ⟨true, 3, 2, 3, 2, true⟩
def e2m3 : Fmt := ⟨true, 2, 3, 1, 2, true⟩
def e2m1 : Fmt := ⟨true, 2, 1, 1, 2, true⟩

/-- The width of an element (R153). -/
def Fmt.width (f : Fmt) : Nat := b2n f.s + f.e + f.m

/-- The format that an NFD describes (R153). -/
def nfdFmt (n : Nat) : Fmt :=
  ⟨bitAt n 8, bits n 4 4, bits n 0 4, sextNat 8 (bits n 16 8), bits n 9 2, bitAt n 11⟩

/-- A reserved bit of an NFD is set (R154). -/
def nfdReserved (n : Nat) : Bool := bits n 12 4 != 0 || bits n 24 8 != 0

/-- An NFD is valid (R154). -/
def nfdValid (n : Nat) : Bool :=
  let f := nfdFmt n
  let w := f.width
  2 ≤ w && w ≤ 8 && f.policy != 3 && (f.e != 0 || (f.policy == 2 && !f.sub)) && (f.policy != 0 || f.e ≥ 2) &&
    (f.policy != 1 || f.e + f.m ≥ 2)

/-- The value of an encoding (R155). -/
def decodeF (f : Fmt) (x : Nat) : FV :=
  let man := x % 2 ^ f.m
  if f.e = 0 then
    let n : Int := if f.s then sextNat (f.m + 1) x else (man : Int)
    .fin (decide (n < 0)) n.natAbs (-f.bias)
  else
    let ex := x / 2 ^ f.m % 2 ^ f.e
    let neg := f.s && bitAt x (f.e + f.m)
    let top := 2 ^ f.e - 1
    if ex = top ∧ f.policy = 0 then (if man = 0 then .inf neg else .nan)
    else if ex = top ∧ f.policy = 1 ∧ man = 2 ^ f.m - 1 then .nan
    else if ex = 0 then (if f.sub then .fin neg man (1 - f.bias - f.m) else .fin neg 0 0)
    else .fin neg (2 ^ f.m + man) (ex - f.bias - f.m)

/-- The canonical NaN, for a format that has one (R151). -/
def canonNan (f : Fmt) : Option Nat :=
  if f.e = 0 then none
  else
    match f.policy with
    | 0 => if f.m = 0 then none else some ((2 ^ f.e - 1) * 2 ^ f.m + 2 ^ (f.m - 1))
    | 1 => some (2 ^ (f.e + f.m) - 1)
    | _ => none

/-- The largest finite magnitude as (m, e) (R155). -/
def fmtMax (f : Fmt) : Nat × Int :=
  if f.e = 0 then (2 ^ f.m - 1, -f.bias)
  else
    let top : Int := 2 ^ f.e - 1
    match f.policy with
    | 0 => (2 ^ (f.m + 1) - 1, top - 1 - f.bias - f.m)
    | 1 => if f.m = 0 then (1, top - 1 - f.bias) else (2 ^ (f.m + 1) - 2, top - f.bias - f.m)
    | _ => (2 ^ (f.m + 1) - 1, top - f.bias - f.m)

/-- The encoding of the magnitude n · 2^q, which the format represents, with its sign (R155). -/
def encodeF (f : Fmt) (neg : Bool) (n : Nat) (q : Int) : Nat :=
  if f.e = 0 then
    let k := n * 2 ^ (q + f.bias).toNat
    if f.s then (if neg then (2 ^ (f.m + 1) - k) % 2 ^ (f.m + 1) else k) else k
  else
    let sign := if neg && f.s then 2 ^ (f.e + f.m) else 0
    if n = 0 then sign
    else
      let lg := Nat.log2 n
      let ex : Int := lg + q + f.bias
      if ex ≤ 0 then sign + n * 2 ^ (q - (1 - f.bias - f.m)).toNat / 2 ^ ((1 - f.bias - f.m) - q).toNat
      else sign + ex.toNat * 2 ^ f.m + n * 2 ^ f.m / 2 ^ lg % 2 ^ f.m

/-- The encoding of ±infinity in an IEEE format. -/
def encodeInf (f : Fmt) (neg : Bool) : Nat := (if neg then 2 ^ (f.e + f.m) else 0) + (2 ^ f.e - 1) * 2 ^ f.m

/-- A rounding mode (R157). -/
inductive Mode where
  | rne | rtz | rdn | rup | sr
deriving DecidableEq, Repr

/-- Flags of R66: NX, UF, OF, DZ, NV. -/
def NX : BitVec 5 := 1
def UF : BitVec 5 := 2
def OF : BitVec 5 := 4
def DZ : BitVec 5 := 8
def NV : BitVec 5 := 16

/-- a · 2^x < b · 2^y. -/
def magLt (a : Nat) (x : Int) (b : Nat) (y : Int) : Bool :=
  decide (a * 2 ^ (x - min x y).toNat < b * 2 ^ (y - min x y).toNat)

/-- Whether the mode takes hi of the two neighbours of a magnitude (R157, R158): `n` is lo in units of the grid, the
fraction above it is r / 2^k with r < 2^k, and `rnd` is lfsr[23:0]. In a format with m = 0 both neighbours of a tie have an empty
mantissa, and R157 names neither: the model takes hi between two normal values (n = 1), and lo, which is zero, between zero and the smallest
normal value of a format with sub = 1 (DESIGN CHOICE; log 43). -/
def takeHi (mode : Mode) (neg : Bool) (n r k rnd : Nat) : Bool :=
  if r = 0 then false
  else
    match mode with
    | .rne => decide (2 ^ k < 2 * r) || (2 * r == 2 ^ k && n % 2 == 1)
    | .rtz => false
    | .rdn => neg
    | .rup => !neg
    | .sr => decide (r * 2 ^ 24 / 2 ^ k + rnd ≥ 2 ^ 24)

/-- The exponent of the grid of a format at a nonzero magnitude m · 2^e, its exponent range unbounded above (R157). -/
def gridExp (f : Fmt) (m : Nat) (e : Int) : Int :=
  if f.e = 0 then -f.bias else max ((Nat.log2 m : Int) + e) (1 - f.bias) - f.m

/-- The overflow result of a finite value (R156): `sat` as under FIN (R160). -/
def overflow (f : Fmt) (mode : Mode) (sat neg : Bool) : Nat :=
  let mx := fmtMax f
  let big := encodeF f neg mx.1 mx.2
  if f.policy ≠ 0 ∨ f.e = 0 ∨ sat then big
  else
    match mode with
    | .rne | .sr => encodeInf f neg
    | .rtz => big
    | .rdn => if neg then encodeInf f neg else big
    | .rup => if neg then big else encodeInf f neg

/-- The conversion of a value into a format (R156): its bits and the flags it sets. -/
def roundF (f : Fmt) (mode : Mode) (rnd : Nat) (sat : Bool) (v : FV) : Nat × BitVec 5 :=
  match v with
  | .nan =>
    match canonNan f with
    | some x => (x, 0)
    | none => (0, NV)
  | .inf neg =>
    if !f.s && neg then (0, NV)
    else if f.policy = 0 ∧ f.e ≠ 0 then (encodeInf f neg, 0)
    else if f.e = 0 then (encodeF f neg (fmtMax f).1 (fmtMax f).2, NV)
    else (encodeF f neg (fmtMax f).1 (fmtMax f).2, OF ||| NX)
  | .fin neg m e =>
    if m = 0 then (encodeF f (neg && f.s) 0 0, 0)
    else if !f.s && neg then (0, NV)
    else
      let q := gridExp f m e
      let k := (q - e).toNat
      let big := m * 2 ^ (e - q).toNat
      let n := big / 2 ^ k
      let r := big % 2 ^ k
      let n' := if takeHi mode neg n r k rnd then n + 1 else n
      let mnE : Int := if f.e = 0 then -f.bias else 1 - f.bias
      let tiny := magLt m e 1 mnE
      if f.e ≠ 0 ∧ !f.sub ∧ tiny then (encodeF f neg 0 0, UF ||| NX)
      else if magLt (fmtMax f).1 (fmtMax f).2 n' q then (overflow f mode sat neg, OF ||| NX)
      else (encodeF f neg n' q, if r = 0 then 0 else if tiny then UF ||| NX else NX)

/-! ## Exact arithmetic -/

/-- The value with its sign inverted. -/
def negV (v : FV) : FV :=
  match v with
  | .nan => .nan
  | .inf n => .inf (!n)
  | .fin n m e => .fin (!n) m e

/-- The magnitude. -/
def absV (v : FV) : FV :=
  match v with
  | .nan => .nan
  | .inf _ => .inf false
  | .fin _ m e => .fin false m e

/-- The value is NaN. -/
def isNanV (v : FV) : Bool := v == .nan

/-- The value is a zero. -/
def isZeroV (v : FV) : Bool :=
  match v with
  | .fin _ m _ => m == 0
  | .nan | .inf _ => false

/-- The sign is negative; false for NaN. -/
def signV (v : FV) : Bool :=
  match v with
  | .nan => false
  | .inf n => n
  | .fin n _ _ => n

/-- The exact product; ∞ × 0 is NaN with NV. R192 gives that for the fused forms and is silent on VMUL: the model gives VMUL the same (DESIGN
CHOICE; log 43). -/
def mulV (a b : FV) : FV × BitVec 5 :=
  match a, b with
  | .nan, _ | _, .nan => (.nan, 0)
  | .inf s, .inf t => (.inf (s != t), 0)
  | .inf s, .fin t m _ | .fin t m _, .inf s => if m = 0 then (.nan, NV) else (.inf (s != t), 0)
  | .fin s m e, .fin t n g => (.fin (s != t) (m * n) (e + g), 0)

/-- The signed integer of a finite value in units of 2^q, q not above its exponent. -/
def toUnits (v : FV) (q : Int) : Int :=
  match v with
  | .fin neg m e => let k : Int := (m * 2 ^ (e - q).toNat : Nat); if neg then -k else k
  | .nan | .inf _ => 0

/-- The smaller exponent of two values. -/
def minExp (v : FV) (q : Int) : Int :=
  match v with
  | .fin _ m e => if m = 0 then q else min e q
  | .nan | .inf _ => q

/-- The exact sum of values, with the sign rule of an exact zero (R157); opposite infinities give NaN with NV. Zeros that are all +0 give +0
in RDN, too, where R157 names only mixed zeros, x + (-x) and zeros that are all -0 (DESIGN CHOICE; log 43). -/
def sumV (rdn : Bool) (vs : List FV) : FV × BitVec 5 :=
  if vs.any isNanV then (.nan, 0)
  else
    let pos := vs.any (· == .inf false)
    let neg := vs.any (· == .inf true)
    if pos && neg then (.nan, NV)
    else if pos then (.inf false, 0)
    else if neg then (.inf true, 0)
    else
      let q := vs.foldl (fun q v => minExp v q) (vs.foldl (fun q v => match v with
        | .fin _ m e => if m = 0 then q else max e q
        | .nan | .inf _ => q) (-4096))
      let t := vs.foldl (fun acc v => acc + (if isZeroV v then 0 else toUnits v q)) 0
      if t = 0 then (.fin (if vs.all (fun v => isZeroV v && signV v) then true else rdn &&
          !vs.all (fun v => isZeroV v && !signV v)) 0 0, 0)
      else (.fin (decide (t < 0)) t.natAbs q, 0)

/-- a < b for values that are not NaN; −0 is below +0 when `zeros` is set (R104), and equal to it otherwise. -/
def ltV (zeros : Bool) (a b : FV) : Bool :=
  match a, b with
  | .nan, _ | _, .nan => false
  | .inf s, .inf t => s && !t
  | .inf s, .fin _ _ _ => s
  | .fin _ _ _, .inf t => !t
  | .fin s m e, .fin t n g =>
    if m = 0 ∧ n = 0 then zeros && s && !t
    else if m = 0 then !t
    else if n = 0 then s
    else if s != t then s
    else if s then magLt n g m e else magLt m e n g

/-- The larger or smaller of two values (R104): a NaN is ignored in favour of the other. -/
def maxV (a b : FV) : FV := if isNanV a then b else if isNanV b then a else if ltV true a b then b else a
def minV (a b : FV) : FV := if isNanV a then b else if isNanV b then a else if ltV true b a then b else a

/-- floor(log₂ |v|) of a nonzero finite value. -/
def log2V (v : FV) : Int :=
  match v with
  | .fin _ m e => (Nat.log2 m : Int) + e
  | .nan | .inf _ => 0

/-- The value scaled by 2^k. -/
def scaleV (v : FV) (k : Int) : FV :=
  match v with
  | .fin s m e => .fin s m (e + k)
  | .nan | .inf _ => v

/-! ## Division and square root, with a sticky bit below 256 bits of the result -/

/-- The quotient of finite nonzero magnitudes, as a magnitude whose last bit is sticky. -/
def divMag (m : Nat) (e : Int) (n : Nat) (g : Int) : Nat × Int :=
  let k := 256 + Nat.log2 n
  (m * 2 ^ k / n * 2 + (if m * 2 ^ k % n = 0 then 0 else 1), e - g - k - 1)

/-- The quotient a / b; 0/0 and ∞/∞ are NaN with NV, x/0 is ∞ with DZ. -/
def divV (a b : FV) : FV × BitVec 5 :=
  match a, b with
  | .nan, _ | _, .nan => (.nan, 0)
  | .inf _, .inf _ => (.nan, NV)
  | .inf s, .fin t _ _ => (.inf (s != t), 0)
  | .fin s _ _, .inf t => (.fin (s != t) 0 0, 0)
  | .fin s m e, .fin t n g =>
    if n = 0 then (if m = 0 then (.nan, NV) else (.inf (s != t), DZ))
    else if m = 0 then (.fin (s != t) 0 0, 0)
    else let q := divMag m e n g; (.fin (s != t) q.1 q.2, 0)

/-- floor(√n), one bit after another from bit `k - 1` down. -/
def isqrtFrom (n : Nat) : Nat → Nat → Nat
  | 0, r => r
  | k + 1, r => if (r + 2 ^ k) * (r + 2 ^ k) ≤ n then isqrtFrom n k (r + 2 ^ k) else isqrtFrom n k r

/-- floor(√n). -/
def isqrt (n : Nat) : Nat := isqrtFrom n (Nat.log2 n / 2 + 1) 0

/-- 1 / √ of a positive magnitude, its last bit sticky. -/
def rsqrtMag (m : Nat) (e : Int) : Nat × Int :=
  let n := if e % 2 = 0 then m else 2 * m
  let e := if e % 2 = 0 then e else e - 1
  let k := 256 + Nat.log2 n
  let q := isqrt (2 ^ (2 * k) / n)
  (q * 2 + (if q * q * n = 2 ^ (2 * k) then 0 else 1), -(e / 2) - k - 1)

/-- The square root of a positive magnitude, its last bit sticky. -/
def sqrtMag (m : Nat) (e : Int) : Nat × Int :=
  let k : Nat := 512 + (if e % 2 = 0 then 0 else 1)
  let n := m * 2 ^ k
  let r := isqrt n
  (r * 2 + (if r * r = n then 0 else 1), (e - k) / 2 - 1)

/-- √v; a negative value gives NaN with NV, and −0 gives −0 (R192). -/
def sqrtV (v : FV) : FV × BitVec 5 :=
  match v with
  | .nan => (.nan, 0)
  | .inf s => if s then (.nan, NV) else (.inf false, 0)
  | .fin s m e =>
    if m = 0 then (v, 0) else if s then (.nan, NV) else let q := sqrtMag m e; (.fin false q.1 q.2, 0)

/-- 1 / √v (R192). -/
def rsqrtV (v : FV) : FV × BitVec 5 :=
  match v with
  | .nan => (.nan, 0)
  | .inf s => if s then (.nan, NV) else (.fin false 0 0, 0)
  | .fin s m e =>
    if m = 0 then (.inf s, DZ) else if s then (.nan, NV) else let q := rsqrtMag m e; (.fin false q.1 q.2, 0)

/-! ## 2^x, log₂ x and tanh x in fixed point, 256 bits below the point (R192; log 9) -/

/-- 2^256, the unit of the fixed point. -/
def fxOne : Nat := 2 ^ 256

/-- Σ 1 / (k · 2^k) for k from `k` on, `n` terms: ln 2 (log 9). -/
def ln2From : Nat → Nat → Nat
  | 0, _ => 0
  | n + 1, k => fxOne / (k * 2 ^ k) + ln2From n (k + 1)

/-- ln 2. -/
def fxLn2 : Nat := ln2From 256 1

/-- Σ y^k / k!, `n` further terms after the term `t` of index `k`. -/
def expFrom (y : Nat) : Nat → Nat → Nat → Nat
  | 0, _, t => t
  | n + 1, k, t => t + expFrom y n (k + 1) (t * y / fxOne / (k + 1))

/-- 2^f for a fraction f in units of 2^-256: a value in [1, 2). -/
def fxExp2 (f : Nat) : Nat := expFrom (f * fxLn2 / fxOne) 80 0 fxOne

/-- The fraction bits of log₂ y for y in [1, 2), 512 bits below the point: `n` bits, collected in `acc`. -/
def log2From : Nat → Nat → Nat → Nat
  | 0, _, acc => acc
  | n + 1, y, acc =>
    let z := y * y / 2 ^ 512
    if z ≥ 2 ^ 513 then log2From n (z / 2) (acc * 2 + 1) else log2From n z (acc * 2)

/-- A finite value in units of 2^-256, rounded toward −∞. -/
def toFx (v : FV) : Int :=
  match v with
  | .fin neg m e =>
    let k : Int := (m * 2 ^ (e + 256).toNat / 2 ^ (-(e + 256)).toNat : Nat)
    if neg then -k else k
  | .nan | .inf _ => 0

/-- 2^v for a finite v that is no integer: a magnitude just above or below the exact value. -/
def exp2Mag (v : FV) : Nat × Int :=
  let x := toFx v
  (fxExp2 (x % (2 ^ 256 : Nat)).toNat, x / (2 ^ 256 : Nat) - 256)

/-- log₂ of a positive finite value that is no power of two. -/
def log2Fx (m : Nat) (e : Int) : FV :=
  let lg := Nat.log2 m
  let y := m * 2 ^ 512 / 2 ^ lg
  let x : Int := ((lg : Int) + e) * (2 ^ 200 : Nat) + (log2From 200 y 0 : Nat)
  .fin (decide (x < 0)) x.natAbs (-200)

/-- tanh of a nonzero finite magnitude: (1 − t) / (1 + t) with t = 2^(−2x / ln 2), as a magnitude just below the exact one. -/
def tanhMag (m : Nat) (e : Int) : Nat × Int :=
  if (Nat.log2 m : Int) + e ≥ 7 then (2 ^ 400 - 1, -400)
  else
    let y := (toFx (.fin false m (e + 1))).toNat * fxOne / fxLn2
    let t := fxOne * fxOne / (fxExp2 (y % fxOne) * 2 ^ (y / fxOne))
    ((fxOne - t) * fxOne / (fxOne + t) - 2 ^ 16, -256)

/-- A value between two neighbours of the format: `hi` chooses the upper one by magnitude, unless it lies beyond the
largest finite value (R192). -/
def approxF (f : Fmt) (hi : Bool) (neg : Bool) (m : Nat) (e : Int) : Nat × BitVec 5 :=
  let q := gridExp f m e
  let n := m * 2 ^ (e - q).toNat / 2 ^ (q - e).toNat
  let n' := if hi && !magLt (fmtMax f).1 (fmtMax f).2 (n + 1) q then n + 1 else n
  let tiny := magLt m e 1 (1 - f.bias)
  (encodeF f neg n' q, if tiny then UF ||| NX else NX)

end Sys2Proof.Machine
end

