-- ==== Sys2Proof/Machine/Flags.lean ====
section
/-! DEFINITION. Floating-point flags and rounding modes of an instruction (R66, R156, R157), stochastic rounding (R158, R159;
log 9, log 16), and FP32 operations with one rounding (R104, R163, R203, R222). -/

namespace Sys2Proof.Machine

/-- ORs flags into the fflags of the executing hart (R66). -/
def raise (fl : BitVec 5) (s : State) : State := modMe s fun h => { h with fflags := h.fflags ||| fl }

/-- The mode of frm (R66). -/
def frmMode (x : BitVec 3) : Mode :=
  match x.toNat with
  | 0 => .rne
  | 1 => .rtz
  | 2 => .rdn
  | 3 => .rup
  | _ => .sr

/-- The mode of a V-format rounding code (R157). -/
def rmMode (h : Hart) (rm : Rm) : Mode :=
  match rm with
  | .frm => frmMode h.frm
  | .rne => .rne
  | .rtz => .rtz
  | .sr => .sr

/-- One step of an LFSR (R158). -/
def lfsrStep (x : W32) : W32 := if x.getLsbD 0 then (x >>> 1) ^^^ 0x8020_0003 else x >>> 1

/-- The source of stochastic rounding: a tile's LFSRs, or for a mender free values from the counter (log 16). -/
structure Rnd where
  lfsr : Vector W32 16
  free : Nat
  mender : Bool
deriving DecidableEq, Repr

/-- The source that the executing hart uses. -/
def rndOf (s : State) : Rnd :=
  ⟨(getTile s (myTile s)).lfsr, s.free, kindOf s.cur == .mender⟩

/-- Puts the advanced LFSRs or counter back. -/
def putRnd (r : Rnd) (s : State) : State :=
  if r.mender then { s with free := r.free } else modTile s (myTile s) fun t => { t with lfsr := r.lfsr }

/-- lfsr[23:0] for element `i` after its step, and the advanced source (R158). Only SR advances it. -/
def drawRnd (mode : Mode) (r : Rnd) (i : Nat) : Nat × Rnd :=
  if mode ≠ .sr then (0, r)
  else if r.mender then (Config.freeBits r.free % 2 ^ 24, { r with free := r.free + 1 })
  else
    let x := lfsrStep (r.lfsr.get (Fin.ofNat 16 i))
    (x.toNat % 2 ^ 24, { r with lfsr := r.lfsr.set (Fin.ofNat 16 i) x })

/-- The result of converting elements one after another: the bits, the flags, and the source of rounding. -/
structure Rounded where
  out : List Nat
  fl : BitVec 5
  rnd : Rnd
deriving DecidableEq, Repr

/-- The conversion of a value into a format reaches Round (R156): only then is it an element rounded in SR mode (R158). -/
def reachesRound (f : Fmt) (v : FV) : Bool :=
  match v with
  | .nan | .inf _ => false
  | .fin neg m _ => f.s || !neg || m == 0

/-- Rounds the values of elements `i`, `i + 1`, … into a format (R156, R158); an absent element gives 0 and is not rounded.
`always` says that every element advances its LFSR (R165). -/
def roundAll (f : Fmt) (mode : Mode) (sat always : Bool) (r : Rnd) (i : Nat) : List (Option (FV × BitVec 5)) → Rounded
  | [] => ⟨[], 0, r⟩
  | none :: vs =>
    let t := roundAll f mode sat always r (i + 1) vs
    ⟨0 :: t.out, t.fl, t.rnd⟩
  | some v :: vs =>
    let (rnd, r) := if always || reachesRound f v.1 then drawRnd mode r i else (0, r)
    let x := roundF f mode rnd sat v.1
    let t := roundAll f mode sat always r (i + 1) vs
    ⟨x.1 :: t.out, x.2 ||| v.2 ||| t.fl, t.rnd⟩

/-! ## FP32 with RNE -/

/-- An FP32 word as a value. -/
def fv (x : Nat) : FV := decodeF fp32 x

/-- Round(v, RNE) as FP32. -/
def rne32 (v : FV) : Nat × BitVec 5 := roundF fp32 .rne 0 false v

/-- An exact result with the flags it has already raised, rounded to FP32. -/
def fin32 (x : FV × BitVec 5) : Nat × BitVec 5 := let r := rne32 x.1; (r.1, r.2 ||| x.2)

/-- a + b, a · b, a / b and √a in FP32. -/
def add32 (a b : Nat) : Nat × BitVec 5 := fin32 (sumV false [fv a, fv b])
def sub32 (a b : Nat) : Nat × BitVec 5 := fin32 (sumV false [fv a, negV (fv b)])
def mul32 (a b : Nat) : Nat × BitVec 5 := fin32 (mulV (fv a) (fv b))
def div32 (a b : Nat) : Nat × BitVec 5 := fin32 (divV (fv a) (fv b))
def sqrt32 (a : Nat) : Nat × BitVec 5 := fin32 (sqrtV (fv a))

/-- c + a · b exactly; a NaN operand gives NaN with no flag (R192). -/
def fusedV (rdn : Bool) (a b c : FV) : FV × BitVec 5 :=
  if isNanV a || isNanV b || isNanV c then (.nan, 0)
  else
    let p := mulV a b
    let t := sumV rdn [p.1, c]
    (t.1, t.2 ||| p.2)

/-- c + a · b and c − a · b, fused: one rounding. -/
def fma32 (a b c : Nat) : Nat × BitVec 5 := fin32 (fusedV false (fv a) (fv b) (fv c))
def fms32 (a b c : Nat) : Nat × BitVec 5 := fin32 (fusedV false (negV (fv a)) (fv b) (fv c))

/-- The canonical NaN of FP32 (R151). -/
def nan32 : Nat := 0x7FC0_0000

/-- FMAX and FMIN of FP32 words (R104): two NaNs give the canonical NaN. -/
def max32 (a b : Nat) : Nat := if isNanV (fv a) && isNanV (fv b) then nan32 else (rne32 (maxV (fv a) (fv b))).1
def min32 (a b : Nat) : Nat := if isNanV (fv a) && isNanV (fv b) then nan32 else (rne32 (minV (fv a) (fv b))).1

/-- A chain of FP32 steps that collects flags: the value and the flags so far. -/
abbrev Acc := Nat × BitVec 5

/-- One more step, its flags collected. -/
def Acc.then (a : Acc) (f : Nat → Nat × BitVec 5) : Acc := let r := f a.1; (r.1, a.2 ||| r.2)

/-! ## The ordered tree (R163) -/

/-- A node of the tree over two children, either of which may be absent. -/
def treeNode (a b : Option Nat) : Option Nat × BitVec 5 :=
  match a, b with
  | none, none => (none, 0)
  | some x, none | none, some x => (some (if isNanV (fv x) then nan32 else x), 0)
  | some x, some y => let r := add32 x y; (some r.1, r.2)

/-- The next level of the tree. -/
def treeLevel : List (Option Nat) → List (Option Nat) × BitVec 5
  | a :: b :: r => let n := treeNode a b; let t := treeLevel r; (n.1 :: t.1, n.2 ||| t.2)
  | [a] => let n := treeNode a none; ([n.1], n.2)
  | [] => ([], 0)

/-- The levels up to the root; `n` bounds their number. -/
def treeUp : Nat → List (Option Nat) × BitVec 5 → List (Option Nat) × BitVec 5
  | 0, l => l
  | n + 1, (l, fl) => if l.length ≤ 1 then (l, fl) else let t := treeLevel l; treeUp n (t.1, fl ||| t.2)

/-- The value of the tree over the leaves, none when every leaf is absent; a NaN leaf gives the canonical NaN (R163). -/
def orderedSum (l : List (Option Nat)) : Option Nat × BitVec 5 :=
  match treeUp 16 (l, 0) with
  | (some x :: _, fl) => (some (if isNanV (fv x) then nan32 else x), fl)
  | (_, fl) => (none, fl)

/-- The values of a list in a free order (log 9); `fuel` is at least its length. -/
def freeOrder : Nat → Nat → List Nat → List Nat × Nat
  | 0, c, l => (l, c)
  | fuel + 1, c, l =>
    match l with
    | [] => ([], c)
    | _ =>
      let i := Config.freeWord c % l.length
      let r := freeOrder fuel (c + 1) (l.eraseIdx i)
      (nth l i :: r.1, r.2)

/-- The value of some tree over the values: the free choice splits each node (R195; log 9). `fuel` bounds the depth. -/
def freeTree : Nat → Nat → List Nat → Nat × BitVec 5 × Nat
  | 0, c, _ => (0, 0, c)
  | fuel + 1, c, l =>
    match l with
    | [] => (0, 0, c)
    | [x] => (if isNanV (fv x) then nan32 else x, 0, c)
    | _ =>
      let k := 1 + Config.freeSplit c l.length % (l.length - 1)
      let (x, f1, c) := freeTree fuel (c + 1) (l.take k)
      let (y, f2, c) := freeTree fuel c (l.drop k)
      let r := add32 x y
      (r.1, f1 ||| f2 ||| r.2, c)

end Sys2Proof.Machine
end

