-- ==== Sys2Proof/Machine/LoadStore.lean ====
section
/-! DEFINITION. Ordinary loads and stores of L, M, G, W, A and C (R86 to R95). An access to a store of the hart's own tile is served
as it issues; one that travels, to the mesh or to memory, is served when it completes (log 3). -/

namespace Sys2Proof.Machine

/-- The accumulator tiles that `n` bytes at `ea` of the C-store touch are full, or the instruction parks (R87). -/
def cTileFull (x : Store) (ea : Word) (s : State) (k : State → Out) : Out :=
  let r : RegId := ⟨.c, ea.toNat / 0x1000⟩
  if x == .c && !regFull s s.cur r then park (.reg r) s else k s

/-- A load from a store of the hart's own tile (R93). R60 does not order the lookahead hazard against the checks of R88: 0x02 comes
first (DESIGN CHOICE; log 43). -/
def storeLoad (ok : HartKind → Bool) (x : Store) (len : Nat) (la : La) (ea : Hart → Word) (a : GReg) (w : Width) (d : GReg)
    (s : State) : Out :=
  inSet ok s fun s => sources [gId a] s fun s => roomForLong s fun s => dests [dataReg w d] s fun s =>
    let ea := ea (me s)
    storeAccess x (widthSize w) ea s fun s => cTileFull x ea s fun s =>
      let s := meetFlaws s (myTile s) x ea.toNat (widthSize w)
      let t := getTile s (myTile s)
      let s := if storePoison t x ea.toNat (widthSize w) then poisonReport s s.cur x.space ea else s
      issueLong len la.val 6
        (longOp [⟨dataReg w d, loadValue w (storeRead t x ea.toNat (widthSize w))⟩]) s

/-- A store to a store of the hart's own tile (R93). -/
def storeStore (ok : HartKind → Bool) (x : Store) (len : Nat) (la : La) (ea : Hart → Word) (a : GReg) (w : Width) (d : GReg)
    (s : State) : Out :=
  inSet ok s fun s => sources [gId a, dataReg w d] s fun s => roomForLong s fun s =>
    let h := me s
    storeAccess x (widthSize w) (ea h) s fun s => cTileFull x (ea h) s fun s =>
      issueLong len la.val 6 (longOp [])
        (modTile s (myTile s) fun t => storeWrite t x (ea h).toNat (widthSize w) (dataVal h w d))

/-- The latency of an M access (R95, R141). -/
def meshLatency (s : State) (t : Nat) : Nat :=
  if t = myTile s then 14 else 12 + 2 * hops (myTile s) t + 16 * dieEdges (myTile s) t

/-- LDL (R92). -/
def execLdl (la : La) (imm : Imm8) (w : Width) (a d : GReg) (s : State) : Out :=
  storeLoad threadOnly .l 4 la (fun h => effAddr h a imm (widthSize w)) a w d s
/-- STL (R92). -/
def execStl (la : La) (imm : Imm8) (w : Width) (a d : GReg) (s : State) : Out :=
  storeStore threadOnly .l 4 la (fun h => effAddr h a imm (widthSize w)) a w d s
/-- LDWS (R92). -/
def execLdws (la : La) (imm : Imm8) (w : Width) (a d : GReg) (s : State) : Out :=
  storeLoad tileHarts .w 4 la (fun h => effAddr h a imm (widthSize w)) a w d s
/-- STWS (R92). -/
def execStws (la : La) (imm : Imm8) (w : Width) (a d : GReg) (s : State) : Out :=
  storeStore tileHarts .w 4 la (fun h => effAddr h a imm (widthSize w)) a w d s
/-- LDAS (R92). -/
def execLdas (la : La) (imm : Imm8) (w : Width) (a d : GReg) (s : State) : Out :=
  storeLoad tileHarts .a 4 la (fun h => effAddr h a imm (widthSize w)) a w d s
/-- STAS (R92). -/
def execStas (la : La) (imm : Imm8) (w : Width) (a d : GReg) (s : State) : Out :=
  storeStore tileHarts .a 4 la (fun h => effAddr h a imm (widthSize w)) a w d s
/-- LDCS (R87, R92). -/
def execLdcs (la : La) (imm : Imm8) (w : Width) (a d : GReg) (s : State) : Out :=
  storeLoad tileHarts .c 4 la (fun h => effAddr h a imm (widthSize w)) a w d s
/-- STCS (R87, R92). -/
def execStcs (la : La) (imm : Imm8) (w : Width) (a d : GReg) (s : State) : Out :=
  storeStore tileHarts .c 4 la (fun h => effAddr h a imm (widthSize w)) a w d s

/-- The cycles until an access from outside to tile `t` is served: those of the way, or, where it wakes the tile, of the wake
(R64, R95). -/
def meshDue (s : State) (t : Nat) : Nat :=
  if t ≠ myTile s ∧ lSleeps s t then max (meshLatency s t) ((getTile (rouse s t) t).wakeAt - s.cycle) else meshLatency s t

/-- LDM (R92, R93): an access to the tile's own coordinates goes through the loop-back port (log 3). The lookahead hazard comes before
the checks of R88 (DESIGN CHOICE; log 43). -/
def execLdm (la : La) (imm : Imm8) (w : Width) (a d : GReg) (s : State) : Out :=
  inSet threadOnly s fun s => sources [gId a] s fun s => roomForLong s fun s => dests [dataReg w d] s fun s =>
    let ea := effAddr (me s) a imm (widthSize w)
    mAccess (widthSize w) false ea s fun t off s =>
      issueLong 4 la.val (meshDue s t)
        { longOp [⟨dataReg w d, 0⟩] with fx := .load (sentAcc s (some t) off (widthSize w) ea []) w }
        (if t = myTile s then s else rouse s t)

/-- STM (R92, R93). -/
def execStm (la : La) (imm : Imm8) (w : Width) (a d : GReg) (s : State) : Out :=
  inSet threadOnly s fun s => sources [gId a, dataReg w d] s fun s => roomForLong s fun s =>
    let v := dataVal (me s) w d
    let ea := effAddr (me s) a imm (widthSize w)
    mAccess (widthSize w) false ea s fun t off s =>
      issueLong 4 la.val (meshDue s t) { longOp [] with fx := .store (sentAcc s (some t) off (widthSize w) ea []) v }
        (if t = myTile s then s else rouse s t)

/-- The latency of a G access that misses the cache (R95). -/
def gLatency (s : State) (pa : Nat) : Nat :=
  if !isDevice pa then 1600 else if sliceOf pa / 32 = (hartDie s.cur).val then 200 else 260

/-- LDG (R91 to R93). The lookahead hazard comes before the checks of R88 (DESIGN CHOICE; log 43). -/
def execLdg (la : La) (imm : Imm8) (w : Width) (a d : GReg) (s : State) : Out :=
  inSet threadOrMender s fun s => sources [gId a] s fun s => roomForLong s fun s => dests [dataReg w d] s fun s =>
    let ea := effAddr (me s) a imm (widthSize w)
    gAccess (widthSize w) .read ea s fun pa s =>
      issueLong 4 la.val (if lineCached s s.cur pa then 8 else gLatency s pa)
        { longOp [⟨dataReg w d, 0⟩] with fx := .load (sentAcc s none pa (widthSize w) ea (tableLines s s.cur ea.toNat)) w } s

/-- STG (R91 to R93). -/
def execStg (la : La) (imm : Imm8) (w : Width) (a d : GReg) (s : State) : Out :=
  inSet threadOrMender s fun s => sources [gId a, dataReg w d] s fun s => roomForLong s fun s =>
    let v := dataVal (me s) w d
    let ea := effAddr (me s) a imm (widthSize w)
    gAccess (widthSize w) .write ea s fun pa s =>
      issueLong 4 la.val (gLatency s pa)
        { longOp [] with fx := .store (sentAcc s none pa (widthSize w) ea (tableLines s s.cur ea.toNat)) v } s

/-! ## The loom (R298, R299) -/

/-- The way of hart `h`'s packet to the home at a tile, or, with no tile, at a slice: an access to the hart's own tile stays off the
loom (R12, R102). -/
def onLoom (s : State) (h : HartId) (tile : Option Nat) : State × Arrived :=
  if tile.isSome && tile == tileOf? h then (s, .whole) else travel s

/-! ## Serving an access that travels -/

/-- The space number of an access that travels (R89). -/
def accSpace (a : MemAcc) : Nat := if a.tile.isSome then 1 else 2

/-- The home of a load's word answers: the state, the bytes, and whether they are poisoned (R91, R94). -/
def homeRead (s : State) (h : HartId) (a : MemAcc) : State × Nat × Bool :=
  match a.tile with
  | some t =>
    let s := meetFlaws s t .l a.addr a.size
    (s, storeRead (getTile s t) .l a.addr a.size, storePoison (getTile s t) .l a.addr a.size)
  | none => sliceRead s h a.addr a.size

/-- A load is performed: a packet that arrives poisoned, or not at all, delivers zero, and poison is reported (R93, R94, R297 to
R299). -/
def loadAccess (s : State) (h : HartId) (a : MemAcc) (w : Width) : State × Nat :=
  if a.tile.isNone && lineCached s h a.addr then
    let (s, v, bad) := cacheHit s ((tileOf? h).getD 0) a.addr a.size
    (if bad then poisonReportAt s h a.pc (accSpace a) a.ea else s, loadValue w v)
  else
    match onLoom s h a.tile with
    | (s, .lost) => (poisonReportAt s h a.pc (accSpace a) a.ea, 0)
    | (s, .bad) => (poisonReportAt (homeRead s h a).1 h a.pc (accSpace a) a.ea, 0)
    | (s, .whole) =>
      let (s, v, bad) := homeRead s h a
      (if bad then poisonReportAt s h a.pc (accSpace a) a.ea else s, loadValue w v)

/-- The home writes a store's bytes (R91, R93). -/
def homeWrite (s : State) (h : HartId) (a : MemAcc) (v : Nat) : State :=
  match a.tile with
  | some t => modTile s t fun x => storeWrite x .l a.addr a.size v
  | none => cacheStore (physWrite s a.addr a.size v) h a.addr a.size v

/-- The granule or line of a write that arrived poisoned (R298). -/
def taintAt (s : State) (a : MemAcc) : State :=
  match a.tile with
  | some t => modTile s t fun x => storeTaint x .l a.addr a.size
  | none => taintLine s a.addr

/-- A store is performed: one that arrives poisoned leaves its granule poisoned, one that is lost leaves its target as it was, and
the writer reports either (R93, R298, R299). -/
def storeAccessDone (s : State) (h : HartId) (a : MemAcc) (v : Nat) : State :=
  match onLoom s h a.tile with
  | (s, .whole) => homeWrite s h a v
  | (s, .bad) => poisonReportAt (taintAt (homeWrite s h a v) a) h a.pc (accSpace a) a.ea
  | (s, .lost) => poisonReportAt s h a.pc (accSpace a) a.ea

/-- The address of a compact load or store (R44): a base of g8 to g15 and an unsigned offset in doublewords. -/
def compactAddr (a : EReg) (off : Nib) (h : Hart) : Word := rg h ⟨8 + a.val, by omega⟩ + w64 (off.val * 8)

/-- C.LDL.d: LDL.d with la = 0 (R44). -/
def execCLdlD (off : Nib) (a : EReg) (d : GReg) (s : State) : Out :=
  storeLoad threadOnly .l 2 0 (compactAddr a off) ⟨8 + a.val, by omega⟩ .dword d s

/-- C.STL.d: STL.d with la = 0 (R44). -/
def execCStlD (off : Nib) (a : EReg) (d : GReg) (s : State) : Out :=
  storeStore threadOnly .l 2 0 (compactAddr a off) ⟨8 + a.val, by omega⟩ .dword d s

end Sys2Proof.Machine
end

