-- ==== Sys2Proof/Machine/FullEmpty.lean ====
section
/-! DEFINITION. Full/empty loads and stores (R96 to R99). A request that is not served at once waits at the word's home. -/

namespace Sys2Proof.Machine

/-- The executing hart's request is lost on the way: it completes with zero and poison, its target as it was (R299); one to G drops the
tile's copy of its line (R91). -/
def lostRequest (r : FeReq) (s : State) : Out :=
  let s := if r.sp == .g then dropCached s r.hart r.addr else s
  .next (complete (feDeliver (poisonReport s r.hart (spaceNo r.sp) r.ea) r 0) r.hart r.next)

/-- A request of the executing hart goes to its home, at a tile or at a slice (R298, R299). -/
def sendRequest (tile : Option Nat) (r : FeReq) (s : State) (k : FeReq → State → Out) : Out :=
  match onLoom s s.cur tile with
  | (s, .whole) => k r s
  | (s, .bad) => k { r with bad := true } s
  | (s, .lost) => lostRequest r s

/-- A request of the executing hart reaches the home of tile `t`: it is served, waits, or is refused for a full list
(R98). -/
def tileRequest (t : Nat) (r : FeReq) (s : State) : Out :=
  if tileCan (getTile s t) r then .next (serveTileAll (tileServe s t r) t)
  else if (getTile s t).fe.length < 64 then
    park (.word r.sp r.ea.toNat) (modTile s t fun x => { x with fe := x.fe ++ [{ r with notes := s.reads }] })
  else park (.wordRetry r.sp r.ea.toNat (s.cycle + 64)) s

/-- A request of the executing hart reaches its slice (R98). -/
def sliceRequest (r : FeReq) (s : State) : Out :=
  let s := wakeSlice s r.addr
  if sliceCan s r then .next (serveSlicesAll (sliceServe s r))
  else if (s.gfe.filter fun q => sliceOf q.addr == sliceOf r.addr).length < 1024 then
    park (.word .g r.ea.toNat) { s with gfe := s.gfe ++ [{ r with notes := s.reads }] }
  else park (.wordRetry .g r.ea.toNat (s.cycle + 64)) s

/-- The unconditional forms at a tile: .x writes and sets full, .e sets empty; then the home serves its list (R97). -/
def tileSet (t off n : Nat) (v : Option Word) (s : State) : State :=
  serveTileAll (modTile s t fun x =>
    match v with
    | some v => lFill (storeWrite x .l off n v.toNat) (off / 4) (n / 4)
    | none => lDrain x (off / 4) (n / 4)) t

/-- The request of the executing hart, of an access of `n` bytes at `ea` whose home address is `addr`. -/
def feReq (s : State) (op : FeOp) (sp : AmoSpace) (ea : Word) (addr n : Nat) (d : GReg) : FeReq :=
  ⟨s.cur, op, addr, n, d, rg (me s) d, (me s).pc + 4, ea, sp, false, []⟩

/-- A full/empty access in M has reached tile `t`: it comes after the hart's earlier accesses to its bytes, and after the wake of a
tile whose L-store sleeps, and after the messages of its pair of tiles (R61, R64, R334). -/
def meshHome (t off n : Nat) (ea : Word) (s : State) (k : State → Out) : Out :=
  inOrder false (hereAcc (some t) off n ea) s fun s => pairOrder false t s fun s => awake t s k

/-- LDFL and LDFM (R97): a conditional load. -/
def feLoad (op : FeOp) (sp : AmoSpace) (imm : Imm8) (z : FeSize) (a d : GReg) (s : State) : Out :=
  inSet threadOnly s fun s => sources [gId a] s fun s => dests [gId d] s fun s =>
    let n := feSize z
    let ea := effAddr (me s) a imm n
    match sp with
    | .l => storeAccess .l n ea s fun s => tileRequest (myTile s) (feReq s op .l ea ea.toNat n d) s
    | _ => mAccess n true ea s fun t off s => meshHome t off n ea s fun s =>
        sendRequest (some t) (feReq s op .m ea off n d) s (tileRequest t)

/-- STFL.f and STFM.f (R97): a conditional store. -/
def feFill (sp : AmoSpace) (imm : Imm8) (z : FeSize) (a d : GReg) (s : State) : Out :=
  inSet threadOnly s fun s => sources [gId a, gId d] s fun s =>
    let n := feSize z
    let ea := effAddr (me s) a imm n
    match sp with
    | .l => storeAccess .l n ea s fun s => acked s fun s => tileRequest (myTile s) (feReq s .fill .l ea ea.toNat n d) s
    | _ => mAccess n true ea s fun t off s => acked s fun s => meshHome t off n ea s fun s =>
        sendRequest (some t) (feReq s .fill .m ea off n d) s (tileRequest t)

/-- The release of .x; .e has none (R97). -/
def released (v : Bool) (s : State) (k : State → Out) : Out := if v then acked s k else k s

/-- An unconditional store of M performed at tile `t`, as its packet arrives (R97, R298, R299); .e carries no data. -/
def meshSet (v : Bool) (t off n : Nat) (x : Option Word) (ea : Word) (s : State) : State :=
  match onLoom s s.cur (some t) with
  | (s, .whole) => tileSet t off n x s
  | (s, .bad) =>
    let s := tileSet t off n x s
    if v then poisonReport (modTile s t fun y => storeTaint y .l off n) s.cur 1 ea else s
  | (s, .lost) => poisonReport s s.cur 1 ea

/-- The unconditional stores .x and .e of L and M (R97); `v` says whether the word is written. -/
def feSet (v : Bool) (sp : AmoSpace) (imm : Imm8) (n : Nat) (a d : GReg) (s : State) : Out :=
  inSet threadOnly s fun s => sources (if v then [gId a, gId d] else [gId a]) s fun s =>
    let ea := effAddr (me s) a imm n
    let x := if v then some (rg (me s) d) else none
    match sp with
    | .l => storeAccess .l n ea s fun s => released v s fun s => done 4 (tileSet (myTile s) ea.toNat n x s)
    | _ => mAccess n true ea s fun t off s => released v s fun s => meshHome t off n ea s fun s =>
        done 4 (meshSet v t off n x ea s)

/-- LDFL.c (R97). -/
def execLdflC (imm : Imm8) (z : FeSize) (a d : GReg) (s : State) : Out := feLoad .consume .l imm z a d s
/-- LDFL.p (R97). -/
def execLdflP (imm : Imm8) (z : FeSize) (a d : GReg) (s : State) : Out := feLoad .peek .l imm z a d s
/-- STFL.f (R97). -/
def execStflF (imm : Imm8) (z : FeSize) (a d : GReg) (s : State) : Out := feFill .l imm z a d s
/-- STFL.x (R97). -/
def execStflX (imm : Imm8) (z : FeSize) (a d : GReg) (s : State) : Out := feSet true .l imm (feSize z) a d s
/-- STFL.e (R97). -/
def execStflE (imm : Imm8) (a : GReg) (s : State) : Out := feSet false .l imm 4 a 0 s
/-- LDFM.c (R97). -/
def execLdfmC (imm : Imm8) (z : FeSize) (a d : GReg) (s : State) : Out := feLoad .consume .m imm z a d s
/-- LDFM.p (R97). -/
def execLdfmP (imm : Imm8) (z : FeSize) (a d : GReg) (s : State) : Out := feLoad .peek .m imm z a d s
/-- STFM.f (R97). -/
def execStfmF (imm : Imm8) (z : FeSize) (a d : GReg) (s : State) : Out := feFill .m imm z a d s
/-- STFM.x (R97). -/
def execStfmX (imm : Imm8) (z : FeSize) (a d : GReg) (s : State) : Out := feSet true .m imm (feSize z) a d s
/-- STFM.e (R97). -/
def execStfmE (imm : Imm8) (a : GReg) (s : State) : Out := feSet false .m imm 4 a 0 s

/-- A full/empty access in G needs tagged memory: cause 0x34 on host memory, after the checks of R88 (R97). -/
def taggedAccess (need : Need) (ea : Word) (s : State) (k : Nat → State → Out) : Out :=
  gAccess 8 need ea s fun pa s => if isDevice pa then k pa s else trap 0x34 ea s

/-- LDFG (R97). -/
def feLoadG (op : FeOp) (need : Need) (imm : Imm8) (a d : GReg) (s : State) : Out :=
  inSet threadOrMender s fun s => sources [gId a] s fun s => dests [gId d] s fun s =>
    let ea := effAddr (me s) a imm 8
    taggedAccess need ea s fun pa s => inOrder false (hereAcc none pa 8 ea) s fun s =>
      sendRequest none (feReq s op .g ea pa 8 d) s sliceRequest

/-- LDFG.c (R97): needs read and write (R281). -/
def execLdfgC (imm : Imm8) (a d : GReg) (s : State) : Out := feLoadG .consume .readWrite imm a d s
/-- LDFG.p (R97). -/
def execLdfgP (imm : Imm8) (a d : GReg) (s : State) : Out := feLoadG .peek .read imm a d s

/-- STFG.f (R97). -/
def execStfgF (imm : Imm8) (a d : GReg) (s : State) : Out :=
  inSet threadOrMender s fun s => sources [gId a, gId d] s fun s =>
    let ea := effAddr (me s) a imm 8
    taggedAccess .write ea s fun pa s => acked s fun s => inOrder false (hereAcc none pa 8 ea) s fun s =>
      sendRequest none (feReq s .fill .g ea pa 8 d) s sliceRequest

/-- An unconditional store of G performed at its slice, as its packet arrives (R97, R298, R299); the tile's copy of its line is dropped
(R91). -/
def sliceSet (v : Bool) (pa : Nat) (x ea : Word) (s : State) : State :=
  let set (s : State) : State := serveSlicesAll (if v then gFill (physWrite s pa 8 x.toNat) pa else gDrain (wakeSlice s pa) pa)
  match onLoom (dropCached s s.cur pa) s.cur none with
  | (s, .whole) => set s
  | (s, .bad) => if v then poisonReport (taintLine (set s) pa) s.cur 2 ea else set s
  | (s, .lost) => poisonReport s s.cur 2 ea

/-- The unconditional stores .x and .e of G (R97). -/
def feSetG (v : Bool) (imm : Imm8) (a d : GReg) (s : State) : Out :=
  inSet threadOrMender s fun s => sources (if v then [gId a, gId d] else [gId a]) s fun s =>
    let x := rg (me s) d
    let ea := effAddr (me s) a imm 8
    taggedAccess .write ea s fun pa s => released v s fun s => inOrder false (hereAcc none pa 8 ea) s fun s =>
      done 4 (sliceSet v pa x ea s)

/-- STFG.x (R97). -/
def execStfgX (imm : Imm8) (a d : GReg) (s : State) : Out := feSetG true imm a d s
/-- STFG.e (R97). -/
def execStfgE (imm : Imm8) (a : GReg) (s : State) : Out := feSetG false imm a 0 s

end Sys2Proof.Machine
end

