-- ==== Sys2Proof/Machine/Atomic.lean ====
section
/-! DEFINITION. The atomics (R103 to R108), with the exact-sum cell, and FENCE (R109). -/

namespace Sys2Proof.Machine

/-- What an atomic does at the home, from the old bytes: the new bytes, what g[d] receives, and its flags. -/
structure AmoRes where
  new : Nat
  ret : Word
  fl : BitVec 5
deriving DecidableEq, Repr

/-- The FENCE.rel before an atomic that is .rel or .ar: it waits, in its slot, for the hart's outstanding operations (R54, R108,
R109). -/
def amoOrdered (o : AmoOrder) (s : State) (k : State → Out) : Out :=
  if o == .rel || o == .ar then heldDrained s k else k s

/-- The FENCE.acq after an atomic that is .acq or .ar: the atomic has been performed, and the hart goes on once no operation is
outstanding (R108, R109). -/
def amoAcquire (o : AmoOrder) (s : State) : Out :=
  if o == .acq || o == .ar then
    if (me s).out = [] then done 4 (acquire s s.cur) else park (.fence ((me s).pc + 4)) s
  else done 4 s

/-- The end of an atomic: g[d] is written, the flags are ORed, the acquire is made (R104, R108). -/
def amoFinish (o : AmoOrder) (d : Option GReg) (r : AmoRes) (s : State) : Out :=
  let s := raise r.fl s
  let s := match d with
    | some d => modMe s fun h => wg h d r.ret
    | none => s
  amoAcquire o s

/-- An atomic is performed on the `n` bytes at `acc` that its home holds: `old` are they, none where they are poisoned; `write` puts
the new ones, and `taint` poisons them (R94, R104, R105). What arrives poisoned is stored poisoned, and zero is delivered (R298;
log 27). -/
def amoHome (sp : Nat) (bad : Bool) (o : AmoOrder) (d : Option GReg) (ea : Word) (old : Option Nat) (f : Nat → AmoRes)
    (write : Nat → State → State) (taint : State → State) (s : State) : Out :=
  match old with
  | none => amoFinish o d ⟨0, 0, 0⟩ (poisonReport s s.cur sp ea)
  | some v =>
    let r := f v
    if bad then amoFinish o d ⟨r.new, 0, 0⟩ (poisonReport (taint (write r.new s)) s.cur sp ea)
    else amoFinish o d r (write r.new s)

/-- An atomic of `n` bytes on tile `t`'s L-store at `off`; `sp` is the space number of a poison report (R94, R104, R105). -/
def amoTile (t off n sp : Nat) (bad : Bool) (o : AmoOrder) (d : Option GReg) (ea : Word) (f : Nat → AmoRes) (s : State) : Out :=
  let s := meetFlaws s t .l off n
  let x := getTile s t
  amoHome sp bad o d ea (if storePoison x .l off n then none else some (storeRead x .l off n)) f
    (fun v s => modTile s t fun x => storeWrite x .l off n v) (fun s => modTile s t fun x => storeTaint x .l off n) s

/-- An atomic of `n` bytes in G at its slice (R103, R104, R105, R108). -/
def amoG (pa n : Nat) (bad : Bool) (o : AmoOrder) (d : Option GReg) (ea : Word) (f : Nat → AmoRes) (s : State) : Out :=
  let s := wakeSlice s pa
  amoHome 2 bad o d ea (if physPoison s pa n then none else some (physRead s pa n)) f (fun v s => physWrite s pa n v)
    (fun s => taintLine s pa) s

/-- An atomic goes to its home, at a tile or at a slice; one that is lost on the way leaves its target as it was and delivers zero
(R298, R299). -/
def amoSend (tile : Option Nat) (sp : Nat) (o : AmoOrder) (d : Option GReg) (ea : Word) (s : State) (k : Bool → State → Out) : Out :=
  match onLoom s s.cur tile with
  | (s, .whole) => k false s
  | (s, .bad) => k true s
  | (s, .lost) => amoFinish o d ⟨0, 0, 0⟩ (poisonReport s s.cur sp ea)

/-- An atomic (R103): AMOL and AMOM run on tile threads, AMOG on menders too (R48); AMOG drops the tile's copy of its line, whatever
becomes of it (R91). -/
def amo (n : Nat) (sp : AmoSpace) (o : AmoOrder) (d : Option GReg) (srcs : List GReg) (a : GReg) (f : Hart → Nat → AmoRes)
    (s : State) : Out :=
  inSet (if sp == .g then threadOrMender else threadOnly) s fun s =>
    sources (gId a :: srcs.map gId) s fun s => dests (d.toList.map gId) s fun s => amoOrdered o s fun s =>
      let h := me s
      let ea := rg h a
      match sp with
      | .l => storeAccess .l n ea s fun s => amoTile (myTile s) ea.toNat n 0 false o d ea (f h) s
      | .m => mAccess n false ea s fun t off s => inOrder true (hereAcc (some t) off n ea) s fun s => pairOrder true t s fun s =>
          awake t s fun s => amoSend (some t) 1 o d ea s fun bad s => amoTile t off n 1 bad o d ea (f h) s
      | .g => gAccess n .readWrite ea s fun pa s => inOrder true (hereAcc none pa n ea) s fun s =>
          amoSend none 2 o d ea (dropCached s s.cur pa) fun bad s => amoG pa n bad o d ea (f h) s

/-- A doubleword atomic with the new value `f old B` (R104). -/
def amoD (f : Word → Word → Word) (sp : AmoSpace) (o : AmoOrder) (d b a : GReg) (s : State) : Out :=
  amo 8 sp o (some d) [b] a (fun h old => ⟨(f (w64 old) (rg h b)).toNat, w64 old, 0⟩) s

/-- A word atomic with the new value `f old B`; g[d] receives SExt(old) (R104). -/
def amoW (f : Nat → Nat → Nat) (sp : AmoSpace) (o : AmoOrder) (d b a : GReg) (s : State) : Out :=
  amo 4 sp o (some d) [b] a
    (fun h old => ⟨f old ((rg h b).toNat % 2 ^ 32), i64 (sextNat 32 old), 0⟩) s

/-- An FP32 atomic (R104); g[d] receives ZExt(old). -/
def amoF (f : Nat → Nat → Nat × BitVec 5) (sp : AmoSpace) (o : AmoOrder) (d b a : GReg) (s : State) : Out :=
  amo 4 sp o (some d) [b] a
    (fun h old => let r := f old ((rg h b).toNat % 2 ^ 32); ⟨r.1, w64 old, r.2⟩) s

/-- AMO ADD.w (R104). -/
def execAmoAddW (sp : AmoSpace) (o : AmoOrder) (_sc : Scope) (d b a : GReg) (s : State) : Out :=
  amoW (fun x y => (x + y) % 2 ^ 32) sp o d b a s
/-- AMO ADD.d (R104). -/
def execAmoAddD (sp : AmoSpace) (o : AmoOrder) (_sc : Scope) (d b a : GReg) (s : State) : Out :=
  amoD (fun x y => x + y) sp o d b a s
/-- AMO AND.d (R104). -/
def execAmoAndD (sp : AmoSpace) (o : AmoOrder) (_sc : Scope) (d b a : GReg) (s : State) : Out :=
  amoD (fun x y => x &&& y) sp o d b a s
/-- AMO OR.d (R104). -/
def execAmoOrD (sp : AmoSpace) (o : AmoOrder) (_sc : Scope) (d b a : GReg) (s : State) : Out :=
  amoD (fun x y => x ||| y) sp o d b a s
/-- AMO XOR.d (R104). -/
def execAmoXorD (sp : AmoSpace) (o : AmoOrder) (_sc : Scope) (d b a : GReg) (s : State) : Out :=
  amoD (fun x y => x ^^^ y) sp o d b a s
/-- AMO MIN.d (R104). -/
def execAmoMinD (sp : AmoSpace) (o : AmoOrder) (_sc : Scope) (d b a : GReg) (s : State) : Out :=
  amoD (fun x y => if x.slt y then x else y) sp o d b a s
/-- AMO MAX.d (R104). -/
def execAmoMaxD (sp : AmoSpace) (o : AmoOrder) (_sc : Scope) (d b a : GReg) (s : State) : Out :=
  amoD (fun x y => if x.slt y then y else x) sp o d b a s
/-- AMO MINN.d (R104). -/
def execAmoMinnD (sp : AmoSpace) (o : AmoOrder) (_sc : Scope) (d b a : GReg) (s : State) : Out :=
  amoD (fun x y => if x.ult y then x else y) sp o d b a s
/-- AMO MAXN.d (R104). -/
def execAmoMaxnD (sp : AmoSpace) (o : AmoOrder) (_sc : Scope) (d b a : GReg) (s : State) : Out :=
  amoD (fun x y => if x.ult y then y else x) sp o d b a s
/-- AMO SWAP.w (R104). -/
def execAmoSwapW (sp : AmoSpace) (o : AmoOrder) (_sc : Scope) (d b a : GReg) (s : State) : Out :=
  amoW (fun _ y => y) sp o d b a s
/-- AMO SWAP.d (R104). -/
def execAmoSwapD (sp : AmoSpace) (o : AmoOrder) (_sc : Scope) (d b a : GReg) (s : State) : Out :=
  amoD (fun _ y => y) sp o d b a s
/-- AMO CAS.w (R104): d is read. -/
def execAmoCasW (sp : AmoSpace) (o : AmoOrder) (_sc : Scope) (d b a : GReg) (s : State) : Out :=
  amo 4 sp o (some d) [b, d] a (fun h old =>
    ⟨if old = (rg h d).toNat % 2 ^ 32 then (rg h b).toNat % 2 ^ 32 else old, i64 (sextNat 32 old), 0⟩) s
/-- AMO CAS.d (R104): d is read. -/
def execAmoCasD (sp : AmoSpace) (o : AmoOrder) (_sc : Scope) (d b a : GReg) (s : State) : Out :=
  amo 8 sp o (some d) [b, d] a (fun h old =>
    ⟨if old = (rg h d).toNat then (rg h b).toNat else old, w64 old, 0⟩) s
/-- AMO FADD.u (R104). -/
def execAmoFaddU (sp : AmoSpace) (o : AmoOrder) (_sc : Scope) (d b a : GReg) (s : State) : Out :=
  amoF add32 sp o d b a s
/-- AMO FMAX (R104). -/
def execAmoFmax (sp : AmoSpace) (o : AmoOrder) (_sc : Scope) (d b a : GReg) (s : State) : Out :=
  amoF (fun x y => (max32 x y, 0)) sp o d b a s
/-- AMO FMIN (R104). -/
def execAmoFmin (sp : AmoSpace) (o : AmoOrder) (_sc : Scope) (d b a : GReg) (s : State) : Out :=
  amoF (fun x y => (min32 x y, 0)) sp o d b a s

/-! ## The exact-sum cell (R106, R107) -/

/-- The fields of a cell: the sum as an integer, the four flags in bits 0 to 3 (PINF, NINF, NAN, OVF), the count. -/
def cellSum (c : Nat) : Int := sextNat 320 c
def cellBits (c : Nat) : Nat := bits c 320 4
def cellCount (c : Nat) : Nat := bits c 384 64

/-- Replaces the fields of a cell; the reserved bits stay (R106). -/
def cellPut (c : Nat) (sum : Int) (fl count : Nat) : Nat :=
  (sum % (2 ^ 320 : Nat)).toNat + fl % 16 * 2 ^ 320 + bits c 324 60 * 2 ^ 324 + count % 2 ^ 64 * 2 ^ 384 +
    bits c 448 64 * 2 ^ 448

/-- ESADD of the FP32 word `x` (R107). -/
def cellAdd (c x : Nat) : Nat :=
  let n := cellCount c + 1
  match fv x with
  | .nan => cellPut c (cellSum c) (cellBits c ||| 4) n
  | .inf neg => cellPut c (cellSum c) (cellBits c ||| (if neg then 2 else 1)) n
  | .fin neg m e =>
    let k : Int := (m * 2 ^ (e + 149).toNat : Nat)
    let t := cellSum c + (if neg then -k else k)
    let out := decide (t < -(2 ^ 319 : Nat)) || decide ((2 ^ 319 : Nat) ≤ t)
    cellPut c t (cellBits c ||| (if out then 8 else 0)) n

/-- ESRD: the value and its flags (R107). -/
def cellRead (c : Nat) : Nat × BitVec 5 :=
  let b := cellBits c
  if bitAt b 2 then (nan32, 0)
  else if bitAt b 3 || (bitAt b 0 && bitAt b 1) then (nan32, NV)
  else if bitAt b 0 then (0x7F80_0000, 0)
  else if bitAt b 1 then (0xFF80_0000, 0)
  else
    let t := cellSum c
    rne32 (.fin (decide (t < 0)) t.natAbs (-149))

/-- AMO ESADD (R107). -/
def execAmoEsadd (sp : AmoSpace) (o : AmoOrder) (_sc : Scope) (b a : GReg) (s : State) : Out :=
  amo 64 sp o none [b] a (fun h old => ⟨cellAdd old ((rg h b).toNat % 2 ^ 32), 0, 0⟩) s
/-- AMO ESRD (R107). -/
def execAmoEsrd (sp : AmoSpace) (o : AmoOrder) (_sc : Scope) (d a : GReg) (s : State) : Out :=
  amo 64 sp o (some d) [] a (fun _ old => let r := cellRead old; ⟨old, w64 r.1, r.2⟩) s
/-- AMO ESCLR (R107). -/
def execAmoEsclr (sp : AmoSpace) (o : AmoOrder) (_sc : Scope) (a : GReg) (s : State) : Out :=
  amo 64 sp o none [] a (fun _ old => ⟨cellPut old 0 0 0, 0, 0⟩) s

/-! ## FENCE (R109): a store is acknowledged in the step that performs it, and has completed for its thread before (log 3, log 47); it is
then visible at .sys scope, so nothing depends on the scope (log 17) -/

/-- FENCE.acq (R109). -/
def execFenceAcq (s : State) : Out :=
  inSet threadOrMender s fun s => finished false s fun s => done 4 (acquire s s.cur)
/-- FENCE.rel (R109). -/
def execFenceRel (s : State) : Out := inSet threadOrMender s fun s => drained s (done 4)
/-- FENCE.full (R109). -/
def execFenceFull (s : State) : Out :=
  inSet threadOrMender s fun s => drained s fun s => done 4 (acquire s s.cur)
/-- FENCE.lb (R109). -/
def execFenceLb (s : State) : Out := inSet threadOrMender s fun s => finished true s (done 4)

end Sys2Proof.Machine
end

