-- ==== Sys2Proof/Machine/Branch.lean ====
section
/-! DEFINITION. Branches and jumps (R75, R76) and their compact forms (R44, R45). -/

namespace Sys2Proof.Machine

/-- A branch of `len` bytes: taken when `f A B` holds (R75). -/
def branch (f : Word → Word → Bool) (len : Nat) (a b : GReg) (off : Off12) (s : State) : Out :=
  inSet allHarts s fun s => sources [gId a, gId b] s fun s =>
    if f (rg (me s) a) (rg (me s) b) then goto (brTarget (me s).pc off) s else done len s

/-- A branch on bit `bit` of A (R75). -/
def branchBit (v : Bool) (a bit : GReg) (off : Off12) (s : State) : Out :=
  inSet allHarts s fun s => sources [gId a] s fun s =>
    if (rg (me s) a).getLsbD bit.val = v then goto (brTarget (me s).pc off) s else done 4 s

/-- BEQ (R75). -/
def execBeq (a b : GReg) (off : Off12) (s : State) : Out := branch (fun x y => x == y) 4 a b off s
/-- BNE (R75). -/
def execBne (a b : GReg) (off : Off12) (s : State) : Out := branch (fun x y => x != y) 4 a b off s
/-- BLT (R75). -/
def execBlt (a b : GReg) (off : Off12) (s : State) : Out := branch (fun x y => x.slt y) 4 a b off s
/-- BGE (R75). -/
def execBge (a b : GReg) (off : Off12) (s : State) : Out := branch (fun x y => !x.slt y) 4 a b off s
/-- BLTN (R75). -/
def execBltn (a b : GReg) (off : Off12) (s : State) : Out := branch (fun x y => x.ult y) 4 a b off s
/-- BGEN (R75). -/
def execBgen (a b : GReg) (off : Off12) (s : State) : Out := branch (fun x y => !x.ult y) 4 a b off s
/-- BBS (R75). -/
def execBbs (a bit : GReg) (off : Off12) (s : State) : Out := branchBit true a bit off s
/-- BBC (R75). -/
def execBbc (a bit : GReg) (off : Off12) (s : State) : Out := branchBit false a bit off s

/-- g[d] := the address after the instruction; pc := the target. -/
def link (d : GReg) (len : Nat) (target : Word) (s : State) : Out :=
  goto target (modMe s fun h => wg h d (h.pc + w64 len))

/-- JAL (R76). -/
def execJal (d : GReg) (off : Off20) (s : State) : Out :=
  inSet allHarts s fun s => dests [gId d] s fun s => link d 4 (jalTarget (me s).pc off) s

/-- JALR (R76): a misaligned target traps with g[d] not written. R60 does not order its lookahead hazard against that trap: the model
takes 0x02 first (DESIGN CHOICE; log 43). -/
def jumpReg (d a : GReg) (imm : Imm15) (len : Nat) (s : State) : Out :=
  inSet threadOrMender s fun s => sources [gId a] s fun s => dests [gId d] s fun s =>
    let t := rg (me s) a + immI imm
    if t.getLsbD 0 then trap 0x08 t s else link d len t s

/-- JALR (R76). -/
def execJalr (d a : GReg) (imm : Imm15) (s : State) : Out := jumpReg d a imm 4 s

/-- C.BEQZ: BEQ a, g0 (R44). -/
def execCBeqz (off : Imm7) (a : GReg) (s : State) : Out := branch (fun x y => x == y) 2 a 0 (off.signExtend 12) s
/-- C.BNEZ: BNE a, g0 (R44). -/
def execCBnez (off : Imm7) (a : GReg) (s : State) : Out := branch (fun x y => x != y) 2 a 0 (off.signExtend 12) s
/-- C.J: JAL g0 (R44). -/
def execCJ (off : Off12) (s : State) : Out := inSet allHarts s fun s => link 0 2 (brTarget (me s).pc off) s
/-- C.SYS RET: JALR g0, g1, 0 (R45). -/
def execCRet (s : State) : Out := jumpReg 0 1 0 2 s

end Sys2Proof.Machine
end

