-- ==== Sys2Proof/Machine/Thread.lean ====
section
/-! DEFINITION. THR (R78 to R85), SPAWN (R247 to R250) and work lists (R251, R252). -/

namespace Sys2Proof.Machine

/-! ## Leaving and entering a slot -/

/-- The fills that wait for a slot that has become *free* are discarded, and their PUTRs complete (R84). -/
def dropFills (s : State) (t : Nat) (i : Fin 10) : State :=
  let gone := (getTile s t).fills.filter (·.slot == i)
  let s := modTile s t fun x => { x with fills := x.fills.filter (·.slot != i) }
  gone.foldl (fun s f => match f.sender with
    | some h => awaitDone s h (.fill f.id)
    | none => s) s

/-- The copies of a thread that leaves its slot run on (R79). -/
def orphanCopies (s : State) (t : Nat) (i : Fin 10) : State :=
  modTile s t fun x => { x with copies := x.copies.map fun c => if c.hart = .tile t i then { c with orphan := true } else c }

/-- A slot becomes *free* (R51, R79, R84). -/
def freeSlot (s : State) (t : Nat) (i : Fin 10) : State :=
  let s := orphanCopies s t i
  dropFills (modHart s (.tile t i) fun x => { x with status := .free, fork := [], forkFaults := [], yield := [] }) t i

/-- A thread leaves *free* (R55): its registers are set, g8 to g11 hold the arguments. -/
def freshThread (pc path : Word) (sup : Bool) (args : Vector Word 4) : Hart :=
  let h := { Hart.reset with status := .ready, pc := pc, path := path, sup := sup }
  wg (wg (wg (wg h 8 (args.get 0)) 9 (args.get 1)) 10 (args.get 2)) 11 (args.get 3)

/-- EXIT (R79, R250): the slot becomes free, or the inline child returns to its parent. -/
def exitThread (s : State) : Out :=
  inSet threadOnly s fun s => drained s fun s =>
    match (me s).stack, s.cur with
    | f :: r, _ => goto f.ret (modMe s fun x => { wg x f.d 0 with stack := r, path := f.path })
    | [], .tile t i => .next (freeSlot s t i)
    | [], .mender _ _ => done 4 s

/-- EXIT (R79). -/
def execExit (s : State) : Out := exitThread s
/-- C.SYS EXIT (R45). -/
def execCExit (s : State) : Out := exitThread s

/-! ## YIELD, CLRE, ISFULL, TID -/

/-- The status is that of a slot that is *ready*, or that may be: one that is parked is, when its reason has cleared. -/
def mayBeReady (st : Status) : Bool :=
  match st with
  | .ready | .parked _ => true
  | .free | .inline | .trapped | .posting _ _ _ => false

/-- The other slots of the tile that may be *ready*; the end of the step drops those that are not (`pruneYield`). -/
def otherReady (s : State) : List (Fin 10) :=
  (List.finRange 10).filter fun i =>
    i.val < 8 && i.val != slotOf s.cur && mayBeReady ((getTile s (myTile s)).harts.get i).status

/-- YIELD (R80), of `len` bytes: the slot stays out until each of the others has issued or left *ready*. -/
def yieldThread (len : Nat) (s : State) : Out :=
  inSet threadOnly s fun s => done len (modMe s fun x => { x with yield := otherReady s })

/-- YIELD (R80). -/
def execYield (s : State) : Out := yieldThread 4 s
/-- C.SYS YIELD (R45). -/
def execCYield (s : State) : Out := yieldThread 2 s

/-- The register that CLRE names (R81). -/
def clreReg (c : ClreClass) (i : GReg) : RegId :=
  match c with
  | .g => ⟨.g, i.val⟩
  | .e => ⟨.e, i.val⟩
  | .v => ⟨.v, i.val⟩

/-- CLRE (R81), of `len` bytes. -/
def clearReg (len : Nat) (r : RegId) (s : State) : Out :=
  inSet threadOnly s fun s => dests [r] s fun s => done len (modMe s fun x => emptyHartReg x r)

/-- CLRE (R81). -/
def execClre (c : ClreClass) (i : GReg) (s : State) : Out := clearReg 4 (clreReg c i) s

/-- C.SYS CLRE (R45). -/
def execCClre (d : GReg) (s : State) : Out := clearReg 2 (gId d) s

/-- ISFULL (R82). -/
def execIsfull (d : GReg) (c : RegClass) (i : GReg) (s : State) : Out :=
  inSet threadOnly s fun s => dests [gId d] s fun s =>
    done 4 (modMe s fun x => wg x d (if regFull s s.cur ⟨c, i.val⟩ then 1 else 0))

/-- TID (R85). -/
def execTid (d : GReg) (s : State) : Out :=
  inSet threadOnly s fun s => dests [gId d] s fun s =>
    done 4 (modMe s fun x => wg x d (w64 (myTile s * 8 + slotOf s.cur)))

/-! ## PUTR (R83, R84) -/

/-- The register that a designation of R83 names; none when it is out of range. -/
def putrReg (v : Nat) : Option RegId :=
  if v / 2 ^ 29 ≠ 0 ∨ bits v 19 1 ≠ 0 ∨ bits v 22 2 ≠ 0 then none
  else
    match bits v 20 2, bits v 24 5 with
    | 0, 0 => none
    | 0, i => some ⟨.g, i⟩
    | 1, i => if i < 8 then some ⟨.e, i⟩ else none
    | _, _ => none

/-- The target tile of a designation (R83); none outside the mesh. -/
def putrTile (v : Nat) : Option Nat := if bits v 0 8 > 71 ∨ bits v 8 8 > 63 then none else some (tileAt (bits v 0 8) (bits v 8 8))

/-- The target slot of a designation (R83). -/
def putrSlot (v : Nat) : Fin 10 := Fin.ofNat 10 (bits v 16 3)

/-- The checks at the target tile (R84): inside the issuing thread's partition, not slot 7, not *free*. -/
def putrTargetOk (s : State) (t u : Nat) (i : Fin 10) : Bool :=
  (partOf s t).isSome && partOf s u == partOf s t && i.val < 7 && ((getTile s u).harts.get i).status != .free

/-- PUTR (R84). One that is lost on the way completes with its target as it was; a value that arrives poisoned fills the register with
poison; either is reported with the designation (R298, R299; log 44). -/
def execPutr (la : La) (a b : GReg) (s : State) : Out :=
  inSet threadOnly s fun s => sources [gId a, gId b] s fun s => roomForLong s fun s =>
    let v := (rg (me s) a).toNat
    match putrReg v, putrTile v with
    | some r, some u =>
      if !putrTargetOk s (myTile s) u (putrSlot v) then trap 0x15 (rg (me s) a) s
      else acked s fun s => pairOrder false u s fun s =>
        if (getTile s u).fills.length ≥ 8 then park (.putrRetry (s.cycle + 64)) s
        else
          let ea := rg (me s) a
          match onLoom s s.cur (some u) with
          | (s, .lost) => issueLong 4 la.val 0 (longOp []) (poisonReport s s.cur 1 ea)
          | (s, w) =>
            let s := if w == .bad then poisonReport s s.cur 1 ea else s
            let (s, id) := freshId s
            let f : Fill := ⟨id, putrSlot v, r, rg (me s) b, some s.cur, w == .bad⟩
            issueAwait 4 la.val (.fill id) (modTile s u fun x => { x with fills := x.fills ++ [f] })
    | _, _ => trap 0x15 (rg (me s) a) s

/-! ## SPAWN (R247 to R249) -/

/-- path.depth and gid.w, gid.h, gid.ox, gid.oy (R246, R247). -/
def pathDepth (p : Word) : Nat := bits p.toNat 16 3
def gidOx (g : Word) : Nat := bits g.toNat 0 8
def gidOy (g : Word) : Nat := bits g.toNat 8 8
def gidW (g : Word) : Nat := bits g.toNat 16 8
def gidH (g : Word) : Nat := bits g.toNat 24 8

/-- A path extended by a child index (R247). -/
def childPath (p : Word) (idx : Nat) : Word :=
  w64 (p.toNat + 2 ^ 16 + idx % 256 * 2 ^ (24 + 8 * pathDepth p))

/-- The tile that SPAWN.h gives a path (R249). -/
def hashTile (gid cp : Word) : Nat :=
  let hv := cp.toNat * 0x9E37_79B9_7F4A_7C15 % 2 ^ 64
  let i := hv / 2 ^ 32 * (gidW gid * gidH gid) / 2 ^ 32
  tileAt (gidOx gid + i % gidW gid) (gidOy gid + i / gidW gid)

/-- A tile lies inside the rectangle of a gid. -/
def inGid (gid : Word) (x y : Nat) : Bool :=
  decide (gidOx gid ≤ x ∧ x < gidOx gid + gidW gid ∧ gidOy gid ≤ y ∧ y < gidOy gid + gidH gid)

/-- SPAWN and SPAWN.h (R249): after the checks the thread waits for the target's answer, SPAWN_ANSWER. A request that is lost on the
way starts no child; it is reported, and g[d] receives zero (R299; log 44). -/
def spawnThread (hashed : Bool) (d a b : GReg) (s : State) : Out :=
  inSet threadOnly s fun s => sources [gId a, gId b] s fun s => dests [gId d] s fun s =>
    let h := me s
    let w := (rg h a).toNat
    let p := rg h b
    let gid := (getTile s (myTile s)).gid
    if w / 2 ^ 24 ≠ 0 ∨ (hashed ∧ w % 2 ^ 16 ≠ 0) then trap 0x15 (rg h a) s
    else if p.getLsbD 0 then trap 0x08 p s
    else if pathDepth h.path = 5 then trap 0x0C h.path s
    else if !hashed && !inGid gid (bits w 0 8) (bits w 8 8) then trap 0x15 (rg h a) s
    else acked s fun s =>
      let cp := childPath h.path (bits w 16 8)
      let u := if hashed then hashTile gid cp else tileAt (bits w 0 8) (bits w 8 8)
      match onLoom s s.cur (some u) with
      | (s, .lost) => done 4 (modMe (poisonReport s s.cur 1 (rg h a)) fun x => wg x d 0)
      | (s, v) =>
        let (s, id) := freshId s
        let m : Msg :=
          { id := id, hart := s.cur, ctx := hartCtx s s.cur, target := u,
            body := .spawn p #v[rg h 8, rg h 9, rg h 10, rg h 11] cp h.sup d (rg h a) (h.pc + 4),
            since := s.cycle, escape := false, bad := v == .bad, notes := s.reads }
        park (.spawn id) { s with msgs := s.msgs ++ [m] }

/-- SPAWN (R248). -/
def execSpawn (d a b : GReg) (s : State) : Out := spawnThread false d a b s
/-- SPAWN.h (R248). -/
def execSpawnH (d a b : GReg) (s : State) : Out := spawnThread true d a b s

/-- The lowest *free* candidate slot of a tile (R249). -/
def freeCandidate (t : Tile) : Option (Fin 10) :=
  (List.finRange 10).find? fun i => i.val < t.slots && (t.harts.get i).status == .free

/-- The arguments of a child whose request arrived poisoned are poisoned (R298; log 44). -/
def badArgs (h : Hart) : Hart :=
  { wg (wg (wg (wg h 8 0) 9 0) 10 0) 11 0 with flaws := [8, 9, 10, 11].map fun i => (CellLoc.reg ⟨.g, i⟩, Flaw.found) }

/-- A child starts on a slot after the group's release: it counts as arrived at the tile's step and at the open barrier
generations, and its first read is an acquire (R132, R146, R147, R249). -/
def startChild (s : State) (t : Nat) (i : Fin 10) (h : Hart) : State :=
  modTile s t fun x =>
    { x with harts := x.harts.set i { h with bar := vmap x.gen (· + 1) },
             arrived := x.arrived ||| (1#7 <<< i.val), barArr := vmap x.barArr (· ||| (1#7 <<< i.val)), gcache := [] }

/-- The sender of a SPAWN is there and waits for its answer. -/
def spawnWaits (s : State) (m : Msg) : Bool := (getHart s m.hart).status == .parked (.spawn m.id)

/-- SPAWN_ANSWER (R249): the target answers; the child starts on its lowest free slot, or runs inline in its parent. A slot keeps the
time of its last issue (R53). -/
def execSpawnAnswer (s : State) : Out :=
  match s.ev with
  | .msg id =>
    match s.msgs.find? (·.id == id) with
    | some m =>
      match m.body with
      | .spawn pc args path sup d word next =>
        if !spawnWaits s m then .next s
        else
        let s := { s with msgs := s.msgs.filter (·.id != id) }
        match freeCandidate (getTile s m.target) with
        | some i =>
          let c := { freshThread pc path sup args with issued := (getHart s (.tile m.target i)).issued }
          let s := startChild s m.target i (if m.bad then badArgs c else c)
          let s := if m.bad then poisonReport s m.hart 1 word else s
          .next (complete (modHart (commitNotes s m.notes) m.hart fun x => wg x d 1) m.hart next)
        | none =>
          if (getHart s m.hart).stack.length = 15 then .next (trapOn s m.hart 0x0C word)
          else
            .next (complete (modHart (commitNotes s m.notes) m.hart fun x => { x with stack := ⟨next, d, x.path⟩ :: x.stack, path := path })
              m.hart pc)
      | .post _ _ _ => .next s
    | none => .next s
  | _ => .next s

/-! ## Work lists (R251, R252) -/

/-- WLPUSH (R252): it holds its slot while its release waits (R54). -/
def execWlpush (d a b : GReg) (s : State) : Out :=
  inSet threadOnly s fun s => sources [gId a, gId b] s fun s => dests [gId d] s fun s => heldAcked s fun s =>
    let h := me s
    if (getTile s (myTile s)).work.length < 64 then
      let s := modTile s (myTile s) fun t => { t with work := ⟨rg h a, rg h b, none⟩ :: t.work }
      done 4 (modMe s fun x => wg x d 1)
    else done 4 (modMe s fun x => wg x d 0)

/-- WLPOP (R252): a successful one is an acquire; a poisoned entry is popped as zeros (R296). -/
def execWlpop (d a : GReg) (s : State) : Out :=
  inSet threadOnly s fun s => dests [gId d, gId a] s fun s =>
    match (getTile s (myTile s)).work with
    | p :: r =>
      let s := modTile s (myTile s) fun t => { t with work := r }
      let (s, bad) := readEntry s s.cur p.flaw
      done 4 (acquire (modMe s fun h => { wg (wg h d (if bad then 0 else p.x)) a 1 with wlx := if bad then 0 else p.y }) s.cur)
    | [] => done 4 (modMe s fun h => wg h a 0)

/-- WLCNT (R252). -/
def execWlcnt (d : GReg) (s : State) : Out :=
  inSet threadOnly s fun s => dests [gId d] s fun s =>
    done 4 (modMe s fun h => wg h d (w64 (getTile s (myTile s)).work.length))

end Sys2Proof.Machine
end

