-- ==== Sys2Proof/Machine/Copy.lean ====
section
/-! DEFINITION. The copy channel (R183 to R190). -/

namespace Sys2Proof.Machine

/-! ## Endpoints and shapes (R183, R184) -/

/-- The space of a local endpoint. -/
def epStore (v : Nat) : Store :=
  match bits v 18 2 with
  | 0 => .l
  | 1 => .w
  | 2 => .a
  | _ => .c

/-- REG, offset and tile of an endpoint. -/
def epReg (v : Nat) : Bool := bitAt v 63
def epOff (v : Nat) : Nat := bits v 0 18
def epX (v : Nat) : Nat := bits v 20 8
def epY (v : Nat) : Nat := bits v 28 8

/-- Fields of a shape; the strides in bytes. -/
def shLen (v : Nat) : Nat := bits v 0 16
def shRows (v : Nat) : Nat := bits v 16 16
def shSrc (v : Nat) : Int := sextNat 16 (bits v 32 16) * 4
def shDst (v : Nat) : Int := sextNat 16 (bits v 48 16) * 4

/-- The source, or the destination, of a direction is local. -/
def srcLocal (d : CopyDir) : Bool := d == .lm || d == .lg
def dstLocal (d : CopyDir) : Bool := d == .lm || d == .gl

/-- A reserved bit of a local or register endpoint is set; `xy` says that a tile may stand in it. -/
def epReserved (xy : Bool) (v : Nat) : Bool :=
  if epReg v then bits v 29 34 != 0 else bits v 36 27 != 0 || (!xy && bits v 20 16 != 0)

/-- The lowest and the highest byte over all rows of an endpoint. -/
def lowByte (off stride : Int) (rows : Nat) : Int := off + min 0 (((rows : Int) - 1) * stride)
def highByte (off stride : Int) (rows len : Nat) : Int := off + max 0 (((rows : Int) - 1) * stride) + len - 1

/-- The range check of a local endpoint: the trap's cause and byte (R186). -/
def epRange (v : Nat) (stride : Int) (rows len : Nat) : Option (Nat × Word) :=
  let x := epStore v
  let lo := lowByte (epOff v) stride rows
  let hi := highByte (epOff v) stride rows len
  if lo < 0 then some (0x11 + 4 * x.space, i64 lo)
  else if hi ≥ x.size then some (0x11 + 4 * x.space, i64 hi)
  else none

/-- The alignment check of an endpoint: the trap's cause and address (R186). -/
def epAlign (loc : Bool) (v : Word) : Option (Nat × Word) :=
  if loc then
    if epReg v.toNat ∨ epOff v.toNat % 4 = 0 then none else some (0x10 + 4 * (epStore v.toNat).space, w64 (epOff v.toNat))
  else if v.toNat % 4 = 0 then none else some (0x18, v)

/-- A G endpoint is canonical for the context. -/
def epCanonical (s : State) (c : Nat) (v : Word) : Bool :=
  match alGet s.ctxs c with
  | some x => canonical x.tfd v.toNat
  | none => false

/-- The first check of R186 that fails, as the trap it raises. -/
def copyFault (s : State) (dir : CopyDir) (src dst sh : Word) : Option (Nat × Word) :=
  let sv := src.toNat
  let dv := dst.toNat
  let h := sh.toNat
  let len := shLen h
  let rows := shRows h
  let c := hartCtx s s.cur
  let sl := srcLocal dir
  let dl := dstLocal dir
  let reg := dl && epReg dv
  if sl && epReserved false sv then some (0x01, src)
  else if dl && epReserved (dir == .lm) dv then some (0x01, dst)
  else if len = 0 ∨ len % 4 ≠ 0 ∨ rows = 0 then some (0x42, sh)
  else if reg && (len != 8 || rows != 1) then some (0x42, sh)
  else if sl && epReg sv then some (0x42, src)
  else
    ((epAlign sl src <|> epAlign dl dst) <|>
      ((if sl then epRange sv (shSrc h) rows len else none) <|>
        (if dl && !reg then epRange dv (shDst h) rows len else none))) <|>
      (if dir == .lm && !reg && (decide (epX dv > 71) || decide (epY dv > 63) ||
          !inCtxParts s c (tileAt (epX dv) (epY dv))) then some (0x15, dst)
      else if !sl && !epCanonical s c src then some (0x19, src)
      else if !dl && !epCanonical s c dst then some (0x19, dst)
      else if reg then
        match putrReg (bits dv 0 29), putrTile (bits dv 0 29) with
        | some _, some u =>
          if putrTargetOk s (myTile s) u (putrSlot dv) then none else some (0x15, w64 (bits dv 0 29))
        | _, _ => some (0x15, w64 (bits dv 0 29))
      else none)

/-- A copy function (R186): the request is written to the porter's buffer, where acceptance (COPY_ACCEPT) ends the CPY. -/
def copyIssue (dir : CopyDir) (la : La) (n : GLow) (ec eb ea : EReg) (s : State) : Out :=
  let gn : GReg := Fin.castLE (by omega) n
  inSet threadOnly s fun s => sources [eId ea, eId eb, eId ec, gId gn] s fun s => roomForLong s fun s =>
    let h := me s
    let sh := re h ec
    match copyFault s dir (re h ea) (re h eb) sh with
    | some (cause, v) => trap cause v s
    | none =>
      let (s, id) := freshId s
      let c : Copy :=
        { id := id, hart := s.cur, pc := h.pc, sup := h.sup, dir := dir, src := re h ea, dst := re h eb,
          len := shLen sh.toNat, rows := shRows sh.toNat, sst := shSrc sh.toNat, dstS := shDst sh.toNat,
          tag := rg h gn, st := .requested, done := 0, poison := false, cancel := false, fault := false, page := none,
          refused := none, pendAt := 0, orphan := false }
      issueAwait 4 la.val (.accept id) (modTile s (myTile s) fun t => { t with copies := t.copies ++ [c] })

/-- CPY.lm (R185). -/
def execCpyLm (la : La) (n : GLow) (ec eb ea : EReg) (s : State) : Out := copyIssue .lm la n ec eb ea s
/-- CPY.gl (R185). -/
def execCpyGl (la : La) (n : GLow) (ec eb ea : EReg) (s : State) : Out := copyIssue .gl la n ec eb ea s
/-- CPY.lg (R185). -/
def execCpyLg (la : La) (n : GLow) (ec eb ea : EReg) (s : State) : Out := copyIssue .lg la n ec eb ea s
/-- CPY.gg (R185). -/
def execCpyGg (la : La) (n : GLow) (ec eb ea : EReg) (s : State) : Out := copyIssue .gg la n ec eb ea s

/-- A copy belongs to the thread that runs in its slot. -/
def ownCopy (s : State) (c : Copy) : Bool := c.hart == s.cur && !c.orphan

/-- CPYQ (R189). -/
def execCpyq (s : State) : Out :=
  inSet threadOnly s fun s =>
    let l := (getTile s (myTile s)).copies.filter fun c => ownCopy s c && c.st != .requested
    done 4 (modMe s fun x =>
      { x with cpyq := w64 (l.length % 65536 + 65536 * (l.filter (·.st == .pending)).length) })

/-- CPYX ends a copy that is *moving* or *pending* (R190); a row is written whole in one step, so a *moving* copy is between
two rows. -/
def cancelCopy (c : Copy) : Copy :=
  if c.st == .moving || c.st == .pending then { c with st := .posting, cancel := true, page := none } else c

/-- CPYX (R190). -/
def execCpyx (n : GLow) (s : State) : Out :=
  let gn : GReg := Fin.castLE (by omega) n
  inSet threadOnly s fun s => sources [gId gn] s fun s =>
    let tag := rg (me s) gn
    done 4 (modTile s (myTile s) fun t =>
      { t with copies := t.copies.map fun c => if ownCopy s c && c.tag == tag then cancelCopy c else c })

/-! ## Rows (R187) -/

/-- The parts of `len` bytes at `va` that lie within one line each. -/
def lineChunks : Nat → Nat → Nat → List (Nat × Nat)
  | 0, _, _ => []
  | f + 1, va, len =>
    if len = 0 then [] else let n := min len (64 - va % 64); (va, n) :: lineChunks f (va + n) (len - n)

/-- The chunks of a row. -/
def rowChunks (va len : Nat) : List (Nat × Nat) := lineChunks (len / 64 + 2) va len

/-- Physical chunks, or why they are not to be had. -/
inductive Chunks where
  | ok (l : List (Nat × Nat))
  | absent (vpn : Nat)
  | bad (cause : Nat) (va : Nat)
deriving DecidableEq, Repr

/-- The causes of R290 of a translation that fails in G. -/
def xCause (x : XRes) : Nat :=
  match x with
  | .refused => 0x1A
  | .perm => 0x1B
  | .ok _ | .absent _ | .access => 0x19

/-- Translates chunks for a unit of die `d` in context `c` that looks in the TLBs `hs`. -/
def xlateChunks (s : State) (d : Fin 4) (hs : List Holder) (c : Nat) (need : Need) (ref : Option Nat) :
    List (Nat × Nat) → State × Chunks
  | [] => (s, .ok [])
  | (va, n) :: r =>
    match xlate s d hs c (va % 2 ^ 64) need ref with
    | (s, .ok pa) =>
      match xlateChunks s d hs c need ref r with
      | (s, .ok l) => (s, .ok ((pa, n) :: l))
      | x => x
    | (s, .absent vpn) => (s, .absent vpn)
    | (s, x) => (s, .bad (xCause x) va)

/-- A 32-bit word on its way, and whether it is poisoned. -/
abbrev CopyWord := Nat × Bool

/-- A unit reads the words of physical chunks, each in a packet of its own: what is poisoned at its home, or does not arrive whole, gives
zeros (R94, R297 to R299). -/
def readChunks (s : State) : List (Nat × Nat) → State × List CopyWord
  | [] => (s, [])
  | (pa, n) :: r =>
    let (s, v, bad) := lineRead s pa n
    let (s, l) := readChunks s r
    (s, ((unpackBits 32 (n / 4) v).map fun w => (w, bad)) ++ l)

/-- The `n` words at `a` of a store: poisoned granules give zeros (R94). -/
def readStore (t : Tile) (x : Store) (a n : Nat) : List CopyWord :=
  (List.range n).map fun i => (storeRead t x (a + 4 * i) 4, storePoison t x (a + 4 * i) 4)

/-- Words as zeros with poison. -/
def spoilt (ws : List CopyWord) : List CopyWord := ws.map fun _ => (0, true)

/-- Writes words to physical chunks, with their poison (R94), each in a packet of its own: what fails a check on the way is stored
poisoned, and a packet that is lost leaves its target as it was (R298, R299). The second component is the index of the first chunk that
did not arrive whole. -/
def writeChunks (s : State) : Nat → List (Nat × Nat) → List CopyWord → State × Option Nat
  | _, [], _ => (s, none)
  | i, (pa, n) :: r, ws =>
    let (s, w) := travel s
    let l := if w == .whole then ws.take (n / 4) else spoilt (ws.take (n / 4))
    let s := if w == .lost then s else physWrite s pa n (packBits 32 (l.map (·.1)))
    let s := if w != .lost && l.any (·.2) then { s with gPoison := insNat s.gPoison (pa / 64) } else s
    let (s, k) := writeChunks s (i + 1) r (ws.drop (n / 4))
    (s, if w == .whole then k else some i)

/-- Writes words at `a` of a store, with their poison (R94). -/
def writeStore (t : Tile) (x : Store) (a : Nat) (ws : List CopyWord) : Tile :=
  let t := storeWrite t x a (4 * ws.length) (packBits 32 (ws.map (·.1)))
  ws.zipIdx.foldl (fun t w => if w.1.2 then storeTaint t x (a + 4 * w.2) 4 else t) t

/-- The address of row `k` of an endpoint. -/
def rowAddr (base : Nat) (stride : Int) (k : Nat) : Nat := (((base : Int) + k * stride) % (2 ^ 64 : Nat)).toNat

/-- What a step of a copy came to. -/
inductive CopyRes where
  /-- moved; where poison was met first, as space and address, if it was -/
  | moved (bad : Option (Nat × Word))
  | waits (vpn : Nat)
  | failed (va : Nat)
  | held
deriving DecidableEq, Repr

/-- The tile to which a copy of tile `t` writes. -/
def copyTarget (t : Nat) (c : Copy) : Nat :=
  if c.dir == .lm then
    if epReg c.dst.toNat then (putrTile (bits c.dst.toNat 0 29)).getD t else tileAt (epX c.dst.toNat) (epY c.dst.toNat)
  else t

/-- The space and the address of word `i` of the row that a copy reads, and those of the row that it writes, for a poison report of
the copy channel (R94, R297). -/
def copySpace (c : Copy) : Nat := if srcLocal c.dir then (epStore c.src.toNat).space else 2
def copySrcAddr (c : Copy) (i : Nat) : Word :=
  w64 (rowAddr (if srcLocal c.dir then epOff c.src.toNat else c.src.toNat) c.sst c.done + 4 * i)
def copyDst (c : Copy) : Nat × Word :=
  if dstLocal c.dir then ((epStore c.dst.toNat).space, w64 (rowAddr (epOff c.dst.toNat) c.dstS c.done))
  else (2, w64 (rowAddr c.dst.toNat c.dstS c.done))

/-- Where the words of a row are poisoned first. -/
def copyBad (c : Copy) (ws : List CopyWord) : Option (Nat × Word) :=
  (ws.findIdx? (·.2)).map fun i => (copySpace c, copySrcAddr c i)

/-- The source words of row `c.done`. -/
def copyRead (s : State) (d : Fin 4) (hs : List Holder) (ctx t : Nat) (c : Copy) : State × Option (List CopyWord) × CopyRes :=
  if srcLocal c.dir then
    let x := epStore c.src.toNat
    let a := rowAddr (epOff c.src.toNat) c.sst c.done
    let s := meetFlaws s t x a c.len
    (s, some (readStore (getTile s t) x a (c.len / 4)), .moved none)
  else
    match xlateChunks s d hs ctx .read c.refused (rowChunks (rowAddr c.src.toNat c.sst c.done) c.len) with
    | (s, .ok l) => let (s, ws) := readChunks s l; (s, some ws, .moved none)
    | (s, .absent vpn) => (s, none, .waits vpn)
    | (s, .bad _ va) => (s, none, .failed va)

/-- The address of byte `b` of the row that a copy writes, with its space. -/
def copyDstAt (c : Copy) (b : Nat) : Nat × Word := ((copyDst c).1, (copyDst c).2 + w64 b)

/-- Writes words at `a` of a store of tile `u`, 64 bytes in a packet, as the packets of tile `t` arrive (R298, R299): the second component
is the byte of the row at which the first packet that did not arrive whole begins. -/
def sendRow (s : State) (t u : Nat) (x : Store) : Nat → Nat → Nat → List CopyWord → State × Option Nat
  | 0, _, _, _ => (s, none)
  | f + 1, a, b, ws =>
    if ws = [] then (s, none)
    else
      let l := ws.take 16
      let (s, w) := onLoom s (.tile t 0) (some u)
      let s := if w == .lost then s else modTile s u fun y => writeStore y x a (if w == .whole then l else spoilt l)
      let (s, k) := sendRow s t u x f (a + 64) (b + 64) (ws.drop 16)
      (s, if w == .whole then k else some b)

/-- A copy fills a register as PUTR does (R84, R187), carrying its poison (R297); a slot that has become *free* meanwhile discards the
fill. -/
def copyFill (s : State) (t : Nat) (c : Copy) (ws : List CopyWord) : State × CopyRes :=
  let v := bits c.dst.toNat 0 29
  let u := (putrTile v).getD t
  match putrReg v with
  | some r =>
    if ((getTile s u).harts.get (putrSlot v)).status == .free then (s, .moved (copyBad c ws))
    else if (getTile s u).fills.length ≥ 8 then (s, .held)
    else
      let (s, w) := onLoom s (.tile t 0) (some u)
      let ws' := if w == .whole then ws else spoilt ws
      let f : Fill := ⟨c.id, putrSlot v, r, w64 (packBits 32 (ws'.map (·.1))), none, ws'.any (·.2)⟩
      (if w == .lost then s else modTile s u fun x => { x with fills := x.fills ++ [f] },
        .moved (copyBad c ws <|> if w == .whole then none else some (copyDst c)))
  | none => (s, .moved none)

/-- Writes the words of row `c.done`. -/
def copyWrite (s : State) (d : Fin 4) (hs : List Holder) (ctx t : Nat) (c : Copy) (ws : List CopyWord) : State × CopyRes :=
  if dstLocal c.dir then
    if epReg c.dst.toNat then copyFill s t c ws
    else
      let (s, k) := sendRow s t (copyTarget t c) (epStore c.dst.toNat) (ws.length + 1) (rowAddr (epOff c.dst.toNat) c.dstS c.done) 0 ws
      (s, .moved (copyBad c ws <|> k.map (copyDstAt c)))
  else
    let chunks := rowChunks (rowAddr c.dst.toNat c.dstS c.done) c.len
    match xlateChunks s d hs ctx .write c.refused chunks with
    | (s, .ok l) =>
      let (s, k) := writeChunks s 0 l ws
      (s, .moved (copyBad c ws <|> k.map fun i => (2, w64 ((chunks.getD i (0, 0)).1))))
    | (s, .absent vpn) => (s, .waits vpn)
    | (s, .bad _ va) => (s, .failed va)

/-- Moves one row of a copy of die `d` in context `ctx`; local endpoints are of tile `t` (R187). The row is read in full
before it is written. -/
def copyRow (s : State) (d : Fin 4) (hs : List Holder) (ctx t : Nat) (c : Copy) : State × CopyRes :=
  match copyRead s d hs ctx t c with
  | (s, some ws, _) => copyWrite s d hs ctx t c ws
  | (s, none, r) => (s, r)

/-- The status of a copy (R187). -/
def copyStatus (c : Copy) : Word :=
  w64 (c.done % 2 ^ 32 + 2 ^ 32 * b2n c.poison + 2 ^ 33 * b2n c.cancel + 2 ^ 34 * b2n c.fault)

/-- A copy after a row, a page wait, a failure or a refusal at a router (R187, R188). -/
def copyAfter (cycle : Nat) (c : Copy) (r : CopyRes) : Copy :=
  match r with
  | .moved p =>
    let c := { c with done := c.done + 1, poison := c.poison || p.isSome, refused := none }
    if c.done ≥ c.rows then { c with st := .posting } else c
  | .waits vpn => { c with page := some vpn }
  | .failed _ => { c with st := .posting, fault := true, refused := none }
  | .held => { c with pendAt := cycle }

/-! ## The copies of a tile -/

/-- A tile's copy. -/
def findCopy (s : State) (t id : Nat) : Option Copy := (getTile s t).copies.find? (·.id == id)

/-- Replaces a tile's copy. -/
def putCopy (s : State) (t : Nat) (c : Copy) : State :=
  modTile s t fun x => { x with copies := x.copies.map fun y => if y.id = c.id then c else y }

/-- The stores of its thread before a CPY have been acknowledged (R186). -/
def ackedBefore (s : State) (c : Copy) : Bool :=
  !((getHart s c.hart).out.takeWhile fun o => o.await != .accept c.id).any isStoreOp

/-- The copy is the first that can be accepted, and the request buffer has a free entry (R186). How long an accepted copy keeps its
entry is not stated: here it does so until its post, while it is *moving*, *pending* or *posting* (DESIGN CHOICE; log 43). -/
def copyAcceptable (s : State) (t id : Nat) : Bool :=
  let l := (getTile s t).copies
  tileRuns s t && decide ((l.filter (·.st != .requested)).length < 16) &&
    (l.find? fun c => c.st == .requested && ackedBefore s c).any (·.id == id)

/-- The copies of a tile after one of them has been accepted: it stands behind those that were accepted before (R187). -/
def acceptCopy (l : List Copy) (c : Copy) : List Copy := l.filter (·.id != c.id) ++ [{ c with st := .moving }]

/-- COPY_ACCEPT (R186, R188). -/
def execCopyAccept (s : State) : Out :=
  match s.ev with
  | .tileItem t id =>
    match findCopy s t id with
    | some c =>
      if copyAcceptable s t id then 
        .next (awaitDone (modTile s t fun x => { x with copies := acceptCopy x.copies c }) c.hart (.accept id))
      else .next s
    | none => .next s
  | _ => .next s

/-- The copies that the porter moves: the first four, in order of acceptance, that wait for no page (R187). -/
def movable (t : Tile) : List Copy := (t.copies.filter fun c => c.st == .moving && c.page.isNone).take 4

/-- The write of a copy is refused by the router of a switched-out partition (R101, R188). -/
def copyHeld (s : State) (t : Nat) (c : Copy) : Bool :=
  c.dir == .lm && !epReg c.dst.toNat && switchedOut s (getTile s t).ctx (copyTarget t c)

/-- What the tile that a copy writes to does with the write (R88). -/
def copyGate (s : State) (t : Nat) (c : Copy) : Target :=
  if c.dir == .lm && !epReg c.dst.toNat then tileTarget s (getTile s t).ctx (copyTarget t c) 0 else .ok t 0

/-- The target's group is still loading, and the write waits for its release (R88). -/
def copyWaitsLoad (s : State) (t : Nat) (c : Copy) : Bool :=
  match copyGate s t c with
  | .loading _ => true
  | .ok _ _ | .bad | .held _ => false

/-- A queue unit's copy and its launch (R257). -/
def findQcopy (s : State) (k : Nat) : Option (Copy × Launch) :=
  match alGet s.qcopies k, s.launches.find? (·.key == k) with
  | some c, some l => some (c, l)
  | _, _ => none

/-- A queue unit moves a row of a copy (R187, R257). -/
def queueBurst (s : State) (k : Nat) : State :=
  match findQcopy s k with
  | some (c, l) =>
    if c.st != .moving || c.page.isSome then s
    else
      let d := Fin.ofNat 4 l.die
      let (s, r) := copyRow s d [.die] l.ctx 0 c
      let c' := copyAfter s.cycle c r
      let s := { s with qcopies := alSet s.qcopies k c' }
      match r with
      | .failed va => unitReport s d l.ctx 5 0x42 0 (w64 va) (copyStatus c').toNat 0
      | .moved (some p) => unitReport s d l.ctx 1 0 0 p.2 (256 + p.1) 0
      | _ => s
  | none => s

/-- A queue unit's copy posts: its node is to complete (R257, R262). -/
def queuePost (s : State) (k : Nat) : State :=
  match findQcopy s k with
  | some (c, _) =>
    if c.st != .posting then s
    else
      { s with qcopies := s.qcopies.filter (·.1 != k),
               launches := s.launches.map fun l =>
                 if l.key = k then { l with st := .ending, ends := l.ends + 2 ^ 9 * b2n c.poison + 2 ^ 10 * b2n c.fault }
                 else l }
  | none => s

/-- A copy of tile `t` after a row that came to `r`, with the reports that this makes (R94, R187, R297). -/
def copyNote (s : State) (t : Nat) (c : Copy) (r : CopyRes) : State :=
  let c' := copyAfter s.cycle c r
  let s := putCopy s t c'
  match r with
  | .failed va => tileReport s t 5 0x42 (slotOf c.hart) c.pc (w64 va) (copyStatus c').toNat c.tag.toNat
  | .moved (some p) => tileReport s t 1 0 (slotOf c.hart) c.pc p.2 (256 + p.1) 0
  | .moved none | .waits _ | .held => s

/-- The tile whose L-store a copy of tile `t` reads, or writes at tile `u`, while the tile sleeps at depth 2: the row waits for its wake
(R64). -/
def sleepingEnd (s : State) (t u : Nat) (c : Copy) : Option Nat :=
  if srcLocal c.dir && epStore c.src.toNat == .l && lSleeps s t then some t
  else if dstLocal c.dir && !epReg c.dst.toNat && epStore c.dst.toNat == .l && lSleeps s u then some u
  else none

/-- That tile is on its way to be awake. -/
def copyWaitsWake (s : State) (t : Nat) (c : Copy) : Bool := (sleepingEnd s t (copyTarget t c) c).any fun u => !(getTile s u).asleep

/-- The tile to which a row of a copy goes. -/
def copyTo (t : Nat) (c : Copy) : Nat :=
  if dstLocal c.dir && epReg c.dst.toNat then (putrTile (bits c.dst.toNat 0 29)).getD t else copyTarget t c

/-- The messages that its pair of tiles sent before come before a row of a copy (R334). -/
def copyBehind (s : State) (t : Nat) (c : Copy) : Bool := dstLocal c.dir && pairFlights s t (copyTo t c) != []

/-- COPY_BURST (R187, R188): the porter moves a row, unless the target refuses it (R88). -/
def execCopyBurst (s : State) : Out :=
  match s.ev with
  | .tileItem t id =>
    match (movable (getTile s t)).find? (·.id == id) with
    | some c =>
      if !tileRuns s t then .next s
      else
        match copyGate s t c with
        | .held _ => .next (putCopy s t { c with st := .pending, pendAt := s.cycle })
        | .loading _ => .next s
        | .bad => .next (copyNote s t c (.failed (rowAddr (epOff c.dst.toNat) c.dstS c.done)))
        | .ok u _ =>
          match sleepingEnd s t u c with
          | some v => .next (rouse s v)
          | none =>
            let r := copyRow s (dieOf t) (looksIn (.tile t 0)) (getTile s t).ctx t c
            .next (copyNote r.1 t c r.2)
    | none => .next s
  | .key k => .next (queueBurst s k)
  | _ => .next s

/-- The copies of a tile that are *pending*, the one that became so first in front (R188). -/
def firstPending (l : List Copy) : Option Copy :=
  (l.filter (·.st == .pending)).foldl (fun o c => match o with
    | some p => if c.pendAt < p.pendAt then some c else some p
    | none => some c) none

/-- The first pending copy resumes (R188). -/
def copyResumable (s : State) (t id : Nat) : Bool :=
  tileRuns s t &&
    (firstPending ((getTile s t).copies.filter fun c => !copyHeld s t c)).any (·.id == id)

/-- COPY_RESUME (R188). -/
def execCopyResume (s : State) : Out :=
  match s.ev with
  | .tileItem t id =>
    match findCopy s t id with
    | some c => if copyResumable s t id then .next (putCopy s t { c with st := .moving }) else .next s
    | none => .next s
  | _ => .next s

/-- Every write of a copy has been acknowledged: its register fill, too, is done (R84, R187). -/
def copySettled (s : State) (c : Copy) : Bool := !s.tiles.any fun x => x.2.fills.any (·.id == c.id)

/-- COPY_POST (R187, R188): the post is made, and the copy is gone. -/
def execCopyPost (s : State) : Out :=
  match s.ev with
  | .tileItem t id =>
    match findCopy s t id with
    | some c =>
      if c.st == .posting && tileRuns s t && copySettled s c then
        .next (mailPost (modTile s t fun x => { x with copies := x.copies.filter (·.id != id) }) t
          ⟨⟨c.tag, copyStatus c, true, none⟩, id, none⟩)
      else .next s
    | none => .next s
  | .key k => .next (queuePost s k)
  | _ => .next s

end Sys2Proof.Machine
end

