-- ==== Sys2Proof/Machine/Unit.lean ====
section
/-! DEFINITION. Control blocks that instructions read at issue (R43, R88), and the accesses of a die's units: queue unit,
claim-ticket table, wringer (R273, R281, R284). -/

namespace Sys2Proof.Machine

/-- An instruction reads a block of `n` bytes in G at issue, with the checks of R88 (R43, R281), after the hart's earlier accesses to it,
which it awaits in its slot or *parked* (R54, R61): its physical address and its value; poison, and a packet that arrives poisoned or not
at all, reads as zero and is reported (R94, R298, R299). -/
def blockRead (holds : Bool) (n : Nat) (need : Need) (va : Word) (s : State) (k : Nat → Nat → State → Out) : Out :=
  gAccess n need va s fun pa s => inOrder holds (hereAcc none pa n va) s fun s =>
    let (s, v, bad) := lineRead s pa n
    k pa v (if bad then notePoisonRead false s s.cur 2 va else s)

/-- The unit acts for `x` from here on. -/
def actFor (x : Agent) (s : State) : State := { s with agent := x }

/-- A unit of die `d` translates for context `c`: it meets a refusal that its agent waited for, and the agent waits for an
absent page. -/
def unitXlate (s : State) (d : Fin 4) (c va : Nat) (need : Need) : State × XRes :=
  match xlate s d [.die] c va need (if (s.dies.get d).unitRef.contains ⟨s.agent, c, va / 4096⟩ then some (va / 4096) else none) with
  | (s, .absent vpn) =>
    let x := s.dies.get d
    (if x.unitWait.contains ⟨s.agent, c, vpn⟩ then s
      else { s with dies := s.dies.set d { x with unitWait := x.unitWait ++ [⟨s.agent, c, vpn⟩] } }, .absent vpn)
  | r => r

/-- The agent for which a unit of die `d` acts waits for no page after all. -/
def unitForgets (s : State) (d : Fin 4) : State :=
  let x := s.dies.get d
  { s with dies := s.dies.set d { x with unitWait := x.unitWait.filter (·.who != s.agent) } }

/-- The agent for which a unit of die `d` acts has met its refusals. -/
def unitSettled (s : State) (d : Fin 4) : State :=
  let x := s.dies.get d
  if x.unitRef = [] then s else { s with dies := s.dies.set d { x with unitRef := x.unitRef.filter (·.who != s.agent) } }

/-- An agent waits for a page. -/
def unitWaits (s : State) (x : Agent) : Bool := vany s.dies fun d => d.unitWait.any (·.who == x)

/-- What a unit's read of a block came to. -/
inductive UnitGot where
  | ok (pa v : Nat)
  | wait
  | bad (cause : Nat)
deriving DecidableEq, Repr

/-- A unit reads `n` bytes at `va`, within one page; a poisoned block, or one that does not arrive whole, counts as unreadable with
cause 0 (R297 to R299). -/
def unitRead (s : State) (d : Fin 4) (c va n : Nat) (need : Need) : State × UnitGot :=
  match unitXlate s d c va need with
  | (s, .ok pa) => let (s, v, bad) := lineRead s pa n; (s, if bad then .bad 0 else .ok pa v)
  | (s, .absent _) => (s, .wait)
  | (s, x) => (s, .bad (xCause x))

/-- Translates each chunk for a unit. -/
def unitChunks (s : State) (d : Fin 4) (c : Nat) (need : Need) : List (Nat × Nat) → State × Chunks
  | [] => (s, .ok [])
  | (va, n) :: r =>
    match unitXlate s d c (va % 2 ^ 64) need with
    | (s, .ok pa) =>
      match unitChunks s d c need r with
      | (s, .ok l) => (s, .ok ((pa, n) :: l))
      | x => x
    | (s, .absent vpn) => (s, .absent vpn)
    | (s, x) => (s, .bad (xCause x) va)

/-- Every page of the addresses is present for a unit, or refused to it; otherwise the page that it waits for. -/
def unitReady (s : State) (d : Fin 4) (c : Nat) (need : Need) : List Nat → State × Option Nat
  | [] => (s, none)
  | va :: r =>
    match unitXlate s d c (va % 2 ^ 64) need with
    | (s, .absent vpn) => (s, some vpn)
    | (s, _) => unitReady s d c need r

/-- One address of each page of `n` bytes at `va`. -/
def pagesOf (va n : Nat) : List Nat :=
  if n = 0 then [] else (List.range ((va % 4096 + n - 1) / 4096 + 1)).map fun i => if i = 0 then va else va / 4096 * 4096 + 4096 * i

/-- The number of a unit as a writer: 0 queue unit, 1 claim-ticket table, 2 wringer; a write of its was dropped (R281,
R368). -/
def writeDropped (s : State) (d : Fin 4) (c writer cause : Nat) (block failing : Nat) : State :=
  unitReport s d c 12 cause (w64 block) (w64 failing) writer 0

/-- A poison report of a unit (R297, R368). -/
def unitPoison (s : State) (d : Fin 4) (c : Nat) (va : Nat) : State := unitReport s d c 1 0 0 (w64 va) 2 0

/-- A unit reads `n` bytes at `va`, within one line: poison reads as zero and is reported (R297); what a unit reads where it
may not read is a free value (log 9). -/
def unitGet (s : State) (d : Fin 4) (c va n : Nat) : State × Nat :=
  match unitRead s d c va n .read with
  | (s, .ok _ v) => (s, v)
  | (s, .bad 0) => (unitPoison s d c va, 0)
  | (s, _) => let (s, k) := nextFree s; (s, Config.freeWord k % 256 ^ n)

/-- A unit writes at `va`, within one line, by `f` on its physical address; a failing write is dropped and reported (R281); one that
arrives poisoned leaves its line poisoned, one that is lost leaves it as it was, and either is reported (R298, R299). -/
def unitPut (s : State) (d : Fin 4) (c writer block va : Nat) (f : State → Nat → State) : State :=
  match unitXlate s d c va .write with
  | (s, .ok pa) =>
    match travel s with
    | (s, .whole) => f s pa
    | (s, .bad) => unitPoison (taintLine (f s pa) pa) d c va
    | (s, .lost) => unitPoison s d c va
  | (s, .absent _) => s
  | (s, x) => writeDropped s d c writer (xCause x) block va

/-- A unit adds 1 to the `n` bytes at `va`, at their home: the old value, none where the write was dropped (R281). -/
def unitBump (s : State) (d : Fin 4) (c writer block va n : Nat) : State × Option Nat :=
  match unitRead s d c va n .readWrite with
  | (s, .ok pa v) => (physWrite s pa n (v + 1), some v)
  | (s, .bad cause) => (writeDropped s d c writer cause block va, none)
  | (s, .wait) => (s, none)

/-- What `va` translates to, without any effect on tables, TLBs or requests. -/
def peekPa (s : State) (c va : Nat) (need : Need) : XRes :=
  match alGet s.ctxs c with
  | none => .access
  | some x =>
    match (walk s x va).1 with
    | .fault => .access
    | .absent => .absent (va / 4096)
    | .leaf l => if permits x.tfd l.pte need then .ok (leafPa l.frame l.lvl va) else .perm

end Sys2Proof.Machine
end

