-- ==== Sys2Proof/Machine/Vector.lean ====
section
/-! DEFINITION. VFP, VINT, VRED and VPERM (R191 to R196; log 9, log 16). -/

namespace Sys2Proof.Machine

/-! ## Elements and masks (R191) -/

/-- The elements of `w` bits of a vector. -/
def elems (w : Nat) (v : Vec) : List Nat := unpackBits w (512 / w) v.toNat

/-- The vector of elements of `w` bits. -/
def ofElems (w : Nat) (l : List Nat) : Vec := BitVec.ofNat 512 (packBits w l)

/-- Mask bit of the lane that holds element `i` of `w` bits. -/
def maskOn (k : BitVec 16) (w i : Nat) : Bool := k.getLsbD (i * w / 32)

/-- The elements of `new` where the mask is set, of `old` elsewhere. -/
def mergeMask (k : BitVec 16) (w : Nat) (old new : List Nat) : List Nat :=
  (old.zip new).zipIdx.map fun x => if maskOn k w x.2 then x.1.2 else x.1.1

/-- The mask with bit j set where it is set in `k` and every element of lane j satisfies `p`. -/
def maskOf (k : BitVec 16) (w : Nat) (p : List Bool) : BitVec 16 :=
  BitVec.ofNat 16 ((List.range 16).foldl (fun n j =>
    if k.getLsbD j && (List.range (32 / w)).all (fun i => p.getD (j * (32 / w) + i) false) then n + 2 ^ j else n) 0)

/-- The format and element width of VFP and VRED types (R39). -/
def ftyFmt (t : FTy) : Fmt :=
  match t with
  | .f32 => fp32
  | .bf16 => bf16
  | .f16 => fp16

/-- The width and signedness of VINT types (R39). -/
def ityWidth (t : ITy) : Nat :=
  match t with
  | .i32 | .n32 => 32
  | .i16 | .n16 => 16
  | .i8 | .n8 => 8
def itySigned (t : ITy) : Bool := t == .i32 || t == .i16 || t == .i8

/-- The element width of VPERM types (R39). -/
def eltWidth (t : EltW) : Nat :=
  match t with
  | .w32 => 32
  | .w16 => 16
  | .w8 => 8

/-- vd is a source where the mask is not k0 (R191). -/
def maskedSource (k : KReg) (d : VReg) : List RegId := if k = 0 then [] else [vId d]

/-! ## VFP (R192) -/

/-- A function on element values, with the flags it raises itself; `rdn` as in `sumV`. -/
abbrev VfpFn := Bool → FV → FV → FV → FV × BitVec 5

/-- The values of the present elements after `f`. -/
def vfpValues (f : VfpFn) (fm : Fmt) (k : BitVec 16) (rdn : Bool) (a b d : List Nat) : List (Option (FV × BitVec 5)) :=
  (a.zip (b.zip d)).zipIdx.map fun x =>
    if maskOn k fm.width x.2 then
      some (f rdn (decodeF fm x.1.1) (decodeF fm x.1.2.1) (decodeF fm x.1.2.2))
    else none

/-- The arithmetic of VFP: computed exactly and rounded once; `srcs` are the sources beside va and the mask. -/
def vfp (f : VfpFn) (t : FTy) (mode : Hart → Mode) (srcs : List RegId) (k : KReg) (b a d : VReg) (s : State) : Out :=
  inSet allHarts s fun s => sources (kId k :: vId a :: srcs ++ maskedSource k d) s fun s => dests [vId d] s fun s =>
    let h := me s
    let fm := ftyFmt t
    let old := elems fm.width (rv h d)
    let m := mode h
    let r := roundAll fm m false false (rndOf s) 0
      (vfpValues f fm (rk h k) (m == .rdn) (elems fm.width (rv h a)) (elems fm.width (rv h b)) old)
    done 4 (raise r.fl (modMe (putRnd r.rnd s) fun h =>
      wv h d (ofElems fm.width (mergeMask (rk h k) fm.width old r.out))))

/-- VADD (R192). -/
def execVadd (t : FTy) (rm : Rm) (k : KReg) (b a d : VReg) (s : State) : Out :=
  vfp (fun rdn x y _ => sumV rdn [x, y]) t (rmMode · rm) [vId b] k b a d s
/-- VSUB (R192). -/
def execVsub (t : FTy) (rm : Rm) (k : KReg) (b a d : VReg) (s : State) : Out :=
  vfp (fun rdn x y _ => sumV rdn [x, negV y]) t (rmMode · rm) [vId b] k b a d s
/-- VMUL (R192). -/
def execVmul (t : FTy) (rm : Rm) (k : KReg) (b a d : VReg) (s : State) : Out :=
  vfp (fun _ x y _ => mulV x y) t (rmMode · rm) [vId b] k b a d s
/-- VFMA (R192): A × B + D. -/
def execVfma (t : FTy) (rm : Rm) (k : KReg) (b a d : VReg) (s : State) : Out :=
  vfp (fun rdn x y z => fusedV rdn x y z) t (rmMode · rm) [vId b, vId d] k b a d s
/-- VFMS (R192): A × B − D. -/
def execVfms (t : FTy) (rm : Rm) (k : KReg) (b a d : VReg) (s : State) : Out :=
  vfp (fun rdn x y z => fusedV rdn x y (negV z)) t (rmMode · rm) [vId b, vId d] k b a d s
/-- VFNMA (R192): D − A × B. -/
def execVfnma (t : FTy) (rm : Rm) (k : KReg) (b a d : VReg) (s : State) : Out :=
  vfp (fun rdn x y z => fusedV rdn (negV x) y z) t (rmMode · rm) [vId b, vId d] k b a d s
/-- VRCP (R192). -/
def execVrcp (t : FTy) (rm : Rm) (k : KReg) (a d : VReg) (s : State) : Out :=
  vfp (fun _ x _ _ => divV (.fin false 1 0) x) t (rmMode · rm) [] k a a d s
/-- VRSQ (R192). -/
def execVrsq (t : FTy) (rm : Rm) (k : KReg) (a d : VReg) (s : State) : Out :=
  vfp (fun _ x _ _ => rsqrtV x) t (rmMode · rm) [] k a a d s
/-- VSQRT (R192). -/
def execVsqrt (t : FTy) (rm : Rm) (k : KReg) (a d : VReg) (s : State) : Out :=
  vfp (fun _ x _ _ => sqrtV x) t (rmMode · rm) [] k a a d s

/-- Functions on the bits of elements that set no flag; a masked-out element is kept. -/
def vbits (w : Nat) (f : Nat → Nat → Nat) (srcs : List RegId) (k : KReg) (b a d : VReg) (s : State) : Out :=
  inSet allHarts s fun s => sources (kId k :: vId a :: srcs ++ maskedSource k d) s fun s => dests [vId d] s fun s =>
    done 4 (modMe s fun h =>
      let new := ((elems w (rv h a)).zip (elems w (rv h b))).map fun x => f x.1 x.2
      wv h d (ofElems w (mergeMask (rk h k) w (elems w (rv h d)) new)))

/-- The bits of a value that a format holds exactly, or its canonical NaN. -/
def exactBits (f : Fmt) (v : FV) : Nat := (roundF f .rne 0 false v).1

/-- VMAX (R104, R192). -/
def execVmax (t : FTy) (k : KReg) (b a d : VReg) (s : State) : Out :=
  let f := ftyFmt t
  vbits f.width (fun x y => exactBits f (maxV (decodeF f x) (decodeF f y))) [vId b] k b a d s
/-- VMIN (R104, R192). -/
def execVmin (t : FTy) (k : KReg) (b a d : VReg) (s : State) : Out :=
  let f := ftyFmt t
  vbits f.width (fun x y => exactBits f (minV (decodeF f x) (decodeF f y))) [vId b] k b a d s
/-- VABS (R192). -/
def execVabs (t : FTy) (k : KReg) (a d : VReg) (s : State) : Out :=
  let f := ftyFmt t
  vbits f.width (fun x _ => exactBits f (absV (decodeF f x))) [] k a a d s
/-- VNEG (R192). -/
def execVneg (t : FTy) (k : KReg) (a d : VReg) (s : State) : Out :=
  let f := ftyFmt t
  vbits f.width (fun x _ => exactBits f (negV (decodeF f x))) [] k a a d s

/-- VSEL (R192): vd is not read. -/
def execVsel (t : FTy) (k : KReg) (b a d : VReg) (s : State) : Out :=
  inSet allHarts s fun s => sources [kId k, vId a, vId b] s fun s => dests [vId d] s fun s =>
    let w := (ftyFmt t).width
    done 4 (modMe s fun h => wv h d (ofElems w (mergeMask (rk h k) w (elems w (rv h b)) (elems w (rv h a)))))

/-- A compare: `p` gives the relation and the flags of a pair of elements; one that writes k0 has no effect (R192). -/
def vcompare (w : Nat) (p : Nat → Nat → Bool × BitVec 5) (k : KReg) (b a : VReg) (kd : KReg) (s : State) : Out :=
  inSet allHarts s fun s => sources [kId k, vId a, vId b] s fun s => dests [kId kd] s fun s =>
    let h := me s
    let r := ((elems w (rv h a)).zip (elems w (rv h b))).map fun x => p x.1 x.2
    let fl := r.zipIdx.foldl (fun f x => if maskOn (rk h k) w x.2 then f ||| x.1.2 else f) 0
    if kd = 0 then done 4 s
    else done 4 (raise fl (modMe s fun h => wk h kd (maskOf (rk h k) w (r.map (·.1)))))

/-- A relation on element values; a NaN compares false, and raises NV where `nv` is set (R192). -/
def relV (f : Fmt) (nv : Bool) (rel : FV → FV → Bool) (x y : Nat) : Bool × BitVec 5 :=
  let a := decodeF f x
  let b := decodeF f y
  if isNanV a || isNanV b then (false, if nv then NV else 0) else (rel a b, 0)

/-- VCEQ (R192). -/
def execVceq (t : FTy) (k : KReg) (b a : VReg) (kd : KReg) (s : State) : Out :=
  vcompare (ftyFmt t).width (relV (ftyFmt t) false fun x y => !ltV false x y && !ltV false y x) k b a kd s
/-- VCLT (R192). -/
def execVclt (t : FTy) (k : KReg) (b a : VReg) (kd : KReg) (s : State) : Out :=
  vcompare (ftyFmt t).width (relV (ftyFmt t) true fun x y => ltV false x y) k b a kd s
/-- VCLE (R192). -/
def execVcle (t : FTy) (k : KReg) (b a : VReg) (kd : KReg) (s : State) : Out :=
  vcompare (ftyFmt t).width (relV (ftyFmt t) true fun x y => !ltV false y x) k b a kd s

/-! ## VEXP2, VLOG2, VTANH (R192; log 9) -/

/-- The value is an integer; and that integer. -/
def intV (v : FV) : Option Int :=
  match v with
  | .fin s m e =>
    if e ≥ 0 ∨ m % 2 ^ (-e).toNat = 0 then
      let n : Int := (m * 2 ^ e.toNat / 2 ^ (-e).toNat : Nat)
      some (if s then -n else n)
    else none
  | .nan | .inf _ => none

/-- The exponents of the largest finite value and of the smallest subnormal of a format. -/
def emaxF (f : Fmt) : Int := (Nat.log2 (fmtMax f).1 : Int) + (fmtMax f).2
def eminSub (f : Fmt) : Int := 1 - f.bias - f.m

/-- 2^v, `hi` choosing the neighbour. -/
def exp2F (f : Fmt) (hi : Bool) (v : FV) : Nat × BitVec 5 :=
  match v with
  | .nan => (exactBits f .nan, 0)
  | .inf s => (exactBits f (if s then .fin false 0 0 else .inf false), 0)
  | .fin s m e =>
    if m ≠ 0 ∧ !s ∧ !magLt m e (emaxF f + 1).toNat 0 then (encodeInf f false, OF ||| NX)
    else if m ≠ 0 ∧ s ∧ magLt (2 - eminSub f).toNat 0 m e then approxF f hi false 1 (2 * eminSub f - 64)
    else
      match intV v with
      | some n => if n ≥ eminSub f then (encodeF f false 1 n, 0) else approxF f hi false 1 n
      | none => let q := exp2Mag v; approxF f hi false q.1 q.2

/-- log₂ v. -/
def log2F (f : Fmt) (hi : Bool) (v : FV) : Nat × BitVec 5 :=
  match v with
  | .nan => (exactBits f .nan, 0)
  | .inf s => if s then (exactBits f .nan, NV) else (encodeInf f false, 0)
  | .fin s m e =>
    if m = 0 then (encodeInf f true, DZ)
    else if s then (exactBits f .nan, NV)
    else if m = 2 ^ Nat.log2 m then
      let n : Int := (Nat.log2 m : Int) + e
      (exactBits f (.fin (decide (n < 0)) n.natAbs 0), 0)
    else
      match log2Fx m e with
      | .fin s m e => approxF f hi s m e
      | .nan | .inf _ => (exactBits f .nan, 0)

/-- tanh v. -/
def tanhF (f : Fmt) (hi : Bool) (v : FV) : Nat × BitVec 5 :=
  match v with
  | .nan => (exactBits f .nan, 0)
  | .inf s => (exactBits f (.fin s 1 0), 0)
  | .fin s m e => if m = 0 then (exactBits f v, 0) else let q := tanhMag m e; approxF f hi s q.1 q.2

/-- VEXP2, VLOG2 and VTANH: a fixed function of the input bits, within the bounds of R192; `n` numbers the function. -/
def vapprox (n : Nat) (f : Fmt → Bool → FV → Nat × BitVec 5) (t : FTy) (k : KReg) (a d : VReg) (s : State) : Out :=
  inSet allHarts s fun s => sources (kId k :: vId a :: maskedSource k d) s fun s => dests [vId d] s fun s =>
    let h := me s
    let fm := ftyFmt t
    let r := (elems fm.width (rv h a)).map fun x => f fm (Config.approxHigh n fm.m x) (decodeF fm x)
    let fl := r.zipIdx.foldl (fun g x => if maskOn (rk h k) fm.width x.2 then g ||| x.1.2 else g) 0
    done 4 (raise fl (modMe s fun h =>
      wv h d (ofElems fm.width (mergeMask (rk h k) fm.width (elems fm.width (rv h d)) (r.map (·.1))))))

/-- VEXP2 (R192). -/
def execVexp2 (t : FTy) (k : KReg) (a d : VReg) (s : State) : Out := vapprox 0 exp2F t k a d s
/-- VLOG2 (R192). -/
def execVlog2 (t : FTy) (k : KReg) (a d : VReg) (s : State) : Out := vapprox 1 log2F t k a d s
/-- VTANH (R192). -/
def execVtanh (t : FTy) (k : KReg) (a d : VReg) (s : State) : Out := vapprox 2 tanhF t k a d s

/-! ## VAMAXU (R193) -/

/-- The FP32 value of an element, a NaN as the canonical one. -/
def widenF (f : Fmt) (x : Nat) : Nat := exactBits fp32 (decodeF f x)

/-- The largest magnitude of FP32 words; a NaN sticks (R193). -/
def amax32 (l : List Nat) : Nat :=
  if l.any (fun x => isNanV (fv x)) then nan32
  else l.foldl (fun m x => exactBits fp32 (maxV (fv m) (absV (fv x)))) 0

/-- rmax of a scale-table entry raised by `m` (R193). -/
def raiseMax (x m : Nat) : Nat := if isNanV (fv x) || isNanV (fv m) then nan32 else exactBits fp32 (maxV (fv x) (fv m))

/-- The present elements of a register, widened to FP32. -/
def presentF (f : Fmt) (k : BitVec 16) (v : Vec) : List Nat :=
  (elems f.width v).zipIdx.filterMap fun x => if maskOn k f.width x.2 then some (widenF f x.1) else none

/-- The update of the line at `pa` by a unit instruction's atomic: a poisoned line stays as it is, what arrives poisoned is stored
poisoned, and a packet that is lost changes nothing; each is reported (R105, R298, R299). -/
def lineUpdate (pa : Nat) (va : Word) (f : Nat → Nat) (s : State) : State :=
  match travel (wakeSlice (dropCached s s.cur pa) pa) with
  | (s, .lost) => poisonReport s s.cur 2 va
  | (s, w) =>
    if physPoison s pa 64 then poisonReport s s.cur 2 va
    else
      let s := physWrite s pa 64 (f (memRead s.mem pa 64))
      if w == .bad then poisonReport (taintLine s pa) s.cur 2 va else s

/-- An atomic of a unit instruction on the line at `va` in G (R108, R193): `f` gives the new line. It comes after the hart's earlier
accesses to the line (R61). -/
def lineAtomic (va : Word) (f : Nat → Nat) (s : State) (k : State → Out) : Out :=
  gAccess 64 .readWrite va s fun pa s => inOrder true (hereAcc none pa 64 va) s fun s => k (lineUpdate pa va f s)

/-- The scale pointer `j` of a hart: a CSR of its tile, or, for a mender, an address that the spec does not give (R240, R303;
log 16). -/
def scalePtr (s : State) (j : Slot4) : Word :=
  match s.cur with
  | .tile t _ => (getTile s t).scp.get j
  | .mender m _ => w64 (Config.menderScp m j.val)

/-- VAMAXU (R48, R193). -/
def execVamaxu (t : FTy) (k : KReg) (j : Slot4) (a : VReg) (s : State) : Out :=
  inSet allHarts s fun s => sources [kId k, vId a] s fun s =>
    let m := amax32 (presentF (ftyFmt t) (rk (me s) k) (rv (me s) a))
    lineAtomic (scalePtr s j) (fun line =>
      raiseMax (line % 2 ^ 32) m + line / 2 ^ 32 * 2 ^ 32) s (done 4)

/-! ## VINT (R194) -/

/-- The value of an element, signed or natural. -/
def intElem (t : ITy) (x : Nat) : Int := if itySigned t then sextNat (ityWidth t) x else (x : Int)

/-- An integer clamped to the type's range. -/
def clampInt (t : ITy) (x : Int) : Int :=
  let w := ityWidth t
  let lo : Int := if itySigned t then -(2 ^ (w - 1) : Nat) else 0
  let hi : Int := if itySigned t then (2 ^ (w - 1) : Nat) - 1 else (2 ^ w : Nat) - 1
  max lo (min hi x)

/-- The low bits of an integer, as an element. -/
def wrapInt (t : ITy) (x : Int) : Nat := (x % (2 ^ ityWidth t : Nat)).toNat

/-- A VINT function of two elements. -/
def vint (t : ITy) (f : Nat → Nat → Nat) (k : KReg) (b a d : VReg) (s : State) : Out :=
  vbits (ityWidth t) f [vId b] k b a d s

/-- VIADD (R194). -/
def execViadd (t : ITy) (k : KReg) (b a d : VReg) (s : State) : Out :=
  vint t (fun x y => (x + y) % 2 ^ ityWidth t) k b a d s
/-- VISUB (R194). -/
def execVisub (t : ITy) (k : KReg) (b a d : VReg) (s : State) : Out :=
  vint t (fun x y => wrapInt t ((x : Int) - y)) k b a d s
/-- VIMUL (R194). -/
def execVimul (t : ITy) (k : KReg) (b a d : VReg) (s : State) : Out :=
  vint t (fun x y => x * y % 2 ^ ityWidth t) k b a d s
/-- VIAND (R194). -/
def execViand (t : ITy) (k : KReg) (b a d : VReg) (s : State) : Out := vint t (fun x y => x &&& y) k b a d s
/-- VIOR (R194). -/
def execVior (t : ITy) (k : KReg) (b a d : VReg) (s : State) : Out := vint t (fun x y => x ||| y) k b a d s
/-- VIXOR (R194). -/
def execVixor (t : ITy) (k : KReg) (b a d : VReg) (s : State) : Out := vint t (fun x y => x ^^^ y) k b a d s
/-- VISHL (R194). -/
def execVishl (t : ITy) (k : KReg) (b a d : VReg) (s : State) : Out :=
  vint t (fun x y => x * 2 ^ (y % ityWidth t) % 2 ^ ityWidth t) k b a d s
/-- VISHR (R194). -/
def execVishr (t : ITy) (k : KReg) (b a d : VReg) (s : State) : Out :=
  vint t (fun x y => x / 2 ^ (y % ityWidth t)) k b a d s
/-- VISRA (R194): arithmetic for every type. -/
def execVisra (t : ITy) (k : KReg) (b a d : VReg) (s : State) : Out :=
  vint t (fun x y => wrapInt t (sextNat (ityWidth t) x / (2 ^ (y % ityWidth t) : Nat))) k b a d s
/-- VIMIN (R194). -/
def execVimin (t : ITy) (k : KReg) (b a d : VReg) (s : State) : Out :=
  vint t (fun x y => if intElem t x < intElem t y then x else y) k b a d s
/-- VIMAX (R194). -/
def execVimax (t : ITy) (k : KReg) (b a d : VReg) (s : State) : Out :=
  vint t (fun x y => if intElem t x < intElem t y then y else x) k b a d s
/-- VIADDS (R194). -/
def execViadds (t : ITy) (k : KReg) (b a d : VReg) (s : State) : Out :=
  vint t (fun x y => wrapInt t (clampInt t (intElem t x + intElem t y))) k b a d s
/-- VISUBS (R194). -/
def execVisubs (t : ITy) (k : KReg) (b a d : VReg) (s : State) : Out :=
  vint t (fun x y => wrapInt t (clampInt t (intElem t x - intElem t y))) k b a d s
/-- VICEQ (R194). -/
def execViceq (t : ITy) (k : KReg) (b a : VReg) (kd : KReg) (s : State) : Out :=
  vcompare (ityWidth t) (fun x y => (x == y, 0)) k b a kd s
/-- VICLT (R194). -/
def execViclt (t : ITy) (k : KReg) (b a : VReg) (kd : KReg) (s : State) : Out :=
  vcompare (ityWidth t) (fun x y => (decide (intElem t x < intElem t y), 0)) k b a kd s

/-! ## VRED (R195) -/

/-- The registers va to va + c. -/
def redRegs (a : VReg) (c : Nib) : List VReg := (List.range (c.val + 1)).map fun i => Fin.ofNat 16 (a.val + i)

/-- The leaves of a reduction in index order, absent ones none; 16-bit elements are widened exactly. -/
def redLeaves (t : FTy) (k : BitVec 16) (h : Hart) (a : VReg) (c : Nib) : List (Option Nat) :=
  let f := ftyFmt t
  (redRegs a c).flatMap fun r => (elems f.width (rv h r)).zipIdx.map fun x =>
    if maskOn k f.width x.2 then some (if t = .f32 then x.1 else widenF f x.1) else none

/-- A reduction: the FP32 result in lane 0 of vd, lanes 1 to 15 zero. -/
def vred (f : List (Option Nat) → State → Nat × BitVec 5 × State) (t : FTy) (k : KReg) (c : Nib) (a d : VReg) (s : State) :
    Out :=
  inSet allHarts s fun s => sources (kId k :: (redRegs a c).map vId) s fun s => dests [vId d] s fun s =>
    let r := f (redLeaves t (rk (me s) k) (me s) a c) s
    done 4 (raise r.2.1 (modMe r.2.2 fun h => wv h d (BitVec.ofNat 512 (r.1 % 2 ^ 32))))

/-- VRSUM.o (R163, R195). -/
def execVrsumO (t : FTy) (k : KReg) (c : Nib) (a d : VReg) (s : State) : Out :=
  vred (fun l s => let r := orderedSum l; (r.1.getD 0, r.2, s)) t k c a d s
/-- VRSUM.u (R195): some tree over the present elements, its leaves in a free order and its splits free (log 9). -/
def execVrsumU (t : FTy) (k : KReg) (c : Nib) (a d : VReg) (s : State) : Out :=
  vred (fun l s =>
    let p := l.filterMap id
    let o := freeOrder p.length s.free p
    let r := freeTree (p.length + 1) o.2 o.1
    (r.1, r.2.1, { s with free := r.2.2 })) t k c a d s
/-- VRMAX (R195). -/
def execVrmax (t : FTy) (k : KReg) (c : Nib) (a d : VReg) (s : State) : Out :=
  vred (fun l s => ((l.filterMap id).foldl max32 nan32, 0, s)) t k c a d s
/-- VRAMAX (R195). -/
def execVramax (t : FTy) (k : KReg) (c : Nib) (a d : VReg) (s : State) : Out :=
  vred (fun l s => ((l.filterMap id).foldl (fun m x => max32 m (x % 2 ^ 31)) nan32, 0, s)) t k c a d s
/-- VRMIN (R195). -/
def execVrmin (t : FTy) (k : KReg) (c : Nib) (a d : VReg) (s : State) : Out :=
  vred (fun l s => ((l.filterMap id).foldl min32 nan32, 0, s)) t k c a d s

/-! ## VPERM (R196) -/

/-- A permutation under a mask: `f` gives element `i` from the elements of va and vb. -/
def vperm (t : EltW) (f : List Nat → List Nat → Nat → Nat) (srcs : List RegId) (k : KReg) (b a d : VReg) (s : State) : Out :=
  inSet allHarts s fun s => sources (kId k :: vId a :: srcs ++ maskedSource k d) s fun s => dests [vId d] s fun s =>
    let w := eltWidth t
    done 4 (modMe s fun h =>
      let new := (List.range (512 / w)).map (f (elems w (rv h a)) (elems w (rv h b)))
      wv h d (ofElems w (mergeMask (rk h k) w (elems w (rv h d)) new)))

/-- VSHUF (R196). -/
def execVshuf (t : EltW) (k : KReg) (b a d : VReg) (s : State) : Out :=
  vperm t (fun x y i => nth x (nth y i)) [vId b] k b a d s
/-- VBCAST (R196). -/
def execVbcast (t : EltW) (k : KReg) (n : Nib) (a d : VReg) (s : State) : Out :=
  vperm t (fun x _ _ => nth x n.val) [] k a a d s
/-- VSLIDE (R196). -/
def execVslide (t : EltW) (k : KReg) (n : Nib) (a d : VReg) (s : State) : Out :=
  vperm t (fun x _ i => nth x (i + n.val)) [] k a a d s

/-- VINS (R196): vd is read. -/
def execVins (g : GReg) (n : Nib) (d : VReg) (s : State) : Out :=
  inSet allHarts s fun s => sources [gId g, vId d] s fun s => dests [vId d] s fun s =>
    done 4 (modMe s fun h => wv h d (ofElems 32 ((elems 32 (rv h d)).set n.val ((rg h g).toNat % 2 ^ 32))))

/-- VEXT (R196). -/
def execVext (g : GReg) (n : Nib) (a : VReg) (s : State) : Out :=
  inSet allHarts s fun s => sources [vId a] s fun s => dests [gId g] s fun s =>
    done 4 (modMe s fun h => wg h g (i64 (sextNat 32 (nth (elems 32 (rv h a)) n.val))))

end Sys2Proof.Machine
end

