-- ==== Sys2Proof/Machine/GradQueue.lean ====
section
/-! DEFINITION. Gradient queues (R304 to R308; log 18). -/

namespace Sys2Proof.Machine

/-! ## Descriptors (R305) -/

/-- Fields of a descriptor. -/
def gqType (l : Nat) : Nat := bits l 0 3
def gqRk (l : Nat) : Bool := bitAt l 3
def gqEn (l : Nat) : Bool := bitAt l 4
def gqSlot (l : Nat) : Nat := bits l 5 3
def gqMender (l : Nat) : Nat := bits l 8 7
def gqCap (l : Nat) : Nat := bits l 16 6
def gqRtile (l : Nat) : Nat := bits l 32 13
def gqSvc (l : Nat) : Word := w64 (bits l 64 64)
def gqCtx (l : Nat) : Word := w64 (bits l 128 64)
def gqCred (l : Nat) : Nat := bits l 192 8
def gqOcc (l : Nat) : Nat := bits l 200 8
def gqOff (l : Nat) : Nat := bits l 224 17
def gqPushes (l : Nat) : Nat := bits l 256 64
def gqPops (l : Nat) : Nat := bits l 320 64

/-- A reserved bit is set. -/
def gqReserved (l : Nat) : Bool :=
  bitAt l 15 || bits l 22 10 != 0 || bits l 45 19 != 0 || bits l 208 16 != 0 || bits l 241 15 != 0 || bits l 384 64 != 0

/-- The descriptor fails the check of reason 1 for a handle of type `ty` (R308). -/
def gqInvalid (l ty : Nat) : Bool :=
  decide (gqType l ≥ 6) || gqCap l == 0 || decide (gqCap l > 56) || gqOff l % 8 != 0 ||
    decide (gqOff l + 72 * gqCap l > (if gqRk l then 0x2_0000 else 4096)) || (gqRk l && decide (gqRtile l > 4607)) ||
    ty != gqType l || !gqEn l

/-- The descriptor address and the type of a handle (R306). -/
def gqDesc (h : Nat) : Nat := h / 64 * 64
def gqHandleType (h : Nat) : Nat := h % 8

/-- The checks that every GQ instruction makes first (R308): the descriptor's physical address and value. A GQ instruction waits for the
hart's earlier accesses to it in its slot, an OPT *parked* (R54, R61). -/
def gqChecked (holds : Bool) (h : Word) (s : State) (k : Nat → Nat → State → Out) : Out :=
  let d := w64 (gqDesc h.toNat)
  if bits h.toNat 3 3 ≠ 0 then trap 0x01 h s
  else blockRead holds 64 .readWrite d s fun pa l s =>
    if gqReserved l then trap 0x01 d s
    else if gqInvalid l (gqHandleType h.toNat) then trap 0x44 1 s
    else k pa l s

/-- The issuer is the queue's receiver (R308). -/
def gqReceiver (l : Nat) (h : HartId) : Bool :=
  match h with
  | .tile t i => gqRk l && t == gqRtile l && decide (i.val < 8)
  | .mender m i => !gqRk l && m == gqMender l && i.val == gqSlot l

/-! ## Entries (R305) -/

/-- The offset of ring place `i`. -/
def gqPlace (l i : Nat) : Nat := gqOff l + 72 * i

/-- Granule `g` of the ring's memory is poisoned: an L-store's, or a mender's buffer (R94, R296; log 44). -/
def ringBad (s : State) (l g : Nat) : Bool :=
  if gqRk l then granBad (getTile s (gqRtile l)) .l g else (getMender s (gqMender l)).poison.contains g

/-- Some of `n` bytes at offset `a` of the ring's memory lie in a poisoned granule. -/
def ringPoison (s : State) (l a n : Nat) : Bool :=
  (List.range ((a + n - 1) / 32 + 1 - a / 32)).any fun i => ringBad s l (a / 32 + i)

/-- The doubleword at offset `a` of the ring's memory; poison reads as zero (R94). -/
def ringDword (s : State) (l a : Nat) : Nat :=
  if ringBad s l (a / 32) then 0
  else memRead (if gqRk l then (getTile s (gqRtile l)).l else (getMender s (gqMender l)).buf) a 8

/-- The 72 bytes of the entry at ring place `i`; every ring starts on a doubleword (R305). -/
def gqEntry (s : State) (l i : Nat) : Nat := packBits 64 ((List.range 9).map fun k => ringDword s l (gqPlace l i + 8 * k))

/-- Writes an entry: 64 bytes of payload and the key. The write of an L-store wakes its tile (R64). -/
def gqPutEntry (s : State) (l i payload key : Nat) : State :=
  let a := gqPlace l i
  if gqRk l then modTile (rouse s (gqRtile l)) (gqRtile l) fun t => storeWrite (storeWrite t .l a 64 payload) .l (a + 64) 8 key
  else
    let m := getMender s (gqMender l)
    setMender s (gqMender l) { m with buf := memWrite m.buf a 72 (payload + key * 2 ^ 512),
                                      poison := m.poison.filter fun g => !granWhole a 72 g }

/-- The descriptor after a push, and after a pop. -/
def gqAfterPush (l : Nat) : Nat :=
  putBits (putBits (putBits l 192 8 (gqCred l - 1)) 200 8 (gqOcc l + 1)) 256 64 (gqPushes l + 1)
def gqAfterPop (l : Nat) : Nat := putBits (putBits l 200 8 (gqOcc l - 1)) 320 64 (gqPops l + 1)

/-- A push at the home: a credit is used, the entry is written at the ring's tail (R308; log 18). -/
def gqPush (s : State) (pa l payload key : Nat) : State :=
  gqPutEntry (physWrite s pa 64 (gqAfterPush l)) l (gqPushes l % gqCap l) payload key

/-! ## Waiting at the home (R308) -/

/-- An agent waits at the descriptor, to push or to pop: a hart, or the wringer for an episode (R321). -/
def gqWaiting (s : State) (pa : Nat) (push : Bool) (x : Agent) : Bool :=
  match x with
  | .hart h => waitOf (getHart s h) == some (.gradQueue pa push) || (!push && optWaits (getHart s h) pa)
  | .episode _ _ => push
  | _ => false

/-- The agents that wait for the same before `x` came; all that wait, where `x` does not. -/
def gqAhead (s : State) (pa : Nat) (push : Bool) (x : Agent) : List (Nat × Agent) :=
  (s.gqWait.takeWhile (· != (pa, x))).filter fun w => w.1 == pa && gqWaiting s pa push w.2

/-- No agent that waits for the same came before `x`. -/
def gqTurn (s : State) (pa : Nat) (push : Bool) (x : Agent) : Bool := (gqAhead s pa push x).isEmpty

/-- An agent waits at the descriptor, behind those that wait. -/
def gqEnter (s : State) (pa : Nat) (x : Agent) : State :=
  if s.gqWait.contains (pa, x) then s else { s with gqWait := s.gqWait ++ [(pa, x)] }

/-- The executing hart waits at the descriptor. -/
def gqPark (pa : Nat) (push : Bool) (s : State) : Out := park (.gradQueue pa push) (gqEnter s pa (.hart s.cur))

/-- An agent leaves the waiters at the descriptor. -/
def gqLeave (s : State) (pa : Nat) (x : Agent) : State := { s with gqWait := s.gqWait.filter (· != (pa, x)) }

/-! ## The instructions -/

/-- The entry that the last push wrote arrived poisoned: its granules are poisoned, in an L-store or a mender's buffer (R296, R298;
log 44). -/
def gqTaint (s : State) (l : Nat) : State :=
  let a := gqPlace l (gqPushes l % gqCap l)
  if gqRk l then modTile s (gqRtile l) fun t => storeTaint t .l a 72
  else
    let m := getMender s (gqMender l)
    setMender s (gqMender l) { m with poison := (List.range ((a + 71) / 32 + 1 - a / 32)).foldl (fun p i => insNat p (a / 32 + i)) m.poison }

/-- A push of the executing hart at the home, as its packet arrives (R298, R299). -/
def gqPushed (pa l : Nat) (payload key : Nat) (dv : Word) (s : State) : State :=
  match travel s with
  | (s, .whole) => gqPush s pa l payload key
  | (s, .bad) => poisonReport (gqTaint (gqPush s pa l payload key) l) s.cur 2 dv
  | (s, .lost) => poisonReport s s.cur 2 dv

/-- A push into a tile's L-store waits for the wake of a tile that sleeps at depth 2 (R64). -/
def gqAwake (l : Nat) (s : State) (k : State → Out) : Out := if gqRk l then awake (gqRtile l) s k else k s

/-- GQPUSH (R308). -/
def execGqpush (b a : GReg) (d : VReg) (s : State) : Out :=
  inSet threadOrMender s fun s => sources [gId a, gId b, vId d] s fun s =>
    let key := rg (me s) b
    let dv := w64 (gqDesc (rg (me s) a).toNat)
    gqChecked true (rg (me s) a) s fun pa l s =>
      if key.toNat / 2 ^ 56 ≠ 0 then trap 0x01 key s
      else heldAcked s fun s =>
        if gqRk l ∧ switchedOut s (hartCtx s s.cur) (gqRtile l) then parkHeld (gqRtile l) false .m (gqOff l) s
        else if gqCred l = 0 ∨ !gqTurn s pa true (.hart s.cur) then gqPark pa true s
        else gqAwake l s fun s =>
          done 4 (gqPushed pa l (rv (me s) d).toNat key.toNat dv (gqLeave s pa (.hart s.cur)))

/-- The number of destination registers of a type (R308). -/
def gqGroup (ty : Nat) : Nat :=
  match ty with
  | 1 | 2 => 2
  | 3 | 4 => 4
  | _ => 1

/-- The format of a queue's elements (R306). -/
def gqFmt (ty : Nat) : Fmt :=
  match ty with
  | 0 => fp32
  | 1 => bf16
  | 2 => fp16
  | 3 => e4m3
  | _ => e5m2

/-- The elements of an entry decoded to FP32 under the key's scale (R306). -/
def gqDecode (ty payload key : Nat) : List (Nat × BitVec 5) :=
  let f := gqFmt ty
  let sc := bits key 48 8
  (unpackBits f.width (512 / f.width) payload).map fun x =>
    if sc = 0xFF then (nan32, 0) else rne32 (scaleV (decodeF f x) ((sc : Int) - 127))

/-- What a pop writes: the destination registers from v[d] on, and the flags. -/
def gqDeliver (h : Hart) (ty payload key : Nat) (d : VReg) : Hart :=
  if ty = 5 then wv h d (BitVec.ofNat 512 payload)
  else
    let l := gqDecode ty payload key
    let h := (List.range (gqGroup ty)).foldl (fun h i =>
      wv h (Fin.ofNat 16 (d.val + i)) (ofElems 32 (((l.map (·.1)).drop (16 * i)).take 16))) h
    { h with fflags := h.fflags ||| l.foldl (fun f x => f ||| x.2) 0 }

/-- A pop of hart `h`, for its instruction at `pc`, meets the errors of an entry in an L-store, and reports its poison: the address in
the L-store, or, for an entry in a mender's buffer, that of the descriptor, `dv` (R94, R296, R297; log 44). -/
def gqMeet (s : State) (h : HartId) (pc dv : Word) (l : Nat) : State :=
  let a := gqPlace l (gqPops l % gqCap l)
  let s := if gqRk l then meetFlaws s (gqRtile l) .l a 72 else s
  if !ringPoison s l a 72 then s else if gqRk l then poisonReportAt s h pc 0 (w64 a) else poisonReportAt s h pc 2 dv

/-- GQPOP (R308). -/
def execGqpop (b a : GReg) (d : VReg) (s : State) : Out :=
  inSet threadOrMender s fun s => sources [gId a] s fun s =>
    gqChecked true (rg (me s) a) s fun pa l s =>
      if !gqReceiver l s.cur then trap 0x44 2 s
      else if d.val % gqGroup (gqType l) ≠ 0 then trap 0x44 5 s
      else dests (gId b :: (List.range (gqGroup (gqType l))).map fun i => vId (Fin.ofNat 16 (d.val + i))) s fun s =>
        if gqOcc l = 0 ∨ !gqTurn s pa false (.hart s.cur) ∨ optWaits (me s) pa then gqPark pa false s
        else
          let s := gqMeet s s.cur (me s).pc (w64 (gqDesc (rg (me s) a).toNat)) l
          let e := gqEntry s l (gqPops l % gqCap l)
          let key := e / 2 ^ 512
          let s := physWrite (gqLeave s pa (.hart s.cur)) pa 64 (gqAfterPop l)
          done 4 (acquire (modMe s fun h => wg (gqDeliver h (gqType l) (e % 2 ^ 512) key d) b (w64 key)) s.cur)

/-- GQWIN (R308). -/
def execGqwin (b a : GReg) (s : State) : Out :=
  inSet threadOrMender s fun s => sources [gId a, gId b] s fun s =>
    let n := (rg (me s) b).toNat
    gqChecked true (rg (me s) a) s fun pa l s =>
      if !gqReceiver l s.cur then trap 0x44 2 s
      else if n / 2 ^ 8 ≠ 0 ∨ gqOcc l + gqCred l + n > gqCap l then trap 0x44 3 s
      else done 4 (physWrite s pa 64 (putBits l 192 8 (gqCred l + n)))

/-- GQLEN (R308). -/
def execGqlen (d a : GReg) (s : State) : Out :=
  inSet threadOrMender s fun s => sources [gId a] s fun s =>
    gqChecked true (rg (me s) a) s fun _ l s => dests [gId d] s fun s =>
      done 4 (modMe s fun h => wg h d (w64 (gqOcc l + 256 * gqCred l)))

/-! ## A unit's push (R319, R321) -/

/-- What a unit's push came to. -/
inductive UnitPush where
  | pushed
  /-- without a credit, at the descriptor of this physical address -/
  | noCredit (pa : Nat)
  | wait
  | bad (cause : Nat)
deriving DecidableEq, Repr

/-- The queue takes the push of agent `x` for context `c`: it accepts pushes, and has a credit beyond those of the waiters that came
before (R308). -/
def gqTakes (s : State) (x : Agent) (c pa l h : Nat) : Bool :=
  !gqReserved l && !gqInvalid l (gqHandleType h) && decide ((gqAhead s pa true x).length < gqCred l) &&
    !(gqRk l && switchedOut s c (gqRtile l))

/-- The tile that a push of context `c` to the queue of handle `h` would find asleep at depth 2: the push wakes it and waits (R64). -/
def pushSleeps (s : State) (c h : Nat) : Option Nat :=
  match peekPa s c (gqDesc h) .readWrite with
  | .ok pa =>
    let l := memRead s.mem pa 64
    if gqRk l && gqEn l && lSleeps s (gqRtile l) then some (gqRtile l) else none
  | _ => none

/-- The push would wake a tile; not one that is waking already. -/
def pushRouses (s : State) (c h : Nat) : Bool := (pushSleeps s c h).all fun t => (getTile s t).asleep

/-- A unit of die `d` pushes a raw entry to the queue of handle `h` in context `c`; a queue that refuses pushes has no
credit. -/
def unitPush (s : State) (d : Fin 4) (c h payload key : Nat) : State × UnitPush :=
  match unitRead s d c (gqDesc h) 64 .readWrite with
  | (s, .wait) => (s, .wait)
  | (s, .bad cause) => (s, .bad cause)
  | (s, .ok pa l) =>
    if gqTakes s s.agent c pa l h then (gqPush (gqLeave s pa s.agent) pa l payload key, .pushed) else (s, .noCredit pa)

/-! ## Mender slots (R304) -/

/-- The context whose descriptor address a queue descriptor names. -/
def ctxOfDesc (s : State) (w : Word) : Option Nat := (s.ctxs.find? fun c => c.2.desc == w && !c.2.destroyed).map (·.1)

/-- The lowest virtual address below a table of level `l` that a leaf maps to `pa`, for the addresses from `va` on. -/
def vaBelow (s : State) (t : Tfd) (pa : Nat) : Nat → Nat → Nat → Option Nat
  | 0, _, _ => none
  | l + 1, base, va =>
    (List.range 512).findSome? fun i =>
      let pte := memRead s.mem (base + 8 * i) 8
      let f := pte / 2 ^ t.ppos % 2 ^ t.pwid * 4096
      let va := va + i * 2 ^ (12 + 9 * l)
      if physPoison s (base + 8 * i) 8 || !bitAt pte t.vpos then none
      else if isLeaf t pte then
        if f ≤ pa ∧ pa < f + 2 ^ (12 + 9 * l) then some (va + (pa - f)) else none
      else vaBelow s t pa l f va

/-- The virtual address of a physical address in a context: the lowest that its tables map there (log 18). An address above the
canonical middle has its upper bits set (R278). -/
def vaOf (s : State) (c pa : Nat) : Option Nat :=
  (alGet s.ctxs c).bind fun x => (vaBelow s x.tfd pa x.tfd.levels x.root 0).map fun va =>
    if x.tfd.levels < 6 && x.tfd.canon != 1 && bitAt va (tfdTop x.tfd) then va + (2 ^ 64 - 2 ^ (tfdTop x.tfd + 1)) else va

/-- The descriptor that waits for a mender's slot, EN still set. -/
def slotPending (s : State) (m : Nat) (i : Fin 8) : Option Nat :=
  (getMender s m).pend.find? fun pa => let l := memRead s.mem pa 64; gqEn l && gqSlot l == i.val

/-- The slot is *free* and a descriptor waits for it; what its last program has on its way is delivered first. -/
def slotStartable (s : State) (m : Nat) (i : Fin 8) : Bool :=
  ((getMender s m).harts.get i).status == .free && ((getMender s m).harts.get i).out == [] && (slotPending s m i).isSome

/-- MENDER_SLOT_START (R304). -/
def execMenderSlotStart (s : State) : Out :=
  match s.ev with
  | .hart (.mender m i) =>
    match slotPending s m i with
    | some pa =>
      if ((getMender s m).harts.get i).status != .free then .next s
      else
        let l := memRead s.mem pa 64
        let x := getMender s m
        let s := setMender s m { x with pend := x.pend.filter (· != pa) }
        match ctxOfDesc s (gqCtx l) with
        | none => .next s
        | some c =>
          let (s, n) := nextFree s
          let va := (vaOf s c pa).getD (Config.freeWord n % 2 ^ 58 * 64)
          let h := wg { Hart.reset with status := .ready, pc := gqSvc l } 8 (w64 (va + gqType l))
          let x := getMender s m
          .next (setMender s m { x with harts := x.harts.set i h, use := x.use.set i (some ⟨pa, c⟩) })
    | none => .next s
  | _ => .next s

/-- A slot is to become *free*: EN of its queue was cleared while it waited in GQPOP on that queue or was *trapped*, or is clear while
it is *trapped* (R304, R308). -/
def slotFreed (s : State) (m : Nat) (i : Fin 8) : Bool :=
  let x := getMender s m
  x.ended.contains i ||
    match x.use.get i with
    | some u => !gqEn (memRead s.mem u.desc 64) && (x.harts.get i).status == .trapped
    | none => false

/-- An agent waits at no queue any more. -/
def gqForget (s : State) (x : Agent) : State := { s with gqWait := s.gqWait.filter (·.2 != x) }

/-- A mender's slot becomes *free*; an OPT that still waits there goes no further. -/
def freeMenderSlot (s : State) (m : Nat) (i : Fin 8) : State :=
  let s := gqForget s (.hart (.mender m i))
  let x := getMender s m
  setMender s m { x with harts := x.harts.set i { x.harts.get i with status := .free, out := (x.harts.get i).out.filter (!isOpt ·) }, use := x.use.set i none,
                         ended := x.ended.filter (· != i) }

/-- GQ_EN_CLEAR (R304, R308). -/
def execGqEnClear (s : State) : Out :=
  match s.ev with
  | .hart (.mender m i) => if slotFreed s m i then .next (freeMenderSlot s m i) else .next s
  | _ => .next s

end Sys2Proof.Machine
end

