-- ==== Sys2Proof/Machine/Episode.lean ====
section
/-! DEFINITION. Episodes: the claim-ticket tables and the wringers (R313 to R323, R364, R365; log 21). -/

namespace Sys2Proof.Machine

/-! ## Domains, records and entries (R313 to R315) -/

/-- Byte offsets in a domain. -/
def domTmo : Nat := 16
def domOdrop : Nat := 20
def domLq : Nat := 24
def domOq : Nat := 32
def domSq : Nat := 40
def domOrph : Nat := 48
def domStale : Nat := 56
def domCsn (d : Fin 4) : Nat := 64 + 8 * d.val
def domRel (d : Fin 4) : Nat := 96 + 8 * d.val

/-- The address of step record `i`. -/
def stepRec (e : Episode) (i : Nat) : Nat := (e.buf.toNat + 16 * i) % 2 ^ 64

/-- The table of a die. -/
def epTable (s : State) (d : Fin 4) : List Episode := (s.dies.get d).eps

/-- The entry at an index. -/
def epFind (s : State) (d : Fin 4) (idx : Nat) : Option Episode := (epTable s d).find? (·.idx == idx)

/-- The entry with a key (R315). -/
def epKey (s : State) (d : Fin 4) (c : Nat) (dom : Word) (id : Nat) : Option Episode :=
  (epTable s d).find? fun e => e.ctx == c && e.dom == dom && e.id == id

/-- Replaces an entry. -/
def epSet (s : State) (d : Fin 4) (e : Episode) : State :=
  let x := s.dies.get d
  { s with dies := s.dies.set d { x with eps := x.eps.map fun y => if y.idx = e.idx then e else y } }

/-- Frees an entry. -/
def epDel (s : State) (d : Fin 4) (idx : Nat) : State :=
  let x := s.dies.get d
  gqForget { s with dies := s.dies.set d { x with eps := x.eps.filter (·.idx != idx) } } (.episode d.val idx)

/-- The lowest-numbered *free* entry (R365). -/
def epFree (s : State) (d : Fin 4) : Option Nat := (List.range 16384).find? fun i => !(epTable s d).any (·.idx == i)

/-- The die and the index of a ticket (R315). -/
def ticketDie (w : Nat) : Fin 4 := Fin.ofNat 4 (w / 2 ^ 14)
def ticketIdx (w : Nat) : Nat := w % 2 ^ 14

/-- The entry that a ticket names; another context's counts as *free* (R317). -/
def ticketEntry (s : State) (w : Word) : Option Episode :=
  (epFind s (ticketDie w.toNat) (ticketIdx w.toNat)).filter fun e => e.ctx == hartCtx s s.cur

/-- That entry, if it is *open* (R317). -/
def openEntry (s : State) (w : Word) : Option Episode := (ticketEntry s w).filter fun e => e.st == .opened

/-- Every reward of the recorded steps is present. -/
def allPresent (e : Episode) : Bool := (List.range e.count).all fun i => e.rp.contains i

/-- The state of an entry as EPSTAT gives it. -/
def epCode (x : EpState) : Nat :=
  match x with
  | .opened => 1
  | .joining => 2
  | .judged => 3
  | .releasing => 4

/-! ## Orphans (R319) -/

/-- The record of an orphan. -/
def orphanRecord (s : State) (m : RewardMsg) (reason : Nat) : Nat :=
  m.id % 2 ^ 48 + m.step % 2 ^ 16 * 2 ^ 48 + m.reward.toNat * 2 ^ 64 + reason * 2 ^ 128 + timeNs s % 2 ^ 64 * 2 ^ 192

/-- The page of the domain that an orphan is counted in is at hand, or the table waits for it. -/
def orphanReady (s : State) (d : Fin 4) (c dom : Nat) : State × Option Nat := unitReady s d c .readWrite [dom]

/-- The tile that the record of an orphan would find asleep at depth 2 (R64). -/
def orphanSleeps (s : State) (c dom : Nat) : Option Nat :=
  match peekPa s c dom .read with
  | .ok pa => pushSleeps s c (memRead s.mem (pa + domOq) 8)
  | _ => none

/-- An orphan is counted, and its record is pushed to oq or dropped without credit: the table waits neither for a credit nor for the
page of oq (R319). -/
def orphan (s : State) (d : Fin 4) (m : RewardMsg) (reason : Nat) : State :=
  let dom := m.dom.toNat
  let r := orphanRecord s m reason
  let s := (unitBump s d m.ctx 1 dom (dom + domOrph) 8).1
  let (s, oq) := unitGet s d m.ctx (dom + domOq) 8
  match unitPush s d m.ctx oq r 0 with
  | (s, .pushed) => s
  | (s, .bad cause) => writeDropped s d m.ctx 1 cause (gqDesc oq) (gqDesc oq)
  | (s, .noCredit _) => (unitBump s d m.ctx 1 dom (dom + domOdrop) 4).1
  | (s, .wait) => (unitBump (unitForgets s d) d m.ctx 1 dom (dom + domOdrop) 4).1

/-! ## The instructions (R316, R317) -/

/-- A ticket with bits above [15:0] set traps (R317). -/
def withTicket (a : GReg) (s : State) (k : Word → State → Out) : Out :=
  let w := rg (me s) a
  if w.toNat / 2 ^ 16 ≠ 0 then trap 0x01 w s else k w s

/-- The open block (R314): dom, buf, cap, ver. -/
def opDom (b : Nat) : Word := w64 (bits b 0 64)
def opBuf (b : Nat) : Word := w64 (bits b 64 64)
def opCap (b : Nat) : Nat := bits b 128 13
def opVer (b : Nat) : Nat := bits b 160 32
def opReserved (b : Nat) : Bool := bits b 141 19 != 0 || bits b 192 320 != 0

/-- A domain of 128 bytes is read at issue, a line in a packet, after the hart's earlier accesses to it (R61, R317, R318). -/
def domRead (need : Need) (dom : Word) (s : State) (k : Nat → State → Out) : Out :=
  gAccess 128 need dom s fun pa s => inOrder true (hereAcc none pa 128 dom) s fun s =>
    let (s, lo, b) := lineRead s pa 64
    let (s, hi, c) := lineRead s (pa + 64) 64
    k (lo + hi * 2 ^ 512) (if b || c then notePoisonRead false s s.cur 2 dom else s)

/-- The step buffer is checked at issue over cap records (R281): its physical chunks. -/
def bufChunks (b : Nat) (s : State) (k : List (Nat × Nat) → State → Out) : Out :=
  match xlateChunks s (hartDie s.cur) (looksIn s.cur) (hartCtx s s.cur) .readWrite (me s).refused
      (rowChunks (opBuf b).toNat (16 * opCap b)) with
  | (s, .ok l) => k l s
  | (s, .absent vpn) => park (.page (hartCtx s s.cur) vpn) s
  | (s, .bad cause va) => trap cause (w64 va) s

/-- Cap, buffer or a queue handle is out of range (R317, reason 3). -/
def opBad (b dom : Nat) : Bool :=
  opCap b == 0 || decide (opCap b > 4096) || (opBuf b).toNat % 16 != 0 || bits dom 192 3 != 5 || bits dom 256 3 != 5 ||
    bits dom 320 3 != 5

/-- The table zeroes the records of an episode, after the hart's earlier accesses to them (R61, R317). -/
def bufOrder (l : List (Nat × Nat)) (b : Nat) (s : State) (k : State → Out) : Out :=
  let accs := (l.zip (rowChunks (opBuf b).toNat (16 * opCap b))).map fun c => hereAcc none c.1.1 c.1.2 (w64 c.2.1)
  match accs.find? (ahead s · != []) with
  | some a => hold (.order a) s
  | none => k s

/-- EPOPEN at the table (R317, R365): what g[d] receives. -/
def epOpenAt (s : State) (id b : Nat) (l : List (Nat × Nat)) : State × Word :=
  let d := Fin.ofNat 4 id
  let c := hartCtx s s.cur
  if (epKey s d c (opDom b) id).isSome then (s, w64 (2 ^ 63 + 2))
  else
    match epFree s d with
    | none => (s, w64 (2 ^ 63 + 1))
    | some i =>
      let s := (l.zip (rowChunks (opBuf b).toNat (16 * opCap b))).foldl (fun s c => lineWrite s.cur (me s).pc s c.1.1 c.2.1 c.1.2 0) s
      let e : Episode :=
        { idx := i, ctx := c, dom := opDom b, id := id, st := .opened, buf := opBuf b, cap := opCap b, ver := opVer b,
          count := 0, rp := [], csn := 0, closed := 0, tmo := 0, tmoHit := false, stale := false, lag := 0, miss := 0 }
      let x := s.dies.get d
      ({ s with dies := s.dies.set d { x with eps := x.eps ++ [e] } }, w64 (i + 2 ^ 14 * d.val))

/-- EPOPEN (R317). -/
def execEpopen (d a b : GReg) (s : State) : Out :=
  inSet threadOrMender s fun s => sources [gId a, gId b] s fun s =>
    let id := rg (me s) a
    let blk := rg (me s) b
    if id.toNat / 2 ^ 48 ≠ 0 then trap 0x01 id s
    else blockRead true 64 .read blk s fun _ o s =>
      if opReserved o then trap 0x01 blk s
      else domRead .readWrite (opDom o) s fun dv s =>
        if opBad o dv then trap 0x45 3 s
        else bufChunks o s fun l s => bufOrder l o s fun s => dests [gId d] s fun s =>
          let r := epOpenAt s id.toNat o l
          done 4 (modMe r.1 fun h => wg h d r.2)

/-- V and *done* of a step record are written by the executing hart, as its packet arrives (R298, R299, R314): its own cached line
follows (R91). -/
def recordStep (s : State) (pa : Nat) (v ea : Word) : State :=
  let put (s : State) : State :=
    let s := homeWrite s s.cur (hereAcc none pa 4 ea) (v.toNat % 2 ^ 32)
    homeWrite s s.cur (hereAcc none (pa + 12) 1 ea) (memRead s.mem (pa + 12) 1 / 2 * 2 + v.toNat / 2 ^ 32)
  match travel s with
  | (s, .whole) => put s
  | (s, .bad) => poisonReport (taintLine (put s) pa) s.cur 2 ea
  | (s, .lost) => poisonReport s s.cur 2 ea

/-- EPREC (R317). -/
def execEprec (d a b : GReg) (s : State) : Out :=
  inSet threadOrMender s fun s => sources [gId a, gId b] s fun s => withTicket a s fun w s =>
    match openEntry s w with
    | none => trap 0x45 1 s
    | some e =>
      let v := rg (me s) b
      if v.toNat / 2 ^ 33 ≠ 0 then trap 0x01 v s
      else if e.count = e.cap then trap 0x45 2 s
      else dests [gId d] s fun s => withPa 0x18 (w64 (stepRec e e.count)) .write s fun pa s =>
        inOrder true (hereAcc none pa 16 (w64 (stepRec e e.count))) s fun s =>
        let s := recordStep s pa v (w64 (stepRec e e.count))
        let s := epSet s (ticketDie w.toNat) { e with count := e.count + 1 }
        done 4 (modMe s fun h => wg h d (w64 e.count))

/-- The rewards at or above count at a close are orphans of reason 3 (R317). -/
def closeOrphans (s : State) (d : Fin 4) (e : Episode) : List Nat → State
  | [] => s
  | i :: r =>
    let (s, v) := unitGet s d e.ctx (stepRec e i + 4) 4
    closeOrphans (orphan s d ⟨e.ctx, e.dom, e.id, i, BitVec.ofNat 32 v⟩ 3) d e r

/-- The entry at EPCLOSE: *judged* if every reward of the recorded steps is present, else *joining* (R315). -/
def epClosed (s : State) (e : Episode) (csn tmo : Nat) : Episode :=
  let e := { e with csn := csn, closed := s.cycle, tmo := tmo, rp := e.rp.filter (decide <| · < e.count) }
  { e with st := if allPresent e then .judged else .joining }

/-- The tile that a close would find asleep at depth 2, by the records of its orphans (R64). -/
def closeSleeps (s : State) (e : Episode) : Option Nat :=
  if e.rp.any (decide <| e.count ≤ ·) then orphanSleeps s e.ctx e.dom.toNat else none

/-- The pages that an EPCLOSE touches are at hand. -/
def closeReady (s : State) (d : Fin 4) (e : Episode) : State × Option Nat :=
  match orphanReady s d e.ctx e.dom.toNat with
  | (s, none) => unitReady s d e.ctx .read ((e.rp.filter (decide <| e.count ≤ ·)).map (stepRec e))
  | x => x

/-- A close at the table of die `t`, by a unit of die `k`, whose pages are at hand: the close number (R317). -/
def closeAt (s : State) (k t : Fin 4) (e : Episode) : State × Nat :=
  let dom := e.dom.toNat
  let (s, got) := unitBump s k e.ctx 1 dom (dom + domCsn t) 8
  let (s, n) := nextFree s
  let csn := got.getD (Config.freeWord n % 2 ^ 64)
  let (s, tmo) := unitGet s k e.ctx (dom + domTmo) 4
  let s := closeOrphans s k e (e.rp.filter (decide <| e.count ≤ ·))
  (unitSettled (epSet s t (epClosed s e csn tmo)) k, csn)

/-- Something reaches the table of a die (R318, R323, R364). -/
def enqueueArrival (s : State) (d : Fin 4) (x : Arrival) : State :=
  let y := s.dies.get d
  { s with dies := s.dies.set d { y with arrivals := y.arrivals ++ [x] } }

/-- The EPCLOSE of hart `h`, which has reached the table of its entry. -/
def closeArrival (s : State) (h : HartId) (e : Episode) (d : GReg) : Arrival :=
  ⟨⟨e.ctx, e.dom, e.id, 0, 0⟩, some (h, (getHart s h).pc + 4), none, false, s.cycle, some (e.idx, d), s.reads⟩

/-- What is to be pushed into the L-store of a tile that sleeps at depth 2 wakes it, and the instruction waits (R64). -/
def awakeAll (t : Option Nat) (s : State) (k : State → Out) : Out :=
  match t with
  | some t => park (.waking t) (rouse s t)
  | none => k s

/-- EPCLOSE (R317). It is taken behind the rewards that reached the table before (R323); where none waits there, the table acts at once,
with the translations of the hart's die. -/
def execEpclose (d a : GReg) (s : State) : Out :=
  inSet threadOrMender s fun s => sources [gId a] s fun s => withTicket a s fun w s =>
    match openEntry s w with
    | none => trap 0x45 1 s
    | some e => dests [gId d] s fun s =>
      let t := ticketDie w.toNat
      if (s.dies.get t).arrivals ≠ [] then
        let (s, id) := freshId s
        park (.closing id) (enqueueArrival s t (closeArrival s s.cur e d))
      else
        let s := actFor (.hart s.cur) s
        let k := hartDie s.cur
        match closeReady s k e with
        | (s, some vpn) => park (.page e.ctx vpn) s
        | (s, none) => awakeAll (closeSleeps s e) s fun s => let (s, csn) := closeAt s k t e; done 4 (modMe s fun h => wg h d (w64 csn))

/-- EPSTAT (R317). -/
def execEpstat (d a : GReg) (s : State) : Out :=
  inSet threadOrMender s fun s => sources [gId a] s fun s => withTicket a s fun w s => dests [gId d] s fun s =>
    let v := match ticketEntry s w with
      | some e => epCode e.st + e.count * 2 ^ 16 + e.rp.length * 2 ^ 32
      | none => 0
    done 4 (modMe s fun h => wg h d (w64 v))

/-- The message of an RWSEND (R318). -/
def rewardOf (c : Nat) (dom a b : Word) : RewardMsg :=
  ⟨c, w64 (dom.toNat / 128 * 128), bits a.toNat 0 48, bits a.toNat 48 16, BitVec.ofNat 32 b.toNat⟩

/-- A link of the device. -/
def getLink (s : State) (l : Nat) : Link := s.links.get (Fin.ofNat 16 l)

/-- Queues a flit for transmission through a link that is *up* (R329). -/
def queueFlit (s : State) (l : Nat) (b : FlitBody) : State :=
  let x := getLink s l
  if x.st == .up then { s with links := s.links.set (Fin.ofNat 16 l) { x with queue := x.queue ++ [b] } } else s

/-- A reward reaches the table of its die (R318, R364). -/
def enqueueReward (s : State) (x : Arrival) : State := enqueueArrival s (Fin.ofNat 4 x.msg.id) { x with time := s.cycle }

/-- RWSEND (R318, R332): the hart waits until the table has taken the reward, or until the far device answers. -/
def execRwsend (d a b : GReg) (s : State) : Out :=
  inSet threadOrMender s fun s => sources [gId d, gId a, gId b] s fun s =>
    let h := me s
    let dv := rg h d
    let n := bits dv.toNat 0 5
    let m := rewardOf (hartCtx s s.cur) dv (rg h a) (rg h b)
    let next := h.pc + 4
    if bits dv.toNat 5 2 ≠ 0 ∨ n > 16 then trap 0x01 dv s
    else if (rg h b).toNat / 2 ^ 32 ≠ 0 then trap 0x01 (rg h b) s
    else if n = 0 then
      domRead .read dv s fun _ s => heldAcked s fun s =>
        let (s, id) := freshId s
        match travel s with
        | (s, .lost) => done 4 (poisonReport s s.cur 2 dv)
        | (s, w) => park (.remote id) (enqueueReward s ⟨m, some (s.cur, next), none, w == .bad, 0, none, []⟩)
    else if (getLink s (n - 1)).st != .up then trap 0x47 1 s
    else if (getLink s (n - 1)).ver < 2 then trap 0x47 2 s
    else heldAcked s fun s =>
      let (s, id) := freshId s
      park (.remote id)
        (queueFlit { s with rewards := s.rewards ++ [⟨id, s.cur, n - 1, m, next⟩] } (n - 1) (.reward m s.cur))

/-! ## Rewards at a table (R319) -/

/-- The reason for which a reward is an orphan: the first that applies in the order 1, 5, 4, 3, 2. -/
def orphanReason (s : State) (d : Fin 4) (m : RewardMsg) : Option Nat :=
  match epKey s d m.ctx m.dom m.id with
  | none => some 1
  | some e =>
    if e.st == .judged || e.st == .releasing then some 5
    else if m.step ≥ e.cap then some 4
    else if e.st == .joining && decide (m.step ≥ e.count) then some 3
    else if e.rp.contains m.step then some 2
    else none

/-- The entry after a reward for one of its steps (R315). -/
def epRewarded (e : Episode) (step : Nat) : Episode :=
  let e := { e with rp := insNat e.rp step }
  if e.st == .joining && allPresent e then { e with st := .judged } else e

/-- r and RP of a step record are written (R319); a reward that arrived poisoned leaves the record's line poisoned (R298). -/
def writeReward (s : State) (d : Fin 4) (e : Episode) (m : RewardMsg) (bad : Bool) : State :=
  let va := stepRec e m.step
  unitPut s d e.ctx 1 e.buf.toNat va fun s pa =>
    let b := memRead s.mem (pa + 12) 1
    let s := physWrite (physWrite s (pa + 4) 4 m.reward.toNat) (pa + 12) 1 (if bitAt b 1 then b else b + 2)
    if bad then { s with gPoison := insNat s.gPoison (pa / 64) } else s

/-- The table of die `d` takes a reward; none while it waits for a page, or for the wake of a tile (R64). -/
def takeReward (s : State) (d : Fin 4) (m : RewardMsg) (bad : Bool) : State × Bool :=
  match orphanReason s d m with
  | some r =>
    match orphanSleeps s m.ctx m.dom.toNat, orphanReady s d m.ctx m.dom.toNat with
    | some t, (s, _) => (rouse s t, false)
    | none, (s, none) => (orphan s d (if bad then { m with reward := 0 } else m) r, true)
    | none, (s, some _) => (s, false)
  | none =>
    match epKey s d m.ctx m.dom m.id with
    | none => (s, true)
    | some e =>
      match unitReady s d m.ctx .write [stepRec e m.step] with
      | (s, none) => (epSet (writeReward s d e m bad) d (epRewarded e m.step), true)
      | (s, some _) => (s, false)

/-- A reward from another device, or from the host, is checked as R88 gives; none while the table waits for the page
(R318). -/
def remoteOk (s : State) (d : Fin 4) (m : RewardMsg) : State × Option Bool :=
  match unitXlate s d m.ctx m.dom.toNat .read with
  | (s, .ok _) => (s, some (m.dom.toNat % 128 == 0))
  | (s, .absent _) => (s, none)
  | (s, _) => (s, some false)

/-- The oldest arrival of a table is done with. -/
def arrivalGone (s : State) (d : Fin 4) : State :=
  let y := s.dies.get d
  unitSettled { s with dies := s.dies.set d { y with arrivals := y.arrivals.drop 1 } } d

/-- The reward has been taken or dropped: its sender goes on, or the far device is answered (R318). -/
def rewardTaken (s : State) (d : Fin 4) (x : Arrival) : State :=
  let s := arrivalGone s d
  let s := match x.sender with
    | some (h, next) =>
      match (getHart s h).status with
      | .parked (.remote _) => complete s h next
      | _ => s
    | none => s
  match x.link with
  | some (l, h) => queueFlit s l (.rewardAnswer h)
  | none => s

/-- A reward has its turn at the table of die `d` (R318, R319, R364). -/
def rewardTurn (s : State) (d : Fin 4) (x : Arrival) : State :=
  let (s, ok) := if x.sender.isNone then remoteOk s d x.msg else (s, some true)
  match ok with
  | none => s
  | some false => rewardTaken (unitReport s d x.msg.ctx 8 0 0 x.msg.dom 0 0) d x
  | some true =>
    match takeReward s d x.msg x.bad with
    | (s, true) => rewardTaken s d x
    | (s, false) => s

/-- The entry that an EPCLOSE names, if it is still *open*. -/
def closeEntry (s : State) (d : Fin 4) (x : Arrival) (idx : Nat) : Option Episode :=
  (epFind s d idx).filter fun e => e.st == .opened && e.ctx == x.msg.ctx && e.id == x.msg.id && e.dom == x.msg.dom

/-- The hart waits in its slot for the table to take its EPCLOSE. -/
def closesHere (s : State) (h : HartId) : Bool :=
  match (getHart s h).status with
  | .parked (.closing _) => true
  | _ => false

/-- An EPCLOSE has its turn at the table of die `d` (R317, R323): it traps if another has closed the entry before. -/
def closeTurn (s : State) (d : Fin 4) (x : Arrival) (idx : Nat) (r : GReg) : State :=
  match x.sender.filter fun w => closesHere s w.1, closeEntry s d x idx with
  | some (h, _), none => trapOn (arrivalGone s d) h 0x45 1
  | some (h, next), some e =>
    match closeReady s d e with
    | (s, some _) => s
    | (s, none) =>
      match closeSleeps s e with
      | some t => rouse s t
      | none =>
        let (s, csn) := closeAt s d d e
        complete (commitNotes (modHart (arrivalGone s d) h fun y => wg y r (w64 csn)) x.notes) h next
  | none, _ => arrivalGone s d

/-- The tile at depth 2 that what table `d` is to take next would find asleep (R64). -/
def arrivalSleeps (s : State) (d : Fin 4) (x : Arrival) : Option Nat :=
  match x.close with
  | some (idx, _) => (closeEntry s d x idx).bind (closeSleeps s)
  | none => if (orphanReason s d x.msg).isSome then orphanSleeps s x.msg.ctx x.msg.dom.toNat else none

/-- The table's entry for an arrival has timed out before it came (R315, R323). -/
def lateFor (s : State) (d : Fin 4) (x : Arrival) : Bool :=
  match epKey s d x.msg.ctx x.msg.dom x.msg.id with
  | some e => e.st == .joining && e.tmo != 0 && decide (e.closed + usCycles e.tmo < x.time)
  | none => false

/-- REWARD_ARRIVAL (R318, R319, R364): the table of a die takes its oldest arrival. -/
def execRewardArrival (s : State) : Out :=
  match s.ev with
  | .die k =>
    let s := actFor (.table k) s
    let d := Fin.ofNat 4 k
    match (s.dies.get d).arrivals with
    | [] => .next s
    | x :: _ =>
      match x.close with
      | some (idx, r) => .next (closeTurn s d x idx r)
      | none => if lateFor s d x then .next s else .next (rewardTurn s d x)
  | _ => .next s

/-! ## Time-out, scan and release (R315, R320, R321) -/

/-- The time-out of an entry has come (R315). -/
def epTimedOut (s : State) (e : Episode) : Bool :=
  e.st == .joining && e.tmo != 0 && decide (e.closed + usCycles e.tmo ≤ s.cycle)

/-- A reward for the entry that came by the time-out has still to be taken; it is taken first, unless the table waits for a page (R315,
R323). -/
def rewardFirst (s : State) (d : Fin 4) (e : Episode) : Bool :=
  !unitWaits s (.table d.val) && (s.dies.get d).arrivals.any fun x =>
    x.close.isNone && x.msg.ctx == e.ctx && x.msg.dom == e.dom && x.msg.id == e.id && decide (x.time ≤ e.closed + usCycles e.tmo)

/-- EPISODE_TIMEOUT (R315). -/
def execEpisodeTimeout (s : State) : Out :=
  match s.ev with
  | .dieItem k i =>
    let d := Fin.ofNat 4 k
    match epFind s d i with
    | some e =>
      if epTimedOut s e && !rewardFirst s d e then .next (epSet s d { e with st := .judged, tmoHit := true }) else .next s
    | none => .next s
  | _ => .next s

/-- The wringer's scan of the records below `t`, from the last to the first (R320): the masked rewards so far, Vnext and
Anext. -/
def wring (s : State) (d : Fin 4) (e : Episode) (gam gl : Nat) : Nat → Nat → Nat → Nat → State × Nat
  | 0, miss, _, _ => (s, miss)
  | t + 1, miss, vn, an =>
    let va := stepRec e t
    let (s, r) := unitGet s d e.ctx va 16
    let rp := bitAt r 97
    let rew := if rp then bits r 32 32 else nan32
    let v := bits r 0 32
    let b := if bitAt r 96 then 0 else (mul32 gam vn).1
    let x := (sub32 (add32 rew b).1 v).1
    let a := (add32 x (mul32 gl an).1).1
    let s := unitPut s d e.ctx 2 e.buf.toNat va fun s pa =>
      physWrite (physWrite s (pa + 8) 4 a) (pa + 12) 1 (putBits (memRead s.mem (pa + 12) 1) 2 1 (b2n (!rp)))
    wring s d e gam gl t (miss + b2n (!rp)) v a

/-- The pages that a scan touches are at hand. -/
def scanReady (s : State) (d : Fin 4) (e : Episode) : State × Option Nat :=
  match unitReady s d e.ctx .read [e.dom.toNat] with
  | (s, none) => unitReady s d e.ctx .write (pagesOf e.buf.toNat (16 * e.count))
  | x => x

/-- WRINGER_SCAN (R320): staleness is decided, and an episode that is not stale is scanned. -/
def execWringerScan (s : State) : Out :=
  match s.ev with
  | .dieItem k i =>
    let d := Fin.ofNat 4 k
    match epFind s d i with
    | some e =>
      if e.st != .judged then .next s
      else
        let s := actFor (.episode k i) s
        match scanReady s d e with
        | (s, some _) => .next s
        | (s, none) =>
          let (s, dv) := unitGet s d e.ctx e.dom.toNat 16
          let lag := (bits dv 64 32 + 2 ^ 32 - e.ver) % 2 ^ 32
          let stale := decide (lag > bits dv 96 32)
          let (s, miss) := if stale then (s, 0) else wring s d e (bits dv 0 32) (bits dv 32 32) e.count 0 0 0
          .next (unitSettled (epSet s d { e with st := .releasing, lag := lag, stale := stale, miss := miss }) d)
    | none => .next s
  | _ => .next s

/-- The release record (R321). -/
def releaseRecord (e : Episode) : Nat :=
  e.id % 2 ^ 48 + 2 ^ 48 * b2n e.tmoHit + 2 ^ 49 * b2n e.stale + 2 ^ 64 * e.buf.toNat + 2 ^ 128 * e.count +
    2 ^ 160 * e.miss + 2 ^ 192 * e.ver + 2 ^ 224 * e.lag + 2 ^ 256 * e.csn

/-- The queue to which an episode is released. -/
def releaseQueue (e : Episode) : Nat := e.dom.toNat + if e.stale then domSq else domLq

/-- A queue of handle `h` would take the push of the wringer `x`, or the wringer has not come to its descriptor, or that is not at
hand (R321); its tile is not waking (R64). -/
def releaseRoom (s : State) (x : Agent) (c h : Nat) : Bool :=
  pushRouses s c h && match peekPa s c (gqDesc h) .readWrite with
  | .ok pa => gqTakes s x c pa (memRead s.mem pa 64) h || !s.gqWait.contains (pa, x)
  | _ => true

/-- The release of an entry can be tried: its close number has come up and its queue has a credit, or a page is to be asked
for (R321). -/
def epReleasable (s : State) (d : Fin 4) (e : Episode) : Bool :=
  e.st == .releasing && !unitWaits s (.episode d.val e.idx) &&
    match peekPa s e.ctx e.dom.toNat .readWrite with
    | .ok pa =>
      physPoison s pa 128 || (memRead s.mem (pa + domRel d) 8 == e.csn &&
        releaseRoom s (.episode d.val e.idx) e.ctx (memRead s.mem (pa + (releaseQueue e - e.dom.toNat)) 8))
    | _ => true

/-- EPISODE_RELEASE (R321). Where the domain cannot be read, its counters cannot be written: that is reported (R281), and the
entry is freed (log 21). -/
def execEpisodeRelease (s : State) : Out :=
  match s.ev with
  | .dieItem k i =>
    let d := Fin.ofNat 4 k
    match epFind s d i with
    | some e =>
      if e.st != .releasing then .next s
      else
        let s := actFor (.episode k i) s
        let dom := e.dom.toNat
        match unitRead s d e.ctx (dom + domRel d) 8 .readWrite with
        | (s, .ok _ rel) =>
          if rel ≠ e.csn then .next s
          else
            let (s, q) := unitGet s d e.ctx (releaseQueue e) 8
            if let some t := pushSleeps s e.ctx q then .next (rouse s t)
            else match unitPush s d e.ctx q (releaseRecord e) (e.csn % 2 ^ 48) with
            | (s, .noCredit pa) => .next (gqEnter s pa (.episode k i))
            | (s, .wait) => .next s
            | (s, x) =>
              let s := match x with
                | .bad cause => writeDropped s d e.ctx 1 cause (gqDesc q) (gqDesc q)
                | _ => s
              let s := (unitBump s d e.ctx 1 dom (dom + domRel d) 8).1
              let s := if e.stale then (unitBump s d e.ctx 1 dom (dom + domStale) 8).1 else s
              .next (unitSettled (epDel s d i) d)
        | (s, .bad cause) => .next (unitSettled (epDel (writeDropped s d e.ctx 1 cause dom (dom + domRel d)) d i) d)
        | (s, .wait) => .next s
    | none => .next s
  | _ => .next s

end Sys2Proof.Machine
end

