-- ==== Sys2Proof/Machine/Engine.lean ====
section
/-! DEFINITION. KICK, FORK and RDV (R172 to R178). -/

namespace Sys2Proof.Machine

/-- The hart of sequencer `e` of a tile: 0 matrix, 1 vector. -/
def seqHart (t : Nat) (e : Nat) : HartId := .tile t (Fin.ofNat 10 (8 + e))

/-- The sequencer is *idle* (R173). -/
def seqIdle (s : State) (t e : Nat) : Bool := (getHart s (seqHart t e)).status == .free

/-- A sequencer that hart `x` starts at `pc` (R55, R172): g8 to g11, e0 to e7 and frm are copied. R172 does not say what the copy of an
*empty* register is: the model copies the stored value and sets the sequencer's register *full* (DESIGN CHOICE; log 29). -/
def freshSequencer (x : Hart) (pc : Word) (by' : Option (Fin 10)) : Hart :=
  let h := { Hart.reset with status := .ready, pc := pc, e := x.e, frm := x.frm, forkedBy := by' }
  wg (wg (wg (wg h 8 (rg x 8)) 9 (rg x 9)) 10 (rg x 10)) 11 (rg x 11)

/-- The executing hart starts sequencer `e` of its tile (R172, R177, R178). -/
def startSequencer (s : State) (e : Nat) (pc : Word) (by' : Option (Fin 10)) : State :=
  setHart s (seqHart (myTile s) e) (freshSequencer (me s) pc by')

/-- KICK (R177): engine-illegal where it names the sequencer that executes it (R174). -/
def execKick (vector : Bool) (ea : EReg) (s : State) : Out :=
  let e := b2n vector
  inSet (fun k => k != .mender && k != (if vector then .vecSeq else .matSeq)) s fun s => sources [eId ea] s fun s =>
    let pcv := re (me s) ea
    if pcv.getLsbD 0 then trap 0x08 pcv s
    else acked s fun s =>
      if seqIdle s (myTile s) e then done 4 (startSequencer s e pcv none) else park (.engine (2 ^ e)) s

/-- The sequencers that a mask names (R176). -/
def maskEngines (m : Nat) : List Nat := [0, 1].filter fun e => bitAt m e

/-- FORK (R178). -/
def execFork (mask : SeqMask) (ea eb : EReg) (s : State) : Out :=
  let es := maskEngines mask.val
  let pcOf (s : State) (e : Nat) : Word := re (me s) (if e = 0 then ea else eb)
  inSet threadOnly s fun s => sources (es.map fun e => eId (if e = 0 then ea else eb)) s fun s =>
    match es.find? fun e => (pcOf s e).getLsbD 0 with
    | some e => trap 0x08 (pcOf s e) s
    | none => acked s fun s =>
      if es.all (seqIdle s (myTile s)) then
        let s := es.foldl (fun s e => startSequencer s e (pcOf s e) (some (Fin.ofNat 10 (slotOf s.cur)))) s
        done 4 (modMe s fun x => { x with fork := es.foldl insNat x.fork })
      else park (.engine mask.val) s

/-- The fault that RDV takes: the matrix sequencer's if both recorded one (R178). -/
def firstFault (l : List ForkFault) : Option ForkFault :=
  match l.find? (·.engine == 0) with
  | some f => some f
  | none => l.head?

/-- RDV (R178): the acquire is made, then a recorded fault traps and the records are consumed. -/
def execRdv (s : State) : Out :=
  inSet threadOnly s fun s =>
    if (me s).fork ≠ [] then park .rdv s
    else
      let s := acquire s s.cur
      match firstFault (me s).forkFaults with
      | some f => trap f.cause f.val (modMe s fun x => { x with forkFaults := [] })
      | none => done 4 s

end Sys2Proof.Machine
end

