-- ==== Sys2Proof/Machine/Cvt.lean ====
section
/-! DEFINITION. The VCVT group (R154, R160 to R170). -/

namespace Sys2Proof.Machine

/-- The fixed format of a type code; a type 7 takes the NFD (R39). -/
def ctyFmt (t : CTy) (nfd : Nat) : Fmt :=
  match t with
  | .e4m3 => e4m3
  | .e5m2 => e5m2
  | .e3m2 => e3m2
  | .e2m3 => e2m3
  | .e2m1 => e2m1
  | .bf16 => bf16
  | .f16 => fp16
  | .nfd => nfdFmt nfd

/-- fmtj of a tile (R240). -/
def tileNfd (t : Tile) (j : Slot4) : Nat := (t.fmt.get j).toNat

/-- The validation of fmtj (R154): the cause, if it is not valid. -/
def nfdFault (n : Nat) : Option Nat := if nfdReserved n then some 0x01 else if nfdValid n then none else some 0x41

/-- The check of an NFD, with tval (j << 32) | NFD (R154). -/
def nfdCheck (j n : Nat) (s : State) (k : State → Out) : Out :=
  match nfdFault n with
  | some c => trap c (w64 (j * 2 ^ 32 + n)) s
  | none => k s

/-- The format of an instruction of the group, after its check. -/
def cvtFmt (t : CTy) (j : Slot4) (s : State) (k : Fmt → State → Out) : Out :=
  let n := tileNfd (getTile s (myTile s)) j
  if t = .nfd then nfdCheck j.val n s (k (ctyFmt t n)) else k (ctyFmt t n) s

/-- Menders run types 0 to 6 only, and not what reads a scale pointer (R164). -/
def cvtHarts (tileOnly : Bool) (x : HartKind) : Bool := x != .mender || !tileOnly

/-- The container width in a v-register: a byte, or 16 bits (R152). -/
def ctyWidth (t : CTy) : Nat := if t = .bf16 ∨ t = .f16 then 16 else 8

/-- A v-register of a group. -/
def groupReg (a : VReg) (i : Nat) : VReg := Fin.ofNat 16 (a.val + i)

/-- The FP32 words of `n` registers. -/
def groupWords (h : Hart) (a : VReg) (n : Nat) : List Nat := (List.range n).flatMap fun i => elems 32 (rv h (groupReg a i))

/-- Writes `n` registers with elements of 32 bits. -/
def putGroup (h : Hart) (d : VReg) (n : Nat) (l : List Nat) : Hart :=
  (List.range n).foldl (fun h i => wv h (groupReg d i) (ofElems 32 ((l.drop (16 * i)).take 16))) h

/-- VCVT (R165). -/
def execVcvt (t : CTy) (rm : Rm) (j : Slot4) (widen : Bool) (part : Slot4) (a d : VReg) (s : State) : Out :=
  inSet (cvtHarts (t == .nfd)) s fun s => sources (if widen then [vId a] else [vId a, vId d]) s fun s =>
    cvtFmt t j s fun f s => dests [vId d] s fun s =>
      let h := me s
      let w := ctyWidth t
      let mode := rmMode h rm
      if widen then
        let l := ((elems w (rv h a)).drop (16 * part.val)).take 16
        let r := roundAll fp32 mode false true (rndOf s) 0 (l.map fun x => some (decodeF f x, 0))
        done 4 (raise r.fl (modMe (putRnd r.rnd s) fun h => wv h d (ofElems 32 r.out)))
      else
        let r := roundAll f mode false true (rndOf s) 0 ((elems 32 (rv h a)).map fun x => some (fv x, 0))
        let old := elems w (rv h d)
        done 4 (raise r.fl (modMe (putRnd r.rnd s) fun h =>
          wv h d (ofElems w (old.take (16 * part.val) ++ r.out ++ old.drop (16 * part.val + 16)))))

/-! ## Block quantisation (R160, R161) -/

/-- A value divided by 2^(S - 127). -/
def unscale (sc : Nat) (v : FV) : FV := scaleV v (127 - (sc : Int))

/-- The scale of a block of FP32 values (R160). A block with no finite element, which has no amax, gets S := 0 (DESIGN CHOICE; log 43). -/
def blockScale (f : Fmt) (l : List FV) : Nat :=
  if l.any isNanV then 0xFF
  else
    match l.foldl (fun (m : Option Int) v => match v with
      | .fin _ n e => if n = 0 then m else match m with
        | none => some ((Nat.log2 n : Int) + e)
        | some x => some (max x ((Nat.log2 n : Int) + e))
      | .nan | .inf _ => m) none with
    | none => 0
    | some x => (max 0 (min 254 (x - emaxF f + 127))).toNat

/-- A quantised block: its scale, its containers, the flags and the source of rounding. -/
structure Quant where
  scale : Nat
  out : List Nat
  fl : BitVec 5
  rnd : Rnd
deriving DecidableEq, Repr

/-- Quantises a block whose first element has index `i` under a scale (R160): a NaN gives the NaN scale and zeros. Under a
NaN scale that was read, x / NaN is NaN (R166, log 19). -/
def quantBlock (f : Fmt) (mode : Mode) (r : Rnd) (i sc : Nat) (l : List FV) : Quant :=
  if l.any isNanV then ⟨0xFF, l.map fun _ => 0, 0, r⟩
  else
    let q := roundAll f mode true false r i (l.map fun v => some (if sc = 0xFF then .nan else unscale sc v, 0))
    ⟨sc, q.out, q.fl, q.rnd⟩

/-- Quantises blocks one after another: their containers, scales, flags and source. -/
def quantBlocks (f : Fmt) (mode : Mode) (r : Rnd) (i : Nat) : List (List FV) → List Nat × List Nat × BitVec 5 × Rnd
  | [] => ([], [], 0, r)
  | b :: bs =>
    let q := quantBlock f mode r i (blockScale f b) b
    let t := quantBlocks f mode q.rnd (i + b.length) bs
    (q.out ++ t.1, q.scale :: t.2.1, q.fl ||| t.2.2.1, t.2.2.2)

/-- The read of cur at a scale-table entry: relaxed, one byte at the home, past the G read cache; checked with size 64
(R166). -/
def readCur (j : Slot4) (s : State) (k : Nat → State → Out) : Out :=
  let va := (getTile s (myTile s)).scp.get j
  gAccess 64 .read va s fun pa s =>
    inOrder true (hereAcc none (pa + 4) 1 va) s fun s =>
      let (s, v, bad) := lineRead s (pa + 4) 1
      k v (if bad then poisonReport s s.cur 2 va else s)

/-- VQUANT with the scales and containers at hand. -/
def quantDone (d : VReg) (out scales : List Nat) (fl : BitVec 5) (rnd : Rnd) (s : State) : Out :=
  done 4 (raise fl (modMe (putRnd rnd s) fun h => wv h d (ofElems 8 (out ++ scales))))

/-- VQUANT (R166). -/
def execVquant (t : CTy) (rm : Rm) (j mode : Slot4) (a d : VReg) (s : State) : Out :=
  inSet (cvtHarts (t == .nfd || mode == 2)) s fun s => sources [vId a, vId (groupReg a 1)] s fun s =>
    cvtFmt t j s fun f s => dests [vId d] s fun s =>
      let l := (groupWords (me s) a 2).map fv
      let m := rmMode (me s) rm
      if mode = 2 then
        readCur j s fun cur s =>
          let q := quantBlock f m (rndOf s) 0 cur l
          quantDone d q.out [q.scale] q.fl q.rnd s
      else
        let r := quantBlocks f m (rndOf s) 0 (if mode = 0 then [l] else [l.take 16, l.drop 16])
        quantDone d r.1 r.2.1 r.2.2.1 r.2.2.2 s

/-- E(|v|) of R161 for a finite value. -/
def bitmapExp (v : FV) : Int := if isZeroV v then -150 else log2V v

/-- |a| < |b| as maxima. -/
def maxAbs (a b : FV) : FV := if ltV false (absV a) (absV b) then absV b else absV a

/-- A value is finite. -/
def finiteV (v : FV) : Bool :=
  match v with
  | .fin _ _ _ => true
  | .nan | .inf _ => false

/-- The boundaries of variable blocks from element `i` on, `a` the running maximum (R161). -/
def boundaries (thr : Nat) : Nat → FV → List FV → List Bool
  | _, _, [] => []
  | i, a, v :: vs =>
    if !finiteV v then false :: boundaries thr (i + 1) a vs
    else if i % 2 = 0 ∧ (bitmapExp v - bitmapExp a).natAbs > thr then true :: boundaries thr (i + 1) (absV v) vs
    else false :: boundaries thr (i + 1) (maxAbs a v) vs

/-- The bitmap of 64 elements (R161). -/
def bitmapOf (thr : Nat) (l : List FV) : List Bool :=
  match l with
  | [] => []
  | v :: vs => true :: boundaries thr 1 (if finiteV v then absV v else .fin false 0 0) vs

/-- Cuts a list into blocks at the set bits. -/
def cutBlocks : List Bool → List FV → List (List FV)
  | _ :: bs, v :: vs =>
    match cutBlocks bs vs with
    | [] => [[v]]
    | c :: cs => if bs.head?.getD true then [v] :: c :: cs else (v :: c) :: cs
  | _, _ => []

/-- A bitmap as a number. -/
def bitmapNat : List Bool → Nat
  | [] => 0
  | b :: bs => b2n b + 2 * bitmapNat bs

/-- VQUANTV (R167). -/
def execVquantv (t : CTy) (rm : Rm) (j : Slot4) (thr : Nib) (a d : VReg) (s : State) : Out :=
  inSet (cvtHarts (t == .nfd)) s fun s => sources ((List.range 4).map fun i => vId (groupReg a i)) s fun s =>
    cvtFmt t j s fun f s => dests [vId d, vId (groupReg d 1)] s fun s =>
      let l := (groupWords (me s) a 4).map fv
      let bm := bitmapOf thr.val l
      let r := quantBlocks f (rmMode (me s) rm) (rndOf s) 0 (cutBlocks bm l)
      done 4 (raise r.2.2.1 (modMe (putRnd r.2.2.2 s) fun h =>
        wv (wv h d (ofElems 8 r.1)) (groupReg d 1)
          (BitVec.ofNat 512 (bitmapNat bm + 2 ^ 64 * packBits 8 r.2.1))))

/-! ## VDEQ (R168) -/

/-- The value of a container under a scale: NaN under 0xFF (R160). -/
def deqValue (f : Fmt) (sc x : Nat) : FV := if sc = 0xFF then .nan else scaleV (decodeF f x) ((sc : Int) - 127)

/-- The scale index of each element of a bitmap: one more at every set bit, the first block being the one before any. -/
def blockIndex (n : Nat) : List Bool → List Nat
  | [] => []
  | b :: bs => let n := if b then n + 1 else n; n :: blockIndex n bs

/-- The scale of block `i` of v[va + 1] in mode 3: the bytes from 8 on, then 0xFF. -/
def varScale (v : Nat) (i : Nat) : Nat := if i < 56 then byteOf v (8 + i) else 0xFF

/-- VDEQ (R168). A bitmap whose bit 0 is clear still gives the first elements the first scale. -/
def execVdeq (t : CTy) (rm : Rm) (j mode : Slot4) (a d : VReg) (s : State) : Out :=
  let n := if mode = 3 then 4 else 2
  inSet (cvtHarts (t == .nfd || mode == 2)) s fun s =>
    sources (if mode = 3 then [vId a, vId (groupReg a 1)] else [vId a]) s fun s => cvtFmt t j s fun f s =>
      dests ((List.range n).map fun i => vId (groupReg d i)) s fun s =>
        let h := me s
        let v := (rv h a).toNat
        let l :=
          if mode = 3 then
            let w := (rv h (groupReg a 1)).toNat
            let bm := (List.range 64).map (bitAt w)
            let first := bm.head?.getD true
            (List.range 64).zip (blockIndex (if first then 0 else 1) bm) |>.map fun x =>
              deqValue f (varScale w (x.2 - 1)) (byteOf v x.1)
          else
            (List.range 32).map fun i => deqValue f (byteOf v (if mode = 1 ∧ i ≥ 16 then 33 else 32)) (byteOf v i)
        let r := roundAll fp32 (rmMode h rm) false false (rndOf s) 0 (l.map fun x => some (x, 0))
        done 4 (raise r.fl (modMe (putRnd r.rnd s) fun h => putGroup h d n r.out))

/-! ## SCLNEXT (R162, R169) -/

/-- max as an FP32 value of the entries ring[0..fill - 1]; none for a NaN. -/
def ringMax (line fill : Nat) : Option FV :=
  let l := (List.range fill).map fun k => fv (laneOf line (2 + k))
  if l.any isNanV then none else some (l.foldl maxV (.inf true))

/-- floor(log₂ (fmax / m)) for finite nonzero magnitudes. -/
def log2Quot (m : Nat) (e : Int) (n : Nat) (g : Int) : Int :=
  let k := (Nat.log2 m : Int) + e - ((Nat.log2 n : Int) + g)
  if magLt m e n (g + k) then k - 1 else k

/-- cur after the step: 255 for a NaN, unchanged for a zero, 254 for +∞ (R169). A maximum that is negative states none
(log 9). -/
def nextCur (f : Fmt) (cur free : Nat) (m : Option FV) : Nat :=
  match m with
  | none => 0xFF
  | some .nan => 0xFF
  | some (.inf false) => 254
  | some (.inf true) => free % 256
  | some (.fin s n g) =>
    if n = 0 then cur
    else if s then free % 256
    else (max 0 (min 254 (127 - log2Quot (fmtMax f).1 (fmtMax f).2 n g))).toNat

/-- An entry after SCLNEXT (R169). -/
def sclStep (f : Fmt) (free line : Nat) : Nat :=
  let head := if bits line 40 4 > 11 then 0 else bits line 40 4
  let fill := min (min (bits line 48 4) 12 + 1) 12
  let pos := 64 + 32 * head
  let line := line % 2 ^ pos + line % 2 ^ 32 * 2 ^ pos + line / 2 ^ (pos + 32) * 2 ^ (pos + 32)
  let cur := nextCur f (bits line 32 8) free (ringMax line fill)
  cur * 2 ^ 32 + (head + 1) % 12 * 2 ^ 40 + bits line 44 4 * 2 ^ 44 + fill * 2 ^ 48 + line / 2 ^ 52 * 2 ^ 52

/-- SCLNEXT (R169). -/
def execSclnext (t : CTy) (j : Slot4) (s : State) : Out :=
  inSet tileHarts s fun s => cvtFmt t j s fun f s =>
    let (s, n) := nextFree s
    lineAtomic ((getTile s (myTile s)).scp.get j) (sclStep f (Config.freeWord n)) s (done 4)

/-! ## VPACK and VUNPK (R170) -/

/-- Type 7 is to have at most four bits (R170). -/
def nibbleFmt (t : CTy) (j : Slot4) (s : State) (k : State → Out) : Out :=
  cvtFmt t j s fun f s =>
    if t = .nfd ∧ f.width > 4 then trap 0x41 (w64 (j.val * 2 ^ 32 + tileNfd (getTile s (myTile s)) j)) s else k s

/-- VPACK (R170). -/
def execVpack (t : CTy) (j : Slot4) (b a d : VReg) (s : State) : Out :=
  inSet (cvtHarts (t == .nfd)) s fun s => sources [vId a, vId b] s fun s => nibbleFmt t j s fun s => dests [vId d] s fun s =>
    done 4 (modMe s fun h =>
      wv h d (ofElems 4 ((elems 8 (rv h a) ++ elems 8 (rv h b)).map fun x => x % 16)))

/-- VUNPK (R170). -/
def execVunpk (t : CTy) (j : Slot4) (hi : Bool) (a d : VReg) (s : State) : Out :=
  inSet (cvtHarts (t == .nfd)) s fun s => sources [vId a] s fun s => nibbleFmt t j s fun s => dests [vId d] s fun s =>
    done 4 (modMe s fun h => wv h d (ofElems 8 (((elems 4 (rv h a)).drop (64 * b2n hi)).take 64)))

end Sys2Proof.Machine
end

