-- ==== Sys2Proof/Machine/Matrix.lean ====
section
/-! DEFINITION. The matrix array: operand descriptors, accumulation, operand errors and MTX (R198 to R212). -/

namespace Sys2Proof.Machine

/-! ## Issuing to the array (R51, R175, R209) -/

/-- An operation of the array with the cycle at which the array begins with it, and the cycles it takes (R213). -/
def stamped (o : LongOp) (start lat : Nat) : LongOp :=
  match o.fx with
  | .rows r => { o with fx := .rows { r with start := start, cycles := lat } }
  | .none | .load _ _ | .store _ _ | .words _ | .ring _ _ _ | .opt _ => o

/-- An operation of the array passes its last point of fault: it starts when the array is free. With la = 0 a thread waits
for it *inline* (R51, R175). -/
def issueArray (la : La) (lat : Nat) (o : LongOp) (s : State) : Out :=
  let fin := max (getTile s (myTile s)).arrayFree s.cycle + lat
  let o := stamped o (fin - lat) lat
  let s := modTile s (myTile s) fun t => { t with arrayFree := fin }
  if kindOf s.cur == .thread ∧ lookahead s la.val = 0 then
    let o := { o with wbs := realDests o.wbs, left := 1, due := fin, inl := true }
    let s := o.wbs.foldl (fun s w => emptyReg s s.cur w.reg) s
    let s := complete (modMe s fun x => { x with out := x.out ++ [o] }) s.cur ((me s).pc + 4)
    .next (modMe s fun x => if x.status == .ready then { x with status := .inline } else x)
  else issueLong 4 la.val (fin - s.cycle) o s

/-- A tile-wide register that an operation writes; its data is in place when the operation completes. -/
def tileWb (r : RegId) : WriteBack := ⟨r, 0⟩

/-! ## Operand errors (R210 to R212) -/

/-- A record of oerrloc. -/
def oerrRecord (off src row col : Nat) (bank : Bool) : Word :=
  w64 (off % 2 ^ 18 + src * 2 ^ 18 + row % 512 * 2 ^ 21 + col % 32 * 2 ^ 30 + b2n bank * 2 ^ 35 + 2 ^ 63)

/-- The first entry of oerrloc that is not valid. -/
def oerrSlot (t : Tile) : Option (Fin 8) := (List.finRange 8).find? fun i => !(t.oerrloc.get i).getLsbD 63

/-- One substitution is logged (R210, R211). -/
def oerrLog (t : Tile) (r : Word) : Tile :=
  let t := { t with oerrErr := true, oerrCnt := min (t.oerrCnt + 1) 65535 }
  match oerrSlot t with
  | some i => { t with oerrloc := t.oerrloc.set i r }
  | none => { t with oerrLost := true }

/-- Substitutions are logged in the order in which the operation meets them. -/
def oerrLogAll (t : Tile) (l : List Word) : Tile := l.foldl oerrLog t

/-! ## Operand descriptors (R200 to R202) -/

/-- An operand descriptor. -/
structure Desc where
  off : Nat
  rows : Nat
  stride : Nat
  ty : Nat
  j : Nat
  pack : Bool
  smode : Nat
  axis : Nat
  soff : Nat
deriving DecidableEq, Repr

/-- The fields of a descriptor (R200). -/
def descOf (d : Nat) : Desc :=
  ⟨bits d 0 18, bits d 18 9 + 1, bits d 27 9 * 16, bits d 36 4, bits d 40 2, bitAt d 42, bits d 43 2, bits d 45 1,
   bits d 52 12 * 64⟩

/-- The 16-bit class (R201). -/
def wideTy (ty : Nat) : Bool := ty == 5 || ty == 6

/-- The format of a type code (R200). -/
def tyFmt (ty nfd : Nat) : Fmt :=
  match ty with
  | 0 => e4m3
  | 1 => e5m2
  | 2 => e3m2
  | 3 => e2m3
  | 4 => e2m1
  | 5 => bf16
  | 6 => fp16
  | _ => nfdFmt nfd

/-- The row length, block size and number of scale bytes (R201). -/
def rowBytes (ty : Nat) (pack : Bool) : Nat := if wideTy ty then 64 else if pack then 16 else 32
def blockSize (smode : Nat) : Nat := if smode = 2 then 16 else 32
def scaleBytes (smode axis rows : Nat) : Nat :=
  if smode = 0 then 0
  else if axis = 0 then rows * (32 / blockSize smode)
  else (rows + blockSize smode - 1) / blockSize smode * 32

/-- The index of the scale of element (r, k) (R201). -/
def scaleIdx (smode axis r k : Nat) : Nat :=
  if axis = 0 then r * (32 / blockSize smode) + k / blockSize smode else r / blockSize smode * 32 + k

/-- The lowest byte of a row or of the scale area that lies at or beyond the store's size. -/
def descBeyond (d : Desc) (size : Nat) : Option Nat :=
  let rb := rowBytes d.ty d.pack
  let rows := (List.range d.rows).map fun r => (d.off + r * d.stride, rb)
  let all := if d.smode = 0 then rows else rows ++ [(d.soff, scaleBytes d.smode d.axis d.rows)]
  all.foldl (fun m x =>
    if x.1 + x.2 > size then match m with
      | some y => some (min y (max x.1 size))
      | none => some (max x.1 size)
    else m) none

/-- The first failing check of a descriptor `v` on store `x`, as the trap it raises (R202). -/
def descFault (t : Tile) (x : Store) (v : Word) : Option (Nat × Word) :=
  let d := descOf v.toNat
  let base := 0x10 + 4 * x.space
  let n := tileNfd t (Fin.ofNat 4 d.j)
  if bits v.toNat 46 6 ≠ 0 then some (0x01, v)
  else if d.ty = 7 ∧ nfdFault n ≠ none then some ((nfdFault n).getD 0, w64 (d.j * 2 ^ 32 + n))
  else if d.ty ≥ 8 ∨ d.smode = 3 ∨ (d.pack ∧ (tyFmt d.ty n).width > 4) ∨ (d.j ≠ 0 ∧ d.ty ≠ 7) ∨
      (d.smode ≠ 0 ∧ wideTy d.ty) then some (0x40, 1)
  else if d.off % 16 ≠ 0 then some (base, w64 d.off)
  else (descBeyond d x.size).map fun b => (base + 1, w64 b)

/-! ## Operands -/

/-- An operand as it was read: rows of 32 element encodings, and its scale bytes. -/
structure Operand where
  rows : Nat
  ty : Nat
  nfd : Nat
  smode : Nat
  axis : Nat
  data : List Nat
  scales : List Nat
deriving DecidableEq, Repr

/-- The byte address and the encoding of element `k` of the row at `a`. -/
def elemAddr (ty : Nat) (pack : Bool) (a k : Nat) : Nat := if wideTy ty then a + 2 * k else if pack then a + k / 2 else a + k
def elemRead (m : Mem) (ty : Nat) (pack : Bool) (a k : Nat) : Nat :=
  let b := memRead m (elemAddr ty pack a k) (if wideTy ty then 2 else 1)
  if pack then b / 16 ^ (k % 2) % 16 else b

/-- The scale bytes of a descriptor that cannot be corrected, by index. -/
def badScales (t : Tile) (x : Store) (d : Desc) : List Nat :=
  (List.range (scaleBytes d.smode d.axis d.rows)).filter fun i => granBad t x ((d.soff + i) / 32)

/-- Element (r, k) of a descriptor, zero where it or its scale is uncorrectable. -/
def operandElem (t : Tile) (x : Store) (d : Desc) (bad : List Nat) (r k : Nat) : Nat :=
  let a := d.off + r * d.stride
  if granBad t x (elemAddr d.ty d.pack a k / 32) || bad.contains (scaleIdx d.smode d.axis r k) then 0
  else elemRead (storeMem t x) d.ty d.pack a k

/-- The 32 × rows pairs (r, k), in row order. -/
def rowCols (rows : Nat) : List (Nat × Nat) := (List.range rows).flatMap fun r => (List.range 32).map fun k => (r, k)

/-- The array's read of an operand of tile `t` meets the errors of its rows and scales (R296). -/
def meetOperand (s : State) (t : Nat) (x : Store) (v : Word) : State :=
  let d := descOf v.toNat
  if (getTile s t).flaws = [] then s
  else
    let s := (List.range d.rows).foldl (fun s r => meetFlaws s t x (d.off + r * d.stride) (rowBytes d.ty d.pack)) s
    if d.smode = 0 then s else meetFlaws s t x d.soff (scaleBytes d.smode d.axis d.rows)

/-- Row and column of the first element of the block of scale `i` (R201, R210). -/
def scaleCell (smode axis i : Nat) : Nat × Nat :=
  let bs := blockSize smode
  if axis = 0 then (i / (32 / bs), i % (32 / bs) * bs) else (i / 32 * bs, i % 32)

/-- Reads an operand from a store (R201, R210). -/
def readOperand (t : Tile) (x : Store) (v : Word) : Operand :=
  let d := descOf v.toNat
  let bad := badScales t x d
  { rows := d.rows, ty := d.ty, nfd := tileNfd t (Fin.ofNat 4 d.j), smode := d.smode, axis := d.axis,
    data := (rowCols d.rows).map fun p => operandElem t x d bad p.1 p.2,
    scales := (List.range (scaleBytes d.smode d.axis d.rows)).map fun i =>
      if bad.contains i then 127 else memRead (storeMem t x) (d.soff + i) 1 }

/-- The records of the substitutions that reading an operand makes (R210, R212). -/
def operandErrors (t : Tile) (x : Store) (v : Word) (bank : Bool) : List Word :=
  if t.poison = [] then []
  else
    let d := descOf v.toNat
    let src := if x == .w then 0 else 1
    let el := (rowCols d.rows).filterMap fun p =>
      let a := elemAddr d.ty d.pack (d.off + p.1 * d.stride) p.2
      if granBad t x (a / 32) then some (oerrRecord a src p.1 p.2 bank) else none
    el ++ (badScales t x d).map fun i =>
      let rc := scaleCell d.smode d.axis i
      oerrRecord (d.soff + i) (src + 5) rc.1 rc.2 bank

/-- The value of element `i` in row order, its scale folded in; NaN under a scale byte of 0xFF (R160, R203). -/
def Operand.value (o : Operand) (f : Fmt) (i x : Nat) : FV :=
  if o.smode = 0 then decodeF f x
  else
    let sc := nth o.scales (scaleIdx o.smode o.axis (i / 32) (i % 32))
    if sc = 0xFF then .nan else scaleV (decodeF f x) ((sc : Int) - 127)

/-- A list cut into rows of 32. -/
def rowsOf {α : Type} : Nat → List α → List (List α)
  | 0, _ => []
  | n + 1, l => l.take 32 :: rowsOf n (l.drop 32)

/-- The values of an operand by row. -/
def Operand.values (o : Operand) : List (List FV) :=
  let f := tyFmt o.ty o.nfd
  rowsOf o.rows (o.data.zipIdx.map fun x => o.value f x.2 x.1)

/-- Column `k` of rows. -/
def colOf (l : List (List FV)) (k : Nat) : List FV := l.map fun r => r.getD k (.fin false 0 0)

/-- The columns of rows of 32. -/
def colsOf (l : List (List FV)) : List (List FV) := (List.range 32).map (colOf l)

/-! ## Accumulation (R203) -/

/-- The narrow rule: the exact block sum, rounded once, then added. -/
def narrowAcc (acc : Nat) (xs ys : List FV) : Nat × BitVec 5 :=
  let ps := (xs.zip ys).map fun p => mulV p.1 p.2
  let t : Nat × BitVec 5 :=
    if xs.any isNanV || ys.any isNanV then (nan32, 0)
    else
      let f := ps.foldl (fun f p => f ||| p.2) 0
      let v := sumV false (ps.map (·.1))
      let r := rne32 v.1
      (r.1, f ||| v.2 ||| r.2)
  let r := add32 acc t.1
  (r.1, t.2 ||| r.2)

/-- The 16-bit rule: one rounding for each term in ascending index. -/
def wideAcc (acc : Nat) (xs ys : List FV) : Nat × BitVec 5 :=
  (xs.zip ys).foldl (fun a p =>
    let m := mulV p.1 p.2
    let r := fin32 (sumV false [fv a.1, m.1])
    (r.1, a.2 ||| m.2 ||| r.2)) (acc, 0)

/-- One output element. -/
def accumulate (wide : Bool) (acc : Nat) (xs ys : List FV) : Nat × BitVec 5 :=
  if wide then wideAcc acc xs ys else narrowAcc acc xs ys

/-- A row of outputs: old accumulators against the columns `ys`. -/
def accRow (wide : Bool) (old : List Nat) (xs : List FV) (ys : List (List FV)) : List Nat × BitVec 5 :=
  let l := (old.zip ys).map fun p => accumulate wide p.1 xs p.2
  (l.map (·.1), l.foldl (fun f p => f ||| p.2) 0)

/-! ## The checks of a multiply (R202) -/

/-- Reason 2: classes differ, or two different 16-bit types. -/
def classClash (a b : Nat) : Bool := wideTy a != wideTy b || (wideTy a && a != b)

/-- The latency of a multiply (R209). -/
def mulLatency (a b : Operand) : Nat :=
  if wideTy a.ty then 4 * a.rows + 40
  else if (tyFmt a.ty a.nfd).width ≤ 4 ∧ (tyFmt b.ty b.nfd).width ≤ 4 then (a.rows + 1) / 2 + 40
  else a.rows + 40

/-- The bank's operand, its uncorrectable elements zero (R210). -/
def bankOperand (b : PeBank) : Operand :=
  ⟨32, b.ty, b.nfd, b.smode, b.axis, b.data.zipIdx.map fun x => if b.bad.contains x.2 then 0 else x.1, b.scales⟩

/-- The latch's operand: zero where an element or its scale is uncorrectable (R210). -/
def latchOperand (l : Latch) : Operand :=
  ⟨l.rows, l.ty, l.nfd, l.smode, l.axis,
   l.data.zipIdx.map fun x =>
     if l.bad.contains x.2 || (l.smode != 0 && l.sbad.contains (scaleIdx l.smode l.axis (x.2 / 32) (x.2 % 32))) then 0 else x.1,
   l.scales.zipIdx.map fun x => if l.sbad.contains x.2 then 127 else x.1⟩

/-- The records of the substitutions that reading the latch makes (R210, R212). For a scale byte, the byte offset in the latch is its
offset in the scale area of the header (DESIGN CHOICE; log 43). -/
def latchErrors (l : Latch) (bank : Bool) : List Word :=
  (l.bad.map fun i => oerrRecord (elemAddr l.ty l.pack (i / 32 * rowBytes l.ty l.pack) (i % 32)) 2 (i / 32) (i % 32) bank) ++
    l.sbad.map fun i =>
      let rc := scaleCell l.smode l.axis i
      oerrRecord i 7 rc.1 rc.2 bank

/-- A use of a bank meets the errors of its PE registers (R296). -/
def meetBank (s : State) (t : Nat) (b : Fin 2) : State :=
  let p := (getTile s t).pe.get b
  if p.flaws = [] then s
  else
    let (bad, rest) := flawsMet p.data.length 16 p.flaws fun _ => true
    countFlaws (modTile s t fun x => { x with pe := x.pe.set b { p with bad := p.bad ++ bad.filter fun i => !p.bad.contains i, flaws := rest } })
      (dieOf t) p.flaws fun _ => true

/-- The records of the uncorrectable elements of a bank (R210, R212). -/
def bankErrors (bad : List Nat) (bank : Bool) : List Word := bad.map fun i => oerrRecord 0 3 (i / 32) (i % 32) bank

/-- A use of a bank's in-array accumulator meets its errors: the elements of a granule that is found bad are PE register elements, so they
are rewritten with zero and logged (R210, R212, R296; log 31). -/
def meetBankAcc (s : State) (t : Nat) (b : Fin 2) : State :=
  let p := (getTile s t).pe.get b
  if p.accFlaws = [] then s
  else
    let (bad, rest) := flawsMet 1024 8 p.accFlaws fun _ => true
    let acc := p.acc.zipIdx.map fun x => if bad.contains x.2 then 0 else x.1
    countFlaws (modTile s t fun x => oerrLogAll { x with pe := x.pe.set b { p with acc := acc, accFlaws := rest } } (bankErrors bad (b.val == 1)))
      (dieOf t) p.accFlaws fun _ => true

/-- A use of the latch meets the errors of its elements and scale bytes (R296). -/
def meetLatch (s : State) (t : Nat) : State :=
  let l := (getTile s t).latch
  if l.flaws = [] then s
  else
    let (bad, _) := flawsMet l.data.length 16 (l.flaws.filter (·.1 < 4096)) fun _ => true
    let (sbad, _) := flawsMet l.scales.length 32 ((l.flaws.filter (4096 ≤ ·.1)).map fun f => (f.1 - 4096, f.2)) fun _ => true
    let l' := { l with bad := l.bad ++ bad.filter (fun i => !l.bad.contains i), sbad := l.sbad ++ sbad.filter (fun i => !l.sbad.contains i),
                       flaws := [] }
    countFlaws (modTile s t fun x => { x with latch := l' }) (dieOf t) l.flaws fun _ => true

/-- The failing check of MMA and MMAT with streamed operand `x`, as its reason (R202, R206). -/
def mmaReason (n : Nat) (trans : Bool) (x : Operand) (b : PeBank) : Option Nat :=
  if n + (x.rows + 31) / 32 - 1 > 15 then some 1
  else if b.loaded && classClash x.ty b.ty then some 2
  else if !b.loaded then some 3
  else if (x.smode ≠ 0 ∧ x.axis ≠ 0) ∨ (b.smode ≠ 0 ∧ b.axis ≠ b2n trans) then some 4
  else none

/-! ## MMA and MMAT (R206) -/

/-- The offset of row `r` of accumulator tile `n` on (R87). -/
def accOff (n r : Nat) : Nat := (n + r / 32) * 0x1000 + r % 32 * 128

/-- The old accumulators of a row, zero where they are uncorrectable (R210). -/
def accRead (t : Tile) (off : Nat) : List Nat :=
  (List.range 32).map fun q => if granBad t .c ((off + 4 * q) / 32) then 0 else memRead t.c (off + 4 * q) 4

/-- The records of the uncorrectable accumulators of a row (R210, R212). -/
def accErrors (t : Tile) (off row : Nat) (bank : Bool) : List Word :=
  if t.poison = [] then []
  else (List.range 32).filterMap fun q =>
    if granBad t .c ((off + 4 * q) / 32) then some (oerrRecord (off + 4 * q) 4 row q bank) else none

/-- Streams rows from row `r` on past the columns; the rows written whole lose their poison (R210). -/
def mmaRows (wide bank : Bool) (n : Nat) (ys : List (List FV)) : Tile → Nat → List (List FV) → Tile × BitVec 5
  | t, _, [] => (t, 0)
  | t, r, x :: xs =>
    let off := accOff n r
    let a := accRow wide (accRead t off) x ys
    let t := oerrLogAll t (accErrors t off r bank)
    let u := mmaRows wide bank n ys (storeWrite t .c off 128 (packBits 32 a.1)) (r + 1) xs
    (u.1, a.2 ||| u.2)

/-- The bank's uncorrectable elements are rewritten with zero after a use (R210). -/
def bankUsed (t : Tile) (b : Fin 2) : Tile :=
  let x := t.pe.get b
  if x.bad = [] then t
  else
    oerrLogAll { t with pe := t.pe.set b { x with data := (bankOperand x).data, bad := [] } } (bankErrors x.bad (b.val == 1))

/-- A multiply that starts: what the C-store held before it, as R213 needs it. -/
def startRows (t : Tile) (descs : List Word) (bank : Bool) (n rows : Nat) : MatRun :=
  { out := false, descs := descs, bank := bank, n := n, rows := rows, start := 0, cycles := 0,
    old := memMoved t.c (n * 0x1000) (rows * 128) (n * 0x1000), accs := [], done := rows, rest := [] }

/-- MMA and MMAT: `hd` is the streamed operand as the checks see it, and `read` reads it, with the substitutions that this makes. R206
does not order its checks against the wait for an empty accumulator tile: the model traps before it parks (DESIGN CHOICE; log 43). The
streamed operand's errors are logged before the bank's, which R210 does not order (DESIGN CHOICE; log 31). -/
def multiply (trans : Bool) (la : La) (n : CTile) (bank : Bool) (descs : List Word) (hd : Operand)
    (read : State → State × Operand × List Word) (s : State) : Out :=
  let b : Fin 2 := if bank then 1 else 0
  match mmaReason n.val trans hd ((getTile s (myTile s)).pe.get b) with
  | some r => trap 0x40 (w64 r) s
  | none =>
    let ts := (List.range ((hd.rows + 31) / 32)).map fun i => (⟨.c, n.val + i⟩ : RegId)
    sources ts s fun s => roomForLong s fun s =>
      let (s, x, errs) := read (meetBank s (myTile s) b)
      let s := meetFlaws s (myTile s) .c (n.val * 0x1000) (x.rows * 128)
      let t := getTile s (myTile s)
      let o := bankOperand (t.pe.get b)
      let ys := if trans then colsOf o.values else o.values
      let r := mmaRows (wideTy x.ty) bank n.val ys (bankUsed (oerrLogAll t errs) b) 0 x.values
      issueArray la (mulLatency x o)
        { longOp (ts.map tileWb) with flags := r.2, fp := true, fx := .rows (startRows t descs bank n.val x.rows) }
        (setTile s (myTile s) r.1)

/-- MMA and MMAT from the A-store. -/
def multiplyStore (trans : Bool) (la : La) (n : CTile) (bank : Bool) (ea : EReg) (s : State) : Out :=
  inSet tileHarts s fun s => sources [eId ea] s fun s =>
    let v := re (me s) ea
    match descFault (getTile s (myTile s)) .a v with
    | some (c, w) => trap c w s
    | none =>
      multiply trans la n bank [v] (readOperand (getTile s (myTile s)) .a v) (fun s =>
        let s := meetOperand s (myTile s) .a v
        let t := getTile s (myTile s)
        (s, readOperand t .a v, operandErrors t .a v bank)) s

/-- MMA and MMAT from the ring latch (R206, R219). -/
def multiplyLatch (trans : Bool) (la : La) (n : CTile) (bank : Bool) (s : State) : Out :=
  inSet tileHarts s fun s => sources [⟨.latch, 0⟩] s fun s =>
    multiply trans la n bank [] (latchOperand (getTile s (myTile s)).latch) (fun s =>
      let s := meetLatch s (myTile s)
      let l := (getTile s (myTile s)).latch
      (s, latchOperand l, latchErrors l bank)) s

/-- MMA (R206). -/
def execMma (la : La) (n : CTile) (bank : Bool) (ea : EReg) (s : State) : Out := multiplyStore false la n bank ea s
/-- MMA from the latch (R206). -/
def execMmaLatch (la : La) (n : CTile) (bank : Bool) (s : State) : Out := multiplyLatch false la n bank s
/-- MMAT (R206). -/
def execMmat (la : La) (n : CTile) (bank : Bool) (ea : EReg) (s : State) : Out := multiplyStore true la n bank ea s
/-- MMAT from the latch (R206). -/
def execMmatLatch (la : La) (n : CTile) (bank : Bool) (s : State) : Out := multiplyLatch true la n bank s

/-! ## MLD, MOUT, MDRAIN, MZERO (R205, R207, R208) -/

/-- MLD (R205). -/
def execMld (la : La) (bank : Bool) (ea : EReg) (s : State) : Out :=
  inSet tileHarts s fun s => sources [eId ea] s fun s => roomForLong s fun s =>
    let t := getTile s (myTile s)
    let v := re (me s) ea
    match descFault t .w v with
    | some (c, w) => trap c w s
    | none =>
      if (descOf v.toNat).rows ≠ 32 then trap 0x40 1 s
      else
        let s := meetOperand s (myTile s) .w v
        let t := getTile s (myTile s)
        let o := readOperand t .w v
        let b : Fin 2 := if bank then 1 else 0
        let pe : PeBank := { t.pe.get b with
          loaded := true, data := o.data, ty := o.ty, nfd := o.nfd, smode := o.smode, axis := o.axis, scales := o.scales,
          bad := [], flaws := [] }
        issueArray la (if wideTy o.ty then 28 else 20) (longOp [])
          (setTile s (myTile s) (oerrLogAll { t with pe := t.pe.set b pe } (operandErrors t .w v bank)))

/-- The failing check of MOUT (R202). -/
def moutReason (x g : Operand) : Option Nat :=
  if classClash x.ty g.ty then some 2
  else if (x.smode ≠ 0 ∧ x.axis ≠ 1) ∨ (g.smode ≠ 0 ∧ g.axis ≠ 1) then some 4
  else if x.rows ≠ g.rows then some 8
  else none

/-- One block of MOUT: acc(o, k) takes the terms G(b, o) · X(b, k). -/
def moutBlock (wide : Bool) (acc : List Nat) (xc gc : List (List FV)) : List Nat × BitVec 5 :=
  let l := (acc.zip (gc.flatMap fun g => xc.map fun x => (g, x))).map fun p => accumulate wide p.1 p.2.1 p.2.2
  (l.map (·.1), l.foldl (fun f p => f ||| p.2) 0)

/-- The accumulators after each block of 32 streamed rows, in ascending order, and the flags; the number bounds the blocks (R207). -/
def moutBlocks (wide : Bool) : Nat → List Nat × BitVec 5 → List (List FV) → List (List FV) → List (List Nat) × BitVec 5
  | 0, a, _, _ => ([], a.2)
  | n + 1, a, xs, gs =>
    if xs.isEmpty then ([], a.2)
    else
      let r := moutBlock wide a.1 (colsOf (xs.take 32)) (colsOf (gs.take 32))
      let t := moutBlocks wide n (r.1, a.2 ||| r.2) (xs.drop 32) (gs.drop 32)
      (r.1 :: t.1, t.2)

/-- The 1,024 elements of an in-array accumulator. -/
def accList (b : PeBank) : List Nat := (List.range 1024).map fun i => (nthW b.acc i).toNat

/-- MOUT (R207). -/
def execMout (la : La) (bank : Bool) (eb ea : EReg) (s : State) : Out :=
  inSet tileHarts s fun s => sources [eId ea, eId eb] s fun s => roomForLong s fun s =>
    let t := getTile s (myTile s)
    let vx := re (me s) ea
    let vg := re (me s) eb
    match descFault t .a vx <|> descFault t .a vg with
    | some (c, w) => trap c w s
    | none =>
      let x := readOperand t .a vx
      let g := readOperand t .a vg
      match moutReason x g with
      | some r => trap 0x40 (w64 r) s
      | none =>
        let b : Fin 2 := if bank then 1 else 0
        let s := meetBankAcc (meetOperand (meetOperand s (myTile s) .a vx) (myTile s) .a vg) (myTile s) b
        let t := getTile s (myTile s)
        let x := readOperand t .a vx
        let g := readOperand t .a vg
        let old := accList (t.pe.get b)
        let r := moutBlocks (wideTy x.ty) 16 (old, 0) x.values g.values
        let accs := (old :: r.1).map fun l => l.map (BitVec.ofNat 32)
        let pe := { t.pe.get b with acc := accs.getLastD [] }
        let run : MatRun :=
          { out := true, descs := [vx, vg], bank := bank, n := 0, rows := x.rows, start := 0, cycles := 0, old := [],
            accs := accs, done := x.rows, rest := [] }
        issueArray la (mulLatency x g) { longOp [] with flags := r.2, fp := true, fx := .rows run }
          (setTile s (myTile s) (oerrLogAll { t with pe := t.pe.set b pe }
            (operandErrors t .a vx bank ++ operandErrors t .a vg bank)))

/-- The write of accumulator tile c[n] whole, which clears its poison (R208, R210). -/
def accWords (n : Nat) (l : List Nat) : Nat × Nat × Nat := (n * 0x1000, 0x1000, packBits 32 l)

/-- MDRAIN (R208): the tile is written at completion. A tile that any hart's operation still writes is empty, and the instruction
parks (R206, R235). -/
def execMdrain (la : La) (n : CTile) (bank : Bool) (s : State) : Out :=
  inSet tileHarts s fun s => sources [cId n] s fun s => roomForLong s fun s =>
    let b : Fin 2 := if bank then 1 else 0
    let s := meetBankAcc s (myTile s) b
    issueArray la 20
      { longOp [tileWb (cId n)] with fx := .words [accWords n.val (accList ((getTile s (myTile s)).pe.get b))] } s

/-- MZERO (R208): the tile is written at completion. -/
def execMzero (la : La) (n : CTile) (bank : Bool) (s : State) : Out :=
  inSet tileHarts s fun s => sources [cId n] s fun s => roomForLong s fun s =>
    let b : Fin 2 := if bank then 1 else 0
    issueArray la 8 { longOp [tileWb (cId n)] with fx := .words [accWords n.val []] }
      (modTile s (myTile s) fun t => { t with pe := t.pe.set b { t.pe.get b with acc := [], accFlaws := [] } })

end Sys2Proof.Machine
end

