-- ==== Sys2Proof/Machine/Ring.lean ====
section
/-! DEFINITION. The ring (R214 to R219). -/

namespace Sys2Proof.Machine

/-- RINGDEF (R216). -/
def execRingdef (la : La) (ea : EReg) (s : State) : Out :=
  inSet tileHarts s fun s => sources [eId ea] s fun s => roomForLong s fun s =>
    let w := re (me s) ea
    let v := w.toNat
    let u := tileAt (bits v 0 8) (bits v 8 8)
    if v / 2 ^ 16 ≠ 0 then trap 0x01 w s
    else if bits v 0 8 > 71 ∨ bits v 8 8 > 63 ∨ u = myTile s ∨ (getTile s u).grp ≠ (getTile s (myTile s)).grp then
      trap 0x40 7 s
    else issueArray la 8 (longOp []) (modTile s (myTile s) fun t => { t with ring := some u })

/-- The failing check of LATCH (R202, R217). -/
def latchReason (d : Desc) (l : Latch) : Option Nat :=
  if d.rows * rowBytes d.ty d.pack > 2048 ∨ scaleBytes d.smode d.axis d.rows > 64 then some 5
  else if l.st ≠ .empty then some 9
  else none

/-- LATCH (R217): the latch is *filling* until the operation completes. It names no bank, and R212 does not say which bank its
substitution records hold: the model puts 0 (DESIGN CHOICE; log 43). -/
def execLatch (la : La) (ea : EReg) (s : State) : Out :=
  inSet tileHarts s fun s => sources [eId ea] s fun s => roomForLong s fun s =>
    let t := getTile s (myTile s)
    let v := re (me s) ea
    match descFault t .a v with
    | some (c, w) => trap c w s
    | none =>
      match latchReason (descOf v.toNat) t.latch with
      | some r => trap 0x40 (w64 r) s
      | none =>
        let s := meetOperand s (myTile s) .a v
        let t := getTile s (myTile s)
        let o := readOperand t .a v
        let l : Latch := ⟨.filling, o.rows, o.ty, o.nfd, o.smode, o.axis, (descOf v.toNat).pack, o.data, o.scales, [], [], []⟩
        issueArray la 24 (longOp [tileWb ⟨.latch, 0⟩])
          (setTile s (myTile s) (oerrLogAll { t with latch := l } (operandErrors t .a v false)))

/-- BROT (R218): with its own latch *full*, it asks its successor, and the request reaches the successor's router after 1 cycle a hop, and
none for a die edge: R218 gives no time (DESIGN CHOICE; log 43). A
thread's BROT can trap until its copy begins (R219), so the thread waits; a sequencer's cannot, and its shadow issues meanwhile
(R59). -/
def execBrot (la : La) (s : State) : Out :=
  inSet tileHarts s fun s => roomForLong s fun s =>
    match (getTile s (myTile s)).ring with
    | none => trap 0x40 6 s
    | some u =>
      sources [⟨.latch, 0⟩] s fun s =>
        let i : Fin 10 := Fin.ofNat 10 (slotOf s.cur)
        let s := modTile s u fun x => { x with ringReq := x.ringReq ++ [(s.cycle + hops (myTile s) u, myTile s, i)] }
        if kindOf s.cur == .thread then park (.ring ((me s).pc + 4) la.val) s else issueAwait 4 la.val .move s

/-! ## Moving (R218) -/

/-- A request at a router: its arrival, the tile and the hart that wait. -/
abbrev RingReq := Nat × Nat × Fin 10

/-- The earliest of some requests that have arrived, by `rank`. -/
def firstRing (cycle : Nat) (rank : RingReq → Nat) (l : List RingReq) : Option RingReq :=
  (l.filter (·.1 ≤ cycle)).foldl (fun o r => match o with
    | some b => if r.1 < b.1 ∨ (r.1 = b.1 ∧ rank r < rank b) then some r else some b
    | none => some r) none

/-- The input port of tile `u`'s router through which a request of tile `t` comes, X first, then Y: N, E, S, W (R218; log 43). -/
def ringPort (u t : Nat) : Nat :=
  if tileY t < tileY u then 0 else if tileY u < tileY t then 2 else if tileX u < tileX t then 1 else 3

/-- What a waiting BROT of tile `t` asks: the successor and its request there. -/
def ringAsks (s : State) (t : Nat) : Option (Nat × RingReq) :=
  s.tiles.foldl (fun o x => match o, firstRing s.cycle (fun _ => 0) (x.2.ringReq.filter (·.2.1 == t)) with
    | some b, some r => if r.1 < b.2.1 then some (x.1, r) else some b
    | none, some r => some (x.1, r)
    | o, none => o) none

/-- A copy of tile `t`'s latch to its successor is under way. -/
def copiesOut (s : State) (t : Nat) : Bool :=
  vany (getTile s t).harts fun h => h.out.any fun o => match o.fx with
    | .ring _ _ _ => true
    | .none | .load _ _ | .store _ _ | .words _ | .rows _ | .opt _ => false

/-- A BROT waits on tile `t`, and its latch is *full*. -/
def ringReady (s : State) (t : Nat) : Bool :=
  (getTile s t).latch.st == .full && (ringAsks s t).isSome && tileRuns s t && !copiesOut s t

/-- The tiles from `t` on along waiting BROTs, until the chain closes at `t`; none when it does not. -/
def ringCycle (s : State) (t : Nat) : Nat → Nat → Option (List Nat)
  | 0, _ => none
  | n + 1, u =>
    if !ringReady s u then none
    else
      match ringAsks s u with
      | none => none
      | some (v, _) => if v = t then some [u] else (ringCycle s t n v).map (u :: ·)

/-- The tile whose request at a successor came first, of those whose latch is *full* (R218). -/
def ringFirst (s : State) (u : Nat) : Option Nat :=
  (firstRing s.cycle (fun r => ringPort u r.2.1) ((getTile s u).ringReq.filter fun r =>
    ringReady s r.2.1 && (ringAsks s r.2.1).any (·.1 == u))).map (·.2.1)

/-- Tile `t`'s BROT may move alone: its successor's latch is *empty* and grants it. -/
def ringAlone (s : State) (t : Nat) : Bool :=
  ringReady s t &&
    match ringAsks s t with
    | some (u, _) => (getTile s u).latch.st == .empty && ringFirst s u == some t && tileRuns s u
    | none => false

/-- Tile `t`'s BROT may move now. -/
def ringCanMove (s : State) (t : Nat) : Bool :=
  ringAlone s t || (ringReady s t && (ringCycle s t s.tiles.length t).isSome)

/-- The cycles of a copy to a successor (R209). -/
def ringLatency (t u : Nat) : Nat := 64 + 2 * hops t u + 32 * dieEdges t u

/-- The BROT of hart `h` begins its copy: a thread's becomes a long operation now, with its lookahead; a sequencer's is one already
(R51, R59, R218). -/
def ringBegins (s : State) (h : HartId) (o : LongOp) : State :=
  match (getHart s h).status with
  | .parked (.ring next la) =>
    let la := if (getHart s h).ss then 0 else la
    let s := complete (modHart s h fun x => { x with out := x.out ++ [{ o with left := la + 1, inl := la == 0 }] }) h next
    if la = 0 then modHart s h fun x => if x.status == .ready then { x with status := .inline } else x else s
  | _ =>
    match (getHart s h).out.findIdx? (·.await == .move) with
    | some i => modHart s h fun x => { x with out := x.out.modify i fun y => { y with await := .time, due := o.due, fx := o.fx } }
    | none => s

/-- The block of a latch on its way: one that fails a check arrives with every element poisoned (R298). -/
def badBlock (l : Latch) : Latch := { l with bad := List.range (32 * l.rows) }

/-- The block of tile `t`, as its latch stood in `old`, sets out for the latch of the tile it asked, which is *filling* (R218). One
that is lost leaves that latch *empty*, and is reported (R299; log 44). -/
def ringPass (alone : Bool) (old s : State) (t : Nat) : State :=
  match ringAsks old t with
  | some (u, r) =>
    let h : HartId := .tile t r.2.2
    let l := { (getTile old t).latch with st := .full }
    let s := modTile s u fun x => { x with latch := { Latch.reset with st := .filling }, ringReq := x.ringReq.erase r }
    let (s, w) := onLoom s h (some u)
    let s := if w == .whole then s else cellReport s h (designation ⟨.latch, 1⟩)
    let block := if w == .whole then l else if w == .bad then badBlock l else Latch.reset
    ringBegins s h { longOp [] with due := s.cycle + ringLatency t u, fx := .ring u block alone }
  | none => s

/-- RING_MOVE (R218): a closed cycle begins to move together; another BROT begins alone. -/
def execRingMove (s : State) : Out :=
  match s.ev with
  | .tile t =>
    if !ringReady s t then .next s
    else
      match ringCycle s t s.tiles.length t with
      | some l => .next (l.foldl (ringPass false s) s)
      | none => if ringAlone s t then .next (ringPass true s s t) else .next s
  | _ => .next s

end Sys2Proof.Machine
end

