-- ==== Sys2Proof/Machine/StepBar.lean ====
section
/-! DEFINITION. Steps, windows and the local barriers (R130 to R150). -/

namespace Sys2Proof.Machine

/-! ## The step counter (R130 to R136) -/

/-- The mask bit of a slot; slots from 7 on have none. -/
def slotBit (i : Nat) : BitVec 7 := 1#7 <<< i

/-- Slot `i` is enrolled (R130). -/
def enrolled (t : Tile) (i : Nat) : Bool := decide (i < 7) && t.stepmask.getLsbD i

/-- Every enrolled slot of a tile that is not *free* stands in a record of arrivals (R132, R146). -/
def slotsArrived (t : Tile) (rec : BitVec 7) : Bool :=
  (List.finRange 7).all fun i =>
    !t.stepmask.getLsbD i.val || (t.harts.get (Fin.castLE (by omega) i)).status == .free || rec.getLsbD i.val

/-- The tile has arrived for its step: it is not *held* (R132, R133). -/
def stepArrived (t : Tile) : Bool := t.idle || slotsArrived t t.arrived

/-- Counter `c` counts as at least `n` (R131). -/
def atLeast (c n : BitVec 32) : Bool := decide ((c - n).toNat < 2 ^ 31)

/-- The neighbours of a tile in its group, with their report bits (R131). -/
def groupNeighbours (s : State) (t : Nat) : List (Nat × Nat) :=
  (neighbours t).filter fun n => (getTile s n.1).grp == (getTile s t).grp

/-- The counter and the *held* bit of tile `u` as the seam shows them to tile `t`: one cycle late, two across a die edge (R131,
R133). -/
def seamView (s : State) (t u : Nat) : BitVec 32 × Bool :=
  let x := getTile s u
  if dieEdges t u = 0 then (x.step, !stepArrived x) else x.seam.get 1

/-- The neighbours that tile `t` waits on. -/
def behind (s : State) (t : Nat) : List (Nat × Nat) :=
  (groupNeighbours s t).filter fun n => !atLeast (seamView s t n.1).1 (getTile s t).step

/-- The PUBs of tile `t` that are to complete, as (due, slot) (R140). -/
def pubsOut (s : State) (t : Nat) : List (Nat × Nat) :=
  (List.finRange 10).flatMap fun i =>
    ((getHart s (.tile t i)).out.filter (·.win != [])).map fun o => (o.due, i.val)

/-- A PUB of tile `t` holds its step: one that is due, and one of an enrolled slot, which belongs to the step of its issue even where the
slot, which joined by SPAWN, counts as arrived (R140, R150; log 27). -/
def pubDue (s : State) (t : Nat) : Bool :=
  (pubsOut s t).any fun p => decide (p.1 ≤ s.cycle) || (!(getTile s t).idle && enrolled (getTile s t) p.2)

/-- A PUB of slot `i` that is due at `due` is the next of its tile: PUBs take effect as they complete, and by slot number in one
cycle (R98, R140). -/
def pubNext (s : State) (t i due : Nat) : Bool :=
  (pubsOut s t).all fun p => decide (due < p.1 ∨ (due = p.1 ∧ i ≤ p.2))

/-- The tile advances (R131). A PUB that completes in the same cycle comes first (R150). -/
def canAdvance (s : State) (t : Nat) : Bool :=
  tileRuns s t && stepArrived (getTile s t) && (behind s t).isEmpty && !pubDue s t

/-- The tile is *waiting* (R133, R142). -/
def stepWaiting (s : State) (t : Nat) : Bool :=
  tileRuns s t && !(getTile s t).idle && stepArrived (getTile s t) && !(behind s t).isEmpty

/-- STEP (R135), of `len` bytes: an enrolled slot's arrival is recorded; the slot waits for the advance. -/
def stepSlot (len : Nat) (s : State) : Out :=
  inSet threadOnly s fun s => drained s fun s =>
    let next := (me s).pc + w64 len
    let i := slotOf s.cur
    park (.step next) (modTile s (myTile s) fun t =>
      if enrolled t i then { t with arrived := t.arrived ||| slotBit i } else t)

/-- STEP (R135). -/
def execStep (s : State) : Out := stepSlot 4 s
/-- C.SYS STEP (R45, R134). -/
def execCStep (s : State) : Out := stepSlot 2 s

/-- A slot that waits in STEP goes on (R135). -/
def stepGoesOn (s : State) (t : Nat) (i : Fin 10) : State :=
  match ((getTile s t).harts.get i).status with
  | .parked (.step next) => complete s (.tile t i) next
  | _ => s

/-- The tile after the advance of its counter (R130, R137). -/
def advanced (t : Tile) : Tile :=
  { t with step := t.step + 1, wr := t.wr || t.step == 0xFFFF_FFFF, arrived := 0,
           hist := (t.pub :: t.hist).take 32, waitSince := none, waitTold := false }

/-- STEP_ADVANCE (R131, R132, R137): the publish row becomes a version, the counter advances, the slots in STEP go on. -/
def execStepAdvance (s : State) : Out :=
  match s.ev with
  | .tile t =>
    if canAdvance s t then
      .next ((List.finRange 10).foldl (fun s i => stepGoesOn s t i) (modTile s t advanced))
    else .next s
  | _ => .next s

/-- The directions in which a *held* neighbour that the tile waits on stands (R142, R368). -/
def heldDirections (s : State) (t : Nat) : Nat :=
  (behind s t).foldl (fun n u => if (seamView s t u.1).2 then n + 2 ^ u.2 else n) 0

/-- A thread takes part in the steps of the tile: some enrolled slot is not *free*. -/
def stepThreads (x : Tile) : Bool :=
  (List.finRange 7).any fun i => x.stepmask.getLsbD i.val && (x.harts.get (Fin.castLE (by omega) i)).status != .free

/-- A tile's step-wait report is due (R142). A tile whose enrolled slots are all *free* makes none: R142 names no exception, and R367 says
that where such tiles alone wait on a *held* one nothing is reported (DEDUCED; log 48). -/
def stepwatchDue (s : State) (t : Nat) : Bool :=
  let x := getTile s t
  match x.waitSince with
  | some c => x.stepwatch != 0 && !x.waitTold && decide (s.cycle ≥ c + usCycles x.stepwatch.toNat) && stepWaiting s t &&
      heldDirections s t != 0 && stepThreads x
  | none => false

/-- STEPWATCH_REPORT (R142). -/
def execStepwatchReport (s : State) : Out :=
  match s.ev with
  | .tile t =>
    if stepwatchDue s t then
      .next (tileReport (modTile s t fun x => { x with waitTold := true }) t 2 0 0 0 0 (heldDirections s t)
        (getTile s t).step.toNat)
    else .next s
  | _ => .next s

/-- STEPIDLE (R136). -/
def execStepidle (a : GReg) (s : State) : Out :=
  inSet threadOnly s fun s => supOnly s fun s => sources [gId a] s fun s => drained s fun s =>
    let v := (rg (me s) a).toNat
    let t := tileAt (bits v 0 8) (bits v 8 8)
    if v / 2 ^ 16 ≠ 0 ∨ bits v 0 8 > 71 ∨ bits v 8 8 > 63 ∨
        !(groupAt s (hartCtx s s.cur) t).any (·.st == .running) then trap 0x1D (rg (me s) a) s
    else done 4 (modTile s t fun x => { x with idle := true })

/-! ## Windows (R137 to R141) -/

/-- The version of tile `u` at entry to step `v` (R137). -/
def version (u : Tile) (v : BitVec 32) : WinVer := (u.hist[(u.step - v).toNat]?).getD u.winImg

/-- A version after the read of word `i` has met its error (R296). -/
def WinVer.met (w : WinVer) (i : Nat) : WinVer :=
  let (bad, rest) := flawsMet w.words.length 8 w.flaws (· == i)
  { w with bad := w.bad ++ bad.filter (fun i => !w.bad.contains i), flaws := rest }

/-- The read of word `i` of the version at entry to step `v` of tile `u`, or of the window image, meets its error (R296). -/
def meetWindow (s : State) (u : Nat) (v : Option (BitVec 32)) (i : Nat) : State :=
  let x := getTile s u
  let w := match v with
    | some v => version x v
    | none => x.winImg
  if w.flaws.all (·.1 != i) then s
  else
    let k := match v with
      | some v => (x.step - v).toNat
      | none => x.hist.length
    let x := if k < x.hist.length then { x with hist := x.hist.set k (w.met i) } else { x with winImg := w.met i }
    countFlaws (setTile s u x) (dieOf u) w.flaws (· == i)

/-- The latency of LDH (R141). -/
def ldhLatency (dist edges : Nat) : Nat := if dist = 0 then 6 else 12 + 2 * dist + 16 * edges

/-- LDH (R139, R141). The version, or in the prelude the window image, is read as the instruction issues. The val of its poison report
is the window address with the displacement added (DESIGN CHOICE; log 43). Its lookahead hazard comes before its own checks (DESIGN
CHOICE; log 43). -/
def execLdh (la : La) (imm : Imm8) (natural : Bool) (a d : GReg) (s : State) : Out :=
  inSet threadOnly s fun s => sources [gId a] s fun s => roomForLong s fun s => dests [gId d] s fun s =>
    let x := rg (me s) a
    let v := x.toNat
    let dx := sextNat 8 (bits v 16 8)
    let dy := sextNat 8 (bits v 24 8)
    let lag := bits v 32 5
    let dist := dx.natAbs + dy.natAbs
    let t := getTile s (myTile s)
    let i : Int := (bits v 0 9 : Nat) + imm.toInt
    let tx := (tileX (myTile s) : Int) + dx
    let ty := (tileY (myTile s) : Int) + dy
    let u := tileAt tx.toNat ty.toNat
    if bits v 9 7 ≠ 0 ∨ v / 2 ^ 37 ≠ 0 then trap 0x1C x s
    else if dist > 15 then trap 0x35 x s
    else if 2 * dist + lag > 31 then trap 0x36 x s
    else if i < 0 ∨ i ≥ t.winN then trap 0x37 x s
    else if tx < 0 ∨ tx > 71 ∨ ty < 0 ∨ ty > 63 ∨ (getTile s u).grp ≠ t.grp then trap 0x1D x s
    else
      let pre := !t.wr && decide (t.step.toNat < dist + lag)
      let at_ := if pre then none else some (t.step - BitVec.ofNat 32 (dist + lag))
      let s := meetWindow s u at_ i.toNat
      let w : WinVer := match at_ with
        | none => (getTile s u).winImg
        | some v => version (getTile s u) v
      let (s, way) := onLoom s s.cur (some u)
      let bad := w.bad.contains i.toNat || way != .whole
      let word := if bad then 0 else (nthW w.words i.toNat).toNat
      let s := if bad then poisonReport s s.cur 3 (x + imm.signExtend 64) else s
      issueLong 4 la.val (ldhLatency dist (dieEdges (myTile s) u))
        { longOp [⟨gId d, if natural then word else (i64 (sextNat 32 word)).toNat⟩] with pre := pre } s

/-- PUB (R140): the word is written at completion. STEP waits for an enrolled slot's PUBs (R134), so they belong to the step in which
they issue. -/
def execPub (la : La) (imm : Imm8) (a d : GReg) (s : State) : Out :=
  inSet threadOnly s fun s => sources [gId a, gId d] s fun s => roomForLong s fun s =>
    let x := rg (me s) a
    let i : Int := (bits x.toNat 0 9 : Nat) + imm.toInt
    if x.toNat / 2 ^ 9 ≠ 0 then trap 0x1C x s
    else if i < 0 ∨ i ≥ (getTile s (myTile s)).winN then trap 0x37 x s
    else
      let w : W32 := (rg (me s) d).setWidth 32
      issueLong 4 la.val 6 { longOp [] with win := [(i.toNat, w)] } s

/-! ## Barriers (R146 to R148) -/

/-- The number of a barrier kind (R147). -/
def barIdx (k : BarKind) : Fin 3 :=
  match k with
  | .tbar => 0
  | .qbar => 1
  | .clbar => 2

/-- The tiles whose slots take part in the barrier of kind `k` of tile `t` (R146); groups are made of whole quads. -/
def barTiles (s : State) (k : BarKind) (t : Nat) : List Nat :=
  match k with
  | .tbar => [t]
  | .qbar => blockTiles 2 t
  | .clbar => (blockTiles 4 t).filter fun u => (getTile s u).grp == (getTile s t).grp

/-- A tile has arrived at the open generation of a barrier (R146). -/
def barArrived (k : BarKind) (t : Tile) : Bool :=
  (t.idle && k != .tbar) || slotsArrived t (t.barArr.get (barIdx k))

/-- A slot of the tile waits, after its arrival, in a barrier of kind `k`. -/
def slotInBar (k : BarKind) (t : Tile) : Bool :=
  vany t.harts fun h => match h.status with
    | .parked (.bar k' _ _) => k' == k
    | _ => false

/-- A slot of the tile has recorded an arrival at the open generation: one waits there, or an enrolled one has joined since
(R146). -/
def barRecorded (k : BarKind) (t : Tile) : Bool :=
  slotInBar k t || (List.finRange 7).any fun i =>
    t.stepmask.getLsbD i.val && (t.harts.get (Fin.castLE (by omega) i)).status != .free && (t.barArr.get (barIdx k)).getLsbD i.val

/-- The open generation completes (R147): every participant has arrived and some slot has recorded an arrival. -/
def barComplete (s : State) (k : BarKind) (t : Nat) : Bool :=
  let l := barTiles s k t
  tileRuns s t && l.all (fun u => barArrived k (getTile s u)) && l.any (fun u => barRecorded k (getTile s u))

/-- TBAR, QBAR and CLBAR (R147). -/
def barrier (k : BarKind) (d : GReg) (s : State) : Out :=
  inSet threadOnly s fun s => drained s fun s =>
    let t := getTile s (myTile s)
    let i := slotOf s.cur
    let gen := t.gen.get (barIdx k)
    let count := (me s).bar.get (barIdx k)
    if enrolled t i && count == gen + 1 && (t.barArr.get (barIdx k)).getLsbD i then park (.barAhead k gen) s
    else if !enrolled t i || count != gen then
      trap 0x38 (w64 ((barIdx k).val * 2 ^ 32 + gen.toNat * 2 ^ 16 + count.toNat)) s
    else
      park (.bar k d ((me s).pc + 4)) (modTile s (myTile s) fun t =>
        { t with barArr := t.barArr.set (barIdx k) (t.barArr.get (barIdx k) ||| slotBit i) })

/-- TBAR (R147). -/
def execTbar (d : GReg) (s : State) : Out := barrier .tbar d s
/-- QBAR (R147). -/
def execQbar (d : GReg) (s : State) : Out := barrier .qbar d s
/-- CLBAR (R147). -/
def execClbar (d : GReg) (s : State) : Out := barrier .clbar d s

/-- A slot that waits at a completed generation departs: its count rises, g[d] receives the generation, an acquire is made
(R147). -/
def barDepart (k : BarKind) (s : State) (t : Nat) (i : Fin 10) : State :=
  match ((getTile s t).harts.get i).status with
  | .parked (.bar k' d next) =>
    if k' = k then
      let h : HartId := .tile t i
      let c := (getHart s h).bar.get (barIdx k)
      complete (acquire (modHart s h fun x => wg { x with bar := x.bar.set (barIdx k) (c + 1) } d (c.setWidth 64)) h) h next
    else s
  | _ => s

/-- A participant tile after its generation has completed (R147). -/
def genDone (k : BarKind) (t : Tile) : Tile :=
  { t with gen := t.gen.set (barIdx k) (t.gen.get (barIdx k) + 1), barArr := t.barArr.set (barIdx k) 0,
           barSince := t.barSince.set (barIdx k) none, barTold := t.barTold.set (barIdx k) false }

/-- BARRIER_GENERATION_COMPLETE (R146, R147). -/
def execBarrierGenerationComplete (s : State) : Out :=
  match s.ev with
  | .kindTile k t =>
    if barComplete s k t then
      .next ((barTiles s k t).foldl (fun s u =>
        (List.finRange 10).foldl (fun s i => barDepart k s u i) (modTile s u (genDone k))) s)
    else .next s
  | _ => .next s

/-- A slot of the tile that joined ahead waits for the open generation of kind `k` (R147). -/
def slotAhead (k : BarKind) (t : Tile) : Bool :=
  vany t.harts fun h => match h.status with
    | .parked (.barAhead k' g) => k' == k && g == t.gen.get (barIdx k)
    | _ => false

/-- The tile has arrived at a QBAR or CLBAR and waits for partners (R148). -/
def barWaiting (s : State) (k : BarKind) (t : Nat) : Bool :=
  k != .tbar && tileRuns s t && (slotInBar k (getTile s t) || slotAhead k (getTile s t)) && barArrived k (getTile s t)

/-- A tile's barrier-wait report is due (R148). -/
def barWatchDue (s : State) (k : BarKind) (t : Nat) : Bool :=
  let x := getTile s t
  match x.barSince.get (barIdx k) with
  | some c => x.stepwatch != 0 && !x.barTold.get (barIdx k) && decide (s.cycle ≥ c + usCycles x.stepwatch.toNat) &&
      barWaiting s k t
  | none => false

/-- BARRIER_WAIT_REPORT (R148). -/
def execBarrierWaitReport (s : State) : Out :=
  match s.ev with
  | .kindTile k t =>
    if barWatchDue s k t then
      .next (tileReport (modTile s t fun x => { x with barTold := x.barTold.set (barIdx k) true }) t 3 0 0 0 0
        ((getTile s t).gen.get (barIdx k)).toNat (barIdx k).val)
    else .next s
  | _ => .next s

/-- One tile's stretches of waiting after a step: when they began, or that they are over (R142, R148). -/
def noteTile (s : State) (t : Nat) (x : Tile) : Tile :=
  let since (w : Bool) (o : Option Nat) : Option Nat := if w then some (o.getD s.cycle) else none
  let w := stepWaiting s t
  let q := barWaiting s .qbar t
  let c := barWaiting s .clbar t
  { x with seam := #v[(x.step, !stepArrived x), x.seam.get 0],
           waitSince := since w x.waitSince, waitTold := w && x.waitTold,
           barSince := #v[none, since q (x.barSince.get 1), since c (x.barSince.get 2)],
           barTold := #v[false, q && x.barTold.get 1, c && x.barTold.get 2] }

/-- Every tile's stretches of waiting after a step; a stopped partition's stand still (R142). -/
def noteWaits (s : State) : State :=
  { s with tiles := s.tiles.map fun x => (x.1, if stopped s x.1 then x.2 else noteTile s x.1 x.2) }

end Sys2Proof.Machine
end

