-- ==== Sys2Proof/Machine/Finish.lean ====
section
/-! DEFINITION. The completion of long operations, with what each does then beside its registers (R60, R93, R108, R140, R206 to R208,
R213, R218, R231; log 2, log 3). -/

namespace Sys2Proof.Machine

/-- The words of a tile's C-store that an operation writes at its completion. -/
def putWords (t : Tile) (l : List (Nat × Nat × Nat)) : Tile := l.foldl (fun t w => storeWrite t .c w.1 w.2.1 w.2.2) t

/-- A multiply of the array ends: what a gang switch left to do is done (R213). -/
def endRows (t : Tile) (r : MatRun) : Tile :=
  let b : Fin 2 := if r.bank then 1 else 0
  if r.out then
    if r.done < r.rows then { t with pe := t.pe.set b { t.pe.get b with acc := r.accs.getLastD [] } } else t
  else r.rest.foldl (fun t w => storeWrite t .c w.1 128 w.2) t

/-- The copy of a BROT ends: the successor's latch holds the block, and that of a BROT which moved alone is *empty* (R214, R218). -/
def endRing (s : State) (h : HartId) (u : Nat) (block : Latch) (alone : Bool) : State :=
  let s := match alone, h with
    | true, .tile t _ => modTile s t fun x => { x with latch := Latch.reset }
    | _, _ => s
  modTile s u fun x => { x with latch := block }

/-- Changes the tile of a hart. -/
def onTileOf (s : State) (h : HartId) (f : Tile → Tile) : State :=
  match h with
  | .tile t _ => modTile s t f
  | .mender _ _ => s

/-- An outstanding operation completes. -/
def finishOp (s : State) (h : HartId) (o : LongOp) : State :=
  match o.fx with
  | .none => writeBack s h o
  | .load a w => let (s, v) := loadAccess s h a w; writeBack s h { o with wbs := o.wbs.map fun b => ⟨b.reg, v⟩ }
  | .store a v => writeBack (storeAccessDone s h a v) h o
  | .words l => writeBack (onTileOf s h fun t => putWords t l) h o
  | .rows r => writeBack (onTileOf s h fun t => endRows t r) h o
  | .ring u block alone => writeBack (endRing s h u block alone) h o
  | .opt _ => s

/-- Operation `i` of a hart completes; an instruction that ran inline lets its thread go on (R51). -/
def completeOp (s : State) (h : HartId) (i : Nat) (o : LongOp) : State :=
  let s := finishOp s h o
  fenceGoesOn (modHart s h fun x =>
    { x with out := x.out.eraseIdx i, status := if o.inl && x.status == .inline then .ready else x.status }) h

/-- An access that travels to a tile whose partition is stopped or switched out is held there until it returns (R101). -/
def opHeld (s : State) (h : HartId) (o : LongOp) : Bool :=
  match (opAccess o).bind (·.tile) with
  | some t => switchedOut s (hartCtx s h) t
  | none => false

/-- A PUB completes after those of its tile that come before it (R140). -/
def pubTurn (s : State) (h : HartId) (o : LongOp) : Bool :=
  match h with
  | .tile t i => o.win == [] || pubNext s t i.val o.due
  | .mender _ _ => true

/-- An access to another tile is delivered behind what its pair of tiles sent before it (R334). -/
def pairedTurn (s : State) (h : HartId) (o : LongOp) : Bool :=
  match tileOf? h, opAccess o with
  | some t, some a => match a.tile with
    | some u => pairNext s t u a.sent
    | none => true
  | _, _ => true

/-- The operation may complete now. -/
def opDue (s : State) (h : HartId) (o : LongOp) : Bool :=
  o.await == .time && decide (o.due ≤ s.cycle) && !opHeld s h o && pubTurn s h o && pairedTurn s h o

/-- An earlier operation `p` of the same hart comes before `o`: accesses to common bytes keep their order (R61), and of two that are no
accesses the earlier is first. Other accesses may be performed in either order (R126). -/
def opBars (s : State) (h : HartId) (p o : LongOp) : Bool :=
  match opAccess o with
  | some a => opTouches p a
  | none => (opAccess p).isNone && opDue s h p

/-- The outstanding operations of a hart that may complete now. Which of them completes first is the machine's free choice. -/
def dueOps (s : State) (h : HartId) : List Nat :=
  let l := (getHart s h).out
  (List.range l.length).filter fun i => (l[i]?).any fun o => opDue s h o && !(l.take i).any fun p => opBars s h p o

end Sys2Proof.Machine
end

