-- ==== Sys2Proof/Machine/Queue.lean ====
section
/-! DEFINITION. Queues and kernels up to placement: LAUNCH, the walk, mapping, dispatch, checking, completion (R236 to R243,
R255 to R265, R370; log 22). -/

namespace Sys2Proof.Machine

/-! ## Nodes and entries (R255, R256) -/

/-- Fields of a node. -/
def ndKind (v : Nat) : Nat := bits v 0 2
def ndVer (v : Nat) : Nat := bits v 4 4
def ndPri (v : Nat) : Nat := bits v 8 2
def ndReq (v : Nat) : Bool := bitAt v 10
def ndHn (v : Nat) : Bool := bitAt v 11
def ndSup (v : Nat) : Bool := bitAt v 12
def ndQueue (v : Nat) : Nat := bits v 16 12
def ndPcnt (v : Nat) : Nat := bits v 32 32
def ndNext (v : Nat) : Nat := bits v 64 64
def ndSucc (v : Nat) : Nat := bits v 128 64
def ndObj (v : Nat) : Nat := bits v 192 64
def ndArgs (v : Nat) : Nat := bits v 256 64
def ndLblk (v : Nat) : Nat := bits v 320 64
def ndOx (v : Nat) : Nat := bits v 384 8
def ndOy (v : Nat) : Nat := bits v 392 8
def ndW (v : Nat) : Nat := bits v 400 8
def ndH (v : Nat) : Nat := bits v 408 8
def ndGx (v : Nat) : Nat := bits v 416 8
def ndGy (v : Nat) : Nat := bits v 424 8
def ndHint (v : Nat) : Nat := bits v 432 2
def ndNsucc (v : Nat) : Nat := bits v 440 8
def ndStatus (v : Nat) : Nat := bits v 448 64
def ndState (v : Nat) : Nat := bits v 448 2
def ndCan (v : Nat) : Bool := bitAt v 450
def ndWlk (v : Nat) : Bool := bitAt v 459

/-- Bits of the status word (R256). -/
def stCan : Nat := 2 ^ 2
def stRef (reason : Nat) : Nat := 2 ^ 3 + reason * 2 ^ 4
def stTrap : Nat := 2 ^ 8
def stPoison : Nat := 2 ^ 9
def stWlk : Nat := 2 ^ 11

/-- A reserved bit of a node is set. -/
def ndReserved (v : Nat) : Bool :=
  bits v 2 2 != 0 || bits v 13 3 != 0 || bits v 28 4 != 0 || bits v 434 6 != 0 || bits v 460 52 != 0

/-- The fields of a kernel node are valid (R256). -/
def kernelNodeOk (v : Nat) : Bool :=
  ndOx v % 2 == 0 && ndOy v % 2 == 0 && ndW v % 2 == 0 && ndH v % 2 == 0 && decide (2 ≤ ndW v ∧ ndW v ≤ 72) &&
    decide (2 ≤ ndH v ∧ ndH v ≤ 64) && decide (1 ≤ ndGx v ∧ ndGx v ≤ 36) && decide (1 ≤ ndGy v ∧ ndGy v ≤ 32) &&
    decide (ndHint v < 2) && ndObj v % 64 == 0 && ndLblk v % 64 == 0

/-- The walk accepts a node of queue `q` (R260, R56). -/
def nodeOk (supok : Bool) (q v : Nat) : Bool :=
  ndVer v == 1 && !ndReserved v && ndQueue v == q && (!ndSup v || supok) && (ndKind v != 0 || kernelNodeOk v)

/-- The virtual address of a queue-table entry (R255). -/
def entryVa (s : State) (c q : Nat) : Nat :=
  match alGet s.ctxs c with
  | some x => (x.qbase.toNat + 64 * q) % 2 ^ 64
  | none => 0

/-- Fields of an entry. -/
def qeCur (v : Nat) : Nat := bits v 192 64
def qePri (v : Nat) : Nat := bits v 256 2
def qeEn (v : Nat) : Bool := bitAt v 258
def qeDie (v : Nat) : Fin 4 := Fin.ofNat 4 (bits v 260 2)
def qeVec (v : Nat) : Nat := bits v 272 16

/-- The physical address to which a mapped page leads, whatever it permits. -/
def leafPeek (s : State) (c va : Nat) : Option Nat :=
  match alGet s.ctxs c with
  | some x => match (walk s x va).1 with
    | .leaf l => some (leafPa l.frame l.lvl va)
    | _ => none
  | none => none

/-- The 64 bytes at `va` as the queue unit sees them, with the permission of a user-mode read: 0 where it may not or cannot read them
(R281, R297, R370). -/
def unitPeek (s : State) (c va : Nat) : Nat :=
  match peekPa s c va .read with
  | .ok pa => physRead s pa 64
  | _ => 0

/-- The value of an entry. -/
def entryPeek (s : State) (c q : Nat) : Nat := unitPeek s c (entryVa s c q)

/-- The value of a node as it stands in memory. -/
def nodePeek (s : State) (c n : Nat) : Nat := unitPeek s c n

/-! ## Records of the queue units -/

/-- The record of a queue on a die. -/
def findRec (s : State) (d : Fin 4) (c q : Nat) : Option QueueRec := (s.dies.get d).queues.find? fun r => r.ctx == c && r.q == q

/-- Changes the record of a queue on a die, which is made if there is none. -/
def modRec (s : State) (d : Fin 4) (c q : Nat) (f : QueueRec → QueueRec) : State :=
  let x := s.dies.get d
  let l := if x.queues.any fun r => r.ctx == c && r.q == q then x.queues else x.queues ++ [⟨c, q, false, 0, none, []⟩]
  { s with dies := s.dies.set d { x with queues := l.map fun r => if r.ctx = c ∧ r.q = q then f r else r } }

/-- A node of a queue has become *ready*: its queue waits from now on, if it holds no slot (R261, R263). -/
def noteReady (s : State) (c n : Nat) : State :=
  { s with dies := vmap s.dies fun d => { d with queues := d.queues.map fun r =>
      if (r.ctx == c && r.nodes.contains n) && (r.mapped == false && r.waitSince.isNone) then { r with waitSince := some s.cycle } else r } }

/-- Forgets a node that has completed. -/
def dropNode (s : State) (c n : Nat) : State :=
  { s with dies := vmap s.dies fun d => { d with queues := d.queues.map fun r =>
      if r.ctx = c then { r with nodes := delNat r.nodes n } else r } }

/-- The host port that carries what the device sends: port 0, or port 1 while port 0 is down (R325). -/
def hostPort (s : State) : Option Nat :=
  if (s.ports.get 0).up then some 0 else if (s.ports.get 1).up then some 1 else none

/-- An MSI-X message: vectors 1 to 2,047, through a port that is up (R325); `v` is the value that it carries, where one is sent
(R261). -/
def sendMsi (s : State) (vec : Nat) (v : Option Word) : State :=
  match hostPort s with
  | some p => if vec = 0 ∨ vec > 2047 then s else { s with msix := (vec, p, v) :: s.msix }
  | none => s

/-! ## Completion (R262) -/

/-- A successor's count goes down; at zero a node that has been walked becomes *ready* (R262). -/
def countDown (s : State) (d : Fin 4) (c node succ : Nat) : State :=
  match unitRead s d c succ 64 .readWrite with
  | (s, .ok pa v) =>
    if ndPcnt v = 0 then unitReport s d c 9 0 (w64 succ) (w64 node) 0 0
    else
      let s := physWrite s (pa + 4) 4 (ndPcnt v - 1)
      if ndPcnt v = 1 ∧ ndWlk v ∧ ndState v = 0 then noteReady (physWrite s (pa + 56) 1 (bits v 448 8 + 1)) c succ else s
  | (s, .bad cause) => writeDropped s d c 0 cause succ (succ + 4)
  | (s, .wait) => s

/-- The addresses in a successor list. -/
def succList (s : State) (d : Fin 4) (c : Nat) (va : Nat) : Nat → State × List Nat
  | 0 => (s, [])
  | n + 1 =>
    match unitRead s d c (va % 2 ^ 64) 8 .read with
    | (s, .ok _ v) => let (s, l) := succList s d c (va + 8) n; (s, v :: l)
    | (s, _) => succList s d c (va + 8) n

/-- The pages that a completion touches are at hand, or the page it waits for. -/
def endReady (s : State) (d : Fin 4) (c q node v : Nat) : State × Option Nat :=
  match unitReady s d c .readWrite [node, entryVa s c q] with
  | (s, none) =>
    match unitReady s d c .read (pagesOf (ndSucc v) (8 * ndNsucc v)) with
    | (s, none) => let (s, l) := succList s d c (ndSucc v) (ndNsucc v); unitReady s d c .readWrite l
    | x => x
  | x => x

/-- Completion of a node whose pages are at hand: the status word, the successors, done, the host (R262). -/
def endWrite (s : State) (d : Fin 4) (l : Launch) : State :=
  let node := l.node.toNat
  let c := l.ctx
  let v := l.nodeV
  let s := unitPut s d c 0 node (node + 56) fun s pa =>
    physWrite s pa 8 (3 + l.ends + stWlk * b2n (bitAt (memRead s.mem pa 8) 11))
  let (s, ns) := succList s d c (ndSucc v) (ndNsucc v)
  let s := ns.foldl (fun s n => countDown s d c node n) s
  let e := entryVa s c l.queue
  let s := match unitRead s d c (e + 8) 8 .readWrite with
    | (s, .ok pa k) => hwFill s pa (k + 1)
    | (s, .bad cause) => writeDropped s d c 0 cause e (e + 8)
    | (s, .wait) => s
  if ndHn v then sendMsi s (qeVec (entryPeek s c l.queue)) none else s

/-- Tries to complete the node of a launch that is to end; its pages may have to be asked for first. -/
def tryEnd (s : State) (k : Nat) : State :=
  match s.launches.find? (·.key == k) with
  | some l =>
    if l.st != .ending then s
    else
      let s := actFor (.queue l.ctx l.queue) s
      let d := Fin.ofNat 4 l.die
      match endReady s d l.ctx l.queue l.node.toNat l.nodeV with
      | (s, some _) => s
      | (s, none) =>
        let s := unitSettled (endWrite s d l) d
        { dropNode s l.ctx l.node.toNat with launches := s.launches.filter (·.key != k) }
  | none => s

/-- Changes a launch. -/
def modLaunch (s : State) (k : Nat) (f : Launch → Launch) : State :=
  { s with launches := s.launches.map fun x => if x.key = k then f x else x }

/-- A node ends with the bits `ends` of its status word (R262). -/
def endLaunch (s : State) (k ends : Nat) : State :=
  tryEnd (modLaunch s k fun l => { l with st := .ending, ends := l.ends + ends }) k

/-- A node that no launch holds ends: it is refused at the walk, cancelled, or it is a marker (R260, R261). -/
def endNode (s : State) (d : Fin 4) (c q n v ends : Nat) : State :=
  let (s, k) := freshId s
  tryEnd { s with launches := s.launches ++
    [⟨k, d.val, c, q, w64 n, v, none, none, none, 0, .ending, 0, 0, false, false, ends⟩] } k

/-- The report of a refused node (R239, R368). -/
def refuseReport (s : State) (d : Fin 4) (c q n reason : Nat) : State := unitReport s d c 6 0 (w64 n) 0 reason q

/-! ## LAUNCH (R242) -/

/-- The swap of tail, the store into old.next, and the arm, as one action (R242, R259). -/
def linkNode (s : State) (d : Fin 4) (c epa n : Nat) : State :=
  let old := memRead s.mem (epa + 16) 8
  let s := physWrite s (epa + 16) 8 n
  let s := unitPut s d c 0 old (old + 8) fun s pa => physWrite s pa 8 n
  hwFill s epa n

/-- The LAUNCH of the executing hart at the home of the queue entry, as its packet arrives (R242, R298, R299). -/
def launchSent (s : State) (d : Fin 4) (c epa n : Nat) : State :=
  match travel s with
  | (s, .whole) => linkNode s d c epa n
  | (s, .bad) => poisonReport (taintLine (linkNode s d c epa n) epa) s.cur 2 (w64 n)
  | (s, .lost) => poisonReport s s.cur 2 (w64 n)

/-- The store into old.next comes after the hart's earlier accesses to it (R61). -/
def oldOrder (s : State) (c old : Nat) (k : State → Out) : Out :=
  match peekPa s c (old + 8) .write with
  | .ok pa => inOrder true (hereAcc none pa 8 (w64 (old + 8))) s k
  | _ => k s

/-- LAUNCH (R242). -/
def execLaunch (ea : EReg) (s : State) : Out :=
  inSet threadOnly s fun s => sources [eId ea] s fun s =>
    let a := re (me s) ea
    let c := hartCtx s s.cur
    blockRead true 64 .read a s fun _ v s =>
      if ndReserved v then trap 0x01 a s
      else if !(match alGet s.ctxs c with | some x => decide (ndQueue v < x.qcnt) | none => false) then trap 0x19 a s
      else gAccess 64 .readWrite (w64 (entryVa s c (ndQueue v))) s fun epa s =>
        inOrder true (hereAcc none epa 64 (w64 (entryVa s c (ndQueue v)))) s fun s => heldAcked s fun s =>
        let s := actFor (.hart s.cur) s
        let d := hartDie s.cur
        let old := memRead s.mem (epa + 16) 8
        match unitReady s d c .write [old + 8] with
        | (s, some vpn) => park (.page c vpn) s
        | (s, none) => oldOrder s c old fun s => done 4 (unitSettled (launchSent s d c epa a.toNat) d)

/-! ## The walk (R260) -/

/-- The arm word of a queue is *full*: its unit may consume it. -/
def qArmed (s : State) (c q : Nat) : Bool :=
  match alGet s.ctxs c with
  | some x => !x.destroyed && decide (q < x.qcnt) &&
      match leafPeek s c (entryVa s c q) with
      | some pa => isDevice pa && gFull s pa
      | none => false
  | none => false

/-- The arm words that are *full* now; one whose entry has become unreachable keeps its place (R370). -/
def armsSeen (s : State) : List ArmSeen :=
  s.ctxs.flatMap fun c => (List.range c.2.qcnt).flatMap fun q =>
    if c.2.destroyed then []
    else
      match leafPeek s c.1 (entryVa s c.1 q) with
      | some pa => if isDevice pa && gFull s pa then [⟨c.1, q, pa, qeDie (entryPeek s c.1 q)⟩] else []
      | none => (s.armSeen.filter fun a => a.ctx == c.1 && a.q == q && gFull s a.pa).take 1

/-- A queue whose arm word is *full*, and whose entry its unit cannot reach: the unit asks for the entry's page, or is to report it
(R370). -/
def lostArm (s : State) (c q : Nat) : Option ArmSeen :=
  s.armSeen.find? fun a => a.ctx == c && a.q == q && gFull s a.pa && (leafPeek s c (entryVa s c q)).isNone

/-- The unit consumes the arm word at `pa`: a fill that waits there is served next (R98, R260, R265). -/
def consumeArm (s : State) (pa : Nat) : State := serveSlicesAll (gDrain s pa)

/-- The pages of the nodes that a walk reaches are at hand: from node `n` on. -/
def walkReady (s : State) (d : Fin 4) (c : Nat) : Nat → Nat → State × Option Nat
  | 0, _ => (s, none)
  | f + 1, n =>
    if n = 0 ∨ n % 64 ≠ 0 then (s, none)
    else
      match unitReady s d c .readWrite [n] with
      | (s, none) =>
        let v := nodePeek s c n
        if ndWlk v then (s, none) else walkReady s d c f (ndNext v)
      | x => x

/-- Walks one node: WLK is set, and the node is refused, made *ready*, or left pending (R260). -/
def walkNode (s : State) (d : Fin 4) (c q n pa v : Nat) : State :=
  let ok := match alGet s.ctxs c with
    | some x => nodeOk x.supok q v
    | none => false
  let ready := ok && ndState v == 0 && ndPcnt v == 0
  let s := modRec s d c q fun r => { r with nodes := r.nodes ++ [n] }
  let s := physWrite s (pa + 56) 8 (ndStatus v + stWlk + b2n ready)
  if !ok then endNode (refuseReport s d c q n 8) d c q n v (stRef 8)
  else if ready || ndState v == 1 then noteReady s c n
  else s

/-- The walk from node `n` on; `last` is the last node walked (R260, R370). -/
def walkList (s : State) (d : Fin 4) (c q : Nat) : Nat → Nat → Nat → State × Nat
  | 0, _, last => (s, last)
  | f + 1, n, last =>
    if n = 0 then (s, last)
    else if n % 64 ≠ 0 then (unitReport s d c 7 0 (w64 n) 0 q 1, last)
    else
      match unitRead s d c n 64 .readWrite with
      | (s, .ok pa v) =>
        if ndWlk v then (unitReport s d c 7 0 (w64 n) 0 q 0, last)
        else walkList (walkNode s d c q n pa v) d c q f (ndNext v) n
      | (s, .bad _) => (unitReport s d c 7 0 (w64 n) 0 q 1, last)
      | (s, .wait) => (s, last)

/-- The walk after the consume of arm; a node named by cur that cannot be read stops it with a report of kind 7 (R260, R370). -/
def walkQueue (s : State) (d : Fin 4) (c q : Nat) : State :=
  let va := entryVa s c q
  match unitRead s d c va 64 .readWrite with
  | (s, .ok pa e) =>
    let cur := qeCur e
    match unitRead s d c cur 64 .read with
    | (s, .ok _ v) =>
      let (s, last) := walkList s d c q (s.mem.length + 2) (ndNext v) cur
      if last = cur then s else physWrite s (pa + 24) 8 last
    | (s, _) => unitReport s d c 7 0 (w64 cur) 0 q 1
  | (s, _) => unitReport s d c 7 0 (w64 va) 0 q 1

/-- The unit cannot reach the entry of a queue: it waits for the page, or reports the entry; the arm is consumed with the report (R370). -/
def lostEntry (s : State) (a : ArmSeen) : State :=
  match unitXlate (actFor (.queue a.ctx a.q) s) a.die a.ctx (entryVa s a.ctx a.q) .readWrite with
  | (s, .absent _) => s
  | (s, .ok _) => s
  | (s, _) => unitSettled (unitReport (consumeArm s a.pa) a.die a.ctx 7 0 (w64 (entryVa s a.ctx a.q)) 0 a.q 1) a.die

/-- QUEUE_WALK (R260): the unit of the queue's die consumes arm and walks; it waits for pages before it begins (log 22). -/
def execQueueWalk (s : State) : Out :=
  match s.ev with
  | .ctxQueue c q =>
    if !qArmed s c q then
      match lostArm s c q with
      | some a => .next (lostEntry s a)
      | none => .next s
    else
      let s := actFor (.queue c q) s
      let e := entryPeek s c q
      let d := qeDie e
      match unitReady s d c .readWrite [entryVa s c q] with
      | (s, some _) => .next s
      | (s, none) =>
        match unitReady s d c .read [qeCur e] with
        | (s, some _) => .next s
        | (s, none) =>
          match walkReady s d c (s.mem.length + 2) (ndNext (nodePeek s c (qeCur e))) with
          | (s, some _) => .next s
          | (s, none) =>
            let s := match leafPeek s c (entryVa s c q) with
              | some pa => consumeArm s pa
              | none => s
            .next (unitSettled (walkQueue (modRec s d c q fun r => r) d c q) d)
  | _ => .next s

/-! ## Mapping (R261, R263) -/

/-- The context is *resident* somewhere, and no gang switch has stopped it there: its queues may be mapped (R265, R268). -/
def ctxResident (s : State) (c : Nat) : Bool := vany s.parts fun p => p.resident == some c && !partStopped p

/-- The *ready* nodes of a queue, in list order. -/
def readyNodes (s : State) (r : QueueRec) : List Nat := r.nodes.filter fun n => ndState (nodePeek s r.ctx n) == 1

/-- A queue competes for a slot at a boundary. -/
def competes (s : State) (r : QueueRec) : Bool :=
  qeEn (entryPeek s r.ctx r.q) && ctxResident s r.ctx && !(readyNodes s r).isEmpty

/-- Queue `a` comes before queue `b` in the ranking (R263). -/
def outranks (s : State) (a b : QueueRec) : Bool :=
  let ra := qePri (entryPeek s a.ctx a.q) + a.p
  let rb := qePri (entryPeek s b.ctx b.q) + b.p
  let wa := a.waitSince.getD s.cycle
  let wb := b.waitSince.getD s.cycle
  decide (ra > rb) || (ra == rb && (decide (wa < wb) || (wa == wb && (decide (a.q < b.q) || (a.q == b.q && decide (a.ctx < b.ctx))))))

/-- The record of a queue after a boundary. A queue with *ready* nodes that may not compete (EN is clear, or its context is
not *resident*) is not ranked: it holds no slot and its p stays (log 22). -/
def rankRec (s : State) (l : List QueueRec) (r : QueueRec) : QueueRec :=
  if (readyNodes s r).isEmpty then { r with mapped := false, p := 0, waitSince := none }
  else if !competes s r then { r with mapped := false, waitSince := some (r.waitSince.getD s.cycle) }
  else if (l.filter fun o => competes s o && outranks s o r).length < 64 then { r with mapped := true, p := 0, waitSince := none }
  else { r with mapped := false, p := r.p + 1, waitSince := some (r.waitSince.getD s.cycle) }

/-- A period boundary has come (R263). -/
def boundaryDue (s : State) : Bool := decide (s.bounds ≤ timeNs s / 100000)

/-- PERIOD_BOUNDARY (R263): every queue unit reassigns its 64 slots, at each multiple of 100,000 ns. -/
def execPeriodBoundary (s : State) : Out :=
  if boundaryDue s then
    .next { s with bounds := s.bounds + 1,
                   dies := vmap s.dies fun d => { d with queues := d.queues.map (rankRec s d.queues) } }
  else .next s

/-! ## Dispatch (R261) -/

/-- The *running* nodes of a queue. -/
def runningNodes (s : State) (c q : Nat) : List Launch := s.launches.filter fun l => l.ctx == c && l.queue == q

/-- The first of the nodes with the highest pri. -/
def firstByPri (s : State) (c : Nat) (l : List Nat) : Option Nat :=
  l.foldl (fun o n => match o with
    | some m => if ndPri (nodePeek s c n) > ndPri (nodePeek s c m) then some n else some m
    | none => some n) none

/-- The number of groups of a node. -/
def groupCount (v : Nat) : Nat := ndGx v * ndGy v

/-- A dispatched kernel node of which a group has not been placed: one that was refused counts until it completes (R261). -/
def unplaced (s : State) (l : Launch) : Bool :=
  l.st == .checking || l.st == .placing ||
    (l.st == .ending && ndKind l.nodeV == 0 && decide (l.placed < groupCount l.nodeV) && ndState (nodePeek s l.ctx l.node.toNat) == 2)

/-- A dispatched kernel node that is still to be placed holds back the later nodes of its queue, in list order (R261). -/
def heldBack (s : State) (r : QueueRec) (n : Nat) : Bool :=
  (runningNodes s r.ctx r.q).any fun l => unplaced s l && (r.nodes.takeWhile (· != n)).contains l.node.toNat

/-- The node that a queue dispatches next: the queue is *mapped*, fewer than 16 of its nodes run, and no earlier kernel node
of it is still to be placed (R261). -/
def dispatchNext (s : State) (r : QueueRec) : Option Nat :=
  if r.mapped && decide ((runningNodes s r.ctx r.q).length < 16) then
    firstByPri s r.ctx ((readyNodes s r).filter fun n =>
      !heldBack s r n && !(runningNodes s r.ctx r.q).any fun l => l.node.toNat == n)
  else none

/-- The copy of a copy node: its block holds source, destination and shape (R184, R257). -/
def nodeCopy (n b : Nat) : Copy :=
  let sh := bits b 128 64
  { id := 0, hart := .tile 0 0, pc := w64 n, sup := false, dir := .gg, src := w64 (bits b 0 64), dst := w64 (bits b 64 64),
    len := bits sh 0 16, rows := bits sh 16 16, sst := sextNat 16 (bits sh 32 16) * 4, dstS := sextNat 16 (bits sh 48 16) * 4,
    tag := 0, st := .moving, done := 0, poison := false, cancel := false, fault := false, page := none, refused := none,
    pendAt := 0, orphan := false }

/-- A copy block that CPY.gg would trap on (R186). -/
def copyBlockBad (s : State) (c : Nat) (x : Copy) : Bool :=
  x.len == 0 || x.len % 4 != 0 || x.rows == 0 || x.src.toNat % 4 != 0 || x.dst.toNat % 4 != 0 ||
    match alGet s.ctxs c with
    | some y => !canonical y.tfd x.src.toNat || !canonical y.tfd x.dst.toNat
    | none => true

/-- The launch of a node that is dispatched. -/
def newLaunch (k : Nat) (d : Fin 4) (c q n v : Nat) (st : LaunchSt) : Launch :=
  ⟨k, d.val, c, q, w64 n, v, none, none, none, 0, st, 0, 0, false, false, 0⟩

/-- Reads `n` bytes in line chunks: the value, or none where a page or a line cannot be read. -/
def readRange (s : State) (d : Fin 4) (c va n : Nat) : State × Option Nat :=
  match unitChunks s d c .read (rowChunks va n) with
  | (s, .ok l) => let (s, v, bad) := readLines s l; (s, if bad then none else some v)
  | (s, _) => (s, none)

/-- A node is dispatched at its home; `v` is its value with state 1, and `start` writes the next state (R261). -/
def dispatchNode (s : State) (d : Fin 4) (c q n v : Nat) (start : State → State) : State :=
  if ndCan v then endNode s d c q n v stCan
  else
    let (s, k) := freshId (start s)
    match ndKind v with
    | 0 => { s with launches := s.launches ++ [newLaunch k d c q n v .checking] }
    | 1 =>
      match readRange s d c (ndObj v) 24 with
      | (s, some b) =>
        let x := nodeCopy n b
        if copyBlockBad s c x then endNode (refuseReport s d c q n 8) d c q n v (stRef 8)
        else { s with launches := s.launches ++ [newLaunch k d c q n v .copying], qcopies := alSet s.qcopies k x }
      | (s, none) => endNode (refuseReport s d c q n 1) d c q n v (stRef 1)
    | 2 => endNode s d c q n v 0
    | _ => endNode (sendMsi s (qeVec (entryPeek s c q)) (some (w64 (ndObj v)))) d c q n v 0

/-- A node whose successor list has been looked at is dispatched, or refused for that list (R261, R370). -/
def dispatchRead (s : State) (d : Fin 4) (c q n v : Nat) (start : State → State) : State :=
  let (s, list) := readRange s d c (ndSucc v) (8 * ndNsucc v)
  if list.isSome || ndCan v then dispatchNode s d c q n v start
  else endNode (refuseReport s d c q n 1) d c q n v (stRef 1)

/-- NODE_DISPATCH (R261): a *mapped* queue dispatches a node; or, for a launch that has ended and waited for a page, its
completion is written (R262). A node whose state cannot be written is reported, and dispatched (R281); one that cannot be read is
dropped. -/
def execNodeDispatch (s : State) : Out :=
  match s.ev with
  | .node c q n =>
    let s := actFor (.queue c q) s
    let d := qeDie (entryPeek s c q)
    let n := n.toNat
    match findRec s d c q with
    | some r =>
      if dispatchNext s r != some n then .next s
      else
        let v := nodePeek s c n
        match unitReady s d c .read (pagesOf (ndSucc v) (8 * ndNsucc v) ++ if ndKind v = 1 then pagesOf (ndObj v) 24 else []) with
        | (s, some _) => .next s
        | (s, none) =>
          match unitRead s d c n 64 .readWrite with
          | (s, .ok pa v) => .next (unitSettled (dispatchRead s d c q n v fun s => physWrite s (pa + 56) 8 (ndStatus v + 1)) d)
          | (s, .wait) => .next s
          | (s, .bad cause) =>
            let s := writeDropped s d c 0 cause n (n + 56)
            match unitRead s d c n 64 .read with
            | (s, .ok _ v) => .next (unitSettled (dispatchRead s d c q n v fun s => s) d)
            | (s, _) => .next (unitSettled (dropNode s c n) d)
    | none => .next s
  | .key k => .next (tryEnd s k)
  | _ => .next s

/-! ## Checking (R236, R239, R240, R49) -/

/-- Fields of a kernel header (R236). -/
def khMagic (h : Nat) : Nat := bits h 0 32
def khVer (h : Nat) : Nat := bits h 32 8
def khIsa (h : Nat) : Nat := bits h 40 8
def khSlots (h : Nat) : Nat := bits h 48 3
def khLvl (h : Nat) : Bool := bitAt h 51
def khWindow (h : Nat) : Nat := bits h 64 10
def khCsize (h : Nat) : Nat := bits h 96 32
def khDsize (h : Nat) : Nat := bits h 128 32
/-- The doublewords of the argument block that are loaded, at most the 32 that the area holds (log 41). -/
def khAsize (h : Nat) : Nat := Nat.min 32 (bits h 160 6)
def khEntry (h : Nat) : Nat := bits h 192 32
def khPtab (h : Nat) : Nat := bits h 224 32
def khPcnt (h : Nat) : Nat := bits h 256 32
def khWimg (h : Nat) : Nat := bits h 288 32
def khDimg (h : Nat) : Nat := bits h 320 32

/-- A reserved bit of a header is set. -/
def khReserved (h : Nat) : Bool := bits h 52 12 != 0 || bits h 74 22 != 0 || bits h 166 26 != 0 || bits h 384 128 != 0

/-- A part of `n` bytes at offset `o` lies outside the object; `code` is for the code image itself (R236). -/
def partOut (h o n : Nat) (code : Bool) : Bool := n != 0 && (decide (o + n > 2 ^ 32) || (!code && decide (o < 64 + khCsize h)))

/-- Reason 2 to 6 of R239 over the header, the first that applies. -/
def headerReason (h : Nat) : Option Nat :=
  if khMagic h ≠ 0x4B52_4E4C ∨ khReserved h then some 2
  else if khVer h > 1 then some 3
  else if khIsa h > 1 then some 4
  else if khSlots h = 0 ∨ khWindow h > 512 then some 5
  else if khCsize h % 2 = 1 ∨ khEntry h % 2 = 1 ∨ khDsize h > 0x1_FEF8 ∨ khEntry h ≥ khCsize h ∨ partOut h 64 (khCsize h) true ∨
      partOut h (khPtab h) (8 * khPcnt h) false ∨ partOut h (khWimg h) (4 * khWindow h) false ∨
      partOut h (khDimg h) (khDsize h) false then some 6
  else none

/-- The pool table: ranges (start, length) of the code image (R236). -/
def poolRanges (v : Nat) : Nat → List (Nat × Nat)
  | 0 => []
  | n + 1 => (v % 2 ^ 32, v / 2 ^ 32 % 2 ^ 32) :: poolRanges (v / 2 ^ 64) n

/-- The end of a skipped range that holds a byte of the halfword at `o`: the scan goes on at the first halfword at or after it (R49). -/
def skipTo (pools : List (Nat × Nat)) (o : Nat) : Option Nat :=
  (pools.find? fun p => decide (p.2 ≠ 0 ∧ p.1 < o + 2 ∧ o < p.1 + p.2)).map fun p => (p.1 + p.2 + 1) / 2 * 2

/-- A word is an unordered encoding (R49). -/
def unordered (w : Nat) : Bool :=
  let major := bits w 1 6
  let f := bits w 22 5
  (decide (0x24 ≤ major ∧ major ≤ 0x26) && f == 13) || (major == 0x33 && bits w 21 6 == 1) ||
    (major == 0x3C && (bits w 7 5 == 3 || bits w 7 5 == 5))

/-- The scan of the code image from offset `o` on finds an unordered encoding (R49). -/
def scanFrom (code csize : Nat) (pools : List (Nat × Nat)) : Nat → Nat → Bool
  | 0, _ => false
  | f + 1, o =>
    if o ≥ csize then false
    else
      match skipTo pools o with
      | some e => scanFrom code csize pools f (if e > o then e else o + 2)
      | none =>
        if code / 256 ^ o % 2 = 0 then scanFrom code csize pools f (o + 2)
        else if o + 4 > csize ∨ (skipTo pools (o + 2)).isSome then scanFrom code csize pools f (o + 4)
        else unordered (code / 256 ^ o % 2 ^ 32) || scanFrom code csize pools f (o + 4)

/-- The promise: DET, UNO, LVL (R240). -/
def promiseOf (h code : Nat) (pools : List (Nat × Nat)) : Nat :=
  let uno := scanFrom code (khCsize h) pools (khCsize h / 2 + 1) 0
  b2n (!uno && !khLvl h) + 2 * b2n uno + 4 * b2n (khLvl h)

/-- The pages that loading will read can be read: window image, data image, argument block, launch block (R369). -/
def loadPages (h v : Nat) : List Nat :=
  pagesOf (ndObj v + khWimg h) (4 * khWindow h) ++ pagesOf (ndObj v + khDimg h) (khDsize h) ++
    pagesOf (ndArgs v) (8 * khAsize h) ++ pagesOf (ndLblk v) 64

/-- Every page of the list is readable for the unit. -/
def allReadable (s : State) (d : Fin 4) (c : Nat) : List Nat → State × Bool
  | [] => (s, true)
  | va :: r =>
    match unitXlate s d c (va % 2 ^ 64) .read with
    | (s, .ok _) => allReadable s d c r
    | (s, _) => (s, false)

/-- The partitions of a context. -/
def ctxParts (s : State) (c : Nat) : List (Fin 32) :=
  match alGet s.ctxs c with
  | some x => (List.finRange 32).filter fun p => bitAt x.pmask p.val && (s.parts.get p).valid
  | none => []

/-- The rectangle lies wholly in the partition. -/
def rectIn (p : Part) (ox oy w h : Nat) : Bool :=
  decide (p.cx * 4 ≤ ox ∧ ox + w ≤ (p.cx + p.cw) * 4 ∧ p.cy * 4 ≤ oy ∧ oy + h ≤ (p.cy + p.ch) * 4)

/-- The origin of group `i` under hint 0 (R258). -/
def fixedOrigin (v i : Nat) : Nat × Nat := (ndOx v + i % ndGx v * ndW v, ndOy v + i / ndGx v * ndH v)

/-- A placement is impossible (R258). -/
def placeBad (s : State) (c v : Nat) : Bool :=
  let ps := (ctxParts s c).map fun p => s.parts.get p
  if ndHint v = 0 then
    !(List.range (groupCount v)).all fun i =>
      let o := fixedOrigin v i
      ps.any fun p => rectIn p o.1 o.2 (ndW v) (ndH v)
  else !ps.any fun p => decide (ndW v ≤ p.cw * 4 ∧ ndH v ≤ p.ch * 4)

/-- What checking a kernel comes to. -/
inductive Checked where
  | wait
  | refuse (reason : Nat)
  | ok
deriving DecidableEq, Repr

/-- The header, read once in *checking* (R239). -/
def takeHeader (s : State) (d : Fin 4) (l : Launch) : State × UnitGot :=
  match l.hdr with
  | some h => (s, .ok 0 h)
  | none =>
    match unitReady s d l.ctx .read [ndObj l.nodeV] with
    | (s, some _) => (s, .wait)
    | (s, none) =>
      match unitRead s d l.ctx (ndObj l.nodeV) 64 .read with
      | (s, .ok pa h) => (modLaunch s l.key fun x => { x with hdr := some h }, .ok pa h)
      | r => r

/-- The pool table, read once in *checking*, and with it the promise of the code image as it is then read (R239, R240, R243). -/
def takePool (s : State) (d : Fin 4) (l : Launch) (h : Nat) : State × UnitGot :=
  let code := ndObj l.nodeV + 64
  let tab := ndObj l.nodeV + khPtab h
  match l.pool with
  | some t => (s, .ok l.promise t)
  | none =>
    match unitReady s d l.ctx .read (pagesOf code (khCsize h) ++ pagesOf tab (8 * khPcnt h)) with
    | (s, some _) => (s, .wait)
    | (s, none) =>
      let (s, c) := readRange s d l.ctx code (khCsize h)
      let (s, t) := readRange s d l.ctx tab (8 * khPcnt h)
      match c, t with
      | some c, some t =>
        let p := promiseOf h c (poolRanges t (khPcnt h))
        (modLaunch s l.key fun x => { x with pool := some t, promise := p }, .ok p t)
      | _, _ => (s, .bad 0)

/-- The checks of R239 and R258 after those of reasons 1 to 6: the pages that loading reads, the promise, the placement. -/
def lastChecks (s : State) (d : Fin 4) (l : Launch) (h p : Nat) : State × Checked :=
  match unitReady s d l.ctx .read (loadPages h l.nodeV) with
  | (s, some _) => (s, .wait)
  | (s, none) =>
    match allReadable s d l.ctx (loadPages h l.nodeV) with
    | (s, false) => (s, .refuse 1)
    | (s, true) =>
      if ndReq l.nodeV && p % 2 == 0 then (s, .refuse 7)
      else if placeBad s l.ctx l.nodeV then (s, .refuse 9)
      else (s, .ok)

/-- The checks of R239 in order; while a page is awaited, what has been read stays read. -/
def checkKernel (s : State) (d : Fin 4) (l : Launch) : State × Checked :=
  match takeHeader s d l with
  | (s, .wait) => (s, .wait)
  | (s, .bad _) => (s, .refuse 1)
  | (s, .ok _ h) =>
    match takePool s d l h with
    | (s, .wait) => (s, .wait)
    | (s, .bad _) => (s, .refuse 1)
    | (s, .ok p tab) =>
      match headerReason h with
      | some r => (s, .refuse r)
      | none =>
        if (poolRanges tab (khPcnt h)).any fun x => decide (x.1 + x.2 > khCsize h) then (s, .refuse 6)
        else lastChecks s d l h p

/-- KERNEL_CHECKING (R239, R240). -/
def execKernelChecking (s : State) : Out :=
  match s.ev with
  | .key k =>
    match s.launches.find? (·.key == k) with
    | some l =>
      if l.st != .checking then .next s
      else
        let s := actFor (.queue l.ctx l.queue) s
        let d := Fin.ofNat 4 l.die
        match checkKernel s d l with
        | (s, .wait) => .next s
        | (s, .refuse r) =>
          .next (endLaunch (refuseReport (unitSettled s d) d l.ctx l.queue l.node.toNat r) k (stRef r))
        | (s, .ok) => .next (modLaunch (unitSettled s d) k fun x => { x with st := .placing })
    | none => .next s
  | _ => .next s

end Sys2Proof.Machine
end

