-- ==== Sys2Proof/Machine/Group.lean ====
section
/-! DEFINITION. Groups: placement, loading, release, retirement and the leveller (R143, R144, R237, R241, R244 to R254, R258,
R369, R371). -/

namespace Sys2Proof.Machine

/-- The tiles of a rectangle, row by row. -/
def rectTiles (ox oy w h : Nat) : List Nat :=
  (List.range h).flatMap fun j => (List.range w).map fun i => tileAt (ox + i) (oy + j)

/-- The tiles of a group. -/
def groupTiles (g : Group) : List Nat := rectTiles g.ox g.oy g.w g.h

/-- A group by its identity. -/
def findGroup (s : State) (id : Nat) : Option Group := s.groups.find? (·.id == id)

/-- Replaces a group. -/
def setGroup (s : State) (g : Group) : State := { s with groups := s.groups.map fun x => if x.id = g.id then g else x }

/-- Changes each tile of a list. -/
def modTiles (s : State) (f : Nat → Tile → Tile) (l : List Nat) : State := l.foldl (fun s t => modTile s t (f t)) s

/-! ## Placement (R258) -/

/-- Context `c` is *resident* in the partition and no switch has stopped it. -/
def partOpen (p : Part) (c : Nat) : Bool := p.resident == some c && !partStopped p

/-- The context of a group is *resident* where the group lies: while it is not, the group stands still (R268, R269). -/
def groupOpen (s : State) (g : Group) : Bool := partOpen (s.parts.get (Fin.ofNat 32 g.part)) g.ctx

/-- No group occupies a tile of the rectangle. -/
def rectFree (s : State) (ox oy w h : Nat) : Bool := (rectTiles ox oy w h).all fun t => (getTile s t).grp.isNone

/-- The partition of a context that holds a rectangle, if a group may be placed on it now. -/
def placePart (s : State) (c ox oy w h : Nat) : Option (Fin 32) :=
  (ctxParts s c).find? fun p => rectIn (s.parts.get p) ox oy w h && partOpen (s.parts.get p) c && rectFree s ox oy w h

/-- Where the next group of a launch goes: partition and origin (R258). -/
def placeAt (s : State) (l : Launch) : Option (Fin 32 × Nat × Nat) :=
  let v := l.nodeV
  if ndHint v = 0 then
    let o := fixedOrigin v l.placed
    (placePart s l.ctx o.1 o.2 (ndW v) (ndH v)).map fun p => (p, o.1, o.2)
  else
    (List.range 4608).findSome? fun t =>
      if tileX t % 2 = 0 ∧ tileY t % 2 = 0 then
        (placePart s l.ctx (tileX t) (tileY t) (ndW v) (ndH v)).map fun p => (p, tileX t, tileY t)
      else none

/-- GROUP_PLACEMENT (R244, R258). -/
def execGroupPlacement (s : State) : Out :=
  match s.ev with
  | .key k =>
    match s.launches.find? (·.key == k) with
    | some l =>
      if l.st != .placing then .next s
      else
        match placeAt s l with
        | none => .next s
        | some (p, ox, oy) =>
          let (s, id) := freshId s
          let v := l.nodeV
          let g : Group := ⟨id, k, l.ctx, p.val, l.placed, ox, oy, ndW v, ndH v, .placed, 0⟩
          let s := modTiles { s with groups := s.groups ++ [g] } (fun _ t => { t with grp := some id }) (groupTiles g)
          let l' := { l with placed := l.placed + 1, st := if l.placed + 1 = groupCount v then .running else .placing }
          .next (modLaunch s k fun _ => l')
    | none => .next s
  | _ => .next s

/-! ## The state of a tile between groups (R245, R371) -/

/-- A tile whose group has retired: the stores and what belongs to the tile or its context stay; the rest has its reset
state. -/
def idleTile (t : Tile) : Tile :=
  { Tile.reset with l := t.l, w := t.w, a := t.a, c := t.c, lEmpty := t.lEmpty, poison := t.poison, flaws := t.flaws, ctx := t.ctx,
                    repq := t.repq, sleepDepth := t.sleepDepth, escwait := t.escwait, asleep := t.asleep,
                    wakeAt := t.wakeAt, fe := t.fe, fallout := t.fallout }

/-! ## Loading (R143, R237, R241) -/

/-- The gid of a group (R246). -/
def gidOf (g : Group) : Word := w64 (g.ox + g.oy * 2 ^ 8 + g.w * 2 ^ 16 + g.h * 2 ^ 24 + g.index % 2 ^ 16 * 2 ^ 32)

/-- The seed of LFSR `n` of a tile (R159). -/
def lfsrSeed (seed t n : Nat) : W32 :=
  let h := seed ^^^ ((t * 16 + n) * 0x9E37_79B9_7F4A_7C15 % 2 ^ 64)
  let x := (h / 2 ^ 32) ^^^ (h % 2 ^ 32)
  if x = 0 then 1 else BitVec.ofNat 32 x

/-- A range (offset, length) of an image that is poisoned, and whether it was so at its home: not one that only arrived so. -/
structure BadPart where
  off : Nat
  len : Nat
  home : Bool
deriving DecidableEq, Repr

/-- An image as it is read: its bytes as one value, where poison is zeros, and the poisoned parts. -/
abbrev ImageRead := Nat × List BadPart

/-- Reads an image in physical chunks, each in a packet of its own, from offset `off` on (R94, R298, R299). -/
def readImage (s : State) (off : Nat) : List (Nat × Nat) → State × ImageRead
  | [] => (s, 0, [])
  | (pa, n) :: r =>
    let (s, v, bad) := lineRead s pa n
    let home := physPoison s pa n
    let (s, w, l) := readImage s (off + n) r
    (s, v + 256 ^ n * w, if bad then ⟨off, n, home⟩ :: l else l)

/-- Reads images one after another. -/
def readImages (s : State) : List (List (Nat × Nat)) → State × List ImageRead
  | [] => (s, [])
  | l :: r =>
    let (s, x) := readImage s 0 l
    let (s, xs) := readImages s r
    (s, x :: xs)

/-- Writes an image to the L-store at `off`, with its poison. -/
def loadL (t : Tile) (off n : Nat) (x : ImageRead) : Tile :=
  x.2.foldl (fun t b => storeTaint t .l (off + b.off) b.len) (if n = 0 then t else storeWrite t .l off n x.1)

/-- The words of a window image of `n` words and their poison. -/
def windowOf (n : Nat) (x : ImageRead) : WinVer :=
  ⟨(unpackBits 32 n x.1).map (BitVec.ofNat 32),
    (List.range n).filter fun i => x.2.any fun b => decide (b.off < 4 * i + 4 ∧ 4 * i < b.off + b.len), []⟩

/-- The header of a launch, as *checking* took it. -/
def lhdr (l : Launch) : Nat := l.hdr.getD 0

/-- The images that each tile is loaded with: data and window, as (address, length). -/
def loadRanges (l : Launch) : List (Nat × Nat) :=
  let v := l.nodeV
  let h := lhdr l
  [(ndObj v + khDimg h, khDsize h), (ndObj v + khWimg h, 4 * khWindow h)]

/-- The launch block and the argument block, of which the packet is made. -/
def packetRanges (l : Launch) : List (Nat × Nat) := [(ndLblk l.nodeV, 64), (ndArgs l.nodeV, 8 * khAsize (lhdr l))]

/-- A work packet as it is read: the launch block, the argument block, and the poisoned ranges of the latter (R241). -/
abbrev Packet := Nat × Nat × List (Nat × Nat)

/-- Translates the images for the queue unit. -/
def loadChunks (s : State) (d : Fin 4) (c : Nat) : List (Nat × Nat) → State × Option (Option (List (List (Nat × Nat))))
  | [] => (s, some (some []))
  | (va, n) :: r =>
    match unitChunks s d c .read (rowChunks va n) with
    | (s, .ok l) =>
      match loadChunks s d c r with
      | (s, some (some ls)) => (s, some (some (l :: ls)))
      | x => x
    | (s, .absent _) => (s, none)
    | (s, .bad _ _) => (s, some none)

/-- A report queue address as the CSR repq holds it (R272). -/
def repqOf (w : Word) : Word := w64 (w.toNat / 64 * 64)

/-- A tile as it is loaded (R143, R237, R241, R371): every slot is *free* until the release. -/
def loadTile (s : State) (l : Launch) (g : Group) (t : Nat) (x : Tile) (p : Packet) (im : List ImageRead) : Tile :=
  let blk := p.1
  let h := lhdr l
  let seed := bits blk 128 64
  let ver := windowOf (khWindow h) (im.getD 1 (0, []))
  let x := { idleTile x with l := [], lEmpty := [], poison := x.poison.filter (·.1 != 0),
                             flaws := x.flaws.filter (·.1 != 0), grp := some g.id }
  let x := loadL x 0 (khDsize h) (im.getD 0 (0, []))
  let x := storeWrite x .l 0x1_FEF8 8 (ndArgs l.nodeV)
  let x := loadL x 0x1_FF00 (8 * khAsize h) (p.2.1, p.2.2.map fun b => ⟨b.1, b.2, true⟩)
  { x with
    winN := khWindow h
    winImg := ver
    hist := List.replicate 32 ver
    pub := ver
    stepmask := BitVec.ofNat 7 (2 ^ khSlots h - 1)
    fmt := Vector.ofFn fun i => BitVec.ofNat 32 (bits blk (32 * i.val) 32)
    scp := Vector.ofFn fun i => w64 (bits blk (192 + 64 * i.val) 64)
    seed := w64 seed
    lfsr := Vector.ofFn fun i => lfsrSeed seed t i.val
    gid := gidOf g
    promise := BitVec.ofNat 3 l.promise
    slots := khSlots h
    lvl := khLvl h
    ctx := l.ctx
    repq := repqOf (ctxRepq s l.ctx) }

/-- Pending PUTRs and held posts of a tile go on as if they had been taken (R84, R179, R245). -/
def releaseSenders (s : State) (t : Nat) : State :=
  let x := getTile s t
  let s := x.mheld.foldl posterGoesOn s
  x.fills.foldl (fun s f => match f.sender with
    | some h => awaitDone s h (.fill f.id)
    | none => s) s

/-- The tiles that a group occupies: none while its context is switched out. -/
def ownTiles (s : State) (g : Group) : List Nat := (groupTiles g).filter fun t => (getTile s t).grp == some g.id

/-- The tiles of a group return to the partition (R245); the saved tiles of a group whose context is switched out are dropped with it
(R369). -/
def dropGroup (s : State) (g : Group) : State :=
  let ts := ownTiles s g
  let s := ts.foldl releaseSenders s
  modTiles { s with groups := s.groups.filter (·.id != g.id),
                    ctxs := s.ctxs.map fun c => (c.1, { c.2 with saved := c.2.saved.filter fun x => x.state.grp != some g.id }) }
    (fun _ t => idleTile t) ts

/-- A slot of the tile, 0 to 6, is *trapped*. -/
def tileTrapped (t : Tile) : Bool := (List.finRange 7).any fun i => (t.harts.get (Fin.castLE (by omega) i)).status == .trapped

/-- A slot of the group is *trapped*, on its tiles or in what the press has saved of them. -/
def groupTrapped (s : State) (g : Group) : Bool :=
  (ownTiles s g).any (fun t => tileTrapped (getTile s t)) ||
    (alGet s.ctxs g.ctx).any fun c => c.saved.any fun x => x.state.grp == some g.id && tileTrapped x.state

/-- The hart that an agent is. -/
def hartOf? (x : Agent) : Option HartId :=
  match x with
  | .hart h => some h
  | .queue _ _ | .table _ | .episode _ _ | .coll _ | .arm _ _ | .report _ | .press => none

/-- What the threads of a group have sent, and what waits for them elsewhere, is dropped with them: messages, requests at homes, posts,
fills, rewards, collectives (R369). -/
def forgetGroup (s : State) (g : Group) : State :=
  let ts := ownTiles s g
  let gone (h : HartId) : Bool := (tileOf? h).any ts.contains
  let sent (o : Option HartId) : Option HartId := o.filter fun h => !gone h
  { s with
    msgs := s.msgs.filter fun m => !(m.ctx == g.ctx && (tileOf? m.hart).any (groupTiles g).contains)
    gfe := s.gfe.filter fun r => !gone r.hart
    gqWait := s.gqWait.filter fun w => !(hartOf? w.2).any gone
    rewards := s.rewards.filter fun r => !gone r.hart
    reports := s.reports.map fun r => { r with waiter := r.waiter.filter fun w => !gone w.1 }
    colls := s.colls.filter fun x => !gone x.hart
    dies := vmap s.dies fun d => { d with arrivals :=
      (d.arrivals.filter fun x => !(x.close.isSome && x.sender.any fun w => gone w.1)).map fun x =>
        { x with sender := x.sender.filter fun w => !gone w.1 } }
    tiles := s.tiles.map fun x => (x.1, { x.2 with
      fe := x.2.fe.filter fun r => !gone r.hart
      ringReq := x.2.ringReq.filter fun r => !ts.contains r.2.1
      mheld := x.2.mheld.map fun p => { p with sender := sent p.sender }
      fills := x.2.fills.map fun f => { f with sender := sent f.sender } }) }

/-- Loading has failed: every group of the node retires, and the node ends with REF and reason 1, and with what its groups have
recorded (R245, R262, R369). -/
def loadFailed (s : State) (l : Launch) : State :=
  let d := Fin.ofNat 4 l.die
  let gs := s.groups.filter (·.launch == l.key)
  let trap := l.trap || gs.any (groupTrapped s)
  let s := gs.foldl (fun s g => dropGroup (forgetGroup s g) g) s
  endLaunch (unitSettled (refuseReport s d l.ctx l.queue l.node.toNat 1) d) l.key
    (stRef 1 + stTrap * b2n trap + stPoison * b2n l.poison)

/-- Poison that loading met, at these addresses, is reported and noted for the node (R244, R297). -/
def notePoison (s : State) (l : Launch) (bad : List Nat) : State :=
  if bad = [] then s
  else
    modLaunch (bad.foldl (fun s va => unitPoison s (Fin.ofNat 4 l.die) l.ctx va) s) l.key fun x => { x with poison := true }

/-- The poison of the images: what is poisoned at its home once for a group, at its first tile. -/
def loadPoison (s : State) (l : Launch) (first : Bool) (im : List ImageRead) : State :=
  notePoison s l (((loadRanges l).zip im).flatMap fun r => (r.2.2.filter fun b => first || !b.home).map fun b => r.1.1 + b.off)

/-- The work packet of a launch, read once: at the load of its first tile (R241). -/
def takePacket (s : State) (l : Launch) : State × Option (Option Packet) :=
  match l.packet with
  | some p => (s, some (some p))
  | none =>
    match loadChunks s (Fin.ofNat 4 l.die) l.ctx (packetRanges l) with
    | (s, none) => (s, none)
    | (s, some none) => (s, some none)
    | (s, some (some im)) =>
      let (s, blk) := readImage s 0 (im.getD 0 [])
      let (s, arg) := readImage s 0 (im.getD 1 [])
      let bad := blk.2.map (fun b => ndLblk l.nodeV + b.off) ++ arg.2.map fun b => ndArgs l.nodeV + b.off
      let p : Packet := (blk.1, arg.1, arg.2.map fun b => (b.off, b.len))
      (notePoison (modLaunch s l.key fun x => { x with packet := some p }) l bad, some (some p))

/-- The next tile of a group is loaded. -/
def loadNext (s : State) (l : Launch) (g : Group) (p : Packet) (im : List (List (Nat × Nat))) : State :=
  let t := (groupTiles g).getD g.loaded 0
  let (s, im) := readImages s im
  let s := unitSettled (loadPoison s l (g.loaded == 0) im) (Fin.ofNat 4 l.die)
  let x := getTile s t
  let s := releaseSenders s t
  setGroup (setTile s t (loadTile s l g t x p im)) { g with st := .loading, loaded := g.loaded + 1 }

/-- GROUP_LOAD (R143, R244): the next tile of a group is loaded. -/
def execGroupLoad (s : State) : Out :=
  match s.ev with
  | .key id =>
    match findGroup s id with
    | some g =>
      match s.launches.find? (·.key == g.launch) with
      | some l =>
        if g.st == .running || !groupOpen s g || decide (g.loaded ≥ g.w * g.h) then .next s
        else
          match takePacket (actFor (.queue l.ctx l.queue) s) l with
          | (s, none) => .next s
          | (s, some none) => .next (loadFailed s l)
          | (s, some (some p)) =>
            match loadChunks s (Fin.ofNat 4 l.die) l.ctx (loadRanges l) with
            | (s, none) => .next s
            | (s, some none) => .next (loadFailed s l)
            | (s, some (some im)) => .next (loadNext s l g p im)
      | none => .next s
    | none => .next s
  | _ => .next s

/-! ## Release (R144, R241, R244) -/

/-- Every tile of a group is loaded. -/
def groupLoaded (g : Group) : Bool := g.st == .loading && decide (g.loaded = g.w * g.h)

/-- A tile at release: slot 0 starts (R55, R241, R247). -/
def startSlot0 (l : Launch) (g : Group) (sup : Bool) (t : Tile) : Tile :=
  let pc := w64 (ndObj l.nodeV + 64 + khEntry (lhdr l))
  let h := { Hart.reset with status := .ready, pc := pc, path := w64 (g.index % 2 ^ 16), sup := sup }
  { t with harts := t.harts.set 0 h, seam := Vector.replicate 2 (0, true) }

/-- GROUP_RELEASE (R144, R244): every tile of a group is released in one step; requests that wait at the homes are served. -/
def execGroupRelease (s : State) : Out :=
  match s.ev with
  | .key id =>
    match findGroup s id with
    | some g =>
      match s.launches.find? (·.key == g.launch) with
      | some l =>
        if !groupLoaded g || !groupOpen s g then .next s
        else
          let sup := ndSup l.nodeV && match alGet s.ctxs g.ctx with
            | some x => x.supok
            | none => false
          let s := modTiles (setGroup s { g with st := .running }) (fun _ t => startSlot0 l g sup t) (groupTiles g)
          .next ((groupTiles g).foldl serveTileAll s)
      | none => .next s
    | none => .next s
  | _ => .next s

/-! ## Retirement (R245) -/

/-- A tile lets its group retire: slots 0 to 6 *free* or *trapped*, the sequencers *idle*, no accepted copy (R245). -/
def tileQuiet (t : Tile) : Bool :=
  ((List.finRange 7).all fun i =>
    let st := (t.harts.get (Fin.castLE (by omega) i)).status
    st == .free || st == .trapped) &&
    (t.harts.get 8).status == .free && (t.harts.get 9).status == .free && t.copies.all (·.st == .requested)

/-- A group retires. -/
def retirable (s : State) (g : Group) : Bool :=
  g.st == .running && (groupTiles g).all fun t => (getTile s t).grp == some g.id && tileQuiet (getTile s t) && !stopped s t

/-- A launch after one of its groups has retired. -/
def launchRetired (s : State) (k : Nat) (trap : Bool) : State :=
  match s.launches.find? (·.key == k) with
  | some l =>
    let l' := { l with retired := l.retired + 1, trap := l.trap || trap }
    let s := modLaunch s k fun _ => l'
    if l'.st == .running && l'.retired == groupCount l'.nodeV then
      endLaunch s k (stTrap * b2n l'.trap + stPoison * b2n l'.poison)
    else s
  | none => s

/-- GROUP_RETIRE (R245). -/
def execGroupRetire (s : State) : Out :=
  match s.ev with
  | .key id =>
    match findGroup s id with
    | some g => if retirable s g then .next (launchRetired (dropGroup s g) g.launch (groupTrapped s g)) else .next s
    | none => .next s
  | _ => .next s

/-! ## The leveller (R253) -/

/-- The neighbour with the least work, ties in the order N, E, S, W (R253). -/
def leastNeighbour (s : State) (t : Nat) : Option Nat :=
  ((neighbours t).filter fun n => (getTile s n.1).grp == (getTile s t).grp).foldl (fun o n => match o with
    | some m => if (getTile s n.1).work.length < (getTile s m).work.length then some n.1 else some m
    | none => some n.1) none

/-- The leveller's move: the oldest entries go on top of the neighbour's list, one after another (R253). -/
def levelMove (s : State) (t : Nat) : State :=
  match leastNeighbour s t with
  | some u =>
    let c := (getTile s t).work.length
    let m := (getTile s u).work.length
    if c < m + 2 then s
    else
      let n := (c - m) / 2
      let w := (getTile s t).work
      let moved := w.drop (c - n)
      modTile (modTile s t fun x => { x with work := w.take (c - n) }) u fun x => { x with work := moved ++ x.work }
  | none => s

/-- The leveller's interval of a tile is over: 4,096 cycles in which it ran (R253). -/
def levelDue (s : State) (t : Nat) : Bool := (getTile s t).lvl && tileRuns s t && decide ((getTile s t).level ≥ 4096)

/-- LEVELLER_TICK (R253). -/
def execLevellerTick (s : State) : Out :=
  match s.ev with
  | .tile t => if levelDue s t then .next (levelMove (modTile s t fun x => { x with level := x.level - 4096 }) t) else .next s
  | _ => .next s

end Sys2Proof.Machine
end

