-- ==== Sys2Proof/Machine/Mailbox.lean ====
section
/-! DEFINITION. The mailbox instructions and the arrival of posts (R179 to R182). -/

namespace Sys2Proof.Machine

/-- The waiter that the mailbox would serve now: the first slot in order of arrival whose request can be served (R181). -/
def mailServes (t : Tile) (i : Fin 10) : Bool :=
  match waitOf (t.harts.get i) with
  | some .mail => !t.mbox.isEmpty
  | some .mailTag => t.mbox.any (·.tag == t.mnext)
  | _ => false

/-- A slot may pop: no earlier waiter could be served before it (R181). -/
def mailTurn (t : Tile) (i : Fin 10) : Bool := !(t.mwait.takeWhile (· != i)).any (mailServes t)

/-- The slot of the executing hart. -/
def mySlot (s : State) : Fin 10 :=
  match s.cur with
  | .tile _ i => i
  | .mender _ _ => 0

/-- The executing slot waits at the mailbox, behind the earlier waiters (R181). -/
def mailPark (r : Reason) (s : State) : Out :=
  park r (modTile s (myTile s) fun t => if t.mwait.contains (mySlot s) then t else { t with mwait := t.mwait ++ [mySlot s] })

/-- The first entry with a tag, and the entries without it. -/
def takeTag (l : List Post) (tag : Word) : Option (Post × List Post) :=
  match l with
  | [] => none
  | p :: r =>
    if p.tag = tag then some (p, r)
    else
      match takeTag r tag with
      | some (q, r') => some (q, p :: r')
      | none => none

/-- A pop: payload, tag and mtag are written, an acquire is made, a held post is accepted (R179, R181). A poisoned entry delivers
zeros (R296). -/
def popPost (p : Post) (rest : List Post) (d a : GReg) (s : State) : State :=
  let s := modTile s (myTile s) fun t => { t with mbox := rest, mwait := t.mwait.filter (· != mySlot s) }
  let (s, bad) := readEntry s s.cur p.flaw
  let tag := if bad then 0 else p.tag
  let s := modMe s fun h =>
    let h := { wg h d (if bad then 0 else p.payload) with mtag := tag }
    if a = 0 then h else wg h a tag
  mailRefill (acquire s s.cur) (myTile s)

/-- RECVM (R181). -/
def execRecvm (d a : GReg) (s : State) : Out :=
  inSet threadOnly s fun s => dests [gId d, gId a] s fun s =>
    match (getTile s (myTile s)).mbox with
    | p :: r => if mailTurn (getTile s (myTile s)) (mySlot s) then done 4 (popPost p r d a s) else mailPark .mail s
    | [] => mailPark .mail s

/-- RECVM.o (R181). -/
def execRecvmO (d a : GReg) (s : State) : Out :=
  inSet threadOnly s fun s => dests [gId d, gId a] s fun s =>
    let t := getTile s (myTile s)
    match takeTag t.mbox t.mnext with
    | some (p, r) =>
      if mailTurn t (mySlot s) then
        done 4 (popPost p r d a (modTile s (myTile s) fun t => { t with mnext := t.mnext + 1 }))
      else mailPark .mailTag s
    | none =>
      if t.mbox.length ≥ 32 then
        trap 0x39 t.mnext (modTile s (myTile s) fun t => { t with mwait := t.mwait.filter (· != mySlot s) })
      else mailPark .mailTag s

/-- WAITM (R181), of `len` bytes: pops nothing. -/
def waitMail (len : Nat) (s : State) : Out :=
  inSet threadOnly s fun s => if (getTile s (myTile s)).mbox.isEmpty then park .mail s else done len s

/-- WAITM (R181). -/
def execWaitm (s : State) : Out := waitMail 4 s
/-- C.SYS WAITM (R45). -/
def execCWaitm (s : State) : Out := waitMail 2 s

/-- PEEKM (R181); it reads the head's tag where a names a register (R296). -/
def execPeekm (d a : GReg) (s : State) : Out :=
  inSet threadOnly s fun s => dests [gId d, gId a] s fun s =>
    let m := (getTile s (myTile s)).mbox
    match m with
    | [] => done 4 (modMe s fun h => wg (wg h d 0) a 0)
    | p :: r =>
      if a = 0 then done 4 (modMe s fun h => wg h d (w64 m.length))
      else
        let (s, bad) := readEntry s s.cur p.flaw
        let s := if p.flaw == none then s else modTile s (myTile s) fun t => { t with mbox := { p with flaw := entryFlaw p.flaw } :: r }
        done 4 (modMe s fun h => wg (wg h d (w64 m.length)) a (if bad then 0 else p.tag))

/-- The tag lies in the range of fault entries (R179, R181). -/
def faultTag (t : Word) : Bool := t.toNat / 256 == 2 ^ 56 - 1

/-- A sequencer's SENDM ends its program (R173, R178, R181): the post goes to its tile's mailbox, or to the fork set of the
thread that forked it, where it is discarded. -/
def endPost (tag payload : Word) (s : State) : Out :=
  match s.cur with
  | .tile t _ =>
    if (me s).forkedBy.isSome then .next (endSequencer s s.cur)
    else
      let (s, id) := freshId s
      let s := modMe s fun x => { x with status := .posting tag payload false }
      .next (mailPost s t ⟨⟨tag, payload, false, none⟩, id, some s.cur⟩)
  | .mender _ _ => .next s

/-- SENDM (R181). A thread's post travels to its target (MAILBOX_POST_ARRIVAL), and the thread waits for its acceptance. One that is
lost on the way completes, with a report (R299; log 44). -/
def execSendm (d a b : GReg) (s : State) : Out :=
  inSet tileHarts s fun s =>
    if kindOf s.cur != .thread then
      if a ≠ 0 then illegal s
      else sources [gId d, gId b] s fun s =>
        if faultTag (rg (me s) d) then trap 0x39 (rg (me s) d) s
        else drained s fun s => endPost (rg (me s) d) (rg (me s) b) s
    else sources [gId d, gId a, gId b] s fun s =>
      let h := me s
      let w := (rg h a).toNat
      if w / 2 ^ 16 ≠ 0 ∨ bits w 0 8 > 71 ∨ bits w 8 8 > 63 ∨
          !inCtxParts s (hartCtx s s.cur) (tileAt (bits w 0 8) (bits w 8 8)) then trap 0x15 (rg h a) s
      else if faultTag (rg h d) then trap 0x39 (rg h d) s
      else acked s fun s =>
        match onLoom s s.cur (some (tileAt (bits w 0 8) (bits w 8 8))) with
        | (s, .lost) => done 4 (poisonReport s s.cur 1 (rg h a))
        | (s, v) =>
          let (s, id) := freshId s
          let m : Msg :=
            { id := id, hart := s.cur, ctx := hartCtx s s.cur, target := tileAt (bits w 0 8) (bits w 8 8),
              body := .post ⟨rg h d, rg h b, true, if v == .bad then some .found else none⟩ (rg h a) (h.pc + 4),
              since := s.cycle, escape := false, bad := v == .bad, notes := s.reads }
          park (.mesh id) { s with msgs := s.msgs ++ [m] }

/-- The sender of post `id` is there and waits for it: one whose context is switched out waits for its restore (R269). -/
def posterWaits (s : State) (m : Msg) : Bool := (getHart s m.hart).status == .parked (.mesh m.id)

/-- MAILBOX_POST_ARRIVAL (R181): a post reaches its target tile. A tile that runs no group of the context refuses it, and
the SENDM traps; a switched-out or loading tile holds it back (R88, R101). -/
def execMailboxPostArrival (s : State) : Out :=
  match s.ev with
  | .msg id =>
    match s.msgs.find? (·.id == id) with
    | some m =>
      match m.body with
      | .post p sel next =>
        if !posterWaits s m then .next s
        else match tileTarget s m.ctx m.target 0 with
        | .held _ | .loading _ => .next s
        | .bad => .next (trapOn { s with msgs := s.msgs.filter (·.id != id) } m.hart 0x15 sel)
        | .ok t _ =>
          let s := parkHart (commitNotes { s with msgs := s.msgs.filter (·.id != id) } m.notes) m.hart (.post id next)
          let s := if m.bad then poisonReport s m.hart 1 sel else s
          .next (mailPost s t ⟨p, id, some m.hart⟩)
      | .spawn _ _ _ _ _ _ _ => .next s
    | none => .next s
  | _ => .next s

end Sys2Proof.Machine
end

