-- ==== Sys2Proof/Machine/Switch.lean ====
section
/-! DEFINITION. Contexts and partitions: descriptors, SWREQ, time slices and the stop of a gang switch (R266 to R276, R278;
log 13). -/

namespace Sys2Proof.Machine

/-! ## Descriptors (R266, R278) -/

/-- The table format of a descriptor's 64 bytes; none if it is malformed (R278). -/
def tfdOf (v : Nat) : Option Tfd :=
  let t : Tfd :=
    { levels := bits v 0 3, vpos := bits v 8 6, rpos := bits v 16 6, wpos := bits v 24 6, xpos := bits v 32 6,
      upos := bits v 40 6, apos := bits v 48 6, dpos := bits v 56 6, lpos := bits v 64 6, lmode := bits v 70 2,
      ppos := bits v 72 6, pwid := bits v 80 6, canon := bits v 88 2, ureq := bitAt v 90 }
  let gaps := [3, 4, 5, 6, 7, 14, 15, 22, 23, 30, 31, 38, 39, 46, 47, 54, 55, 62, 63, 78, 79, 86, 87]
  if gaps.any (bitAt v) || bits v 91 421 != 0 || decide (t.levels < 4 ∨ 6 < t.levels) || decide (t.lmode > 1) ||
      decide (t.pwid < 20 ∨ 52 < t.pwid ∨ 64 < t.ppos + t.pwid) || decide (t.canon > 1) then none
  else some t

/-- A context descriptor is malformed (R266). -/
def descBad (v : Nat) : Bool :=
  bits v 206 50 != 0 || bits v 435 77 != 0 || bits v 0 12 != 0 || bits v 64 6 != 0 || bits v 128 6 != 0 ||
    decide (bits v 192 13 > 4096) || bits v 320 12 != 0 || bits v 384 16 == 0

/-- A context as its descriptor gives it, at virtual address `w` of context `c`. -/
def ctxOf (w : Word) (c v : Nat) (t : Tfd) : Ctx :=
  { desc := w, byCtx := c, root := bits v 0 64, tfd := t, qbase := w64 (bits v 128 64), qcnt := bits v 192 13,
    supok := bitAt v 205, repq := w64 (bits v 256 64), save := w64 (bits v 320 64), pmask := bits v 400 32,
    destroyed := false, res := [], saved := [], ns := 0, switches := 0 }

/-- What reading a descriptor came to. -/
inductive DescGot where
  | ok (cid : Nat) (x : Ctx)
  | bad
  | wait (vpn : Nat)
deriving DecidableEq, Repr

/-- Reads a context descriptor and its table format descriptor, in the address space of the executing hart (R266, R278). -/
def readDesc (s : State) (w : Word) : State × DescGot :=
  if w.toNat % 64 ≠ 0 then (s, .bad)
  else
    match xlateHart s s.cur w.toNat .read with
    | (s, .absent vpn) => (s, .wait vpn)
    | (s, .ok pa) =>
      let (s, v, bad) := lineRead s pa 64
      if bad ∨ descBad v then (s, .bad)
      else
        match xlateHart s s.cur (bits v 64 64) .read with
        | (s, .absent vpn) => (s, .wait vpn)
        | (s, .ok ta) =>
          let (s, f, _) := lineRead s ta 64
          match tfdOf f with
          | some t => (s, .ok (bits v 384 16) (ctxOf w (hartCtx s s.cur) v t))
          | none => (s, .bad)
        | (s, _) => (s, .bad)
    | (s, _) => (s, .bad)

/-- Reads several descriptors: none where one is malformed. -/
def readDescs (s : State) : List Word → State × Option Nat × Option (List (Nat × Ctx))
  | [] => (s, none, some [])
  | w :: r =>
    match readDesc s w with
    | (s, .wait vpn) => (s, some vpn, none)
    | (s, .bad) => (s, none, none)
    | (s, .ok c x) =>
      match readDescs s r with
      | (s, none, some l) => (s, none, some ((c, x) :: l))
      | y => y

/-- The switch unit takes a context as its descriptor now stands, and keeps what it knows of its residency. -/
def takeCtx (s : State) (c : Nat) (x : Ctx) : State :=
  let y := match alGet s.ctxs c with
    | some o => { x with destroyed := o.destroyed, res := o.res, saved := o.saved, ns := o.ns, switches := o.switches }
    | none => x
  { s with ctxs := alSet s.ctxs c y }

/-- The number of a residency in the descriptor's state field (R266). -/
def resCode (r : Residency) : Nat :=
  match r with
  | .fresh => 0
  | .entering => 1
  | .resident => 2
  | .leaving => 3
  | .saved => 4
  | .destroyed => 5

/-- The switch unit writes the state field of a descriptor, with the permissions of the thread that named it; where it may not, the
write is dropped (R266, R281; log 36). -/
def descState (s : State) (x : Ctx) (r : Residency) : State :=
  match peekPa s x.byCtx (x.desc.toNat + 54) .write with
  | .ok pa => physWrite s pa 1 (putBits (memRead s.mem pa 1) 0 3 (resCode r))
  | _ => s

/-- The residency of context `c` in partition `p` changes, and the descriptor's state field shows it (R266, R267); *destroyed* is final
(R268). -/
def setRes (s : State) (c : Nat) (p : Fin 32) (r : Residency) : State :=
  match alGet s.ctxs c with
  | some x => if x.destroyed then s else descState { s with ctxs := alSet s.ctxs c { x with res := alSet x.res p.val r } } x r
  | none => s

/-- The residency of a context in a partition. -/
def resOf (s : State) (c : Nat) (p : Fin 32) : Residency :=
  match alGet s.ctxs c with
  | some x => (alGet x.res p.val).getD .fresh
  | none => .fresh

/-! ## SWREQ (R274, R275) -/

/-- Fields of a request block (R274). -/
def srOp (b : Nat) : Nat := bits b 0 4
def srPart (b : Nat) : Fin 32 := Fin.ofNat 32 (bits b 8 5)
def srCtx (b : Nat) : Word := w64 (bits b 64 64)
def srT (b : Nat) : Nat := bits b 128 64
def srCx (b : Nat) : Nat := bits b 192 8
def srCy (b : Nat) : Nat := bits b 200 8
def srCw (b : Nat) : Nat := bits b 208 8
def srCh (b : Nat) : Nat := bits b 216 8
def srSlice (b : Nat) : Nat := bits b 224 32
def srRun (b : Nat) : List Word := ((List.range 4).map fun i => w64 (bits b (256 + 64 * i) 64)).takeWhile (· != 0)

/-- A reserved bit of a request block is set. -/
def srReserved (b : Nat) : Bool := bits b 4 4 != 0 || bits b 13 51 != 0

/-- The descriptors that a request names. -/
def srNamed (b : Nat) : List Word :=
  match srOp b with
  | 0 => if srCtx b = 0 then [] else [srCtx b]
  | 2 => srRun b
  | 3 => [srCtx b]
  | _ => []

/-- The context that the ctx field of a SWITCH or a DESTROY names is destroyed, resident elsewhere, not allowed the partition, or, for
DESTROY, in use (R275, status 3). -/
def srRefused (s : State) (b : Nat) (c : Nat) (x : Ctx) : Bool :=
  let known := (alGet s.ctxs c).map (fun o => (o.destroyed, o.res)) |>.getD (false, [])
  srOp b != 2 && (known.1 || !bitAt x.pmask (srPart b).val ||
    (known.2.any fun r => r.1 != (srPart b).val && r.2 == .resident) ||
    (srOp b == 3 && known.2.any fun r => r.2 == .entering || r.2 == .resident || r.2 == .leaving))

/-- Two rectangles of clusters meet. -/
def rectsMeet (a b : Part) : Bool :=
  decide (a.cx < b.cx + b.cw ∧ b.cx < a.cx + a.cw ∧ a.cy < b.cy + b.ch ∧ b.cy < a.cy + a.ch)

/-- The rectangle of a DEFPART. -/
def srRect (b : Nat) : Part := { Part.reset with valid := true, cx := srCx b, cy := srCy b, cw := srCw b, ch := srCh b }

/-- DEFPART leaves the mesh, overlaps another partition, or redefines one that holds a resident context (R275, status 4). -/
def srMisplaced (s : State) (b : Nat) : Bool :=
  let n := srRect b
  decide (n.cx + n.cw > 18 ∨ n.cy + n.ch > 16) || (s.parts.get (srPart b)).resident.isSome ||
    (List.finRange 32).any fun p => p != srPart b && (s.parts.get p).valid && rectsMeet n (s.parts.get p)

/-- The status of a request (R275); `l` is the named contexts, none if a descriptor is malformed. -/
def srStatus (s : State) (b : Nat) (l : Option (List (Nat × Ctx))) : Nat :=
  match l with
  | none => 1
  | some l =>
    if srOp b > 3 ∨ srReserved b then 1
    else if (s.parts.get (srPart b)).sw.isSome then 2
    else if l.any fun c => srRefused s b c.1 c.2 then 3
    else if srOp b = 1 ∧ srMisplaced s b then 4
    else 0

/-- A switch of partition `p` to context `c` (0 none) is named for time `t`: the incoming context is *entering* (R268,
R269). -/
def nameSwitch (s : State) (p : Fin 32) (t c : Nat) (desc : Word) (issuer : Option (Nat × Word)) : State :=
  let s := if c = 0 ∨ (s.parts.get p).resident = some c then s else setRes s c p .entering
  { s with parts := s.parts.set p { s.parts.get p with sw := some ⟨t, c, desc, issuer, 0⟩ } }

/-- A context is destroyed: its groups, queues and launches are gone, its collective groups and its mender slots *free*
(R52, R268, R304, R335). -/
def destroyCtx (s : State) (c : Nat) : State :=
  let s := match alGet s.ctxs c with
    | some x =>
      descState { s with ctxs := alSet s.ctxs c { x with destroyed := true, saved := [], res := x.res.map fun (r : Nat × Residency) => (r.1, Residency.destroyed) } }
        x .destroyed
    | none => s
  let s : State := { s with
    groups := s.groups.filter (·.ctx != c)
    qcopies := s.qcopies.filter (fun q => !s.launches.any fun l => l.key == q.1 && l.ctx == c)
    launches := s.launches.filter (·.ctx != c)
    collGroups := s.collGroups.filter (·.ctx != c)
    colls := s.colls.filter (·.ctx != c)
    collIn := s.collIn.filter (·.ctx != c)
    msgs := s.msgs.filter (·.ctx != c)
    parts := vmap s.parts fun p => { p with run := p.run.filter (· != c) }
    dies := vmap s.dies fun d => { d with queues := d.queues.filter (·.ctx != c) } }
  s.menders.foldl (fun s m => (List.finRange 8).foldl (fun s i =>
    match (getMender s m.1).use.get i with
    | some u => if u.ctx = c then freeMenderSlot s m.1 i else s
    | none => s) s) s

/-- The report queue of the executing hart. -/
def myRepq (s : State) : Word := (getTile s (myTile s)).repq

/-- The switch unit takes a request of status 0 (R275). -/
def srTake (s : State) (b : Nat) (l : List (Nat × Ctx)) : State :=
  let p := srPart b
  let s := l.foldl (fun s c => takeCtx s c.1 c.2) s
  match srOp b with
  | 0 => nameSwitch s p (max (srT b) (timeNs s + 2000)) ((l.head?.map (·.1)).getD 0) (srCtx b) (some (hartCtx s s.cur, myRepq s))
  | 1 => { s with parts := s.parts.set p { s.parts.get p with valid := true, cx := srCx b, cy := srCy b, cw := srCw b, ch := srCh b } }
  | 2 => { s with parts := s.parts.set p { s.parts.get p with run := l.map (·.1), slice := srSlice b } }
  | _ => l.foldl (fun s c => destroyCtx s c.1) s

/-- SWREQ (R275): the operation is the one that the request block names (log 17). -/
def switchRequest (d a : GReg) (s : State) : Out :=
  inSet threadOnly s fun s => supOnly s fun s => sources [gId a] s fun s =>
    blockRead true 64 .read (rg (me s) a) s fun _ b s => dests [gId d] s fun s => acked s fun s =>
      match readDescs s (srNamed b) with
      | (s, some vpn, _) => park (.page (hartCtx s s.cur) vpn) s
      | (s, none, l) =>
        let st := srStatus s b l
        done 4 (modMe (if st = 0 then srTake s b (l.getD []) else s) fun h => wg h d (w64 st))

/-- SWREQ SWITCH (R275). -/
def execSwreqSwitch (d a : GReg) (s : State) : Out := switchRequest d a s
/-- SWREQ DEFPART (R275). -/
def execSwreqDefpart (d a : GReg) (s : State) : Out := switchRequest d a s
/-- SWREQ SETRUN (R275). -/
def execSwreqSetrun (d a : GReg) (s : State) : Out := switchRequest d a s
/-- SWREQ DESTROY (R275). -/
def execSwreqDestroy (d a : GReg) (s : State) : Out := switchRequest d a s

/-! ## Time slices (R271) -/

/-- The slice that runs in a partition, in ns: 0 stands for 2,000 µs. -/
def sliceNs (p : Part) : Nat := (if p.running = 0 then 2000 else p.running) * 1000

/-- The contexts among which a partition switches: no switch may name one that is *destroyed* (R268). -/
def liveRun (s : State) (p : Part) : List Nat := p.run.filter fun c => !(alGet s.ctxs c).any (·.destroyed)

/-- The context after `c` in a run list. -/
def nextInRun (l : List Nat) (c : Nat) : Option Nat :=
  match l.dropWhile (· != c) with
  | _ :: n :: _ => some n
  | _ => l.head?

/-- The time has come to name the switch that ends a slice (R271). -/
def sliceDue (s : State) (p : Fin 32) : Bool :=
  let x := s.parts.get p
  x.sw.isNone && x.resident.isSome && decide (2 ≤ (liveRun s x).length ∧ x.start + sliceNs x ≤ timeNs s + 2000)

/-- TIME_SLICE_NAMING (R271); a time that is less than 2,000 ns away becomes that (R269). -/
def execTimeSliceNaming (s : State) : Out :=
  match s.ev with
  | .part k =>
    let p := Fin.ofNat 32 k
    let x := s.parts.get p
    match sliceDue s p, x.resident with
    | true, some c =>
      let n := (nextInRun (liveRun s x) c).getD 0
      let desc := match alGet s.ctxs n with
        | some y => y.desc
        | none => 0
      .next (nameSwitch s p (max (x.start + sliceNs x) (timeNs s + 2000)) n desc none)
    | _, _ => .next s
  | _ => .next s

/-! ## The gang switch: stop (R269) -/

/-- The tiles of a partition. -/
def partTiles (p : Part) : List Nat := if p.valid then rectTiles (p.cx * 4) (p.cy * 4) (p.cw * 4) (p.ch * 4) else []

/-- The harts of a tile. -/
def tileHartsOf (t : Nat) : List HartId := (List.finRange 10).map fun i => .tile t i

/-- A hart waits for the answer to an instruction that has issued and holds its slot: it completes before the stop (R54, R323). -/
def awaitsRemote (s : State) (h : HartId) : Bool :=
  match (getHart s h).status with
  | .parked (.remote _) | .parked (.closing _) => true
  | _ => false

/-- The time T of a partition's switch has come: its tiles issue no more (R269). -/
def stopTime (s : State) (p : Part) : Bool :=
  match p.sw with
  | some w => w.phase == 0 && decide (w.t ≤ timeNs s)
  | none => false

/-- The tile is past the time T of a switch (R269). -/
def issueBarred (s : State) (t : Nat) : Bool :=
  match partOf s t with
  | some p => stopTime s (s.parts.get p)
  | none => false

/-- The stop of a partition is due: its time has come, a group that can retire has retired (R276), and issued EP instructions are
complete (R323). -/
def stopDue (s : State) (p : Fin 32) : Bool :=
  let x := s.parts.get p
  stopTime s x && !s.groups.any (fun g => g.part == p.val && retirable s g) &&
    !(partTiles x).any fun t => (tileHartsOf t).any (awaitsRemote s)

/-! ### The matrix array at the stop (R213) -/

/-- The rows of a multiple of the array that were done before it last began: none, or those at which a switch cut it. -/
def runBase (r : MatRun) : Nat := if r.done = r.rows then 0 else r.done

/-- The rows that are to be done at the stop: those below the next multiple of 32. How far the array has come by then is not stated:
its rows are taken as evenly spread over its cycles (log 30). -/
def runTarget (now : Nat) (r : MatRun) : Nat :=
  let b := runBase r
  let p := if r.cycles = 0 then r.rows else b + (now - r.start) * (r.rows - b) / r.cycles
  min r.rows ((min p r.rows + 31) / 32 * 32)

/-- Rows `i` to `j` of a multiply, as (offset in the C-store, value). -/
def runRows (m : Mem) (n i j : Nat) : List (Nat × Nat) :=
  (List.range (j - i)).map fun k => (accOff n (i + k), memRead m (accOff n (i + k)) 128)

/-- A multiply stops with `k` rows done: the tile, and what is left to do. What an MOUT leaves to do is the accumulators that are there
when it is cut, with those that come after it undone first. -/
def cutRun (t : Tile) (r : MatRun) (k : Nat) : Tile × MatRun :=
  let left := r.cycles - r.cycles * (k - runBase r) / (r.rows - runBase r)
  if r.out then
    let b : Fin 2 := if r.bank then 1 else 0
    let accs := if r.done = r.rows then r.accs.dropLast ++ [(t.pe.get b).acc] else r.accs
    ({ t with pe := t.pe.set b { t.pe.get b with acc := r.accs.getD ((k + 31) / 32) [] } }, { r with done := k, cycles := left, accs := accs })
  else if r.done = r.rows then
    let rest := runRows t.c r.n k r.rows
    ({ t with c := (runRows r.old r.n k r.rows).foldl (fun m w => memWrite m w.1 128 w.2) t.c },
      { r with done := k, cycles := left, rest := rest })
  else
    ((r.rest.take (k - r.done)).foldl (fun t w => storeWrite t .c w.1 128 w.2) t,
      { r with done := k, cycles := left, rest := r.rest.drop (k - r.done) })

/-- A multiply that a switch has cut. -/
def isCut (o : LongOp) : Bool :=
  match o.fx with
  | .rows r => decide (r.done < r.rows)
  | .none | .load _ _ | .store _ _ | .words _ | .ring _ _ _ | .opt _ => false

/-- The array's instruction `o` of a hart of tile `t` comes to the point of R213: it is to complete, or it is cut; one that the array has
not begun is cut before its first row. -/
def cutOp (now : Nat) (t : Tile) (o : LongOp) : Tile × LongOp :=
  match o.fx with
  | .rows r =>
    let k := runTarget now r
    if k < r.rows then let (t, r) := cutRun t r k; (t, { o with fx := .rows r })
    else (endRows t r, { o with fx := .rows { r with done := r.rows, rest := [] } })
  | .none | .load _ _ | .store _ _ | .words _ | .ring _ _ _ | .opt _ => (t, o)

/-- The multiplies of a tile that are outstanding, as (due cycle, hart, place among its operations), in the order in which the array takes
them (R175). -/
def multiplies (t : Tile) : List (Nat × Fin 10 × Nat) :=
  List.insertionSort (fun a b => a.1 ≤ b.1) <| (List.finRange 10).flatMap fun i => ((t.harts.get i).out.zipIdx.filter fun o => match o.1.fx with
    | .rows _ => true
    | .none | .load _ _ | .store _ _ | .words _ | .ring _ _ _ | .opt _ => false).map fun o => (o.1.due, i, o.2)

/-- Changes an outstanding operation of a tile's hart. -/
def modOp (t : Tile) (i : Fin 10) (k : Nat) (f : LongOp → LongOp) : Tile :=
  { t with harts := t.harts.set i { t.harts.get i with out := (t.harts.get i).out.modify k f } }

/-- The multiplies of a tile come to their point: the last first, so that what one has found is there when it is cut. -/
def cutTile (now : Nat) (t : Tile) : Tile :=
  (multiplies t).reverse.foldl (fun t m =>
    match (t.harts.get m.2.1).out[m.2.2]? with
    | some o => let (t, o) := cutOp now t o; modOp t m.2.1 m.2.2 fun _ => o
    | none => t) t

/-- The array takes what is left of the multiplies one after another. -/
def requeue (now : Nat) (t : Tile) : Tile :=
  let r := (multiplies t).foldl (fun (r : Tile × Nat) m =>
    match (r.1.harts.get m.2.1).out[m.2.2]? with
    | some o => match o.fx with
      | .rows x => if x.done < x.rows then (modOp r.1 m.2.1 m.2.2 fun o => { o with due := r.2 + x.cycles }, r.2 + x.cycles) else r
      | .none | .load _ _ | .store _ _ | .words _ | .ring _ _ _ | .opt _ => r
    | none => r) (t, now)
  { r.1 with arrayFree := r.2 }

/-! ### What is in flight at the stop (R269) -/

/-- An operation that completes at the stop: one that waits for its time alone, and is neither cut nor held elsewhere. -/
def settles (s : State) (h : HartId) (o : LongOp) : Bool := o.await == .time && !isCut o && !opHeld s h o

/-- The operation that completes first, of those of some harts. -/
def firstToSettle (s : State) (hs : List HartId) : Option (HartId × Nat × LongOp) :=
  (hs.flatMap fun h => ((getHart s h).out.zipIdx.filter fun o => settles s h o.1).map fun o => (h, o.2, o.1)).foldl
    (fun b o => match b with
      | some x => if o.2.2.due < x.2.2.due then some o else some x
      | none => some o) none

/-- Outstanding operations complete, in the order in which they are due; copies and fills stay outstanding. -/
def settleAll (hs : List HartId) : Nat → State → State
  | 0, s => s
  | n + 1, s =>
    match firstToSettle s hs with
    | some (h, i, o) => settleAll hs n (completeOp s h i o)
    | none => s

/-- A trap of an instruction that issued before the stop is taken (R302). -/
def settleTrap (s : State) (h : HartId) : State :=
  match (getHart s h).status with
  | .parked (.trap cause val) => if (getHart s h).out = [] then takeTrap s h cause val else s
  | _ => s

/-- The tile of `ts` nearest to tile `t` whose fallout buffer has one of its 16 places free (R269, R276). -/
def falloutTile (s : State) (ts : List Nat) (t : Nat) : Option Nat :=
  (ts.filter fun u => decide ((getTile s u).fallout.length < 16)).foldl (fun o u => match o with
    | some v => if hops t u < hops t v then some u else some v
    | none => some u) none

/-- The messages of a hart of a stopped partition: a SPAWN that is not answered is withdrawn, and a post that is on its way falls out
(R254, R269). -/
def settleMessage (s : State) (h : HartId) (ts : List Nat) : State :=
  match (getHart s h).status with
  | .parked (.spawn id) => { s with msgs := s.msgs.filter (·.id != id) }
  | .parked (.mesh id) =>
    match s.msgs.any (·.id == id), falloutTile s ts ((tileOf? h).getD 0) with
    | true, some u => modTile s u fun t => { t with fallout := t.fallout ++ [id] }
    | _, _ => s
  | _ => s

/-- Hart `h` is one of those of the tiles `ts`. -/
def hartIn (ts : List Nat) (h : HartId) : Bool := (tileOf? h).any ts.contains

/-- A request of hart `h` is withdrawn from its home, and takes its place among those that are to be issued again (R100, R128). -/
def again (s : State) (h : HartId) : State :=
  let (s, id) := freshId s
  match (getHart s h).status with
  | .parked (.word sp ea) | .parked (.wordRetry sp ea _) => modHart s h fun x => { x with status := .parked (.wordAgain sp ea id) }
  | _ => s

/-- The requests of other partitions that wait at a home of a stopped tile: their harts hold their accesses, in list order (R100, R101,
R128). -/
def holdOutside (ts : List Nat) (t : Nat) (s : State) (r : FeReq) : State :=
  if hartIn ts r.hart then s
  else
    let (s, id) := freshId s
    modHart s r.hart fun x => { x with status := .parked (.held t true r.sp r.ea.toNat id) }

/-- Every full/empty request at the homes of the tiles `ts`, and of their harts at other homes, is withdrawn in list order; so are their
waits at gradient queues (R100, R308). -/
def withdraw (s : State) (ts : List Nat) (hs : List HartId) : State :=
  let s := ts.foldl (fun s t => (getTile s t).fe.foldl (holdOutside ts t) s) s
  let waiting := (s.tiles.flatMap fun x => x.2.fe.map (·.hart)) ++ s.gfe.map (·.hart)
  let s := (waiting.filter (hartIn ts)).foldl again s
  let s := hs.foldl (fun s h => match (getHart s h).status with
    | .parked (.wordRetry _ _ _) => again s h
    | _ => s) s
  { s with
    gfe := s.gfe.filter fun r => !hartIn ts r.hart
    gqWait := s.gqWait.filter fun w => match w.2 with
      | .hart h => !hartIn ts h
      | _ => true
    tiles := s.tiles.map fun x => (x.1, { x.2 with fe := if ts.contains x.1 then [] else x.2.fe.filter fun r => !hartIn ts r.hart }) }

/-! ### Clocks that pause (R269) -/

/-- How a hart's wait is saved: what runs again from its start on resume is *ready* then (R181, R269, R308). -/
def resumeStatus (st : Status) : Status :=
  match st with
  | .parked (.page _ _) | .parked (.deadline _) | .parked (.spawn _) | .parked .mail | .parked .mailTag
  | .parked (.slot _ _) | .parked (.order _) | .parked (.pair _)
  | .parked (.loading _) | .parked (.waking _) | .parked (.putrRetry _) | .parked (.gradQueue _ _) => .ready
  | x => x

/-- An operation that stays outstanding, with the time that it has still to run. -/
def pauseOp (now : Nat) (o : LongOp) : LongOp := { o with due := o.due - now }

/-- A hart of a stopped tile, with its times as elapsed times. -/
def pauseHart (now : Nat) (x : Hart) : Hart :=
  { x with since := now - x.since, issued := none, status := resumeStatus x.status, out := x.out.map (pauseOp now) }

/-- A stopped tile, with its times as elapsed times (R100, R142, R148, R269). -/
def pauseTile (now : Nat) (x : Tile) : Tile :=
  { x with harts := vmap x.harts (pauseHart now), waitSince := x.waitSince.map (now - ·),
           barSince := vmap x.barSince fun o => o.map (now - ·), arrayFree := x.arrayFree - now, wakeAt := 0,
           copies := x.copies.map fun c => { c with page := none, refused := none } }

/-- An operation of a tile that is restored: its time runs on, and the array goes on with what a switch had cut (R213). -/
def resumeOp (now : Nat) (o : LongOp) : LongOp :=
  let fx := match o.fx with
    | .rows r => .rows { r with start := now + o.due - r.cycles }
    | x => x
  { o with due := now + o.due, fx := fx }

/-- A hart that is restored. -/
def resumeHart (now : Nat) (x : Hart) : Hart := { x with since := now - x.since, out := x.out.map (resumeOp now) }

/-- A tile that is restored: its times run on, its caches are empty, and its fallout goes back into the mesh (R269). -/
def resumeTile (now : Nat) (x : Tile) : Tile :=
  { x with harts := vmap x.harts (resumeHart now), waitSince := x.waitSince.map (now - ·),
           barSince := vmap x.barSince fun o => o.map (now - ·), arrayFree := now + x.arrayFree, gcache := [], icache := [],
           fallout := [] }

/-- Everything of a partition's tiles comes to its stop (R269). -/
def stopTiles (s : State) (ts : List Nat) : State :=
  let hs := ts.flatMap tileHartsOf
  let s := modTiles s (fun _ x => requeue s.cycle (cutTile s.cycle x)) ts
  let s := settleAll hs (hs.foldl (fun n h => n + (getHart s h).out.length) 0) s
  let s := hs.foldl settleTrap s
  let s := hs.foldl (fun s h => settleMessage s h ts) s
  let s := withdraw s ts hs
  modTiles s (fun _ x => pauseTile s.cycle x) ts

/-- GANG_SWITCH_STOP (R269): at T every tile stops, and the resident context is *leaving*; its slice is charged (R271). -/
def execGangSwitchStop (s : State) : Out :=
  match s.ev with
  | .part k =>
    let p := Fin.ofNat 32 k
    let x := s.parts.get p
    match stopDue s p, x.sw with
    | true, some w =>
      let s := stopTiles s (partTiles x)
      let s := match x.resident with
        | some c =>
          let s := setRes s c p .leaving
          match alGet s.ctxs c with
          | some y => { s with ctxs := alSet s.ctxs c { y with ns := y.ns + (w.t - x.start) } }
          | none => s
        | none => s
      .next { s with parts := s.parts.set p { s.parts.get p with sw := some { w with phase := 1 } } }
    | _, _ => .next s
  | _ => .next s

end Sys2Proof.Machine
end

