-- ==== Sys2Proof/Machine/System.lean ====
section
/-! DEFINITION. SYS (R77), the CSRs and the CSR instructions (R64 to R67, R130, R159, R182, R189, R211, R212, R224, R240,
R241, R246, R247, R251, R272, R303, R334). -/

namespace Sys2Proof.Machine

/-! ## SYS (R77) -/

/-- NOP (R77). -/
def execNop (s : State) : Out := inSet threadOrMender s (done 4)

/-- ECALL (R77). -/
def execEcall (s : State) : Out :=
  inSet threadOrMender s fun s => trap (if isSup s then 0x05 else 0x04) 0 s

/-- EBREAK (R77). -/
def execEbreak (s : State) : Out := inSet threadOrMender s (trap 0x06 0)

/-- TRET (R77): TRET outside a handler is illegal. -/
def execTret (s : State) : Out := inSet threadOrMender s trapReturn

/-- IFENCE (R77): waits for the thread's outstanding operations, then empties the tile's instruction cache. -/
def execIfence (s : State) : Out :=
  inSet threadOrMender s fun s => drained s fun s =>
    done 4 (match s.cur with
      | .tile t _ => modTile s t fun x => { x with icache := [] }
      | .mender _ _ => s)

/-- PARK (R77). -/
def execPark (a : GReg) (s : State) : Out :=
  inSet threadOrMender s fun s => sources [gId a] s fun s =>
    if timeNs s < (rg (me s) a).toNat then park (.deadline (rg (me s) a).toNat) s else done 4 s

/-- C.SYS NOP (R45). -/
def execCSysNop (s : State) : Out := inSet threadOrMender s (done 2)

/-! ## CSRs (R65, R66) -/

/-- tstatus as it reads (R66). -/
def tstatusOf (now : Nat) (h : Hart) : Word :=
  w64 (b2n h.inh + 2 * b2n h.sup + 256 * (h.stack.length % 16) + 65536 * ((openOps now h).length % 8))

/-- oerr as it reads (R211). -/
def oerrOf (t : Tile) : Word := w64 (b2n t.oerrErr + 2 * b2n t.oerrLost + 65536 * (t.oerrCnt % 65536))

/-- The CSRs that a mender's slot has (R303). -/
def menderCsr (n : Nat) : Bool :=
  n == 0x000 || n == 0x001 || n == 0x002 || n == 0x02D || n == 0x060 || n == 0x061 || n == 0x100 || n == 0x101 || n == 0x102

/-- The CSR number is listed (R65). -/
def csrListed (n : Nat) : Bool :=
  n ≤ 0x006 || (0x010 ≤ n && n ≤ 0x012) || (0x020 ≤ n && n ≤ 0x02D) || (0x030 ≤ n && n ≤ 0x043) ||
    (0x050 ≤ n && n ≤ 0x058) || (0x060 ≤ n && n ≤ 0x062) || (0x100 ≤ n && n ≤ 0x106) || (0x200 ≤ n && n ≤ 0x203)

/-- The bits of an NFD that are not reserved (R153). -/
def nfdBits : W32 := 0x00FF_0FFF

/-- The value of a CSR for a hart (R65, R66), its reserved bits zero (R3); of a tile CSR, for a mender, 0. -/
def csrRead (s : State) (h : HartId) (n : Nat) : Word :=
  let x := getHart s h
  let tn := (tileOf? h).getD 0
  let t := getTile s tn
  match n with
  | 0x000 => x.fflags.setWidth 64
  | 0x001 => x.frm.setWidth 64
  | 0x002 => w64 (b2n x.pre)
  | 0x003 => x.mtag
  | 0x004 => t.mnext
  | 0x005 => x.wlx
  | 0x006 => x.cpyq
  | 0x010 => w64 (t.step.toNat + 2 ^ 32 * b2n t.wr)
  | 0x011 => t.stepmask.setWidth 64
  | 0x012 => t.stepwatch.setWidth 64
  | 0x028 => t.seed
  | 0x029 => t.gid
  | 0x02A => w64 (tileX tn + 256 * tileY tn)
  | 0x02B => w64 (slotOf h)
  | 0x02C => x.path
  | 0x02D => x.wlim.setWidth 64
  | 0x050 => oerrOf t
  | 0x060 => w64 (timeNs s)
  | 0x061 => 1
  | 0x062 => t.promise.setWidth 64
  | 0x100 => x.tcause
  | 0x101 => x.tval
  | 0x102 => x.tepc
  | 0x103 => tstatusOf s.cycle x
  | 0x104 => x.tvec
  | 0x105 => x.tscratch
  | 0x106 => w64 (b2n x.ss)
  | 0x200 => t.sleepDepth.setWidth 64
  | 0x201 => w64 (t.ctx % 65536)
  | 0x202 => w64 (t.repq.toNat / 64 * 64)
  | 0x203 => t.escwait.setWidth 64
  | _ =>
    if n < 0x024 then (t.fmt.get (Fin.ofNat 4 n) &&& nfdBits).setWidth 64
    else if n < 0x028 then t.scp.get (Fin.ofNat 4 n)
    else if n < 0x040 then (t.lfsr.get (Fin.ofNat 16 n)).setWidth 64
    else if n < 0x044 then w64 (t.q.get (Fin.ofNat 4 n)).cnt
    else t.oerrloc.get (Fin.ofNat 8 (n - 0x051))

/-- A value with bit 0 clear (tepc and tvec, R66). -/
def evenWord (v : Word) : Word := w64 (v.toNat / 2 * 2)

/-- Writes the RW bits of a hart's CSR (R66). -/
def csrWriteHart (x : Hart) (n : Nat) (v : Word) : Hart :=
  match n with
  | 0x000 => { x with fflags := v.setWidth 5 }
  | 0x001 => if v.toNat % 8 < 5 then { x with frm := v.setWidth 3 } else x
  | 0x02D => { x with wlim := v.setWidth 16 }
  | 0x100 => { x with tcause := v &&& w64 (2 ^ 63 + 127) }
  | 0x101 => { x with tval := v }
  | 0x102 => { x with tepc := evenWord v }
  | 0x103 => { x with inh := v.getLsbD 0 }
  | 0x104 => { x with tvec := evenWord v }
  | 0x105 => { x with tscratch := v }
  | 0x106 => { x with ss := v.getLsbD 0 }
  | _ => x

/-- Writes the RW bits of a tile's CSR (R64, R130, R159, R182, R272, R334). -/
def csrWriteTile (t : Tile) (n : Nat) (v : Word) : Tile :=
  match n with
  | 0x004 => { t with mnext := v }
  | 0x011 => { t with stepmask := v.setWidth 7 }
  | 0x012 => { t with stepwatch := v.setWidth 32 }
  | 0x200 => if v.toNat % 4 = 3 then t else { t with sleepDepth := v.setWidth 2 }
  | 0x202 => { t with repq := w64 (v.toNat / 64 * 64) }
  | 0x203 => { t with escwait := if v.toNat % 65536 < 16 then 16 else v.setWidth 16 }
  | _ =>
    if 0x030 ≤ n ∧ n < 0x040 then
      { t with lfsr := t.lfsr.set (Fin.ofNat 16 n) (if v.toNat % 2 ^ 32 = 0 then 1 else v.setWidth 32) }
    else t

/-- Clears the RC bits that the mask names (R67, R211). -/
def csrClear (s : State) (h : HartId) (n : Nat) (mask : Word) : State :=
  if n = 0x002 then modHart s h fun x => { x with pre := x.pre && !mask.getLsbD 0 }
  else if n = 0x050 then
    match h with
    | .tile t _ => modTile s t fun x =>
        let x := { x with oerrLost := x.oerrLost && !mask.getLsbD 1 }
        if mask.getLsbD 0 then
          { x with oerrErr := false, oerrCnt := 0, oerrloc := vmap x.oerrloc fun w => w &&& w64 (2 ^ 63 - 1) }
        else x
    | .mender _ _ => s
  else s

/-- The CSR has RW bits (R65). -/
def csrWritable (n : Nat) : Bool :=
  n ≤ 0x001 || n == 0x004 || n == 0x011 || n == 0x012 || n == 0x02D || (0x030 ≤ n && n < 0x040) ||
    (0x100 ≤ n && n ≤ 0x106) || n == 0x200 || n == 0x202 || n == 0x203

/-- The errors that stay when CSR `n` is written: the cell of an RW CSR is written whole (R296). -/
def csrHealed (n : Nat) (l : List (CellLoc × Flaw)) : List (CellLoc × Flaw) :=
  if csrWritable n then l.filter (·.1 != .csr n) else l

/-- Writes the RW bits of a CSR. -/
def csrWrite (s : State) (h : HartId) (n : Nat) (v : Word) : State :=
  let s := modHart s h fun x => { csrWriteHart x n v with flaws := csrHealed n x.flaws }
  match h with
  | .tile t _ => modTile s t fun x => { csrWriteTile x n v with csrFlaws := csrHealed n x.csrFlaws }
  | .mender _ _ => s

/-- What is wrong with the cell of CSR `n` of a hart: a thread-scope CSR's is the hart's, the others are the tile's. -/
def csrFlaw (s : State) (h : HartId) (n : Nat) : Option Flaw :=
  match flawAt (getHart s h).flaws (.csr n), h with
  | some f, _ => some f
  | none, .tile t _ => flawAt (getTile s t).csrFlaws (.csr n)
  | none, .mender _ _ => none

/-- A CSR instruction reads a CSR: a correctable error is corrected; with an uncorrectable one zero is delivered, and the report's
val is the CSR's number (R296). -/
def csrFetch (s : State) (h : HartId) (n : Nat) : State × Word :=
  match csrFlaw s h n with
  | none => (s, csrRead s h n)
  | some f =>
    let s := modHart s h fun x => if (flawAt x.flaws (.csr n)).isSome then { x with flaws := flawRead x.flaws (.csr n) f } else x
    let s := match h with
      | .tile t _ => modTile s t fun x =>
          if (flawAt x.csrFlaws (.csr n)).isSome then { x with csrFlaws := flawRead x.csrFlaws (.csr n) f } else x
      | .mender _ _ => s
    (flawSeen s h f (w64 n), if f == .soft then csrRead s h n else 0)

/-! ## The CSR instructions (R67) -/

/-- The checks of a CSR instruction (R48, R50, R65, R303). For an unlisted number on a sequencer R50 does not say whether cause 0x00
or 0x0B comes first; the model takes the unlisted number first (DESIGN CHOICE; log 43). -/
def csrCheck (n : CsrNo) (s : State) (k : State → Out) : Out :=
  if !csrListed n.toNat then illegal s
  else inSet threadOrMender s fun s =>
    if kindOf s.cur == .mender && !menderCsr n.toNat then illegal s
    else if n.toNat ≥ 0x200 then supOnly s k
    else k s

/-- A read of fflags waits, in its slot, for every outstanding operation that can set flags (R54, R67). -/
def flagsSettled (n : CsrNo) (s : State) (k : State → Out) : Out :=
  if n.toNat = 0 ∧ (me s).out.any (·.fp) then hold .flags s else k s

/-- A CSR instruction completes; `st` says that it was issued under single step (R294). -/
def csrDone (st : Bool) (s : State) : Out := .next (completeAs st s s.cur ((me s).pc + 4))

/-- CSRR (R67). -/
def execCsrr (d : GReg) (csr : CsrNo) (s : State) : Out :=
  csrCheck csr s fun s => flagsSettled csr s fun s => dests [gId d] s fun s =>
    let (s, v) := csrFetch s s.cur csr.toNat
    done 4 (modMe s fun h => wg h d v)

/-- CSRW (R67). -/
def execCsrw (csr : CsrNo) (a : GReg) (s : State) : Out :=
  csrCheck csr s fun s => sources [gId a] s fun s =>
    let m := rg (me s) a
    csrDone (stepped s.cur (me s)) (csrWrite (csrClear s s.cur csr.toNat m) s.cur csr.toNat m)

/-- A CSR instruction that reads the old value and writes `f old A`; `clr` says that its mask clears RC bits (R67). -/
def csrSwap (f : Word → Word → Word) (clr : Bool) (d : GReg) (csr : CsrNo) (a : GReg) (s : State) : Out :=
  csrCheck csr s fun s => sources [gId a] s fun s => flagsSettled csr s fun s => dests [gId d] s fun s =>
    let m := rg (me s) a
    let st := stepped s.cur (me s)
    let (s, old) := csrFetch s s.cur csr.toNat
    let s := if clr then csrClear s s.cur csr.toNat m else s
    csrDone st (modMe (csrWrite s s.cur csr.toNat (f old m)) fun h => wg h d old)

/-- CSRS (R67): never clears an RC bit. -/
def execCsrs (d : GReg) (csr : CsrNo) (a : GReg) (s : State) : Out := csrSwap (fun o m => o ||| m) false d csr a s
/-- CSRC (R67). -/
def execCsrc (d : GReg) (csr : CsrNo) (a : GReg) (s : State) : Out := csrSwap (fun o m => o &&& ~~~m) true d csr a s
/-- CSRX (R67). -/
def execCsrx (d : GReg) (csr : CsrNo) (a : GReg) (s : State) : Out := csrSwap (fun _ m => m) true d csr a s

end Sys2Proof.Machine
end

