-- ==== Sys2Proof/Machine/Press.lean ====
section
/-! DEFINITION. The press: save areas, and the save and restore of a gang switch (R269 to R271; log 13). -/

namespace Sys2Proof.Machine

/-! ## Save records (R270) -/

/-- The save record of a tile (R270). -/
def saveBase (x : Ctx) (t : Nat) : Nat := x.save.toNat + 0x1000 + t * 0xB_3000

/-- The stores in a record: (store, offset of the store in its record). -/
def saveStores : List (Store × Nat) := [(.l, 0), (.w, 0x2_0000), (.a, 0x5_0000), (.c, 0x8_0000)]

/-- The pages of the stores in a record: (store, offset in the store, offset in the record). -/
def savePages : List (Store × Nat × Nat) :=
  saveStores.flatMap fun x => (List.range (x.1.size / 4096)).map fun i => (x.1, 4096 * i, x.2 + 4096 * i)

/-- The dies are told of the writes of the press to `n` lines (R285). -/
def dropLines (s : State) (line n : Nat) : State := (List.range n).foldl (fun s i => dropLine s (line + i)) s

/-- The lines of a page that the press writes or reads wake their slices (R341). -/
def wakePage (s : State) (pa : Nat) : State := (List.range 16).foldl (fun s i => wakeSlice s (pa + 256 * i)) s

/-- The 64 packets of a page that the press has written travel (R298, R299): a line that fails a check is poisoned, and one that is lost is
as it stood in `old`. -/
def pageSent (old s : State) (pa : Nat) : State :=
  if s.noise = [] then s
  else
    (List.range 64).foldl (fun s i =>
      let a := pa + 64 * i
      match travel s with
      | (s, .whole) => s
      | (s, .bad) => taintLine s a
      | (s, .lost) => { s with mem := memCopy s.mem old.mem a 64 a,
                               gPoison := if old.gPoison.contains (a / 64) then insNat s.gPoison (a / 64) else delNat s.gPoison (a / 64) }) s

/-- The press writes a page whole: the bytes at `off` of `m`, and the poisoned lines `bad`. Whatever the page held before, and its poison and
its errors, are gone (R94, R296, R297). -/
def putPage (s : State) (m : Mem) (off pa : Nat) (bad : List Nat) : State :=
  let keep (l : Nat) : Bool := !decide (pa / 64 ≤ l ∧ l < pa / 64 + 64)
  let s' := wakePage { s with mem := memCopy s.mem m off 4096 pa, gPoison := bad.foldl insNat (s.gPoison.filter keep),
                              gLatent := s.gLatent.filter fun l => keep l.1 } pa
  dropLines (pageSent s s' pa) (pa / 64) 64

/-- A poisoned granule of a store lies in the page of the store at `off`. -/
def inPage (st : Store) (off : Nat) (g : Nat × Nat) : Bool := g.1 == st.space && decide (off ≤ g.2 * 32 ∧ g.2 * 32 < off + 4096)

/-- Writes a page of a store to memory, with its poison (R94, R270). -/
def savePage (s : State) (x : Tile) (st : Store) (off pa : Nat) : State :=
  putPage s (storeMem x st) off pa ((x.poison.filter (inPage st off)).map fun g => (pa + (g.2 * 32 - off)) / 64)

/-- The poisoned lines of a page that the press reads back, by their places in it (R94, R298, R299). -/
def pageBad (s : State) (pa : Nat) : State × List Nat :=
  let s := wakePage s pa
  let s := (s.gLatent.filter fun l => decide (pa / 64 ≤ l.1 ∧ l.1 < pa / 64 + 64)).foldl (fun s l => findError s l.1) s
  let home := (s.gPoison.filter fun l => decide (pa / 64 ≤ l ∧ l < pa / 64 + 64)).map (· - pa / 64)
  if s.noise = [] then (s, home)
  else
    (List.range 64).foldl (fun r i =>
      let (s, w) := travel r.1
      (s, if w == .whole then r.2 else insNat r.2 i)) (s, home)

/-- Reads a page of a store back from memory, with its poison (R270): of a line that was poisoned when it was saved, the granules that were;
of another, both. -/
def loadPage (s : State) (x : Tile) (st : Store) (off pa : Nat) : State × Tile :=
  let (s, bad) := pageBad s pa
  let old := x.poison.filter (inPage st off)
  let x := { setStoreMem x st (memCopy (storeMem x st) s.mem pa 4096 off) with poison := x.poison.filter fun g => !inPage st off g }
  (s, bad.foldl (fun x i =>
    let was := old.filter fun g => (g.2 * 32 - off) / 64 == i
    if was = [] then storeTaint x st (off + 64 * i) 64 else { x with poison := x.poison ++ was }) x)

/-- A piece of a record: its offset and size, and how a tile holds it. -/
structure Piece where
  off : Nat
  size : Nat
  get : Tile → Nat
  put : Nat → Tile → Tile

/-- A list of `n` elements of `w` bits as a record gives it; an empty list stands for zeros. -/
def relist (w n : Nat) (l : List Nat) (v : Nat) : List Nat :=
  if l.isEmpty then (if v = 0 then [] else unpackBits w n v) else unpackBits w l.length v

/-- FP32 elements as one value, and back. -/
def packW (l : List W32) : Nat := packBits 32 (l.map (·.toNat))
def relistW (n : Nat) (l : List W32) (v : Nat) : List W32 := (relist 32 n (l.map (·.toNat)) v).map (BitVec.ofNat 32)

/-- A vector of words of `w` bits as one value. -/
def packV {n w : Nat} (v : Vector (BitVec w) n) : Nat := packBits w (v.toList.map (·.toNat))
def unpackV (n w v : Nat) : Vector (BitVec w) n := Vector.ofFn fun i => BitVec.ofNat w (v / 2 ^ (w * i.val))

/-- The L words that are *empty* by their bits. -/
def lEmptyOf (v : Nat) : List Nat := (List.range 32768).filter fun i => !bitAt v i

/-- The full/empty bits of the L-store, bit i for word i (R270). -/
def lBits (x : Tile) : Nat := x.lEmpty.foldl (fun v i => if i < 32768 then v - 2 ^ i else v) (2 ^ 32768 - 1)

/-- The window history, the full/empty bits and the publish row. -/
def windowPieces : List Piece :=
  (List.range 32).map (fun v =>
    ⟨0x9_0000 + 2048 * v, 2048, fun t => packW (t.hist.getD v ⟨[], [], []⟩).words,
      fun n t => { t with hist := t.hist.zipIdx.map fun x =>
        if x.2 = v then { x.1 with words := relistW t.winN x.1.words n } else x.1 }⟩) ++
  [⟨0xA_0000, 4096, lBits, fun n t => { t with lEmpty := lEmptyOf n }⟩,
   ⟨0xA_1000, 2048, fun t => packW t.pub.words, fun n t => { t with pub := { t.pub with words := relistW t.winN t.pub.words n } }⟩]

/-- The ring latch: elements, scales, header, state. -/
def latchPieces : List Piece :=
  [⟨0xA_1800, 2048, fun t => packBits 16 t.latch.data, fun n t => { t with latch := { t.latch with data := relist 16 1024 t.latch.data n } }⟩,
   ⟨0xA_2000, 64, fun t => packBits 8 t.latch.scales, fun n t => { t with latch := { t.latch with scales := relist 8 64 t.latch.scales n } }⟩,
   ⟨0xA_2040, 16,
     fun t => packBits 8 [t.latch.rows, t.latch.ty, t.latch.smode, t.latch.axis, b2n t.latch.pack,
       match t.latch.st with
       | .empty => 0
       | .filling => 1
       | .full => 2] + 2 ^ 64 * t.latch.nfd,
     fun n t => { t with latch := { t.latch with
       rows := bits n 0 8, ty := bits n 8 8, smode := bits n 16 8, axis := bits n 24 8, pack := bitAt n 32,
       st := if bits n 40 8 = 0 then .empty else if bits n 40 8 = 1 then .filling else .full, nfd := bits n 64 32 } }⟩]

/-- A PE bank: operand, in-array accumulator, scales, header. -/
def bankPieces (b : Fin 2) : List Piece :=
  let base := 0xA_2100 + 0x1900 * b.val
  let put (t : Tile) (f : PeBank → PeBank) : Tile := { t with pe := t.pe.set b (f (t.pe.get b)) }
  [⟨base, 2048, fun t => packBits 16 (t.pe.get b).data, fun n t => put t fun p => { p with data := relist 16 1024 p.data n }⟩,
   ⟨base + 0x800, 4096, fun t => packW (t.pe.get b).acc, fun n t => put t fun p => { p with acc := relistW 1024 p.acc n }⟩,
   ⟨base + 0x1800, 64, fun t => packBits 8 (t.pe.get b).scales, fun n t => put t fun p => { p with scales := relist 8 64 p.scales n }⟩,
   ⟨base + 0x1840, 8,
     fun t => packBits 8 [b2n (t.pe.get b).loaded, (t.pe.get b).ty, (t.pe.get b).smode, (t.pe.get b).axis] + 2 ^ 32 * (t.pe.get b).nfd,
     fun n t => put t fun p => { p with loaded := bitAt n 0, ty := bits n 8 8, smode := bits n 16 8, axis := bits n 24 8, nfd := bits n 32 32 }⟩]

/-- A Q-fold: V, T, stage, counts and modes. -/
def foldPieces (q : Fin 4) : List Piece :=
  let base := 0xA_5300 + 0x2100 * q.val
  let put (t : Tile) (f : QFold → QFold) : Tile := { t with q := t.q.set q (f (t.q.get q)) }
  [⟨base, 4096, fun t => packW (t.q.get q).v, fun n t => put t fun x => { x with v := relistW 1024 x.v n }⟩,
   ⟨base + 0x1000, 4096, fun t => packW (t.q.get q).t, fun n t => put t fun x => { x with t := relistW 1024 x.t n }⟩,
   ⟨base + 0x2000, 128, fun t => packW (t.q.get q).stageV, fun n t => put t fun x => { x with stageV := relistW 32 x.stageV n }⟩,
   ⟨base + 0x2080, 4, fun t => (t.q.get q).stageTau.toNat, fun n t => put t fun x => { x with stageTau := BitVec.ofNat 32 n }⟩,
   ⟨base + 0x2084, 16,
     fun t => let x := t.q.get q; packF [(8, x.k), (1, b2n x.dense), (1, b2n x.stageOk), (1, b2n x.full), (21, x.stageP), (32, x.napp), (64, x.cnt)],
     fun n t => put t fun x => { x with k := bits n 0 8, dense := bitAt n 8, stageOk := bitAt n 9, full := bitAt n 10, stageP := bits n 11 21,
                                        napp := bits n 32 32, cnt := bits n 64 64 }⟩]

/-! ### What a hart waits for, and what it has outstanding -/

/-- The class of a code (R58, R219). -/
def classOf (n : Nat) : RegClass :=
  match n with
  | 0 => .g
  | 1 => .e
  | 2 => .v
  | 3 => .k
  | 4 => .c
  | 5 => .q
  | _ => .latch

/-- The space of a number (R89). -/
def spaceOf (n : Nat) : AmoSpace := if n = 0 then .l else if n = 1 then .m else .g

/-- A barrier kind by its number. -/
def barOf (n : Nat) : BarKind := if n = 0 then .tbar else if n = 1 then .qbar else .clbar

/-- A reason as five numbers: its code, two small numbers and two words. What is *ready* on resume has none of its own (R269). -/
def reasonFields (r : Reason) : Nat × Nat × Nat × Nat × Nat :=
  match r with
  | .reg r => (1, classCode r.cls, r.idx, 0, 0)
  | .outFull => (2, 0, 0, 0, 0)
  | .fence next => (3, 0, 0, next.toNat, 0)
  | .drain => (4, 0, 0, 0, 0)
  | .fenced lb => (5, b2n lb, 0, 0, 0)
  | .acks => (6, 0, 0, 0, 0)
  | .word sp ea => (7, spaceNo sp, 0, ea, 0)
  | .wordRetry sp ea due => (8, spaceNo sp, 0, ea, due)
  | .wordAgain sp ea n => (9, spaceNo sp, 0, ea, n)
  | .held t fe sp ea n => (10, b2n fe + 2 * spaceNo sp, t, ea, n)
  | .step next => (11, 0, 0, next.toNat, 0)
  | .bar k d next => (12, (barIdx k).val, d.val, next.toNat, 0)
  | .barAhead k gen => (13, (barIdx k).val, gen.toNat, 0, 0)
  | .post id next => (14, 0, 0, id, next.toNat)
  | .mesh id => (15, 0, 0, id, 0)
  | .engine m => (16, m, 0, 0, 0)
  | .rdv => (17, 0, 0, 0, 0)
  | .ring next la => (18, la, 0, next.toNat, 0)
  | .trap c v => (19, c, 0, v.toNat, 0)
  | .order _ | .pair _ | .slot _ _ | .loading _ | .waking _ | .page _ _ | .deadline _ | .mail | .mailTag | .spawn _ | .putrRetry _
  | .gradQueue _ _ | .remote _ | .closing _ => (33, 0, 0, 0, 0)

/-- The status of a hart as a record holds it. -/
def statusBits (st : Status) : Nat :=
  let f : Nat × Nat × Nat × Nat × Nat := match st with
    | .parked r => reasonFields r
    | .free => (32, 0, 0, 0, 0)
    | .ready => (33, 0, 0, 0, 0)
    | .inline => (34, 0, 0, 0, 0)
    | .trapped => (35, 0, 0, 0, 0)
    | .posting tag payload fault => (36, b2n fault, 0, tag.toNat, payload.toNat)
  packF [(8, f.1), (24, f.2.1), (32, f.2.2.1), (64, f.2.2.2.1), (64, f.2.2.2.2)]

/-- The status that a record holds; one of no known code is *free*. -/
def statusOf (n : Nat) : Status :=
  let x := bits n 8 24
  let y := bits n 32 32
  let a := bits n 64 64
  let b := bits n 128 64
  match bits n 0 8 with
  | 1 => .parked (.reg ⟨classOf x, y⟩)
  | 2 => .parked .outFull
  | 3 => .parked (.fence (w64 a))
  | 4 => .parked .drain
  | 5 => .parked (.fenced (x == 1))
  | 6 => .parked .acks
  | 7 => .parked (.word (spaceOf x) a)
  | 8 => .parked (.wordRetry (spaceOf x) a b)
  | 9 => .parked (.wordAgain (spaceOf x) a b)
  | 10 => .parked (.held y (bitAt x 0) (spaceOf (x / 2)) a b)
  | 11 => .parked (.step (w64 a))
  | 12 => .parked (.bar (barOf x) (Fin.ofNat 32 y) (w64 a))
  | 13 => .parked (.barAhead (barOf x) (BitVec.ofNat 16 y))
  | 14 => .parked (.post a (w64 b))
  | 15 => .parked (.mesh a)
  | 16 => .parked (.engine x)
  | 17 => .parked .rdv
  | 18 => .parked (.ring (w64 a) x)
  | 19 => .parked (.trap x (w64 a))
  | 33 => .ready
  | 34 => .inline
  | 35 => .trapped
  | 36 => .posting (w64 a) (w64 b) (x == 1)
  | _ => .free

/-- A list in a record: its length, and up to `cap` elements of `w` bits each. -/
def packList {α : Type} (w cap : Nat) (enc : α → Nat) (l : List α) : Nat := min l.length cap + 2 ^ 64 * packBits w ((l.take cap).map enc)

/-- The list that a record holds: `dec` puts the bits of an element over what was saved of it, or over `new` where nothing was. -/
def unpackList {α : Type} (w cap : Nat) (dec : Nat → α → α) (new : α) (v : Nat) (l : List α) : List α :=
  (List.range (min cap (bits v 0 64))).map (fun i => dec (bits v (64 + w * i) w) (l.getD i new)) ++ l.drop cap

/-- An entry of the inline stack; the reserved bits of its path are no part of it (R247, R249). -/
def frameBits (f : Frame) : Nat :=
  packF [(63, f.ret.toNat / 2), (5, f.d.val), (19, f.path.toNat), (40, f.path.toNat / 2 ^ 24)]
def frameOf (n : Nat) (_ : Frame) : Frame :=
  ⟨w64 (2 * bits n 0 63), Fin.ofNat 32 (bits n 63 5), w64 (bits n 68 19 + 2 ^ 24 * bits n 87 40)⟩

/-- An outstanding operation: its shadow count, its flags, the time that it has still to run, and the rows that a multiply has done (R213). -/
def opBits (o : LongOp) : Nat :=
  packF [(6, o.left), (5, o.flags.toNat), (1, b2n o.pre), (1, b2n o.inl), (1, b2n o.fp), (10, match o.fx with
    | .rows r => r.done
    | .none | .load _ _ | .store _ _ | .words _ | .ring _ _ _ | .opt _ => 0), (40, o.due)]
def opOf (n : Nat) (o : LongOp) : LongOp :=
  let k := bits n 14 10
  { o with left := bits n 0 6, flags := BitVec.ofNat 5 (n / 2 ^ 6), pre := bitAt n 11, inl := bitAt n 12, fp := bitAt n 13, due := bits n 24 40,
           fx := match o.fx with
             | .rows r => .rows (if r.done ≤ k ∧ k ≤ r.rows then { r with done := k, rest := r.rest.drop (k - r.done) } else r)
             | x => x }

/-- The descriptor snapshots of the first two multiplies of a hart (R43, R213). -/
def descBits (l : List LongOp) : Nat :=
  packBits 128 ((l.filterMap fun o => match o.fx with
    | .rows r => some (packBits 64 (r.descs.map (·.toNat)))
    | .none | .load _ _ | .store _ _ | .words _ | .ring _ _ _ | .opt _ => none).take 2)
def putDescs (v : Nat) : Nat → List LongOp → List LongOp
  | _, [] => []
  | k, o :: l =>
    match o.fx with
    | .rows r =>
      if k ≥ 2 then o :: l
      else { o with fx := .rows { r with descs := (List.range r.descs.length).map fun j => w64 (bits v (128 * k + 64 * j) 64) } } :: putDescs v (k + 1) l
    | .none | .load _ _ | .store _ _ | .words _ | .ring _ _ _ | .opt _ => o :: putDescs v k l

/-- A hart: its registers with their full/empty bits, pc, the CSRs of thread scope, its state and what it waits for, its inline stack and its
outstanding operations. The reserved bits of a CSR are no part of it (R3, R66). -/
def hartPieces (h : Fin 10) : List Piece :=
  let base := 0xA_D700 + 0x700 * h.val
  let p (off size : Nat) (get : Hart → Nat) (put : Nat → Hart → Hart) : Piece :=
    ⟨base + off, size, fun t => get (t.harts.get h), fun n t => { t with harts := t.harts.set h (put n (t.harts.get h)) }⟩
  [p 0 256 (fun x => packV x.g) (fun n x => { x with g := unpackV 32 64 n }),
   p 0x100 64 (fun x => packV x.e) (fun n x => { x with e := unpackV 8 64 n }),
   p 0x140 1024 (fun x => packV x.v) (fun n x => { x with v := unpackV 16 512 n }),
   p 0x540 8 (fun x => packV x.k) (fun n x => { x with k := unpackV 4 16 n }),
   p 0x548 8 (fun x => x.gF.toNat + x.eF.toNat * 2 ^ 32 + x.vF.toNat * 2 ^ 40 + x.kF.toNat * 2 ^ 56)
     (fun n x => { x with gF := BitVec.ofNat 32 n, eF := BitVec.ofNat 8 (n / 2 ^ 32), vF := BitVec.ofNat 16 (n / 2 ^ 40),
                          kF := BitVec.ofNat 4 (n / 2 ^ 56) }),
   p 0x550 8 (fun x => x.pc.toNat) (fun n x => { x with pc := w64 (n / 2 * 2) }),
   p 0x558 8 (fun x => packF [(8, x.fflags.toNat), (4, x.frm.toNat), (1, b2n x.pre), (1, b2n x.inh), (1, b2n x.sup), (1, b2n x.ss),
       (16, x.wlim.toNat), (32, x.cpyq.toNat)])
     (fun n x => { x with fflags := BitVec.ofNat 5 n, frm := if bits n 8 4 ≤ 4 then BitVec.ofNat 3 (n / 2 ^ 8) else x.frm, pre := bitAt n 12,
                          inh := bitAt n 13, sup := bitAt n 14, ss := bitAt n 15, wlim := BitVec.ofNat 16 (n / 2 ^ 16), cpyq := w64 (bits n 32 32) }),
   p 0x560 8 (fun x => x.mtag.toNat) (fun n x => { x with mtag := w64 n }),
   p 0x568 8 (fun x => x.wlx.toNat) (fun n x => { x with wlx := w64 n }),
   p 0x570 8 (fun x => x.path.toNat) (fun n x => { x with path := w64 (bits n 0 19 + 2 ^ 24 * bits n 24 40) }),
   p 0x578 8 (fun x => x.tcause.toNat) (fun n x => { x with tcause := w64 (bits n 0 7 + 2 ^ 63 * bits n 63 1) }),
   p 0x580 8 (fun x => x.tval.toNat) (fun n x => { x with tval := w64 n }),
   p 0x588 8 (fun x => x.tepc.toNat) (fun n x => { x with tepc := w64 (n / 2 * 2) }),
   p 0x590 8 (fun x => x.tvec.toNat) (fun n x => { x with tvec := w64 (n / 2 * 2) }),
   p 0x598 8 (fun x => x.tscratch.toNat) (fun n x => { x with tscratch := w64 n }),
   p 0x5A0 6 (fun x => packV x.bar) (fun n x => { x with bar := unpackV 3 16 n }),
   p 0x5A6 6 (fun x => x.since) (fun n x => { x with since := n }),
   p 0x5AC 24 (fun x => statusBits x.status) (fun n x => { x with status := statusOf n }),
   p 0x5C4 248 (fun x => packList 128 15 frameBits x.stack) (fun n x => { x with stack := unpackList 128 15 frameOf ⟨0, 0, 0⟩ n x.stack }),
   p 0x6BC 40 (fun x => packList 64 4 opBits x.out) (fun n x => { x with out := unpackList 64 4 opOf (longOp []) n x.out }),
   p 0x6E4 28 (fun x => descBits x.out) (fun n x => { x with out := putDescs n 0 x.out })]

/-! ### What a tile holds for others -/

/-- A hart by number, 0 for none. -/
def hartNo (o : Option HartId) : Nat :=
  match o with
  | none => 0
  | some (.tile t i) => 1 + 10 * t + i.val
  | some (.mender m i) => 2 ^ 30 + 8 * m + i.val
def hartOfNo (n : Nat) : Option HartId :=
  if n = 0 then none
  else if n < 2 ^ 30 then some (.tile ((n - 1) / 10) (Fin.ofNat 10 (n - 1)))
  else some (.mender ((n - 2 ^ 30) / 8) (Fin.ofNat 8 n))

/-- A post of the mailbox, and one that is held. -/
def postBits (m : Post) : Nat := packF [(64, m.tag.toNat), (64, m.payload.toNat)]
def postOf (n : Nat) (m : Post) : Post := { m with tag := w64 (bits n 0 64), payload := w64 (bits n 64 64) }
def heldBits (m : HeldPost) : Nat := postBits m.post + 2 ^ 128 * packF [(64, m.id), (32, hartNo m.sender), (1, b2n m.post.dev)]
def heldOf (n : Nat) (m : HeldPost) : HeldPost :=
  ⟨{ postOf n m.post with dev := bitAt n 224 }, bits n 128 64, hartOfNo (bits n 192 32)⟩

/-- An entry of the work list. -/
def workBits (m : WorkItem) : Nat := packF [(64, m.x.toNat), (64, m.y.toNat)]
def workOf (n : Nat) (m : WorkItem) : WorkItem := { m with x := w64 (bits n 0 64), y := w64 (bits n 64 64) }

/-- A pending PUTR or copy fill. -/
def fillBits (f : Fill) : Nat :=
  packF [(64, f.val.toNat), (64, f.id), (32, hartNo f.sender), (4, f.slot.val), (4, classCode f.reg.cls), (8, f.reg.idx), (1, b2n f.bad)]
def fillOf (n : Nat) (_ : Fill) : Fill :=
  ⟨bits n 64 64, Fin.ofNat 10 (bits n 160 4), ⟨classOf (bits n 164 4), bits n 168 8⟩, w64 (bits n 0 64), hartOfNo (bits n 128 32), bitAt n 176⟩

/-- A copy record, with its snapshot (R43, R188). -/
def copyBits (c : Copy) : Nat :=
  packF [(64, c.id), (64, c.pc.toNat), (64, c.src.toNat), (64, c.dst.toNat), (64, c.tag.toNat), (64, c.pendAt), (32, (c.sst % 2 ^ 32).toNat),
    (32, (c.dstS % 2 ^ 32).toNat), (16, c.len), (16, c.rows), (16, c.done), (32, hartNo (some c.hart)), (2, match c.dir with
      | .lm => 0
      | .gl => 1
      | .lg => 2
      | .gg => 3), (2, match c.st with
      | .requested => 0
      | .moving => 1
      | .pending => 2
      | .posting => 3), (1, b2n c.sup), (1, b2n c.poison), (1, b2n c.cancel), (1, b2n c.fault), (1, b2n c.orphan)]
def copyOf (n : Nat) (c : Copy) : Copy :=
  let f (k w : Nat) : Nat := bits n (448 + k) w
  { c with
    id := bits n 0 64, pc := w64 (bits n 64 64), src := w64 (bits n 128 64), dst := w64 (bits n 192 64), tag := w64 (bits n 256 64)
    pendAt := bits n 320 64, sst := sextNat 32 (bits n 384 32), dstS := sextNat 32 (bits n 416 32)
    len := f 0 16, rows := f 16 16, done := f 32 16, hart := (hartOfNo (f 48 32)).getD c.hart
    dir := if f 80 2 = 0 then .lm else if f 80 2 = 1 then .gl else if f 80 2 = 2 then .lg else .gg
    st := if f 82 2 = 0 then .requested else if f 82 2 = 1 then .moving else if f 82 2 = 2 then .pending else .posting
    sup := bitAt n 532, poison := bitAt n 533, cancel := bitAt n 534, fault := bitAt n 535, orphan := bitAt n 536 }

/-- A copy of which nothing was saved. -/
def noCopy : Copy :=
  ⟨0, .tile 0 0, 0, false, .gg, 0, 0, 0, 0, 0, 0, 0, .requested, 0, false, false, false, none, none, 0, false⟩

/-- The tile record: step, barriers, the CSRs of tile scope, mailbox, work list, fills, copies, fallout and held posts. The reserved bits of a
CSR are no part of it (R3). -/
def tilePieces : List Piece :=
  let p (off size : Nat) (get : Tile → Nat) (put : Nat → Tile → Tile) : Piece := ⟨0xB_1D00 + off, size, get, put⟩
  [p 0 8 (fun t => t.step.toNat + 2 ^ 32 * (b2n t.wr + 2 * b2n t.idle) + 2 ^ 40 * t.arrived.toNat + 2 ^ 48 * t.stepmask.toNat)
     (fun n t => { t with step := BitVec.ofNat 32 n, wr := bitAt n 32, idle := bitAt n 33, arrived := BitVec.ofNat 7 (n / 2 ^ 40),
                          stepmask := BitVec.ofNat 7 (n / 2 ^ 48) }),
   p 8 8 (fun t => t.stepwatch.toNat) (fun n t => { t with stepwatch := BitVec.ofNat 32 n }),
   p 0x10 8 (fun t => packV t.gen) (fun n t => { t with gen := unpackV 3 16 n }),
   p 0x18 8 (fun t => packBits 8 (t.barArr.toList.map (·.toNat)))
     (fun n t => { t with barArr := Vector.ofFn fun i => BitVec.ofNat 7 (n / 2 ^ (8 * i.val)) }),
   p 0x20 16 (fun t => packV t.fmt) (fun n t => { t with fmt := Vector.ofFn fun i => BitVec.ofNat 32 (n / 2 ^ (32 * i.val)) &&& nfdBits }),
   p 0x30 32 (fun t => packV t.scp) (fun n t => { t with scp := unpackV 4 64 n }),
   p 0x50 8 (fun t => t.seed.toNat) (fun n t => { t with seed := w64 n }),
   p 0x58 8 (fun t => t.gid.toNat) (fun n t => { t with gid := w64 (bits n 0 48) }),
   p 0x60 8 (fun t => t.promise.toNat + 8 * t.sleepDepth.toNat)
     (fun n t => { t with promise := BitVec.ofNat 3 n, sleepDepth := if bits n 3 2 = 3 then t.sleepDepth else BitVec.ofNat 2 (n / 8) }),
   p 0x68 64 (fun t => packV t.lfsr) (fun n t => { t with lfsr := unpackV 16 32 n }),
   p 0xA8 8 (fun t => b2n t.oerrErr + 2 * b2n t.oerrLost + 2 ^ 8 * t.oerrCnt)
     (fun n t => { t with oerrErr := bitAt n 0, oerrLost := bitAt n 1, oerrCnt := bits n 8 32 }),
   p 0xB0 64 (fun t => packV t.oerrloc) (fun n t => { t with oerrloc := unpackV 8 64 n }),
   p 0xF0 8 (fun t => t.mnext.toNat) (fun n t => { t with mnext := w64 n }),
   p 0xF8 8 (fun t => t.repq.toNat) (fun n t => { t with repq := repqOf (w64 n) }),
   p 0x100 8 (fun t => t.escwait.toNat) (fun n t => { t with escwait := BitVec.ofNat 16 n }),
   p 0x108 16 (fun t => packBits 64 (t.seam.toList.map fun x => x.1.toNat + 2 ^ 32 * b2n x.2))
     (fun n t => { t with seam := Vector.ofFn fun i => (BitVec.ofNat 32 (n / 2 ^ (64 * i.val)), bitAt n (64 * i.val + 32)) }),
   p 0x118 0x208 (fun t => packList 128 32 postBits t.mbox)
     (fun n t => { t with mbox := unpackList 128 32 postOf ⟨0, 0, false, none⟩ n t.mbox }),
   p 0x320 0x408 (fun t => packList 128 64 workBits t.work) (fun n t => { t with work := unpackList 128 64 workOf ⟨0, 0, none⟩ n t.work }),
   p 0x728 0xC8 (fun t => packList 192 8 fillBits t.fills)
     (fun n t => { t with fills := unpackList 192 8 fillOf ⟨0, 0, ⟨.g, 0⟩, 0, none, false⟩ n t.fills }),
   p 0x7F0 0x488 (fun t => packList 576 16 copyBits t.copies) (fun n t => { t with copies := unpackList 576 16 copyOf noCopy n t.copies }),
   p 0xC78 0x88 (fun t => packList 64 16 id t.fallout) (fun n t => { t with fallout := unpackList 64 16 (fun v _ => v) 0 n t.fallout }),
   p 0xD00 0x5E8 (fun t => packList 256 47 heldBits t.mheld)
     (fun n t => { t with mheld := unpackList 256 47 heldOf ⟨⟨0, 0, false, none⟩, 0, none⟩ n t.mheld })]

/-- The pieces of a record beside the stores. R270 gives the offsets and sizes of its parts; the places within a part are the model's
(DESIGN CHOICE; log 13). -/
def pieces : List Piece :=
  windowPieces ++ latchPieces ++ (List.finRange 2).flatMap bankPieces ++ (List.finRange 4).flatMap foldPieces ++
    (List.finRange 10).flatMap hartPieces ++ tilePieces

/-! ## Save and restore of a tile -/

/-- The press of a tile's die writes `n` bytes at `va`, each line in a packet of its own; where it may not, nothing is written (log 13). -/
def pressWrite (s : State) (d : Fin 4) (c va n v : Nat) : State :=
  match unitChunks s d c .write (rowChunks va n) with
  | (s, .ok l) =>
    (l.foldl (fun (r : State × Nat) x =>
      (match travel r.1 with
        | (s, .whole) => dropLine { s with mem := memWrite s.mem x.1 x.2 r.2 } (x.1 / 64)
        | (s, .bad) => taintLine (dropLine { s with mem := memWrite s.mem x.1 x.2 r.2 } (x.1 / 64)) x.1
        | (s, .lost) => s, r.2 / 256 ^ x.2)) (s, v)).1
  | (s, _) => s

/-- The press reads `n` bytes at `va` back; none where it may not. What is poisoned reads as zero, and is reported (R94, R297). -/
def pressRead (s : State) (d : Fin 4) (c va n : Nat) : State × Option Nat :=
  match unitChunks s d c .read (rowChunks va n) with
  | (s, .ok l) => let (s, v, bad) := readLines s l; (if bad then unitPoison s d c va else s, some v)
  | (s, _) => (s, none)

/-- The pages of a record that hold its parts beside the stores: the press writes them whole. -/
def restPages : List Nat := (List.range 36).map fun i => 0x9_0000 + 4096 * i

/-- The press of a tile's die writes the tile into its record. -/
def saveRecord (s : State) (c : Nat) (y : Ctx) (t : Nat) : State :=
  let s := actFor .press s
  let x := getTile s t
  let base := saveBase y t
  let s := savePages.foldl (fun s g =>
    match unitXlate s (dieOf t) c ((base + g.2.2) % 2 ^ 64) .write with
    | (s, .ok pa) => savePage s x g.1 g.2.1 pa
    | (s, _) => s) s
  let s := restPages.foldl (fun s o =>
    match unitXlate s (dieOf t) c ((base + o) % 2 ^ 64) .write with
    | (s, .ok pa) => putPage s [] 0 pa []
    | (s, _) => s) s
  pieces.foldl (fun s p => pressWrite s (dieOf t) c (base + p.off) p.size (p.get x)) s

/-- The bytes of a context's descriptor, where the thread that named it may read them. -/
def descBytes (s : State) (y : Ctx) : Nat :=
  match peekPa s y.byCtx y.desc.toNat .read with
  | .ok pa => physRead s pa 64
  | _ => 0

/-- The press writes the area header (R270). It belongs to no tile, and the spec says only "the press": the model takes that of die 0, whatever
the partition's tiles (DESIGN CHOICE; log 13). -/
def saveHeader (s : State) (c : Nat) (y : Ctx) : State :=
  let s := actFor .press s
  match unitXlate s 0 c y.save.toNat .write with
  | (s, .ok pa) =>
    let s := physWrite s pa 64 (descBytes s y)
    physWrite (physWrite (physWrite s (pa + 0x40) 8 (timeNs s)) (pa + 0x48) 8 y.ns) (pa + 0x50) 8 y.switches
  | (s, _) => s

/-- A partition holds a group of the context. -/
def partUsed (s : State) (p : Fin 32) (c : Nat) : Bool := s.groups.any fun g => g.part == p.val && g.ctx == c

/-- The press saves the tiles of the outgoing context, which is *saved*; or *entering* at once, where the switch names it as the incoming one too
(R268 to R270). -/
def saveTiles (s : State) (p : Fin 32) (c : Nat) : State :=
  match alGet s.ctxs c with
  | none => s
  | some y =>
    let ts := partTiles (s.parts.get p)
    let used := partUsed s p c
    let recs := if used then ts.map fun t => ⟨p.val, t, getTile s t⟩ else []
    let y := { y with saved := (y.saved.filter (·.part != p.val)) ++ recs, switches := y.switches + 1 }
    let s := { s with ctxs := alSet s.ctxs c y }
    let s := if used then ts.foldl (fun s t => saveRecord s c y t) s else s
    setRes (saveHeader s c y) c p (if (s.parts.get p).sw.any (·.target == c) then .entering else .saved)

/-- The save of a partition can end: what its tiles have reported is posted (R276). -/
def saveDue (s : State) (p : Fin 32) : Bool :=
  let x := s.parts.get p
  (match x.sw with
    | some w => w.phase == 1
    | none => false) && !s.reports.any fun r => (partTiles x).contains r.src

/-- GANG_SWITCH_SAVE_DONE (R269): the last tile is saved; the tiles are empty. -/
def execGangSwitchSaveDone (s : State) : Out :=
  match s.ev with
  | .part k =>
    let p := Fin.ofNat 32 k
    match saveDue s p, (s.parts.get p).sw with
    | true, some w =>
      let s := match (s.parts.get p).resident with
        | some c => saveTiles s p c
        | none => s
      let s := modTiles s (fun _ _ => Tile.reset) (partTiles (s.parts.get p))
      let x := s.parts.get p
      .next { s with parts := s.parts.set p { x with resident := none, sw := some { w with phase := 2 } } }
    | _, _ => .next s
  | _ => .next s

/-- A tile as its record now holds it (R270); what no piece holds is as it was saved, and so is a piece that stands as the press wrote it. -/
def loadRecord (s : State) (c : Nat) (y : Ctx) (t : Nat) (x : Tile) : State × Tile :=
  let s := actFor .press s
  let base := saveBase y t
  let r := savePages.foldl (fun (r : State × Tile) g =>
    match unitXlate r.1 (dieOf t) c ((base + g.2.2) % 2 ^ 64) .read with
    | (s, .ok pa) => loadPage s r.2 g.1 g.2.1 pa
    | (s, _) => (s, r.2)) (s, x)
  pieces.foldl (fun r p =>
    match pressRead r.1 (dieOf t) c (base + p.off) p.size with
    | (s, some v) => (s, if v = p.get r.2 then r.2 else p.put v r.2)
    | (s, none) => (s, r.2)) r

/-- A tile of the incoming context: its saved state, or zeros where its record is marked empty (R269, R371). R371 speaks of the stores
alone: a tile without a record has its sleepcfg and escwait at their reset values (DESIGN CHOICE; log 43). -/
def restoreTile (s : State) (p : Fin 32) (c : Nat) (y : Ctx) (t : Nat) : State :=
  match y.saved.find? fun r => r.part == p.val && r.tile == t with
  | some r => let (s, x) := loadRecord s c y t r.state; setTile s t (resumeTile s.cycle x)
  | none => setTile s t { Tile.reset with ctx := c, repq := repqOf y.repq }

/-- The entry of a post is still held at a mailbox, here or in a saved tile, or is on its way. -/
def postPending (s : State) (id : Nat) : Bool :=
  s.msgs.any (·.id == id) || s.tiles.any (fun x => x.2.mheld.any (·.id == id)) ||
    s.ctxs.any fun c => c.2.saved.any fun r => r.state.mheld.any (·.id == id)

/-- A fill is still to be made, here or in a saved tile. -/
def fillPending (s : State) (id : Nat) : Bool :=
  s.tiles.any (fun x => x.2.fills.any (·.id == id)) || s.ctxs.any fun c => c.2.saved.any fun r => r.state.fills.any (·.id == id)

/-- A hart that is restored goes on, if its post was accepted or its fill made while it was switched out (R84, R181, R197). -/
def answered (s : State) (h : HartId) : State :=
  let s := modHart s h fun x => { x with out := x.out.filter fun o => match o.await with
    | .fill id => fillPending s id
    | _ => true }
  match (getHart s h).status with
  | .parked (.post id next) => if postPending s id then s else complete s h next
  | _ => s

/-- The TLB is that of a tile or a cluster of a partition. -/
def holderIn (ts : List Nat) (h : Holder) : Bool :=
  match h with
  | .tile t => ts.contains t
  | .cluster c => ts.any fun t => clusterOf t == c
  | .die => false

/-- The TLB entries of the partition are dropped (R269, R284). -/
def dropPartTlb (s : State) (ts : List Nat) : State :=
  { s with dies := vmap s.dies fun x => { x with tlb := x.tlb.filter fun e => !holderIn ts e.at_ } }

/-- The switch-done report (R275, R368). -/
def switchReport (s : State) (p : Fin 32) (w : Switch) : State :=
  match w.issuer with
  | some (c, repq) =>
    { s with reports := s.reports ++ [{ ctx := c, die := 0, repq := repq, data := record s 10 0 0xFFFF 0 w.desc 0 p.val 0, src := 0x1_0000 }] }
  | none => s

/-- The list of saved tiles of a context in a partition has served (R269). -/
def dropSaved (s : State) (c : Nat) (p : Fin 32) : State :=
  match alGet s.ctxs c with
  | some y => { s with ctxs := alSet s.ctxs c { y with saved := y.saved.filter (·.part != p.val) } }
  | none => s

/-- GANG_SWITCH_RESTORE (R269): the incoming context's tiles are restored and released in one step. -/
def execGangSwitchRestore (s : State) : Out :=
  match s.ev with
  | .part k =>
    let p := Fin.ofNat 32 k
    match (s.parts.get p).sw with
    | some w =>
      if w.phase ≠ 2 then .next s
      else
        let ts := partTiles (s.parts.get p)
        let s := match alGet s.ctxs w.target with
          | some y =>
            let s := dropSaved (ts.foldl (fun s t => restoreTile s p w.target y t) s) w.target p
            setRes ((ts.flatMap tileHartsOf).foldl answered s) w.target p .resident
          | none => s
        let s := dropPartTlb s ts
        let x := s.parts.get p
        let x := { x with resident := if w.target = 0 then none else some w.target, start := timeNs s, running := x.slice, sw := none }
        .next (switchReport { s with parts := s.parts.set p x } p w)
    | none => .next s
  | _ => .next s

end Sys2Proof.Machine
end

