-- ==== Sys2Proof/Machine/Wake.lean ====
section
/-! DEFINITION. When a parked hart's reason has cleared (R51, R293), and which harts may issue (R53, R54, R59, R64, R80,
R173). -/

namespace Sys2Proof.Machine

/-- A queue at which a hart waits lets it go on: a credit or an entry is there and no waiter came before it (R308). What clears EN
ends the waits itself. -/
def queueCleared (s : State) (h : HartId) (pa : Nat) (push : Bool) : Bool :=
  let l := memRead s.mem pa 64
  gqEn l && gqTurn s pa push (.hart h) && decide (0 < if push then gqCred l else gqOcc l)

/-- A mender's slot whose wait has ended with EN of its queue, and which is to become *free* (R304). -/
def slotEnded (s : State) (h : HartId) : Bool :=
  match h with
  | .mender m i => (getMender s m).ended.contains i
  | .tile _ _ => false

/-- The reason for which hart `h` is parked has cleared: the instruction may run again from its start. Waits that an event
ends, with the instruction's completion or its trap, are never cleared here. -/
def cleared (s : State) (h : HartId) (r : Reason) : Bool :=
  let x := getHart s h
  let tn := (tileOf? h).getD 0
  let t := getTile s tn
  let i : Fin 10 := Fin.ofNat 10 (slotOf h)
  match r with
  | .reg q => regFull s h q
  | .outFull => decide ((openOps s.cycle x).length < 4)
  | .drain | .trap _ _ => x.out == []
  | .fenced lb => fenceClear s h lb
  | .order a => !x.out.any fun o => opTouches o a
  | .pair u => pairFlights s tn u == []
  | .acks => !x.out.any isStoreOp
  | .wordRetry _ _ due => due == 0
  | .wordAgain _ _ n => !(allHartIds s).any (againBefore s n)
  | .held u _ _ _ n => !switchedOut s (hartCtx s h) u && !(allHartIds s).any (heldBefore s u n)
  | .loading u => match groupAt s (hartCtx s h) u with
    | some g => g.st == .running
    | none => true
  | .waking u => !lSleeps s u
  | .page c vpn => !pageAsked (s.dies.get (hartDie h)) ⟨c, vpn⟩
  | .barAhead k gen => t.gen.get (barIdx k) != gen
  | .mail => !t.mbox.isEmpty && (!t.mwait.contains i || mailTurn t i)
  | .mailTag => mailTurn t i && (t.mbox.any (·.tag == t.mnext) || decide (t.mbox.length ≥ 32))
  | .engine m => (maskEngines m).all (seqIdle s tn)
  | .rdv => x.fork == []
  | .gradQueue pa push => queueCleared s h pa push && !slotEnded s h
  | .word _ _ | .deadline _ | .step _ | .bar _ _ _ | .post _ _ | .mesh _ | .spawn _ | .putrRetry _ | .ring _ _ | .remote _
  | .fence _ | .slot _ _ | .closing _ => false

/-- A hart has something to execute: it is *ready*, or its reason has cleared. -/
def runnable (s : State) (h : HartId) : Bool :=
  match (getHart s h).status with
  | .ready => true
  | .parked r => cleared s h r
  | .free | .inline | .trapped | .posting _ _ _ => false

/-- The end of a wait keeps a parked hart until it runs: all but that of a trap, which is taken in place of an instruction (R51). -/
def latches (r : Reason) : Bool :=
  match r with
  | .trap _ _ => false
  | _ => true

/-- A parked hart whose reason has cleared becomes *ready* (R51): what comes back before it issues does not park it again. -/
def wakeHart (s : State) (h : HartId) (x : Hart) : Hart :=
  match x.status with
  | .parked r => if latches r && hartHere s h && cleared s h r then { x with status := .ready, why := some r } else x
  | _ => x

/-- What the short instruction that holds a slot waits for has come about (R54). -/
def slotDone (s : State) (h : HartId) (w : SlotWait) : Bool :=
  let x := getHart s h
  match w with
  | .drain => x.out == []
  | .acks => !x.out.any isStoreOp
  | .order a => !x.out.any fun o => opTouches o a
  | .pair u => pairFlights s ((tileOf? h).getD 0) u == []
  | .flags => !(openOps s.cycle x).any (·.fp)

/-- The word of the short instruction that holds the slot of a hart and is to take effect now (R54). -/
def heldWord (s : State) (h : HartId) : Option Nat :=
  match (getHart s h).status with
  | .parked (.slot w word) => if hartHere s h && slotDone s h w then some word else none
  | _ => none

/-- A thread that an answer or an acknowledgement keeps in its slot is *ready*, and no candidate (R54). -/
def holdsSlot (r : Reason) : Bool :=
  match r with
  | .fence _ | .remote _ | .slot _ _ | .closing _ => true
  | _ => false

/-- A hart is *ready*, or its reason has cleared; or it holds its slot (R54). -/
def countsReady (s : State) (h : HartId) : Bool :=
  runnable s h || match (getHart s h).status with
    | .parked r => holdsSlot r
    | _ => false

/-- The tile of a hart lets it issue: its group is *running*, no switch bars it, and it is awake (R64, R269). -/
def tileLets (s : State) (h : HartId) : Bool :=
  match h with
  | .tile t _ => tileRuns s t && !issueBarred s t && !(getTile s t).asleep && decide ((getTile s t).wakeAt ≤ s.cycle)
  | .mender _ _ => true

/-- A hart may issue in this cycle: 4 cycles after its last issue, with a shadow left of every outstanding operation, and not
after a YIELD that others have still to answer (R53, R59, R80). -/
def candidate (s : State) (h : HartId) : Bool :=
  let x := getHart s h
  runnable s h && tileLets s h && (openOps s.cycle x).all (fun o => decide (0 < o.left)) && x.yield.isEmpty &&
    match x.issued with
    | some c => decide (c + 4 ≤ s.cycle)
    | none => true

/-- A trap that waited for the outstanding operations is taken in place of an instruction (R63). -/
def dueTrap (s : State) (h : HartId) : Option (Nat × Word) :=
  match (getHart s h).status with
  | .parked (.trap cause val) => if (getHart s h).out = [] then some (cause, val) else none
  | _ => none

/-- The slots that a YIELD still waits for, after this step: those that are *ready* and have not issued since (R80). What YIELD
noted of slots that were not *ready* goes here too, at the end of its own step. -/
def pruneYield (s : State) (t : Nat) (x : Tile) (issued : Option (Fin 10)) : Tile :=
  { x with harts := vmap x.harts fun h =>
      if h.yield = [] then h
      else { h with yield := h.yield.filter fun i => some i != issued && countsReady s (.tile t i) } }

end Sys2Proof.Machine
end

