-- ==== Sys2Proof/Machine/Device.lean ====
section
/-! DEFINITION. The device and its host: bring-up, attestation, sensors, registers, arm aliases, reward windows, host accesses,
power, the darner (R64, R96, R123, R259, R301, R318, R324, R325, R334, R341 to R347; log 6, log 23). -/

namespace Sys2Proof.Machine

/-! ## Bring-up (R343, R344) -/

/-- The boot ROM accepts the public key: its digest is the fused one (R344). -/
def keyAccepted (s : State) : Bool := Config.sha3 1312 s.bootKey == s.keyFuse

/-- The failing check of an image: fcode 1 digest, 2 signature, 3 version (R344). -/
def imageCode (s : State) (x : Image) : Nat :=
  if Config.sha3 x.len x.body ≠ x.digest then 1
  else if !keyAccepted s || !Config.verifies s.bootKey x.digest x.sig then 2
  else if x.ver < s.rollback then 3
  else 0

/-- A port's own version and features: CXL 3, and bits for standard and latency-optimised 256-byte flits, back-invalidate, port
interleave and IDE (R324; the numbers are the model's, log 6). -/
def portVersion : Nat := 3
def portFeatures : Nat := 31

/-- A port trains, on its own, to the highest version and the features that both sides support (R8): CXL 3.x with one of the two 256-byte
flit modes, for nothing else is supported (R324). -/
def trainPort (p : Port) : Port :=
  match p.offer with
  | some o =>
    if o.1 < portVersion ∨ o.2 % 4 = 0 then { p with up := false }
    else { p with up := true, ver := min portVersion o.1, feat := o.2 &&& portFeatures, keys := [] }
  | none => { p with up := false }

/-- The images that bring-up loads: those before the first that is refused; each runs at the highest version that both sides support
(R8, R343, R344). -/
def loadImages (s : State) : List Image → List Image
  | [] => []
  | x :: r =>
    if imageCode s x ≠ 0 then x :: r else { x with runs := some (min (Config.imageVersion x.kind) x.ver) } :: loadImages s r

/-- A host access reaches device memory through a port that is up and has negotiated back-invalidate (R324). -/
def hostCoherent (s : State) : Bool := vany s.ports fun p => p.up && bitAt p.feat 2

/-- Both host ports after their training. -/
def trainPorts (s : State) : State := { s with ports := vmap s.ports trainPort }

/-- A host port is *up*: the device has a host. -/
def hostUp (s : State) : Bool := (hostPort s).isSome

/-- The fcode of bring-up; 0 when every step passes: images in order, stacks, host ports (R343, R345). Where one port trains, it carries
all traffic (R324; log 6). -/
def bringUpCode (s : State) : Nat :=
  let c := (s.images.map (imageCode s)).find? (· != 0)
  c.getD (if !s.stacksOk then 4 else if !hostUp (trainPorts s) then 5 else 0)

/-- Step 2 of bring-up: device memory is zero, *full* and without poison, and the error blocks are clear (R343). -/
def clearDevice (s : State) : State :=
  { s with mem := s.mem.filter (fun c => !isDevice c.1), gEmpty := [],
           gPoison := s.gPoison.filter (fun l => !isDevice (l * 64)), gLatent := s.gLatent.filter (fun l => !isDevice (l.1 * 64)),
           dies := vmap s.dies fun d => { d with err := Die.reset.err } }

/-- BRING_UP (R343): on a failure the later steps do not run. -/
def execBringUp (s : State) : Out :=
  if s.boot ≠ 0 then .next s
  else
    let c := bringUpCode s
    let s := if c = 0 ∨ c = 5 then clearDevice s else s
    let s := { s with images := loadImages s s.images }
    if c = 0 then .next { trainPorts s with boot := 1, links := Vector.replicate 16 Link.reset }
    else .next { s with boot := 2, fcode := BitVec.ofNat 6 c }

/-! ## Attestation (R346) -/

/-- A write of ATT = 1: the nonce and devid are taken, or the start is refused. -/
def startAttestation (s : State) : State :=
  if s.abusy then { s with aerr := true } else { s with abusy := true, attest := some (s.nonce, s.devid) }

/-- ATTESTATION_START (R346). -/
def execAttestationStart (s : State) : Out := .next (startAttestation s)

/-- Parts of given sizes in bytes, one after the other, as one value. -/
def joinParts (l : List (Nat × Nat)) : Nat := l.foldr (fun p n => p.2 % 256 ^ p.1 + 256 ^ p.1 * n) 0

/-- The length of parts in bytes. -/
def partsLen (l : List (Nat × Nat)) : Nat := l.foldl (fun n p => n + p.1) 0

/-- The parts of a report before its signature: nonce, devid, digest and version of every loaded image, in load order, public key
(R346). The sizes of devid and of a version are the model's (log 23). -/
def signedParts (s : State) (nonce : BitVec 256) (id : BitVec 16) : List (Nat × Nat) :=
  [(32, nonce.toNat), (2, id.toNat)] ++ (s.images.filter (·.runs.isSome)).flatMap (fun i => [(32, i.digest), (4, i.ver)]) ++ [(1312, s.idPub)]

/-- The report, with its signature over the digest of everything before it (R346). -/
def reportParts (s : State) (nonce : BitVec 256) (id : BitVec 16) : List (Nat × Nat) :=
  let l := signedParts s nonce id
  l ++ [(2420, Config.sign s.idKey (Config.sha3 (partsLen l) (joinParts l)))]

/-- ATTESTATION_DONE (R346): the report is written, and ABUSY is cleared. -/
def execAttestationDone (s : State) : Out :=
  match s.abusy, s.attest with
  | true, some a => .next { s with abusy := false, report := some (reportParts s a.1 a.2), attest := none }
  | true, none => .next { s with abusy := false }
  | false, _ => .next s

/-! ## Junction sensors (R342, R347) -/

/-- A sensor has reached 105 °C: TRIP is set, and the host is told. -/
def tripped (s : State) : State := sendMsi { s with trip := true } s.tvec.toNat none

/-- The sensors that are at or above 105 °C are now those of a list. -/
def senseHot (s : State) (l : List (Nat × Nat)) : State :=
  { s with dies := Vector.ofFn fun d => { s.dies.get d with hot := Vector.ofFn fun i => l.contains (d.val, i.val) } }

/-- A sensor of a list was below 105 °C before. -/
def newlyHot (s : State) (l : List (Nat × Nat)) : Bool :=
  l.any fun x => x.1 < 4 && x.2 < 4 && !(s.dies.get (Fin.ofNat 4 x.1)).hot.get (Fin.ofNat 4 x.2)

/-- THERMAL_TRIP (R342): a sensor has reached 105 °C, or the sensors have changed: `hot` names all that are at or above it. -/
def execThermalTrip (s : State) : Out :=
  match s.ev with
  | .dieSensor d i =>
    let d := Fin.ofNat 4 d
    let x := s.dies.get d
    .next (tripped { s with dies := s.dies.set d { x with hot := x.hot.set (Fin.ofNat 4 i) true } })
  | .hot l => .next (if newlyHot s l then tripped (senseHot s l) else senseHot s l)
  | _ => .next s

/-- TRIP clears, and is set again while a sensor stays at or above 105 °C. -/
def clearTrip (s : State) : State := { s with trip := vany s.dies fun d => vany d.hot id }

/-- TRIP_CLEAR (R342, R347): `hot`, where given, names the sensors that are then at or above 105 °C; the clear comes before what a sensor
that reaches it does. -/
def execTripClear (s : State) : Out :=
  match s.ev with
  | .hot l =>
    let y := clearTrip (senseHot s l)
    .next (if newlyHot s l then tripped y else y)
  | _ => .next (clearTrip s)

/-! ## Registers (R300, R325, R345, R346) -/

/-- A write of devstat: devid is RW, TRIP and AERR are RC (R345). -/
def writeDevstat (s : State) (v : Nat) : State :=
  let s := { s with devid := BitVec.ofNat 16 (bits v 16 16), aerr := s.aerr && !bitAt v 10 }
  if bitAt v 8 then clearTrip s else s

/-- A write of devctl: tvec is RW, and ATT starts attestation (R345, R346). -/
def writeDevctl (s : State) (v : Nat) : State :=
  let s := { s with tvec := BitVec.ofNat 11 (bits v 16 11) }
  if bitAt v 0 then startAttestation s else s

/-- A write of the doubleword that holds dper (R300); what a value above 8,760 leaves there the spec does not say (log 9). -/
def writeDper (s : State) (d : Fin 4) (v : Nat) : State :=
  let n := bits v 0 16
  let (s, k) := nextFree s
  countErr s d fun e => { e with dper := if n ≤ 8760 then n else Config.freeWord k % 2 ^ 16 }

/-- The number of a link state. -/
def linkCode (x : LinkSt) : Nat :=
  match x with
  | .down => 0
  | .training => 1
  | .up => 2

/-- The link status word (R331). -/
def linkStatus (x : Link) : Nat :=
  linkCode x.st + x.ver % 4 * 2 ^ 2 + x.width % 16 * 2 ^ 4 + x.good.toNat * 2 ^ 8 + x.maxw % 16 * 2 ^ 16 + x.peer.toNat * 2 ^ 32 +
    x.downs % 65536 * 2 ^ 48

/-- devstat as it reads (R345). -/
def devstatOf (s : State) : Nat :=
  s.boot.toNat + s.fcode.toNat * 2 ^ 2 + b2n s.trip * 2 ^ 8 + b2n s.abusy * 2 ^ 9 + b2n s.aerr * 2 ^ 10 + s.devid.toNat * 2 ^ 16

/-- devctl as it reads: ATT is WO (R345). -/
def devctlOf (s : State) : Nat := s.tvec.toNat * 2 ^ 16

/-- Doubleword `i` of an error block (R300). -/
def errWord (e : ErrBlock) (i : Nat) : Nat := [e.sce, e.sue, e.mce, e.mue, e.lcrc, e.hdr, e.dpass, e.dper, e.rlost].getD i 0

/-- The bytes of the attestation report; none before the first (R346). -/
def reportOf (s : State) : Nat := joinParts (s.report.getD [])

/-- Doubleword `i` of the register space, at offset 8 × i, as the host reads it (R325). The nonce reads as it was written (log 23);
what no field holds reads zero (R3). -/
def regWord (s : State) (i : Nat) : Nat :=
  if i = 0 then devstatOf s
  else if i = 1 then devctlOf s
  else if 8 ≤ i ∧ i < 12 then bits s.nonce.toNat (64 * (i - 8)) 64
  else if 0x200 ≤ i ∧ i < 0x2000 then bits (reportOf s) (64 * (i - 0x200)) 64
  else if 0x2000 ≤ i ∧ i < 0x2080 then errWord (s.dies.get (Fin.ofNat 4 ((i - 0x2000) / 32))).err (i % 32)
  else if 0x2080 ≤ i ∧ i < 0x2100 then (if i % 8 = 0 then linkStatus (getLink s ((i - 0x2080) / 8)) else 0)
  else if 0x2100 ≤ i ∧ i < 0x3100 then (alGet s.msixTab (i - 0x2100)).getD 0
  else 0

/-- The host sets an IDE key of a port through CXL.io (R324): a stream that the port does not have is an unsupported request. -/
def setIdeKey (s : State) (p stream key : Nat) : State :=
  let i := Fin.ofNat 2 p
  let x := s.ports.get i
  if x.up && bitAt x.feat 4 && decide (p < 2 ∧ stream < 2) then
    { s with ports := s.ports.set i { x with keys := alSet x.keys stream key } }
  else { s with hostGot := some .unsupported }

/-- REGISTER_WRITE: an 8-byte write of the host in the register space, or a read of it, or an IDE key that it sets (R324, R325, R345;
log 23). -/
def execRegisterWrite (s : State) : Out :=
  match s.ev with
  | .ideKey p stream key => .next (setIdeKey s p stream key)
  | .regRead off => .next { s with hostGot := some (.data (regWord s (off / 8)) false) }
  | .reg off v =>
    if off = 0 then .next (writeDevstat s v.toNat)
    else if off = 8 then .next (writeDevctl s v.toNat)
    else if 0x40 ≤ off ∧ off < 0x60 ∧ off % 8 = 0 then
      .next { s with nonce := BitVec.ofNat 256 (putBits s.nonce.toNat (8 * (off - 0x40)) 64 v.toNat) }
    else if 0x1_0000 ≤ off ∧ off < 0x1_0400 ∧ off % 256 = 0x38 then
      .next (writeDper s (Fin.ofNat 4 ((off - 0x1_0000) / 256)) v.toNat)
    else if 0x1_0800 ≤ off ∧ off < 0x1_8800 ∧ off % 8 = 0 then
      .next { s with msixTab := alSet s.msixTab ((off - 0x1_0800) / 8) v.toNat }
    else .next s
  | _ => .next s

/-! ## The alias region (R259, R318, R324) -/

/-- The range offset of the alias region. -/
def aliasBase : Nat := 0xC0_0000_0000

/-- The context that owns the slot of an offset in the alias region. -/
def slotOwner (s : State) (off : Nat) : Option Nat :=
  let c := off / 2 ^ 16
  if c ≠ 0 ∧ (alGet s.ctxs c).any (fun x => !x.destroyed) then some c else none

/-- A store that its context owns and the region does not take: a report of kind 8 (R259, R368). -/
def aliasDropped (s : State) (c off size : Nat) : State := unitReport s 0 c 8 0 0 (w64 (aliasBase + off)) size 0

/-- An arm alias store writes the arm word and sets it *full*, or waits for its page. The spec names no die whose walkers, TLB and page
requests serve it, and whose report block counts a report of it that is dropped: the model takes die 0, whatever the queue's die (DESIGN
CHOICE; log 22). -/
def armQueue (s : State) (c q : Nat) (v : Word) : State :=
  let s := actFor (.arm c q) s
  let e := entryVa s c q
  match unitReady s 0 c .write [e] with
  | (s, some _) => { s with armPend := s.armPend ++ [(c, q, v)] }
  | (s, none) => unitSettled (unitPut s 0 c 0 e e fun s pa => hwFill s pa v.toNat) 0

/-- The first arm alias store that waits for no page any more. -/
def armRetry (s : State) : Option (Nat × Nat × Word) := s.armPend.find? fun p => !unitWaits s (.arm p.1 p.2.1)

/-- A store of the host to the arm alias or a reserved part of a slot (R259). -/
def aliasStore (s : State) (off size : Nat) (v : Word) : State :=
  match slotOwner s off with
  | none => s
  | some c =>
    let o := off % 2 ^ 16
    if o ≥ 0x9000 then s
    else if o < 0x8000 ∧ o % 8 = 0 ∧ size = 8 ∧ (alGet s.ctxs c).any (fun x => decide (o / 8 < x.qcnt)) then armQueue s c (o / 8) v
    else aliasDropped s c off size

/-- ARM_ALIAS_STORE (R259): a store of the host; without data, a store that waited for its page goes on. -/
def execArmAliasStore (s : State) : Out :=
  match s.ev with
  | .armStore off size v => .next (aliasStore s off size v)
  | .none =>
    match armRetry s with
    | some (c, q, v) => .next (armQueue { s with armPend := s.armPend.filter (· != (c, q, v)) } c q v)
    | none => .next s
  | _ => .next s

/-- A store of the host to a reward window (R318). -/
def windowStore (s : State) (off size : Nat) (l : List Word) : State :=
  match slotOwner s off with
  | none => s
  | some c =>
    let o := off % 2 ^ 16
    let dw (i : Nat) : Word := l.getD i 0
    if o < 0x8000 ∨ 0x9000 ≤ o then s
    else if off % 64 = 0 ∧ size = 64 ∧ (l.drop 3).all (· == 0) ∧ (dw 2).toNat < 2 ^ 32 then
      enqueueReward s ⟨{ rewardOf c (dw 0) (dw 1) (dw 2) with dom := dw 0 }, none, none, false, 0, none, []⟩
    else aliasDropped s c off size

/-- REWARD_WINDOW_WRITE (R318). -/
def execRewardWindowWrite (s : State) : Out :=
  match s.ev with
  | .window off size l => .next (windowStore s off size l)
  | _ => .next s

/-! ## The host's memory accesses (R96, R123, R285, R297) -/

/-- The host writes `n` bytes within a line. -/
def hostWrite (s : State) (pa n v : Nat) (bad : Bool) : State :=
  let s := physWrite s pa n v
  if bad then { s with gPoison := insNat s.gPoison (pa / 64) } else s

/-- The offset of an address in the alias region (R259, R324). -/
def aliasOff (pa : Nat) : Option Nat :=
  let off := pa - Config.hdmBase
  if Config.hdmBase ≤ pa ∧ aliasBase ≤ off ∧ off < aliasBase + 2 ^ 32 then some (off - aliasBase) else none

/-- The host is told what it asked for. -/
def hostTold (s : State) (a : HostAnswer) : State := { s with hostGot := some a }

/-- A host read of device memory; poison comes back with the CXL poison indication (R297). -/
def hostRead (s : State) (pa n : Nat) : State :=
  hostTold (wakeSlice s pa) (.data (memRead s.mem pa n) (physPoison s pa n))

/-- A store of the host to the alias region, of `n` bytes (R259, R318). -/
def hostAlias (s : State) (off n v : Nat) : State :=
  if 0x8000 ≤ off % 2 ^ 16 ∧ off % 2 ^ 16 < 0x9000 then windowStore s off n ((List.range (n / 8)).map fun i => w64 (bits v (64 * i) 64))
  else aliasStore s off n (w64 v)

/-- An atomic addition of the host, which has the line to itself (R123): it is told what it found. -/
def hostAdds (s : State) (pa n v : Nat) (put : State → Nat → State) : State :=
  let old := memRead s.mem pa n
  hostTold (put s ((old + v) % 256 ^ n)) (.data old (physPoison s pa n))

/-- HOST_MEM_ACCESS (R96, R123, R259, R297, R324): full/empty states stay as they are; reads of the alias region give zero; what lies
outside the range, or comes without back-invalidate, is answered as an unsupported request. -/
def execHostMemAccess (s : State) : Out :=
  if !hostUp s then .next s
  else if !hostCoherent s then .next (hostTold s .unsupported)
  else
    match s.ev with
    | .hostMem pa n data bad =>
      match isDevice pa, aliasOff pa, data with
      | true, _, some v => .next (hostWrite s pa n v bad)
      | true, _, none => .next (hostRead s pa n)
      | false, some off, some v => .next (hostAlias s off n v)
      | false, some _, none => .next (hostTold s (.data 0 false))
      | false, none, _ => .next (hostTold s .unsupported)
    | .hostAdd pa n v =>
      if isDevice pa then .next (hostAdds s pa n v fun s x => hostWrite s pa n x false) else .next (hostTold s .unsupported)
    | _ => .next s

/-- The host takes a line of its memory back; it may write it then. -/
def hostTakes (s : State) (pa n : Nat) (data : Option Nat) (bad : Bool) : State :=
  let s := dropLine s (pa / 64)
  match data with
  | some v =>
    let s := { s with mem := memWrite s.mem pa n v }
    let s := if n ≥ 64 then { s with gPoison := delNat s.gPoison (pa / 64) } else s
    let s := if bad then { s with gPoison := insNat s.gPoison (pa / 64) } else s
    { s with hostHeld := delNat s.hostHeld (pa / 64) }
  | none => { s with hostHeld := delNat s.hostHeld (pa / 64) }

/-- HOST_LINE_SNOOP (R123, R108): the host takes back a line of its memory that a slice holds; it may read, write or add to it then. -/
def execHostLineSnoop (s : State) : Out :=
  match s.ev with
  | .hostMem pa n data bad => if isDevice pa then .next s else .next (hostTakes s pa n data bad)
  | .hostAdd pa n v =>
    if isDevice pa then .next s else .next (hostAdds s pa n v fun s x => hostTakes s pa n (some x) false)
  | .key line => .next { s with hostHeld := delNat s.hostHeld line }
  | _ => .next s

/-- TABLE_LINE_SNOOP (R285): every die drops what it built from the line; a walk is one action here (log 11). -/
def execTableLineSnoop (s : State) : Out :=
  match s.ev with
  | .hostMem pa n data bad => if isDevice pa then .next s else .next (hostTakes s pa n data bad)
  | .key line => .next (dropLine s line)
  | _ => .next s

/-- HOST_PORT_DOWN (R324). -/
def execHostPortDown (s : State) : Out :=
  match s.ev with
  | .key p =>
    if p < 2 then
      let i := Fin.ofNat 2 p
      .next { s with ports := s.ports.set i { s.ports.get i with up := false } }
    else .next s
  | _ => .next s

/-! ## Power (R64, R341) -/

/-- Slices whose last access is at least `n` cycles ago. -/
def quietSlices (s : State) (n : Nat) : List Nat :=
  (List.range 128).filter fun i => decide ((alGet s.lastReq i).getD 0 + n ≤ s.cycle)

/-- A home channel has had no request for 1 µs and is not yet down. -/
def channelDue (s : State) : Bool := decide (2400 ≤ s.cycle) && (quietSlices s 2400).any fun i => !s.chanDown.contains i

/-- HOME_CHANNEL_POWER_DOWN (R341). -/
def execHomeChannelPowerDown (s : State) : Out := .next { s with chanDown := (quietSlices s 2400).foldl insNat s.chanDown }

/-- A slice has had no access for 10 µs and is not yet in self-refresh. -/
def refreshDue (s : State) : Bool := decide (24000 ≤ s.cycle) && (quietSlices s 24000).any fun i => !s.selfRefresh.contains i

/-- SELF_REFRESH_ENTRY (R341). -/
def execSelfRefreshEntry (s : State) : Out := .next { s with selfRefresh := (quietSlices s 24000).foldl insNat s.selfRefresh }

/-- No slot of the tile is *ready* or has a reason that has cleared, and no engine of it runs (R64). R64 speaks of the slots and engines
alone: here a tile is awake, too, while a long operation of one of its harts is to complete (DESIGN CHOICE; log 43). -/
def tileStill (s : State) (t : Nat) : Bool :=
  let x := getTile s t
  !(List.finRange 10).any (fun i => countsReady s (.tile t i)) && !(vany x.harts fun h => h.status != .free && h.out.any (·.await == .time)) &&
    !x.copies.any (fun c => c.st == .moving && c.page.isNone)

/-- A hart has an access to the L-store of tile `t` under way, or waits for the wake of it. -/
def comesTo (t : Nat) (x : Hart) : Bool :=
  x.status == .parked (.waking t) || x.out.any fun o => (opAccess o).any fun a => a.tile == some t

/-- A copy is to read or write the L-store of tile `t`, and would find it asleep in state `s`. -/
def copyComes (s : State) (t : Nat) : Bool :=
  s.tiles.any fun x => (movable x.2).any fun c => sleepingEnd s x.1 (copyTarget x.1 c) c == some t

/-- A claim-ticket table or a wringer of die `d` is to push into the L-store of tile `t`, and would find it asleep in state `s`. -/
def pushComes (s : State) (t : Nat) (d : Fin 4) : Bool :=
  ((s.dies.get d).arrivals.take 1).any (fun a => arrivalSleeps s d a == some t) || (s.dies.get d).eps.any fun e =>
    e.st == .releasing && match peekPa s e.ctx (releaseQueue e) .readWrite with
      | .ok pa => pushSleeps s e.ctx (memRead s.mem pa 8) == some t
      | _ => false

/-- An access to the L-store of a tile is under way, or waits for its wake (R64). -/
def accessComes (s : State) (t : Nat) : Bool :=
  s.tiles.any (fun x => vany x.2.harts (comesTo t)) || s.menders.any (fun x => vany x.2.harts (comesTo t)) ||
    ((getTile s t).sleepDepth == 2 &&
      let z := modTile s t fun x => { x with asleep := true }
      copyComes z t || (List.finRange 4).any (pushComes z t))

/-- A tile goes to sleep. -/
def sleepDue (s : State) (t : Nat) : Bool := tileRuns s t && !(getTile s t).asleep && tileStill s t && !accessComes s t

/-- TILE_SLEEP (R64). -/
def execTileSleep (s : State) : Out :=
  match s.ev with
  | .tile t => if sleepDue s t then .next (modTile s t fun x => { x with asleep := true }) else .next s
  | _ => .next s

/-- The wake latency of a sleep depth in cycles (R64). -/
def wakeLatency (d : BitVec 2) : Nat := if d = 0 then 4 else if d = 1 then 64 else 960

/-- A sleeping tile has something to do. -/
def wakeDue (s : State) (t : Nat) : Bool := tileRuns s t && (getTile s t).asleep && !tileStill s t

/-- TILE_WAKE (R64). -/
def execTileWake (s : State) : Out :=
  match s.ev with
  | .tile t =>
    if wakeDue s t then
      .next (modTile s t fun x => { x with asleep := false, wakeAt := s.cycle + wakeLatency x.sleepDepth })
    else .next s
  | _ => .next s

/-- A mender's clock is gated: all its slots are *free* (R341). -/
def menderGated (x : Mender) : Bool := !vany x.harts fun h => h.status != .free

/-! ## The darner (R301) -/

/-- The line that is the `k`-th of a die's four stacks: 32 slices of 256 bytes in every 32 KiB (R15). -/
def darnLine (d : Fin 4) (k : Nat) : Nat := Config.hdmBase / 64 + k / 128 * 512 + d.val * 128 + k % 128

/-- The lines of a die's stacks. -/
def darnLines : Nat := devSize / 64 / 4

/-- The next line of a die's darner is due: a pass takes dper hours. -/
def darnDue (s : State) (d : Fin 4) : Bool :=
  let x := s.dies.get d
  x.err.dper != 0 && decide (x.darnAt + x.err.dper * 3600 * 2400000000 / darnLines ≤ s.cycle)

/-- DARNER_LINE (R301): the next line of a die is checked. -/
def execDarnerLine (s : State) : Out :=
  match s.ev with
  | .die k =>
    let d := Fin.ofNat 4 k
    if !darnDue s d then .next s
    else
      let line := darnLine d (s.dies.get d).darn
      let s := findError (wakeSlice s (line * 64)) line
      let x := s.dies.get d
      let wrap := decide (x.darn + 1 ≥ darnLines)
      let e := if wrap then { x.err with dpass := satAdd x.err.dpass } else x.err
      let y := { x with darn := if wrap then 0 else x.darn + 1, darnAt := s.cycle, err := e }
      .next { s with dies := s.dies.set d y }
  | _ => .next s

/-! ## The escape channel (R334) -/

/-- A message is the next of its pair of tiles to be delivered (R334); what a tile sends to itself keeps its order in the loop-back
port. -/
def pairTurn (s : State) (m : Msg) : Bool :=
  match tileOf? m.hart with
  | some t =>
    if t = m.target then !(s.msgs.takeWhile (·.id != m.id)).any fun x => tileOf? x.hart == some t && x.target == t
    else pairNext s t m.target m.since
  | none => true

/-- What tile `t` sent to tile `u` at cycle `n`, and is blocked since cycle `b`, enters the escape channel: it has been blocked for the
escwait cycles of its source tile, or follows one of its pair that is in it (R334; log 14). -/
def escapesNow (s : State) (t u n b : Nat) : Bool :=
  decide (b + (getTile s t).escwait.toNat ≤ s.cycle) || pairEscaped s t u n

/-- A message enters the escape channel. -/
def escapeDue (s : State) (m : Msg) : Bool := !m.escape && escapesNow s ((tileOf? m.hart).getD 0) m.target m.since m.since

/-- An access enters the escape channel: it reached its target's router at its due cycle, and has been blocked there. -/
def opEscapes (s : State) (h : HartId) (o : LongOp) : Bool :=
  match tileOf? h, opAccess o with
  | some t, some a => match a.tile with
    | some u => u != t && !a.escape && escapesNow s t u a.sent o.due
    | none => false
  | _, _ => false

/-- An operation whose access is in the escape channel. -/
def escapedOp (o : LongOp) : LongOp :=
  match o.fx with
  | .load a w => { o with fx := .load { a with escape := true } w }
  | .store a v => { o with fx := .store { a with escape := true } v }
  | .none | .words _ | .rows _ | .ring _ _ _ | .opt _ => o

/-- ESCAPE_ENTRY (R334). -/
def execEscapeEntry (s : State) : Out :=
  match s.ev with
  | .msg id =>
    let l := s.msgs.map fun m => if (m.id == id && escapeDue s m) then { m with escape := true } else m
    .next { s with msgs := l }
  | .op h i => .next (modHart s h fun x => { x with out := x.out.modify i fun o => if opEscapes s h o then escapedOp o else o })
  | _ => .next s

end Sys2Proof.Machine
end

