-- ==== Sys2Proof/Machine/Link.lean ====
section
/-! DEFINITION. Device links: states, training, widths, flits, LKCTL, and what a link that goes *down* leaves (R298, R299, R326 to
R332, R335, R340, R347; log 24). -/

namespace Sys2Proof.Machine

/-- Replaces a link. -/
def setLink (s : State) (l : Nat) (x : Link) : State := { s with links := s.links.set (Fin.ofNat 16 l) x }

/-- The die of a link (R17). -/
def linkDie (l : Nat) : Fin 4 := Fin.ofNat 4 (l / 4)

/-- The device's own highest link version (R327). -/
def linkVersion : Nat := 3

/-- The number of healthy wavelengths. -/
def healthyCount (g : BitVec 8) : Nat := ((List.range 8).filter fun i => g.getLsbD i).length

/-- The stripe width of `n` wavelengths: the largest of 8, 4, 2 and 1 that does not exceed it (R328). -/
def stripeOf (n : Nat) : Nat := if n ≥ 8 then 8 else if n ≥ 4 then 4 else if n ≥ 2 then 2 else if n = 1 then 1 else 0

/-- The largest width that a link may take (R328). -/
def maxWidth (x : Link) : Nat := stripeOf (min (healthyCount x.good) x.maxw)

/-! ## Going down and training (R326, R327) -/

/-- The members that a link reaches are marked *down* in every group (R335). -/
def membersDown (s : State) (l : Nat) : State :=
  { s with collGroups := s.collGroups.map fun g =>
      { g with down := (List.range g.n).foldl (fun d k => if k ≠ g.rank ∧ g.mem.getD k 255 = l then insNat d k else d) g.down } }

/-- The RWSENDs that wait for an answer through a link complete, poisoned, which their harts report (R299, R318, R326). -/
def rewardsEnd (s : State) (l : Nat) : State :=
  let gone := s.rewards.filter (·.link == l)
  gone.foldl (fun s r => match (getHart s r.hart).status with
    | .parked (.remote id) => if id = r.id then complete (poisonReport s r.hart 2 r.msg.dom) r.hart r.next else s
    | _ => s) { s with rewards := s.rewards.filter (·.link != l) }

/-- A link goes *down*: what was queued is lost with it (R326, R340). -/
def linkDown (s : State) (l : Nat) : State :=
  let x := getLink s l
  let x := { x with st := .down, ver := 0, width := 0, rxWidth := 0, downs := min (x.downs + 1) 65535, wake := none, queue := [],
                    part := 0, wideSince := none, narrowSince := none, fails := [] }
  rewardsEnd (membersDown (setLink s l x) l) l

/-- The wavelengths of a link (R17). -/
def linkWaves : Nat := 8

/-- Training begins: devid is read, every wavelength is to be tested, and this side of the capability exchange is sent (R326, R327,
R347). -/
def linkTrain (s : State) (l : Nat) : State :=
  { setLink s l { getLink s l with st := .training, train := s.cycle, devid := s.devid } with
    sentFlits := (l, .hello linkVersion s.devid linkWaves) :: s.sentFlits }

/-- LINK_TRAINING_DONE (R326, R327): wavelengths have passed and the peer has answered with its version, identity and wavelength
count. -/
def execLinkTrainingDone (s : State) : Out :=
  match s.ev with
  | .trained l good ver peer waves =>
    let x := getLink s l
    if x.st != .training || good == 0 || ver == 0 then .next s
    else
      let x := { x with st := .up, ver := min linkVersion ver, good := good, peer := peer, peerWaves := waves, sent := s.cycle, rcvd := s.cycle }
      let x := { x with width := maxWidth x, rxWidth := maxWidth x }
      let s := setLink s l x
      .next (if x.ver < 2 then membersDown s l else s)
  | _ => .next s

/-- 100 ms have passed in training (R326). -/
def trainingOver (s : State) (l : Nat) : Bool := (getLink s l).st == .training && decide ((getLink s l).train + usCycles 100000 ≤ s.cycle)

/-- LINK_TRAINING_TIMEOUT (R326). -/
def execLinkTrainingTimeout (s : State) : Out :=
  match s.ev with
  | .link l => if trainingOver s l then .next (linkDown s l) else .next s
  | _ => .next s

/-- No flit has been received for 10 µs (R326). -/
def linkSilent (s : State) (l : Nat) : Bool := (getLink s l).st == .up && decide ((getLink s l).rcvd + usCycles 10 ≤ s.cycle)

/-- LINK_IDLE_TIMEOUT (R326). -/
def execLinkIdleTimeout (s : State) : Out :=
  match s.ev with
  | .link l => if linkSilent s l then .next (linkDown s l) else .next s
  | _ => .next s

/-! ## Transmission and width (R326, R328, R329) -/

/-- A flit leaves through a link. -/
def sendNow (s : State) (l : Nat) (b : FlitBody) : State :=
  { setLink s l { getLink s l with sent := s.cycle } with sentFlits := (l, b) :: s.sentFlits }

/-- The transmitter has sent nothing for 1 µs (R326). -/
def idleDue (s : State) (l : Nat) : Bool :=
  let x := getLink s l
  x.st == .up && x.queue.isEmpty && decide (x.sent + usCycles 1 ≤ s.cycle)

/-- IDLE_FLIT_SEND (R326). -/
def execIdleFlitSend (s : State) : Out :=
  match s.ev with
  | .link l => if idleDue s l then .next (sendNow s l .idle) else .next s
  | _ => .next s

/-- The queue of a link against its thresholds (R329). -/
def noteQueue (cycle : Nat) (x : Link) : Link :=
  let n := x.queue.length
  { x with wideSince := if x.st == .up && decide (n ≥ x.wide) then some (x.wideSince.getD cycle) else none,
           narrowSince := if x.st == .up && decide (n < x.narrow) then some (x.narrowSince.getD cycle) else none }

/-- The link as a flit leaves: every flit after a control flit travels at the new width (R329). -/
def afterFlit (x : Link) (b : FlitBody) : Link :=
  match b with
  | .widen => { x with width := min (2 * x.width) (stripeOf (healthyCount x.good)) }
  | .narrow => { x with width := max 1 (x.width / 2) }
  | _ => x

/-- The flits that leave with the 24ths of a flit that the wavelengths have carried, at most `n` of them. -/
def sendReady (l : Nat) : Nat → State → State
  | 0, s => s
  | n + 1, s =>
    let x := getLink s l
    match x.queue with
    | [] => setLink s l { x with part := 0 }
    | b :: r =>
      if x.part < 24 then s else sendReady l n (sendNow (setLink s l (afterFlit { x with queue := r, part := x.part - 24 } b)) l b)

/-- One cycle of a link: each wavelength carries 256 Gb/s, so `width` of them carry 5 × width / 24 of a flit (R17). -/
def linkCycle (s : State) (l : Nat) : State :=
  let x := getLink s l
  let s := sendReady l 2 (setLink s l { x with part := x.part + 5 * x.width })
  setLink s l (noteQueue s.cycle (getLink s l))

/-- A control flit goes into the queue at the next stripe boundary: behind a flit that is already partly sent (R329). -/
def insertControl (x : Link) (b : FlitBody) : Link :=
  match x.queue with
  | [] => { x with queue := [b] }
  | q :: r => { x with queue := if x.part = 0 then b :: q :: r else q :: b :: r }

/-- A widen flit that no wavelength has begun to carry goes, where the width may double no more: its wake is abandoned (R329, R340). -/
def dropWiden (x : Link) : Link :=
  if 2 * x.width ≤ maxWidth x then x
  else
    match x.queue with
    | [] => x
    | q :: r => { x with queue := (if q == .widen && x.part == 0 then [] else [q]) ++ r.filter (· != .widen) }

/-- A control flit waits to be sent: the width is about to change. -/
def changing (x : Link) : Bool := x.queue.any fun b => b == .widen || b == .narrow

/-- One cycle of the device links. -/
def linkCycles (s : State) : State :=
  (List.range 16).foldl (fun s l => if (getLink s l).st == .up then linkCycle s l else s) s

/-- The link wakes wavelengths (R329). -/
def widenDue (s : State) (l : Nat) : Bool :=
  let x := getLink s l
  x.st == .up && x.ver == 3 && x.wake.isNone && !changing x && decide (2 * x.width ≤ maxWidth x) &&
    x.wideSince.any fun c => decide (c + usCycles 1 ≤ s.cycle)

/-- LINK_WIDEN (R329): the wake takes 2 µs. -/
def execLinkWiden (s : State) : Out :=
  match s.ev with
  | .link l => if widenDue s l then .next (setLink s l { getLink s l with wake := some (s.cycle + usCycles 2) }) else .next s
  | _ => .next s

/-- A wake has ended. -/
def wakeOver (s : State) (l : Nat) : Bool :=
  (getLink s l).st == .up && (getLink s l).wake.any fun c => decide (c ≤ s.cycle)

/-- WAKE_COMPLETE (R329): the widen flit is inserted, unless the width may no longer double. -/
def execWakeComplete (s : State) : Out :=
  match s.ev with
  | .link l =>
    let x := getLink s l
    if wakeOver s l then
      let x := { x with wake := none }
      .next (setLink s l (if 2 * x.width ≤ maxWidth x then insertControl x .widen else x))
    else .next s
  | _ => .next s

/-- The link narrows: its queue has been short for `hold` µs, or its width is above its maximum (R329, R340). -/
def narrowDue (s : State) (l : Nat) : Bool :=
  let x := getLink s l
  x.st == .up && x.ver == 3 && !changing x && decide (1 < x.width) &&
    (decide (maxWidth x < x.width) || x.narrowSince.any fun c => decide (c + usCycles x.hold ≤ s.cycle))

/-- LINK_NARROW (R329). -/
def execLinkNarrow (s : State) : Out :=
  match s.ev with
  | .link l =>
    let x := getLink s l
    if narrowDue s l then .next (setLink s l (insertControl { x with wake := none } .narrow)) else .next s
  | _ => .next s

/-- A width flit as the receiver takes it; both ends stripe over the healthy wavelengths alone (R328). -/
def takeWidth (x : Link) (widen : Bool) : Link :=
  { x with rxWidth := if widen then min (stripeOf (healthyCount x.good)) (2 * x.rxWidth) else max 1 (x.rxWidth / 2) }

/-- WIDTH_FLIT_RECEIVE (R329): the receive direction changes its width exactly at the flit. -/
def execWidthFlitReceive (s : State) : Out :=
  match s.ev with
  | .widthFlit l widen =>
    let x := getLink s l
    if x.st == .up && x.ver == 3 then .next (setLink s l { takeWidth x widen with rcvd := s.cycle }) else .next s
  | _ => .next s

/-! ## Reception (R298, R299, R318, R328, R332, R335) -/

/-- The healthy wavelengths, lowest first. -/
def healthy (x : Link) : List Nat := (List.range 8).filter fun i => x.good.getLsbD i

/-- The wavelengths that a wake is waking: the next ones of the healthy, lowest first (R328, R329). -/
def wakingLanes (x : Link) : List Nat := if x.wake.isNone then [] else ((healthy x).drop x.width).take x.width

/-- The wavelength on which byte `b` of a flit travels, at a width: one of the active ones, the lowest healthy (R328). -/
def byteLane (x : Link) (width b : Nat) : Nat := (healthy x).getD (b / 8 % width) 0

/-- The wavelengths whose lanes of a received flit failed, from the bytes that were damaged (R328). -/
def hurtLanes (x : Link) (f : Flit) : List Nat := (List.range 8).filter fun i => f.hurt.any fun b => byteLane x x.rxWidth b == i

/-- A wavelength becomes *failed* (R328, R329): a wake of it is abandoned; with none left the link goes *down* (R326). -/
def laneFailed (s : State) (l i : Nat) : State :=
  let x := getLink s l
  let wake := if (wakingLanes x).contains i then none else x.wake
  let x := { x with good := x.good &&& ~~~(1#8 <<< i), wake := wake, fails := x.fails.filter (·.1 != i) }
  let x := { x with width := min x.width (stripeOf (healthyCount x.good)), rxWidth := min x.rxWidth (stripeOf (healthyCount x.good)) }
  let x := dropWiden x
  let s := setLink s l x
  if x.good = 0 then linkDown s l else s

/-- A lane of a flit failed: more than 1,000 of a wavelength within one millisecond fail it (R328). -/
def noteLane (s : State) (l i : Nat) : State :=
  let x := getLink s l
  let fails := (i, s.cycle) :: x.fails.filter fun f => decide (s.cycle < f.2 + usCycles 1000)
  let s := setLink s l { x with fails := fails }
  if 1000 < (fails.filter (·.1 == i)).length then laneFailed s l i else s

/-- The far table has answered: the RWSEND completes (R318). -/
def rewardAnswered (s : State) (l : Nat) (h : HartId) : State :=
  match s.rewards.find? fun r => r.link == l && r.hart == h with
  | some r =>
    let s := { s with rewards := s.rewards.filter (·.id != r.id) }
    match (getHart s h).status with
    | .parked (.remote id) => if id = r.id then complete s h r.next else s
    | _ => s
  | none => s

/-- The reward was lost on the way: the RWSEND completes poisoned, which its hart reports (R299). -/
def rewardLost (s : State) (l : Nat) (h : HartId) : State :=
  match s.rewards.find? fun r => r.link == l && r.hart == h with
  | some r => rewardAnswered (poisonReport s h 2 r.msg.dom) l h
  | none => s

/-- RWSEND_REMOTE_ANSWER (R318): the answer to the RWSEND of identity `k` has come through its link. -/
def execRwsendRemoteAnswer (s : State) : Out :=
  match s.ev with
  | .key k =>
    match s.rewards.find? (·.id == k) with
    | some r => if (getLink s r.link).st == .up then .next (rewardAnswered s r.link r.hart) else .next s
    | none => .next s
  | _ => .next s

/-- A member is *down* for what it sends: to a declaration alone, which has function 0, it may answer again (R335, R336). -/
def memberDown (s : State) (c gid member : Nat) (a : CollAnswer) : Bool :=
  a.f != 0 && s.collGroups.any fun g => g.ctx == c && g.gid == gid && g.down.contains member

/-- What a member of a group sends is kept until its collective takes it (R335, R338). -/
def collArrive (s : State) (c gid seq member : Nat) (a : CollAnswer) : State :=
  if memberDown s c gid member a then s
  else
    { s with collIn := s.collIn ++ [⟨c, gid, seq, member, a⟩],
             colls := s.colls.map fun x =>
               if (x.ctx == c && x.gid == gid && x.seq == seq) then
                 { x with heard := x.heard.map fun p => if p.1 = member then (member, s.cycle) else p }
               else x }

/-- What this device sent for a collective was lost on the way: its collective unit gets a poisoned completion, which it reports (R299). -/
def collFlitLost (s : State) (l c gid seq : Nat) : State :=
  let mine (x : Coll) : Bool := x.st != .issued && x.ctx == c && x.gid == gid && x.seq == seq
  match s.colls.find? mine with
  | some x => unitPoison { s with colls := s.colls.map fun y => if mine y then { y with bad := true } else y } (hartDie x.hart) c x.src.toNat
  | none => unitPoison s (linkDie l) c 0

/-- What a flit carries is passed on; `ok` says that its payload checked (R298). -/
def takeFlit (s : State) (l : Nat) (ok : Bool) (b : FlitBody) : State :=
  match b with
  | .idle | .hello _ _ _ => s
  | .widen => setLink s l (takeWidth (getLink s l) true)
  | .narrow => setLink s l (takeWidth (getLink s l) false)
  | .reward m h => if (getLink s l).ver < 2 then s else enqueueReward s ⟨m, none, some (l, h), !ok, 0, none, []⟩
  | .rewardAnswer h => rewardAnswered s l h
  | .lost h => rewardLost s l h
  | .collLost c gid seq => collFlitLost s l c gid seq
  | .coll c gid seq member a => if (getLink s l).ver < 2 then s else collArrive s c gid seq member (if ok then a else { a with bad := List.range a.words.length })

/-- A flit whose header is lost with both copies: the previous hop is answered with a poisoned completion (R299). -/
def flitLost (s : State) (l : Nat) (b : FlitBody) : State :=
  match b with
  | .reward _ h => queueFlit s l (.lost h)
  | .coll c gid seq _ _ => queueFlit s l (.collLost c gid seq)
  | .idle | .hello _ _ _ | .widen | .narrow | .rewardAnswer _ | .lost _ | .collLost _ _ _ => s

/-- FLIT_RECEIVE (R298, R299, R328): failures are counted on the link's die, and the flit is passed on. -/
def execFlitReceive (s : State) : Out :=
  match s.ev with
  | .flit l f =>
    if (getLink s l).st != .up then .next s
    else
      let s := setLink s l { getLink s l with rcvd := s.cycle }
      let d := linkDie l
      let s := if f.crcOk then s else countErr s d fun e => { e with lcrc := satAdd e.lcrc }
      let s := if f.hdr1Ok then s else countErr s d fun e => { e with hdr := satAdd e.hdr }
      let s := if (f.hdr1Ok || f.hdr2Ok) then s else countErr s d fun e => { e with hdr := satAdd e.hdr }
      let s := if (f.hdr1Ok || f.hdr2Ok) then takeFlit s l f.crcOk f.body else flitLost s l f.body
      .next (if f.crcOk then s else (hurtLanes (getLink s l) f).foldl (fun s i => noteLane s l i) s)
  | _ => .next s

/-! ## LKCTL (R330, R331) -/

/-- g[b] has a bit outside its fields, or a field value that its operation does not have (R330). -/
def lkctlBad (op v : Nat) : Bool :=
  match op with
  | 1 => v / 2 ^ 48 != 0 || decide (bits v 16 16 ≥ bits v 0 16)
  | 2 => !(v == 1 || v == 2 || v == 4 || v == 8)
  | _ => v != 0

/-- A new maximum width (R328, R329, R340): a wake beyond it is abandoned; at version 1 or 2 the width changes at once. -/
def setMaxw (x : Link) (m : Nat) : Link :=
  let x := { x with maxw := m }
  let x := dropWiden (if 2 * x.width > maxWidth x then { x with wake := none } else x)
  if x.st == .up && decide (x.ver < 3) then { x with width := maxWidth x } else x

/-- The operation of an LKCTL on link `l` (R330). -/
def lkctlDo (s : State) (l op v : Nat) : State :=
  match op with
  | 1 => setLink s l { getLink s l with wide := bits v 0 16, narrow := bits v 16 16, hold := bits v 32 16 }
  | 2 => setLink s l (setMaxw (getLink s l) v)
  | 3 => linkTrain (if (getLink s l).st == .up then linkDown s l else s) l
  | _ => s

/-- LKCTL (R330): the operation is the one that g[a] names (log 17). -/
def lkctl (d a b : GReg) (s : State) : Out :=
  inSet threadOnly s fun s => supOnly s fun s => sources [gId a, gId b] s fun s =>
    let v := (rg (me s) a).toNat
    let w := (rg (me s) b).toNat
    let op := bits v 4 4
    if v / 2 ^ 8 ≠ 0 ∨ op > 3 then trap 0x01 (rg (me s) a) s
    else if lkctlBad op w then trap 0x01 (rg (me s) b) s
    else dests [gId d] s fun s =>
      let st := linkStatus (getLink s (bits v 0 4))
      done 4 (modMe (lkctlDo s (bits v 0 4) op w) fun h => wg h d (w64 st))

/-- LKCTL STATUS (R330). -/
def execLkctlStatus (d a b : GReg) (s : State) : Out := lkctl d a b s
/-- LKCTL THRESH (R330). -/
def execLkctlThresh (d a b : GReg) (s : State) : Out := lkctl d a b s
/-- LKCTL MAXW (R330). -/
def execLkctlMaxw (d a b : GReg) (s : State) : Out := lkctl d a b s
/-- LKCTL RETRAIN (R330). -/
def execLkctlRetrain (d a b : GReg) (s : State) : Out := lkctl d a b s

end Sys2Proof.Machine
end

