-- ==== Sys2Proof/Machine/Coll.lean ====
section
/-! DEFINITION. Collective groups and collectives (R335 to R340, R354, R355; log 25). -/

namespace Sys2Proof.Machine

/-! ## Groups (R335) -/

/-- The group of a gid. -/
def findColl (s : State) (c gid : Nat) : Option CollGroup := s.collGroups.find? fun g => g.ctx == c && g.gid == gid

/-- Replaces a group. -/
def putColl (s : State) (g : CollGroup) : State :=
  { s with collGroups := s.collGroups.filter (fun x => !(x.ctx == g.ctx && x.gid == g.gid)) ++ [g] }

/-- Fields of a group descriptor. -/
def cdGid (v : Nat) : Nat := bits v 0 6
def cdN (v : Nat) : Nat := bits v 8 5
def cdRank (v : Nat) : Nat := bits v 16 4
def cdTmo (v : Nat) : Nat := bits v 32 32
def cdMem (v k : Nat) : Nat := bits v (64 + 8 * k) 8

/-- A reserved bit of a descriptor is set. -/
def cdReserved (v : Nat) : Bool := bits v 6 2 != 0 || bits v 13 3 != 0 || bits v 20 12 != 0 || bits v 192 320 != 0

/-- n, rank or mem is out of range: 0xFF at rank, else links 0 to 15, each at most once (R335). -/
def cdBad (v : Nat) : Bool :=
  let n := cdN v
  n == 0 || decide (n > 16) || decide (cdRank v ≥ n) ||
    !(List.range n).all fun k =>
      if k = cdRank v then cdMem v k == 255
      else decide (cdMem v k < 16) && !(List.range k).any fun j => j != cdRank v && cdMem v j == cdMem v k

/-- A link carries collectives. -/
def linkCarries (s : State) (l : Nat) : Bool := (getLink s l).st == .up && decide (2 ≤ (getLink s l).ver)

/-- A declared group, *forming* (R335): members whose link is not *up* at version 2 or above are *down*. -/
def groupOf (s : State) (c v : Nat) : CollGroup :=
  let n := cdN v
  { ctx := c, gid := cdGid v, st := 1, n := n, rank := cdRank v, tmo := cdTmo v, mem := (List.range n).map (cdMem v),
    down := (List.range n).filter fun k => k != cdRank v && !linkCarries s (cdMem v k), seq := 1 }

/-! ## Shapes (R337) -/

/-- The function code (R336). -/
def collCode (f : CollFn) : Nat :=
  match f with
  | .decl => 0
  | .ag => 1
  | .rsO => 2
  | .rsU => 3
  | .arO => 4
  | .arU => 5
  | .a2a => 6
  | .bar => 7

/-- The function reduces. -/
def reduces (f : CollFn) : Bool := f == .rsO || f == .rsU || f == .arO || f == .arU

/-- Source and destination lengths in elements, for `n` members. -/
def srcLen (f : CollFn) (n c : Nat) : Nat :=
  match f with
  | .ag | .arO | .arU => c
  | .rsO | .rsU | .a2a => n * c
  | .decl | .bar => 0
def dstLen (f : CollFn) (n c : Nat) : Nat :=
  match f with
  | .arO | .arU | .rsO | .rsU => c
  | .ag | .a2a => n * c
  | .decl | .bar => 0

/-- The first of the source elements that member `k` receives. -/
def partFor (f : CollFn) (c k : Nat) : Nat :=
  match f with
  | .rsO | .rsU | .a2a => k * c
  | .ag | .arO | .arU | .decl | .bar => 0

/-! ## Issue (R336 to R338) -/

/-- The control word (R337). -/
def cwC (v : Nat) : Nat := bits v 0 32
def cwType (v : Nat) : Nat := bits v 32 2
def cwGid (v : Nat) : Nat := bits v 40 6

/-- The first check of R338 that fails, as the trap it raises. -/
def collFault (s : State) (ctx : Nat) (f : CollFn) (ea eb cw : Word) : Option (Nat × Word) :=
  let v := cw.toNat
  let c := cwC v
  let g := findColl s ctx (cwGid v)
  let n := match g with
    | some g => g.n
    | none => 1
  let data := f != .bar
  if bits v 34 6 ≠ 0 ∨ v / 2 ^ 46 ≠ 0 then some (0x01, cw)
  else if cwType v = 3 ∨ (cwType v == 2 && reduces f) ∨ (!data && (c != 0 || cwType v != 0)) then some (0x46, 2)
  else if data && (c == 0 || decide (ea.toNat + 4 * srcLen f n c > 2 ^ 64) || decide (eb.toNat + 4 * dstLen f n c > 2 ^ 64)) then
    some (0x46, 3)
  else if !g.any (·.st == 2) then some (0x46, 1)
  else if data && ea.toNat % 4 != 0 then some (0x18, ea)
  else if data && eb.toNat % 4 != 0 then some (0x18, eb)
  else if data && !epCanonical s ctx ea then some (0x19, ea)
  else if data && !epCanonical s ctx eb then some (0x19, eb)
  else none

/-- A collective is handed to the unit, where acceptance (COLL_ACCEPT) ends the instruction (R41, R338). -/
def collHand (f : CollFn) (la : La) (n : GLow) (ea eb : Word) (gid c ty desc : Nat) (s : State) : Out :=
  let (s, id) := freshId s
  let x : Coll :=
    { id := id, hart := s.cur, pc := (me s).pc, ctx := hartCtx s s.cur, fn := f, gid := gid, seq := 0, src := ea, dst := eb, c := c,
      ty := ty, tag := rg (me s) (Fin.castLE (by omega) n), desc := desc, st := .issued, acc := 0, fault := false, bad := false, heard := [], status := 0 }
  issueAwait 4 la.val (.accept id) { s with colls := s.colls ++ [x] }

/-- COLL.DECL (R335, R338). -/
def execCollDecl (la : La) (n : GLow) (ea : EReg) (s : State) : Out :=
  inSet threadOnly s fun s => sources [eId ea, gId (Fin.castLE (by omega) n)] s fun s => roomForLong s fun s =>
    let a := re (me s) ea
    blockRead false 64 .read a s fun _ v s =>
      if cdReserved v then trap 0x01 a s
      else if cdBad v ∨ s.colls.any (fun x => x.ctx == hartCtx s s.cur && x.gid == cdGid v) then trap 0x46 4 s
      else collHand .decl la n 0 0 (cdGid v) 0 0 v s

/-- The data functions of COLL (R336 to R338). -/
def collData (f : CollFn) (la : La) (n : GLow) (ec eb ea : EReg) (s : State) : Out :=
  inSet threadOnly s fun s => sources [eId ea, eId eb, eId ec, gId (Fin.castLE (by omega) n)] s fun s => roomForLong s fun s =>
    let h := me s
    let v := (re h ec).toNat
    match collFault s (hartCtx s s.cur) f (re h ea) (re h eb) (re h ec) with
    | some (cause, w) => trap cause w s
    | none => collHand f la n (re h ea) (re h eb) (cwGid v) (cwC v) (cwType v) 0 s

/-- COLL.AG (R337). -/
def execCollAg (la : La) (n : GLow) (ec eb ea : EReg) (s : State) : Out := collData .ag la n ec eb ea s
/-- COLL.RS.o (R337). -/
def execCollRsO (la : La) (n : GLow) (ec eb ea : EReg) (s : State) : Out := collData .rsO la n ec eb ea s
/-- COLL.RS.u (R337). -/
def execCollRsU (la : La) (n : GLow) (ec eb ea : EReg) (s : State) : Out := collData .rsU la n ec eb ea s
/-- COLL.AR.o (R337). -/
def execCollArO (la : La) (n : GLow) (ec eb ea : EReg) (s : State) : Out := collData .arO la n ec eb ea s
/-- COLL.AR.u (R337). -/
def execCollArU (la : La) (n : GLow) (ec eb ea : EReg) (s : State) : Out := collData .arU la n ec eb ea s
/-- COLL.A2A (R337). -/
def execCollA2a (la : La) (n : GLow) (ec eb ea : EReg) (s : State) : Out := collData .a2a la n ec eb ea s

/-- COLL.BAR (R337). -/
def execCollBar (la : La) (n : GLow) (ec : EReg) (s : State) : Out :=
  inSet threadOnly s fun s => sources [eId ec, gId (Fin.castLE (by omega) n)] s fun s => roomForLong s fun s =>
    let w := re (me s) ec
    match collFault s (hartCtx s s.cur) .bar 0 0 w with
    | some (cause, t) => trap cause t s
    | none => collHand .bar la n 0 0 (cwGid w.toNat) 0 0 0 s

/-! ## Acceptance (R338) -/

/-- A collective by its identity. -/
def findCollOp (s : State) (id : Nat) : Option Coll := s.colls.find? (·.id == id)

/-- Replaces a collective. -/
def putCollOp (s : State) (x : Coll) : State := { s with colls := s.colls.map fun y => if y.id = x.id then x else y }

/-- Every store and fill that the hart issued before the collective has been acknowledged (R338); an atomic is performed as it
issues. -/
def earlierDone (h : Hart) (id : Nat) : Bool :=
  (h.out.takeWhile fun o => o.await != .accept id).all fun o => match o.await with
    | .fill _ => false
    | .accept _ | .move => true
    | .time | .page _ _ | .queue _ | .order _ => !isStoreOp o

/-- The hart of a collective is on its tile, whose partition is not switched out. -/
def collHere (s : State) (x : Coll) : Bool :=
  let t := (tileOf? x.hart).getD 0
  tileRuns s t && (getTile s t).ctx == x.ctx

/-- A collective has been issued and its thread has nothing left to wait for: it may be accepted. -/
def collReady (s : State) (x : Coll) : Bool := x.st == .issued && collHere s x && earlierDone (getHart s x.hart) x.id

/-- The unit accepts a collective: fewer than 64 are in flight, and it is the first of its group among those that may be accepted
(R338). -/
def collAcceptable (s : State) (x : Coll) : Bool :=
  collReady s x && decide ((s.colls.filter (·.st != .issued)).length < 64) &&
    (s.colls.find? fun y => y.ctx == x.ctx && y.gid == x.gid && collReady s y).any (·.id == x.id)

/-- Acceptance: the sequence number is given; a declaration makes its group *forming* anew (R335, R338). -/
def collTake (s : State) (x : Coll) : State :=
  let (s, n) := freshId (awaitDone s x.hart (.accept x.id))
  let x := { x with acc := n }
  if x.fn == .decl then
    let s := putColl s (groupOf s x.ctx x.desc)
    putCollOp { s with collIn := s.collIn.filter fun i => !(i.ctx == x.ctx && i.gid == x.gid && i.ans.f != 0) }
      { x with st := .accepted, seq := 0 }
  else
    match findColl s x.ctx x.gid with
    | some g => putCollOp (putColl s { g with seq := (g.seq + 1) % 2 ^ 32 }) { x with st := .accepted, seq := g.seq }
    | none => { s with colls := s.colls.filter (·.id != x.id) }

/-! ## Running (R335, R337, R338) -/

/-- The collective is accepted, and no earlier one of its group is still to run. -/
def collFirst (s : State) (x : Coll) : Bool :=
  x.st == .accepted && !s.colls.any fun y => y.ctx == x.ctx && y.gid == x.gid &&
    (y.st == .running || (y.st == .accepted && decide (y.acc < x.acc)))

/-- It runs now, if it waits for no page. -/
def collStartable (s : State) (x : Coll) : Bool := collFirst s x && !unitWaits s (.coll x.id)

/-- Words in the parts that one flit carries (R326). -/
def flitWords : Nat → List CopyWord → List (List CopyWord)
  | 0, _ => []
  | f + 1, l => if l.length ≤ 16 then [l] else l.take 16 :: flitWords f (l.drop 16)

/-- Words as a member sends them, with the places of the poisoned ones (R297). -/
def collWords (x : Coll) (l : List CopyWord) : CollAnswer :=
  ⟨collCode x.fn, x.c, x.ty, (List.range l.length).filter (fun i => (l.getD i (0, false)).2), l.map fun w => BitVec.ofNat 32 w.1⟩

/-- The words that this device supplies to member `k`. -/
def wordsFor (x : Coll) (own : List CopyWord) (k : Nat) : List CopyWord := (own.drop (partFor x.fn x.c k)).take x.c

/-- What this device sends to member `k`: the elements that it supplies to it. -/
def collSend (s : State) (x : Coll) (g : CollGroup) (own : List CopyWord) (k : Nat) : State :=
  if k = g.rank ∨ g.down.contains k then s
  else
    let l := wordsFor x own k
    (flitWords (l.length + 1) l).foldl (fun s w =>
      queueFlit s (g.mem.getD k 255) (.coll x.ctx x.gid x.seq g.rank (collWords x w))) s

/-- What arrived belongs to the collective: the same number, and a declaration with a declaration (R338). -/
def isFor (x : Coll) (i : CollIn) : Bool :=
  i.ctx == x.ctx && i.gid == x.gid && i.seq == x.seq && (i.ans.f == 0) == (x.fn == .decl)

/-- The sources are at hand: what this device supplies goes to every live member, and counts as its own contribution; what a *down*
member sent before is not used (R335, R337, R338; log 25). -/
def collBegin (s : State) (x : Coll) (g : CollGroup) (own : List CopyWord) (fault : Bool) : State :=
  let s := (List.range g.n).foldl (fun s k => collSend s x g own k) s
  let old := s.collIn.filter fun i => !(isFor x i && g.down.contains i.member)
  let s := { s with collIn := old ++ [⟨x.ctx, x.gid, x.seq, g.rank, collWords x (wordsFor x own g.rank)⟩] }
  putCollOp s { x with st := .running, fault := fault, bad := own.any (·.2), heard := (List.range g.n).map fun k => (k, s.cycle) }

/-- A collective starts: its source is read (R338). -/
def collRun (s : State) (x : Coll) : State :=
  match findColl s x.ctx x.gid with
  | none => { s with colls := s.colls.filter (·.id != x.id) }
  | some g =>
    let s := actFor (.coll x.id) s
    let d := hartDie x.hart
    let n := 4 * srcLen x.fn g.n x.c
    match unitReady s d x.ctx .read (pagesOf x.src.toNat n) with
    | (s, some _) => s
    | (s, none) =>
      match unitChunks s d x.ctx .read (rowChunks x.src.toNat n) with
      | (s, .ok l) => let (s, own) := readChunks s l; collBegin (unitSettled s d) x g own false
      | (s, _) => collBegin (unitSettled s d) x g [] true

/-- COLL_ACCEPT (R338): the unit accepts a collective; an accepted one then starts in its turn. -/
def execCollAccept (s : State) : Out :=
  match s.ev with
  | .key id =>
    match findCollOp s id with
    | some x =>
      if collAcceptable s x then .next (collTake s x) else if collFirst s x then .next (collRun s x) else .next s
    | none => .next s
  | _ => .next s

/-- COLL_MEMBER_ANSWER (R335, R338): an answer or a contribution of a member arrives. -/
def execCollMemberAnswer (s : State) : Out :=
  match s.ev with
  | .coll c gid seq k a => .next (collArrive s c gid seq k a)
  | _ => .next s

/-! ## What has arrived (R338, R339) -/

/-- The arrivals of a collective from its members, in order, each with the index of its first word. -/
def collParts (s : State) (x : Coll) : List (Nat × Nat × CollAnswer) :=
  (s.collIn.filter (isFor x)).foldl (fun l i =>
    let before := (l.filter (·.1 == i.member)).foldl (fun n (p : Nat × Nat × CollAnswer) => n + p.2.2.words.length) 0
    l ++ [(i.member, before, i.ans)]) []

/-- The number of words that a member has supplied. -/
def gotWords (l : List (Nat × Nat × CollAnswer)) (k : Nat) : Nat :=
  (l.filter (·.1 == k)).foldl (fun n p => n + p.2.2.words.length) 0

/-- A member runs something else under this number (R338). -/
def mismatched (x : Coll) (l : List (Nat × Nat × CollAnswer)) (k : Nat) : Bool :=
  l.any fun p => p.1 == k && (p.2.2.f != collCode x.fn || p.2.2.c != x.c || p.2.2.ty != x.ty)

/-- The arrivals without those of mismatched members. -/
def goodParts (s : State) (x : Coll) : List (Nat × Nat × CollAnswer) :=
  let l := collParts s x
  l.filter fun p => !mismatched x l p.1

/-- Nothing more is awaited of member `k`. -/
def memberDone (s : State) (x : Coll) (g : CollGroup) (k : Nat) : Bool :=
  let l := collParts s x
  k == g.rank || g.down.contains k || mismatched x l k || (l.any (·.1 == k) && decide (x.c ≤ gotWords l k))

/-- The member is silent for tmo µs while it is awaited; a tmo of 0 means 10,000 (R335). -/
def memberSilent (s : State) (x : Coll) (k : Nat) : Bool :=
  match findColl s x.ctx x.gid with
  | some g =>
    x.st == .running && decide (k < g.n) && !memberDone s x g k &&
      (alGet x.heard k).any fun c => decide (c + usCycles (if g.tmo = 0 then 10000 else g.tmo) ≤ s.cycle)
  | none => false

/-- COLL_MEMBER_TIMEOUT (R335): the member is *down*. -/
def execCollMemberTimeout (s : State) : Out :=
  match s.ev with
  | .collMember id k =>
    match findCollOp s id with
    | some x =>
      if !memberSilent s x k then .next s
      else
        match findColl s x.ctx x.gid with
        | some g => .next (putColl s { g with down := insNat g.down k })
        | none => .next s
    | none => .next s
  | _ => .next s

/-! ## The destination (R163, R337, R339, R354, R355) -/

/-- The number of 64-element blocks of the destination. -/
def collBlocks (d : Nat) : Nat := (d + 63) / 64

/-- The elements [lo, hi) of block `b` that member `k` supplies. -/
def suppliedIn (x : Coll) (d b k : Nat) : Nat × Nat :=
  let lo := 64 * b
  let hi := min (64 * b + 64) d
  if reduces x.fn then (lo, hi) else (max lo (k * x.c), min hi ((k + 1) * x.c))

/-- The index among a member's words of destination element `j`. -/
def wordOf (x : Coll) (k j : Nat) : Nat := if reduces x.fn then j else j - k * x.c

/-- A member's data for block `b` arrived in full, and it has some there. -/
def inBlock (x : Coll) (l : List (Nat × Nat × CollAnswer)) (d b k : Nat) : Bool :=
  let (lo, hi) := suppliedIn x d b k
  decide (lo < hi ∧ wordOf x k (hi - 1) < gotWords l k)

/-- Where the arrivals of the members `ms` hold element `j`, in the order of arrival: (member, answer, index of its word). -/
def holdsElem (x : Coll) (l : List (Nat × Nat × CollAnswer)) (ms : List Nat) (j : Nat) : List (Nat × CollAnswer × Nat) :=
  l.filterMap fun p =>
    let i := wordOf x p.1 j
    if ms.contains p.1 && decide (p.2.1 ≤ i ∧ i < p.2.1 + p.2.2.words.length) then some (p.1, p.2.2, i - p.2.1) else none

/-- The values that the members `ms` supply for element `j`, in the order of arrival: (member, value). -/
def suppliedFor (x : Coll) (l : List (Nat × Nat × CollAnswer)) (ms : List Nat) (j : Nat) : List (Nat × Nat) :=
  (holdsElem x l ms j).map fun p => (p.1, (nthW p.2.1.words p.2.2).toNat)

/-- A value supplied for element `j` is poisoned: what is written there is, too (R297, R298; log 25). -/
def elemBad (x : Coll) (l : List (Nat × Nat × CollAnswer)) (ms : List Nat) (j : Nat) : Bool :=
  (holdsElem x l ms j).any fun p => p.2.1.bad.contains p.2.2

/-- A left fold in the order of arrival; a single contribution is passed on unchanged (R355). -/
def arrivalSum : List Nat → Nat
  | [] => 0
  | a :: r => r.foldl (fun s b => (add32 s b).1) a

/-- The reduction of the values for one element over `n` members. -/
def collReduce (x : Coll) (n : Nat) (l : List (Nat × Nat)) : Nat :=
  if x.ty = 1 then l.foldl (fun s p => (s + p.2) % 2 ^ 32) 0
  else if x.fn == .rsU || x.fn == .arU then arrivalSum (l.map (·.2))
  else ((orderedSum ((List.range n).map fun k => (l.find? (·.1 == k)).map (·.2))).1).getD 0

/-- A run of elements that is written: the member that supplies it (of a reduction, 0), its first element, its words. -/
abbrev CollRun := Nat × Nat × List CopyWord

/-- The runs of elements that are written in block `b`. -/
def blockRuns (x : Coll) (n : Nat) (l : List (Nat × Nat × CollAnswer)) (d b : Nat) : List CollRun :=
  let ms := (List.range n).filter (inBlock x l d b)
  if reduces x.fn then
    if ms = [] then []
    else
      let (lo, hi) := suppliedIn x d b 0
      [(0, lo, (List.range (hi - lo)).map fun i => (collReduce x n (suppliedFor x l ms (lo + i)), elemBad x l ms (lo + i)))]
  else
    ms.map fun k =>
      let (lo, hi) := suppliedIn x d b k
      (k, lo, (List.range (hi - lo)).map fun i => (((suppliedFor x l [k] (lo + i)).head?.map (·.2)).getD 0, elemBad x l [k] (lo + i)))

/-- The mask of block `b`. -/
def blockMask (x : Coll) (n : Nat) (l : List (Nat × Nat × CollAnswer)) (d b : Nat) : Nat :=
  ((List.range n).filter (inBlock x l d b)).foldl (fun m k => m + 2 ^ k) 0

/-- Where the masks begin: the first 64-byte boundary at or after the destination's end. -/
def maskBase (x : Coll) (d : Nat) : Nat := (x.dst.toNat + 4 * d + 63) / 64 * 64

/-- Writes a run for the unit; false when a page or a permission fails. A packet that did not arrive whole is reported (R298, R299). -/
def collPut (s : State) (x : Coll) (r : CollRun) : State × Bool :=
  let d := hartDie x.hart
  let row := rowChunks ((x.dst.toNat + 4 * r.2.1) % 2 ^ 64) (4 * r.2.2.length)
  match unitChunks s d x.ctx .write row with
  | (s, .ok l) =>
    match writeChunks s 0 l r.2.2 with
    | (s, none) => (s, true)
    | (s, some k) => (unitPoison s d x.ctx ((row.getD k (0, 0)).1), true)
  | (s, _) => (s, false)

/-- Writes runs in order until one fails: the runs that were written (R339, FAULT). -/
def collPutAll (s : State) (x : Coll) : List CollRun → State × List CollRun
  | [] => (s, [])
  | r :: l =>
    match collPut s x r with
    | (s, true) => let (s, done) := collPutAll s x l; (s, r :: done)
    | (s, false) => (s, [])

/-- Writes the masks, one halfword a block and 32 of them in a packet, until a translation fails. -/
def maskPutAll (s : State) (x : Coll) (va : Nat) : Nat → List Nat → State × Bool
  | 0, _ => (s, true)
  | f + 1, l =>
    if l = [] then (s, true)
    else
      let d := hartDie x.hart
      let va := va % 2 ^ 64
      match unitXlate s d x.ctx va .write with
      | (s, .ok pa) =>
        let (s, w) := travel s
        let s := if w == .lost then s else physWrite s pa (2 * (l.take 32).length) (packBits 16 (l.take 32))
        let s := if w == .bad then taintLine s pa else s
        maskPutAll (if w == .whole then s else unitPoison s d x.ctx va) x (va + 64) f (l.drop 32)
      | (s, _) => (s, false)

/-- The elements of member `k` among the runs that were written. -/
def writtenOf (runs : List CollRun) (k : Nat) : Nat := (runs.filter (·.1 == k)).foldl (fun n r => n + r.2.2.length) 0

/-- The members that contributed to everything, whose every element was written, or that answered (PRES, R339). -/
def collPres (x : Coll) (n : Nat) (l : List (Nat × Nat × CollAnswer)) (runs : List CollRun) : List Nat :=
  (List.range n).filter fun k => l.any (·.1 == k) && decide (x.c ≤ gotWords l k) &&
    (!(x.fn == .ag || x.fn == .a2a) || decide (x.c ≤ writtenOf runs k))

/-- The status (R339). -/
def collStatus (x : Coll) (n : Nat) (all good : List (Nat × Nat × CollAnswer)) (runs : List CollRun) (fault : Bool) : Nat :=
  let pres := collPres x n good runs
  pres.foldl (fun m k => m + 2 ^ k) 0 + 2 ^ 16 * b2n (dstLen x.fn n x.c != 0 && decide (pres.length < n)) +
    2 ^ 17 * b2n (x.bad || all.any fun p => p.2.2.bad != []) + 2 ^ 18 * b2n fault + 2 ^ 19 * b2n ((List.range n).any (mismatched x all))

/-- Every member has answered, contributed or dropped out. -/
def collDone (s : State) (x : Coll) : Bool :=
  match findColl s x.ctx x.gid with
  | some g => x.st == .running && (List.range g.n).all (memberDone s x g)
  | none => false

/-- The collective ends: a declared group is *ready*; what arrived is used up. -/
def collEnd (s : State) (x : Coll) (g : CollGroup) (status : Nat) : State :=
  let s := if x.fn == .decl then putColl s { g with st := 2 } else s
  let s := { s with collIn := s.collIn.filter fun i => !isFor x i }
  putCollOp s { x with st := .posting, status := status }

/-- The destination and the masks are written (R339). -/
def collFinish (s : State) (x : Coll) (g : CollGroup) : State :=
  let all := collParts s x
  let l := goodParts s x
  let dl := dstLen x.fn g.n x.c
  let nb := collBlocks dl
  let s := actFor (.coll x.id) s
  let d := hartDie x.hart
  match unitReady s d x.ctx .write (pagesOf x.dst.toNat (4 * dl) ++ pagesOf (maskBase x dl) (2 * nb)) with
  | (s, some _) => s
  | (s, none) =>
    let runs := if x.fault then [] else (List.range nb).flatMap (blockRuns x g.n l dl)
    let (s, done) := collPutAll s x runs
    let (s, ok) :=
      if x.fault || done.length != runs.length then (s, false)
      else maskPutAll s x (maskBase x dl) nb ((List.range nb).map (blockMask x g.n l dl))
    collEnd (unitSettled s d) x g (collStatus x g.n all l done !ok)

/-- The post may be made, or is lost with the tile's group (R101, R339). -/
def collPostable (s : State) (x : Coll) : Bool :=
  x.st == .posting && match tileTarget s x.ctx ((tileOf? x.hart).getD 0) 0 with
    | .ok _ _ | .bad => !stopped s ((tileOf? x.hart).getD 0)
    | .held _ | .loading _ => false

/-- A running collective whose members have all come may write, if it waits for no page. -/
def collFinishable (s : State) (x : Coll) : Bool := collDone s x && !unitWaits s (.coll x.id)

/-- COLL_POST (R339): the destination and the masks are written; then tag and status are posted to the issuing tile. -/
def execCollPost (s : State) : Out :=
  match s.ev with
  | .key id =>
    match findCollOp s id with
    | some x =>
      match findColl s x.ctx x.gid with
      | none => .next s
      | some g =>
        if collDone s x then .next (collFinish s x g)
        else if collPostable s x then
          let s := { s with colls := s.colls.filter (·.id != id) }
          match tileTarget s x.ctx ((tileOf? x.hart).getD 0) 0 with
          | .ok t _ => .next (mailPost s t ⟨⟨x.tag, w64 x.status, true, none⟩, id, none⟩)
          | _ => .next s
        else .next s
    | none => .next s
  | _ => .next s

end Sys2Proof.Machine
end

