-- ==== Sys2Proof/Machine/Opt.lean ====
section
/-! DEFINITION. Fused updates of the menders (R309 to R312; log 20). -/

namespace Sys2Proof.Machine

/-- The three OPT functions. -/
inductive OptFn where
  | adamw | sgdm | clip
deriving DecidableEq, Repr

/-- Fields of the hyperparameter block (R310). -/
def optCnt (b : Nat) : Nat := bits b 0 32
def optGsrc (b : Nat) : Bool := bitAt b 32
def optGsa (b : Nat) : Nat := bits b 64 64
def optPar (b i : Nat) : Nat := bits b (128 + 32 * i) 32

/-- A reserved bit of the block is set. -/
def optReserved (b : Nat) : Bool := bits b 33 31 != 0 || bits b 482 30 != 0

/-- ADAMW of one element: w′, m′, v′ and the flags (R311). -/
def adamwStep (b g w m v : Nat) : Nat × Nat × Nat × BitVec 5 :=
  let (gg, f1) := mul32 g (optPar b 7)
  let (x, f2) := mul32 (optPar b 3) gg
  let (m', f3) := fma32 (optPar b 2) m x
  let (g2, f4) := mul32 gg gg
  let (y, f5) := mul32 (optPar b 5) g2
  let (v', f6) := fma32 (optPar b 4) v y
  let (mh, f7) := mul32 m' (optPar b 8)
  let (vh, f8) := mul32 v' (optPar b 9)
  let (rt, f9) := sqrt32 vh
  let (dn, f10) := add32 rt (optPar b 6)
  let (u, f11) := div32 mh dn
  let (wd, f12) := mul32 (optPar b 1) w
  let (q, f13) := add32 u wd
  let (z, f14) := mul32 (optPar b 0) q
  let (w', f15) := sub32 w z
  (w', m', v', f1 ||| f2 ||| f3 ||| f4 ||| f5 ||| f6 ||| f7 ||| f8 ||| f9 ||| f10 ||| f11 ||| f12 ||| f13 ||| f14 ||| f15)

/-- SGDM of one element: w′, m′ and the flags (R311). -/
def sgdmStep (b g w m : Nat) : Nat × Nat × BitVec 5 :=
  let (gg, f1) := mul32 g (optPar b 7)
  let (m', f2) := fma32 (optPar b 2) m gg
  let (wd, f3) := mul32 (optPar b 1) w
  let (q, f4) := add32 m' wd
  let (z, f5) := mul32 (optPar b 0) q
  let (w', f6) := sub32 w z
  (w', m', f1 ||| f2 ||| f3 ||| f4 ||| f5 ||| f6)

/-- The factor of CLIP and its flags: +1.0 if gnorm ≤ clip, else clip / gnorm (R311). -/
def clipFactor (b : Nat) : Nat × BitVec 5 :=
  let n := fv (optPar b 2)
  let c := fv (optPar b 3)
  if !isNanV n && !isNanV c && !ltV false c n then (0x3F80_0000, 0) else div32 (optPar b 3) (optPar b 2)

/-- CLIP of one element. -/
def clipStep (b g : Nat) : Nat × BitVec 5 :=
  let (s, f1) := clipFactor b
  let (r, f2) := mul32 g s
  (r, f1 ||| f2)

/-- The words that element `i` reads and writes. -/
def optWords (k : OptFn) (ea eb i : Nat) : List Nat :=
  match k with
  | .adamw => [ea + 4 * i, eb + 8 * i, eb + 8 * i + 4]
  | .sgdm => [ea + 4 * i, eb + 4 * i]
  | .clip => [ea + 4 * i]

/-- The new values of those words. -/
def optNew (k : OptFn) (b g : Nat) (old : List Nat) : List Nat × BitVec 5 :=
  match k with
  | .adamw => let r := adamwStep b g (nth old 0) (nth old 1) (nth old 2); ([r.1, r.2.1, r.2.2.1], r.2.2.2)
  | .sgdm => let r := sgdmStep b g (nth old 0) (nth old 1); ([r.1, r.2.1], r.2.2)
  | .clip => let r := clipStep b (nth old 0); ([r.1], r.2)

/-- The number of a function in an `OptRun`, and the function of a number. -/
def OptFn.code (k : OptFn) : Nat :=
  match k with
  | .adamw => 0
  | .sgdm => 1
  | .clip => 2
def optFn (n : Nat) : OptFn := if n = 0 then .adamw else if n = 1 then .sgdm else .clip

/-- Why an OPT stops short, or that it has ended. -/
inductive OptEnd where
  | done
  | wait (a : Await)
  | fault
deriving DecidableEq, Repr

/-- Accesses of an OPT of hart `h` to words at their virtual addresses. -/
def optXlate (s : State) (h : HartId) (r : OptRun) (need : Need) (l : List Nat) : State × Chunks :=
  xlateChunks s (hartDie h) (looksIn h) (hartCtx s h) need r.ref (l.map fun a => (a, 4))

/-- An access of an OPT that waits for the hart's earlier operations `ops` to the same bytes (R61). -/
def optBehind (ops : List LongOp) (pas vas : List Nat) : Option MemAcc :=
  ((pas.zip vas).map fun p => hereAcc none p.1 4 (w64 p.2)).find? fun a => ops.any (opTouches · a)

/-- Reads words at their homes: their values, and the address of one that is poisoned, or does not arrive whole (R94, R298, R299). -/
def optRead (s : State) : List Nat → List Nat → State × List Nat × Option Nat
  | pa :: ps, va :: vs =>
    let (s, v, bad) := lineRead s pa 4
    let (s, l, o) := optRead s ps vs
    (s, v :: l, if bad then some va else o)
  | _, _ => (s, [], none)

/-- Writes words at their homes. -/
def optPut (h : HartId) (pc : Word) (s : State) : List Nat → List Nat → List Nat → State
  | pa :: ps, va :: vs, v :: l => optPut h pc (lineWrite h pc s pa va 4 v) ps vs l
  | _, _, _ => s

/-- An element is skipped: `a` is the address of what is poisoned (R94, R311). -/
def optSkip (s : State) (h : HartId) (r : OptRun) (a : Nat) : State × OptRun × Option OptEnd :=
  (poisonReportAt s h r.pc 2 (w64 a), { r with done := r.done + 1, skip := r.skip + 1 }, none)

/-- Element `i` with gradient `g`; `bad` is the address of the gradient if it is poisoned. -/
def optElem (h : HartId) (ops : List LongOp) (i g : Nat) (bad : Option Nat) (s : State) (r : OptRun) : State × OptRun × Option OptEnd :=
  match bad with
  | some a => optSkip s h r a
  | none =>
    let vas := optWords (optFn r.fn) r.ea r.eb i
    match optXlate s h r .readWrite vas with
    | (s, .absent vpn) => (s, r, some (.wait (.page (hartCtx s h) vpn)))
    | (s, .bad _ _) => (s, r, some .fault)
    | (s, .ok l) =>
      let pas := l.map (·.1)
      match optBehind ops pas vas with
      | some a => (s, r, some (.wait (.order a)))
      | none =>
        match optRead s pas vas with
        | (s, _, some a) => optSkip s h r a
        | (s, old, none) =>
          let (new, fl) := optNew (optFn r.fn) r.blk g old
          (optPut h r.pc s pas vas new, { r with done := r.done + 1, fl := r.fl ||| fl }, none)

/-- The gradient of the next element of the stream: its value, and its address if it is poisoned. CLIP's gradient is the word
itself. -/
def optGrad (h : HartId) (ops : List LongOp) (s : State) (r : OptRun) : State × Option OptEnd × Nat × Option Nat :=
  if optFn r.fn == .clip then (s, none, 0, none)
  else
    let va := optGsa r.blk + 4 * r.done
    match optXlate s h r .read [va] with
    | (s, .ok l) =>
      match optBehind ops (l.map (·.1)) [va] with
      | some a => (s, some (.wait (.order a)), 0, none)
      | none =>
        let (s, v, bad) := optRead s (l.map (·.1)) [va]
        (s, none, nth v 0, bad)
    | (s, .absent vpn) => (s, some (.wait (.page (hartCtx s h) vpn)), 0, none)
    | (s, .bad _ _) => (s, some .fault, 0, none)

/-- The elements of the entry that is popped next from the queue of descriptor `l` at `va`: index, gradient, and, where its granule or
the key's is poisoned, the descriptor's address (R297, R306, R311; log 44), each with its flags. -/
def optEntry (s : State) (l va : Nat) : List ((Nat × Nat × Option Nat) × BitVec 5) :=
  let a := gqPlace l (gqPops l % gqCap l)
  let e := gqEntry s l (gqPops l % gqCap l)
  let key := e / 2 ^ 512
  (gqDecode (gqType l) (e % 2 ^ 512) key).zipIdx.map fun d =>
    let bad := ringBad s l ((a + 64) / 32) || ringBad s l ((a + (gqFmt (gqType l)).width / 8 * d.2) / 32)
    ((key % 2 ^ 48 + d.2, d.1.1, if bad then some va else none), if bad then 0 else d.1.2)

/-- An OPT pops an entry of its slot's queue: the entry's elements join `pend` (R306, R311). It waits behind an earlier OPT of the slot;
at a queue that has no entry and no EN any more it faults (log 20). -/
def optPop (h : HartId) (ops : List LongOp) (s : State) (r : OptRun) : State × OptRun × Option OptEnd :=
  let va := gqDesc (optGsa r.blk)
  match xlate s (hartDie h) (looksIn h) (hartCtx s h) va .readWrite r.ref with
  | (s, .ok pa) =>
    let (s, l, bad) := lineRead s pa 64
    let s := if bad then poisonReportAt s h r.pc 2 (w64 va) else s
    if ops.any (·.await == .queue pa) || !gqTurn s pa false (.hart h) then (gqEnter s pa (.hart h), r, some (.wait (.queue pa)))
    else if gqOcc l = 0 then
      if gqEn l then (gqEnter s pa (.hart h), r, some (.wait (.queue pa))) else (s, r, some .fault)
    else
      let es := optEntry s l va
      (physWrite (gqLeave s pa (.hart h)) pa 64 (gqAfterPop l),
        { r with pops := r.pops + 1, pend := es.map (·.1), fl := es.foldl (fun f e => f ||| e.2) r.fl }, none)
  | (s, .absent vpn) => (s, r, some (.wait (.page (hartCtx s h) vpn)))
  | (s, _) => (s, r, some .fault)

/-- One action of an OPT: an element, or the popping of an entry. -/
def optAct (h : HartId) (ops : List LongOp) (s : State) (r : OptRun) : State × OptRun × Option OptEnd :=
  if optGsrc r.blk then
    match r.pend with
    | (i, g, bad) :: rest =>
      match optElem h ops i g bad s r with
      | (s, r, none) => (s, { r with pend := rest }, none)
      | x => x
    | [] => if r.pops = optCnt r.blk then (s, r, some .done) else optPop h ops s r
  else if r.done = optCnt r.blk then (s, r, some .done)
  else
    match optGrad h ops s r with
    | (s, some e, _, _) => (s, r, some e)
    | (s, none, g, bad) => optElem h ops r.done g bad s r

/-- At most `n` actions. -/
def optLoop (h : HartId) (ops : List LongOp) : Nat → State → OptRun → State × OptRun × OptEnd
  | 0, s, r => (s, r, .done)
  | n + 1, s, r =>
    match optAct h ops s r with
    | (s, r, some e) => (s, r, e)
    | (s, r, none) => optLoop h ops n s r

/-- The most actions that an OPT takes: 64 elements and a pop an entry, and the end. -/
def optFuel (b : Nat) : Nat := 65 * optCnt b + 1

/-- The status of an OPT that ends, which is written to its block last (R310, R311). -/
def optStatus (s : State) (h : HartId) (r : OptRun) (fault : Bool) : State :=
  lineWrite h r.pc s (r.pa + 56) r.ec 8 (r.skip % 2 ^ 32 + 2 ^ 32 * b2n (r.skip != 0) + 2 ^ 33 * b2n fault)

/-- An OPT issues, with its last point of fault behind it (R60, R311): it runs to its end, or as far as it comes, and then waits as an
outstanding operation. -/
def optGo (la : La) (s : State) (r : OptRun) : Out :=
  match optLoop s.cur (me s).out (optFuel r.blk) s r with
  | (s, r, .wait a) =>
    done 4 (modMe s fun x => { x with out := x.out ++ [{ longOp [] with left := lookahead s la.val + 1, await := a, fp := true, fx := .opt r }] })
  | (s, r, e) => issueLong 4 la.val (16 + r.done) { longOp [] with flags := r.fl, fp := true } (optStatus s s.cur r (e == .fault))

/-- The OPT that is operation `i` of hart `h` goes on (R311): it ends, and completes when its writes are acknowledged, or waits again. -/
def optResume (s : State) (h : HartId) (i : Nat) (r : OptRun) : State :=
  match optLoop h ((getHart s h).out.take i) (optFuel r.blk) s r with
  | (s, r, .wait a) => modHart s h fun x => { x with out := x.out.modify i fun o => { o with await := a, fx := .opt r } }
  | (s, r, e) =>
    modHart (optStatus s h r (e == .fault)) h fun x =>
      { x with out := x.out.modify i fun o => { o with due := s.cycle + 16 + r.done, flags := r.fl, fx := .none } }

/-- The alignment and range checks of R311 over (address, alignment). -/
def optAddrs (l : List (Nat × Nat)) (s : State) (k : State → Out) : Out :=
  match l.find? fun a => a.1 % a.2 != 0 with
  | some a => trap 0x18 (w64 a.1) s
  | none =>
    match l.find? fun a => !epCanonical s (hartCtx s s.cur) (w64 a.1) with
    | some a => trap 0x19 (w64 a.1) s
    | none => k s

/-- The gradient queue of gsrc = 1 (R310, R311). -/
def optQueue (f : OptFn) (b : Nat) (s : State) (k : State → Out) : Out :=
  if optCnt b = 0 ∨ (f = .clip ∧ optGsrc b = true) then trap 0x44 4 s
  else if !optGsrc b then k s
  else
    gqChecked false (w64 (optGsa b)) s fun _ l s =>
      if gqType l = 5 ∨ !gqReceiver l s.cur then trap 0x44 4 s else k s

/-- The addresses that R311 checks. -/
def optChecks (f : OptFn) (ea eb b : Nat) : List (Nat × Nat) :=
  match f with
  | .adamw => [(ea, 4), (eb, 8)] ++ (if optGsrc b then [] else [(optGsa b, 4)])
  | .sgdm => [(ea, 4), (eb, 4)] ++ (if optGsrc b then [] else [(optGsa b, 4)])
  | .clip => [(ea, 4)]

/-- An OPT function (R309, R311): it is legal on a mender alone (R48). -/
def optIssue (f : OptFn) (la : La) (ec : EReg) (eb : Option EReg) (ea : EReg) (s : State) : Out :=
  match kindOf s.cur with
  | .thread => illegal s
  | .matSeq | .vecSeq => trap 0x0B (w64 s.iword) s
  | .mender =>
    sources ([eId ea] ++ (eb.map eId).toList ++ [eId ec]) s fun s => roomForLong s fun s =>
      let a := (re (me s) ea).toNat
      let b := (eb.map fun r => (re (me s) r).toNat).getD 0
      let c := re (me s) ec
      blockRead false 64 .readWrite c s fun pa blk s =>
        if optReserved blk then trap 0x01 c s
        else optQueue f blk s fun s => optAddrs (optChecks f a b blk) s fun s =>
          optGo la s ⟨f.code, (me s).pc, a, b, c.toNat, pa, blk, 0, [], 0, 0, 0, none⟩

/-- OPT.ADAMW (R311). -/
def execOptAdamw (la : La) (ec eb ea : EReg) (s : State) : Out := optIssue .adamw la ec (some eb) ea s
/-- OPT.SGDM (R311). -/
def execOptSgdm (la : La) (ec eb ea : EReg) (s : State) : Out := optIssue .sgdm la ec (some eb) ea s
/-- OPT.CLIP (R311). -/
def execOptClip (la : La) (ec ea : EReg) (s : State) : Out := optIssue .clip la ec none ea s

end Sys2Proof.Machine
end

