-- ==== Sys2Proof/Machine/Events.lean ====
section
/-! DEFINITION. Events of harts and walkers: completion of long operations, wait limits, retries, fills, deadlines, page walks and
responses, illegal encodings (R50, R57, R60, R77, R84, R98, R99, R219, R280, R284). -/

namespace Sys2Proof.Machine

/-! ## Long operations (R60) -/

/-- What is due of operation `i` of a hart comes about: an OPT that has waited goes on (R311), another operation completes. -/
def opTurn (s : State) (h : HartId) (i : Nat) (o : LongOp) : State :=
  match o.fx with
  | .opt r => optResume s h i r
  | .none | .load _ _ | .store _ _ | .words _ | .rows _ | .ring _ _ _ => completeOp s h i o

/-- LONG_OP_COMPLETE (R60). -/
def execLongOpComplete (s : State) : Out :=
  match s.ev with
  | .op h i =>
    match (getHart s h).out[i]? with
    | some o => if opDue s h o then .next (opTurn s h i o) else .next s
    | none => .next s
  | _ => .next s

/-! ## Wait limits (R57, R99, R219, R293) -/

/-- The wait of a hart has reached its limit of wlim × 256 cycles; 0 means no limit. -/
def limitReached (s : State) (h : HartId) : Bool :=
  let x := getHart s h
  x.wlim != 0 && decide (x.since + x.wlim.toNat * 256 ≤ s.cycle)

/-- The register that the hart waits on, where the wait has a limit: not a sequencer's wait, nor one on a destination of the
hart's own outstanding operation. A BROT that waits to move has class 6, index 1 (R219). -/
def limitedReg (s : State) (h : HartId) : Option RegId :=
  if kindOf h == .matSeq || kindOf h == .vecSeq then none
  else
    let x := getHart s h
    match x.status with
    | .parked (.reg r) => if hazard x r then none else some r
    | .parked (.ring _ _) => some ⟨.latch, 1⟩
    | _ => none

/-- A register wait is at its limit and goes on. -/
def regLimitDue (s : State) (h : HartId) : Bool :=
  limitReached s h && (limitedReg s h).isSome && !runnable s h && hartHere s h

/-- A waiting BROT of a hart is withdrawn from its successor's router. -/
def dropRing (s : State) (h : HartId) : State :=
  match h with
  | .tile t i => { s with tiles := s.tiles.map fun x => (x.1, { x.2 with ringReq := x.2.ringReq.filter fun r => r.2 != (t, i) }) }
  | .mender _ _ => s

/-- REGISTER_WAIT_LIMIT (R57, R219). -/
def execRegisterWaitLimit (s : State) : Out :=
  match s.ev with
  | .hart h =>
    match regLimitDue s h, limitedReg s h with
    | true, some r => .next (trapOn (dropRing s h) h 0x33 (designation r))
    | _, _ => .next s
  | _ => .next s

/-- The cause of a full/empty wait at its limit (R99). -/
def feCause (sp : AmoSpace) : Nat :=
  match sp with
  | .l => 0x30
  | .m => 0x31
  | .g => 0x32

/-- The full/empty access that the hart waits on: its space and address. One that waits for its target's group to be loaded has no limit
meanwhile, and its count starts anew when it is made again: R88 holds the access, and R293 names no such wait (DESIGN CHOICE; log 42). -/
def feWaiting (s : State) (h : HartId) : Option (AmoSpace × Nat) :=
  match (getHart s h).status with
  | .parked (.word sp ea) | .parked (.wordRetry sp ea _) | .parked (.wordAgain sp ea _) | .parked (.held _ true sp ea _) => some (sp, ea)
  | _ => none

/-- A full/empty wait is at its limit. -/
def feLimitDue (s : State) (h : HartId) : Bool :=
  limitReached s h && (feWaiting s h).isSome && hartHere s h

/-- The requests of a hart are removed from every home. -/
def dropRequests (s : State) (h : HartId) : State :=
  { s with gfe := s.gfe.filter (fun r => r.hart != h),
           tiles := s.tiles.map fun x => (x.1, { x.2 with fe := x.2.fe.filter fun r => r.hart != h }) }

/-- FE_WAIT_LIMIT (R99): a request that is still waiting at its home has not been served; it is removed, and the access traps. -/
def execFeWaitLimit (s : State) : Out :=
  match s.ev with
  | .hart h =>
    match feLimitDue s h, feWaiting s h with
    | true, some (sp, ea) => .next (trapOn (dropRequests s h) h (feCause sp) (w64 ea))
    | _, _ => .next s
  | _ => .next s

/-! ## Retries and deadlines (R77, R84, R98) -/

/-- A request that was refused for a full list is to be sent again. -/
def feRetryDue (s : State) (h : HartId) : Bool :=
  match (getHart s h).status with
  | .parked (.wordRetry _ _ due) => due != 0 && decide (due ≤ s.cycle)
  | _ => false

/-- FE_LIST_FULL_RETRY (R98): the request is sent again; its wait count runs on. -/
def execFeListFullRetry (s : State) : Out :=
  match s.ev with
  | .hart h =>
    match (getHart s h).status with
    | .parked (.wordRetry sp ea due) =>
      if due ≤ s.cycle then .next (modHart s h fun x => { x with status := .parked (.wordRetry sp ea 0) }) else .next s
    | _ => .next s
  | _ => .next s

/-- A PUTR that was refused for a full buffer is to be sent again. -/
def putrRetryDue (s : State) (h : HartId) : Bool :=
  match (getHart s h).status with
  | .parked (.putrRetry due) => decide (due ≤ s.cycle)
  | _ => false

/-- PUTR_RETRY (R84): the PUTR is made again, with its checks. -/
def execPutrRetry (s : State) : Out :=
  match s.ev with
  | .hart h => if putrRetryDue s h then .next (modHart s h fun x => { x with status := .ready }) else .next s
  | _ => .next s

/-- The deadline of a PARK has come. -/
def deadlineDue (s : State) (h : HartId) : Bool :=
  match (getHart s h).status with
  | .parked (.deadline t) => decide (t ≤ timeNs s)
  | _ => false

/-- PARK_DEADLINE (R77). -/
def execParkDeadline (s : State) : Out :=
  match s.ev with
  | .hart h => if deadlineDue s h then .next (modHart s h fun x => { x with status := .ready }) else .next s
  | _ => .next s

/-! ## Fills (R57, R84) -/

/-- A fill can be made: its register is empty, and no earlier fill of it waits (R84). R57 and R84 let a fill into any empty register, and
so here also into one that is empty as a destination of its thread's own outstanding operation, which R60 keeps empty until then (DESIGN
CHOICE; log 43). -/
def fillable (s : State) (t : Nat) (f : Fill) : Bool :=
  let x := getTile s t
  tileRuns s t && !hartRegFull (x.harts.get f.slot) f.reg &&
    (x.fills.find? fun g => g.slot == f.slot && g.reg == f.reg).any (·.id == f.id)

/-- A fill is made: the register is written and full; its first read is to be an acquire; what arrived poisoned fills a poisoned cell,
whose read reports it (R296, R298). -/
def makeFill (f : Fill) (x : Hart) : Hart :=
  let x := putHartReg x f.reg (if f.bad then 0 else f.val.toNat)
  { x with filled := f.reg :: x.filled.filter (· != f.reg),
           flaws := if f.bad then (.reg f.reg, .found) :: healed x (.reg f.reg) else x.flaws }

/-- PUTR_FILL (R84, R112): the register is filled; the PUTR completes. -/
def execPutrFill (s : State) : Out :=
  match s.ev with
  | .tileItem t id =>
    match (getTile s t).fills.find? (·.id == id) with
    | some f =>
      if !fillable s t f then .next s
      else
        let s := modTile s t fun x => { x with fills := x.fills.filter (·.id != id) }
        let s := modHart s (.tile t f.slot) (makeFill f)
        .next (match f.sender with
          | some h => awaitDone s h (.fill id)
          | none => s)
    | none => .next s
  | _ => .next s

/-! ## Pages (R280, R284, R285) -/

/-- PAGE_WALK (R280): a walker of a die completes a walk of a context's address; one that is for no access keeps no bits and sends no
page request (R282). -/
def execPageWalk (s : State) : Out :=
  match s.ev with
  | .walk d c va need =>
    let d := Fin.ofNat 4 d
    match alGet s.ctxs c with
    | some x =>
      if !canonical x.tfd va.toNat then .next s
      else if need = .probe then .next (walkQuiet s d [.die] c x va.toNat).1
      else .next (walkAccess s d [.die] c x va.toNat need).1
    | none => .next s
  | _ => .next s

/-- The page of the request is no longer outstanding; the first fault that queued behind the requests takes its place (R284). -/
def dropPage (s : State) (d : Fin 4) (p : PageReq) : State :=
  let x := s.dies.get d
  { s with dies := s.dies.set d { x with
      preq := x.preq.filter (· != p) ++ x.preqMore.take 1, preqMore := x.preqMore.drop 1
      unitWait := x.unitWait.filter fun w => !(w.ctx == p.ctx && w.vpn == p.vpn) } }

/-- A copy that waits for a page goes on, or meets its refusal (R187). -/
def copyPage (ref : Bool) (vpn : Nat) (c : Copy) : Copy :=
  if c.page = some vpn then { c with page := none, refused := if ref then some vpn else none } else c

/-- The copies on a die that wait for a page of a context. -/
def copyPages (s : State) (d : Fin 4) (c vpn : Nat) (ref : Bool) : State :=
  let onTile (x : Nat × Tile) : Nat × Tile :=
    if dieOf x.1 = d ∧ x.2.ctx = c then (x.1, { x.2 with copies := x.2.copies.map (copyPage ref vpn) }) else x
  let onQueue (q : Nat × Copy) : Nat × Copy :=
    if (s.launches.any fun l => l.key == q.1 && l.ctx == c && l.die == d.val) then (q.1, copyPage ref vpn q.2) else q
  { s with tiles := s.tiles.map onTile, qcopies := s.qcopies.map onQueue }

/-- An OPT that waits for the page goes on, or meets its refusal (R284, R311). -/
def pageOp (now c vpn : Nat) (ref : Bool) (o : LongOp) : LongOp :=
  match o.fx with
  | .opt r =>
    if o.await == .page c vpn then { o with await := .time, due := now, fx := .opt { r with ref := if ref then some vpn else none } } else o
  | .none | .load _ _ | .store _ _ | .words _ | .rows _ | .ring _ _ _ => o

/-- A hart that is parked on a page that is refused meets the refusal when its instruction runs again (R284); its OPTs that wait for the
page go on. -/
def pageHart (now c vpn : Nat) (ref : Bool) (x : Hart) : Hart :=
  let x := if ref && x.status == .parked (.page c vpn) then { x with refused := some vpn } else x
  { x with out := x.out.map (pageOp now c vpn ref) }

/-- The harts on a die after the answer for a page. -/
def pageHarts (s : State) (d : Fin 4) (c vpn : Nat) (ref : Bool) : State :=
  let onTile (x : Nat × Tile) : Nat × Tile :=
    if dieOf x.1 = d then (x.1, { x.2 with harts := vmap x.2.harts (pageHart s.cycle c vpn ref) }) else x
  let onMender (x : Nat × Mender) : Nat × Mender :=
    if x.1 / 32 = d.val then (x.1, { x.2 with harts := vmap x.2.harts (pageHart s.cycle c vpn ref) }) else x
  { s with tiles := s.tiles.map onTile, menders := s.menders.map onMender }

/-- PAGE_RESPONSE (R284): after Success the accesses walk again; after a refusal each of them traps, or records it. -/
def execPageResponse (s : State) : Out :=
  match s.ev with
  | .page k c vpn ans =>
    let d := Fin.ofNat 4 k
    let p : PageReq := ⟨c, vpn⟩
    if !(s.dies.get d).preq.contains p then .next s
    else
      let waits := (s.dies.get d).unitWait.filter fun w => w.ctx == c && w.vpn == vpn
      let s := dropPage s d p
      match ans with
      | .success => .next (pageHarts (copyPages s d c vpn false) d c vpn false)
      | .invalid | .failure =>
        let x := s.dies.get d
        let s := if waits = [] then s else { s with dies := s.dies.set d { x with unitRef := x.unitRef ++ waits } }
        .next (pageHarts (copyPages s d c vpn true) d c vpn true)
  | _ => .next s

/-! ## Illegal encodings (R34, R50) -/

/-- ILLEGAL_INSTRUCTION (R34, R50): the word fetched is no instruction. -/
def execIllegalInstruction (s : State) : Out := illegal s

end Sys2Proof.Machine
end

