-- ==== Sys2Proof/Machine/Fold.lean ====
section
/-! DEFINITION. The Q-folds (R221 to R235). -/

namespace Sys2Proof.Machine

/-! ## Arithmetic (R222) -/

/-- Results with their flags, gathered. -/
def gather (l : List (Nat × BitVec 5)) : List Nat × BitVec 5 := (l.map (·.1), l.foldl (fun f p => f ||| p.2) 0)

/-- A fused step with the flags of R203: a term ∞ × 0 sets NV whatever is added (R222). -/
def withTerm (a b : Nat) (r : Nat × BitVec 5) : Nat × BitVec 5 := (r.1, r.2 ||| (mulV (fv a) (fv b)).2)

/-- acc + a · b and acc − a · b, with one rounding (R222). -/
def stepAdd (a b acc : Nat) : Nat × BitVec 5 := withTerm a b (fma32 a b acc)
def stepSub (a b acc : Nat) : Nat × BitVec 5 := withTerm a b (fms32 a b acc)

/-- Dot (R222): one rounding per step. -/
def dot (a b : List Nat) : Nat × BitVec 5 :=
  (a.zip b).foldl (fun acc p => let r := stepAdd p.1 p.2 acc.1; (r.1, acc.2 ||| r.2)) (0, 0)

/-- acc − a(i) · b(i), one rounding per step (R231). -/
def undot (acc : Nat) (a b : List Nat) : Nat × BitVec 5 :=
  (a.zip b).foldl (fun acc p => let r := stepSub p.1 p.2 acc.1; (r.1, acc.2 ||| r.2)) (acc, 0)

/-- A 32 × 32 matrix as its rows. -/
abbrev Mat := List (List Nat)

/-- The stored words as a matrix, and back. -/
def toMat (l : List W32) : Mat := rowsOf 32 ((List.range 1024).map fun i => (nthW l i).toNat)
def ofMat (m : Mat) : List W32 := m.flatten.map (BitVec.ofNat 32)

/-- A row, a column and an element of a matrix. -/
def matRow (m : Mat) (r : Nat) : List Nat := m.getD r []
def matCol (m : Mat) (c : Nat) : List Nat := m.map fun r => nth r c
def matElem (m : Mat) (r c : Nat) : Nat := nth (matRow m r) c

/-- The matrix with the elements that `f` gives. -/
def matOf (f : Nat → Nat → Nat) : Mat := (List.range 32).map fun r => (List.range 32).map (f r)

/-- The transpose. -/
def matT (m : Mat) : Mat := matOf fun r c => matElem m c r

/-- 1.0. -/
def one32 : Nat := 0x3F80_0000

/-- The identity. -/
def matId : Mat := matOf fun r c => if r = c then one32 else 0

/-- Q · x, or Qᵀ · x where `trans` is set, for a column `x` (R231); of a row x it gives x · Qᵀ, or x · Q. -/
def applyVec (trans : Bool) (f : QFold) (x : List Nat) : List Nat × BitVec 5 :=
  let v := toMat f.v
  if f.dense then gather ((if trans then matT v else v).map fun r => dot r x)
  else
    let t := toMat f.t
    let w := gather ((List.range f.k).map fun i => dot (matCol v i) x)
    let y := gather ((List.range f.k).map fun i =>
      if trans then dot ((matCol t i).take (i + 1)) (w.1.take (i + 1))
      else dot (((matRow t i).take f.k).drop i) (w.1.drop i))
    let r := gather (x.zipIdx.map fun p => undot p.1 ((matRow v p.2).take f.k) y.1)
    (r.1, w.2 ||| y.2 ||| r.2)

/-- Each column, or each row, of a matrix replaced by `applyVec` (R231). -/
def applyCols (trans : Bool) (f : QFold) (x : Mat) : Mat × BitVec 5 :=
  let l := (matT x).map (applyVec trans f)
  (matT (l.map (·.1)), l.foldl (fun g p => g ||| p.2) 0)
def applyRows (trans : Bool) (f : QFold) (x : Mat) : Mat × BitVec 5 :=
  let l := x.map (applyVec trans f)
  (l.map (·.1), l.foldl (fun g p => g ||| p.2) 0)

/-- The explicit Q of a fold (R233). -/
def denseQ (f : QFold) : Mat × BitVec 5 := if f.dense then (toMat f.v, 0) else applyCols false f matId

/-! ## A reflector (R229) -/

/-- What QHH computes: v, τ, β and the flags. -/
structure Reflector where
  v : List Nat
  tau : Nat
  beta : Nat
  fl : BitVec 5
deriving DecidableEq, Repr

/-- The sign bit of an FP32 word inverted. -/
def neg32 (x : Nat) : Nat := if x ≥ 2 ^ 31 then x - 2 ^ 31 else x + 2 ^ 31

/-- The reflector of a column below pivot `p` (R229). -/
def reflect (y : List Nat) (p : Nat) : Reflector :=
  let low := y.drop p
  let fill (l : List Nat) : List Nat := List.replicate p 0 ++ one32 :: l
  if low.any (fun x => !finiteV (fv x)) then ⟨fill (List.replicate (31 - p) nan32), nan32, nan32, NV⟩
  else if (low.drop 1).all (fun x => isZeroV (fv x)) then ⟨fill (List.replicate (31 - p) 0), 0, nth y p, 0⟩
  else
    let mx := low.foldl (fun m x => maxAbs m (fv x)) (.fin false 0 0)
    let e := log2V mx
    let ys := gather (low.map fun x => rne32 (scaleV (fv x) (-e)))
    let alpha := nth ys.1 0
    let sub := ys.1.drop 1
    let sq := dot sub sub
    let q := fma32 alpha alpha sq.1
    let nrm := sqrt32 q.1
    let beta := if alpha < 2 ^ 31 then neg32 nrm.1 else nrm.1
    let d := sub32 beta alpha
    let tau := div32 d.1 beta
    let v := gather (sub.map fun x => div32 x (neg32 d.1))
    let b := rne32 (scaleV (fv beta) e)
    ⟨fill v.1, tau.1, b.1, ys.2 ||| sq.2 ||| q.2 ||| nrm.2 ||| d.2 ||| tau.2 ||| v.2 ||| b.2⟩

/-- Column `j` after QHH (R229). -/
def hhColumn (y : List Nat) (p beta : Nat) : List Nat := y.take p ++ beta :: List.replicate (31 - p) 0

/-! ## Appending (R230) -/

/-- The append of the staged reflector to a *compact* fold with k below 32. -/
def appendCompact (f : QFold) : QFold × BitVec 5 :=
  let v := toMat f.v
  let t := toMat f.t
  let x := f.stageV.map (·.toNat)
  let w := gather ((List.range f.k).map fun i => dot (matCol v i) x)
  let z := gather ((List.range f.k).map fun i => dot (((matRow t i).take f.k).drop i) (w.1.drop i))
  let c := gather (z.1.map fun z => let m := mulV (fv f.stageTau.toNat) (fv z); fin32 (negV m.1, m.2))
  let v' := matOf fun r i => if i = f.k then nth x r else matElem v r i
  let t' := matOf fun r i => if i = f.k then (if r < f.k then nth c.1 r else if r = f.k then f.stageTau.toNat else matElem t r i)
    else matElem t r i
  ({ f with v := ofMat v', t := ofMat t', k := f.k + 1 }, w.2 ||| z.2 ||| c.2)

/-- The append to a *dense* fold: Q := Q · H. -/
def appendDense (f : QFold) : QFold × BitVec 5 :=
  let q := toMat f.v
  let x := f.stageV.map (·.toNat)
  let u := gather (q.map fun r => dot r x)
  let s := gather (u.1.map fun u => mul32 f.stageTau.toNat u)
  let l := (q.zip s.1).map fun r => gather ((r.1.zip x).map fun p => stepSub r.2 p.2 p.1)
  ({ f with v := ofMat (l.map (·.1)) }, u.2 ||| s.2 ||| l.foldl (fun g p => g ||| p.2) 0)

/-- The fold made *dense* (R230). -/
def makeDense (f : QFold) : QFold × BitVec 5 :=
  let q := denseQ f
  ({ f with v := ofMat q.1, t := [], k := 32, dense := true }, q.2)

/-- QAPP (R230). -/
def appendFold (f : QFold) : QFold × BitVec 5 :=
  let r :=
    if !f.dense && f.k < 32 then appendCompact f
    else
      let g := if f.dense then (f, 0) else makeDense f
      let h := appendDense g.1
      (h.1, g.2 ||| h.2)
  ({ r.1 with napp := min (f.napp + 1) 65535, stageOk := false }, r.2)

/-- The latency of an append (R234). -/
def appendLatency (f : QFold) : Nat := 24 + 2 * f.k + (if !f.dense && f.k = 32 then 112 else 0)

/-! ## The QF group (R225 to R227) -/

/-- qcnt of a fold (R224). -/
def qcntOf (f : QFold) : Nat := f.k + 256 * b2n f.dense + 512 * b2n f.stageOk + 65536 * f.napp

/-- A fold of the tile of the executing hart. -/
def myFold (s : State) (q : QReg) : QFold := (getTile s (myTile s)).q.get q

/-- Replaces a fold; qcnt and the full bit stay until completion. -/
def putFold (t : Tile) (q : QReg) (f : QFold) : Tile :=
  { t with q := t.q.set q { f with cnt := (t.q.get q).cnt, full := (t.q.get q).full } }

/-- The operation of a QF instruction that changes fold `q` to `f`, and writes the tiles `cs`. -/
def foldOp (q : QReg) (f : QFold) (cs : List RegId) (fl : BitVec 5) : LongOp :=
  { longOp ((qId q :: cs).map tileWb) with flags := fl, qcnt := [(q.val, qcntOf f)], fp := true }

/-- Tile c[n] as rows, uncorrectable elements zero, and the records of them (R210). A QF instruction names no bank, and R212 does not
say which bank its records hold: the model puts 0 (DESIGN CHOICE; log 43). -/
def accTile (t : Tile) (n : Nat) : Mat := (List.range 32).map fun r => accRead t (accOff n r)
def accTileErrors (t : Tile) (n : Nat) : List Word := (List.range 32).flatMap fun r => accErrors t (accOff n r) r false

/-- The write of tile c[n] whole. -/
def matWords (n : Nat) (m : Mat) : Nat × Nat × Nat := accWords n m.flatten

/-- The reads of accumulator tile `n` of tile `t` meet the errors of its granules (R296). -/
def meetAcc (s : State) (t n : Nat) : State := meetFlaws s t .c (n * 0x1000) 0x1000

/-- QINIT (R223). -/
def execQinit (la : La) (q : QReg) (s : State) : Out :=
  inSet tileHarts s fun s => sources [qId q] s fun s => roomForLong s fun s =>
    issueArray la 8 (foldOp q QFold.reset [] 0) (modTile s (myTile s) fun t => putFold t q QFold.reset)

/-- j, p and LL of a selector (R228). -/
def selJ (v : Nat) : Nat := bits v 0 5
def selP (v : Nat) : Nat := bits v 8 5
def selLL (v : Nat) : Bool := bitAt v 16

/-- The failing check of a selector (R227). -/
def selFault (f : QFold) (w : Word) : Option (Nat × Word) :=
  let v := w.toNat
  if bits v 5 3 ≠ 0 ∨ bits v 13 3 ≠ 0 ∨ v / 2 ^ 17 ≠ 0 then some (0x01, w)
  else if !f.dense ∧ f.k < 32 ∧ selP v ≠ f.k then some (0x43, 1)
  else none

/-- What QHH on tile `n` comes to (R229): the records of its substitutions, the words of column j, the fold with its stage, the
flags. -/
structure HhStep where
  errs : List Word
  words : List (Nat × Nat × Nat)
  fold : QFold
  fl : BitVec 5

/-- QHH on tile `n` (R229). -/
def hhStep (t : Tile) (f : QFold) (n v : Nat) : HhStep :=
  let j := selJ v
  let p := selP v
  let x := (accTile t n).map fun r => nth r j
  let errs := (List.range 32).filterMap fun r =>
    if granBad t .c ((accOff n r + 4 * j) / 32) then some (oerrRecord (accOff n r + 4 * j) 4 r j false) else none
  let y := if selLL v then applyVec true f x else (x, 0)
  let h := reflect y.1 p
  { errs := errs, words := (hhColumn y.1 p h.beta).zipIdx.map fun c => (accOff n c.2 + 4 * j, 4, c.1),
    fold := { f with stageV := h.v.map (BitVec.ofNat 32), stageTau := BitVec.ofNat 32 h.tau, stageP := p, stageOk := true },
    fl := y.2 ||| h.fl }

/-- QHH and QGEN (R229, R230). -/
def householder (append : Bool) (la : La) (n : CTile) (q : QReg) (ea : EReg) (s : State) : Out :=
  inSet tileHarts s fun s => sources [eId ea, qId q, cId n] s fun s => roomForLong s fun s =>
    let f := myFold s q
    let w := re (me s) ea
    match selFault f w with
    | some (c, x) => trap c x s
    | none =>
      let s := meetAcc s (myTile s) n.val
      let t := getTile s (myTile s)
      let r := hhStep t f n.val w.toNat
      let g := if append then appendFold r.fold else (r.fold, 0)
      let lat := (if selLL w.toNat then 48 + 4 * f.k else 24 + 2 * f.k) + (if append then appendLatency f else 0)
      issueArray la lat { foldOp q g.1 [cId n] (r.fl ||| g.2) with fx := .words r.words }
        (setTile s (myTile s) (putFold (oerrLogAll t r.errs) q g.1))

/-- QHH (R229). -/
def execQhh (la : La) (n : CTile) (q : QReg) (ea : EReg) (s : State) : Out := householder false la n q ea s
/-- QGEN (R230). -/
def execQgen (la : La) (n : CTile) (q : QReg) (ea : EReg) (s : State) : Out := householder true la n q ea s

/-- QAPP (R230). -/
def execQapp (la : La) (q : QReg) (s : State) : Out :=
  inSet tileHarts s fun s => sources [qId q] s fun s => roomForLong s fun s =>
    let f := myFold s q
    if !f.stageOk then trap 0x43 2 s
    else
      let r := appendFold f
      issueArray la (appendLatency f) (foldOp q r.1 [] r.2) (modTile s (myTile s) fun t => putFold t q r.1)

/-- QAPL, QAPLT, QAPR, QAPRT and QDENSE (R231, R233): tile c[n] is written whole, at completion. -/
def foldApply (readsTile : Bool) (f : QFold → Mat → Mat × BitVec 5) (la : La) (n : CTile) (q : QReg) (s : State) : Out :=
  inSet tileHarts s fun s => sources [qId q, cId n] s fun s => roomForLong s fun s =>
    let g := myFold s q
    let s := if readsTile then meetAcc s (myTile s) n.val else s
    let t := getTile s (myTile s)
    let r := f g (accTile t n.val)
    issueArray la (if g.dense then 72 else 40 + 3 * g.k)
      { longOp [tileWb (cId n)] with flags := r.2, fp := true, fx := .words [matWords n.val r.1] }
      (setTile s (myTile s) (if readsTile then oerrLogAll t (accTileErrors t n.val) else t))

/-- QAPL (R231). -/
def execQapl (la : La) (n : CTile) (q : QReg) (s : State) : Out := foldApply true (applyCols false) la n q s
/-- QAPLT (R231). -/
def execQaplt (la : La) (n : CTile) (q : QReg) (s : State) : Out := foldApply true (applyCols true) la n q s
/-- QAPR (R231). -/
def execQapr (la : La) (n : CTile) (q : QReg) (s : State) : Out := foldApply true (applyRows true) la n q s
/-- QAPRT (R231). -/
def execQaprt (la : La) (n : CTile) (q : QReg) (s : State) : Out := foldApply true (applyRows false) la n q s
/-- QDENSE (R233). -/
def execQdense (la : La) (n : CTile) (q : QReg) (s : State) : Out := foldApply false (fun f _ => denseQ f) la n q s

/-- The header word of QSAVE (R232). -/
def foldHeader (f : QFold) : Nat := f.k + 256 * b2n f.dense + 65536 * f.napp

/-- T as QSAVE writes it, with the header word at element (31, 0) (R232). -/
def saveT (f : QFold) : Mat :=
  let t := toMat f.t
  matOf fun r c => if r = 31 ∧ c = 0 then foldHeader f else if c < r then 0 else matElem t r c

/-- QSAVE (R232). With n = 15 and c15 empty it parks before it traps with 0x43, reason 3, which R226, R227 and R235 do not order (DESIGN
CHOICE; log 43). -/
def execQsave (la : La) (n : CTile) (q : QReg) (s : State) : Out :=
  inSet tileHarts s fun s =>
    if n.val = 15 then sources [qId q, cId n] s (trap 0x43 3)
    else
      let ts : List RegId := [cId n, ⟨.c, n.val + 1⟩]
      sources (qId q :: ts) s fun s => roomForLong s fun s =>
        let f := myFold s q
        issueArray la 24
          { longOp (ts.map tileWb) with fx := .words [matWords n.val (toMat f.v), matWords (n.val + 1) (saveT f)] } s

/-- The header of QLOAD is malformed (R227). -/
def headerBad (h : Nat) : Bool := bits h 6 2 != 0 || bits h 9 7 != 0 || bits h 0 6 > 32 || (bitAt h 8 && bits h 0 6 != 32)

/-- The fold that QLOAD reads (R232). -/
def loadFold (h : Nat) (v t : Mat) : QFold :=
  let k := bits h 0 6
  if bitAt h 8 then { QFold.reset with v := ofMat v, k := 32, dense := true, napp := bits h 16 16 }
  else
    { QFold.reset with
      v := ofMat (matOf fun r c => if c < k then matElem v r c else 0),
      t := ofMat (matOf fun r c => if r ≤ c ∧ c < k then matElem t r c else 0), k := k, napp := bits h 16 16 }

/-- QLOAD (R232). -/
def execQload (la : La) (n : CTile) (q : QReg) (s : State) : Out :=
  inSet tileHarts s fun s =>
    if n.val = 15 then sources [qId q, cId n] s (trap 0x43 3)
    else
      sources [qId q, cId n, ⟨.c, n.val + 1⟩] s fun s => roomForLong s fun s =>
        let s := meetAcc (meetAcc s (myTile s) n.val) (myTile s) (n.val + 1)
        let t := getTile s (myTile s)
        let tm := accTile t (n.val + 1)
        let h := matElem tm 31 0
        if headerBad h then trap 0x43 4 s
        else
          let f := loadFold h (accTile t n.val) tm
          issueArray la 24 (foldOp q f [] 0)
            (setTile s (myTile s) (putFold (oerrLogAll t (accTileErrors t n.val ++ accTileErrors t (n.val + 1))) q f))

end Sys2Proof.Machine
end

