-- ==== Sys2Proof/Machine/Priv.lean ====
section
/-! DEFINITION. TLBINV and TLBPROBE (R286 to R288). -/

namespace Sys2Proof.Machine

/-- The translations of a die that TLBINV drops (R287). -/
def tlbMatches (kind c va : Nat) (e : Tlb) : Bool :=
  match kind with
  | 0 => e.ctx == c && va / 2 ^ (12 + 9 * e.lvl) == e.vpn / 2 ^ (9 * e.lvl)
  | 1 => e.ctx == c
  | _ => true

/-- The walk-cache entries of a die that TLBINV drops (R287). -/
def walkMatches (kind c va : Nat) (e : WalkEntry) : Bool :=
  match kind with
  | 0 => e.ctx == c && va / 2 ^ (21 + 9 * e.lvl) == e.pre
  | 1 => e.ctx == c
  | _ => true

/-- Every die drops its matching translations and walk-cache entries. -/
def tlbDrop (s : State) (kind c va : Nat) : State :=
  { s with dies := vmap s.dies fun d =>
      { d with tlb := d.tlb.filter fun e => !tlbMatches kind c va e, wcache := d.wcache.filter fun e => !walkMatches kind c va e } }

/-- TLBINV (R287). -/
def execTlbinv (b a : GReg) (s : State) : Out :=
  inSet threadOnly s fun s => supOnly s fun s => sources [gId a, gId b] s fun s =>
    let w := (rg (me s) b).toNat
    if bits w 2 14 ≠ 0 ∨ w / 2 ^ 32 ≠ 0 ∨ bits w 0 2 = 3 then trap 0x01 (rg (me s) b) s
    else drained s fun s =>
      let c := bits w 16 16
      done 4 (tlbDrop s (bits w 0 2) (if c = 0 then hartCtx s s.cur else c) (rg (me s) a).toNat)

/-- The result of TLBPROBE for a leaf (R288). A leaf that does not permit the read that TLBPROBE needs (R281) is *unreadable*, outcome 2:
the instruction never traps on the address (DEDUCED; log 45). -/
def probeWord (t : Tfd) (pte lvl pa : Nat) : Nat :=
  1 + 2 * b2n (bitAt pte t.rpos) + 4 * b2n (bitAt pte t.wpos) + 8 * b2n (bitAt pte t.xpos) + 16 * b2n (bitAt pte t.upos) +
    32 * b2n (bitAt pte t.apos) + 64 * b2n (bitAt pte t.dpos) + 128 * lvl +
    if permits t pte .probe then pa / 4096 * 4096 else 2 * 2 ^ 9

/-- The result of TLBPROBE for an address: from the translation that a TLB holds, or from a walk (R288). -/
def probe (s : State) (h : HartId) (va : Nat) : State × Nat :=
  match alGet s.ctxs (hartCtx s h) with
  | none => (s, 2 * 2 ^ 9)
  | some x =>
    if !canonical x.tfd va then (s, 3 * 2 ^ 9)
    else
      match tlbLook (s.dies.get (hartDie h)) (hartCtx s h) va (looksIn h) with
      | some e => (s, probeWord x.tfd e.pte e.lvl (leafPa e.frame e.lvl va))
      | none =>
        match walkQuiet s (hartDie h) (looksIn h) (hartCtx s h) x va with
        | (s, .leaf l) => (s, probeWord x.tfd l.pte l.lvl (leafPa l.frame l.lvl va))
        | (s, .absent) => (s, 1 * 2 ^ 9)
        | (s, .fault) => (s, 2 * 2 ^ 9)

/-- TLBPROBE (R288). -/
def execTlbprobe (d a : GReg) (s : State) : Out :=
  inSet threadOnly s fun s => supOnly s fun s => sources [gId a] s fun s => dests [gId d] s fun s =>
    let (s, v) := probe s s.cur (rg (me s) a).toNat
    done 4 (modMe s fun h => wg h d (w64 v))

end Sys2Proof.Machine
end

