-- ==== Sys2Proof/Machine/Report.lean ====
section
/-! DEFINITION. Posting a report (R272, R273) and the REPORT instruction (R275). -/

namespace Sys2Proof.Machine

/-- The header is malformed (R273). -/
def rqBad (h : Nat) : Bool :=
  bits h 0 6 != 0 || decide (bits h 64 16 < 4 ∨ 16 < bits h 64 16) || bits h 80 48 != 0 || bits h 400 112 != 0

/-- Fields of a report queue header (R272). -/
def rqHead (h : Nat) : Nat := bits h 128 64
def rqTail (h : Nat) : Nat := bits h 192 64
def rqLost (h : Nat) : Nat := bits h 256 64
def rqVec (h : Nat) : Nat := bits h 384 16
def rqFull (h : Nat) : Bool := decide ((rqHead h + 2 ^ 64 - rqTail h) % 2 ^ 64 ≥ 2 ^ bits h 64 16)
def rqRecord (h : Nat) : Nat := bits h 0 64 + 64 * (rqHead h % 2 ^ bits h 64 16)

/-- A report is dropped and counted (R273). -/
def reportLost (s : State) (r : PendReport) : State :=
  let x := s.dies.get r.die
  unitSettled { s with dies := s.dies.set r.die { x with err := { x.err with rlost := satAdd x.err.rlost } } } r.die

/-- The writes of a post, with its pages at hand: the record with the time of the post, head, and notify, which is filled
(R272). -/
def reportWrite (s : State) (r : PendReport) (pa h ra : Nat) : State :=
  let s := physWrite s ra 64 (putBits r.data 192 64 (timeNs s))
  let s := physWrite s (pa + 16) 8 (rqHead h + 1)
  let s := hwFill s (pa + 40) (rqHead h + 1)
  unitSettled (sendMsi s (rqVec h) none) r.die

/-- The record of a report travels to its queue: one that fails a check leaves its line poisoned, and one that is lost drops the report
(R273, R298, R299). -/
def reportSent (s : State) (r : PendReport) (pa h ra : Nat) : State :=
  match travel s with
  | (s, .whole) => reportWrite s r pa h ra
  | (s, .bad) => taintLine (reportWrite s r pa h ra) ra
  | (s, .lost) => reportLost s r

/-- Posts a report: false while it waits for a page (R272, R273). -/
def postReport (s : State) (r : PendReport) : State × Bool :=
  let s := actFor (.report r.src) s
  let va := r.repq.toNat / 64 * 64
  if va = 0 then (reportLost s r, true)
  else
    match unitRead s r.die r.ctx va 64 .readWrite with
    | (s, .wait) => (s, false)
    | (s, .bad _) => (reportLost s r, true)
    | (s, .ok pa h) =>
      if rqBad h then (reportLost s r, true)
      else if rqFull h then (unitSettled (physWrite s (pa + 32) 8 (rqLost h + 1)) r.die, true)
      else
        match unitXlate s r.die r.ctx (rqRecord h % 2 ^ 64) .write with
        | (s, .absent _) => (s, false)
        | (s, .ok ra) =>
          if physPoison s ra 64 then (reportLost s r, true)
          else (reportSent s r pa h ra, true)
        | (s, _) => (reportLost s r, true)

/-- A post has ended: the hart whose REPORT it is goes on (R275). -/
def postEnded (s : State) (r : PendReport) : State :=
  match r.waiter with
  | some (h, next) =>
    match (getHart s h).status with
    | .parked (.remote _) => complete s h next
    | _ => s
  | none => s

/-- Posts the reports of a list in order; a report behind one of its source that waits, waits too (R273). -/
def postAll : List PendReport → State → State
  | [], s => s
  | r :: l, s =>
    if s.reports.any (·.src == r.src) then postAll l { s with reports := s.reports ++ [r] }
    else
      match postReport s r with
      | (s, true) => postAll l (postEnded s r)
      | (s, false) => postAll l { s with reports := s.reports ++ [r] }

/-- Posts what has been reported. -/
def drainReports (s : State) : State :=
  match s.reports with
  | [] => s
  | l => postAll l { s with reports := [] }

/-- REPORT (R275): its report is made, and it completes when the post has ended; a post that waits for a page parks no thread (R273). -/
def execReport (b a : GReg) (s : State) : Out :=
  inSet threadOnly s fun s => supOnly s fun s => sources [gId a, gId b] s fun s =>
    match s.cur with
    | .tile t i =>
      let (s, id) := freshId s
      let r : PendReport :=
        { ctx := (getTile s t).ctx, die := dieOf t, repq := (getTile s t).repq,
          data := record s 11 0 t i.val (me s).pc (rg (me s) a) 0 (rg (me s) b).toNat, src := t,
          waiter := some (s.cur, (me s).pc + 4) }
      .next (drainReports (parkHart { s with reports := s.reports ++ [r] } s.cur (.remote id)))
    | .mender _ _ => done 4 s

end Sys2Proof.Machine
end

