-- ==== Sys2Proof/Machine/Dispatch.lean ====
section
/-! DEFINITION. The one place where each instruction and each event meets its meaning. -/

namespace Sys2Proof.Machine

/-- Executes an instruction, or lets an event come about. -/
def exec (i : Instr) (s : State) : Host.Outcome State Fault Refusal :=
  match i with
  | .add d a b => Sys2Proof.Machine.execAdd d a b s
  | .sub d a b => Sys2Proof.Machine.execSub d a b s
  | .and d a b => Sys2Proof.Machine.execAnd d a b s
  | .or d a b => Sys2Proof.Machine.execOr d a b s
  | .xor d a b => Sys2Proof.Machine.execXor d a b s
  | .sll d a b => Sys2Proof.Machine.execSll d a b s
  | .srl d a b => Sys2Proof.Machine.execSrl d a b s
  | .sra d a b => Sys2Proof.Machine.execSra d a b s
  | .slt d a b => Sys2Proof.Machine.execSlt d a b s
  | .sltn d a b => Sys2Proof.Machine.execSltn d a b s
  | .min d a b => Sys2Proof.Machine.execMin d a b s
  | .max d a b => Sys2Proof.Machine.execMax d a b s
  | .minn d a b => Sys2Proof.Machine.execMinn d a b s
  | .maxn d a b => Sys2Proof.Machine.execMaxn d a b s
  | .addw d a b => Sys2Proof.Machine.execAddw d a b s
  | .subw d a b => Sys2Proof.Machine.execSubw d a b s
  | .mul la d a b => Sys2Proof.Machine.execMul la d a b s
  | .mulh la d a b => Sys2Proof.Machine.execMulh la d a b s
  | .mulhn la d a b => Sys2Proof.Machine.execMulhn la d a b s
  | .mulw la d a b => Sys2Proof.Machine.execMulw la d a b s
  | .div la d a b => Sys2Proof.Machine.execDiv la d a b s
  | .divn la d a b => Sys2Proof.Machine.execDivn la d a b s
  | .rem la d a b => Sys2Proof.Machine.execRem la d a b s
  | .remn la d a b => Sys2Proof.Machine.execRemn la d a b s
  | .clz d a => Sys2Proof.Machine.execClz d a s
  | .ctz d a => Sys2Proof.Machine.execCtz d a s
  | .popc d a => Sys2Proof.Machine.execPopc d a s
  | .rol d a b => Sys2Proof.Machine.execRol d a b s
  | .ror d a b => Sys2Proof.Machine.execRor d a b s
  | .sel d a b => Sys2Proof.Machine.execSel d a b s
  | .bfx d a b => Sys2Proof.Machine.execBfx d a b s
  | .bfi d a b => Sys2Proof.Machine.execBfi d a b s
  | .addi d a imm => Sys2Proof.Machine.execAddi d a imm s
  | .andi d a imm => Sys2Proof.Machine.execAndi d a imm s
  | .ori d a imm => Sys2Proof.Machine.execOri d a imm s
  | .xori d a imm => Sys2Proof.Machine.execXori d a imm s
  | .slti d a imm => Sys2Proof.Machine.execSlti d a imm s
  | .slli d a n => Sys2Proof.Machine.execSlli d a n s
  | .srli d a n => Sys2Proof.Machine.execSrli d a n s
  | .srai d a n => Sys2Proof.Machine.execSrai d a n s
  | .rori d a n => Sys2Proof.Machine.execRori d a n s
  | .ldk d imm => Sys2Proof.Machine.execLdk d imm s
  | .setx e a => Sys2Proof.Machine.execSetx e a s
  | .getx d e => Sys2Proof.Machine.execGetx d e s
  | .beq a b off => Sys2Proof.Machine.execBeq a b off s
  | .bne a b off => Sys2Proof.Machine.execBne a b off s
  | .blt a b off => Sys2Proof.Machine.execBlt a b off s
  | .bge a b off => Sys2Proof.Machine.execBge a b off s
  | .bltn a b off => Sys2Proof.Machine.execBltn a b off s
  | .bgen a b off => Sys2Proof.Machine.execBgen a b off s
  | .bbs a bit off => Sys2Proof.Machine.execBbs a bit off s
  | .bbc a bit off => Sys2Proof.Machine.execBbc a bit off s
  | .jal d off => Sys2Proof.Machine.execJal d off s
  | .jalr d a imm => Sys2Proof.Machine.execJalr d a imm s
  | .park a => Sys2Proof.Machine.execPark a s
  | .csrr d csr => Sys2Proof.Machine.execCsrr d csr s
  | .csrw csr a => Sys2Proof.Machine.execCsrw csr a s
  | .csrs d csr a => Sys2Proof.Machine.execCsrs d csr a s
  | .csrc d csr a => Sys2Proof.Machine.execCsrc d csr a s
  | .csrx d csr a => Sys2Proof.Machine.execCsrx d csr a s
  | .ldl la imm w a d => Sys2Proof.Machine.execLdl la imm w a d s
  | .stl la imm w a d => Sys2Proof.Machine.execStl la imm w a d s
  | .ldm la imm w a d => Sys2Proof.Machine.execLdm la imm w a d s
  | .stm la imm w a d => Sys2Proof.Machine.execStm la imm w a d s
  | .ldg la imm w a d => Sys2Proof.Machine.execLdg la imm w a d s
  | .stg la imm w a d => Sys2Proof.Machine.execStg la imm w a d s
  | .ldh la imm natural a d => Sys2Proof.Machine.execLdh la imm natural a d s
  | .pub la imm a d => Sys2Proof.Machine.execPub la imm a d s
  | .ldws la imm w a d => Sys2Proof.Machine.execLdws la imm w a d s
  | .stws la imm w a d => Sys2Proof.Machine.execStws la imm w a d s
  | .ldas la imm w a d => Sys2Proof.Machine.execLdas la imm w a d s
  | .stas la imm w a d => Sys2Proof.Machine.execStas la imm w a d s
  | .ldcs la imm w a d => Sys2Proof.Machine.execLdcs la imm w a d s
  | .stcs la imm w a d => Sys2Proof.Machine.execStcs la imm w a d s
  | .ldflC imm sz a d => Sys2Proof.Machine.execLdflC imm sz a d s
  | .ldflP imm sz a d => Sys2Proof.Machine.execLdflP imm sz a d s
  | .stflF imm sz a d => Sys2Proof.Machine.execStflF imm sz a d s
  | .stflX imm sz a d => Sys2Proof.Machine.execStflX imm sz a d s
  | .stflE imm a => Sys2Proof.Machine.execStflE imm a s
  | .ldfmC imm sz a d => Sys2Proof.Machine.execLdfmC imm sz a d s
  | .ldfmP imm sz a d => Sys2Proof.Machine.execLdfmP imm sz a d s
  | .stfmF imm sz a d => Sys2Proof.Machine.execStfmF imm sz a d s
  | .stfmX imm sz a d => Sys2Proof.Machine.execStfmX imm sz a d s
  | .stfmE imm a => Sys2Proof.Machine.execStfmE imm a s
  | .ldfgC imm a d => Sys2Proof.Machine.execLdfgC imm a d s
  | .ldfgP imm a d => Sys2Proof.Machine.execLdfgP imm a d s
  | .stfgF imm a d => Sys2Proof.Machine.execStfgF imm a d s
  | .stfgX imm a d => Sys2Proof.Machine.execStfgX imm a d s
  | .stfgE imm a => Sys2Proof.Machine.execStfgE imm a s
  | .amoAddW sp o sc d b a => Sys2Proof.Machine.execAmoAddW sp o sc d b a s
  | .amoAddD sp o sc d b a => Sys2Proof.Machine.execAmoAddD sp o sc d b a s
  | .amoAndD sp o sc d b a => Sys2Proof.Machine.execAmoAndD sp o sc d b a s
  | .amoOrD sp o sc d b a => Sys2Proof.Machine.execAmoOrD sp o sc d b a s
  | .amoXorD sp o sc d b a => Sys2Proof.Machine.execAmoXorD sp o sc d b a s
  | .amoMinD sp o sc d b a => Sys2Proof.Machine.execAmoMinD sp o sc d b a s
  | .amoMaxD sp o sc d b a => Sys2Proof.Machine.execAmoMaxD sp o sc d b a s
  | .amoMinnD sp o sc d b a => Sys2Proof.Machine.execAmoMinnD sp o sc d b a s
  | .amoMaxnD sp o sc d b a => Sys2Proof.Machine.execAmoMaxnD sp o sc d b a s
  | .amoSwapW sp o sc d b a => Sys2Proof.Machine.execAmoSwapW sp o sc d b a s
  | .amoSwapD sp o sc d b a => Sys2Proof.Machine.execAmoSwapD sp o sc d b a s
  | .amoCasW sp o sc d b a => Sys2Proof.Machine.execAmoCasW sp o sc d b a s
  | .amoCasD sp o sc d b a => Sys2Proof.Machine.execAmoCasD sp o sc d b a s
  | .amoFaddU sp o sc d b a => Sys2Proof.Machine.execAmoFaddU sp o sc d b a s
  | .amoFmax sp o sc d b a => Sys2Proof.Machine.execAmoFmax sp o sc d b a s
  | .amoFmin sp o sc d b a => Sys2Proof.Machine.execAmoFmin sp o sc d b a s
  | .amoEsadd sp o sc b a => Sys2Proof.Machine.execAmoEsadd sp o sc b a s
  | .amoEsrd sp o sc d a => Sys2Proof.Machine.execAmoEsrd sp o sc d a s
  | .amoEsclr sp o sc a => Sys2Proof.Machine.execAmoEsclr sp o sc a s
  | .fenceAcq => Sys2Proof.Machine.execFenceAcq s
  | .fenceRel => Sys2Proof.Machine.execFenceRel s
  | .fenceFull => Sys2Proof.Machine.execFenceFull s
  | .spawn d a b => Sys2Proof.Machine.execSpawn d a b s
  | .spawnH d a b => Sys2Proof.Machine.execSpawnH d a b s
  | .sendm d a b => Sys2Proof.Machine.execSendm d a b s
  | .recvm d a => Sys2Proof.Machine.execRecvm d a s
  | .recvmO d a => Sys2Proof.Machine.execRecvmO d a s
  | .peekm d a => Sys2Proof.Machine.execPeekm d a s
  | .clre cls idx => Sys2Proof.Machine.execClre cls idx s
  | .isfull d cls idx => Sys2Proof.Machine.execIsfull d cls idx s
  | .putr la a b => Sys2Proof.Machine.execPutr la a b s
  | .fork mask ea eb => Sys2Proof.Machine.execFork mask ea eb s
  | .kick vector ea => Sys2Proof.Machine.execKick vector ea s
  | .wlpush d a b => Sys2Proof.Machine.execWlpush d a b s
  | .wlpop d a => Sys2Proof.Machine.execWlpop d a s
  | .wlcnt d => Sys2Proof.Machine.execWlcnt d s
  | .tbar d => Sys2Proof.Machine.execTbar d s
  | .qbar d => Sys2Proof.Machine.execQbar d s
  | .clbar d => Sys2Proof.Machine.execClbar d s
  | .stepidle a => Sys2Proof.Machine.execStepidle a s
  | .cpyLm la n ec eb ea => Sys2Proof.Machine.execCpyLm la n ec eb ea s
  | .cpyGl la n ec eb ea => Sys2Proof.Machine.execCpyGl la n ec eb ea s
  | .cpyLg la n ec eb ea => Sys2Proof.Machine.execCpyLg la n ec eb ea s
  | .cpyGg la n ec eb ea => Sys2Proof.Machine.execCpyGg la n ec eb ea s
  | .cpyx n => Sys2Proof.Machine.execCpyx n s
  | .launch ea => Sys2Proof.Machine.execLaunch ea s
  | .vadd t rm k b a d => Sys2Proof.Machine.execVadd t rm k b a d s
  | .vsub t rm k b a d => Sys2Proof.Machine.execVsub t rm k b a d s
  | .vmul t rm k b a d => Sys2Proof.Machine.execVmul t rm k b a d s
  | .vfma t rm k b a d => Sys2Proof.Machine.execVfma t rm k b a d s
  | .vfms t rm k b a d => Sys2Proof.Machine.execVfms t rm k b a d s
  | .vfnma t rm k b a d => Sys2Proof.Machine.execVfnma t rm k b a d s
  | .vmax t k b a d => Sys2Proof.Machine.execVmax t k b a d s
  | .vmin t k b a d => Sys2Proof.Machine.execVmin t k b a d s
  | .vabs t k a d => Sys2Proof.Machine.execVabs t k a d s
  | .vneg t k a d => Sys2Proof.Machine.execVneg t k a d s
  | .vceq t k b a kd => Sys2Proof.Machine.execVceq t k b a kd s
  | .vclt t k b a kd => Sys2Proof.Machine.execVclt t k b a kd s
  | .vcle t k b a kd => Sys2Proof.Machine.execVcle t k b a kd s
  | .vsel t k b a d => Sys2Proof.Machine.execVsel t k b a d s
  | .vrcp t rm k a d => Sys2Proof.Machine.execVrcp t rm k a d s
  | .vrsq t rm k a d => Sys2Proof.Machine.execVrsq t rm k a d s
  | .vsqrt t rm k a d => Sys2Proof.Machine.execVsqrt t rm k a d s
  | .vexp2 t k a d => Sys2Proof.Machine.execVexp2 t k a d s
  | .vlog2 t k a d => Sys2Proof.Machine.execVlog2 t k a d s
  | .vtanh t k a d => Sys2Proof.Machine.execVtanh t k a d s
  | .vamaxu t k j a => Sys2Proof.Machine.execVamaxu t k j a s
  | .viadd t k b a d => Sys2Proof.Machine.execViadd t k b a d s
  | .visub t k b a d => Sys2Proof.Machine.execVisub t k b a d s
  | .vimul t k b a d => Sys2Proof.Machine.execVimul t k b a d s
  | .viand t k b a d => Sys2Proof.Machine.execViand t k b a d s
  | .vior t k b a d => Sys2Proof.Machine.execVior t k b a d s
  | .vixor t k b a d => Sys2Proof.Machine.execVixor t k b a d s
  | .vishl t k b a d => Sys2Proof.Machine.execVishl t k b a d s
  | .vishr t k b a d => Sys2Proof.Machine.execVishr t k b a d s
  | .visra t k b a d => Sys2Proof.Machine.execVisra t k b a d s
  | .vimin t k b a d => Sys2Proof.Machine.execVimin t k b a d s
  | .vimax t k b a d => Sys2Proof.Machine.execVimax t k b a d s
  | .viadds t k b a d => Sys2Proof.Machine.execViadds t k b a d s
  | .visubs t k b a d => Sys2Proof.Machine.execVisubs t k b a d s
  | .viceq t k b a kd => Sys2Proof.Machine.execViceq t k b a kd s
  | .viclt t k b a kd => Sys2Proof.Machine.execViclt t k b a kd s
  | .vcvt t rm j widen part a d => Sys2Proof.Machine.execVcvt t rm j widen part a d s
  | .vquant t rm j mode a d => Sys2Proof.Machine.execVquant t rm j mode a d s
  | .vquantv t rm j thr a d => Sys2Proof.Machine.execVquantv t rm j thr a d s
  | .vdeq t rm j mode a d => Sys2Proof.Machine.execVdeq t rm j mode a d s
  | .sclnext t j => Sys2Proof.Machine.execSclnext t j s
  | .vpack t j b a d => Sys2Proof.Machine.execVpack t j b a d s
  | .vunpk t j h a d => Sys2Proof.Machine.execVunpk t j h a d s
  | .vrsumO t k c a d => Sys2Proof.Machine.execVrsumO t k c a d s
  | .vrsumU t k c a d => Sys2Proof.Machine.execVrsumU t k c a d s
  | .vrmax t k c a d => Sys2Proof.Machine.execVrmax t k c a d s
  | .vramax t k c a d => Sys2Proof.Machine.execVramax t k c a d s
  | .vrmin t k c a d => Sys2Proof.Machine.execVrmin t k c a d s
  | .vshuf t k b a d => Sys2Proof.Machine.execVshuf t k b a d s
  | .vbcast t k n a d => Sys2Proof.Machine.execVbcast t k n a d s
  | .vins g n d => Sys2Proof.Machine.execVins g n d s
  | .vext g n a => Sys2Proof.Machine.execVext g n a s
  | .vslide t k n a d => Sys2Proof.Machine.execVslide t k n a d s
  | .mld la bank ea => Sys2Proof.Machine.execMld la bank ea s
  | .mma la n bank ea => Sys2Proof.Machine.execMma la n bank ea s
  | .mmaLatch la n bank => Sys2Proof.Machine.execMmaLatch la n bank s
  | .mmat la n bank ea => Sys2Proof.Machine.execMmat la n bank ea s
  | .mmatLatch la n bank => Sys2Proof.Machine.execMmatLatch la n bank s
  | .mout la bank eb ea => Sys2Proof.Machine.execMout la bank eb ea s
  | .mdrain la n bank => Sys2Proof.Machine.execMdrain la n bank s
  | .mzero la n bank => Sys2Proof.Machine.execMzero la n bank s
  | .ringdef la ea => Sys2Proof.Machine.execRingdef la ea s
  | .latch la ea => Sys2Proof.Machine.execLatch la ea s
  | .qinit la q => Sys2Proof.Machine.execQinit la q s
  | .qhh la n q ea => Sys2Proof.Machine.execQhh la n q ea s
  | .qapp la q => Sys2Proof.Machine.execQapp la q s
  | .qgen la n q ea => Sys2Proof.Machine.execQgen la n q ea s
  | .qapl la n q => Sys2Proof.Machine.execQapl la n q s
  | .qaplt la n q => Sys2Proof.Machine.execQaplt la n q s
  | .qapr la n q => Sys2Proof.Machine.execQapr la n q s
  | .qaprt la n q => Sys2Proof.Machine.execQaprt la n q s
  | .qdense la n q => Sys2Proof.Machine.execQdense la n q s
  | .qsave la n q => Sys2Proof.Machine.execQsave la n q s
  | .qload la n q => Sys2Proof.Machine.execQload la n q s
  | .gqpush b a d => Sys2Proof.Machine.execGqpush b a d s
  | .gqpop b a d => Sys2Proof.Machine.execGqpop b a d s
  | .gqwin b a => Sys2Proof.Machine.execGqwin b a s
  | .gqlen d a => Sys2Proof.Machine.execGqlen d a s
  | .optAdamw la ec eb ea => Sys2Proof.Machine.execOptAdamw la ec eb ea s
  | .optSgdm la ec eb ea => Sys2Proof.Machine.execOptSgdm la ec eb ea s
  | .optClip la ec ea => Sys2Proof.Machine.execOptClip la ec ea s
  | .epopen d a b => Sys2Proof.Machine.execEpopen d a b s
  | .eprec d a b => Sys2Proof.Machine.execEprec d a b s
  | .epclose d a => Sys2Proof.Machine.execEpclose d a s
  | .rwsend d a b => Sys2Proof.Machine.execRwsend d a b s
  | .epstat d a => Sys2Proof.Machine.execEpstat d a s
  | .collDecl la n ea => Sys2Proof.Machine.execCollDecl la n ea s
  | .collAg la n ec eb ea => Sys2Proof.Machine.execCollAg la n ec eb ea s
  | .collRsO la n ec eb ea => Sys2Proof.Machine.execCollRsO la n ec eb ea s
  | .collRsU la n ec eb ea => Sys2Proof.Machine.execCollRsU la n ec eb ea s
  | .collArO la n ec eb ea => Sys2Proof.Machine.execCollArO la n ec eb ea s
  | .collArU la n ec eb ea => Sys2Proof.Machine.execCollArU la n ec eb ea s
  | .collA2a la n ec eb ea => Sys2Proof.Machine.execCollA2a la n ec eb ea s
  | .collBar la n ec => Sys2Proof.Machine.execCollBar la n ec s
  | .tlbinv b a => Sys2Proof.Machine.execTlbinv b a s
  | .tlbprobe d a => Sys2Proof.Machine.execTlbprobe d a s
  | .lkctlStatus d a b => Sys2Proof.Machine.execLkctlStatus d a b s
  | .swreqSwitch d a => Sys2Proof.Machine.execSwreqSwitch d a s
  | .report b a => Sys2Proof.Machine.execReport b a s
  | .cAddi d imm => Sys2Proof.Machine.execCAddi d imm s
  | .cMov d a => Sys2Proof.Machine.execCMov d a s
  | .cAdd d a => Sys2Proof.Machine.execCAdd d a s
  | .cSub d a => Sys2Proof.Machine.execCSub d a s
  | .cAnd d a => Sys2Proof.Machine.execCAnd d a s
  | .cLdlD off a d => Sys2Proof.Machine.execCLdlD off a d s
  | .cStlD off a d => Sys2Proof.Machine.execCStlD off a d s
  | .cBeqz off a => Sys2Proof.Machine.execCBeqz off a s
  | .cBnez off a => Sys2Proof.Machine.execCBnez off a s
  | .cJ off => Sys2Proof.Machine.execCJ off s
  | .nop => Sys2Proof.Machine.execNop s
  | .ecall => Sys2Proof.Machine.execEcall s
  | .ebreak => Sys2Proof.Machine.execEbreak s
  | .tret => Sys2Proof.Machine.execTret s
  | .ifence => Sys2Proof.Machine.execIfence s
  | .fenceLb => Sys2Proof.Machine.execFenceLb s
  | .waitm => Sys2Proof.Machine.execWaitm s
  | .exit => Sys2Proof.Machine.execExit s
  | .yield => Sys2Proof.Machine.execYield s
  | .tid d => Sys2Proof.Machine.execTid d s
  | .rdv => Sys2Proof.Machine.execRdv s
  | .step => Sys2Proof.Machine.execStep s
  | .cpyq => Sys2Proof.Machine.execCpyq s
  | .brot la => Sys2Proof.Machine.execBrot la s
  | .cSysNop => Sys2Proof.Machine.execCSysNop s
  | .cStep => Sys2Proof.Machine.execCStep s
  | .cYield => Sys2Proof.Machine.execCYield s
  | .cExit => Sys2Proof.Machine.execCExit s
  | .cRet => Sys2Proof.Machine.execCRet s
  | .cClre d => Sys2Proof.Machine.execCClre d s
  | .cWaitm => Sys2Proof.Machine.execCWaitm s
  | .bringUp => Sys2Proof.Machine.execBringUp s
  | .attestationStart => Sys2Proof.Machine.execAttestationStart s
  | .attestationDone => Sys2Proof.Machine.execAttestationDone s
  | .thermalTrip => Sys2Proof.Machine.execThermalTrip s
  | .tripClear => Sys2Proof.Machine.execTripClear s
  | .registerWrite => Sys2Proof.Machine.execRegisterWrite s
  | .armAliasStore => Sys2Proof.Machine.execArmAliasStore s
  | .rewardWindowWrite => Sys2Proof.Machine.execRewardWindowWrite s
  | .hostMemAccess => Sys2Proof.Machine.execHostMemAccess s
  | .queueWalk => Sys2Proof.Machine.execQueueWalk s
  | .periodBoundary => Sys2Proof.Machine.execPeriodBoundary s
  | .nodeDispatch => Sys2Proof.Machine.execNodeDispatch s
  | .kernelChecking => Sys2Proof.Machine.execKernelChecking s
  | .groupPlacement => Sys2Proof.Machine.execGroupPlacement s
  | .groupLoad => Sys2Proof.Machine.execGroupLoad s
  | .groupRelease => Sys2Proof.Machine.execGroupRelease s
  | .groupRetire => Sys2Proof.Machine.execGroupRetire s
  | .longOpComplete => Sys2Proof.Machine.execLongOpComplete s
  | .registerWaitLimit => Sys2Proof.Machine.execRegisterWaitLimit s
  | .feWaitLimit => Sys2Proof.Machine.execFeWaitLimit s
  | .feListFullRetry => Sys2Proof.Machine.execFeListFullRetry s
  | .putrFill => Sys2Proof.Machine.execPutrFill s
  | .putrRetry => Sys2Proof.Machine.execPutrRetry s
  | .parkDeadline => Sys2Proof.Machine.execParkDeadline s
  | .spawnAnswer => Sys2Proof.Machine.execSpawnAnswer s
  | .stepAdvance => Sys2Proof.Machine.execStepAdvance s
  | .stepwatchReport => Sys2Proof.Machine.execStepwatchReport s
  | .barrierGenerationComplete => Sys2Proof.Machine.execBarrierGenerationComplete s
  | .barrierWaitReport => Sys2Proof.Machine.execBarrierWaitReport s
  | .tileSleep => Sys2Proof.Machine.execTileSleep s
  | .tileWake => Sys2Proof.Machine.execTileWake s
  | .mailboxPostArrival => Sys2Proof.Machine.execMailboxPostArrival s
  | .copyAccept => Sys2Proof.Machine.execCopyAccept s
  | .copyBurst => Sys2Proof.Machine.execCopyBurst s
  | .copyResume => Sys2Proof.Machine.execCopyResume s
  | .copyPost => Sys2Proof.Machine.execCopyPost s
  | .ringMove => Sys2Proof.Machine.execRingMove s
  | .pageWalk => Sys2Proof.Machine.execPageWalk s
  | .pageResponse => Sys2Proof.Machine.execPageResponse s
  | .tableLineSnoop => Sys2Proof.Machine.execTableLineSnoop s
  | .timeSliceNaming => Sys2Proof.Machine.execTimeSliceNaming s
  | .gangSwitchStop => Sys2Proof.Machine.execGangSwitchStop s
  | .gangSwitchSaveDone => Sys2Proof.Machine.execGangSwitchSaveDone s
  | .gangSwitchRestore => Sys2Proof.Machine.execGangSwitchRestore s
  | .darnerLine => Sys2Proof.Machine.execDarnerLine s
  | .levellerTick => Sys2Proof.Machine.execLevellerTick s
  | .escapeEntry => Sys2Proof.Machine.execEscapeEntry s
  | .linkTrainingDone => Sys2Proof.Machine.execLinkTrainingDone s
  | .linkTrainingTimeout => Sys2Proof.Machine.execLinkTrainingTimeout s
  | .linkIdleTimeout => Sys2Proof.Machine.execLinkIdleTimeout s
  | .idleFlitSend => Sys2Proof.Machine.execIdleFlitSend s
  | .flitReceive => Sys2Proof.Machine.execFlitReceive s
  | .linkWiden => Sys2Proof.Machine.execLinkWiden s
  | .wakeComplete => Sys2Proof.Machine.execWakeComplete s
  | .linkNarrow => Sys2Proof.Machine.execLinkNarrow s
  | .widthFlitReceive => Sys2Proof.Machine.execWidthFlitReceive s
  | .collAccept => Sys2Proof.Machine.execCollAccept s
  | .collMemberAnswer => Sys2Proof.Machine.execCollMemberAnswer s
  | .collMemberTimeout => Sys2Proof.Machine.execCollMemberTimeout s
  | .collPost => Sys2Proof.Machine.execCollPost s
  | .menderSlotStart => Sys2Proof.Machine.execMenderSlotStart s
  | .gqEnClear => Sys2Proof.Machine.execGqEnClear s
  | .rewardArrival => Sys2Proof.Machine.execRewardArrival s
  | .rwsendRemoteAnswer => Sys2Proof.Machine.execRwsendRemoteAnswer s
  | .episodeTimeout => Sys2Proof.Machine.execEpisodeTimeout s
  | .wringerScan => Sys2Proof.Machine.execWringerScan s
  | .episodeRelease => Sys2Proof.Machine.execEpisodeRelease s
  | .illegalInstruction => Sys2Proof.Machine.execIllegalInstruction s
  | .hostPortDown => Sys2Proof.Machine.execHostPortDown s
  | .homeChannelPowerDown => Sys2Proof.Machine.execHomeChannelPowerDown s
  | .selfRefreshEntry => Sys2Proof.Machine.execSelfRefreshEntry s
  | .hostLineSnoop => Sys2Proof.Machine.execHostLineSnoop s
  | .lkctlThresh d a b => Sys2Proof.Machine.execLkctlThresh d a b s
  | .lkctlMaxw d a b => Sys2Proof.Machine.execLkctlMaxw d a b s
  | .lkctlRetrain d a b => Sys2Proof.Machine.execLkctlRetrain d a b s
  | .swreqDefpart d a => Sys2Proof.Machine.execSwreqDefpart d a s
  | .swreqSetrun d a => Sys2Proof.Machine.execSwreqSetrun d a s
  | .swreqDestroy d a => Sys2Proof.Machine.execSwreqDestroy d a s

end Sys2Proof.Machine
end

