-- ==== Sys2Proof/WellFormed.lean ====
section
/-! DEFINITION. Which instructions of `Instr` have an encoding: the operand checks that 03_encoding.md and the object
chapters make on the word itself (R37, R38, R39, R44, R82, R164, R176, R195). -/

namespace Sys2Proof

/-- The widths of LDL, LDM and LDG; with .v the field d[4] is 0 (R37). -/
def loadWidthOk (w : Width) (d : GReg) : Bool := w != .vec || d.val < 16

/-- The widths of STL, STM and STG (R37). -/
def storeWidthOk (w : Width) (d : GReg) : Bool :=
  match w with
  | .byte | .half | .word | .dword => true
  | .vec => d.val < 16
  | .nbyte | .nhalf | .nword => false

/-- The widths of LDWS to STCS (R37). -/
def storeAreaWidthOk (w : Width) (d : GReg) : Bool :=
  match w with
  | .word | .dword => true
  | .vec => d.val < 16
  | .byte | .half | .nbyte | .nhalf | .nword => false

/-- The index of CLRE lies in its class (R81). -/
def clreOk (c : ClreClass) (i : GReg) : Bool :=
  match c with
  | .g => true
  | .e => i.val < 8
  | .v => i.val < 16

/-- The index ranges of the register classes (R22, R82). -/
def regIndexOk (c : RegClass) (i : GReg) : Bool :=
  match c with
  | .g => true
  | .e => i.val < 8
  | .v => i.val < 16
  | .k => i.val < 4
  | .c => i.val < 16
  | .q => i.val < 4
  | .latch => false

/-- FORK: a mask of 0 is illegal, and the pc field of a sequencer the mask leaves out is 0 (R176). -/
def forkOk (mask : SeqMask) (ea eb : EReg) : Bool :=
  mask != 0 && (mask.val % 2 == 1 || ea == 0) && (mask.val / 2 == 1 || eb == 0)

/-- VCVT: for the 16-bit types the part is 0 or 1 (R165). -/
def vcvtOk (t : CTy) (part : Slot4) : Bool :=
  match t with
  | .bf16 | .f16 => part.val < 2
  | .e4m3 | .e5m2 | .e3m2 | .e2m3 | .e2m1 | .nfd => true

/-- The types of VQUANT, VQUANTV and VDEQ: 0 to 4 and 7 (R164). -/
def quantTypeOk (t : CTy) : Bool :=
  match t with
  | .bf16 | .f16 => false
  | .e4m3 | .e5m2 | .e3m2 | .e2m3 | .e2m1 | .nfd => true

/-- VQUANT: modes 0 to 2, the source pair even (R164). -/
def vquantOk (t : CTy) (mode : Slot4) (a : VReg) : Bool := quantTypeOk t && mode.val < 3 && a.val % 2 == 0

/-- VQUANTV: the source group a multiple of 4, the destination pair even (R164). -/
def vquantvOk (t : CTy) (a d : VReg) : Bool := quantTypeOk t && a.val % 4 == 0 && d.val % 2 == 0

/-- VDEQ: the destination pair even; in mode 3 the source pair even and the destination group a multiple of 4 (R164). -/
def vdeqOk (t : CTy) (mode : Slot4) (a d : VReg) : Bool :=
  quantTypeOk t && d.val % 2 == 0 && (mode.val != 3 || (a.val % 2 == 0 && d.val % 4 == 0))

/-- VPACK and VUNPK: type 4, or 7 (R164, R170). -/
def packOk (t : CTy) : Bool := t == .e2m1 || t == .nfd

/-- VRED: the registers va to va + c stay within v15 (R195). -/
def vredOk (a c : VReg) : Bool := a.val + c.val ≤ 15

/-- The instruction has an encoding. An event of the machine has none, and nothing is asked of it here. -/
def WellFormed (i : Instr) : Bool :=
  match i with
  | .ldl _ _ w _ d | .ldm _ _ w _ d | .ldg _ _ w _ d => loadWidthOk w d
  | .stl _ _ w _ d | .stm _ _ w _ d | .stg _ _ w _ d => storeWidthOk w d
  | .ldws _ _ w _ d | .stws _ _ w _ d | .ldas _ _ w _ d | .stas _ _ w _ d | .ldcs _ _ w _ d | .stcs _ _ w _ d =>
    storeAreaWidthOk w d
  | .clre c i => clreOk c i
  | .isfull _ c i => regIndexOk c i
  | .fork m a b => forkOk m a b
  | .vcvt t _ _ _ p _ _ => vcvtOk t p
  | .vquant t _ _ m a _ => vquantOk t m a
  | .vquantv t _ _ _ a d => vquantvOk t a d
  | .vdeq t _ _ m a d => vdeqOk t m a d
  | .vpack t _ _ _ _ | .vunpk t _ _ _ _ => packOk t
  | .vrsumO _ _ c a _ | .vrsumU _ _ c a _ | .vrmax _ _ c a _ | .vramax _ _ c a _ | .vrmin _ _ c a _ => vredOk a c
  | .cAddi d _ | .cMov d _ | .cAdd d _ | .cSub d _ | .cAnd d _ => d != 0
  | _ => true

end Sys2Proof
end

