-- ==== Sys2Proof/Decode.lean ====
section
/-! DEFINITION. The decoder: total on any bytes, rejecting by name what 03_encoding.md calls illegal (R33 to R47), and after
it the encoder, written from the same encoding tables. Fields are taken from the word as a natural number: a field whose
lowest bit has weight `p` and which takes `n` values is `fld w p n`. -/

namespace Sys2Proof

/-- Why a word is no instruction (R34, R37 to R41, R44 to R47). -/
inductive DecodeError where
  /-- fewer bytes than the word needs -/
  | truncated
  /-- the all-zero halfword, or a 32-bit word of major 0x00 or 0x3F (R34) -/
  | permanentlyIllegal
  /-- a major the map leaves reserved (R46) -/
  | reservedMajor
  /-- a function code not listed (R46) -/
  | badFunction
  /-- a must-be-zero field that is nonzero (R3, R46) -/
  | mustBeZero
  /-- a lookahead field where R41 requires zero -/
  | badLookahead
  /-- a width marked illegal in R37 -/
  | badWidth
  /-- an element type outside the legal set (R39) -/
  | badType
  /-- a scope code 6 or 7, or FENCE.lb with a scope (R7, R109) -/
  | badScope
  /-- a register class outside R38 or R82 -/
  | badClass
  /-- a register index or group the form does not allow -/
  | badRegister
  /-- a FORK mask or pc field the form does not allow (R176) -/
  | badMask
  /-- a field outside its range (R164, R195) -/
  | badField
  /-- a CSR operation code 5 to 7 (R67) -/
  | badCsrOp
  /-- a compact form whose d field is zero (R44) -/
  | zeroDestination
deriving DecidableEq, Repr

/-- The instruction if the condition holds, else the named error. -/
def need (c : Bool) (e : DecodeError) (i : Instr) : Except DecodeError Instr := if c then .ok i else .error e

/-! ## Fields of the 32-bit formats (R35) -/

/-- major, bits [6:1]. -/
def majorF (w : Nat) : Nat := fld w 2 64
/-- d, bits [11:7]. -/
def dF (w : Nat) : Nat := fld w 128 32
/-- a, bits [16:12]. -/
def aF (w : Nat) : Nat := fld w 4096 32
/-- b, bits [21:17]. -/
def bF (w : Nat) : Nat := fld w 131072 32
/-- f, bits [26:22]. -/
def fF (w : Nat) : Nat := fld w 4194304 32
/-- x, bits [31:27]. -/
def xF (w : Nat) : Nat := fld w 134217728 32
/-- The d field as a g-register. -/
def rd (w : Nat) : GReg := Fin.ofNat 32 (w / 128)
/-- The a field as a g-register. -/
def ra (w : Nat) : GReg := Fin.ofNat 32 (w / 4096)
/-- The b field as a g-register. -/
def rb (w : Nat) : GReg := Fin.ofNat 32 (w / 131072)
/-- The lookahead in x[30:27] (R38). -/
def laX (w : Nat) : La := Fin.ofNat 16 (w / 134217728)
/-- The lookahead of the M and E formats, bits [31:28]. -/
def laM (w : Nat) : La := Fin.ofNat 16 (w / 268435456)
/-- la of the E format as a number. -/
def laE (w : Nat) : Nat := fld w 268435456 16
/-- n of the E format, bits [27:24]. -/
def nE (w : Nat) : Nat := fld w 16777216 16
/-- m of the E format, bits [23:21]. -/
def mE (w : Nat) : Nat := fld w 2097152 8
/-- ec, bits [20:18]. -/
def ecF (w : Nat) : Nat := fld w 262144 8
/-- eb, bits [17:15]. -/
def ebF (w : Nat) : Nat := fld w 32768 8
/-- ea, bits [14:12]. -/
def eaF (w : Nat) : Nat := fld w 4096 8
/-- f of the E format, bits [11:7]. -/
def fE (w : Nat) : Nat := fld w 128 32
/-- The type code t[31:29] of the V format. -/
def tF (w : Nat) : Nat := fld w 536870912 8
/-- The rounding code t[28:27]. -/
def rmF (w : Nat) : Nat := fld w 134217728 4
/-- f6, bits [26:21]. -/
def f6F (w : Nat) : Nat := fld w 2097152 64
/-- k, bits [20:19]. -/
def kF (w : Nat) : Nat := fld w 524288 4
/-- vb, bits [18:15]. -/
def vbF (w : Nat) : Nat := fld w 32768 16
/-- va, bits [14:11]. -/
def vaF (w : Nat) : Nat := fld w 2048 16
/-- vd, bits [10:7]. -/
def vdF (w : Nat) : Nat := fld w 128 16
/-- k as a register number or tensor slot. -/
def kV (w : Nat) : KReg := Fin.ofNat 4 (w / 524288)
/-- vb as a register number. -/
def bV (w : Nat) : VReg := Fin.ofNat 16 (w / 32768)
/-- va as a register number. -/
def aV (w : Nat) : VReg := Fin.ofNat 16 (w / 2048)
/-- vd as a register number. -/
def dV (w : Nat) : VReg := Fin.ofNat 16 (w / 128)
/-- imm8, bits [27:20]. -/
def imm8F (w : Nat) : Imm8 := BitVec.ofNat 8 (w / 1048576)
/-- imm15, bits [31:17]. -/
def imm15F (w : Nat) : Imm15 := BitVec.ofNat 15 (w / 131072)
/-- x, b, a and d are all zero. -/
def zeroXbad (w : Nat) : Bool := xF w == 0 && bF w == 0 && aF w == 0 && dF w == 0

/-! ## Codes of the enumerations -/

/-- The w code of a width (R37). -/
def Width.code : Width → Nat
  | .byte => 0 | .half => 1 | .word => 2 | .dword => 3 | .nbyte => 4 | .nhalf => 5 | .nword => 6 | .vec => 7
/-- The width of a w code (R37). -/
def widthOf : Nat → Width
  | 0 => .byte | 1 => .half | 2 => .word | 3 => .dword | 4 => .nbyte | 5 => .nhalf | 6 => .nword | _ => .vec
/-- The size bit of a full/empty variant (R37). -/
def FeSize.code : FeSize → Nat
  | .word => 0 | .dword => 1
/-- The full/empty size of a bit. -/
def feSizeOf : Nat → FeSize
  | 0 => .word | _ => .dword
/-- AMOL 0, AMOM 1, AMOG 2 (R46). -/
def AmoSpace.code : AmoSpace → Nat
  | .l => 0 | .m => 1 | .g => 2
/-- The order code (R38). -/
def AmoOrder.code : AmoOrder → Nat
  | .rlx => 0 | .acq => 1 | .rel => 2 | .ar => 3
/-- The order of a code. -/
def amoOrderOf : Nat → AmoOrder
  | 0 => .rlx | 1 => .acq | 2 => .rel | _ => .ar
/-- The scope code (R7). -/
def Scope.code : Scope → Nat
  | .tile => 0 | .quad => 1 | .clu => 2 | .die => 3 | .dev => 4 | .sys => 5
/-- The scope of a code; 6 and 7 are reserved (R7). -/
def scopeOf : Nat → Option Scope
  | 0 => some .tile | 1 => some .quad | 2 => some .clu | 3 => some .die | 4 => some .dev | 5 => some .sys | _ => none
/-- The class code (R58). -/
def RegClass.code : RegClass → Nat
  | .g => 0 | .e => 1 | .v => 2 | .k => 3 | .c => 4 | .q => 5 | .latch => 6
/-- The register class of a code that ISFULL accepts (R82). -/
def regClassOf : Nat → Option RegClass
  | 0 => some .g | 1 => some .e | 2 => some .v | 3 => some .k | 4 => some .c | 5 => some .q | _ => none
/-- The class code of CLRE (R38). -/
def ClreClass.code : ClreClass → Nat
  | .g => 0 | .e => 1 | .v => 2
/-- The class of CLRE (R38). -/
def clreClassOf : Nat → Option ClreClass
  | 0 => some .g | 1 => some .e | 2 => some .v | _ => none
/-- The type code of VFP and VRED (R39). -/
def FTy.code : FTy → Nat
  | .f32 => 0 | .bf16 => 1 | .f16 => 2
/-- The type of VFP and VRED (R39). -/
def ftyOf : Nat → Option FTy
  | 0 => some .f32 | 1 => some .bf16 | 2 => some .f16 | _ => none
/-- The type code of VINT (R39). -/
def ITy.code : ITy → Nat
  | .i32 => 0 | .i16 => 1 | .i8 => 2 | .n32 => 3 | .n16 => 4 | .n8 => 5
/-- The type of VINT (R39). -/
def ityOf : Nat → Option ITy
  | 0 => some .i32 | 1 => some .i16 | 2 => some .i8 | 3 => some .n32 | 4 => some .n16 | 5 => some .n8 | _ => none
/-- The type code of VCVT (R39). -/
def CTy.code : CTy → Nat
  | .e4m3 => 0 | .e5m2 => 1 | .e3m2 => 2 | .e2m3 => 3 | .e2m1 => 4 | .bf16 => 5 | .f16 => 6 | .nfd => 7
/-- The type of VCVT (R39): every code is a type. -/
def ctyOf : Nat → Option CTy
  | 0 => some .e4m3 | 1 => some .e5m2 | 2 => some .e3m2 | 3 => some .e2m3 | 4 => some .e2m1 | 5 => some .bf16
  | 6 => some .f16 | 7 => some .nfd | _ => none
/-- The element width code of VPERM (R39). -/
def EltW.code : EltW → Nat
  | .w32 => 0 | .w16 => 1 | .w8 => 2
/-- The element width of VPERM (R39). -/
def eltwOf : Nat → Option EltW
  | 0 => some .w32 | 1 => some .w16 | 2 => some .w8 | _ => none
/-- The rounding code (R39). -/
def Rm.code : Rm → Nat
  | .frm => 0 | .rne => 1 | .rtz => 2 | .sr => 3
/-- The rounding mode of a code (R39). -/
def rmOf : Nat → Rm
  | 0 => .frm | 1 => .rne | 2 => .rtz | _ => .sr

/-! ## One decoder per major -/

/-- MMA and MMAT: m[1] chooses the ring latch, which names no descriptor (R204). -/
def decMulSrc (w : Nat) (a : La → CTile → Bool → EReg → Instr) (l : La → CTile → Bool → Instr) :
    Except DecodeError Instr :=
  if mE w < 2 then
    need (ecF w == 0 && ebF w == 0) .mustBeZero
      (a (Fin.ofNat 16 (w / 268435456)) (Fin.ofNat 16 (w / 16777216)) (mE w == 1) (Fin.ofNat 8 (w / 4096)))
  else
    need (mE w < 4 && ecF w == 0 && ebF w == 0 && eaF w == 0) .mustBeZero
      (l (Fin.ofNat 16 (w / 268435456)) (Fin.ofNat 16 (w / 16777216)) (mE w == 3))

/-- A VPERM function with an element width (R39). -/
def permOf (w : Nat) (k : EltW → Instr) : Except DecodeError Instr :=
  match eltwOf (tF w) with
  | none => .error .badType
  | some t => need (rmF w == 0) .mustBeZero (k t)

/-- Decodes the ALU major 0x01 (R46, R69). -/
def decAlu (w : Nat) : Except DecodeError Instr :=
  let x := xF w
  match fF w with
  | 0 => need (x == 0) .mustBeZero (.add (rd w) (ra w) (rb w))
  | 1 => need (x == 0) .mustBeZero (.sub (rd w) (ra w) (rb w))
  | 2 => need (x == 0) .mustBeZero (.and (rd w) (ra w) (rb w))
  | 3 => need (x == 0) .mustBeZero (.or (rd w) (ra w) (rb w))
  | 4 => need (x == 0) .mustBeZero (.xor (rd w) (ra w) (rb w))
  | 5 => need (x == 0) .mustBeZero (.sll (rd w) (ra w) (rb w))
  | 6 => need (x == 0) .mustBeZero (.srl (rd w) (ra w) (rb w))
  | 7 => need (x == 0) .mustBeZero (.sra (rd w) (ra w) (rb w))
  | 8 => need (x == 0) .mustBeZero (.slt (rd w) (ra w) (rb w))
  | 9 => need (x == 0) .mustBeZero (.sltn (rd w) (ra w) (rb w))
  | 10 => need (x == 0) .mustBeZero (.min (rd w) (ra w) (rb w))
  | 11 => need (x == 0) .mustBeZero (.max (rd w) (ra w) (rb w))
  | 12 => need (x == 0) .mustBeZero (.minn (rd w) (ra w) (rb w))
  | 13 => need (x == 0) .mustBeZero (.maxn (rd w) (ra w) (rb w))
  | 14 => need (x == 0) .mustBeZero (.addw (rd w) (ra w) (rb w))
  | 15 => need (x == 0) .mustBeZero (.subw (rd w) (ra w) (rb w))
  | 16 => need (x < 16) .badLookahead (.mul (laX w) (rd w) (ra w) (rb w))
  | 17 => need (x < 16) .badLookahead (.mulh (laX w) (rd w) (ra w) (rb w))
  | 18 => need (x < 16) .badLookahead (.mulhn (laX w) (rd w) (ra w) (rb w))
  | 19 => need (x < 16) .badLookahead (.mulw (laX w) (rd w) (ra w) (rb w))
  | 20 => need (x < 16) .badLookahead (.div (laX w) (rd w) (ra w) (rb w))
  | 21 => need (x < 16) .badLookahead (.divn (laX w) (rd w) (ra w) (rb w))
  | 22 => need (x < 16) .badLookahead (.rem (laX w) (rd w) (ra w) (rb w))
  | 23 => need (x < 16) .badLookahead (.remn (laX w) (rd w) (ra w) (rb w))
  | 24 => need (x == 0 && bF w == 0) .mustBeZero (.clz (rd w) (ra w))
  | 25 => need (x == 0 && bF w == 0) .mustBeZero (.ctz (rd w) (ra w))
  | 26 => need (x == 0 && bF w == 0) .mustBeZero (.popc (rd w) (ra w))
  | 27 => need (x == 0) .mustBeZero (.rol (rd w) (ra w) (rb w))
  | 28 => need (x == 0) .mustBeZero (.ror (rd w) (ra w) (rb w))
  | 29 => need (x == 0) .mustBeZero (.sel (rd w) (ra w) (rb w))
  | 30 => need (x == 0) .mustBeZero (.bfx (rd w) (ra w) (rb w))
  | 31 => need (x == 0) .mustBeZero (.bfi (rd w) (ra w) (rb w))
  | _ => .error .badFunction

/-- Decodes the XREG major 0x09 (R42). -/
def decXreg (w : Nat) : Except DecodeError Instr :=
  let x := xF w
  match fF w with
  | 0 => need (x == 0 && bF w == 0 && dF w < 8) .mustBeZero (.setx (Fin.ofNat 8 (w / 128)) (ra w))
  | 1 => need (x == 0 && bF w == 0 && aF w < 8) .mustBeZero (.getx (rd w) (Fin.ofNat 8 (w / 4096)))
  | _ => .error .badFunction

/-- Decodes the SYS major 0x0E (R77). -/
def decSys (w : Nat) : Except DecodeError Instr :=
  let x := xF w
  match fF w with
  | 0 => need (zeroXbad w) .mustBeZero .nop
  | 1 => need (zeroXbad w) .mustBeZero .ecall
  | 2 => need (zeroXbad w) .mustBeZero .ebreak
  | 3 => need (zeroXbad w) .mustBeZero .tret
  | 4 => need (zeroXbad w) .mustBeZero .ifence
  | 5 => need (x == 0 && bF w == 0 && dF w == 0) .mustBeZero (.park (ra w))
  | _ => .error .badFunction

/-- Decodes the function of an atomic (R47). -/
def decAmoF (w : Nat) (sp : AmoSpace) (o : AmoOrder) (sc : Scope) : Except DecodeError Instr :=
  match fF w with
  | 0 => .ok (.amoAddW sp o sc (rd w) (rb w) (ra w))
  | 1 => .ok (.amoAddD sp o sc (rd w) (rb w) (ra w))
  | 2 => .ok (.amoAndD sp o sc (rd w) (rb w) (ra w))
  | 3 => .ok (.amoOrD sp o sc (rd w) (rb w) (ra w))
  | 4 => .ok (.amoXorD sp o sc (rd w) (rb w) (ra w))
  | 5 => .ok (.amoMinD sp o sc (rd w) (rb w) (ra w))
  | 6 => .ok (.amoMaxD sp o sc (rd w) (rb w) (ra w))
  | 7 => .ok (.amoMinnD sp o sc (rd w) (rb w) (ra w))
  | 8 => .ok (.amoMaxnD sp o sc (rd w) (rb w) (ra w))
  | 9 => .ok (.amoSwapW sp o sc (rd w) (rb w) (ra w))
  | 10 => .ok (.amoSwapD sp o sc (rd w) (rb w) (ra w))
  | 11 => .ok (.amoCasW sp o sc (rd w) (rb w) (ra w))
  | 12 => .ok (.amoCasD sp o sc (rd w) (rb w) (ra w))
  | 13 => .ok (.amoFaddU sp o sc (rd w) (rb w) (ra w))
  | 14 => .ok (.amoFmax sp o sc (rd w) (rb w) (ra w))
  | 15 => .ok (.amoFmin sp o sc (rd w) (rb w) (ra w))
  | 16 => need (dF w == 0) .mustBeZero (.amoEsadd sp o sc (rb w) (ra w))
  | 17 => need (bF w == 0) .mustBeZero (.amoEsrd sp o sc (rd w) (ra w))
  | 18 => need (bF w == 0 && dF w == 0) .mustBeZero (.amoEsclr sp o sc (ra w))
  | _ => .error .badFunction

/-- Decodes the SPAWN major 0x28 (R248). -/
def decSpawn (w : Nat) : Except DecodeError Instr :=
  let x := xF w
  match fF w with
  | 0 => need (x == 0) .mustBeZero (.spawn (rd w) (ra w) (rb w))
  | 1 => need (x == 0) .mustBeZero (.spawnH (rd w) (ra w) (rb w))
  | _ => .error .badFunction

/-- Decodes the MBX major 0x29 (R180). -/
def decMbx (w : Nat) : Except DecodeError Instr :=
  let x := xF w
  match fF w with
  | 0 => need (x == 0) .mustBeZero (.sendm (rd w) (ra w) (rb w))
  | 1 => need (x == 0 && dF w == 0 && aF w == 0 && bF w == 0) .mustBeZero (.waitm)
  | 2 => need (x == 0 && bF w == 0) .mustBeZero (.recvm (rd w) (ra w))
  | 3 => need (x == 0 && bF w == 0) .mustBeZero (.recvmO (rd w) (ra w))
  | 4 => need (x == 0 && bF w == 0) .mustBeZero (.peekm (rd w) (ra w))
  | _ => .error .badFunction

/-- Decodes the WL major 0x2C (R252). -/
def decWl (w : Nat) : Except DecodeError Instr :=
  let x := xF w
  match fF w with
  | 0 => need (x == 0) .mustBeZero (.wlpush (rd w) (ra w) (rb w))
  | 1 => need (x == 0 && bF w == 0) .mustBeZero (.wlpop (rd w) (ra w))
  | 2 => need (x == 0 && aF w == 0 && bF w == 0) .mustBeZero (.wlcnt (rd w))
  | _ => .error .badFunction

/-- Decodes the STEPB major 0x2D (R134). -/
def decStepb (w : Nat) : Except DecodeError Instr :=
  let x := xF w
  match fF w with
  | 0 => need (x == 0 && dF w == 0 && aF w == 0 && bF w == 0) .mustBeZero (.step)
  | 1 => need (x == 0 && aF w == 0 && bF w == 0) .mustBeZero (.tbar (rd w))
  | 2 => need (x == 0 && aF w == 0 && bF w == 0) .mustBeZero (.qbar (rd w))
  | 3 => need (x == 0 && aF w == 0 && bF w == 0) .mustBeZero (.clbar (rd w))
  | 4 => need (x == 0 && dF w == 0 && bF w == 0) .mustBeZero (.stepidle (ra w))
  | _ => .error .badFunction

/-- Decodes the EP major 0x3B (R316). -/
def decEp (w : Nat) : Except DecodeError Instr :=
  let x := xF w
  match fF w with
  | 0 => need (x == 0) .mustBeZero (.epopen (rd w) (ra w) (rb w))
  | 1 => need (x == 0) .mustBeZero (.eprec (rd w) (ra w) (rb w))
  | 2 => need (x == 0 && bF w == 0) .mustBeZero (.epclose (rd w) (ra w))
  | 3 => need (x == 0) .mustBeZero (.rwsend (rd w) (ra w) (rb w))
  | 4 => need (x == 0 && bF w == 0) .mustBeZero (.epstat (rd w) (ra w))
  | _ => .error .badFunction

/-- Decodes the PRIV major 0x3D (R274, R286, R330); LKCTL and SWREQ name their operation at run time, so the word decodes
to the first of their rows. -/
def decPriv (w : Nat) : Except DecodeError Instr :=
  let x := xF w
  match fF w with
  | 0 => need (x == 0 && dF w == 0) .mustBeZero (.tlbinv (rb w) (ra w))
  | 1 => need (x == 0 && bF w == 0) .mustBeZero (.tlbprobe (rd w) (ra w))
  | 2 => need (x == 0) .mustBeZero (.lkctlStatus (rd w) (ra w) (rb w))
  | 3 => need (x == 0 && bF w == 0) .mustBeZero (.swreqSwitch (rd w) (ra w))
  | 4 => need (x == 0 && dF w == 0) .mustBeZero (.report (rb w) (ra w))
  | _ => .error .badFunction

/-- Decodes the THR major 0x2A (R78). -/
def decThr (w : Nat) : Except DecodeError Instr :=
  let x := xF w
  match fF w with
  | 0 => need (zeroXbad w) .mustBeZero .exit
  | 1 => need (zeroXbad w) .mustBeZero .yield
  | 2 =>
    match clreClassOf x with
    | none => .error .badClass
    | some c =>
      need (bF w == 0 && aF w == 0) .mustBeZero (.clre c (rd w)) >>= fun i => need (clreOk c (rd w)) .badRegister i
  | 3 =>
    match regClassOf (bF w) with
    | none => .error .badClass
    | some c =>
      need (x == 0) .mustBeZero (.isfull (rd w) c (ra w)) >>= fun i => need (regIndexOk c (ra w)) .badRegister i
  | 4 => need (x < 16 && dF w == 0) .mustBeZero (.putr (laX w) (ra w) (rb w))
  | 5 => need (x == 0 && aF w == 0 && bF w == 0) .mustBeZero (.tid (rd w))
  | _ => .error .badFunction

/-- Decodes the GQ major 0x39 (R307). -/
def decGq (w : Nat) : Except DecodeError Instr :=
  let x := xF w
  match fF w with
  | 0 => need (x == 0 && dF w < 16) .mustBeZero (.gqpush (rb w) (ra w) (Fin.ofNat 16 (w / 128)))
  | 1 => need (x == 0 && dF w < 16) .mustBeZero (.gqpop (rb w) (ra w) (Fin.ofNat 16 (w / 128)))
  | 2 => need (x == 0 && dF w == 0) .mustBeZero (.gqwin (rb w) (ra w))
  | 3 => need (x == 0 && bF w == 0) .mustBeZero (.gqlen (rd w) (ra w))
  | _ => .error .badFunction

/-- Decodes the ENG major 0x2B (R40, R176). -/
def decEng (w : Nat) : Except DecodeError Instr :=
  match fE w with
  | 0 => need (laE w == 0 && mE w == 0 && ecF w == 0 && nE w < 4) .mustBeZero
      (.fork (Fin.ofNat 4 (w / 16777216)) (Fin.ofNat 8 (w / 4096)) (Fin.ofNat 8 (w / 32768))) >>= fun i =>
        need (forkOk (Fin.ofNat 4 (w / 16777216)) (Fin.ofNat 8 (w / 4096)) (Fin.ofNat 8 (w / 32768))) .badMask i
  | 1 => need (laE w == 0 && nE w == 0 && mE w == 0 && ecF w == 0 && ebF w == 0 && eaF w == 0) .mustBeZero (.rdv)
  | 2 => need (laE w == 0 && nE w == 0 && ecF w == 0 && ebF w == 0 && mE w < 2) .mustBeZero (.kick (mE w == 1) (Fin.ofNat 8 (w / 4096)))
  | _ => .error .badFunction

/-- Decodes the CPY major 0x2E (R185). -/
def decCpy (w : Nat) : Except DecodeError Instr :=
  match fE w with
  | 0 => need (mE w == 0) .mustBeZero (.cpyLm (Fin.ofNat 16 (w / 268435456)) (Fin.ofNat 16 (w / 16777216)) (Fin.ofNat 8 (w / 262144)) (Fin.ofNat 8 (w / 32768)) (Fin.ofNat 8 (w / 4096)))
  | 1 => need (mE w == 0) .mustBeZero (.cpyGl (Fin.ofNat 16 (w / 268435456)) (Fin.ofNat 16 (w / 16777216)) (Fin.ofNat 8 (w / 262144)) (Fin.ofNat 8 (w / 32768)) (Fin.ofNat 8 (w / 4096)))
  | 2 => need (mE w == 0) .mustBeZero (.cpyLg (Fin.ofNat 16 (w / 268435456)) (Fin.ofNat 16 (w / 16777216)) (Fin.ofNat 8 (w / 262144)) (Fin.ofNat 8 (w / 32768)) (Fin.ofNat 8 (w / 4096)))
  | 3 => need (mE w == 0) .mustBeZero (.cpyGg (Fin.ofNat 16 (w / 268435456)) (Fin.ofNat 16 (w / 16777216)) (Fin.ofNat 8 (w / 262144)) (Fin.ofNat 8 (w / 32768)) (Fin.ofNat 8 (w / 4096)))
  | 4 => need (laE w == 0 && nE w == 0 && mE w == 0 && ecF w == 0 && ebF w == 0 && eaF w == 0) .mustBeZero (.cpyq)
  | 5 => need (laE w == 0 && mE w == 0 && ecF w == 0 && ebF w == 0 && eaF w == 0) .mustBeZero (.cpyx (Fin.ofNat 16 (w / 16777216)))
  | _ => .error .badFunction

/-- Decodes the KRN major 0x2F (R242). -/
def decKrn (w : Nat) : Except DecodeError Instr :=
  match fE w with
  | 0 => need (laE w == 0 && nE w == 0 && mE w == 0 && ecF w == 0 && ebF w == 0) .mustBeZero (.launch (Fin.ofNat 8 (w / 4096)))
  | _ => .error .badFunction

/-- Decodes the MTX major 0x36 (R204). -/
def decMtx (w : Nat) : Except DecodeError Instr :=
  match fE w with
  | 0 => need (nE w == 0 && ecF w == 0 && ebF w == 0 && mE w < 2) .mustBeZero (.mld (Fin.ofNat 16 (w / 268435456)) (mE w == 1) (Fin.ofNat 8 (w / 4096)))
  | 1 => decMulSrc w .mma .mmaLatch
  | 2 => decMulSrc w .mmat .mmatLatch
  | 3 => need (nE w == 0 && ecF w == 0 && mE w < 2) .mustBeZero (.mout (Fin.ofNat 16 (w / 268435456)) (mE w == 1) (Fin.ofNat 8 (w / 32768)) (Fin.ofNat 8 (w / 4096)))
  | 4 => need (ecF w == 0 && ebF w == 0 && eaF w == 0 && mE w < 2) .mustBeZero (.mdrain (Fin.ofNat 16 (w / 268435456)) (Fin.ofNat 16 (w / 16777216)) (mE w == 1))
  | 5 => need (ecF w == 0 && ebF w == 0 && eaF w == 0 && mE w < 2) .mustBeZero (.mzero (Fin.ofNat 16 (w / 268435456)) (Fin.ofNat 16 (w / 16777216)) (mE w == 1))
  | _ => .error .badFunction

/-- Decodes the RING major 0x37 (R215). -/
def decRing (w : Nat) : Except DecodeError Instr :=
  match fE w with
  | 0 => need (nE w == 0 && mE w == 0 && ecF w == 0 && ebF w == 0) .mustBeZero (.ringdef (Fin.ofNat 16 (w / 268435456)) (Fin.ofNat 8 (w / 4096)))
  | 1 => need (nE w == 0 && mE w == 0 && ecF w == 0 && ebF w == 0) .mustBeZero (.latch (Fin.ofNat 16 (w / 268435456)) (Fin.ofNat 8 (w / 4096)))
  | 2 => need (nE w == 0 && mE w == 0 && ecF w == 0 && ebF w == 0 && eaF w == 0) .mustBeZero (.brot (Fin.ofNat 16 (w / 268435456)))
  | _ => .error .badFunction

/-- Decodes the QF major 0x38 (R225). -/
def decQf (w : Nat) : Except DecodeError Instr :=
  match fE w with
  | 0 => need (nE w == 0 && ecF w == 0 && ebF w == 0 && eaF w == 0 && mE w < 4) .mustBeZero (.qinit (Fin.ofNat 16 (w / 268435456)) (Fin.ofNat 4 (w / 2097152)))
  | 1 => need (ecF w == 0 && ebF w == 0 && mE w < 4) .mustBeZero (.qhh (Fin.ofNat 16 (w / 268435456)) (Fin.ofNat 16 (w / 16777216)) (Fin.ofNat 4 (w / 2097152)) (Fin.ofNat 8 (w / 4096)))
  | 2 => need (nE w == 0 && ecF w == 0 && ebF w == 0 && eaF w == 0 && mE w < 4) .mustBeZero (.qapp (Fin.ofNat 16 (w / 268435456)) (Fin.ofNat 4 (w / 2097152)))
  | 3 => need (ecF w == 0 && ebF w == 0 && mE w < 4) .mustBeZero (.qgen (Fin.ofNat 16 (w / 268435456)) (Fin.ofNat 16 (w / 16777216)) (Fin.ofNat 4 (w / 2097152)) (Fin.ofNat 8 (w / 4096)))
  | 4 => need (ecF w == 0 && ebF w == 0 && eaF w == 0 && mE w < 4) .mustBeZero (.qapl (Fin.ofNat 16 (w / 268435456)) (Fin.ofNat 16 (w / 16777216)) (Fin.ofNat 4 (w / 2097152)))
  | 5 => need (ecF w == 0 && ebF w == 0 && eaF w == 0 && mE w < 4) .mustBeZero (.qaplt (Fin.ofNat 16 (w / 268435456)) (Fin.ofNat 16 (w / 16777216)) (Fin.ofNat 4 (w / 2097152)))
  | 6 => need (ecF w == 0 && ebF w == 0 && eaF w == 0 && mE w < 4) .mustBeZero (.qapr (Fin.ofNat 16 (w / 268435456)) (Fin.ofNat 16 (w / 16777216)) (Fin.ofNat 4 (w / 2097152)))
  | 7 => need (ecF w == 0 && ebF w == 0 && eaF w == 0 && mE w < 4) .mustBeZero (.qaprt (Fin.ofNat 16 (w / 268435456)) (Fin.ofNat 16 (w / 16777216)) (Fin.ofNat 4 (w / 2097152)))
  | 8 => need (ecF w == 0 && ebF w == 0 && eaF w == 0 && mE w < 4) .mustBeZero (.qdense (Fin.ofNat 16 (w / 268435456)) (Fin.ofNat 16 (w / 16777216)) (Fin.ofNat 4 (w / 2097152)))
  | 9 => need (ecF w == 0 && ebF w == 0 && eaF w == 0 && mE w < 4) .mustBeZero (.qsave (Fin.ofNat 16 (w / 268435456)) (Fin.ofNat 16 (w / 16777216)) (Fin.ofNat 4 (w / 2097152)))
  | 10 => need (ecF w == 0 && ebF w == 0 && eaF w == 0 && mE w < 4) .mustBeZero (.qload (Fin.ofNat 16 (w / 268435456)) (Fin.ofNat 16 (w / 16777216)) (Fin.ofNat 4 (w / 2097152)))
  | _ => .error .badFunction

/-- Decodes the OPT major 0x3A (R309). -/
def decOpt (w : Nat) : Except DecodeError Instr :=
  match fE w with
  | 0 => need (nE w == 0 && mE w == 0) .mustBeZero (.optAdamw (Fin.ofNat 16 (w / 268435456)) (Fin.ofNat 8 (w / 262144)) (Fin.ofNat 8 (w / 32768)) (Fin.ofNat 8 (w / 4096)))
  | 1 => need (nE w == 0 && mE w == 0) .mustBeZero (.optSgdm (Fin.ofNat 16 (w / 268435456)) (Fin.ofNat 8 (w / 262144)) (Fin.ofNat 8 (w / 32768)) (Fin.ofNat 8 (w / 4096)))
  | 2 => need (nE w == 0 && mE w == 0 && ebF w == 0) .mustBeZero (.optClip (Fin.ofNat 16 (w / 268435456)) (Fin.ofNat 8 (w / 262144)) (Fin.ofNat 8 (w / 4096)))
  | _ => .error .badFunction

/-- Decodes the COLL major 0x3C (R336). -/
def decColl (w : Nat) : Except DecodeError Instr :=
  match fE w with
  | 0 => need (mE w == 0 && ecF w == 0 && ebF w == 0) .mustBeZero (.collDecl (Fin.ofNat 16 (w / 268435456)) (Fin.ofNat 16 (w / 16777216)) (Fin.ofNat 8 (w / 4096)))
  | 1 => need (mE w == 0) .mustBeZero (.collAg (Fin.ofNat 16 (w / 268435456)) (Fin.ofNat 16 (w / 16777216)) (Fin.ofNat 8 (w / 262144)) (Fin.ofNat 8 (w / 32768)) (Fin.ofNat 8 (w / 4096)))
  | 2 => need (mE w == 0) .mustBeZero (.collRsO (Fin.ofNat 16 (w / 268435456)) (Fin.ofNat 16 (w / 16777216)) (Fin.ofNat 8 (w / 262144)) (Fin.ofNat 8 (w / 32768)) (Fin.ofNat 8 (w / 4096)))
  | 3 => need (mE w == 0) .mustBeZero (.collRsU (Fin.ofNat 16 (w / 268435456)) (Fin.ofNat 16 (w / 16777216)) (Fin.ofNat 8 (w / 262144)) (Fin.ofNat 8 (w / 32768)) (Fin.ofNat 8 (w / 4096)))
  | 4 => need (mE w == 0) .mustBeZero (.collArO (Fin.ofNat 16 (w / 268435456)) (Fin.ofNat 16 (w / 16777216)) (Fin.ofNat 8 (w / 262144)) (Fin.ofNat 8 (w / 32768)) (Fin.ofNat 8 (w / 4096)))
  | 5 => need (mE w == 0) .mustBeZero (.collArU (Fin.ofNat 16 (w / 268435456)) (Fin.ofNat 16 (w / 16777216)) (Fin.ofNat 8 (w / 262144)) (Fin.ofNat 8 (w / 32768)) (Fin.ofNat 8 (w / 4096)))
  | 6 => need (mE w == 0) .mustBeZero (.collA2a (Fin.ofNat 16 (w / 268435456)) (Fin.ofNat 16 (w / 16777216)) (Fin.ofNat 8 (w / 262144)) (Fin.ofNat 8 (w / 32768)) (Fin.ofNat 8 (w / 4096)))
  | 7 => need (mE w == 0 && ebF w == 0 && eaF w == 0) .mustBeZero (.collBar (Fin.ofNat 16 (w / 268435456)) (Fin.ofNat 16 (w / 16777216)) (Fin.ofNat 8 (w / 262144)))
  | _ => .error .badFunction

/-- Decodes the VFP major 0x30 (R192). -/
def decVfp (w : Nat) : Except DecodeError Instr :=
  match ftyOf (tF w) with
  | none => .error .badType
  | some t =>
  match f6F w with
  | 0 => .ok (.vadd t (rmOf (rmF w)) (kV w) (bV w) (aV w) (dV w))
  | 1 => .ok (.vsub t (rmOf (rmF w)) (kV w) (bV w) (aV w) (dV w))
  | 2 => .ok (.vmul t (rmOf (rmF w)) (kV w) (bV w) (aV w) (dV w))
  | 3 => .ok (.vfma t (rmOf (rmF w)) (kV w) (bV w) (aV w) (dV w))
  | 4 => .ok (.vfms t (rmOf (rmF w)) (kV w) (bV w) (aV w) (dV w))
  | 5 => .ok (.vfnma t (rmOf (rmF w)) (kV w) (bV w) (aV w) (dV w))
  | 6 => need (rmF w == 0) .mustBeZero (.vmax t (kV w) (bV w) (aV w) (dV w))
  | 7 => need (rmF w == 0) .mustBeZero (.vmin t (kV w) (bV w) (aV w) (dV w))
  | 8 => need (rmF w == 0 && vbF w == 0) .mustBeZero (.vabs t (kV w) (aV w) (dV w))
  | 9 => need (rmF w == 0 && vbF w == 0) .mustBeZero (.vneg t (kV w) (aV w) (dV w))
  | 10 => need (rmF w == 0 && vdF w < 4) .mustBeZero (.vceq t (kV w) (bV w) (aV w) (Fin.ofNat 4 (w / 128)))
  | 11 => need (rmF w == 0 && vdF w < 4) .mustBeZero (.vclt t (kV w) (bV w) (aV w) (Fin.ofNat 4 (w / 128)))
  | 12 => need (rmF w == 0 && vdF w < 4) .mustBeZero (.vcle t (kV w) (bV w) (aV w) (Fin.ofNat 4 (w / 128)))
  | 13 => need (rmF w == 0) .mustBeZero (.vsel t (kV w) (bV w) (aV w) (dV w))
  | 14 => need (vbF w == 0) .mustBeZero (.vrcp t (rmOf (rmF w)) (kV w) (aV w) (dV w))
  | 15 => need (vbF w == 0) .mustBeZero (.vrsq t (rmOf (rmF w)) (kV w) (aV w) (dV w))
  | 16 => need (vbF w == 0) .mustBeZero (.vsqrt t (rmOf (rmF w)) (kV w) (aV w) (dV w))
  | 17 => need (rmF w == 0 && vbF w == 0) .mustBeZero (.vexp2 t (kV w) (aV w) (dV w))
  | 18 => need (rmF w == 0 && vbF w == 0) .mustBeZero (.vlog2 t (kV w) (aV w) (dV w))
  | 19 => need (rmF w == 0 && vbF w == 0) .mustBeZero (.vtanh t (kV w) (aV w) (dV w))
  | 20 => need (rmF w == 0 && vbF w < 4 && vdF w == 0) .mustBeZero (.vamaxu t (kV w) (Fin.ofNat 4 (w / 32768)) (aV w))
  | _ => .error .badFunction

/-- Decodes the VINT major 0x31 (R194). -/
def decVint (w : Nat) : Except DecodeError Instr :=
  match ityOf (tF w) with
  | none => .error .badType
  | some t =>
  match f6F w with
  | 0 => need (rmF w == 0) .mustBeZero (.viadd t (kV w) (bV w) (aV w) (dV w))
  | 1 => need (rmF w == 0) .mustBeZero (.visub t (kV w) (bV w) (aV w) (dV w))
  | 2 => need (rmF w == 0) .mustBeZero (.vimul t (kV w) (bV w) (aV w) (dV w))
  | 3 => need (rmF w == 0) .mustBeZero (.viand t (kV w) (bV w) (aV w) (dV w))
  | 4 => need (rmF w == 0) .mustBeZero (.vior t (kV w) (bV w) (aV w) (dV w))
  | 5 => need (rmF w == 0) .mustBeZero (.vixor t (kV w) (bV w) (aV w) (dV w))
  | 6 => need (rmF w == 0) .mustBeZero (.vishl t (kV w) (bV w) (aV w) (dV w))
  | 7 => need (rmF w == 0) .mustBeZero (.vishr t (kV w) (bV w) (aV w) (dV w))
  | 8 => need (rmF w == 0) .mustBeZero (.visra t (kV w) (bV w) (aV w) (dV w))
  | 9 => need (rmF w == 0) .mustBeZero (.vimin t (kV w) (bV w) (aV w) (dV w))
  | 10 => need (rmF w == 0) .mustBeZero (.vimax t (kV w) (bV w) (aV w) (dV w))
  | 11 => need (rmF w == 0) .mustBeZero (.viadds t (kV w) (bV w) (aV w) (dV w))
  | 12 => need (rmF w == 0) .mustBeZero (.visubs t (kV w) (bV w) (aV w) (dV w))
  | 13 => need (rmF w == 0 && vdF w < 4) .mustBeZero (.viceq t (kV w) (bV w) (aV w) (Fin.ofNat 4 (w / 128)))
  | 14 => need (rmF w == 0 && vdF w < 4) .mustBeZero (.viclt t (kV w) (bV w) (aV w) (Fin.ofNat 4 (w / 128)))
  | _ => .error .badFunction

/-- Decodes the VCVT major 0x32 (R164). -/
def decVcvt (w : Nat) : Except DecodeError Instr :=
  match ctyOf (tF w) with
  | none => .error .badType
  | some t =>
  match f6F w with
  | 0 => need (fld (vbF w) 4 2 == 0 && vcvtOk t (Fin.ofNat 4 (w / 32768))) .badField
      (.vcvt t (rmOf (rmF w)) (kV w) (fld (vbF w) 8 2 == 1) (Fin.ofNat 4 (w / 32768)) (aV w) (dV w))
  | 1 => need (vbF w < 4 && vquantOk t (Fin.ofNat 4 (w / 32768)) (aV w)) .badField
      (.vquant t (rmOf (rmF w)) (kV w) (Fin.ofNat 4 (w / 32768)) (aV w) (dV w))
  | 2 => need (vquantvOk t (aV w) (dV w)) .badField (.vquantv t (rmOf (rmF w)) (kV w) (bV w) (aV w) (dV w))
  | 3 => need (vbF w < 4 && vdeqOk t (Fin.ofNat 4 (w / 32768)) (aV w) (dV w)) .badField
      (.vdeq t (rmOf (rmF w)) (kV w) (Fin.ofNat 4 (w / 32768)) (aV w) (dV w))
  | 4 => need (rmF w == 0 && vbF w == 0 && vaF w == 0 && vdF w == 0) .mustBeZero (.sclnext t (kV w))
  | 5 => need (rmF w == 0 && packOk t) .badField (.vpack t (kV w) (bV w) (aV w) (dV w))
  | 6 => need (rmF w == 0 && vbF w < 2 && packOk t) .badField (.vunpk t (kV w) (vbF w == 1) (aV w) (dV w))
  | _ => .error .badFunction

/-- Decodes the VRED major 0x33 (R195). -/
def decVred (w : Nat) : Except DecodeError Instr :=
  match ftyOf (tF w) with
  | none => .error .badType
  | some t =>
  match f6F w with
  | 0 => need (rmF w == 0 && vredOk (aV w) (bV w)) .badField (.vrsumO t (kV w) (bV w) (aV w) (dV w))
  | 1 => need (rmF w == 0 && vredOk (aV w) (bV w)) .badField (.vrsumU t (kV w) (bV w) (aV w) (dV w))
  | 2 => need (rmF w == 0 && vredOk (aV w) (bV w)) .badField (.vrmax t (kV w) (bV w) (aV w) (dV w))
  | 3 => need (rmF w == 0 && vredOk (aV w) (bV w)) .badField (.vramax t (kV w) (bV w) (aV w) (dV w))
  | 4 => need (rmF w == 0 && vredOk (aV w) (bV w)) .badField (.vrmin t (kV w) (bV w) (aV w) (dV w))
  | _ => .error .badFunction

/-- Decodes the VPERM major 0x34 (R196); in VINS and VEXT the whole t field is a g-register. -/
def decVperm (w : Nat) : Except DecodeError Instr :=
  match f6F w with
  | 0 => permOf w fun t => .vshuf t (kV w) (bV w) (aV w) (dV w)
  | 1 => permOf w fun t => .vbcast t (kV w) (bV w) (aV w) (dV w)
  | 2 => need (vaF w == 0 && kF w == 0) .mustBeZero (.vins (Fin.ofNat 32 (w / 134217728)) (bV w) (dV w))
  | 3 => need (vdF w == 0 && kF w == 0) .mustBeZero (.vext (Fin.ofNat 32 (w / 134217728)) (bV w) (aV w))
  | 4 => permOf w fun t => .vslide t (kV w) (bV w) (aV w) (dV w)
  | _ => .error .badFunction

/-- The atomics of one space (R38, R47): order in x[31:30], scope in x[29:27]. -/
def decAmo (w : Nat) (sp : AmoSpace) : Except DecodeError Instr :=
  match scopeOf (fld w 134217728 8) with
  | none => .error .badScope
  | some sc => decAmoF w sp (amoOrderOf (fld w 1073741824 4)) sc

/-- FENCE, major 0x27 (R109). -/
def decFence (w : Nat) : Except DecodeError Instr :=
  match scopeOf (xF w) with
  | none => .error .badScope
  | some sc =>
    let z := dF w == 0 && aF w == 0 && bF w == 0
    match fF w with
    | 0 => need z .mustBeZero .fenceAcq
    | 1 => need z .mustBeZero .fenceRel
    | 2 => need z .mustBeZero .fenceFull
    | 3 => need (z && sc == .tile) .badScope .fenceLb
    | _ => .error .badFunction

/-- A load or store of R92, the legal widths given by `ok` (R37). -/
def decMem (w : Nat) (ok : Width → GReg → Bool) (k : La → Imm8 → Width → GReg → GReg → Instr) :
    Except DecodeError Instr :=
  need (ok (widthOf (fld w 131072 8)) (rd w)) .badWidth
    (k (laM w) (imm8F w) (widthOf (fld w 131072 8)) (ra w) (rd w))

/-- A full/empty load in L or M (R37, R97). -/
def decFeLoad (w : Nat) (c p : Imm8 → FeSize → GReg → GReg → Instr) : Except DecodeError Instr :=
  let s := feSizeOf (fld w 131072 2)
  match fld w 262144 4 with
  | 0 => need (laE w == 0) .badLookahead (c (imm8F w) s (ra w) (rd w))
  | 1 => need (laE w == 0) .badLookahead (p (imm8F w) s (ra w) (rd w))
  | _ => .error .badWidth

/-- A full/empty store in L or M (R37, R97). -/
def decFeStore (w : Nat) (f x : Imm8 → FeSize → GReg → GReg → Instr) (e : Imm8 → GReg → Instr) :
    Except DecodeError Instr :=
  let s := feSizeOf (fld w 131072 2)
  match fld w 262144 4 with
  | 0 => need (laE w == 0) .badLookahead (f (imm8F w) s (ra w) (rd w))
  | 1 => need (laE w == 0) .badLookahead (x (imm8F w) s (ra w) (rd w))
  | 2 => need (laE w == 0 && fld w 131072 2 == 0 && dF w == 0) .mustBeZero (e (imm8F w) (ra w))
  | _ => .error .badWidth

/-- A full/empty load in G: the .d variants only (R37). -/
def decFeLoadG (w : Nat) : Except DecodeError Instr :=
  match fld w 131072 8 with
  | 1 => need (laE w == 0) .badLookahead (.ldfgC (imm8F w) (ra w) (rd w))
  | 3 => need (laE w == 0) .badLookahead (.ldfgP (imm8F w) (ra w) (rd w))
  | _ => .error .badWidth

/-- A full/empty store in G: the .d variants and .e (R37). -/
def decFeStoreG (w : Nat) : Except DecodeError Instr :=
  match fld w 131072 8 with
  | 1 => need (laE w == 0) .badLookahead (.stfgF (imm8F w) (ra w) (rd w))
  | 3 => need (laE w == 0) .badLookahead (.stfgX (imm8F w) (ra w) (rd w))
  | 4 => need (laE w == 0 && dF w == 0) .mustBeZero (.stfgE (imm8F w) (ra w))
  | _ => .error .badWidth

/-- SHI, major 0x07 (R72). -/
def decShi (w : Nat) : Except DecodeError Instr :=
  let n : Sh6 := Fin.ofNat 64 (w / 131072)
  let z := fld w 8388608 128 == 0
  match fld w 1073741824 4 with
  | 0 => need z .mustBeZero (.slli (rd w) (ra w) n)
  | 1 => need z .mustBeZero (.srli (rd w) (ra w) n)
  | 2 => need z .mustBeZero (.srai (rd w) (ra w) n)
  | _ => need z .mustBeZero (.rori (rd w) (ra w) n)

/-- BR, major 0x0A (R75). -/
def decBr (w : Nat) : Except DecodeError Instr :=
  let o : Off12 := BitVec.ofNat 12 (w / 1048576)
  let a : GReg := rd w
  let b : GReg := ra w
  match fld w 131072 8 with
  | 0 => .ok (.beq a b o)
  | 1 => .ok (.bne a b o)
  | 2 => .ok (.blt a b o)
  | 3 => .ok (.bge a b o)
  | 4 => .ok (.bltn a b o)
  | 5 => .ok (.bgen a b o)
  | 6 => .ok (.bbs a b o)
  | _ => .ok (.bbc a b o)

/-- CSR, major 0x0F (R67). -/
def decCsr (w : Nat) : Except DecodeError Instr :=
  let c : CsrNo := BitVec.ofNat 12 (w / 131072)
  match fld w 536870912 8 with
  | 0 => need (aF w == 0) .mustBeZero (.csrr (rd w) c)
  | 1 => need (dF w == 0) .mustBeZero (.csrw c (ra w))
  | 2 => .ok (.csrs (rd w) c (ra w))
  | 3 => .ok (.csrc (rd w) c (ra w))
  | 4 => .ok (.csrx (rd w) c (ra w))
  | _ => .error .badCsrOp

/-- LDH, major 0x16: the widths .w and .nw (R139). -/
def decLdh (w : Nat) : Except DecodeError Instr :=
  match fld w 131072 8 with
  | 2 => .ok (.ldh (laM w) (imm8F w) false (ra w) (rd w))
  | 6 => .ok (.ldh (laM w) (imm8F w) true (ra w) (rd w))
  | _ => .error .badWidth

/-- PUB, major 0x17: the width .w (R140). -/
def decPub (w : Nat) : Except DecodeError Instr :=
  need (fld w 131072 8 == 2) .badWidth (.pub (laM w) (imm8F w) (ra w) (rd w))

/-- Decodes a 32-bit word by its major (R46). -/
def decode32 (w : Nat) : Except DecodeError Instr :=
  match majorF w with
  | 0x00 => .error .permanentlyIllegal
  | 0x01 => decAlu w
  | 0x02 => .ok (.addi (rd w) (ra w) (imm15F w))
  | 0x03 => .ok (.andi (rd w) (ra w) (imm15F w))
  | 0x04 => .ok (.ori (rd w) (ra w) (imm15F w))
  | 0x05 => .ok (.xori (rd w) (ra w) (imm15F w))
  | 0x06 => .ok (.slti (rd w) (ra w) (imm15F w))
  | 0x07 => decShi w
  | 0x08 => need (aF w == 0) .mustBeZero (.ldk (rd w) (imm15F w))
  | 0x09 => decXreg w
  | 0x0A => decBr w
  | 0x0B => .ok (.jal (rd w) (BitVec.ofNat 20 (w / 4096)))
  | 0x0C => .ok (.jalr (rd w) (ra w) (imm15F w))
  | 0x0E => decSys w
  | 0x0F => decCsr w
  | 0x10 => decMem w loadWidthOk .ldl
  | 0x11 => decMem w storeWidthOk .stl
  | 0x12 => decMem w loadWidthOk .ldm
  | 0x13 => decMem w storeWidthOk .stm
  | 0x14 => decMem w loadWidthOk .ldg
  | 0x15 => decMem w storeWidthOk .stg
  | 0x16 => decLdh w
  | 0x17 => decPub w
  | 0x18 => decMem w storeAreaWidthOk .ldws
  | 0x19 => decMem w storeAreaWidthOk .stws
  | 0x1A => decMem w storeAreaWidthOk .ldas
  | 0x1B => decMem w storeAreaWidthOk .stas
  | 0x1C => decMem w storeAreaWidthOk .ldcs
  | 0x1D => decMem w storeAreaWidthOk .stcs
  | 0x1E => decFeLoad w .ldflC .ldflP
  | 0x1F => decFeStore w .stflF .stflX .stflE
  | 0x20 => decFeLoad w .ldfmC .ldfmP
  | 0x21 => decFeStore w .stfmF .stfmX .stfmE
  | 0x22 => decFeLoadG w
  | 0x23 => decFeStoreG w
  | 0x24 => decAmo w .l
  | 0x25 => decAmo w .m
  | 0x26 => decAmo w .g
  | 0x27 => decFence w
  | 0x28 => decSpawn w
  | 0x29 => decMbx w
  | 0x2A => decThr w
  | 0x2B => decEng w
  | 0x2C => decWl w
  | 0x2D => decStepb w
  | 0x2E => decCpy w
  | 0x2F => decKrn w
  | 0x30 => decVfp w
  | 0x31 => decVint w
  | 0x32 => decVcvt w
  | 0x33 => decVred w
  | 0x34 => decVperm w
  | 0x36 => decMtx w
  | 0x37 => decRing w
  | 0x38 => decQf w
  | 0x39 => decGq w
  | 0x3A => decOpt w
  | 0x3B => decEp w
  | 0x3C => decColl w
  | 0x3D => decPriv w
  | 0x3F => .error .permanentlyIllegal
  | _ => .error .reservedMajor

/-- C.SYS (R45). -/
def decCsys (w : Nat) : Except DecodeError Instr :=
  let z := fld w 16 32 == 0
  match fld w 512 128 with
  | 0 => need z .mustBeZero .cSysNop
  | 1 => need z .mustBeZero .cStep
  | 2 => need z .mustBeZero .cYield
  | 3 => need z .mustBeZero .cExit
  | 4 => need z .mustBeZero .cRet
  | 5 => .ok (.cClre (Fin.ofNat 32 (w / 16)))
  | 6 => need z .mustBeZero .cWaitm
  | _ => .error .badFunction

/-- The register-register compact forms, f2 in [15:14] (R44). -/
def decCmov (w : Nat) : Except DecodeError Instr :=
  let d : GReg := Fin.ofNat 32 (w / 16)
  let a : GReg := Fin.ofNat 32 (w / 512)
  let nz := d != 0
  match fld w 16384 4 with
  | 0 => need nz .zeroDestination (.cMov d a)
  | 1 => need nz .zeroDestination (.cAdd d a)
  | 2 => need nz .zeroDestination (.cSub d a)
  | _ => need nz .zeroDestination (.cAnd d a)

/-- Decodes a 16-bit word by op3 (R44). -/
def decode16 (w : Nat) : Except DecodeError Instr :=
  let d : GReg := Fin.ofNat 32 (w / 16)
  match fld w 2 8 with
  | 0 => if w = 0 then .error .permanentlyIllegal else need (d != 0) .zeroDestination (.cAddi d (BitVec.ofNat 7 (w / 512)))
  | 1 => decCmov w
  | 2 => .ok (.cLdlD (Fin.ofNat 16 (w / 4096)) (Fin.ofNat 8 (w / 512)) d)
  | 3 => .ok (.cStlD (Fin.ofNat 16 (w / 4096)) (Fin.ofNat 8 (w / 512)) d)
  | 4 => .ok (.cBeqz (BitVec.ofNat 7 (w / 512)) d)
  | 5 => .ok (.cBnez (BitVec.ofNat 7 (w / 512)) d)
  | 6 => .ok (.cJ (BitVec.ofNat 12 (w / 16)))
  | _ => decCsys w

/-- A decoded instruction: what it is, how many bytes it takes, and the word as tval shows it (R50). -/
structure Decoded where
  instr : Instr
  len : Nat
  word : Nat
deriving DecidableEq, Repr

/-- Decodes the word that starts with the low halfword `lo`; `hi` is the next halfword (R33). -/
def decodeHalves (lo hi : Nat) : Except DecodeError Decoded :=
  if lo % 2 = 1 then (decode32 (lo % 65536 + 65536 * (hi % 65536))).map fun i =>
      { instr := i, len := 4, word := lo % 65536 + 65536 * (hi % 65536) }
  else (decode16 (lo % 65536)).map fun i => { instr := i, len := 2, word := lo % 65536 }

/-- The decoder on bytes, lowest address first (R1, R33): the instruction and the bytes that follow it. -/
def decode : List Byte → Except DecodeError (Instr × List Byte)
  | b0 :: b1 :: rest =>
    let lo := b0.toNat + 256 * b1.toNat
    if lo % 2 = 1 then
      match rest with
      | b2 :: b3 :: rest' =>
        (decode32 (lo + 65536 * (b2.toNat + 256 * b3.toNat))).map fun i => (i, rest')
      | _ => .error .truncated
    else (decode16 lo).map fun i => (i, rest)
  | _ => .error .truncated

/-! ## The encoder -/

/-- The R format (R35). -/
def encR (maj f x d a b : Nat) : Nat :=
  1 + 2 * maj + 128 * d + 4096 * a + 131072 * b + 4194304 * f + 134217728 * x
/-- The I format (R35). -/
def encI (maj imm a d : Nat) : Nat := 1 + 2 * maj + 128 * d + 4096 * a + 131072 * imm
/-- The M format (R35). -/
def encM (maj la imm w a d : Nat) : Nat :=
  1 + 2 * maj + 128 * d + 4096 * a + 131072 * w + 1048576 * imm + 268435456 * la
/-- The B format (R35). -/
def encB (cond off b a : Nat) : Nat := 1 + 2 * 10 + 128 * a + 4096 * b + 131072 * cond + 1048576 * off
/-- The J format (R35). -/
def encJ (maj off d : Nat) : Nat := 1 + 2 * maj + 128 * d + 4096 * off
/-- The E format (R35). -/
def encE (maj f la n m ec eb ea : Nat) : Nat :=
  1 + 2 * maj + 128 * f + 4096 * ea + 32768 * eb + 262144 * ec + 2097152 * m + 16777216 * n + 268435456 * la
/-- The V format, t split into type and rounding code (R35, R39). -/
def encV (maj f6 ty rm k vb va vd : Nat) : Nat :=
  1 + 2 * maj + 128 * vd + 2048 * va + 32768 * vb + 524288 * k + 2097152 * f6 + 134217728 * rm + 536870912 * ty
/-- The V format with the whole t field a g-register (R39). -/
def encVt (maj f6 t k vb va vd : Nat) : Nat :=
  1 + 2 * maj + 128 * vd + 2048 * va + 32768 * vb + 524288 * k + 2097152 * f6 + 134217728 * t

/-- The encoding of an instruction: its length in bits and its word; none for the machine's events, which have no
encoding. BROT, TID and C_CLRE take their one operand from the word itself, and it is 0 in the word written here (log 17). -/
def encode : Instr → Option (Nat × Nat)
  | .add d a b => some (32, encR 1 0 (0) d a b)
  | .sub d a b => some (32, encR 1 1 (0) d a b)
  | .and d a b => some (32, encR 1 2 (0) d a b)
  | .or d a b => some (32, encR 1 3 (0) d a b)
  | .xor d a b => some (32, encR 1 4 (0) d a b)
  | .sll d a b => some (32, encR 1 5 (0) d a b)
  | .srl d a b => some (32, encR 1 6 (0) d a b)
  | .sra d a b => some (32, encR 1 7 (0) d a b)
  | .slt d a b => some (32, encR 1 8 (0) d a b)
  | .sltn d a b => some (32, encR 1 9 (0) d a b)
  | .min d a b => some (32, encR 1 10 (0) d a b)
  | .max d a b => some (32, encR 1 11 (0) d a b)
  | .minn d a b => some (32, encR 1 12 (0) d a b)
  | .maxn d a b => some (32, encR 1 13 (0) d a b)
  | .addw d a b => some (32, encR 1 14 (0) d a b)
  | .subw d a b => some (32, encR 1 15 (0) d a b)
  | .mul la d a b => some (32, encR 1 16 (la) d a b)
  | .mulh la d a b => some (32, encR 1 17 (la) d a b)
  | .mulhn la d a b => some (32, encR 1 18 (la) d a b)
  | .mulw la d a b => some (32, encR 1 19 (la) d a b)
  | .div la d a b => some (32, encR 1 20 (la) d a b)
  | .divn la d a b => some (32, encR 1 21 (la) d a b)
  | .rem la d a b => some (32, encR 1 22 (la) d a b)
  | .remn la d a b => some (32, encR 1 23 (la) d a b)
  | .clz d a => some (32, encR 1 24 (0) d a 0)
  | .ctz d a => some (32, encR 1 25 (0) d a 0)
  | .popc d a => some (32, encR 1 26 (0) d a 0)
  | .rol d a b => some (32, encR 1 27 (0) d a b)
  | .ror d a b => some (32, encR 1 28 (0) d a b)
  | .sel d a b => some (32, encR 1 29 (0) d a b)
  | .bfx d a b => some (32, encR 1 30 (0) d a b)
  | .bfi d a b => some (32, encR 1 31 (0) d a b)
  | .addi d a imm => some (32, encI 2 imm.toNat a d)
  | .andi d a imm => some (32, encI 3 imm.toNat a d)
  | .ori d a imm => some (32, encI 4 imm.toNat a d)
  | .xori d a imm => some (32, encI 5 imm.toNat a d)
  | .slti d a imm => some (32, encI 6 imm.toNat a d)
  | .slli d a n => some (32, encI 7 (0 + n) a d)
  | .srli d a n => some (32, encI 7 (8192 + n) a d)
  | .srai d a n => some (32, encI 7 (16384 + n) a d)
  | .rori d a n => some (32, encI 7 (24576 + n) a d)
  | .ldk d imm => some (32, encI 8 imm.toNat 0 d)
  | .setx e a => some (32, encR 9 0 (0) e a 0)
  | .getx d e => some (32, encR 9 1 (0) d e 0)
  | .beq a b off => some (32, encB 0 off.toNat b a)
  | .bne a b off => some (32, encB 1 off.toNat b a)
  | .blt a b off => some (32, encB 2 off.toNat b a)
  | .bge a b off => some (32, encB 3 off.toNat b a)
  | .bltn a b off => some (32, encB 4 off.toNat b a)
  | .bgen a b off => some (32, encB 5 off.toNat b a)
  | .bbs a bit off => some (32, encB 6 off.toNat bit a)
  | .bbc a bit off => some (32, encB 7 off.toNat bit a)
  | .jal d off => some (32, encJ 11 off.toNat d)
  | .jalr d a imm => some (32, encI 12 imm.toNat a d)
  | .nop => some (32, encR 14 0 (0) 0 0 0)
  | .ecall => some (32, encR 14 1 (0) 0 0 0)
  | .ebreak => some (32, encR 14 2 (0) 0 0 0)
  | .tret => some (32, encR 14 3 (0) 0 0 0)
  | .ifence => some (32, encR 14 4 (0) 0 0 0)
  | .park a => some (32, encR 14 5 (0) 0 a 0)
  | .csrr d csr => some (32, encI 15 csr.toNat 0 d)
  | .csrw csr a => some (32, encI 15 (4096 + csr.toNat) a 0)
  | .csrs d csr a => some (32, encI 15 (8192 + csr.toNat) a d)
  | .csrc d csr a => some (32, encI 15 (12288 + csr.toNat) a d)
  | .csrx d csr a => some (32, encI 15 (16384 + csr.toNat) a d)
  | .ldl la imm w a d => some (32, encM 16 la imm.toNat w.code a d)
  | .stl la imm w a d => some (32, encM 17 la imm.toNat w.code a d)
  | .ldm la imm w a d => some (32, encM 18 la imm.toNat w.code a d)
  | .stm la imm w a d => some (32, encM 19 la imm.toNat w.code a d)
  | .ldg la imm w a d => some (32, encM 20 la imm.toNat w.code a d)
  | .stg la imm w a d => some (32, encM 21 la imm.toNat w.code a d)
  | .ldh la imm natural a d => some (32, encM 22 la imm.toNat (2 + 4 * b2n natural) a d)
  | .pub la imm a d => some (32, encM 23 la imm.toNat 2 a d)
  | .ldws la imm w a d => some (32, encM 24 la imm.toNat w.code a d)
  | .stws la imm w a d => some (32, encM 25 la imm.toNat w.code a d)
  | .ldas la imm w a d => some (32, encM 26 la imm.toNat w.code a d)
  | .stas la imm w a d => some (32, encM 27 la imm.toNat w.code a d)
  | .ldcs la imm w a d => some (32, encM 28 la imm.toNat w.code a d)
  | .stcs la imm w a d => some (32, encM 29 la imm.toNat w.code a d)
  | .ldflC imm sz a d => some (32, encM 30 0 imm.toNat (0 + sz.code) a d)
  | .ldflP imm sz a d => some (32, encM 30 0 imm.toNat (2 + sz.code) a d)
  | .stflF imm sz a d => some (32, encM 31 0 imm.toNat (0 + sz.code) a d)
  | .stflX imm sz a d => some (32, encM 31 0 imm.toNat (2 + sz.code) a d)
  | .stflE imm a => some (32, encM 31 0 imm.toNat 4 a 0)
  | .ldfmC imm sz a d => some (32, encM 32 0 imm.toNat (0 + sz.code) a d)
  | .ldfmP imm sz a d => some (32, encM 32 0 imm.toNat (2 + sz.code) a d)
  | .stfmF imm sz a d => some (32, encM 33 0 imm.toNat (0 + sz.code) a d)
  | .stfmX imm sz a d => some (32, encM 33 0 imm.toNat (2 + sz.code) a d)
  | .stfmE imm a => some (32, encM 33 0 imm.toNat 4 a 0)
  | .ldfgC imm a d => some (32, encM 34 0 imm.toNat 1 a d)
  | .ldfgP imm a d => some (32, encM 34 0 imm.toNat 3 a d)
  | .stfgF imm a d => some (32, encM 35 0 imm.toNat 1 a d)
  | .stfgX imm a d => some (32, encM 35 0 imm.toNat 3 a d)
  | .stfgE imm a => some (32, encM 35 0 imm.toNat 4 a 0)
  | .amoAddW sp o sc d b a => some (32, encR (36 + sp.code) 0 (8 * o.code + sc.code) d a b)
  | .amoAddD sp o sc d b a => some (32, encR (36 + sp.code) 1 (8 * o.code + sc.code) d a b)
  | .amoAndD sp o sc d b a => some (32, encR (36 + sp.code) 2 (8 * o.code + sc.code) d a b)
  | .amoOrD sp o sc d b a => some (32, encR (36 + sp.code) 3 (8 * o.code + sc.code) d a b)
  | .amoXorD sp o sc d b a => some (32, encR (36 + sp.code) 4 (8 * o.code + sc.code) d a b)
  | .amoMinD sp o sc d b a => some (32, encR (36 + sp.code) 5 (8 * o.code + sc.code) d a b)
  | .amoMaxD sp o sc d b a => some (32, encR (36 + sp.code) 6 (8 * o.code + sc.code) d a b)
  | .amoMinnD sp o sc d b a => some (32, encR (36 + sp.code) 7 (8 * o.code + sc.code) d a b)
  | .amoMaxnD sp o sc d b a => some (32, encR (36 + sp.code) 8 (8 * o.code + sc.code) d a b)
  | .amoSwapW sp o sc d b a => some (32, encR (36 + sp.code) 9 (8 * o.code + sc.code) d a b)
  | .amoSwapD sp o sc d b a => some (32, encR (36 + sp.code) 10 (8 * o.code + sc.code) d a b)
  | .amoCasW sp o sc d b a => some (32, encR (36 + sp.code) 11 (8 * o.code + sc.code) d a b)
  | .amoCasD sp o sc d b a => some (32, encR (36 + sp.code) 12 (8 * o.code + sc.code) d a b)
  | .amoFaddU sp o sc d b a => some (32, encR (36 + sp.code) 13 (8 * o.code + sc.code) d a b)
  | .amoFmax sp o sc d b a => some (32, encR (36 + sp.code) 14 (8 * o.code + sc.code) d a b)
  | .amoFmin sp o sc d b a => some (32, encR (36 + sp.code) 15 (8 * o.code + sc.code) d a b)
  | .amoEsadd sp o sc b a => some (32, encR (36 + sp.code) 16 (8 * o.code + sc.code) 0 a b)
  | .amoEsrd sp o sc d a => some (32, encR (36 + sp.code) 17 (8 * o.code + sc.code) d a 0)
  | .amoEsclr sp o sc a => some (32, encR (36 + sp.code) 18 (8 * o.code + sc.code) 0 a 0)
  | .fenceAcq => some (32, encR 39 0 (0) 0 0 0)
  | .fenceRel => some (32, encR 39 1 (0) 0 0 0)
  | .fenceFull => some (32, encR 39 2 (0) 0 0 0)
  | .fenceLb => some (32, encR 39 3 0 0 0 0)
  | .spawn d a b => some (32, encR 40 0 (0) d a b)
  | .spawnH d a b => some (32, encR 40 1 (0) d a b)
  | .sendm d a b => some (32, encR 41 0 (0) d a b)
  | .waitm => some (32, encR 41 1 (0) 0 0 0)
  | .recvm d a => some (32, encR 41 2 (0) d a 0)
  | .recvmO d a => some (32, encR 41 3 (0) d a 0)
  | .peekm d a => some (32, encR 41 4 (0) d a 0)
  | .exit => some (32, encR 42 0 (0) 0 0 0)
  | .yield => some (32, encR 42 1 (0) 0 0 0)
  | .clre cls i => some (32, encR 42 2 (cls.code) i 0 0)
  | .isfull d cls i => some (32, encR 42 3 (0) d i cls.code)
  | .putr la a b => some (32, encR 42 4 (la) 0 a b)
  | .tid d => some (32, encR 42 5 (0) d 0 0)
  | .fork mask ea eb => some (32, encE 43 0 (0) (mask) (0) (0) (eb) (ea))
  | .rdv => some (32, encE 43 1 (0) (0) (0) (0) (0) (0))
  | .kick vector ea => some (32, encE 43 2 (0) (0) (b2n vector) (0) (0) (ea))
  | .wlpush d a b => some (32, encR 44 0 (0) d a b)
  | .wlpop d a => some (32, encR 44 1 (0) d a 0)
  | .wlcnt d => some (32, encR 44 2 (0) d 0 0)
  | .step => some (32, encR 45 0 (0) 0 0 0)
  | .tbar d => some (32, encR 45 1 (0) d 0 0)
  | .qbar d => some (32, encR 45 2 (0) d 0 0)
  | .clbar d => some (32, encR 45 3 (0) d 0 0)
  | .stepidle a => some (32, encR 45 4 (0) 0 a 0)
  | .cpyLm la n ec eb ea => some (32, encE 46 0 (la) (n) (0) (ec) (eb) (ea))
  | .cpyGl la n ec eb ea => some (32, encE 46 1 (la) (n) (0) (ec) (eb) (ea))
  | .cpyLg la n ec eb ea => some (32, encE 46 2 (la) (n) (0) (ec) (eb) (ea))
  | .cpyGg la n ec eb ea => some (32, encE 46 3 (la) (n) (0) (ec) (eb) (ea))
  | .cpyq => some (32, encE 46 4 (0) (0) (0) (0) (0) (0))
  | .cpyx n => some (32, encE 46 5 (0) (n) (0) (0) (0) (0))
  | .launch ea => some (32, encE 47 0 (0) (0) (0) (0) (0) (ea))
  | .vadd t rm k b a d => some (32, encV 48 0 (t.code) (rm.code) (k) (b) (a) (d))
  | .vsub t rm k b a d => some (32, encV 48 1 (t.code) (rm.code) (k) (b) (a) (d))
  | .vmul t rm k b a d => some (32, encV 48 2 (t.code) (rm.code) (k) (b) (a) (d))
  | .vfma t rm k b a d => some (32, encV 48 3 (t.code) (rm.code) (k) (b) (a) (d))
  | .vfms t rm k b a d => some (32, encV 48 4 (t.code) (rm.code) (k) (b) (a) (d))
  | .vfnma t rm k b a d => some (32, encV 48 5 (t.code) (rm.code) (k) (b) (a) (d))
  | .vmax t k b a d => some (32, encV 48 6 (t.code) (0) (k) (b) (a) (d))
  | .vmin t k b a d => some (32, encV 48 7 (t.code) (0) (k) (b) (a) (d))
  | .vabs t k a d => some (32, encV 48 8 (t.code) (0) (k) (0) (a) (d))
  | .vneg t k a d => some (32, encV 48 9 (t.code) (0) (k) (0) (a) (d))
  | .vceq t k b a kd => some (32, encV 48 10 (t.code) (0) (k) (b) (a) (kd))
  | .vclt t k b a kd => some (32, encV 48 11 (t.code) (0) (k) (b) (a) (kd))
  | .vcle t k b a kd => some (32, encV 48 12 (t.code) (0) (k) (b) (a) (kd))
  | .vsel t k b a d => some (32, encV 48 13 (t.code) (0) (k) (b) (a) (d))
  | .vrcp t rm k a d => some (32, encV 48 14 (t.code) (rm.code) (k) (0) (a) (d))
  | .vrsq t rm k a d => some (32, encV 48 15 (t.code) (rm.code) (k) (0) (a) (d))
  | .vsqrt t rm k a d => some (32, encV 48 16 (t.code) (rm.code) (k) (0) (a) (d))
  | .vexp2 t k a d => some (32, encV 48 17 (t.code) (0) (k) (0) (a) (d))
  | .vlog2 t k a d => some (32, encV 48 18 (t.code) (0) (k) (0) (a) (d))
  | .vtanh t k a d => some (32, encV 48 19 (t.code) (0) (k) (0) (a) (d))
  | .vamaxu t k j a => some (32, encV 48 20 (t.code) (0) (k) (j) (a) (0))
  | .viadd t k b a d => some (32, encV 49 0 (t.code) (0) (k) (b) (a) (d))
  | .visub t k b a d => some (32, encV 49 1 (t.code) (0) (k) (b) (a) (d))
  | .vimul t k b a d => some (32, encV 49 2 (t.code) (0) (k) (b) (a) (d))
  | .viand t k b a d => some (32, encV 49 3 (t.code) (0) (k) (b) (a) (d))
  | .vior t k b a d => some (32, encV 49 4 (t.code) (0) (k) (b) (a) (d))
  | .vixor t k b a d => some (32, encV 49 5 (t.code) (0) (k) (b) (a) (d))
  | .vishl t k b a d => some (32, encV 49 6 (t.code) (0) (k) (b) (a) (d))
  | .vishr t k b a d => some (32, encV 49 7 (t.code) (0) (k) (b) (a) (d))
  | .visra t k b a d => some (32, encV 49 8 (t.code) (0) (k) (b) (a) (d))
  | .vimin t k b a d => some (32, encV 49 9 (t.code) (0) (k) (b) (a) (d))
  | .vimax t k b a d => some (32, encV 49 10 (t.code) (0) (k) (b) (a) (d))
  | .viadds t k b a d => some (32, encV 49 11 (t.code) (0) (k) (b) (a) (d))
  | .visubs t k b a d => some (32, encV 49 12 (t.code) (0) (k) (b) (a) (d))
  | .viceq t k b a kd => some (32, encV 49 13 (t.code) (0) (k) (b) (a) (kd))
  | .viclt t k b a kd => some (32, encV 49 14 (t.code) (0) (k) (b) (a) (kd))
  | .vcvt t rm j widen part a d => some (32, encV 50 0 (t.code) (rm.code) (j) (8 * b2n widen + part) (a) (d))
  | .vquant t rm j mode a d => some (32, encV 50 1 (t.code) (rm.code) (j) (mode) (a) (d))
  | .vquantv t rm j thr a d => some (32, encV 50 2 (t.code) (rm.code) (j) (thr) (a) (d))
  | .vdeq t rm j mode a d => some (32, encV 50 3 (t.code) (rm.code) (j) (mode) (a) (d))
  | .sclnext t j => some (32, encV 50 4 (t.code) (0) (j) (0) (0) (0))
  | .vpack t j b a d => some (32, encV 50 5 (t.code) (0) (j) (b) (a) (d))
  | .vunpk t j h a d => some (32, encV 50 6 (t.code) (0) (j) (b2n h) (a) (d))
  | .vrsumO t k c a d => some (32, encV 51 0 (t.code) (0) (k) (c) (a) (d))
  | .vrsumU t k c a d => some (32, encV 51 1 (t.code) (0) (k) (c) (a) (d))
  | .vrmax t k c a d => some (32, encV 51 2 (t.code) (0) (k) (c) (a) (d))
  | .vramax t k c a d => some (32, encV 51 3 (t.code) (0) (k) (c) (a) (d))
  | .vrmin t k c a d => some (32, encV 51 4 (t.code) (0) (k) (c) (a) (d))
  | .vshuf t k b a d => some (32, encV 52 0 (t.code) (0) (k) (b) (a) (d))
  | .vbcast t k n a d => some (32, encV 52 1 (t.code) (0) (k) (n) (a) (d))
  | .vins g n d => some (32, encVt 52 2 (g) (0) (n) (0) (d))
  | .vext g n a => some (32, encVt 52 3 (g) (0) (n) (a) (0))
  | .vslide t k n a d => some (32, encV 52 4 (t.code) (0) (k) (n) (a) (d))
  | .mld la bank ea => some (32, encE 54 0 (la) (0) (b2n bank) (0) (0) (ea))
  | .mma la n bank ea => some (32, encE 54 1 (la) (n) (b2n bank) (0) (0) (ea))
  | .mmaLatch la n bank => some (32, encE 54 1 (la) (n) (2 + b2n bank) (0) (0) (0))
  | .mmat la n bank ea => some (32, encE 54 2 (la) (n) (b2n bank) (0) (0) (ea))
  | .mmatLatch la n bank => some (32, encE 54 2 (la) (n) (2 + b2n bank) (0) (0) (0))
  | .mout la bank eb ea => some (32, encE 54 3 (la) (0) (b2n bank) (0) (eb) (ea))
  | .mdrain la n bank => some (32, encE 54 4 (la) (n) (b2n bank) (0) (0) (0))
  | .mzero la n bank => some (32, encE 54 5 (la) (n) (b2n bank) (0) (0) (0))
  | .ringdef la ea => some (32, encE 55 0 (la) (0) (0) (0) (0) (ea))
  | .latch la ea => some (32, encE 55 1 (la) (0) (0) (0) (0) (ea))
  | .brot la => some (32, encE 55 2 (la) (0) (0) (0) (0) (0))
  | .qinit la q => some (32, encE 56 0 (la) (0) (q) (0) (0) (0))
  | .qhh la n q ea => some (32, encE 56 1 (la) (n) (q) (0) (0) (ea))
  | .qapp la q => some (32, encE 56 2 (la) (0) (q) (0) (0) (0))
  | .qgen la n q ea => some (32, encE 56 3 (la) (n) (q) (0) (0) (ea))
  | .qapl la n q => some (32, encE 56 4 (la) (n) (q) (0) (0) (0))
  | .qaplt la n q => some (32, encE 56 5 (la) (n) (q) (0) (0) (0))
  | .qapr la n q => some (32, encE 56 6 (la) (n) (q) (0) (0) (0))
  | .qaprt la n q => some (32, encE 56 7 (la) (n) (q) (0) (0) (0))
  | .qdense la n q => some (32, encE 56 8 (la) (n) (q) (0) (0) (0))
  | .qsave la n q => some (32, encE 56 9 (la) (n) (q) (0) (0) (0))
  | .qload la n q => some (32, encE 56 10 (la) (n) (q) (0) (0) (0))
  | .gqpush b a d => some (32, encR 57 0 (0) d a b)
  | .gqpop b a d => some (32, encR 57 1 (0) d a b)
  | .gqwin b a => some (32, encR 57 2 (0) 0 a b)
  | .gqlen d a => some (32, encR 57 3 (0) d a 0)
  | .optAdamw la ec eb ea => some (32, encE 58 0 (la) (0) (0) (ec) (eb) (ea))
  | .optSgdm la ec eb ea => some (32, encE 58 1 (la) (0) (0) (ec) (eb) (ea))
  | .optClip la ec ea => some (32, encE 58 2 (la) (0) (0) (ec) (0) (ea))
  | .epopen d a b => some (32, encR 59 0 (0) d a b)
  | .eprec d a b => some (32, encR 59 1 (0) d a b)
  | .epclose d a => some (32, encR 59 2 (0) d a 0)
  | .rwsend d a b => some (32, encR 59 3 (0) d a b)
  | .epstat d a => some (32, encR 59 4 (0) d a 0)
  | .collDecl la n ea => some (32, encE 60 0 (la) (n) (0) (0) (0) (ea))
  | .collAg la n ec eb ea => some (32, encE 60 1 (la) (n) (0) (ec) (eb) (ea))
  | .collRsO la n ec eb ea => some (32, encE 60 2 (la) (n) (0) (ec) (eb) (ea))
  | .collRsU la n ec eb ea => some (32, encE 60 3 (la) (n) (0) (ec) (eb) (ea))
  | .collArO la n ec eb ea => some (32, encE 60 4 (la) (n) (0) (ec) (eb) (ea))
  | .collArU la n ec eb ea => some (32, encE 60 5 (la) (n) (0) (ec) (eb) (ea))
  | .collA2a la n ec eb ea => some (32, encE 60 6 (la) (n) (0) (ec) (eb) (ea))
  | .collBar la n ec => some (32, encE 60 7 (la) (n) (0) (ec) (0) (0))
  | .tlbinv b a => some (32, encR 61 0 (0) 0 a b)
  | .tlbprobe d a => some (32, encR 61 1 (0) d a 0)
  | .lkctlStatus d a b => some (32, encR 61 2 (0) d a b)
  | .lkctlThresh d a b => some (32, encR 61 2 (0) d a b)
  | .lkctlMaxw d a b => some (32, encR 61 2 (0) d a b)
  | .lkctlRetrain d a b => some (32, encR 61 2 (0) d a b)
  | .swreqSwitch d a => some (32, encR 61 3 (0) d a 0)
  | .swreqDefpart d a => some (32, encR 61 3 (0) d a 0)
  | .swreqSetrun d a => some (32, encR 61 3 (0) d a 0)
  | .swreqDestroy d a => some (32, encR 61 3 (0) d a 0)
  | .report b a => some (32, encR 61 4 (0) 0 a b)
  | .cAddi d imm => some (16, 512 * imm.toNat + 16 * d)
  | .cMov d a => some (16, 2 + 0 + 512 * a + 16 * d)
  | .cAdd d a => some (16, 2 + 16384 + 512 * a + 16 * d)
  | .cSub d a => some (16, 2 + 32768 + 512 * a + 16 * d)
  | .cAnd d a => some (16, 2 + 49152 + 512 * a + 16 * d)
  | .cLdlD off a d => some (16, 4 + 4096 * off + 512 * a + 16 * d)
  | .cStlD off a d => some (16, 6 + 4096 * off + 512 * a + 16 * d)
  | .cBeqz off a => some (16, 8 + 512 * off.toNat + 16 * a)
  | .cBnez off a => some (16, 10 + 512 * off.toNat + 16 * a)
  | .cJ off => some (16, 12 + 16 * off.toNat)
  | .cSysNop => some (16, 14 + 0)
  | .cStep => some (16, 14 + 512)
  | .cYield => some (16, 14 + 1024)
  | .cExit => some (16, 14 + 1536)
  | .cRet => some (16, 14 + 2048)
  | .cClre d => some (16, 2574 + 16 * d)
  | .cWaitm => some (16, 14 + 3072)
  | .bringUp => none
  | .attestationStart => none
  | .attestationDone => none
  | .thermalTrip => none
  | .tripClear => none
  | .registerWrite => none
  | .armAliasStore => none
  | .rewardWindowWrite => none
  | .hostMemAccess => none
  | .queueWalk => none
  | .periodBoundary => none
  | .nodeDispatch => none
  | .kernelChecking => none
  | .groupPlacement => none
  | .groupLoad => none
  | .groupRelease => none
  | .groupRetire => none
  | .longOpComplete => none
  | .registerWaitLimit => none
  | .feWaitLimit => none
  | .feListFullRetry => none
  | .putrFill => none
  | .putrRetry => none
  | .parkDeadline => none
  | .spawnAnswer => none
  | .stepAdvance => none
  | .stepwatchReport => none
  | .barrierGenerationComplete => none
  | .barrierWaitReport => none
  | .tileSleep => none
  | .tileWake => none
  | .mailboxPostArrival => none
  | .copyAccept => none
  | .copyBurst => none
  | .copyResume => none
  | .copyPost => none
  | .ringMove => none
  | .pageWalk => none
  | .pageResponse => none
  | .tableLineSnoop => none
  | .timeSliceNaming => none
  | .gangSwitchStop => none
  | .gangSwitchSaveDone => none
  | .gangSwitchRestore => none
  | .darnerLine => none
  | .levellerTick => none
  | .escapeEntry => none
  | .linkTrainingDone => none
  | .linkTrainingTimeout => none
  | .linkIdleTimeout => none
  | .idleFlitSend => none
  | .flitReceive => none
  | .linkWiden => none
  | .wakeComplete => none
  | .linkNarrow => none
  | .widthFlitReceive => none
  | .collAccept => none
  | .collMemberAnswer => none
  | .collMemberTimeout => none
  | .collPost => none
  | .menderSlotStart => none
  | .gqEnClear => none
  | .rewardArrival => none
  | .rwsendRemoteAnswer => none
  | .episodeTimeout => none
  | .wringerScan => none
  | .episodeRelease => none
  | .illegalInstruction => none
  | .hostPortDown => none
  | .homeChannelPowerDown => none
  | .selfRefreshEntry => none
  | .hostLineSnoop => none

/-- The bytes of a word of `n` bytes, lowest address first (R1). -/
def wordBytes : Nat → Nat → List Byte
  | 0, _ => []
  | n + 1, w => BitVec.ofNat 8 w :: wordBytes n (w / 256)

/-- What the decoder reads from an instruction whose bits are `w`, bit 0 the least significant bit of its first halfword
(R1); the bits above `nbits` are zero. -/
def decodeTableWord (nbits w : Nat) : Option Instr :=
  match decode (wordBytes 4 (w % 2 ^ nbits)) with
  | .ok (i, _) => some i
  | .error _ => none

end Sys2Proof
end

