-- ==== Sys2Proof/Machine/Fetch.lean ====
section
/-! DEFINITION. Fetching the instruction of the executing hart (R33, R50, R77, R280; log 8). -/

namespace Sys2Proof.Machine

/-- Fetches the halfword at `va` (R33): it goes on with the halfword, waits for a page, or traps; a poisoned halfword reads as
zero and is reported (R94). -/
def fetchHalf (va : Word) (s : State) (k : Nat → State → Out) : Out :=
  match xlateHart s s.cur va.toNat .exec with
  | (s, .ok pa) =>
    let (s, v, bad) := codeRead s s.cur pa 2
    k v (if bad then notePoisonRead true s s.cur 7 va else s)
  | (s, .absent vpn) => park (.page (hartCtx s s.cur) vpn) s
  | (s, .refused) => trap 0x0A va s
  | (s, .access) => trap 0x09 va s
  | (s, .perm) => trap 0x09 va s

/-- Fetches the word at pc (R33): its bits and its length in bytes. -/
def fetchWord (s : State) (k : Nat → Nat → State → Out) : Out :=
  let pc := (me s).pc
  fetchHalf pc s fun lo s =>
    if lo % 2 = 0 then k lo 2 s
    else fetchHalf (pc + 2) s fun hi s => k (lo + 65536 * hi) 4 s

/-- The length in bytes of the instruction that begins with a word (R33). -/
def wordLen (w : Nat) : Nat := if w % 2 = 0 then 2 else 4

/-- The instruction that a word of `n` bytes decodes to; a word that is no instruction raises the illegal-instruction event
(R34, R50). -/
def instrOf (w n : Nat) : Instr :=
  match decode (wordBytes n w) with
  | .ok (i, _) => i
  | .error _ => .illegalInstruction

/-! ## What an instruction met in reading (R6, R94; log 46) -/

/-- The instruction writes the status CSR (R66). -/
def writesStatus (i : Instr) : Bool :=
  match i with
  | .csrw n _ | .csrs _ n _ | .csrc _ n _ => n.toNat == 0x103
  | _ => false

/-- The instruction of word `w` has trapped to its hart's handler: `x` is the hart before it, `y` after it. -/
def handlerEntered (w : Nat) (x y : Hart) : Bool :=
  !x.inh && y.inh && y.pc == x.tvec && y.tepc == x.pc && !writesStatus (instrOf w (wordLen w))

/-- An instruction that is *parked* for `r` has taken effect, and does not run again. -/
def hasActed (r : Reason) : Bool :=
  match r with
  | .fence _ | .step _ | .bar _ _ _ | .ring _ _ | .remote _ => true
  | .trap c _ => c == 7
  | _ => false

/-- The notes that are made good once the instruction of word `w` has run: all of one that takes effect; of one that traps, or that holds
its slot, those of its fetch; of one that parks, or whose message carries them, none (R6). -/
def notesDue (w : Nat) (x y : Hart) (l : List ReadNote) : List ReadNote :=
  match y.status with
  | .parked (.slot _ _) | .trapped | .posting _ _ true => l.filter (·.fetch)
  | .parked r => if hasActed r then l else match r with
    | .trap _ _ => l.filter (·.fetch)
    | _ => []
  | .ready => if handlerEntered w x y then l.filter (·.fetch) else l
  | .free | .inline | .posting _ _ false => l

/-- What the instruction of hart `h` met in reading is made good, or forgotten; `x` is the hart before it. -/
def settle (h : HartId) (x : Hart) (r : Out) : Out :=
  match r with
  | .next s => .next (commitNotes { s with reads := [] } (notesDue s.iword x (getHart s h) s.reads))
  | .fault f => .fault f
  | .refused r => .refused r

/-- Fetches and decodes the instruction at pc, and goes on with it (R33). -/
def fetchInstr (k : Instr → State → Out) (s : State) : Out :=
  fetchWord s fun w n s => k (instrOf w n) { s with iword := w }

end Sys2Proof.Machine
end

