-- ==== Sys2Proof/Machine/Tie.lean ====
section
/-! DEFINITION. Events that meet in one cycle, where the spec says which comes first: the turns that wait for another turn of the same
step (R98, R179, R197, R220, R254, R334; log 1). The ties that a state alone decides stand with their events. -/

namespace Sys2Proof.Machine

/-! ## Harts that may issue (R53) -/

/-- The order s+1, s+2, …, s+8 modulo 8 of the rotation (R53). -/
def rotation (last : Fin 8) : List (Fin 8) := (List.finRange 8).map fun i => last + i + 1

/-- The slot that a tile's core issues from (R53). -/
def coreHart (s : State) (t : Nat) : List HartId :=
  (((rotation (getTile s t).last).map fun i => HartId.tile t (Fin.castLE (by omega) i)).find? (candidate s)).toList

/-- The sequencers of a tile that may issue, through ports of their own (R173). -/
def seqHarts (s : State) (t : Nat) : List HartId := [HartId.tile t 8, .tile t 9].filter (candidate s)

/-! ## What a hart is about to execute -/

/-- The halfword at `va` that hart `h` would fetch. -/
def peekHalf (s : State) (h : HartId) (va : Word) : Option Nat :=
  match peekPa s (hartCtx s h) va.toNat .exec with
  | .ok pa => some (codeRead s h pa 2).2.1
  | _ => none

/-- The instruction that hart `h` would execute; none where its fetch would not succeed. -/
def nextInstr (s : State) (h : HartId) : Option Instr :=
  let pc := (getHart s h).pc
  (peekHalf s h pc).bind fun lo =>
    if lo % 2 = 0 then some (instrOf lo 2) else (peekHalf s h (pc + 2)).map fun hi => instrOf (lo + 65536 * hi) 4

/-- A hart of the list is about to execute an instruction that `p` holds of. -/
def aboutTo (s : State) (l : List HartId) (p : Instr → Bool) : Bool := l.any fun h => (nextInstr s h).any p

/-- The instruction ends a thread. -/
def isExit (i : Instr) : Bool :=
  match i with
  | .exit | .cExit => true
  | _ => false

/-- The instruction pops the work list. -/
def isWlpop (i : Instr) : Bool :=
  match i with
  | .wlpop _ _ => true
  | _ => false

/-- The instruction reads the ring latch into a bank. -/
def isLatch (i : Instr) : Bool :=
  match i with
  | .latch _ _ => true
  | _ => false

/-- The instruction posts. -/
def isSendm (i : Instr) : Bool :=
  match i with
  | .sendm _ _ _ => true
  | _ => false

/-- The instruction clears oerr.ERR. -/
def clearsErr (i : Instr) : Bool :=
  match i with
  | .csrc _ n _ => n.toNat == 0x050
  | _ => false

/-- The instruction accesses the L-store of its own tile. -/
def isLAccess (i : Instr) : Bool :=
  match i with
  | .ldl .. | .stl .. | .cLdlD .. | .cStlD .. | .ldflC .. | .ldflP .. | .stflF .. | .stflX .. | .stflE .. => true
  | .amoAddW sp .. | .amoAddD sp .. | .amoAndD sp .. | .amoOrD sp .. | .amoXorD sp .. | .amoMinD sp .. | .amoMaxD sp .. | .amoMinnD sp ..
  | .amoMaxnD sp .. | .amoSwapW sp .. | .amoSwapD sp .. | .amoCasW sp .. | .amoCasD sp .. | .amoFaddU sp .. | .amoFmax sp ..
  | .amoFmin sp .. | .amoEsadd sp .. | .amoEsrd sp .. | .amoEsclr sp .. => sp == .l
  | _ => false

/-- The sequencers that the instruction starts. -/
def startsOf (i : Instr) : List Nat :=
  match i with
  | .kick v _ => [b2n v]
  | .fork m _ _ => maskEngines m.val
  | _ => []

/-! ## The ties -/

/-- A slot of the tile is about to become *free* by EXIT: a SPAWN that has reached the tile waits for it (R254). -/
def exitsNow (s : State) (t : Nat) : Bool :=
  aboutTo s ((coreHart s t).filter fun h => (getHart s h).out == [] && (getHart s h).stack == []) isExit

/-- The place of a message among those that reach tile `t` in one cycle: the tile's own slots by number, then the router (R98, R179). -/
def slotRank (t : Nat) (h : HartId) : Nat := if tileOf? h = some t then slotOf h else 10

/-- A SPAWN can be answered now. -/
def spawnHere (s : State) (m : Msg) : Bool :=
  match m.body with
  | .spawn _ _ _ _ _ _ _ => tileRuns s m.target && hartHere s m.hart && spawnWaits s m && pairTurn s m
  | .post _ _ _ => false

/-- A SPAWN comes before the others that have reached its tile, and after an EXIT there (R98, R254). -/
def spawnFirst (s : State) (m : Msg) : Bool :=
  spawnHere s m && !(s.msgs.any fun x =>
    x.target == m.target && spawnHere s x && decide (slotRank m.target x.hart < slotRank m.target m.hart)) && !exitsNow s m.target

/-- A thread's post can arrive now. -/
def postHere (s : State) (m : Msg) : Bool :=
  match m.body with
  | .spawn _ _ _ _ _ _ _ => false
  | .post _ _ _ => hartHere s m.hart && posterWaits s m && pairTurn s m && match tileTarget s m.ctx m.target 0 with
    | .ok _ _ | .bad => true
    | .held _ | .loading _ => false

/-- Operation `o` of hart `h` goes to tile `u` and arrives there in this very cycle. -/
def arrivesAt (s : State) (u : Nat) (h : HartId) (o : LongOp) : Bool :=
  o.due == s.cycle && (opAccess o).any (·.tile == some u) && opDue s h o

/-- An access that reaches a tile in this cycle comes behind the tile's own slot, and one from the router behind the loop-back port
(R98, R127). -/
def homeWaits (s : State) (h : HartId) (o : LongOp) : Bool :=
  match (opAccess o).bind (·.tile) with
  | some u => arrivesAt s u h o && (aboutTo s (coreHart s u) isLAccess || (tileOf? h != some u && (List.finRange 10).any fun i =>
      ((getTile s u).harts.get i).out.any (arrivesAt s u (.tile u i))))
  | none => false

/-- A copy of a tile can make its post now. -/
def copyPostHere (s : State) (t : Nat) (c : Copy) : Bool := c.st == .posting && tileRuns s t && copySettled s c

/-- A sequencer of a tile is about to post. -/
def seqPosts (s : State) (t : Nat) (i : Fin 10) : Bool :=
  aboutTo s ((seqHarts s t).filter fun h => h == .tile t i && (getHart s h).out == []) isSendm

/-- The places of the posts that reach the mailbox of tile `t` now: sequencers, porter, collective unit, slots, router (R179). -/
def postRanks (s : State) (t : Nat) : List Nat :=
  (if seqPosts s t 8 then [0] else []) ++ (if seqPosts s t 9 then [1] else []) ++
    (if (getTile s t).copies.any (copyPostHere s t) then [2] else []) ++
    (if s.colls.any (fun x => tileOf? x.hart == some t && collPostable s x) then [3] else []) ++
    ((s.msgs.filter fun m => m.target == t && postHere s m).map fun m => 4 + slotRank t m.hart)

/-- A post of place `k` comes first at tile `t` (R179). -/
def postFirst (s : State) (t k : Nat) : Bool := (postRanks s t).all fun j => decide (k ≤ j)

/-- A LATCH of the tile, whose latch is *empty*, is about to issue: a BROT to the tile waits for it (R220). -/
def latchFirst (s : State) (t : Nat) : Bool := (getTile s t).latch.st == .empty && aboutTo s (coreHart s t ++ seqHarts s t) isLatch

/-- The BROT of tile `t` moves now (R218, R220). -/
def ringTurn (s : State) (t : Nat) : Bool := ringCanMove s t && !(ringAsks s t).any fun a => latchFirst s a.1

/-- The leveller moves after a WLPOP that is about to issue on the tile (R254). -/
def levelTurn (s : State) (t : Nat) : Bool := levelDue s t && !aboutTo s (coreHart s t) isWlpop

/-- A sequencer's KICK waits for a thread that is about to start the same *idle* sequencer (R197). -/
def kickWaits (s : State) (t : Nat) (h : HartId) : Bool :=
  ((nextInstr s h).elim [] startsOf).any fun e => seqIdle s t e && aboutTo s (coreHart s t) fun i => (startsOf i).contains e

/-- A sequencer issues in this step: not before a thread's CSRC that clears ERR, a thread's start of the sequencer that it would start, or
a post that comes before its own (R179, R197, R220). -/
def seqTurn (s : State) (t : Nat) (h : HartId) : Bool :=
  !(h == .tile t 8 && aboutTo s (coreHart s t) clearsErr) && !kickWaits s t h && !(h == .tile t 9 && seqPosts s t 9 && seqPosts s t 8)

/-- The harts of a tile that may issue: one slot of the core, and the two sequencers (R53, R173). -/
def tileIssues (s : State) (t : Nat) : List HartId := coreHart s t ++ (seqHarts s t).filter (seqTurn s t)

end Sys2Proof.Machine
end

