-- ==== Sys2Proof/Machine/Sched.lean ====
section
/-! DEFINITION. What a step of the machine does next: the events that are due, the harts that may issue, the choice among them, and
what passes with every step (R53, R142, R148, R173, R253, R263, R265, R269, R272, R276, R302, R323, R329, R340; log 1, log 15). -/

namespace Sys2Proof.Machine

/-- What a step does. -/
inductive Turn where
  /-- an event comes about -/
  | event (o : Occurrence)
  /-- a hart issues its next instruction -/
  | hart (h : HartId)
  /-- the short instruction of word `word`, which holds the slot of a hart, takes effect (R54) -/
  | held (h : HartId) (word : Nat)
  /-- nothing but the clock -/
  | idle
deriving DecidableEq, Repr

/-- An event of the machine's own. -/
def own (row : Instr) (data : EvData) : Turn := .event ⟨row, data, 0⟩

/-- The turn, if its event is due. -/
def dueIf (c : Bool) (row : Instr) (data : EvData) : List Turn := if c then [own row data] else []

/-! ## Events that are due -/

/-- The events of a hart. -/
def hartTurns (s : State) (h : HartId) : List Turn :=
  (if hartHere s h then
    ((dueOps s h).filter fun i => !((getHart s h).out[i]?).any (homeWaits s h)).map fun i => own .longOpComplete (.op h i)
  else []) ++
  ((List.range (getHart s h).out.length).filter fun i => ((getHart s h).out[i]?).any (opEscapes s h)).map (fun i => own .escapeEntry (.op h i)) ++
  ((heldWord s h).map (.held h)).toList ++
  dueIf (regLimitDue s h) .registerWaitLimit (.hart h) ++
  dueIf (feLimitDue s h) .feWaitLimit (.hart h) ++
  dueIf (feRetryDue s h && hartHere s h) .feListFullRetry (.hart h) ++
  dueIf (putrRetryDue s h && hartHere s h) .putrRetry (.hart h) ++
  dueIf (deadlineDue s h && hartHere s h) .parkDeadline (.hart h)

/-- The events of a copy of a tile. -/
def copyTurns (s : State) (t : Nat) (c : Copy) : List Turn :=
  match c.st with
  | .requested => dueIf (copyAcceptable s t c.id) .copyAccept (.tileItem t c.id)
  | .moving => dueIf (tileRuns s t && (movable (getTile s t)).any (·.id == c.id) && !copyWaitsLoad s t c && !copyWaitsWake s t c && !copyBehind s t c) .copyBurst (.tileItem t c.id)
  | .pending => dueIf (copyResumable s t c.id) .copyResume (.tileItem t c.id)
  | .posting => dueIf (copyPostHere s t c && postFirst s t 2) .copyPost (.tileItem t c.id)

/-- The events of a barrier kind at a tile; the first tile of the barrier speaks for all. -/
def barTurns (s : State) (t : Nat) (k : BarKind) : List Turn :=
  dueIf ((barTiles s k t).head? == some t && barComplete s k t) .barrierGenerationComplete (.kindTile k t) ++
  dueIf (barWatchDue s k t) .barrierWaitReport (.kindTile k t)

/-- The events of a tile. -/
def tileTurns (s : State) (t : Nat) : List Turn :=
  let x := getTile s t
  (tileHartsOf t).flatMap (hartTurns s) ++
  (x.fills.filter (fillable s t)).map (fun f => own .putrFill (.tileItem t f.id)) ++
  dueIf (canAdvance s t) .stepAdvance (.tile t) ++
  dueIf (stepwatchDue s t) .stepwatchReport (.tile t) ++
  [BarKind.tbar, .qbar, .clbar].flatMap (barTurns s t) ++
  dueIf (ringTurn s t) .ringMove (.tile t) ++
  x.copies.flatMap (copyTurns s t) ++
  dueIf (levelTurn s t) .levellerTick (.tile t) ++
  dueIf (sleepDue s t) .tileSleep (.tile t) ++
  dueIf (wakeDue s t) .tileWake (.tile t)

/-- The events of a message on the mesh. -/
def msgTurns (s : State) (m : Msg) : List Turn :=
  dueIf (spawnFirst s m) .spawnAnswer (.msg m.id) ++
  dueIf (postHere s m && postFirst s m.target (4 + slotRank m.target m.hart)) .mailboxPostArrival (.msg m.id) ++
  dueIf (escapeDue s m) .escapeEntry (.msg m.id)

/-- The events of the queue units: walks, boundaries, dispatch, checking, completion, copies (R257, R260 to R263). -/
def queueTurns (s : State) : List Turn :=
  s.ctxs.flatMap (fun c => (List.range c.2.qcnt).flatMap fun q =>
    dueIf ((qArmed s c.1 q || (lostArm s c.1 q).isSome) && !unitWaits s (.queue c.1 q)) .queueWalk (.ctxQueue c.1 q)) ++
  (List.finRange 4).flatMap (fun d => (s.dies.get d).queues.flatMap fun r =>
    match dispatchNext s r with
    | some n => dueIf (!unitWaits s (.queue r.ctx r.q)) .nodeDispatch (.node r.ctx r.q (w64 n))
    | none => []) ++
  s.launches.flatMap (fun l =>
    let w := unitWaits s (.queue l.ctx l.queue)
    match l.st with
    | .checking => dueIf (!w) .kernelChecking (.key l.key)
    | .placing => dueIf (placeAt s l).isSome .groupPlacement (.key l.key)
    | .ending | .running => []
    | .copying => match alGet s.qcopies l.key with
      | some c => dueIf (c.st == .moving && c.page.isNone) .copyBurst (.key l.key)
      | none => [])

/-- The completions of nodes that are due: groups that retire, copies that end, nodes whose status is to be written (R262). -/
def completions (s : State) : List Turn :=
  s.groups.flatMap (fun g => dueIf (retirable s g) .groupRetire (.key g.id)) ++
  s.launches.flatMap fun l =>
    match l.st with
    | .ending => dueIf (!unitWaits s (.queue l.ctx l.queue)) .nodeDispatch (.key l.key)
    | .copying => match alGet s.qcopies l.key with
      | some c => dueIf (c.st == .posting) .copyPost (.key l.key)
      | none => []
    | .checking | .placing | .running => []

/-- The events of a group. -/
def groupTurns (s : State) (g : Group) : List Turn :=
  let w := match s.launches.find? (·.key == g.launch) with
    | some l => unitWaits s (.queue l.ctx l.queue)
    | none => false
  dueIf (g.st != .running && groupOpen s g && decide (g.loaded < g.w * g.h) && !w) .groupLoad (.key g.id) ++
  dueIf (groupLoaded g && groupOpen s g) .groupRelease (.key g.id)

/-- The switch of a partition has come to the phase in which the saved tiles are followed by the next context's. -/
def restoreDue (s : State) (p : Fin 32) : Bool := (s.parts.get p).sw.any (·.phase == 2)

/-- The events of a partition, beside the stop. Retirement is seen before a slice expires (R276). -/
def partTurns (s : State) (p : Fin 32) : List Turn :=
  dueIf (sliceDue s p && !s.groups.any fun g => g.part == p.val && retirable s g) .timeSliceNaming (.part p.val) ++
  dueIf (saveDue s p) .gangSwitchSaveDone (.part p.val) ++ dueIf (restoreDue s p) .gangSwitchRestore (.part p.val)

/-- The stops that are due (R269). -/
def stops (s : State) : List Turn :=
  (List.finRange 32).flatMap fun p => dueIf (stopDue s p) .gangSwitchStop (.part p.val)

/-- The events of a mender. -/
def menderTurns (s : State) (m : Nat) : List Turn :=
  (List.finRange 8).flatMap fun i =>
    hartTurns s (.mender m i) ++ dueIf (slotStartable s m i) .menderSlotStart (.hart (.mender m i)) ++
      dueIf (slotFreed s m i) .gqEnClear (.hart (.mender m i))

/-- The events of an entry of a claim-ticket table. A reward that reached the table in time comes before the time-out (R323). -/
def episodeTurns (s : State) (d : Fin 4) (e : Episode) : List Turn :=
  dueIf (epTimedOut s e && !rewardFirst s d e) .episodeTimeout (.dieItem d.val e.idx) ++
  dueIf (e.st == .judged && !unitWaits s (.episode d.val e.idx)) .wringerScan (.dieItem d.val e.idx) ++
  dueIf (epReleasable s d e) .episodeRelease (.dieItem d.val e.idx)

/-- The events of a die: rewards, episodes, the darner. A table that waits for the wake of a tile goes on after it (R64). -/
def dieTurns (s : State) (d : Fin 4) : List Turn :=
  let x := s.dies.get d
  (match x.arrivals with
    | a :: _ => dueIf (!unitWaits s (.table d.val) && !(a.close.isNone && lateFor s d a) &&
        (arrivalSleeps s d a).all fun t => (getTile s t).asleep) .rewardArrival (.die d.val)
    | [] => []) ++
  x.eps.flatMap (episodeTurns s d) ++ dueIf (darnDue s d) .darnerLine (.die d.val)

/-- The events of a device link. -/
def linkTurns (s : State) (l : Nat) : List Turn :=
  if (getLink s l).st == .down then []
  else
    dueIf (trainingOver s l) .linkTrainingTimeout (.link l) ++ dueIf (linkSilent s l) .linkIdleTimeout (.link l) ++
      dueIf (idleDue s l) .idleFlitSend (.link l) ++ dueIf (widenDue s l) .linkWiden (.link l) ++
      dueIf (wakeOver s l) .wakeComplete (.link l) ++ dueIf (narrowDue s l) .linkNarrow (.link l)

/-- The events of a collective. -/
def collTurns (s : State) (x : Coll) : List Turn :=
  dueIf (collAcceptable s x || collStartable s x) .collAccept (.key x.id) ++
  ((List.range 16).filter (memberSilent s x)).map (fun k => own .collMemberTimeout (.collMember x.id k)) ++
  dueIf (collFinishable s x || (collPostable s x && postFirst s ((tileOf? x.hart).getD 0) 3)) .collPost (.key x.id)

/-- The events that are due. -/
def dueTurns (s : State) : List Turn :=
  s.tiles.flatMap (fun t => tileTurns s t.1) ++ s.groups.flatMap (groupTurns s) ++ s.msgs.flatMap (msgTurns s) ++
    completions s ++ queueTurns s ++ (List.finRange 32).flatMap (partTurns s) ++ s.menders.flatMap (fun m => menderTurns s m.1) ++
    (List.finRange 4).flatMap (dieTurns s) ++ (List.range 16).flatMap (linkTurns s) ++ s.colls.flatMap (collTurns s) ++
    dueIf (armRetry s).isSome .armAliasStore .none ++ dueIf (channelDue s) .homeChannelPowerDown .none ++
    dueIf (refreshDue s) .selfRefreshEntry .none

/-! ## Harts that may issue -/

/-- The slot that a mender issues from (R303); a mender whose clock is gated issues nothing (R341). -/
def menderIssues (s : State) (m : Nat) : List HartId :=
  if menderGated (getMender s m) then [] else (((rotation (getMender s m).last).map fun i => HartId.mender m i).find? (candidate s)).toList

/-- The harts that may issue in this cycle. -/
def issues (s : State) : List HartId :=
  s.tiles.flatMap (fun t => tileIssues s t.1) ++ s.menders.flatMap fun m => menderIssues s m.1

/-! ## The choice (log 1) -/

/-- A choice that comes before every other: the stops of partitions whose switch is due (R269); then a period boundary, with the
completions before it (R263, R265). -/
def pressing (s : State) : List Turn :=
  match stops s with
  | [] =>
    if !boundaryDue s then []
    else
      match completions s with
      | [] => [own .periodBoundary .none]
      | l => l
  | l => l

/-- What may come next: the machine runs after a successful bring-up (R343). -/
def turns (s : State) : List Turn := if s.boot = 1 then dueTurns s ++ (issues s).map .hart else []

/-- The row stands for something that comes from outside the machine. -/
def fromOutside (i : Instr) : Bool :=
  match i with
  | .attestationStart | .attestationDone | .thermalTrip | .tripClear | .registerWrite | .armAliasStore | .rewardWindowWrite
  | .hostMemAccess | .pageWalk | .pageResponse | .tableLineSnoop | .linkTrainingDone | .flitReceive | .widthFlitReceive
  | .collMemberAnswer | .rwsendRemoteAnswer | .hostPortDown | .hostLineSnoop => true
  | _ => false

/-- The device answers the event: after a failed bring-up only CXL.io does (R343). -/
def answers (s : State) (i : Instr) : Bool :=
  fromOutside i && (s.boot == 1 || i == .attestationStart || i == .attestationDone || i == .registerWrite || i == .tripClear ||
    i == .thermalTrip)

/-- The line of a table that an event of the outside world takes away from the device, to write it or to have it. -/
def lineTaken (o : Occurrence) : Option Nat :=
  match o.data with
  | .hostMem pa _ (some _) _ | .hostAdd pa _ _ => some (pa / 64)
  | .key l => if o.row == .tableLineSnoop then some l else none
  | _ => none

/-- An access is under way whose translation was made from that line: the host's write completes after it (R125). -/
def lineInUse (s : State) (l : Nat) : Bool := (allHartIds s).any fun h => (getHart s h).out.any fun o => (opAccess o).any (·.lines.contains l)

/-- The event of the outside world that comes about now. -/
def nextInput (s : State) : Option Occurrence :=
  s.inputs.head?.filter fun o => decide (o.time ≤ s.cycle) && !(lineTaken o).any (lineInUse s)

/-- One of several turns: the choice is free (log 1, log 9). -/
def choose (s : State) (l : List Turn) : Turn × State :=
  match l with
  | [] => (.idle, s)
  | [x] => (x, s)
  | l => let (s, k) := nextFree s; (l.getD (Config.freeWord k % l.length) .idle, s)

/-- What the step does: bring-up first, then what is pressing, an event from outside, or one of what may come next. Where it may be more
than one, no rule of the spec orders agents against each other (log 1). -/
def pick (s : State) : Turn × State :=
  if s.boot = 0 then (own .bringUp .none, s)
  else
    match if s.boot = 1 then pressing s else [] with
    | x :: l => choose s (x :: l)
    | [] =>
      match nextInput s with
      | some o => (if answers s o.row then .event o else .idle, { s with inputs := s.inputs.drop 1 })
      | none => choose s (turns s)

/-! ## Issuing (R53) -/

/-- The hart issues: the rotation of its core moves on. -/
def markIssue (s : State) (h : HartId) : State :=
  let s := modHart { s with cur := h } h fun x => { x with issued := some s.cycle }
  match h with
  | .tile t i => if i.val < 8 then modTile s t fun x => { x with last := Fin.ofNat 8 i.val } else s
  | .mender m i => setMender s m { getMender s m with last := i }

/-! ## What passes with every step -/

/-- One more cycle towards a tile's leveller interval (R253). -/
def levelCycle (s : State) (t : Nat) (x : Tile) : Tile :=
  if x.lvl && tileRuns s t then { x with level := x.level + 1 } else x

/-- The slot of tile `t` that issued, or whose instruction has taken effect: a YIELD waits for it no more (R80). -/
def issuedOn (x : Turn) (t : Nat) : Option (Fin 10) :=
  match x with
  | .hart (.tile u i) | .held (.tile u i) _ => if u = t then some i else none
  | _ => none

/-- An agent among the waiters of a queue waits there no more (R308). -/
def gqLeft (s : State) (p : Nat × Agent) : Bool := !gqWaiting s p.1 true p.2 && !gqWaiting s p.1 false p.2

/-- An OPT waits no more for its queue, or for the hart's earlier accesses: it goes on (R61, R308, R311). -/
def optWakes (s : State) (h : HartId) (i : Nat) (o : LongOp) : Bool :=
  match o.await with
  | .queue pa => let l := memRead s.mem pa 64; !slotEnded s h && (!gqEn l || gqTurn s pa false (.hart h) && decide (0 < gqOcc l))
  | .order a => !((getHart s h).out.take i).any (opTouches · a)
  | .time | .fill _ | .accept _ | .move | .page _ _ => false

/-- The operations of a hart: an OPT whose wait is over is due. -/
def wakeOps (s : State) (h : HartId) (x : Hart) : Hart :=
  if x.out.any isOpt then
    { x with out := x.out.zipIdx.map fun p => if isOpt p.1 && optWakes s h p.2 p.1 then { p.1 with await := .time, due := s.cycle } else p.1 }
  else x

/-- The waits that have ended: harts become *ready*, and OPTs go on (R51, R311). -/
def wakeAll (s : State) : State :=
  let wake (h : HartId) (x : Hart) : Hart := wakeOps s h (wakeHart s h x)
  { s with tiles := s.tiles.map fun t => (t.1, { t.2 with harts := Vector.ofFn fun i => wake (.tile t.1 i) (t.2.harts.get i) }),
           menders := s.menders.map fun m => (m.1, { m.2 with harts := Vector.ofFn fun i => wake (.mender m.1 i) (m.2.harts.get i) }) }

/-- A cycle passes after the turn `x`: reports, waits, the leveller, the links, the clock, harts whose waits have ended, YIELDs (R51, R80,
R142, R148, R253, R272, R329, R370). -/
def tick (x : Turn) (s : State) : State :=
  let s := { s with ev := .none, reads := [], tiles := s.tiles.map fun t => (t.1, levelCycle s t.1 t.2) }
  let s := linkCycles (noteWaits (drainReports s))
  let s := { s with armSeen := armsSeen s, gqWait := s.gqWait.filter (!gqLeft s ·), cycle := s.cycle + 1 }
  let s := wakeAll s
  { s with tiles := s.tiles.map fun t => (t.1, pruneYield s t.1 t.2 (issuedOn x t.1)) }

end Sys2Proof.Machine
end

