-- ==== Sys2Proof/Machine/Step.lean ====
section
/-! DEFINITION. The step of the machine, and a machine whose next step runs a given word (log 6). -/

namespace Sys2Proof.Machine

/-- A hart's turn: a trap that waited is taken; otherwise its next instruction is fetched, decoded and executed (R33, R63). -/
def hartTurn (h : HartId) (s : State) : Out :=
  match dueTrap s h with
  | some (cause, val) => .next (takeTrap (markIssue s h) h cause val)
  | none => settle h (getHart s h) (fetchInstr exec (markIssue s h))

/-- The short instruction of word `w` that holds the slot of hart `h` takes effect: it has issued before (R54). -/
def heldTurn (h : HartId) (w : Nat) (s : State) : Out :=
  settle h (getHart s h) (exec (instrOf w (wordLen w)) { s with cur := h, iword := w })

/-- A turn. -/
def runTurn (x : Turn) (s : State) : Out :=
  match x with
  | .event o => exec o.row { s with ev := o.data }
  | .hart h => hartTurn h s
  | .held h w => heldTurn h w s
  | .idle => .next s

/-- What the clock adds to an outcome. -/
def ticked (x : Turn) (r : Out) : Out :=
  match r with
  | .next s => .next (tick x s)
  | .fault f => .fault f
  | .refused r => .refused r

/-- One step: a turn, and a cycle of the clock. -/
def step (s : State) : Host.Outcome State Fault Refusal := ticked (pick s).1 (runTurn (pick s).1 (pick s).2)

/-! ## A machine that is about to run a given word -/

/-- The table format of the loaded program's context: four levels, one 512 GiB leaf. -/
def loadTfd : Tfd := ⟨4, 0, 1, 2, 3, 4, 6, 7, 5, 1, 12, 40, 1, false⟩

/-- Physical addresses of the loaded program's root table and code, in device memory. -/
def loadRoot : Nat := Config.hdmBase + 0x1000
def loadCode : Nat := Config.hdmBase + 0x1_0000

/-- The leaf that maps virtual 0 to the start of device memory: valid, read, write, execute, accessed, dirty. -/
def loadPte : Nat := Config.hdmBase + 0xCF

/-- The context of the loaded program, and the partition and group that run it on tile 0. -/
def loadCtx : Ctx := ⟨0x2000, 1, loadRoot, loadTfd, 0, 0, true, 0, 0, 1, false, [(0, .resident)], [], 0, 0⟩
def loadPart : Part := ⟨true, 0, 0, 18, 16, [], 0, 0, some 1, 0, none⟩
def loadGroup : Group := ⟨1, 0, 1, 0, 0, 0, 0, 2, 2, .running, 4⟩

/-- Tile 0 with slot 0 at the code. -/
def loadTile0 : Tile :=
  { Tile.reset with harts := Tile.reset.harts.set 0 { Hart.reset with status := .ready, pc := 0x1_0000 }, ctx := 1, grp := some 1, stepmask := 0x7F,
                    slots := 7, gid := 0x0202_0000 }

/-- `s` as a program loader leaves it: the machine is up, context 1 is resident in partition 0 and runs a group on tile 0, whose
slot 0 is about to fetch the word `w`; nothing else is about to happen (log 6). -/
def State.withFetchWord (s : State) (nbits w : Nat) : State :=
  { s with
    cur := .tile 0 0, reads := [], armSeen := [], inputs := [], boot := 1, bounds := 1, cycle := 0,
    tiles := [(0, loadTile0)], menders := [], ctxs := [(1, loadCtx)],
    parts := (Vector.replicate 32 Part.reset).set 0 loadPart,
    groups := [loadGroup], launches := [], msgs := [], colls := [], armPend := [], gPoison := [], gLatent := [],
    dies := Vector.replicate 4 Die.reset, links := Vector.replicate 16 Link.reset,
    mem := memWrite (memWrite s.mem loadRoot 8 loadPte) loadCode 4 (w % 2 ^ nbits) }

end Sys2Proof.Machine
end

