-- ==== Sys2Proof/Safety.lean ====
section
/-! DEFINITION. What counts as a safe run: every step answers a next state, and every memory of the machine keeps its canonical
form. -/

namespace Sys2Proof

open Sys2Proof.Machine

/-- The outcome is a next state: no fault and no refusal. -/
def Answers (r : Out) : Prop := ∃ t, r = .next t

/-- The stores of a tile are in canonical form. -/
def tileMemWf (x : Tile) : Bool := Memory.wf x.l && Memory.wf x.w && Memory.wf x.a && Memory.wf x.c

/-- Every memory of the machine is in canonical form (log 4): device and host memory, the stores of every tile and of every saved
tile, and the buffers of the menders. -/
def memWf (s : State) : Bool :=
  Memory.wf s.mem && s.tiles.all (fun t => tileMemWf t.2) && s.menders.all (fun m => Memory.wf m.2.buf) &&
    s.ctxs.all fun c => c.2.saved.all fun r => tileMemWf r.state

/-- An outcome is safe: the machine goes on, with every memory in canonical form. -/
def safeOut (r : Out) : Bool :=
  match r with
  | .next s => memWf s
  | .fault _ | .refused _ => false

/-- A run of `n` steps is safe. -/
def safeRun : Nat → State → Bool
  | 0, s => memWf s
  | n + 1, s =>
    memWf s && match step s with
      | .next t => safeRun n t
      | .fault _ | .refused _ => false

end Sys2Proof
end

