-- ==== Sys2Proof/Certificates/Slice0/Obligations.lean ====
section
/-! DEFINITION. The statements for the provers, each over the rules of spec/ that its docstring names. The helpers of `Claims` say what
a statement's premises are and what its next state is; the values they give are written from the spec's rules. -/

namespace Sys2Proof.Claims

open Sys2Proof.Machine

/-! ## Premises and next states -/

/-- The executing hart runs the instruction: it is of a kind whose set holds it (R48), every source is full (R57) and its cell without
an error (R296), and no destination is that of an outstanding operation (R60). -/
structure Issues (s : State) (ok : HartKind → Bool) (srcs dsts : List RegId) : Prop where
  kind : ok (kindOf s.cur) = true
  full : ∀ r ∈ srcs, regFull s s.cur r = true
  sound : ∀ r ∈ srcs, flawAt (me s).flaws (.reg r) = none
  free : ∀ r ∈ dsts, hazard (me s) r = false

/-- After a short instruction of `len` bytes that reads `srcs` and changes its hart by `f` (R54): the hart goes on behind it. -/
def finished (s : State) (srcs : List RegId) (len : Nat) (f : Hart → Hart) : State :=
  complete (modHart (readFilled s srcs) s.cur f) s.cur ((me s).pc + w64 len)

/-- A long operation behind its issue: its lookahead, its due cycle, what it writes, its flags and what it does beside, at completion
(R59, R60). -/
def opAt (h : Hart) (la due : Nat) (wbs : List WriteBack) (fl : BitVec 5) (fp : Bool) (fx : OpFx) : LongOp :=
  { left := if h.ss then 0 else la, due := due, wbs := wbs, flags := fl, pre := false, qcnt := [], await := .time, fp := fp, inl := false,
    win := [], fx := fx }

/-- The hart after it has issued the long operation `o`: the destinations are empty, the operation stands last among the outstanding
ones, and the hart goes on behind it (R59, R60). -/
def hartIssued (s : State) (len : Nat) (o : LongOp) (h : Hart) : Hart :=
  { o.wbs.foldl (fun h w => emptyHartReg h w.reg) h with
    pc := h.pc + w64 len,
    status := if stepped s.cur h then .parked (.trap 0x07 h.pc) else .ready,
    out := spendShadow h.out ++ [o],
    refused := none, why := none }

/-- The hart after a long operation that only writes registers and flags has issued. -/
def issuedHart (s : State) (len la lat : Nat) (wbs : List WriteBack) (fl : BitVec 5) (fp : Bool) (h : Hart) : Hart :=
  hartIssued s len (opAt h la (s.cycle + lat) wbs fl fp .none) h

/-- After the issue of a long operation that writes registers of its hart. -/
def issued (s : State) (len la lat : Nat) (wbs : List WriteBack) (fl : BitVec 5) (fp : Bool) : State :=
  modHart s s.cur (issuedHart s len la lat wbs fl fp)

/-- A write-back to a g-register; g0 has none. -/
def gBack (d : GReg) (v : Word) : List WriteBack := if d = 0 then [] else [⟨gId d, v.toNat⟩]

/-! ## The integer instructions (R69 to R72, R44) -/

/-- A short instruction whose one result is a g-register. -/
structure GRow where
  instr : Instr
  ok : HartKind → Bool
  srcs : List GReg
  dst : GReg
  len : Nat
  val : (GReg → Word) → Word

/-- The number of low bits of `w` that are `v`, up to the first that is not, from bit 0 up, or from bit 63 down. -/
def runUp (w : Word) : Nat := ((List.range 64).takeWhile fun i => !w.getLsbD i).length
def runDown (w : Word) : Nat := ((List.range 64).takeWhile fun i => !w.getLsbD (63 - i)).length

/-- BFX and BFI: position and length of the field, cut at bit 63 (R69). -/
def fieldPos (b : Word) : Nat := b.toNat % 64
def fieldLen (b : Word) : Nat := min (b.toNat / 256 % 64) (64 - fieldPos b)

/-- ALU, two operands (R69). -/
def aluRows (d a b : GReg) : List GRow :=
  let r (i : Instr) (f : Word → Word → Word) : GRow := ⟨i, threadOrMender, [a, b], d, 4, fun g => f (g a) (g b)⟩
  [ r (.add d a b) fun x y => w64 (x.toNat + y.toNat),
    r (.sub d a b) fun x y => i64 (x.toNat - y.toNat),
    r (.and d a b) fun x y => x &&& y,
    r (.or d a b) fun x y => x ||| y,
    r (.xor d a b) fun x y => x ^^^ y,
    r (.sll d a b) fun x y => w64 (x.toNat * 2 ^ (y.toNat % 64)),
    r (.srl d a b) fun x y => w64 (x.toNat / 2 ^ (y.toNat % 64)),
    r (.sra d a b) fun x y => i64 (x.toInt / 2 ^ (y.toNat % 64)),
    r (.slt d a b) fun x y => if x.toInt < y.toInt then 1 else 0,
    r (.sltn d a b) fun x y => if x.toNat < y.toNat then 1 else 0,
    r (.min d a b) fun x y => i64 (min x.toInt y.toInt),
    r (.max d a b) fun x y => i64 (max x.toInt y.toInt),
    r (.minn d a b) fun x y => w64 (min x.toNat y.toNat),
    r (.maxn d a b) fun x y => w64 (max x.toNat y.toNat),
    r (.addw d a b) fun x y => i64 (sextNat 32 (x.toNat + y.toNat)),
    r (.subw d a b) fun x y => (x.setWidth 32 - y.setWidth 32).signExtend 64,
    r (.rol d a b) fun x y => x.rotateLeft (y.toNat % 64),
    r (.ror d a b) fun x y => x.rotateRight (y.toNat % 64),
    r (.bfx d a b) fun x y => w64 (x.toNat / 2 ^ fieldPos y % 2 ^ fieldLen y) ]

/-- ALU, three operands and one operand, and the compact forms of both (R69, R44). -/
def aluMoreRows (d a b : GReg) (imm : Imm7) : List GRow :=
  [ ⟨.sel d a b, threadOrMender, [a, b, d], d, 4, fun g => if g d ≠ 0 then g a else g b⟩,
    ⟨.bfi d a b, threadOrMender, [a, b, d], d, 4, fun g =>
      let m := w64 ((2 ^ fieldLen (g b) - 1) * 2 ^ fieldPos (g b))
      (g d &&& ~~~m) ||| (w64 ((g a).toNat * 2 ^ fieldPos (g b)) &&& m)⟩,
    ⟨.clz d a, threadOrMender, [a], d, 4, fun g => w64 (runDown (g a))⟩,
    ⟨.ctz d a, threadOrMender, [a], d, 4, fun g => w64 (runUp (g a))⟩,
    ⟨.popc d a, threadOrMender, [a], d, 4, fun g => w64 ((List.range 64).countP fun i => (g a).getLsbD i)⟩,
    ⟨.cAddi d imm, allHarts, [d], d, 2, fun g => i64 ((g d).toInt + imm.toInt)⟩,
    ⟨.cMov d a, threadOrMender, [a, 0], d, 2, fun g => g a⟩,
    ⟨.cAdd d a, threadOrMender, [d, a], d, 2, fun g => w64 ((g d).toNat + (g a).toNat)⟩,
    ⟨.cSub d a, threadOrMender, [d, a], d, 2, fun g => i64 ((g d).toNat - (g a).toNat)⟩,
    ⟨.cAnd d a, threadOrMender, [d, a], d, 2, fun g => g d &&& g a⟩ ]

/-- ALUI (R71, R72). -/
def immRows (d a : GReg) (imm : Imm15) (n : Sh6) : List GRow :=
  let r (ok : HartKind → Bool) (i : Instr) (f : Word → Word) : GRow := ⟨i, ok, [a], d, 4, fun g => f (g a)⟩
  [ r allHarts (.addi d a imm) fun x => i64 (x.toInt + imm.toInt),
    r threadOrMender (.andi d a imm) fun x => x &&& i64 imm.toInt,
    r threadOrMender (.ori d a imm) fun x => x ||| i64 imm.toInt,
    r threadOrMender (.xori d a imm) fun x => x ^^^ i64 imm.toInt,
    r threadOrMender (.slti d a imm) fun x => if x.toInt < imm.toInt then 1 else 0,
    r threadOrMender (.slli d a n) fun x => w64 (x.toNat * 2 ^ n.val),
    r threadOrMender (.srli d a n) fun x => w64 (x.toNat / 2 ^ n.val),
    r threadOrMender (.srai d a n) fun x => i64 (x.toInt / 2 ^ n.val),
    r threadOrMender (.rori d a n) fun x => x.rotateRight n.val ]

/-- The row's instruction runs as R69 to R72 say. -/
def GRow.runs (r : GRow) : Prop :=
  ∀ s : State, Issues s r.ok (r.srcs.map gId) [gId r.dst] →
    exec r.instr s = .next (finished s (r.srcs.map gId) r.len fun h => wg h r.dst (r.val (rg (me s))))

/-- The long integer operations with their latencies (R62, R69, R70). -/
def longRows (la : La) (d a b : GReg) : List (Instr × Nat × (Word → Word → Word)) :=
  [ (.mul la d a b, 8, fun x y => w64 (x.toNat * y.toNat)),
    (.mulh la d a b, 10, fun x y => i64 (x.toInt * y.toInt / 2 ^ 64)),
    (.mulhn la d a b, 10, fun x y => w64 (x.toNat * y.toNat / 2 ^ 64)),
    (.mulw la d a b, 8, fun x y => (x.setWidth 32 * y.setWidth 32).signExtend 64),
    (.div la d a b, 36, fun x y => if y = 0 then i64 (-1) else i64 (x.toInt.tdiv y.toInt)),
    (.divn la d a b, 36, fun x y => if y = 0 then i64 (-1) else w64 (x.toNat / y.toNat)),
    (.rem la d a b, 36, fun x y => if y = 0 then x else i64 (x.toInt.tmod y.toInt)),
    (.remn la d a b, 36, fun x y => if y = 0 then x else w64 (x.toNat % y.toNat)) ]

/-! ## Branches and jumps (R75, R76, R44, R45) -/

/-- A conditional branch: instruction, sources, length, byte offset, condition on the registers. -/
structure BRow where
  instr : Instr
  srcs : List GReg
  len : Nat
  off : Int
  cond : (GReg → Word) → Prop

def branchRows (a b : GReg) (off : Off12) (c : Imm7) : List BRow :=
  [ ⟨.beq a b off, [a, b], 4, off.toInt * 2, fun g => g a = g b⟩,
    ⟨.bne a b off, [a, b], 4, off.toInt * 2, fun g => g a ≠ g b⟩,
    ⟨.blt a b off, [a, b], 4, off.toInt * 2, fun g => (g a).toInt < (g b).toInt⟩,
    ⟨.bge a b off, [a, b], 4, off.toInt * 2, fun g => (g b).toInt ≤ (g a).toInt⟩,
    ⟨.bltn a b off, [a, b], 4, off.toInt * 2, fun g => (g a).toNat < (g b).toNat⟩,
    ⟨.bgen a b off, [a, b], 4, off.toInt * 2, fun g => (g b).toNat ≤ (g a).toNat⟩,
    ⟨.bbs a b off, [a], 4, off.toInt * 2, fun g => (g a).getLsbD b.val = true⟩,
    ⟨.bbc a b off, [a], 4, off.toInt * 2, fun g => (g a).getLsbD b.val = false⟩,
    ⟨.cBeqz c a, [a, 0], 2, c.toInt * 2, fun g => g a = 0⟩,
    ⟨.cBnez c a, [a, 0], 2, c.toInt * 2, fun g => g a ≠ 0⟩ ]

/-- After a jump to `t` that leaves the address behind it in `d`. -/
def jumped (s : State) (srcs : List RegId) (d : GReg) (len : Nat) (t : Word) : State :=
  complete (modHart (readFilled s srcs) s.cur fun h => wg h d (h.pc + w64 len)) s.cur t

/-- JAL and C.J: instruction, link register, length, byte offset. -/
def jumpRows (d : GReg) (off : Off20) (c : Off12) : List (Instr × GReg × Nat × Int) :=
  [ (.jal d off, d, 4, off.toInt * 2), (.cJ c, 0, 2, c.toInt * 2) ]

/-- JALR and RET: instruction, base, link register, length, immediate. -/
def jalrRows (d a : GReg) (imm : Imm15) : List (Instr × GReg × GReg × Nat × Int) :=
  [ (.jalr d a imm, a, d, 4, imm.toInt), (.cRet, 1, 0, 2, 0) ]

end Sys2Proof.Claims

open Sys2Proof Sys2Proof.Machine Sys2Proof.Claims

/-- R69 to R72, R62, R44: every short ALU and ALUI instruction, and every compact form of one, completes with the value its rule
gives, for every operand; g0 discards it, and nothing but its hart changes; the long integer operations issue with their result on
its way and their latency. -/
def Obligations.IntegerInstructions : Prop :=
  (∀ (d a b : GReg) (imm : Imm15) (c : Imm7) (n : Sh6),
    (∀ r ∈ aluRows d a b, r.runs) ∧ (∀ r ∈ aluMoreRows d a b c, r.runs) ∧ ∀ r ∈ immRows d a imm n, r.runs) ∧
  (∀ (la : La) (d a b : GReg), ∀ r ∈ longRows la d a b, ∀ s : State,
    Issues s threadOrMender [gId a, gId b] [gId d] → (me s).out.length < 4 →
      exec r.1 s = .next (issued (readFilled s [gId a, gId b]) 4 la.val r.2.1
        (gBack d (r.2.2 (rg (me s) a) (rg (me s) b))) 0 false))

/-- R75, R44: a branch goes to its target when its condition holds, and to the next instruction otherwise; it never traps. -/
def Obligations.Branches : Prop :=
  ∀ (a b : GReg) (off : Off12) (c : Imm7), ∀ r ∈ branchRows a b off c, ∀ s : State,
    Issues s allHarts (r.srcs.map gId) [] →
      (r.cond (rg (me s)) →
        exec r.instr s = .next (complete (readFilled s (r.srcs.map gId)) s.cur (i64 ((me s).pc.toInt + r.off)))) ∧
      (¬ r.cond (rg (me s)) →
        exec r.instr s = .next (complete (readFilled s (r.srcs.map gId)) s.cur ((me s).pc + w64 r.len)))

/-- R76, R45: JAL, C.J, JALR and RET leave the next address in d and go to their target; a target with bit 0 set traps with
cause 0x08, and d is not written. -/
def Obligations.Jumps : Prop :=
  (∀ (d : GReg) (off : Off20) (c : Off12), ∀ r ∈ jumpRows d off c, ∀ s : State, Issues s allHarts [] [gId r.2.1] →
    exec r.1 s = .next (jumped s [] r.2.1 r.2.2.1 (i64 ((me s).pc.toInt + r.2.2.2)))) ∧
  (∀ (d a : GReg) (imm : Imm15), ∀ r ∈ jalrRows d a imm, ∀ s : State,
    Issues s threadOrMender [gId r.2.1] [gId r.2.2.1] →
      let t := i64 ((rg (me s) r.2.1).toInt + r.2.2.2.2)
      (t.toNat % 2 = 0 → exec r.1 s = .next (jumped s [gId r.2.1] r.2.2.1 r.2.2.2.1 t)) ∧
      (t.toNat % 2 = 1 → exec r.1 s = .next (trapOn (readFilled s [gId r.2.1]) s.cur 0x08 t)))

namespace Sys2Proof.Claims

open Sys2Proof.Machine

/-! ## SYS, the fences and the CSRs (R66, R67, R77, R91, R109) -/

/-- The G read cache of a hart's tile, or the tile's instruction cache, is emptied; a mender has neither. -/
def cachesEmptied (gData code : Bool) (s : State) : State :=
  match s.cur with
  | .tile t _ => setTile s t { getTile s t with gcache := if gData then [] else (getTile s t).gcache,
                                                icache := if code then [] else (getTile s t).icache }
  | .mender _ _ => s

/-- Instructions that only order accesses: whether they empty the caches, and, for FENCE.acq and FENCE.lb, whether the loop-back port
holds them up (R109). -/
def fenceRows : List (Instr × Bool × Bool × Option Bool) :=
  [ (.fenceAcq, true, false, some false), (.fenceRel, false, false, none), (.fenceFull, true, false, none),
    (.fenceLb, false, false, some true), (.ifence, false, true, none) ]

/-- What the fence waits for has come about: nothing of the hart is outstanding; for FENCE.acq and FENCE.lb a store that has been sent
may be, in the loop-back port not for FENCE.lb (R109; log 47). -/
def fenceOver (w : Option Bool) (s : State) : Prop :=
  match w with
  | none => (me s).out = []
  | some lb => openOps s.cycle (me s) = [] ∧ (lb = true → ∀ o ∈ (me s).out, inLoopBack s.cur o = false)
def fenceWait (w : Option Bool) : Reason :=
  match w with
  | none => .drain
  | some lb => .fenced lb

/-- CSR number `n`. -/
def csrNo (n : Nat) : CsrNo := BitVec.ofNat 12 n

/-- What each CSR of a tile's hart reads (R65, R66, R130, R153, R159, R189, R211, R212, R224, R240, R246, R272, R334). -/
def csrValues (s : State) (t : Nat) (i : Fin 10) : List (CsrNo × Nat) :=
  let h := getHart s (.tile t i)
  let x := getTile s t
  [ (0x000, h.fflags.toNat), (0x001, h.frm.toNat), (0x002, b2n h.pre), (0x003, h.mtag.toNat), (0x004, x.mnext.toNat),
    (0x005, h.wlx.toNat), (0x006, h.cpyq.toNat), (0x010, x.step.toNat + 2 ^ 32 * b2n x.wr), (0x011, x.stepmask.toNat),
    (0x012, x.stepwatch.toNat), (0x028, x.seed.toNat), (0x029, x.gid.toNat), (0x02A, t % 72 + 256 * (t / 72)), (0x02B, i.val),
    (0x02C, h.path.toNat), (0x02D, h.wlim.toNat), (0x050, b2n x.oerrErr + 2 * b2n x.oerrLost + 65536 * (x.oerrCnt % 65536)),
    (0x060, s.cycle * 5 / 12), (0x061, 1), (0x062, x.promise.toNat), (0x100, h.tcause.toNat), (0x101, h.tval.toNat),
    (0x102, h.tepc.toNat), (0x103, b2n h.inh + 2 * b2n h.sup + 256 * (h.stack.length % 16) + 65536 * ((openOps s.cycle h).length % 8)),
    (0x104, h.tvec.toNat), (0x105, h.tscratch.toNat), (0x106, b2n h.ss), (0x200, x.sleepDepth.toNat), (0x201, x.ctx % 65536),
    (0x202, x.repq.toNat / 64 * 64), (0x203, x.escwait.toNat) ] ++
  (List.finRange 4).map (fun k => (csrNo (0x020 + k.val), (x.fmt.get k).toNat % 2 ^ 24 / 2 ^ 16 * 2 ^ 16 + (x.fmt.get k).toNat % 2 ^ 12)) ++
  (List.finRange 4).map (fun k => (csrNo (0x024 + k.val), (x.scp.get k).toNat)) ++
  (List.finRange 16).map (fun k => (csrNo (0x030 + k.val), (x.lfsr.get k).toNat)) ++
  (List.finRange 4).map (fun k => (csrNo (0x040 + k.val), (x.q.get k).cnt)) ++
  (List.finRange 8).map fun k => (csrNo (0x051 + k.val), (x.oerrloc.get k).toNat)

/-- The CSRs with RW bits: the number, and what the CSR holds after `v` is written over `old` (R64, R66, R130, R159, R182, R272,
R334). -/
def csrWritten : List (CsrNo × (Nat → Nat → Nat)) :=
  [ (0x000, fun _ v => v % 32), (0x001, fun old v => if v % 8 < 5 then v % 8 else old), (0x004, fun _ v => v),
    (0x011, fun _ v => v % 128), (0x012, fun _ v => v % 2 ^ 32), (0x02D, fun _ v => v % 65536),
    (0x100, fun _ v => v / 2 ^ 63 * 2 ^ 63 + v % 128), (0x101, fun _ v => v), (0x102, fun _ v => v / 2 * 2),
    (0x103, fun old v => old / 2 * 2 + v % 2), (0x104, fun _ v => v / 2 * 2), (0x105, fun _ v => v), (0x106, fun _ v => v % 2),
    (0x200, fun old v => if v % 4 = 3 then old else v % 4), (0x202, fun _ v => v / 64 * 64),
    (0x203, fun _ v => max 16 (v % 65536)) ] ++
  (List.range 16).map fun k => (csrNo (0x030 + k), fun _ v => if v % 2 ^ 32 = 0 then 1 else v % 2 ^ 32)

/-- The CSRs without an RW bit (R65). -/
def csrFixed : List CsrNo :=
  [0x002, 0x003, 0x005, 0x006, 0x010, 0x028, 0x029, 0x02A, 0x02B, 0x02C, 0x050, 0x060, 0x061, 0x062, 0x201] ++
    ((List.range 8).map (0x020 + ·) ++ (List.range 4).map (0x040 + ·) ++ (List.range 8).map (0x051 + ·)).map csrNo

/-- A CSR that software has cleared under a mask: hst, oerr and, with oerr.ERR, the oerrloc registers (R66, R67, R211). -/
def csrCleared (n old mask : Nat) : Nat :=
  let e := mask % 2 = 1
  if n = 0x002 then (if e then 0 else old)
  else if n = 0x050 then (if e then 0 else old % 2 + old / 65536 * 65536) + (if mask / 2 % 2 = 1 then 0 else old / 2 % 2 * 2)
  else old

/-- The hart may use a CSR: it is listed, a mender has only its own, and the supervisor's need supervisor mode (R48, R65, R303). -/
def csrOpen (s : State) (n : CsrNo) : Prop :=
  csrListed n.toNat = true ∧ (kindOf s.cur = .thread ∨ kindOf s.cur = .mender ∧ menderCsr n.toNat = true) ∧
    (0x200 ≤ n.toNat → isSup s = true)

/-- What the CSR instructions that write put into the register, from its old value and A, and whether A clears RC bits. -/
def csrSwapRows (d : GReg) (n : CsrNo) (a : GReg) : List (Instr × Bool × (Word → Word → Word)) :=
  [ (.csrs d n a, false, fun old m => old ||| m), (.csrc d n a, true, fun old m => old &&& ~~~m), (.csrx d n a, true, fun _ m => m) ]

/-- After a CSR has been written: RC bits that the mask names cleared first, and the hart goes on. -/
def csrStored (s : State) (n : CsrNo) (clears : Option Word) (v : Word) (f : Hart → Hart) : State :=
  let s0 := match clears with
    | some m => csrClear s s.cur n.toNat m
    | none => s
  completeAs (stepped s.cur (me s)) (modHart (csrWrite s0 s.cur n.toNat v) s.cur f) s.cur ((me s).pc + 4)

end Sys2Proof.Claims

/-- R77, R45, R68, R91, R109: NOP and its compact form only go on; PARK waits until the time of its operand, and goes on once that
has come; ECALL and EBREAK trap with their cause and value 0; TRET in a handler goes to tepc and leaves the handler, and elsewhere
it is illegal. FENCE and IFENCE wait for their hart's operations, FENCE.acq and FENCE.lb not for the acknowledgement of a store that has
been sent (the model's reading of when a store has completed, DEDUCED: log 47); then an acquire empties the tile's G read cache, IFENCE its
instruction cache, and nothing else changes. -/
def Obligations.SystemAndFences : Prop :=
  ((∀ r ∈ [(Instr.nop, 4), (Instr.cSysNop, 2)], ∀ s : State, Issues s threadOrMender [] [] →
    exec r.1 s = .next (finished s [] r.2 id)) ∧
  (∀ (a : GReg) (s : State), Issues s threadOrMender [gId a] [] →
    let t := s.cycle * 5 / 12
    ((rg (me s) a).toNat ≤ t → exec (.park a) s = .next (finished s [gId a] 4 id)) ∧
    (t < (rg (me s) a).toNat →
      exec (.park a) s = .next (parkHart (readFilled s [gId a]) s.cur (.deadline (rg (me s) a).toNat)))) ∧
  ∀ s : State, Issues s threadOrMender [] [] →
    exec .ecall s = .next (trapOn s s.cur (if (me s).sup then 0x05 else 0x04) 0) ∧
    exec .ebreak s = .next (trapOn s s.cur 0x06 0) ∧
    ((me s).inh = true → exec .tret s = .next (modHart s s.cur fun h =>
      { h with inh := false, pc := h.tepc, status := .ready, out := spendShadow h.out, refused := none, why := none })) ∧
    ((me s).inh = false → exec .tret s = .next (trapOn s s.cur 0x00 (w64 s.iword)))) ∧
  (∀ r ∈ fenceRows, ∀ s : State, Issues s threadOrMender [] [] →
    (fenceOver r.2.2.2 s → exec r.1 s = .next (complete (cachesEmptied r.2.1 r.2.2.1 s) s.cur ((me s).pc + 4))) ∧
    (¬ fenceOver r.2.2.2 s → exec r.1 s = .next (parkHart s s.cur (fenceWait r.2.2.2))))

/-- R65, R66, R67: CSRR delivers the register's value, and every CSR of a tile's hart reads the fields it stands for; CSRW, CSRS, CSRC
and CSRX complete, with the old value in d. A read of fflags waits in its slot while an operation that can set flags is outstanding. -/
def Obligations.CsrAccesses : Prop :=
  ((∀ (d : GReg) (n : CsrNo) (s : State), Issues s threadOrMender [] [gId d] → csrOpen s n → csrFlaw s s.cur n.toNat = none →
    ((n = 0 → (me s).out.all (!·.fp) = true) →
      exec (.csrr d n) s = .next (finished s [] 4 fun h => wg h d (csrRead s s.cur n.toNat))) ∧
    (n = 0 → (openOps s.cycle (me s)).any (·.fp) = true →
      exec (.csrr d n) s = .next (parkHart s s.cur (.slot .flags s.iword)))) ∧
  ∀ (s : State) (t : Nat) (i : Fin 10), ∀ r ∈ csrValues s t i, csrRead s (.tile t i) r.1.toNat = w64 r.2) ∧
  (∀ (d : GReg) (n : CsrNo) (a : GReg) (s : State), Issues s threadOrMender [gId a] [gId d] → csrOpen s n →
    csrFlaw s s.cur n.toNat = none →
    let s1 := readFilled s [gId a]
    let m := rg (me s) a
    let old := csrRead s1 s.cur n.toNat
    exec (.csrw n a) s = .next (csrStored s1 n (some m) m id) ∧
    ((n = 0 → (me s).out.all (!·.fp) = true) → ∀ r ∈ csrSwapRows d n a,
      exec r.1 s = .next (csrStored s1 n (if r.2.1 then some m else none) (r.2.2 old m) fun h => wg h d old)))

/-- R65, R66, R67, R211: what each CSR with RW bits holds after a write, whatever it held; no write changes any other. What a mask clears
of hst and of oerr, and of oerrloc with oerr.ERR. Neither changes a memory, another hart, or a register of the hart. -/
def Obligations.CsrFieldsAfterWrite : Prop :=
  (∀ r ∈ csrWritten, ∀ (s : State) (t : Nat) (i : Fin 10) (v : Word),
    (csrRead (csrWrite s (.tile t i) r.1.toNat v) (.tile t i) r.1.toNat).toNat =
      r.2 (csrRead s (.tile t i) r.1.toNat).toNat v.toNat) ∧
  (∀ n ∈ csrFixed, ∀ (s : State) (t : Nat) (i : Fin 10) (v : Word),
    csrRead (csrWrite s (.tile t i) n.toNat v) (.tile t i) n.toNat = csrRead s (.tile t i) n.toNat) ∧
  (∀ (s : State) (t : Nat) (i : Fin 10) (m : Word), ∀ n ∈ [(0x002 : CsrNo), 0x050],
    (csrRead (csrClear s (.tile t i) n.toNat m) (.tile t i) n.toNat).toNat =
      csrCleared n.toNat (csrRead s (.tile t i) n.toNat).toNat m.toNat ∧
    ∀ k : Fin 8, (csrRead (csrClear s (.tile t i) n.toNat m) (.tile t i) (0x051 + k.val)).toNat =
      if n = 0x050 ∧ m.toNat % 2 = 1 then (csrRead s (.tile t i) (0x051 + k.val)).toNat % 2 ^ 63
      else (csrRead s (.tile t i) (0x051 + k.val)).toNat) ∧
  (∀ (s : State) (t : Nat) (i : Fin 10) (n : CsrNo) (v : Word), ∀ x ∈ [csrWrite s (.tile t i) n.toNat v, csrClear s (.tile t i) n.toNat v],
    x.mem = s.mem ∧ (∀ k : HartId, k ≠ .tile t i → getHart x k = getHart s k) ∧
    let h := getHart s (.tile t i)
    let y := getHart x (.tile t i)
    y.g = h.g ∧ y.e = h.e ∧ y.v = h.v ∧ y.k = h.k ∧ y.pc = h.pc ∧ y.status = h.status ∧ y.out = h.out)


namespace Sys2Proof.Claims

open Sys2Proof.Machine

/-! ## Loads and stores (R37, R86 to R95, R44) -/

/-- An access of a tile's hart to a store of its own tile. -/
structure SRow where
  instr : Instr
  store : Store
  ok : HartKind → Bool
  len : Nat
  la : Nat
  width : Width
  base : GReg
  data : GReg
  ea : Hart → Word

/-- The size of an access, and what a load of that width delivers (R37, R93). -/
def accessSize (w : Width) : Nat :=
  match w with
  | .byte | .nbyte => 1
  | .half | .nhalf => 2
  | .word | .nword => 4
  | .dword => 8
  | .vec => 64
def loaded (w : Width) (v : Nat) : Nat :=
  match w with
  | .byte => (i64 (BitVec.ofNat 8 v).toInt).toNat
  | .half => (i64 (BitVec.ofNat 16 v).toInt).toNat
  | .word => (i64 (BitVec.ofNat 32 v).toInt).toNat
  | .dword | .nbyte | .nhalf | .nword | .vec => v

/-- The data register, what a store takes from it, and the write-back of a load (R37). -/
def dataId (w : Width) (d : GReg) : RegId := if w = .vec then ⟨.v, d.val % 16⟩ else ⟨.g, d.val⟩
def stored (w : Width) (d : GReg) (h : Hart) : Nat := if w = .vec then (rv h (Fin.ofNat 16 d.val)).toNat else (rg h d).toNat
def loadBack (w : Width) (d : GReg) (v : Nat) : List WriteBack := if w ≠ .vec ∧ d = 0 then [] else [⟨dataId w d, loaded w v⟩]

/-- The destination of a load that travels: its value comes with its completion. -/
def backOf (w : Width) (d : GReg) : List WriteBack := if w ≠ .vec ∧ d = 0 then [] else [⟨dataId w d, 0⟩]

/-- The effective address: base plus the immediate times the access size (R88). -/
def eaOf (a : GReg) (imm : Imm8) (w : Width) (h : Hart) : Word := i64 ((rg h a).toInt + imm.toInt * accessSize w)
def compactEa (a : EReg) (off : Nib) (h : Hart) : Word := w64 ((rg h ⟨8 + a.val, by omega⟩).toNat + off.val * 8)

/-- The loads, and the stores, of L, W, A and C. -/
def loadRows (la : La) (imm : Imm8) (w : Width) (a d : GReg) (c : EReg) (off : Nib) : List SRow :=
  [ ⟨.ldl la imm w a d, .l, threadOnly, 4, la.val, w, a, d, eaOf a imm w⟩,
    ⟨.ldws la imm w a d, .w, tileHarts, 4, la.val, w, a, d, eaOf a imm w⟩,
    ⟨.ldas la imm w a d, .a, tileHarts, 4, la.val, w, a, d, eaOf a imm w⟩,
    ⟨.ldcs la imm w a d, .c, tileHarts, 4, la.val, w, a, d, eaOf a imm w⟩,
    ⟨.cLdlD off c d, .l, threadOnly, 2, 0, .dword, ⟨8 + c.val, by omega⟩, d, compactEa c off⟩ ]
def storeRows (la : La) (imm : Imm8) (w : Width) (a d : GReg) (c : EReg) (off : Nib) : List SRow :=
  [ ⟨.stl la imm w a d, .l, threadOnly, 4, la.val, w, a, d, eaOf a imm w⟩,
    ⟨.stws la imm w a d, .w, tileHarts, 4, la.val, w, a, d, eaOf a imm w⟩,
    ⟨.stas la imm w a d, .a, tileHarts, 4, la.val, w, a, d, eaOf a imm w⟩,
    ⟨.stcs la imm w a d, .c, tileHarts, 4, la.val, w, a, d, eaOf a imm w⟩,
    ⟨.cStlD off c d, .l, threadOnly, 2, 0, .dword, ⟨8 + c.val, by omega⟩, d, compactEa c off⟩ ]

/-- The hart of tile `t` may make the access: its registers and room are there, the address is aligned and inside the store, and
an accumulator tile that it touches is full (R37, R61, R87, R88). -/
structure Reaches (r : SRow) (s : State) (t : Nat) (srcs dsts : List RegId) : Prop where
  issues : Issues s r.ok srcs dsts
  room : (me s).out.length < 4
  here : tileOf? s.cur = some t
  aligned : (r.ea (me s)).toNat % accessSize r.width = 0
  inside : (r.ea (me s)).toNat < r.store.size
  ctile : r.store = .c → (getTile s t).cF.getLsbD ((r.ea (me s)).toNat / 0x1000) = true

/-- The cause of a misaligned access to a store; the next one is the cause of an access outside it (R88). -/
def storeCause (x : Store) : Nat :=
  match x with
  | .l => 0x10
  | .w => 0x20
  | .a => 0x24
  | .c => 0x28

/-- Byte `b` of a store of a tile. -/
def storeByte (s : State) (t : Nat) (x : Store) (b : Nat) : Nat := memRead (storeMem (getTile s t) x) b 1

/-- `t` differs from `s` in no byte of any memory but the `n` bytes at `a` of store `x` of tile `u`. -/
def OnlyStoreBytes (s t : State) (u : Nat) (x : Store) (a n : Nat) : Prop :=
  t.mem = s.mem ∧ ∀ (v : Nat) (y : Store) (b : Nat), (v = u ∧ y = x ∧ a ≤ b ∧ b < a + n) ∨ storeByte t v y b = storeByte s v y b

/-- A hart that has issued a store: nothing of it changes but the pc, the status and the operation that waits for its home. -/
def storeIssued (s : State) (h : Hart) (len la lat : Nat) : Hart := issuedHart s len la lat [] 0 false h

/-- The latency of an access to another tile's L-store, or to the own one through the mesh (R95, R141). -/
def meshCycles (u t : Nat) : Nat :=
  let d (a b : Nat) : Nat := (a - b) + (b - a)
  if u = t then 14
  else 12 + 2 * (d (u % 72) (t % 72) + d (u / 72) (t / 72)) + 16 * (b2n (u % 72 / 36 != t % 72 / 36) + b2n (u / 72 / 32 != t / 72 / 32))

/-- The latency of an access to G that goes to its slice (R15, R95): host memory, a slice of the hart's die, a slice of another. -/
def homeCycles (die : Fin 4) (pa : Nat) : Nat :=
  if isDevice pa = false then 1600 else if pa / 256 % 128 / 32 = die.val then 200 else 260

/-- When an access that takes `lat` cycles is performed: in its time, and after the hart's outstanding accesses to the same bytes
(R61). -/
def Follows (s : State) (a : MemAcc) (lat due : Nat) : Prop :=
  s.cycle + lat ≤ due ∧ (∀ o ∈ (me s).out, opTouches o a = true → o.due ≤ due) ∧
    ((∀ o ∈ (me s).out, opTouches o a = false) → due = s.cycle + lat)

/-- An access of `n` bytes that the executing hart sends now: to the home at tile `t`, or, with none, to a physical address, with its
instruction and the table lines behind its translation (R94, R125, R334). -/
def accNow (s : State) (t : Option Nat) (addr n : Nat) (ea : Word) (lines : List Nat) : MemAcc :=
  { tile := t, addr := addr, size := n, ea := ea, pc := (me s).pc, sent := s.cycle, escape := false, lines := lines }

/-- The mesh address `ea` (R12): its offset, its x and its y; anything above them makes it none. -/
def meshPlace (ea : Word) (t off : Nat) : Prop :=
  ea.toNat = t % 72 * 2 ^ 17 + t / 72 * 2 ^ 25 + off ∧ off < 2 ^ 17 ∧ t / 72 ≤ 63

/-- Operation `i` of hart `h` is an access that is due: it writes `wbs` and performs `fx`, and its hart does not wait in a fence. -/
structure AccessDue (s : State) (h : HartId) (i : Nat) (wbs : List WriteBack) (fx : OpFx) : Prop where
  ev : s.ev = .op h i
  op : ∃ left due, due ≤ s.cycle ∧
    (getHart s h).out[i]? = some { opAt (getHart s h) 0 due wbs 0 false fx with left := left }
  going : ∀ n, (getHart s h).status ≠ .parked (.fence n)
  quiet : s.noise = []

/-- The hart after a load has been performed: its destination holds what was delivered, and the operation is no longer outstanding
(R60, R93). -/
def loadedHart (w : Width) (d : GReg) (i v : Nat) (h : Hart) : Hart :=
  { (backOf w d).foldl (fun h b => putHartReg h b.reg (loaded w v)) h with out := h.out.eraseIdx i }

end Sys2Proof.Claims

/-- R93, R95: a load of a tile's store delivers the bytes at its address, extended as its width says, 6 cycles later, and changes
nothing but its hart; a store puts its register's bytes at its address, and no other byte of any memory changes. An error that the
access meets has been dealt with before (R296). That the store is read or written as the access issues is the model's choice (log 2). -/
def Obligations.StoreAccesses : Prop :=
  (∀ (la : La) (imm : Imm8) (w : Width) (a d : GReg) (c : EReg) (off : Nib), ∀ r ∈ loadRows la imm w a d c off,
    ∀ (s : State) (t : Nat), Reaches r s t [gId r.base] [dataId r.width r.data] →
      let ea := (r.ea (me s)).toNat
      let s1 := meetFlaws (readFilled s [gId r.base]) t r.store ea (accessSize r.width)
      storePoison (getTile s1 t) r.store ea (accessSize r.width) = false →
        exec r.instr s = .next (issued s1 r.len r.la 6
          (loadBack r.width r.data (memRead (storeMem (getTile s t) r.store) ea (accessSize r.width))) 0 false)) ∧
  (∀ (la : La) (imm : Imm8) (w : Width) (a d : GReg) (c : EReg) (off : Nib), ∀ r ∈ storeRows la imm w a d c off,
    ∀ (s : State) (t : Nat), Reaches r s t [gId r.base, dataId r.width r.data] [] →
      let s1 := readFilled s [gId r.base, dataId r.width r.data]
      let ea := (r.ea (me s)).toNat
      ∃ s', exec r.instr s = .next s' ∧
        memRead (storeMem (getTile s' t) r.store) ea (accessSize r.width) = stored r.width r.data (me s) % 256 ^ accessSize r.width ∧
        OnlyStoreBytes s s' t r.store ea (accessSize r.width) ∧
        getHart s' s.cur = issuedHart s r.len r.la 6 [] 0 false (me s1) ∧
        ∀ k : HartId, k ≠ s.cur → getHart s' k = getHart s k)

/-- R88: an access to a store that is not aligned to its size, or lies outside it, traps with the cause of its space, tval the
address; nothing is loaded or stored. -/
def Obligations.StoreAccessTraps : Prop :=
  ∀ (la : La) (imm : Imm8) (w : Width) (a d : GReg) (c : EReg) (off : Nib) (s : State),
    (me s).out.length < 4 →
    (∀ r ∈ loadRows la imm w a d c off, Issues s r.ok [gId r.base] [dataId r.width r.data] →
      let ea := r.ea (me s)
      (ea.toNat % accessSize r.width ≠ 0 →
        exec r.instr s = .next (trapOn (readFilled s [gId r.base]) s.cur (storeCause r.store) ea)) ∧
      (ea.toNat % accessSize r.width = 0 → r.store.size ≤ ea.toNat →
        exec r.instr s = .next (trapOn (readFilled s [gId r.base]) s.cur (storeCause r.store + 1) ea))) ∧
    (∀ r ∈ storeRows la imm w a d c off, Issues s r.ok [gId r.base, dataId r.width r.data] [] →
      let ea := r.ea (me s)
      let s1 := readFilled s [gId r.base, dataId r.width r.data]
      (ea.toNat % accessSize r.width ≠ 0 → exec r.instr s = .next (trapOn s1 s.cur (storeCause r.store) ea)) ∧
      (ea.toNat % accessSize r.width = 0 → r.store.size ≤ ea.toNat →
        exec r.instr s = .next (trapOn s1 s.cur (storeCause r.store + 1) ea)))

/-- R12, R61, R93, R95: a mesh address names the L-store of the tile of its coordinates. LDM and STM set out to it, with the latency of
the way there, after the hart's earlier accesses to the same bytes; when LDM is performed, behind what its pair of tiles sent before it, it delivers the
bytes that are there then, and STM puts its own there, with no other byte of any memory changed. That an access is performed when its latency has passed is the model's
choice (log 2, log 3). -/
def Obligations.MeshAccesses : Prop :=
  (∀ (s : State) (c t off u o : Nat) (ea : Word), meshPlace ea t off → meshTarget s c ea = .ok u o → u = t ∧ o = off) ∧
  (∀ (la : La) (imm : Imm8) (w : Width) (a d : GReg) (s : State) (u t off : Nat), tileOf? s.cur = some u →
    let ea := eaOf a imm w (me s)
    let acc := accNow s (some t) off (accessSize w) ea []
    (me s).out.length < 4 → ea.toNat % accessSize w = 0 → meshTarget s (hartCtx s s.cur) ea = .ok t off → (t = u ∨ lSleeps s t = false) →
    (Issues s threadOnly [gId a] [dataId w d] →
      ∃ due, Follows s acc (meshCycles u t) due ∧ exec (.ldm la imm w a d) s =
        .next (modHart (readFilled s [gId a]) s.cur (hartIssued s 4 (opAt (me s) la.val due (backOf w d) 0 false (.load acc w))))) ∧
    (Issues s threadOnly [gId a, dataId w d] [] →
      ∃ due, Follows s acc (meshCycles u t) due ∧ exec (.stm la imm w a d) s =
        .next (modHart (readFilled s [gId a, dataId w d]) s.cur
          (hartIssued s 4 (opAt (me s) la.val due [] 0 false (.store acc (stored w d (me s)))))))) ∧
  ∀ (s : State) (h : HartId) (i t off v sent : Nat) (ea pc : Word) (esc : Bool) (w : Width) (d : GReg),
    switchedOut s (hartCtx s h) t = false → (∀ u, tileOf? h = some u → pairNext s u t sent = true) →
    let acc : MemAcc := ⟨some t, off, accessSize w, ea, pc, sent, esc, []⟩
    (AccessDue s h i (backOf w d) (.load acc w) → (getTile s t).flaws = [] →
      storePoison (getTile s t) .l off (accessSize w) = false →
        exec .longOpComplete s = .next (modHart s h (loadedHart w d i (memRead (getTile s t).l off (accessSize w))))) ∧
    (AccessDue s h i [] (.store acc v) →
      ∃ s', exec .longOpComplete s = .next s' ∧ memRead (getTile s' t).l off (accessSize w) = v % 256 ^ accessSize w ∧
        OnlyStoreBytes s s' t .l off (accessSize w) ∧
        getHart s' h = { getHart s h with out := (getHart s h).out.eraseIdx i } ∧ ∀ k : HartId, k ≠ h → getHart s' k = getHart s k)

/-- R61, R91, R93, R95: LDG and STG, whose translation gives a physical address, set out to its home. When LDG is performed it delivers the
bytes of its line as the tile's read cache holds it, or else as they are at the home; STG puts its bytes there, and no other byte of
physical memory changes. That an access is performed when its latency has passed is the model's choice (log 2, log 3). -/
def Obligations.GlobalAccesses : Prop :=
  (∀ (la : La) (imm : Imm8) (w : Width) (a d : GReg) (s s2 : State) (pa : Nat),
    let ea := eaOf a imm w (me s)
    let acc := accNow s none pa (accessSize w) ea (tableLines s2 s.cur ea.toNat)
    (me s).out.length < 4 → ea.toNat % accessSize w = 0 →
    (Issues s threadOrMender [gId a] [dataId w d] → xlateHart (readFilled s [gId a]) s.cur ea.toNat .read = (s2, .ok pa) →
      ∃ due, Follows s acc (if lineCached s2 s.cur pa then 8 else homeCycles (hartDie s.cur) pa) due ∧ exec (.ldg la imm w a d) s =
        .next (modHart s2 s.cur (hartIssued s 4 (opAt (me s) la.val due (backOf w d) 0 false (.load acc w))))) ∧
    (Issues s threadOrMender [gId a, dataId w d] [] →
      xlateHart (readFilled s [gId a, dataId w d]) s.cur ea.toNat .write = (s2, .ok pa) →
      ∃ due, Follows s acc (homeCycles (hartDie s.cur) pa) due ∧ exec (.stg la imm w a d) s =
        .next (modHart s2 s.cur (hartIssued s 4 (opAt (me s) la.val due [] 0 false (.store acc (stored w d (me s)))))))) ∧
  ∀ (s : State) (h : HartId) (i pa v sent : Nat) (ea pc : Word) (esc : Bool) (lines : List Nat) (w : Width) (d : GReg),
    pa / 64 = (pa + accessSize w - 1) / 64 →
    let acc : MemAcc := ⟨none, pa, accessSize w, ea, pc, sent, esc, lines⟩
    (AccessDue s h i (backOf w d) (.load acc w) →
      (∀ (t : Nat) (k : Fin 10) (x : BitVec 512), h = .tile t k → alGet (getTile s t).gcache (pa / 64) = some x →
        (getTile s t).flaws = [] → cachedBad (getTile s t) 2 pa (accessSize w) = false →
        ∃ s', exec .longOpComplete s = .next s' ∧ s'.mem = s.mem ∧
          getHart s' h = loadedHart w d i (x.toNat / 256 ^ (pa % 64) % 256 ^ accessSize w) (getHart s h)) ∧
      (lineCached s h pa = false → physPoison s pa (accessSize w) = false → Memory.wf s.mem = true →
        ∃ s', exec .longOpComplete s = .next s' ∧ s'.mem = s.mem ∧
          getHart s' h = loadedHart w d i (memRead s.mem pa (accessSize w)) (getHart s h))) ∧
    (AccessDue s h i [] (.store acc v) →
      ∃ s', exec .longOpComplete s = .next s' ∧ memRead s'.mem pa (accessSize w) = v % 256 ^ accessSize w ∧
        (∀ b, b < pa ∨ pa + accessSize w ≤ b → memRead s'.mem b 1 = memRead s.mem b 1) ∧
        (getHart s' h).out = (getHart s h).out.eraseIdx i ∧ ∀ k : HartId, (getHart s' k).g = (getHart s k).g)


namespace Sys2Proof.Claims

open Sys2Proof.Machine

/-! ## Full/empty words and atomics (R96 to R108) -/

/-- The home of an access of `n` bytes to L or M: a tile and an offset in its L-store (R12, R88). -/
def homeAt (s : State) (sp : AmoSpace) (ea : Word) (n t off : Nat) : Prop :=
  ea.toNat % n = 0 ∧
    match sp with
    | .l => tileOf? s.cur = some t ∧ ea.toNat < 0x2_0000 ∧ off = ea.toNat
    | .m => meshTarget s (hartCtx s s.cur) ea = .ok t off
    | .g => False

/-- None of the hart's outstanding operations touches these bytes (R61). -/
def Alone (s : State) (t : Option Nat) (addr n : Nat) (ea : Word) : Prop :=
  ∀ o ∈ (me s).out, opTouches o (hereAcc t addr n ea) = false

/-- An access that is served as it arrives reaches its home in tile `t` now: one through the mesh is not behind an earlier one to its
bytes or behind what its pair of tiles has sent before, its tile is awake, and nothing befalls it on the way (R61, R64, R298, R334). -/
def Arrives (s : State) (sp : AmoSpace) (ea : Word) (n t off : Nat) : Prop :=
  homeAt s sp ea n t off ∧
    (sp = .m → Alone s (some t) off n ea ∧ pairFlights s (myTile s) t = [] ∧ (tileOf? s.cur = some t ∨ lSleeps s t = false) ∧ s.noise = [])

/-- The same for an access to physical memory. -/
def ArrivesG (s : State) (ea : Word) (n pa : Nat) : Prop := Alone s none pa n ea ∧ s.noise = []

/-- The G read cache of the hart's tile is empty: an acquire has been made (R91). -/
def Acquired (s : State) (h : HartId) : Prop := ∀ (t : Nat) (i : Fin 10), h = .tile t i → (getTile s t).gcache = []

/-- The size of a full/empty access, and the conditional loads and stores of L and M: instruction, space, and whether the load
empties its word (R97). -/
def feBytes (z : FeSize) : Nat := if z = .word then 4 else 8
def feLoads (imm : Imm8) (z : FeSize) (a d : GReg) : List (Instr × AmoSpace × Bool) :=
  [ (.ldflC imm z a d, .l, true), (.ldflP imm z a d, .l, false), (.ldfmC imm z a d, .m, true), (.ldfmP imm z a d, .m, false) ]
def feFills (imm : Imm8) (z : FeSize) (a d : GReg) : List (Instr × AmoSpace) := [ (.stflF imm z a d, .l), (.stfmF imm z a d, .m) ]

/-- The unconditional stores of L and M, and whether they write their word or empty it. -/
def feSets (imm : Imm8) (z : FeSize) (a d : GReg) : List (Instr × AmoSpace × Bool × Nat) :=
  [ (.stflX imm z a d, .l, true, feBytes z), (.stflE imm a, .l, false, 4), (.stfmX imm z a d, .m, true, feBytes z),
    (.stfmE imm a, .m, false, 4) ]

/-- Word `k` of tile `t` is full. -/
def wordFull (s : State) (t k : Nat) : Prop := k ∉ (getTile s t).lEmpty

/-- The full/empty bits of tile `t` differ between `s` and `s'` at most in the words of `n` bytes at `off`, which are `full`; those of
every other tile and of G do not differ. -/
def OnlyWordBits (s s' : State) (t off n : Nat) (full : Bool) : Prop :=
  s'.gEmpty = s.gEmpty ∧ (∀ u, u ≠ t → (getTile s' u).lEmpty = (getTile s u).lEmpty) ∧
  ∀ k, (off / 4 ≤ k ∧ k < off / 4 + n / 4 → (wordFull s' t k ↔ full = true)) ∧
    (¬ (off / 4 ≤ k ∧ k < off / 4 + n / 4) → (wordFull s' t k ↔ wordFull s t k))

/-- The value of a conditional load: a word is sign-extended (R97). -/
def feWord (n v : Nat) : Word := if n = 4 then i64 (BitVec.ofNat 32 v).toInt else w64 v

/-- The address of a full/empty access. -/
def feEa (h : Hart) (a : GReg) (imm : Imm8) (n : Nat) : Word := i64 ((rg h a).toInt + imm.toInt * n)

/-- The atomics: instruction, size, further sources beside the address, whether d is written, the new bytes from the registers and
the old bytes, and the value of d (R104, R107). -/
structure AmoRow where
  instr : Instr
  size : Nat
  srcs : List GReg
  dst : Option GReg
  new : (GReg → Word) → Nat → Nat
  ret : Nat → Word
  flags : (GReg → Word) → Nat → BitVec 5

def amoRows (sp : AmoSpace) (o : AmoOrder) (sc : Scope) (d b a : GReg) : List AmoRow :=
  let w (i : Instr) (f : Nat → Nat → Nat) : AmoRow :=
    ⟨i, 4, [b], some d, fun g x => f x ((g b).toNat % 2 ^ 32), fun x => i64 (BitVec.ofNat 32 x).toInt, fun _ _ => 0⟩
  let q (i : Instr) (f : Word → Word → Word) : AmoRow := ⟨i, 8, [b], some d, fun g x => (f (w64 x) (g b)).toNat, w64, fun _ _ => 0⟩
  let fp (i : Instr) (f : Nat → Nat → Nat × BitVec 5) : AmoRow :=
    ⟨i, 4, [b], some d, fun g x => (f x ((g b).toNat % 2 ^ 32)).1, w64, fun g x => (f x ((g b).toNat % 2 ^ 32)).2⟩
  [ w (.amoAddW sp o sc d b a) fun x y => (x + y) % 2 ^ 32,
    q (.amoAddD sp o sc d b a) fun x y => w64 (x.toNat + y.toNat),
    q (.amoAndD sp o sc d b a) fun x y => x &&& y,
    q (.amoOrD sp o sc d b a) fun x y => x ||| y,
    q (.amoXorD sp o sc d b a) fun x y => x ^^^ y,
    q (.amoMinD sp o sc d b a) fun x y => i64 (min x.toInt y.toInt),
    q (.amoMaxD sp o sc d b a) fun x y => i64 (max x.toInt y.toInt),
    q (.amoMinnD sp o sc d b a) fun x y => w64 (min x.toNat y.toNat),
    q (.amoMaxnD sp o sc d b a) fun x y => w64 (max x.toNat y.toNat),
    w (.amoSwapW sp o sc d b a) fun _ y => y,
    q (.amoSwapD sp o sc d b a) fun _ y => y,
    ⟨.amoCasW sp o sc d b a, 4, [b, d], some d,
      fun g x => if x = (g d).toNat % 2 ^ 32 then (g b).toNat % 2 ^ 32 else x, fun x => i64 (BitVec.ofNat 32 x).toInt, fun _ _ => 0⟩,
    ⟨.amoCasD sp o sc d b a, 8, [b, d], some d, fun g x => if x = (g d).toNat then (g b).toNat else x, w64, fun _ _ => 0⟩,
    fp (.amoFaddU sp o sc d b a) add32,
    fp (.amoFmax sp o sc d b a) fun x y => (max32 x y, 0),
    fp (.amoFmin sp o sc d b a) fun x y => (min32 x y, 0),
    ⟨.amoEsadd sp o sc b a, 64, [b], none, fun g x => cellAdd x ((g b).toNat % 2 ^ 32), fun _ => 0, fun _ _ => 0⟩,
    ⟨.amoEsrd sp o sc d a, 64, [], some d, fun _ x => x, fun x => w64 (cellRead x).1, fun _ x => (cellRead x).2⟩,
    ⟨.amoEsclr sp o sc a, 64, [], none, fun _ x => cellPut x 0 0 0, fun _ => 0, fun _ _ => 0⟩ ]

/-- The hart may make the atomic: its set, its sources full, no hazard, and nothing outstanding where the order puts a fence before it
(R48, R57, R60, R108). -/
structure AmoIssues (r : AmoRow) (s : State) (sp : AmoSpace) (o : AmoOrder) (a : GReg) : Prop where
  issues : Issues s (if sp = .g then threadOrMender else threadOnly) (gId a :: r.srcs.map gId) (r.dst.toList.map gId)
  fence : o = .rel ∨ o = .ar → (me s).out = []

/-- The hart after an atomic: d holds the old value and the flags are ORed; the hart is behind it, or, where an acquire follows and
something is outstanding, waits in the fence after it (R108, R109). -/
def amoHart (r : AmoRow) (s : State) (o : AmoOrder) (h : Hart) (old : Nat) : Hart :=
  let x := match r.dst with
    | some d => wg h d (r.ret old)
    | none => h
  let y := { x with fflags := h.fflags ||| r.flags (rg h) old }
  if (o = .acq ∨ o = .ar) ∧ h.out ≠ [] then { y with status := .parked (.fence (h.pc + 4)), why := none, since := s.cycle }
  else { y with pc := h.pc + 4, status := if stepped s.cur h then .parked (.trap 0x07 h.pc) else .ready, out := spendShadow h.out,
                refused := none, why := none }

end Sys2Proof.Claims

/-- R97, R98: a conditional load whose words are all full delivers them, empties them (.c) or leaves them full (.p), and is an
acquire; one whose words are not waits at its home, which holds 64 requests. -/
def Obligations.FullEmptyLoads : Prop :=
  ∀ (imm : Imm8) (z : FeSize) (a d : GReg), ∀ r ∈ feLoads imm z a d, ∀ (s : State) (t off : Nat),
    Issues s threadOnly [gId a] [gId d] →
      let n := feBytes z
      let ea := feEa (me s) a imm n
      let s1 := readFilled s [gId a]
      Arrives s r.2.1 ea n t off →
      ((∀ k, off / 4 ≤ k → k < off / 4 + n / 4 → wordFull s t k) → (getTile s t).fe = [] → (getTile s t).flaws = [] →
        storePoison (getTile s t) .l off n = false →
          ∃ s', exec r.1 s = .next s' ∧
            getHart s' s.cur = getHart (complete (modHart s1 s.cur fun h => wg h d (feWord n (memRead (getTile s t).l off n)))
              s.cur ((me s).pc + 4)) s.cur ∧ Acquired s' s.cur ∧
            (∀ u x b, storeByte s' u x b = storeByte s u x b) ∧ s'.mem = s.mem ∧
            (if r.2.2 then OnlyWordBits s s' t off n false else s'.gEmpty = s.gEmpty ∧ ∀ u k, wordFull s' u k ↔ wordFull s u k)) ∧
      (¬ (∀ k, off / 4 ≤ k → k < off / 4 + n / 4 → wordFull s t k) →
        let q : FeReq := ⟨s.cur, if r.2.2 then .consume else .peek, off, n, d, rg (me s) d, (me s).pc + 4, ea, r.2.1, false, s.reads⟩
        ((getTile s t).fe.length < 64 →
          exec r.1 s = .next (parkHart (setTile s1 t { getTile s1 t with fe := (getTile s t).fe ++ [q] }) s.cur
            (.word r.2.1 ea.toNat))) ∧
        (64 ≤ (getTile s t).fe.length → exec r.1 s = .next (parkHart s1 s.cur (.wordRetry r.2.1 ea.toNat (s.cycle + 64)))))

/-- R97, R98: STFL.f and STFM.f, whose words are all empty, write them and set them full, and wait at their home where one is not; the
unconditional .x writes its words and sets them full, and .e empties its word; no other byte or bit changes. -/
def Obligations.FullEmptyStores : Prop :=
  (∀ (imm : Imm8) (z : FeSize) (a d : GReg), ∀ r ∈ feFills imm z a d, ∀ (s : State) (t off : Nat),
    Issues s threadOnly [gId a, gId d] [] → (me s).out.any isStoreOp = false →
      let n := feBytes z
      let ea := feEa (me s) a imm n
      let s1 := readFilled s [gId a, gId d]
      Arrives s r.2 ea n t off →
      ((∀ k, off / 4 ≤ k → k < off / 4 + n / 4 → ¬ wordFull s t k) → (getTile s t).fe = [] →
        ∃ s', exec r.1 s = .next s' ∧ memRead (getTile s' t).l off n = (rg (me s) d).toNat % 256 ^ n ∧
          OnlyStoreBytes s s' t .l off n ∧ OnlyWordBits s s' t off n true ∧
          getHart s' s.cur = getHart (complete s1 s.cur ((me s).pc + 4)) s.cur) ∧
      (¬ (∀ k, off / 4 ≤ k → k < off / 4 + n / 4 → ¬ wordFull s t k) → (getTile s t).fe.length < 64 →
        let q : FeReq := ⟨s.cur, .fill, off, n, d, rg (me s) d, (me s).pc + 4, ea, r.2, false, s.reads⟩
        exec r.1 s = .next (parkHart (setTile s1 t { getTile s1 t with fe := (getTile s t).fe ++ [q] }) s.cur (.word r.2 ea.toNat)))) ∧
  ∀ (imm : Imm8) (z : FeSize) (a d : GReg), ∀ r ∈ feSets imm z a d, ∀ (s : State) (t off : Nat),
    let srcs := if r.2.2.1 then [gId a, gId d] else [gId a]
    Issues s threadOnly srcs [] → (r.2.2.1 = true → (me s).out.any isStoreOp = false) →
      let n := r.2.2.2
      let s1 := readFilled s srcs
      Arrives s r.2.1 (feEa (me s) a imm n) n t off → (getTile s t).fe = [] →
        ∃ s', exec r.1 s = .next s' ∧
          (if r.2.2.1 then memRead (getTile s' t).l off n = (rg (me s) d).toNat % 256 ^ n ∧ OnlyStoreBytes s s' t .l off n
            else s'.mem = s.mem ∧ ∀ u x b, storeByte s' u x b = storeByte s u x b) ∧
          OnlyWordBits s s' t off n r.2.2.1 ∧ getHart s' s.cur = getHart (complete s1 s.cur ((me s).pc + 4)) s.cur

/-- R97, R98: the full/empty instructions of G on a doubleword of device memory, with no request waiting: .c and .p load a full one and
are acquires, .f fills an empty one, .x and .e act in any case; .c, .p and .f wait at the slice where their doubleword is not so. No
other full/empty bit changes. -/
def Obligations.FullEmptyGlobal : Prop :=
  ∀ (imm : Imm8) (a d : GReg) (s s2 : State) (pa : Nat),
    let ea := feEa (me s) a imm 8
    ea.toNat % 8 = 0 → isDevice pa = true → pa % 8 = 0 → s2.gfe = [] → ArrivesG s ea 8 pa →
    let q (op : FeOp) : FeReq := ⟨s.cur, op, pa, 8, d, rg (me s) d, (me s).pc + 4, ea, .g, false, s2.reads⟩
    let waits (op : FeOp) (s' : State) : Prop :=
      s'.gfe = [q op] ∧ s'.mem = s2.mem ∧ s'.gEmpty = s2.gEmpty ∧ (getHart s' s.cur).status = .parked (.word .g ea.toNat) ∧
        (getHart s' s.cur).pc = (me s).pc
    (∀ r ∈ [(Instr.ldfgC imm a d, Need.readWrite, true), (.ldfgP imm a d, .read, false)],
      Issues s threadOrMender [gId a] [gId d] → xlateHart (readFilled s [gId a]) s.cur ea.toNat r.2.1 = (s2, .ok pa) →
      (s2.gEmpty.contains (pa / 8) = true → ∃ s', exec r.1 s = .next s' ∧ waits (if r.2.2 then .consume else .peek) s') ∧
      (s2.gEmpty.contains (pa / 8) = false → s2.gLatent = [] → physPoison s2 pa 8 = false →
        ∃ s', exec r.1 s = .next s' ∧ s'.mem = s2.mem ∧ Acquired s' s.cur ∧
          rg (getHart s' s.cur) d = (if d = 0 then 0 else w64 (memRead s2.mem pa 8)) ∧
          (∀ c, c ≠ d → rg (getHart s' s.cur) c = rg (me s) c) ∧ (∀ u, (getTile s' u).lEmpty = (getTile s2 u).lEmpty) ∧
          s'.gEmpty = (if r.2.2 then insNat s2.gEmpty (pa / 8) else s2.gEmpty) ∧ (getHart s' s.cur).pc = (me s).pc + 4)) ∧
    (∀ r ∈ [(Instr.stfgF imm a d, some true), (.stfgX imm a d, some false), (.stfgE imm a, none)],
      let srcs := if r.2.isSome then [gId a, gId d] else [gId a]
      Issues s threadOrMender srcs [] → (r.2.isSome = true → (me s).out.any isStoreOp = false) →
      xlateHart (readFilled s srcs) s.cur ea.toNat .write = (s2, .ok pa) →
      (r.2 = some true → s2.gEmpty.contains (pa / 8) = false → ∃ s', exec r.1 s = .next s' ∧ waits .fill s') ∧
      ((r.2 = some true → s2.gEmpty.contains (pa / 8) = true) →
        ∃ s', exec r.1 s = .next s' ∧
          (if r.2.isSome then memRead s'.mem pa 8 = (rg (me s) d).toNat ∧
              ∀ b, b < pa ∨ pa + 8 ≤ b → memRead s'.mem b 1 = memRead s2.mem b 1
            else s'.mem = s2.mem) ∧
          s'.gEmpty = (if r.2.isSome then delNat s2.gEmpty (pa / 8) else insNat s2.gEmpty (pa / 8)) ∧
          (∀ u, (getTile s' u).lEmpty = (getTile s2 u).lEmpty) ∧
          (getHart s' s.cur).g = (me s).g ∧ (getHart s' s.cur).pc = (me s).pc + 4))

/-- R103 to R108: an atomic of L or M replaces the bytes at its address by their new value and delivers the old one; no other byte of
any memory changes. An atomic of G does the same at its home, on the address that the translation gives. One with acquire order empties
the tile's read cache, and waits then for what its hart has outstanding. That it is performed in the step that issues it is the model's
choice (log 3). -/
def Obligations.Atomics : Prop :=
  (∀ (sp : AmoSpace) (o : AmoOrder) (sc : Scope) (d b a : GReg), ∀ r ∈ amoRows sp o sc d b a, ∀ (s : State) (t off : Nat),
    AmoIssues r s sp o a →
      let s1 := readFilled s (gId a :: r.srcs.map gId)
      Arrives s sp (rg (me s) a) r.size t off → (getTile s t).flaws = [] → storePoison (getTile s t) .l off r.size = false →
        let old := memRead (getTile s t).l off r.size
        ∃ s', exec r.instr s = .next s' ∧
          memRead (getTile s' t).l off r.size = r.new (rg (me s)) old % 256 ^ r.size ∧ OnlyStoreBytes s s' t .l off r.size ∧
          getHart s' s.cur = amoHart r s o (me s1) old ∧ ((o = .acq ∨ o = .ar) → (me s).out = [] → Acquired s' s.cur)) ∧
  (∀ (o : AmoOrder) (sc : Scope) (d b a : GReg), ∀ r ∈ amoRows .g o sc d b a, ∀ (s s2 : State) (pa : Nat),
    AmoIssues r s .g o a → (rg (me s) a).toNat % r.size = 0 → ArrivesG s (rg (me s) a) r.size pa →
    xlateHart (readFilled s (gId a :: r.srcs.map gId)) s.cur (rg (me s) a).toNat .readWrite = (s2, .ok pa) →
    physPoison s2 pa r.size = false →
      let old := memRead s2.mem pa r.size
      ∃ s', exec r.instr s = .next s' ∧ memRead s'.mem pa r.size = r.new (rg (me s)) old % 256 ^ r.size ∧
        (∀ c, c < pa ∨ pa + r.size ≤ c → memRead s'.mem c 1 = memRead s2.mem c 1) ∧
        getHart s' s.cur = amoHart r s o (me (readFilled s (gId a :: r.srcs.map gId))) old ∧
        ((o = .acq ∨ o = .ar) → (me s).out = [] → Acquired s' s.cur))


namespace Sys2Proof.Claims

open Sys2Proof.Machine

/-! ## Threads, messages, steps, engines (R78 to R85, R130 to R150, R172 to R190, R247 to R252) -/

/-- After a short instruction that changes its hart's tile by `f` and then its hart by `g`. -/
def finishedTile (s : State) (srcs : List RegId) (len : Nat) (t : Nat) (f : Tile → Tile) (g : Hart → Hart) : State :=
  let s1 := readFilled s srcs
  complete (modHart (setTile s1 t (f (getTile s1 t))) s.cur g) s.cur ((me s).pc + w64 len)

/-- The slot whose instruction issued in a turn, on tile `t`, or took effect after it had held its slot (R54). -/
def hasIssued (x : Turn) (t : Nat) (j : Fin 10) : Prop := x = .hart (.tile t j) ∨ ∃ w, x = .held (.tile t j) w

/-- Which tiles take part in a barrier of tile `t` (R10, R146): itself, its quad, or the tiles of its group in its cluster. -/
def barMember (s : State) (k : BarKind) (t u : Nat) : Prop :=
  let block (n : Nat) : Prop := u < 72 * 64 ∧ u % 72 / n = t % 72 / n ∧ u / 72 / n = t / 72 / n
  match k with
  | .tbar => u = t
  | .qbar => block 2
  | .clbar => block 4 ∧ (getTile s u).grp = (getTile s t).grp

/-- Slot `i` of a tile is enrolled and not *free*, and stands in the record of the open generation (R130, R146). -/
def barEnrolled (x : Tile) (i : Fin 10) : Prop := i.val < 7 ∧ x.stepmask.getLsbD i.val = true ∧ (x.harts.get i).status ≠ .free
def barRecords (k : BarKind) (x : Tile) (i : Fin 10) : Prop := (x.barArr.get (barIdx k)).getLsbD i.val = true

/-- The open generation of a barrier completes (R146, R147): every participant has arrived, an *idle* one at all but TBAR, and some slot
has recorded an arrival. -/
def barDone (s : State) (k : BarKind) (t : Nat) : Prop :=
  (∀ u ∈ barTiles s k t, ((getTile s u).idle = true ∧ k ≠ .tbar) ∨ ∀ i, barEnrolled (getTile s u) i → barRecords k (getTile s u) i) ∧
    ∃ u ∈ barTiles s k t, ∃ i, (∃ d next, ((getTile s u).harts.get i).status = .parked (.bar k d next)) ∨
      (barEnrolled (getTile s u) i ∧ barRecords k (getTile s u) i)

/-- The thread of slot `i` of tile `t` is the one that executes. -/
def Here (s : State) (t : Nat) (i : Fin 10) : Prop := s.cur = .tile t i ∧ i.val < 8

/-- CLRE: the forms, with length and register. -/
def clreRows (c : ClreClass) (i : GReg) : List (Instr × Nat × RegId) :=
  let cls : RegClass := match c with
    | .g => .g
    | .e => .e
    | .v => .v
  [ (.clre c i, 4, ⟨cls, i.val⟩), (.cClre i, 2, gId i) ]

/-- A thread that SPAWN or a dispatch starts: every register full and zero but g8 to g11, k0 all ones, wlim 0x1000 (R55). -/
def NewThread (h : Hart) (pc path : Word) (sup : Bool) (args : Vector Word 4) : Prop :=
  h.status = .ready ∧ h.pc = pc ∧ h.path = path ∧ h.sup = sup ∧
    (∀ r : GReg, rg h r = if r = 8 then args.get 0 else if r = 9 then args.get 1 else if r = 10 then args.get 2
      else if r = 11 then args.get 3 else 0) ∧
    h.gF = 0xFFFF_FFFF ∧ h.eF = 0xFF ∧ h.vF = 0xFFFF ∧ h.kF = 0xF ∧ (∀ r, re h r = 0) ∧ (∀ r, rv h r = 0) ∧
    (∀ r, rk h r = if r = 0 then 0xFFFF else 0) ∧ h.fflags = 0 ∧ h.frm = 0 ∧ h.pre = false ∧ h.tvec = 0 ∧ h.ss = false ∧
    h.inh = false ∧ h.wlim = 0x1000 ∧ h.out = []

/-- The path of a child: one level deeper, with the index in its place (R247). -/
def pathOf (p : Word) (idx : Nat) : Word :=
  w64 (p.toNat + 2 ^ 16 + idx % 256 * 2 ^ (24 + 8 * (p.toNat / 2 ^ 16 % 8)))

/-- The tile that SPAWN names, and the one that SPAWN.h computes from the child's path (R249). -/
def spawnTarget (hashed : Bool) (gid cp : Word) (w : Nat) : Nat :=
  let f (lo : Nat) : Nat := gid.toNat / 2 ^ lo % 256
  let n := f 16 * f 24
  let i := cp.toNat * 0x9E37_79B9_7F4A_7C15 % 2 ^ 64 / 2 ^ 32 * n / 2 ^ 32
  if hashed then (f 8 + i / f 16) * 72 + (f 0 + i % f 16) else w / 256 % 256 * 72 + w % 256

/-- The checks of SPAWN pass (R249). -/
def spawnOk (hashed : Bool) (gid : Word) (h : Hart) (w : Nat) (p : Word) : Prop :=
  let f (lo : Nat) : Nat := gid.toNat / 2 ^ lo % 256
  w < 2 ^ 24 ∧ (hashed = true → w % 2 ^ 16 = 0) ∧ p.toNat % 2 = 0 ∧ h.path.toNat / 2 ^ 16 % 8 ≠ 5 ∧
    (hashed = false → f 0 ≤ w % 256 ∧ w % 256 < f 0 + f 16 ∧ f 8 ≤ w / 256 % 256 ∧ w / 256 % 256 < f 8 + f 24)

/-- A sequencer that the hart `h` has started at `pc` (R55, R172): e0 to e7, frm and g8 to g11 are copies of the hart's. -/
def SequencerOf (h q : Hart) (pc : Word) : Prop :=
  q.status = .ready ∧ q.pc = pc ∧ q.e = h.e ∧ q.frm = h.frm ∧
    ∀ r : GReg, rg q r = if 8 ≤ r.val ∧ r.val ≤ 11 then rg h r else 0

/-- The designation of a target register (R83): a g- or e-register of a thread inside the mesh. -/
def putrTarget (v : Nat) : Option (RegId × Nat × Fin 10) :=
  let x := v % 256
  let y := v / 256 % 256
  let cls := v / 2 ^ 20 % 4
  let i := v / 2 ^ 24 % 32
  if v < 2 ^ 29 ∧ v / 2 ^ 19 % 2 = 0 ∧ v / 2 ^ 22 % 4 = 0 ∧ x ≤ 71 ∧ y ≤ 63 ∧ ((cls = 0 ∧ i ≠ 0) ∨ (cls = 1 ∧ i < 8)) then
    some (⟨if cls = 0 then .g else .e, i⟩, y * 72 + x, Fin.ofNat 10 (v / 2 ^ 16 % 8))
  else none

end Sys2Proof.Claims

/-- R80, R81, R82, R85: YIELD notes the other slots that are ready or parked; each step, its own among them, keeps those of a slot's noted
slots that are ready after it and have not issued. CLRE empties its register, ISFULL tells whether one is full, TID delivers tile × 8 + slot;
each changes nothing but its hart. -/
def Obligations.ThreadRegisters : Prop :=
  (∀ (x : Turn) (s : State) (t : Nat) (i j : Fin 10), s.reports = [] →
    (j ∈ (getHart (tick x s) (.tile t i)).yield ↔
      j ∈ (getHart s (.tile t i)).yield ∧ ¬ hasIssued x t j ∧ countsReady (tick x s) (.tile t j) = true)) ∧
  ∀ (s : State) (t : Nat) (i : Fin 10), Here s t i →
    (∀ r ∈ [(Instr.yield, 4), (.cYield, 2)], exec r.1 s = .next (finished s [] r.2 fun h =>
      { h with yield := (List.finRange 10).filter fun j =>
          decide (j.val < 8 ∧ j ≠ i ∧ mayBeReady (getHart s (.tile t j)).status = true) })) ∧
    (∀ (c : ClreClass) (k : GReg), ∀ r ∈ clreRows c k, Issues s threadOnly [] [r.2.2] →
      exec r.1 s = .next (finished s [] r.2.1 fun h => emptyHartReg h r.2.2)) ∧
    (∀ (d : GReg) (c : RegClass) (k : GReg), Issues s threadOnly [] [gId d] →
      exec (.isfull d c k) s = .next (finished s [] 4 fun h => wg h d (if regFull s s.cur ⟨c, k.val⟩ then 1 else 0))) ∧
    (∀ d : GReg, Issues s threadOnly [] [gId d] →
      exec (.tid d) s = .next (finished s [] 4 fun h => wg h d (w64 (t * 8 + i.val))))

/-- R251, R252: the work list is a stack of at most 64 pairs: WLPUSH puts one on it and says so, once the stores of its hart are
acknowledged; WLPOP takes the last one and is an acquire, WLCNT counts them. -/
def Obligations.WorkLists : Prop :=
  ∀ (d a b : GReg) (s : State) (t : Nat) (i : Fin 10), Here s t i →
    let l := (getTile s t).work
    (Issues s threadOnly [gId a, gId b] [gId d] → (me s).out.any isStoreOp = false →
      (l.length < 64 → exec (.wlpush d a b) s =
        .next (finishedTile s [gId a, gId b] 4 t (fun x => { x with work := ⟨rg (me s) a, rg (me s) b, none⟩ :: l }) fun h => wg h d 1)) ∧
      (64 ≤ l.length → exec (.wlpush d a b) s = .next (finished s [gId a, gId b] 4 fun h => wg h d 0))) ∧
    (Issues s threadOnly [gId a, gId b] [gId d] → (me s).out.any isStoreOp = true →
      exec (.wlpush d a b) s = .next (parkHart (readFilled s [gId a, gId b]) s.cur (.slot .acks s.iword))) ∧
    (Issues s threadOnly [] [gId d, gId a] →
      (l = [] → exec (.wlpop d a) s = .next (finished s [] 4 fun h => wg h a 0)) ∧
      (∀ x y r, l = ⟨x, y, none⟩ :: r → exec (.wlpop d a) s =
        .next (finishedTile s [] 4 t (fun z => { z with work := r, gcache := [] }) fun h =>
          { wg (wg h d x) a 1 with wlx := y }))) ∧
    (Issues s threadOnly [] [gId d] → exec (.wlcnt d) s = .next (finished s [] 4 fun h => wg h d (w64 l.length)))

/-- R79, R247 to R250: EXIT frees its slot, and a child that runs inline returns to its parent with 0 in the parent's d; SPAWN and
SPAWN.h send the child's start to its tile and wait; the answer starts it on the lowest free slot and writes 1 to d, or runs it
inline in its parent, in which it changes only where the hart goes on and what it returns to. -/
def Obligations.SpawnAndExit : Prop :=
  (∀ i ∈ [Instr.exit, .cExit], ∀ (s : State) (t : Nat) (k : Fin 10), Here s t k → (me s).out = [] →
    ((me s).stack = [] → ∃ s', exec i s = .next s' ∧ (getHart s' s.cur).status = .free ∧
      (getHart s' s.cur).g = (me s).g ∧ s'.mem = s.mem ∧ ∀ u x b, storeByte s' u x b = storeByte s u x b) ∧
    (∀ f r, (me s).stack = f :: r →
      exec i s = .next (complete (modHart s s.cur fun h => { wg h f.d 0 with stack := r, path := f.path }) s.cur f.ret))) ∧
  (∀ (d a b : GReg), ∀ r ∈ [(Instr.spawn d a b, false), (.spawnH d a b, true)], ∀ (s : State) (t : Nat) (i : Fin 10), Here s t i →
    Issues s threadOnly [gId a, gId b] [gId d] → (me s).out.any isStoreOp = false → s.noise = [] →
      let h := me s
      let w := (rg h a).toNat
      let gid := (getTile s t).gid
      spawnOk r.2 gid h w (rg h b) →
        let cp := pathOf h.path (w / 2 ^ 16 % 256)
        let m : Msg := ⟨s.ids + 1, s.cur, (getTile s t).ctx, spawnTarget r.2 gid cp w,
          .spawn (rg h b) #v[rg h 8, rg h 9, rg h 10, rg h 11] cp h.sup d (rg h a) (h.pc + 4), s.cycle, false, false, s.reads⟩
        exec r.1 s = .next (parkHart { readFilled s [gId a, gId b] with ids := s.ids + 1, msgs := s.msgs ++ [m] } s.cur
          (.spawn (s.ids + 1)))) ∧
  (∀ (s : State) (id t c : Nat) (h : HartId) (pc path word next : Word) (args : Vector Word 4) (sup : Bool) (d : GReg)
    (since : Nat) (e : Bool) (notes : List ReadNote), s.ev = .msg id → (getHart s h).status = .parked (.spawn id) →
    s.msgs.find? (fun m => m.id == id) = some ⟨id, h, c, t, .spawn pc args path sup d word next, since, e, false, notes⟩ →
      (∀ k : Fin 10, k.val < (getTile s t).slots → (getHart s (.tile t k)).status = .free → h ≠ .tile t k →
        (∀ j : Fin 10, j < k → (getHart s (.tile t j)).status ≠ .free) →
          ∃ s', exec .spawnAnswer s = .next s' ∧ NewThread (getHart s' (.tile t k)) pc path sup args ∧
            (getHart s' h).pc = next ∧ rg (getHart s' h) d = (if d = 0 then 0 else 1)) ∧
      ((∀ k : Fin 10, k.val < (getTile s t).slots → (getHart s (.tile t k)).status ≠ .free) → (getHart s h).stack.length ≠ 15 →
        exec .spawnAnswer s = .next (complete (modHart (commitNotes { s with msgs := s.msgs.filter (·.id != id) } notes) h fun x =>
          { x with path := path, stack := ⟨next, d, x.path⟩ :: x.stack }) h pc)))

/-- R179, R181: SENDM of a thread sends its post and waits; when it arrives, a mailbox with room takes it and the thread goes on,
and a full one holds it. RECVM takes the oldest entry, RECVM.o the one with the next tag, PEEKM looks, WAITM waits. -/
def Obligations.Mailbox : Prop :=
  (∀ (d a b : GReg) (s : State) (t : Nat) (i : Fin 10), Here s t i → Issues s threadOnly [gId d, gId a, gId b] [] →
    (me s).out.any isStoreOp = false → s.noise = [] →
      let h := me s
      let w := (rg h a).toNat
      let u := w / 256 % 256 * 72 + w % 256
      w < 2 ^ 16 → w % 256 ≤ 71 → w / 256 ≤ 63 → inCtxParts s (getTile s t).ctx u = true →
      (rg h d).toNat / 256 ≠ 2 ^ 56 - 1 →
        exec (.sendm d a b) s = .next (parkHart { readFilled s [gId d, gId a, gId b] with
          ids := s.ids + 1,
          msgs := s.msgs ++ [⟨s.ids + 1, s.cur, (getTile s t).ctx, u, .post ⟨rg h d, rg h b, true, none⟩ (rg h a) (h.pc + 4), s.cycle, false, false,
            s.reads⟩] }
          s.cur (.mesh (s.ids + 1)))) ∧
  (∀ (s : State) (id t c since : Nat) (h : HartId) (p : Post) (sel next : Word) (e : Bool) (notes : List ReadNote), s.ev = .msg id →
    (getHart s h).status = .parked (.mesh id) →
    s.msgs.find? (fun m => m.id == id) = some ⟨id, h, c, t, .post p sel next, since, e, false, notes⟩ →
    tileTarget s c t 0 = .ok t 0 →
      ∃ s', exec .mailboxPostArrival s = .next s' ∧
        ((getTile s t).mbox.length < 32 → (getTile s' t).mbox = (getTile s t).mbox ++ [p] ∧ (getHart s' h).pc = next) ∧
        (32 ≤ (getTile s t).mbox.length → (getTile s' t).mbox = (getTile s t).mbox ∧
          (getTile s' t).mheld = (getTile s t).mheld ++ [⟨p, id, some h⟩] ∧ (getHart s' h).status = .parked (.post id next))) ∧
  (∀ (d a : GReg) (s : State) (t : Nat) (i : Fin 10) (p : Post) (r : List Post), Here s t i →
    Issues s threadOnly [] [gId d, gId a] → (getTile s t).mbox = p :: r → (getTile s t).mwait = [] → (getTile s t).mheld = [] →
    (∀ q ∈ p :: r, q.flaw = none) →
      let take (q : Post) (h : Hart) : Hart :=
        let h := { wg h d q.payload with mtag := q.tag }
        if a = 0 then h else wg h a q.tag
      exec (.recvm d a) s = .next (finishedTile s [] 4 t (fun x => { x with mbox := r, gcache := [] }) (take p)) ∧
      (∀ q l, takeTag (p :: r) (getTile s t).mnext = some (q, l) → exec (.recvmO d a) s =
        .next (finishedTile s [] 4 t (fun x => { x with mbox := l, mnext := x.mnext + 1, gcache := [] }) (take q))) ∧
      exec (.peekm d a) s = .next (finished s [] 4 fun h =>
        let h := wg h d (w64 (r.length + 1))
        if a = 0 then h else wg h a p.tag)) ∧
  (∀ x ∈ [(Instr.waitm, 4), (.cWaitm, 2)], ∀ (s : State) (t : Nat) (i : Fin 10), Here s t i →
    ((getTile s t).mbox ≠ [] → exec x.1 s = .next (finished s [] x.2 id)) ∧
    ((getTile s t).mbox = [] → exec x.1 s = .next (parkHart s s.cur .mail)))

/-- R83, R84: PUTR, behind what its pair of tiles has sent, puts its value into the target tile's fill buffer and is outstanding until its register has been filled; the fill
writes the register, sets it full, and ends the PUTR. -/
def Obligations.Putr : Prop :=
  (∀ (la : La) (a b : GReg) (s : State) (t : Nat) (i : Fin 10) (r : RegId) (u : Nat) (k : Fin 10), Here s t i →
    Issues s threadOnly [gId a, gId b] [] → (me s).out.length < 4 → (me s).out.any isStoreOp = false →
    putrTarget (rg (me s) a).toNat = some (r, u, k) → k.val < 7 → (getHart s (.tile u k)).status ≠ .free →
    (partOf s t).isSome = true → partOf s u = partOf s t → (getTile s u).fills.length < 8 → pairFlights s t u = [] → s.noise = [] →
      ∃ s', exec (.putr la a b) s = .next s' ∧
        (getTile s' u).fills = (getTile s u).fills ++ [⟨s.ids + 1, k, r, rg (me s) b, some s.cur, false⟩] ∧
        (getHart s' s.cur).pc = (me s).pc + 4 ∧
        (getHart s' s.cur).out.getLast? = some { opAt (me s) la.val 0 [] 0 false .none with await := .fill (s.ids + 1) }) ∧
  (∀ (s : State) (t : Nat) (f : Fill) (h : HartId), s.ev = .tileItem t f.id →
    (getTile s t).fills = [f] → f.bad = false → f.sender = some h → h ≠ .tile t f.slot → tileRuns s t = true →
    hartRegFull (getHart s (.tile t f.slot)) f.reg = false → (f.reg.cls = .g ∨ f.reg.cls = .e) →
      ∃ s', exec .putrFill s = .next s' ∧ (getTile s' t).fills = [] ∧
        getHart s' (.tile t f.slot) = { putHartReg (getHart s (.tile t f.slot)) f.reg f.val.toNat with
          filled := f.reg :: (getHart s (.tile t f.slot)).filled.filter (· != f.reg) } ∧
        (getHart s' h).out = (getHart s h).out.filter fun o => o.await != .fill f.id)

/-- R172, R177, R178: KICK and FORK start idle sequencers of their tile with copies of g8 to g11, e0 to e7 and frm (of an empty register
the stored value, which is the model's choice: log 29, DESIGN CHOICE), and wait for busy ones; RDV waits for the sequencers that its thread forked, and is an acquire. -/
def Obligations.Sequencers : Prop :=
  (∀ (vec : Bool) (ea : EReg) (s : State) (t : Nat) (i : Fin 10), Here s t i → Issues s threadOnly [eId ea] [] →
    (me s).out.any isStoreOp = false → (re (me s) ea).toNat % 2 = 0 →
      let q : HartId := .tile t (if vec then 9 else 8)
      ((getHart s q).status = .free → ∃ s', exec (.kick vec ea) s = .next s' ∧
        SequencerOf (me s) (getHart s' q) (re (me s) ea) ∧ (getHart s' q).forkedBy = none ∧
        (getHart s' s.cur).pc = (me s).pc + 4 ∧ (getHart s' s.cur).g = (me s).g) ∧
      ((getHart s q).status ≠ .free → exec (.kick vec ea) s =
        .next (parkHart (readFilled s [eId ea]) s.cur (.engine (if vec then 2 else 1))))) ∧
  (∀ (mask : SeqMask) (ea eb : EReg) (s : State) (t : Nat) (i : Fin 10), Here s t i →
    let named (e : Nat) : Prop := mask.val / 2 ^ e % 2 = 1
    let src (e : Nat) : EReg := if e = 0 then ea else eb
    let seq (e : Nat) : HartId := .tile t (Fin.ofNat 10 (8 + e))
    (∀ e < 2, named e → regFull s s.cur (eId (src e)) = true ∧ flawAt (me s).flaws (.reg (eId (src e))) = none ∧
      (re (me s) (src e)).toNat % 2 = 0) → (me s).out.any isStoreOp = false →
      ((∀ e < 2, named e → (getHart s (seq e)).status = .free) →
        ∃ s', exec (.fork mask ea eb) s = .next s' ∧ (getHart s' s.cur).pc = (me s).pc + 4 ∧ (getHart s' s.cur).g = (me s).g ∧
          ∀ e < 2, (named e → SequencerOf (me s) (getHart s' (seq e)) (re (me s) (src e)) ∧
              (getHart s' (seq e)).forkedBy = some i ∧ e ∈ (getHart s' s.cur).fork) ∧
            (¬ named e → getHart s' (seq e) = getHart s (seq e) ∧ (e ∈ (getHart s' s.cur).fork ↔ e ∈ (me s).fork))) ∧
      ((∃ e < 2, named e ∧ (getHart s (seq e)).status ≠ .free) → ∃ s', exec (.fork mask ea eb) s = .next s' ∧
        (getHart s' s.cur).status = .parked (.engine mask.val) ∧ (getHart s' s.cur).pc = (me s).pc ∧
        ∀ e < 2, getHart s' (seq e) = getHart s (seq e))) ∧
  (∀ (s : State) (t : Nat) (i : Fin 10), Here s t i →
    ((me s).fork ≠ [] → exec .rdv s = .next (parkHart s s.cur .rdv)) ∧
    ((me s).fork = [] → (me s).forkFaults = [] →
      exec .rdv s = .next (finishedTile s [] 4 t (fun x => { x with gcache := [] }) id)) ∧
    (∀ f, (me s).fork = [] → (me s).forkFaults = [f] → exec .rdv s =
      .next (trapOn (modHart (acquire s s.cur) s.cur fun h => { h with forkFaults := [] }) s.cur f.cause f.val)))

/-- R130 to R137: STEP records its slot's arrival and waits; when the tile advances, the count rises, the publish row becomes the
newest version, the records are cleared, and every slot that waits in STEP goes on. STEPIDLE sets its target idle. -/
def Obligations.Steps : Prop :=
  (∀ x ∈ [(Instr.step, 4), (.cStep, 2)], ∀ (s : State) (t : Nat) (i : Fin 10), Here s t i → (me s).out = [] →
    exec x.1 s = .next (parkHart (setTile s t { getTile s t with
      arrived := if i.val < 7 ∧ (getTile s t).stepmask.getLsbD i.val = true then (getTile s t).arrived ||| (1#7 <<< i.val)
        else (getTile s t).arrived }) s.cur (.step ((me s).pc + w64 x.2)))) ∧
  (∀ (s : State) (t : Nat), s.ev = .tile t → canAdvance s t = true →
    ∃ s', exec .stepAdvance s = .next s' ∧ (getTile s' t).step = (getTile s t).step + 1 ∧ (getTile s' t).arrived = 0 ∧
      (getTile s' t).hist = ((getTile s t).pub :: (getTile s t).hist).take 32 ∧
      (∀ (i : Fin 10) (next : Word), (getHart s (.tile t i)).status = .parked (.step next) →
        (getHart s' (.tile t i)).pc = next) ∧
      (∀ (i : Fin 10), (∀ next, (getHart s (.tile t i)).status ≠ .parked (.step next)) →
        getHart s' (.tile t i) = getHart s (.tile t i)) ∧ s'.mem = s.mem) ∧
  (∀ (a : GReg) (s : State) (t : Nat) (i : Fin 10), Here s t i → (me s).sup = true → Issues s threadOnly [gId a] [] →
    (me s).out = [] →
      let v := (rg (me s) a).toNat
      let u := v / 256 % 256 * 72 + v % 256
      v < 2 ^ 16 → v % 256 ≤ 71 → v / 256 ≤ 63 → (∃ g, groupAt s (getTile s t).ctx u = some g ∧ g.st = .running) →
        exec (.stepidle a) s = .next (finishedTile s [gId a] 4 u (fun x => { x with idle := true }) id))

/-- R146, R147: an enrolled slot whose count is the open generation arrives at a barrier and waits; one that has joined ahead waits for
the open generation, and any other traps. A generation completes when every participant has arrived and a slot has recorded an arrival; it
counts on, and every slot that waits receives it and goes on, with an acquire. -/
def Obligations.Barriers : Prop :=
  (∀ (d : GReg), ∀ x ∈ [(Instr.tbar d, BarKind.tbar, (0 : Fin 3)), (.qbar d, .qbar, 1), (.clbar d, .clbar, 2)],
    ∀ (s : State) (t : Nat) (i : Fin 10), Here s t i → (me s).out = [] →
      let gen := (getTile s t).gen.get x.2.2
      let count := (me s).bar.get x.2.2
      let on := i.val < 7 ∧ (getTile s t).stepmask.getLsbD i.val = true
      let rec_ := (getTile s t).barArr.get x.2.2
      (on → count = gen → ∃ s', exec x.1 s = .next s' ∧ (getHart s' s.cur).status = .parked (.bar x.2.1 d ((me s).pc + 4)) ∧
        (getTile s' t).barArr.get x.2.2 = rec_ ||| (1#7 <<< i.val) ∧
        (getHart s' s.cur).pc = (me s).pc ∧ (getHart s' s.cur).g = (me s).g) ∧
      (on → count = gen + 1 → rec_.getLsbD i.val = true → exec x.1 s = .next (parkHart s s.cur (.barAhead x.2.1 gen))) ∧
      (¬ (on ∧ count = gen) → ¬ (on ∧ count = gen + 1 ∧ rec_.getLsbD i.val = true) →
        exec x.1 s = .next (trapOn s s.cur 0x38 (w64 (x.2.2.val * 2 ^ 32 + gen.toNat * 2 ^ 16 + count.toNat))))) ∧
  (∀ (s : State) (k : BarKind) (t u : Nat), t < 72 * 64 → (u ∈ barTiles s k t ↔ barMember s k t u)) ∧
  (∀ (s : State) (k : BarKind) (t : Nat), barComplete s k t = true ↔ tileRuns s t = true ∧ barDone s k t) ∧
  (∀ (s : State) (k : BarKind) (t : Nat), s.ev = .kindTile k t → barComplete s k t = true →
    ∃ s', exec .barrierGenerationComplete s = .next s' ∧ ∀ u ∈ barTiles s k t,
      (getTile s' u).gen.get (barIdx k) = (getTile s u).gen.get (barIdx k) + 1 ∧ (getTile s' u).barArr.get (barIdx k) = 0 ∧
      ∀ (i : Fin 10) (d : GReg) (next : Word), (getHart s (.tile u i)).status = .parked (.bar k d next) →
        let count := (getHart s (.tile u i)).bar.get (barIdx k)
        (getHart s' (.tile u i)).pc = next ∧ (getHart s' (.tile u i)).bar.get (barIdx k) = count + 1 ∧ Acquired s' (.tile u i) ∧
          rg (getHart s' (.tile u i)) d = (if d = 0 then 0 else w64 count.toNat))


namespace Sys2Proof.Claims

open Sys2Proof.Machine

/-! ## Vectors (R152 to R170, R191 to R196) -/

/-- Element `i` of `w` bits of a vector, and the vector whose elements are `f` (R152). -/
def lane (w : Nat) (v : Vec) (i : Nat) : Nat := v.toNat / 2 ^ (w * i) % 2 ^ w
def lanes (w : Nat) (f : Nat → Nat) : Vec := BitVec.ofNat 512 (packBits w ((List.range (512 / w)).map f))

/-- The mask lets element `i` of `w` bits through (R191); what a masked result holds. -/
def onMask (k : BitVec 16) (w i : Nat) : Prop := k.getLsbD (i * w / 32) = true
def masked (k : BitVec 16) (w : Nat) (old : Vec) (f : Nat → Nat) : Vec :=
  lanes w fun i => if k.getLsbD (i * w / 32) then f i else lane w old i

/-- The sources of a masked instruction: the mask, va, the others, and vd where the mask is not k0 (R191). -/
def vSrcs (k : KReg) (a : VReg) (more : List RegId) (d : VReg) : List RegId :=
  kId k :: vId a :: more ++ (if k = 0 then [] else [vId d])

/-- The flags that elements raise together. -/
def orFlags (n : Nat) (f : Nat → BitVec 5) : BitVec 5 := (List.range n).foldl (fun x i => x ||| f i) 0

/-! ### Stochastic rounding (R158) -/

/-- One step of an LFSR, and the state after `n` of them (R158). -/
def lfsrNext (x : W32) : W32 :=
  let y := BitVec.ofNat 32 (x.toNat / 2)
  if x.toNat % 2 = 1 then y ^^^ 0x8020_0003 else y
def lfsrAfter (x : W32) (n : Nat) : W32 := (List.range n).foldl (fun y _ => lfsrNext y) x

/-- How many of the elements below `i` that are rounded, those of `p`, are of lane `l` (R158). -/
def drawsBefore (p : Nat → Bool) (l i : Nat) : Nat := (List.range i).countP fun j => p j && j % 16 == l

/-- The 24 bits that decide the rounding of element `i`: those of its lane's LFSR after the step it makes for the element. A mender has
no LFSR, and its bits are free (R158; log 16). -/
def srBits (s : State) (p : Nat → Bool) (i : Nat) : Nat :=
  match s.cur with
  | .tile t _ => (lfsrAfter ((getTile s t).lfsr.get (Fin.ofNat 16 i)) (drawsBefore p (i % 16) i + 1)).toNat % 2 ^ 24
  | .mender _ _ => Config.freeBits (s.free + (List.range i).countP p) % 2 ^ 24

/-- After `n` elements have been rounded in mode `m`, as far as `p` names them: in SR each has advanced the LFSR of its lane once, or
has used up a free value of a mender. -/
def drawn (m : Mode) (p : Nat → Bool) (n : Nat) (s : State) : State :=
  if m ≠ .sr then s
  else
    match s.cur with
    | .tile t _ => modTile s t fun x =>
        { x with lfsr := Vector.ofFn fun l : Fin 16 => lfsrAfter (x.lfsr.get l) (drawsBefore p l.val n) }
    | .mender _ _ => { s with free := s.free + (List.range n).countP p }

/-- Element `i` rounded into a format, among the elements of `p` that are rounded: its bits and flags (R156 to R158). -/
def roundedAt (s : State) (f : Fmt) (m : Mode) (sat : Bool) (p : Nat → Bool) (i : Nat) (v : FV) : Nat × BitVec 5 :=
  roundF f m (if m = .sr then srBits s p i else 0) sat v

/-- As `finished`, with what `u` changes beside the hart: the LFSRs, or the free values used. -/
def finishedBy (s : State) (u : State → State) (srcs : List RegId) (len : Nat) (f : Hart → Hart) : State :=
  complete (modHart (u (readFilled s srcs)) s.cur f) s.cur ((me s).pc + w64 len)

/-- Format of a VFP type, and width of an integer type (R39). -/
def fmtOf (t : FTy) : Fmt :=
  match t with
  | .f32 => fp32
  | .bf16 => bf16
  | .f16 => fp16
def intWidth (t : ITy) : Nat :=
  match t with
  | .i32 | .n32 => 32
  | .i16 | .n16 => 16
  | .i8 | .n8 => 8
def isSignedTy (t : ITy) : Bool :=
  match t with
  | .i32 | .i16 | .i8 => true
  | .n32 | .n16 | .n8 => false

/-- The arithmetic of VFP: instruction, rounding code, further sources, and the exact value from the elements of va, vb and vd; the
first argument says that the rounding is downwards (R192). -/
structure FpRow where
  instr : Instr
  more : List RegId
  b : VReg
  val : Bool → FV → FV → FV → FV × BitVec 5

def fpRows (t : FTy) (rm : Rm) (k : KReg) (b a d : VReg) : List FpRow :=
  [ ⟨.vadd t rm k b a d, [vId b], b, fun dn x y _ => sumV dn [x, y]⟩,
    ⟨.vsub t rm k b a d, [vId b], b, fun dn x y _ => sumV dn [x, negV y]⟩,
    ⟨.vmul t rm k b a d, [vId b], b, fun _ x y _ => mulV x y⟩,
    ⟨.vfma t rm k b a d, [vId b, vId d], b, fun dn x y z => fusedV dn x y z⟩,
    ⟨.vfms t rm k b a d, [vId b, vId d], b, fun dn x y z => fusedV dn x y (negV z)⟩,
    ⟨.vfnma t rm k b a d, [vId b, vId d], b, fun dn x y z => fusedV dn (negV x) y z⟩,
    ⟨.vrcp t rm k a d, [], a, fun _ x _ _ => divV (.fin false 1 0) x⟩,
    ⟨.vrsq t rm k a d, [], a, fun _ x _ _ => rsqrtV x⟩,
    ⟨.vsqrt t rm k a d, [], a, fun _ x _ _ => sqrtV x⟩ ]

/-- Vector instructions that set no flag: width, sources beside va, and element `i` of the result (R192, R194, R196). -/
structure VRow where
  instr : Instr
  w : Nat
  more : List RegId
  new : (VReg → Nat → Nat) → Nat → Nat

/-- An integer element as its type reads it, and the element of an integer, wrapped or clamped to the type (R194). -/
def intOf (t : ITy) (x : Nat) : Int := if isSignedTy t then (BitVec.ofNat (intWidth t) x).toInt else (x : Int)
def wrapped (t : ITy) (x : Int) : Nat := (x % (2 ^ intWidth t : Nat)).toNat
def clamped (t : ITy) (x : Int) : Nat :=
  let n := intWidth t
  wrapped t (if isSignedTy t then max (-(2 ^ (n - 1) : Nat)) (min ((2 ^ (n - 1) : Nat) - 1) x) else max 0 (min ((2 ^ n : Nat) - 1) x))

def vRows (t : FTy) (it : ITy) (e : EltW) (n : Nib) (k : KReg) (b a d : VReg) : List VRow :=
  let fm := fmtOf t
  let ex (v : FV) : Nat := (roundF fm .rne 0 false v).1
  let f1 (i : Instr) (f : FV → FV) : VRow := ⟨i, fm.width, [], fun r j => ex (f (decodeF fm (r a j)))⟩
  let f2 (i : Instr) (f : FV → FV → FV) : VRow := ⟨i, fm.width, [vId b], fun r j => ex (f (decodeF fm (r a j)) (decodeF fm (r b j)))⟩
  let w := intWidth it
  let v (i : Instr) (f : Nat → Nat → Nat) : VRow := ⟨i, w, [vId b], fun r j => f (r a j) (r b j)⟩
  let ew : Nat := match e with
    | .w32 => 32
    | .w16 => 16
    | .w8 => 8
  [ f2 (.vmax t k b a d) maxV, f2 (.vmin t k b a d) minV, f1 (.vabs t k a d) absV, f1 (.vneg t k a d) negV,
    v (.viadd it k b a d) fun x y => (x + y) % 2 ^ w,
    v (.visub it k b a d) fun x y => wrapped it ((x : Int) - y),
    v (.vimul it k b a d) fun x y => x * y % 2 ^ w,
    v (.viand it k b a d) fun x y => x &&& y,
    v (.vior it k b a d) fun x y => x ||| y,
    v (.vixor it k b a d) fun x y => x ^^^ y,
    v (.vishl it k b a d) fun x y => x * 2 ^ (y % w) % 2 ^ w,
    v (.vishr it k b a d) fun x y => x / 2 ^ (y % w),
    v (.visra it k b a d) fun x y => wrapped it ((BitVec.ofNat w x).toInt / (2 ^ (y % w) : Nat)),
    v (.vimin it k b a d) fun x y => if intOf it x < intOf it y then x else y,
    v (.vimax it k b a d) fun x y => if intOf it x < intOf it y then y else x,
    v (.viadds it k b a d) fun x y => clamped it (intOf it x + intOf it y),
    v (.visubs it k b a d) fun x y => clamped it (intOf it x - intOf it y),
    ⟨.vshuf e k b a d, ew, [vId b], fun r j => if r b j < 512 / ew then r a (r b j) else 0⟩,
    ⟨.vbcast e k n a d, ew, [], fun r _ => r a n.val⟩,
    ⟨.vslide e k n a d, ew, [], fun r j => if j + n.val < 512 / ew then r a (j + n.val) else 0⟩ ]

/-- The comparisons: width, the relation on elements, and the flag of a pair that is a NaN (R192, R194). -/
def cmpRows (t : FTy) (it : ITy) (k : KReg) (b a : VReg) (kd : KReg) : List (Instr × Nat × (Nat → Nat → Bool × BitVec 5)) :=
  let fm := fmtOf t
  let c (nv : Bool) (rel : FV → FV → Bool) (x y : Nat) : Bool × BitVec 5 :=
    if decodeF fm x = .nan ∨ decodeF fm y = .nan then (false, if nv then NV else 0) else (rel (decodeF fm x) (decodeF fm y), 0)
  [ (.vceq t k b a kd, fm.width, c false fun x y => !ltV false x y && !ltV false y x),
    (.vclt t k b a kd, fm.width, c true fun x y => ltV false x y),
    (.vcle t k b a kd, fm.width, c true fun x y => !ltV false y x),
    (.viceq it k b a kd, intWidth it, fun x y => (decide (x = y), 0)),
    (.viclt it k b a kd, intWidth it, fun x y => (decide (intOf it x < intOf it y), 0)) ]

/-- Bit `j` of the mask that a comparison writes: set in the mask read, and every element of the lane satisfies it. -/
def cmpBit (k : BitVec 16) (w : Nat) (p : Nat → Bool) (j : Nat) : Bool :=
  k.getLsbD j && (List.range (32 / w)).all fun i => p (j * (32 / w) + i)

/-- The leaves of a reduction: the present elements of va to va + c in order, widened to FP32 (R195). -/
def leaves (t : FTy) (m : BitVec 16) (h : Hart) (a : VReg) (c : Nib) : List (Option Nat) :=
  let fm := fmtOf t
  (List.range (c.val + 1)).flatMap fun r => (List.range (512 / fm.width)).map fun i =>
    let x := lane fm.width (rv h (Fin.ofNat 16 (a.val + r))) i
    if m.getLsbD (i * fm.width / 32) then some (if t = .f32 then x else (roundF fp32 .rne 0 false (decodeF fm x)).1) else none

/-! ### Sums (R163, R195) -/

/-- The node of the ordered tree at level `n` over place `k`, with the flags of the additions below it (R163). -/
def orderedNode (l : List (Option Nat)) : Nat → Nat → Option Nat × BitVec 5
  | 0, k => (l.getD k none, 0)
  | n + 1, k =>
    let x := orderedNode l n (2 * k)
    let y := orderedNode l n (2 * k + 1)
    match x.1, y.1 with
    | some a, some b => (some (add32 a b).1, x.2 ||| y.2 ||| (add32 a b).2)
    | some a, none | none, some a => (some (if fv a = .nan then nan32 else a), x.2 ||| y.2)
    | none, none => (none, x.2 ||| y.2)

/-- The root at level ceil(log₂ n): +0 where no leaf is present (R163, R195). -/
def orderedTree (l : List (Option Nat)) : Nat × BitVec 5 :=
  let x := orderedNode l (Nat.log2 (2 * l.length - 1)) 0
  (x.1.getD 0, x.2)

/-- `v` and `fl` are the value and the flags of some binary tree over the values, in the order listed (R195). -/
inductive SumTree : List Nat → Nat → BitVec 5 → Prop where
  | leaf (x : Nat) : SumTree [x] (if fv x = .nan then nan32 else x) 0
  | node {l r : List Nat} {x y : Nat} {f g : BitVec 5} : SumTree l x f → SumTree r y g →
      SumTree (l ++ r) (add32 x y).1 (f ||| g ||| (add32 x y).2)

/-- The reductions whose result is fixed: value and flags from the leaves. -/
def redRows (t : FTy) (k : KReg) (c : Nib) (a d : VReg) : List (Instr × (List (Option Nat) → Nat × BitVec 5)) :=
  [ (.vrsumO t k c a d, orderedTree),
    (.vrmax t k c a d, fun l => ((l.filterMap id).foldl max32 nan32, 0)),
    (.vramax t k c a d, fun l => ((l.filterMap id).foldl (fun m x => max32 m (x % 2 ^ 31)) nan32, 0)),
    (.vrmin t k c a d, fun l => ((l.filterMap id).foldl min32 nan32, 0)) ]

/-! ### VEXP2, VLOG2 and VTANH at the edges of their type (R192) -/

/-- The canonical NaN, +∞ and 1 of a type, and the bits of a value's sign. -/
def nanOf (t : FTy) : Nat :=
  match t with
  | .f32 => 0x7FC0_0000
  | .bf16 => 0x7FC0
  | .f16 => 0x7E00
def infOf (t : FTy) : Nat :=
  match t with
  | .f32 => 0x7F80_0000
  | .bf16 => 0x7F80
  | .f16 => 0x7C00
def oneOf (t : FTy) : Nat :=
  match t with
  | .f32 => 0x3F80_0000
  | .bf16 => 0x3F80
  | .f16 => 0x3C00
def signOf (t : FTy) (neg : Bool) : Nat := if neg then 2 ^ ((fmtOf t).width - 1) else 0

/-- A finite value is the integer `n`. -/
def IsInt (v : FV) (n : Int) : Prop :=
  ∃ (neg : Bool) (m : Nat) (e : Int), v = .fin neg m e ∧ (if neg then -(m : Int) else m) * 2 ^ e.toNat = n * 2 ^ (-e).toNat

/-- A finite value is 2^n. -/
def IsPow (v : FV) (n : Int) : Prop := ∃ (j : Nat) (e : Int), v = .fin false (2 ^ j) e ∧ n = j + e

/-- What R192 fixes of 2^A for an element of value `v`; `r` is the result with its flags. -/
def Exp2Edges (t : FTy) (v : FV) (r : Nat × BitVec 5) : Prop :=
  let f := fmtOf t
  let big := ltV false v (.fin false (f.bias + 1).toNat 0) = false
  (v = .nan → r = (nanOf t, 0)) ∧ (v = .inf false → r = (infOf t, 0)) ∧ (v = .inf true → r = (0, 0)) ∧
  (∀ n, IsInt v n → 1 - f.bias - f.m ≤ n → n ≤ f.bias → IsPow (decodeF f r.1) n ∧ r.2 = 0) ∧
  ((∃ neg m e, v = .fin neg m e) →
    (big → r = (infOf t, OF ||| NX)) ∧
    (¬ big → r.2 &&& OF = 0 ∧ ((∀ n, IsInt v n → n < 1 - f.bias - f.m) → r.2 &&& NX = NX)))

/-- What R192 fixes of log₂ A. -/
def Log2Edges (t : FTy) (v : FV) (r : Nat × BitVec 5) : Prop :=
  let f := fmtOf t
  (v = .nan → r = (nanOf t, 0)) ∧ (v = .inf false → r = (infOf t, 0)) ∧
  (∀ neg m e, v = .fin neg m e →
    (m = 0 → r = (infOf t + signOf t true, DZ)) ∧ (m ≠ 0 → neg = true → r = (nanOf t, NV)) ∧
    (m ≠ 0 → neg = false → (∀ n, IsPow v n → IsInt (decodeF f r.1) n ∧ r.2 = 0) ∧ ((¬ ∃ n, IsPow v n) → r.2 &&& NX = NX))) ∧
  (v = .inf true → r = (nanOf t, NV))

/-- What R192 fixes of tanh A: ±0 of ±0, ±1 of ±∞, and a result that keeps the sign of A. -/
def TanhEdges (t : FTy) (v : FV) (r : Nat × BitVec 5) : Prop :=
  (v = .nan → r = (nanOf t, 0)) ∧ (∀ neg, v = .inf neg → r = (oneOf t + signOf t neg, 0)) ∧
  ∀ neg m e, v = .fin neg m e →
    (m = 0 → r = (signOf t neg, 0)) ∧ (m ≠ 0 → r.1 / 2 ^ ((fmtOf t).width - 1) = b2n neg ∧ r.2 &&& NX = NX)

/-- The three functions. -/
def approxRows (t : FTy) : List ((KReg → VReg → VReg → Instr) × (FV → Nat × BitVec 5 → Prop)) :=
  [ (.vexp2 t, Exp2Edges t), (.vlog2 t, Log2Edges t), (.vtanh t, TanhEdges t) ]

/-! ### VAMAXU (R193) -/

/-- `m` is the largest magnitude of the FP32 words of `l`, NaN if one of them is NaN, +0 if there is none (R193). -/
def IsAmax (l : List Nat) (m : Nat) : Prop :=
  ((∃ x ∈ l, fv x = .nan) → m = nan32) ∧
  ((∀ x ∈ l, fv x ≠ .nan) → (∀ x ∈ l, x % 2 ^ 31 ≤ m) ∧ (m = 0 ∨ ∃ x ∈ l, m = x % 2 ^ 31))

/-- rmax after `m` has been taken into it (R193): NaN sticks, and the words of magnitudes stand in the order of their values. -/
def raised (rmax m : Nat) : Nat :=
  if fv rmax = .nan ∨ fv m = .nan then nan32 else if rmax / 2 ^ 31 = 1 then m else max rmax m

/-- The scale pointer `j` of the hart: its tile's, or for a mender an address that the spec does not give (log 16). -/
def scaleEntry (s : State) (j : Slot4) : Word :=
  match s.cur with
  | .tile t _ => (getTile s t).scp.get j
  | .mender m _ => w64 (Config.menderScp m j.val)

end Sys2Proof.Claims

/-- R156, R158, R191, R192: the arithmetic of VFP rounds the exact result of each element once; masked-out elements keep vd; the flags
of the present elements are ORed into fflags. Under stochastic rounding every present element with a finite result advances the LFSR of
its lane once, in ascending order, and takes the neighbour that R158 gives for the bits it then holds. -/
def Obligations.VectorArithmetic : Prop :=
  (∀ (t : FTy) (rm : Rm) (k : KReg) (b a d : VReg), ∀ r ∈ fpRows t rm k b a d, ∀ s : State,
    let srcs := vSrcs k a r.more d
    Issues s allHarts srcs [vId d] →
      let h := me s
      let fm := fmtOf t
      let m := rmMode h rm
      let on (i : Nat) : Bool := (rk h k).getLsbD (i * fm.width / 32)
      let x (i : Nat) : FV × BitVec 5 := r.val (m == .rdn) (decodeF fm (lane fm.width (rv h a) i))
        (decodeF fm (lane fm.width (rv h r.b) i)) (decodeF fm (lane fm.width (rv h d) i))
      let p (i : Nat) : Bool := on i && finiteV (x i).1
      let y (i : Nat) : Nat × BitVec 5 := roundedAt s fm m false p i (x i).1
      exec r.instr s = .next (finishedBy s (drawn m p (512 / fm.width)) srcs 4 fun h =>
        { wv h d (masked (rk h k) fm.width (rv h d) fun i => (y i).1) with
          fflags := h.fflags ||| orFlags (512 / fm.width) fun i => if on i then (y i).2 ||| (x i).2 else 0 })) ∧
  ∀ (t : FTy) (neg : Bool) (m k rnd : Nat) (e : Int),
    let f := fmtOf t
    m ≠ 0 → rnd < 2 ^ 24 → e + k = max ((Nat.log2 m : Int) + e) (1 - f.bias) - f.m → (Nat.log2 m : Int) + e < f.bias →
      let n := m / 2 ^ k + if 2 ^ 24 ≤ m % 2 ^ k * 2 ^ 24 / 2 ^ k + rnd then 1 else 0
      ∃ m' e', decodeF f (roundF f .sr rnd false (.fin neg m e)).1 = .fin neg m' e' ∧ e + k ≤ e' ∧
        m' * 2 ^ (e' - (e + k)).toNat = n

/-- R192, R194, R196: the element-wise instructions that set no flag, for every type and mask. -/
def Obligations.VectorElements : Prop :=
  ∀ (t : FTy) (it : ITy) (e : EltW) (n : Nib) (k : KReg) (b a d : VReg), ∀ r ∈ vRows t it e n k b a d, ∀ s : State,
    let srcs := vSrcs k a r.more d
    Issues s allHarts srcs [vId d] →
      exec r.instr s = .next (finished s srcs 4 fun h => wv h d (masked (rk h k) r.w (rv h d)
        (r.new fun q j => lane r.w (rv h q) j)))

/-- R192, R194, R196: comparisons write a mask register, and one that names k0 has no effect; VSEL, VINS and VEXT. -/
def Obligations.VectorMasks : Prop :=
  (∀ (t : FTy) (it : ITy) (k : KReg) (b a : VReg) (kd : KReg), ∀ r ∈ cmpRows t it k b a kd, ∀ s : State,
    let srcs := [kId k, vId a, vId b]
    Issues s allHarts srcs [kId kd] →
      let h := me s
      let w := r.2.1
      let p (i : Nat) : Bool × BitVec 5 := r.2.2 (lane w (rv h a) i) (lane w (rv h b) i)
      (kd = 0 → exec r.1 s = .next (finished s srcs 4 id)) ∧
      (kd ≠ 0 → ∃ m : BitVec 16, (∀ j < 16, m.getLsbD j = cmpBit (rk h k) w (fun i => (p i).1) j) ∧
        exec r.1 s = .next (finished s srcs 4 fun h => { wk h kd m with
          fflags := h.fflags ||| orFlags (512 / w) fun i => if (rk h k).getLsbD (i * w / 32) then (p i).2 else 0 }))) ∧
  (∀ (t : FTy) (k : KReg) (b a d : VReg) (s : State), Issues s allHarts [kId k, vId a, vId b] [vId d] →
    exec (.vsel t k b a d) s = .next (finished s [kId k, vId a, vId b] 4 fun h =>
      wv h d (masked (rk h k) (fmtOf t).width (rv h b) (lane (fmtOf t).width (rv h a))))) ∧
  (∀ (g : GReg) (n : Nib) (d : VReg) (s : State),
    (Issues s allHarts [gId g, vId d] [vId d] → exec (.vins g n d) s = .next (finished s [gId g, vId d] 4 fun h =>
      wv h d (lanes 32 fun i => if i = n.val then (rg h g).toNat % 2 ^ 32 else lane 32 (rv h d) i))) ∧
    (Issues s allHarts [vId d] [gId g] → exec (.vext g n d) s = .next (finished s [vId d] 4 fun h =>
      wg h g (i64 (BitVec.ofNat 32 (lane 32 (rv h d) n.val)).toInt))))

/-- R163, R192, R193, R195: the reductions complete with their FP32 result in lane 0 of vd and zeros in the others: VRSUM.o the value of
the ordered tree, VRSUM.u that of some tree over the present elements, VRMAX, VRAMAX and VRMIN the largest and smallest. VEXP2, VLOG2 and
VTANH complete with one function of the input bits each, which takes the values that R192 fixes at the edges of its type. VAMAXU completes
and raises rmax of its scale-table entry with the largest magnitude of the present elements. -/
def Obligations.VectorReductions : Prop :=
  (∀ (t : FTy) (k : KReg) (c : Nib) (a d : VReg) (s : State), a.val + c.val ≤ 15 →
    let srcs := kId k :: (List.range (c.val + 1)).map fun i => vId (Fin.ofNat 16 (a.val + i))
    Issues s allHarts srcs [vId d] →
      let l := leaves t (rk (me s) k) (me s) a c
      (∀ r ∈ redRows t k c a d, exec r.1 s = .next (finished s srcs 4 fun h =>
        { wv h d (BitVec.ofNat 512 ((r.2 l).1 % 2 ^ 32)) with fflags := h.fflags ||| (r.2 l).2 })) ∧
      ∃ (o : List Nat) (x n : Nat) (fl : BitVec 5), o.Perm (l.filterMap id) ∧ (o ≠ [] → SumTree o x fl) ∧
        (o = [] → x = 0 ∧ fl = 0) ∧
        exec (.vrsumU t k c a d) s = .next (finishedBy s (fun s => { s with free := n }) srcs 4 fun h =>
          { wv h d (BitVec.ofNat 512 (x % 2 ^ 32)) with fflags := h.fflags ||| fl })) ∧
  (∀ t : FTy, ∀ p ∈ approxRows t, ∃ r : Nat → Nat × BitVec 5,
    (∀ x < 2 ^ (fmtOf t).width, p.2 (decodeF (fmtOf t) x) (r x)) ∧
    ∀ (k : KReg) (a d : VReg) (s : State), Issues s allHarts (vSrcs k a [] d) [vId d] →
      let w := (fmtOf t).width
      let y (i : Nat) : Nat × BitVec 5 := r (lane w (rv (me s) a) i)
      exec (p.1 k a d) s = .next (finished s (vSrcs k a [] d) 4 fun h =>
        { wv h d (masked (rk h k) w (rv h d) fun i => (y i).1) with
          fflags := h.fflags ||| orFlags (512 / w) fun i => if (rk h k).getLsbD (i * w / 32) then (y i).2 else 0 })) ∧
  (∀ (t : FTy) (k : KReg) (j : Slot4) (a : VReg) (s : State), Issues s allHarts [kId k, vId a] [] →
    let va := scaleEntry s j
    let s1 := readFilled s [kId k, vId a]
    (va.toNat % 64 ≠ 0 → exec (.vamaxu t k j a) s = .next (trapOn s1 s.cur 0x18 va)) ∧
    ∀ (s2 : State) (pa : Nat), va.toNat % 64 = 0 → xlateHart s1 s.cur va.toNat .readWrite = (s2, .ok pa) →
      ArrivesG s va 64 pa → physPoison s2 pa 64 = false →
        ∃ s' m, exec (.vamaxu t k j a) s = .next s' ∧ IsAmax ((leaves t (rk (me s) k) (me s) a 0).filterMap id) m ∧
          memRead s'.mem pa 64 = (raised (memRead s2.mem pa 64 % 2 ^ 32) m + memRead s2.mem pa 64 / 2 ^ 32 * 2 ^ 32) % 256 ^ 64 ∧
          (∀ c, c < pa ∨ pa + 64 ≤ c → memRead s'.mem c 1 = memRead s2.mem c 1) ∧
          getHart s' s.cur = getHart (complete s1 s.cur ((me s).pc + 4)) s.cur)

namespace Sys2Proof.Claims

open Sys2Proof.Machine

/-! ## The VCVT group (R160 to R170) -/

/-- Bits p to p + n - 1 of `v`. -/
def cut (v p n : Nat) : Nat := v / 2 ^ p % 2 ^ n

/-- Menders do not run what reads a scale pointer or an NFD (R164). -/
def notMender (needsTile : Bool) (k : HartKind) : Bool := !(k == .mender && needsTile)

/-- The format of a conversion (R39, R154): a type 7 takes fmtj, which must be valid. -/
def formatOk (s : State) (t : CTy) (j : Slot4) : Prop := t = .nfd → nfdFault (tileNfd (getTile s (myTile s)) j) = none
def formatOf (s : State) (t : CTy) (j : Slot4) : Fmt := ctyFmt t (tileNfd (getTile s (myTile s)) j)

/-- The register `i` places behind `a`; the ids of `n` registers from `a` on; and the elements of 32 bits of a group. -/
def behind (a : VReg) (i : Nat) : VReg := Fin.ofNat 16 (a.val + i)
def groupIds (a : VReg) (n : Nat) : List RegId := (List.range n).map fun i => vId (behind a i)
def groupVal (h : Hart) (a : VReg) (i : Nat) : FV := fv (lane 32 (rv h (behind a (i / 16))) (i % 16))

/-- A group of `n` registers from `d` on with elements `f`. -/
def putLanes (h : Hart) (d : VReg) (n : Nat) (f : Nat → Nat) : Hart :=
  (List.range n).foldl (fun h k => wv h (behind d k) (lanes 32 fun i => f (16 * k + i))) h

/-- The exponent of the largest magnitude of a format, and that magnitude (R151, R155). -/
def emaxOf (f : Fmt) : Int :=
  if f.e = 0 then (Nat.log2 (2 ^ f.m - 1) : Int) - f.bias
  else 2 ^ f.e - 1 - f.bias - if f.policy = 0 ∨ (f.policy = 1 ∧ f.m = 0) then 1 else 0
def maxOf (f : Fmt) : Nat × Int :=
  if f.e = 0 then (2 ^ f.m - 1, -f.bias)
  else (2 ^ (f.m + 1) - if f.policy = 1 ∧ f.m ≠ 0 then 2 else 1, emaxOf f - f.m)

/-- An element is rounded: its value is finite, and its format can hold its sign (R156, R158). -/
def isRounded (f : Fmt) (v : FV) : Bool :=
  match v with
  | .fin neg m _ => f.s || !neg || m == 0
  | .nan | .inf _ => false

/-- The exponent of a finite value's magnitude, -150 for a zero (R161). -/
def expOf (v : FV) : Int :=
  match v with
  | .fin _ m e => if m = 0 then -150 else (Nat.log2 m : Int) + e
  | .nan | .inf _ => -150

/-- `sc` is the scale of a block of values in format `f` (R160). -/
structure IsScale (f : Fmt) (l : List FV) (sc : Nat) : Prop where
  nan : .nan ∈ l → sc = 0xFF
  zero : .nan ∉ l → (∀ v ∈ l, ∀ neg m e, v = .fin neg m e → m = 0) → sc = 0
  most : .nan ∉ l → ∀ neg m e, .fin neg m e ∈ l → m ≠ 0 →
    (∀ neg' m' e', .fin neg' m' e' ∈ l → m' ≠ 0 → (Nat.log2 m' : Int) + e' ≤ (Nat.log2 m : Int) + e) →
      (sc : Int) = max 0 (min 254 ((Nat.log2 m : Int) + e - emaxOf f + 127))

/-- Elements cut into blocks: how many, the block of each, its value; and the values of block `b`. -/
structure Blocks where
  n : Nat
  blk : Nat → Nat
  x : Nat → FV
def Blocks.vals (q : Blocks) (b : Nat) : List FV := ((List.range q.n).filter fun i => q.blk i == b).map q.x

/-- Block of element `i` has a NaN; what is rounded of the element under the scales `sc`; and its container with its flags (R160). -/
def Blocks.bad (q : Blocks) (i : Nat) : Bool := (q.vals (q.blk i)).contains .nan
def Blocks.scaled (q : Blocks) (sc : Nat → Nat) (i : Nat) : FV :=
  if sc (q.blk i) = 0xFF then .nan else scaleV (q.x i) (127 - (sc (q.blk i) : Int))
def Blocks.rounded (q : Blocks) (f : Fmt) (sc : Nat → Nat) (i : Nat) : Bool := !q.bad i && isRounded f (q.scaled sc i)
def Blocks.elem (q : Blocks) (s : State) (f : Fmt) (m : Mode) (sc : Nat → Nat) (i : Nat) : Nat × BitVec 5 :=
  if q.bad i then (0, 0) else roundedAt s f m true (q.rounded f sc) i (q.scaled sc i)

/-- The bitmap `bm` of the values `x`, with the exponent `e i` of the running maximum behind element `i` (R161). -/
structure IsBitmap (thr : Nat) (x : Nat → FV) (bm : Nat → Bool) (e : Nat → Int) : Prop where
  first : bm 0 = true ∧ e 0 = expOf (x 0)
  skip : ∀ i < 63, finiteV (x (i + 1)) = false → bm (i + 1) = false ∧ e (i + 1) = e i
  next : ∀ i < 63, finiteV (x (i + 1)) = true →
    if (i + 1) % 2 = 0 ∧ thr < (expOf (x (i + 1)) - e i).natAbs then bm (i + 1) = true ∧ e (i + 1) = expOf (x (i + 1))
    else bm (i + 1) = false ∧ e (i + 1) = max (e i) (expOf (x (i + 1)))

/-- The block of element `i` under a bitmap: one more at every set bit behind bit 0 (R161, R168). -/
def blockOf (bm : Nat → Bool) (i : Nat) : Nat := (List.range i).countP fun j => bm (j + 1)

/-- Byte `k` of a bitmap. -/
def bitmapByte (bm : Nat → Bool) (k : Nat) : Nat := ((List.range 8).map fun j => b2n (bm (8 * k + j)) * 2 ^ j).sum

/-- What VDEQ decodes as element `i` in a mode: its scale and its container (R168). -/
def deqScale (h : Hart) (a : VReg) (mode : Slot4) (i : Nat) : Nat :=
  if mode = 3 then
    let w := rv h (behind a 1)
    let b := blockOf (fun j => w.getLsbD j) i
    if b < 56 then lane 8 w (8 + b) else 0xFF
  else lane 8 (rv h a) (if mode = 1 ∧ 16 ≤ i then 33 else 32)
def deqVal (f : Fmt) (h : Hart) (a : VReg) (mode : Slot4) (i : Nat) : FV :=
  if deqScale h a mode i = 0xFF then .nan else scaleV (decodeF f (lane 8 (rv h a) i)) ((deqScale h a mode i : Int) - 127)

/-- `cur` after SCLNEXT, from the ring entries in use and the cur before (R169). A maximum below zero has no stated result. -/
structure NextCur (f : Fmt) (l : List FV) (old cur : Nat) : Prop where
  nan : .nan ∈ l → cur = 0xFF
  inf : .nan ∉ l → .inf false ∈ l → cur = 254
  zero : .nan ∉ l → (∀ v ∈ l, ltV false (.fin false 0 0) v = false) → (∃ neg e, .fin neg 0 e ∈ l) → cur = old
  most : .nan ∉ l → ∀ m e, .fin false m e ∈ l → m ≠ 0 → (∀ v ∈ l, ltV false (.fin false m e) v = false) →
    ∀ z : Int, magLt (maxOf f).1 (maxOf f).2 m (e + z) = false → magLt (maxOf f).1 (maxOf f).2 m (e + z + 1) = true →
      (cur : Int) = max 0 (min 254 (127 - z))

/-- Scale-table entry `y` is `x` after SCLNEXT (R162, R169): a head above 11 counts as 0, and a fill above 12 as 12. -/
structure ScaleStep (f : Fmt) (x y : Nat) : Prop where
  rmax : cut y 0 32 = 0
  head : cut y 40 4 = ((if cut x 40 4 > 11 then 0 else cut x 40 4) + 1) % 12
  fill : cut y 48 4 = min (min (cut x 48 4) 12 + 1) 12
  ring : ∀ k < 12, cut y (64 + 32 * k) 32 = cut x (if k = (if cut x 40 4 > 11 then 0 else cut x 40 4) then 0 else 64 + 32 * k) 32
  cur : NextCur f ((List.range (cut y 48 4)).map fun k => fv (cut y (64 + 32 * k) 32)) (cut x 32 8) (cut y 32 8)
  kept : cut y 44 4 = cut x 44 4 ∧ cut y 52 12 = cut x 52 12 ∧ cut y 448 64 = cut x 448 64

end Sys2Proof.Claims

/-- R160 to R170: the conversions complete under a valid format. VCVT and VDEQ round each element once; VQUANT and VQUANTV give the
scales of R160 for their blocks, and the elements rounded under them, a block with a NaN having scale 0xFF and zeros; VQUANTV draws the
bitmap of R161; VPACK and VUNPK move nibbles; SCLNEXT steps its scale-table entry. Stochastic rounding goes as R158 and R165 give. Two points are the
model's readings, not the spec's words: under a current scale of 0xFF VQUANT in mode 2 makes elements that are NaN (log 19, DEDUCED), and
which elements of VQUANT, VQUANTV and VDEQ advance the LFSR of their lane (log 32, DEDUCED). -/
def Obligations.Conversions : Prop :=
  ∀ (t : CTy) (rm : Rm) (j : Slot4) (a d : VReg) (s : State), formatOk s t j →
    let f := formatOf s t j
    let h := me s
    let m := rmMode h rm
    let w := if t = .bf16 ∨ t = .f16 then 16 else 8
    let noNfd := notMender (t = .nfd)
    (∀ part : Slot4, 16 * part.val + 16 ≤ 512 / w →
      (Issues s noNfd [vId a] [vId d] →
        let y (i : Nat) : Nat × BitVec 5 := roundedAt s fp32 m false (fun _ => true) i (decodeF f (lane w (rv h a) (16 * part.val + i)))
        exec (.vcvt t rm j true part a d) s = .next (finishedBy s (drawn m (fun _ => true) 16) [vId a] 4 fun h =>
          { wv h d (lanes 32 fun i => (y i).1) with fflags := h.fflags ||| orFlags 16 fun i => (y i).2 })) ∧
      (Issues s noNfd [vId a, vId d] [vId d] →
        let y (i : Nat) : Nat × BitVec 5 := roundedAt s f m false (fun _ => true) i (fv (lane 32 (rv h a) i))
        exec (.vcvt t rm j false part a d) s = .next (finishedBy s (drawn m (fun _ => true) 16) [vId a, vId d] 4 fun h =>
          { wv h d (lanes w fun i => if 16 * part.val ≤ i ∧ i < 16 * part.val + 16 then (y (i - 16 * part.val)).1
              else lane w (rv h d) i) with
            fflags := h.fflags ||| orFlags 16 fun i => (y i).2 }))) ∧
    (∀ mode : Slot4, mode.val < 2 → Issues s noNfd (groupIds a 2) [vId d] →
      let q : Blocks := ⟨32, fun i => if mode = 0 then 0 else i / 16, groupVal h a⟩
      ∃ sc : Nat → Nat, (∀ b ≤ mode.val, IsScale f (q.vals b) (sc b)) ∧
        exec (.vquant t rm j mode a d) s = .next (finishedBy s (drawn m (q.rounded f sc) 32) (groupIds a 2) 4 fun h =>
          { wv h d (lanes 8 fun i => if i < 32 then (q.elem s f m sc i).1 else if i ≤ 32 + mode.val then sc (i - 32) else 0) with
            fflags := h.fflags ||| orFlags 32 fun i => (q.elem s f m sc i).2 })) ∧
    (Issues s (notMender true) (groupIds a 2) [vId d] →
      let va := (getTile s (myTile s)).scp.get j
      let s1 := readFilled s (groupIds a 2)
      (va.toNat % 64 ≠ 0 → exec (.vquant t rm j 2 a d) s = .next (trapOn s1 s.cur 0x18 va)) ∧
      ∀ (s2 : State) (pa : Nat), va.toNat % 64 = 0 → xlateHart s1 s.cur va.toNat .read = (s2, .ok pa) →
        ArrivesG s va 1 (pa + 4) → physPoison s2 (pa + 4) 1 = false →
          let q : Blocks := ⟨32, fun _ => 0, groupVal h a⟩
          let sc : Nat → Nat := fun _ => memRead s2.mem (pa + 4) 1
          let s3 := drawn m (q.rounded f sc) 32 s1
          ∃ s', exec (.vquant t rm j 2 a d) s = .next s' ∧ s'.mem = s2.mem ∧
            (getTile s' (myTile s)).lfsr = (getTile s3 (myTile s)).lfsr ∧
            getHart s' s.cur = getHart (complete (modHart s1 s.cur fun h =>
              { wv h d (lanes 8 fun i => if i < 32 then (q.elem s f m sc i).1
                  else if i = 32 then (if q.bad 0 then 0xFF else sc 0) else 0) with
                fflags := h.fflags ||| orFlags 32 fun i => (q.elem s f m sc i).2 }) s.cur (h.pc + 4)) s.cur) ∧
    (∀ thr : Nib, Issues s noNfd (groupIds a 4) (groupIds d 2) → d.val % 2 = 0 →
      ∃ (bm : Nat → Bool) (e : Nat → Int) (sc : Nat → Nat), IsBitmap thr.val (groupVal h a) bm e ∧
        let q : Blocks := ⟨64, blockOf bm, groupVal h a⟩
        (∀ b ≤ blockOf bm 63, IsScale f (q.vals b) (sc b)) ∧
        exec (.vquantv t rm j thr a d) s = .next (finishedBy s (drawn m (q.rounded f sc) 64) (groupIds a 4) 4 fun h =>
          { wv (wv h d (lanes 8 fun i => (q.elem s f m sc i).1)) (behind d 1)
              (lanes 8 fun i => if i < 8 then bitmapByte bm i else if i - 8 ≤ blockOf bm 63 then sc (i - 8) else 0) with
            fflags := h.fflags ||| orFlags 64 fun i => (q.elem s f m sc i).2 })) ∧
    (∀ mode : Slot4,
      let n := if mode = 3 then 4 else 2
      let srcs := if mode = 3 then groupIds a 2 else [vId a]
      Issues s (notMender (t = .nfd ∨ mode = 2)) srcs (groupIds d n) → d.val % n = 0 →
        let p (i : Nat) : Bool := finiteV (deqVal f h a mode i)
        let y (i : Nat) : Nat × BitVec 5 := roundedAt s fp32 m false p i (deqVal f h a mode i)
        exec (.vdeq t rm j mode a d) s = .next (finishedBy s (drawn m p (16 * n)) srcs 4 fun h =>
          { putLanes h d n (fun i => (y i).1) with fflags := h.fflags ||| orFlags (16 * n) fun i => (y i).2 })) ∧
    (∀ b : VReg, Issues s noNfd [vId a, vId b] [vId d] → (t = .nfd → f.width ≤ 4) →
      exec (.vpack t j b a d) s = .next (finished s [vId a, vId b] 4 fun h =>
        wv h d (lanes 4 fun i => if i < 64 then lane 8 (rv h a) i % 16 else lane 8 (rv h b) (i - 64) % 16))) ∧
    (∀ hi : Bool, Issues s noNfd [vId a] [vId d] → (t = .nfd → f.width ≤ 4) →
      exec (.vunpk t j hi a d) s = .next (finished s [vId a] 4 fun h =>
        wv h d (lanes 8 fun i => lane 4 (rv h a) (i + if hi then 64 else 0)))) ∧
    (∀ (s2 : State) (pa u : Nat), tileOf? s.cur = some u →
      let va := (getTile s u).scp.get j
      (va.toNat % 64 ≠ 0 → ∃ n, exec (.sclnext t j) s = .next (trapOn { s with free := n } s.cur 0x18 va)) ∧
      (va.toNat % 64 = 0 → xlateHart { s with free := s.free + 1 } s.cur va.toNat .readWrite = (s2, .ok pa) → ArrivesG s va 64 pa →
        physPoison s2 pa 64 = false →
          ∃ s', exec (.sclnext t j) s = .next s' ∧ ScaleStep f (memRead s2.mem pa 64) (memRead s'.mem pa 64) ∧
            (∀ c, c < pa ∨ pa + 64 ≤ c → memRead s'.mem c 1 = memRead s2.mem c 1) ∧
            getHart s' s.cur = getHart (complete s s.cur (h.pc + 4)) s.cur))

namespace Sys2Proof.Claims

open Sys2Proof.Machine

/-! ## The matrix array (R198 to R212) -/

/-- An operation of the matrix array has passed its last point of fault (R51, R175, R209): the array is its own until `fin`, its
destinations are empty, no register of its hart changes, and a thread with la = 0 waits for it inline; `p` says what the operation does
at its completion. -/
structure ArrayIssued (s s' : State) (t : Nat) (la : La) (lat : Nat) (dsts : List RegId) (p : LongOp → Prop) : Prop where
  busy : (getTile s' t).arrayFree = max (getTile s t).arrayFree s.cycle + lat
  last : ∃ o, (getHart s' s.cur).out.getLast? = some o ∧ o.due = max (getTile s t).arrayFree s.cycle + lat ∧
    o.wbs.map (·.reg) = dsts ∧ p o
  pc : (getHart s' s.cur).pc = (me s).pc + 4
  regs : (getHart s' s.cur).g = (me s).g ∧ (getHart s' s.cur).e = (me s).e ∧ (getHart s' s.cur).v = (me s).v
  empty : ∀ r ∈ dsts, regFull s' s.cur r = false
  inline : kindOf s.cur = .thread → la = 0 → (me s).ss = false → (getHart s' s.cur).status = .inline
  mem : s'.mem = s.mem

/-- The hart of tile `t` may start an operation of the array that reads these registers, and no error waits in the tile (R296). -/
structure ArrayReady (s : State) (t : Nat) (srcs : List RegId) : Prop where
  here : tileOf? s.cur = some t
  full : ∀ r ∈ srcs, regFull s s.cur r = true
  sound : ∀ r ∈ srcs, flawAt (me s).flaws (.reg r) = none
  room : (me s).out.length < 4
  quiet : (getTile s t).flaws = [] ∧ (getTile s t).latch.flaws = [] ∧
    ∀ b, ((getTile s t).pe.get b).flaws = [] ∧ ((getTile s t).pe.get b).accFlaws = []

/-- The accumulator tiles that a multiply of `rows` rows writes from c[n] on (R206). -/
def accTiles (n : CTile) (rows : Nat) : List RegId := (List.range ((rows + 31) / 32)).map fun i => ⟨.c, n.val + i⟩

/-- The stores that an operation leaves alone, beside the C-store. -/
def SameLWA (s s' : State) (t : Nat) : Prop :=
  (getTile s' t).l = (getTile s t).l ∧ (getTile s' t).w = (getTile s t).w ∧ (getTile s' t).a = (getTile s t).a

/-- Element (r, c) of accumulator tile c[n], and a tile of elements as one value of 4,096 bytes (R87). -/
def accAt (x : Tile) (n r c : Nat) : Nat := memRead x.c ((n + r / 32) * 0x1000 + r % 32 * 128 + 4 * c) 4
def tileOfElems (f : Nat → Nat → Nat) : Nat := packBits 32 ((List.range 1024).map fun i => f (i / 32) (i % 32))

/-- The write of c[n] whole (R208, R231). -/
def wholeTile (n : Nat) (f : Nat → Nat → Nat) : Nat × Nat × Nat := (n * 0x1000, 0x1000, tileOfElems f)

/-- Value (r, k) of an operand, its scale folded in. -/
def valueAt (o : Operand) (r k : Nat) : FV := (o.values.getD r []).getD k (.fin false 0 0)

/-- An accumulator after the terms x(i) · y(i) of one reduction (R203). -/
def accTerms (wide : Bool) (acc : Nat) (xs ys : List FV) : Nat :=
  let ps := (xs.zip ys).map fun p => (mulV p.1 p.2).1
  if wide then ps.foldl (fun a p => (rne32 (sumV false [fv a, p]).1).1) acc
  else (add32 acc (if (xs ++ ys).any isNanV then nan32 else (rne32 (sumV false ps).1).1)).1

/-- Element (r, q) of a multiply, from its old value (R206). -/
def multiplied (trans : Bool) (o w : Operand) (acc r q : Nat) : Nat :=
  accTerms (wideTy o.ty) acc ((List.range 32).map (valueAt o r))
    ((List.range 32).map fun i => if trans then valueAt w i q else valueAt w q i)

/-- Element (o, k) of the in-array accumulator after MOUT: block by block of 32 streamed rows (R207). -/
def outer (x g : Operand) (acc o k : Nat) : Nat :=
  (List.range ((x.rows + 31) / 32)).foldl (fun a b =>
    let rows := (List.range (min 32 (x.rows - 32 * b))).map fun i => 32 * b + i
    accTerms (wideTy x.ty) a (rows.map fun r => valueAt g r o) (rows.map fun r => valueAt x r k)) acc

/-! ## The Q-folds (R221 to R235) -/

/-- Elements of V and T, and of the staged v. -/
def vAt (f : QFold) (r c : Nat) : Nat := (f.v.getD (32 * r + c) 0).toNat
def tAt (f : QFold) (r c : Nat) : Nat := (f.t.getD (32 * r + c) 0).toNat
def stageAt (f : QFold) (i : Nat) : Nat := (f.stageV.getD i 0).toNat

/-- Dot over lo to hi - 1, and acc less the products up to n - 1: one rounding a step (R222, R231). -/
def dotOf (lo hi : Nat) (a b : Nat → Nat) : Nat :=
  (List.range (hi - lo)).foldl (fun acc i => (fma32 (a (lo + i)) (b (lo + i)) acc).1) 0
def lessOf (acc n : Nat) (a b : Nat → Nat) : Nat := (List.range n).foldl (fun acc i => (fms32 (a i) (b i) acc).1) acc

/-- Element `r` of Q · x, or of Qᵀ · x where `trans` is set (R231). -/
def applied (trans : Bool) (f : QFold) (x : Nat → Nat) (r : Nat) : Nat :=
  if f.dense then dotOf 0 32 (fun i => if trans then vAt f i r else vAt f r i) x
  else
    let w (i : Nat) : Nat := dotOf 0 32 (fun p => vAt f p i) x
    let y (i : Nat) : Nat := if trans then dotOf 0 (i + 1) (fun p => tAt f p i) w else dotOf i f.k (fun p => tAt f i p) w
    lessOf (x r) f.k (fun i => vAt f r i) y

/-- Element (r, c) of the explicit Q (R233). -/
def explicitQ (f : QFold) (r c : Nat) : Nat := if f.dense then vAt f r c else applied false f (fun i => if i = c then one32 else 0) r

/-- The reflector of a column y with pivot p (R229): β, τ, and v. -/
def reflectOf (p : Nat) (y : Nat → Nat) : Nat × Nat × (Nat → Nat) :=
  let low := (List.range (32 - p)).map (p + ·)
  let v (f : Nat → Nat) (i : Nat) : Nat := if i < p then 0 else if i = p then one32 else f i
  if low.any fun i => !finiteV (fv (y i)) then (nan32, nan32, v fun _ => nan32)
  else if low.all fun i => i == p || isZeroV (fv (y i)) then (y p, 0, v fun _ => 0)
  else
    let e := (low.map fun i => expOf (fv (y i))).foldl max (-150)
    let z (i : Nat) : Nat := (rne32 (scaleV (fv (y i)) (-e))).1
    let nrm := (sqrt32 (fma32 (z p) (z p) (dotOf (p + 1) 32 z z)).1).1
    let beta := if z p < 2 ^ 31 then neg32 nrm else nrm
    let d := (sub32 beta (z p)).1
    ((rne32 (scaleV (fv beta) e)).1, (div32 d beta).1, v fun i => (div32 (z i) (neg32 d)).1)

/-- The column that QHH works on (R228, R229), and what it writes into column j of c[n]. -/
def hhInput (f : QFold) (w : Nat) (x : Nat → Nat) : Nat → Nat := if cut w 16 1 = 1 then applied true f x else x
def hhWords (n w : Nat) (y : Nat → Nat) : List (Nat × Nat × Nat) :=
  let p := cut w 8 5
  (List.range 32).map fun i =>
    (n * 0x1000 + 128 * i + 4 * cut w 0 5, 4, if i < p then y i else if i = p then (reflectOf p y).1 else 0)

/-- Fold `g` is `f` with the reflector of `y` staged (R229). -/
structure Staged (f g : QFold) (p : Nat) (y : Nat → Nat) : Prop where
  stage : g.stageOk = true ∧ g.stageP = p ∧ g.stageTau = BitVec.ofNat 32 (reflectOf p y).2.1 ∧ g.stageV.length = 32 ∧
    ∀ i < 32, g.stageV.getD i 0 = BitVec.ofNat 32 ((reflectOf p y).2.2 i)
  same : g.v = f.v ∧ g.t = f.t ∧ g.k = f.k ∧ g.dense = f.dense ∧ g.napp = f.napp

/-- Fold `g` is `f` with its stage appended (R230). -/
structure Appended (f g : QFold) : Prop where
  compact : f.dense = false → f.k < 32 → g.k = f.k + 1 ∧ g.dense = false ∧
    ∀ r < 32, ∀ c < 32,
      g.v.getD (32 * r + c) 0 = (if c = f.k then f.stageV.getD r 0 else f.v.getD (32 * r + c) 0) ∧
      let w (i : Nat) : Nat := dotOf 0 32 (fun p => vAt f p i) (stageAt f)
      let z := dotOf r f.k (fun p => tAt f r p) w
      g.t.getD (32 * r + c) 0 =
        if c = f.k ∧ r < f.k then BitVec.ofNat 32 (rne32 (negV (mulV (fv f.stageTau.toNat) (fv z)).1)).1
        else if c = f.k ∧ r = f.k then f.stageTau else f.t.getD (32 * r + c) 0
  dense : (f.dense = true ∨ 32 ≤ f.k) → g.dense = true ∧ g.k = (if f.dense then f.k else 32) ∧
    (f.dense = false → ∀ i, g.t.getD i 0 = 0) ∧
    ∀ r < 32, ∀ c < 32,
      let q (c : Nat) : Nat := explicitQ f r c % 2 ^ 32
      let m := (mul32 f.stageTau.toNat (dotOf 0 32 q (stageAt f))).1
      g.v.getD (32 * r + c) 0 = BitVec.ofNat 32 (fms32 m (stageAt f c) (q c)).1
  count : g.napp = min (f.napp + 1) 65535 ∧ g.stageOk = false

/-- What qcnt shows of a fold (R224). -/
def countOf (f : QFold) : Nat := f.k + 256 * b2n f.dense + 512 * b2n f.stageOk + 65536 * f.napp

/-- The fold that QLOAD makes of two tiles (R232). -/
structure Loaded (v t : Nat → Nat → Nat) (g : QFold) : Prop where
  header : g.k = cut (t 31 0) 0 6 ∧ g.napp = cut (t 31 0) 16 16 ∧ g.dense = decide (cut (t 31 0) 8 1 = 1) ∧ g.stageOk = false
  elems : ∀ r < 32, ∀ c < 32, vAt g r c = (if g.dense = true ∨ c < g.k then v r c else 0) ∧
    tAt g r c = if g.dense = false ∧ r ≤ c ∧ c < g.k then t r c else 0

end Sys2Proof.Claims

/-- R203, R205 to R209: MLD loads a bank, MMA and MMAT add their products to the accumulator tiles, from the A-store or from the ring
latch, MOUT adds to the in-array accumulator, MDRAIN copies it out and MZERO clears it; each is an operation of the array with the
latency R209 gives. What an operation writes into the C-store at its completion is there then, and its tiles are full. When the rows of
a multiply are in the C-store behind its empty tiles is the model's choice (log 2). -/
def Obligations.MatrixArray : Prop :=
  (∀ (la : La) (n : CTile) (bank : Bool) (ea eb : EReg) (s : State) (t : Nat),
    let b : Fin 2 := if bank then 1 else 0
    let x := getTile s t
    let pe := x.pe.get b
    let va := re (me s) ea
    let vb := re (me s) eb
    (ArrayReady s t [eId ea] → descFault x .w va = none → (descOf va.toNat).rows = 32 →
      let o := readOperand x .w va
      ∃ s', exec (.mld la bank ea) s = .next s' ∧
        ArrayIssued s s' t la (if o.ty = 5 ∨ o.ty = 6 then 28 else 20) [] (fun o => o.fx = .none) ∧
        ((getTile s' t).pe.get b).loaded = true ∧ ((getTile s' t).pe.get b).data = o.data ∧
        ((getTile s' t).pe.get b).scales = o.scales ∧ ((getTile s' t).pe.get b).acc = pe.acc ∧ SameLWA s s' t ∧
        (getTile s' t).c = x.c) ∧
    (∀ r ∈ [(Instr.mma la n bank ea, false, false), (.mmat la n bank ea, true, false), (.mmaLatch la n bank, false, true),
        (.mmatLatch la n bank, true, true)],
      (r.2.2 = false → descFault x .a va = none) → pe.data.length = 1024 →
      (r.2.2 = true → x.latch.data.length = 32 * x.latch.rows) →
      let o := if r.2.2 then latchOperand x.latch else readOperand x .a va
      mmaReason n.val r.2.1 o pe = none → ArrayReady s t ((if r.2.2 then ⟨.latch, 0⟩ else eId ea) :: accTiles n o.rows) →
        ∃ s', exec r.1 s = .next s' ∧
          ArrayIssued s s' t la (mulLatency o (bankOperand pe)) (accTiles n o.rows) (fun _ => True) ∧ SameLWA s s' t ∧
          (x.poison = [] → (∀ i < o.rows, ∀ q < 32, accAt (getTile s' t) n.val i q =
            multiplied r.2.1 o (bankOperand pe) (accAt x n.val i q) i q % 2 ^ 32) ∧
            ∀ a, (a < n.val * 0x1000 ∨ n.val * 0x1000 + 128 * o.rows ≤ a) → memRead (getTile s' t).c a 1 = memRead x.c a 1)) ∧
    (ArrayReady s t [eId ea, eId eb] → descFault x .a va = none → descFault x .a vb = none →
      let ox := readOperand x .a va
      let og := readOperand x .a vb
      moutReason ox og = none →
        ∃ s', exec (.mout la bank eb ea) s = .next s' ∧ ArrayIssued s s' t la (mulLatency ox og) [] (fun _ => True) ∧
          SameLWA s s' t ∧ (getTile s' t).c = x.c ∧ ((getTile s' t).pe.get b).data = pe.data ∧
          ∀ o < 32, ∀ k < 32, ((getTile s' t).pe.get b).acc.getD (32 * o + k) 0 =
            BitVec.ofNat 32 (outer ox og (pe.acc.getD (32 * o + k) 0).toNat o k)) ∧
    (ArrayReady s t [cId n] →
      (∃ s', exec (.mdrain la n bank) s = .next s' ∧
        ArrayIssued s s' t la 20 [cId n] (fun o => o.fx = .words [wholeTile n.val fun r c => (pe.acc.getD (32 * r + c) 0).toNat]) ∧
        SameLWA s s' t ∧ ((getTile s' t).pe.get b).acc = pe.acc ∧ (getTile s' t).c = x.c) ∧
      ∃ s', exec (.mzero la n bank) s = .next s' ∧
        ArrayIssued s s' t la 8 [cId n] (fun o => ∃ v, o.fx = .words [(n.val * 0x1000, 0x1000, v)] ∧ v = 0) ∧ SameLWA s s' t ∧
        (∀ i, ((getTile s' t).pe.get b).acc.getD i 0 = 0) ∧ (getTile s' t).c = x.c)) ∧
  ∀ (s : State) (t i a n v : Nat) (k : Fin 10) (o : LongOp), s.ev = .op (.tile t k) i → (getHart s (.tile t k)).out[i]? = some o →
    o.await = .time → o.due ≤ s.cycle → o.win = [] → o.fx = .words [(a, n, v)] → (∀ e, (getHart s (.tile t k)).status ≠ .parked (.fence e)) →
      ∃ s', exec .longOpComplete s = .next s' ∧ memRead (getTile s' t).c a n = v % 256 ^ n ∧ OnlyStoreBytes s s' t .c a n ∧
        ∀ w ∈ o.wbs, (∃ c : CTile, w.reg = cId c) → regFull s' (.tile t k) w.reg = true

/-- R222 to R235: the Q-fold instructions are operations of the array with the latency of R234; QINIT clears its fold, QHH and QGEN
form a reflector and keep or append it, QAPP appends the one that is kept, QAPL, QAPLT, QAPR and QAPRT apply the fold to a tile, QDENSE
writes its explicit Q, QSAVE writes the fold into two tiles and QLOAD reads it back; qcnt shows the fold at completion. -/
def Obligations.QFolds : Prop :=
  ∀ (la : La) (n : CTile) (q : QReg) (ea : EReg) (s : State) (t : Nat),
    let x := getTile s t
    let f := x.q.get q
    let w := re (me s) ea
    let v := w.toNat
    let counts (s' : State) (o : LongOp) : Prop := o.qcnt = [(q.val, countOf ((getTile s' t).q.get q))]
    let house := if cut v 16 1 = 1 then 48 + 4 * f.k else 24 + 2 * f.k
    let append := 24 + 2 * f.k + if f.dense = false ∧ f.k = 32 then 112 else 0
    let y := hhInput f v fun r => accAt x n.val r (cut v 0 5)
    f.k ≤ 32 →
    (ArrayReady s t [qId q] → ∃ s', exec (.qinit la q) s = .next s' ∧ ArrayIssued s s' t la 8 [qId q] (counts s') ∧
      (let g := (getTile s' t).q.get q
       g.k = 0 ∧ g.dense = false ∧ g.stageOk = false ∧ g.napp = 0 ∧ (∀ i, g.v.getD i 0 = 0) ∧ ∀ i, g.t.getD i 0 = 0) ∧
      (getTile s' t).c = x.c ∧ SameLWA s s' t) ∧
    (ArrayReady s t [eId ea, qId q, cId n] → selFault f w = none → x.poison = [] →
      (∃ s', exec (.qhh la n q ea) s = .next s' ∧
        ArrayIssued s s' t la house [qId q, cId n] (fun o => counts s' o ∧ o.fx = .words (hhWords n.val v y)) ∧
        Staged f ((getTile s' t).q.get q) (cut v 8 5) y ∧ (getTile s' t).c = x.c ∧ SameLWA s s' t) ∧
      ∃ s' g, exec (.qgen la n q ea) s = .next s' ∧
        ArrayIssued s s' t la (house + append) [qId q, cId n] (fun o => counts s' o ∧ o.fx = .words (hhWords n.val v y)) ∧
        Staged f g (cut v 8 5) y ∧ Appended g ((getTile s' t).q.get q) ∧ (getTile s' t).c = x.c ∧ SameLWA s s' t) ∧
    (ArrayReady s t [qId q] → f.stageOk = true → f.stageV.length = 32 → ∃ s', exec (.qapp la q) s = .next s' ∧
      ArrayIssued s s' t la append [qId q] (counts s') ∧ Appended f ((getTile s' t).q.get q) ∧
      (getTile s' t).c = x.c ∧ SameLWA s s' t) ∧
    (let col (c : Nat) : Nat → Nat := fun r => accAt x n.val r c
     let row (r : Nat) : Nat → Nat := fun c => accAt x n.val r c
     ∀ i ∈ [(Instr.qapl la n q, fun r c => applied false f (col c) r), (.qaplt la n q, fun r c => applied true f (col c) r),
        (.qapr la n q, fun r c => applied true f (row r) c), (.qaprt la n q, fun r c => applied false f (row r) c),
        (.qdense la n q, explicitQ f)],
      ArrayReady s t [qId q, cId n] → x.poison = [] →
        ∃ s', exec i.1 s = .next s' ∧
          ArrayIssued s s' t la (if f.dense then 72 else 40 + 3 * f.k) [cId n] (fun o => o.fx = .words [wholeTile n.val i.2]) ∧
          (getTile s' t).q.get q = f ∧ (getTile s' t).c = x.c ∧ SameLWA s s' t) ∧
    (n.val < 15 → ArrayReady s t [qId q, cId n, ⟨.c, n.val + 1⟩] →
      (∃ s', exec (.qsave la n q) s = .next s' ∧
        ArrayIssued s s' t la 24 [cId n, ⟨.c, n.val + 1⟩] (fun o => o.fx = .words [wholeTile n.val (vAt f),
          wholeTile (n.val + 1) fun r c =>
            if r = 31 ∧ c = 0 then f.k + 256 * b2n f.dense + 65536 * f.napp else if c < r then 0 else tAt f r c]) ∧
        (getTile s' t).q.get q = f ∧ (getTile s' t).c = x.c ∧ SameLWA s s' t) ∧
      (headerBad (accAt x (n.val + 1) 31 0) = false → x.poison = [] → ∃ s', exec (.qload la n q) s = .next s' ∧
        ArrayIssued s s' t la 24 [qId q] (counts s') ∧ Loaded (accAt x n.val) (accAt x (n.val + 1)) ((getTile s' t).q.get q) ∧
        (getTile s' t).c = x.c ∧ SameLWA s s' t))

namespace Sys2Proof.Claims

open Sys2Proof.Machine

/-! ## Translations at hand, literals, windows, the ring, copies (R42, R73, R137 to R141, R183 to R190, R214 to R218, R277) -/

/-- TLB `a` of die `d` holds a translation of `va` in context `c` that permits the access and needs no table write: it goes to
physical address `pa` (R277, R281 to R284). -/
def HeldIn (s : State) (d : Fin 4) (a : Holder) (c va : Nat) (need : Need) (pa : Nat) : Prop :=
  ∃ x e, alGet s.ctxs c = some x ∧ canonical x.tfd va = true ∧ tlbFind (s.dies.get d) a c va = some e ∧
    permits x.tfd e.pte need = true ∧ (dirties need = true → bitAt e.pte x.tfd.dpos = true) ∧
    pa = e.frame * 4096 + va % 2 ^ (12 + 9 * e.lvl)

/-- The nearest TLB of a hart (R283). -/
def nearest (h : HartId) : Holder :=
  match h with
  | .tile t _ => .tile t
  | .mender _ _ => .die

/-- The translation is at hand for the executing hart, and no refusal of its page waits for it (R284). -/
def AtHand (s : State) (va : Nat) (need : Need) (pa : Nat) : Prop :=
  HeldIn s (hartDie s.cur) (nearest s.cur) (hartCtx s s.cur) va need pa ∧ (me s).refused ≠ some (va / 4096)

/-- The translation is at hand for a unit of die `d`, to which no page has been refused. -/
def HeldAt (s : State) (d : Fin 4) (c va : Nat) (need : Need) (pa : Nat) : Prop :=
  HeldIn s d .die c va need pa ∧ (s.dies.get d).unitRef = []

/-- The translation is at hand for copy `c` of tile `t`. -/
def CopyHand (s : State) (t : Nat) (c : Copy) (va : Nat) (need : Need) (pa : Nat) : Prop :=
  HeldIn s (dieOf t) (.tile t) (getTile s t).ctx va need pa ∧ c.refused ≠ some (va / 4096)

/-- No die has built a translation from the line of `pa` (R285). -/
def NoTable (s : State) (pa : Nat) : Prop := ∀ d : Fin 4, pa / 64 ∉ (s.dies.get d).dir

/-- Physical memory has no error (R296). -/
def Sound (s : State) : Prop := s.gPoison = [] ∧ s.gLatent = []

/-- The address of a literal (R73). -/
def literalAt (pc : Word) (imm : Imm15) : Word := i64 ((pc.toNat / 8 * 8 : Nat) + imm.toInt * 8)

/-- The register that a copy or a collective takes its tag from. -/
def low (n : GLow) : GReg := Fin.castLE (by omega) n

/-- What LDH reads (R139): the distance, the lag and the index that its word and its immediate name. -/
def ldhDx (v : Nat) : Int := (BitVec.ofNat 8 (cut v 16 8)).toInt
def ldhDy (v : Nat) : Int := (BitVec.ofNat 8 (cut v 24 8)).toInt
def ldhDist (v : Nat) : Nat := (ldhDx v).natAbs + (ldhDy v).natAbs
def windowIndex (v : Nat) (imm : Imm8) : Int := (cut v 0 9 : Int) + imm.toInt

/-- The version that a tile `t` sees of tile `u` at `back` steps ago: the image before there were so many steps (R137, R139). -/
def seen (t u : Tile) (back : Nat) : WinVer :=
  if t.wr = false ∧ t.step.toNat < back then u.winImg
  else (u.hist[(u.step - (t.step - BitVec.ofNat 32 back)).toNat]?).getD u.winImg

/-- The latency of LDH (R141). -/
def ldhCycles (t u dist : Nat) : Nat :=
  if dist = 0 then 6
  else 12 + 2 * dist + 16 * (b2n (t % 72 / 36 != u % 72 / 36) + b2n (t / 72 / 32 != u / 72 / 32))

/-- Fields of the shape word of a copy (R184): length, rows and the strides in bytes. -/
def shapeLen (h : Nat) : Nat := cut h 0 16
def shapeRows (h : Nat) : Nat := cut h 16 16
def shapeSrc (h : Nat) : Int := (BitVec.ofNat 16 (cut h 32 16)).toInt * 4
def shapeDst (h : Nat) : Int := (BitVec.ofNat 16 (cut h 48 16)).toInt * 4

/-- The store of a local endpoint (R183), its first byte, and byte 0 of row `k`. -/
def endStore (v : Nat) : Store :=
  match cut v 18 2 with
  | 0 => .l
  | 1 => .w
  | 2 => .a
  | _ => .c
def rowAt (v : Nat) (stride : Int) (k : Nat) : Int := (cut v 0 18 : Int) + k * stride

/-- A local endpoint that is no register passes the checks of R186; `far` says that it may name another tile. -/
def LocalFits (s : State) (far : Bool) (v : Nat) (stride : Int) (rows len : Nat) : Prop :=
  v < 2 ^ 63 ∧ cut v 36 27 = 0 ∧ cut v 0 18 % 4 = 0 ∧ 0 ≤ rowAt v stride 0 ∧ 0 ≤ rowAt v stride (rows - 1) ∧
    rowAt v stride 0 + len ≤ (endStore v).size ∧ rowAt v stride (rows - 1) + len ≤ (endStore v).size ∧
    if far then cut v 20 8 ≤ 71 ∧ cut v 28 8 ≤ 63 ∧ inCtxParts s (hartCtx s s.cur) (cut v 28 8 * 72 + cut v 20 8) = true
    else cut v 20 16 = 0

/-- A global endpoint passes the checks of R186. -/
def GlobalFits (s : State) (v : Nat) : Prop :=
  v % 4 = 0 ∧ ∃ x, alGet s.ctxs (hartCtx s s.cur) = some x ∧ canonical x.tfd v = true

/-- A register as destination passes the checks of R84 and R186. -/
def RegisterFits (s : State) (t v rows len : Nat) : Prop :=
  2 ^ 63 ≤ v ∧ cut v 29 34 = 0 ∧ len = 8 ∧ rows = 1 ∧
    ∃ r u k, putrTarget (v % 2 ^ 29) = some (r, u, k) ∧ k.val < 7 ∧ (getHart s (.tile u k)).status ≠ .free ∧
      (partOf s t).isSome = true ∧ partOf s u = partOf s t

/-- The four directions of CPY, with what is local. -/
def copyRows (la : La) (n : GLow) (ec eb ea : EReg) : List (Instr × CopyDir × Bool × Bool) :=
  [ (.cpyLm la n ec eb ea, .lm, true, true), (.cpyGl la n ec eb ea, .gl, false, true),
    (.cpyLg la n ec eb ea, .lg, true, false), (.cpyGg la n ec eb ea, .gg, false, false) ]

/-- A copy as it is handed to the porter. -/
def requestedCopy (s : State) (h : Hart) (dir : CopyDir) (src dst : Word) (sh : Nat) (tag : Word) : Copy where
  id := s.ids + 1
  hart := s.cur
  pc := h.pc
  sup := h.sup
  dir := dir
  src := src
  dst := dst
  len := shapeLen sh
  rows := shapeRows sh
  sst := shapeSrc sh
  dstS := shapeDst sh
  tag := tag
  st := .requested
  done := 0
  poison := false
  cancel := false
  fault := false
  page := none
  refused := none
  pendAt := 0
  orphan := false

/-- The status that a copy posts (R187). -/
def copyWord (c : Copy) : Word :=
  w64 (c.done % 2 ^ 32 + 2 ^ 32 * b2n c.poison + 2 ^ 33 * b2n c.cancel + 2 ^ 34 * b2n c.fault)

/-- A copy after it has moved a row. -/
def rowMoved (c : Copy) : Copy :=
  { c with done := c.done + 1, refused := none, st := if c.rows ≤ c.done + 1 then .posting else c.st }

/-- The own copies of the executing hart that its porter has accepted. -/
def acceptedCopies (s : State) (t : Nat) : List Copy :=
  (getTile s t).copies.filter fun c => c.hart == s.cur && !c.orphan && c.st != .requested

/-- A publish row with word `i` written (R140, R141). -/
def publish (p : WinVer) (i : Nat) (w : W32) : WinVer := ⟨p.words.set i w, p.bad.filter (· != i), p.flaws.filter (·.1 != i)⟩

/-- The hops between two tiles, X and Y together, and the die edges between them (R10, R12). -/
def hopsOf (t u : Nat) : Nat :=
  let d (a b : Nat) : Nat := (a - b) + (b - a)
  d (t % 72) (u % 72) + d (t / 72) (u / 72)
def edgesOf (t u : Nat) : Nat := b2n (t % 72 / 36 != u % 72 / 36) + b2n (t / 72 / 32 != u / 72 / 32)

/-- What a long operation is after its issue, an operation that an event of its own ends: PUTR, CPY, COLL, a sequencer's BROT. -/
def awaiting (h : Hart) (la : Nat) (a : Await) : LongOp := { opAt h la 0 [] 0 false .none with await := a }

/-- Operation `i` of hart `h` is to complete now. -/
structure OpDue (s : State) (h : HartId) (i : Nat) (o : LongOp) : Prop where
  ev : s.ev = .op h i
  op : (getHart s h).out[i]? = some o
  time : o.await = .time ∧ o.due ≤ s.cycle
  going : ∀ n, (getHart s h).status ≠ .parked (.fence n)

end Sys2Proof.Claims

/-- R42, R73: SETX and GETX move between g- and e-registers; LDK delivers the doubleword at its literal's address. -/
def Obligations.RegisterMoves : Prop :=
  ∀ (e : EReg) (a d : GReg) (imm : Imm15) (s : State),
    (Issues s threadOrMender [gId a] [eId e] →
      exec (.setx e a) s = .next (finished s [gId a] 4 fun h => we h e (rg (me s) a))) ∧
    (Issues s threadOrMender [eId e] [gId d] →
      exec (.getx d e) s = .next (finished s [eId e] 4 fun h => wg h d (re (me s) e))) ∧
    (∀ pa, Issues s threadOrMender [] [gId d] → AtHand s (literalAt (me s).pc imm).toNat .read pa → Sound s →
      (∀ t, tileOf? s.cur = some t → alGet (getTile s t).icache (pa / 64) = none) → Memory.wf s.mem = true → s.noise = [] →
        ∃ s', exec (.ldk d imm) s = .next s' ∧ (getHart s' s.cur).pc = (me s).pc + 4 ∧ s'.mem = s.mem ∧
          ∀ r, rg (getHart s' s.cur) r = if r = d ∧ d ≠ 0 then w64 (memRead s.mem pa 8) else rg (me s) r)

/-- R137 to R141: LDH delivers the word that its neighbour published for the version it names, and in the prelude that of the window
image; PUB writes its word into the publish row when it completes, behind the PUBs of its tile that come before it, and in an idle tile
writes nothing. -/
def Obligations.Windows : Prop :=
  (∀ (la : La) (imm : Imm8) (nat : Bool) (a d : GReg) (s : State) (t : Nat) (i : Fin 10), Here s t i →
    (me s).out.length < 4 →
    let v := (rg (me s) a).toNat
    let x := windowIndex v imm
    0 ≤ x → x < (getTile s t).winN →
    (∀ u : Nat, Issues s threadOnly [gId a] [gId d] → v < 2 ^ 37 → cut v 9 7 = 0 → ldhDist v ≤ 15 →
      2 * ldhDist v + cut v 32 5 ≤ 31 → u < 4608 → (u % 72 : Nat) = (t % 72 : Nat) + ldhDx v → (u / 72 : Nat) = (t / 72 : Nat) + ldhDy v →
      (getTile s u).grp = (getTile s t).grp → s.noise = [] →
      let back := ldhDist v + cut v 32 5
      let w := seen (getTile s t) (getTile s u) back
      let z := w.words.getD x.toNat 0
      x.toNat ∉ w.bad → (∀ f ∈ w.flaws, f.1 ≠ x.toNat) →
        exec (.ldh la imm nat a d) s = .next (modHart (readFilled s [gId a]) s.cur (hartIssued s 4
          { opAt (me s) la.val (s.cycle + ldhCycles t u (ldhDist v)) (gBack d (if nat then w64 z.toNat else i64 z.toInt)) 0 false .none with
            pre := (getTile s t).wr = false ∧ (getTile s t).step.toNat < back }))) ∧
    (Issues s threadOnly [gId a, gId d] [] → v < 2 ^ 9 →
      exec (.pub la imm a d) s = .next (modHart (readFilled s [gId a, gId d]) s.cur (hartIssued s 4
        { opAt (me s) la.val (s.cycle + 6) [] 0 false .none with win := [(x.toNat, (rg (me s) d).setWidth 32)] })))) ∧
  ∀ (s : State) (t i x : Nat) (k : Fin 10) (w : W32) (o : LongOp), OpDue s (.tile t k) i o → o.win = [(x, w)] → o.wbs = [] →
    o.fx = .none → o.qcnt = [] →
    (∀ (j : Fin 10) (q : LongOp), q ∈ (getHart s (.tile t j)).out → q.win ≠ [] → o.due < q.due ∨ (o.due = q.due ∧ k.val ≤ j.val)) →
      ∃ s', exec .longOpComplete s = .next s' ∧
        (getTile s' t).pub = (if (getTile s t).idle then (getTile s t).pub else publish (getTile s t).pub x w) ∧
        (getTile s' t).hist = (getTile s t).hist ∧ (getTile s' t).winImg = (getTile s t).winImg ∧ s'.mem = s.mem ∧
        (getHart s' (.tile t k)).g = (getHart s (.tile t k)).g ∧ (getHart s' (.tile t k)).out = (getHart s (.tile t k)).out.eraseIdx i

/-- R209, R214 to R218: RINGDEF names the successor; LATCH fills the ring latch with an operand; BROT asks the successor, a thread waiting
until its copy begins and a sequencer going on in its shadow (both as the model reads R218 and R219: log 30, DEDUCED); with no ring it traps with 0x40, reason 6. A copy begins alone, or together
with the other BROTs of a closed ring; the successor's latch is *filling* until the copy ends, and then holds the block; that of a BROT
which moved alone is *empty* then. -/
def Obligations.Ring : Prop :=
  (∀ (la : La) (ea : EReg) (s : State) (t : Nat), ArrayReady s t [eId ea] →
    let v := (re (me s) ea).toNat
    let u := cut v 8 8 * 72 + cut v 0 8
    v < 2 ^ 16 → cut v 0 8 ≤ 71 → cut v 8 8 ≤ 63 → u ≠ t → (getTile s u).grp = (getTile s t).grp →
      ∃ s', exec (.ringdef la ea) s = .next s' ∧ ArrayIssued s s' t la 8 [] (fun o => o.fx = .none) ∧ (getTile s' t).ring = some u ∧
        (getTile s' t).latch = (getTile s t).latch) ∧
  (∀ (la : La) (ea : EReg) (s : State) (t : Nat), ArrayReady s t [eId ea] →
    let x := getTile s t
    let va := re (me s) ea
    descFault x .a va = none → latchReason (descOf va.toNat) x.latch = none →
      let o := readOperand x .a va
      ∃ s', exec (.latch la ea) s = .next s' ∧ ArrayIssued s s' t la 24 [⟨.latch, 0⟩] (fun o => o.fx = .none) ∧
        (getTile s' t).latch = { x.latch with
          st := .filling, rows := o.rows, ty := o.ty, nfd := o.nfd, smode := o.smode, axis := o.axis, pack := (descOf va.toNat).pack,
          data := o.data, scales := o.scales, bad := [], sbad := [], flaws := [] } ∧ SameLWA s s' t) ∧
  (∀ (la : La) (s : State) (t : Nat) (i : Fin 10), s.cur = .tile t i → (me s).out.length < 4 →
    ((getTile s t).ring = none → exec (.brot la) s = .next (trapOn s s.cur 0x40 6)) ∧
    ∀ u : Nat, (getTile s t).ring = some u → (getTile s t).latch.st = .full →
      flawAt (me s).flaws (.reg ⟨.latch, 0⟩) = none →
      let s1 := readFilled s [⟨.latch, 0⟩]
      let s2 := setTile s1 u { getTile s1 u with ringReq := (getTile s1 u).ringReq ++ [(s.cycle + hopsOf t u, t, i)] }
      exec (.brot la) s = .next (if kindOf s.cur = .thread then parkHart s2 s.cur (.ring ((me s).pc + 4) la.val)
        else modHart s2 s.cur (hartIssued s 4 (awaiting (me s) la.val .move)))) ∧
  (∀ (s : State) (t u at_ : Nat) (i : Fin 10), s.ev = .tile t → ringCycle s t s.tiles.length t = none → ringAlone s t = true →
    ringAsks s t = some (u, at_, t, i) → u ≠ t → s.noise = [] →
      let h := getHart s (.tile t i)
      let due := s.cycle + 64 + 2 * hopsOf t u + 32 * edgesOf t u
      let fx : OpFx := .ring u { (getTile s t).latch with st := .full } true
      ∃ s', exec .ringMove s = .next s' ∧ (getTile s' u).latch.st = .filling ∧
        (getTile s' u).ringReq = (getTile s u).ringReq.erase (at_, t, i) ∧ (getTile s' t).latch = (getTile s t).latch ∧
        (∀ next la, h.status = .parked (.ring next la) →
          (getHart s' (.tile t i)).pc = next ∧
            (getHart s' (.tile t i)).out.getLast? = some { opAt h la due [] 0 false fx with inl := h.ss || la == 0 }) ∧
        ((∀ next la, h.status ≠ .parked (.ring next la)) → ∀ o ∈ h.out, o.await = .move → (∀ p ∈ h.out, p.await = .move → p = o) →
          { o with await := .time, due := due, fx := fx } ∈ (getHart s' (.tile t i)).out)) ∧
  (∀ (s : State) (t : Nat) (l : List Nat), s.ev = .tile t → ringCycle s t s.tiles.length t = some l → s.noise = [] →
    ∃ s', exec .ringMove s = .next s' ∧ ∀ v ∈ l, ∀ u at_ i, ringAsks s v = some (u, at_, v, i) →
      (getTile s' u).latch.st = .filling ∧
      (∀ next la, (getHart s (.tile v i)).status = .parked (.ring next la) →
        ∃ o ∈ (getHart s' (.tile v i)).out, o.fx = .ring u { (getTile s v).latch with st := .full } false ∧
          o.due = s.cycle + 64 + 2 * hopsOf v u + 32 * edgesOf v u)) ∧
  ∀ (s : State) (t u i : Nat) (k : Fin 10) (o : LongOp) (b : Latch) (alone : Bool), OpDue s (.tile t k) i o → o.fx = .ring u b alone →
    o.win = [] → o.wbs = [] → u ≠ t →
      ∃ s', exec .longOpComplete s = .next s' ∧ (getTile s' u).latch = b ∧
        (if alone then (getTile s' t).latch.st = .empty else (getTile s' t).latch = (getTile s t).latch)

/-- R183 to R190: CPY hands its copy to the porter and is outstanding until it is accepted; CPYQ counts the accepted copies, CPYX
ends those with its tag. A copy moves row by row, posts its tag and its status, and is gone. How long one counts against the porter's
buffer is the model's choice (log 43). -/
def Obligations.Copies : Prop :=
  (∀ (la : La) (n : GLow) (ec eb ea : EReg), ∀ r ∈ copyRows la n ec eb ea, ∀ (s : State) (t : Nat) (i : Fin 10), Here s t i →
    let srcs := [eId ea, eId eb, eId ec, gId (low n)]
    Issues s threadOnly srcs [] → (me s).out.length < 4 →
    let sh := (re (me s) ec).toNat
    let src := (re (me s) ea).toNat
    let dst := (re (me s) eb).toNat
    shapeLen sh ≠ 0 → shapeLen sh % 4 = 0 → shapeRows sh ≠ 0 →
    (if r.2.2.1 then LocalFits s false src (shapeSrc sh) (shapeRows sh) (shapeLen sh) else GlobalFits s src) →
    (if r.2.2.2 then LocalFits s (r.2.1 == .lm) dst (shapeDst sh) (shapeRows sh) (shapeLen sh) ∨
        RegisterFits s t dst (shapeRows sh) (shapeLen sh)
      else GlobalFits s dst) →
      let s1 := readFilled s srcs
      let c := requestedCopy s (me s) r.2.1 (re (me s) ea) (re (me s) eb) sh (rg (me s) (low n))
      exec r.1 s = .next (modHart (setTile { s1 with ids := s.ids + 1 } t
          { getTile s1 t with copies := (getTile s1 t).copies ++ [c] }) s.cur
        (hartIssued s 4 (awaiting (me s) la.val (.accept (s.ids + 1)))))) ∧
  (∀ (n : GLow) (s : State) (t : Nat) (i : Fin 10), Here s t i →
    exec .cpyq s = .next (finished s [] 4 fun h =>
      { h with cpyq := w64 ((acceptedCopies s t).length % 65536 +
                65536 * ((acceptedCopies s t).filter (·.st == .pending)).length) }) ∧
    (Issues s threadOnly [gId (low n)] [] →
      exec (.cpyx n) s = .next (finishedTile s [gId (low n)] 4 t (fun x => { x with copies := x.copies.map fun c =>
        if (c.hart == s.cur && !c.orphan && c.tag == rg (me s) (low n) && (c.st == .moving || c.st == .pending)) then
          { c with st := .posting, cancel := true, page := none } else c }) id))) ∧
  (∀ (s : State) (t id : Nat) (c : Copy), s.ev = .tileItem t id → findCopy s t id = some c →
    (copyAcceptable s t id = true →
      ∃ s', exec .copyAccept s = .next s' ∧
        (getTile s' t).copies = (getTile s t).copies.filter (·.id != id) ++ [{ c with st := .moving }] ∧
        (getHart s' c.hart).out = (getHart s c.hart).out.filter fun o => o.await != .accept id) ∧
    (copyResumable s t id = true →
      ∃ s', exec .copyResume s = .next s' ∧ findCopy s' t id = some { c with st := .moving }) ∧
    (c.st = .posting → tileRuns s t = true → (∀ u : Nat × Tile, u ∈ s.tiles → ∀ f ∈ u.2.fills, f.id ≠ id) →
      (getTile s t).mbox.length < 32 →
        ∃ s', exec .copyPost s = .next s' ∧ findCopy s' t id = none ∧
          (getTile s' t).mbox = (getTile s t).mbox ++ [⟨c.tag, copyWord c, true, none⟩])) ∧
  (∀ (s : State) (t id : Nat) (c : Copy), s.ev = .tileItem t id → (movable (getTile s t)).find? (·.id == id) = some c →
    findCopy s t id = some c → tileRuns s t = true → c.len % 4 = 0 → s.noise = [] →
    let src := c.src.toNat
    let dst := c.dst.toNat
    let u := if c.dir = .lm then cut dst 28 8 * 72 + cut dst 20 8 else t
    (∀ a b : Nat, (c.dir = .lm ∨ c.dir = .lg) → rowAt src c.sst c.done = a → a < 2 ^ 64 → b < 2 ^ 64 →
      (endStore src = .l → lSleeps s t = false) → (getTile s t).poison = [] → (getTile s t).flaws = [] → Memory.wf (storeMem (getTile s t) (endStore src)) = true →
      (c.dir = .lm → dst < 2 ^ 63 → rowAt dst c.dstS c.done = b → tileTarget s (getTile s t).ctx u 0 = .ok u 0 →
        (endStore dst = .l → lSleeps s u = false) →
        ∃ s', exec .copyBurst s = .next s' ∧ findCopy s' t id = some (rowMoved c) ∧
          memRead (storeMem (getTile s' u) (endStore dst)) b c.len = memRead (storeMem (getTile s t) (endStore src)) a c.len ∧
          s'.mem = s.mem) ∧
      (c.dir = .lm → dst < 2 ^ 63 → tileTarget s (getTile s t).ctx u 0 = .bad →
        ∃ s', exec .copyBurst s = .next s' ∧ findCopy s' t id = some { c with st := .posting, fault := true, refused := none } ∧
          s'.mem = s.mem ∧ ∀ v, storeMem (getTile s' v) = storeMem (getTile s v)) ∧
      (c.dir = .lg → 0 < c.len → (dst : Int) + c.done * c.dstS = b → b / 64 = (b + c.len - 1) / 64 →
        ∀ pa, CopyHand s t c b .write pa →
          ∃ s', exec .copyBurst s = .next s' ∧ findCopy s' t id = some (rowMoved c) ∧
            memRead s'.mem pa c.len = memRead (storeMem (getTile s t) (endStore src)) a c.len)) ∧
    (∀ a b pa : Nat, Sound s → Memory.wf s.mem = true → 0 < c.len → b < 2 ^ 64 → (src : Int) + c.done * c.sst = a → a < 2 ^ 64 →
      a / 64 = (a + c.len - 1) / 64 → CopyHand s t c a .read pa →
      (c.dir = .gl → dst < 2 ^ 63 → rowAt dst c.dstS c.done = b → (endStore dst = .l → lSleeps s t = false) →
        ∃ s', exec .copyBurst s = .next s' ∧ findCopy s' t id = some (rowMoved c) ∧
          memRead (storeMem (getTile s' t) (endStore dst)) b c.len = memRead s.mem pa c.len) ∧
      (c.dir = .gg → (dst : Int) + c.done * c.dstS = b → b / 64 = (b + c.len - 1) / 64 →
        ∀ pb, CopyHand s t c b .write pb →
          ∃ s', exec .copyBurst s = .next s' ∧ findCopy s' t id = some (rowMoved c) ∧
            memRead s'.mem pb c.len = memRead s.mem pa c.len)))

namespace Sys2Proof.Claims

open Sys2Proof.Machine

/-! ## Gradient queues and fused updates (R303 to R312) -/

/-- The home of a queue descriptor holds `l` at `pa`, where the issuer's handle leads, and it passes the checks of R308. -/
structure QueueAt (s : State) (h : Word) (pa l : Nat) : Prop where
  handle : cut h.toNat 3 3 = 0
  hand : AtHand s (h.toNat / 64 * 64) .readWrite pa
  sound : Sound s
  value : l = memRead s.mem pa 64
  wf : Memory.wf s.mem = true
  reserved : cut l 15 1 = 0 ∧ cut l 22 10 = 0 ∧ cut l 45 19 = 0 ∧ cut l 208 16 = 0 ∧ cut l 241 15 = 0 ∧ cut l 384 64 = 0
  type : cut l 0 3 < 6 ∧ h.toNat % 8 = cut l 0 3
  cap : 1 ≤ cut l 16 6 ∧ cut l 16 6 ≤ 56
  ring : cut l 224 17 % 8 = 0 ∧ cut l 224 17 + 72 * cut l 16 6 ≤ if cut l 3 1 = 1 then 0x2_0000 else 4096
  tile : cut l 3 1 = 1 → cut l 32 13 ≤ 4607
  enabled : cut l 4 1 = 1
  apart : Alone s none pa 64 (w64 (h.toNat / 64 * 64))
  /-- no agent waits at a queue, the receiver's tile is there and awake, its memory is sound, and nothing befalls a packet on its way -/
  calm : s.gqWait = [] ∧ s.noise = [] ∧ (cut l 3 1 = 0 → (getMender s (cut l 8 7)).poison = []) ∧
    (cut l 3 1 = 1 → switchedOut s (hartCtx s s.cur) (cut l 32 13) = false ∧ lSleeps s (cut l 32 13) = false ∧
      (getTile s (cut l 32 13)).poison = [] ∧ (getTile s (cut l 32 13)).flaws = [])

/-- The executing hart is the queue's receiver (R308). -/
def Receives (s : State) (l : Nat) : Prop :=
  match s.cur with
  | .tile t i => cut l 3 1 = 1 ∧ t = cut l 32 13 ∧ i.val < 8
  | .mender m i => cut l 3 1 = 0 ∧ m = cut l 8 7 ∧ i.val = cut l 5 3

/-- The entry at ring place `k`: payload and key (R305). -/
def entryAt (s : State) (l k : Nat) : Nat × Nat :=
  let a := cut l 224 17 + 72 * k
  let m := if cut l 3 1 = 1 then (getTile s (cut l 32 13)).l else (getMender s (cut l 8 7)).buf
  (memRead m a 64, memRead m (a + 64) 8)

/-- Descriptor `l'` is `l` with new credit, occupancy and counts (R305). -/
def DescNow (l l' cred occ pushes pops : Nat) : Prop :=
  cut l' 192 8 = cred % 2 ^ 8 ∧ cut l' 200 8 = occ % 2 ^ 8 ∧ cut l' 256 64 = pushes % 2 ^ 64 ∧ cut l' 320 64 = pops % 2 ^ 64 ∧
    cut l' 0 192 = cut l 0 192 ∧ cut l' 208 48 = cut l 208 48 ∧ cut l' 384 128 = cut l 384 128

/-- Element `i` of an entry of type 0 to 4 as FP32, with its flags: decoded, scaled by the key's scale, rounded once (R306). -/
def gradient (ty payload key i : Nat) : Nat × BitVec 5 :=
  let f := match ty with
    | 0 => fp32
    | 1 => bf16
    | 2 => fp16
    | 3 => e4m3
    | _ => e5m2
  if cut key 48 8 = 255 then (nan32, 0)
  else rne32 (scaleV (decodeF f (payload / 2 ^ (f.width * i) % 2 ^ f.width)) ((cut key 48 8 : Int) - 127))

/-- The destination registers of a pop (R308). -/
def popGroup (ty : Nat) : Nat := if ty = 1 ∨ ty = 2 then 2 else if ty = 3 ∨ ty = 4 then 4 else 1

/-! ### OPT -/

/-- Parameter `i` of the hyperparameter block, FP32 (R310): lr, wd, b1, c1, b2, c2, eps, gs, bc1, bc2. -/
def hyper (b i : Nat) : Nat := cut b (128 + 32 * i) 32

def mul (a b : Nat) : Nat := (mul32 a b).1
def fma (a b c : Nat) : Nat := (fma32 a b c).1

/-- The updates of R311 of one element: the new words from the gradient and the old words. -/
def adamw (b g : Nat) (x : List Nat) : List Nat :=
  let w := x.getD 0 0
  let gg := mul g (hyper b 7)
  let m := fma (hyper b 2) (x.getD 1 0) (mul (hyper b 3) gg)
  let v := fma (hyper b 4) (x.getD 2 0) (mul (hyper b 5) (mul gg gg))
  let u := (div32 (mul m (hyper b 8)) (add32 (sqrt32 (mul v (hyper b 9))).1 (hyper b 6)).1).1
  [(sub32 w (mul (hyper b 0) (add32 u (mul (hyper b 1) w)).1)).1, m, v]
def sgdm (b g : Nat) (x : List Nat) : List Nat :=
  let w := x.getD 0 0
  let m := fma (hyper b 2) (x.getD 1 0) (mul g (hyper b 7))
  [(sub32 w (mul (hyper b 0) (add32 m (mul (hyper b 1) w)).1)).1, m]
def clip (b _g : Nat) (x : List Nat) : List Nat :=
  let n := fv (hyper b 2)
  let c := fv (hyper b 3)
  [mul (x.getD 0 0) (if !isNanV n && !isNanV c && !ltV false c n then 0x3F80_0000 else (div32 (hyper b 3) (hyper b 2)).1)]

/-- A fused update: instruction, sources, the addresses of the words of element `i`, the alignments of R311, the new words. -/
structure OptRow where
  instr : Instr
  srcs : List RegId
  words : Nat → List Nat
  aligned : Prop
  stream : Bool
  new : Nat → Nat → List Nat → List Nat

def optRows (la : La) (ec eb ea : EReg) (a b : Nat) : List OptRow :=
  [ ⟨.optAdamw la ec eb ea, [eId ea, eId eb, eId ec], fun i => [a + 4 * i, b + 8 * i, b + 8 * i + 4], a % 4 = 0 ∧ b % 8 = 0, true, adamw⟩,
    ⟨.optSgdm la ec eb ea, [eId ea, eId eb, eId ec], fun i => [a + 4 * i, b + 4 * i], a % 4 = 0 ∧ b % 4 = 0, true, sgdm⟩,
    ⟨.optClip la ec ea, [eId ea, eId ec], fun i => [a + 4 * i], a % 4 = 0, false, clip⟩ ]

/-- A mender's slot may run the update on `n` elements of a stream: block `blk` at `pb`, the words and gradients at hand (R309 to
R311). -/
structure OptReady (r : OptRow) (s : State) (ec : EReg) (pb blk n : Nat) : Prop where
  mender : kindOf s.cur = .mender
  full : ∀ x ∈ r.srcs, regFull s s.cur x = true
  room : (me s).out.length < 4
  sources : ∀ x ∈ r.srcs, flawAt (me s).flaws (.reg x) = none
  quiet : s.noise = []
  sound : Sound s
  wf : Memory.wf s.mem = true
  blockAligned : (re (me s) ec).toNat % 64 = 0
  block : AtHand s (re (me s) ec).toNat .readWrite pb ∧ Alone s none pb 64 (re (me s) ec)
  value : blk = memRead s.mem pb 64
  reserved : cut blk 33 31 = 0 ∧ cut blk 482 30 = 0
  stream : cut blk 32 1 = 0
  count : n = cut blk 0 32 ∧ n ≠ 0
  aligned : r.aligned ∧ (r.stream = true → cut blk 64 64 % 4 = 0)
  fits : (∀ i < n, ∀ a ∈ r.words i, a < 2 ^ 64) ∧ (r.stream = true → cut blk 64 64 + 4 * n ≤ 2 ^ 64)
  words : ∀ i < n, ∀ a ∈ r.words i, ∃ pa, AtHand s a .readWrite pa ∧ NoTable s pa ∧ Alone s none pa 4 (w64 a)
  grads : r.stream = true → ∀ i < n, ∃ pa, AtHand s (cut blk 64 64 + 4 * i) .read pa ∧
    Alone s none pa 4 (w64 (cut blk 64 64 + 4 * i))

end Sys2Proof.Claims

/-- R304 to R308: GQPUSH uses a credit and puts payload and key at the ring's tail, and waits where there is no credit; GQPOP takes the
oldest entry, delivers its elements and its key and is an acquire, and waits where there is none; GQWIN gives credits; GQLEN counts. A
descriptor that is enabled starts its mender slot; that a write which sets EN is what starts it, and that its g8 is made from the lowest
virtual address of the descriptor, is the model's reading (log 18, DEDUCED). A write that clears EN ends every wait at the queue: a hart
traps with 0x44, reason 1, and a mender slot in GQPOP on its own queue becomes *free*, as a *trapped* one does. -/
def Obligations.GradientQueues : Prop :=
  (∀ (b a d : GReg) (v : VReg) (s : State) (pa l : Nat), QueueAt s (rg (me s) a) pa l →
    let pushes := cut l 256 64
    let pops := cut l 320 64
    (Issues s threadOrMender [gId a, gId b, vId v] [] → (rg (me s) b).toNat < 2 ^ 56 → (me s).out.any isStoreOp = false →
      (cut l 192 8 ≠ 0 →
        ∃ s', exec (.gqpush b a v) s = .next s' ∧ (getHart s' s.cur).pc = (me s).pc + 4 ∧ (getHart s' s.cur).g = (me s).g ∧
          DescNow l (memRead s'.mem pa 64) (cut l 192 8 - 1) (cut l 200 8 + 1) (pushes + 1) pops ∧
          entryAt s' l (pushes % cut l 16 6) = ((rv (me s) v).toNat, (rg (me s) b).toNat)) ∧
      (cut l 192 8 = 0 →
        ∃ s', exec (.gqpush b a v) s = .next s' ∧ (getHart s' s.cur).status = .parked (.gradQueue pa true) ∧ s'.mem = s.mem ∧
          s'.gqWait = [(pa, .hart s.cur)])) ∧
    (Issues s threadOrMender [gId a] (gId b :: (List.range (popGroup (cut l 0 3))).map fun i => vId (Fin.ofNat 16 (v.val + i))) →
      Receives s l → v.val % popGroup (cut l 0 3) = 0 →
      (cut l 200 8 ≠ 0 → optWaits (me s) pa = false →
        let e := entryAt s l (pops % cut l 16 6)
        (cut l 3 1 = 1 → Memory.wf (getTile s (cut l 32 13)).l = true) →
        (cut l 3 1 = 0 → Memory.wf (getMender s (cut l 8 7)).buf = true) →
        ∃ s', exec (.gqpop b a v) s = .next s' ∧ (getHart s' s.cur).pc = (me s).pc + 4 ∧ Acquired s' s.cur ∧
          DescNow l (memRead s'.mem pa 64) (cut l 192 8) (cut l 200 8 - 1) pushes (pops + 1) ∧
          rg (getHart s' s.cur) b = (if b = 0 then 0 else w64 e.2) ∧
          (cut l 0 3 = 5 → rv (getHart s' s.cur) v = BitVec.ofNat 512 e.1) ∧
          (cut l 0 3 ≠ 5 → ∀ k < popGroup (cut l 0 3), rv (getHart s' s.cur) (Fin.ofNat 16 (v.val + k)) =
            lanes 32 fun i => (gradient (cut l 0 3) e.1 e.2 (16 * k + i)).1)) ∧
      (cut l 200 8 = 0 →
        ∃ s', exec (.gqpop b a v) s = .next s' ∧ (getHart s' s.cur).status = .parked (.gradQueue pa false) ∧ s'.mem = s.mem ∧
          s'.gqWait = [(pa, .hart s.cur)])) ∧
    (Issues s threadOrMender [gId a, gId b] [] → Receives s l → (rg (me s) b).toNat < 2 ^ 8 →
      cut l 200 8 + cut l 192 8 + (rg (me s) b).toNat ≤ cut l 16 6 →
      ∃ s', exec (.gqwin b a) s = .next s' ∧ (getHart s' s.cur).pc = (me s).pc + 4 ∧ (getHart s' s.cur).g = (me s).g ∧
        DescNow l (memRead s'.mem pa 64) (cut l 192 8 + (rg (me s) b).toNat) (cut l 200 8) pushes pops) ∧
    (Issues s threadOrMender [gId a] [gId d] →
      ∃ s', exec (.gqlen d a) s = .next s' ∧ (getHart s' s.cur).pc = (me s).pc + 4 ∧ s'.mem = s.mem ∧
        rg (getHart s' s.cur) d = (if d = 0 then 0 else w64 (cut l 200 8 + 256 * cut l 192 8)))) ∧
  (∀ (s : State) (m : Nat) (i : Fin 8) (pa c va : Nat), s.ev = .hart (.mender m i) → slotPending s m i = some pa →
    ((getMender s m).harts.get i).status = .free → ctxOfDesc s (gqCtx (memRead s.mem pa 64)) = some c → vaOf s c pa = some va →
      ∃ s', exec .menderSlotStart s = .next s' ∧
        let h := (getMender s' m).harts.get i
        h.status = .ready ∧ h.pc = w64 (cut (memRead s.mem pa 64) 64 64) ∧ h.sup = false ∧
          (∀ r : GReg, rg h r = if r = 8 then w64 (va + cut (memRead s.mem pa 64) 0 3) else 0) ∧
          (getMender s' m).use.get i = some ⟨pa, c⟩) ∧
  (∀ (s : State) (m : Nat) (i : Fin 8), s.ev = .hart (.mender m i) →
    (i ∈ (getMender s m).ended ∨ ∃ u, (getMender s m).use.get i = some u ∧ cut (memRead s.mem u.desc 64) 4 1 = 0 ∧
      ((getMender s m).harts.get i).status = .trapped) →
      ∃ s', exec .gqEnClear s = .next s' ∧ ((getMender s' m).harts.get i).status = .free ∧ (getMender s' m).use.get i = none ∧
        ∀ j : Fin 8, j ≠ i → (getMender s' m).harts.get j = (getMender s m).harts.get j) ∧
  ∀ (s : State) (pa l : Nat), pa % 64 = 0 → cut (memRead s.mem pa 1) 4 1 = 1 → cut l 4 1 = 0 →
    (∀ (t : Nat) (i : Fin 10) (push : Bool), (pa, .hart (.tile t i)) ∈ s.gqWait →
      waitOf (getHart s (.tile t i)) = some (.gradQueue pa push) →
      (getHart (physWrite s pa 64 l) (.tile t i)).status = .parked (.trap 0x44 1)) ∧
    ∀ (m : Nat) (i : Fin 8) (c : Nat), (pa, .hart (.mender m i)) ∈ s.gqWait → (getMender s m).use.get i = some ⟨pa, c⟩ →
      waitOf (getHart s (.mender m i)) = some (.gradQueue pa false) → i ∈ (getMender (physWrite s pa 64 l) m).ended

/-- R48, R309 to R312: a fused update over a stream, none of whose bytes an earlier access of its hart touches, completes on a mender with its status in its block and each of its elements updated as
R311 gives, from the old words and the gradient; on a thread it is illegal, on a sequencer it lies outside the set. -/
def Obligations.FusedUpdates : Prop :=
  ∀ (la : La) (ec eb ea : EReg) (s : State), ∀ r ∈ optRows la ec eb ea (re (me s) ea).toNat (re (me s) eb).toNat,
    (kindOf s.cur = .thread → exec r.instr s = .next (trapOn s s.cur 0x00 (w64 s.iword))) ∧
    (kindOf s.cur = .matSeq ∨ kindOf s.cur = .vecSeq → exec r.instr s = .next (trapOn s s.cur 0x0B (w64 s.iword))) ∧
    ∀ pb blk n, OptReady r s ec pb blk n →
      ∃ s', exec r.instr s = .next s' ∧ (getHart s' s.cur).pc = (me s).pc + 4 ∧ (getHart s' s.cur).g = (me s).g ∧
        memRead s'.mem (pb + 56) 8 = 0 ∧
        ∀ (p : Nat → Nat → Nat) (q : Nat → Nat),
          let k := (r.words 0).length
          (∀ i < n, ∀ j < k, AtHand s ((r.words i).getD j 0) .readWrite (p i j)) →
          (r.stream = true → ∀ i < n, AtHand s (cut blk 64 64 + 4 * i) .read (q i)) →
          (∀ i < n, ∀ j < k, (p i j + 4 ≤ pb + 56 ∨ pb + 64 ≤ p i j) ∧
            (∀ i' < n, ∀ j' < k, (i' = i ∧ j' = j) ∨ p i j + 4 ≤ p i' j' ∨ p i' j' + 4 ≤ p i j) ∧
            (r.stream = true → ∀ i' < n, p i j + 4 ≤ q i' ∨ q i' + 4 ≤ p i j)) →
            ∀ i < n, ∀ j < k, memRead s'.mem (p i j) 4 =
              (r.new blk (memRead s.mem (q i) 4) ((List.range k).map fun j => memRead s.mem (p i j) 4)).getD j 0 % 2 ^ 32

namespace Sys2Proof.Claims

open Sys2Proof.Machine

/-! ## Episodes (R313 to R323) -/

/-- The domain of 128 bytes at `dom` stands at `pa`, where the issuer may make the access (R313, R317). -/
structure DomainAt (s : State) (dom : Nat) (need : Need) (pa : Nat) : Prop where
  aligned : dom % 128 = 0
  hand : AtHand s dom need pa
  sound : Sound s
  /-- no earlier access of the hart touches it, and nothing befalls a packet on its way -/
  apart : Alone s none pa 128 (w64 dom)
  quiet : s.noise = []

/-- An entry's step record `i` (R314). -/
def recordAt (e : Episode) (i : Nat) : Nat := (e.buf.toNat + 16 * i) % 2 ^ 64

/-- The table of the die that the ticket `w` names (R315). -/
def tableOf (w : Word) : Fin 4 := Fin.ofNat 4 (w.toNat / 2 ^ 14)

/-- The ticket `w` names entry `e` of the hart's context (R315, R317). -/
def Ticket (s : State) (w : Word) (e : Episode) : Prop :=
  w.toNat < 2 ^ 16 ∧ e.ctx = hartCtx s s.cur ∧
    (s.dies.get (tableOf w)).eps.find? (fun x => x.idx == w.toNat % 2 ^ 14) = some e

/-- The entry after every reward that is there: *judged* when no recorded step lacks its reward (R315). -/
def settled (e : Episode) : EpState := if (∀ i < e.count, i ∈ e.rp) then .judged else .joining

/-- A reward for the key of `e` (R315). -/
def RewardFor (e : Episode) (x : Arrival) : Prop :=
  x.close = none ∧ x.msg.ctx = e.ctx ∧ x.msg.dom = e.dom ∧ x.msg.id = e.id

/-- The state code of EPSTAT (R317). -/
def stateCode (x : EpState) : Nat :=
  match x with
  | .opened => 1
  | .joining => 2
  | .judged => 3
  | .releasing => 4

/-- The message of an RWSEND (R318). -/
def rewardMsg (s : State) (d a b : Word) : RewardMsg :=
  ⟨hartCtx s s.cur, w64 (d.toNat / 128 * 128), cut a.toNat 0 48, cut a.toNat 48 16, BitVec.ofNat 32 b.toNat⟩

/-- The advantages of R320 from record `t` down: records give (reward present, reward, done, value); the results are in record
order. -/
def advantages (gam gl : Nat) (rec : Nat → Bool × Nat × Bool × Nat) : Nat → Nat → Nat → List Nat
  | 0, _, _ => []
  | t + 1, vn, an =>
    let x := rec t
    let r := if x.1 then x.2.1 else 0x7FC0_0000
    let b := if x.2.2.1 then 0 else mul gam vn
    let a := (add32 (sub32 (add32 r b).1 x.2.2.2).1 (mul gl an)).1
    advantages gam gl rec t x.2.2.2 a ++ [a]

/-- A record of 16 bytes as the wringer reads it (R314). -/
def readRecord (v : Nat) : Bool × Nat × Bool × Nat := (cut v 97 1 == 1, cut v 32 32, cut v 96 1 == 1, cut v 0 32)

end Sys2Proof.Claims

/-- R313 to R318: EPOPEN takes the lowest free entry of its die's table and clears the step buffer; EPREC records a step; EPCLOSE takes
a close number; EPSTAT tells state, count and rewards; RWSEND sends a reward to its die's table or through a link. -/
def Obligations.EpisodeInstructions : Prop :=
  (∀ (d a b : GReg) (s : State) (pb pd blk dv : Nat), Issues s threadOrMender [gId a, gId b] [gId d] →
    let id := (rg (me s) a).toNat
    let k : Fin 4 := Fin.ofNat 4 id
    let dom := cut blk 0 64
    let buf := cut blk 64 64
    let cap := cut blk 128 13
    id < 2 ^ 48 → (rg (me s) b).toNat % 64 = 0 → AtHand s (rg (me s) b).toNat .read pb → Alone s none pb 64 (rg (me s) b) →
    blk = memRead s.mem pb 64 →
    cut blk 141 19 = 0 → cut blk 192 320 = 0 → DomainAt s dom .readWrite pd → dv = memRead s.mem pd 64 →
    1 ≤ cap → cap ≤ 4096 → buf % 16 = 0 → buf + 16 * cap ≤ 2 ^ 64 →
    cut dv 192 3 = 5 → cut dv 256 3 = 5 → cut dv 320 3 = 5 →
    (∀ i < cap, ∃ pa, AtHand s (buf + 16 * i) .readWrite pa ∧ Alone s none pa 16 (w64 (buf + 16 * i))) →
      ∃ s', exec (.epopen d a b) s = .next s' ∧ (getHart s' s.cur).pc = (me s).pc + 4 ∧
        ((∃ e ∈ (s.dies.get k).eps, e.ctx = hartCtx s s.cur ∧ e.dom = w64 dom ∧ e.id = id) →
          rg (getHart s' s.cur) d = (if d = 0 then 0 else w64 (2 ^ 63 + 2)) ∧ s'.mem = s.mem) ∧
        ((∀ e ∈ (s.dies.get k).eps, ¬ (e.ctx = hartCtx s s.cur ∧ e.dom = w64 dom ∧ e.id = id)) →
          ((∀ j < 16384, ∃ e ∈ (s.dies.get k).eps, e.idx = j) →
            rg (getHart s' s.cur) d = (if d = 0 then 0 else w64 (2 ^ 63 + 1)) ∧ s'.mem = s.mem) ∧
          (∀ j < 16384, (∀ e ∈ (s.dies.get k).eps, e.idx ≠ j) → (∀ j' < j, ∃ e ∈ (s.dies.get k).eps, e.idx = j') →
            rg (getHart s' s.cur) d = (if d = 0 then 0 else w64 (j + 2 ^ 14 * k.val)) ∧
            (∃ e, (s'.dies.get k).eps = (s.dies.get k).eps ++ [e] ∧ e.idx = j ∧ e.ctx = hartCtx s s.cur ∧ e.dom = w64 dom ∧
              e.id = id ∧ e.st = .opened ∧ e.buf = w64 buf ∧ e.cap = cap ∧ e.ver = cut blk 160 32 ∧ e.count = 0 ∧ e.rp = []) ∧
            ∀ i < cap, ∀ pa, AtHand s (buf + 16 * i) .readWrite pa → memRead s'.mem pa 16 = 0))) ∧
  (∀ (d a b : GReg) (s : State) (e : Episode) (pa : Nat), Issues s threadOrMender [gId a, gId b] [gId d] →
    Ticket s (rg (me s) a) e → e.st = .opened → (rg (me s) b).toNat < 2 ^ 33 → e.count < e.cap →
    AtHand s (recordAt e e.count) .write pa → Alone s none pa 16 (w64 (recordAt e e.count)) → s.noise = [] →
      ∃ s', exec (.eprec d a b) s = .next s' ∧ (getHart s' s.cur).pc = (me s).pc + 4 ∧
        rg (getHart s' s.cur) d = (if d = 0 then 0 else w64 e.count) ∧
        memRead s'.mem pa 4 = (rg (me s) b).toNat % 2 ^ 32 ∧ memRead s'.mem (pa + 12) 1 % 2 = (rg (me s) b).toNat / 2 ^ 32 ∧
        Ticket s' (rg (me s) a) { e with count := e.count + 1 }) ∧
  (∀ (d a : GReg) (s : State) (e : Episode) (pc pt : Nat), Issues s threadOrMender [gId a] [gId d] → Ticket s (rg (me s) a) e →
    e.st = .opened → (∀ i ∈ e.rp, i < e.count) → Sound s → s.noise = [] → Memory.wf s.mem = true → e.dom.toNat % 128 = 0 →
    let t := tableOf (rg (me s) a)
    let k := hartDie s.cur
    HeldAt s k e.ctx e.dom.toNat .readWrite (pc / 128 * 128) → HeldAt s k e.ctx (e.dom.toNat + 64 + 8 * t.val) .readWrite pc →
    NoTable s pc → HeldAt s k e.ctx (e.dom.toNat + 16) .read pt →
    ((s.dies.get t).arrivals = [] → ∃ s', exec (.epclose d a) s = .next s' ∧ (getHart s' s.cur).pc = (me s).pc + 4 ∧
      rg (getHart s' s.cur) d = (if d = 0 then 0 else w64 (memRead s.mem pc 8)) ∧
      memRead s'.mem pc 8 = (memRead s.mem pc 8 + 1) % 2 ^ 64 ∧
      Ticket s' (rg (me s) a)
        { e with csn := memRead s.mem pc 8, closed := s.cycle, tmo := memRead s.mem pt 4, st := settled e }) ∧
    ((s.dies.get t).arrivals ≠ [] → ∃ s', exec (.epclose d a) s = .next s' ∧
      (getHart s' s.cur).status = .parked (.closing (s.ids + 1)) ∧ s'.mem = s.mem ∧
      (s'.dies.get t).arrivals = (s.dies.get t).arrivals ++
        [⟨⟨e.ctx, e.dom, e.id, 0, 0⟩, some (s.cur, (me s).pc + 4), none, false, s.cycle, some (e.idx, d), s.reads⟩])) ∧
  (∀ (d a : GReg) (s : State), Issues s threadOrMender [gId a] [gId d] →
    (∀ e, Ticket s (rg (me s) a) e → exec (.epstat d a) s = .next (finished s [gId a] 4 fun h =>
      wg h d (w64 (stateCode e.st + e.count * 2 ^ 16 + e.rp.length * 2 ^ 32)))) ∧
    ((rg (me s) a).toNat < 2 ^ 16 → (∀ e, ¬ Ticket s (rg (me s) a) e) →
      exec (.epstat d a) s = .next (finished s [gId a] 4 fun h => wg h d 0))) ∧
  (∀ (d a b : GReg) (s : State), Issues s threadOrMender [gId d, gId a, gId b] [] → (me s).out.any isStoreOp = false →
    let dv := (rg (me s) d).toNat
    let m := rewardMsg s (rg (me s) d) (rg (me s) a) (rg (me s) b)
    let k : Fin 4 := Fin.ofNat 4 m.id
    (rg (me s) b).toNat < 2 ^ 32 →
    (∀ pd, DomainAt s dv .read pd → ∃ s', exec (.rwsend d a b) s = .next s' ∧
      (getHart s' s.cur).status = .parked (.remote (s.ids + 1)) ∧
      (s'.dies.get k).arrivals = (s.dies.get k).arrivals ++ [⟨m, some (s.cur, (me s).pc + 4), none, false, s.cycle, none, []⟩]) ∧
    (∀ l : Fin 16, cut dv 0 7 = l.val + 1 → (s.links.get l).st = .up → 2 ≤ (s.links.get l).ver →
      ∃ s', exec (.rwsend d a b) s = .next s' ∧ (getHart s' s.cur).status = .parked (.remote (s.ids + 1)) ∧
        s'.rewards = s.rewards ++ [⟨s.ids + 1, s.cur, l.val, m, (me s).pc + 4⟩] ∧
        (s'.links.get l).queue = (s.links.get l).queue ++ [.reward m s.cur]))

/-- R315, R318 to R321, R323: a table takes what reached it in the order of arrival. A reward for a step of an episode is written into its
record and its sender goes on; one without an entry is counted as an orphan, and its record dropped where oq has no credit; an EPCLOSE
takes its close number behind the rewards that came before it. A far device's answer ends its RWSEND; a joining episode is judged at its
time-out, behind the rewards that came by then; a judged one is found stale or scanned, and released in the order of the close numbers
to a queue with a credit, or waits there. -/
def Obligations.EpisodeEvents : Prop :=
  (∀ (s : State) (d : Fin 4) (x : Arrival) (r : List Arrival) (h : HartId) (next : Word) (id : Nat) (e : Episode) (pa : Nat),
    s.ev = .die d.val → (s.dies.get d).arrivals = x :: r → x.sender = some (h, next) → x.link = none → x.bad = false →
    x.close = none → (getHart s h).status = .parked (.remote id) → s.gqWait = [] →
    (e.st = .joining → e.tmo ≠ 0 → x.time ≤ e.closed + 2400 * e.tmo) →
    (s.dies.get d).eps.find? (fun e => e.ctx == x.msg.ctx && e.dom == x.msg.dom && e.id == x.msg.id) = some e →
    (s.dies.get d).eps.find? (fun y => y.idx == e.idx) = some e →
    (e.st = .opened ∧ x.msg.step < e.cap ∨ e.st = .joining ∧ x.msg.step < e.count ∧ x.msg.step < e.cap) →
    x.msg.step ∉ e.rp → HeldAt s d x.msg.ctx (recordAt e x.msg.step) .write pa → Memory.wf s.mem = true → Sound s →
    s.noise = [] →
      ∃ s', exec .rewardArrival s = .next s' ∧ (getHart s' h).pc = next ∧ (s'.dies.get d).arrivals = r ∧
        memRead s'.mem (pa + 4) 4 = x.msg.reward.toNat ∧ memRead s'.mem (pa + 12) 1 / 2 % 2 = 1 ∧
        ∃ e', (s'.dies.get d).eps.find? (fun y => y.idx == e.idx) = some e' ∧ x.msg.step ∈ e'.rp ∧ (∀ i ∈ e.rp, i ∈ e'.rp) ∧
          e'.count = e.count ∧ (e'.st = if e.st = .joining then settled e' else .opened)) ∧
  (∀ (s : State) (d : Fin 4) (x : Arrival) (r : List Arrival) (h : HartId) (next : Word) (id pd pl : Nat),
    s.ev = .die d.val → (s.dies.get d).arrivals = x :: r → x.sender = some (h, next) → x.link = none → x.bad = false →
    x.close = none → (getHart s h).status = .parked (.remote id) → (∀ e ∈ (s.dies.get d).eps, ¬ RewardFor e x) →
    x.msg.dom.toNat % 128 = 0 → HeldAt s d x.msg.ctx x.msg.dom.toNat .readWrite pd → NoTable s pd →
    HeldAt s d x.msg.ctx (memRead s.mem (pd + 32) 8 / 64 * 64) .readWrite pl → pl / 64 ≠ pd / 64 →
    cut (memRead s.mem pl 64) 192 8 = 0 → Memory.wf s.mem = true → Sound s → s.noise = [] →
    orphanSleeps s x.msg.ctx x.msg.dom.toNat = none →
      ∃ s', exec .rewardArrival s = .next s' ∧ (getHart s' h).pc = next ∧ (s'.dies.get d).arrivals = r ∧
        memRead s'.mem (pd + 48) 8 = (memRead s.mem (pd + 48) 8 + 1) % 2 ^ 64 ∧
        memRead s'.mem (pd + 20) 4 = (memRead s.mem (pd + 20) 4 + 1) % 2 ^ 32 ∧ memRead s'.mem pl 64 = memRead s.mem pl 64) ∧
  (∀ (s : State) (d : Fin 4) (x : Arrival) (r : List Arrival) (h : HartId) (next : Word) (id : Nat) (g : GReg) (e : Episode) (pc pt : Nat),
    s.ev = .die d.val → (getHart s h).status = .parked (.closing id) → s.noise = [] → (s.dies.get d).arrivals = x :: r → x.sender = some (h, next) → x.close = some (e.idx, g) →
    (s.dies.get d).eps.find? (fun y => y.idx == e.idx) = some e → x.msg.ctx = e.ctx → x.msg.dom = e.dom → x.msg.id = e.id →
    e.st = .opened → (∀ i ∈ e.rp, i < e.count) → Sound s → Memory.wf s.mem = true → e.dom.toNat % 128 = 0 →
    HeldAt s d e.ctx e.dom.toNat .readWrite (pc / 128 * 128) → HeldAt s d e.ctx (e.dom.toNat + 64 + 8 * d.val) .readWrite pc →
    NoTable s pc → HeldAt s d e.ctx (e.dom.toNat + 16) .read pt →
      ∃ s', exec .rewardArrival s = .next s' ∧ (getHart s' h).pc = next ∧ (s'.dies.get d).arrivals = r ∧
        rg (getHart s' h) g = (if g = 0 then 0 else w64 (memRead s.mem pc 8)) ∧
        memRead s'.mem pc 8 = (memRead s.mem pc 8 + 1) % 2 ^ 64 ∧
        (s'.dies.get d).eps.find? (fun y => y.idx == e.idx) = some
          { e with csn := memRead s.mem pc 8, closed := s.cycle, tmo := memRead s.mem pt 4, st := settled e }) ∧
  (∀ (s : State) (r : RemoteReward), s.ev = .key r.id → s.rewards.find? (·.id == r.id) = some r →
    s.rewards.find? (fun x => x.link == r.link && x.hart == r.hart) = some r → r.link < 16 → (getLink s r.link).st = .up →
    (getHart s r.hart).status = .parked (.remote r.id) →
      ∃ s', exec .rwsendRemoteAnswer s = .next s' ∧ (getHart s' r.hart).pc = r.next ∧
        s'.rewards = s.rewards.filter (·.id != r.id)) ∧
  (∀ (s : State) (d : Fin 4) (e : Episode), s.ev = .dieItem d.val e.idx →
    (s.dies.get d).eps.find? (fun y => y.idx == e.idx) = some e →
    (e.st = .joining → e.tmo ≠ 0 → e.closed + 2400 * e.tmo ≤ s.cycle →
      (∀ x ∈ (s.dies.get d).arrivals, RewardFor e x → e.closed + 2400 * e.tmo < x.time) →
      ∃ s', exec .episodeTimeout s = .next s' ∧
        (s'.dies.get d).eps.find? (fun y => y.idx == e.idx) = some { e with st := .judged, tmoHit := true }) ∧
    (∀ pd, e.st = .judged → HeldAt s d e.ctx e.dom.toNat .read pd → Sound s → s.noise = [] → Memory.wf s.mem = true →
      let dv := memRead s.mem pd 16
      let lag := (cut dv 64 32 + 2 ^ 32 - e.ver) % 2 ^ 32
      (∀ a ∈ pagesOf e.buf.toNat (16 * e.count), ∃ pa, HeldAt s d e.ctx (a % 2 ^ 64) .write pa) →
      (cut dv 96 32 < lag → ∃ s', exec .wringerScan s = .next s' ∧ s'.mem = s.mem ∧
        (s'.dies.get d).eps.find? (fun y => y.idx == e.idx) = some { e with st := .releasing, lag := lag, stale := true, miss := 0 }) ∧
      (lag ≤ cut dv 96 32 → ∀ p : Nat → Nat,
        (∀ i < e.count, HeldAt s d e.ctx (recordAt e i) .read (p i) ∧ HeldAt s d e.ctx (recordAt e i) .write (p i) ∧
          NoTable s (p i) ∧ p i % 16 = 0) →
        (∀ i < e.count, ∀ j < e.count, i ≠ j → p i ≠ p j) →
        let rec' := fun i => readRecord (memRead s.mem (p i) 16)
        ∃ s', exec .wringerScan s = .next s' ∧
          (s'.dies.get d).eps.find? (fun y => y.idx == e.idx) = some { e with
            st := .releasing, lag := lag, stale := false,
            miss := ((List.range e.count).filter fun i => !(rec' i).1).length } ∧
          ∀ i < e.count, memRead s'.mem (p i + 8) 4 = (advantages (cut dv 0 32) (cut dv 32 32) rec' e.count 0 0).getD i 0 % 2 ^ 32 ∧
            memRead s'.mem (p i + 12) 1 / 4 % 2 = (if (rec' i).1 then 0 else 1))) ∧
    (∀ pr pq pl l, e.st = .releasing → Sound s → s.noise = [] → Memory.wf s.mem = true →
      HeldAt s d e.ctx (e.dom.toNat + 96 + 8 * d.val) .readWrite pr → NoTable s pr →
      HeldAt s d e.ctx (e.dom.toNat + if e.stale then 40 else 24) .read pq →
      let q := memRead s.mem pq 8
      pushSleeps s e.ctx q = none →
      HeldAt s d e.ctx (q / 64 * 64) .readWrite pl → NoTable s pl → l = memRead s.mem pl 64 → pl / 64 ≠ pr / 64 →
      pl % 64 = 0 → pr % 8 = 0 →
      (e.stale = true → ∃ ps, HeldAt s d e.ctx (e.dom.toNat + 56) .readWrite ps ∧ (ps + 8 ≤ pr ∨ pr + 8 ≤ ps) ∧ ps / 64 ≠ pl / 64 ∧
        ps % 8 = 0) →
      memRead s.mem pr 8 = e.csn → gqReserved l = false → gqInvalid l (q % 8) = false → s.gqWait = [] →
      (cut l 192 8 = 0 → ∃ s', exec .episodeRelease s = .next s' ∧ s'.gqWait = [(pl, .episode d.val e.idx)] ∧ s'.mem = s.mem ∧
        (s'.dies.get d).eps = (s.dies.get d).eps) ∧
      (cut l 192 8 ≠ 0 → (cut l 3 1 = 1 → switchedOut s e.ctx (cut l 32 13) = false) →
        ∃ s', exec .episodeRelease s = .next s' ∧ (s'.dies.get d).eps.find? (fun y => y.idx == e.idx) = none ∧
          memRead s'.mem pr 8 = (e.csn + 1) % 2 ^ 64 ∧
          DescNow l (memRead s'.mem pl 64) (cut l 192 8 - 1) (cut l 200 8 + 1) (cut l 256 64 + 1) (cut l 320 64) ∧
          (entryAt s' l (cut l 256 64 % cut l 16 6)).2 = e.csn % 2 ^ 48)))

namespace Sys2Proof.Claims

open Sys2Proof.Machine

/-! ## Queues, groups, partitions (R236 to R276) -/

/-- The page tables of context `c` lead from `va` to `pa` and let a user read there, and die `d` holds that translation for the access. -/
def UnitAt (s : State) (d : Fin 4) (c va : Nat) (need : Need) (pa : Nat) : Prop :=
  leafPeek s c va = some pa ∧ peekPa s c va .read = .ok pa ∧ HeldAt s d c va need pa

/-- Two lines are different. -/
def Apart (a b : Nat) : Prop := a / 64 ≠ b / 64

/-- The walk of `va` in context `c` reads no byte of the line of `pa` (R280). -/
def OffWalk (s : State) (c va pa : Nat) : Prop := ∀ x, alGet s.ctxs c = some x → pa / 64 ∉ (walk s x va).2

/-- The unit of die `d` can read the `n` bytes at `va` in context `c`; their value is `v`. -/
structure ReadsAs (s : State) (d : Fin 4) (c va n v : Nat) : Prop where
  fits : va + n ≤ 2 ^ 64
  size : v < 256 ^ n
  bytes : ∀ i < n, ∃ pa, HeldAt s d c (va + i) .read pa ∧ memRead s.mem pa 1 = cut v (8 * i) 8

/-- The status word of a node after the walk that makes it ready: state 1 and WLK (R256, R260). -/
def walkedStatus (v : Nat) : Nat := (cut v 448 64 + 2 ^ 11 + 1) % 2 ^ 64

/-- The nanoseconds since power-on (R2). -/
def now (s : State) : Nat := s.cycle * 5 / 12

/-! ### Checking (R236, R239, R240, R49) -/

/-- A part of `n` bytes at offset `o` lies in the object, behind the code image (R236). -/
def PartIn (h o n : Nat) : Prop := n = 0 ∨ o + n ≤ 2 ^ 32 ∧ 64 + cut h 96 32 ≤ o

/-- A kernel header that passes the checks of reasons 2 to 6 (R236, R239). -/
structure HeaderOk (h : Nat) : Prop where
  magic : cut h 0 32 = 0x4B52_4E4C
  reserved : cut h 52 12 = 0 ∧ cut h 74 22 = 0 ∧ cut h 166 26 = 0 ∧ cut h 384 128 = 0
  versions : cut h 32 8 ≤ 1 ∧ cut h 40 8 ≤ 1
  slots : cut h 48 3 ≠ 0 ∧ cut h 64 10 ≤ 512
  code : cut h 96 32 % 2 = 0 ∧ cut h 192 32 % 2 = 0 ∧ cut h 192 32 < cut h 96 32 ∧ 64 + cut h 96 32 ≤ 2 ^ 32
  data : cut h 128 32 ≤ 0x1_FEF8
  parts : PartIn h (cut h 224 32) (8 * cut h 256 32) ∧ PartIn h (cut h 288 32) (4 * cut h 64 10) ∧ PartIn h (cut h 320 32) (cut h 128 32)

/-- The ranges of a pool table of `n` entries. -/
def pools (tab n : Nat) : List (Nat × Nat) := (List.range n).map fun i => (cut tab (64 * i) 32, cut tab (64 * i + 32) 32)

/-- The halfword at offset `o` has a byte in the range. -/
def touches (o : Nat) (p : Nat × Nat) : Bool := decide (p.2 ≠ 0 ∧ p.1 < o + 2 ∧ o < p.1 + p.2)

/-- The scan of a code image of `n` bytes comes to offset `o` (R49): it goes from word to word, and behind each range that it skips. -/
inductive Scanned (img n : Nat) (ps : List (Nat × Nat)) : Nat → Prop
  | start : Scanned img n ps 0
  | skip (o : Nat) (p : Nat × Nat) : Scanned img n ps o → o < n → ps.find? (touches o) = some p →
      Scanned img n ps ((p.1 + p.2 + 1) / 2 * 2)
  | short (o : Nat) : Scanned img n ps o → o < n → ps.find? (touches o) = none → cut img (8 * o) 1 = 0 → Scanned img n ps (o + 2)
  | long (o : Nat) : Scanned img n ps o → o < n → ps.find? (touches o) = none → cut img (8 * o) 1 = 1 → Scanned img n ps (o + 4)

/-- A word with an unordered encoding (R49). -/
def Unordered (w : Nat) : Prop :=
  (cut w 1 6 ∈ [0x24, 0x25, 0x26] ∧ cut w 22 5 = 13) ∨ (cut w 1 6 = 0x33 ∧ cut w 21 6 = 1) ∨
    (cut w 1 6 = 0x3C ∧ cut w 7 5 ∈ [3, 5])

/-- The code image has an unordered encoding that counts (R49). -/
def HasUnordered (img n : Nat) (ps : List (Nat × Nat)) : Prop :=
  ∃ o, Scanned img n ps o ∧ o + 4 ≤ n ∧ ps.find? (touches o) = none ∧ ps.find? (touches (o + 2)) = none ∧
    cut img (8 * o) 1 = 1 ∧ Unordered (cut img (8 * o) 32)

/-- The promise of a kernel (R240): DET, UNO, LVL. -/
def Promised (h img : Nat) (ps : List (Nat × Nat)) (p : Nat) : Prop :=
  p < 8 ∧ p / 4 = cut h 51 1 ∧ (p / 2 % 2 = 1 ↔ HasUnordered img (cut h 96 32) ps) ∧
    (p % 2 = 1 ↔ ¬ HasUnordered img (cut h 96 32) ps ∧ cut h 51 1 = 0)

/-! ### Groups -/

/-- The context of a group is *resident* in the group's partition, and no switch has stopped it (R268, R269). -/
def Runs (s : State) (g : Group) : Prop :=
  (s.parts.get (Fin.ofNat 32 g.part)).resident = some g.ctx ∧ ∀ w, (s.parts.get (Fin.ofNat 32 g.part)).sw = some w → w.phase = 0

/-- What a launch loads (R237, R241): data image, window image, launch block and argument block. -/
structure Loads (s : State) (l : Launch) (h dat win blk arg : Nat) : Prop where
  hdr : l.hdr = some h
  dat : ReadsAs s (Fin.ofNat 4 l.die) l.ctx (cut l.nodeV 192 64 + cut h 320 32) (cut h 128 32) dat
  win : ReadsAs s (Fin.ofNat 4 l.die) l.ctx (cut l.nodeV 192 64 + cut h 288 32) (4 * cut h 64 10) win
  packet : (l.packet = some (blk, arg, []) ∧ arg < 256 ^ (8 * cut h 160 6)) ∨ l.packet = none ∧ ReadsAs s (Fin.ofNat 4 l.die) l.ctx (cut l.nodeV 320 64) 64 blk ∧
    ReadsAs s (Fin.ofNat 4 l.die) l.ctx (cut l.nodeV 256 64) (8 * cut h 160 6) arg

/-- The seed of LFSR `n` of tile `t` (R159). -/
def seedOf (seed : Word) (t n : Nat) : W32 :=
  let h := seed ^^^ w64 ((t * 16 + n) * 0x9E37_79B9_7F4A_7C15)
  let x := (h >>> 32).setWidth 32 ^^^ h.setWidth 32
  if x = 0 then 1 else x

/-- The tile `x` of number `t` as it is loaded for group `g` (R143, R237, R241, R246). -/
structure LoadedTile (x : Tile) (t : Nat) (g : Group) (l : Launch) (h dat win blk arg : Nat) : Prop where
  owner : x.grp = some g.id ∧ x.ctx = l.ctx
  fresh : x.step = 0 ∧ x.mbox = [] ∧ x.work = [] ∧ x.lEmpty = [] ∧ ∀ i : Fin 10, (x.harts.get i).status = .free
  data : memRead x.l 0 (cut h 128 32) = dat
  args : memRead x.l 0x1_FEF8 8 = cut l.nodeV 256 64 ∧ memRead x.l 0x1_FF00 (8 * cut h 160 6) = arg
  window : x.winN = cut h 64 10 ∧ x.winImg = ⟨(List.range (cut h 64 10)).map fun i => BitVec.ofNat 32 (cut win (32 * i) 32), [], []⟩ ∧
    x.pub = x.winImg ∧ x.hist = List.replicate 32 x.winImg
  packet : (∀ i : Fin 4, (x.fmt.get i).toNat = cut blk (32 * i.val) 32 ∧ (x.scp.get i).toNat = cut blk (192 + 64 * i.val) 64) ∧
    x.seed.toNat = cut blk 128 64 ∧ ∀ i : Fin 16, x.lfsr.get i = seedOf x.seed t i.val
  place : x.gid = w64 (g.ox + 2 ^ 8 * g.oy + 2 ^ 16 * g.w + 2 ^ 24 * g.h + 2 ^ 32 * (g.index % 2 ^ 16))
  kernel : x.slots = cut h 48 3 ∧ x.lvl = (cut h 51 1 == 1) ∧ x.promise = BitVec.ofNat 3 l.promise

/-- A tile's slot 0 as a group's release starts it (R55, R241, R247). -/
structure FirstThread (h : Hart) (pc path : Word) (sup : Bool) : Prop where
  status : h.status = .ready
  pc : h.pc = pc
  path : h.path = path
  sup : h.sup = sup
  regs : ∀ r : GReg, rg h r = 0
  exts : ∀ r : EReg, re h r = 0
  quiet : h.out = [] ∧ h.stack = [] ∧ h.fflags = 0 ∧ h.frm = 0 ∧ h.tvec = 0

/-- A group may retire (R245): on each of its tiles slots 0 to 6 are *free* or *trapped*, the sequencers *idle*, no accepted copy is left,
and no switch has stopped the tile. -/
def MayRetire (s : State) (g : Group) : Prop :=
  g.st = .running ∧ ∀ t ∈ groupTiles g, (getTile s t).grp = some g.id ∧ stopped s t = false ∧
    (∀ i : Fin 10, i.val < 7 → (getHart s (.tile t i)).status = .free ∨ (getHart s (.tile t i)).status = .trapped) ∧
    (getHart s (.tile t 8)).status = .free ∧ (getHart s (.tile t 9)).status = .free ∧ ∀ c ∈ (getTile s t).copies, c.st = .requested

/-! ### Switches -/

/-- The context is barred from a SWITCH or a DESTROY (R275, status 3). -/
def Excluded (s : State) (b c : Nat) (x : Ctx) : Prop :=
  cut b 0 4 ≠ 2 ∧ (cut x.pmask (cut b 8 5) 1 = 0 ∨ ∃ o, alGet s.ctxs c = some o ∧
    (o.destroyed = true ∨ (∃ r ∈ o.res, r.1 ≠ cut b 8 5 ∧ r.2 = .resident) ∨
      (cut b 0 4 = 3 ∧ ∃ r ∈ o.res, r.2 = .entering ∨ r.2 = .resident ∨ r.2 = .leaving)))

/-- DEFPART leaves the mesh of 18 by 16 clusters, meets another partition, or redefines an occupied one (R275, status 4). -/
def Misplaced (s : State) (b : Nat) : Prop :=
  let x := cut b 192 8
  let y := cut b 200 8
  let w := cut b 208 8
  let h := cut b 216 8
  18 < x + w ∨ 16 < y + h ∨ (s.parts.get (Fin.ofNat 32 (cut b 8 5))).resident ≠ none ∨
    ∃ p : Fin 32, p.val ≠ cut b 8 5 ∧ (s.parts.get p).valid = true ∧ let o := s.parts.get p
      x < o.cx + o.cw ∧ o.cx < x + w ∧ y < o.cy + o.ch ∧ o.cy < y + h

/-- The status of a request (R275); `l` is the named contexts, none where a descriptor is malformed. -/
def SwStatus (s : State) (b : Nat) (l : Option (List (Nat × Ctx))) (st : Nat) : Prop :=
  let a := l = none ∨ 3 < cut b 0 4 ∨ cut b 4 4 ≠ 0 ∨ cut b 13 51 ≠ 0
  let pending := (s.parts.get (Fin.ofNat 32 (cut b 8 5))).sw ≠ none
  let barred := ∃ n, l = some n ∧ ∃ c ∈ n, Excluded s b c.1 c.2
  let off := cut b 0 4 = 1 ∧ Misplaced s b
  (a → st = 1) ∧ (¬ a → pending → st = 2) ∧ (¬ a → ¬ pending → barred → st = 3) ∧ (¬ a → ¬ pending → ¬ barred → off → st = 4) ∧
    (¬ a → ¬ pending → ¬ barred → ¬ off → st = 0)

/-- The run list of a partition without the contexts that are *destroyed* (R268, R271). -/
def aliveIn (s : State) (p : Part) : List Nat :=
  p.run.filter fun c => match alGet s.ctxs c with
    | some x => !x.destroyed
    | none => true

/-- A slice in ns; 0 stands for 2,000 µs (R271). -/
def sliceOfPart (p : Part) : Nat := (if p.running = 0 then 2000 else p.running) * 1000

end Sys2Proof.Claims

/-- R242, R259, R260: LAUNCH, with no access of its thread to global memory outstanding, links its node behind the tail of its queue and arms it; the queue's unit consumes the arm word, and a
walk makes a node of no predecessor ready. -/
def Obligations.LaunchAndWalk : Prop :=
  (∀ (ea : EReg) (s : State) (t : Nat) (i : Fin 10) (x : Ctx) (pn pe po : Nat), Here s t i → Issues s threadOnly [eId ea] [] →
    (me s).out.any isStoreOp = false → (∀ p n e, Alone s none p n e) → Sound s → s.noise = [] → s.gfe = [] → alGet s.ctxs (hartCtx s s.cur) = some x →
    let a := (re (me s) ea).toNat
    let v := memRead s.mem pn 64
    let q := cut v 16 12
    let va := (x.qbase.toNat + 64 * q) % 2 ^ 64
    let old := memRead s.mem (pe + 16) 8
    a % 64 = 0 → AtHand s a .read pn → cut v 2 2 = 0 → cut v 13 3 = 0 → cut v 28 4 = 0 → cut v 434 6 = 0 → cut v 460 52 = 0 →
    q < x.qcnt → va % 64 = 0 → AtHand s va .readWrite pe → NoTable s pe → isDevice pe = true → old + 8 < 2 ^ 64 →
    HeldAt s (hartDie s.cur) (hartCtx s s.cur) (old + 8) .write po → (po + 8 ≤ pe ∨ pe + 24 ≤ po) →
      ∃ s', exec (.launch ea) s = .next s' ∧ (getHart s' s.cur).pc = (me s).pc + 4 ∧ (getHart s' s.cur).g = (me s).g ∧
        memRead s'.mem (pe + 16) 8 = a ∧ memRead s'.mem po 8 = a ∧ memRead s'.mem pe 8 = a ∧ gFull s' pe = true) ∧
  (∀ (s : State) (c q : Nat) (x : Ctx) (pe pc pn : Nat), s.ev = .ctxQueue c q → Sound s → s.noise = [] → Memory.wf s.mem = true → s.gfe = [] →
    alGet s.ctxs c = some x → x.destroyed = false → q < x.qcnt →
    let va := (x.qbase.toNat + 64 * q) % 2 ^ 64
    let e := memRead s.mem pe 64
    let d : Fin 4 := Fin.ofNat 4 (cut e 260 2)
    let n := cut (memRead s.mem pc 64) 64 64
    let v := memRead s.mem pn 64
    pe % 64 = 0 → pc % 64 = 0 → pn % 64 = 0 → Apart pe pn → Apart pe pc → Apart pc pn →
    UnitAt s d c va .readWrite pe → UnitAt s d c (cut e 192 64) .read pc → NoTable s pe → NoTable s pn →
    isDevice pe = true → gFull s pe = true →
    n ≠ 0 → n % 64 = 0 → UnitAt s d c n .readWrite pn → cut v 64 64 = 0 → nodeOk x.supok q v = true →
    cut v 448 2 = 0 → cut v 459 1 = 0 → cut v 32 32 = 0 →
      ∃ s', exec .queueWalk s = .next s' ∧ gFull s' pe = false ∧ memRead s'.mem (pn + 56) 8 = walkedStatus v ∧
        memRead s'.mem (pe + 24) 8 = n ∧ ∃ r ∈ (s'.dies.get d).queues, r.ctx = c ∧ r.q = q ∧ n ∈ r.nodes)

/-- R261 to R263, R239, R240: at a period boundary a queue holds a slot when it competes and fewer than 64 outrank it; a mapped queue
dispatches the first of its ready nodes with the highest priority: a kernel is checked, a host notification sends its value with the
queue's vector and completes; a kernel that passes the checks is to be placed, with its header and pool table read and its promise
computed. A queue's pass moves only while it competes, and stays while its EN is clear or its context is not *resident*: the spec does not
say so, it is the model's choice (DESIGN CHOICE; log 22). -/
def Obligations.Dispatch : Prop :=
  (∀ s : State, s.bounds ≤ now s / 100000 → ∃ s', exec .periodBoundary s = .next s' ∧ s'.bounds = s.bounds + 1 ∧
    ∀ d : Fin 4, (s'.dies.get d).queues.length = (s.dies.get d).queues.length ∧
      ∀ (i : Nat) (r r' : QueueRec), (s.dies.get d).queues[i]? = some r → (s'.dies.get d).queues[i]? = some r' →
        r'.ctx = r.ctx ∧ r'.q = r.q ∧ r'.nodes = r.nodes ∧
        (r'.mapped = true ↔ competes s r = true ∧
          ((s.dies.get d).queues.filter fun o => competes s o && outranks s o r).length < 64) ∧
        (r'.p = if (readyNodes s r).isEmpty || r'.mapped then 0 else if competes s r then r.p + 1 else r.p)) ∧
  (∀ (s : State) (c q pn : Nat) (node : Word) (r : QueueRec), s.ev = .node c q node → Sound s → s.noise = [] → Memory.wf s.mem = true →
    let d := qeDie (entryPeek s c q)
    let v := memRead s.mem pn 64
    findRec s d c q = some r → dispatchNext s r = some node.toNat → UnitAt s d c node.toNat .readWrite pn → pn % 64 = 0 →
    NoTable s pn → cut v 440 8 = 0 → cut v 450 1 = 0 →
      (cut v 0 2 = 0 → ∃ s', exec .nodeDispatch s = .next s' ∧ memRead s'.mem (pn + 56) 8 = (cut v 448 64 + 1) % 2 ^ 64 ∧
        s'.launches = s.launches ++ [⟨s.ids + 1, d.val, c, q, node, v, none, none, none, 0, .checking, 0, 0, false, false, 0⟩]) ∧
      (cut v 0 2 = 3 → ∀ pe, UnitAt s d c (entryVa s c q) .readWrite pe → entryVa s c q % 64 = 0 → node.toNat % 64 = 0 →
        OffWalk s c (entryVa s c q) pn → Apart pe pn → NoTable s pe → s.gfe = [] → (∀ l ∈ s.launches, l.key ≤ s.ids) →
        cut v 11 1 = 0 → (s.ports.get 0).up = true →
        let e := memRead s.mem pe 64
        cut e 272 16 ≠ 0 → cut e 272 16 ≤ 2047 →
        ∃ s', exec .nodeDispatch s = .next s' ∧ s'.msix = (cut e 272 16, 0, some (w64 (cut v 192 64))) :: s.msix ∧
          memRead s'.mem (pn + 56) 8 = 3 + 2 ^ 11 * cut v 459 1 ∧ memRead s'.mem (pe + 8) 8 = (cut e 64 64 + 1) % 2 ^ 64 ∧
          s'.launches = s.launches)) ∧
  (∀ (s : State) (l : Launch) (d : Fin 4) (h img tab ph : Nat), s.ev = .key l.key → s.launches.find? (·.key == l.key) = some l →
    l.st = .checking → l.die = d.val → l.hdr = none → l.pool = none → Sound s → s.noise = [] →
    let obj := cut l.nodeV 192 64
    obj % 64 = 0 → HeldAt s d l.ctx obj .read ph → h = memRead s.mem ph 64 → HeaderOk h →
    ReadsAs s d l.ctx (obj + 64) (cut h 96 32) img → ReadsAs s d l.ctx (obj + cut h 224 32) (8 * cut h 256 32) tab →
    (∀ p ∈ pools tab (cut h 256 32), p.1 + p.2 ≤ cut h 96 32) → (∀ a ∈ loadPages h l.nodeV, ∃ pa, HeldAt s d l.ctx (a % 2 ^ 64) .read pa) →
    placeBad s l.ctx l.nodeV = false →
    ∀ p, Promised h img (pools tab (cut h 256 32)) p → (cut l.nodeV 10 1 = 1 → p % 2 = 1) →
      ∃ s', exec .kernelChecking s = .next s' ∧ s'.mem = s.mem ∧
        s'.launches.find? (·.key == l.key) = some { l with st := .placing, hdr := some h, pool := some tab, promise := p })

/-- R244, R245, R258, R143, R144, R159, R237, R241: a group is placed on free tiles of a resident context's partition, loaded tile by tile
with the images and the packet of its launch, released in one step with slot 0 of every tile at the entry point, and retires when its
slots and engines have ended. -/
def Obligations.Groups : Prop :=
  (∀ (s : State) (l : Launch) (p : Fin 32) (ox oy : Nat), s.ev = .key l.key → s.launches.find? (·.key == l.key) = some l →
    l.st = .placing → placeAt s l = some (p, ox, oy) →
    let w := cut l.nodeV 400 8
    let h := cut l.nodeV 408 8
    let n := l.placed + 1
    ∃ s', exec .groupPlacement s = .next s' ∧
      s'.groups = s.groups ++ [⟨s.ids + 1, l.key, l.ctx, p.val, l.placed, ox, oy, w, h, .placed, 0⟩] ∧
      (∀ x < w, ∀ y < h, (getTile s' ((oy + y) * 72 + (ox + x))).grp = some (s.ids + 1)) ∧
      s'.launches.find? (·.key == l.key) = some { l with
        placed := n, st := if n = cut l.nodeV 416 8 * cut l.nodeV 424 8 then .running else .placing }) ∧
  (∀ (s : State) (g : Group) (l : Launch) (h dat win blk arg : Nat), s.ev = .key g.id → findGroup s g.id = some g →
    s.launches.find? (·.key == g.launch) = some l → g.st ≠ .running → g.loaded < g.w * g.h → Runs s g → Sound s → s.noise = [] →
    HeaderOk h → cut h 160 6 ≤ 32 → Loads s l h dat win blk arg →
    let t := (groupTiles g).getD g.loaded 0
    (getTile s t).mheld = [] → (getTile s t).fills = [] →
      ∃ s', exec .groupLoad s = .next s' ∧ findGroup s' g.id = some { g with st := .loading, loaded := g.loaded + 1 } ∧
        LoadedTile (getTile s' t) t g l h dat win blk arg ∧ (getTile s' t).w = (getTile s t).w ∧ (getTile s' t).a = (getTile s t).a ∧
        (getTile s' t).c = (getTile s t).c ∧ s'.mem = s.mem ∧
        s'.launches.find? (·.key == g.launch) = some { l with packet := some (blk, arg, []) }) ∧
  (∀ (s : State) (g : Group) (l : Launch) (h : Nat), s.ev = .key g.id → findGroup s g.id = some g →
    s.launches.find? (·.key == g.launch) = some l → l.hdr = some h → g.st = .loading → g.loaded = g.w * g.h → Runs s g →
    (∀ t ∈ groupTiles g, (getTile s t).fe = []) →
      ∃ s', exec .groupRelease s = .next s' ∧ findGroup s' g.id = some { g with st := .running } ∧
        ∀ t ∈ groupTiles g, FirstThread (getHart s' (.tile t 0)) (w64 (cut l.nodeV 192 64 + 64 + cut h 192 32))
          (w64 (g.index % 2 ^ 16))
          (cut l.nodeV 12 1 == 1 && (match alGet s.ctxs g.ctx with
            | some x => x.supok
            | none => false))) ∧
  (∀ (s : State) (g : Group) (l : Launch), s.ev = .key g.id → findGroup s g.id = some g → MayRetire s g →
    s.launches.find? (·.key == g.launch) = some l → l.st = .running → l.retired + 1 ≠ cut l.nodeV 416 8 * cut l.nodeV 424 8 →
    (∀ t ∈ groupTiles g, (getTile s t).mheld = [] ∧ (getTile s t).fills = []) →
      ∃ s', exec .groupRetire s = .next s' ∧ findGroup s' g.id = none ∧
        (∀ t ∈ groupTiles g, (getTile s' t).grp = none ∧ (getTile s' t).l = (getTile s t).l) ∧
        ∃ b, (b = true ↔ l.trap = true ∨
            (∃ t ∈ groupTiles g, ∃ i : Fin 10, i.val < 7 ∧ (getHart s (.tile t i)).status = .trapped) ∨
            ∃ x, alGet s.ctxs g.ctx = some x ∧ ∃ r ∈ x.saved, r.state.grp = some g.id ∧
              ∃ i : Fin 10, i.val < 7 ∧ (r.state.harts.get i).status = .trapped) ∧
          s'.launches.find? (·.key == g.launch) = some { l with retired := l.retired + 1, trap := b })

/-- R267 to R275: SWREQ answers its status, and a request of status 0 is taken; a slice names a switch; at its time the partition stops,
the outgoing context is saved (or *entering* at once, where the switch names it again), and the incoming one is restored. Two clauses are the
model's choices: a tile without a saved record starts as the reset tile, so its sleepcfg and escwait are back at their reset values (DESIGN
CHOICE; log 43), and a descriptor that cannot be read gives status 1 (log 36). -/
def Obligations.GangSwitch : Prop :=
  (∀ (d a : GReg), ∀ r ∈ [(Instr.swreqSwitch d a), .swreqDefpart d a, .swreqSetrun d a, .swreqDestroy d a], ∀ (s : State) (t : Nat)
    (i : Fin 10) (pb : Nat), Here s t i → (me s).sup = true → Issues s threadOnly [gId a] [gId d] →
    (me s).out.any isStoreOp = false → Sound s → s.noise = [] →
    (rg (me s) a).toNat % 64 = 0 → AtHand s (rg (me s) a).toNat .read pb → Alone s none pb 64 (rg (me s) a) →
    let b := memRead s.mem pb 64
    let p : Fin 32 := Fin.ofNat 32 (cut b 8 5)
    ∀ s2 l, readDescs (wakeSlice (readFilled s [gId a]) pb) (srNamed b) = (s2, none, l) →
      ∃ st s', SwStatus s2 b l st ∧ exec r s = .next s' ∧ (getHart s' s.cur).pc = (me s).pc + 4 ∧
        rg (getHart s' s.cur) d = (if d = 0 then 0 else w64 st) ∧
        (st ≠ 0 → s'.parts = s2.parts ∧ s'.ctxs = s2.ctxs) ∧
        (st = 0 → ∀ n, l = some n →
          (cut b 0 4 = 0 → (s'.parts.get p).sw = some ⟨max (cut b 128 64) (now s + 2000), (n.head?.map (·.1)).getD 0,
            w64 (cut b 64 64), some (hartCtx s s.cur, (getTile s t).repq), 0⟩) ∧
          (cut b 0 4 = 1 → (s'.parts.get p).valid = true ∧ (s'.parts.get p).cx = cut b 192 8 ∧ (s'.parts.get p).cy = cut b 200 8 ∧
            (s'.parts.get p).cw = cut b 208 8 ∧ (s'.parts.get p).ch = cut b 216 8) ∧
          (cut b 0 4 = 2 → (s'.parts.get p).run = n.map (·.1) ∧ (s'.parts.get p).slice = cut b 224 32) ∧
          (cut b 0 4 = 3 → ∀ c ∈ n, (∃ x, alGet s'.ctxs c.1 = some x ∧ x.destroyed = true) ∧ (∀ g ∈ s'.groups, g.ctx ≠ c.1) ∧
            ∀ k : Fin 32, c.1 ∉ (s'.parts.get k).run))) ∧
  (∀ (s : State) (p : Fin 32) (c : Nat), s.ev = .part p.val →
    let x := s.parts.get p
    let l := aliveIn s x
    x.sw = none → x.resident = some c → 2 ≤ l.length → x.start + sliceOfPart x ≤ now s + 2000 →
    ∃ s', exec .timeSliceNaming s = .next s' ∧ ∃ w, (s'.parts.get p).sw = some w ∧ w.phase = 0 ∧ w.issuer = none ∧
      w.t = max (x.start + sliceOfPart x) (now s + 2000) ∧
      (∀ a n r, l = a ++ c :: n :: r → c ∉ a → w.target = n) ∧ (∀ a, l = a ++ [c] → c ∉ a → some w.target = l.head?)) ∧
  (∀ (s : State) (p : Fin 32) (w : Switch), s.ev = .part p.val → (s.parts.get p).sw = some w → w.phase = 0 → w.t ≤ now s →
    (∀ g ∈ s.groups, g.part = p.val → ¬ MayRetire s g) →
    (∀ t ∈ partTiles (s.parts.get p), ∀ (i : Fin 10) (id : Nat), (getHart s (.tile t i)).status ≠ .parked (.remote id) ∧
      (getHart s (.tile t i)).status ≠ .parked (.closing id)) →
    ∃ s', exec .gangSwitchStop s = .next s' ∧ (s'.parts.get p).sw = some { w with phase := 1 } ∧
      (∀ t ∈ partTiles (s.parts.get p), (getTile s' t).fe = [] ∧
        ∀ i : Fin 10, ∀ o ∈ (getHart s' (.tile t i)).out, o.fx = .none → o.await ≠ .time) ∧
      ∀ c x, (s.parts.get p).resident = some c → alGet s.ctxs c = some x → x.destroyed = false →
        ∃ y, alGet s'.ctxs c = some y ∧ alGet y.res p.val = some .leaving ∧ y.ns = x.ns + (w.t - (s.parts.get p).start)) ∧
  (∀ (s : State) (p : Fin 32) (w : Switch), s.ev = .part p.val → (s.parts.get p).sw = some w → w.phase = 1 →
    (∀ r ∈ s.reports, r.src ∉ partTiles (s.parts.get p)) →
    ∃ s', exec .gangSwitchSaveDone s = .next s' ∧ (s'.parts.get p).sw = some { w with phase := 2 } ∧
      (s'.parts.get p).resident = none ∧ (∀ t ∈ partTiles (s.parts.get p), getTile s' t = Tile.reset) ∧
      ∀ c x, (s.parts.get p).resident = some c → alGet s.ctxs c = some x → x.destroyed = false →
        ∃ y, alGet s'.ctxs c = some y ∧ alGet y.res p.val = some (if w.target = c then .entering else .saved) ∧ y.switches = x.switches + 1 ∧
          ((∃ g ∈ s.groups, g.part = p.val ∧ g.ctx = c) → ∀ t ∈ partTiles (s.parts.get p), ⟨p.val, t, getTile s t⟩ ∈ y.saved)) ∧
  (∀ (s : State) (p : Fin 32) (w : Switch), s.ev = .part p.val → (s.parts.get p).sw = some w → w.phase = 2 → Sound s → s.noise = [] →
    ∃ s', exec .gangSwitchRestore s = .next s' ∧ (s'.parts.get p).sw = none ∧
      (s'.parts.get p).resident = (if w.target = 0 then none else some w.target) ∧ (s'.parts.get p).start = now s ∧
      (w.issuer = none → s'.reports = s.reports) ∧
      (∀ c q, w.issuer = some (c, q) → ∃ x, s'.reports = s.reports ++ [x] ∧ x.ctx = c ∧ x.repq = q ∧ cut x.data 0 8 = 10) ∧
      (∀ t ∈ partTiles (s.parts.get p), ∀ d : Fin 4, ∀ e ∈ (s'.dies.get d).tlb, e.at_ ≠ .tile t ∧ e.at_ ≠ .cluster (clusterOf t)) ∧
      ∀ x, alGet s.ctxs w.target = some x →
        (x.destroyed = false → ∃ y, alGet s'.ctxs w.target = some y ∧ alGet y.res p.val = some .resident) ∧
        ∀ t ∈ partTiles (s.parts.get p), (∀ r ∈ x.saved, r.part = p.val → r.tile ≠ t) →
          getTile s' t = { Tile.reset with ctx := w.target, repq := w64 (x.repq.toNat / 64 * 64) })

namespace Sys2Proof.Claims

open Sys2Proof.Machine

/-! ## Collectives, translation control, links, reports (R272, R275, R286 to R288, R330, R331, R335 to R339) -/

/-- The data functions of COLL, and whether each reduces (R336). -/
def collRows (la : La) (n : GLow) (ec eb ea : EReg) : List (Instr × CollFn × Bool) :=
  [ (.collAg la n ec eb ea, .ag, false), (.collRsO la n ec eb ea, .rsO, true), (.collRsU la n ec eb ea, .rsU, true),
    (.collArO la n ec eb ea, .arO, true), (.collArU la n ec eb ea, .arU, true), (.collA2a la n ec eb ea, .a2a, false) ]

/-- Elements of the source and of the destination for `n` members (R337). -/
def sourceWords (f : CollFn) (n c : Nat) : Nat := if f = .rsO ∨ f = .rsU ∨ f = .a2a then n * c else c
def destWords (f : CollFn) (n c : Nat) : Nat := if f = .ag ∨ f = .a2a then n * c else c

/-- A collective as it is handed to the unit. -/
def issuedColl (s : State) (f : CollFn) (src dst : Word) (gid c ty desc : Nat) (tag : Word) : Coll where
  id := s.ids + 1
  hart := s.cur
  pc := (me s).pc
  ctx := hartCtx s s.cur
  fn := f
  gid := gid
  seq := 0
  src := src
  dst := dst
  c := c
  ty := ty
  tag := tag
  desc := desc
  st := .issued
  acc := 0
  fault := false
  bad := false
  heard := []
  status := 0

/-- The collective has been handed over, and its instruction is outstanding until the unit accepts it (R338). -/
def Handed (s s' : State) (la : La) (x : Coll) : Prop :=
  s'.colls = s.colls ++ [x] ∧ (getHart s' s.cur).pc = (me s).pc + 4 ∧ (getHart s' s.cur).g = (me s).g ∧ s'.mem = s.mem ∧
    (getHart s' s.cur).out.getLast? = some (awaiting (me s) la.val (.accept x.id))

/-- A group descriptor is valid (R335). -/
def DescriptorOk (v : Nat) : Prop :=
  cut v 6 2 = 0 ∧ cut v 13 3 = 0 ∧ cut v 20 12 = 0 ∧ cut v 192 320 = 0 ∧
    let n := cut v 8 5
    let rank := cut v 16 4
    1 ≤ n ∧ n ≤ 16 ∧ rank < n ∧ cut v (64 + 8 * rank) 8 = 255 ∧
      (∀ k < n, k ≠ rank → cut v (64 + 8 * k) 8 < 16) ∧
      ∀ j < n, ∀ k < n, j ≠ rank → k ≠ rank → cut v (64 + 8 * j) 8 = cut v (64 + 8 * k) 8 → j = k

/-- The code of a function (R336). -/
def codeOf (f : CollFn) : Nat :=
  match f with
  | .decl => 0
  | .ag => 1
  | .rsO => 2
  | .rsU => 3
  | .arO => 4
  | .arU => 5
  | .a2a => 6
  | .bar => 7

/-- What has arrived for a collective: of its context, group and number, and a declaration for a declaration (R338). -/
def sentFor (s : State) (x : Coll) : List CollIn :=
  s.collIn.filter fun i => i.ctx == x.ctx && i.gid == x.gid && i.seq == x.seq && (i.ans.f == 0) == (x.fn == .decl)

/-- A member has supplied something for the collective, and nothing of another shape (R338, R339). -/
def Supplied (s : State) (x : Coll) (k : Nat) : Prop :=
  (∃ i ∈ sentFor s x, i.member = k) ∧
    ∀ i ∈ sentFor s x, i.member = k → i.ans.f = codeOf x.fn ∧ i.ans.c = x.c ∧ i.ans.ty = x.ty

/-- The thread of an issued collective has nothing left to wait for (R338): its tile runs, and each store and fill that it issued before
is acknowledged. -/
def ThreadDone (s : State) (x : Coll) : Prop :=
  let t := (tileOf? x.hart).getD 0
  x.st = .issued ∧ tileRuns s t = true ∧ (getTile s t).ctx = x.ctx ∧
    ∀ o ∈ (getHart s x.hart).out.takeWhile (fun o => o.await != .accept x.id),
      (∃ n, o.await = .accept n) ∨ o.await = .move ∨ (∀ n, o.await ≠ .fill n) ∧ isStoreOp o = false

/-- The unit may accept the collective (R338): its thread is done, as that of no collective of its group before it is, and fewer than 64
are in flight. -/
structure Acceptable (s : State) (x : Coll) : Prop where
  done : ThreadDone s x
  room : (s.colls.filter (·.st != .issued)).length < 64
  first : ∀ y ∈ s.colls.takeWhile (fun y => y.id != x.id), y.ctx = x.ctx → y.gid = x.gid → ¬ ThreadDone s y

/-- The collective is the next of its group to run (R338). -/
def NextToRun (s : State) (x : Coll) : Prop :=
  x.st = .accepted ∧ ∀ y ∈ s.colls, y.ctx = x.ctx → y.gid = x.gid → y.st ≠ .running ∧ (y.st = .accepted → x.acc ≤ y.acc)

/-- The words of source `v` that member `k` receives (R337). -/
def wordsTo (f : CollFn) (c v k : Nat) : List W32 :=
  (List.range c).map fun i => BitVec.ofNat 32 (cut v (32 * ((if f = .rsO ∨ f = .rsU ∨ f = .a2a then k * c else 0) + i)) 32)

/-! ### The destination (R163, R337, R339, R354, R355) -/

def summing (f : CollFn) : Bool := f == .rsO || f == .rsU || f == .arO || f == .arU

/-- The words that member `k` has sent. -/
def wordsBy (l : List CollIn) (k : Nat) : List W32 :=
  match l.find? (·.member == k) with
  | some i => i.ans.words
  | none => []

/-- The elements of block `b`, of `d` elements, that member `k` supplies, and which of its words the first of them is. -/
def pieceOf (x : Coll) (d b k : Nat) : Nat × Nat × Nat :=
  if summing x.fn then (64 * b, min (64 * b + 64) d, 64 * b)
  else (max (64 * b) (k * x.c), min (min (64 * b + 64) d) ((k + 1) * x.c), max (64 * b) (k * x.c) - k * x.c)

/-- Member `k`'s data for block `b` arrived in full. -/
def enters (x : Coll) (l : List CollIn) (d b k : Nat) : Bool :=
  let p := pieceOf x d b k
  decide (p.1 < p.2.1 ∧ p.2.2 + (p.2.1 - p.1) ≤ (wordsBy l k).length)

/-- The value of destination element `j` of `d`, none where nothing is written. -/
def elementAt (x : Coll) (n : Nat) (l : List CollIn) (d j : Nat) : Option Nat :=
  let word (k i : Nat) : Nat := ((wordsBy l k).getD i 0).toNat
  let leaf (k : Nat) : Option Nat := if enters x l d (j / 64) k then some (word k j) else none
  if summing x.fn then
    if (List.range n).any (enters x l d (j / 64)) then some (
      if x.ty = 1 then ((List.range n).filterMap leaf).sum % 2 ^ 32
      else if x.fn = .rsU ∨ x.fn = .arU then
        match l.filterMap fun i => leaf i.member with
        | a :: r => r.foldl (fun a b => (add32 a b).1) a
        | [] => 0
      else
        let v := (orderedTree ((List.range n).map leaf)).1
        if fv v = .nan then nan32 else v)
    else none
  else if enters x l d (j / 64) (j / x.c) then some (word (j / x.c) (j % x.c)) else none

/-- The sum of 2^k over the members that pass. -/
def bitsOf (n : Nat) (f : Nat → Bool) : Nat := (((List.range n).filter f).map fun k => 2 ^ k).sum

/-- A data collective may write: its members are done, each has sent at most once and in its shape, and the places of the `d` elements
and of the masks are at hand and apart (R339). -/
structure Writable (s : State) (x : Coll) (g : CollGroup) (d m0 : Nat) (P M : Nat → Nat) : Prop where
  running : x.st = .running ∧ x.fault = false ∧ x.bad = false ∧ x.fn ≠ .bar ∧ x.fn ≠ .decl
  group : findColl s x.ctx x.gid = some g ∧ g.n ≤ 16 ∧ 1 ≤ x.c
  once : ((sentFor s x).map (·.member)).Nodup
  shape : ∀ i ∈ sentFor s x, i.member < g.n ∧ i.ans.f = codeOf x.fn ∧ i.ans.c = x.c ∧ i.ans.ty = x.ty ∧ i.ans.words.length ≤ x.c ∧
    i.ans.bad = []
  done : ∀ k < g.n, k = g.rank ∨ k ∈ g.down ∨ x.c ≤ (wordsBy (sentFor s x) k).length
  sound : Sound s ∧ s.noise = [] ∧ Memory.wf s.mem = true
  place : x.dst.toNat % 4 = 0 ∧ m0 = (x.dst.toNat + 4 * d + 63) / 64 * 64 ∧ m0 + 2 * ((d + 63) / 64) ≤ 2 ^ 64
  elems : ∀ j < d, HeldAt s (hartDie x.hart) x.ctx (x.dst.toNat + 4 * j) .write (P j) ∧ NoTable s (P j)
  masks : ∀ b < (d + 63) / 64, HeldAt s (hartDie x.hart) x.ctx (m0 + 2 * b) .write (M b) ∧ NoTable s (M b)
  apart : (∀ i < d, ∀ j < d, i ≠ j → P i + 4 ≤ P j ∨ P j + 4 ≤ P i) ∧
    (∀ a < (d + 63) / 64, ∀ b < (d + 63) / 64, a ≠ b → M a + 2 ≤ M b ∨ M b + 2 ≤ M a) ∧
    ∀ j < d, ∀ b < (d + 63) / 64, P j + 4 ≤ M b ∨ M b + 2 ≤ P j

/-- The link status word (R331). -/
def linkWord (x : Link) : Nat :=
  (match x.st with
    | .down => 0
    | .training => 1
    | .up => 2) + x.ver % 4 * 2 ^ 2 + x.width % 16 * 2 ^ 4 + x.good.toNat * 2 ^ 8 + x.maxw % 16 * 2 ^ 16 + x.peer.toNat * 2 ^ 32 +
    x.downs % 65536 * 2 ^ 48

/-- The stripe width that the healthy wavelengths allow: 8, 4, 2, 1, or 0 for none (R328). -/
def widthOf (good : BitVec 8) : Nat :=
  let n := (List.range 8).countP fun i => good.getLsbD i
  if n = 8 then 8 else if 4 ≤ n then 4 else if 2 ≤ n then 2 else n

/-- What TLBPROBE tells of a leaf (R288): where it may not be read (R281), outcome 2 and no address (log 45). -/
def probeValue (t : Tfd) (pte lvl pa : Nat) : Nat :=
  let f (p : Nat) : Nat := pte / 2 ^ p % 2
  let read := f t.rpos = 1 ∧ (t.ureq = true → f t.upos = 1)
  1 + 2 * f t.rpos + 4 * f t.wpos + 8 * f t.xpos + 16 * f t.upos + 32 * f t.apos + 64 * f t.dpos + 128 * lvl +
    if read then pa / 4096 * 4096 else 2 * 2 ^ 9

end Sys2Proof.Claims

/-- R335 to R339, R354, R355: the collectives are handed to their unit; it accepts them with a sequence number, and a declaration makes a
group; a started one sends and counts its own part; what members send is kept; a silent member is down; the end writes what the members
supplied and the masks, and posts tag and status. -/
def Obligations.Collectives : Prop :=
  (∀ (la : La) (n : GLow) (ec eb ea : EReg) (s : State) (t : Nat) (i : Fin 10), Here s t i → (me s).out.length < 4 →
    let cw := (re (me s) ec).toNat
    let src := re (me s) ea
    let dst := re (me s) eb
    let tag := rg (me s) (low n)
    (∀ g x, findColl s (hartCtx s s.cur) (cut cw 40 6) = some g → g.st = 2 → alGet s.ctxs (hartCtx s s.cur) = some x →
      cut cw 34 6 = 0 → cw < 2 ^ 46 →
      (∀ r ∈ collRows la n ec eb ea, Issues s threadOnly [eId ea, eId eb, eId ec, gId (low n)] [] →
        cut cw 32 2 < (if r.2.2 then 2 else 3) → cut cw 0 32 ≠ 0 →
        src.toNat + 4 * sourceWords r.2.1 g.n (cut cw 0 32) ≤ 2 ^ 64 → dst.toNat + 4 * destWords r.2.1 g.n (cut cw 0 32) ≤ 2 ^ 64 →
        src.toNat % 4 = 0 → dst.toNat % 4 = 0 → canonical x.tfd src.toNat = true → canonical x.tfd dst.toNat = true →
          ∃ s', exec r.1 s = .next s' ∧
            Handed s s' la (issuedColl s r.2.1 src dst (cut cw 40 6) (cut cw 0 32) (cut cw 32 2) 0 tag)) ∧
      (Issues s threadOnly [eId ec, gId (low n)] [] → cut cw 0 32 = 0 → cut cw 32 2 = 0 →
        ∃ s', exec (.collBar la n ec) s = .next s' ∧ Handed s s' la (issuedColl s .bar 0 0 (cut cw 40 6) 0 0 0 tag))) ∧
    (∀ pd, Issues s threadOnly [eId ea, gId (low n)] [] → src.toNat % 64 = 0 → AtHand s src.toNat .read pd → Alone s none pd 64 src → Sound s → s.noise = [] →
      let v := memRead s.mem pd 64
      DescriptorOk v → (∀ y ∈ s.colls, ¬ (y.ctx = hartCtx s s.cur ∧ y.gid = cut v 0 6)) →
        ∃ s', exec (.collDecl la n ea) s = .next s' ∧ Handed s s' la (issuedColl s .decl 0 0 (cut v 0 6) 0 0 v tag))) ∧
  (∀ (s : State) (x : Coll), s.ev = .key x.id → s.colls.find? (·.id == x.id) = some x →
    (Acceptable s x →
      (x.fn = .decl → ∃ s' g, exec .collAccept s = .next s' ∧ findColl s' x.ctx (cut x.desc 0 6) = some g ∧ g.st = 1 ∧
        g.n = cut x.desc 8 5 ∧ g.rank = cut x.desc 16 4 ∧ g.tmo = cut x.desc 32 32 ∧ g.seq = 1 ∧
        (∀ k < g.n, k ∈ g.down ↔ k ≠ g.rank ∧ ¬ let lk := s.links.get (Fin.ofNat 16 (cut x.desc (64 + 8 * k) 8))
          (lk.st = .up ∧ 2 ≤ lk.ver)) ∧
        s'.colls.find? (·.id == x.id) = some { x with st := .accepted, seq := 0, acc := s.ids + 1 } ∧
        (getHart s' x.hart).out = (getHart s x.hart).out.filter fun o => o.await != .accept x.id) ∧
      (∀ g, x.fn ≠ .decl → findColl s x.ctx x.gid = some g → ∃ s', exec .collAccept s = .next s' ∧
        s'.colls.find? (·.id == x.id) = some { x with st := .accepted, seq := g.seq, acc := s.ids + 1 } ∧
        (∃ g', findColl s' x.ctx x.gid = some g' ∧ g'.seq = (g.seq + 1) % 2 ^ 32 ∧ g'.n = g.n ∧ g'.st = g.st) ∧
        (getHart s' x.hart).out = (getHart s x.hart).out.filter fun o => o.await != .accept x.id)) ∧
    (∀ g, NextToRun s x → findColl s x.ctx x.gid = some g → (∀ i ∈ sentFor s x, i.member ∉ g.down) →
      ((x.fn = .bar ∨ x.fn = .decl) →
        ∃ s' y, exec .collAccept s = .next s' ∧ s'.colls.find? (·.id == x.id) = some y ∧ y.st = .running ∧ y.fault = false ∧
          s'.collIn = s.collIn ++ [⟨x.ctx, x.gid, x.seq, g.rank, ⟨codeOf x.fn, x.c, x.ty, [], []⟩⟩]) ∧
      (∀ v, x.fn ≠ .bar → x.fn ≠ .decl → Sound s → s.noise = [] → x.src.toNat % 4 = 0 → g.rank < g.n →
        ReadsAs s (hartDie x.hart) x.ctx x.src.toNat (4 * sourceWords x.fn g.n x.c) v →
        ∃ s' y, exec .collAccept s = .next s' ∧ s'.colls.find? (·.id == x.id) = some y ∧ y.st = .running ∧ y.fault = false ∧
          s'.mem = s.mem ∧
          s'.collIn = s.collIn ++ [⟨x.ctx, x.gid, x.seq, g.rank, ⟨codeOf x.fn, x.c, x.ty, [], wordsTo x.fn x.c v g.rank⟩⟩] ∧
          (x.c ≤ 16 → ∀ k < g.n, k ≠ g.rank → k ∉ g.down → ∀ lk : Fin 16, g.mem.getD k 255 = lk.val → (s.links.get lk).st = .up →
            (∀ j < g.n, j ≠ k → j ≠ g.rank → (g.mem.getD j 255) % 16 ≠ lk.val) →
            (s'.links.get lk).queue = (s.links.get lk).queue ++
              [.coll x.ctx x.gid x.seq g.rank ⟨codeOf x.fn, x.c, x.ty, [], wordsTo x.fn x.c v k⟩]))) ∧
    (∀ g, findColl s x.ctx x.gid = some g → x.st = .running → (x.fn = .bar ∨ x.fn = .decl) → g.n ≤ 16 → x.c = 0 → x.fault = false →
      (∀ k < g.n, k = g.rank ∨ k ∈ g.down ∨ ∃ i ∈ sentFor s x, i.member = k) →
      ∃ s' y, exec .collPost s = .next s' ∧ s'.colls.find? (·.id == x.id) = some y ∧ y.st = .posting ∧ s'.mem = s.mem ∧
        (∀ k < g.n, y.status / 2 ^ k % 2 = 1 ↔ Supplied s x k) ∧
        (x.fn = .decl → ∃ g', findColl s' x.ctx x.gid = some g' ∧ g'.st = 2)) ∧
    (∀ g m0 P M, let d := destWords x.fn g.n x.c
      let l := sentFor s x
      Writable s x g d m0 P M →
        ∃ s' y, exec .collPost s = .next s' ∧ s'.colls.find? (·.id == x.id) = some y ∧ y.st = .posting ∧
          (∀ j < d, memRead s'.mem (P j) 4 = (elementAt x g.n l d j).getD (memRead s.mem (P j) 4)) ∧
          (∀ b < (d + 63) / 64, memRead s'.mem (M b) 2 = bitsOf g.n (enters x l d b)) ∧
          let full (k : Nat) : Bool := decide (x.c ≤ (wordsBy l k).length)
          y.status = bitsOf g.n full + 2 ^ 16 * (if (List.range g.n).all full then 0 else 1)) ∧
    (∀ g t, x.st = .posting → findColl s x.ctx x.gid = some g → tileOf? x.hart = some t → tileTarget s x.ctx t 0 = .ok t 0 →
      stopped s t = false → (getTile s t).mbox.length < 32 →
        ∃ s', exec .collPost s = .next s' ∧ s'.colls.find? (·.id == x.id) = none ∧
          (getTile s' t).mbox = (getTile s t).mbox ++ [⟨x.tag, w64 x.status, true, none⟩])) ∧
  (∀ (s : State) (c gid seq k : Nat) (a : CollAnswer), s.ev = .coll c gid seq k a →
    (a.f = 0 ∨ ∀ g ∈ s.collGroups, g.ctx = c → g.gid = gid → k ∉ g.down) →
      ∃ s', exec .collMemberAnswer s = .next s' ∧ s'.collIn = s.collIn ++ [⟨c, gid, seq, k, a⟩] ∧ s'.mem = s.mem) ∧
  (∀ (s : State) (x : Coll) (k : Nat) (g : CollGroup), s.ev = .collMember x.id k → s.colls.find? (·.id == x.id) = some x →
    findColl s x.ctx x.gid = some g → x.st = .running → k < g.n → k ≠ g.rank → k ∉ g.down → (∀ i ∈ sentFor s x, i.member ≠ k) →
    ∀ c, alGet x.heard k = some c → c + 2400 * (if g.tmo = 0 then 10000 else g.tmo) ≤ s.cycle →
      ∃ s' g', exec .collMemberTimeout s = .next s' ∧ findColl s' x.ctx x.gid = some g' ∧ k ∈ g'.down ∧ ∀ j ∈ g.down, j ∈ g'.down)

/-- R286 to R288, R330, R331: TLBINV drops the translations that it names from every die; TLBPROBE tells what the address
translates to and sends no request; LKCTL tells the link's status and sets its thresholds or its maximum width, or trains it anew. What TLBPROBE tells of a leaf that may not be read (outcome 2, with the bits of the leaf and no address)
is the model's reading (DEDUCED; log 45). -/
def Obligations.PrivilegedControl : Prop :=
  (∀ (b a d : GReg) (s : State) (t : Nat) (i : Fin 10), Here s t i → (me s).sup = true →
    let w := (rg (me s) b).toNat
    let va := (rg (me s) a).toNat
    let c := if cut w 16 16 = 0 then hartCtx s s.cur else cut w 16 16
    (Issues s threadOnly [gId a, gId b] [] → (me s).out = [] → w < 2 ^ 32 → cut w 2 14 = 0 → cut w 0 2 ≠ 3 →
      ∃ s', exec (.tlbinv b a) s = .next s' ∧ (getHart s' s.cur).pc = (me s).pc + 4 ∧ (getHart s' s.cur).g = (me s).g ∧
        s'.mem = s.mem ∧ ∀ k : Fin 4,
          (∀ e : Tlb, e ∈ (s'.dies.get k).tlb ↔ e ∈ (s.dies.get k).tlb ∧
            ¬ (cut w 0 2 = 2 ∨ e.ctx = c ∧ (cut w 0 2 = 1 ∨ va / 2 ^ (12 + 9 * e.lvl) = e.vpn / 2 ^ (9 * e.lvl)))) ∧
          ∀ e : WalkEntry, e ∈ (s'.dies.get k).wcache ↔ e ∈ (s.dies.get k).wcache ∧
            ¬ (cut w 0 2 = 2 ∨ e.ctx = c ∧ (cut w 0 2 = 1 ∨ va / 2 ^ (21 + 9 * e.lvl) = e.pre))) ∧
    (Issues s threadOnly [gId a] [gId d] → ∀ x, alGet s.ctxs (hartCtx s s.cur) = some x →
      let found (h : Holder) := tlbFind (s.dies.get (hartDie s.cur)) h (hartCtx s s.cur) va
      (canonical x.tfd va = false → exec (.tlbprobe d a) s = .next (finished s [gId a] 4 fun h => wg h d (w64 (3 * 2 ^ 9)))) ∧
      (∀ e, canonical x.tfd va = true → (found (.tile t) = some e ∨ found (.tile t) = none ∧ found (.cluster (clusterOf t)) = some e) →
        exec (.tlbprobe d a) s = .next (finished s [gId a] 4 fun h => wg h d
          (w64 (probeValue x.tfd e.pte e.lvl (e.frame * 4096 + va % 2 ^ (12 + 9 * e.lvl)))))) ∧
      (canonical x.tfd va = true → found (.tile t) = none → found (.cluster (clusterOf t)) = none →
        (∀ e ∈ (s.dies.get (hartDie s.cur)).wcache, e.ctx ≠ hartCtx s s.cur) → s.noise = [] →
        ∃ s', exec (.tlbprobe d a) s = .next s' ∧ (getHart s' s.cur).pc = (me s).pc + 4 ∧ s'.mem = s.mem ∧
          (∀ k : Fin 4, (s'.dies.get k).preq = (s.dies.get k).preq) ∧
          (d ≠ 0 → ((walk s x va).1 = .absent → rg (getHart s' s.cur) d = w64 (2 ^ 9)) ∧
            ((walk s x va).1 = .fault → rg (getHart s' s.cur) d = w64 (2 * 2 ^ 9)) ∧
            ∀ l, (walk s x va).1 = .leaf l → rg (getHart s' s.cur) d =
              w64 (probeValue x.tfd l.pte l.lvl (l.frame * 4096 + va % 2 ^ (12 + 9 * l.lvl))))))) ∧
  (∀ (d a b : GReg), ∀ r ∈ [(Instr.lkctlStatus d a b), .lkctlThresh d a b, .lkctlMaxw d a b, .lkctlRetrain d a b],
    ∀ (s : State) (t : Nat) (i : Fin 10), Here s t i → (me s).sup = true → Issues s threadOnly [gId a, gId b] [gId d] →
      let v := (rg (me s) a).toNat
      let w := (rg (me s) b).toNat
      let l : Fin 16 := Fin.ofNat 16 (cut v 0 4)
      let op := cut v 4 4
      let x := s.links.get l
      v < 2 ^ 8 → op ≤ 3 → ((op = 0 ∨ op = 3) → w = 0) →
      (op = 1 → w < 2 ^ 48 ∧ cut w 16 16 < cut w 0 16) → (op = 2 → w = 1 ∨ w = 2 ∨ w = 4 ∨ w = 8) →
        ∃ s', exec r s = .next s' ∧ (op ≠ 3 → (getHart s' s.cur).pc = (me s).pc + 4) ∧
          rg (getHart s' s.cur) d = (if d = 0 then 0 else w64 (linkWord x)) ∧
          (op = 0 → s'.links = s.links) ∧
          (op = 1 → s'.links.get l = { x with wide := cut w 0 16, narrow := cut w 16 16, hold := cut w 32 16 }) ∧
          (op = 2 → (s'.links.get l).maxw = w ∧ (s'.links.get l).st = x.st ∧ (s'.links.get l).good = x.good ∧
            (x.st = .up → x.ver < 3 → (s'.links.get l).width = min w (widthOf x.good))) ∧
          (op = 3 → (s'.links.get l).st = .training ∧ (s'.links.get l).train = s.cycle ∧
            (s'.links.get l).downs = if x.st = .up then min (x.downs + 1) 65535 else x.downs) ∧
          ∀ j : Fin 16, j ≠ l → s'.links.get j = s.links.get j)

/-- R272, R273, R275: REPORT puts its record into the tile's report queue and counts head and notify on; where the queue is full, the report
is counted as lost. -/
def Obligations.Reports : Prop :=
  ∀ (b a : GReg) (s : State) (t : Nat) (i : Fin 10) (ph pr : Nat), Here s t i → (me s).sup = true →
    Issues s threadOnly [gId a, gId b] [] → s.reports = [] → s.gfe = [] → s.gqWait = [] → Sound s → s.noise = [] → Memory.wf s.mem = true →
    let q := (getTile s t).repq.toNat / 64 * 64
    let c := (getTile s t).ctx
    let h := memRead s.mem ph 64
    let used := (cut h 128 64 + 2 ^ 64 - cut h 192 64) % 2 ^ 64
    let rec' := (cut h 0 64 + 64 * (cut h 128 64 % 2 ^ cut h 64 16)) % 2 ^ 64
    q ≠ 0 → HeldAt s (dieOf t) c q .readWrite ph → cut h 0 6 = 0 → 4 ≤ cut h 64 16 → cut h 64 16 ≤ 16 → cut h 80 48 = 0 →
    cut h 400 112 = 0 →
      (2 ^ cut h 64 16 ≤ used → ∃ s', exec (.report b a) s = .next s' ∧ (getHart s' s.cur).pc = (me s).pc + 4 ∧
        memRead s'.mem (ph + 32) 8 = (cut h 256 64 + 1) % 2 ^ 64 ∧ memRead s'.mem (ph + 16) 8 = cut h 128 64) ∧
      (used < 2 ^ cut h 64 16 → HeldAt s (dieOf t) c rec' .write pr → ph / 64 ≠ pr / 64 →
      ∃ s', exec (.report b a) s = .next s' ∧ (getHart s' s.cur).pc = (me s).pc + 4 ∧ (getHart s' s.cur).g = (me s).g ∧
        memRead s'.mem pr 1 = 11 ∧ memRead s'.mem (pr + 2) 2 = t % 2 ^ 16 ∧ memRead s'.mem (pr + 4) 1 = i.val ∧
        memRead s'.mem (pr + 8) 8 = (me s).pc.toNat ∧ memRead s'.mem (pr + 16) 8 = (rg (me s) a).toNat ∧
        memRead s'.mem (pr + 24) 8 = s.cycle * 5 / 12 % 2 ^ 64 ∧ memRead s'.mem (pr + 40) 8 = (rg (me s) b).toNat ∧
        memRead s'.mem (ph + 16) 8 = (cut h 128 64 + 1) % 2 ^ 64 ∧ memRead s'.mem (ph + 40) 8 = (cut h 128 64 + 1) % 2 ^ 64 ∧
        (isDevice (ph + 40) = true → gFull s' (ph + 40) = true))

namespace Sys2Proof.Claims

open Sys2Proof.Machine

/-! ## Events (R50, R57, R60, R64, R77, R84, R98, R99, R142, R148, R253, R280, R284, R285, R301, R323 to R329, R334, R341 to R347) -/

/-- A register of the hart itself, within its class. -/
def ownReg (r : RegId) : Prop :=
  match r.cls with
  | .g => r.idx < 32
  | .e => r.idx < 8
  | .v => r.idx < 16
  | .k => r.idx < 4
  | .c | .q | .latch => False

/-- A wait of the hart has come to its limit: wlim is not 0 and 256 cycles for each of its counts have passed (R57, R99). -/
def waitOver (s : State) (h : HartId) : Prop :=
  (getHart s h).wlim ≠ 0 ∧ (getHart s h).since + (getHart s h).wlim.toNat * 256 ≤ s.cycle

/-- The hart's tile runs; a mender always does. -/
def placeRuns (s : State) (h : HartId) : Prop := ∀ t, tileOf? h = some t → tileRuns s t = true

/-- Only the hart's status has changed. -/
def statusSet (s : State) (h : HartId) (x : Status) : State := setHart s h { getHart s h with status := x }

/-- A report of kind `kind` has been made, for tile `t`, with d0 and d1 (R368). -/
def reported (s s' : State) (t kind d0 d1 : Nat) : Prop :=
  ∃ r, s'.reports = s.reports ++ [r] ∧ r.ctx = (getTile s t).ctx ∧ r.repq = (getTile s t).repq ∧ cut r.data 0 8 = kind ∧
    cut r.data 16 16 = t % 2 ^ 16 ∧ cut r.data 256 64 = d0 % 2 ^ 64 ∧ cut r.data 320 64 = d1 % 2 ^ 64

/-- The cause of a full/empty wait at its limit (R99). -/
def waitCause (sp : AmoSpace) : Nat :=
  match sp with
  | .l => 0x30
  | .m => 0x31
  | .g => 0x32

/-- The link goes *down* (R326): what was queued is lost, and the count of downs goes up. -/
def WentDown (x y : Link) : Prop :=
  y.st = .down ∧ y.ver = 0 ∧ y.width = 0 ∧ y.rxWidth = 0 ∧ y.queue = [] ∧ y.part = 0 ∧ y.wake = none ∧
    y.downs = min (x.downs + 1) 65535 ∧ y.maxw = x.maxw ∧ y.good = x.good

/-- The number of ones of a mask of wavelengths, and the width of a stripe of at most `n` (R328). -/
def ones (g : BitVec 8) : Nat := (List.range 8).countP fun i => g.getLsbD i
def stripe (n : Nat) : Nat := if 8 ≤ n then 8 else if 4 ≤ n then 4 else if 2 ≤ n then 2 else n

/-- The width that a link may take at most (R328). -/
def widest (x : Link) : Nat := stripe (min (ones x.good) x.maxw)

/-- Flit `b` inserted into the queue at the next stripe boundary: behind a flit that is partly sent (R329). -/
def inserted (x : Link) (b : FlitBody) : List FlitBody :=
  match x.queue with
  | q :: r => if x.part = 0 then b :: q :: r else q :: b :: r
  | [] => [b]

/-- No width flit waits to leave. -/
def Steady (l : List FlitBody) : Prop := .widen ∉ l ∧ .narrow ∉ l

/-- A die's entry of the error block. -/
def errOf (s : State) (d : Fin 4) : ErrBlock := (s.dies.get d).err

/-- The check that an image fails first (R344): 1 its digest, 2 its signature or the key, 3 its version; 0 for none. -/
def imageFault (s : State) (x : Image) : Nat :=
  if Config.sha3 x.len x.body ≠ x.digest then 1
  else if Config.sha3 1312 s.bootKey ≠ s.keyFuse ∨ Config.verifies s.bootKey x.digest x.sig = false then 2
  else if x.ver < s.rollback then 3
  else 0

/-- What its host offers lets a port train: CXL 3 with one of the two modes of 256-byte flits. It trains to the lower version and the
common features (R8, R324; log 6). -/
def offers (v f : Nat) : Prop := 3 ≤ v ∧ f % 4 ≠ 0
def trainable (p : Port) : Prop := ∃ v f, p.offer = some (v, f) ∧ offers v f
def TrainedTo (p q : Port) : Prop :=
  (∀ v f, p.offer = some (v, f) → offers v f → q.up = true ∧ q.ver = min 3 v ∧ q.feat = f &&& 31 ∧ q.keys = []) ∧
    (¬ trainable p → q.up = false)

/-- An image as it runs: at the highest version that both sides support (R8, R344; log 6). -/
def running (x : Image) : Image := { x with runs := some (min (Config.imageVersion x.kind) x.ver) }

/-- The host reaches device memory: a port is up, and back-invalidate was negotiated on it (R324; log 6). -/
def Coherent (s : State) : Prop := ∃ p : Fin 2, (s.ports.get p).up = true ∧ (s.ports.get p).feat / 4 % 2 = 1

/-- Values of given sizes in bytes, one behind the other. -/
def glued : List (Nat × Nat) → Nat
  | [] => 0
  | p :: r => p.2 % 256 ^ p.1 + 256 ^ p.1 * glued r

/-- What the report signs: nonce, devid, digest and version of each image that was loaded, public key (R346; sizes in log 23). -/
def signedPart (s : State) (nonce : BitVec 256) (id : BitVec 16) : List (Nat × Nat) :=
  (32, nonce.toNat) :: (2, id.toNat) :: ((s.images.filter fun i => i.runs.isSome).flatMap fun i => [(32, i.digest), (4, i.ver)]) ++ [(1312, s.idPub)]

/-- The port that carries a message to the host: port 0, or port 1 while it alone is up (R324, R325). -/
def ViaPort (s : State) (p : Nat) : Prop :=
  (p = 0 ∧ (s.ports.get 0).up = true) ∨ (p = 1 ∧ (s.ports.get 0).up = false ∧ (s.ports.get 1).up = true)

/-- An address of the alias region (R259, R324). -/
def aliasAt (off : Nat) : Nat := Config.hdmBase + 0xC0_0000_0000 + off

end Sys2Proof.Claims

/-- R60, R57, R98, R99, R108, R219, R77, R84, R50: a long operation that is due writes its registers and its flags and is no longer
outstanding, and ends the fence of an atomic; a wait at its limit traps; a refused request or PUTR is made again; a PARK ends at its
deadline; a word that is no instruction is illegal. -/
def Obligations.HartEvents : Prop :=
  (∀ (s : State) (h : HartId) (i : Nat) (o : LongOp), OpDue s h i o → o.fx = .none → o.win = [] →
    ((∀ w ∈ o.wbs, ownReg w.reg) → ∃ s', exec .longOpComplete s = .next s' ∧ s'.mem = s.mem ∧
      getHart s' h = (let x := o.wbs.foldl (fun x w => putHartReg x w.reg w.val) (getHart s h)
        { x with fflags := x.fflags ||| o.flags, pre := x.pre || o.pre, out := x.out.eraseIdx i,
                 status := if o.inl && x.status == .inline then .ready else x.status })) ∧
    (∀ t k, tileOf? h = some t → k < 16 → o.wbs.map (·.reg) = [⟨.c, k⟩] →
      ∃ s', exec .longOpComplete s = .next s' ∧ (getTile s' t).cF.getLsbD k = true ∧ (getTile s' t).c = (getTile s t).c)) ∧
  (∀ (s : State) (h : HartId) (o : LongOp) (next : Word), s.ev = .op h 0 → (getHart s h).out = [o] → o.await = .time →
    o.due ≤ s.cycle → o.fx = .none → o.win = [] → (getHart s h).status = .parked (.fence next) →
      ∃ s', exec .longOpComplete s = .next s' ∧ (getHart s' h).pc = next ∧ (getHart s' h).out = [] ∧ Acquired s' h ∧ s'.mem = s.mem) ∧
  (∀ (s : State) (h : HartId), s.ev = .hart h →
    (waitOver s h → placeRuns s h →
      (∀ r, (kindOf h = .thread ∨ kindOf h = .mender) → (getHart s h).status = .parked (.reg r) → hazard (getHart s h) r = false →
        regFull s h r = false → exec .registerWaitLimit s = .next (trapOn (dropRing s h) h 0x33 (designation r))) ∧
      (∀ t i next la, h = .tile t i → i.val < 8 → (getHart s h).status = .parked (.ring next la) →
        exec .registerWaitLimit s = .next (trapOn (dropRing s h) h 0x33 (designation ⟨.latch, 1⟩)) ∧
          ∀ u, ∀ r ∈ (getTile (dropRing s h) u).ringReq, r.2 ≠ (t, i)) ∧
      (∀ sp ea u n, ∀ w ∈ [Reason.word sp ea, .wordRetry sp ea n, .wordAgain sp ea n, .held u true sp ea n],
        (getHart s h).status = .parked w → exec .feWaitLimit s = .next (trapOn (dropRequests s h) h (waitCause sp) (w64 ea)) ∧
          (∀ r ∈ (dropRequests s h).gfe, r.hart ≠ h) ∧ ∀ t, ∀ r ∈ (getTile (dropRequests s h) t).fe, r.hart ≠ h)) ∧
    (∀ sp ea due, (getHart s h).status = .parked (.wordRetry sp ea due) → due ≤ s.cycle →
      exec .feListFullRetry s = .next (statusSet s h (.parked (.wordRetry sp ea 0)))) ∧
    (∀ due, (getHart s h).status = .parked (.putrRetry due) → due ≤ s.cycle → exec .putrRetry s = .next (statusSet s h .ready)) ∧
    (∀ t, (getHart s h).status = .parked (.deadline t) → t ≤ s.cycle * 5 / 12 →
      exec .parkDeadline s = .next (statusSet s h .ready))) ∧
  ∀ s : State, exec .illegalInstruction s = .next (trapOn s s.cur 0x00 (w64 s.iword))

/-- R278 to R285: a walk for an access that finds a leaf gives its die the translation and sets the accessed and dirty bits; an absent page
is asked for; a walk for no access changes no table and asks for nothing. A response ends the request, and the next fault takes its place;
a refusal is met by all that waited; a table line that is written drops what was built from it. -/
def Obligations.PageEvents : Prop :=
  (∀ (s : State) (d : Fin 4) (c : Nat) (x : Ctx) (va : Word) (need : Need), s.ev = .walk d.val c va need → alGet s.ctxs c = some x →
    canonical x.tfd va.toNat = true → (∀ e ∈ (s.dies.get d).wcache, e.ctx ≠ c) → s.noise = [] →
    (need = .probe → ∃ s', exec .pageWalk s = .next s' ∧ s'.mem = s.mem ∧ ∀ k : Fin 4, (s'.dies.get k).preq = (s.dies.get k).preq) ∧
    (∀ l, need ≠ .probe → (walk s x va.toNat).1 = .leaf l → permits x.tfd l.pte need = true → Memory.wf s.mem = true →
      ∃ s' e, exec .pageWalk s = .next s' ∧ tlbFind (s'.dies.get d) .die c va.toNat = some e ∧ e.frame = l.frame ∧ e.lvl = l.lvl ∧
        e.pte = l.pte ||| 2 ^ x.tfd.apos ||| (if need = .write ∨ need = .readWrite then 2 ^ x.tfd.dpos else 0) ∧
        memRead s'.mem l.addr 8 = e.pte % 2 ^ 64) ∧
    (need ≠ .probe → (walk s x va.toNat).1 = .absent → ∃ s', exec .pageWalk s = .next s' ∧ s'.mem = s.mem ∧
      (⟨c, va.toNat / 4096⟩ ∈ (s'.dies.get d).preq ∨ ⟨c, va.toNat / 4096⟩ ∈ (s'.dies.get d).preqMore) ∧
      ((s.dies.get d).preqMore = [] → (s.dies.get d).preq.length < 256 → ⟨c, va.toNat / 4096⟩ ∈ (s'.dies.get d).preq))) ∧
  (∀ (s : State) (d : Fin 4) (c vpn : Nat) (ans : PageAnswer), s.ev = .page d.val c vpn ans → ⟨c, vpn⟩ ∈ (s.dies.get d).preq →
    let x := s.dies.get d
    ∃ s', exec .pageResponse s = .next s' ∧ s'.mem = s.mem ∧
      (s'.dies.get d).preq = x.preq.filter (· ≠ ⟨c, vpn⟩) ++ x.preqMore.take 1 ∧ (s'.dies.get d).preqMore = x.preqMore.drop 1 ∧
      (∀ w, w ∈ (s'.dies.get d).unitWait ↔ w ∈ x.unitWait ∧ (w.ctx ≠ c ∨ w.vpn ≠ vpn)) ∧
      (∀ w, w ∈ (s'.dies.get d).unitRef ↔ w ∈ x.unitRef ∨ (ans ≠ .success ∧ w ∈ x.unitWait ∧ w.ctx = c ∧ w.vpn = vpn)) ∧
      (∀ t, dieOf t = d → (getTile s t).ctx = c → ∀ y ∈ (getTile s t).copies, y.page = some vpn →
        { y with page := none, refused := if ans = .success then none else some vpn } ∈ (getTile s' t).copies) ∧
      (∀ h, hartDie h = d → (∀ m i, h = .mender m i → m < 128) → (∀ o ∈ (getHart s h).out, o.await ≠ .page c vpn) →
        getHart s' h = { getHart s h with
          refused := if ans ≠ .success ∧ (getHart s h).status = .parked (.page c vpn) then some vpn else (getHart s h).refused }) ∧
      (∀ h, hartDie h = d → (∀ m i, h = .mender m i → m < 128) → ∀ (k : Nat) (o : LongOp) (r : OptRun), (getHart s h).out[k]? = some o →
        o.fx = .opt r → o.await = .page c vpn → (getHart s' h).out[k]? = some { o with
          await := .time, due := s.cycle, fx := .opt { r with ref := if ans = .success then none else some vpn } }) ∧
      (∀ h, hartDie h ≠ d → getHart s' h = getHart s h)) ∧
  (∀ (s : State) (line : Nat), s.ev = .key line → (∃ d : Fin 4, line ∈ (s.dies.get d).dir) →
    ∃ s', exec .tableLineSnoop s = .next s' ∧ s'.mem = s.mem ∧ ∀ d : Fin 4, line ∉ (s'.dies.get d).dir ∧
      (∀ e, e ∈ (s'.dies.get d).tlb ↔ e ∈ (s.dies.get d).tlb ∧ line ∉ e.lines) ∧
      ∀ e, e ∈ (s'.dies.get d).wcache ↔ e ∈ (s.dies.get d).wcache ∧ line ∉ e.lines)

/-- R142, R148, R64, R253, R334, R301, R341: wait reports are made once; a still tile sleeps and wakes after its latency; the leveller
moves half the difference of the work; a blocked message or access escapes, and what follows it; the darner checks its next line; idle
slices power down. Three points are the model's: a message is blocked from the cycle at which it was sent, an access from its due cycle, and
the wait is that of the source tile (DEDUCED; log 14); a tile with a long operation outstanding is not still (log 43); and a tile without a
thread makes no step-wait report (DEDUCED; log 48). -/
def Obligations.TileEvents : Prop :=
  (∀ (s : State) (t : Nat), s.ev = .tile t →
    (stepwatchDue s t = true → ∃ s', exec .stepwatchReport s = .next s' ∧ (getTile s' t).waitTold = true ∧
      reported s s' t 2 (heldDirections s t) (getTile s t).step.toNat ∧ stepwatchDue s' t = false) ∧
    (sleepDue s t = true → exec .tileSleep s = .next (setTile s t { getTile s t with asleep := true })) ∧
    (wakeDue s t = true → exec .tileWake s = .next (setTile s t { getTile s t with
      asleep := false,
      wakeAt := s.cycle + if (getTile s t).sleepDepth = 0 then 4 else if (getTile s t).sleepDepth = 1 then 64 else 960 })) ∧
    (∀ u, levelDue s t = true → leastNeighbour s t = some u → u ≠ t → (getTile s u).work.length + 2 ≤ (getTile s t).work.length →
      let n := ((getTile s t).work.length - (getTile s u).work.length) / 2
      ∃ s', exec .levellerTick s = .next s' ∧ (getTile s' t).work = (getTile s t).work.take ((getTile s t).work.length - n) ∧
        (getTile s' u).work = (getTile s t).work.drop ((getTile s t).work.length - n) ++ (getTile s u).work ∧
        (getTile s' t).level = (getTile s t).level - 4096)) ∧
  (∀ (s : State) (k : BarKind) (t : Nat), s.ev = .kindTile k t → barWatchDue s k t = true →
    ∃ s', exec .barrierWaitReport s = .next s' ∧ (getTile s' t).barTold.get (barIdx k) = true ∧
      reported s s' t 3 ((getTile s t).gen.get (barIdx k)).toNat (barIdx k).val) ∧
  (∀ (s : State) (m : Msg) (l r : List Msg), s.ev = .msg m.id → s.msgs = l ++ m :: r → (∀ y ∈ l, y.id ≠ m.id) → m.escape = false →
    (∃ t i, m.hart = .tile t i ∧ (m.since + (getTile s t).escwait.toNat ≤ s.cycle ∨
      t ≠ m.target ∧ ∃ y ∈ s.msgs, tileOf? y.hart = some t ∧ y.target = m.target ∧ y.since < m.since ∧ y.escape = true)) →
    ∃ s', exec .escapeEntry s = .next s' ∧ { m with escape := true } ∈ s'.msgs ∧ s'.msgs.map (·.id) = s.msgs.map (·.id) ∧
      s'.tiles = s.tiles) ∧
  (∀ (s : State) (t u i : Nat) (k : Fin 10) (o : LongOp) (a : MemAcc), s.ev = .op (.tile t k) i → (getHart s (.tile t k)).out[i]? = some o →
    opAccess o = some a → a.tile = some u → u ≠ t → a.escape = false → o.due + (getTile s t).escwait.toNat ≤ s.cycle →
    ∃ s' o', exec .escapeEntry s = .next s' ∧ (getHart s' (.tile t k)).out[i]? = some o' ∧ opAccess o' = some { a with escape := true } ∧
      (getHart s' (.tile t k)).g = (getHart s (.tile t k)).g ∧ s'.mem = s.mem) ∧
  (∀ (s : State) (d : Fin 4), s.ev = .die d.val → darnDue s d = true →
    let x := s.dies.get d
    let line := Config.hdmBase / 64 + x.darn / 128 * 512 + d.val * 128 + x.darn % 128
    ∃ s', exec .darnerLine s = .next s' ∧ s'.mem = s.mem ∧ (∀ l ∈ s'.gLatent, l.1 ≠ line) ∧
      ((line, true) ∈ s.gLatent → (line, false) ∉ s.gLatent → line ∈ s'.gPoison ∧
        (line ∉ s.gPoison → x.err.mue < 2 ^ 64 - 1 → (errOf s' d).mue = x.err.mue + 1)) ∧
      ((line, false) ∈ s.gLatent → (line, true) ∉ s.gLatent → s'.gPoison = s.gPoison ∧
        (x.err.mce < 2 ^ 64 - 1 → (errOf s' d).mce = x.err.mce + 1)) ∧
      (s'.dies.get d).darnAt = s.cycle ∧
      (s'.dies.get d).darn = (if 0xC0_0000_0000 / 256 ≤ x.darn + 1 then 0 else x.darn + 1)) ∧
  (∀ s : State,
    (∃ s', exec .homeChannelPowerDown s = .next s' ∧ (∀ i < 128, i ∈ s'.chanDown ↔
      i ∈ s.chanDown ∨ (alGet s.lastReq i).getD 0 + 2400 ≤ s.cycle) ∧ s'.mem = s.mem) ∧
    ∃ s', exec .selfRefreshEntry s = .next s' ∧ (∀ i < 128, i ∈ s'.selfRefresh ↔
      i ∈ s.selfRefresh ∨ (alGet s.lastReq i).getD 0 + 24000 ≤ s.cycle) ∧ s'.mem = s.mem)

/-- R342 to R347, R300: bring-up checks the images in their order, then the stacks and the ports, and clears device memory; attestation
takes nonce and identity at its start and signs them with what was loaded; a sensor trips, and TRIP clears when none is hot; registers
take what is written and read as their fields say. The model's own: the nonce reads as it was written, and the sizes of devid and of a
version in the report (DESIGN CHOICE; log 23); the numbers of versions, features and IDE streams by which a port trains (log 6); and the
events that carry a register read and what a port trained to (log 15). -/
def Obligations.DeviceEvents : Prop :=
  (∀ s : State, s.boot = 0 →
    ((∀ x ∈ s.images, imageFault s x = 0) →
      (s.stacksOk = true → (∃ p : Fin 2, trainable (s.ports.get p)) → ∃ s', exec .bringUp s = .next s' ∧ s'.boot = 1 ∧
        s'.fcode = s.fcode ∧ (∀ pa, isDevice pa = true → memRead s'.mem pa 1 = 0) ∧ s'.gEmpty = [] ∧
        (∀ l ∈ s'.gPoison, isDevice (l * 64) = false) ∧ (∀ p : Fin 2, TrainedTo (s.ports.get p) (s'.ports.get p)) ∧
        (∀ d : Fin 4, errOf s' d = Die.reset.err) ∧ (∀ l : Fin 16, s'.links.get l = Link.reset) ∧ s'.images = s.images.map running) ∧
      (s.stacksOk = false → ∃ s', exec .bringUp s = .next s' ∧ s'.boot = 2 ∧ s'.fcode = 4) ∧
      (s.stacksOk = true → (∀ p : Fin 2, ¬ trainable (s.ports.get p)) → ∃ s', exec .bringUp s = .next s' ∧ s'.boot = 2 ∧ s'.fcode = 5)) ∧
    (∀ l x r, s.images = l ++ x :: r → (∀ y ∈ l, imageFault s y = 0) → imageFault s x ≠ 0 →
      ∃ s', exec .bringUp s = .next s' ∧ s'.boot = 2 ∧ s'.fcode = BitVec.ofNat 6 (imageFault s x) ∧ s'.mem = s.mem ∧
        s'.images = l.map running ++ x :: r)) ∧
  (∀ s : State,
    (s.abusy = false → exec .attestationStart s = .next { s with abusy := true, attest := some (s.nonce, s.devid) }) ∧
    (s.abusy = true → exec .attestationStart s = .next { s with aerr := true }) ∧
    (∀ n id, s.abusy = true → s.attest = some (n, id) →
      let l := signedPart s n id
      exec .attestationDone s = .next { s with
        abusy := false, attest := none,
        report := some (l ++ [(2420, Config.sign s.idKey (Config.sha3 ((l.map (·.1)).sum) (glued l)))]) })) ∧
  (∀ (s : State), (∀ (d i : Fin 4), s.ev = .dieSensor d.val i.val → ∃ s', exec .thermalTrip s = .next s' ∧ s'.trip = true ∧
      (s'.dies.get d).hot.get i = true ∧ (∀ p, ViaPort s p → 1 ≤ s.tvec.toNat → s'.msix = (s.tvec.toNat, p, none) :: s.msix) ∧
      ((∀ p : Fin 2, (s.ports.get p).up = false) ∨ s.tvec = 0 → s'.msix = s.msix)) ∧
    (∀ l, s.ev = .hot l → ∃ s', exec .thermalTrip s = .next s' ∧
      (∀ d i : Fin 4, (s'.dies.get d).hot.get i = true ↔ (d.val, i.val) ∈ l) ∧
      ((∀ d i : Fin 4, (d.val, i.val) ∈ l → (s.dies.get d).hot.get i = true) → s'.trip = s.trip ∧ s'.msix = s.msix) ∧
      (∀ d i : Fin 4, (d.val, i.val) ∈ l → (s.dies.get d).hot.get i = false → s'.trip = true)) ∧
    (s.ev = .none → ∃ s', exec .tripClear s = .next s' ∧ (s'.trip = true ↔ ∃ d i : Fin 4, (s.dies.get d).hot.get i = true)) ∧
    (∀ l, s.ev = .hot l → ∃ s', exec .tripClear s = .next s' ∧ (s'.trip = true ↔ ∃ d i : Fin 4, (d.val, i.val) ∈ l) ∧
      ((∀ d i : Fin 4, (d.val, i.val) ∈ l → (s.dies.get d).hot.get i = true) → s'.msix = s.msix) ∧
      ∀ d i : Fin 4, (d.val, i.val) ∈ l → (s.dies.get d).hot.get i = false → ∀ p, ViaPort s p → 1 ≤ s.tvec.toNat →
        s'.msix = (s.tvec.toNat, p, none) :: s.msix)) ∧
  (∀ (s : State) (off : Nat) (v : Word), s.ev = .reg off v → ∃ s', exec .registerWrite s = .next s' ∧
    (off = 0 → s'.devid = BitVec.ofNat 16 (cut v.toNat 16 16) ∧ s'.aerr = (s.aerr && v.toNat / 2 ^ 10 % 2 == 0)) ∧
    (off = 8 → s'.tvec = BitVec.ofNat 11 (cut v.toNat 16 11) ∧ (v.toNat % 2 = 1 → s'.abusy = true)) ∧
    (∀ k < 4, off = 0x40 + 8 * k → cut s'.nonce.toNat (64 * k) 64 = v.toNat ∧
      ∀ j < 4, j ≠ k → cut s'.nonce.toNat (64 * j) 64 = cut s.nonce.toNat (64 * j) 64) ∧
    (∀ d : Fin 4, off = 0x1_0038 + 256 * d.val → cut v.toNat 0 16 ≤ 8760 → (errOf s' d).dper = cut v.toNat 0 16) ∧
    (∀ k < 4096, off = 0x1_0800 + 8 * k → alGet s'.msixTab k = some v.toNat)) ∧
  (∀ (s : State) (off : Nat), s.ev = .regRead off → ∃ v, exec .registerWrite s = .next { s with hostGot := some (.data v false) } ∧
    (off = 0 → v = s.boot.toNat + 2 ^ 2 * s.fcode.toNat + 2 ^ 8 * b2n s.trip + 2 ^ 9 * b2n s.abusy + 2 ^ 10 * b2n s.aerr +
      2 ^ 16 * s.devid.toNat) ∧
    (off = 8 → v = 2 ^ 16 * s.tvec.toNat) ∧
    (∀ k < 4, off = 0x40 + 8 * k → v = cut s.nonce.toNat (64 * k) 64) ∧
    (∀ k < 0x1E00, off = 0x1000 + 8 * k → v = cut (glued (s.report.getD [])) (64 * k) 64) ∧
    (∀ d : Fin 4, let e := errOf s d
      let l := [e.sce, e.sue, e.mce, e.mue, e.lcrc, e.hdr, e.dpass, e.dper, e.rlost]
      ∀ k < 9, off = 0x1_0000 + 256 * d.val + 8 * k → v = l.getD k 0) ∧
    (∀ l : Fin 16, off = 0x1_0400 + 64 * l.val → v = linkWord (s.links.get l)) ∧
    (∀ k < 4096, off = 0x1_0800 + 8 * k → v = (alGet s.msixTab k).getD 0)) ∧
  (∀ (s : State) (p : Fin 2) (stream key : Nat), s.ev = .ideKey p.val stream key →
    let x := s.ports.get p
    (x.up = true → x.feat / 16 % 2 = 1 → stream < 2 →
      exec .registerWrite s = .next { s with ports := s.ports.set p { x with keys := alSet x.keys stream key } }) ∧
    (x.up = false ∨ x.feat / 16 % 2 = 0 ∨ 2 ≤ stream → exec .registerWrite s = .next { s with hostGot := some .unsupported })) ∧
  (∀ (s : State) (p : Fin 2), s.ev = .key p.val →
    exec .hostPortDown s = .next { s with ports := s.ports.set p { s.ports.get p with up := false } })

/-- R96, R123, R259, R297, R318, R324: the host reads, writes and adds to device memory and leaves full/empty states as they are; it takes
back its own lines; the alias region reads as zero, a store to it arms its queue or is dropped with a report, and a write to a reward
window hands its reward to a table; what lies outside the range, or comes where no port that is up has negotiated back-invalidate, is an
unsupported request. That die 0 serves an arm alias store is the model's choice (DESIGN CHOICE; log 22), and so is the number by which a port
tells back-invalidate (log 6). -/
def Obligations.HostEvents : Prop :=
  (∀ (s : State) (pa n : Nat) (bad : Bool), (∃ p, ViaPort s p) → ¬ Coherent s → ∀ data, s.ev = .hostMem pa n data bad →
    exec .hostMemAccess s = .next { s with hostGot := some .unsupported }) ∧
  (∀ (s : State) (pa n : Nat) (bad : Bool), Coherent s →
    (∀ v, s.ev = .hostMem pa n (some v) bad → isDevice pa = true → s.gqWait = [] → ∃ s', exec .hostMemAccess s = .next s' ∧
      memRead s'.mem pa n = v % 256 ^ n ∧ (∀ b, b < pa ∨ pa + n ≤ b → memRead s'.mem b 1 = memRead s.mem b 1) ∧ s'.gEmpty = s.gEmpty ∧
      s'.tiles = s.tiles ∧ (bad = true → pa / 64 ∈ s'.gPoison) ∧ (bad = false → 64 ≤ n → pa / 64 ∉ s'.gPoison)) ∧
    (s.ev = .hostMem pa n none bad → isDevice pa = true → ∃ s', exec .hostMemAccess s = .next s' ∧ s'.mem = s.mem ∧
      s'.hostGot = some (.data (memRead s.mem pa n) (physPoison s pa n))) ∧
    (∀ v, s.ev = .hostAdd pa n v → isDevice pa = true → ∃ s', exec .hostMemAccess s = .next s' ∧
      memRead s'.mem pa n = (memRead s.mem pa n + v) % 256 ^ n ∧ s'.gEmpty = s.gEmpty ∧
      s'.hostGot = some (.data (memRead s.mem pa n) (physPoison s pa n))) ∧
    (∀ off < 2 ^ 32, s.ev = .hostMem (aliasAt off) n none bad →
      exec .hostMemAccess s = .next { s with hostGot := some (.data 0 false) }) ∧
    (∀ data, s.ev = .hostMem pa n data bad → pa < Config.hdmBase ∨ aliasAt (2 ^ 32) ≤ pa →
      exec .hostMemAccess s = .next { s with hostGot := some .unsupported })) ∧
  (∀ (s : State) (line : Nat), s.ev = .key line →
    exec .hostLineSnoop s = .next { s with hostHeld := s.hostHeld.filter (· != line) }) ∧
  (∀ (s : State) (pa n v : Nat), isDevice pa = false →
    (∀ bad, s.ev = .hostMem pa n (some v) bad → ∀ e ∈ [Instr.hostLineSnoop, .tableLineSnoop], ∃ s', exec e s = .next s' ∧
      memRead s'.mem pa n = v % 256 ^ n ∧ pa / 64 ∉ s'.hostHeld ∧ ∀ d : Fin 4, pa / 64 ∉ (s'.dies.get d).dir) ∧
    (s.ev = .hostAdd pa n v → ∃ s', exec .hostLineSnoop s = .next s' ∧ pa / 64 ∉ s'.hostHeld ∧
      memRead s'.mem pa n = (memRead s.mem pa n + v) % 256 ^ n ∧
      s'.hostGot = some (.data (memRead s.mem pa n) (physPoison s pa n)))) ∧
  (∀ (s : State) (c o size : Nat) (x : Ctx) (v : Word), s.ev = .armStore (c * 2 ^ 16 + o) size v → o < 0x8000 →
    alGet s.ctxs c = some x →
    (c = 0 ∨ x.destroyed = true → exec .armAliasStore s = .next s) ∧
    (c ≠ 0 → x.destroyed = false → o % 8 ≠ 0 ∨ size ≠ 8 ∨ x.qcnt ≤ o / 8 → ∃ s' r, exec .armAliasStore s = .next s' ∧
      s'.reports = s.reports ++ [r] ∧ r.ctx = c ∧ cut r.data 0 8 = 8 ∧ s'.mem = s.mem) ∧
    (∀ pe q, o = 8 * q → size = 8 → c ≠ 0 → x.destroyed = false → q < x.qcnt → s.gfe = [] → s.noise = [] →
      HeldAt s 0 c ((x.qbase.toNat + 64 * q) % 2 ^ 64) .write pe →
        ∃ s', exec .armAliasStore s = .next s' ∧ memRead s'.mem pe 8 = v.toNat ∧ (isDevice pe = true → gFull s' pe = true))) ∧
  (∀ (s : State) (c o : Nat) (x : Ctx) (d0 d1 d2 : Word), s.ev = .window (c * 2 ^ 16 + o) 64 [d0, d1, d2] → c ≠ 0 → 0x8000 ≤ o →
    o < 0x9000 → o % 64 = 0 → alGet s.ctxs c = some x → x.destroyed = false → d2.toNat < 2 ^ 32 →
      let k : Fin 4 := Fin.ofNat 4 d1.toNat
      ∃ s', exec .rewardWindowWrite s = .next s' ∧ (s'.dies.get k).arrivals = (s.dies.get k).arrivals ++
        [⟨⟨c, d0, cut d1.toNat 0 48, cut d1.toNat 48 16, BitVec.ofNat 32 d2.toNat⟩, none, none, false, s.cycle, none, []⟩])

/-- R298, R299, R326 to R329, R340: a trained link comes up at the lower version with the widest stripe; a silent or untrained one goes
down, and what waited for an answer through it ends poisoned; it sends idle flits, and changes its width, as its queue asks, once the width
flit has left; it counts what fails in what it receives, finds the lane from the damaged byte, and answers what was lost. -/
def Obligations.LinkEvents : Prop :=
  (∀ (s : State) (l : Fin 16), s.ev = .link l.val →
    let x := s.links.get l
    (x.st = .training → x.train + 240_000_000 ≤ s.cycle →
      ∃ s', exec .linkTrainingTimeout s = .next s' ∧ WentDown x (s'.links.get l)) ∧
    (x.st = .up → x.rcvd + 24_000 ≤ s.cycle → ∃ s', exec .linkIdleTimeout s = .next s' ∧ WentDown x (s'.links.get l) ∧
      (∀ r ∈ s'.rewards, r.link ≠ l.val) ∧
      (∀ g ∈ s'.collGroups, ∀ k < g.n, k ≠ g.rank → g.mem.getD k 255 = l.val → k ∈ g.down) ∧
      ∀ r, s.rewards = [r] → r.link = l.val → (getHart s r.hart).status = .parked (.remote r.id) →
        (getHart s' r.hart).pc = r.next ∧ ∃ p, s'.reports = s.reports ++ [p] ∧ cut p.data 0 8 = 1) ∧
    (x.st = .up → x.queue = [] → x.sent + 2400 ≤ s.cycle → ∃ s', exec .idleFlitSend s = .next s' ∧
      s'.sentFlits = (l.val, .idle) :: s.sentFlits ∧ s'.links.get l = { x with sent := s.cycle }) ∧
    (∀ c, x.st = .up → x.ver = 3 → x.wake = none → Steady x.queue → 2 * x.width ≤ widest x → x.wideSince = some c → c + 2400 ≤ s.cycle →
      ∃ s', exec .linkWiden s = .next s' ∧ s'.links.get l = { x with wake := some (s.cycle + 4800) }) ∧
    (∀ c, x.st = .up → x.wake = some c → c ≤ s.cycle →
      ∃ s', exec .wakeComplete s = .next s' ∧ s'.links.get l =
        (if 2 * x.width ≤ widest x then { x with wake := none, queue := inserted x .widen } else { x with wake := none })) ∧
    (∀ c, x.st = .up → x.ver = 3 → Steady x.queue → 1 < x.width → (widest x < x.width ∨ x.narrowSince = some c ∧ c + 2400 * x.hold ≤ s.cycle) →
      ∃ s', exec .linkNarrow s = .next s' ∧ s'.links.get l = { x with wake := none, queue := inserted x .narrow }) ∧
    (∀ (b : FlitBody) (r : List FlitBody), x.queue = b :: r → 24 ≤ x.part + 5 * x.width → Steady r →
      ((linkCycle s l.val).links.get l).width =
        (match b with | .widen => min (2 * x.width) (stripe (ones x.good)) | .narrow => max 1 (x.width / 2) | _ => x.width) ∧
      (l.val, b) ∈ (linkCycle s l.val).sentFlits)) ∧
  (∀ (s : State) (l : Fin 16) (good : BitVec 8) (ver : Nat) (peer : BitVec 16) (waves : Nat), s.ev = .trained l.val good ver peer waves →
    (s.links.get l).st = .training → good ≠ 0 → ver ≠ 0 →
      ∃ s', exec .linkTrainingDone s = .next s' ∧ (s'.links.get l).st = .up ∧ (s'.links.get l).ver = min 3 ver ∧
        (s'.links.get l).good = good ∧ (s'.links.get l).peer = peer ∧ (s'.links.get l).peerWaves = waves ∧
        (s'.links.get l).width = stripe (min (ones good) (s.links.get l).maxw)) ∧
  (∀ (s : State) (l : Fin 16) (widen : Bool), s.ev = .widthFlit l.val widen → (s.links.get l).st = .up → (s.links.get l).ver = 3 →
    ∃ s', exec .widthFlitReceive s = .next s' ∧ s'.links.get l = { s.links.get l with
      rcvd := s.cycle,
      rxWidth := if widen then min (stripe (ones (s.links.get l).good)) (2 * (s.links.get l).rxWidth) else max 1 ((s.links.get l).rxWidth / 2) }) ∧
  (∀ (s : State) (l : Fin 16) (f : Flit), s.ev = .flit l.val f → (s.links.get l).st = .up →
    let d : Fin 4 := Fin.ofNat 4 (l.val / 4)
    let e := errOf s d
    let x := s.links.get l
    ∃ s', exec .flitReceive s = .next s' ∧
      (f.crcOk = true → f.hdr1Ok = true → (s'.links.get l).rcvd = s.cycle ∧
        (∀ m h, f.body = .reward m h → 2 ≤ x.ver → (s'.dies.get (Fin.ofNat 4 m.id)).arrivals =
          (s.dies.get (Fin.ofNat 4 m.id)).arrivals ++ [⟨m, none, some (l.val, h), false, s.cycle, none, []⟩]) ∧
        ∀ r, f.body = .rewardAnswer r.hart → s.rewards = [r] → r.link = l.val → (getHart s r.hart).status = .parked (.remote r.id) →
          (getHart s' r.hart).pc = r.next ∧ s'.reports = s.reports) ∧
      (∀ m h, f.crcOk = true → f.hdr1Ok = false → f.hdr2Ok = false → f.body = .reward m h →
        (s'.links.get l).queue = x.queue ++ [.lost h]) ∧
      (∀ c g q k a, f.crcOk = true → f.hdr1Ok = false → f.hdr2Ok = false → f.body = .coll c g q k a →
        (s'.links.get l).queue = x.queue ++ [.collLost c g q]) ∧
      (f.body = .idle → e.lcrc < 2 ^ 64 - 1 → e.hdr < 2 ^ 64 - 2 →
        (errOf s' d).lcrc = e.lcrc + (if f.crcOk then 0 else 1) ∧
        (errOf s' d).hdr = e.hdr + (if f.hdr1Ok then 0 else if f.hdr2Ok then 1 else 2)) ∧
      (∀ b, f.body = .idle → f.crcOk = false → f.hurt = [b] →
        let i := ((List.range 8).filter fun k => x.good.getLsbD k).getD (b / 8 % x.rxWidth) 0
        let near := (i, s.cycle) :: x.fails.filter fun p => s.cycle < p.2 + 2_400_000
        let n := near.countP (·.1 == i)
        (n ≤ 1000 → s'.links.get l = { x with rcvd := s.cycle, fails := near }) ∧
        (1000 < n → (s'.links.get l).good = x.good &&& ~~~(1#8 <<< i) ∧
          (s'.links.get l).st = (if x.good &&& ~~~(1#8 <<< i) = 0 then .down else .up))))

namespace Sys2Proof.Claims

open Sys2Proof.Machine

/-! ## The sets of the harts (R48), the issue rules (R57, R60, R61), traps (R63, R68, R174), steps and encodings -/

/-- The CSR that an instruction names. -/
def csrNamed (i : Instr) : Option CsrNo :=
  match i with
  | .csrr _ n | .csrw n _ | .csrs _ n _ | .csrc _ n _ | .csrx _ n _ => some n
  | _ => none

/-- What a sequencer runs (R48): ADDI, BR, JAL, the W, A and C loads and stores, SENDM, KICK, the vector, matrix, ring and Q-fold
majors, and the compact forms of ADDI, BR and JAL. -/
def sequencerRuns (i : Instr) : Bool :=
  match i with
  | .addi .. | .cAddi .. | .beq .. | .bne .. | .blt .. | .bge .. | .bltn .. | .bgen .. | .bbs .. | .bbc .. | .cBeqz .. | .cBnez ..
  | .jal .. | .cJ .. | .ldws .. | .stws .. | .ldas .. | .stas .. | .ldcs .. | .stcs .. | .sendm .. | .kick ..
  | .vadd .. | .vsub .. | .vmul .. | .vfma .. | .vfms .. | .vfnma .. | .vmax .. | .vmin .. | .vabs .. | .vneg .. | .vceq .. | .vclt ..
  | .vcle .. | .vsel .. | .vrcp .. | .vrsq .. | .vsqrt .. | .vexp2 .. | .vlog2 .. | .vtanh .. | .vamaxu ..
  | .viadd .. | .visub .. | .vimul .. | .viand .. | .vior .. | .vixor .. | .vishl .. | .vishr .. | .visra .. | .vimin .. | .vimax ..
  | .viadds .. | .visubs .. | .viceq .. | .viclt .. | .vcvt .. | .vquant .. | .vquantv .. | .vdeq .. | .sclnext .. | .vpack ..
  | .vunpk .. | .vrsumO .. | .vrsumU .. | .vrmax .. | .vramax .. | .vrmin .. | .vshuf .. | .vbcast .. | .vins .. | .vext .. | .vslide ..
  | .mld .. | .mma .. | .mmaLatch .. | .mmat .. | .mmatLatch .. | .mout .. | .mdrain .. | .mzero .. | .ringdef .. | .latch .. | .brot ..
  | .qinit .. | .qhh .. | .qapp .. | .qgen .. | .qapl .. | .qaplt .. | .qapr .. | .qaprt .. | .qdense .. | .qsave .. | .qload .. => true
  | _ => false

/-- What a mender does not run (R48): the majors that act on a tile, the collectives and PRIV. -/
def menderLacks (i : Instr) : Bool :=
  match i with
  | .ldl .. | .stl .. | .cLdlD .. | .cStlD .. | .ldm .. | .stm .. | .ldh .. | .pub .. | .ldflC .. | .ldflP .. | .stflF .. | .stflX ..
  | .stflE .. | .ldfmC .. | .ldfmP .. | .stfmF .. | .stfmX .. | .stfmE .. | .ldws .. | .stws .. | .ldas .. | .stas .. | .ldcs ..
  | .stcs .. | .spawn .. | .spawnH .. | .exit | .cExit | .yield | .cYield | .clre .. | .cClre .. | .isfull .. | .putr .. | .tid ..
  | .wlpush .. | .wlpop .. | .wlcnt .. | .step | .cStep | .tbar .. | .qbar .. | .clbar .. | .stepidle ..
  | .cpyLm .. | .cpyGl .. | .cpyLg .. | .cpyGg .. | .cpyq | .cpyx .. | .launch ..
  | .sendm .. | .waitm | .cWaitm | .recvm .. | .recvmO .. | .peekm .. | .fork .. | .rdv | .kick ..
  | .mld .. | .mma .. | .mmaLatch .. | .mmat .. | .mmatLatch .. | .mout .. | .mdrain .. | .mzero .. | .ringdef .. | .latch .. | .brot ..
  | .qinit .. | .qhh .. | .qapp .. | .qgen .. | .qapl .. | .qaplt .. | .qapr .. | .qaprt .. | .qdense .. | .qsave .. | .qload ..
  | .collDecl .. | .collAg .. | .collRsO .. | .collRsU .. | .collArO .. | .collArU .. | .collA2a .. | .collBar ..
  | .tlbinv .. | .tlbprobe .. | .lkctlStatus .. | .lkctlThresh .. | .lkctlMaxw .. | .lkctlRetrain .. | .swreqSwitch ..
  | .swreqDefpart .. | .swreqSetrun .. | .swreqDestroy .. | .report .. => true
  | .amoAddW sp .. | .amoAddD sp .. | .amoAndD sp .. | .amoOrD sp .. | .amoXorD sp .. | .amoMinD sp .. | .amoMaxD sp .. | .amoMinnD sp ..
  | .amoMaxnD sp .. | .amoSwapW sp .. | .amoSwapD sp .. | .amoCasW sp .. | .amoCasD sp .. | .amoFaddU sp .. | .amoFmax sp ..
  | .amoFmin sp .. | .amoEsadd sp .. | .amoEsrd sp .. | .amoEsclr sp .. => sp != .g
  | _ => false

/-- The instruction is engine-illegal for a hart of the kind (R48). -/
def engineIllegal (k : HartKind) (i : Instr) : Bool :=
  match k with
  | .thread => false
  | .matSeq | .vecSeq => !sequencerRuns i
  | .mender => menderLacks i

/-- What only a supervisor runs (R48). -/
def Privileged (i : Instr) (a b d : GReg) : Prop :=
  i = .tlbinv b a ∨ i = .tlbprobe d a ∨ i = .lkctlStatus d b a ∨ i = .lkctlThresh d b a ∨ i = .lkctlMaxw d b a ∨
    i = .lkctlRetrain d b a ∨ i = .swreqSwitch d a ∨ i = .swreqDefpart d a ∨ i = .swreqSetrun d a ∨ i = .swreqDestroy d a ∨
    i = .report b a ∨ i = .stepidle a

/-- Only hart `h` of `s` changes, and of it only what a short instruction with the destination `d` changes: `d`, the pc, the
status, the shadows, and the marks of registers that PUTR filled. -/
def OnlyRegister (s t : State) (h : HartId) (d : GReg) : Prop :=
  (∀ r : GReg, r ≠ d → rg (getHart t h) r = rg (getHart s h) r) ∧ (∀ k : HartId, k ≠ h → getHart t k = getHart s k) ∧
    t.mem = s.mem ∧ t.gEmpty = s.gEmpty ∧ (∀ u x b, storeByte t u x b = storeByte s u x b) ∧
    (∀ u, (getTile t u).lEmpty = (getTile s u).lEmpty ∧ (getTile t u).step = (getTile s u).step ∧
      (getTile t u).mbox = (getTile s u).mbox ∧ (getTile t u).q = (getTile s u).q ∧ (getTile t u).cF = (getTile s u).cF) ∧
    let x := getHart s h
    let y := getHart t h
    y.e = x.e ∧ y.v = x.v ∧ y.k = x.k ∧ y.eF = x.eF ∧ y.vF = x.vF ∧ y.kF = x.kF ∧ y.fflags = x.fflags ∧ y.frm = x.frm ∧
      y.pre = x.pre ∧ y.mtag = x.mtag ∧ y.wlx = x.wlx ∧ y.cpyq = x.cpyq ∧ y.path = x.path ∧ y.wlim = x.wlim ∧
      y.tcause = x.tcause ∧ y.tval = x.tval ∧ y.tepc = x.tepc ∧ y.tvec = x.tvec ∧ y.tscratch = x.tscratch ∧ y.inh = x.inh ∧
      y.sup = x.sup ∧ y.ss = x.ss ∧ y.stack = x.stack ∧ y.fork = x.fork ∧ y.bar = x.bar

/-- The halfword that hart `h` fetches at `va`, and the state after it (R33, R73): the translation is at hand, and no error lies
there. -/
def Fetches (s : State) (h : HartId) (va : Word) (v : Nat) (t : State) : Prop :=
  ∃ pa, AtHand s va.toNat .exec pa ∧ codeRead s h pa 2 = (t, v, false)

/-- One spelling for the instructions that share an encoding: LKCTL takes its function from register b, and SWREQ from the word in
memory (log 17). -/
def canon (i : Instr) : Instr :=
  match i with
  | .lkctlThresh d b a | .lkctlMaxw d b a | .lkctlRetrain d b a => .lkctlStatus d b a
  | .swreqDefpart d a | .swreqSetrun d a | .swreqDestroy d a => .swreqSwitch d a
  | i => i

/-- Words written out bit by bit from the encoding tables of R35 to R47, and the worked encodings of 03_encoding.md, with the
instruction that each stands for. -/
def wordRows : List (Nat × Nat × Instr) :=
  [ (32, 0x302662A9, .ldg 3 2 .dword 6 5), (32, 0x15128383, .div 2 7 8 9), (32, 0x604851CD, .amoAddD .g .acq .dev 3 4 5),
    (32, 0x086990E1, .vfma .f32 .rne 1 3 2 1), (32, 0x140D10DD, .cpyGl 1 4 3 2 1), (16, 0xFA9A, .cBnez 0x7D 9),
    (32, 0x000A4183, .add 3 4 5),
    -- ADDI g10, g11, -1: imm15, a, d, major 0x02
    (32, 0b111111111111111_01011_01010_000010_1, .addi 10 11 0x7FFF),
    -- BLT g4, g5, -4 bytes: off12 -2, cond 2, b, a, major 0x0A
    (32, 0b111111111110_010_00101_00100_001010_1, .blt 4 5 0xFFE),
    -- JAL g1, +16 bytes: off20 8, d, major 0x0B
    (32, 0b00000000000000001000_00001_001011_1, .jal 1 8),
    -- CSRS g3, wlim (0x02D), g7: op 2, number, a, d, major 0x0F
    (32, 0b010_000000101101_00111_00011_001111_1, .csrs 3 0x02D 7),
    -- STFM.e [g9 - 4]: la 0, imm8 -1, w 4, a, d 0, major 0x21
    (32, 0b0000_11111111_100_01001_00000_100001_1, .stfmE 0xFF 9),
    -- MMA c5, bank 1, latch, e3 is MMA.latch: la 2, n 5, m 3, ec 0, eb 0, ea 0, f 1, major 0x36
    (32, 0b0010_0101_011_000_000_000_00001_110110_1, .mmaLatch 2 5 1),
    -- C.MOV g5, g6: f2 0, a, d, op3 1
    (16, 0b00_00110_00101_001_0, .cMov 5 6) ]

end Sys2Proof.Claims

/-- R48, R50: an instruction outside the set of the hart that fetched it traps with cause 0x0B, tval its word (an unlisted CSR
number is illegal before that, on a sequencer by the model's choice, log 43); OPT on a tile thread is illegal; PRIV and STEPIDLE trap
with cause 0x03 in user mode, and so does a CSR instruction that names a supervisor CSR. -/
def Obligations.HartSets : Prop :=
  (∀ (i : Instr) (s : State), (encode i).isSome = true → engineIllegal (kindOf s.cur) i = true →
    (∀ n, csrNamed i = some n → csrListed n.toNat = true) → exec i s = .next (trapOn s s.cur 0x0B (w64 s.iword))) ∧
  (∀ (la : La) (ec eb ea : EReg) (s : State), kindOf s.cur = .thread →
    ∀ i ∈ [Instr.optAdamw la ec eb ea, .optSgdm la ec eb ea, .optClip la ec eb], exec i s = .next (trapOn s s.cur 0x00 (w64 s.iword))) ∧
  (∀ (i : Instr) (a b d : GReg) (s : State), Privileged i a b d → kindOf s.cur = .thread → isSup s = false →
    exec i s = .next (trapOn s s.cur 0x03 (w64 s.iword))) ∧
  (∀ (i : Instr) (n : CsrNo) (s : State), csrNamed i = some n → csrListed n.toNat = true → 0x200 ≤ n.toNat →
    kindOf s.cur = .thread → isSup s = false → exec i s = .next (trapOn s s.cur 0x03 (w64 s.iword))) ∧
  (∀ (i : Instr) (n : CsrNo) (s : State), csrNamed i = some n → csrListed n.toNat = false →
    exec i s = .next (trapOn s s.cur 0x00 (w64 s.iword)))

/-- R57, R60, R61, R296, for the ALU and ALUI instructions: an empty source parks the instruction before any effect; a destination that
an outstanding operation of the hart will write traps with cause 0x02, tval its designation; a long operation waits while four
are outstanding. A source with a correctable error delivers its value, and one with an uncorrectable error zero, with a poison report of
its designation; the cell is then corrected, or poisoned until it is written; all this once the instruction takes effect, while one that
parks leaves no trace (R6). That the sources are looked at before the destinations, where R57 and R60 do not say which comes first, is the
model's reading (DEDUCED; log 10). -/
def Obligations.IssueRules : Prop :=
  (∀ (d a b : GReg) (imm : Imm15) (c : Imm7) (n : Sh6), ∀ r ∈ aluRows d a b ++ aluMoreRows d a b c ++ immRows d a imm n,
    ∀ s : State, r.ok (kindOf s.cur) = true →
      ((∃ q ∈ r.srcs, regFull s s.cur (gId q) = false) →
        ∃ q ∈ r.srcs, regFull s s.cur (gId q) = false ∧ exec r.instr s = .next (parkHart s s.cur (.reg (gId q)))) ∧
      ((∀ q ∈ r.srcs, regFull s s.cur (gId q) = true ∧ flawAt (me s).flaws (.reg (gId q)) = none) → hazard (me s) (gId r.dst) = true →
        exec r.instr s = .next (trapOn (readFilled s (r.srcs.map gId)) s.cur 0x02 (w64 r.dst.val)))) ∧
  (∀ (la : La) (d a b : GReg), ∀ r ∈ longRows la d a b, ∀ s : State, Issues s threadOrMender [gId a, gId b] [] → 4 ≤ (openOps s.cycle (me s)).length →
    exec r.1 s = .next (parkHart (readFilled s [gId a, gId b]) s.cur .outFull)) ∧
  (∀ (d a : GReg) (imm : Imm15) (n : Sh6), ∀ r ∈ immRows d a imm n, ∀ (s : State) (f : Flaw), r.ok (kindOf s.cur) = true →
    regFull s s.cur (gId a) = true → hazard (me s) (gId d) = false → (me s).filled = [] → flawAt (me s).flaws (.reg (gId a)) = some f →
    (me s).status = .ready → s.reads = [] →
      let k := hartDie s.cur
      let e := errOf s k
      ∃ s', settle s.cur (me s) (exec r.instr s) = .next s' ∧
        rg (getHart s' s.cur) d = (if d = 0 then 0 else r.val fun q => if f = .soft then rg (me s) q else 0) ∧
        flawAt (getHart s' s.cur).flaws (.reg (gId a)) = (if f = .soft ∨ (d = a ∧ d ≠ 0) then none else some .found) ∧
        (f = .soft → s'.reports = s.reports ∧ (e.sce < 2 ^ 64 - 1 → (errOf s' k).sce = e.sce + 1)) ∧
        (f = .hard → e.sue < 2 ^ 64 - 1 → (errOf s' k).sue = e.sue + 1) ∧
        (f = .found → errOf s' k = e) ∧
        (f ≠ .soft → ∃ p, s'.reports = s.reports ++ [p] ∧ cut p.data 0 8 = 1 ∧ cut p.data 128 64 = a.val)) ∧
  (∀ (s : State) (h : HartId) (x : Hart) (q : RegId), (getHart s h).status = .parked (.reg q) →
    settle h x (.next s) = .next { s with reads := [] })

/-- The frame of the ALU and ALUI instructions (R63, R69, R71, R72): each writes its destination register, and no other register,
flag, trap register, memory byte or hart changes. -/
def Obligations.RegisterFrame : Prop :=
  ∀ (d a b : GReg) (imm : Imm15) (c : Imm7) (n : Sh6), ∀ r ∈ aluRows d a b ++ aluMoreRows d a b c ++ immRows d a imm n,
    ∀ s : State, Issues s r.ok (r.srcs.map gId) [gId r.dst] →
      ∃ t, exec r.instr s = .next t ∧ OnlyRegister s t s.cur r.dst

/-- R63, R66, R68, R174: a trap waits until its hart has no long operation outstanding; it saves cause, value and pc; a thread goes
to its handler if it has one and is not in it, and is trapped with a report of kind 0 otherwise; the fault of a sequencer ends
its program with the fault entry in the mailbox. -/
def Obligations.TrapEntry : Prop :=
  ∀ (s : State) (t : Nat) (i : Fin 10) (cause : Nat) (val : Word), cause < 128 →
    let h : HartId := .tile t i
    let x := getHart s h
    (x.out ≠ [] → (getHart (trapOn s h cause val) h).status = .parked (.trap cause val) ∧
      (getHart (trapOn s h cause val) h).g = x.g ∧ (trapOn s h cause val).reports = s.reports) ∧
    (x.out = [] → i.val < 8 →
      let y := getHart (trapOn s h cause val) h
      (y.tcause.toNat = cause ∧ y.tval = val ∧ y.tepc = x.pc ∧ y.g = x.g ∧ y.sup = x.sup ∧ (trapOn s h cause val).mem = s.mem) ∧
      (x.tvec ≠ 0 → x.inh = false → y.pc = x.tvec ∧ y.inh = true ∧ y.status = .ready ∧
        (trapOn s h cause val).reports = s.reports) ∧
      (x.tvec = 0 ∨ x.inh = true → y.pc = x.pc ∧ y.inh = x.inh ∧ y.status = .trapped ∧
        ∃ r, (trapOn s h cause val).reports = s.reports ++ [r] ∧ r.ctx = (getTile s t).ctx ∧ r.repq = (getTile s t).repq ∧
          cut r.data 0 8 = 0 ∧ cut r.data 8 8 = cause ∧ cut r.data 16 16 = t % 65536 ∧ cut r.data 32 3 = i.val ∧
          cut r.data 64 64 = x.pc.toNat ∧ cut r.data 128 64 = val.toNat)) ∧
    (x.out = [] → 8 ≤ i.val → (getTile s t).mbox.length < 32 →
      let s' := trapOn s h cause val
      (getTile s' t).mbox = (getTile s t).mbox ++ [⟨w64 (0xFFFFFFFFFFFFFF00 + 2 * cause + (i.val - 8)), x.pc, false, none⟩] ∧
        (getHart s' h).status = .free ∧ (getHart s' h).g = x.g ∧ s'.mem = s.mem)

/-- R55, R66, R130, R142, R298, R330, R334, R343: what reset leaves: bring-up is still to come, nothing is occupied, a thread starts
with registers of 0, all full, k0 all ones and wlim 0x1000, and the counters and limits of tiles, dies and links have their
reset values. The registers for which the spec gives no reset value are 0, the model's choice (log 5). -/
def Obligations.ResetState : Prop :=
  State.reset.boot = 0 ∧ State.reset.fcode = 0 ∧ State.reset.cycle = 0 ∧ State.reset.tiles = [] ∧ State.reset.ctxs = [] ∧
    State.reset.groups = [] ∧ memWf State.reset = true ∧
    (∀ r : GReg, rg Hart.reset r = 0) ∧ Hart.reset.gF = 0xFFFFFFFF ∧ Hart.reset.eF = 0xFF ∧ Hart.reset.vF = 0xFFFF ∧
    Hart.reset.kF = 0xF ∧ rk Hart.reset 0 = 0xFFFF ∧ rk Hart.reset 1 = 0 ∧ Hart.reset.wlim = 0x1000 ∧ Hart.reset.fflags = 0 ∧
    Hart.reset.frm = 0 ∧ Hart.reset.tvec = 0 ∧ Hart.reset.inh = false ∧ Hart.reset.status = .free ∧
    Tile.reset.stepwatch = 1000 ∧ Tile.reset.sleepDepth = 1 ∧ Tile.reset.escwait = 256 ∧ Tile.reset.step = 0 ∧
    (∀ i, Tile.reset.lfsr.get i = 1) ∧
    (∀ d, (State.reset.dies.get d).err.dper = 24) ∧
    ∀ l, (State.reset.links.get l).st = .down ∧ (State.reset.links.get l).maxw = 8 ∧ (State.reset.links.get l).wide = 64 ∧
      (State.reset.links.get l).narrow = 8 ∧ (State.reset.links.get l).hold = 50

/-- R34, and R35 to R47 by examples: the all-zero halfword, and every 32-bit word whose major is 0x00 or 0x3F, are no instructions,
and a word that is none raises cause 0x00; words written out from the encoding tables decode to the instructions they stand for. -/
def Obligations.DecodeWords : Prop :=
  decodeTableWord 16 0 = none ∧
    (∀ w < 2 ^ 32, w % 2 = 1 → (cut w 1 6 = 0x00 ∨ cut w 1 6 = 0x3F) → decodeTableWord 32 w = none) ∧
    (∀ s : State, exec .illegalInstruction s = .next (trapOn s s.cur 0x00 (w64 s.iword))) ∧
    (∀ r ∈ wordRows, decodeTableWord r.1 r.2.1 = some r.2.2) ∧ decodeTableWord 32 0x080A4183 = none

/-- R33 to R47: decoding the encoding of a well-formed instruction gives it back, with every operand at every value; where several
instructions of the table share a word, it gives the first of them, and a FENCE is encoded with scope code 0 (log 17). -/
def Obligations.DecodeEncode : Prop :=
  ∀ (i : Instr) (n w : Nat), WellFormed i = true → encode i = some (n, w) →
    (n = 16 ∨ n = 32) ∧ w < 2 ^ n ∧ decodeTableWord n w = some (canon i)

/-- R33, R50, R53: when hart h issues and no trap of it waits, the halfwords at its pc are read through its translation; the word
they make, one halfword or two by its bit 0, is executed as the instruction that it decodes to, or raises the
illegal-instruction event; what it met in reading is made good, which is nothing where it met no poison and no error; then a cycle passes. A
short instruction that holds its slot takes effect as its word decodes, without another fetch (R54). Reading code changes no register and no
memory, and a tile whose instruction cache does not hold the line reads memory. -/
def Obligations.StepRunsDecoded : Prop :=
  (∀ (s s2 : State) (h : HartId) (lo : Nat), (pick s).1 = .hart h → dueTrap (pick s).2 h = none →
    let s1 := markIssue (pick s).2 h
    Fetches s1 h (me s1).pc lo s2 →
      let run (w n : Nat) (u : State) : Prop :=
        (∀ i rest, decode (wordBytes n w) = .ok (i, rest) →
          step s = ticked (.hart h) (settle h (getHart (pick s).2 h) (exec i { u with iword := w }))) ∧
        (∀ e, decode (wordBytes n w) = .error e →
          step s = ticked (.hart h) (settle h (getHart (pick s).2 h) (exec .illegalInstruction { u with iword := w })))
      (lo % 2 = 0 → run lo 2 s2) ∧
      (lo % 2 = 1 → ∀ (s3 : State) (hi : Nat), Fetches s2 h ((me s1).pc + 2) hi s3 → run (lo + 65536 * hi) 4 s3)) ∧
  (∀ (s : State) (h : HartId) (w : Nat) (i : Instr) (rest : List (BitVec 8)), (pick s).1 = .held h w →
    decode (wordBytes (if w % 2 = 0 then 2 else 4) w) = .ok (i, rest) →
      step s = ticked (.held h w) (settle h (getHart (pick s).2 h) (exec i { (pick s).2 with cur := h, iword := w }))) ∧
  (∀ (s : State) (h : HartId) (x : Hart), s.reads = [] → settle h x (.next s) = .next s) ∧
  (∀ (s t : State) (h : HartId) (va : Word) (v : Nat), Fetches s h va v t →
    (∀ k, getHart t k = getHart s k) ∧ t.mem = s.mem ∧ t.cur = s.cur ∧ v < 2 ^ 16) ∧
  (∀ (s t : State) (h : HartId) (pa v : Nat), pa % 2 = 0 → Memory.wf s.mem = true → physPoison s pa 2 = false →
    (∀ u, tileOf? h = some u → alGet (getTile s u).icache (pa / 64) = none) → codeRead s h pa 2 = (t, v, false) →
      v = memRead s.mem pa 2)

/-- R63, R68, R293: the machine always goes on: every step answers a next state, one cycle later (that a step is one cycle is the
model's choice, log 1). -/
def Obligations.StepGoesOn : Prop := ∀ s : State, ∃ t, step s = .next t ∧ t.cycle = s.cycle + 1

/-- Every step keeps every memory of the machine in its canonical form (log 4). -/
def Obligations.StepKeepsMemory : Prop := ∀ s t : State, memWf s = true → step s = .next t → memWf t = true
end

