-- ==== Sys2Proof/Laws/Mem.lean ====
section
/-! SUPPORT. Memory: every operation keeps the canonical form (log 4); what a read gives after a write, a zeroing or a copy. -/

namespace Sys2Proof.Machine

/-! ## The canonical form -/

theorem memWfFrom_mono {m : Mem} {lo lo' : Nat} (h : lo' ≤ lo) (hm : memWfFrom lo m = true) : memWfFrom lo' m = true := by
  cases m with
  | nil => rfl
  | cons c r => simp only [memWfFrom, Bool.and_eq_true, decide_eq_true_eq] at *; exact ⟨⟨by omega, hm.1.2⟩, hm.2⟩

theorem memWfFrom_filter (p : Host.Cell → Bool) (m : Mem) (lo : Nat) (hm : memWfFrom lo m = true) :
    memWfFrom lo (m.filter p) = true := by
  induction m generalizing lo with
  | nil => rfl
  | cons c r ih =>
    simp only [memWfFrom, Bool.and_eq_true, decide_eq_true_eq] at hm
    by_cases hp : p c
    · simp only [List.filter_cons, hp, if_true, memWfFrom, Bool.and_eq_true, decide_eq_true_eq]
      exact ⟨hm.1, ih _ hm.2⟩
    · simp only [List.filter_cons, hp]
      exact memWfFrom_mono (by omega) (ih _ hm.2)

/-- A list whose entries all lie at or above `a` is in canonical form from `a` on. -/
theorem memWfFrom_raise {m : Mem} {lo a : Nat} (hm : memWfFrom lo m = true) (ha : ∀ c ∈ m, a ≤ c.1) :
    memWfFrom a m = true := by
  cases m with
  | nil => rfl
  | cons c r =>
    simp only [memWfFrom, Bool.and_eq_true, decide_eq_true_eq] at *
    exact ⟨⟨ha c (by simp), hm.1.2⟩, hm.2⟩

theorem memWfFrom_append {xs ys : Mem} {lo mid : Nat} (hl : lo ≤ mid) (hx : memWfFrom lo xs = true)
    (hb : ∀ c ∈ xs, c.1 < mid) (hy : memWfFrom mid ys = true) : memWfFrom lo (xs ++ ys) = true := by
  induction xs generalizing lo with
  | nil => exact memWfFrom_mono hl hy
  | cons c r ih =>
    simp only [memWfFrom, List.cons_append, Bool.and_eq_true, decide_eq_true_eq] at *
    have := hb c (by simp)
    exact ⟨hx.1, ih (by omega) hx.2 fun d hd => hb d (by simp [hd])⟩

theorem memCells_bounds (n a v : Nat) : ∀ c ∈ memCells a n v, a ≤ c.1 ∧ c.1 < a + n := by
  induction n generalizing a v with
  | zero => simp [memCells]
  | succ n ih =>
    intro c hc
    simp only [memCells] at hc
    split at hc
    · have := ih _ _ c hc; omega
    · rcases List.mem_cons.mp hc with rfl | h
      · simp
      · have := ih _ _ c h; omega

theorem memCells_wf (n a v : Nat) : memWfFrom a (memCells a n v) = true := by
  induction n generalizing a v with
  | zero => rfl
  | succ n ih =>
    simp only [memCells]
    split
    · exact memWfFrom_mono (by omega) (ih _ _)
    · rename_i hv
      simp only [memWfFrom, Bool.and_eq_true, decide_eq_true_eq, Nat.le_refl, true_and]
      refine ⟨?_, ih _ _⟩
      simp only [bne_iff_ne, ne_eq]
      intro h
      have := congrArg BitVec.toNat h
      simp at this
      omega

theorem filter_lt_bound (m : Mem) (a : Nat) : ∀ c ∈ m.filter (fun c => decide (c.1 < a)), c.1 < a := by
  intro c hc; simpa using (List.mem_filter.mp hc).2

theorem filter_ge_wf {m : Mem} (a : Nat) (hm : Memory.wf m = true) :
    memWfFrom a (m.filter fun c => decide (a ≤ c.1)) = true :=
  memWfFrom_raise (memWfFrom_filter _ _ _ hm) fun c hc => by simpa using (List.mem_filter.mp hc).2

/-- A list in canonical form put in place of the bytes from `a` to `a + n`. -/
theorem splice_wf {m x : Mem} {a n : Nat} (hm : Memory.wf m = true) (hx : memWfFrom a x = true)
    (hb : ∀ c ∈ x, c.1 < a + n) :
    Memory.wf (m.filter (fun c => decide (c.1 < a)) ++ x ++ m.filter (fun c => decide (a + n ≤ c.1))) = true := by
  rw [List.append_assoc]
  exact memWfFrom_append (Nat.zero_le a) (memWfFrom_filter _ _ _ hm) (filter_lt_bound m a)
    (memWfFrom_append (by omega) hx hb (filter_ge_wf (a + n) hm))

/-- A write keeps the canonical form. -/
theorem memWrite_wf {m : Mem} (a n v : Nat) (hm : Memory.wf m = true) : Memory.wf (memWrite m a n v) = true :=
  splice_wf hm (memCells_wf n a v) fun c hc => (memCells_bounds n a v c hc).2

/-- Zeroing keeps the canonical form. -/
theorem memZero_wf {m : Mem} (a n : Nat) (hm : Memory.wf m = true) : Memory.wf (memZero m a n) = true := by
  have := splice_wf (m := m) (x := []) (a := a) (n := n) hm rfl (by simp)
  simpa [memZero] using this

theorem memMoved_bounds (m : Mem) (a n b : Nat) : ∀ c ∈ memMoved m a n b, b ≤ c.1 ∧ c.1 < b + n := by
  intro c hc
  obtain ⟨d, hd, rfl⟩ := List.mem_map.mp hc
  have := (List.mem_filter.mp hd).2
  simp only [decide_eq_true_eq] at this
  constructor <;> simp only <;> omega

theorem map_shift_wf (m : Mem) (a b lo : Nat) (hl : a ≤ lo) (hm : memWfFrom lo m = true) :
    memWfFrom (lo - a + b) (m.map fun c => (c.1 - a + b, c.2)) = true := by
  induction m generalizing lo with
  | nil => rfl
  | cons c r ih =>
    simp only [memWfFrom, List.map_cons, Bool.and_eq_true, decide_eq_true_eq] at *
    refine ⟨⟨by omega, hm.1.2⟩, ?_⟩
    have := ih (c.1 + 1) (by omega) hm.2
    rwa [show c.1 + 1 - a + b = c.1 - a + b + 1 by omega] at this

theorem memMoved_wf {m : Mem} (a n b : Nat) (hm : Memory.wf m = true) : memWfFrom b (memMoved m a n b) = true := by
  have h : memWfFrom a (m.filter fun c => decide (a ≤ c.1 ∧ c.1 < a + n)) = true :=
    memWfFrom_raise (memWfFrom_filter _ _ _ hm) fun c hc => by
      have := (List.mem_filter.mp hc).2; simp only [decide_eq_true_eq] at this; omega
  have := map_shift_wf _ a b a (Nat.le_refl a) h
  simpa [memMoved] using this

/-- A copy keeps the canonical form. -/
theorem memCopy_wf {dst src : Mem} (a n b : Nat) (hd : Memory.wf dst = true) (hs : Memory.wf src = true) :
    Memory.wf (memCopy dst src a n b) = true :=
  splice_wf hd (memMoved_wf a n b hs) fun c hc => (memMoved_bounds src a n b c hc).2

/-! ## Reads -/

theorem memRead_append (xs ys : Mem) (a n : Nat) : memRead (xs ++ ys) a n = memRead xs a n + memRead ys a n := by
  induction xs with
  | nil => simp [memRead]
  | cons c r ih =>
    obtain ⟨k, b⟩ := c
    simp only [List.cons_append, memRead]
    repeat' split
    all_goals omega

/-- Entries outside the bytes read do not matter. -/
theorem memRead_none {m : Mem} {a n : Nat} (h : ∀ c ∈ m, ¬ (a ≤ c.1 ∧ c.1 < a + n)) : memRead m a n = 0 := by
  induction m with
  | nil => rfl
  | cons c r ih =>
    obtain ⟨k, b⟩ := c
    have hk := h (k, b) (by simp)
    have hr := ih fun d hd => h d (by simp [hd])
    simp only [memRead]
    repeat' split
    all_goals first | exact hr | (exfalso; apply hk; simp only; omega)

theorem memRead_filter {m : Mem} {p : Host.Cell → Bool} {a n : Nat} (h : ∀ c ∈ m, a ≤ c.1 → c.1 < a + n → p c = true) :
    memRead (m.filter p) a n = memRead m a n := by
  induction m with
  | nil => rfl
  | cons c r ih =>
    obtain ⟨k, b⟩ := c
    have hk := h (k, b) (by simp)
    have hr := ih fun d hd => h d (by simp [hd])
    by_cases hp : p (k, b)
    · simp only [List.filter_cons, hp, if_true, memRead, hr]
    · rw [List.filter_cons_of_neg hp, hr]
      simp only [memRead]
      repeat' split
      all_goals first | rfl | (exfalso; apply hp; apply hk <;> omega)

theorem memRead_lower (m : Mem) (a n b k : Nat) (h : b + k ≤ a) :
    memRead (m.filter fun c => decide (a + n ≤ c.1)) b k = 0 :=
  memRead_none fun c hc => by have := (List.mem_filter.mp hc).2; simp only [decide_eq_true_eq] at this; omega

theorem memRead_memCells (n a v : Nat) : memRead (memCells a n v) a n = v % 256 ^ n := by
  suffices h : ∀ (n a v b : Nat), a ≤ b → memRead (memCells b n v) a (b - a + n) = v % 256 ^ n * 256 ^ (b - a) by
    simpa using h n a v a (Nat.le_refl a)
  intro n
  induction n with
  | zero => intro a v b _; simp [memCells, memRead, Nat.mod_one]
  | succ n ih =>
    intro a v b hb
    have step := ih a (v / 256) (b + 1) (by omega)
    have e1 : b + 1 - a + n = b - a + (n + 1) := by omega
    have e2 : b + 1 - a = b - a + 1 := by omega
    rw [e1, e2] at step
    have hv : v % 256 ^ (n + 1) = v % 256 + 256 * (v / 256 % 256 ^ n) := by
      rw [Nat.pow_succ, Nat.mul_comm, Nat.mod_mul]
    simp only [memCells]
    split
    · rename_i h0
      rw [step, hv, h0, Nat.pow_succ]
      ring
    · simp only [memRead]
      have h1 : ¬ b < a := by omega
      have h2 : b < a + (b - a + (n + 1)) := by omega
      simp only [h1, h2, if_false, if_true]
      rw [step, hv, Nat.pow_succ]
      simp only [BitVec.toNat_ofNat]
      ring

/-- The bytes written read back, little-endian (R1). -/
theorem memRead_memWrite_same (m : Mem) (a n v : Nat) : memRead (memWrite m a n v) a n = v % 256 ^ n := by
  rw [memWrite, memRead_append, memRead_append, memRead_memCells]
  rw [memRead_none (m := m.filter fun c => decide (c.1 < a)), memRead_none (m := m.filter fun c => decide (a + n ≤ c.1))]
  · omega
  · intro c hc; have := (List.mem_filter.mp hc).2; simp only [decide_eq_true_eq] at this; omega
  · intro c hc; have := filter_lt_bound m a c hc; omega

/-- What stands in place of the bytes from `a` to `a + n` does not show in a read of other bytes. -/
theorem memRead_splice_other (m x : Mem) (a n b k : Nat) (hx : ∀ c ∈ x, a ≤ c.1 ∧ c.1 < a + n) (h : b + k ≤ a ∨ a + n ≤ b) :
    memRead (m.filter (fun c => decide (c.1 < a)) ++ x ++ m.filter (fun c => decide (a + n ≤ c.1))) b k = memRead m b k := by
  rw [memRead_append, memRead_append, memRead_none (m := x) fun c hc => by have := hx c hc; omega]
  rcases h with h | h
  · rw [memRead_lower m a n b k h, memRead_filter fun c _ h1 h2 => by simp only [decide_eq_true_eq]; omega]
    omega
  · rw [memRead_none (m := m.filter fun c => decide (c.1 < a)) fun c hc => by
        have := filter_lt_bound m a c hc; omega,
      memRead_filter fun c _ h1 h2 => by simp only [decide_eq_true_eq]; omega]
    omega

/-- Other bytes read as before a write. -/
theorem memRead_memWrite_other (m : Mem) (a n v b k : Nat) (h : b + k ≤ a ∨ a + n ≤ b) :
    memRead (memWrite m a n v) b k = memRead m b k :=
  memRead_splice_other m _ a n b k (memCells_bounds n a v) h

/-- Other bytes read as before a zeroing. -/
theorem memRead_memZero_other (m : Mem) (a n b k : Nat) (h : b + k ≤ a ∨ a + n ≤ b) :
    memRead (memZero m a n) b k = memRead m b k := by
  have := memRead_splice_other m [] a n b k (by simp) h
  simpa [memZero] using this

/-- Zeroed bytes read as zero. -/
theorem memRead_memZero_same (m : Mem) (a n : Nat) : memRead (memZero m a n) a n = 0 := by
  rw [memZero, memRead_append, memRead_none, memRead_none]
  · intro c hc; have := (List.mem_filter.mp hc).2; simp only [decide_eq_true_eq] at this; omega
  · intro c hc; have := filter_lt_bound m a c hc; omega

/-- Other bytes read as before a copy. -/
theorem memRead_memCopy_other (dst src : Mem) (a n b c k : Nat) (h : c + k ≤ b ∨ b + n ≤ c) :
    memRead (memCopy dst src a n b) c k = memRead dst c k :=
  memRead_splice_other dst _ b n c k (memMoved_bounds src a n b) h

theorem memRead_memMoved (m : Mem) (a n b : Nat) : memRead (memMoved m a n b) b n = memRead m a n := by
  induction m with
  | nil => rfl
  | cons c r ih =>
    obtain ⟨k, x⟩ := c
    by_cases h : a ≤ k ∧ k < a + n
    · have e : memMoved ((k, x) :: r) a n b = (k - a + b, x) :: memMoved r a n b := by simp [memMoved, h]
      rw [e]
      simp only [memRead, ih]
      have h1 : ¬ k - a + b < b := by omega
      have h2 : k - a + b < b + n := by omega
      have h3 : ¬ k < a := by omega
      simp only [h1, h2, h3, h.2, if_false, if_true]
      rw [show k - a + b - b = k - a by omega]
    · have e : memMoved ((k, x) :: r) a n b = memMoved r a n b := by simp [memMoved, h]
      rw [e, ih]
      simp only [memRead]
      repeat' split
      all_goals first | rfl | omega

/-- A copy delivers the bytes of its source. -/
theorem memRead_memCopy_same (dst src : Mem) (a n b : Nat) : memRead (memCopy dst src a n b) b n = memRead src a n := by
  rw [memCopy, memRead_append, memRead_append, memRead_memMoved,
    memRead_none (m := dst.filter fun c => decide (c.1 < b)), memRead_none (m := dst.filter fun c => decide (b + n ≤ c.1))]
  · omega
  · intro c hc; have := (List.mem_filter.mp hc).2; simp only [decide_eq_true_eq] at this; omega
  · intro c hc; have := filter_lt_bound dst b c hc; omega

end Sys2Proof.Machine
end

