-- ==== Sys2Proof/Laws/State.lean ====
section
/-! SUPPORT. What the updates of the state leave alone and what they set: association lists, tiles, harts and registers, one lemma
for each field and update. -/

namespace Sys2Proof.Machine

/-! ## Association lists -/

/-- A key reads what it was set to. -/
@[simp] theorem alGet_alSet_same {α : Type} (l : List (Nat × α)) (k : Nat) (x : α) : alGet (alSet l k x) k = some x := by
  induction l with
  | nil => simp [alSet, alGet]
  | cons c r ih =>
    obtain ⟨k', y⟩ := c
    by_cases h1 : k < k'
    · simp [alSet, alGet, h1]
    · by_cases h2 : k' = k
      · simp [alSet, alGet, h2]
      · simp [alSet, alGet, h1, h2, ih]

/-- Another key reads as before. -/
theorem alGet_alSet_other {α : Type} (l : List (Nat × α)) {k j : Nat} (x : α) (h : j ≠ k) :
    alGet (alSet l k x) j = alGet l j := by
  induction l with
  | nil => simp [alSet, alGet, Ne.symm h]
  | cons c r ih =>
    obtain ⟨k', y⟩ := c
    by_cases h1 : k < k'
    · simp [alSet, alGet, h1, Ne.symm h]
    · by_cases h2 : k' = k
      · subst h2; simp [alSet, alGet, Ne.symm h]
      · by_cases h3 : k' = j
        · subst h3; simp [alSet, alGet, h1, h2]
        · simp [alSet, alGet, h1, h2, h3, ih]

/-- The last setting of a key counts. -/
@[simp] theorem alSet_alSet {α : Type} (l : List (Nat × α)) (k : Nat) (x y : α) : alSet (alSet l k x) k y = alSet l k y := by
  induction l with
  | nil => simp [alSet]
  | cons c r ih =>
    obtain ⟨k', z⟩ := c
    by_cases h1 : k < k'
    · simp [alSet, h1]
    · by_cases h2 : k' = k
      · simp [alSet, h2]
      · simp [alSet, h1, h2, ih]

/-! ## Tiles and menders -/

@[simp] theorem getTile_setTile_same (s : State) (t : Nat) (x : Tile) : getTile (setTile s t x) t = x := by
  simp [getTile, setTile]

theorem getTile_setTile_other (s : State) {t u : Nat} (x : Tile) (h : u ≠ t) : getTile (setTile s t x) u = getTile s u := by
  simp [getTile, setTile, alGet_alSet_other _ _ h]

@[simp] theorem setTile_setTile (s : State) (t : Nat) (x y : Tile) : setTile (setTile s t x) t y = setTile s t y := by
  simp [setTile]

@[simp] theorem getTile_setMender (s : State) (m t : Nat) (x : Mender) : getTile (setMender s m x) t = getTile s t := rfl

@[simp] theorem getMender_setMender_same (s : State) (m : Nat) (x : Mender) : getMender (setMender s m x) m = x := by
  simp [getMender, setMender]

theorem getMender_setMender_other (s : State) {m n : Nat} (x : Mender) (h : n ≠ m) :
    getMender (setMender s m x) n = getMender s n := by
  simp [getMender, setMender, alGet_alSet_other _ _ h]

@[simp] theorem setMender_setMender (s : State) (m : Nat) (x y : Mender) :
    setMender (setMender s m x) m y = setMender s m y := by
  simp [setMender]

@[simp] theorem getMender_setTile (s : State) (m t : Nat) (x : Tile) : getMender (setTile s t x) m = getMender s m := rfl

/-! ## Harts -/

@[simp] theorem vector_get_set_same {α : Type} {n : Nat} (v : Vector α n) (i : Fin n) (x : α) :
    (v.set i.val x i.isLt).get i = x := by
  show (v.set i.val x i.isLt)[i.val] = x
  simp

theorem vector_get_set_other {α : Type} {n : Nat} (v : Vector α n) {i j : Fin n} (x : α) (h : j ≠ i) :
    (v.set i.val x i.isLt).get j = v.get j := by
  have : ¬ i.val = j.val := fun e => h (Fin.ext e.symm)
  show (v.set i.val x i.isLt)[j.val] = v[j.val]
  simp [this]

/-- A hart reads what it was set to. -/
@[simp] theorem getHart_setHart_same (s : State) (h : HartId) (x : Hart) : getHart (setHart s h x) h = x := by
  cases h <;> simp [getHart, setHart]

/-- Another hart reads as before. -/
theorem getHart_setHart_other (s : State) {h k : HartId} (x : Hart) (hk : k ≠ h) :
    getHart (setHart s h x) k = getHart s k := by
  cases h with
  | tile t i =>
    cases k with
    | tile u j =>
      by_cases e : u = t
      · subst e
        have hj : j ≠ i := fun c => hk (by rw [c])
        simp [getHart, setHart, vector_get_set_other _ _ hj]
      · simp [getHart, setHart, getTile_setTile_other _ _ e]
    | mender m j => simp [getHart, setHart]
  | mender m i =>
    cases k with
    | tile u j => simp [getHart, setHart]
    | mender n j =>
      by_cases e : n = m
      · subst e
        have hj : j ≠ i := fun c => hk (by rw [c])
        simp [getHart, setHart, vector_get_set_other _ _ hj]
      · simp [getHart, setHart, getMender_setMender_other _ _ e]

/-- The last setting of a hart counts. -/
@[simp] theorem setHart_setHart (s : State) (h : HartId) (x y : Hart) : setHart (setHart s h x) h y = setHart s h y := by
  cases h <;> simp [setHart, Vector.set_set]

@[simp] theorem getHart_modHart_same (s : State) (h : HartId) (f : Hart → Hart) :
    getHart (modHart s h f) h = f (getHart s h) := by
  simp [modHart]

theorem getHart_modHart_other (s : State) {h k : HartId} (f : Hart → Hart) (hk : k ≠ h) :
    getHart (modHart s h f) k = getHart s k := getHart_setHart_other s _ hk

@[simp] theorem modHart_modHart (s : State) (h : HartId) (f g : Hart → Hart) :
    modHart (modHart s h f) h g = modHart s h fun x => g (f x) := by
  simp [modHart]

@[simp] theorem modMe_eq (s : State) (f : Hart → Hart) : modMe s f = modHart s s.cur f := rfl

/-! ## Fields of the state that the updates of tiles, menders and harts leave alone -/

@[simp] theorem setTile_cur (s : State) (t : Nat) (x : Tile) : (setTile s t x).cur = s.cur := rfl
@[simp] theorem setTile_iword (s : State) (t : Nat) (x : Tile) : (setTile s t x).iword = s.iword := rfl
@[simp] theorem setTile_reads (s : State) (t : Nat) (x : Tile) : (setTile s t x).reads = s.reads := rfl
@[simp] theorem setTile_agent (s : State) (t : Nat) (x : Tile) : (setTile s t x).agent = s.agent := rfl
@[simp] theorem setTile_ev (s : State) (t : Nat) (x : Tile) : (setTile s t x).ev = s.ev := rfl
@[simp] theorem setTile_inputs (s : State) (t : Nat) (x : Tile) : (setTile s t x).inputs = s.inputs := rfl
@[simp] theorem setTile_free (s : State) (t : Nat) (x : Tile) : (setTile s t x).free = s.free := rfl
@[simp] theorem setTile_ids (s : State) (t : Nat) (x : Tile) : (setTile s t x).ids = s.ids := rfl
@[simp] theorem setTile_bounds (s : State) (t : Nat) (x : Tile) : (setTile s t x).bounds = s.bounds := rfl
@[simp] theorem setTile_cycle (s : State) (t : Nat) (x : Tile) : (setTile s t x).cycle = s.cycle := rfl
@[simp] theorem setTile_dies (s : State) (t : Nat) (x : Tile) : (setTile s t x).dies = s.dies := rfl
@[simp] theorem setTile_menders (s : State) (t : Nat) (x : Tile) : (setTile s t x).menders = s.menders := rfl
@[simp] theorem setTile_mem (s : State) (t : Nat) (x : Tile) : (setTile s t x).mem = s.mem := rfl
@[simp] theorem setTile_gEmpty (s : State) (t : Nat) (x : Tile) : (setTile s t x).gEmpty = s.gEmpty := rfl
@[simp] theorem setTile_gPoison (s : State) (t : Nat) (x : Tile) : (setTile s t x).gPoison = s.gPoison := rfl
@[simp] theorem setTile_gLatent (s : State) (t : Nat) (x : Tile) : (setTile s t x).gLatent = s.gLatent := rfl
@[simp] theorem setTile_gfe (s : State) (t : Nat) (x : Tile) : (setTile s t x).gfe = s.gfe := rfl
@[simp] theorem setTile_gqWait (s : State) (t : Nat) (x : Tile) : (setTile s t x).gqWait = s.gqWait := rfl
@[simp] theorem setTile_ctxs (s : State) (t : Nat) (x : Tile) : (setTile s t x).ctxs = s.ctxs := rfl
@[simp] theorem setTile_parts (s : State) (t : Nat) (x : Tile) : (setTile s t x).parts = s.parts := rfl
@[simp] theorem setTile_launches (s : State) (t : Nat) (x : Tile) : (setTile s t x).launches = s.launches := rfl
@[simp] theorem setTile_groups (s : State) (t : Nat) (x : Tile) : (setTile s t x).groups = s.groups := rfl
@[simp] theorem setTile_qcopies (s : State) (t : Nat) (x : Tile) : (setTile s t x).qcopies = s.qcopies := rfl
@[simp] theorem setTile_msgs (s : State) (t : Nat) (x : Tile) : (setTile s t x).msgs = s.msgs := rfl
@[simp] theorem setTile_rewards (s : State) (t : Nat) (x : Tile) : (setTile s t x).rewards = s.rewards := rfl
@[simp] theorem setTile_reports (s : State) (t : Nat) (x : Tile) : (setTile s t x).reports = s.reports := rfl
@[simp] theorem setTile_collGroups (s : State) (t : Nat) (x : Tile) : (setTile s t x).collGroups = s.collGroups := rfl
@[simp] theorem setTile_colls (s : State) (t : Nat) (x : Tile) : (setTile s t x).colls = s.colls := rfl
@[simp] theorem setTile_collIn (s : State) (t : Nat) (x : Tile) : (setTile s t x).collIn = s.collIn := rfl
@[simp] theorem setTile_links (s : State) (t : Nat) (x : Tile) : (setTile s t x).links = s.links := rfl
@[simp] theorem setTile_ports (s : State) (t : Nat) (x : Tile) : (setTile s t x).ports = s.ports := rfl
@[simp] theorem setTile_msix (s : State) (t : Nat) (x : Tile) : (setTile s t x).msix = s.msix := rfl
@[simp] theorem setTile_noise (s : State) (t : Nat) (x : Tile) : (setTile s t x).noise = s.noise := rfl
@[simp] theorem setTile_sentFlits (s : State) (t : Nat) (x : Tile) : (setTile s t x).sentFlits = s.sentFlits := rfl
@[simp] theorem setTile_hostHeld (s : State) (t : Nat) (x : Tile) : (setTile s t x).hostHeld = s.hostHeld := rfl
@[simp] theorem setTile_hostGot (s : State) (t : Nat) (x : Tile) : (setTile s t x).hostGot = s.hostGot := rfl
@[simp] theorem setTile_armPend (s : State) (t : Nat) (x : Tile) : (setTile s t x).armPend = s.armPend := rfl
@[simp] theorem setTile_armSeen (s : State) (t : Nat) (x : Tile) : (setTile s t x).armSeen = s.armSeen := rfl
@[simp] theorem setTile_boot (s : State) (t : Nat) (x : Tile) : (setTile s t x).boot = s.boot := rfl
@[simp] theorem setTile_fcode (s : State) (t : Nat) (x : Tile) : (setTile s t x).fcode = s.fcode := rfl
@[simp] theorem setTile_trip (s : State) (t : Nat) (x : Tile) : (setTile s t x).trip = s.trip := rfl
@[simp] theorem setTile_abusy (s : State) (t : Nat) (x : Tile) : (setTile s t x).abusy = s.abusy := rfl
@[simp] theorem setTile_aerr (s : State) (t : Nat) (x : Tile) : (setTile s t x).aerr = s.aerr := rfl
@[simp] theorem setTile_devid (s : State) (t : Nat) (x : Tile) : (setTile s t x).devid = s.devid := rfl
@[simp] theorem setTile_tvec (s : State) (t : Nat) (x : Tile) : (setTile s t x).tvec = s.tvec := rfl
@[simp] theorem setTile_nonce (s : State) (t : Nat) (x : Tile) : (setTile s t x).nonce = s.nonce := rfl
@[simp] theorem setTile_msixTab (s : State) (t : Nat) (x : Tile) : (setTile s t x).msixTab = s.msixTab := rfl
@[simp] theorem setTile_attest (s : State) (t : Nat) (x : Tile) : (setTile s t x).attest = s.attest := rfl
@[simp] theorem setTile_report (s : State) (t : Nat) (x : Tile) : (setTile s t x).report = s.report := rfl
@[simp] theorem setTile_idKey (s : State) (t : Nat) (x : Tile) : (setTile s t x).idKey = s.idKey := rfl
@[simp] theorem setTile_idPub (s : State) (t : Nat) (x : Tile) : (setTile s t x).idPub = s.idPub := rfl
@[simp] theorem setTile_images (s : State) (t : Nat) (x : Tile) : (setTile s t x).images = s.images := rfl
@[simp] theorem setTile_bootKey (s : State) (t : Nat) (x : Tile) : (setTile s t x).bootKey = s.bootKey := rfl
@[simp] theorem setTile_keyFuse (s : State) (t : Nat) (x : Tile) : (setTile s t x).keyFuse = s.keyFuse := rfl
@[simp] theorem setTile_rollback (s : State) (t : Nat) (x : Tile) : (setTile s t x).rollback = s.rollback := rfl
@[simp] theorem setTile_stacksOk (s : State) (t : Nat) (x : Tile) : (setTile s t x).stacksOk = s.stacksOk := rfl
@[simp] theorem setTile_chanDown (s : State) (t : Nat) (x : Tile) : (setTile s t x).chanDown = s.chanDown := rfl
@[simp] theorem setTile_selfRefresh (s : State) (t : Nat) (x : Tile) : (setTile s t x).selfRefresh = s.selfRefresh := rfl
@[simp] theorem setTile_lastReq (s : State) (t : Nat) (x : Tile) : (setTile s t x).lastReq = s.lastReq := rfl
@[simp] theorem setMender_cur (s : State) (m : Nat) (x : Mender) : (setMender s m x).cur = s.cur := rfl
@[simp] theorem setMender_iword (s : State) (m : Nat) (x : Mender) : (setMender s m x).iword = s.iword := rfl
@[simp] theorem setMender_reads (s : State) (m : Nat) (x : Mender) : (setMender s m x).reads = s.reads := rfl
@[simp] theorem setMender_agent (s : State) (m : Nat) (x : Mender) : (setMender s m x).agent = s.agent := rfl
@[simp] theorem setMender_ev (s : State) (m : Nat) (x : Mender) : (setMender s m x).ev = s.ev := rfl
@[simp] theorem setMender_inputs (s : State) (m : Nat) (x : Mender) : (setMender s m x).inputs = s.inputs := rfl
@[simp] theorem setMender_free (s : State) (m : Nat) (x : Mender) : (setMender s m x).free = s.free := rfl
@[simp] theorem setMender_ids (s : State) (m : Nat) (x : Mender) : (setMender s m x).ids = s.ids := rfl
@[simp] theorem setMender_bounds (s : State) (m : Nat) (x : Mender) : (setMender s m x).bounds = s.bounds := rfl
@[simp] theorem setMender_cycle (s : State) (m : Nat) (x : Mender) : (setMender s m x).cycle = s.cycle := rfl
@[simp] theorem setMender_tiles (s : State) (m : Nat) (x : Mender) : (setMender s m x).tiles = s.tiles := rfl
@[simp] theorem setMender_dies (s : State) (m : Nat) (x : Mender) : (setMender s m x).dies = s.dies := rfl
@[simp] theorem setMender_mem (s : State) (m : Nat) (x : Mender) : (setMender s m x).mem = s.mem := rfl
@[simp] theorem setMender_gEmpty (s : State) (m : Nat) (x : Mender) : (setMender s m x).gEmpty = s.gEmpty := rfl
@[simp] theorem setMender_gPoison (s : State) (m : Nat) (x : Mender) : (setMender s m x).gPoison = s.gPoison := rfl
@[simp] theorem setMender_gLatent (s : State) (m : Nat) (x : Mender) : (setMender s m x).gLatent = s.gLatent := rfl
@[simp] theorem setMender_gfe (s : State) (m : Nat) (x : Mender) : (setMender s m x).gfe = s.gfe := rfl
@[simp] theorem setMender_gqWait (s : State) (m : Nat) (x : Mender) : (setMender s m x).gqWait = s.gqWait := rfl
@[simp] theorem setMender_ctxs (s : State) (m : Nat) (x : Mender) : (setMender s m x).ctxs = s.ctxs := rfl
@[simp] theorem setMender_parts (s : State) (m : Nat) (x : Mender) : (setMender s m x).parts = s.parts := rfl
@[simp] theorem setMender_launches (s : State) (m : Nat) (x : Mender) : (setMender s m x).launches = s.launches := rfl
@[simp] theorem setMender_groups (s : State) (m : Nat) (x : Mender) : (setMender s m x).groups = s.groups := rfl
@[simp] theorem setMender_qcopies (s : State) (m : Nat) (x : Mender) : (setMender s m x).qcopies = s.qcopies := rfl
@[simp] theorem setMender_msgs (s : State) (m : Nat) (x : Mender) : (setMender s m x).msgs = s.msgs := rfl
@[simp] theorem setMender_rewards (s : State) (m : Nat) (x : Mender) : (setMender s m x).rewards = s.rewards := rfl
@[simp] theorem setMender_reports (s : State) (m : Nat) (x : Mender) : (setMender s m x).reports = s.reports := rfl
@[simp] theorem setMender_collGroups (s : State) (m : Nat) (x : Mender) : (setMender s m x).collGroups = s.collGroups := rfl
@[simp] theorem setMender_colls (s : State) (m : Nat) (x : Mender) : (setMender s m x).colls = s.colls := rfl
@[simp] theorem setMender_collIn (s : State) (m : Nat) (x : Mender) : (setMender s m x).collIn = s.collIn := rfl
@[simp] theorem setMender_links (s : State) (m : Nat) (x : Mender) : (setMender s m x).links = s.links := rfl
@[simp] theorem setMender_ports (s : State) (m : Nat) (x : Mender) : (setMender s m x).ports = s.ports := rfl
@[simp] theorem setMender_msix (s : State) (m : Nat) (x : Mender) : (setMender s m x).msix = s.msix := rfl
@[simp] theorem setMender_noise (s : State) (m : Nat) (x : Mender) : (setMender s m x).noise = s.noise := rfl
@[simp] theorem setMender_sentFlits (s : State) (m : Nat) (x : Mender) : (setMender s m x).sentFlits = s.sentFlits := rfl
@[simp] theorem setMender_hostHeld (s : State) (m : Nat) (x : Mender) : (setMender s m x).hostHeld = s.hostHeld := rfl
@[simp] theorem setMender_hostGot (s : State) (m : Nat) (x : Mender) : (setMender s m x).hostGot = s.hostGot := rfl
@[simp] theorem setMender_armPend (s : State) (m : Nat) (x : Mender) : (setMender s m x).armPend = s.armPend := rfl
@[simp] theorem setMender_armSeen (s : State) (m : Nat) (x : Mender) : (setMender s m x).armSeen = s.armSeen := rfl
@[simp] theorem setMender_boot (s : State) (m : Nat) (x : Mender) : (setMender s m x).boot = s.boot := rfl
@[simp] theorem setMender_fcode (s : State) (m : Nat) (x : Mender) : (setMender s m x).fcode = s.fcode := rfl
@[simp] theorem setMender_trip (s : State) (m : Nat) (x : Mender) : (setMender s m x).trip = s.trip := rfl
@[simp] theorem setMender_abusy (s : State) (m : Nat) (x : Mender) : (setMender s m x).abusy = s.abusy := rfl
@[simp] theorem setMender_aerr (s : State) (m : Nat) (x : Mender) : (setMender s m x).aerr = s.aerr := rfl
@[simp] theorem setMender_devid (s : State) (m : Nat) (x : Mender) : (setMender s m x).devid = s.devid := rfl
@[simp] theorem setMender_tvec (s : State) (m : Nat) (x : Mender) : (setMender s m x).tvec = s.tvec := rfl
@[simp] theorem setMender_nonce (s : State) (m : Nat) (x : Mender) : (setMender s m x).nonce = s.nonce := rfl
@[simp] theorem setMender_msixTab (s : State) (m : Nat) (x : Mender) : (setMender s m x).msixTab = s.msixTab := rfl
@[simp] theorem setMender_attest (s : State) (m : Nat) (x : Mender) : (setMender s m x).attest = s.attest := rfl
@[simp] theorem setMender_report (s : State) (m : Nat) (x : Mender) : (setMender s m x).report = s.report := rfl
@[simp] theorem setMender_idKey (s : State) (m : Nat) (x : Mender) : (setMender s m x).idKey = s.idKey := rfl
@[simp] theorem setMender_idPub (s : State) (m : Nat) (x : Mender) : (setMender s m x).idPub = s.idPub := rfl
@[simp] theorem setMender_images (s : State) (m : Nat) (x : Mender) : (setMender s m x).images = s.images := rfl
@[simp] theorem setMender_bootKey (s : State) (m : Nat) (x : Mender) : (setMender s m x).bootKey = s.bootKey := rfl
@[simp] theorem setMender_keyFuse (s : State) (m : Nat) (x : Mender) : (setMender s m x).keyFuse = s.keyFuse := rfl
@[simp] theorem setMender_rollback (s : State) (m : Nat) (x : Mender) : (setMender s m x).rollback = s.rollback := rfl
@[simp] theorem setMender_stacksOk (s : State) (m : Nat) (x : Mender) : (setMender s m x).stacksOk = s.stacksOk := rfl
@[simp] theorem setMender_chanDown (s : State) (m : Nat) (x : Mender) : (setMender s m x).chanDown = s.chanDown := rfl
@[simp] theorem setMender_selfRefresh (s : State) (m : Nat) (x : Mender) : (setMender s m x).selfRefresh = s.selfRefresh := rfl
@[simp] theorem setMender_lastReq (s : State) (m : Nat) (x : Mender) : (setMender s m x).lastReq = s.lastReq := rfl
@[simp] theorem setHart_cur (s : State) (h : HartId) (x : Hart) : (setHart s h x).cur = s.cur := by cases h <;> rfl
@[simp] theorem setHart_iword (s : State) (h : HartId) (x : Hart) : (setHart s h x).iword = s.iword := by cases h <;> rfl
@[simp] theorem setHart_reads (s : State) (h : HartId) (x : Hart) : (setHart s h x).reads = s.reads := by cases h <;> rfl
@[simp] theorem setHart_agent (s : State) (h : HartId) (x : Hart) : (setHart s h x).agent = s.agent := by cases h <;> rfl
@[simp] theorem setHart_ev (s : State) (h : HartId) (x : Hart) : (setHart s h x).ev = s.ev := by cases h <;> rfl
@[simp] theorem setHart_inputs (s : State) (h : HartId) (x : Hart) : (setHart s h x).inputs = s.inputs := by cases h <;> rfl
@[simp] theorem setHart_free (s : State) (h : HartId) (x : Hart) : (setHart s h x).free = s.free := by cases h <;> rfl
@[simp] theorem setHart_ids (s : State) (h : HartId) (x : Hart) : (setHart s h x).ids = s.ids := by cases h <;> rfl
@[simp] theorem setHart_bounds (s : State) (h : HartId) (x : Hart) : (setHart s h x).bounds = s.bounds := by cases h <;> rfl
@[simp] theorem setHart_cycle (s : State) (h : HartId) (x : Hart) : (setHart s h x).cycle = s.cycle := by cases h <;> rfl
@[simp] theorem setHart_dies (s : State) (h : HartId) (x : Hart) : (setHart s h x).dies = s.dies := by cases h <;> rfl
@[simp] theorem setHart_mem (s : State) (h : HartId) (x : Hart) : (setHart s h x).mem = s.mem := by cases h <;> rfl
@[simp] theorem setHart_gEmpty (s : State) (h : HartId) (x : Hart) : (setHart s h x).gEmpty = s.gEmpty := by cases h <;> rfl
@[simp] theorem setHart_gPoison (s : State) (h : HartId) (x : Hart) : (setHart s h x).gPoison = s.gPoison := by cases h <;> rfl
@[simp] theorem setHart_gLatent (s : State) (h : HartId) (x : Hart) : (setHart s h x).gLatent = s.gLatent := by cases h <;> rfl
@[simp] theorem setHart_gfe (s : State) (h : HartId) (x : Hart) : (setHart s h x).gfe = s.gfe := by cases h <;> rfl
@[simp] theorem setHart_gqWait (s : State) (h : HartId) (x : Hart) : (setHart s h x).gqWait = s.gqWait := by cases h <;> rfl
@[simp] theorem setHart_ctxs (s : State) (h : HartId) (x : Hart) : (setHart s h x).ctxs = s.ctxs := by cases h <;> rfl
@[simp] theorem setHart_parts (s : State) (h : HartId) (x : Hart) : (setHart s h x).parts = s.parts := by cases h <;> rfl
@[simp] theorem setHart_launches (s : State) (h : HartId) (x : Hart) : (setHart s h x).launches = s.launches := by cases h <;> rfl
@[simp] theorem setHart_groups (s : State) (h : HartId) (x : Hart) : (setHart s h x).groups = s.groups := by cases h <;> rfl
@[simp] theorem setHart_qcopies (s : State) (h : HartId) (x : Hart) : (setHart s h x).qcopies = s.qcopies := by cases h <;> rfl
@[simp] theorem setHart_msgs (s : State) (h : HartId) (x : Hart) : (setHart s h x).msgs = s.msgs := by cases h <;> rfl
@[simp] theorem setHart_rewards (s : State) (h : HartId) (x : Hart) : (setHart s h x).rewards = s.rewards := by cases h <;> rfl
@[simp] theorem setHart_reports (s : State) (h : HartId) (x : Hart) : (setHart s h x).reports = s.reports := by cases h <;> rfl
@[simp] theorem setHart_collGroups (s : State) (h : HartId) (x : Hart) : (setHart s h x).collGroups = s.collGroups := by cases h <;> rfl
@[simp] theorem setHart_colls (s : State) (h : HartId) (x : Hart) : (setHart s h x).colls = s.colls := by cases h <;> rfl
@[simp] theorem setHart_collIn (s : State) (h : HartId) (x : Hart) : (setHart s h x).collIn = s.collIn := by cases h <;> rfl
@[simp] theorem setHart_links (s : State) (h : HartId) (x : Hart) : (setHart s h x).links = s.links := by cases h <;> rfl
@[simp] theorem setHart_ports (s : State) (h : HartId) (x : Hart) : (setHart s h x).ports = s.ports := by cases h <;> rfl
@[simp] theorem setHart_msix (s : State) (h : HartId) (x : Hart) : (setHart s h x).msix = s.msix := by cases h <;> rfl
@[simp] theorem setHart_noise (s : State) (h : HartId) (x : Hart) : (setHart s h x).noise = s.noise := by cases h <;> rfl
@[simp] theorem setHart_sentFlits (s : State) (h : HartId) (x : Hart) : (setHart s h x).sentFlits = s.sentFlits := by cases h <;> rfl
@[simp] theorem setHart_hostHeld (s : State) (h : HartId) (x : Hart) : (setHart s h x).hostHeld = s.hostHeld := by cases h <;> rfl
@[simp] theorem setHart_hostGot (s : State) (h : HartId) (x : Hart) : (setHart s h x).hostGot = s.hostGot := by cases h <;> rfl
@[simp] theorem setHart_armPend (s : State) (h : HartId) (x : Hart) : (setHart s h x).armPend = s.armPend := by cases h <;> rfl
@[simp] theorem setHart_armSeen (s : State) (h : HartId) (x : Hart) : (setHart s h x).armSeen = s.armSeen := by cases h <;> rfl
@[simp] theorem setHart_boot (s : State) (h : HartId) (x : Hart) : (setHart s h x).boot = s.boot := by cases h <;> rfl
@[simp] theorem setHart_fcode (s : State) (h : HartId) (x : Hart) : (setHart s h x).fcode = s.fcode := by cases h <;> rfl
@[simp] theorem setHart_trip (s : State) (h : HartId) (x : Hart) : (setHart s h x).trip = s.trip := by cases h <;> rfl
@[simp] theorem setHart_abusy (s : State) (h : HartId) (x : Hart) : (setHart s h x).abusy = s.abusy := by cases h <;> rfl
@[simp] theorem setHart_aerr (s : State) (h : HartId) (x : Hart) : (setHart s h x).aerr = s.aerr := by cases h <;> rfl
@[simp] theorem setHart_devid (s : State) (h : HartId) (x : Hart) : (setHart s h x).devid = s.devid := by cases h <;> rfl
@[simp] theorem setHart_tvec (s : State) (h : HartId) (x : Hart) : (setHart s h x).tvec = s.tvec := by cases h <;> rfl
@[simp] theorem setHart_nonce (s : State) (h : HartId) (x : Hart) : (setHart s h x).nonce = s.nonce := by cases h <;> rfl
@[simp] theorem setHart_msixTab (s : State) (h : HartId) (x : Hart) : (setHart s h x).msixTab = s.msixTab := by cases h <;> rfl
@[simp] theorem setHart_attest (s : State) (h : HartId) (x : Hart) : (setHart s h x).attest = s.attest := by cases h <;> rfl
@[simp] theorem setHart_report (s : State) (h : HartId) (x : Hart) : (setHart s h x).report = s.report := by cases h <;> rfl
@[simp] theorem setHart_idKey (s : State) (h : HartId) (x : Hart) : (setHart s h x).idKey = s.idKey := by cases h <;> rfl
@[simp] theorem setHart_idPub (s : State) (h : HartId) (x : Hart) : (setHart s h x).idPub = s.idPub := by cases h <;> rfl
@[simp] theorem setHart_images (s : State) (h : HartId) (x : Hart) : (setHart s h x).images = s.images := by cases h <;> rfl
@[simp] theorem setHart_bootKey (s : State) (h : HartId) (x : Hart) : (setHart s h x).bootKey = s.bootKey := by cases h <;> rfl
@[simp] theorem setHart_keyFuse (s : State) (h : HartId) (x : Hart) : (setHart s h x).keyFuse = s.keyFuse := by cases h <;> rfl
@[simp] theorem setHart_rollback (s : State) (h : HartId) (x : Hart) : (setHart s h x).rollback = s.rollback := by cases h <;> rfl
@[simp] theorem setHart_stacksOk (s : State) (h : HartId) (x : Hart) : (setHart s h x).stacksOk = s.stacksOk := by cases h <;> rfl
@[simp] theorem setHart_chanDown (s : State) (h : HartId) (x : Hart) : (setHart s h x).chanDown = s.chanDown := by cases h <;> rfl
@[simp] theorem setHart_selfRefresh (s : State) (h : HartId) (x : Hart) : (setHart s h x).selfRefresh = s.selfRefresh := by cases h <;> rfl
@[simp] theorem setHart_lastReq (s : State) (h : HartId) (x : Hart) : (setHart s h x).lastReq = s.lastReq := by cases h <;> rfl
@[simp] theorem modHart_cur (s : State) (h : HartId) (f : Hart → Hart) : (modHart s h f).cur = s.cur := setHart_cur s h _
@[simp] theorem modHart_iword (s : State) (h : HartId) (f : Hart → Hart) : (modHart s h f).iword = s.iword := setHart_iword s h _
@[simp] theorem modHart_reads (s : State) (h : HartId) (f : Hart → Hart) : (modHart s h f).reads = s.reads := setHart_reads s h _
@[simp] theorem modHart_agent (s : State) (h : HartId) (f : Hart → Hart) : (modHart s h f).agent = s.agent := setHart_agent s h _
@[simp] theorem modHart_ev (s : State) (h : HartId) (f : Hart → Hart) : (modHart s h f).ev = s.ev := setHart_ev s h _
@[simp] theorem modHart_inputs (s : State) (h : HartId) (f : Hart → Hart) : (modHart s h f).inputs = s.inputs := setHart_inputs s h _
@[simp] theorem modHart_free (s : State) (h : HartId) (f : Hart → Hart) : (modHart s h f).free = s.free := setHart_free s h _
@[simp] theorem modHart_ids (s : State) (h : HartId) (f : Hart → Hart) : (modHart s h f).ids = s.ids := setHart_ids s h _
@[simp] theorem modHart_bounds (s : State) (h : HartId) (f : Hart → Hart) : (modHart s h f).bounds = s.bounds := setHart_bounds s h _
@[simp] theorem modHart_cycle (s : State) (h : HartId) (f : Hart → Hart) : (modHart s h f).cycle = s.cycle := setHart_cycle s h _
@[simp] theorem modHart_dies (s : State) (h : HartId) (f : Hart → Hart) : (modHart s h f).dies = s.dies := setHart_dies s h _
@[simp] theorem modHart_mem (s : State) (h : HartId) (f : Hart → Hart) : (modHart s h f).mem = s.mem := setHart_mem s h _
@[simp] theorem modHart_gEmpty (s : State) (h : HartId) (f : Hart → Hart) : (modHart s h f).gEmpty = s.gEmpty := setHart_gEmpty s h _
@[simp] theorem modHart_gPoison (s : State) (h : HartId) (f : Hart → Hart) : (modHart s h f).gPoison = s.gPoison := setHart_gPoison s h _
@[simp] theorem modHart_gLatent (s : State) (h : HartId) (f : Hart → Hart) : (modHart s h f).gLatent = s.gLatent := setHart_gLatent s h _
@[simp] theorem modHart_gfe (s : State) (h : HartId) (f : Hart → Hart) : (modHart s h f).gfe = s.gfe := setHart_gfe s h _
@[simp] theorem modHart_gqWait (s : State) (h : HartId) (f : Hart → Hart) : (modHart s h f).gqWait = s.gqWait := setHart_gqWait s h _
@[simp] theorem modHart_ctxs (s : State) (h : HartId) (f : Hart → Hart) : (modHart s h f).ctxs = s.ctxs := setHart_ctxs s h _
@[simp] theorem modHart_parts (s : State) (h : HartId) (f : Hart → Hart) : (modHart s h f).parts = s.parts := setHart_parts s h _
@[simp] theorem modHart_launches (s : State) (h : HartId) (f : Hart → Hart) : (modHart s h f).launches = s.launches := setHart_launches s h _
@[simp] theorem modHart_groups (s : State) (h : HartId) (f : Hart → Hart) : (modHart s h f).groups = s.groups := setHart_groups s h _
@[simp] theorem modHart_qcopies (s : State) (h : HartId) (f : Hart → Hart) : (modHart s h f).qcopies = s.qcopies := setHart_qcopies s h _
@[simp] theorem modHart_msgs (s : State) (h : HartId) (f : Hart → Hart) : (modHart s h f).msgs = s.msgs := setHart_msgs s h _
@[simp] theorem modHart_rewards (s : State) (h : HartId) (f : Hart → Hart) : (modHart s h f).rewards = s.rewards := setHart_rewards s h _
@[simp] theorem modHart_reports (s : State) (h : HartId) (f : Hart → Hart) : (modHart s h f).reports = s.reports := setHart_reports s h _
@[simp] theorem modHart_collGroups (s : State) (h : HartId) (f : Hart → Hart) : (modHart s h f).collGroups = s.collGroups := setHart_collGroups s h _
@[simp] theorem modHart_colls (s : State) (h : HartId) (f : Hart → Hart) : (modHart s h f).colls = s.colls := setHart_colls s h _
@[simp] theorem modHart_collIn (s : State) (h : HartId) (f : Hart → Hart) : (modHart s h f).collIn = s.collIn := setHart_collIn s h _
@[simp] theorem modHart_links (s : State) (h : HartId) (f : Hart → Hart) : (modHart s h f).links = s.links := setHart_links s h _
@[simp] theorem modHart_ports (s : State) (h : HartId) (f : Hart → Hart) : (modHart s h f).ports = s.ports := setHart_ports s h _
@[simp] theorem modHart_msix (s : State) (h : HartId) (f : Hart → Hart) : (modHart s h f).msix = s.msix := setHart_msix s h _
@[simp] theorem modHart_noise (s : State) (h : HartId) (f : Hart → Hart) : (modHart s h f).noise = s.noise := setHart_noise s h _
@[simp] theorem modHart_sentFlits (s : State) (h : HartId) (f : Hart → Hart) : (modHart s h f).sentFlits = s.sentFlits := setHart_sentFlits s h _
@[simp] theorem modHart_hostHeld (s : State) (h : HartId) (f : Hart → Hart) : (modHart s h f).hostHeld = s.hostHeld := setHart_hostHeld s h _
@[simp] theorem modHart_hostGot (s : State) (h : HartId) (f : Hart → Hart) : (modHart s h f).hostGot = s.hostGot := setHart_hostGot s h _
@[simp] theorem modHart_armPend (s : State) (h : HartId) (f : Hart → Hart) : (modHart s h f).armPend = s.armPend := setHart_armPend s h _
@[simp] theorem modHart_armSeen (s : State) (h : HartId) (f : Hart → Hart) : (modHart s h f).armSeen = s.armSeen := setHart_armSeen s h _
@[simp] theorem modHart_boot (s : State) (h : HartId) (f : Hart → Hart) : (modHart s h f).boot = s.boot := setHart_boot s h _
@[simp] theorem modHart_fcode (s : State) (h : HartId) (f : Hart → Hart) : (modHart s h f).fcode = s.fcode := setHart_fcode s h _
@[simp] theorem modHart_trip (s : State) (h : HartId) (f : Hart → Hart) : (modHart s h f).trip = s.trip := setHart_trip s h _
@[simp] theorem modHart_abusy (s : State) (h : HartId) (f : Hart → Hart) : (modHart s h f).abusy = s.abusy := setHart_abusy s h _
@[simp] theorem modHart_aerr (s : State) (h : HartId) (f : Hart → Hart) : (modHart s h f).aerr = s.aerr := setHart_aerr s h _
@[simp] theorem modHart_devid (s : State) (h : HartId) (f : Hart → Hart) : (modHart s h f).devid = s.devid := setHart_devid s h _
@[simp] theorem modHart_tvec (s : State) (h : HartId) (f : Hart → Hart) : (modHart s h f).tvec = s.tvec := setHart_tvec s h _
@[simp] theorem modHart_nonce (s : State) (h : HartId) (f : Hart → Hart) : (modHart s h f).nonce = s.nonce := setHart_nonce s h _
@[simp] theorem modHart_msixTab (s : State) (h : HartId) (f : Hart → Hart) : (modHart s h f).msixTab = s.msixTab := setHart_msixTab s h _
@[simp] theorem modHart_attest (s : State) (h : HartId) (f : Hart → Hart) : (modHart s h f).attest = s.attest := setHart_attest s h _
@[simp] theorem modHart_report (s : State) (h : HartId) (f : Hart → Hart) : (modHart s h f).report = s.report := setHart_report s h _
@[simp] theorem modHart_idKey (s : State) (h : HartId) (f : Hart → Hart) : (modHart s h f).idKey = s.idKey := setHart_idKey s h _
@[simp] theorem modHart_idPub (s : State) (h : HartId) (f : Hart → Hart) : (modHart s h f).idPub = s.idPub := setHart_idPub s h _
@[simp] theorem modHart_images (s : State) (h : HartId) (f : Hart → Hart) : (modHart s h f).images = s.images := setHart_images s h _
@[simp] theorem modHart_bootKey (s : State) (h : HartId) (f : Hart → Hart) : (modHart s h f).bootKey = s.bootKey := setHart_bootKey s h _
@[simp] theorem modHart_keyFuse (s : State) (h : HartId) (f : Hart → Hart) : (modHart s h f).keyFuse = s.keyFuse := setHart_keyFuse s h _
@[simp] theorem modHart_rollback (s : State) (h : HartId) (f : Hart → Hart) : (modHart s h f).rollback = s.rollback := setHart_rollback s h _
@[simp] theorem modHart_stacksOk (s : State) (h : HartId) (f : Hart → Hart) : (modHart s h f).stacksOk = s.stacksOk := setHart_stacksOk s h _
@[simp] theorem modHart_chanDown (s : State) (h : HartId) (f : Hart → Hart) : (modHart s h f).chanDown = s.chanDown := setHart_chanDown s h _
@[simp] theorem modHart_selfRefresh (s : State) (h : HartId) (f : Hart → Hart) : (modHart s h f).selfRefresh = s.selfRefresh := setHart_selfRefresh s h _
@[simp] theorem modHart_lastReq (s : State) (h : HartId) (f : Hart → Hart) : (modHart s h f).lastReq = s.lastReq := setHart_lastReq s h _
@[simp] theorem modTile_cur (s : State) (t : Nat) (f : Tile → Tile) : (modTile s t f).cur = s.cur := rfl
@[simp] theorem modTile_iword (s : State) (t : Nat) (f : Tile → Tile) : (modTile s t f).iword = s.iword := rfl
@[simp] theorem modTile_reads (s : State) (t : Nat) (f : Tile → Tile) : (modTile s t f).reads = s.reads := rfl
@[simp] theorem modTile_agent (s : State) (t : Nat) (f : Tile → Tile) : (modTile s t f).agent = s.agent := rfl
@[simp] theorem modTile_ev (s : State) (t : Nat) (f : Tile → Tile) : (modTile s t f).ev = s.ev := rfl
@[simp] theorem modTile_inputs (s : State) (t : Nat) (f : Tile → Tile) : (modTile s t f).inputs = s.inputs := rfl
@[simp] theorem modTile_free (s : State) (t : Nat) (f : Tile → Tile) : (modTile s t f).free = s.free := rfl
@[simp] theorem modTile_ids (s : State) (t : Nat) (f : Tile → Tile) : (modTile s t f).ids = s.ids := rfl
@[simp] theorem modTile_bounds (s : State) (t : Nat) (f : Tile → Tile) : (modTile s t f).bounds = s.bounds := rfl
@[simp] theorem modTile_cycle (s : State) (t : Nat) (f : Tile → Tile) : (modTile s t f).cycle = s.cycle := rfl
@[simp] theorem modTile_dies (s : State) (t : Nat) (f : Tile → Tile) : (modTile s t f).dies = s.dies := rfl
@[simp] theorem modTile_menders (s : State) (t : Nat) (f : Tile → Tile) : (modTile s t f).menders = s.menders := rfl
@[simp] theorem modTile_mem (s : State) (t : Nat) (f : Tile → Tile) : (modTile s t f).mem = s.mem := rfl
@[simp] theorem modTile_gEmpty (s : State) (t : Nat) (f : Tile → Tile) : (modTile s t f).gEmpty = s.gEmpty := rfl
@[simp] theorem modTile_gPoison (s : State) (t : Nat) (f : Tile → Tile) : (modTile s t f).gPoison = s.gPoison := rfl
@[simp] theorem modTile_gLatent (s : State) (t : Nat) (f : Tile → Tile) : (modTile s t f).gLatent = s.gLatent := rfl
@[simp] theorem modTile_gfe (s : State) (t : Nat) (f : Tile → Tile) : (modTile s t f).gfe = s.gfe := rfl
@[simp] theorem modTile_gqWait (s : State) (t : Nat) (f : Tile → Tile) : (modTile s t f).gqWait = s.gqWait := rfl
@[simp] theorem modTile_ctxs (s : State) (t : Nat) (f : Tile → Tile) : (modTile s t f).ctxs = s.ctxs := rfl
@[simp] theorem modTile_parts (s : State) (t : Nat) (f : Tile → Tile) : (modTile s t f).parts = s.parts := rfl
@[simp] theorem modTile_launches (s : State) (t : Nat) (f : Tile → Tile) : (modTile s t f).launches = s.launches := rfl
@[simp] theorem modTile_groups (s : State) (t : Nat) (f : Tile → Tile) : (modTile s t f).groups = s.groups := rfl
@[simp] theorem modTile_qcopies (s : State) (t : Nat) (f : Tile → Tile) : (modTile s t f).qcopies = s.qcopies := rfl
@[simp] theorem modTile_msgs (s : State) (t : Nat) (f : Tile → Tile) : (modTile s t f).msgs = s.msgs := rfl
@[simp] theorem modTile_rewards (s : State) (t : Nat) (f : Tile → Tile) : (modTile s t f).rewards = s.rewards := rfl
@[simp] theorem modTile_reports (s : State) (t : Nat) (f : Tile → Tile) : (modTile s t f).reports = s.reports := rfl
@[simp] theorem modTile_collGroups (s : State) (t : Nat) (f : Tile → Tile) : (modTile s t f).collGroups = s.collGroups := rfl
@[simp] theorem modTile_colls (s : State) (t : Nat) (f : Tile → Tile) : (modTile s t f).colls = s.colls := rfl
@[simp] theorem modTile_collIn (s : State) (t : Nat) (f : Tile → Tile) : (modTile s t f).collIn = s.collIn := rfl
@[simp] theorem modTile_links (s : State) (t : Nat) (f : Tile → Tile) : (modTile s t f).links = s.links := rfl
@[simp] theorem modTile_ports (s : State) (t : Nat) (f : Tile → Tile) : (modTile s t f).ports = s.ports := rfl
@[simp] theorem modTile_msix (s : State) (t : Nat) (f : Tile → Tile) : (modTile s t f).msix = s.msix := rfl
@[simp] theorem modTile_noise (s : State) (t : Nat) (f : Tile → Tile) : (modTile s t f).noise = s.noise := rfl
@[simp] theorem modTile_sentFlits (s : State) (t : Nat) (f : Tile → Tile) : (modTile s t f).sentFlits = s.sentFlits := rfl
@[simp] theorem modTile_hostHeld (s : State) (t : Nat) (f : Tile → Tile) : (modTile s t f).hostHeld = s.hostHeld := rfl
@[simp] theorem modTile_hostGot (s : State) (t : Nat) (f : Tile → Tile) : (modTile s t f).hostGot = s.hostGot := rfl
@[simp] theorem modTile_armPend (s : State) (t : Nat) (f : Tile → Tile) : (modTile s t f).armPend = s.armPend := rfl
@[simp] theorem modTile_armSeen (s : State) (t : Nat) (f : Tile → Tile) : (modTile s t f).armSeen = s.armSeen := rfl
@[simp] theorem modTile_boot (s : State) (t : Nat) (f : Tile → Tile) : (modTile s t f).boot = s.boot := rfl
@[simp] theorem modTile_fcode (s : State) (t : Nat) (f : Tile → Tile) : (modTile s t f).fcode = s.fcode := rfl
@[simp] theorem modTile_trip (s : State) (t : Nat) (f : Tile → Tile) : (modTile s t f).trip = s.trip := rfl
@[simp] theorem modTile_abusy (s : State) (t : Nat) (f : Tile → Tile) : (modTile s t f).abusy = s.abusy := rfl
@[simp] theorem modTile_aerr (s : State) (t : Nat) (f : Tile → Tile) : (modTile s t f).aerr = s.aerr := rfl
@[simp] theorem modTile_devid (s : State) (t : Nat) (f : Tile → Tile) : (modTile s t f).devid = s.devid := rfl
@[simp] theorem modTile_tvec (s : State) (t : Nat) (f : Tile → Tile) : (modTile s t f).tvec = s.tvec := rfl
@[simp] theorem modTile_nonce (s : State) (t : Nat) (f : Tile → Tile) : (modTile s t f).nonce = s.nonce := rfl
@[simp] theorem modTile_msixTab (s : State) (t : Nat) (f : Tile → Tile) : (modTile s t f).msixTab = s.msixTab := rfl
@[simp] theorem modTile_attest (s : State) (t : Nat) (f : Tile → Tile) : (modTile s t f).attest = s.attest := rfl
@[simp] theorem modTile_report (s : State) (t : Nat) (f : Tile → Tile) : (modTile s t f).report = s.report := rfl
@[simp] theorem modTile_idKey (s : State) (t : Nat) (f : Tile → Tile) : (modTile s t f).idKey = s.idKey := rfl
@[simp] theorem modTile_idPub (s : State) (t : Nat) (f : Tile → Tile) : (modTile s t f).idPub = s.idPub := rfl
@[simp] theorem modTile_images (s : State) (t : Nat) (f : Tile → Tile) : (modTile s t f).images = s.images := rfl
@[simp] theorem modTile_bootKey (s : State) (t : Nat) (f : Tile → Tile) : (modTile s t f).bootKey = s.bootKey := rfl
@[simp] theorem modTile_keyFuse (s : State) (t : Nat) (f : Tile → Tile) : (modTile s t f).keyFuse = s.keyFuse := rfl
@[simp] theorem modTile_rollback (s : State) (t : Nat) (f : Tile → Tile) : (modTile s t f).rollback = s.rollback := rfl
@[simp] theorem modTile_stacksOk (s : State) (t : Nat) (f : Tile → Tile) : (modTile s t f).stacksOk = s.stacksOk := rfl
@[simp] theorem modTile_chanDown (s : State) (t : Nat) (f : Tile → Tile) : (modTile s t f).chanDown = s.chanDown := rfl
@[simp] theorem modTile_selfRefresh (s : State) (t : Nat) (f : Tile → Tile) : (modTile s t f).selfRefresh = s.selfRefresh := rfl
@[simp] theorem modTile_lastReq (s : State) (t : Nat) (f : Tile → Tile) : (modTile s t f).lastReq = s.lastReq := rfl

/-! ## Fields of a tile that an update of one of its harts leaves alone -/

theorem getTile_setHart (s : State) (t u : Nat) (i : Fin 10) (x : Hart) :
    getTile (setHart s (.tile t i) x) u = if u = t then { getTile s t with harts := (getTile s t).harts.set i x } else getTile s u := by
  by_cases h : u = t
  · subst h; simp [setHart]
  · simp [setHart, getTile_setTile_other _ _ h, h]

@[simp] theorem getTile_setHart_l (s : State) (h : HartId) (x : Hart) (u : Nat) :
    (getTile (setHart s h x) u).l = (getTile s u).l := by
  cases h with
  | tile t i => rw [getTile_setHart]; split <;> simp_all
  | mender m i => rfl
@[simp] theorem getTile_setHart_w (s : State) (h : HartId) (x : Hart) (u : Nat) :
    (getTile (setHart s h x) u).w = (getTile s u).w := by
  cases h with
  | tile t i => rw [getTile_setHart]; split <;> simp_all
  | mender m i => rfl
@[simp] theorem getTile_setHart_a (s : State) (h : HartId) (x : Hart) (u : Nat) :
    (getTile (setHart s h x) u).a = (getTile s u).a := by
  cases h with
  | tile t i => rw [getTile_setHart]; split <;> simp_all
  | mender m i => rfl
@[simp] theorem getTile_setHart_c (s : State) (h : HartId) (x : Hart) (u : Nat) :
    (getTile (setHart s h x) u).c = (getTile s u).c := by
  cases h with
  | tile t i => rw [getTile_setHart]; split <;> simp_all
  | mender m i => rfl
@[simp] theorem getTile_setHart_lEmpty (s : State) (h : HartId) (x : Hart) (u : Nat) :
    (getTile (setHart s h x) u).lEmpty = (getTile s u).lEmpty := by
  cases h with
  | tile t i => rw [getTile_setHart]; split <;> simp_all
  | mender m i => rfl
@[simp] theorem getTile_setHart_poison (s : State) (h : HartId) (x : Hart) (u : Nat) :
    (getTile (setHart s h x) u).poison = (getTile s u).poison := by
  cases h with
  | tile t i => rw [getTile_setHart]; split <;> simp_all
  | mender m i => rfl
@[simp] theorem getTile_setHart_flaws (s : State) (h : HartId) (x : Hart) (u : Nat) :
    (getTile (setHart s h x) u).flaws = (getTile s u).flaws := by
  cases h with
  | tile t i => rw [getTile_setHart]; split <;> simp_all
  | mender m i => rfl
@[simp] theorem getTile_setHart_csrFlaws (s : State) (h : HartId) (x : Hart) (u : Nat) :
    (getTile (setHart s h x) u).csrFlaws = (getTile s u).csrFlaws := by
  cases h with
  | tile t i => rw [getTile_setHart]; split <;> simp_all
  | mender m i => rfl
@[simp] theorem getTile_setHart_cF (s : State) (h : HartId) (x : Hart) (u : Nat) :
    (getTile (setHart s h x) u).cF = (getTile s u).cF := by
  cases h with
  | tile t i => rw [getTile_setHart]; split <;> simp_all
  | mender m i => rfl
@[simp] theorem getTile_setHart_gcache (s : State) (h : HartId) (x : Hart) (u : Nat) :
    (getTile (setHart s h x) u).gcache = (getTile s u).gcache := by
  cases h with
  | tile t i => rw [getTile_setHart]; split <;> simp_all
  | mender m i => rfl
@[simp] theorem getTile_setHart_icache (s : State) (h : HartId) (x : Hart) (u : Nat) :
    (getTile (setHart s h x) u).icache = (getTile s u).icache := by
  cases h with
  | tile t i => rw [getTile_setHart]; split <;> simp_all
  | mender m i => rfl
@[simp] theorem getTile_setHart_winN (s : State) (h : HartId) (x : Hart) (u : Nat) :
    (getTile (setHart s h x) u).winN = (getTile s u).winN := by
  cases h with
  | tile t i => rw [getTile_setHart]; split <;> simp_all
  | mender m i => rfl
@[simp] theorem getTile_setHart_winImg (s : State) (h : HartId) (x : Hart) (u : Nat) :
    (getTile (setHart s h x) u).winImg = (getTile s u).winImg := by
  cases h with
  | tile t i => rw [getTile_setHart]; split <;> simp_all
  | mender m i => rfl
@[simp] theorem getTile_setHart_hist (s : State) (h : HartId) (x : Hart) (u : Nat) :
    (getTile (setHart s h x) u).hist = (getTile s u).hist := by
  cases h with
  | tile t i => rw [getTile_setHart]; split <;> simp_all
  | mender m i => rfl
@[simp] theorem getTile_setHart_pub (s : State) (h : HartId) (x : Hart) (u : Nat) :
    (getTile (setHart s h x) u).pub = (getTile s u).pub := by
  cases h with
  | tile t i => rw [getTile_setHart]; split <;> simp_all
  | mender m i => rfl
@[simp] theorem getTile_setHart_step (s : State) (h : HartId) (x : Hart) (u : Nat) :
    (getTile (setHart s h x) u).step = (getTile s u).step := by
  cases h with
  | tile t i => rw [getTile_setHart]; split <;> simp_all
  | mender m i => rfl
@[simp] theorem getTile_setHart_wr (s : State) (h : HartId) (x : Hart) (u : Nat) :
    (getTile (setHart s h x) u).wr = (getTile s u).wr := by
  cases h with
  | tile t i => rw [getTile_setHart]; split <;> simp_all
  | mender m i => rfl
@[simp] theorem getTile_setHart_idle (s : State) (h : HartId) (x : Hart) (u : Nat) :
    (getTile (setHart s h x) u).idle = (getTile s u).idle := by
  cases h with
  | tile t i => rw [getTile_setHart]; split <;> simp_all
  | mender m i => rfl
@[simp] theorem getTile_setHart_arrived (s : State) (h : HartId) (x : Hart) (u : Nat) :
    (getTile (setHart s h x) u).arrived = (getTile s u).arrived := by
  cases h with
  | tile t i => rw [getTile_setHart]; split <;> simp_all
  | mender m i => rfl
@[simp] theorem getTile_setHart_seam (s : State) (h : HartId) (x : Hart) (u : Nat) :
    (getTile (setHart s h x) u).seam = (getTile s u).seam := by
  cases h with
  | tile t i => rw [getTile_setHart]; split <;> simp_all
  | mender m i => rfl
@[simp] theorem getTile_setHart_stepmask (s : State) (h : HartId) (x : Hart) (u : Nat) :
    (getTile (setHart s h x) u).stepmask = (getTile s u).stepmask := by
  cases h with
  | tile t i => rw [getTile_setHart]; split <;> simp_all
  | mender m i => rfl
@[simp] theorem getTile_setHart_stepwatch (s : State) (h : HartId) (x : Hart) (u : Nat) :
    (getTile (setHart s h x) u).stepwatch = (getTile s u).stepwatch := by
  cases h with
  | tile t i => rw [getTile_setHart]; split <;> simp_all
  | mender m i => rfl
@[simp] theorem getTile_setHart_waitSince (s : State) (h : HartId) (x : Hart) (u : Nat) :
    (getTile (setHart s h x) u).waitSince = (getTile s u).waitSince := by
  cases h with
  | tile t i => rw [getTile_setHart]; split <;> simp_all
  | mender m i => rfl
@[simp] theorem getTile_setHart_waitTold (s : State) (h : HartId) (x : Hart) (u : Nat) :
    (getTile (setHart s h x) u).waitTold = (getTile s u).waitTold := by
  cases h with
  | tile t i => rw [getTile_setHart]; split <;> simp_all
  | mender m i => rfl
@[simp] theorem getTile_setHart_gen (s : State) (h : HartId) (x : Hart) (u : Nat) :
    (getTile (setHart s h x) u).gen = (getTile s u).gen := by
  cases h with
  | tile t i => rw [getTile_setHart]; split <;> simp_all
  | mender m i => rfl
@[simp] theorem getTile_setHart_barArr (s : State) (h : HartId) (x : Hart) (u : Nat) :
    (getTile (setHart s h x) u).barArr = (getTile s u).barArr := by
  cases h with
  | tile t i => rw [getTile_setHart]; split <;> simp_all
  | mender m i => rfl
@[simp] theorem getTile_setHart_barSince (s : State) (h : HartId) (x : Hart) (u : Nat) :
    (getTile (setHart s h x) u).barSince = (getTile s u).barSince := by
  cases h with
  | tile t i => rw [getTile_setHart]; split <;> simp_all
  | mender m i => rfl
@[simp] theorem getTile_setHart_barTold (s : State) (h : HartId) (x : Hart) (u : Nat) :
    (getTile (setHart s h x) u).barTold = (getTile s u).barTold := by
  cases h with
  | tile t i => rw [getTile_setHart]; split <;> simp_all
  | mender m i => rfl
@[simp] theorem getTile_setHart_fmt (s : State) (h : HartId) (x : Hart) (u : Nat) :
    (getTile (setHart s h x) u).fmt = (getTile s u).fmt := by
  cases h with
  | tile t i => rw [getTile_setHart]; split <;> simp_all
  | mender m i => rfl
@[simp] theorem getTile_setHart_scp (s : State) (h : HartId) (x : Hart) (u : Nat) :
    (getTile (setHart s h x) u).scp = (getTile s u).scp := by
  cases h with
  | tile t i => rw [getTile_setHart]; split <;> simp_all
  | mender m i => rfl
@[simp] theorem getTile_setHart_seed (s : State) (h : HartId) (x : Hart) (u : Nat) :
    (getTile (setHart s h x) u).seed = (getTile s u).seed := by
  cases h with
  | tile t i => rw [getTile_setHart]; split <;> simp_all
  | mender m i => rfl
@[simp] theorem getTile_setHart_gid (s : State) (h : HartId) (x : Hart) (u : Nat) :
    (getTile (setHart s h x) u).gid = (getTile s u).gid := by
  cases h with
  | tile t i => rw [getTile_setHart]; split <;> simp_all
  | mender m i => rfl
@[simp] theorem getTile_setHart_promise (s : State) (h : HartId) (x : Hart) (u : Nat) :
    (getTile (setHart s h x) u).promise = (getTile s u).promise := by
  cases h with
  | tile t i => rw [getTile_setHart]; split <;> simp_all
  | mender m i => rfl
@[simp] theorem getTile_setHart_lfsr (s : State) (h : HartId) (x : Hart) (u : Nat) :
    (getTile (setHart s h x) u).lfsr = (getTile s u).lfsr := by
  cases h with
  | tile t i => rw [getTile_setHart]; split <;> simp_all
  | mender m i => rfl
@[simp] theorem getTile_setHart_q (s : State) (h : HartId) (x : Hart) (u : Nat) :
    (getTile (setHart s h x) u).q = (getTile s u).q := by
  cases h with
  | tile t i => rw [getTile_setHart]; split <;> simp_all
  | mender m i => rfl
@[simp] theorem getTile_setHart_pe (s : State) (h : HartId) (x : Hart) (u : Nat) :
    (getTile (setHart s h x) u).pe = (getTile s u).pe := by
  cases h with
  | tile t i => rw [getTile_setHart]; split <;> simp_all
  | mender m i => rfl
@[simp] theorem getTile_setHart_latch (s : State) (h : HartId) (x : Hart) (u : Nat) :
    (getTile (setHart s h x) u).latch = (getTile s u).latch := by
  cases h with
  | tile t i => rw [getTile_setHart]; split <;> simp_all
  | mender m i => rfl
@[simp] theorem getTile_setHart_ring (s : State) (h : HartId) (x : Hart) (u : Nat) :
    (getTile (setHart s h x) u).ring = (getTile s u).ring := by
  cases h with
  | tile t i => rw [getTile_setHart]; split <;> simp_all
  | mender m i => rfl
@[simp] theorem getTile_setHart_ringReq (s : State) (h : HartId) (x : Hart) (u : Nat) :
    (getTile (setHart s h x) u).ringReq = (getTile s u).ringReq := by
  cases h with
  | tile t i => rw [getTile_setHart]; split <;> simp_all
  | mender m i => rfl
@[simp] theorem getTile_setHart_arrayFree (s : State) (h : HartId) (x : Hart) (u : Nat) :
    (getTile (setHart s h x) u).arrayFree = (getTile s u).arrayFree := by
  cases h with
  | tile t i => rw [getTile_setHart]; split <;> simp_all
  | mender m i => rfl
@[simp] theorem getTile_setHart_oerrErr (s : State) (h : HartId) (x : Hart) (u : Nat) :
    (getTile (setHart s h x) u).oerrErr = (getTile s u).oerrErr := by
  cases h with
  | tile t i => rw [getTile_setHart]; split <;> simp_all
  | mender m i => rfl
@[simp] theorem getTile_setHart_oerrLost (s : State) (h : HartId) (x : Hart) (u : Nat) :
    (getTile (setHart s h x) u).oerrLost = (getTile s u).oerrLost := by
  cases h with
  | tile t i => rw [getTile_setHart]; split <;> simp_all
  | mender m i => rfl
@[simp] theorem getTile_setHart_oerrCnt (s : State) (h : HartId) (x : Hart) (u : Nat) :
    (getTile (setHart s h x) u).oerrCnt = (getTile s u).oerrCnt := by
  cases h with
  | tile t i => rw [getTile_setHart]; split <;> simp_all
  | mender m i => rfl
@[simp] theorem getTile_setHart_oerrloc (s : State) (h : HartId) (x : Hart) (u : Nat) :
    (getTile (setHart s h x) u).oerrloc = (getTile s u).oerrloc := by
  cases h with
  | tile t i => rw [getTile_setHart]; split <;> simp_all
  | mender m i => rfl
@[simp] theorem getTile_setHart_mbox (s : State) (h : HartId) (x : Hart) (u : Nat) :
    (getTile (setHart s h x) u).mbox = (getTile s u).mbox := by
  cases h with
  | tile t i => rw [getTile_setHart]; split <;> simp_all
  | mender m i => rfl
@[simp] theorem getTile_setHart_mheld (s : State) (h : HartId) (x : Hart) (u : Nat) :
    (getTile (setHart s h x) u).mheld = (getTile s u).mheld := by
  cases h with
  | tile t i => rw [getTile_setHart]; split <;> simp_all
  | mender m i => rfl
@[simp] theorem getTile_setHart_mnext (s : State) (h : HartId) (x : Hart) (u : Nat) :
    (getTile (setHart s h x) u).mnext = (getTile s u).mnext := by
  cases h with
  | tile t i => rw [getTile_setHart]; split <;> simp_all
  | mender m i => rfl
@[simp] theorem getTile_setHart_mwait (s : State) (h : HartId) (x : Hart) (u : Nat) :
    (getTile (setHart s h x) u).mwait = (getTile s u).mwait := by
  cases h with
  | tile t i => rw [getTile_setHart]; split <;> simp_all
  | mender m i => rfl
@[simp] theorem getTile_setHart_work (s : State) (h : HartId) (x : Hart) (u : Nat) :
    (getTile (setHart s h x) u).work = (getTile s u).work := by
  cases h with
  | tile t i => rw [getTile_setHart]; split <;> simp_all
  | mender m i => rfl
@[simp] theorem getTile_setHart_fills (s : State) (h : HartId) (x : Hart) (u : Nat) :
    (getTile (setHart s h x) u).fills = (getTile s u).fills := by
  cases h with
  | tile t i => rw [getTile_setHart]; split <;> simp_all
  | mender m i => rfl
@[simp] theorem getTile_setHart_fe (s : State) (h : HartId) (x : Hart) (u : Nat) :
    (getTile (setHart s h x) u).fe = (getTile s u).fe := by
  cases h with
  | tile t i => rw [getTile_setHart]; split <;> simp_all
  | mender m i => rfl
@[simp] theorem getTile_setHart_copies (s : State) (h : HartId) (x : Hart) (u : Nat) :
    (getTile (setHart s h x) u).copies = (getTile s u).copies := by
  cases h with
  | tile t i => rw [getTile_setHart]; split <;> simp_all
  | mender m i => rfl
@[simp] theorem getTile_setHart_sleepDepth (s : State) (h : HartId) (x : Hart) (u : Nat) :
    (getTile (setHart s h x) u).sleepDepth = (getTile s u).sleepDepth := by
  cases h with
  | tile t i => rw [getTile_setHart]; split <;> simp_all
  | mender m i => rfl
@[simp] theorem getTile_setHart_ctx (s : State) (h : HartId) (x : Hart) (u : Nat) :
    (getTile (setHart s h x) u).ctx = (getTile s u).ctx := by
  cases h with
  | tile t i => rw [getTile_setHart]; split <;> simp_all
  | mender m i => rfl
@[simp] theorem getTile_setHart_repq (s : State) (h : HartId) (x : Hart) (u : Nat) :
    (getTile (setHart s h x) u).repq = (getTile s u).repq := by
  cases h with
  | tile t i => rw [getTile_setHart]; split <;> simp_all
  | mender m i => rfl
@[simp] theorem getTile_setHart_escwait (s : State) (h : HartId) (x : Hart) (u : Nat) :
    (getTile (setHart s h x) u).escwait = (getTile s u).escwait := by
  cases h with
  | tile t i => rw [getTile_setHart]; split <;> simp_all
  | mender m i => rfl
@[simp] theorem getTile_setHart_asleep (s : State) (h : HartId) (x : Hart) (u : Nat) :
    (getTile (setHart s h x) u).asleep = (getTile s u).asleep := by
  cases h with
  | tile t i => rw [getTile_setHart]; split <;> simp_all
  | mender m i => rfl
@[simp] theorem getTile_setHart_wakeAt (s : State) (h : HartId) (x : Hart) (u : Nat) :
    (getTile (setHart s h x) u).wakeAt = (getTile s u).wakeAt := by
  cases h with
  | tile t i => rw [getTile_setHart]; split <;> simp_all
  | mender m i => rfl
@[simp] theorem getTile_setHart_grp (s : State) (h : HartId) (x : Hart) (u : Nat) :
    (getTile (setHart s h x) u).grp = (getTile s u).grp := by
  cases h with
  | tile t i => rw [getTile_setHart]; split <;> simp_all
  | mender m i => rfl
@[simp] theorem getTile_setHart_slots (s : State) (h : HartId) (x : Hart) (u : Nat) :
    (getTile (setHart s h x) u).slots = (getTile s u).slots := by
  cases h with
  | tile t i => rw [getTile_setHart]; split <;> simp_all
  | mender m i => rfl
@[simp] theorem getTile_setHart_lvl (s : State) (h : HartId) (x : Hart) (u : Nat) :
    (getTile (setHart s h x) u).lvl = (getTile s u).lvl := by
  cases h with
  | tile t i => rw [getTile_setHart]; split <;> simp_all
  | mender m i => rfl
@[simp] theorem getTile_setHart_last (s : State) (h : HartId) (x : Hart) (u : Nat) :
    (getTile (setHart s h x) u).last = (getTile s u).last := by
  cases h with
  | tile t i => rw [getTile_setHart]; split <;> simp_all
  | mender m i => rfl
@[simp] theorem getTile_setHart_level (s : State) (h : HartId) (x : Hart) (u : Nat) :
    (getTile (setHart s h x) u).level = (getTile s u).level := by
  cases h with
  | tile t i => rw [getTile_setHart]; split <;> simp_all
  | mender m i => rfl
@[simp] theorem getTile_setHart_fallout (s : State) (h : HartId) (x : Hart) (u : Nat) :
    (getTile (setHart s h x) u).fallout = (getTile s u).fallout := by
  cases h with
  | tile t i => rw [getTile_setHart]; split <;> simp_all
  | mender m i => rfl
@[simp] theorem getTile_modHart_l (s : State) (h : HartId) (f : Hart → Hart) (u : Nat) :
    (getTile (modHart s h f) u).l = (getTile s u).l := getTile_setHart_l s h _ u
@[simp] theorem getTile_modHart_w (s : State) (h : HartId) (f : Hart → Hart) (u : Nat) :
    (getTile (modHart s h f) u).w = (getTile s u).w := getTile_setHart_w s h _ u
@[simp] theorem getTile_modHart_a (s : State) (h : HartId) (f : Hart → Hart) (u : Nat) :
    (getTile (modHart s h f) u).a = (getTile s u).a := getTile_setHart_a s h _ u
@[simp] theorem getTile_modHart_c (s : State) (h : HartId) (f : Hart → Hart) (u : Nat) :
    (getTile (modHart s h f) u).c = (getTile s u).c := getTile_setHart_c s h _ u
@[simp] theorem getTile_modHart_lEmpty (s : State) (h : HartId) (f : Hart → Hart) (u : Nat) :
    (getTile (modHart s h f) u).lEmpty = (getTile s u).lEmpty := getTile_setHart_lEmpty s h _ u
@[simp] theorem getTile_modHart_poison (s : State) (h : HartId) (f : Hart → Hart) (u : Nat) :
    (getTile (modHart s h f) u).poison = (getTile s u).poison := getTile_setHart_poison s h _ u
@[simp] theorem getTile_modHart_flaws (s : State) (h : HartId) (f : Hart → Hart) (u : Nat) :
    (getTile (modHart s h f) u).flaws = (getTile s u).flaws := getTile_setHart_flaws s h _ u
@[simp] theorem getTile_modHart_csrFlaws (s : State) (h : HartId) (f : Hart → Hart) (u : Nat) :
    (getTile (modHart s h f) u).csrFlaws = (getTile s u).csrFlaws := getTile_setHart_csrFlaws s h _ u
@[simp] theorem getTile_modHart_cF (s : State) (h : HartId) (f : Hart → Hart) (u : Nat) :
    (getTile (modHart s h f) u).cF = (getTile s u).cF := getTile_setHart_cF s h _ u
@[simp] theorem getTile_modHart_gcache (s : State) (h : HartId) (f : Hart → Hart) (u : Nat) :
    (getTile (modHart s h f) u).gcache = (getTile s u).gcache := getTile_setHart_gcache s h _ u
@[simp] theorem getTile_modHart_icache (s : State) (h : HartId) (f : Hart → Hart) (u : Nat) :
    (getTile (modHart s h f) u).icache = (getTile s u).icache := getTile_setHart_icache s h _ u
@[simp] theorem getTile_modHart_winN (s : State) (h : HartId) (f : Hart → Hart) (u : Nat) :
    (getTile (modHart s h f) u).winN = (getTile s u).winN := getTile_setHart_winN s h _ u
@[simp] theorem getTile_modHart_winImg (s : State) (h : HartId) (f : Hart → Hart) (u : Nat) :
    (getTile (modHart s h f) u).winImg = (getTile s u).winImg := getTile_setHart_winImg s h _ u
@[simp] theorem getTile_modHart_hist (s : State) (h : HartId) (f : Hart → Hart) (u : Nat) :
    (getTile (modHart s h f) u).hist = (getTile s u).hist := getTile_setHart_hist s h _ u
@[simp] theorem getTile_modHart_pub (s : State) (h : HartId) (f : Hart → Hart) (u : Nat) :
    (getTile (modHart s h f) u).pub = (getTile s u).pub := getTile_setHart_pub s h _ u
@[simp] theorem getTile_modHart_step (s : State) (h : HartId) (f : Hart → Hart) (u : Nat) :
    (getTile (modHart s h f) u).step = (getTile s u).step := getTile_setHart_step s h _ u
@[simp] theorem getTile_modHart_wr (s : State) (h : HartId) (f : Hart → Hart) (u : Nat) :
    (getTile (modHart s h f) u).wr = (getTile s u).wr := getTile_setHart_wr s h _ u
@[simp] theorem getTile_modHart_idle (s : State) (h : HartId) (f : Hart → Hart) (u : Nat) :
    (getTile (modHart s h f) u).idle = (getTile s u).idle := getTile_setHart_idle s h _ u
@[simp] theorem getTile_modHart_arrived (s : State) (h : HartId) (f : Hart → Hart) (u : Nat) :
    (getTile (modHart s h f) u).arrived = (getTile s u).arrived := getTile_setHart_arrived s h _ u
@[simp] theorem getTile_modHart_seam (s : State) (h : HartId) (f : Hart → Hart) (u : Nat) :
    (getTile (modHart s h f) u).seam = (getTile s u).seam := getTile_setHart_seam s h _ u
@[simp] theorem getTile_modHart_stepmask (s : State) (h : HartId) (f : Hart → Hart) (u : Nat) :
    (getTile (modHart s h f) u).stepmask = (getTile s u).stepmask := getTile_setHart_stepmask s h _ u
@[simp] theorem getTile_modHart_stepwatch (s : State) (h : HartId) (f : Hart → Hart) (u : Nat) :
    (getTile (modHart s h f) u).stepwatch = (getTile s u).stepwatch := getTile_setHart_stepwatch s h _ u
@[simp] theorem getTile_modHart_waitSince (s : State) (h : HartId) (f : Hart → Hart) (u : Nat) :
    (getTile (modHart s h f) u).waitSince = (getTile s u).waitSince := getTile_setHart_waitSince s h _ u
@[simp] theorem getTile_modHart_waitTold (s : State) (h : HartId) (f : Hart → Hart) (u : Nat) :
    (getTile (modHart s h f) u).waitTold = (getTile s u).waitTold := getTile_setHart_waitTold s h _ u
@[simp] theorem getTile_modHart_gen (s : State) (h : HartId) (f : Hart → Hart) (u : Nat) :
    (getTile (modHart s h f) u).gen = (getTile s u).gen := getTile_setHart_gen s h _ u
@[simp] theorem getTile_modHart_barArr (s : State) (h : HartId) (f : Hart → Hart) (u : Nat) :
    (getTile (modHart s h f) u).barArr = (getTile s u).barArr := getTile_setHart_barArr s h _ u
@[simp] theorem getTile_modHart_barSince (s : State) (h : HartId) (f : Hart → Hart) (u : Nat) :
    (getTile (modHart s h f) u).barSince = (getTile s u).barSince := getTile_setHart_barSince s h _ u
@[simp] theorem getTile_modHart_barTold (s : State) (h : HartId) (f : Hart → Hart) (u : Nat) :
    (getTile (modHart s h f) u).barTold = (getTile s u).barTold := getTile_setHart_barTold s h _ u
@[simp] theorem getTile_modHart_fmt (s : State) (h : HartId) (f : Hart → Hart) (u : Nat) :
    (getTile (modHart s h f) u).fmt = (getTile s u).fmt := getTile_setHart_fmt s h _ u
@[simp] theorem getTile_modHart_scp (s : State) (h : HartId) (f : Hart → Hart) (u : Nat) :
    (getTile (modHart s h f) u).scp = (getTile s u).scp := getTile_setHart_scp s h _ u
@[simp] theorem getTile_modHart_seed (s : State) (h : HartId) (f : Hart → Hart) (u : Nat) :
    (getTile (modHart s h f) u).seed = (getTile s u).seed := getTile_setHart_seed s h _ u
@[simp] theorem getTile_modHart_gid (s : State) (h : HartId) (f : Hart → Hart) (u : Nat) :
    (getTile (modHart s h f) u).gid = (getTile s u).gid := getTile_setHart_gid s h _ u
@[simp] theorem getTile_modHart_promise (s : State) (h : HartId) (f : Hart → Hart) (u : Nat) :
    (getTile (modHart s h f) u).promise = (getTile s u).promise := getTile_setHart_promise s h _ u
@[simp] theorem getTile_modHart_lfsr (s : State) (h : HartId) (f : Hart → Hart) (u : Nat) :
    (getTile (modHart s h f) u).lfsr = (getTile s u).lfsr := getTile_setHart_lfsr s h _ u
@[simp] theorem getTile_modHart_q (s : State) (h : HartId) (f : Hart → Hart) (u : Nat) :
    (getTile (modHart s h f) u).q = (getTile s u).q := getTile_setHart_q s h _ u
@[simp] theorem getTile_modHart_pe (s : State) (h : HartId) (f : Hart → Hart) (u : Nat) :
    (getTile (modHart s h f) u).pe = (getTile s u).pe := getTile_setHart_pe s h _ u
@[simp] theorem getTile_modHart_latch (s : State) (h : HartId) (f : Hart → Hart) (u : Nat) :
    (getTile (modHart s h f) u).latch = (getTile s u).latch := getTile_setHart_latch s h _ u
@[simp] theorem getTile_modHart_ring (s : State) (h : HartId) (f : Hart → Hart) (u : Nat) :
    (getTile (modHart s h f) u).ring = (getTile s u).ring := getTile_setHart_ring s h _ u
@[simp] theorem getTile_modHart_ringReq (s : State) (h : HartId) (f : Hart → Hart) (u : Nat) :
    (getTile (modHart s h f) u).ringReq = (getTile s u).ringReq := getTile_setHart_ringReq s h _ u
@[simp] theorem getTile_modHart_arrayFree (s : State) (h : HartId) (f : Hart → Hart) (u : Nat) :
    (getTile (modHart s h f) u).arrayFree = (getTile s u).arrayFree := getTile_setHart_arrayFree s h _ u
@[simp] theorem getTile_modHart_oerrErr (s : State) (h : HartId) (f : Hart → Hart) (u : Nat) :
    (getTile (modHart s h f) u).oerrErr = (getTile s u).oerrErr := getTile_setHart_oerrErr s h _ u
@[simp] theorem getTile_modHart_oerrLost (s : State) (h : HartId) (f : Hart → Hart) (u : Nat) :
    (getTile (modHart s h f) u).oerrLost = (getTile s u).oerrLost := getTile_setHart_oerrLost s h _ u
@[simp] theorem getTile_modHart_oerrCnt (s : State) (h : HartId) (f : Hart → Hart) (u : Nat) :
    (getTile (modHart s h f) u).oerrCnt = (getTile s u).oerrCnt := getTile_setHart_oerrCnt s h _ u
@[simp] theorem getTile_modHart_oerrloc (s : State) (h : HartId) (f : Hart → Hart) (u : Nat) :
    (getTile (modHart s h f) u).oerrloc = (getTile s u).oerrloc := getTile_setHart_oerrloc s h _ u
@[simp] theorem getTile_modHart_mbox (s : State) (h : HartId) (f : Hart → Hart) (u : Nat) :
    (getTile (modHart s h f) u).mbox = (getTile s u).mbox := getTile_setHart_mbox s h _ u
@[simp] theorem getTile_modHart_mheld (s : State) (h : HartId) (f : Hart → Hart) (u : Nat) :
    (getTile (modHart s h f) u).mheld = (getTile s u).mheld := getTile_setHart_mheld s h _ u
@[simp] theorem getTile_modHart_mnext (s : State) (h : HartId) (f : Hart → Hart) (u : Nat) :
    (getTile (modHart s h f) u).mnext = (getTile s u).mnext := getTile_setHart_mnext s h _ u
@[simp] theorem getTile_modHart_mwait (s : State) (h : HartId) (f : Hart → Hart) (u : Nat) :
    (getTile (modHart s h f) u).mwait = (getTile s u).mwait := getTile_setHart_mwait s h _ u
@[simp] theorem getTile_modHart_work (s : State) (h : HartId) (f : Hart → Hart) (u : Nat) :
    (getTile (modHart s h f) u).work = (getTile s u).work := getTile_setHart_work s h _ u
@[simp] theorem getTile_modHart_fills (s : State) (h : HartId) (f : Hart → Hart) (u : Nat) :
    (getTile (modHart s h f) u).fills = (getTile s u).fills := getTile_setHart_fills s h _ u
@[simp] theorem getTile_modHart_fe (s : State) (h : HartId) (f : Hart → Hart) (u : Nat) :
    (getTile (modHart s h f) u).fe = (getTile s u).fe := getTile_setHart_fe s h _ u
@[simp] theorem getTile_modHart_copies (s : State) (h : HartId) (f : Hart → Hart) (u : Nat) :
    (getTile (modHart s h f) u).copies = (getTile s u).copies := getTile_setHart_copies s h _ u
@[simp] theorem getTile_modHart_sleepDepth (s : State) (h : HartId) (f : Hart → Hart) (u : Nat) :
    (getTile (modHart s h f) u).sleepDepth = (getTile s u).sleepDepth := getTile_setHart_sleepDepth s h _ u
@[simp] theorem getTile_modHart_ctx (s : State) (h : HartId) (f : Hart → Hart) (u : Nat) :
    (getTile (modHart s h f) u).ctx = (getTile s u).ctx := getTile_setHart_ctx s h _ u
@[simp] theorem getTile_modHart_repq (s : State) (h : HartId) (f : Hart → Hart) (u : Nat) :
    (getTile (modHart s h f) u).repq = (getTile s u).repq := getTile_setHart_repq s h _ u
@[simp] theorem getTile_modHart_escwait (s : State) (h : HartId) (f : Hart → Hart) (u : Nat) :
    (getTile (modHart s h f) u).escwait = (getTile s u).escwait := getTile_setHart_escwait s h _ u
@[simp] theorem getTile_modHart_asleep (s : State) (h : HartId) (f : Hart → Hart) (u : Nat) :
    (getTile (modHart s h f) u).asleep = (getTile s u).asleep := getTile_setHart_asleep s h _ u
@[simp] theorem getTile_modHart_wakeAt (s : State) (h : HartId) (f : Hart → Hart) (u : Nat) :
    (getTile (modHart s h f) u).wakeAt = (getTile s u).wakeAt := getTile_setHart_wakeAt s h _ u
@[simp] theorem getTile_modHart_grp (s : State) (h : HartId) (f : Hart → Hart) (u : Nat) :
    (getTile (modHart s h f) u).grp = (getTile s u).grp := getTile_setHart_grp s h _ u
@[simp] theorem getTile_modHart_slots (s : State) (h : HartId) (f : Hart → Hart) (u : Nat) :
    (getTile (modHart s h f) u).slots = (getTile s u).slots := getTile_setHart_slots s h _ u
@[simp] theorem getTile_modHart_lvl (s : State) (h : HartId) (f : Hart → Hart) (u : Nat) :
    (getTile (modHart s h f) u).lvl = (getTile s u).lvl := getTile_setHart_lvl s h _ u
@[simp] theorem getTile_modHart_last (s : State) (h : HartId) (f : Hart → Hart) (u : Nat) :
    (getTile (modHart s h f) u).last = (getTile s u).last := getTile_setHart_last s h _ u
@[simp] theorem getTile_modHart_level (s : State) (h : HartId) (f : Hart → Hart) (u : Nat) :
    (getTile (modHart s h f) u).level = (getTile s u).level := getTile_setHart_level s h _ u
@[simp] theorem getTile_modHart_fallout (s : State) (h : HartId) (f : Hart → Hart) (u : Nat) :
    (getTile (modHart s h f) u).fallout = (getTile s u).fallout := getTile_setHart_fallout s h _ u

/-! ## Registers -/

/-- g0 reads zero (R55). -/
@[simp] theorem rg_zero (h : Hart) : rg h 0 = 0 := rfl

/-- A write to g0 is discarded (R55). -/
@[simp] theorem wg_zero (h : Hart) (x : Word) : wg h 0 x = h := rfl

/-- A g-register but g0 reads what was written. -/
theorem rg_wg_same (h : Hart) {r : GReg} (x : Word) (hr : r ≠ 0) : rg (wg h r x) r = x := by
  simp [rg, wg, hr]

/-- Every other g-register reads as before. -/
theorem rg_wg_other (h : Hart) {r q : GReg} (x : Word) (hq : q ≠ r) : rg (wg h r x) q = rg h q := by
  by_cases h0 : r = 0
  · simp [wg, h0]
  · simp [rg, wg, h0, vector_get_set_other _ _ hq]

@[simp] theorem re_we_same (h : Hart) (r : EReg) (x : Word) : re (we h r x) r = x := by simp [re, we]

theorem re_we_other (h : Hart) {r q : EReg} (x : Word) (hq : q ≠ r) : re (we h r x) q = re h q := by
  simp [re, we, vector_get_set_other _ _ hq]

@[simp] theorem rv_wv_same (h : Hart) (r : VReg) (x : Vec) : rv (wv h r x) r = x := by simp [rv, wv]

theorem rv_wv_other (h : Hart) {r q : VReg} (x : Vec) (hq : q ≠ r) : rv (wv h r x) q = rv h q := by
  simp [rv, wv, vector_get_set_other _ _ hq]

/-- k0 reads all ones (R55). -/
@[simp] theorem rk_zero (h : Hart) : rk h 0 = 0xFFFF := rfl

/-- A write to k0 is discarded (R55). -/
@[simp] theorem wk_zero (h : Hart) (x : BitVec 16) : wk h 0 x = h := rfl

theorem rk_wk_same (h : Hart) {r : KReg} (x : BitVec 16) (hr : r ≠ 0) : rk (wk h r x) r = x := by
  simp [rk, wk, hr]

theorem rk_wk_other (h : Hart) {r q : KReg} (x : BitVec 16) (hq : q ≠ r) : rk (wk h r x) q = rk h q := by
  by_cases h0 : r = 0
  · simp [wk, h0]
  · simp [rk, wk, h0, vector_get_set_other _ _ hq]

/-! ## Fields of a hart that a write to a register leaves alone -/

@[simp] theorem wg_status (h : Hart) (r : GReg) (x : Word) : (wg h r x).status = h.status := by unfold wg; split <;> rfl
@[simp] theorem wg_pc (h : Hart) (r : GReg) (x : Word) : (wg h r x).pc = h.pc := by unfold wg; split <;> rfl
@[simp] theorem wg_e (h : Hart) (r : GReg) (x : Word) : (wg h r x).e = h.e := by unfold wg; split <;> rfl
@[simp] theorem wg_v (h : Hart) (r : GReg) (x : Word) : (wg h r x).v = h.v := by unfold wg; split <;> rfl
@[simp] theorem wg_k (h : Hart) (r : GReg) (x : Word) : (wg h r x).k = h.k := by unfold wg; split <;> rfl
@[simp] theorem wg_eF (h : Hart) (r : GReg) (x : Word) : (wg h r x).eF = h.eF := by unfold wg; split <;> rfl
@[simp] theorem wg_vF (h : Hart) (r : GReg) (x : Word) : (wg h r x).vF = h.vF := by unfold wg; split <;> rfl
@[simp] theorem wg_kF (h : Hart) (r : GReg) (x : Word) : (wg h r x).kF = h.kF := by unfold wg; split <;> rfl
@[simp] theorem wg_fflags (h : Hart) (r : GReg) (x : Word) : (wg h r x).fflags = h.fflags := by unfold wg; split <;> rfl
@[simp] theorem wg_frm (h : Hart) (r : GReg) (x : Word) : (wg h r x).frm = h.frm := by unfold wg; split <;> rfl
@[simp] theorem wg_pre (h : Hart) (r : GReg) (x : Word) : (wg h r x).pre = h.pre := by unfold wg; split <;> rfl
@[simp] theorem wg_mtag (h : Hart) (r : GReg) (x : Word) : (wg h r x).mtag = h.mtag := by unfold wg; split <;> rfl
@[simp] theorem wg_wlx (h : Hart) (r : GReg) (x : Word) : (wg h r x).wlx = h.wlx := by unfold wg; split <;> rfl
@[simp] theorem wg_cpyq (h : Hart) (r : GReg) (x : Word) : (wg h r x).cpyq = h.cpyq := by unfold wg; split <;> rfl
@[simp] theorem wg_path (h : Hart) (r : GReg) (x : Word) : (wg h r x).path = h.path := by unfold wg; split <;> rfl
@[simp] theorem wg_wlim (h : Hart) (r : GReg) (x : Word) : (wg h r x).wlim = h.wlim := by unfold wg; split <;> rfl
@[simp] theorem wg_tcause (h : Hart) (r : GReg) (x : Word) : (wg h r x).tcause = h.tcause := by unfold wg; split <;> rfl
@[simp] theorem wg_tval (h : Hart) (r : GReg) (x : Word) : (wg h r x).tval = h.tval := by unfold wg; split <;> rfl
@[simp] theorem wg_tepc (h : Hart) (r : GReg) (x : Word) : (wg h r x).tepc = h.tepc := by unfold wg; split <;> rfl
@[simp] theorem wg_tvec (h : Hart) (r : GReg) (x : Word) : (wg h r x).tvec = h.tvec := by unfold wg; split <;> rfl
@[simp] theorem wg_tscratch (h : Hart) (r : GReg) (x : Word) : (wg h r x).tscratch = h.tscratch := by unfold wg; split <;> rfl
@[simp] theorem wg_inh (h : Hart) (r : GReg) (x : Word) : (wg h r x).inh = h.inh := by unfold wg; split <;> rfl
@[simp] theorem wg_sup (h : Hart) (r : GReg) (x : Word) : (wg h r x).sup = h.sup := by unfold wg; split <;> rfl
@[simp] theorem wg_ss (h : Hart) (r : GReg) (x : Word) : (wg h r x).ss = h.ss := by unfold wg; split <;> rfl
@[simp] theorem wg_out (h : Hart) (r : GReg) (x : Word) : (wg h r x).out = h.out := by unfold wg; split <;> rfl
@[simp] theorem wg_stack (h : Hart) (r : GReg) (x : Word) : (wg h r x).stack = h.stack := by unfold wg; split <;> rfl
@[simp] theorem wg_fork (h : Hart) (r : GReg) (x : Word) : (wg h r x).fork = h.fork := by unfold wg; split <;> rfl
@[simp] theorem wg_forkFaults (h : Hart) (r : GReg) (x : Word) : (wg h r x).forkFaults = h.forkFaults := by unfold wg; split <;> rfl
@[simp] theorem wg_forkedBy (h : Hart) (r : GReg) (x : Word) : (wg h r x).forkedBy = h.forkedBy := by unfold wg; split <;> rfl
@[simp] theorem wg_bar (h : Hart) (r : GReg) (x : Word) : (wg h r x).bar = h.bar := by unfold wg; split <;> rfl
@[simp] theorem wg_why (h : Hart) (r : GReg) (x : Word) : (wg h r x).why = h.why := by unfold wg; split <;> rfl
@[simp] theorem wg_since (h : Hart) (r : GReg) (x : Word) : (wg h r x).since = h.since := by unfold wg; split <;> rfl
@[simp] theorem wg_issued (h : Hart) (r : GReg) (x : Word) : (wg h r x).issued = h.issued := by unfold wg; split <;> rfl
@[simp] theorem wg_yield (h : Hart) (r : GReg) (x : Word) : (wg h r x).yield = h.yield := by unfold wg; split <;> rfl
@[simp] theorem wg_refused (h : Hart) (r : GReg) (x : Word) : (wg h r x).refused = h.refused := by unfold wg; split <;> rfl
@[simp] theorem wg_filled (h : Hart) (r : GReg) (x : Word) : (wg h r x).filled = h.filled := by unfold wg; split <;> rfl
@[simp] theorem we_status (h : Hart) (r : EReg) (x : Word) : (we h r x).status = h.status := rfl
@[simp] theorem we_pc (h : Hart) (r : EReg) (x : Word) : (we h r x).pc = h.pc := rfl
@[simp] theorem we_g (h : Hart) (r : EReg) (x : Word) : (we h r x).g = h.g := rfl
@[simp] theorem we_v (h : Hart) (r : EReg) (x : Word) : (we h r x).v = h.v := rfl
@[simp] theorem we_k (h : Hart) (r : EReg) (x : Word) : (we h r x).k = h.k := rfl
@[simp] theorem we_gF (h : Hart) (r : EReg) (x : Word) : (we h r x).gF = h.gF := rfl
@[simp] theorem we_vF (h : Hart) (r : EReg) (x : Word) : (we h r x).vF = h.vF := rfl
@[simp] theorem we_kF (h : Hart) (r : EReg) (x : Word) : (we h r x).kF = h.kF := rfl
@[simp] theorem we_fflags (h : Hart) (r : EReg) (x : Word) : (we h r x).fflags = h.fflags := rfl
@[simp] theorem we_frm (h : Hart) (r : EReg) (x : Word) : (we h r x).frm = h.frm := rfl
@[simp] theorem we_pre (h : Hart) (r : EReg) (x : Word) : (we h r x).pre = h.pre := rfl
@[simp] theorem we_mtag (h : Hart) (r : EReg) (x : Word) : (we h r x).mtag = h.mtag := rfl
@[simp] theorem we_wlx (h : Hart) (r : EReg) (x : Word) : (we h r x).wlx = h.wlx := rfl
@[simp] theorem we_cpyq (h : Hart) (r : EReg) (x : Word) : (we h r x).cpyq = h.cpyq := rfl
@[simp] theorem we_path (h : Hart) (r : EReg) (x : Word) : (we h r x).path = h.path := rfl
@[simp] theorem we_wlim (h : Hart) (r : EReg) (x : Word) : (we h r x).wlim = h.wlim := rfl
@[simp] theorem we_tcause (h : Hart) (r : EReg) (x : Word) : (we h r x).tcause = h.tcause := rfl
@[simp] theorem we_tval (h : Hart) (r : EReg) (x : Word) : (we h r x).tval = h.tval := rfl
@[simp] theorem we_tepc (h : Hart) (r : EReg) (x : Word) : (we h r x).tepc = h.tepc := rfl
@[simp] theorem we_tvec (h : Hart) (r : EReg) (x : Word) : (we h r x).tvec = h.tvec := rfl
@[simp] theorem we_tscratch (h : Hart) (r : EReg) (x : Word) : (we h r x).tscratch = h.tscratch := rfl
@[simp] theorem we_inh (h : Hart) (r : EReg) (x : Word) : (we h r x).inh = h.inh := rfl
@[simp] theorem we_sup (h : Hart) (r : EReg) (x : Word) : (we h r x).sup = h.sup := rfl
@[simp] theorem we_ss (h : Hart) (r : EReg) (x : Word) : (we h r x).ss = h.ss := rfl
@[simp] theorem we_out (h : Hart) (r : EReg) (x : Word) : (we h r x).out = h.out := rfl
@[simp] theorem we_stack (h : Hart) (r : EReg) (x : Word) : (we h r x).stack = h.stack := rfl
@[simp] theorem we_fork (h : Hart) (r : EReg) (x : Word) : (we h r x).fork = h.fork := rfl
@[simp] theorem we_forkFaults (h : Hart) (r : EReg) (x : Word) : (we h r x).forkFaults = h.forkFaults := rfl
@[simp] theorem we_forkedBy (h : Hart) (r : EReg) (x : Word) : (we h r x).forkedBy = h.forkedBy := rfl
@[simp] theorem we_bar (h : Hart) (r : EReg) (x : Word) : (we h r x).bar = h.bar := rfl
@[simp] theorem we_why (h : Hart) (r : EReg) (x : Word) : (we h r x).why = h.why := rfl
@[simp] theorem we_since (h : Hart) (r : EReg) (x : Word) : (we h r x).since = h.since := rfl
@[simp] theorem we_issued (h : Hart) (r : EReg) (x : Word) : (we h r x).issued = h.issued := rfl
@[simp] theorem we_yield (h : Hart) (r : EReg) (x : Word) : (we h r x).yield = h.yield := rfl
@[simp] theorem we_refused (h : Hart) (r : EReg) (x : Word) : (we h r x).refused = h.refused := rfl
@[simp] theorem we_filled (h : Hart) (r : EReg) (x : Word) : (we h r x).filled = h.filled := rfl
@[simp] theorem wv_status (h : Hart) (r : VReg) (x : Vec) : (wv h r x).status = h.status := rfl
@[simp] theorem wv_pc (h : Hart) (r : VReg) (x : Vec) : (wv h r x).pc = h.pc := rfl
@[simp] theorem wv_g (h : Hart) (r : VReg) (x : Vec) : (wv h r x).g = h.g := rfl
@[simp] theorem wv_e (h : Hart) (r : VReg) (x : Vec) : (wv h r x).e = h.e := rfl
@[simp] theorem wv_k (h : Hart) (r : VReg) (x : Vec) : (wv h r x).k = h.k := rfl
@[simp] theorem wv_gF (h : Hart) (r : VReg) (x : Vec) : (wv h r x).gF = h.gF := rfl
@[simp] theorem wv_eF (h : Hart) (r : VReg) (x : Vec) : (wv h r x).eF = h.eF := rfl
@[simp] theorem wv_kF (h : Hart) (r : VReg) (x : Vec) : (wv h r x).kF = h.kF := rfl
@[simp] theorem wv_fflags (h : Hart) (r : VReg) (x : Vec) : (wv h r x).fflags = h.fflags := rfl
@[simp] theorem wv_frm (h : Hart) (r : VReg) (x : Vec) : (wv h r x).frm = h.frm := rfl
@[simp] theorem wv_pre (h : Hart) (r : VReg) (x : Vec) : (wv h r x).pre = h.pre := rfl
@[simp] theorem wv_mtag (h : Hart) (r : VReg) (x : Vec) : (wv h r x).mtag = h.mtag := rfl
@[simp] theorem wv_wlx (h : Hart) (r : VReg) (x : Vec) : (wv h r x).wlx = h.wlx := rfl
@[simp] theorem wv_cpyq (h : Hart) (r : VReg) (x : Vec) : (wv h r x).cpyq = h.cpyq := rfl
@[simp] theorem wv_path (h : Hart) (r : VReg) (x : Vec) : (wv h r x).path = h.path := rfl
@[simp] theorem wv_wlim (h : Hart) (r : VReg) (x : Vec) : (wv h r x).wlim = h.wlim := rfl
@[simp] theorem wv_tcause (h : Hart) (r : VReg) (x : Vec) : (wv h r x).tcause = h.tcause := rfl
@[simp] theorem wv_tval (h : Hart) (r : VReg) (x : Vec) : (wv h r x).tval = h.tval := rfl
@[simp] theorem wv_tepc (h : Hart) (r : VReg) (x : Vec) : (wv h r x).tepc = h.tepc := rfl
@[simp] theorem wv_tvec (h : Hart) (r : VReg) (x : Vec) : (wv h r x).tvec = h.tvec := rfl
@[simp] theorem wv_tscratch (h : Hart) (r : VReg) (x : Vec) : (wv h r x).tscratch = h.tscratch := rfl
@[simp] theorem wv_inh (h : Hart) (r : VReg) (x : Vec) : (wv h r x).inh = h.inh := rfl
@[simp] theorem wv_sup (h : Hart) (r : VReg) (x : Vec) : (wv h r x).sup = h.sup := rfl
@[simp] theorem wv_ss (h : Hart) (r : VReg) (x : Vec) : (wv h r x).ss = h.ss := rfl
@[simp] theorem wv_out (h : Hart) (r : VReg) (x : Vec) : (wv h r x).out = h.out := rfl
@[simp] theorem wv_stack (h : Hart) (r : VReg) (x : Vec) : (wv h r x).stack = h.stack := rfl
@[simp] theorem wv_fork (h : Hart) (r : VReg) (x : Vec) : (wv h r x).fork = h.fork := rfl
@[simp] theorem wv_forkFaults (h : Hart) (r : VReg) (x : Vec) : (wv h r x).forkFaults = h.forkFaults := rfl
@[simp] theorem wv_forkedBy (h : Hart) (r : VReg) (x : Vec) : (wv h r x).forkedBy = h.forkedBy := rfl
@[simp] theorem wv_bar (h : Hart) (r : VReg) (x : Vec) : (wv h r x).bar = h.bar := rfl
@[simp] theorem wv_why (h : Hart) (r : VReg) (x : Vec) : (wv h r x).why = h.why := rfl
@[simp] theorem wv_since (h : Hart) (r : VReg) (x : Vec) : (wv h r x).since = h.since := rfl
@[simp] theorem wv_issued (h : Hart) (r : VReg) (x : Vec) : (wv h r x).issued = h.issued := rfl
@[simp] theorem wv_yield (h : Hart) (r : VReg) (x : Vec) : (wv h r x).yield = h.yield := rfl
@[simp] theorem wv_refused (h : Hart) (r : VReg) (x : Vec) : (wv h r x).refused = h.refused := rfl
@[simp] theorem wv_filled (h : Hart) (r : VReg) (x : Vec) : (wv h r x).filled = h.filled := rfl
@[simp] theorem wk_status (h : Hart) (r : KReg) (x : BitVec 16) : (wk h r x).status = h.status := by unfold wk; split <;> rfl
@[simp] theorem wk_pc (h : Hart) (r : KReg) (x : BitVec 16) : (wk h r x).pc = h.pc := by unfold wk; split <;> rfl
@[simp] theorem wk_g (h : Hart) (r : KReg) (x : BitVec 16) : (wk h r x).g = h.g := by unfold wk; split <;> rfl
@[simp] theorem wk_e (h : Hart) (r : KReg) (x : BitVec 16) : (wk h r x).e = h.e := by unfold wk; split <;> rfl
@[simp] theorem wk_v (h : Hart) (r : KReg) (x : BitVec 16) : (wk h r x).v = h.v := by unfold wk; split <;> rfl
@[simp] theorem wk_gF (h : Hart) (r : KReg) (x : BitVec 16) : (wk h r x).gF = h.gF := by unfold wk; split <;> rfl
@[simp] theorem wk_eF (h : Hart) (r : KReg) (x : BitVec 16) : (wk h r x).eF = h.eF := by unfold wk; split <;> rfl
@[simp] theorem wk_vF (h : Hart) (r : KReg) (x : BitVec 16) : (wk h r x).vF = h.vF := by unfold wk; split <;> rfl
@[simp] theorem wk_fflags (h : Hart) (r : KReg) (x : BitVec 16) : (wk h r x).fflags = h.fflags := by unfold wk; split <;> rfl
@[simp] theorem wk_frm (h : Hart) (r : KReg) (x : BitVec 16) : (wk h r x).frm = h.frm := by unfold wk; split <;> rfl
@[simp] theorem wk_pre (h : Hart) (r : KReg) (x : BitVec 16) : (wk h r x).pre = h.pre := by unfold wk; split <;> rfl
@[simp] theorem wk_mtag (h : Hart) (r : KReg) (x : BitVec 16) : (wk h r x).mtag = h.mtag := by unfold wk; split <;> rfl
@[simp] theorem wk_wlx (h : Hart) (r : KReg) (x : BitVec 16) : (wk h r x).wlx = h.wlx := by unfold wk; split <;> rfl
@[simp] theorem wk_cpyq (h : Hart) (r : KReg) (x : BitVec 16) : (wk h r x).cpyq = h.cpyq := by unfold wk; split <;> rfl
@[simp] theorem wk_path (h : Hart) (r : KReg) (x : BitVec 16) : (wk h r x).path = h.path := by unfold wk; split <;> rfl
@[simp] theorem wk_wlim (h : Hart) (r : KReg) (x : BitVec 16) : (wk h r x).wlim = h.wlim := by unfold wk; split <;> rfl
@[simp] theorem wk_tcause (h : Hart) (r : KReg) (x : BitVec 16) : (wk h r x).tcause = h.tcause := by unfold wk; split <;> rfl
@[simp] theorem wk_tval (h : Hart) (r : KReg) (x : BitVec 16) : (wk h r x).tval = h.tval := by unfold wk; split <;> rfl
@[simp] theorem wk_tepc (h : Hart) (r : KReg) (x : BitVec 16) : (wk h r x).tepc = h.tepc := by unfold wk; split <;> rfl
@[simp] theorem wk_tvec (h : Hart) (r : KReg) (x : BitVec 16) : (wk h r x).tvec = h.tvec := by unfold wk; split <;> rfl
@[simp] theorem wk_tscratch (h : Hart) (r : KReg) (x : BitVec 16) : (wk h r x).tscratch = h.tscratch := by unfold wk; split <;> rfl
@[simp] theorem wk_inh (h : Hart) (r : KReg) (x : BitVec 16) : (wk h r x).inh = h.inh := by unfold wk; split <;> rfl
@[simp] theorem wk_sup (h : Hart) (r : KReg) (x : BitVec 16) : (wk h r x).sup = h.sup := by unfold wk; split <;> rfl
@[simp] theorem wk_ss (h : Hart) (r : KReg) (x : BitVec 16) : (wk h r x).ss = h.ss := by unfold wk; split <;> rfl
@[simp] theorem wk_out (h : Hart) (r : KReg) (x : BitVec 16) : (wk h r x).out = h.out := by unfold wk; split <;> rfl
@[simp] theorem wk_stack (h : Hart) (r : KReg) (x : BitVec 16) : (wk h r x).stack = h.stack := by unfold wk; split <;> rfl
@[simp] theorem wk_fork (h : Hart) (r : KReg) (x : BitVec 16) : (wk h r x).fork = h.fork := by unfold wk; split <;> rfl
@[simp] theorem wk_forkFaults (h : Hart) (r : KReg) (x : BitVec 16) : (wk h r x).forkFaults = h.forkFaults := by unfold wk; split <;> rfl
@[simp] theorem wk_forkedBy (h : Hart) (r : KReg) (x : BitVec 16) : (wk h r x).forkedBy = h.forkedBy := by unfold wk; split <;> rfl
@[simp] theorem wk_bar (h : Hart) (r : KReg) (x : BitVec 16) : (wk h r x).bar = h.bar := by unfold wk; split <;> rfl
@[simp] theorem wk_why (h : Hart) (r : KReg) (x : BitVec 16) : (wk h r x).why = h.why := by unfold wk; split <;> rfl
@[simp] theorem wk_since (h : Hart) (r : KReg) (x : BitVec 16) : (wk h r x).since = h.since := by unfold wk; split <;> rfl
@[simp] theorem wk_issued (h : Hart) (r : KReg) (x : BitVec 16) : (wk h r x).issued = h.issued := by unfold wk; split <;> rfl
@[simp] theorem wk_yield (h : Hart) (r : KReg) (x : BitVec 16) : (wk h r x).yield = h.yield := by unfold wk; split <;> rfl
@[simp] theorem wk_refused (h : Hart) (r : KReg) (x : BitVec 16) : (wk h r x).refused = h.refused := by unfold wk; split <;> rfl
@[simp] theorem wk_filled (h : Hart) (r : KReg) (x : BitVec 16) : (wk h r x).filled = h.filled := by unfold wk; split <;> rfl

/-! ## Errors of cells (R296) -/

/-- A cell that has been written whole has no error. -/
@[simp] theorem flawAt_healed_same (h : Hart) (c : CellLoc) : flawAt (healed h c) c = none := by
  simp [flawAt, healed, List.find?_eq_none]

/-- Writing a cell leaves the errors of the others. -/
theorem flawAt_healed_other (h : Hart) {c d : CellLoc} (hd : d ≠ c) : flawAt (healed h c) d = flawAt h.flaws d := by
  unfold flawAt healed
  rw [List.find?_filter]
  congr 2
  funext x
  by_cases hx : x.1 = d
  · simp [hx, hd]
  · simp [hx]


end Sys2Proof.Machine
end

