-- ==== Sys2Proof/Laws/Ops.lean ====
section
/-! SUPPORT. The shared operations of every meaning, each once: what it answers when its check passes, and that it answers a next
state whatever comes out (R6, R48, R57 to R63, R66, R68). -/

namespace Sys2Proof.Machine

/-! ## Fields of the state that an acquire, a first read of a filled register and a completion leave alone -/

@[simp] theorem acquire_cur (s : State) (h : HartId) : (acquire s h).cur = s.cur := by cases h <;> rfl
@[simp] theorem acquire_iword (s : State) (h : HartId) : (acquire s h).iword = s.iword := by cases h <;> rfl
@[simp] theorem acquire_reads (s : State) (h : HartId) : (acquire s h).reads = s.reads := by cases h <;> rfl
@[simp] theorem acquire_agent (s : State) (h : HartId) : (acquire s h).agent = s.agent := by cases h <;> rfl
@[simp] theorem acquire_ev (s : State) (h : HartId) : (acquire s h).ev = s.ev := by cases h <;> rfl
@[simp] theorem acquire_inputs (s : State) (h : HartId) : (acquire s h).inputs = s.inputs := by cases h <;> rfl
@[simp] theorem acquire_free (s : State) (h : HartId) : (acquire s h).free = s.free := by cases h <;> rfl
@[simp] theorem acquire_ids (s : State) (h : HartId) : (acquire s h).ids = s.ids := by cases h <;> rfl
@[simp] theorem acquire_bounds (s : State) (h : HartId) : (acquire s h).bounds = s.bounds := by cases h <;> rfl
@[simp] theorem acquire_cycle (s : State) (h : HartId) : (acquire s h).cycle = s.cycle := by cases h <;> rfl
@[simp] theorem acquire_dies (s : State) (h : HartId) : (acquire s h).dies = s.dies := by cases h <;> rfl
@[simp] theorem acquire_mem (s : State) (h : HartId) : (acquire s h).mem = s.mem := by cases h <;> rfl
@[simp] theorem acquire_gEmpty (s : State) (h : HartId) : (acquire s h).gEmpty = s.gEmpty := by cases h <;> rfl
@[simp] theorem acquire_gPoison (s : State) (h : HartId) : (acquire s h).gPoison = s.gPoison := by cases h <;> rfl
@[simp] theorem acquire_gLatent (s : State) (h : HartId) : (acquire s h).gLatent = s.gLatent := by cases h <;> rfl
@[simp] theorem acquire_gfe (s : State) (h : HartId) : (acquire s h).gfe = s.gfe := by cases h <;> rfl
@[simp] theorem acquire_gqWait (s : State) (h : HartId) : (acquire s h).gqWait = s.gqWait := by cases h <;> rfl
@[simp] theorem acquire_ctxs (s : State) (h : HartId) : (acquire s h).ctxs = s.ctxs := by cases h <;> rfl
@[simp] theorem acquire_parts (s : State) (h : HartId) : (acquire s h).parts = s.parts := by cases h <;> rfl
@[simp] theorem acquire_launches (s : State) (h : HartId) : (acquire s h).launches = s.launches := by cases h <;> rfl
@[simp] theorem acquire_groups (s : State) (h : HartId) : (acquire s h).groups = s.groups := by cases h <;> rfl
@[simp] theorem acquire_qcopies (s : State) (h : HartId) : (acquire s h).qcopies = s.qcopies := by cases h <;> rfl
@[simp] theorem acquire_msgs (s : State) (h : HartId) : (acquire s h).msgs = s.msgs := by cases h <;> rfl
@[simp] theorem acquire_rewards (s : State) (h : HartId) : (acquire s h).rewards = s.rewards := by cases h <;> rfl
@[simp] theorem acquire_reports (s : State) (h : HartId) : (acquire s h).reports = s.reports := by cases h <;> rfl
@[simp] theorem acquire_collGroups (s : State) (h : HartId) : (acquire s h).collGroups = s.collGroups := by cases h <;> rfl
@[simp] theorem acquire_colls (s : State) (h : HartId) : (acquire s h).colls = s.colls := by cases h <;> rfl
@[simp] theorem acquire_collIn (s : State) (h : HartId) : (acquire s h).collIn = s.collIn := by cases h <;> rfl
@[simp] theorem acquire_links (s : State) (h : HartId) : (acquire s h).links = s.links := by cases h <;> rfl
@[simp] theorem acquire_ports (s : State) (h : HartId) : (acquire s h).ports = s.ports := by cases h <;> rfl
@[simp] theorem acquire_msix (s : State) (h : HartId) : (acquire s h).msix = s.msix := by cases h <;> rfl
@[simp] theorem acquire_noise (s : State) (h : HartId) : (acquire s h).noise = s.noise := by cases h <;> rfl
@[simp] theorem acquire_sentFlits (s : State) (h : HartId) : (acquire s h).sentFlits = s.sentFlits := by cases h <;> rfl
@[simp] theorem acquire_hostHeld (s : State) (h : HartId) : (acquire s h).hostHeld = s.hostHeld := by cases h <;> rfl
@[simp] theorem acquire_hostGot (s : State) (h : HartId) : (acquire s h).hostGot = s.hostGot := by cases h <;> rfl
@[simp] theorem acquire_armPend (s : State) (h : HartId) : (acquire s h).armPend = s.armPend := by cases h <;> rfl
@[simp] theorem acquire_armSeen (s : State) (h : HartId) : (acquire s h).armSeen = s.armSeen := by cases h <;> rfl
@[simp] theorem acquire_boot (s : State) (h : HartId) : (acquire s h).boot = s.boot := by cases h <;> rfl
@[simp] theorem acquire_fcode (s : State) (h : HartId) : (acquire s h).fcode = s.fcode := by cases h <;> rfl
@[simp] theorem acquire_trip (s : State) (h : HartId) : (acquire s h).trip = s.trip := by cases h <;> rfl
@[simp] theorem acquire_abusy (s : State) (h : HartId) : (acquire s h).abusy = s.abusy := by cases h <;> rfl
@[simp] theorem acquire_aerr (s : State) (h : HartId) : (acquire s h).aerr = s.aerr := by cases h <;> rfl
@[simp] theorem acquire_devid (s : State) (h : HartId) : (acquire s h).devid = s.devid := by cases h <;> rfl
@[simp] theorem acquire_tvec (s : State) (h : HartId) : (acquire s h).tvec = s.tvec := by cases h <;> rfl
@[simp] theorem acquire_nonce (s : State) (h : HartId) : (acquire s h).nonce = s.nonce := by cases h <;> rfl
@[simp] theorem acquire_msixTab (s : State) (h : HartId) : (acquire s h).msixTab = s.msixTab := by cases h <;> rfl
@[simp] theorem acquire_attest (s : State) (h : HartId) : (acquire s h).attest = s.attest := by cases h <;> rfl
@[simp] theorem acquire_report (s : State) (h : HartId) : (acquire s h).report = s.report := by cases h <;> rfl
@[simp] theorem acquire_idKey (s : State) (h : HartId) : (acquire s h).idKey = s.idKey := by cases h <;> rfl
@[simp] theorem acquire_idPub (s : State) (h : HartId) : (acquire s h).idPub = s.idPub := by cases h <;> rfl
@[simp] theorem acquire_images (s : State) (h : HartId) : (acquire s h).images = s.images := by cases h <;> rfl
@[simp] theorem acquire_bootKey (s : State) (h : HartId) : (acquire s h).bootKey = s.bootKey := by cases h <;> rfl
@[simp] theorem acquire_keyFuse (s : State) (h : HartId) : (acquire s h).keyFuse = s.keyFuse := by cases h <;> rfl
@[simp] theorem acquire_rollback (s : State) (h : HartId) : (acquire s h).rollback = s.rollback := by cases h <;> rfl
@[simp] theorem acquire_stacksOk (s : State) (h : HartId) : (acquire s h).stacksOk = s.stacksOk := by cases h <;> rfl
@[simp] theorem acquire_chanDown (s : State) (h : HartId) : (acquire s h).chanDown = s.chanDown := by cases h <;> rfl
@[simp] theorem acquire_selfRefresh (s : State) (h : HartId) : (acquire s h).selfRefresh = s.selfRefresh := by cases h <;> rfl
@[simp] theorem acquire_lastReq (s : State) (h : HartId) : (acquire s h).lastReq = s.lastReq := by cases h <;> rfl
@[simp] theorem acquire_menders (s : State) (h : HartId) : (acquire s h).menders = s.menders := by cases h <;> rfl
@[simp] theorem readFilled_cur (s : State) (rs : List RegId) : (readFilled s rs).cur = s.cur := by
  unfold readFilled; split; exacts [(acquire_cur _ _).trans (modHart_cur _ _ _), rfl]
@[simp] theorem readFilled_iword (s : State) (rs : List RegId) : (readFilled s rs).iword = s.iword := by
  unfold readFilled; split; exacts [(acquire_iword _ _).trans (modHart_iword _ _ _), rfl]
@[simp] theorem readFilled_reads (s : State) (rs : List RegId) : (readFilled s rs).reads = s.reads := by
  unfold readFilled; split; exacts [(acquire_reads _ _).trans (modHart_reads _ _ _), rfl]
@[simp] theorem readFilled_agent (s : State) (rs : List RegId) : (readFilled s rs).agent = s.agent := by
  unfold readFilled; split; exacts [(acquire_agent _ _).trans (modHart_agent _ _ _), rfl]
@[simp] theorem readFilled_ev (s : State) (rs : List RegId) : (readFilled s rs).ev = s.ev := by
  unfold readFilled; split; exacts [(acquire_ev _ _).trans (modHart_ev _ _ _), rfl]
@[simp] theorem readFilled_inputs (s : State) (rs : List RegId) : (readFilled s rs).inputs = s.inputs := by
  unfold readFilled; split; exacts [(acquire_inputs _ _).trans (modHart_inputs _ _ _), rfl]
@[simp] theorem readFilled_free (s : State) (rs : List RegId) : (readFilled s rs).free = s.free := by
  unfold readFilled; split; exacts [(acquire_free _ _).trans (modHart_free _ _ _), rfl]
@[simp] theorem readFilled_ids (s : State) (rs : List RegId) : (readFilled s rs).ids = s.ids := by
  unfold readFilled; split; exacts [(acquire_ids _ _).trans (modHart_ids _ _ _), rfl]
@[simp] theorem readFilled_bounds (s : State) (rs : List RegId) : (readFilled s rs).bounds = s.bounds := by
  unfold readFilled; split; exacts [(acquire_bounds _ _).trans (modHart_bounds _ _ _), rfl]
@[simp] theorem readFilled_cycle (s : State) (rs : List RegId) : (readFilled s rs).cycle = s.cycle := by
  unfold readFilled; split; exacts [(acquire_cycle _ _).trans (modHart_cycle _ _ _), rfl]
@[simp] theorem readFilled_dies (s : State) (rs : List RegId) : (readFilled s rs).dies = s.dies := by
  unfold readFilled; split; exacts [(acquire_dies _ _).trans (modHart_dies _ _ _), rfl]
@[simp] theorem readFilled_mem (s : State) (rs : List RegId) : (readFilled s rs).mem = s.mem := by
  unfold readFilled; split; exacts [(acquire_mem _ _).trans (modHart_mem _ _ _), rfl]
@[simp] theorem readFilled_gEmpty (s : State) (rs : List RegId) : (readFilled s rs).gEmpty = s.gEmpty := by
  unfold readFilled; split; exacts [(acquire_gEmpty _ _).trans (modHart_gEmpty _ _ _), rfl]
@[simp] theorem readFilled_gPoison (s : State) (rs : List RegId) : (readFilled s rs).gPoison = s.gPoison := by
  unfold readFilled; split; exacts [(acquire_gPoison _ _).trans (modHart_gPoison _ _ _), rfl]
@[simp] theorem readFilled_gLatent (s : State) (rs : List RegId) : (readFilled s rs).gLatent = s.gLatent := by
  unfold readFilled; split; exacts [(acquire_gLatent _ _).trans (modHart_gLatent _ _ _), rfl]
@[simp] theorem readFilled_gfe (s : State) (rs : List RegId) : (readFilled s rs).gfe = s.gfe := by
  unfold readFilled; split; exacts [(acquire_gfe _ _).trans (modHart_gfe _ _ _), rfl]
@[simp] theorem readFilled_gqWait (s : State) (rs : List RegId) : (readFilled s rs).gqWait = s.gqWait := by
  unfold readFilled; split; exacts [(acquire_gqWait _ _).trans (modHart_gqWait _ _ _), rfl]
@[simp] theorem readFilled_ctxs (s : State) (rs : List RegId) : (readFilled s rs).ctxs = s.ctxs := by
  unfold readFilled; split; exacts [(acquire_ctxs _ _).trans (modHart_ctxs _ _ _), rfl]
@[simp] theorem readFilled_parts (s : State) (rs : List RegId) : (readFilled s rs).parts = s.parts := by
  unfold readFilled; split; exacts [(acquire_parts _ _).trans (modHart_parts _ _ _), rfl]
@[simp] theorem readFilled_launches (s : State) (rs : List RegId) : (readFilled s rs).launches = s.launches := by
  unfold readFilled; split; exacts [(acquire_launches _ _).trans (modHart_launches _ _ _), rfl]
@[simp] theorem readFilled_groups (s : State) (rs : List RegId) : (readFilled s rs).groups = s.groups := by
  unfold readFilled; split; exacts [(acquire_groups _ _).trans (modHart_groups _ _ _), rfl]
@[simp] theorem readFilled_qcopies (s : State) (rs : List RegId) : (readFilled s rs).qcopies = s.qcopies := by
  unfold readFilled; split; exacts [(acquire_qcopies _ _).trans (modHart_qcopies _ _ _), rfl]
@[simp] theorem readFilled_msgs (s : State) (rs : List RegId) : (readFilled s rs).msgs = s.msgs := by
  unfold readFilled; split; exacts [(acquire_msgs _ _).trans (modHart_msgs _ _ _), rfl]
@[simp] theorem readFilled_rewards (s : State) (rs : List RegId) : (readFilled s rs).rewards = s.rewards := by
  unfold readFilled; split; exacts [(acquire_rewards _ _).trans (modHart_rewards _ _ _), rfl]
@[simp] theorem readFilled_reports (s : State) (rs : List RegId) : (readFilled s rs).reports = s.reports := by
  unfold readFilled; split; exacts [(acquire_reports _ _).trans (modHart_reports _ _ _), rfl]
@[simp] theorem readFilled_collGroups (s : State) (rs : List RegId) : (readFilled s rs).collGroups = s.collGroups := by
  unfold readFilled; split; exacts [(acquire_collGroups _ _).trans (modHart_collGroups _ _ _), rfl]
@[simp] theorem readFilled_colls (s : State) (rs : List RegId) : (readFilled s rs).colls = s.colls := by
  unfold readFilled; split; exacts [(acquire_colls _ _).trans (modHart_colls _ _ _), rfl]
@[simp] theorem readFilled_collIn (s : State) (rs : List RegId) : (readFilled s rs).collIn = s.collIn := by
  unfold readFilled; split; exacts [(acquire_collIn _ _).trans (modHart_collIn _ _ _), rfl]
@[simp] theorem readFilled_links (s : State) (rs : List RegId) : (readFilled s rs).links = s.links := by
  unfold readFilled; split; exacts [(acquire_links _ _).trans (modHart_links _ _ _), rfl]
@[simp] theorem readFilled_ports (s : State) (rs : List RegId) : (readFilled s rs).ports = s.ports := by
  unfold readFilled; split; exacts [(acquire_ports _ _).trans (modHart_ports _ _ _), rfl]
@[simp] theorem readFilled_msix (s : State) (rs : List RegId) : (readFilled s rs).msix = s.msix := by
  unfold readFilled; split; exacts [(acquire_msix _ _).trans (modHart_msix _ _ _), rfl]
@[simp] theorem readFilled_noise (s : State) (rs : List RegId) : (readFilled s rs).noise = s.noise := by
  unfold readFilled; split; exacts [(acquire_noise _ _).trans (modHart_noise _ _ _), rfl]
@[simp] theorem readFilled_sentFlits (s : State) (rs : List RegId) : (readFilled s rs).sentFlits = s.sentFlits := by
  unfold readFilled; split; exacts [(acquire_sentFlits _ _).trans (modHart_sentFlits _ _ _), rfl]
@[simp] theorem readFilled_hostHeld (s : State) (rs : List RegId) : (readFilled s rs).hostHeld = s.hostHeld := by
  unfold readFilled; split; exacts [(acquire_hostHeld _ _).trans (modHart_hostHeld _ _ _), rfl]
@[simp] theorem readFilled_hostGot (s : State) (rs : List RegId) : (readFilled s rs).hostGot = s.hostGot := by
  unfold readFilled; split; exacts [(acquire_hostGot _ _).trans (modHart_hostGot _ _ _), rfl]
@[simp] theorem readFilled_armPend (s : State) (rs : List RegId) : (readFilled s rs).armPend = s.armPend := by
  unfold readFilled; split; exacts [(acquire_armPend _ _).trans (modHart_armPend _ _ _), rfl]
@[simp] theorem readFilled_armSeen (s : State) (rs : List RegId) : (readFilled s rs).armSeen = s.armSeen := by
  unfold readFilled; split; exacts [(acquire_armSeen _ _).trans (modHart_armSeen _ _ _), rfl]
@[simp] theorem readFilled_boot (s : State) (rs : List RegId) : (readFilled s rs).boot = s.boot := by
  unfold readFilled; split; exacts [(acquire_boot _ _).trans (modHart_boot _ _ _), rfl]
@[simp] theorem readFilled_fcode (s : State) (rs : List RegId) : (readFilled s rs).fcode = s.fcode := by
  unfold readFilled; split; exacts [(acquire_fcode _ _).trans (modHart_fcode _ _ _), rfl]
@[simp] theorem readFilled_trip (s : State) (rs : List RegId) : (readFilled s rs).trip = s.trip := by
  unfold readFilled; split; exacts [(acquire_trip _ _).trans (modHart_trip _ _ _), rfl]
@[simp] theorem readFilled_abusy (s : State) (rs : List RegId) : (readFilled s rs).abusy = s.abusy := by
  unfold readFilled; split; exacts [(acquire_abusy _ _).trans (modHart_abusy _ _ _), rfl]
@[simp] theorem readFilled_aerr (s : State) (rs : List RegId) : (readFilled s rs).aerr = s.aerr := by
  unfold readFilled; split; exacts [(acquire_aerr _ _).trans (modHart_aerr _ _ _), rfl]
@[simp] theorem readFilled_devid (s : State) (rs : List RegId) : (readFilled s rs).devid = s.devid := by
  unfold readFilled; split; exacts [(acquire_devid _ _).trans (modHart_devid _ _ _), rfl]
@[simp] theorem readFilled_tvec (s : State) (rs : List RegId) : (readFilled s rs).tvec = s.tvec := by
  unfold readFilled; split; exacts [(acquire_tvec _ _).trans (modHart_tvec _ _ _), rfl]
@[simp] theorem readFilled_nonce (s : State) (rs : List RegId) : (readFilled s rs).nonce = s.nonce := by
  unfold readFilled; split; exacts [(acquire_nonce _ _).trans (modHart_nonce _ _ _), rfl]
@[simp] theorem readFilled_msixTab (s : State) (rs : List RegId) : (readFilled s rs).msixTab = s.msixTab := by
  unfold readFilled; split; exacts [(acquire_msixTab _ _).trans (modHart_msixTab _ _ _), rfl]
@[simp] theorem readFilled_attest (s : State) (rs : List RegId) : (readFilled s rs).attest = s.attest := by
  unfold readFilled; split; exacts [(acquire_attest _ _).trans (modHart_attest _ _ _), rfl]
@[simp] theorem readFilled_report (s : State) (rs : List RegId) : (readFilled s rs).report = s.report := by
  unfold readFilled; split; exacts [(acquire_report _ _).trans (modHart_report _ _ _), rfl]
@[simp] theorem readFilled_idKey (s : State) (rs : List RegId) : (readFilled s rs).idKey = s.idKey := by
  unfold readFilled; split; exacts [(acquire_idKey _ _).trans (modHart_idKey _ _ _), rfl]
@[simp] theorem readFilled_idPub (s : State) (rs : List RegId) : (readFilled s rs).idPub = s.idPub := by
  unfold readFilled; split; exacts [(acquire_idPub _ _).trans (modHart_idPub _ _ _), rfl]
@[simp] theorem readFilled_images (s : State) (rs : List RegId) : (readFilled s rs).images = s.images := by
  unfold readFilled; split; exacts [(acquire_images _ _).trans (modHart_images _ _ _), rfl]
@[simp] theorem readFilled_bootKey (s : State) (rs : List RegId) : (readFilled s rs).bootKey = s.bootKey := by
  unfold readFilled; split; exacts [(acquire_bootKey _ _).trans (modHart_bootKey _ _ _), rfl]
@[simp] theorem readFilled_keyFuse (s : State) (rs : List RegId) : (readFilled s rs).keyFuse = s.keyFuse := by
  unfold readFilled; split; exacts [(acquire_keyFuse _ _).trans (modHart_keyFuse _ _ _), rfl]
@[simp] theorem readFilled_rollback (s : State) (rs : List RegId) : (readFilled s rs).rollback = s.rollback := by
  unfold readFilled; split; exacts [(acquire_rollback _ _).trans (modHart_rollback _ _ _), rfl]
@[simp] theorem readFilled_stacksOk (s : State) (rs : List RegId) : (readFilled s rs).stacksOk = s.stacksOk := by
  unfold readFilled; split; exacts [(acquire_stacksOk _ _).trans (modHart_stacksOk _ _ _), rfl]
@[simp] theorem readFilled_chanDown (s : State) (rs : List RegId) : (readFilled s rs).chanDown = s.chanDown := by
  unfold readFilled; split; exacts [(acquire_chanDown _ _).trans (modHart_chanDown _ _ _), rfl]
@[simp] theorem readFilled_selfRefresh (s : State) (rs : List RegId) : (readFilled s rs).selfRefresh = s.selfRefresh := by
  unfold readFilled; split; exacts [(acquire_selfRefresh _ _).trans (modHart_selfRefresh _ _ _), rfl]
@[simp] theorem readFilled_lastReq (s : State) (rs : List RegId) : (readFilled s rs).lastReq = s.lastReq := by
  unfold readFilled; split; exacts [(acquire_lastReq _ _).trans (modHart_lastReq _ _ _), rfl]
@[simp] theorem complete_cur (s : State) (h : HartId) (p : Word) : (complete s h p).cur = s.cur := modHart_cur s h _
@[simp] theorem complete_iword (s : State) (h : HartId) (p : Word) : (complete s h p).iword = s.iword := modHart_iword s h _
@[simp] theorem complete_reads (s : State) (h : HartId) (p : Word) : (complete s h p).reads = s.reads := modHart_reads s h _
@[simp] theorem complete_agent (s : State) (h : HartId) (p : Word) : (complete s h p).agent = s.agent := modHart_agent s h _
@[simp] theorem complete_ev (s : State) (h : HartId) (p : Word) : (complete s h p).ev = s.ev := modHart_ev s h _
@[simp] theorem complete_inputs (s : State) (h : HartId) (p : Word) : (complete s h p).inputs = s.inputs := modHart_inputs s h _
@[simp] theorem complete_free (s : State) (h : HartId) (p : Word) : (complete s h p).free = s.free := modHart_free s h _
@[simp] theorem complete_ids (s : State) (h : HartId) (p : Word) : (complete s h p).ids = s.ids := modHart_ids s h _
@[simp] theorem complete_bounds (s : State) (h : HartId) (p : Word) : (complete s h p).bounds = s.bounds := modHart_bounds s h _
@[simp] theorem complete_cycle (s : State) (h : HartId) (p : Word) : (complete s h p).cycle = s.cycle := modHart_cycle s h _
@[simp] theorem complete_dies (s : State) (h : HartId) (p : Word) : (complete s h p).dies = s.dies := modHart_dies s h _
@[simp] theorem complete_mem (s : State) (h : HartId) (p : Word) : (complete s h p).mem = s.mem := modHart_mem s h _
@[simp] theorem complete_gEmpty (s : State) (h : HartId) (p : Word) : (complete s h p).gEmpty = s.gEmpty := modHart_gEmpty s h _
@[simp] theorem complete_gPoison (s : State) (h : HartId) (p : Word) : (complete s h p).gPoison = s.gPoison := modHart_gPoison s h _
@[simp] theorem complete_gLatent (s : State) (h : HartId) (p : Word) : (complete s h p).gLatent = s.gLatent := modHart_gLatent s h _
@[simp] theorem complete_gfe (s : State) (h : HartId) (p : Word) : (complete s h p).gfe = s.gfe := modHart_gfe s h _
@[simp] theorem complete_gqWait (s : State) (h : HartId) (p : Word) : (complete s h p).gqWait = s.gqWait := modHart_gqWait s h _
@[simp] theorem complete_ctxs (s : State) (h : HartId) (p : Word) : (complete s h p).ctxs = s.ctxs := modHart_ctxs s h _
@[simp] theorem complete_parts (s : State) (h : HartId) (p : Word) : (complete s h p).parts = s.parts := modHart_parts s h _
@[simp] theorem complete_launches (s : State) (h : HartId) (p : Word) : (complete s h p).launches = s.launches := modHart_launches s h _
@[simp] theorem complete_groups (s : State) (h : HartId) (p : Word) : (complete s h p).groups = s.groups := modHart_groups s h _
@[simp] theorem complete_qcopies (s : State) (h : HartId) (p : Word) : (complete s h p).qcopies = s.qcopies := modHart_qcopies s h _
@[simp] theorem complete_msgs (s : State) (h : HartId) (p : Word) : (complete s h p).msgs = s.msgs := modHart_msgs s h _
@[simp] theorem complete_rewards (s : State) (h : HartId) (p : Word) : (complete s h p).rewards = s.rewards := modHart_rewards s h _
@[simp] theorem complete_reports (s : State) (h : HartId) (p : Word) : (complete s h p).reports = s.reports := modHart_reports s h _
@[simp] theorem complete_collGroups (s : State) (h : HartId) (p : Word) : (complete s h p).collGroups = s.collGroups := modHart_collGroups s h _
@[simp] theorem complete_colls (s : State) (h : HartId) (p : Word) : (complete s h p).colls = s.colls := modHart_colls s h _
@[simp] theorem complete_collIn (s : State) (h : HartId) (p : Word) : (complete s h p).collIn = s.collIn := modHart_collIn s h _
@[simp] theorem complete_links (s : State) (h : HartId) (p : Word) : (complete s h p).links = s.links := modHart_links s h _
@[simp] theorem complete_ports (s : State) (h : HartId) (p : Word) : (complete s h p).ports = s.ports := modHart_ports s h _
@[simp] theorem complete_msix (s : State) (h : HartId) (p : Word) : (complete s h p).msix = s.msix := modHart_msix s h _
@[simp] theorem complete_noise (s : State) (h : HartId) (p : Word) : (complete s h p).noise = s.noise := modHart_noise s h _
@[simp] theorem complete_sentFlits (s : State) (h : HartId) (p : Word) : (complete s h p).sentFlits = s.sentFlits := modHart_sentFlits s h _
@[simp] theorem complete_hostHeld (s : State) (h : HartId) (p : Word) : (complete s h p).hostHeld = s.hostHeld := modHart_hostHeld s h _
@[simp] theorem complete_hostGot (s : State) (h : HartId) (p : Word) : (complete s h p).hostGot = s.hostGot := modHart_hostGot s h _
@[simp] theorem complete_armPend (s : State) (h : HartId) (p : Word) : (complete s h p).armPend = s.armPend := modHart_armPend s h _
@[simp] theorem complete_armSeen (s : State) (h : HartId) (p : Word) : (complete s h p).armSeen = s.armSeen := modHart_armSeen s h _
@[simp] theorem complete_boot (s : State) (h : HartId) (p : Word) : (complete s h p).boot = s.boot := modHart_boot s h _
@[simp] theorem complete_fcode (s : State) (h : HartId) (p : Word) : (complete s h p).fcode = s.fcode := modHart_fcode s h _
@[simp] theorem complete_trip (s : State) (h : HartId) (p : Word) : (complete s h p).trip = s.trip := modHart_trip s h _
@[simp] theorem complete_abusy (s : State) (h : HartId) (p : Word) : (complete s h p).abusy = s.abusy := modHart_abusy s h _
@[simp] theorem complete_aerr (s : State) (h : HartId) (p : Word) : (complete s h p).aerr = s.aerr := modHart_aerr s h _
@[simp] theorem complete_devid (s : State) (h : HartId) (p : Word) : (complete s h p).devid = s.devid := modHart_devid s h _
@[simp] theorem complete_tvec (s : State) (h : HartId) (p : Word) : (complete s h p).tvec = s.tvec := modHart_tvec s h _
@[simp] theorem complete_nonce (s : State) (h : HartId) (p : Word) : (complete s h p).nonce = s.nonce := modHart_nonce s h _
@[simp] theorem complete_msixTab (s : State) (h : HartId) (p : Word) : (complete s h p).msixTab = s.msixTab := modHart_msixTab s h _
@[simp] theorem complete_attest (s : State) (h : HartId) (p : Word) : (complete s h p).attest = s.attest := modHart_attest s h _
@[simp] theorem complete_report (s : State) (h : HartId) (p : Word) : (complete s h p).report = s.report := modHart_report s h _
@[simp] theorem complete_idKey (s : State) (h : HartId) (p : Word) : (complete s h p).idKey = s.idKey := modHart_idKey s h _
@[simp] theorem complete_idPub (s : State) (h : HartId) (p : Word) : (complete s h p).idPub = s.idPub := modHart_idPub s h _
@[simp] theorem complete_images (s : State) (h : HartId) (p : Word) : (complete s h p).images = s.images := modHart_images s h _
@[simp] theorem complete_bootKey (s : State) (h : HartId) (p : Word) : (complete s h p).bootKey = s.bootKey := modHart_bootKey s h _
@[simp] theorem complete_keyFuse (s : State) (h : HartId) (p : Word) : (complete s h p).keyFuse = s.keyFuse := modHart_keyFuse s h _
@[simp] theorem complete_rollback (s : State) (h : HartId) (p : Word) : (complete s h p).rollback = s.rollback := modHart_rollback s h _
@[simp] theorem complete_stacksOk (s : State) (h : HartId) (p : Word) : (complete s h p).stacksOk = s.stacksOk := modHart_stacksOk s h _
@[simp] theorem complete_chanDown (s : State) (h : HartId) (p : Word) : (complete s h p).chanDown = s.chanDown := modHart_chanDown s h _
@[simp] theorem complete_selfRefresh (s : State) (h : HartId) (p : Word) : (complete s h p).selfRefresh = s.selfRefresh := modHart_selfRefresh s h _
@[simp] theorem complete_lastReq (s : State) (h : HartId) (p : Word) : (complete s h p).lastReq = s.lastReq := modHart_lastReq s h _
@[simp] theorem parkHart_cur (s : State) (h : HartId) (r : Reason) : (parkHart s h r).cur = s.cur := modHart_cur s h _
@[simp] theorem parkHart_iword (s : State) (h : HartId) (r : Reason) : (parkHart s h r).iword = s.iword := modHart_iword s h _
@[simp] theorem parkHart_reads (s : State) (h : HartId) (r : Reason) : (parkHart s h r).reads = s.reads := modHart_reads s h _
@[simp] theorem parkHart_agent (s : State) (h : HartId) (r : Reason) : (parkHart s h r).agent = s.agent := modHart_agent s h _
@[simp] theorem parkHart_ev (s : State) (h : HartId) (r : Reason) : (parkHart s h r).ev = s.ev := modHart_ev s h _
@[simp] theorem parkHart_inputs (s : State) (h : HartId) (r : Reason) : (parkHart s h r).inputs = s.inputs := modHart_inputs s h _
@[simp] theorem parkHart_free (s : State) (h : HartId) (r : Reason) : (parkHart s h r).free = s.free := modHart_free s h _
@[simp] theorem parkHart_ids (s : State) (h : HartId) (r : Reason) : (parkHart s h r).ids = s.ids := modHart_ids s h _
@[simp] theorem parkHart_bounds (s : State) (h : HartId) (r : Reason) : (parkHart s h r).bounds = s.bounds := modHart_bounds s h _
@[simp] theorem parkHart_cycle (s : State) (h : HartId) (r : Reason) : (parkHart s h r).cycle = s.cycle := modHart_cycle s h _
@[simp] theorem parkHart_dies (s : State) (h : HartId) (r : Reason) : (parkHart s h r).dies = s.dies := modHart_dies s h _
@[simp] theorem parkHart_mem (s : State) (h : HartId) (r : Reason) : (parkHart s h r).mem = s.mem := modHart_mem s h _
@[simp] theorem parkHart_gEmpty (s : State) (h : HartId) (r : Reason) : (parkHart s h r).gEmpty = s.gEmpty := modHart_gEmpty s h _
@[simp] theorem parkHart_gPoison (s : State) (h : HartId) (r : Reason) : (parkHart s h r).gPoison = s.gPoison := modHart_gPoison s h _
@[simp] theorem parkHart_gLatent (s : State) (h : HartId) (r : Reason) : (parkHart s h r).gLatent = s.gLatent := modHart_gLatent s h _
@[simp] theorem parkHart_gfe (s : State) (h : HartId) (r : Reason) : (parkHart s h r).gfe = s.gfe := modHart_gfe s h _
@[simp] theorem parkHart_gqWait (s : State) (h : HartId) (r : Reason) : (parkHart s h r).gqWait = s.gqWait := modHart_gqWait s h _
@[simp] theorem parkHart_ctxs (s : State) (h : HartId) (r : Reason) : (parkHart s h r).ctxs = s.ctxs := modHart_ctxs s h _
@[simp] theorem parkHart_parts (s : State) (h : HartId) (r : Reason) : (parkHart s h r).parts = s.parts := modHart_parts s h _
@[simp] theorem parkHart_launches (s : State) (h : HartId) (r : Reason) : (parkHart s h r).launches = s.launches := modHart_launches s h _
@[simp] theorem parkHart_groups (s : State) (h : HartId) (r : Reason) : (parkHart s h r).groups = s.groups := modHart_groups s h _
@[simp] theorem parkHart_qcopies (s : State) (h : HartId) (r : Reason) : (parkHart s h r).qcopies = s.qcopies := modHart_qcopies s h _
@[simp] theorem parkHart_msgs (s : State) (h : HartId) (r : Reason) : (parkHart s h r).msgs = s.msgs := modHart_msgs s h _
@[simp] theorem parkHart_rewards (s : State) (h : HartId) (r : Reason) : (parkHart s h r).rewards = s.rewards := modHart_rewards s h _
@[simp] theorem parkHart_reports (s : State) (h : HartId) (r : Reason) : (parkHart s h r).reports = s.reports := modHart_reports s h _
@[simp] theorem parkHart_collGroups (s : State) (h : HartId) (r : Reason) : (parkHart s h r).collGroups = s.collGroups := modHart_collGroups s h _
@[simp] theorem parkHart_colls (s : State) (h : HartId) (r : Reason) : (parkHart s h r).colls = s.colls := modHart_colls s h _
@[simp] theorem parkHart_collIn (s : State) (h : HartId) (r : Reason) : (parkHart s h r).collIn = s.collIn := modHart_collIn s h _
@[simp] theorem parkHart_links (s : State) (h : HartId) (r : Reason) : (parkHart s h r).links = s.links := modHart_links s h _
@[simp] theorem parkHart_ports (s : State) (h : HartId) (r : Reason) : (parkHart s h r).ports = s.ports := modHart_ports s h _
@[simp] theorem parkHart_msix (s : State) (h : HartId) (r : Reason) : (parkHart s h r).msix = s.msix := modHart_msix s h _
@[simp] theorem parkHart_noise (s : State) (h : HartId) (r : Reason) : (parkHart s h r).noise = s.noise := modHart_noise s h _
@[simp] theorem parkHart_sentFlits (s : State) (h : HartId) (r : Reason) : (parkHart s h r).sentFlits = s.sentFlits := modHart_sentFlits s h _
@[simp] theorem parkHart_hostHeld (s : State) (h : HartId) (r : Reason) : (parkHart s h r).hostHeld = s.hostHeld := modHart_hostHeld s h _
@[simp] theorem parkHart_hostGot (s : State) (h : HartId) (r : Reason) : (parkHart s h r).hostGot = s.hostGot := modHart_hostGot s h _
@[simp] theorem parkHart_armPend (s : State) (h : HartId) (r : Reason) : (parkHart s h r).armPend = s.armPend := modHart_armPend s h _
@[simp] theorem parkHart_armSeen (s : State) (h : HartId) (r : Reason) : (parkHart s h r).armSeen = s.armSeen := modHart_armSeen s h _
@[simp] theorem parkHart_boot (s : State) (h : HartId) (r : Reason) : (parkHart s h r).boot = s.boot := modHart_boot s h _
@[simp] theorem parkHart_fcode (s : State) (h : HartId) (r : Reason) : (parkHart s h r).fcode = s.fcode := modHart_fcode s h _
@[simp] theorem parkHart_trip (s : State) (h : HartId) (r : Reason) : (parkHart s h r).trip = s.trip := modHart_trip s h _
@[simp] theorem parkHart_abusy (s : State) (h : HartId) (r : Reason) : (parkHart s h r).abusy = s.abusy := modHart_abusy s h _
@[simp] theorem parkHart_aerr (s : State) (h : HartId) (r : Reason) : (parkHart s h r).aerr = s.aerr := modHart_aerr s h _
@[simp] theorem parkHart_devid (s : State) (h : HartId) (r : Reason) : (parkHart s h r).devid = s.devid := modHart_devid s h _
@[simp] theorem parkHart_tvec (s : State) (h : HartId) (r : Reason) : (parkHart s h r).tvec = s.tvec := modHart_tvec s h _
@[simp] theorem parkHart_nonce (s : State) (h : HartId) (r : Reason) : (parkHart s h r).nonce = s.nonce := modHart_nonce s h _
@[simp] theorem parkHart_msixTab (s : State) (h : HartId) (r : Reason) : (parkHart s h r).msixTab = s.msixTab := modHart_msixTab s h _
@[simp] theorem parkHart_attest (s : State) (h : HartId) (r : Reason) : (parkHart s h r).attest = s.attest := modHart_attest s h _
@[simp] theorem parkHart_report (s : State) (h : HartId) (r : Reason) : (parkHart s h r).report = s.report := modHart_report s h _
@[simp] theorem parkHart_idKey (s : State) (h : HartId) (r : Reason) : (parkHart s h r).idKey = s.idKey := modHart_idKey s h _
@[simp] theorem parkHart_idPub (s : State) (h : HartId) (r : Reason) : (parkHart s h r).idPub = s.idPub := modHart_idPub s h _
@[simp] theorem parkHart_images (s : State) (h : HartId) (r : Reason) : (parkHart s h r).images = s.images := modHart_images s h _
@[simp] theorem parkHart_bootKey (s : State) (h : HartId) (r : Reason) : (parkHart s h r).bootKey = s.bootKey := modHart_bootKey s h _
@[simp] theorem parkHart_keyFuse (s : State) (h : HartId) (r : Reason) : (parkHart s h r).keyFuse = s.keyFuse := modHart_keyFuse s h _
@[simp] theorem parkHart_rollback (s : State) (h : HartId) (r : Reason) : (parkHart s h r).rollback = s.rollback := modHart_rollback s h _
@[simp] theorem parkHart_stacksOk (s : State) (h : HartId) (r : Reason) : (parkHart s h r).stacksOk = s.stacksOk := modHart_stacksOk s h _
@[simp] theorem parkHart_chanDown (s : State) (h : HartId) (r : Reason) : (parkHart s h r).chanDown = s.chanDown := modHart_chanDown s h _
@[simp] theorem parkHart_selfRefresh (s : State) (h : HartId) (r : Reason) : (parkHart s h r).selfRefresh = s.selfRefresh := modHart_selfRefresh s h _
@[simp] theorem parkHart_lastReq (s : State) (h : HartId) (r : Reason) : (parkHart s h r).lastReq = s.lastReq := modHart_lastReq s h _

/-! ## An acquire -/

/-- An acquire changes no hart. -/
@[simp] theorem getHart_acquire (s : State) (h k : HartId) : getHart (acquire s h) k = getHart s k := by
  cases h with
  | mender m i => rfl
  | tile t i =>
    cases k with
    | mender n j => rfl
    | tile u j =>
      by_cases e : u = t
      · subst e; simp [acquire, modTile, getHart]
      · simp [acquire, modTile, getHart, getTile_setTile_other _ _ e]

/-- An acquire empties the G read cache of the hart's tile (R91) and changes nothing else of any tile. -/
theorem getTile_acquire (s : State) (t u : Nat) (i : Fin 10) :
    getTile (acquire s (.tile t i)) u = if u = t then { getTile s t with gcache := [] } else getTile s u := by
  by_cases e : u = t
  · subst e; simp [acquire, modTile]
  · simp [acquire, modTile, getTile_setTile_other _ _ e, e]

/-! ## A first read of a filled register -/

/-- The hart that reads: only the note of its filled registers changes (R112). -/
theorem me_readFilled (s : State) (rs : List RegId) :
    me (readFilled s rs) = { me s with filled := (me s).filled.filter fun r => !rs.contains r } := by
  unfold readFilled
  split
  · simp only [me, acquire_cur, modMe_eq, modHart_cur, getHart_acquire, getHart_modHart_same]
  · rename_i h
    have : (me s).filled.filter (fun r => !rs.contains r) = (me s).filled := by
      rw [List.filter_eq_self]; intro r hr
      have := fun hc => h (List.any_eq_true.mpr ⟨r, hr, hc⟩)
      simpa using this
    rw [this]

@[simp] theorem getHart_readFilled (s : State) (rs : List RegId) :
    getHart (readFilled s rs) s.cur = { getHart s s.cur with filled := (getHart s s.cur).filled.filter fun r => !rs.contains r } := by
  have := me_readFilled s rs; simpa only [me, readFilled_cur] using this

/-- No source was filled: nothing happens. -/
theorem readFilled_none {s : State} {rs : List RegId} (h : (me s).filled.any (rs.contains ·) = false) :
    readFilled s rs = s := by
  unfold readFilled; rw [if_neg (by rw [h]; exact Bool.false_ne_true)]

@[simp] theorem me_readFilled_status (s : State) (rs : List RegId) : (me (readFilled s rs)).status = (me s).status := by rw [me_readFilled]
@[simp] theorem me_readFilled_pc (s : State) (rs : List RegId) : (me (readFilled s rs)).pc = (me s).pc := by rw [me_readFilled]
@[simp] theorem me_readFilled_g (s : State) (rs : List RegId) : (me (readFilled s rs)).g = (me s).g := by rw [me_readFilled]
@[simp] theorem me_readFilled_e (s : State) (rs : List RegId) : (me (readFilled s rs)).e = (me s).e := by rw [me_readFilled]
@[simp] theorem me_readFilled_v (s : State) (rs : List RegId) : (me (readFilled s rs)).v = (me s).v := by rw [me_readFilled]
@[simp] theorem me_readFilled_k (s : State) (rs : List RegId) : (me (readFilled s rs)).k = (me s).k := by rw [me_readFilled]
@[simp] theorem me_readFilled_gF (s : State) (rs : List RegId) : (me (readFilled s rs)).gF = (me s).gF := by rw [me_readFilled]
@[simp] theorem me_readFilled_eF (s : State) (rs : List RegId) : (me (readFilled s rs)).eF = (me s).eF := by rw [me_readFilled]
@[simp] theorem me_readFilled_vF (s : State) (rs : List RegId) : (me (readFilled s rs)).vF = (me s).vF := by rw [me_readFilled]
@[simp] theorem me_readFilled_kF (s : State) (rs : List RegId) : (me (readFilled s rs)).kF = (me s).kF := by rw [me_readFilled]
@[simp] theorem me_readFilled_fflags (s : State) (rs : List RegId) : (me (readFilled s rs)).fflags = (me s).fflags := by rw [me_readFilled]
@[simp] theorem me_readFilled_frm (s : State) (rs : List RegId) : (me (readFilled s rs)).frm = (me s).frm := by rw [me_readFilled]
@[simp] theorem me_readFilled_pre (s : State) (rs : List RegId) : (me (readFilled s rs)).pre = (me s).pre := by rw [me_readFilled]
@[simp] theorem me_readFilled_mtag (s : State) (rs : List RegId) : (me (readFilled s rs)).mtag = (me s).mtag := by rw [me_readFilled]
@[simp] theorem me_readFilled_wlx (s : State) (rs : List RegId) : (me (readFilled s rs)).wlx = (me s).wlx := by rw [me_readFilled]
@[simp] theorem me_readFilled_cpyq (s : State) (rs : List RegId) : (me (readFilled s rs)).cpyq = (me s).cpyq := by rw [me_readFilled]
@[simp] theorem me_readFilled_path (s : State) (rs : List RegId) : (me (readFilled s rs)).path = (me s).path := by rw [me_readFilled]
@[simp] theorem me_readFilled_wlim (s : State) (rs : List RegId) : (me (readFilled s rs)).wlim = (me s).wlim := by rw [me_readFilled]
@[simp] theorem me_readFilled_tcause (s : State) (rs : List RegId) : (me (readFilled s rs)).tcause = (me s).tcause := by rw [me_readFilled]
@[simp] theorem me_readFilled_tval (s : State) (rs : List RegId) : (me (readFilled s rs)).tval = (me s).tval := by rw [me_readFilled]
@[simp] theorem me_readFilled_tepc (s : State) (rs : List RegId) : (me (readFilled s rs)).tepc = (me s).tepc := by rw [me_readFilled]
@[simp] theorem me_readFilled_tvec (s : State) (rs : List RegId) : (me (readFilled s rs)).tvec = (me s).tvec := by rw [me_readFilled]
@[simp] theorem me_readFilled_tscratch (s : State) (rs : List RegId) : (me (readFilled s rs)).tscratch = (me s).tscratch := by rw [me_readFilled]
@[simp] theorem me_readFilled_inh (s : State) (rs : List RegId) : (me (readFilled s rs)).inh = (me s).inh := by rw [me_readFilled]
@[simp] theorem me_readFilled_sup (s : State) (rs : List RegId) : (me (readFilled s rs)).sup = (me s).sup := by rw [me_readFilled]
@[simp] theorem me_readFilled_ss (s : State) (rs : List RegId) : (me (readFilled s rs)).ss = (me s).ss := by rw [me_readFilled]
@[simp] theorem me_readFilled_out (s : State) (rs : List RegId) : (me (readFilled s rs)).out = (me s).out := by rw [me_readFilled]
@[simp] theorem me_readFilled_stack (s : State) (rs : List RegId) : (me (readFilled s rs)).stack = (me s).stack := by rw [me_readFilled]
@[simp] theorem me_readFilled_fork (s : State) (rs : List RegId) : (me (readFilled s rs)).fork = (me s).fork := by rw [me_readFilled]
@[simp] theorem me_readFilled_forkFaults (s : State) (rs : List RegId) : (me (readFilled s rs)).forkFaults = (me s).forkFaults := by rw [me_readFilled]
@[simp] theorem me_readFilled_forkedBy (s : State) (rs : List RegId) : (me (readFilled s rs)).forkedBy = (me s).forkedBy := by rw [me_readFilled]
@[simp] theorem me_readFilled_bar (s : State) (rs : List RegId) : (me (readFilled s rs)).bar = (me s).bar := by rw [me_readFilled]
@[simp] theorem me_readFilled_why (s : State) (rs : List RegId) : (me (readFilled s rs)).why = (me s).why := by rw [me_readFilled]
@[simp] theorem me_readFilled_since (s : State) (rs : List RegId) : (me (readFilled s rs)).since = (me s).since := by rw [me_readFilled]
@[simp] theorem me_readFilled_issued (s : State) (rs : List RegId) : (me (readFilled s rs)).issued = (me s).issued := by rw [me_readFilled]
@[simp] theorem me_readFilled_yield (s : State) (rs : List RegId) : (me (readFilled s rs)).yield = (me s).yield := by rw [me_readFilled]
@[simp] theorem me_readFilled_refused (s : State) (rs : List RegId) : (me (readFilled s rs)).refused = (me s).refused := by rw [me_readFilled]
@[simp] theorem me_readFilled_flaws (s : State) (rs : List RegId) : (me (readFilled s rs)).flaws = (me s).flaws := by rw [me_readFilled]

@[simp] theorem rg_readFilled (s : State) (rs : List RegId) (r : GReg) : rg (me (readFilled s rs)) r = rg (me s) r := by
  simp [rg]
@[simp] theorem re_readFilled (s : State) (rs : List RegId) (r : EReg) : re (me (readFilled s rs)) r = re (me s) r := by
  simp [re]
@[simp] theorem rv_readFilled (s : State) (rs : List RegId) (r : VReg) : rv (me (readFilled s rs)) r = rv (me s) r := by
  simp [rv]
@[simp] theorem rk_readFilled (s : State) (rs : List RegId) (r : KReg) : rk (me (readFilled s rs)) r = rk (me s) r := by
  simp [rk]
@[simp] theorem hazard_readFilled (s : State) (rs : List RegId) (r : RegId) :
    hazard (me (readFilled s rs)) r = hazard (me s) r := by
  simp [hazard]
@[simp] theorem isSup_readFilled (s : State) (rs : List RegId) : isSup (readFilled s rs) = isSup s := by simp [isSup]
@[simp] theorem lookahead_readFilled (s : State) (rs : List RegId) (la : Nat) :
    lookahead (readFilled s rs) la = lookahead s la := by
  simp [lookahead]
@[simp] theorem myTile_readFilled (s : State) (rs : List RegId) : myTile (readFilled s rs) = myTile s := by simp [myTile]

@[simp] theorem getTile_acquire_l (s : State) (h : HartId) (u : Nat) :
    (getTile (acquire s h) u).l = (getTile s u).l := by
  cases h with
  | tile t i => rw [getTile_acquire]; split <;> simp_all
  | mender m i => rfl
@[simp] theorem getTile_readFilled_l (s : State) (rs : List RegId) (u : Nat) :
    (getTile (readFilled s rs) u).l = (getTile s u).l := by unfold readFilled; split <;> simp
@[simp] theorem getTile_acquire_w (s : State) (h : HartId) (u : Nat) :
    (getTile (acquire s h) u).w = (getTile s u).w := by
  cases h with
  | tile t i => rw [getTile_acquire]; split <;> simp_all
  | mender m i => rfl
@[simp] theorem getTile_readFilled_w (s : State) (rs : List RegId) (u : Nat) :
    (getTile (readFilled s rs) u).w = (getTile s u).w := by unfold readFilled; split <;> simp
@[simp] theorem getTile_acquire_a (s : State) (h : HartId) (u : Nat) :
    (getTile (acquire s h) u).a = (getTile s u).a := by
  cases h with
  | tile t i => rw [getTile_acquire]; split <;> simp_all
  | mender m i => rfl
@[simp] theorem getTile_readFilled_a (s : State) (rs : List RegId) (u : Nat) :
    (getTile (readFilled s rs) u).a = (getTile s u).a := by unfold readFilled; split <;> simp
@[simp] theorem getTile_acquire_c (s : State) (h : HartId) (u : Nat) :
    (getTile (acquire s h) u).c = (getTile s u).c := by
  cases h with
  | tile t i => rw [getTile_acquire]; split <;> simp_all
  | mender m i => rfl
@[simp] theorem getTile_readFilled_c (s : State) (rs : List RegId) (u : Nat) :
    (getTile (readFilled s rs) u).c = (getTile s u).c := by unfold readFilled; split <;> simp
@[simp] theorem getTile_acquire_lEmpty (s : State) (h : HartId) (u : Nat) :
    (getTile (acquire s h) u).lEmpty = (getTile s u).lEmpty := by
  cases h with
  | tile t i => rw [getTile_acquire]; split <;> simp_all
  | mender m i => rfl
@[simp] theorem getTile_readFilled_lEmpty (s : State) (rs : List RegId) (u : Nat) :
    (getTile (readFilled s rs) u).lEmpty = (getTile s u).lEmpty := by unfold readFilled; split <;> simp
@[simp] theorem getTile_acquire_poison (s : State) (h : HartId) (u : Nat) :
    (getTile (acquire s h) u).poison = (getTile s u).poison := by
  cases h with
  | tile t i => rw [getTile_acquire]; split <;> simp_all
  | mender m i => rfl
@[simp] theorem getTile_readFilled_poison (s : State) (rs : List RegId) (u : Nat) :
    (getTile (readFilled s rs) u).poison = (getTile s u).poison := by unfold readFilled; split <;> simp
@[simp] theorem getTile_acquire_flaws (s : State) (h : HartId) (u : Nat) :
    (getTile (acquire s h) u).flaws = (getTile s u).flaws := by
  cases h with
  | tile t i => rw [getTile_acquire]; split <;> simp_all
  | mender m i => rfl
@[simp] theorem getTile_readFilled_flaws (s : State) (rs : List RegId) (u : Nat) :
    (getTile (readFilled s rs) u).flaws = (getTile s u).flaws := by unfold readFilled; split <;> simp
@[simp] theorem getTile_acquire_csrFlaws (s : State) (h : HartId) (u : Nat) :
    (getTile (acquire s h) u).csrFlaws = (getTile s u).csrFlaws := by
  cases h with
  | tile t i => rw [getTile_acquire]; split <;> simp_all
  | mender m i => rfl
@[simp] theorem getTile_readFilled_csrFlaws (s : State) (rs : List RegId) (u : Nat) :
    (getTile (readFilled s rs) u).csrFlaws = (getTile s u).csrFlaws := by unfold readFilled; split <;> simp
@[simp] theorem getTile_acquire_cF (s : State) (h : HartId) (u : Nat) :
    (getTile (acquire s h) u).cF = (getTile s u).cF := by
  cases h with
  | tile t i => rw [getTile_acquire]; split <;> simp_all
  | mender m i => rfl
@[simp] theorem getTile_readFilled_cF (s : State) (rs : List RegId) (u : Nat) :
    (getTile (readFilled s rs) u).cF = (getTile s u).cF := by unfold readFilled; split <;> simp
@[simp] theorem getTile_acquire_icache (s : State) (h : HartId) (u : Nat) :
    (getTile (acquire s h) u).icache = (getTile s u).icache := by
  cases h with
  | tile t i => rw [getTile_acquire]; split <;> simp_all
  | mender m i => rfl
@[simp] theorem getTile_readFilled_icache (s : State) (rs : List RegId) (u : Nat) :
    (getTile (readFilled s rs) u).icache = (getTile s u).icache := by unfold readFilled; split <;> simp
@[simp] theorem getTile_acquire_winN (s : State) (h : HartId) (u : Nat) :
    (getTile (acquire s h) u).winN = (getTile s u).winN := by
  cases h with
  | tile t i => rw [getTile_acquire]; split <;> simp_all
  | mender m i => rfl
@[simp] theorem getTile_readFilled_winN (s : State) (rs : List RegId) (u : Nat) :
    (getTile (readFilled s rs) u).winN = (getTile s u).winN := by unfold readFilled; split <;> simp
@[simp] theorem getTile_acquire_winImg (s : State) (h : HartId) (u : Nat) :
    (getTile (acquire s h) u).winImg = (getTile s u).winImg := by
  cases h with
  | tile t i => rw [getTile_acquire]; split <;> simp_all
  | mender m i => rfl
@[simp] theorem getTile_readFilled_winImg (s : State) (rs : List RegId) (u : Nat) :
    (getTile (readFilled s rs) u).winImg = (getTile s u).winImg := by unfold readFilled; split <;> simp
@[simp] theorem getTile_acquire_hist (s : State) (h : HartId) (u : Nat) :
    (getTile (acquire s h) u).hist = (getTile s u).hist := by
  cases h with
  | tile t i => rw [getTile_acquire]; split <;> simp_all
  | mender m i => rfl
@[simp] theorem getTile_readFilled_hist (s : State) (rs : List RegId) (u : Nat) :
    (getTile (readFilled s rs) u).hist = (getTile s u).hist := by unfold readFilled; split <;> simp
@[simp] theorem getTile_acquire_pub (s : State) (h : HartId) (u : Nat) :
    (getTile (acquire s h) u).pub = (getTile s u).pub := by
  cases h with
  | tile t i => rw [getTile_acquire]; split <;> simp_all
  | mender m i => rfl
@[simp] theorem getTile_readFilled_pub (s : State) (rs : List RegId) (u : Nat) :
    (getTile (readFilled s rs) u).pub = (getTile s u).pub := by unfold readFilled; split <;> simp
@[simp] theorem getTile_acquire_step (s : State) (h : HartId) (u : Nat) :
    (getTile (acquire s h) u).step = (getTile s u).step := by
  cases h with
  | tile t i => rw [getTile_acquire]; split <;> simp_all
  | mender m i => rfl
@[simp] theorem getTile_readFilled_step (s : State) (rs : List RegId) (u : Nat) :
    (getTile (readFilled s rs) u).step = (getTile s u).step := by unfold readFilled; split <;> simp
@[simp] theorem getTile_acquire_wr (s : State) (h : HartId) (u : Nat) :
    (getTile (acquire s h) u).wr = (getTile s u).wr := by
  cases h with
  | tile t i => rw [getTile_acquire]; split <;> simp_all
  | mender m i => rfl
@[simp] theorem getTile_readFilled_wr (s : State) (rs : List RegId) (u : Nat) :
    (getTile (readFilled s rs) u).wr = (getTile s u).wr := by unfold readFilled; split <;> simp
@[simp] theorem getTile_acquire_idle (s : State) (h : HartId) (u : Nat) :
    (getTile (acquire s h) u).idle = (getTile s u).idle := by
  cases h with
  | tile t i => rw [getTile_acquire]; split <;> simp_all
  | mender m i => rfl
@[simp] theorem getTile_readFilled_idle (s : State) (rs : List RegId) (u : Nat) :
    (getTile (readFilled s rs) u).idle = (getTile s u).idle := by unfold readFilled; split <;> simp
@[simp] theorem getTile_acquire_arrived (s : State) (h : HartId) (u : Nat) :
    (getTile (acquire s h) u).arrived = (getTile s u).arrived := by
  cases h with
  | tile t i => rw [getTile_acquire]; split <;> simp_all
  | mender m i => rfl
@[simp] theorem getTile_readFilled_arrived (s : State) (rs : List RegId) (u : Nat) :
    (getTile (readFilled s rs) u).arrived = (getTile s u).arrived := by unfold readFilled; split <;> simp
@[simp] theorem getTile_acquire_seam (s : State) (h : HartId) (u : Nat) :
    (getTile (acquire s h) u).seam = (getTile s u).seam := by
  cases h with
  | tile t i => rw [getTile_acquire]; split <;> simp_all
  | mender m i => rfl
@[simp] theorem getTile_readFilled_seam (s : State) (rs : List RegId) (u : Nat) :
    (getTile (readFilled s rs) u).seam = (getTile s u).seam := by unfold readFilled; split <;> simp
@[simp] theorem getTile_acquire_stepmask (s : State) (h : HartId) (u : Nat) :
    (getTile (acquire s h) u).stepmask = (getTile s u).stepmask := by
  cases h with
  | tile t i => rw [getTile_acquire]; split <;> simp_all
  | mender m i => rfl
@[simp] theorem getTile_readFilled_stepmask (s : State) (rs : List RegId) (u : Nat) :
    (getTile (readFilled s rs) u).stepmask = (getTile s u).stepmask := by unfold readFilled; split <;> simp
@[simp] theorem getTile_acquire_stepwatch (s : State) (h : HartId) (u : Nat) :
    (getTile (acquire s h) u).stepwatch = (getTile s u).stepwatch := by
  cases h with
  | tile t i => rw [getTile_acquire]; split <;> simp_all
  | mender m i => rfl
@[simp] theorem getTile_readFilled_stepwatch (s : State) (rs : List RegId) (u : Nat) :
    (getTile (readFilled s rs) u).stepwatch = (getTile s u).stepwatch := by unfold readFilled; split <;> simp
@[simp] theorem getTile_acquire_waitSince (s : State) (h : HartId) (u : Nat) :
    (getTile (acquire s h) u).waitSince = (getTile s u).waitSince := by
  cases h with
  | tile t i => rw [getTile_acquire]; split <;> simp_all
  | mender m i => rfl
@[simp] theorem getTile_readFilled_waitSince (s : State) (rs : List RegId) (u : Nat) :
    (getTile (readFilled s rs) u).waitSince = (getTile s u).waitSince := by unfold readFilled; split <;> simp
@[simp] theorem getTile_acquire_waitTold (s : State) (h : HartId) (u : Nat) :
    (getTile (acquire s h) u).waitTold = (getTile s u).waitTold := by
  cases h with
  | tile t i => rw [getTile_acquire]; split <;> simp_all
  | mender m i => rfl
@[simp] theorem getTile_readFilled_waitTold (s : State) (rs : List RegId) (u : Nat) :
    (getTile (readFilled s rs) u).waitTold = (getTile s u).waitTold := by unfold readFilled; split <;> simp
@[simp] theorem getTile_acquire_gen (s : State) (h : HartId) (u : Nat) :
    (getTile (acquire s h) u).gen = (getTile s u).gen := by
  cases h with
  | tile t i => rw [getTile_acquire]; split <;> simp_all
  | mender m i => rfl
@[simp] theorem getTile_readFilled_gen (s : State) (rs : List RegId) (u : Nat) :
    (getTile (readFilled s rs) u).gen = (getTile s u).gen := by unfold readFilled; split <;> simp
@[simp] theorem getTile_acquire_barArr (s : State) (h : HartId) (u : Nat) :
    (getTile (acquire s h) u).barArr = (getTile s u).barArr := by
  cases h with
  | tile t i => rw [getTile_acquire]; split <;> simp_all
  | mender m i => rfl
@[simp] theorem getTile_readFilled_barArr (s : State) (rs : List RegId) (u : Nat) :
    (getTile (readFilled s rs) u).barArr = (getTile s u).barArr := by unfold readFilled; split <;> simp
@[simp] theorem getTile_acquire_barSince (s : State) (h : HartId) (u : Nat) :
    (getTile (acquire s h) u).barSince = (getTile s u).barSince := by
  cases h with
  | tile t i => rw [getTile_acquire]; split <;> simp_all
  | mender m i => rfl
@[simp] theorem getTile_readFilled_barSince (s : State) (rs : List RegId) (u : Nat) :
    (getTile (readFilled s rs) u).barSince = (getTile s u).barSince := by unfold readFilled; split <;> simp
@[simp] theorem getTile_acquire_barTold (s : State) (h : HartId) (u : Nat) :
    (getTile (acquire s h) u).barTold = (getTile s u).barTold := by
  cases h with
  | tile t i => rw [getTile_acquire]; split <;> simp_all
  | mender m i => rfl
@[simp] theorem getTile_readFilled_barTold (s : State) (rs : List RegId) (u : Nat) :
    (getTile (readFilled s rs) u).barTold = (getTile s u).barTold := by unfold readFilled; split <;> simp
@[simp] theorem getTile_acquire_fmt (s : State) (h : HartId) (u : Nat) :
    (getTile (acquire s h) u).fmt = (getTile s u).fmt := by
  cases h with
  | tile t i => rw [getTile_acquire]; split <;> simp_all
  | mender m i => rfl
@[simp] theorem getTile_readFilled_fmt (s : State) (rs : List RegId) (u : Nat) :
    (getTile (readFilled s rs) u).fmt = (getTile s u).fmt := by unfold readFilled; split <;> simp
@[simp] theorem getTile_acquire_scp (s : State) (h : HartId) (u : Nat) :
    (getTile (acquire s h) u).scp = (getTile s u).scp := by
  cases h with
  | tile t i => rw [getTile_acquire]; split <;> simp_all
  | mender m i => rfl
@[simp] theorem getTile_readFilled_scp (s : State) (rs : List RegId) (u : Nat) :
    (getTile (readFilled s rs) u).scp = (getTile s u).scp := by unfold readFilled; split <;> simp
@[simp] theorem getTile_acquire_seed (s : State) (h : HartId) (u : Nat) :
    (getTile (acquire s h) u).seed = (getTile s u).seed := by
  cases h with
  | tile t i => rw [getTile_acquire]; split <;> simp_all
  | mender m i => rfl
@[simp] theorem getTile_readFilled_seed (s : State) (rs : List RegId) (u : Nat) :
    (getTile (readFilled s rs) u).seed = (getTile s u).seed := by unfold readFilled; split <;> simp
@[simp] theorem getTile_acquire_gid (s : State) (h : HartId) (u : Nat) :
    (getTile (acquire s h) u).gid = (getTile s u).gid := by
  cases h with
  | tile t i => rw [getTile_acquire]; split <;> simp_all
  | mender m i => rfl
@[simp] theorem getTile_readFilled_gid (s : State) (rs : List RegId) (u : Nat) :
    (getTile (readFilled s rs) u).gid = (getTile s u).gid := by unfold readFilled; split <;> simp
@[simp] theorem getTile_acquire_promise (s : State) (h : HartId) (u : Nat) :
    (getTile (acquire s h) u).promise = (getTile s u).promise := by
  cases h with
  | tile t i => rw [getTile_acquire]; split <;> simp_all
  | mender m i => rfl
@[simp] theorem getTile_readFilled_promise (s : State) (rs : List RegId) (u : Nat) :
    (getTile (readFilled s rs) u).promise = (getTile s u).promise := by unfold readFilled; split <;> simp
@[simp] theorem getTile_acquire_lfsr (s : State) (h : HartId) (u : Nat) :
    (getTile (acquire s h) u).lfsr = (getTile s u).lfsr := by
  cases h with
  | tile t i => rw [getTile_acquire]; split <;> simp_all
  | mender m i => rfl
@[simp] theorem getTile_readFilled_lfsr (s : State) (rs : List RegId) (u : Nat) :
    (getTile (readFilled s rs) u).lfsr = (getTile s u).lfsr := by unfold readFilled; split <;> simp
@[simp] theorem getTile_acquire_q (s : State) (h : HartId) (u : Nat) :
    (getTile (acquire s h) u).q = (getTile s u).q := by
  cases h with
  | tile t i => rw [getTile_acquire]; split <;> simp_all
  | mender m i => rfl
@[simp] theorem getTile_readFilled_q (s : State) (rs : List RegId) (u : Nat) :
    (getTile (readFilled s rs) u).q = (getTile s u).q := by unfold readFilled; split <;> simp
@[simp] theorem getTile_acquire_pe (s : State) (h : HartId) (u : Nat) :
    (getTile (acquire s h) u).pe = (getTile s u).pe := by
  cases h with
  | tile t i => rw [getTile_acquire]; split <;> simp_all
  | mender m i => rfl
@[simp] theorem getTile_readFilled_pe (s : State) (rs : List RegId) (u : Nat) :
    (getTile (readFilled s rs) u).pe = (getTile s u).pe := by unfold readFilled; split <;> simp
@[simp] theorem getTile_acquire_latch (s : State) (h : HartId) (u : Nat) :
    (getTile (acquire s h) u).latch = (getTile s u).latch := by
  cases h with
  | tile t i => rw [getTile_acquire]; split <;> simp_all
  | mender m i => rfl
@[simp] theorem getTile_readFilled_latch (s : State) (rs : List RegId) (u : Nat) :
    (getTile (readFilled s rs) u).latch = (getTile s u).latch := by unfold readFilled; split <;> simp
@[simp] theorem getTile_acquire_ring (s : State) (h : HartId) (u : Nat) :
    (getTile (acquire s h) u).ring = (getTile s u).ring := by
  cases h with
  | tile t i => rw [getTile_acquire]; split <;> simp_all
  | mender m i => rfl
@[simp] theorem getTile_readFilled_ring (s : State) (rs : List RegId) (u : Nat) :
    (getTile (readFilled s rs) u).ring = (getTile s u).ring := by unfold readFilled; split <;> simp
@[simp] theorem getTile_acquire_ringReq (s : State) (h : HartId) (u : Nat) :
    (getTile (acquire s h) u).ringReq = (getTile s u).ringReq := by
  cases h with
  | tile t i => rw [getTile_acquire]; split <;> simp_all
  | mender m i => rfl
@[simp] theorem getTile_readFilled_ringReq (s : State) (rs : List RegId) (u : Nat) :
    (getTile (readFilled s rs) u).ringReq = (getTile s u).ringReq := by unfold readFilled; split <;> simp
@[simp] theorem getTile_acquire_arrayFree (s : State) (h : HartId) (u : Nat) :
    (getTile (acquire s h) u).arrayFree = (getTile s u).arrayFree := by
  cases h with
  | tile t i => rw [getTile_acquire]; split <;> simp_all
  | mender m i => rfl
@[simp] theorem getTile_readFilled_arrayFree (s : State) (rs : List RegId) (u : Nat) :
    (getTile (readFilled s rs) u).arrayFree = (getTile s u).arrayFree := by unfold readFilled; split <;> simp
@[simp] theorem getTile_acquire_oerrErr (s : State) (h : HartId) (u : Nat) :
    (getTile (acquire s h) u).oerrErr = (getTile s u).oerrErr := by
  cases h with
  | tile t i => rw [getTile_acquire]; split <;> simp_all
  | mender m i => rfl
@[simp] theorem getTile_readFilled_oerrErr (s : State) (rs : List RegId) (u : Nat) :
    (getTile (readFilled s rs) u).oerrErr = (getTile s u).oerrErr := by unfold readFilled; split <;> simp
@[simp] theorem getTile_acquire_oerrLost (s : State) (h : HartId) (u : Nat) :
    (getTile (acquire s h) u).oerrLost = (getTile s u).oerrLost := by
  cases h with
  | tile t i => rw [getTile_acquire]; split <;> simp_all
  | mender m i => rfl
@[simp] theorem getTile_readFilled_oerrLost (s : State) (rs : List RegId) (u : Nat) :
    (getTile (readFilled s rs) u).oerrLost = (getTile s u).oerrLost := by unfold readFilled; split <;> simp
@[simp] theorem getTile_acquire_oerrCnt (s : State) (h : HartId) (u : Nat) :
    (getTile (acquire s h) u).oerrCnt = (getTile s u).oerrCnt := by
  cases h with
  | tile t i => rw [getTile_acquire]; split <;> simp_all
  | mender m i => rfl
@[simp] theorem getTile_readFilled_oerrCnt (s : State) (rs : List RegId) (u : Nat) :
    (getTile (readFilled s rs) u).oerrCnt = (getTile s u).oerrCnt := by unfold readFilled; split <;> simp
@[simp] theorem getTile_acquire_oerrloc (s : State) (h : HartId) (u : Nat) :
    (getTile (acquire s h) u).oerrloc = (getTile s u).oerrloc := by
  cases h with
  | tile t i => rw [getTile_acquire]; split <;> simp_all
  | mender m i => rfl
@[simp] theorem getTile_readFilled_oerrloc (s : State) (rs : List RegId) (u : Nat) :
    (getTile (readFilled s rs) u).oerrloc = (getTile s u).oerrloc := by unfold readFilled; split <;> simp
@[simp] theorem getTile_acquire_mbox (s : State) (h : HartId) (u : Nat) :
    (getTile (acquire s h) u).mbox = (getTile s u).mbox := by
  cases h with
  | tile t i => rw [getTile_acquire]; split <;> simp_all
  | mender m i => rfl
@[simp] theorem getTile_readFilled_mbox (s : State) (rs : List RegId) (u : Nat) :
    (getTile (readFilled s rs) u).mbox = (getTile s u).mbox := by unfold readFilled; split <;> simp
@[simp] theorem getTile_acquire_mheld (s : State) (h : HartId) (u : Nat) :
    (getTile (acquire s h) u).mheld = (getTile s u).mheld := by
  cases h with
  | tile t i => rw [getTile_acquire]; split <;> simp_all
  | mender m i => rfl
@[simp] theorem getTile_readFilled_mheld (s : State) (rs : List RegId) (u : Nat) :
    (getTile (readFilled s rs) u).mheld = (getTile s u).mheld := by unfold readFilled; split <;> simp
@[simp] theorem getTile_acquire_mnext (s : State) (h : HartId) (u : Nat) :
    (getTile (acquire s h) u).mnext = (getTile s u).mnext := by
  cases h with
  | tile t i => rw [getTile_acquire]; split <;> simp_all
  | mender m i => rfl
@[simp] theorem getTile_readFilled_mnext (s : State) (rs : List RegId) (u : Nat) :
    (getTile (readFilled s rs) u).mnext = (getTile s u).mnext := by unfold readFilled; split <;> simp
@[simp] theorem getTile_acquire_mwait (s : State) (h : HartId) (u : Nat) :
    (getTile (acquire s h) u).mwait = (getTile s u).mwait := by
  cases h with
  | tile t i => rw [getTile_acquire]; split <;> simp_all
  | mender m i => rfl
@[simp] theorem getTile_readFilled_mwait (s : State) (rs : List RegId) (u : Nat) :
    (getTile (readFilled s rs) u).mwait = (getTile s u).mwait := by unfold readFilled; split <;> simp
@[simp] theorem getTile_acquire_work (s : State) (h : HartId) (u : Nat) :
    (getTile (acquire s h) u).work = (getTile s u).work := by
  cases h with
  | tile t i => rw [getTile_acquire]; split <;> simp_all
  | mender m i => rfl
@[simp] theorem getTile_readFilled_work (s : State) (rs : List RegId) (u : Nat) :
    (getTile (readFilled s rs) u).work = (getTile s u).work := by unfold readFilled; split <;> simp
@[simp] theorem getTile_acquire_fills (s : State) (h : HartId) (u : Nat) :
    (getTile (acquire s h) u).fills = (getTile s u).fills := by
  cases h with
  | tile t i => rw [getTile_acquire]; split <;> simp_all
  | mender m i => rfl
@[simp] theorem getTile_readFilled_fills (s : State) (rs : List RegId) (u : Nat) :
    (getTile (readFilled s rs) u).fills = (getTile s u).fills := by unfold readFilled; split <;> simp
@[simp] theorem getTile_acquire_fe (s : State) (h : HartId) (u : Nat) :
    (getTile (acquire s h) u).fe = (getTile s u).fe := by
  cases h with
  | tile t i => rw [getTile_acquire]; split <;> simp_all
  | mender m i => rfl
@[simp] theorem getTile_readFilled_fe (s : State) (rs : List RegId) (u : Nat) :
    (getTile (readFilled s rs) u).fe = (getTile s u).fe := by unfold readFilled; split <;> simp
@[simp] theorem getTile_acquire_copies (s : State) (h : HartId) (u : Nat) :
    (getTile (acquire s h) u).copies = (getTile s u).copies := by
  cases h with
  | tile t i => rw [getTile_acquire]; split <;> simp_all
  | mender m i => rfl
@[simp] theorem getTile_readFilled_copies (s : State) (rs : List RegId) (u : Nat) :
    (getTile (readFilled s rs) u).copies = (getTile s u).copies := by unfold readFilled; split <;> simp
@[simp] theorem getTile_acquire_sleepDepth (s : State) (h : HartId) (u : Nat) :
    (getTile (acquire s h) u).sleepDepth = (getTile s u).sleepDepth := by
  cases h with
  | tile t i => rw [getTile_acquire]; split <;> simp_all
  | mender m i => rfl
@[simp] theorem getTile_readFilled_sleepDepth (s : State) (rs : List RegId) (u : Nat) :
    (getTile (readFilled s rs) u).sleepDepth = (getTile s u).sleepDepth := by unfold readFilled; split <;> simp
@[simp] theorem getTile_acquire_ctx (s : State) (h : HartId) (u : Nat) :
    (getTile (acquire s h) u).ctx = (getTile s u).ctx := by
  cases h with
  | tile t i => rw [getTile_acquire]; split <;> simp_all
  | mender m i => rfl
@[simp] theorem getTile_readFilled_ctx (s : State) (rs : List RegId) (u : Nat) :
    (getTile (readFilled s rs) u).ctx = (getTile s u).ctx := by unfold readFilled; split <;> simp
@[simp] theorem getTile_acquire_repq (s : State) (h : HartId) (u : Nat) :
    (getTile (acquire s h) u).repq = (getTile s u).repq := by
  cases h with
  | tile t i => rw [getTile_acquire]; split <;> simp_all
  | mender m i => rfl
@[simp] theorem getTile_readFilled_repq (s : State) (rs : List RegId) (u : Nat) :
    (getTile (readFilled s rs) u).repq = (getTile s u).repq := by unfold readFilled; split <;> simp
@[simp] theorem getTile_acquire_escwait (s : State) (h : HartId) (u : Nat) :
    (getTile (acquire s h) u).escwait = (getTile s u).escwait := by
  cases h with
  | tile t i => rw [getTile_acquire]; split <;> simp_all
  | mender m i => rfl
@[simp] theorem getTile_readFilled_escwait (s : State) (rs : List RegId) (u : Nat) :
    (getTile (readFilled s rs) u).escwait = (getTile s u).escwait := by unfold readFilled; split <;> simp
@[simp] theorem getTile_acquire_asleep (s : State) (h : HartId) (u : Nat) :
    (getTile (acquire s h) u).asleep = (getTile s u).asleep := by
  cases h with
  | tile t i => rw [getTile_acquire]; split <;> simp_all
  | mender m i => rfl
@[simp] theorem getTile_readFilled_asleep (s : State) (rs : List RegId) (u : Nat) :
    (getTile (readFilled s rs) u).asleep = (getTile s u).asleep := by unfold readFilled; split <;> simp
@[simp] theorem getTile_acquire_wakeAt (s : State) (h : HartId) (u : Nat) :
    (getTile (acquire s h) u).wakeAt = (getTile s u).wakeAt := by
  cases h with
  | tile t i => rw [getTile_acquire]; split <;> simp_all
  | mender m i => rfl
@[simp] theorem getTile_readFilled_wakeAt (s : State) (rs : List RegId) (u : Nat) :
    (getTile (readFilled s rs) u).wakeAt = (getTile s u).wakeAt := by unfold readFilled; split <;> simp
@[simp] theorem getTile_acquire_grp (s : State) (h : HartId) (u : Nat) :
    (getTile (acquire s h) u).grp = (getTile s u).grp := by
  cases h with
  | tile t i => rw [getTile_acquire]; split <;> simp_all
  | mender m i => rfl
@[simp] theorem getTile_readFilled_grp (s : State) (rs : List RegId) (u : Nat) :
    (getTile (readFilled s rs) u).grp = (getTile s u).grp := by unfold readFilled; split <;> simp
@[simp] theorem getTile_acquire_slots (s : State) (h : HartId) (u : Nat) :
    (getTile (acquire s h) u).slots = (getTile s u).slots := by
  cases h with
  | tile t i => rw [getTile_acquire]; split <;> simp_all
  | mender m i => rfl
@[simp] theorem getTile_readFilled_slots (s : State) (rs : List RegId) (u : Nat) :
    (getTile (readFilled s rs) u).slots = (getTile s u).slots := by unfold readFilled; split <;> simp
@[simp] theorem getTile_acquire_lvl (s : State) (h : HartId) (u : Nat) :
    (getTile (acquire s h) u).lvl = (getTile s u).lvl := by
  cases h with
  | tile t i => rw [getTile_acquire]; split <;> simp_all
  | mender m i => rfl
@[simp] theorem getTile_readFilled_lvl (s : State) (rs : List RegId) (u : Nat) :
    (getTile (readFilled s rs) u).lvl = (getTile s u).lvl := by unfold readFilled; split <;> simp
@[simp] theorem getTile_acquire_last (s : State) (h : HartId) (u : Nat) :
    (getTile (acquire s h) u).last = (getTile s u).last := by
  cases h with
  | tile t i => rw [getTile_acquire]; split <;> simp_all
  | mender m i => rfl
@[simp] theorem getTile_readFilled_last (s : State) (rs : List RegId) (u : Nat) :
    (getTile (readFilled s rs) u).last = (getTile s u).last := by unfold readFilled; split <;> simp
@[simp] theorem getTile_acquire_level (s : State) (h : HartId) (u : Nat) :
    (getTile (acquire s h) u).level = (getTile s u).level := by
  cases h with
  | tile t i => rw [getTile_acquire]; split <;> simp_all
  | mender m i => rfl
@[simp] theorem getTile_readFilled_level (s : State) (rs : List RegId) (u : Nat) :
    (getTile (readFilled s rs) u).level = (getTile s u).level := by unfold readFilled; split <;> simp
@[simp] theorem getTile_acquire_fallout (s : State) (h : HartId) (u : Nat) :
    (getTile (acquire s h) u).fallout = (getTile s u).fallout := by
  cases h with
  | tile t i => rw [getTile_acquire]; split <;> simp_all
  | mender m i => rfl
@[simp] theorem getTile_readFilled_fallout (s : State) (rs : List RegId) (u : Nat) :
    (getTile (readFilled s rs) u).fallout = (getTile s u).fallout := by unfold readFilled; split <;> simp

/-! ## Checks that pass -/

theorem inSet_pass {ok : HartKind → Bool} {s : State} (k : State → Out) (h : ok (kindOf s.cur) = true) :
    inSet ok s k = k s := by simp [inSet, h]

theorem inSet_refuse {ok : HartKind → Bool} {s : State} (k : State → Out) (h : ok (kindOf s.cur) = false) :
    inSet ok s k = .next (trapOn s s.cur 0x0B (w64 s.iword)) := by simp [inSet, h, trap]

theorem supOnly_pass {s : State} (k : State → Out) (h : isSup s = true) : supOnly s k = k s := by simp [supOnly, h]

theorem supOnly_refuse {s : State} (k : State → Out) (h : isSup s = false) :
    supOnly s k = .next (trapOn s s.cur 0x03 (w64 s.iword)) := by simp [supOnly, h, trap]

/-- Reading registers without an error changes nothing (R296). -/
theorem readCells_sound {s : State} {h : HartId} {rs : List RegId}
    (hs : ∀ r ∈ rs, flawAt (getHart s h).flaws (.reg r) = none) : readCells s h rs = s := by
  have fold : ∀ l : List RegId, (∀ r ∈ l, flawAt (getHart s h).flaws (.reg r) = none) →
      l.foldl (fun s r => readCell s h r) s = s := by
    intro l
    induction l with
    | nil => intro _; rfl
    | cons r l ih =>
      intro hl
      have hr : readCell s h r = s := by unfold readCell; rw [hl r List.mem_cons_self]
      rw [List.foldl_cons, hr]
      exact ih fun q hq => hl q (List.mem_cons_of_mem _ hq)
  unfold readCells; split
  · rfl
  · exact fold rs hs

/-- Every source is full and without an error: the instruction goes on (R57, R296). -/
theorem sources_pass {s : State} {rs : List RegId} (k : State → Out) (h : ∀ r ∈ rs, regFull s s.cur r = true)
    (hs : ∀ r ∈ rs, flawAt (me s).flaws (.reg r) = none) : sources rs s k = k (readFilled s rs) := by
  have hn : rs.find? (fun r => !regFull s s.cur r) = none := by
    rw [List.find?_eq_none]; intro r hr; simp [h r hr]
  have hc : readCells (readFilled s rs) s.cur rs = readFilled s rs := readCells_sound (by
    intro r hr; rw [getHart_readFilled]; exact hs r hr)
  simp [sources, hn, hc]

/-- A source is empty: the instruction parks on the first of them in order (R57). -/
theorem sources_park {s : State} {rs : List RegId} {r : RegId} (k : State → Out)
    (h : rs.find? (fun r => !regFull s s.cur r) = some r) : sources rs s k = .next (parkHart s s.cur (.reg r)) := by
  simp [sources, h, park]

/-- No destination is outstanding: the instruction goes on (R60). -/
theorem dests_pass {s : State} {rs : List RegId} (k : State → Out) (h : ∀ r ∈ rs, hazard (me s) r = false) :
    dests rs s k = k s := by
  have : rs.find? (fun r => hazard (me s) r) = none := by
    rw [List.find?_eq_none]; intro r hr; simp [h r hr]
  simp [dests, this]

theorem dests_trap {s : State} {rs : List RegId} {r : RegId} (k : State → Out)
    (h : rs.find? (fun r => hazard (me s) r) = some r) :
    dests rs s k = .next (trapOn s s.cur 0x02 (designation r)) := by
  simp [dests, h, trap]

/-- What is outstanding for its thread is outstanding (R59, R60). -/
theorem openOps_le (now : Nat) (x : Hart) : (openOps now x).length ≤ x.out.length := List.length_filter_le _ _

@[simp] theorem openOps_nil {now : Nat} {x : Hart} (h : x.out = []) : openOps now x = [] := by simp [openOps, h]

theorem roomForLong_pass {s : State} (k : State → Out) (h : (me s).out.length < 4) : roomForLong s k = k s :=
  if_pos (Nat.lt_of_le_of_lt (openOps_le _ _) h)

theorem roomForLong_park {s : State} (k : State → Out) (h : ¬ (openOps s.cycle (me s)).length < 4) :
    roomForLong s k = .next (parkHart s s.cur .outFull) := if_neg h

/-- An access with nothing of its hart ahead goes on (R61). -/
theorem inOrder_pass {holds : Bool} {a : MemAcc} {s : State} (k : State → Out) (h : ahead s a = []) : inOrder holds a s k = k s := if_pos h

theorem ahead_nil {s : State} {a : MemAcc} (h : (me s).out = []) : ahead s a = [] := by simp [ahead, h]

theorem heldDrained_pass {s : State} (k : State → Out) (h : (me s).out = []) : heldDrained s k = k s := if_pos h

theorem heldAcked_pass {s : State} (k : State → Out) (h : (me s).out.any isStoreOp = false) : heldAcked s k = k s := by
  simp [heldAcked, h]

theorem drained_pass {s : State} (k : State → Out) (h : (me s).out = []) : drained s k = k s := by simp [drained, h]

theorem acked_pass {s : State} (k : State → Out) (h : (me s).out.any isStoreOp = false) : acked s k = k s := by
  simp [acked, h]

/-! ## Every outcome is a next state -/

theorem answers_next (s : State) : Answers (.next s) := ⟨s, rfl⟩

theorem answers_ite {c : Prop} [Decidable c] {x y : Out} (hx : Answers x) (hy : Answers y) :
    Answers (if c then x else y) := by split <;> assumption

theorem goto_answers (p : Word) (s : State) : Answers (goto p s) := ⟨_, rfl⟩
theorem done_answers (len : Nat) (s : State) : Answers (done len s) := ⟨_, rfl⟩
theorem park_answers (r : Reason) (s : State) : Answers (park r s) := ⟨_, rfl⟩
theorem trap_answers (c : Nat) (v : Word) (s : State) : Answers (trap c v s) := ⟨_, rfl⟩
theorem illegal_answers (s : State) : Answers (illegal s) := ⟨_, rfl⟩
theorem issueLong_answers (len la lat : Nat) (o : LongOp) (s : State) : Answers (issueLong len la lat o s) := ⟨_, rfl⟩
theorem issueAwait_answers (len la : Nat) (a : Await) (s : State) : Answers (issueAwait len la a s) := ⟨_, rfl⟩

theorem trapReturn_answers (s : State) : Answers (trapReturn s) := by
  unfold trapReturn; exact answers_ite (answers_next _) (illegal_answers s)

theorem inSet_answers (ok : HartKind → Bool) (s : State) (k : State → Out) (hk : ∀ s, Answers (k s)) :
    Answers (inSet ok s k) := answers_ite (hk s) (trap_answers _ _ _)

theorem supOnly_answers (s : State) (k : State → Out) (hk : ∀ s, Answers (k s)) : Answers (supOnly s k) :=
  answers_ite (hk s) (trap_answers _ _ _)

theorem sources_answers (rs : List RegId) (s : State) (k : State → Out) (hk : ∀ s, Answers (k s)) :
    Answers (sources rs s k) := by unfold sources; split; exacts [park_answers _ _, hk _]

theorem dests_answers (rs : List RegId) (s : State) (k : State → Out) (hk : ∀ s, Answers (k s)) :
    Answers (dests rs s k) := by unfold dests; split; exacts [trap_answers _ _ _, hk _]

theorem drained_answers (s : State) (k : State → Out) (hk : ∀ s, Answers (k s)) : Answers (drained s k) :=
  answers_ite (hk s) (park_answers _ _)

theorem hold_answers (w : SlotWait) (s : State) : Answers (hold w s) := ⟨_, rfl⟩

theorem heldDrained_answers (s : State) (k : State → Out) (hk : ∀ s, Answers (k s)) : Answers (heldDrained s k) :=
  answers_ite (hk s) (hold_answers _ _)

theorem heldAcked_answers (s : State) (k : State → Out) (hk : ∀ s, Answers (k s)) : Answers (heldAcked s k) :=
  answers_ite (hold_answers _ _) (hk s)

theorem finished_answers (lb : Bool) (s : State) (k : State → Out) (hk : ∀ s, Answers (k s)) : Answers (finished lb s k) :=
  answers_ite (hk s) (park_answers _ _)

theorem inOrder_answers (holds : Bool) (a : MemAcc) (s : State) (k : State → Out) (hk : ∀ s, Answers (k s)) :
    Answers (inOrder holds a s k) := answers_ite (hk s) (answers_ite (hold_answers _ _) (park_answers _ _))

theorem acked_answers (s : State) (k : State → Out) (hk : ∀ s, Answers (k s)) : Answers (acked s k) :=
  answers_ite (park_answers _ _) (hk s)

theorem roomForLong_answers (s : State) (k : State → Out) (hk : ∀ s, Answers (k s)) : Answers (roomForLong s k) :=
  answers_ite (hk s) (park_answers _ _)

/-! ## Completion, parking, traps -/

/-- What completing an instruction leaves of its hart (R51, R59, R284). -/
@[simp] theorem getHart_completeAs_same (st : Bool) (s : State) (h : HartId) (p : Word) :
    getHart (completeAs st s h p) h =
      { getHart s h with
        pc := p, status := if st then .parked (.trap 0x07 (getHart s h).pc) else .ready, out := spendShadow (getHart s h).out,
        refused := none, why := none } := by
  simp [completeAs]

theorem getHart_complete_same (s : State) (h : HartId) (p : Word) :
    getHart (complete s h p) h =
      { getHart s h with
        pc := p, status := if stepped h (getHart s h) then .parked (.trap 0x07 (getHart s h).pc) else .ready,
        out := spendShadow (getHart s h).out, refused := none, why := none } := by
  simp [complete]

theorem getHart_complete_other (s : State) {h k : HartId} (p : Word) (hk : k ≠ h) :
    getHart (complete s h p) k = getHart s k := getHart_modHart_other s _ hk

/-- Parking changes the status and the record of the wait, and nothing else of the hart (R6, R51). -/
theorem getHart_parkHart_same (s : State) (h : HartId) (r : Reason) :
    ∃ n, getHart (parkHart s h r) h = { getHart s h with status := .parked r, why := none, since := n } := by
  unfold parkHart; rw [getHart_modHart_same]; exact ⟨_, rfl⟩

theorem getHart_parkHart_other (s : State) {h k : HartId} (r : Reason) (hk : k ≠ h) :
    getHart (parkHart s h r) k = getHart s k := getHart_modHart_other s _ hk

/-- A trap with nothing outstanding is taken; otherwise it waits (R63). -/
theorem trapOn_taken {s : State} {h : HartId} (c : Nat) (v : Word) (hout : (getHart s h).out = []) :
    trapOn s h c v = takeTrap s h c v := by simp [trapOn, hout]

theorem trapOn_waits {s : State} {h : HartId} (c : Nat) (v : Word) (hout : (getHart s h).out ≠ []) :
    trapOn s h c v = parkHart s h (.trap c v) := by simp [trapOn, hout]

/-- Trap entry of a thread with a handler (R68): the cause, value and pc are saved, and the handler is next. -/
theorem takeTrap_handler {s : State} {t : Nat} {i : Fin 10} (c : Nat) (v : Word) (hi : i.val < 8)
    (hv : (getHart s (.tile t i)).tvec ≠ 0) (hn : (getHart s (.tile t i)).inh = false) :
    takeTrap s (.tile t i) c v = setHart s (.tile t i)
      { saveTrap (getHart s (.tile t i)) c v with inh := true, pc := (getHart s (.tile t i)).tvec, status := .ready } := by
  simp only [takeTrap, hi, if_true, ne_eq, hv, not_false_eq_true, hn, true_and]

/-- An operation that makes no access has no earlier one to follow (R61). -/
theorem orderDue_still {s : State} {o : LongOp} (h : opAccess o = none) : orderDue s o = 0 := by simp [orderDue, h]

/-- Issuing a long operation: it stands last among the outstanding ones, its destinations are empty, and the hart goes on
(R59 to R61). -/
theorem issueLong_eq (len la lat : Nat) (o : LongOp) (s : State) :
    let q : LongOp := { o with wbs := realDests o.wbs, left := lookahead s la + 1, due := max (s.cycle + lat) (orderDue s o) }
    let e := q.wbs.foldl (fun s w => emptyReg s s.cur w.reg) s
    let f := modMe e fun x => { x with out := x.out ++ [q] }
    issueLong len la lat o s = .next (complete f f.cur ((me f).pc + w64 len)) := rfl

end Sys2Proof.Machine
end

