-- ==== Sys2Proof/Laws/PerInstr.lean ====
section
/-! SUPPORT. What each format keeps in its fields (R35), and, for each instruction, that its encoding is a word of its length. -/

namespace Sys2Proof.Laws

/-! ## Formats: a word of 32 bits, and its fields -/

theorem encR_lt {maj f x d a b : Nat} (h1 : maj < 64) (h2 : d < 32) (h3 : a < 32) (h4 : b < 32) (h5 : f < 32) (h6 : x < 32) :
    encR maj f x d a b < 2 ^ 32 := by unfold encR; omega
theorem encI_lt {maj imm a d : Nat} (h1 : maj < 64) (h2 : d < 32) (h3 : a < 32) (h4 : imm < 2 ^ 15) : encI maj imm a d < 2 ^ 32 := by
  unfold encI; omega
theorem encM_lt {maj la imm w a d : Nat} (h1 : maj < 64) (h2 : d < 32) (h3 : a < 32) (h4 : w < 8) (h5 : imm < 256) (h6 : la < 16) :
    encM maj la imm w a d < 2 ^ 32 := by unfold encM; omega
theorem encB_lt {cond off b a : Nat} (h1 : cond < 8) (h2 : off < 4096) (h3 : b < 32) (h4 : a < 32) : encB cond off b a < 2 ^ 32 := by
  unfold encB; omega
theorem encJ_lt {maj off d : Nat} (h1 : maj < 64) (h2 : off < 2 ^ 20) (h3 : d < 32) : encJ maj off d < 2 ^ 32 := by unfold encJ; omega
theorem encE_lt {maj f la n m ec eb ea : Nat} (h1 : maj < 64) (h2 : f < 32) (h3 : la < 16) (h4 : n < 16) (h5 : m < 8) (h6 : ec < 8)
    (h7 : eb < 8) (h8 : ea < 8) : encE maj f la n m ec eb ea < 2 ^ 32 := by unfold encE; omega
theorem encV_lt {maj f6 ty rm k vb va vd : Nat} (h1 : maj < 64) (h2 : f6 < 64) (h3 : ty < 8) (h4 : rm < 4) (h5 : k < 4) (h6 : vb < 16)
    (h7 : va < 16) (h8 : vd < 16) : encV maj f6 ty rm k vb va vd < 2 ^ 32 := by unfold encV; omega
theorem encVt_lt {maj f6 t k vb va vd : Nat} (h1 : maj < 64) (h2 : f6 < 64) (h3 : t < 32) (h5 : k < 4) (h6 : vb < 16)
    (h7 : va < 16) (h8 : vd < 16) : encVt maj f6 t k vb va vd < 2 ^ 32 := by unfold encVt; omega

/-- The fields of encR. -/
theorem encR_fields {maj f x d a b : Nat} (h0 : maj < 64) (h1 : d < 32) (h2 : a < 32) (h3 : b < 32) (h4 : f < 32) (h5 : x < 32) :
    majorF (encR maj f x d a b) = maj ∧
      dF (encR maj f x d a b) = d ∧
      aF (encR maj f x d a b) = a ∧
      bF (encR maj f x d a b) = b ∧
      fF (encR maj f x d a b) = f ∧
      xF (encR maj f x d a b) = x := by
  simp only [encR, majorF, dF, aF, bF, fF, xF, fld]; omega

/-- The fields of encI. -/
theorem encI_fields {maj imm a d : Nat} (h0 : maj < 64) (h1 : d < 32) (h2 : a < 32) :
    majorF (encI maj imm a d) = maj ∧
      dF (encI maj imm a d) = d ∧
      aF (encI maj imm a d) = a := by
  simp only [encI, majorF, dF, aF, fld]; omega

/-- The fields of encE. -/
theorem encE_fields {maj f la n m ec eb ea : Nat} (h0 : maj < 64) (h1 : f < 32) (h2 : la < 16) (h3 : n < 16) (h4 : m < 8) (h5 : ec < 8) (h6 : eb < 8) (h7 : ea < 8) :
    majorF (encE maj f la n m ec eb ea) = maj ∧
      fE (encE maj f la n m ec eb ea) = f ∧
      laE (encE maj f la n m ec eb ea) = la ∧
      nE (encE maj f la n m ec eb ea) = n ∧
      mE (encE maj f la n m ec eb ea) = m ∧
      ecF (encE maj f la n m ec eb ea) = ec ∧
      ebF (encE maj f la n m ec eb ea) = eb ∧
      eaF (encE maj f la n m ec eb ea) = ea := by
  simp only [encE, majorF, fE, laE, nE, mE, ecF, ebF, eaF, fld]; omega

/-- The fields of encV. -/
theorem encV_fields {maj f6 ty rm k vb va vd : Nat} (h0 : maj < 64) (h1 : f6 < 64) (h2 : ty < 8) (h3 : rm < 4) (h4 : k < 4) (h5 : vb < 16) (h6 : va < 16) (h7 : vd < 16) :
    majorF (encV maj f6 ty rm k vb va vd) = maj ∧
      f6F (encV maj f6 ty rm k vb va vd) = f6 ∧
      tF (encV maj f6 ty rm k vb va vd) = ty ∧
      rmF (encV maj f6 ty rm k vb va vd) = rm ∧
      kF (encV maj f6 ty rm k vb va vd) = k ∧
      vbF (encV maj f6 ty rm k vb va vd) = vb ∧
      vaF (encV maj f6 ty rm k vb va vd) = va ∧
      vdF (encV maj f6 ty rm k vb va vd) = vd := by
  simp only [encV, majorF, f6F, tF, rmF, kF, vbF, vaF, vdF, fld]; omega

/-! ## Codes -/

theorem Width.code_lt (x : Width) : x.code < 8 := by cases x <;> decide
theorem FeSize.code_lt (x : FeSize) : x.code < 2 := by cases x <;> decide
theorem AmoSpace.code_lt (x : AmoSpace) : x.code < 3 := by cases x <;> decide
theorem AmoOrder.code_lt (x : AmoOrder) : x.code < 4 := by cases x <;> decide
theorem Scope.code_lt (x : Scope) : x.code < 6 := by cases x <;> decide
theorem RegClass.code_lt (x : RegClass) : x.code < 7 := by cases x <;> decide
theorem ClreClass.code_lt (x : ClreClass) : x.code < 3 := by cases x <;> decide
theorem FTy.code_lt (x : FTy) : x.code < 3 := by cases x <;> decide
theorem ITy.code_lt (x : ITy) : x.code < 6 := by cases x <;> decide
theorem CTy.code_lt (x : CTy) : x.code < 8 := by cases x <;> decide
theorem EltW.code_lt (x : EltW) : x.code < 3 := by cases x <;> decide
theorem Rm.code_lt (x : Rm) : x.code < 4 := by cases x <;> decide
theorem b2n_lt (b : Bool) : b2n b < 2 := by cases b <;> decide

/-- An encoding is a word of 16 or of 32 bits. -/
def Fits.Statement (i : Instr) : Prop := ∀ n w : Nat, encode i = some (n, w) → (n = 16 ∨ n = 32) ∧ w < 2 ^ n

/-- From the one encoding of an instruction. -/
theorem fits_of {i : Instr} {n w : Nat} (he : encode i = some (n, w)) (hn : n = 16 ∨ n = 32) (hw : w < 2 ^ n) : Fits.Statement i := by
  intro n' w' h
  rw [he] at h
  cases h
  exact ⟨hn, hw⟩
/-- An event has no encoding. -/
theorem fits_none {i : Instr} (he : encode i = none) : Fits.Statement i := fun n w h => by rw [he] at h; cases h

theorem Fits.add (d : GReg) (a : GReg) (b : GReg) : Fits.Statement (.add d a b) := fits_of rfl (.inr rfl) (by
  have := d.isLt; have := a.isLt; have := b.isLt; unfold encR; omega)
theorem Fits.sub (d : GReg) (a : GReg) (b : GReg) : Fits.Statement (.sub d a b) := fits_of rfl (.inr rfl) (by
  have := d.isLt; have := a.isLt; have := b.isLt; unfold encR; omega)
theorem Fits.and (d : GReg) (a : GReg) (b : GReg) : Fits.Statement (.and d a b) := fits_of rfl (.inr rfl) (by
  have := d.isLt; have := a.isLt; have := b.isLt; unfold encR; omega)
theorem Fits.or (d : GReg) (a : GReg) (b : GReg) : Fits.Statement (.or d a b) := fits_of rfl (.inr rfl) (by
  have := d.isLt; have := a.isLt; have := b.isLt; unfold encR; omega)
theorem Fits.xor (d : GReg) (a : GReg) (b : GReg) : Fits.Statement (.xor d a b) := fits_of rfl (.inr rfl) (by
  have := d.isLt; have := a.isLt; have := b.isLt; unfold encR; omega)
theorem Fits.sll (d : GReg) (a : GReg) (b : GReg) : Fits.Statement (.sll d a b) := fits_of rfl (.inr rfl) (by
  have := d.isLt; have := a.isLt; have := b.isLt; unfold encR; omega)
theorem Fits.srl (d : GReg) (a : GReg) (b : GReg) : Fits.Statement (.srl d a b) := fits_of rfl (.inr rfl) (by
  have := d.isLt; have := a.isLt; have := b.isLt; unfold encR; omega)
theorem Fits.sra (d : GReg) (a : GReg) (b : GReg) : Fits.Statement (.sra d a b) := fits_of rfl (.inr rfl) (by
  have := d.isLt; have := a.isLt; have := b.isLt; unfold encR; omega)
theorem Fits.slt (d : GReg) (a : GReg) (b : GReg) : Fits.Statement (.slt d a b) := fits_of rfl (.inr rfl) (by
  have := d.isLt; have := a.isLt; have := b.isLt; unfold encR; omega)
theorem Fits.sltn (d : GReg) (a : GReg) (b : GReg) : Fits.Statement (.sltn d a b) := fits_of rfl (.inr rfl) (by
  have := d.isLt; have := a.isLt; have := b.isLt; unfold encR; omega)
theorem Fits.min (d : GReg) (a : GReg) (b : GReg) : Fits.Statement (.min d a b) := fits_of rfl (.inr rfl) (by
  have := d.isLt; have := a.isLt; have := b.isLt; unfold encR; omega)
theorem Fits.max (d : GReg) (a : GReg) (b : GReg) : Fits.Statement (.max d a b) := fits_of rfl (.inr rfl) (by
  have := d.isLt; have := a.isLt; have := b.isLt; unfold encR; omega)
theorem Fits.minn (d : GReg) (a : GReg) (b : GReg) : Fits.Statement (.minn d a b) := fits_of rfl (.inr rfl) (by
  have := d.isLt; have := a.isLt; have := b.isLt; unfold encR; omega)
theorem Fits.maxn (d : GReg) (a : GReg) (b : GReg) : Fits.Statement (.maxn d a b) := fits_of rfl (.inr rfl) (by
  have := d.isLt; have := a.isLt; have := b.isLt; unfold encR; omega)
theorem Fits.addw (d : GReg) (a : GReg) (b : GReg) : Fits.Statement (.addw d a b) := fits_of rfl (.inr rfl) (by
  have := d.isLt; have := a.isLt; have := b.isLt; unfold encR; omega)
theorem Fits.subw (d : GReg) (a : GReg) (b : GReg) : Fits.Statement (.subw d a b) := fits_of rfl (.inr rfl) (by
  have := d.isLt; have := a.isLt; have := b.isLt; unfold encR; omega)
theorem Fits.mul (la : La) (d : GReg) (a : GReg) (b : GReg) : Fits.Statement (.mul la d a b) := fits_of rfl (.inr rfl) (by
  have := la.isLt; have := d.isLt; have := a.isLt; have := b.isLt; unfold encR; omega)
theorem Fits.mulh (la : La) (d : GReg) (a : GReg) (b : GReg) : Fits.Statement (.mulh la d a b) := fits_of rfl (.inr rfl) (by
  have := la.isLt; have := d.isLt; have := a.isLt; have := b.isLt; unfold encR; omega)
theorem Fits.mulhn (la : La) (d : GReg) (a : GReg) (b : GReg) : Fits.Statement (.mulhn la d a b) := fits_of rfl (.inr rfl) (by
  have := la.isLt; have := d.isLt; have := a.isLt; have := b.isLt; unfold encR; omega)
theorem Fits.mulw (la : La) (d : GReg) (a : GReg) (b : GReg) : Fits.Statement (.mulw la d a b) := fits_of rfl (.inr rfl) (by
  have := la.isLt; have := d.isLt; have := a.isLt; have := b.isLt; unfold encR; omega)
theorem Fits.div (la : La) (d : GReg) (a : GReg) (b : GReg) : Fits.Statement (.div la d a b) := fits_of rfl (.inr rfl) (by
  have := la.isLt; have := d.isLt; have := a.isLt; have := b.isLt; unfold encR; omega)
theorem Fits.divn (la : La) (d : GReg) (a : GReg) (b : GReg) : Fits.Statement (.divn la d a b) := fits_of rfl (.inr rfl) (by
  have := la.isLt; have := d.isLt; have := a.isLt; have := b.isLt; unfold encR; omega)
theorem Fits.rem (la : La) (d : GReg) (a : GReg) (b : GReg) : Fits.Statement (.rem la d a b) := fits_of rfl (.inr rfl) (by
  have := la.isLt; have := d.isLt; have := a.isLt; have := b.isLt; unfold encR; omega)
theorem Fits.remn (la : La) (d : GReg) (a : GReg) (b : GReg) : Fits.Statement (.remn la d a b) := fits_of rfl (.inr rfl) (by
  have := la.isLt; have := d.isLt; have := a.isLt; have := b.isLt; unfold encR; omega)
theorem Fits.clz (d : GReg) (a : GReg) : Fits.Statement (.clz d a) := fits_of rfl (.inr rfl) (by
  have := d.isLt; have := a.isLt; unfold encR; omega)
theorem Fits.ctz (d : GReg) (a : GReg) : Fits.Statement (.ctz d a) := fits_of rfl (.inr rfl) (by
  have := d.isLt; have := a.isLt; unfold encR; omega)
theorem Fits.popc (d : GReg) (a : GReg) : Fits.Statement (.popc d a) := fits_of rfl (.inr rfl) (by
  have := d.isLt; have := a.isLt; unfold encR; omega)
theorem Fits.rol (d : GReg) (a : GReg) (b : GReg) : Fits.Statement (.rol d a b) := fits_of rfl (.inr rfl) (by
  have := d.isLt; have := a.isLt; have := b.isLt; unfold encR; omega)
theorem Fits.ror (d : GReg) (a : GReg) (b : GReg) : Fits.Statement (.ror d a b) := fits_of rfl (.inr rfl) (by
  have := d.isLt; have := a.isLt; have := b.isLt; unfold encR; omega)
theorem Fits.sel (d : GReg) (a : GReg) (b : GReg) : Fits.Statement (.sel d a b) := fits_of rfl (.inr rfl) (by
  have := d.isLt; have := a.isLt; have := b.isLt; unfold encR; omega)
theorem Fits.bfx (d : GReg) (a : GReg) (b : GReg) : Fits.Statement (.bfx d a b) := fits_of rfl (.inr rfl) (by
  have := d.isLt; have := a.isLt; have := b.isLt; unfold encR; omega)
theorem Fits.bfi (d : GReg) (a : GReg) (b : GReg) : Fits.Statement (.bfi d a b) := fits_of rfl (.inr rfl) (by
  have := d.isLt; have := a.isLt; have := b.isLt; unfold encR; omega)
theorem Fits.addi (d : GReg) (a : GReg) (imm : Imm15) : Fits.Statement (.addi d a imm) := fits_of rfl (.inr rfl) (by
  have := d.isLt; have := a.isLt; have := imm.isLt; unfold encI; omega)
theorem Fits.andi (d : GReg) (a : GReg) (imm : Imm15) : Fits.Statement (.andi d a imm) := fits_of rfl (.inr rfl) (by
  have := d.isLt; have := a.isLt; have := imm.isLt; unfold encI; omega)
theorem Fits.ori (d : GReg) (a : GReg) (imm : Imm15) : Fits.Statement (.ori d a imm) := fits_of rfl (.inr rfl) (by
  have := d.isLt; have := a.isLt; have := imm.isLt; unfold encI; omega)
theorem Fits.xori (d : GReg) (a : GReg) (imm : Imm15) : Fits.Statement (.xori d a imm) := fits_of rfl (.inr rfl) (by
  have := d.isLt; have := a.isLt; have := imm.isLt; unfold encI; omega)
theorem Fits.slti (d : GReg) (a : GReg) (imm : Imm15) : Fits.Statement (.slti d a imm) := fits_of rfl (.inr rfl) (by
  have := d.isLt; have := a.isLt; have := imm.isLt; unfold encI; omega)
theorem Fits.slli (d : GReg) (a : GReg) (n : Sh6) : Fits.Statement (.slli d a n) := fits_of rfl (.inr rfl) (by
  have := d.isLt; have := a.isLt; have := n.isLt; unfold encI; omega)
theorem Fits.srli (d : GReg) (a : GReg) (n : Sh6) : Fits.Statement (.srli d a n) := fits_of rfl (.inr rfl) (by
  have := d.isLt; have := a.isLt; have := n.isLt; unfold encI; omega)
theorem Fits.srai (d : GReg) (a : GReg) (n : Sh6) : Fits.Statement (.srai d a n) := fits_of rfl (.inr rfl) (by
  have := d.isLt; have := a.isLt; have := n.isLt; unfold encI; omega)
theorem Fits.rori (d : GReg) (a : GReg) (n : Sh6) : Fits.Statement (.rori d a n) := fits_of rfl (.inr rfl) (by
  have := d.isLt; have := a.isLt; have := n.isLt; unfold encI; omega)
theorem Fits.ldk (d : GReg) (imm : Imm15) : Fits.Statement (.ldk d imm) := fits_of rfl (.inr rfl) (by
  have := d.isLt; have := imm.isLt; unfold encI; omega)
theorem Fits.setx (e : EReg) (a : GReg) : Fits.Statement (.setx e a) := fits_of rfl (.inr rfl) (by
  have := e.isLt; have := a.isLt; unfold encR; omega)
theorem Fits.getx (d : GReg) (e : EReg) : Fits.Statement (.getx d e) := fits_of rfl (.inr rfl) (by
  have := d.isLt; have := e.isLt; unfold encR; omega)
theorem Fits.beq (a : GReg) (b : GReg) (off : Off12) : Fits.Statement (.beq a b off) := fits_of rfl (.inr rfl) (by
  have := a.isLt; have := b.isLt; have := off.isLt; unfold encB; omega)
theorem Fits.bne (a : GReg) (b : GReg) (off : Off12) : Fits.Statement (.bne a b off) := fits_of rfl (.inr rfl) (by
  have := a.isLt; have := b.isLt; have := off.isLt; unfold encB; omega)
theorem Fits.blt (a : GReg) (b : GReg) (off : Off12) : Fits.Statement (.blt a b off) := fits_of rfl (.inr rfl) (by
  have := a.isLt; have := b.isLt; have := off.isLt; unfold encB; omega)
theorem Fits.bge (a : GReg) (b : GReg) (off : Off12) : Fits.Statement (.bge a b off) := fits_of rfl (.inr rfl) (by
  have := a.isLt; have := b.isLt; have := off.isLt; unfold encB; omega)
theorem Fits.bltn (a : GReg) (b : GReg) (off : Off12) : Fits.Statement (.bltn a b off) := fits_of rfl (.inr rfl) (by
  have := a.isLt; have := b.isLt; have := off.isLt; unfold encB; omega)
theorem Fits.bgen (a : GReg) (b : GReg) (off : Off12) : Fits.Statement (.bgen a b off) := fits_of rfl (.inr rfl) (by
  have := a.isLt; have := b.isLt; have := off.isLt; unfold encB; omega)
theorem Fits.bbs (a : GReg) (bit : GReg) (off : Off12) : Fits.Statement (.bbs a bit off) := fits_of rfl (.inr rfl) (by
  have := a.isLt; have := bit.isLt; have := off.isLt; unfold encB; omega)
theorem Fits.bbc (a : GReg) (bit : GReg) (off : Off12) : Fits.Statement (.bbc a bit off) := fits_of rfl (.inr rfl) (by
  have := a.isLt; have := bit.isLt; have := off.isLt; unfold encB; omega)
theorem Fits.jal (d : GReg) (off : Off20) : Fits.Statement (.jal d off) := fits_of rfl (.inr rfl) (by
  have := d.isLt; have := off.isLt; unfold encJ; omega)
theorem Fits.jalr (d : GReg) (a : GReg) (imm : Imm15) : Fits.Statement (.jalr d a imm) := fits_of rfl (.inr rfl) (by
  have := d.isLt; have := a.isLt; have := imm.isLt; unfold encI; omega)
theorem Fits.park (a : GReg) : Fits.Statement (.park a) := fits_of rfl (.inr rfl) (by
  have := a.isLt; unfold encR; omega)
theorem Fits.csrr (d : GReg) (csr : CsrNo) : Fits.Statement (.csrr d csr) := fits_of rfl (.inr rfl) (by
  have := d.isLt; have := csr.isLt; unfold encI; omega)
theorem Fits.csrw (csr : CsrNo) (a : GReg) : Fits.Statement (.csrw csr a) := fits_of rfl (.inr rfl) (by
  have := csr.isLt; have := a.isLt; unfold encI; omega)
theorem Fits.csrs (d : GReg) (csr : CsrNo) (a : GReg) : Fits.Statement (.csrs d csr a) := fits_of rfl (.inr rfl) (by
  have := d.isLt; have := csr.isLt; have := a.isLt; unfold encI; omega)
theorem Fits.csrc (d : GReg) (csr : CsrNo) (a : GReg) : Fits.Statement (.csrc d csr a) := fits_of rfl (.inr rfl) (by
  have := d.isLt; have := csr.isLt; have := a.isLt; unfold encI; omega)
theorem Fits.csrx (d : GReg) (csr : CsrNo) (a : GReg) : Fits.Statement (.csrx d csr a) := fits_of rfl (.inr rfl) (by
  have := d.isLt; have := csr.isLt; have := a.isLt; unfold encI; omega)
theorem Fits.ldl (la : La) (imm : Imm8) (w : Width) (a : GReg) (d : GReg) : Fits.Statement (.ldl la imm w a d) := fits_of rfl (.inr rfl) (by
  have := la.isLt; have := imm.isLt; have := Width.code_lt w; have := a.isLt; have := d.isLt; unfold encM; omega)
theorem Fits.stl (la : La) (imm : Imm8) (w : Width) (a : GReg) (d : GReg) : Fits.Statement (.stl la imm w a d) := fits_of rfl (.inr rfl) (by
  have := la.isLt; have := imm.isLt; have := Width.code_lt w; have := a.isLt; have := d.isLt; unfold encM; omega)
theorem Fits.ldm (la : La) (imm : Imm8) (w : Width) (a : GReg) (d : GReg) : Fits.Statement (.ldm la imm w a d) := fits_of rfl (.inr rfl) (by
  have := la.isLt; have := imm.isLt; have := Width.code_lt w; have := a.isLt; have := d.isLt; unfold encM; omega)
theorem Fits.stm (la : La) (imm : Imm8) (w : Width) (a : GReg) (d : GReg) : Fits.Statement (.stm la imm w a d) := fits_of rfl (.inr rfl) (by
  have := la.isLt; have := imm.isLt; have := Width.code_lt w; have := a.isLt; have := d.isLt; unfold encM; omega)
theorem Fits.ldg (la : La) (imm : Imm8) (w : Width) (a : GReg) (d : GReg) : Fits.Statement (.ldg la imm w a d) := fits_of rfl (.inr rfl) (by
  have := la.isLt; have := imm.isLt; have := Width.code_lt w; have := a.isLt; have := d.isLt; unfold encM; omega)
theorem Fits.stg (la : La) (imm : Imm8) (w : Width) (a : GReg) (d : GReg) : Fits.Statement (.stg la imm w a d) := fits_of rfl (.inr rfl) (by
  have := la.isLt; have := imm.isLt; have := Width.code_lt w; have := a.isLt; have := d.isLt; unfold encM; omega)
theorem Fits.ldh (la : La) (imm : Imm8) (natural : Bool) (a : GReg) (d : GReg) : Fits.Statement (.ldh la imm natural a d) := fits_of rfl (.inr rfl) (by
  have := la.isLt; have := imm.isLt; have := b2n_lt natural; have := a.isLt; have := d.isLt; unfold encM; omega)
theorem Fits.pub (la : La) (imm : Imm8) (a : GReg) (d : GReg) : Fits.Statement (.pub la imm a d) := fits_of rfl (.inr rfl) (by
  have := la.isLt; have := imm.isLt; have := a.isLt; have := d.isLt; unfold encM; omega)
theorem Fits.ldws (la : La) (imm : Imm8) (w : Width) (a : GReg) (d : GReg) : Fits.Statement (.ldws la imm w a d) := fits_of rfl (.inr rfl) (by
  have := la.isLt; have := imm.isLt; have := Width.code_lt w; have := a.isLt; have := d.isLt; unfold encM; omega)
theorem Fits.stws (la : La) (imm : Imm8) (w : Width) (a : GReg) (d : GReg) : Fits.Statement (.stws la imm w a d) := fits_of rfl (.inr rfl) (by
  have := la.isLt; have := imm.isLt; have := Width.code_lt w; have := a.isLt; have := d.isLt; unfold encM; omega)
theorem Fits.ldas (la : La) (imm : Imm8) (w : Width) (a : GReg) (d : GReg) : Fits.Statement (.ldas la imm w a d) := fits_of rfl (.inr rfl) (by
  have := la.isLt; have := imm.isLt; have := Width.code_lt w; have := a.isLt; have := d.isLt; unfold encM; omega)
theorem Fits.stas (la : La) (imm : Imm8) (w : Width) (a : GReg) (d : GReg) : Fits.Statement (.stas la imm w a d) := fits_of rfl (.inr rfl) (by
  have := la.isLt; have := imm.isLt; have := Width.code_lt w; have := a.isLt; have := d.isLt; unfold encM; omega)
theorem Fits.ldcs (la : La) (imm : Imm8) (w : Width) (a : GReg) (d : GReg) : Fits.Statement (.ldcs la imm w a d) := fits_of rfl (.inr rfl) (by
  have := la.isLt; have := imm.isLt; have := Width.code_lt w; have := a.isLt; have := d.isLt; unfold encM; omega)
theorem Fits.stcs (la : La) (imm : Imm8) (w : Width) (a : GReg) (d : GReg) : Fits.Statement (.stcs la imm w a d) := fits_of rfl (.inr rfl) (by
  have := la.isLt; have := imm.isLt; have := Width.code_lt w; have := a.isLt; have := d.isLt; unfold encM; omega)
theorem Fits.ldflC (imm : Imm8) (sz : FeSize) (a : GReg) (d : GReg) : Fits.Statement (.ldflC imm sz a d) := fits_of rfl (.inr rfl) (by
  have := imm.isLt; have := FeSize.code_lt sz; have := a.isLt; have := d.isLt; unfold encM; omega)
theorem Fits.ldflP (imm : Imm8) (sz : FeSize) (a : GReg) (d : GReg) : Fits.Statement (.ldflP imm sz a d) := fits_of rfl (.inr rfl) (by
  have := imm.isLt; have := FeSize.code_lt sz; have := a.isLt; have := d.isLt; unfold encM; omega)
theorem Fits.stflF (imm : Imm8) (sz : FeSize) (a : GReg) (d : GReg) : Fits.Statement (.stflF imm sz a d) := fits_of rfl (.inr rfl) (by
  have := imm.isLt; have := FeSize.code_lt sz; have := a.isLt; have := d.isLt; unfold encM; omega)
theorem Fits.stflX (imm : Imm8) (sz : FeSize) (a : GReg) (d : GReg) : Fits.Statement (.stflX imm sz a d) := fits_of rfl (.inr rfl) (by
  have := imm.isLt; have := FeSize.code_lt sz; have := a.isLt; have := d.isLt; unfold encM; omega)
theorem Fits.stflE (imm : Imm8) (a : GReg) : Fits.Statement (.stflE imm a) := fits_of rfl (.inr rfl) (by
  have := imm.isLt; have := a.isLt; unfold encM; omega)
theorem Fits.ldfmC (imm : Imm8) (sz : FeSize) (a : GReg) (d : GReg) : Fits.Statement (.ldfmC imm sz a d) := fits_of rfl (.inr rfl) (by
  have := imm.isLt; have := FeSize.code_lt sz; have := a.isLt; have := d.isLt; unfold encM; omega)
theorem Fits.ldfmP (imm : Imm8) (sz : FeSize) (a : GReg) (d : GReg) : Fits.Statement (.ldfmP imm sz a d) := fits_of rfl (.inr rfl) (by
  have := imm.isLt; have := FeSize.code_lt sz; have := a.isLt; have := d.isLt; unfold encM; omega)
theorem Fits.stfmF (imm : Imm8) (sz : FeSize) (a : GReg) (d : GReg) : Fits.Statement (.stfmF imm sz a d) := fits_of rfl (.inr rfl) (by
  have := imm.isLt; have := FeSize.code_lt sz; have := a.isLt; have := d.isLt; unfold encM; omega)
theorem Fits.stfmX (imm : Imm8) (sz : FeSize) (a : GReg) (d : GReg) : Fits.Statement (.stfmX imm sz a d) := fits_of rfl (.inr rfl) (by
  have := imm.isLt; have := FeSize.code_lt sz; have := a.isLt; have := d.isLt; unfold encM; omega)
theorem Fits.stfmE (imm : Imm8) (a : GReg) : Fits.Statement (.stfmE imm a) := fits_of rfl (.inr rfl) (by
  have := imm.isLt; have := a.isLt; unfold encM; omega)
theorem Fits.ldfgC (imm : Imm8) (a : GReg) (d : GReg) : Fits.Statement (.ldfgC imm a d) := fits_of rfl (.inr rfl) (by
  have := imm.isLt; have := a.isLt; have := d.isLt; unfold encM; omega)
theorem Fits.ldfgP (imm : Imm8) (a : GReg) (d : GReg) : Fits.Statement (.ldfgP imm a d) := fits_of rfl (.inr rfl) (by
  have := imm.isLt; have := a.isLt; have := d.isLt; unfold encM; omega)
theorem Fits.stfgF (imm : Imm8) (a : GReg) (d : GReg) : Fits.Statement (.stfgF imm a d) := fits_of rfl (.inr rfl) (by
  have := imm.isLt; have := a.isLt; have := d.isLt; unfold encM; omega)
theorem Fits.stfgX (imm : Imm8) (a : GReg) (d : GReg) : Fits.Statement (.stfgX imm a d) := fits_of rfl (.inr rfl) (by
  have := imm.isLt; have := a.isLt; have := d.isLt; unfold encM; omega)
theorem Fits.stfgE (imm : Imm8) (a : GReg) : Fits.Statement (.stfgE imm a) := fits_of rfl (.inr rfl) (by
  have := imm.isLt; have := a.isLt; unfold encM; omega)
theorem Fits.amoAddW (sp : AmoSpace) (o : AmoOrder) (sc : Scope) (d : GReg) (b : GReg) (a : GReg) : Fits.Statement (.amoAddW sp o sc d b a) := fits_of rfl (.inr rfl) (by
  have := AmoSpace.code_lt sp; have := AmoOrder.code_lt o; have := Scope.code_lt sc; have := d.isLt; have := b.isLt; have := a.isLt; unfold encR; omega)
theorem Fits.amoAddD (sp : AmoSpace) (o : AmoOrder) (sc : Scope) (d : GReg) (b : GReg) (a : GReg) : Fits.Statement (.amoAddD sp o sc d b a) := fits_of rfl (.inr rfl) (by
  have := AmoSpace.code_lt sp; have := AmoOrder.code_lt o; have := Scope.code_lt sc; have := d.isLt; have := b.isLt; have := a.isLt; unfold encR; omega)
theorem Fits.amoAndD (sp : AmoSpace) (o : AmoOrder) (sc : Scope) (d : GReg) (b : GReg) (a : GReg) : Fits.Statement (.amoAndD sp o sc d b a) := fits_of rfl (.inr rfl) (by
  have := AmoSpace.code_lt sp; have := AmoOrder.code_lt o; have := Scope.code_lt sc; have := d.isLt; have := b.isLt; have := a.isLt; unfold encR; omega)
theorem Fits.amoOrD (sp : AmoSpace) (o : AmoOrder) (sc : Scope) (d : GReg) (b : GReg) (a : GReg) : Fits.Statement (.amoOrD sp o sc d b a) := fits_of rfl (.inr rfl) (by
  have := AmoSpace.code_lt sp; have := AmoOrder.code_lt o; have := Scope.code_lt sc; have := d.isLt; have := b.isLt; have := a.isLt; unfold encR; omega)
theorem Fits.amoXorD (sp : AmoSpace) (o : AmoOrder) (sc : Scope) (d : GReg) (b : GReg) (a : GReg) : Fits.Statement (.amoXorD sp o sc d b a) := fits_of rfl (.inr rfl) (by
  have := AmoSpace.code_lt sp; have := AmoOrder.code_lt o; have := Scope.code_lt sc; have := d.isLt; have := b.isLt; have := a.isLt; unfold encR; omega)
theorem Fits.amoMinD (sp : AmoSpace) (o : AmoOrder) (sc : Scope) (d : GReg) (b : GReg) (a : GReg) : Fits.Statement (.amoMinD sp o sc d b a) := fits_of rfl (.inr rfl) (by
  have := AmoSpace.code_lt sp; have := AmoOrder.code_lt o; have := Scope.code_lt sc; have := d.isLt; have := b.isLt; have := a.isLt; unfold encR; omega)
theorem Fits.amoMaxD (sp : AmoSpace) (o : AmoOrder) (sc : Scope) (d : GReg) (b : GReg) (a : GReg) : Fits.Statement (.amoMaxD sp o sc d b a) := fits_of rfl (.inr rfl) (by
  have := AmoSpace.code_lt sp; have := AmoOrder.code_lt o; have := Scope.code_lt sc; have := d.isLt; have := b.isLt; have := a.isLt; unfold encR; omega)
theorem Fits.amoMinnD (sp : AmoSpace) (o : AmoOrder) (sc : Scope) (d : GReg) (b : GReg) (a : GReg) : Fits.Statement (.amoMinnD sp o sc d b a) := fits_of rfl (.inr rfl) (by
  have := AmoSpace.code_lt sp; have := AmoOrder.code_lt o; have := Scope.code_lt sc; have := d.isLt; have := b.isLt; have := a.isLt; unfold encR; omega)
theorem Fits.amoMaxnD (sp : AmoSpace) (o : AmoOrder) (sc : Scope) (d : GReg) (b : GReg) (a : GReg) : Fits.Statement (.amoMaxnD sp o sc d b a) := fits_of rfl (.inr rfl) (by
  have := AmoSpace.code_lt sp; have := AmoOrder.code_lt o; have := Scope.code_lt sc; have := d.isLt; have := b.isLt; have := a.isLt; unfold encR; omega)
theorem Fits.amoSwapW (sp : AmoSpace) (o : AmoOrder) (sc : Scope) (d : GReg) (b : GReg) (a : GReg) : Fits.Statement (.amoSwapW sp o sc d b a) := fits_of rfl (.inr rfl) (by
  have := AmoSpace.code_lt sp; have := AmoOrder.code_lt o; have := Scope.code_lt sc; have := d.isLt; have := b.isLt; have := a.isLt; unfold encR; omega)
theorem Fits.amoSwapD (sp : AmoSpace) (o : AmoOrder) (sc : Scope) (d : GReg) (b : GReg) (a : GReg) : Fits.Statement (.amoSwapD sp o sc d b a) := fits_of rfl (.inr rfl) (by
  have := AmoSpace.code_lt sp; have := AmoOrder.code_lt o; have := Scope.code_lt sc; have := d.isLt; have := b.isLt; have := a.isLt; unfold encR; omega)
theorem Fits.amoCasW (sp : AmoSpace) (o : AmoOrder) (sc : Scope) (d : GReg) (b : GReg) (a : GReg) : Fits.Statement (.amoCasW sp o sc d b a) := fits_of rfl (.inr rfl) (by
  have := AmoSpace.code_lt sp; have := AmoOrder.code_lt o; have := Scope.code_lt sc; have := d.isLt; have := b.isLt; have := a.isLt; unfold encR; omega)
theorem Fits.amoCasD (sp : AmoSpace) (o : AmoOrder) (sc : Scope) (d : GReg) (b : GReg) (a : GReg) : Fits.Statement (.amoCasD sp o sc d b a) := fits_of rfl (.inr rfl) (by
  have := AmoSpace.code_lt sp; have := AmoOrder.code_lt o; have := Scope.code_lt sc; have := d.isLt; have := b.isLt; have := a.isLt; unfold encR; omega)
theorem Fits.amoFaddU (sp : AmoSpace) (o : AmoOrder) (sc : Scope) (d : GReg) (b : GReg) (a : GReg) : Fits.Statement (.amoFaddU sp o sc d b a) := fits_of rfl (.inr rfl) (by
  have := AmoSpace.code_lt sp; have := AmoOrder.code_lt o; have := Scope.code_lt sc; have := d.isLt; have := b.isLt; have := a.isLt; unfold encR; omega)
theorem Fits.amoFmax (sp : AmoSpace) (o : AmoOrder) (sc : Scope) (d : GReg) (b : GReg) (a : GReg) : Fits.Statement (.amoFmax sp o sc d b a) := fits_of rfl (.inr rfl) (by
  have := AmoSpace.code_lt sp; have := AmoOrder.code_lt o; have := Scope.code_lt sc; have := d.isLt; have := b.isLt; have := a.isLt; unfold encR; omega)
theorem Fits.amoFmin (sp : AmoSpace) (o : AmoOrder) (sc : Scope) (d : GReg) (b : GReg) (a : GReg) : Fits.Statement (.amoFmin sp o sc d b a) := fits_of rfl (.inr rfl) (by
  have := AmoSpace.code_lt sp; have := AmoOrder.code_lt o; have := Scope.code_lt sc; have := d.isLt; have := b.isLt; have := a.isLt; unfold encR; omega)
theorem Fits.amoEsadd (sp : AmoSpace) (o : AmoOrder) (sc : Scope) (b : GReg) (a : GReg) : Fits.Statement (.amoEsadd sp o sc b a) := fits_of rfl (.inr rfl) (by
  have := AmoSpace.code_lt sp; have := AmoOrder.code_lt o; have := Scope.code_lt sc; have := b.isLt; have := a.isLt; unfold encR; omega)
theorem Fits.amoEsrd (sp : AmoSpace) (o : AmoOrder) (sc : Scope) (d : GReg) (a : GReg) : Fits.Statement (.amoEsrd sp o sc d a) := fits_of rfl (.inr rfl) (by
  have := AmoSpace.code_lt sp; have := AmoOrder.code_lt o; have := Scope.code_lt sc; have := d.isLt; have := a.isLt; unfold encR; omega)
theorem Fits.amoEsclr (sp : AmoSpace) (o : AmoOrder) (sc : Scope) (a : GReg) : Fits.Statement (.amoEsclr sp o sc a) := fits_of rfl (.inr rfl) (by
  have := AmoSpace.code_lt sp; have := AmoOrder.code_lt o; have := Scope.code_lt sc; have := a.isLt; unfold encR; omega)
theorem Fits.fenceAcq : Fits.Statement (.fenceAcq) := fits_of rfl (.inr rfl) (by
  unfold encR; omega)
theorem Fits.fenceRel : Fits.Statement (.fenceRel) := fits_of rfl (.inr rfl) (by
  unfold encR; omega)
theorem Fits.fenceFull : Fits.Statement (.fenceFull) := fits_of rfl (.inr rfl) (by
  unfold encR; omega)
theorem Fits.spawn (d : GReg) (a : GReg) (b : GReg) : Fits.Statement (.spawn d a b) := fits_of rfl (.inr rfl) (by
  have := d.isLt; have := a.isLt; have := b.isLt; unfold encR; omega)
theorem Fits.spawnH (d : GReg) (a : GReg) (b : GReg) : Fits.Statement (.spawnH d a b) := fits_of rfl (.inr rfl) (by
  have := d.isLt; have := a.isLt; have := b.isLt; unfold encR; omega)
theorem Fits.sendm (d : GReg) (a : GReg) (b : GReg) : Fits.Statement (.sendm d a b) := fits_of rfl (.inr rfl) (by
  have := d.isLt; have := a.isLt; have := b.isLt; unfold encR; omega)
theorem Fits.recvm (d : GReg) (a : GReg) : Fits.Statement (.recvm d a) := fits_of rfl (.inr rfl) (by
  have := d.isLt; have := a.isLt; unfold encR; omega)
theorem Fits.recvmO (d : GReg) (a : GReg) : Fits.Statement (.recvmO d a) := fits_of rfl (.inr rfl) (by
  have := d.isLt; have := a.isLt; unfold encR; omega)
theorem Fits.peekm (d : GReg) (a : GReg) : Fits.Statement (.peekm d a) := fits_of rfl (.inr rfl) (by
  have := d.isLt; have := a.isLt; unfold encR; omega)
theorem Fits.clre (cls : ClreClass) (i : GReg) : Fits.Statement (.clre cls i) := fits_of rfl (.inr rfl) (by
  have := ClreClass.code_lt cls; have := i.isLt; unfold encR; omega)
theorem Fits.isfull (d : GReg) (cls : RegClass) (i : GReg) : Fits.Statement (.isfull d cls i) := fits_of rfl (.inr rfl) (by
  have := d.isLt; have := RegClass.code_lt cls; have := i.isLt; unfold encR; omega)
theorem Fits.putr (la : La) (a : GReg) (b : GReg) : Fits.Statement (.putr la a b) := fits_of rfl (.inr rfl) (by
  have := la.isLt; have := a.isLt; have := b.isLt; unfold encR; omega)
theorem Fits.tid (d : GReg) : Fits.Statement (.tid d) := fits_of rfl (.inr rfl) (by
  have := d.isLt; unfold encR; omega)
theorem Fits.fork (mask : SeqMask) (ea : EReg) (eb : EReg) : Fits.Statement (.fork mask ea eb) := fits_of rfl (.inr rfl) (by
  have := mask.isLt; have := ea.isLt; have := eb.isLt; unfold encE; omega)
theorem Fits.kick (vector : Bool) (ea : EReg) : Fits.Statement (.kick vector ea) := fits_of rfl (.inr rfl) (by
  have := b2n_lt vector; have := ea.isLt; unfold encE; omega)
theorem Fits.wlpush (d : GReg) (a : GReg) (b : GReg) : Fits.Statement (.wlpush d a b) := fits_of rfl (.inr rfl) (by
  have := d.isLt; have := a.isLt; have := b.isLt; unfold encR; omega)
theorem Fits.wlpop (d : GReg) (a : GReg) : Fits.Statement (.wlpop d a) := fits_of rfl (.inr rfl) (by
  have := d.isLt; have := a.isLt; unfold encR; omega)
theorem Fits.wlcnt (d : GReg) : Fits.Statement (.wlcnt d) := fits_of rfl (.inr rfl) (by
  have := d.isLt; unfold encR; omega)
theorem Fits.tbar (d : GReg) : Fits.Statement (.tbar d) := fits_of rfl (.inr rfl) (by
  have := d.isLt; unfold encR; omega)
theorem Fits.qbar (d : GReg) : Fits.Statement (.qbar d) := fits_of rfl (.inr rfl) (by
  have := d.isLt; unfold encR; omega)
theorem Fits.clbar (d : GReg) : Fits.Statement (.clbar d) := fits_of rfl (.inr rfl) (by
  have := d.isLt; unfold encR; omega)
theorem Fits.stepidle (a : GReg) : Fits.Statement (.stepidle a) := fits_of rfl (.inr rfl) (by
  have := a.isLt; unfold encR; omega)
theorem Fits.cpyLm (la : La) (n : GLow) (ec : EReg) (eb : EReg) (ea : EReg) : Fits.Statement (.cpyLm la n ec eb ea) := fits_of rfl (.inr rfl) (by
  have := la.isLt; have := n.isLt; have := ec.isLt; have := eb.isLt; have := ea.isLt; unfold encE; omega)
theorem Fits.cpyGl (la : La) (n : GLow) (ec : EReg) (eb : EReg) (ea : EReg) : Fits.Statement (.cpyGl la n ec eb ea) := fits_of rfl (.inr rfl) (by
  have := la.isLt; have := n.isLt; have := ec.isLt; have := eb.isLt; have := ea.isLt; unfold encE; omega)
theorem Fits.cpyLg (la : La) (n : GLow) (ec : EReg) (eb : EReg) (ea : EReg) : Fits.Statement (.cpyLg la n ec eb ea) := fits_of rfl (.inr rfl) (by
  have := la.isLt; have := n.isLt; have := ec.isLt; have := eb.isLt; have := ea.isLt; unfold encE; omega)
theorem Fits.cpyGg (la : La) (n : GLow) (ec : EReg) (eb : EReg) (ea : EReg) : Fits.Statement (.cpyGg la n ec eb ea) := fits_of rfl (.inr rfl) (by
  have := la.isLt; have := n.isLt; have := ec.isLt; have := eb.isLt; have := ea.isLt; unfold encE; omega)
theorem Fits.cpyx (n : GLow) : Fits.Statement (.cpyx n) := fits_of rfl (.inr rfl) (by
  have := n.isLt; unfold encE; omega)
theorem Fits.launch (ea : EReg) : Fits.Statement (.launch ea) := fits_of rfl (.inr rfl) (by
  have := ea.isLt; unfold encE; omega)
theorem Fits.vadd (t : FTy) (rm : Rm) (k : KReg) (b : VReg) (a : VReg) (d : VReg) : Fits.Statement (.vadd t rm k b a d) := fits_of rfl (.inr rfl) (by
  have := FTy.code_lt t; have := Rm.code_lt rm; have := k.isLt; have := b.isLt; have := a.isLt; have := d.isLt; unfold encV; omega)
theorem Fits.vsub (t : FTy) (rm : Rm) (k : KReg) (b : VReg) (a : VReg) (d : VReg) : Fits.Statement (.vsub t rm k b a d) := fits_of rfl (.inr rfl) (by
  have := FTy.code_lt t; have := Rm.code_lt rm; have := k.isLt; have := b.isLt; have := a.isLt; have := d.isLt; unfold encV; omega)
theorem Fits.vmul (t : FTy) (rm : Rm) (k : KReg) (b : VReg) (a : VReg) (d : VReg) : Fits.Statement (.vmul t rm k b a d) := fits_of rfl (.inr rfl) (by
  have := FTy.code_lt t; have := Rm.code_lt rm; have := k.isLt; have := b.isLt; have := a.isLt; have := d.isLt; unfold encV; omega)
theorem Fits.vfma (t : FTy) (rm : Rm) (k : KReg) (b : VReg) (a : VReg) (d : VReg) : Fits.Statement (.vfma t rm k b a d) := fits_of rfl (.inr rfl) (by
  have := FTy.code_lt t; have := Rm.code_lt rm; have := k.isLt; have := b.isLt; have := a.isLt; have := d.isLt; unfold encV; omega)
theorem Fits.vfms (t : FTy) (rm : Rm) (k : KReg) (b : VReg) (a : VReg) (d : VReg) : Fits.Statement (.vfms t rm k b a d) := fits_of rfl (.inr rfl) (by
  have := FTy.code_lt t; have := Rm.code_lt rm; have := k.isLt; have := b.isLt; have := a.isLt; have := d.isLt; unfold encV; omega)
theorem Fits.vfnma (t : FTy) (rm : Rm) (k : KReg) (b : VReg) (a : VReg) (d : VReg) : Fits.Statement (.vfnma t rm k b a d) := fits_of rfl (.inr rfl) (by
  have := FTy.code_lt t; have := Rm.code_lt rm; have := k.isLt; have := b.isLt; have := a.isLt; have := d.isLt; unfold encV; omega)
theorem Fits.vmax (t : FTy) (k : KReg) (b : VReg) (a : VReg) (d : VReg) : Fits.Statement (.vmax t k b a d) := fits_of rfl (.inr rfl) (by
  have := FTy.code_lt t; have := k.isLt; have := b.isLt; have := a.isLt; have := d.isLt; unfold encV; omega)
theorem Fits.vmin (t : FTy) (k : KReg) (b : VReg) (a : VReg) (d : VReg) : Fits.Statement (.vmin t k b a d) := fits_of rfl (.inr rfl) (by
  have := FTy.code_lt t; have := k.isLt; have := b.isLt; have := a.isLt; have := d.isLt; unfold encV; omega)
theorem Fits.vabs (t : FTy) (k : KReg) (a : VReg) (d : VReg) : Fits.Statement (.vabs t k a d) := fits_of rfl (.inr rfl) (by
  have := FTy.code_lt t; have := k.isLt; have := a.isLt; have := d.isLt; unfold encV; omega)
theorem Fits.vneg (t : FTy) (k : KReg) (a : VReg) (d : VReg) : Fits.Statement (.vneg t k a d) := fits_of rfl (.inr rfl) (by
  have := FTy.code_lt t; have := k.isLt; have := a.isLt; have := d.isLt; unfold encV; omega)
theorem Fits.vceq (t : FTy) (k : KReg) (b : VReg) (a : VReg) (kd : KReg) : Fits.Statement (.vceq t k b a kd) := fits_of rfl (.inr rfl) (by
  have := FTy.code_lt t; have := k.isLt; have := b.isLt; have := a.isLt; have := kd.isLt; unfold encV; omega)
theorem Fits.vclt (t : FTy) (k : KReg) (b : VReg) (a : VReg) (kd : KReg) : Fits.Statement (.vclt t k b a kd) := fits_of rfl (.inr rfl) (by
  have := FTy.code_lt t; have := k.isLt; have := b.isLt; have := a.isLt; have := kd.isLt; unfold encV; omega)
theorem Fits.vcle (t : FTy) (k : KReg) (b : VReg) (a : VReg) (kd : KReg) : Fits.Statement (.vcle t k b a kd) := fits_of rfl (.inr rfl) (by
  have := FTy.code_lt t; have := k.isLt; have := b.isLt; have := a.isLt; have := kd.isLt; unfold encV; omega)
theorem Fits.vsel (t : FTy) (k : KReg) (b : VReg) (a : VReg) (d : VReg) : Fits.Statement (.vsel t k b a d) := fits_of rfl (.inr rfl) (by
  have := FTy.code_lt t; have := k.isLt; have := b.isLt; have := a.isLt; have := d.isLt; unfold encV; omega)
theorem Fits.vrcp (t : FTy) (rm : Rm) (k : KReg) (a : VReg) (d : VReg) : Fits.Statement (.vrcp t rm k a d) := fits_of rfl (.inr rfl) (by
  have := FTy.code_lt t; have := Rm.code_lt rm; have := k.isLt; have := a.isLt; have := d.isLt; unfold encV; omega)
theorem Fits.vrsq (t : FTy) (rm : Rm) (k : KReg) (a : VReg) (d : VReg) : Fits.Statement (.vrsq t rm k a d) := fits_of rfl (.inr rfl) (by
  have := FTy.code_lt t; have := Rm.code_lt rm; have := k.isLt; have := a.isLt; have := d.isLt; unfold encV; omega)
theorem Fits.vsqrt (t : FTy) (rm : Rm) (k : KReg) (a : VReg) (d : VReg) : Fits.Statement (.vsqrt t rm k a d) := fits_of rfl (.inr rfl) (by
  have := FTy.code_lt t; have := Rm.code_lt rm; have := k.isLt; have := a.isLt; have := d.isLt; unfold encV; omega)
theorem Fits.vexp2 (t : FTy) (k : KReg) (a : VReg) (d : VReg) : Fits.Statement (.vexp2 t k a d) := fits_of rfl (.inr rfl) (by
  have := FTy.code_lt t; have := k.isLt; have := a.isLt; have := d.isLt; unfold encV; omega)
theorem Fits.vlog2 (t : FTy) (k : KReg) (a : VReg) (d : VReg) : Fits.Statement (.vlog2 t k a d) := fits_of rfl (.inr rfl) (by
  have := FTy.code_lt t; have := k.isLt; have := a.isLt; have := d.isLt; unfold encV; omega)
theorem Fits.vtanh (t : FTy) (k : KReg) (a : VReg) (d : VReg) : Fits.Statement (.vtanh t k a d) := fits_of rfl (.inr rfl) (by
  have := FTy.code_lt t; have := k.isLt; have := a.isLt; have := d.isLt; unfold encV; omega)
theorem Fits.vamaxu (t : FTy) (k : KReg) (j : Slot4) (a : VReg) : Fits.Statement (.vamaxu t k j a) := fits_of rfl (.inr rfl) (by
  have := FTy.code_lt t; have := k.isLt; have := j.isLt; have := a.isLt; unfold encV; omega)
theorem Fits.viadd (t : ITy) (k : KReg) (b : VReg) (a : VReg) (d : VReg) : Fits.Statement (.viadd t k b a d) := fits_of rfl (.inr rfl) (by
  have := ITy.code_lt t; have := k.isLt; have := b.isLt; have := a.isLt; have := d.isLt; unfold encV; omega)
theorem Fits.visub (t : ITy) (k : KReg) (b : VReg) (a : VReg) (d : VReg) : Fits.Statement (.visub t k b a d) := fits_of rfl (.inr rfl) (by
  have := ITy.code_lt t; have := k.isLt; have := b.isLt; have := a.isLt; have := d.isLt; unfold encV; omega)
theorem Fits.vimul (t : ITy) (k : KReg) (b : VReg) (a : VReg) (d : VReg) : Fits.Statement (.vimul t k b a d) := fits_of rfl (.inr rfl) (by
  have := ITy.code_lt t; have := k.isLt; have := b.isLt; have := a.isLt; have := d.isLt; unfold encV; omega)
theorem Fits.viand (t : ITy) (k : KReg) (b : VReg) (a : VReg) (d : VReg) : Fits.Statement (.viand t k b a d) := fits_of rfl (.inr rfl) (by
  have := ITy.code_lt t; have := k.isLt; have := b.isLt; have := a.isLt; have := d.isLt; unfold encV; omega)
theorem Fits.vior (t : ITy) (k : KReg) (b : VReg) (a : VReg) (d : VReg) : Fits.Statement (.vior t k b a d) := fits_of rfl (.inr rfl) (by
  have := ITy.code_lt t; have := k.isLt; have := b.isLt; have := a.isLt; have := d.isLt; unfold encV; omega)
theorem Fits.vixor (t : ITy) (k : KReg) (b : VReg) (a : VReg) (d : VReg) : Fits.Statement (.vixor t k b a d) := fits_of rfl (.inr rfl) (by
  have := ITy.code_lt t; have := k.isLt; have := b.isLt; have := a.isLt; have := d.isLt; unfold encV; omega)
theorem Fits.vishl (t : ITy) (k : KReg) (b : VReg) (a : VReg) (d : VReg) : Fits.Statement (.vishl t k b a d) := fits_of rfl (.inr rfl) (by
  have := ITy.code_lt t; have := k.isLt; have := b.isLt; have := a.isLt; have := d.isLt; unfold encV; omega)
theorem Fits.vishr (t : ITy) (k : KReg) (b : VReg) (a : VReg) (d : VReg) : Fits.Statement (.vishr t k b a d) := fits_of rfl (.inr rfl) (by
  have := ITy.code_lt t; have := k.isLt; have := b.isLt; have := a.isLt; have := d.isLt; unfold encV; omega)
theorem Fits.visra (t : ITy) (k : KReg) (b : VReg) (a : VReg) (d : VReg) : Fits.Statement (.visra t k b a d) := fits_of rfl (.inr rfl) (by
  have := ITy.code_lt t; have := k.isLt; have := b.isLt; have := a.isLt; have := d.isLt; unfold encV; omega)
theorem Fits.vimin (t : ITy) (k : KReg) (b : VReg) (a : VReg) (d : VReg) : Fits.Statement (.vimin t k b a d) := fits_of rfl (.inr rfl) (by
  have := ITy.code_lt t; have := k.isLt; have := b.isLt; have := a.isLt; have := d.isLt; unfold encV; omega)
theorem Fits.vimax (t : ITy) (k : KReg) (b : VReg) (a : VReg) (d : VReg) : Fits.Statement (.vimax t k b a d) := fits_of rfl (.inr rfl) (by
  have := ITy.code_lt t; have := k.isLt; have := b.isLt; have := a.isLt; have := d.isLt; unfold encV; omega)
theorem Fits.viadds (t : ITy) (k : KReg) (b : VReg) (a : VReg) (d : VReg) : Fits.Statement (.viadds t k b a d) := fits_of rfl (.inr rfl) (by
  have := ITy.code_lt t; have := k.isLt; have := b.isLt; have := a.isLt; have := d.isLt; unfold encV; omega)
theorem Fits.visubs (t : ITy) (k : KReg) (b : VReg) (a : VReg) (d : VReg) : Fits.Statement (.visubs t k b a d) := fits_of rfl (.inr rfl) (by
  have := ITy.code_lt t; have := k.isLt; have := b.isLt; have := a.isLt; have := d.isLt; unfold encV; omega)
theorem Fits.viceq (t : ITy) (k : KReg) (b : VReg) (a : VReg) (kd : KReg) : Fits.Statement (.viceq t k b a kd) := fits_of rfl (.inr rfl) (by
  have := ITy.code_lt t; have := k.isLt; have := b.isLt; have := a.isLt; have := kd.isLt; unfold encV; omega)
theorem Fits.viclt (t : ITy) (k : KReg) (b : VReg) (a : VReg) (kd : KReg) : Fits.Statement (.viclt t k b a kd) := fits_of rfl (.inr rfl) (by
  have := ITy.code_lt t; have := k.isLt; have := b.isLt; have := a.isLt; have := kd.isLt; unfold encV; omega)
theorem Fits.vcvt (t : CTy) (rm : Rm) (j : Slot4) (widen : Bool) (part : Slot4) (a : VReg) (d : VReg) : Fits.Statement (.vcvt t rm j widen part a d) := fits_of rfl (.inr rfl) (by
  have := CTy.code_lt t; have := Rm.code_lt rm; have := j.isLt; have := b2n_lt widen; have := part.isLt; have := a.isLt; have := d.isLt; unfold encV; omega)
theorem Fits.vquant (t : CTy) (rm : Rm) (j : Slot4) (mode : Slot4) (a : VReg) (d : VReg) : Fits.Statement (.vquant t rm j mode a d) := fits_of rfl (.inr rfl) (by
  have := CTy.code_lt t; have := Rm.code_lt rm; have := j.isLt; have := mode.isLt; have := a.isLt; have := d.isLt; unfold encV; omega)
theorem Fits.vquantv (t : CTy) (rm : Rm) (j : Slot4) (thr : Nib) (a : VReg) (d : VReg) : Fits.Statement (.vquantv t rm j thr a d) := fits_of rfl (.inr rfl) (by
  have := CTy.code_lt t; have := Rm.code_lt rm; have := j.isLt; have := thr.isLt; have := a.isLt; have := d.isLt; unfold encV; omega)
theorem Fits.vdeq (t : CTy) (rm : Rm) (j : Slot4) (mode : Slot4) (a : VReg) (d : VReg) : Fits.Statement (.vdeq t rm j mode a d) := fits_of rfl (.inr rfl) (by
  have := CTy.code_lt t; have := Rm.code_lt rm; have := j.isLt; have := mode.isLt; have := a.isLt; have := d.isLt; unfold encV; omega)
theorem Fits.sclnext (t : CTy) (j : Slot4) : Fits.Statement (.sclnext t j) := fits_of rfl (.inr rfl) (by
  have := CTy.code_lt t; have := j.isLt; unfold encV; omega)
theorem Fits.vpack (t : CTy) (j : Slot4) (b : VReg) (a : VReg) (d : VReg) : Fits.Statement (.vpack t j b a d) := fits_of rfl (.inr rfl) (by
  have := CTy.code_lt t; have := j.isLt; have := b.isLt; have := a.isLt; have := d.isLt; unfold encV; omega)
theorem Fits.vunpk (t : CTy) (j : Slot4) (h : Bool) (a : VReg) (d : VReg) : Fits.Statement (.vunpk t j h a d) := fits_of rfl (.inr rfl) (by
  have := CTy.code_lt t; have := j.isLt; have := b2n_lt h; have := a.isLt; have := d.isLt; unfold encV; omega)
theorem Fits.vrsumO (t : FTy) (k : KReg) (c : Nib) (a : VReg) (d : VReg) : Fits.Statement (.vrsumO t k c a d) := fits_of rfl (.inr rfl) (by
  have := FTy.code_lt t; have := k.isLt; have := c.isLt; have := a.isLt; have := d.isLt; unfold encV; omega)
theorem Fits.vrsumU (t : FTy) (k : KReg) (c : Nib) (a : VReg) (d : VReg) : Fits.Statement (.vrsumU t k c a d) := fits_of rfl (.inr rfl) (by
  have := FTy.code_lt t; have := k.isLt; have := c.isLt; have := a.isLt; have := d.isLt; unfold encV; omega)
theorem Fits.vrmax (t : FTy) (k : KReg) (c : Nib) (a : VReg) (d : VReg) : Fits.Statement (.vrmax t k c a d) := fits_of rfl (.inr rfl) (by
  have := FTy.code_lt t; have := k.isLt; have := c.isLt; have := a.isLt; have := d.isLt; unfold encV; omega)
theorem Fits.vramax (t : FTy) (k : KReg) (c : Nib) (a : VReg) (d : VReg) : Fits.Statement (.vramax t k c a d) := fits_of rfl (.inr rfl) (by
  have := FTy.code_lt t; have := k.isLt; have := c.isLt; have := a.isLt; have := d.isLt; unfold encV; omega)
theorem Fits.vrmin (t : FTy) (k : KReg) (c : Nib) (a : VReg) (d : VReg) : Fits.Statement (.vrmin t k c a d) := fits_of rfl (.inr rfl) (by
  have := FTy.code_lt t; have := k.isLt; have := c.isLt; have := a.isLt; have := d.isLt; unfold encV; omega)
theorem Fits.vshuf (t : EltW) (k : KReg) (b : VReg) (a : VReg) (d : VReg) : Fits.Statement (.vshuf t k b a d) := fits_of rfl (.inr rfl) (by
  have := EltW.code_lt t; have := k.isLt; have := b.isLt; have := a.isLt; have := d.isLt; unfold encV; omega)
theorem Fits.vbcast (t : EltW) (k : KReg) (n : Nib) (a : VReg) (d : VReg) : Fits.Statement (.vbcast t k n a d) := fits_of rfl (.inr rfl) (by
  have := EltW.code_lt t; have := k.isLt; have := n.isLt; have := a.isLt; have := d.isLt; unfold encV; omega)
theorem Fits.vins (g : GReg) (n : Nib) (d : VReg) : Fits.Statement (.vins g n d) := fits_of rfl (.inr rfl) (by
  have := g.isLt; have := n.isLt; have := d.isLt; unfold encVt; omega)
theorem Fits.vext (g : GReg) (n : Nib) (a : VReg) : Fits.Statement (.vext g n a) := fits_of rfl (.inr rfl) (by
  have := g.isLt; have := n.isLt; have := a.isLt; unfold encVt; omega)
theorem Fits.vslide (t : EltW) (k : KReg) (n : Nib) (a : VReg) (d : VReg) : Fits.Statement (.vslide t k n a d) := fits_of rfl (.inr rfl) (by
  have := EltW.code_lt t; have := k.isLt; have := n.isLt; have := a.isLt; have := d.isLt; unfold encV; omega)
theorem Fits.mld (la : La) (bank : Bool) (ea : EReg) : Fits.Statement (.mld la bank ea) := fits_of rfl (.inr rfl) (by
  have := la.isLt; have := b2n_lt bank; have := ea.isLt; unfold encE; omega)
theorem Fits.mma (la : La) (n : CTile) (bank : Bool) (ea : EReg) : Fits.Statement (.mma la n bank ea) := fits_of rfl (.inr rfl) (by
  have := la.isLt; have := n.isLt; have := b2n_lt bank; have := ea.isLt; unfold encE; omega)
theorem Fits.mmaLatch (la : La) (n : CTile) (bank : Bool) : Fits.Statement (.mmaLatch la n bank) := fits_of rfl (.inr rfl) (by
  have := la.isLt; have := n.isLt; have := b2n_lt bank; unfold encE; omega)
theorem Fits.mmat (la : La) (n : CTile) (bank : Bool) (ea : EReg) : Fits.Statement (.mmat la n bank ea) := fits_of rfl (.inr rfl) (by
  have := la.isLt; have := n.isLt; have := b2n_lt bank; have := ea.isLt; unfold encE; omega)
theorem Fits.mmatLatch (la : La) (n : CTile) (bank : Bool) : Fits.Statement (.mmatLatch la n bank) := fits_of rfl (.inr rfl) (by
  have := la.isLt; have := n.isLt; have := b2n_lt bank; unfold encE; omega)
theorem Fits.mout (la : La) (bank : Bool) (eb : EReg) (ea : EReg) : Fits.Statement (.mout la bank eb ea) := fits_of rfl (.inr rfl) (by
  have := la.isLt; have := b2n_lt bank; have := eb.isLt; have := ea.isLt; unfold encE; omega)
theorem Fits.mdrain (la : La) (n : CTile) (bank : Bool) : Fits.Statement (.mdrain la n bank) := fits_of rfl (.inr rfl) (by
  have := la.isLt; have := n.isLt; have := b2n_lt bank; unfold encE; omega)
theorem Fits.mzero (la : La) (n : CTile) (bank : Bool) : Fits.Statement (.mzero la n bank) := fits_of rfl (.inr rfl) (by
  have := la.isLt; have := n.isLt; have := b2n_lt bank; unfold encE; omega)
theorem Fits.ringdef (la : La) (ea : EReg) : Fits.Statement (.ringdef la ea) := fits_of rfl (.inr rfl) (by
  have := la.isLt; have := ea.isLt; unfold encE; omega)
theorem Fits.latch (la : La) (ea : EReg) : Fits.Statement (.latch la ea) := fits_of rfl (.inr rfl) (by
  have := la.isLt; have := ea.isLt; unfold encE; omega)
theorem Fits.brot (la : La) : Fits.Statement (.brot la) := fits_of rfl (.inr rfl) (by
  have := la.isLt; unfold encE; omega)
theorem Fits.qinit (la : La) (q : QReg) : Fits.Statement (.qinit la q) := fits_of rfl (.inr rfl) (by
  have := la.isLt; have := q.isLt; unfold encE; omega)
theorem Fits.qhh (la : La) (n : CTile) (q : QReg) (ea : EReg) : Fits.Statement (.qhh la n q ea) := fits_of rfl (.inr rfl) (by
  have := la.isLt; have := n.isLt; have := q.isLt; have := ea.isLt; unfold encE; omega)
theorem Fits.qapp (la : La) (q : QReg) : Fits.Statement (.qapp la q) := fits_of rfl (.inr rfl) (by
  have := la.isLt; have := q.isLt; unfold encE; omega)
theorem Fits.qgen (la : La) (n : CTile) (q : QReg) (ea : EReg) : Fits.Statement (.qgen la n q ea) := fits_of rfl (.inr rfl) (by
  have := la.isLt; have := n.isLt; have := q.isLt; have := ea.isLt; unfold encE; omega)
theorem Fits.qapl (la : La) (n : CTile) (q : QReg) : Fits.Statement (.qapl la n q) := fits_of rfl (.inr rfl) (by
  have := la.isLt; have := n.isLt; have := q.isLt; unfold encE; omega)
theorem Fits.qaplt (la : La) (n : CTile) (q : QReg) : Fits.Statement (.qaplt la n q) := fits_of rfl (.inr rfl) (by
  have := la.isLt; have := n.isLt; have := q.isLt; unfold encE; omega)
theorem Fits.qapr (la : La) (n : CTile) (q : QReg) : Fits.Statement (.qapr la n q) := fits_of rfl (.inr rfl) (by
  have := la.isLt; have := n.isLt; have := q.isLt; unfold encE; omega)
theorem Fits.qaprt (la : La) (n : CTile) (q : QReg) : Fits.Statement (.qaprt la n q) := fits_of rfl (.inr rfl) (by
  have := la.isLt; have := n.isLt; have := q.isLt; unfold encE; omega)
theorem Fits.qdense (la : La) (n : CTile) (q : QReg) : Fits.Statement (.qdense la n q) := fits_of rfl (.inr rfl) (by
  have := la.isLt; have := n.isLt; have := q.isLt; unfold encE; omega)
theorem Fits.qsave (la : La) (n : CTile) (q : QReg) : Fits.Statement (.qsave la n q) := fits_of rfl (.inr rfl) (by
  have := la.isLt; have := n.isLt; have := q.isLt; unfold encE; omega)
theorem Fits.qload (la : La) (n : CTile) (q : QReg) : Fits.Statement (.qload la n q) := fits_of rfl (.inr rfl) (by
  have := la.isLt; have := n.isLt; have := q.isLt; unfold encE; omega)
theorem Fits.gqpush (b : GReg) (a : GReg) (d : VReg) : Fits.Statement (.gqpush b a d) := fits_of rfl (.inr rfl) (by
  have := b.isLt; have := a.isLt; have := d.isLt; unfold encR; omega)
theorem Fits.gqpop (b : GReg) (a : GReg) (d : VReg) : Fits.Statement (.gqpop b a d) := fits_of rfl (.inr rfl) (by
  have := b.isLt; have := a.isLt; have := d.isLt; unfold encR; omega)
theorem Fits.gqwin (b : GReg) (a : GReg) : Fits.Statement (.gqwin b a) := fits_of rfl (.inr rfl) (by
  have := b.isLt; have := a.isLt; unfold encR; omega)
theorem Fits.gqlen (d : GReg) (a : GReg) : Fits.Statement (.gqlen d a) := fits_of rfl (.inr rfl) (by
  have := d.isLt; have := a.isLt; unfold encR; omega)
theorem Fits.optAdamw (la : La) (ec : EReg) (eb : EReg) (ea : EReg) : Fits.Statement (.optAdamw la ec eb ea) := fits_of rfl (.inr rfl) (by
  have := la.isLt; have := ec.isLt; have := eb.isLt; have := ea.isLt; unfold encE; omega)
theorem Fits.optSgdm (la : La) (ec : EReg) (eb : EReg) (ea : EReg) : Fits.Statement (.optSgdm la ec eb ea) := fits_of rfl (.inr rfl) (by
  have := la.isLt; have := ec.isLt; have := eb.isLt; have := ea.isLt; unfold encE; omega)
theorem Fits.optClip (la : La) (ec : EReg) (ea : EReg) : Fits.Statement (.optClip la ec ea) := fits_of rfl (.inr rfl) (by
  have := la.isLt; have := ec.isLt; have := ea.isLt; unfold encE; omega)
theorem Fits.epopen (d : GReg) (a : GReg) (b : GReg) : Fits.Statement (.epopen d a b) := fits_of rfl (.inr rfl) (by
  have := d.isLt; have := a.isLt; have := b.isLt; unfold encR; omega)
theorem Fits.eprec (d : GReg) (a : GReg) (b : GReg) : Fits.Statement (.eprec d a b) := fits_of rfl (.inr rfl) (by
  have := d.isLt; have := a.isLt; have := b.isLt; unfold encR; omega)
theorem Fits.epclose (d : GReg) (a : GReg) : Fits.Statement (.epclose d a) := fits_of rfl (.inr rfl) (by
  have := d.isLt; have := a.isLt; unfold encR; omega)
theorem Fits.rwsend (d : GReg) (a : GReg) (b : GReg) : Fits.Statement (.rwsend d a b) := fits_of rfl (.inr rfl) (by
  have := d.isLt; have := a.isLt; have := b.isLt; unfold encR; omega)
theorem Fits.epstat (d : GReg) (a : GReg) : Fits.Statement (.epstat d a) := fits_of rfl (.inr rfl) (by
  have := d.isLt; have := a.isLt; unfold encR; omega)
theorem Fits.collDecl (la : La) (n : GLow) (ea : EReg) : Fits.Statement (.collDecl la n ea) := fits_of rfl (.inr rfl) (by
  have := la.isLt; have := n.isLt; have := ea.isLt; unfold encE; omega)
theorem Fits.collAg (la : La) (n : GLow) (ec : EReg) (eb : EReg) (ea : EReg) : Fits.Statement (.collAg la n ec eb ea) := fits_of rfl (.inr rfl) (by
  have := la.isLt; have := n.isLt; have := ec.isLt; have := eb.isLt; have := ea.isLt; unfold encE; omega)
theorem Fits.collRsO (la : La) (n : GLow) (ec : EReg) (eb : EReg) (ea : EReg) : Fits.Statement (.collRsO la n ec eb ea) := fits_of rfl (.inr rfl) (by
  have := la.isLt; have := n.isLt; have := ec.isLt; have := eb.isLt; have := ea.isLt; unfold encE; omega)
theorem Fits.collRsU (la : La) (n : GLow) (ec : EReg) (eb : EReg) (ea : EReg) : Fits.Statement (.collRsU la n ec eb ea) := fits_of rfl (.inr rfl) (by
  have := la.isLt; have := n.isLt; have := ec.isLt; have := eb.isLt; have := ea.isLt; unfold encE; omega)
theorem Fits.collArO (la : La) (n : GLow) (ec : EReg) (eb : EReg) (ea : EReg) : Fits.Statement (.collArO la n ec eb ea) := fits_of rfl (.inr rfl) (by
  have := la.isLt; have := n.isLt; have := ec.isLt; have := eb.isLt; have := ea.isLt; unfold encE; omega)
theorem Fits.collArU (la : La) (n : GLow) (ec : EReg) (eb : EReg) (ea : EReg) : Fits.Statement (.collArU la n ec eb ea) := fits_of rfl (.inr rfl) (by
  have := la.isLt; have := n.isLt; have := ec.isLt; have := eb.isLt; have := ea.isLt; unfold encE; omega)
theorem Fits.collA2a (la : La) (n : GLow) (ec : EReg) (eb : EReg) (ea : EReg) : Fits.Statement (.collA2a la n ec eb ea) := fits_of rfl (.inr rfl) (by
  have := la.isLt; have := n.isLt; have := ec.isLt; have := eb.isLt; have := ea.isLt; unfold encE; omega)
theorem Fits.collBar (la : La) (n : GLow) (ec : EReg) : Fits.Statement (.collBar la n ec) := fits_of rfl (.inr rfl) (by
  have := la.isLt; have := n.isLt; have := ec.isLt; unfold encE; omega)
theorem Fits.tlbinv (b : GReg) (a : GReg) : Fits.Statement (.tlbinv b a) := fits_of rfl (.inr rfl) (by
  have := b.isLt; have := a.isLt; unfold encR; omega)
theorem Fits.tlbprobe (d : GReg) (a : GReg) : Fits.Statement (.tlbprobe d a) := fits_of rfl (.inr rfl) (by
  have := d.isLt; have := a.isLt; unfold encR; omega)
theorem Fits.lkctlStatus (d : GReg) (a : GReg) (b : GReg) : Fits.Statement (.lkctlStatus d a b) := fits_of rfl (.inr rfl) (by
  have := d.isLt; have := a.isLt; have := b.isLt; unfold encR; omega)
theorem Fits.swreqSwitch (d : GReg) (a : GReg) : Fits.Statement (.swreqSwitch d a) := fits_of rfl (.inr rfl) (by
  have := d.isLt; have := a.isLt; unfold encR; omega)
theorem Fits.report (b : GReg) (a : GReg) : Fits.Statement (.report b a) := fits_of rfl (.inr rfl) (by
  have := b.isLt; have := a.isLt; unfold encR; omega)
theorem Fits.cAddi (d : GReg) (imm : Imm7) : Fits.Statement (.cAddi d imm) := fits_of rfl (.inl rfl) (by
  have := d.isLt; have := imm.isLt; omega)
theorem Fits.cMov (d : GReg) (a : GReg) : Fits.Statement (.cMov d a) := fits_of rfl (.inl rfl) (by
  have := d.isLt; have := a.isLt; omega)
theorem Fits.cAdd (d : GReg) (a : GReg) : Fits.Statement (.cAdd d a) := fits_of rfl (.inl rfl) (by
  have := d.isLt; have := a.isLt; omega)
theorem Fits.cSub (d : GReg) (a : GReg) : Fits.Statement (.cSub d a) := fits_of rfl (.inl rfl) (by
  have := d.isLt; have := a.isLt; omega)
theorem Fits.cAnd (d : GReg) (a : GReg) : Fits.Statement (.cAnd d a) := fits_of rfl (.inl rfl) (by
  have := d.isLt; have := a.isLt; omega)
theorem Fits.cLdlD (off : Nib) (a : EReg) (d : GReg) : Fits.Statement (.cLdlD off a d) := fits_of rfl (.inl rfl) (by
  have := off.isLt; have := a.isLt; have := d.isLt; omega)
theorem Fits.cStlD (off : Nib) (a : EReg) (d : GReg) : Fits.Statement (.cStlD off a d) := fits_of rfl (.inl rfl) (by
  have := off.isLt; have := a.isLt; have := d.isLt; omega)
theorem Fits.cBeqz (off : Imm7) (a : GReg) : Fits.Statement (.cBeqz off a) := fits_of rfl (.inl rfl) (by
  have := off.isLt; have := a.isLt; omega)
theorem Fits.cBnez (off : Imm7) (a : GReg) : Fits.Statement (.cBnez off a) := fits_of rfl (.inl rfl) (by
  have := off.isLt; have := a.isLt; omega)
theorem Fits.cJ (off : Off12) : Fits.Statement (.cJ off) := fits_of rfl (.inl rfl) (by
  have := off.isLt; omega)
theorem Fits.cClre (d : GReg) : Fits.Statement (.cClre d) := fits_of rfl (.inl rfl) (by
  have := d.isLt; omega)
theorem Fits.nop : Fits.Statement (.nop) := fits_of rfl (.inr rfl) (by
  unfold encR; omega)
theorem Fits.ecall : Fits.Statement (.ecall) := fits_of rfl (.inr rfl) (by
  unfold encR; omega)
theorem Fits.ebreak : Fits.Statement (.ebreak) := fits_of rfl (.inr rfl) (by
  unfold encR; omega)
theorem Fits.tret : Fits.Statement (.tret) := fits_of rfl (.inr rfl) (by
  unfold encR; omega)
theorem Fits.ifence : Fits.Statement (.ifence) := fits_of rfl (.inr rfl) (by
  unfold encR; omega)
theorem Fits.fenceLb : Fits.Statement (.fenceLb) := fits_of rfl (.inr rfl) (by
  unfold encR; omega)
theorem Fits.waitm : Fits.Statement (.waitm) := fits_of rfl (.inr rfl) (by
  unfold encR; omega)
theorem Fits.exit : Fits.Statement (.exit) := fits_of rfl (.inr rfl) (by
  unfold encR; omega)
theorem Fits.yield : Fits.Statement (.yield) := fits_of rfl (.inr rfl) (by
  unfold encR; omega)
theorem Fits.rdv : Fits.Statement (.rdv) := fits_of rfl (.inr rfl) (by
  unfold encE; omega)
theorem Fits.step : Fits.Statement (.step) := fits_of rfl (.inr rfl) (by
  unfold encR; omega)
theorem Fits.cpyq : Fits.Statement (.cpyq) := fits_of rfl (.inr rfl) (by
  unfold encE; omega)
theorem Fits.cSysNop : Fits.Statement (.cSysNop) := fits_of rfl (.inl rfl) (by
  omega)
theorem Fits.cStep : Fits.Statement (.cStep) := fits_of rfl (.inl rfl) (by
  omega)
theorem Fits.cYield : Fits.Statement (.cYield) := fits_of rfl (.inl rfl) (by
  omega)
theorem Fits.cExit : Fits.Statement (.cExit) := fits_of rfl (.inl rfl) (by
  omega)
theorem Fits.cRet : Fits.Statement (.cRet) := fits_of rfl (.inl rfl) (by
  omega)
theorem Fits.cWaitm : Fits.Statement (.cWaitm) := fits_of rfl (.inl rfl) (by
  omega)
theorem Fits.bringUp : Fits.Statement (.bringUp) := fits_none rfl
theorem Fits.attestationStart : Fits.Statement (.attestationStart) := fits_none rfl
theorem Fits.attestationDone : Fits.Statement (.attestationDone) := fits_none rfl
theorem Fits.thermalTrip : Fits.Statement (.thermalTrip) := fits_none rfl
theorem Fits.tripClear : Fits.Statement (.tripClear) := fits_none rfl
theorem Fits.registerWrite : Fits.Statement (.registerWrite) := fits_none rfl
theorem Fits.armAliasStore : Fits.Statement (.armAliasStore) := fits_none rfl
theorem Fits.rewardWindowWrite : Fits.Statement (.rewardWindowWrite) := fits_none rfl
theorem Fits.hostMemAccess : Fits.Statement (.hostMemAccess) := fits_none rfl
theorem Fits.queueWalk : Fits.Statement (.queueWalk) := fits_none rfl
theorem Fits.periodBoundary : Fits.Statement (.periodBoundary) := fits_none rfl
theorem Fits.nodeDispatch : Fits.Statement (.nodeDispatch) := fits_none rfl
theorem Fits.kernelChecking : Fits.Statement (.kernelChecking) := fits_none rfl
theorem Fits.groupPlacement : Fits.Statement (.groupPlacement) := fits_none rfl
theorem Fits.groupLoad : Fits.Statement (.groupLoad) := fits_none rfl
theorem Fits.groupRelease : Fits.Statement (.groupRelease) := fits_none rfl
theorem Fits.groupRetire : Fits.Statement (.groupRetire) := fits_none rfl
theorem Fits.longOpComplete : Fits.Statement (.longOpComplete) := fits_none rfl
theorem Fits.registerWaitLimit : Fits.Statement (.registerWaitLimit) := fits_none rfl
theorem Fits.feWaitLimit : Fits.Statement (.feWaitLimit) := fits_none rfl
theorem Fits.feListFullRetry : Fits.Statement (.feListFullRetry) := fits_none rfl
theorem Fits.putrFill : Fits.Statement (.putrFill) := fits_none rfl
theorem Fits.putrRetry : Fits.Statement (.putrRetry) := fits_none rfl
theorem Fits.parkDeadline : Fits.Statement (.parkDeadline) := fits_none rfl
theorem Fits.spawnAnswer : Fits.Statement (.spawnAnswer) := fits_none rfl
theorem Fits.stepAdvance : Fits.Statement (.stepAdvance) := fits_none rfl
theorem Fits.stepwatchReport : Fits.Statement (.stepwatchReport) := fits_none rfl
theorem Fits.barrierGenerationComplete : Fits.Statement (.barrierGenerationComplete) := fits_none rfl
theorem Fits.barrierWaitReport : Fits.Statement (.barrierWaitReport) := fits_none rfl
theorem Fits.tileSleep : Fits.Statement (.tileSleep) := fits_none rfl
theorem Fits.tileWake : Fits.Statement (.tileWake) := fits_none rfl
theorem Fits.mailboxPostArrival : Fits.Statement (.mailboxPostArrival) := fits_none rfl
theorem Fits.copyAccept : Fits.Statement (.copyAccept) := fits_none rfl
theorem Fits.copyBurst : Fits.Statement (.copyBurst) := fits_none rfl
theorem Fits.copyResume : Fits.Statement (.copyResume) := fits_none rfl
theorem Fits.copyPost : Fits.Statement (.copyPost) := fits_none rfl
theorem Fits.ringMove : Fits.Statement (.ringMove) := fits_none rfl
theorem Fits.pageWalk : Fits.Statement (.pageWalk) := fits_none rfl
theorem Fits.pageResponse : Fits.Statement (.pageResponse) := fits_none rfl
theorem Fits.tableLineSnoop : Fits.Statement (.tableLineSnoop) := fits_none rfl
theorem Fits.timeSliceNaming : Fits.Statement (.timeSliceNaming) := fits_none rfl
theorem Fits.gangSwitchStop : Fits.Statement (.gangSwitchStop) := fits_none rfl
theorem Fits.gangSwitchSaveDone : Fits.Statement (.gangSwitchSaveDone) := fits_none rfl
theorem Fits.gangSwitchRestore : Fits.Statement (.gangSwitchRestore) := fits_none rfl
theorem Fits.darnerLine : Fits.Statement (.darnerLine) := fits_none rfl
theorem Fits.levellerTick : Fits.Statement (.levellerTick) := fits_none rfl
theorem Fits.escapeEntry : Fits.Statement (.escapeEntry) := fits_none rfl
theorem Fits.linkTrainingDone : Fits.Statement (.linkTrainingDone) := fits_none rfl
theorem Fits.linkTrainingTimeout : Fits.Statement (.linkTrainingTimeout) := fits_none rfl
theorem Fits.linkIdleTimeout : Fits.Statement (.linkIdleTimeout) := fits_none rfl
theorem Fits.idleFlitSend : Fits.Statement (.idleFlitSend) := fits_none rfl
theorem Fits.flitReceive : Fits.Statement (.flitReceive) := fits_none rfl
theorem Fits.linkWiden : Fits.Statement (.linkWiden) := fits_none rfl
theorem Fits.wakeComplete : Fits.Statement (.wakeComplete) := fits_none rfl
theorem Fits.linkNarrow : Fits.Statement (.linkNarrow) := fits_none rfl
theorem Fits.widthFlitReceive : Fits.Statement (.widthFlitReceive) := fits_none rfl
theorem Fits.collAccept : Fits.Statement (.collAccept) := fits_none rfl
theorem Fits.collMemberAnswer : Fits.Statement (.collMemberAnswer) := fits_none rfl
theorem Fits.collMemberTimeout : Fits.Statement (.collMemberTimeout) := fits_none rfl
theorem Fits.collPost : Fits.Statement (.collPost) := fits_none rfl
theorem Fits.menderSlotStart : Fits.Statement (.menderSlotStart) := fits_none rfl
theorem Fits.gqEnClear : Fits.Statement (.gqEnClear) := fits_none rfl
theorem Fits.rewardArrival : Fits.Statement (.rewardArrival) := fits_none rfl
theorem Fits.rwsendRemoteAnswer : Fits.Statement (.rwsendRemoteAnswer) := fits_none rfl
theorem Fits.episodeTimeout : Fits.Statement (.episodeTimeout) := fits_none rfl
theorem Fits.wringerScan : Fits.Statement (.wringerScan) := fits_none rfl
theorem Fits.episodeRelease : Fits.Statement (.episodeRelease) := fits_none rfl
theorem Fits.illegalInstruction : Fits.Statement (.illegalInstruction) := fits_none rfl
theorem Fits.hostPortDown : Fits.Statement (.hostPortDown) := fits_none rfl
theorem Fits.homeChannelPowerDown : Fits.Statement (.homeChannelPowerDown) := fits_none rfl
theorem Fits.selfRefreshEntry : Fits.Statement (.selfRefreshEntry) := fits_none rfl
theorem Fits.hostLineSnoop : Fits.Statement (.hostLineSnoop) := fits_none rfl
theorem Fits.lkctlThresh (d : GReg) (a : GReg) (b : GReg) : Fits.Statement (.lkctlThresh d a b) := fits_of rfl (.inr rfl) (by
  have := d.isLt; have := a.isLt; have := b.isLt; unfold encR; omega)
theorem Fits.lkctlMaxw (d : GReg) (a : GReg) (b : GReg) : Fits.Statement (.lkctlMaxw d a b) := fits_of rfl (.inr rfl) (by
  have := d.isLt; have := a.isLt; have := b.isLt; unfold encR; omega)
theorem Fits.lkctlRetrain (d : GReg) (a : GReg) (b : GReg) : Fits.Statement (.lkctlRetrain d a b) := fits_of rfl (.inr rfl) (by
  have := d.isLt; have := a.isLt; have := b.isLt; unfold encR; omega)
theorem Fits.swreqDefpart (d : GReg) (a : GReg) : Fits.Statement (.swreqDefpart d a) := fits_of rfl (.inr rfl) (by
  have := d.isLt; have := a.isLt; unfold encR; omega)
theorem Fits.swreqSetrun (d : GReg) (a : GReg) : Fits.Statement (.swreqSetrun d a) := fits_of rfl (.inr rfl) (by
  have := d.isLt; have := a.isLt; unfold encR; omega)
theorem Fits.swreqDestroy (d : GReg) (a : GReg) : Fits.Statement (.swreqDestroy d a) := fits_of rfl (.inr rfl) (by
  have := d.isLt; have := a.isLt; unfold encR; omega)

end Sys2Proof.Laws
end

