-- ==== Sys2Proof/Laws/Premises.lean ====
section
/-! SUPPORT. The premises of the statements as checks that evaluate: from the check, the premise. -/

namespace Sys2Proof.Laws

open Sys2Proof.Machine Sys2Proof.Claims

/-! ## Issue -/

/-- `Issues`, as a check. -/
def issuesCheck (s : State) (ok : HartKind → Bool) (srcs dsts : List RegId) : Bool :=
  ok (kindOf s.cur) && (srcs.all fun r => regFull s s.cur r && (flawAt (me s).flaws (.reg r)).isNone) &&
    dsts.all fun r => !hazard (me s) r

theorem issues_of {s : State} {ok : HartKind → Bool} {srcs dsts : List RegId} (h : issuesCheck s ok srcs dsts = true) :
    Issues s ok srcs dsts := by
  simp only [issuesCheck, Bool.and_eq_true, List.all_eq_true, Bool.not_eq_true', Option.isNone_iff_eq_none] at h
  exact ⟨h.1.1, fun r hr => (h.1.2 r hr).1, fun r hr => (h.1.2 r hr).2, h.2⟩

theorem issues_all {α : Type} {l : List α} {s : State} {ok : α → HartKind → Bool} {srcs dsts : α → List RegId}
    (h : (l.all fun r => issuesCheck s (ok r) (srcs r) (dsts r)) = true) : ∀ r ∈ l, Issues s (ok r) (srcs r) (dsts r) :=
  fun r hr => issues_of (List.all_eq_true.mp h r hr)

/-- `ArrayReady`, as a check. -/
def arrayCheck (s : State) (t : Nat) (srcs : List RegId) : Bool :=
  issuesCheck s (fun _ => tileOf? s.cur == some t) srcs [] && decide ((me s).out.length < 4) && (getTile s t).flaws.isEmpty &&
    (getTile s t).latch.flaws.isEmpty && (List.finRange 2).all fun b =>
      ((getTile s t).pe.get b).flaws.isEmpty && ((getTile s t).pe.get b).accFlaws.isEmpty

theorem arrayReady_of {s : State} {t : Nat} {srcs : List RegId} (h : arrayCheck s t srcs = true) : ArrayReady s t srcs := by
  simp only [arrayCheck, Bool.and_eq_true, decide_eq_true_eq, List.isEmpty_iff, List.all_eq_true] at h
  obtain ⟨⟨⟨⟨hi, hr⟩, hf⟩, hl⟩, hp⟩ := h
  have hi := issues_of hi
  exact ⟨by simpa using hi.kind, hi.full, hi.sound, hr, hf, hl, fun b => hp b (List.mem_finRange b)⟩

/-- `Reaches`, as a check. -/
def reachesCheck (r : SRow) (s : State) (t : Nat) (srcs dsts : List RegId) : Bool :=
  issuesCheck s r.ok srcs dsts && decide ((me s).out.length < 4 ∧ tileOf? s.cur = some t ∧
    (r.ea (me s)).toNat % accessSize r.width = 0 ∧ (r.ea (me s)).toNat < r.store.size ∧
    (r.store = .c → (getTile s t).cF.getLsbD ((r.ea (me s)).toNat / 0x1000) = true))

theorem reaches_of {r : SRow} {s : State} {t : Nat} {srcs dsts : List RegId} (h : reachesCheck r s t srcs dsts = true) :
    Reaches r s t srcs dsts := by
  simp only [reachesCheck, Bool.and_eq_true, decide_eq_true_eq] at h
  exact ⟨issues_of h.1, h.2.1, h.2.2.1, h.2.2.2.1, h.2.2.2.2.1, h.2.2.2.2.2⟩

theorem alone_of {s : State} (h : (me s).out = []) (t : Option Nat) (addr n : Nat) (ea : Word) : Alone s t addr n ea := by simp [Alone, h]

/-- An access of the own tile to its L-store arrives. -/
theorem arrives_l {s : State} {ea : Word} {n t off : Nat}
    (h : ea.toNat % n = 0 ∧ tileOf? s.cur = some t ∧ ea.toNat < 0x2_0000 ∧ off = ea.toNat) : Arrives s .l ea n t off :=
  ⟨h, nofun⟩

/-- An access through the mesh arrives. -/
theorem arrives_m {s : State} {ea : Word} {n t off : Nat}
    (h : ea.toNat % n = 0 ∧ meshTarget s (hartCtx s s.cur) ea = .ok t off ∧ (me s).out = [] ∧
      pairFlights s (myTile s) t = [] ∧ (tileOf? s.cur = some t ∨ lSleeps s t = false) ∧ s.noise = []) : Arrives s .m ea n t off :=
  ⟨⟨h.1, h.2.1⟩, fun _ => ⟨alone_of h.2.2.1 _ _ _ _, h.2.2.2⟩⟩

theorem arrives_g {s : State} {ea : Word} {n pa : Nat} (h : (me s).out = [] ∧ s.noise = []) : ArrivesG s ea n pa :=
  ⟨alone_of h.1 _ _ _ _, h.2⟩

/-! ## Completion -/

/-- The hart waits in the fence after an atomic. -/
def inFence (x : Status) : Bool :=
  match x with
  | .parked (.fence _) => true
  | _ => false

theorem going_of {x : Status} (h : inFence x = false) (n : Word) : x ≠ .parked (.fence n) := by
  rintro rfl; cases h

/-- `AccessDue`, as a check. -/
def accessCheck (s : State) (h : HartId) (i : Nat) (wbs : List WriteBack) (fx : OpFx) : Bool :=
  s.ev == .op h i && ((getHart s h).out[i]?.any fun o =>
    decide (o.due ≤ s.cycle) && o == { opAt (getHart s h) 0 o.due wbs 0 false fx with left := o.left }) &&
    !inFence (getHart s h).status && s.noise.isEmpty

theorem accessDue_of {s : State} {h : HartId} {i : Nat} {wbs : List WriteBack} {fx : OpFx} (hc : accessCheck s h i wbs fx = true) :
    AccessDue s h i wbs fx := by
  simp only [accessCheck, Bool.and_eq_true, beq_iff_eq, Bool.not_eq_true', List.isEmpty_iff, Option.any_eq_true,
    decide_eq_true_eq] at hc
  obtain ⟨⟨⟨he, o, ho, hd, hx⟩, hf⟩, hn⟩ := hc
  exact ⟨he, ⟨o.left, o.due, hd, ho.trans (congrArg some hx)⟩, going_of hf, hn⟩

/-- `OpDue`, as a check. -/
theorem opDue_of {s : State} {h : HartId} {i : Nat} {o : LongOp}
    (hc : (s.ev == .op h i && (getHart s h).out[i]? == some o && decide (o.await = .time ∧ o.due ≤ s.cycle) &&
      !inFence (getHart s h).status) = true) : OpDue s h i o := by
  simp only [Bool.and_eq_true, beq_iff_eq, Bool.not_eq_true', decide_eq_true_eq] at hc
  exact ⟨hc.1.1.1, hc.1.1.2, hc.1.2, going_of hc.2⟩

/-! ## Translations -/

/-- `HeldIn`, as a check. -/
def heldInCheck (s : State) (d : Fin 4) (a : Holder) (c va : Nat) (need : Need) (pa : Nat) : Bool :=
  match alGet s.ctxs c, tlbFind (s.dies.get d) a c va with
  | some x, some e => canonical x.tfd va && permits x.tfd e.pte need && (!dirties need || bitAt e.pte x.tfd.dpos) &&
      pa == e.frame * 4096 + va % 2 ^ (12 + 9 * e.lvl)
  | _, _ => false

theorem heldIn_of {s : State} {d : Fin 4} {a : Holder} {c va : Nat} {need : Need} {pa : Nat}
    (h : heldInCheck s d a c va need pa = true) : HeldIn s d a c va need pa := by
  unfold heldInCheck at h
  split at h
  · next x e hx he =>
    simp only [Bool.and_eq_true, Bool.or_eq_true, Bool.not_eq_true', beq_iff_eq] at h
    refine ⟨x, e, hx, h.1.1.1, he, h.1.1.2, fun hd => ?_, h.2⟩
    rcases h.1.2 with h' | h'
    · rw [hd] at h'; cases h'
    · exact h'
  · cases h

/-- `AtHand`, as a check. -/
def handCheck (s : State) (va : Nat) (need : Need) (pa : Nat) : Bool :=
  heldInCheck s (hartDie s.cur) (nearest s.cur) (hartCtx s s.cur) va need pa && (me s).refused != some (va / 4096)

theorem atHand_of {s : State} {va : Nat} {need : Need} {pa : Nat} (h : handCheck s va need pa = true) : AtHand s va need pa := by
  simp only [handCheck, Bool.and_eq_true, bne_iff_ne] at h
  exact ⟨heldIn_of h.1, h.2⟩

/-- `HeldAt`, as a check. -/
def heldCheck (s : State) (d : Fin 4) (c va : Nat) (need : Need) (pa : Nat) : Bool :=
  heldInCheck s d .die c va need pa && (s.dies.get d).unitRef.isEmpty

theorem heldAt_of {s : State} {d : Fin 4} {c va : Nat} {need : Need} {pa : Nat} (h : heldCheck s d c va need pa = true) :
    HeldAt s d c va need pa := by
  simp only [heldCheck, Bool.and_eq_true, List.isEmpty_iff] at h
  exact ⟨heldIn_of h.1, h.2⟩

theorem copyHand_of {s : State} {t : Nat} {c : Copy} {va : Nat} {need : Need} {pa : Nat}
    (h : (heldInCheck s (dieOf t) (.tile t) (getTile s t).ctx va need pa && c.refused != some (va / 4096)) = true) :
    CopyHand s t c va need pa := by
  simp only [Bool.and_eq_true, bne_iff_ne] at h
  exact ⟨heldIn_of h.1, h.2⟩

theorem unitAt_of {s : State} {d : Fin 4} {c va : Nat} {need : Need} {pa : Nat}
    (h : (leafPeek s c va == some pa && peekPa s c va .read == .ok pa && heldCheck s d c va need pa) = true) : UnitAt s d c va need pa := by
  simp only [Bool.and_eq_true, beq_iff_eq] at h
  exact ⟨h.1.1, h.1.2, heldAt_of h.2⟩

/-- `ReadsAs` for a block that lies in one leaf, from the translation of its first byte on. -/
theorem readsAs_of {s : State} {d : Fin 4} {c va n v pa : Nat}
    (h : (decide (va + n ≤ 2 ^ 64 ∧ v < 256 ^ n) && (List.range n).all fun i =>
      heldCheck s d c (va + i) .read (pa + i) && memRead s.mem (pa + i) 1 == cut v (8 * i) 8) = true) : ReadsAs s d c va n v := by
  simp only [Bool.and_eq_true, decide_eq_true_eq, List.all_eq_true, List.mem_range, beq_iff_eq] at h
  exact ⟨h.1.1, h.1.2, fun i hi => ⟨pa + i, heldAt_of (h.2 i hi).1, (h.2 i hi).2⟩⟩

theorem noTable_of {s : State} {pa : Nat} (h : ((List.finRange 4).all fun d => !(s.dies.get d).dir.contains (pa / 64)) = true) :
    NoTable s pa := by
  intro d hm
  have := (List.all_eq_true.mp h) d (List.mem_finRange d)
  simp [hm] at this

theorem offWalk_of {s : State} {c va pa : Nat}
    (h : ((alGet s.ctxs c).all fun x => !(walk s x va).2.contains (pa / 64)) = true) : OffWalk s c va pa := by
  intro x hx hm
  simp [hx, hm] at h

theorem globalFits_of {s : State} {v : Nat}
    (h : (v % 4 == 0 && (alGet s.ctxs (hartCtx s s.cur)).any fun x => canonical x.tfd v) = true) : GlobalFits s v := by
  simp only [Bool.and_eq_true, beq_iff_eq] at h
  refine ⟨h.1, ?_⟩
  cases hx : alGet s.ctxs (hartCtx s s.cur) with
  | none => simp [hx] at h
  | some x => exact ⟨x, rfl, by simpa [hx] using h.2⟩

end Sys2Proof.Laws
end

