-- ==== Sys2Proof/Tests/Slice0.lean ====
section
/-! SUPPORT. Tests: words written out from the encoding tables, terms that have no encoding, one step of an instruction on a small
state with the result that the spec gives, and for every statement a state and operands that meet its premises. -/

namespace Sys2Proof.Tests

open Sys2Proof.Machine Sys2Proof.Claims Sys2Proof.Laws

set_option Elab.async false

/-! ## States -/

/-- A machine with context 1 resident, a group on tiles 0, 1, 72 and 73, and slot 0 of tile 0 *ready*. -/
def base : State := State.reset.withFetchWord 32 0

/-- The translation of the first 512 GiB, for tiles 0 and 1, their cluster and the units of every die: va maps to device memory at
va. -/
def leaf (h : Holder) : Tlb := ⟨h, 1, 0, 3, Config.hdmBase / 4096, loadPte, []⟩
def mapped (s : State) : State :=
  { s with dies := vmap s.dies fun d => { d with tlb := [leaf (.tile 0), leaf (.tile 1), leaf (.cluster 0), leaf .die] } }

/-- The executing slot 0 of tile 0 with its hart as `f` makes it. -/
def mk (f : Hart → Hart) : State := modMe (mapped base) f
/-- The registers of a list. -/
def regs (l : List (GReg × Nat)) (h : Hart) : Hart := l.foldl (fun h x => wg h x.1 (w64 x.2)) h
/-- As `mk`, with values in g-registers. -/
def withRegs (l : List (GReg × Nat)) : State := mk (regs l)
/-- In supervisor mode. -/
def supRegs (l : List (GReg × Nat)) : State := mk fun h => { regs l h with sup := true }
/-- A slot of mender 3 that executes. -/
def mender (f : Hart → Hart) : State :=
  modMe { mapped base with cur := .mender 3 2, menders := [(3, { Mender.reset with use := Mender.reset.use.set 2 (some ⟨0, 1⟩) })] } f
/-- The matrix sequencer of tile 0. -/
def sequencer (f : Hart → Hart) : State := modMe { mapped base with cur := .tile 0 8 } f
/-- Bytes in device memory, each entry (virtual address, size, value). -/
def withMem (l : List (Nat × Nat × Nat)) (s : State) : State :=
  { s with mem := l.foldl (fun m x => memWrite m (Config.hdmBase + x.1) x.2.1 x.2.2) s.mem }
/-- Tile `t` as `f` makes it. -/
def onTile (t : Nat) (f : Tile → Tile) (s : State) : State := modTile s t f

/-- Link 3 up, at version 2. -/
def linked (s : State) : State := { s with links := s.links.set 3 { Link.reset with st := .up, ver := 2, width := 8, rxWidth := 8, good := 255 } }

/-- The state after an outcome. -/
def out (o : Out) : State :=
  match o with
  | .next t => t
  | .fault _ | .refused _ => State.reset
/-- A g-register of the executing hart after an outcome, and its trap cause. -/
def gOf (o : Out) (r : GReg) : Nat := (rg (me (out o)) r).toNat
def causeOf (o : Out) : Nat := (me (out o)).tcause.toNat
/-- Lane `i` of a v-register of the executing hart after an outcome. -/
def laneOf32 (o : Out) (r : VReg) (i : Nat) : Nat := lane 32 (rv (me (out o)) r) i
/-- The state after an issue, once the first outstanding operation of the executing hart is due, and after its completion. -/
def afterIssue (o : Out) : State := { out o with ev := .op (out o).cur 0, cycle := (out o).cycle + 100000 }
def landed (o : Out) : State := out (exec .longOpComplete (afterIssue o))
/-- The value on its way to the one destination of the last outstanding operation. -/
def onWay (o : Out) : Nat :=
  match (me (out o)).out.getLast? with
  | some x => (x.wbs.map (·.val)).getD 0 0
  | none => 0

/-! ## Decoding: words written out from the encoding tables (R35 to R47) -/

theorem test_decode_words : ∀ r ∈ wordRows, decodeTableWord r.1 r.2.1 = some r.2.2 := by decide

/-! ## Decoding: a word of every instruction, its fields written out in the order of the formats of R35 and R44 -/

theorem test_word_alu : ∀ r ∈ ([
    (32, 0b00000_00000_00111_01010_10101_000001_1, .add 21 10 7),
    (32, 0b00000_00001_00111_01010_10101_000001_1, .sub 21 10 7),
    (32, 0b00000_00010_00111_01010_10101_000001_1, .and 21 10 7),
    (32, 0b00000_00011_00111_01010_10101_000001_1, .or 21 10 7),
    (32, 0b00000_00100_00111_01010_10101_000001_1, .xor 21 10 7),
    (32, 0b00000_00101_00111_01010_10101_000001_1, .sll 21 10 7),
    (32, 0b00000_00110_00111_01010_10101_000001_1, .srl 21 10 7),
    (32, 0b00000_00111_00111_01010_10101_000001_1, .sra 21 10 7),
    (32, 0b00000_01000_00111_01010_10101_000001_1, .slt 21 10 7),
    (32, 0b00000_01001_00111_01010_10101_000001_1, .sltn 21 10 7),
    (32, 0b00000_01010_00111_01010_10101_000001_1, .min 21 10 7),
    (32, 0b00000_01011_00111_01010_10101_000001_1, .max 21 10 7),
    (32, 0b00000_01100_00111_01010_10101_000001_1, .minn 21 10 7),
    (32, 0b00000_01101_00111_01010_10101_000001_1, .maxn 21 10 7),
    (32, 0b00000_01110_00111_01010_10101_000001_1, .addw 21 10 7),
    (32, 0b00000_01111_00111_01010_10101_000001_1, .subw 21 10 7),
    (32, 0b01001_10000_00111_01010_10101_000001_1, .mul 9 21 10 7),
    (32, 0b01001_10001_00111_01010_10101_000001_1, .mulh 9 21 10 7),
    (32, 0b01001_10010_00111_01010_10101_000001_1, .mulhn 9 21 10 7),
    (32, 0b01001_10011_00111_01010_10101_000001_1, .mulw 9 21 10 7),
    (32, 0b01001_10100_00111_01010_10101_000001_1, .div 9 21 10 7),
    (32, 0b01001_10101_00111_01010_10101_000001_1, .divn 9 21 10 7),
    (32, 0b01001_10110_00111_01010_10101_000001_1, .rem 9 21 10 7),
    (32, 0b01001_10111_00111_01010_10101_000001_1, .remn 9 21 10 7),
    (32, 0b00000_11000_00000_01010_10101_000001_1, .clz 21 10),
    (32, 0b00000_11001_00000_01010_10101_000001_1, .ctz 21 10),
    (32, 0b00000_11010_00000_01010_10101_000001_1, .popc 21 10),
    (32, 0b00000_11011_00111_01010_10101_000001_1, .rol 21 10 7),
    (32, 0b00000_11100_00111_01010_10101_000001_1, .ror 21 10 7),
    (32, 0b00000_11101_00111_01010_10101_000001_1, .sel 21 10 7),
    (32, 0b00000_11110_00111_01010_10101_000001_1, .bfx 21 10 7),
    (32, 0b00000_11111_00111_01010_10101_000001_1, .bfi 21 10 7) ] : List (Nat × Nat × Instr)), decodeTableWord r.1 r.2.1 = some r.2.2 := by decide

theorem test_word_alui : ∀ r ∈ ([
    (32, 0b101101001011010_01010_10101_000010_1, .addi 21 10 0x5A5A),
    (32, 0b101101001011010_01010_10101_000011_1, .andi 21 10 0x5A5A),
    (32, 0b101101001011010_01010_10101_000100_1, .ori 21 10 0x5A5A),
    (32, 0b101101001011010_01010_10101_000101_1, .xori 21 10 0x5A5A),
    (32, 0b101101001011010_01010_10101_000110_1, .slti 21 10 0x5A5A),
    (32, 0b000000000100101_01010_10101_000111_1, .slli 21 10 37),
    (32, 0b010000000100101_01010_10101_000111_1, .srli 21 10 37),
    (32, 0b100000000100101_01010_10101_000111_1, .srai 21 10 37),
    (32, 0b110000000100101_01010_10101_000111_1, .rori 21 10 37) ] : List (Nat × Nat × Instr)), decodeTableWord r.1 r.2.1 = some r.2.2 := by decide

theorem test_word_move_branch : ∀ r ∈ ([
    (32, 0b101101001011010_00000_10101_001000_1, .ldk 21 0x5A5A),
    (32, 0b00000_00000_00000_01010_00110_001001_1, .setx 6 10),
    (32, 0b00000_00001_00000_00110_10101_001001_1, .getx 21 6),
    (32, 0b101010111100_000_00111_01010_001010_1, .beq 10 7 0xABC),
    (32, 0b101010111100_001_00111_01010_001010_1, .bne 10 7 0xABC),
    (32, 0b101010111100_010_00111_01010_001010_1, .blt 10 7 0xABC),
    (32, 0b101010111100_011_00111_01010_001010_1, .bge 10 7 0xABC),
    (32, 0b101010111100_100_00111_01010_001010_1, .bltn 10 7 0xABC),
    (32, 0b101010111100_101_00111_01010_001010_1, .bgen 10 7 0xABC),
    (32, 0b101010111100_110_10011_01010_001010_1, .bbs 10 19 0xABC),
    (32, 0b101010111100_111_10011_01010_001010_1, .bbc 10 19 0xABC),
    (32, 0b10101011110011011110_10101_001011_1, .jal 21 0xABCDE),
    (32, 0b101101001011010_01010_10101_001100_1, .jalr 21 10 0x5A5A) ] : List (Nat × Nat × Instr)), decodeTableWord r.1 r.2.1 = some r.2.2 := by decide

theorem test_word_sys_csr : ∀ r ∈ ([
    (32, 0b00000_00101_00000_01010_00000_001110_1, .park 10),
    (32, 0b000000000101101_00000_10101_001111_1, .csrr 21 0x02D),
    (32, 0b001000000101101_01010_00000_001111_1, .csrw 0x02D 10),
    (32, 0b010000000101101_01010_10101_001111_1, .csrs 21 0x02D 10),
    (32, 0b011000000101101_01010_10101_001111_1, .csrc 21 0x02D 10),
    (32, 0b100000000101101_01010_10101_001111_1, .csrx 21 0x02D 10),
    (32, 0b00000_00000_00000_00000_00000_001110_1, .nop),
    (32, 0b00000_00001_00000_00000_00000_001110_1, .ecall),
    (32, 0b00000_00010_00000_00000_00000_001110_1, .ebreak),
    (32, 0b00000_00011_00000_00000_00000_001110_1, .tret),
    (32, 0b00000_00100_00000_00000_00000_001110_1, .ifence) ] : List (Nat × Nat × Instr)), decodeTableWord r.1 r.2.1 = some r.2.2 := by decide

theorem test_word_load_store : ∀ r ∈ ([
    (32, 0b1001_10100101_011_01010_10101_010000_1, .ldl 9 0xA5 .dword 10 21),
    (32, 0b1001_10100101_011_01010_10101_010001_1, .stl 9 0xA5 .dword 10 21),
    (32, 0b1001_10100101_011_01010_10101_010010_1, .ldm 9 0xA5 .dword 10 21),
    (32, 0b1001_10100101_011_01010_10101_010011_1, .stm 9 0xA5 .dword 10 21),
    (32, 0b1001_10100101_011_01010_10101_010100_1, .ldg 9 0xA5 .dword 10 21),
    (32, 0b1001_10100101_011_01010_10101_010101_1, .stg 9 0xA5 .dword 10 21),
    (32, 0b1001_10100101_110_01010_10101_010110_1, .ldh 9 0xA5 true 10 21),
    (32, 0b1001_10100101_010_01010_10101_010111_1, .pub 9 0xA5 10 21),
    (32, 0b1001_10100101_011_01010_10101_011000_1, .ldws 9 0xA5 .dword 10 21),
    (32, 0b1001_10100101_011_01010_10101_011001_1, .stws 9 0xA5 .dword 10 21),
    (32, 0b1001_10100101_011_01010_10101_011010_1, .ldas 9 0xA5 .dword 10 21),
    (32, 0b1001_10100101_011_01010_10101_011011_1, .stas 9 0xA5 .dword 10 21),
    (32, 0b1001_10100101_011_01010_10101_011100_1, .ldcs 9 0xA5 .dword 10 21),
    (32, 0b1001_10100101_011_01010_10101_011101_1, .stcs 9 0xA5 .dword 10 21) ] : List (Nat × Nat × Instr)), decodeTableWord r.1 r.2.1 = some r.2.2 := by decide

theorem test_word_full_empty : ∀ r ∈ ([
    (32, 0b0000_10100101_001_01010_10101_011110_1, .ldflC 0xA5 .dword 10 21),
    (32, 0b0000_10100101_011_01010_10101_011110_1, .ldflP 0xA5 .dword 10 21),
    (32, 0b0000_10100101_001_01010_10101_011111_1, .stflF 0xA5 .dword 10 21),
    (32, 0b0000_10100101_011_01010_10101_011111_1, .stflX 0xA5 .dword 10 21),
    (32, 0b0000_10100101_100_01010_00000_011111_1, .stflE 0xA5 10),
    (32, 0b0000_10100101_001_01010_10101_100000_1, .ldfmC 0xA5 .dword 10 21),
    (32, 0b0000_10100101_011_01010_10101_100000_1, .ldfmP 0xA5 .dword 10 21),
    (32, 0b0000_10100101_001_01010_10101_100001_1, .stfmF 0xA5 .dword 10 21),
    (32, 0b0000_10100101_011_01010_10101_100001_1, .stfmX 0xA5 .dword 10 21),
    (32, 0b0000_10100101_100_01010_00000_100001_1, .stfmE 0xA5 10),
    (32, 0b0000_10100101_001_01010_10101_100010_1, .ldfgC 0xA5 10 21),
    (32, 0b0000_10100101_011_01010_10101_100010_1, .ldfgP 0xA5 10 21),
    (32, 0b0000_10100101_001_01010_10101_100011_1, .stfgF 0xA5 10 21),
    (32, 0b0000_10100101_011_01010_10101_100011_1, .stfgX 0xA5 10 21),
    (32, 0b0000_10100101_100_01010_00000_100011_1, .stfgE 0xA5 10) ] : List (Nat × Nat × Instr)), decodeTableWord r.1 r.2.1 = some r.2.2 := by decide

theorem test_word_atomic : ∀ r ∈ ([
    (32, 0b10100_00000_00111_01010_10101_100110_1, .amoAddW .g .rel .dev 21 7 10),
    (32, 0b10100_00001_00111_01010_10101_100110_1, .amoAddD .g .rel .dev 21 7 10),
    (32, 0b10100_00010_00111_01010_10101_100110_1, .amoAndD .g .rel .dev 21 7 10),
    (32, 0b10100_00011_00111_01010_10101_100110_1, .amoOrD .g .rel .dev 21 7 10),
    (32, 0b10100_00100_00111_01010_10101_100110_1, .amoXorD .g .rel .dev 21 7 10),
    (32, 0b10100_00101_00111_01010_10101_100110_1, .amoMinD .g .rel .dev 21 7 10),
    (32, 0b10100_00110_00111_01010_10101_100110_1, .amoMaxD .g .rel .dev 21 7 10),
    (32, 0b10100_00111_00111_01010_10101_100110_1, .amoMinnD .g .rel .dev 21 7 10),
    (32, 0b10100_01000_00111_01010_10101_100110_1, .amoMaxnD .g .rel .dev 21 7 10),
    (32, 0b10100_01001_00111_01010_10101_100110_1, .amoSwapW .g .rel .dev 21 7 10),
    (32, 0b10100_01010_00111_01010_10101_100110_1, .amoSwapD .g .rel .dev 21 7 10),
    (32, 0b10100_01011_00111_01010_10101_100110_1, .amoCasW .g .rel .dev 21 7 10),
    (32, 0b10100_01100_00111_01010_10101_100110_1, .amoCasD .g .rel .dev 21 7 10),
    (32, 0b10100_01101_00111_01010_10101_100110_1, .amoFaddU .g .rel .dev 21 7 10),
    (32, 0b10100_01110_00111_01010_10101_100110_1, .amoFmax .g .rel .dev 21 7 10),
    (32, 0b10100_01111_00111_01010_10101_100110_1, .amoFmin .g .rel .dev 21 7 10),
    (32, 0b10100_10000_00111_01010_00000_100110_1, .amoEsadd .g .rel .dev 7 10),
    (32, 0b10100_10001_00000_01010_10101_100110_1, .amoEsrd .g .rel .dev 21 10),
    (32, 0b10100_10010_00000_01010_00000_100110_1, .amoEsclr .g .rel .dev 10),
    (32, 0b00100_00000_00000_00000_00000_100111_1, .fenceAcq),
    (32, 0b00100_00001_00000_00000_00000_100111_1, .fenceRel),
    (32, 0b00100_00010_00000_00000_00000_100111_1, .fenceFull),
    (32, 0b00000_00011_00000_00000_00000_100111_1, .fenceLb) ] : List (Nat × Nat × Instr)), decodeTableWord r.1 r.2.1 = some r.2.2 := by decide

theorem test_word_thread : ∀ r ∈ ([
    (32, 0b00000_00000_00111_01010_10101_101000_1, .spawn 21 10 7),
    (32, 0b00000_00001_00111_01010_10101_101000_1, .spawnH 21 10 7),
    (32, 0b00000_00000_00111_01010_10101_101001_1, .sendm 21 10 7),
    (32, 0b00000_00010_00000_01010_10101_101001_1, .recvm 21 10),
    (32, 0b00000_00011_00000_01010_10101_101001_1, .recvmO 21 10),
    (32, 0b00000_00100_00000_01010_10101_101001_1, .peekm 21 10),
    (32, 0b00001_00010_00000_00000_00101_101010_1, .clre .e 5),
    (32, 0b00000_00011_00100_00101_10101_101010_1, .isfull 21 .c 5),
    (32, 0b01001_00100_00111_01010_00000_101010_1, .putr 9 10 7),
    (32, 0b0000_0011_000_000_010_001_00000_101011_1, .fork 3 1 2),
    (32, 0b0000_0000_001_000_000_001_00010_101011_1, .kick true 1),
    (32, 0b00000_00000_00111_01010_10101_101100_1, .wlpush 21 10 7),
    (32, 0b00000_00001_00000_01010_10101_101100_1, .wlpop 21 10),
    (32, 0b00000_00010_00000_00000_10101_101100_1, .wlcnt 21),
    (32, 0b00000_00001_00000_00000_10101_101101_1, .tbar 21),
    (32, 0b00000_00010_00000_00000_10101_101101_1, .qbar 21),
    (32, 0b00000_00011_00000_00000_10101_101101_1, .clbar 21),
    (32, 0b00000_00100_00000_01010_00000_101101_1, .stepidle 10),
    (32, 0b1001_0110_000_011_010_001_00000_101110_1, .cpyLm 9 6 3 2 1),
    (32, 0b1001_0110_000_011_010_001_00001_101110_1, .cpyGl 9 6 3 2 1),
    (32, 0b1001_0110_000_011_010_001_00010_101110_1, .cpyLg 9 6 3 2 1),
    (32, 0b1001_0110_000_011_010_001_00011_101110_1, .cpyGg 9 6 3 2 1),
    (32, 0b0000_0110_000_000_000_000_00101_101110_1, .cpyx 6),
    (32, 0b0000_0000_000_000_000_001_00000_101111_1, .launch 1),
    (32, 0b00000_00001_00000_00000_00000_101001_1, .waitm),
    (32, 0b00000_00000_00000_00000_00000_101010_1, .exit),
    (32, 0b00000_00001_00000_00000_00000_101010_1, .yield),
    (32, 0b00000_00101_00000_00000_00011_101010_1, .tid 3),
    (32, 0b0000_0000_000_000_000_000_00001_101011_1, .rdv),
    (32, 0b00000_00000_00000_00000_00000_101101_1, .step),
    (32, 0b0000_0000_000_000_000_000_00100_101110_1, .cpyq) ] : List (Nat × Nat × Instr)), decodeTableWord r.1 r.2.1 = some r.2.2 := by decide

theorem test_word_vfp : ∀ r ∈ ([
    (32, 0b001_10_000000_11_0011_1000_0100_110000_1, .vadd .bf16 .rtz 3 3 8 4),
    (32, 0b001_10_000001_11_0011_1000_0100_110000_1, .vsub .bf16 .rtz 3 3 8 4),
    (32, 0b001_10_000010_11_0011_1000_0100_110000_1, .vmul .bf16 .rtz 3 3 8 4),
    (32, 0b001_10_000011_11_0011_1000_0100_110000_1, .vfma .bf16 .rtz 3 3 8 4),
    (32, 0b001_10_000100_11_0011_1000_0100_110000_1, .vfms .bf16 .rtz 3 3 8 4),
    (32, 0b001_10_000101_11_0011_1000_0100_110000_1, .vfnma .bf16 .rtz 3 3 8 4),
    (32, 0b001_00_000110_11_0011_1000_0100_110000_1, .vmax .bf16 3 3 8 4),
    (32, 0b001_00_000111_11_0011_1000_0100_110000_1, .vmin .bf16 3 3 8 4),
    (32, 0b001_00_001000_11_0000_1000_0100_110000_1, .vabs .bf16 3 8 4),
    (32, 0b001_00_001001_11_0000_1000_0100_110000_1, .vneg .bf16 3 8 4),
    (32, 0b001_00_001010_11_0011_1000_0010_110000_1, .vceq .bf16 3 3 8 2),
    (32, 0b001_00_001011_11_0011_1000_0010_110000_1, .vclt .bf16 3 3 8 2),
    (32, 0b001_00_001100_11_0011_1000_0010_110000_1, .vcle .bf16 3 3 8 2),
    (32, 0b001_00_001101_11_0011_1000_0100_110000_1, .vsel .bf16 3 3 8 4),
    (32, 0b001_10_001110_11_0000_1000_0100_110000_1, .vrcp .bf16 .rtz 3 8 4),
    (32, 0b001_10_001111_11_0000_1000_0100_110000_1, .vrsq .bf16 .rtz 3 8 4),
    (32, 0b001_10_010000_11_0000_1000_0100_110000_1, .vsqrt .bf16 .rtz 3 8 4),
    (32, 0b001_00_010001_11_0000_1000_0100_110000_1, .vexp2 .bf16 3 8 4),
    (32, 0b001_00_010010_11_0000_1000_0100_110000_1, .vlog2 .bf16 3 8 4),
    (32, 0b001_00_010011_11_0000_1000_0100_110000_1, .vtanh .bf16 3 8 4),
    (32, 0b001_00_010100_11_0001_1000_0000_110000_1, .vamaxu .bf16 3 1 8) ] : List (Nat × Nat × Instr)), decodeTableWord r.1 r.2.1 = some r.2.2 := by decide

theorem test_word_vint : ∀ r ∈ ([
    (32, 0b010_00_000000_11_0011_1000_0100_110001_1, .viadd .i8 3 3 8 4),
    (32, 0b010_00_000001_11_0011_1000_0100_110001_1, .visub .i8 3 3 8 4),
    (32, 0b010_00_000010_11_0011_1000_0100_110001_1, .vimul .i8 3 3 8 4),
    (32, 0b010_00_000011_11_0011_1000_0100_110001_1, .viand .i8 3 3 8 4),
    (32, 0b010_00_000100_11_0011_1000_0100_110001_1, .vior .i8 3 3 8 4),
    (32, 0b010_00_000101_11_0011_1000_0100_110001_1, .vixor .i8 3 3 8 4),
    (32, 0b010_00_000110_11_0011_1000_0100_110001_1, .vishl .i8 3 3 8 4),
    (32, 0b010_00_000111_11_0011_1000_0100_110001_1, .vishr .i8 3 3 8 4),
    (32, 0b010_00_001000_11_0011_1000_0100_110001_1, .visra .i8 3 3 8 4),
    (32, 0b010_00_001001_11_0011_1000_0100_110001_1, .vimin .i8 3 3 8 4),
    (32, 0b010_00_001010_11_0011_1000_0100_110001_1, .vimax .i8 3 3 8 4),
    (32, 0b010_00_001011_11_0011_1000_0100_110001_1, .viadds .i8 3 3 8 4),
    (32, 0b010_00_001100_11_0011_1000_0100_110001_1, .visubs .i8 3 3 8 4),
    (32, 0b010_00_001101_11_0011_1000_0010_110001_1, .viceq .i8 3 3 8 2),
    (32, 0b010_00_001110_11_0011_1000_0010_110001_1, .viclt .i8 3 3 8 2) ] : List (Nat × Nat × Instr)), decodeTableWord r.1 r.2.1 = some r.2.2 := by decide

theorem test_word_vcvt_vred_vperm : ∀ r ∈ ([
    (32, 0b100_10_000000_01_1001_1000_0100_110010_1, .vcvt .e2m1 .rtz 1 true 1 8 4),
    (32, 0b100_10_000001_01_0001_1000_0100_110010_1, .vquant .e2m1 .rtz 1 1 8 4),
    (32, 0b100_10_000010_01_0101_1000_0100_110010_1, .vquantv .e2m1 .rtz 1 5 8 4),
    (32, 0b100_10_000011_01_0001_1000_0100_110010_1, .vdeq .e2m1 .rtz 1 1 8 4),
    (32, 0b100_00_000100_01_0000_0000_0000_110010_1, .sclnext .e2m1 1),
    (32, 0b100_00_000101_01_0011_1000_0100_110010_1, .vpack .e2m1 1 3 8 4),
    (32, 0b100_00_000110_01_0001_1000_0100_110010_1, .vunpk .e2m1 1 true 8 4),
    (32, 0b001_00_000000_11_0101_1000_0100_110011_1, .vrsumO .bf16 3 5 8 4),
    (32, 0b001_00_000001_11_0101_1000_0100_110011_1, .vrsumU .bf16 3 5 8 4),
    (32, 0b001_00_000010_11_0101_1000_0100_110011_1, .vrmax .bf16 3 5 8 4),
    (32, 0b001_00_000011_11_0101_1000_0100_110011_1, .vramax .bf16 3 5 8 4),
    (32, 0b001_00_000100_11_0101_1000_0100_110011_1, .vrmin .bf16 3 5 8 4),
    (32, 0b010_00_000000_11_0011_1000_0100_110100_1, .vshuf .w8 3 3 8 4),
    (32, 0b010_00_000001_11_0101_1000_0100_110100_1, .vbcast .w8 3 5 8 4),
    (32, 0b110_10_000010_00_0101_0000_0100_110100_1, .vins 26 5 4),
    (32, 0b110_10_000011_00_0101_1000_0000_110100_1, .vext 26 5 8),
    (32, 0b010_00_000100_11_0101_1000_0100_110100_1, .vslide .w8 3 5 8 4) ] : List (Nat × Nat × Instr)), decodeTableWord r.1 r.2.1 = some r.2.2 := by decide

theorem test_word_engine : ∀ r ∈ ([
    (32, 0b1001_0000_001_000_000_001_00000_110110_1, .mld 9 true 1),
    (32, 0b1001_1011_001_000_000_001_00001_110110_1, .mma 9 11 true 1),
    (32, 0b1001_1011_011_000_000_000_00001_110110_1, .mmaLatch 9 11 true),
    (32, 0b1001_1011_001_000_000_001_00010_110110_1, .mmat 9 11 true 1),
    (32, 0b1001_1011_011_000_000_000_00010_110110_1, .mmatLatch 9 11 true),
    (32, 0b1001_0000_001_000_010_001_00011_110110_1, .mout 9 true 2 1),
    (32, 0b1001_1011_001_000_000_000_00100_110110_1, .mdrain 9 11 true),
    (32, 0b1001_1011_001_000_000_000_00101_110110_1, .mzero 9 11 true),
    (32, 0b1001_0000_000_000_000_001_00000_110111_1, .ringdef 9 1),
    (32, 0b1001_0000_000_000_000_001_00001_110111_1, .latch 9 1),
    (32, 0b1001_0000_010_000_000_000_00000_111000_1, .qinit 9 2),
    (32, 0b1001_1011_010_000_000_001_00001_111000_1, .qhh 9 11 2 1),
    (32, 0b1001_0000_010_000_000_000_00010_111000_1, .qapp 9 2),
    (32, 0b1001_1011_010_000_000_001_00011_111000_1, .qgen 9 11 2 1),
    (32, 0b1001_1011_010_000_000_000_00100_111000_1, .qapl 9 11 2),
    (32, 0b1001_1011_010_000_000_000_00101_111000_1, .qaplt 9 11 2),
    (32, 0b1001_1011_010_000_000_000_00110_111000_1, .qapr 9 11 2),
    (32, 0b1001_1011_010_000_000_000_00111_111000_1, .qaprt 9 11 2),
    (32, 0b1001_1011_010_000_000_000_01000_111000_1, .qdense 9 11 2),
    (32, 0b1001_1011_010_000_000_000_01001_111000_1, .qsave 9 11 2),
    (32, 0b1001_1011_010_000_000_000_01010_111000_1, .qload 9 11 2),
    (32, 0b0011_0000_000_000_000_000_00010_110111_1, .brot 3) ] : List (Nat × Nat × Instr)), decodeTableWord r.1 r.2.1 = some r.2.2 := by decide

theorem test_word_late : ∀ r ∈ ([
    (32, 0b00000_00000_00111_01010_00100_111001_1, .gqpush 7 10 4),
    (32, 0b00000_00001_00111_01010_00100_111001_1, .gqpop 7 10 4),
    (32, 0b00000_00010_00111_01010_00000_111001_1, .gqwin 7 10),
    (32, 0b00000_00011_00000_01010_10101_111001_1, .gqlen 21 10),
    (32, 0b1001_0000_000_011_010_001_00000_111010_1, .optAdamw 9 3 2 1),
    (32, 0b1001_0000_000_011_010_001_00001_111010_1, .optSgdm 9 3 2 1),
    (32, 0b1001_0000_000_011_000_001_00010_111010_1, .optClip 9 3 1),
    (32, 0b00000_00000_00111_01010_10101_111011_1, .epopen 21 10 7),
    (32, 0b00000_00001_00111_01010_10101_111011_1, .eprec 21 10 7),
    (32, 0b00000_00010_00000_01010_10101_111011_1, .epclose 21 10),
    (32, 0b00000_00011_00111_01010_10101_111011_1, .rwsend 21 10 7),
    (32, 0b00000_00100_00000_01010_10101_111011_1, .epstat 21 10),
    (32, 0b1001_0110_000_000_000_001_00000_111100_1, .collDecl 9 6 1),
    (32, 0b1001_0110_000_011_010_001_00001_111100_1, .collAg 9 6 3 2 1),
    (32, 0b1001_0110_000_011_010_001_00010_111100_1, .collRsO 9 6 3 2 1),
    (32, 0b1001_0110_000_011_010_001_00011_111100_1, .collRsU 9 6 3 2 1),
    (32, 0b1001_0110_000_011_010_001_00100_111100_1, .collArO 9 6 3 2 1),
    (32, 0b1001_0110_000_011_010_001_00101_111100_1, .collArU 9 6 3 2 1),
    (32, 0b1001_0110_000_011_010_001_00110_111100_1, .collA2a 9 6 3 2 1),
    (32, 0b1001_0110_000_011_000_000_00111_111100_1, .collBar 9 6 3),
    (32, 0b00000_00000_00111_01010_00000_111101_1, .tlbinv 7 10),
    (32, 0b00000_00001_00000_01010_10101_111101_1, .tlbprobe 21 10),
    (32, 0b00000_00010_00111_01010_10101_111101_1, .lkctlStatus 21 10 7),
    (32, 0b00000_00011_00000_01010_10101_111101_1, .swreqSwitch 21 10),
    (32, 0b00000_00100_00111_01010_00000_111101_1, .report 7 10) ] : List (Nat × Nat × Instr)), decodeTableWord r.1 r.2.1 = some r.2.2 := by decide

theorem test_word_compact : ∀ r ∈ ([
    (16, 0b1010101_10101_000_0, .cAddi 21 0x55),
    (16, 0b00_01010_10101_001_0, .cMov 21 10),
    (16, 0b01_01010_10101_001_0, .cAdd 21 10),
    (16, 0b10_01010_10101_001_0, .cSub 21 10),
    (16, 0b11_01010_10101_001_0, .cAnd 21 10),
    (16, 0b0101_100_10101_010_0, .cLdlD 5 4 21),
    (16, 0b0101_100_10101_011_0, .cStlD 5 4 21),
    (16, 0b1010101_01010_100_0, .cBeqz 0x55 10),
    (16, 0b1010101_01010_101_0, .cBnez 0x55 10),
    (16, 0b101010111100_110_0, .cJ 0xABC),
    (16, 0b0000000_00000_111_0, .cSysNop),
    (16, 0b0000001_00000_111_0, .cStep),
    (16, 0b0000010_00000_111_0, .cYield),
    (16, 0b0000011_00000_111_0, .cExit),
    (16, 0b0000100_00000_111_0, .cRet),
    (16, 0b0000101_00011_111_0, .cClre 3),
    (16, 0b0000110_00000_111_0, .cWaitm) ] : List (Nat × Nat × Instr)), decodeTableWord r.1 r.2.1 = some r.2.2 := by decide

/-! ## Terms that have no encoding: one for each check of WellFormed -/

theorem test_ill_load_width : WellFormed (.ldl 0 0 .vec 2 16) = false ∧ WellFormed (.ldl 0 0 .vec 2 15) = true := by decide
theorem test_ill_store_width : WellFormed (.stg 0 0 .nhalf 2 3) = false ∧ WellFormed (.stg 0 0 .half 2 3) = true := by decide
theorem test_ill_area_width : WellFormed (.stcs 0 0 .byte 2 3) = false ∧ WellFormed (.ldws 0 0 .vec 2 16) = false := by decide
theorem test_ill_clre : WellFormed (.clre .e 8) = false ∧ WellFormed (.clre .v 15) = true := by decide
theorem test_ill_isfull : WellFormed (.isfull 1 .q 4) = false ∧ WellFormed (.isfull 1 .latch 0) = false := by decide
theorem test_ill_fork : WellFormed (.fork 0 0 0) = false ∧ WellFormed (.fork 1 2 3) = false ∧ WellFormed (.fork 2 0 3) = true := by
  decide
theorem test_ill_vcvt : WellFormed (.vcvt .bf16 .rne 0 true 2 0 0) = false := by decide
theorem test_ill_vquant : WellFormed (.vquant .bf16 .rne 0 0 2 0) = false ∧ WellFormed (.vquant .e4m3 .rne 0 3 2 0) = false ∧
    WellFormed (.vquant .e4m3 .rne 0 0 3 0) = false := by decide
theorem test_ill_vquantv : WellFormed (.vquantv .e4m3 .rne 0 8 2 0) = false ∧ WellFormed (.vquantv .e4m3 .rne 0 8 4 1) = false := by
  decide
theorem test_ill_vdeq : WellFormed (.vdeq .e4m3 .rne 0 0 1 3) = false ∧ WellFormed (.vdeq .e4m3 .rne 0 3 1 4) = false := by decide
theorem test_ill_vpack : WellFormed (.vpack .e4m3 0 1 2 3) = false ∧ WellFormed (.vunpk .nfd 0 true 2 3) = true := by decide
theorem test_ill_vred : WellFormed (.vrmax .f32 0 4 12 0) = false ∧ WellFormed (.vrmax .f32 0 3 12 0) = true := by decide
theorem test_ill_compact : WellFormed (.cAddi 0 1) = false ∧ WellFormed (.cMov 0 1) = false := by decide
/-- What no check refuses and the decoder does: a nonzero field that the form does not use, and a reserved major (R46). -/
theorem test_ill_words : decodeTableWord 32 0x080A4183 = none ∧ decodeTableWord 32 (1 + 2 * 0x0D) = none ∧
    decodeTableWord 32 (1 + 2 * 0x3E) = none ∧ decodeTableWord 16 0 = none := by decide

/-! ## Integer instructions, jumps, SYS (R69 to R77) -/

/-- The premises of every row, at operands that meet in one register and at g0. -/
theorem wit_integer_rows : (∀ r ∈ aluRows 1 2 3 ++ aluMoreRows 1 2 3 5 ++ immRows 1 2 5 3,
    Issues (withRegs []) r.ok (r.srcs.map gId) [gId r.dst]) ∧
    ∀ r ∈ aluRows 0 0 0 ++ aluMoreRows 0 0 0 5 ++ immRows 0 0 5 3, Issues (withRegs []) r.ok (r.srcs.map gId) [gId r.dst] :=
  ⟨issues_all (by decide +kernel), issues_all (by decide +kernel)⟩
theorem wit_long_integer : Issues (withRegs []) threadOrMender [gId 2, gId 3] [gId 1] ∧ (me (withRegs [])).out.length < 4 :=
  ⟨issues_of (by decide +kernel), by decide +kernel⟩

/-- R69: -1 and 2 as the rule gives each function. -/
theorem test_alu : (aluRows 1 2 3).map (fun r => gOf (exec r.instr (withRegs [(2, 2 ^ 64 - 1), (3, 2)])) 1) =
    [1, 2 ^ 64 - 3, 2, 2 ^ 64 - 1, 2 ^ 64 - 3, 2 ^ 64 - 4, 2 ^ 62 - 1, 2 ^ 64 - 1, 1, 0, 2 ^ 64 - 1, 2, 2, 2 ^ 64 - 1, 1,
      2 ^ 64 - 3, 2 ^ 64 - 1, 2 ^ 64 - 1, 0] := by decide +kernel
theorem test_addw_sign : gOf (exec (.addw 1 2 3) (withRegs [(2, 2 ^ 31 - 1), (3, 1)])) 1 = 2 ^ 64 - 2 ^ 31 := by decide +kernel
theorem test_sel_bfi : gOf (exec (.sel 1 2 3) (withRegs [(1, 7), (2, 20), (3, 30)])) 1 = 20 ∧
    gOf (exec (.bfi 1 2 3) (withRegs [(1, 0xFFFF), (2, 0x5), (3, 4 + 256 * 4)])) 1 = 0xFF5F := by decide +kernel
theorem test_bfx_top : gOf (exec (.bfx 1 2 3) (withRegs [(2, 2 ^ 63), (3, 63 + 256 * 8)])) 1 = 1 := by decide +kernel
theorem test_counts : gOf (exec (.clz 1 2) (withRegs [])) 1 = 64 ∧ gOf (exec (.ctz 1 2) (withRegs [(2, 8)])) 1 = 3 ∧
    gOf (exec (.popc 1 2) (withRegs [(2, 0xF0F)])) 1 = 8 := by decide +kernel
theorem test_rotate : gOf (exec (.rol 1 2 3) (withRegs [(2, 2 ^ 63 + 1), (3, 1)])) 1 = 3 ∧
    gOf (exec (.ror 1 2 3) (withRegs [(2, 3), (3, 65)])) 1 = 2 ^ 63 + 1 := by decide +kernel
theorem test_immediates : (immRows 1 2 0x7FFF 4).map (fun r => gOf (exec r.instr (withRegs [(2, 0x8000_0000_0000_0010)])) 1) =
    [0x8000_0000_0000_000F, 0x8000_0000_0000_0010, 2 ^ 64 - 1, 0x7FFF_FFFF_FFFF_FFEF, 1, 0x100, 0x0800_0000_0000_0001,
      0xF800_0000_0000_0001, 0x0800_0000_0000_0001] := by decide +kernel
theorem test_compact_alu : gOf (exec (.cAddi 1 0x7F) (withRegs [(1, 5)])) 1 = 4 ∧ gOf (exec (.cMov 1 2) (withRegs [(2, 9)])) 1 = 9 ∧
    gOf (exec (.cSub 1 2) (withRegs [(1, 1), (2, 2)])) 1 = 2 ^ 64 - 1 := by decide +kernel
/-- R70: the edge cases of division. -/
theorem test_division : (longRows 0 1 2 3).map (fun r => onWay (exec r.1 (withRegs [(2, 2 ^ 63), (3, 2 ^ 64 - 1)]))) =
    [2 ^ 63, 0, 2 ^ 63 - 1, 0, 2 ^ 63, 0, 0, 2 ^ 63] := by decide +kernel
theorem test_division_by_zero : [Instr.div 0 1 2 3, .divn 0 1 2 3, .rem 0 1 2 3, .remn 0 1 2 3].map
    (fun i => onWay (exec i (withRegs [(2, 7)]))) = [2 ^ 64 - 1, 2 ^ 64 - 1, 7, 7] := by decide +kernel

/-- Branches taken and not taken, and jumps, at the registers that decide. -/
theorem wit_branch_rows : (∀ r ∈ branchRows 1 2 5 6, Issues (withRegs []) allHarts (r.srcs.map gId) []) ∧
    ∃ r ∈ branchRows 1 2 5 6, r.cond (rg (me (withRegs []))) :=
  ⟨issues_all (by decide +kernel), _, .head _, (by decide +kernel : rg (me (withRegs [])) 1 = rg (me (withRegs [])) 2)⟩
theorem test_branch_taken : (branchRows 1 2 0xFFE 0x7E).map (fun r => (me (out (exec r.instr (withRegs [(1, 2 ^ 64 - 1), (2, 1)])))).pc.toNat) =
    [0x1_0004, 0xFFFC, 0xFFFC, 0x1_0004, 0x1_0004, 0xFFFC, 0xFFFC, 0x1_0004, 0x1_0002, 0xFFFC] := by decide +kernel
theorem wit_jumps : ((i64 ((rg (me (withRegs [(1, 3)])) 1).toInt + 5)).toNat % 2 = 0 ∧
    (i64 ((rg (me (withRegs [(1, 3)])) 1).toInt + 0)).toNat % 2 = 1) ∧
    (∀ r ∈ jumpRows 1 5 5, Issues (withRegs []) allHarts [] [gId r.2.1]) ∧
    ∀ r ∈ jalrRows 1 1 5, Issues (withRegs [(1, 3)]) threadOrMender [gId r.2.1] [gId r.2.2.1] :=
  ⟨by decide +kernel, issues_all (by decide +kernel), issues_all (by decide +kernel)⟩
theorem test_jal : (fun t => ((me t).pc.toNat, (rg (me t) 1).toNat)) (out (exec (.jal 1 8) (withRegs []))) = (0x1_0010, 0x1_0004) := by
  decide +kernel
/-- R76: when d = a the target uses the old value; an odd target traps and writes nothing. -/
theorem test_jalr : (fun t => ((me t).pc.toNat, (rg (me t) 1).toNat)) (out (exec (.jalr 1 1 2) (withRegs [(1, 0x200)]))) =
    (0x202, 0x1_0004) ∧ causeOf (exec (.jalr 1 1 1) (withRegs [(1, 0x200)])) = 0x08 := by decide +kernel

theorem wit_system : (let s := withRegs [(1, 5)]
    base.cycle * 5 / 12 < (rg (me s) 1).toNat ∧ (rg (me (withRegs [])) 1).toNat ≤ base.cycle * 5 / 12 ∧
      (me (mk fun h => { h with inh := true })).inh = true ∧ (me s).inh = false ∧ (me s).out = [] ∧
      (me (mk fun h => { h with out := [longOp []] })).out ≠ []) ∧
    Issues (withRegs [(1, 5)]) threadOrMender [gId 1] [] ∧ Issues (mk fun h => { h with out := [longOp []] }) threadOrMender [] [] :=
  ⟨by decide +kernel, issues_of (by decide +kernel), issues_of (by decide +kernel)⟩
theorem test_ecall : causeOf (exec .ecall (withRegs [])) = 0x04 ∧ causeOf (exec .ecall (supRegs [])) = 0x05 ∧
    causeOf (exec .ebreak (withRegs [])) = 0x06 := by decide +kernel
theorem test_tret : (me (out (exec .tret (mk fun h => { h with inh := true, tepc := 0x40 })))).pc = 0x40 ∧
    causeOf (exec .tret (withRegs [])) = 0x00 := by decide +kernel
theorem test_park : (me (out (exec (.park 1) (withRegs [(1, 9)])))).status = .parked (.deadline 9) ∧
    (me (out (exec (.park 1) (withRegs [])))).pc = 0x1_0004 := by decide +kernel
theorem test_fence : (getTile (out (exec .fenceAcq (onTile 0 (fun x => { x with gcache := [(5, 1)] }) (withRegs [])))) 0).gcache = [] ∧
    (getTile (out (exec .ifence (onTile 0 (fun x => { x with icache := [(5, 1)] }) (withRegs [])))) 0).icache = [] := by decide +kernel
theorem test_nop : (me (out (exec .nop (withRegs [])))).pc = 0x1_0004 ∧ (me (out (exec .cSysNop (withRegs [])))).pc = 0x1_0002 := by
  decide +kernel

/-! ## CSRs (R64 to R67) -/

theorem wit_csr : (let s := supRegs [(2, 3)]
    csrFlaw s s.cur 0x000 = none ∧ csrFlaw s s.cur 0x203 = none ∧ (me s).out.all (!·.fp) = true ∧
      (me (modMe s fun h => { h with out := [{ longOp [] with fp := true }] })).out.any (·.fp) = true) ∧
    Issues (supRegs [(2, 3)]) threadOrMender [gId 2] [gId 1] ∧ csrOpen (supRegs [(2, 3)]) 0x000 ∧ csrOpen (supRegs [(2, 3)]) 0x203 :=
  ⟨by decide +kernel, issues_of (by decide +kernel), ⟨rfl, .inl (by decide), by decide⟩, ⟨rfl, .inl (by decide), by decide⟩⟩
theorem test_csrr : gOf (exec (.csrr 1 0x02D) (withRegs [])) 1 = 0x1000 ∧ gOf (exec (.csrr 1 0x061) (withRegs [])) 1 = 1 ∧
    causeOf (exec (.csrr 1 0x007) (withRegs [])) = 0x00 ∧ causeOf (exec (.csrr 1 0x200) (withRegs [])) = 0x03 := by decide +kernel
theorem test_csrs : gOf (exec (.csrs 1 0x001 2) (withRegs [(2, 3)])) 1 = 0 ∧
    (me (out (exec (.csrs 1 0x001 2) (withRegs [(2, 3)])))).frm = 3 := by decide +kernel
theorem test_csrx : gOf (exec (.csrx 1 0x105 1) (withRegs [(1, 3)])) 1 = 0 ∧
    (me (out (exec (.csrx 1 0x105 1) (withRegs [(1, 3)])))).tscratch = 3 := by decide +kernel
theorem test_csrc : (me (out (exec (.csrc 1 0x011 2) (onTile 0 (fun x => { x with stepmask := 0x7F }) (withRegs [(2, 0x41)]))))).pc = 0x1_0004 ∧
    (getTile (out (exec (.csrc 1 0x011 2) (onTile 0 (fun x => { x with stepmask := 0x7F }) (withRegs [(2, 0x41)])))) 0).stepmask = 0x3E := by
  decide +kernel
/-- R334: escwait below 16 writes 16; R64: sleepcfg keeps its value when 3 is written. -/
theorem test_csrw : (getTile (out (exec (.csrw 0x203 1) (supRegs [(1, 3)]))) 0).escwait = 16 ∧
    (getTile (out (exec (.csrw 0x200 1) (supRegs [(1, 3)]))) 0).sleepDepth = 1 := by decide +kernel

/-! ## Loads and stores (R37, R86 to R95) -/

/-- Tile 1 of the same group. -/
def pair (s : State) : State := setTile s 1 { Tile.reset with ctx := 1, grp := some 1, slots := 7 }
/-- The mesh address of offset `off` of tile 1. -/
def far (off : Nat) : Nat := 2 ^ 17 + off

/-- Every row at the last aligned offset of its store. -/
theorem wit_store_loads : ∀ r ∈ loadRows 1 0 .dword 2 1 0 0,
    let s := withRegs [(2, r.store.size - 8), (8, r.store.size - 8)]
    storePoison (getTile (meetFlaws (readFilled s [gId r.base]) 0 r.store (r.ea (me s)).toNat (accessSize r.width)) 0) r.store
      (r.ea (me s)).toNat (accessSize r.width) = false ∧ Reaches r s 0 [gId r.base] [dataId r.width r.data] := by
  intro r hr
  simp only [loadRows, List.mem_cons, List.not_mem_nil, or_false] at hr
  rcases hr with rfl | rfl | rfl | rfl | rfl <;> exact ⟨by decide +kernel, reaches_of (by decide +kernel)⟩
theorem wit_store_stores : ∀ r ∈ storeRows 1 0 .dword 2 1 0 0,
    Reaches r (withRegs [(2, r.store.size - 8), (8, r.store.size - 8)]) 0 [gId r.base, dataId r.width r.data] [] := by
  intro r hr
  simp only [storeRows, List.mem_cons, List.not_mem_nil, or_false] at hr
  rcases hr with rfl | rfl | rfl | rfl | rfl <;> exact reaches_of (by decide +kernel)
theorem wit_store_traps : (let s := withRegs [(2, 1)]
    let u := withRegs [(2, 0x20000)]
    (me s).out.length < 4 ∧ (eaOf 2 0 .dword (me s)).toNat % accessSize .dword ≠ 0 ∧
      (eaOf 2 0 .dword (me u)).toNat % accessSize .dword = 0 ∧ Store.l.size ≤ (eaOf 2 0 .dword (me u)).toNat) ∧
    Issues (withRegs [(2, 1)]) threadOnly [gId 2] [dataId .dword 1] ∧ Issues (withRegs [(2, 0x20000)]) threadOnly [gId 2, dataId .dword 1] [] :=
  ⟨by decide +kernel, issues_of (by decide +kernel), issues_of (by decide +kernel)⟩
/-- R37: a byte is sign-extended by .b and zero-extended by .nb; R95: six cycles. -/
theorem test_ldl : let s := onTile 0 (fun x => { x with l := memWrite x.l 0x10 8 0x8081 }) (withRegs [(2, 0x10)])
    (onWay (exec (.ldl 0 0 .byte 2 1) s), onWay (exec (.ldl 0 1 .nbyte 2 1) s)) = (2 ^ 64 - 0x7F, 0x80) ∧
    (me (out (exec (.ldl 3 0 .byte 2 1) s))).out.map (fun o => (o.left, o.due)) = [(3, 6)] := by decide +kernel
theorem test_stl : memRead (getTile (out (exec (.stl 0 0xFF .half 2 1) (withRegs [(2, 0x12), (1, 0x12345)]))) 0).l 0xF 4 = 0x234500 := by
  decide +kernel
theorem test_area_stores : memRead (getTile (out (exec (.stws 0 0 .word 2 1) (withRegs [(2, 0x2FFFC), (1, 7)]))) 0).w 0x2FFFC 4 = 7 ∧
    causeOf (exec (.ldas 0 0 .word 2 1) (withRegs [(2, 0x30000)])) = 0x25 ∧
    causeOf (exec (.stcs 0 0 .word 2 1) (withRegs [(2, 2)])) = 0x28 := by decide +kernel
/-- R87: an access to an empty accumulator tile waits. -/
theorem test_ldcs_waits : (me (out (exec (.ldcs 0 0 .word 2 1) (onTile 0 (fun x => { x with cF := 0xFFFD }) (withRegs [(2, 0x1000)]))))).status =
    .parked (.reg ⟨.c, 1⟩) := by decide +kernel
theorem test_compact_access : onWay (exec (.cLdlD 2 1 3) (onTile 0 (fun x => { x with l := memWrite x.l 0x30 8 77 }) (withRegs [(9, 0x20)]))) = 77 := by
  decide +kernel

theorem wit_mesh : (let s := pair (withRegs [(2, far 0x1FFF8)])
    tileOf? s.cur = some 0 ∧ (me s).out.length < 4 ∧ (eaOf 2 0 .dword (me s)).toNat % 8 = 0 ∧
      meshTarget s (hartCtx s s.cur) (eaOf 2 0 .dword (me s)) = .ok 1 0x1FFF8 ∧ lSleeps s 1 = false) ∧
    meshPlace (w64 (far 0x1FFF8)) 1 0x1FFF8 ∧ Issues (pair (withRegs [(2, far 0x1FFF8)])) threadOnly [gId 2] [gId 1] ∧
    Issues (pair (withRegs [(2, far 0x1FFF8)])) threadOnly [gId 2, gId 1] [] :=
  ⟨by decide +kernel, ⟨by decide +kernel, by decide, by decide⟩, issues_of (by decide +kernel), issues_of (by decide +kernel)⟩
/-- An access that is performed: LDM and STM behind their issue. -/
theorem wit_mesh_due : (let s := afterIssue (exec (.ldm 0 0 .dword 2 1) (pair (withRegs [(2, far 0x20)])))
    switchedOut s (hartCtx s s.cur) 1 = false ∧ pairNext s 0 1 0 = true ∧ (getTile s 1).flaws = [] ∧ storePoison (getTile s 1) .l 0x20 8 = false ∧
      accessCheck s s.cur 0 (backOf .dword 1) (.load ⟨some 1, 0x20, 8, w64 (far 0x20), 0x1_0000, 0, false, []⟩ .dword) = true) ∧
    let s := afterIssue (exec (.stm 0 0 .dword 2 1) (pair (withRegs [(2, far 0x20), (1, 9)])))
    switchedOut s (hartCtx s s.cur) 1 = false ∧ pairNext s 0 1 0 = true ∧ accessCheck s s.cur 0 [] (.store ⟨some 1, 0x20, 8, w64 (far 0x20), 0x1_0000, 0, false, []⟩ 9) = true := by
  decide +kernel
theorem test_stm : memRead (getTile (landed (exec (.stm 0 0 .dword 2 1) (pair (withRegs [(2, far 0x20), (1, 9)])))) 1).l 0x20 8 = 9 ∧
    (me (out (exec (.stm 0 0 .dword 2 1) (pair (withRegs [(2, far 0x20), (1, 9)]))))).out.map (·.due) = [14] := by decide +kernel
theorem test_ldm_outside : causeOf (exec (.ldm 0 0 .dword 2 1) (withRegs [(2, 2 ^ 33)])) = 0x15 ∧
    causeOf (exec (.ldm 0 0 .dword 2 1) (withRegs [(2, far 4)])) = 0x14 := by decide +kernel

/-- Device memory at virtual address 0x8000. -/
def at8000 : Nat := Config.hdmBase + 0x8000

theorem wit_global : (let s := withRegs [(2, 0x8000)]
    (me s).out.length < 4 ∧ (eaOf 2 0 .dword (me s)).toNat % 8 = 0 ∧ xlateHart (readFilled s [gId 2]) s.cur 0x8000 .read = (s, .ok at8000) ∧
      xlateHart (readFilled s [gId 2, gId 1]) s.cur 0x8000 .write = (s, .ok at8000) ∧ at8000 / 64 = (at8000 + 8 - 1) / 64) ∧
    Issues (withRegs [(2, 0x8000)]) threadOrMender [gId 2] [gId 1] ∧ Issues (withRegs [(2, 0x8000)]) threadOrMender [gId 2, gId 1] [] :=
  ⟨by decide +kernel, issues_of (by decide +kernel), issues_of (by decide +kernel)⟩
/-- LDG and STG as they are performed, with the line at its home and in the read cache. -/
theorem wit_global_due : (let s := afterIssue (exec (.ldg 0 0 .dword 2 1) (withRegs [(2, 0x8000)]))
    lineCached s s.cur at8000 = false ∧ physPoison s at8000 8 = false ∧ Memory.wf s.mem = true ∧
      (alGet (getTile (onTile 0 (fun x => { x with gcache := [(at8000 / 64, 7)] }) s) 0).gcache (at8000 / 64)).isSome = true ∧
      (getTile s 0).flaws = [] ∧ cachedBad (getTile s 0) 2 at8000 8 = false ∧
      accessCheck s s.cur 0 (backOf .dword 1) (.load ⟨none, at8000, 8, 0x8000, 0x1_0000, 0, false, []⟩ .dword) = true) ∧
    let s := afterIssue (exec (.stg 0 0 .dword 2 1) (withRegs [(2, 0x8000), (1, 9)]))
    accessCheck s s.cur 0 [] (.store ⟨none, at8000, 8, 0x8000, 0x1_0000, 0, false, []⟩ 9) = true := by decide +kernel
theorem test_ldg : (rg (getHart (landed (exec (.ldg 0 1 .word 2 1) (withMem [(0x8004, 4, 0x8000_0001)] (withRegs [(2, 0x8000)])))) base.cur) 1).toNat =
    2 ^ 64 - 2 ^ 31 + 1 := by decide +kernel
theorem test_stg : memRead (landed (exec (.stg 0 0 .word 2 1) (withRegs [(2, 0x8000), (1, 2 ^ 40 + 5)]))).mem at8000 8 = 5 := by decide +kernel
/-- R73: a literal is read at the doubleword of the pc. -/
theorem test_ldk : gOf (exec (.ldk 1 2) (withMem [(0x1_0010, 8, 99)] (withRegs []))) 1 = 99 := by decide +kernel

/-! ## Full/empty words and atomics (R96 to R108) -/

/-- Words 8 and 9 of tile 0 are empty. -/
def drainedWords (s : State) : State := onTile 0 (fun x => { x with lEmpty := [8, 9] }) s

theorem wit_fe_loads : (let s := withRegs [(2, 0x20)]
    let full := onTile 0 (fun x => { x with fe := List.replicate 64 ⟨.tile 1 0, .peek, 0x20, 8, 1, 0, 4, 0x20, .l, false, []⟩ }) s
    (getTile s 0).lEmpty = [] ∧ (getTile s 0).fe = [] ∧ (getTile s 0).flaws = [] ∧ storePoison (getTile s 0) .l 0x20 8 = false ∧
      (8 : Nat) ∈ (getTile (drainedWords s) 0).lEmpty ∧ (getTile (drainedWords s) 0).fe.length < 64 ∧ 64 ≤ (getTile full 0).fe.length) ∧
    Issues (withRegs [(2, 0x20)]) threadOnly [gId 2] [gId 1] ∧
    Arrives (withRegs [(2, 0x20)]) .l (feEa (me (withRegs [(2, 0x20)])) 2 0 8) 8 0 0x20 :=
  ⟨by decide +kernel, issues_of (by decide +kernel), arrives_l (by decide +kernel)⟩
theorem wit_fe_mesh : Arrives (pair (withRegs [(2, far 0x20)])) .m (feEa (me (pair (withRegs [(2, far 0x20)]))) 2 0 8) 8 1 0x20 :=
  arrives_m (by decide +kernel)
theorem wit_fe_stores : (let s := drainedWords (withRegs [(2, 0x20)])
    (me s).out.any isStoreOp = false ∧ (getTile s 0).fe = [] ∧ (∀ k < 10, 8 ≤ k → k ∈ (getTile s 0).lEmpty) ∧
      (9 : Nat) ∉ (getTile (onTile 0 (fun x => { x with lEmpty := [8] }) s) 0).lEmpty) ∧
    Issues (drainedWords (withRegs [(2, 0x20)])) threadOnly [gId 2, gId 1] [] ∧ Issues (drainedWords (withRegs [(2, 0x20)])) threadOnly [gId 2] [] ∧
    Arrives (drainedWords (withRegs [(2, 0x20)])) .l (feEa (me (drainedWords (withRegs [(2, 0x20)]))) 2 0 8) 8 0 0x20 :=
  ⟨by decide +kernel, issues_of (by decide +kernel), issues_of (by decide +kernel), arrives_l (by decide +kernel)⟩
/-- R97: .c delivers the words and empties them, .p leaves them full. -/
theorem test_ldfl : let s := onTile 0 (fun x => { x with l := memWrite x.l 0x20 8 5 }) (withRegs [(2, 0x20)])
    gOf (exec (.ldflC 0 .dword 2 1) s) 1 = 5 ∧ (getTile (out (exec (.ldflC 0 .dword 2 1) s)) 0).lEmpty = [8, 9] ∧
    (getTile (out (exec (.ldflP 0 .dword 2 1) s)) 0).lEmpty = [] := by decide +kernel
theorem test_ldfl_waits : (me (out (exec (.ldflC 0 .word 2 1) (drainedWords (withRegs [(2, 0x20)]))))).status = .parked (.word .l 0x20) := by
  decide +kernel
theorem test_stfl : let s := drainedWords (withRegs [(2, 0x20), (1, 7)])
    (getTile (out (exec (.stflF 0 .word 2 1) s)) 0).lEmpty = [9] ∧ memRead (getTile (out (exec (.stflX 0 .word 2 1) s)) 0).l 0x20 4 = 7 ∧
    (getTile (out (exec (.stflE 2 2) s)) 0).lEmpty = [8, 9, 10] := by decide +kernel

theorem wit_fe_global : (let s := withRegs [(2, 0x8000)]
    (feEa (me s) 2 0 8).toNat % 8 = 0 ∧ isDevice at8000 = true ∧ at8000 % 8 = 0 ∧ s.gfe = [] ∧
      xlateHart (readFilled s [gId 2]) s.cur 0x8000 .readWrite = (s, .ok at8000) ∧ s.gEmpty.contains (at8000 / 8) = false ∧ s.gLatent = [] ∧
      physPoison s at8000 8 = false ∧ (gDrain s at8000).gEmpty.contains (at8000 / 8) = true ∧
      xlateHart (readFilled (gDrain s at8000) [gId 2, gId 1]) s.cur 0x8000 .write = (gDrain s at8000, .ok at8000) ∧
      (me s).out.any isStoreOp = false) ∧
    ArrivesG (withRegs [(2, 0x8000)]) 0x8000 8 at8000 ∧ Issues (withRegs [(2, 0x8000)]) threadOrMender [gId 2] [gId 1] ∧
    Issues (gDrain (withRegs [(2, 0x8000)]) at8000) threadOrMender [gId 2, gId 1] [] :=
  ⟨by decide +kernel, arrives_g (by decide +kernel), issues_of (by decide +kernel), issues_of (by decide +kernel)⟩
theorem test_ldfg : (out (exec (.ldfgC 0 2 1) (withRegs [(2, 0x8000)]))).gEmpty = [at8000 / 8] ∧
    (out (exec (.stfgE 0 2) (withRegs [(2, 0x8000)]))).gEmpty = [at8000 / 8] := by decide +kernel
theorem test_stfg : (out (exec (.stfgF 0 2 1) (gDrain (withRegs [(2, 0x8000), (1, 3)]) at8000))).gEmpty = [] ∧
    memRead (out (exec (.stfgX 0 2 1) (withRegs [(2, 0x8000), (1, 3)]))).mem at8000 8 = 3 := by decide +kernel

theorem amoIssueChecks : (amoRows .l .rlx .tile 1 3 2).all (fun r =>
      issuesCheck (withRegs [(2, 0x40)]) threadOnly (gId 2 :: r.srcs.map gId) (r.dst.toList.map gId)) = true ∧
    (amoRows .g .ar .dev 1 3 2).all (fun r =>
      issuesCheck (withRegs [(2, 0x8000)]) threadOrMender (gId 2 :: r.srcs.map gId) (r.dst.toList.map gId)) = true := by decide +kernel
theorem wit_atomics : (let s := withRegs [(2, 0x8000)]
    (rg (me s) 2).toNat % 64 = 0 ∧ xlateHart s s.cur 0x8000 .readWrite = (s, .ok at8000) ∧ physPoison s at8000 64 = false ∧
      (getTile s 0).flaws = [] ∧ storePoison (getTile s 0) .l 0x40 64 = false) ∧
    (∀ r ∈ amoRows .l .rlx .tile 1 3 2, AmoIssues r (withRegs [(2, 0x40)]) .l .rlx 2) ∧
    (∀ r ∈ amoRows .g .ar .dev 1 3 2, AmoIssues r (withRegs [(2, 0x8000)]) .g .ar 2) ∧
    Arrives (withRegs [(2, 0x40)]) .l (rg (me (withRegs [(2, 0x40)])) 2) 64 0 0x40 ∧
    ArrivesG (withRegs [(2, 0x8000)]) (rg (me (withRegs [(2, 0x8000)])) 2) 64 at8000 :=
  ⟨by decide +kernel, fun r hr => ⟨issues_of (List.all_eq_true.mp amoIssueChecks.1 r hr), fun _ => rfl⟩,
    fun r hr => ⟨issues_of (List.all_eq_true.mp amoIssueChecks.2 r hr), fun _ => by decide +kernel⟩,
    arrives_l (by decide +kernel), arrives_g (by decide +kernel)⟩
/-- R108: an atomic with acquire order whose hart has an operation outstanding waits in the fence behind it. -/
theorem test_amo_acquire : (me (out (exec (.amoAddW .l .acq .tile 1 3 2) (modMe (withRegs [(2, 0x40)]) fun h => { h with out := [longOp []] })))).status =
    .parked (.fence 0x1_0004) := by decide +kernel
/-- R104: old value in d, new value in memory: 2^31 - 1 with 1, and 5 with 3. -/
theorem test_amo_word : let s := onTile 0 (fun x => { x with l := memWrite x.l 0x40 8 0xFFFF_FFFF }) (withRegs [(2, 0x40), (3, 1)])
    gOf (exec (.amoAddW .l .rlx .tile 1 3 2) s) 1 = 2 ^ 64 - 1 ∧
    memRead (getTile (out (exec (.amoAddW .l .rlx .tile 1 3 2) s)) 0).l 0x40 8 = 0 := by decide +kernel
theorem test_amo_dword : let s := withMem [(0x8000, 8, 2 ^ 64 - 1)] (withRegs [(2, 0x8000), (3, 6)])
    [Instr.amoAddD .g .rlx .dev 1 3 2, .amoAndD .g .rlx .dev 1 3 2, .amoOrD .g .rlx .dev 1 3 2, .amoXorD .g .rlx .dev 1 3 2,
      .amoMinD .g .rlx .dev 1 3 2, .amoMaxD .g .rlx .dev 1 3 2, .amoMinnD .g .rlx .dev 1 3 2, .amoMaxnD .g .rlx .dev 1 3 2,
      .amoSwapD .g .rlx .dev 1 3 2].map (fun i => memRead (out (exec i s)).mem at8000 8) =
      [5, 6, 2 ^ 64 - 1, 2 ^ 64 - 7, 2 ^ 64 - 1, 6, 6, 2 ^ 64 - 1, 6] := by decide +kernel
theorem test_amo_cas : let s := withMem [(0x8000, 8, 5)] (withRegs [(1, 5), (2, 0x8000), (3, 6)])
    memRead (out (exec (.amoCasD .g .rlx .dev 1 3 2) s)).mem at8000 8 = 6 ∧
    memRead (out (exec (.amoCasW .g .rlx .dev 4 3 2) s)).mem at8000 8 = 5 := by decide +kernel
/-- 1.0 + 1.0 = 2.0, and the maximum of -0 and +0 is +0. -/
theorem test_amo_fp : let s := withMem [(0x8000, 8, 0x3F80_0000), (0x8040, 4, 0x8000_0000)] (withRegs [(2, 0x8000), (3, 0x3F80_0000), (4, 0x8040)])
    memRead (out (exec (.amoFaddU .g .rlx .dev 1 3 2) s)).mem at8000 4 = 0x4000_0000 ∧
    memRead (out (exec (.amoFmax .g .rlx .dev 1 0 4) s)).mem (at8000 + 0x40) 4 = 0 ∧
    memRead (out (exec (.amoFmin .g .rlx .dev 1 0 4) s)).mem (at8000 + 0x40) 4 = 0x8000_0000 := by decide +kernel
/-- R107: a cell that is cleared, and 1.5 is added, reads 1.5. -/
theorem test_amo_cell : let s := withRegs [(2, 0x8000), (3, 0x3FC0_0000)]
    let s1 := out (exec (.amoEsadd .g .rlx .dev 3 2) (out (exec (.amoEsclr .g .rlx .dev 2) s)))
    gOf (exec (.amoEsrd .g .rlx .dev 1 2) s1) 1 = 0x3FC0_0000 := by decide +kernel

/-! ## Threads, messages, sequencers, steps, barriers (R78 to R85, R130 to R150, R172 to R181, R247 to R252) -/

theorem wit_here (f : List (GReg × Nat)) : Here (withRegs f) 0 0 := ⟨rfl, by decide⟩

theorem wit_thread_registers : (∀ r ∈ [(⟨.e, 7⟩ : RegId), gId 3, gId 1, gId 2], Issues (withRegs []) threadOnly [] [r]) ∧
    (let s := onTile 0 (fun x => { x with harts := x.harts.set 3 { Hart.reset with status := .ready } }) (mk fun h => { h with yield := [3, 4] })
     s.reports = [] ∧ countsReady s (.tile 0 3) = true ∧ countsReady s (.tile 0 4) = false ∧ (getHart s (.tile 0 0)).yield = [3, 4]) :=
  ⟨issues_all (by decide +kernel), by decide +kernel⟩
theorem test_clre : (me (out (exec (.clre .e 7) (withRegs [])))).eF = 0x7F ∧ (me (out (exec (.clre .g 0) (withRegs [])))).gF = 0xFFFF_FFFF ∧
    (me (out (exec (.cClre 3) (withRegs [])))).gF = 0xFFFF_FFF7 := by decide +kernel
theorem test_isfull : gOf (exec (.isfull 1 .v 3) (mk fun h => { h with vF := 0xFFF7 })) 1 = 0 ∧
    gOf (exec (.isfull 1 .c 15) (withRegs [])) 1 = 1 := by decide +kernel
/-- R85: the tile number times 8 and the slot, to the register that the word names. -/
theorem test_tid : gOf (exec (.tid 2) (pair (modMe { withRegs [] with cur := .tile 1 3 } id))) 2 = 11 := by
  decide +kernel
theorem test_yield : (me (out (exec .yield (modHart (withRegs []) (.tile 0 3) fun h => { h with status := .ready })))).yield = [3] ∧
    (me (out (exec .cYield (withRegs [])))).yield = [] := by decide +kernel

theorem wit_work_lists : (let s := withRegs []
    (me s).out.any isStoreOp = false ∧ (getTile s 0).work.length < 64 ∧ (getTile s 0).work = [] ∧
      64 ≤ (getTile (onTile 0 (fun x => { x with work := List.replicate 64 ⟨1, 2, none⟩ }) s) 0).work.length ∧
      (getTile (onTile 0 (fun x => { x with work := [⟨7, 8, none⟩] }) s) 0).work = ⟨7, 8, none⟩ :: [] ∧
      (me (modMe s fun h => { h with out := [longOp []] })).out.any isStoreOp = true) ∧
    Issues (withRegs []) threadOnly [gId 2, gId 3] [gId 1] ∧ Issues (withRegs []) threadOnly [] [gId 1, gId 2] ∧
    Issues (modMe (withRegs []) fun h => { h with out := [longOp []] }) threadOnly [gId 2, gId 3] [gId 1] :=
  ⟨by decide +kernel, issues_of (by decide +kernel), issues_of (by decide +kernel), issues_of (by decide +kernel)⟩
theorem test_wlpush : (getTile (out (exec (.wlpush 1 2 3) (withRegs [(2, 5), (3, 6)]))) 0).work = [⟨5, 6, none⟩] ∧
    gOf (exec (.wlpush 1 2 3) (withRegs [])) 1 = 1 ∧
    gOf (exec (.wlpush 1 2 3) (onTile 0 (fun x => { x with work := List.replicate 64 ⟨1, 2, none⟩ }) (withRegs [(1, 9)]))) 1 = 0 := by decide +kernel
/-- R252: the last pair pushed is the first popped; its second word goes to wlx. -/
theorem test_wlpop : let s := onTile 0 (fun x => { x with work := [⟨7, 8, none⟩, ⟨5, 6, none⟩] }) (withRegs [])
    (gOf (exec (.wlpop 1 2) s) 1, gOf (exec (.wlpop 1 2) s) 2, (me (out (exec (.wlpop 1 2) s))).wlx) = (7, 1, 8) ∧
    gOf (exec (.wlcnt 1) s) 1 = 2 := by decide +kernel

/-- Tile 0 with a group of 2 by 2, as gid says, and its slot 1 free. -/
def groupGid (s : State) : State := onTile 0 (fun x => { x with gid := 0x0202_0000 }) s

theorem wit_exit : ((me (withRegs [])).out = [] ∧ (me (withRegs [])).stack = [] ∧
    (me (mk fun h => { h with stack := [⟨0x40, 3, 5⟩] })).stack = ⟨0x40, 3, 5⟩ :: []) ∧ Here (withRegs []) 0 0 :=
  ⟨by decide +kernel, wit_here []⟩
theorem test_exit : (me (out (exec .exit (withRegs [])))).status = .free ∧
    (fun h => (h.pc, h.path, h.stack, rg h 3)) (me (out (exec .cExit (mk fun h => { regs [(3, 9)] h with stack := [⟨0x40, 3, 5⟩] })))) =
      (0x40, 5, [], 0) := by decide +kernel
theorem wit_spawn : (let s := groupGid (withRegs [(2, 0x01_0001), (3, 0x200)])
    (me s).out.any isStoreOp = false ∧ s.noise = []) ∧
    let s := groupGid (withRegs [(2, 0x01_0001), (3, 0x200)])
    Here s 0 0 ∧ Issues s threadOnly [gId 2, gId 3] [gId 1] ∧
    spawnOk false (getTile s 0).gid (me s) 0x01_0001 0x200 ∧ spawnOk true (getTile s 0).gid (me s) 0x01_0000 0x200 :=
  ⟨by decide +kernel, ⟨rfl, by decide⟩, issues_of (by decide +kernel),
    ⟨by decide, by decide, by decide, by decide +kernel, fun _ => by decide +kernel⟩,
    ⟨by decide, by decide, by decide, by decide +kernel, fun h => absurd h (by decide)⟩⟩
theorem test_spawn : (out (exec (.spawn 1 2 3) (groupGid (withRegs [(2, 0x01_0001), (3, 0x200), (8, 4)])))).msgs.map (fun m => (m.target, m.id)) = [(1, 1)] ∧
    (me (out (exec (.spawn 1 2 3) (groupGid (withRegs [(2, 0x01_0001), (3, 0x200)]))))).status = .parked (.spawn 1) ∧
    (out (exec (.spawnH 1 2 3) (groupGid (withRegs [(2, 0x01_0000), (3, 0x200)])))).msgs.length = 1 := by decide +kernel
/-- A spawn on its way to tile 0. -/
def spawning : State :=
  { out (exec (.spawn 1 2 3) (groupGid (withRegs [(2, 0x01_0000), (3, 0x200), (8, 4)]))) with ev := .msg 1 }
theorem wit_spawn_answer : spawning.msgs.find? (fun m => m.id == 1) = some ⟨1, .tile 0 0, 1, 0,
      .spawn 0x200 #v[4, 0, 0, 0] 0x0101_0000 false 1 0x01_0000 0x1_0004, 0, false, false, []⟩ ∧
    (getHart spawning (.tile 0 1)).status = .free ∧ (1 : Nat) < (getTile spawning 0).slots ∧
    (∀ j : Fin 10, j < 1 → (getHart spawning (.tile 0 j)).status ≠ .free) := by decide +kernel
theorem wit_spawn_inline : let s := onTile 0 (fun x => { x with slots := 1 }) spawning
    (∀ k : Fin 10, k.val < (getTile s 0).slots → (getHart s (.tile 0 k)).status ≠ .free) ∧ (getHart s (.tile 0 0)).stack.length ≠ 15 := by
  decide +kernel
theorem test_spawn_answer : (fun h => (h.status, h.pc, h.path, rg h 8)) (getHart (out (exec .spawnAnswer spawning)) (.tile 0 1)) =
      (.ready, 0x200, 0x0101_0000, 4) ∧ rg (getHart (out (exec .spawnAnswer spawning)) (.tile 0 0)) 1 = 1 ∧
    (getHart (out (exec .spawnAnswer (onTile 0 (fun x => { x with slots := 1 }) spawning))) (.tile 0 0)).stack = [⟨0x1_0004, 1, 0⟩] := by
  decide +kernel

theorem wit_sendm : (let s := pair (withRegs [(1, 7), (2, 1), (3, 9)])
    (me s).out.any isStoreOp = false ∧ s.noise = [] ∧ inCtxParts s (getTile s 0).ctx 1 = true ∧ (rg (me s) 1).toNat / 256 ≠ 2 ^ 56 - 1) ∧
    Here (pair (withRegs [(1, 7), (2, 1), (3, 9)])) 0 0 ∧ Issues (pair (withRegs [(1, 7), (2, 1), (3, 9)])) threadOnly [gId 1, gId 2, gId 3] [] :=
  ⟨by decide +kernel, ⟨rfl, by decide⟩, issues_of (by decide +kernel)⟩
/-- The post of tile 0 on its way to tile 1. -/
def sending : State := { out (exec (.sendm 1 2 3) (pair (withRegs [(1, 7), (2, 1), (3, 9)]))) with ev := .msg 1 }
theorem wit_post_arrival : sending.msgs.find? (fun m => m.id == 1) = some ⟨1, .tile 0 0, 1, 1, .post ⟨7, 9, true, none⟩ 1 0x1_0004, 0, false, false, []⟩ ∧
    tileTarget sending 1 1 0 = .ok 1 0 ∧ (getTile sending 1).mbox.length < 32 ∧
    32 ≤ (getTile (onTile 1 (fun x => { x with mbox := List.replicate 32 ⟨1, 2, false, none⟩ }) sending) 1).mbox.length ∧
    tileTarget (onTile 1 (fun x => { x with mbox := List.replicate 32 ⟨1, 2, false, none⟩ }) sending) 1 1 0 = .ok 1 0 := by decide +kernel
theorem test_post_arrival : (getTile (out (exec .mailboxPostArrival sending)) 1).mbox = [⟨7, 9, true, none⟩] ∧
    (getHart (out (exec .mailboxPostArrival sending)) (.tile 0 0)).pc = 0x1_0004 := by decide +kernel
/-- Two entries, the second of tag 0. -/
def twoPosts : State := onTile 0 (fun x => { x with mbox := [⟨5, 50, false, none⟩, ⟨0, 60, false, none⟩] }) (withRegs [])
theorem wit_receive : ((getTile twoPosts 0).mbox = ⟨5, 50, false, none⟩ :: [⟨0, 60, false, none⟩] ∧ (getTile twoPosts 0).mwait = [] ∧
    (getTile twoPosts 0).mheld = [] ∧ (∀ q ∈ (getTile twoPosts 0).mbox, q.flaw = none) ∧
    takeTag (getTile twoPosts 0).mbox (getTile twoPosts 0).mnext = some (⟨0, 60, false, none⟩, [⟨5, 50, false, none⟩]) ∧
    (getTile (withRegs []) 0).mbox = []) ∧ Here twoPosts 0 0 ∧ Issues twoPosts threadOnly [] [gId 1, gId 2] :=
  ⟨by decide +kernel, ⟨rfl, by decide⟩, issues_of (by decide +kernel)⟩
theorem test_receive : gOf (exec (.recvm 1 2) twoPosts) 1 = 50 ∧ gOf (exec (.recvm 1 2) twoPosts) 2 = 5 ∧
    gOf (exec (.recvmO 1 2) twoPosts) 1 = 60 ∧ (getTile (out (exec (.recvmO 1 2) twoPosts)) 0).mnext = 1 ∧
    gOf (exec (.peekm 1 2) twoPosts) 1 = 2 := by decide +kernel
theorem test_waitm : (me (out (exec .waitm (withRegs [])))).status = .parked .mail ∧ (me (out (exec .cWaitm twoPosts))).pc = 0x1_0002 := by
  decide +kernel

/-- PUTR of 77 to e3 of slot 1 of tile 1, a slot that is occupied. -/
def putting : State :=
  modHart (pair (withRegs [(2, 1 + 2 ^ 16 + 2 ^ 20 + 3 * 2 ^ 24), (3, 77)])) (.tile 1 1) fun h => { h with status := .ready, eF := 0xF7 }
theorem wit_putr : ((me putting).out.length < 4 ∧ (me putting).out.any isStoreOp = false ∧ putting.noise = [] ∧
    putrTarget (rg (me putting) 2).toNat = some (⟨.e, 3⟩, 1, 1) ∧ (getHart putting (.tile 1 1)).status ≠ .free ∧
    (partOf putting 0).isSome = true ∧ partOf putting 1 = partOf putting 0 ∧ (getTile putting 1).fills.length < 8) ∧
    Here putting 0 0 ∧ Issues putting threadOnly [gId 2, gId 3] [] :=
  ⟨by decide +kernel, ⟨rfl, by decide⟩, issues_of (by decide +kernel)⟩
def filling : State := { out (exec (.putr 0 2 3) putting) with ev := .tileItem 1 1 }
theorem wit_putr_fill : (getTile filling 1).fills = [⟨1, 1, ⟨.e, 3⟩, 77, some (.tile 0 0), false⟩] ∧ tileRuns filling 1 = true ∧
    hartRegFull (getHart filling (.tile 1 1)) ⟨.e, 3⟩ = false := by decide +kernel
theorem test_putr : re (getHart (out (exec .putrFill filling)) (.tile 1 1)) 3 = 77 ∧ (getHart (out (exec .putrFill filling)) (.tile 1 1)).eF = 0xFF ∧
    (me (out (exec .putrFill filling))).out = [] := by decide +kernel

/-- Slot 0 with the program counters of the sequencers in e1 and e2. -/
def engines : State := mk fun h => { regs [(8, 5), (12, 6)] h with e := (h.e.set 1 0x300).set 2 0x400, frm := 2 }
theorem wit_sequencers : ((me engines).out.any isStoreOp = false ∧ (re (me engines) 1).toNat % 2 = 0 ∧
    (getHart engines (.tile 0 8)).status = .free ∧
    (getHart (modHart engines (.tile 0 9) fun h => { h with status := .ready }) (.tile 0 9)).status ≠ .free ∧
    (∀ e < 2, (3 : Nat) / 2 ^ e % 2 = 1 → regFull engines engines.cur (eId (if e = 0 then 1 else 2)) = true ∧
      flawAt (me engines).flaws (.reg (eId (if e = 0 then 1 else 2))) = none ∧
      (re (me engines) (if e = 0 then 1 else 2)).toNat % 2 = 0 ∧ (getHart engines (.tile 0 (Fin.ofNat 10 (8 + e)))).status = .free) ∧
    (me engines).fork = [] ∧ (me engines).forkFaults = [] ∧ (me (mk fun h => { h with fork := [1] })).fork ≠ [] ∧
    (me (mk fun h => { h with forkFaults := [⟨0, 0x28, 4⟩] })).forkFaults = [⟨0, 0x28, 4⟩]) ∧
    Here engines 0 0 ∧ Issues engines threadOnly [eId 1] [] :=
  ⟨by decide +kernel, ⟨rfl, by decide⟩, issues_of (by decide +kernel)⟩
theorem test_kick : (fun h => (h.status, h.pc, h.frm, rg h 8, rg h 12, re h 2)) (getHart (out (exec (.kick false 1) engines)) (.tile 0 8)) =
    (.ready, 0x300, 2, 5, 0, 0x400) := by decide +kernel
theorem test_fork_rdv : (me (out (exec (.fork 3 1 2) engines))).fork = [0, 1] ∧
    (getHart (out (exec (.fork 3 1 2) engines)) (.tile 0 9)).pc = 0x400 ∧
    (me (out (exec .rdv (out (exec (.fork 3 1 2) engines))))).status = .parked .rdv ∧
    causeOf (exec .rdv (mk fun h => { h with forkFaults := [⟨0, 0x28, 4⟩] })) = 0x28 := by decide +kernel

/-- The tile advances when the slots of its mask, here slot 0, have arrived. -/
def arrived : State := onTile 0 (fun x => { x with stepmask := 1, winN := 1, pub := ⟨[5], [], []⟩ })
  { withRegs [] with groups := [{ loadGroup with w := 1, h := 1 }], ev := .tile 0 }
def stepping : State := { out (exec .step arrived) with ev := .tile 0 }
theorem wit_step : ((me (withRegs [])).out = [] ∧ stepping.ev = .tile 0 ∧ canAdvance stepping 0 = true ∧ (me (supRegs [(1, 0)])).sup = true ∧
    groupAt (supRegs [(1, 0)]) (getTile (supRegs [(1, 0)]) 0).ctx 0 = some loadGroup ∧ loadGroup.st = .running) ∧
    Here (withRegs []) 0 0 ∧ Here (supRegs [(1, 0)]) 0 0 ∧ Issues (supRegs [(1, 0)]) threadOnly [gId 1] [] :=
  ⟨by decide +kernel, ⟨rfl, by decide⟩, ⟨rfl, by decide⟩, issues_of (by decide +kernel)⟩
theorem test_step : (fun x => (x.step, x.arrived, x.hist.map (·.words))) (getTile (out (exec .stepAdvance stepping)) 0) = (1, 0, [[5]]) ∧
    (getHart (out (exec .stepAdvance stepping)) (.tile 0 0)).pc = 0x1_0004 := by decide +kernel
theorem test_stepidle : (getTile (out (exec (.stepidle 1) (supRegs []))) 0).idle = true ∧ causeOf (exec (.stepidle 1) (withRegs [])) = 0x03 ∧
    causeOf (exec (.stepidle 1) (supRegs [(1, 72)])) = 0x1D := by decide +kernel

theorem wit_barrier : ((me arrived).out = [] ∧ (getTile arrived 0).stepmask.getLsbD 0 = true ∧
    (me arrived).bar.get 0 = (getTile arrived 0).gen.get 0 ∧
    (me (modMe arrived fun h => { h with bar := h.bar.set 0 1 })).bar.get 0 = (getTile arrived 0).gen.get 0 + 1 ∧
    (getTile (onTile 0 (fun x => { x with barArr := x.barArr.set 0 1 }) arrived) 0).barArr.get 0 = 1#7 <<< 0) ∧ Here arrived 0 0 :=
  ⟨by decide +kernel, ⟨rfl, by decide⟩⟩
def atBarrier : State := { out (exec (.tbar 1) arrived) with ev := .kindTile .tbar 0 }
theorem wit_barrier_complete : atBarrier.ev = .kindTile .tbar 0 ∧ barComplete atBarrier .tbar 0 = true ∧ barTiles atBarrier .tbar 0 = [0] := by
  decide +kernel
theorem test_barrier : (fun x => (x.gen.get 0, x.barArr.get 0)) (getTile (out (exec .barrierGenerationComplete atBarrier)) 0) = (1, 0) ∧
    (fun h => (h.pc, h.bar.get 0, rg h 1)) (me (out (exec .barrierGenerationComplete atBarrier))) = (0x1_0004, 1, 0) ∧
    (me (out (exec (.qbar 1) arrived))).status = .parked (.bar .qbar 1 0x1_0004) ∧
    (me (out (exec (.clbar 1) arrived))).status = .parked (.bar .clbar 1 0x1_0004) := by decide +kernel

/-! ## Vectors (R152 to R170, R191 to R196) -/

/-- v1 = (1, 2, -3, NaN, 0 ...), v2 = (2, 2, 1, 1, 0 ...), v4 all ones in every bit; k1 lets lanes 0 and 2 through. -/
def vecs : State := mk fun h => { h with
  v := ((h.v.set 1 (lanes 32 fun i => [0x3F80_0000, 0x4000_0000, 0xC040_0000, 0x7FC0_0000].getD i 0)).set 2
    (lanes 32 fun i => [0x4000_0000, 0x4000_0000, 0x3F80_0000, 0x3F80_0000].getD i 0)).set 4 (BitVec.ofNat 512 (2 ^ 512 - 1)),
  k := h.k.set 1 5 }

theorem wit_vfp : (∀ r ∈ fpRows .f32 .rne 1 2 1 4, Issues vecs allHarts (vSrcs 1 1 r.more 4) [vId 4]) ∧
    (Nat.log2 0x1234567 : Int) + 3 < (fmtOf .f32).bias ∧ (3 : Int) + 1 = max ((Nat.log2 0x1234567 : Int) + 3) (1 - (fmtOf .f32).bias) - (fmtOf .f32).m :=
  ⟨issues_all (by decide +kernel), by decide +kernel⟩
/-- 1 + 2, 2 + 2, -3 + 1, and NaN; a masked-out lane keeps its bits. -/
theorem test_vadd : (List.range 4).map (laneOf32 (exec (.vadd .f32 .rne 0 2 1 4) vecs) 4) = [0x4040_0000, 0x4080_0000, 0xC000_0000, 0x7FC0_0000] ∧
    (List.range 4).map (laneOf32 (exec (.vsub .f32 .rne 1 2 1 4) vecs) 4) = [0xBF80_0000, 0xFFFF_FFFF, 0xC080_0000, 0xFFFF_FFFF] := by
  decide +kernel
theorem test_vmul_vfma : (List.range 3).map (laneOf32 (exec (.vmul .f32 .rne 0 2 1 4) vecs) 4) = [0x4000_0000, 0x4080_0000, 0xC040_0000] ∧
    (List.range 3).map (laneOf32 (exec (.vfma .f32 .rne 0 2 1 1) vecs) 1) = [0x4040_0000, 0x40C0_0000, 0xC0C0_0000] ∧
    laneOf32 (exec (.vfms .f32 .rne 0 2 1 1) vecs) 1 0 = 0x3F80_0000 ∧ laneOf32 (exec (.vfnma .f32 .rne 0 2 1 1) vecs) 1 0 = 0xBF80_0000 := by
  decide +kernel
/-- 1 / 2, 1 / 0 with DZ, 1 / sqrt 4, sqrt 4. -/
theorem test_vrcp : laneOf32 (exec (.vrcp .f32 .rne 0 2 4) vecs) 4 0 = 0x3F00_0000 ∧ laneOf32 (exec (.vrcp .f32 .rne 0 2 4) vecs) 4 5 = 0x7F80_0000 ∧
    laneOf32 (exec (.vsqrt .f32 .rne 0 2 4) vecs) 4 2 = 0x3F80_0000 ∧ laneOf32 (exec (.vrsq .f32 .rne 0 2 4) vecs) 4 2 = 0x3F80_0000 := by
  decide +kernel
theorem test_vadd_bf16 : lane 16 (rv (me (out (exec (.vadd .bf16 .rne 0 2 1 4) vecs))) 4) 1 = 0x4040 := by decide +kernel

theorem wit_velements : ∀ r ∈ vRows .f32 .i16 .w8 3 1 2 1 4, Issues vecs allHarts (vSrcs 1 1 r.more 4) [vId 4] :=
  issues_all (by decide +kernel)
/-- R192: the maximum with a NaN is the other operand. -/
theorem test_vmax_vmin : (List.range 4).map (laneOf32 (exec (.vmax .f32 0 2 1 4) vecs) 4) = [0x4000_0000, 0x4000_0000, 0x3F80_0000, 0x3F80_0000] ∧
    laneOf32 (exec (.vmin .f32 0 2 1 4) vecs) 4 2 = 0xC040_0000 ∧ laneOf32 (exec (.vabs .f32 0 1 4) vecs) 4 2 = 0x4040_0000 ∧
    laneOf32 (exec (.vneg .f32 0 1 4) vecs) 4 0 = 0xBF80_0000 := by decide +kernel
/-- Integers 2^31 - 1, 5, -7 and 1, 3, 2. -/
def ints : State := mk fun h => { h with
  v := (h.v.set 1 (lanes 32 fun i => [0x7FFF_FFFF, 5, 0xFFFF_FFF9].getD i 0)).set 2 (lanes 32 fun i => [1, 3, 2].getD i 0), k := h.k.set 1 5 }
theorem test_vint : [Instr.viadd .i32 0 2 1 4, .visub .i32 0 2 1 4, .vimul .i32 0 2 1 4, .vishl .i32 0 2 1 4, .vishr .i32 0 2 1 4,
      .visra .i32 0 2 1 4, .vimin .i32 0 2 1 4, .vimax .i32 0 2 1 4, .viadds .i32 0 2 1 4, .visubs .n32 0 1 2 4].map
        (fun i => (List.range 3).map (laneOf32 (exec i ints) 4)) =
    [[0x8000_0000, 8, 0xFFFF_FFFB], [0x7FFF_FFFE, 2, 0xFFFF_FFF7], [0x7FFF_FFFF, 15, 0xFFFF_FFF2], [0xFFFF_FFFE, 40, 0xFFFF_FFE4],
      [0x3FFF_FFFF, 0, 0x3FFF_FFFE], [0x3FFF_FFFF, 0, 0xFFFF_FFFE], [1, 3, 0xFFFF_FFF9], [0x7FFF_FFFF, 5, 2],
      [0x7FFF_FFFF, 8, 0xFFFF_FFFB], [0, 0, 0]] := by decide +kernel
theorem test_vlogic : [Instr.viand .i32 0 2 1 4, .vior .i32 0 2 1 4, .vixor .i32 0 2 1 4].map (fun i => laneOf32 (exec i ints) 4 1) = [1, 7, 6] := by
  decide +kernel
/-- R196: an index beyond the vector gives 0. -/
theorem test_vperm : (List.range 3).map (laneOf32 (exec (.vshuf .w32 0 2 1 4) ints) 4) = [5, 0, 0xFFFF_FFF9] ∧
    laneOf32 (exec (.vbcast .w32 0 1 1 4) ints) 4 9 = 5 ∧ (List.range 3).map (laneOf32 (exec (.vslide .w32 0 1 1 4) ints) 4) = [5, 0xFFFF_FFF9, 0] := by
  decide +kernel

theorem wit_vmasks : ∀ r ∈ [([kId 1, vId 1, vId 2], kId 2), ([kId 1, vId 1, vId 2], kId 0), ([kId 1, vId 1, vId 2], vId 4), ([gId 1, vId 4], vId 4),
    ([vId 4], gId 1)], Issues vecs allHarts r.1 [r.2] := issues_all (by decide +kernel)
/-- R192: equal in lanes 1 and 4 to 15; less in lanes 0 and 2; the comparison with a NaN raises NV in VCLT and VCLE. -/
theorem test_vcmp : rk (me (out (exec (.vceq .f32 0 2 1 2) vecs))) 2 = 0xFFF2 ∧ rk (me (out (exec (.vclt .f32 0 2 1 2) vecs))) 2 = 0x5 ∧
    (me (out (exec (.vcle .f32 0 2 1 2) vecs))).fflags = NV ∧ rk (me (out (exec (.viclt .i32 1 2 1 3) ints))) 3 = 4 ∧
    rk (me (out (exec (.viceq .i32 0 2 1 3) ints))) 3 = 0xFFF8 := by decide +kernel
theorem test_vsel_vins : (List.range 3).map (laneOf32 (exec (.vsel .f32 1 2 1 4) ints) 4) = [0x7FFF_FFFF, 3, 0xFFFF_FFF9] ∧
    laneOf32 (exec (.vins 3 15 1) (mk (regs [(3, 77)]))) 1 15 = 77 ∧ gOf (exec (.vext 3 2 1) ints) 3 = 2 ^ 64 - 7 := by decide +kernel

theorem wit_vreductions : Issues vecs allHarts (kId 1 :: (List.range 3).map fun i => vId (Fin.ofNat 16 (1 + i))) [vId 4] ∧
    Issues vecs allHarts (vSrcs 1 1 [] 4) [vId 4] ∧ (13 : VReg).val + (2 : Nib).val ≤ 15 :=
  ⟨issues_of (by decide +kernel), issues_of (by decide +kernel), by decide⟩
theorem test_vreductions : laneOf32 (exec (.vrsumO .f32 1 0 1 4) vecs) 4 0 = 0xC000_0000 ∧ laneOf32 (exec (.vrmax .f32 0 1 1 4) vecs) 4 0 = 0x4000_0000 ∧
    laneOf32 (exec (.vramax .f32 0 0 1 4) vecs) 4 0 = 0x4040_0000 ∧ laneOf32 (exec (.vrmin .f32 0 1 1 4) vecs) 4 0 = 0xC040_0000 ∧
    laneOf32 (exec (.vrmax .f32 0 1 1 4) vecs) 4 1 = 0 := by decide +kernel
/-- R194: the value of an approximation is open; an element that the mask leaves out keeps its bits. -/
theorem test_approximations : [Instr.vexp2 .f32 1 1 4, .vlog2 .f32 1 1 4, .vtanh .f32 1 1 4].map (fun i =>
    laneOf32 (exec i (modMe vecs fun h => { h with k := h.k.set 1 0 })) 4 1) = List.replicate 3 0xFFFF_FFFF := by decide +kernel
/-- Scale-table entry 0 at 0x8000. -/
def scaled : State := onTile 0 (fun x => { x with scp := x.scp.set 0 0x8000 }) vecs
theorem wit_vamaxu : (let s1 := readFilled scaled [kId 1, vId 1]
    (scaleEntry scaled 0).toNat % 64 = 0 ∧ xlateHart s1 s1.cur 0x8000 .readWrite = (scaled, .ok at8000) ∧ physPoison scaled at8000 64 = false ∧
      (scaleEntry (onTile 0 (fun x => { x with scp := x.scp.set 0 8 }) scaled) 0).toNat % 64 ≠ 0) ∧
    Issues scaled allHarts [kId 1, vId 1] [] ∧ ArrivesG scaled (scaleEntry scaled 0) 64 at8000 :=
  ⟨by decide +kernel, issues_of (by decide +kernel), arrives_g (by decide +kernel)⟩
theorem test_vamaxu : memRead (out (exec (.vamaxu .f32 1 0 1) scaled)).mem at8000 4 = 0x4040_0000 := by decide +kernel

theorem wit_conversions : formatOk scaled .e4m3 0 ∧ formatOk (onTile 0 (fun x => { x with fmt := x.fmt.set 1 0x24 }) scaled) .bf16 1 ∧
    (∀ r ∈ [([vId 2], [vId 4]), ([vId 2, vId 4], [vId 4]), (groupIds 2 2, [vId 4]), (groupIds 4 4, groupIds 4 2), ([vId 2], groupIds 4 2),
      (groupIds 2 2, groupIds 4 4), ([vId 2, vId 3], [vId 4])], Issues scaled (notMender true) r.1 r.2) ∧
    ArrivesG scaled 0x8000 1 (at8000 + 4) :=
  ⟨fun h => absurd h (by decide), fun h => absurd h (by decide), issues_all (by decide +kernel), arrives_g (by decide +kernel)⟩
/-- VQUANT with mode 2 and SCLNEXT reach their scale-table entry. -/
theorem wit_scale_entry : (let s1 := readFilled scaled (groupIds 2 2)
    let s3 := { scaled with free := scaled.free + 1 }
    xlateHart s1 s1.cur 0x8000 .read = (scaled, .ok at8000) ∧ physPoison scaled (at8000 + 4) 1 = false ∧
      ((getTile scaled 0).scp.get 0).toNat % 64 = 0 ∧ tileOf? scaled.cur = some 0 ∧
      xlateHart s3 s3.cur 0x8000 .readWrite = (s3, .ok at8000) ∧ physPoison s3 at8000 64 = false) ∧ ArrivesG scaled 0x8000 64 at8000 :=
  ⟨by decide +kernel, arrives_g (by decide +kernel)⟩
/-- 1, 2 and -3 in E4M3 are 0x38, 0x40 and 0xC4; widening gives them back. -/
theorem test_vcvt : (List.range 3).map (lane 8 (rv (me (out (exec (.vcvt .e4m3 .rne 0 false 0 1 4) vecs))) 4)) = [0x38, 0x40, 0xC4] ∧
    (List.range 3).map (laneOf32 (exec (.vcvt .e4m3 .rne 0 true 0 4 5) (out (exec (.vcvt .e4m3 .rne 0 false 0 1 4) vecs))) 5) =
      [0x3F80_0000, 0x4000_0000, 0xC040_0000] := by decide +kernel
/-- R170: nibble 0 of the pack is nibble 0 of va, nibble 64 of vb. -/
theorem test_vpack : lane 4 (rv (me (out (exec (.vpack .e2m1 0 2 1 4) (mk fun h => { h with v := (h.v.set 1 5).set 2 6 })))) 4) 0 = 5 ∧
    lane 4 (rv (me (out (exec (.vpack .e2m1 0 2 1 4) (mk fun h => { h with v := (h.v.set 1 5).set 2 6 })))) 4) 64 = 6 ∧
    lane 8 (rv (me (out (exec (.vunpk .e2m1 0 false 1 4) (mk fun h => { h with v := h.v.set 1 0x75 })))) 4) 1 = 7 := by decide +kernel
/-- R164: 2 and 2 in a block of E4M3: the largest magnitude 2 gives the scale that brings it under 448. -/
theorem test_vquant_vdeq : laneOf32 (exec (.vdeq .e4m3 .rne 0 0 4 6) (out (exec (.vquant .e4m3 .rne 0 0 2 4) vecs))) 6 0 = 0x4000_0000 ∧
    (me (out (exec (.vquantv .e4m3 .rne 0 5 4 8) vecs))).pc = 0x1_0004 ∧ (me (out (exec (.sclnext .e4m3 0) scaled))).pc = 0x1_0004 := by
  decide +kernel

/-! ## The matrix array, the ring, the Q-folds (R198 to R235) -/

/-- A descriptor of `rows` rows of E4M3 at offset `off`, and of BF16. -/
def desc8 (off rows : Nat) : Nat := off + (rows - 1) * 2 ^ 18 + 2 * 2 ^ 27
/-- The identity in the W-store, a row of ones in the A-store, descriptors in e1 (32 rows) and e2 (one row), bank 0 loaded. -/
def array : State :=
  onTile 0 (fun x => { x with
      w := (List.range 32).foldl (fun m i => memWrite m (33 * i) 1 0x38) [],
      a := memWrite [] 0 2 0x4038,
      pe := x.pe.set 0 ⟨true, (List.range 1024).map fun i => if i % 33 = 0 then 0x38 else 0, 0, 0, 0, 0, [], [], [], [], []⟩ })
    (mk fun h => { h with e := (h.e.set 1 (w64 (desc8 0 32))).set 2 (w64 (desc8 0 1)) })
theorem wit_array : (let x := getTile array 0
    let o := readOperand x .a (re (me array) 2)
    descFault x .w (re (me array) 1) = none ∧ (descOf (re (me array) 1).toNat).rows = 32 ∧ descFault x .a (re (me array) 2) = none ∧
      (x.pe.get 0).data.length = 1024 ∧ mmaReason 3 false o (x.pe.get 0) = none ∧ mmaReason 3 true o (x.pe.get 0) = none ∧
      moutReason o o = none ∧ x.poison = []) ∧ ArrayReady array 0 [eId 1] ∧
    ArrayReady array 0 (eId 2 :: accTiles 3 (readOperand (getTile array 0) .a (re (me array) 2)).rows) ∧ ArrayReady array 0 [eId 2, eId 2, cId 15] :=
  ⟨by decide +kernel, arrayReady_of (by decide +kernel), arrayReady_of (by decide +kernel), arrayReady_of (by decide +kernel)⟩
/-- The ring latch holds the row. -/
def latched : State := onTile 0 (fun x => { x with latch := ⟨.full, 1, 0, 0, 0, 0, false, List.replicate 32 0x38, [], [], [], []⟩ }) array
theorem wit_array_latch : (let x := getTile latched 0
    x.latch.data.length = 32 * x.latch.rows ∧ mmaReason 3 false (latchOperand x.latch) (x.pe.get 0) = none) ∧
    ArrayReady latched 0 (⟨.latch, 0⟩ :: accTiles 3 (latchOperand (getTile latched 0).latch).rows) :=
  ⟨by decide +kernel, arrayReady_of (by decide +kernel)⟩
/-- The end of an operation that writes words of the C-store. -/
theorem wit_array_words : let s := afterIssue (exec (.mzero 2 1 false) array)
    ((me s).out[0]?.any fun o => o.await == .time && decide (o.due ≤ s.cycle) && o.win.isEmpty && o.fx == .words [(0x1000, 0x1000, 0)] &&
      o.wbs.map (·.reg) == [cId 1]) = true ∧ inFence (me s).status = false := by decide +kernel
theorem test_mld : ((getTile (out (exec (.mld 0 true 1) array)) 0).pe.get 1).data.take 34 = 0x38 :: List.replicate 32 0 ++ [0x38] ∧
    (me (out (exec (.mld 2 true 1) array))).out.map (fun o => (o.left, o.due)) = [(2, 20)] := by decide +kernel
/-- The row (1, 2, 0 ...) times the identity. -/
theorem test_mma : (List.range 3).map (fun q => memRead (getTile (out (exec (.mma 0 3 false 2) array)) 0).c (0x3000 + 4 * q) 4) =
    [0x3F80_0000, 0x4000_0000, 0] ∧ (getTile (out (exec (.mma 0 3 false 2) array)) 0).cF = 0xFFF7 := by decide +kernel
theorem test_mmat_latch : memRead (getTile (out (exec (.mmatLatch 0 3 false) latched)) 0).c 0x307C 4 = 0x3F80_0000 ∧
    memRead (getTile (out (exec (.mmat 0 3 false 2) array)) 0).c 0x3004 4 = 0x4000_0000 ∧
    memRead (getTile (out (exec (.mmaLatch 0 3 false) latched)) 0).c 0x3000 4 = 0x3F80_0000 := by decide +kernel
theorem test_mout : ((getTile (out (exec (.mout 0 false 2 2) array)) 0).pe.get 0).acc.getD 33 0 = 0x4080_0000 := by decide +kernel
theorem test_mdrain : memRead (getTile (landed (exec (.mdrain 0 2 false)
    (onTile 0 (fun x => { x with pe := x.pe.set 0 { x.pe.get 0 with acc := [5, 7] } }) (mk fun h => h)))) 0).c 0x2004 4 = 7 := by decide +kernel
theorem test_mzero : memRead (getTile (landed (exec (.mzero 0 1 false) (onTile 0 (fun x => { x with c := memWrite [] 0x1000 4 9 }) array))) 0).c
    0x1000 4 = 0 := by decide +kernel

/-- Tiles 0 and 1 on a closed ring, tile 0's latch full. -/
def ringed : State := onTile 0 (fun x => { x with ring := some 1 }) (pair latched)
/-- Later. -/
def later (s : State) : State := { s with cycle := 100000 }
theorem wit_ring : (let s := pair (mk fun h => { h with e := h.e.set 1 1 })
    (re (me s) 1).toNat = 1 ∧ (getTile s 1).grp = (getTile s 0).grp) ∧
    ArrayReady (pair (mk fun h => { h with e := h.e.set 1 1 })) 0 [eId 1] :=
  ⟨by decide +kernel, arrayReady_of (by decide +kernel)⟩
theorem wit_latch : (let x := getTile array 0
    descFault x .a (re (me array) 2) = none ∧ latchReason (descOf (re (me array) 2).toNat) x.latch = none) ∧ ArrayReady array 0 [eId 2] :=
  ⟨by decide +kernel, arrayReady_of (by decide +kernel)⟩
theorem wit_brot : ringed.cur = .tile 0 0 ∧ (me ringed).out.length < 4 ∧ (getTile ringed 0).ring = some 1 ∧ (getTile ringed 0).latch.st = .full ∧
    flawAt (me ringed).flaws (.reg ⟨.latch, 0⟩) = none ∧ (getTile array 0).ring = none := by decide +kernel
def moving : State := { later (out (exec (.brot 0) ringed)) with ev := .tile 0 }
theorem wit_ring_move : ringCycle moving 0 moving.tiles.length 0 = none ∧ ringAlone moving 0 = true ∧ ringAsks moving 0 = some (1, 1, 0, 0) ∧
    (getHart moving (.tile 0 0)).status = .parked (.ring 0x1_0004 0) ∧ moving.noise = [] ∧
    (let s := { later (out (exec (.brot 2) { ringed with cur := .tile 0 8 })) with ev := .tile 0 }
     ringAlone s 0 = true ∧ (getHart s (.tile 0 8)).out.map (·.await) = [.move]) := by decide +kernel
/-- The end of the copy. -/
def ringCopying : State := { later (out (exec .ringMove moving)) with ev := .op (.tile 0 0) 0, cycle := 200000 }
theorem wit_ring_end : ((getHart ringCopying (.tile 0 0)).out.map (fun o => (o.win, o.wbs, o.fx)) =
      [([], [], .ring 1 { (getTile moving 0).latch with st := .full } true)]) ∧
    OpDue ringCopying (.tile 0 0) 0 ((getHart ringCopying (.tile 0 0)).out.headD (longOp [])) := ⟨by decide +kernel, opDue_of (by decide +kernel)⟩
/-- After RING_MOVE the copies of slots 0 of tiles 0 and 1 end. -/
def ringEnds (s : State) (l : List Nat) : State :=
  l.foldl (fun s t => out (exec .longOpComplete { s with ev := .op (.tile t 0) 0, cycle := 200000 })) (out (exec .ringMove s))
/-- Both tiles ask each other. -/
def cycled : State :=
  let s := onTile 1 (fun x => { x with ring := some 0, latch := { (getTile latched 0).latch with rows := 2 }, ringReq := [(0, 0, 0)] }) moving
  modHart (onTile 0 (fun x => { x with ringReq := [(0, 1, 0)] }) s) (.tile 1 0) fun h => { h with status := .parked (.ring 4 0) }
theorem wit_ring_cycle : ringCycle cycled 0 cycled.tiles.length 0 = some [0, 1] := by decide +kernel
theorem test_ring : (getTile (ringEnds moving [0]) 1).latch.st = .full ∧ (getTile (ringEnds moving [0]) 0).latch.st = .empty ∧
    (getTile (ringEnds cycled [0, 1]) 0).latch.rows = 2 ∧ (getTile (ringEnds cycled [0, 1]) 1).latch.rows = 1 ∧
    (getTile (out (exec (.latch 0 2) array)) 0).latch.st = .filling ∧
    (getTile (out (exec (.ringdef 0 1) (pair (mk fun h => { h with e := h.e.set 1 1 })))) 0).ring = some 1 := by decide +kernel

/-- Fold 0 with no reflector, column 0 selected by e3; fold 1 with a stage. -/
def folds : State := onTile 0 (fun x => { x with
    q := x.q.set 1 { QFold.reset with stageOk := true, stageV := 0x3F80_0000 :: List.replicate 31 0, stageTau := 0x4000_0000 },
    c := memWrite [] 0 4 0x4000_0000 }) (mk fun h => h)
theorem wit_folds : (let x := getTile folds 0
    selFault (x.q.get 0) (re (me folds) 3) = none ∧ (x.q.get 0).k ≤ 32 ∧ x.poison = [] ∧ (x.q.get 1).stageOk = true ∧ (x.q.get 1).stageV.length = 32 ∧
      headerBad (matElem (accTile x 15) 31 0) = false ∧ (14 : CTile).val < 15) ∧
    ArrayReady folds 0 [eId 3, qId 0, cId 0] ∧ ArrayReady folds 0 [qId 1] ∧ ArrayReady folds 0 [qId 0, cId 14, ⟨.c, 15⟩] :=
  ⟨by decide +kernel, arrayReady_of (by decide +kernel), arrayReady_of (by decide +kernel), arrayReady_of (by decide +kernel)⟩
theorem test_qfold : ((getTile (out (exec (.qapp 0 1) folds)) 0).q.get 1).k = 1 ∧ ((getTile (out (exec (.qinit 0 1) folds)) 0).q.get 1).stageOk = false ∧
    ((getTile (out (exec (.qhh 0 0 0 3) folds)) 0).q.get 0).stageOk = true ∧
    (me (out (exec (.qapl 0 0 0) folds))).out.map (·.due) = [40] := by decide +kernel
theorem test_qload : ((getTile (out (exec (.qload 0 14 0) folds)) 0).q.get 0).k = 0 ∧
    (getTile (out (exec (.qsave 0 14 0) folds)) 0).cF = 0x3FFF := by decide +kernel

/-! ## Moves, windows, copies (R73, R137 to R141, R183 to R190) -/

theorem wit_register_moves : (let s := withMem [(0x1_0010, 8, 99)] (withRegs [])
    (∀ t, tileOf? s.cur = some t → alGet (getTile s t).icache ((Config.hdmBase + 0x1_0010) / 64) = none) ∧ Memory.wf s.mem = true ∧ Sound s) ∧
    (∀ r ∈ [([gId 1], [eId 2]), ([eId 2], [gId 1]), ([], [gId 1])], Issues (withMem [(0x1_0010, 8, 99)] (withRegs [])) threadOrMender r.1 r.2) ∧
    AtHand (withMem [(0x1_0010, 8, 99)] (withRegs [])) (literalAt (me (withRegs [])).pc 2).toNat .read (Config.hdmBase + 0x1_0010) := by
  refine ⟨⟨?_, by decide +kernel, rfl, rfl⟩, issues_all (by decide +kernel), atHand_of (by decide +kernel)⟩
  intro t h
  cases h
  decide +kernel
theorem test_setx_getx : re (me (out (exec (.setx 3 1) (withRegs [(1, 7)])))) 3 = 7 ∧
    gOf (exec (.getx 2 3) (mk fun h => { h with e := h.e.set 3 9 })) 2 = 9 := by decide +kernel

/-- A window of four words in tiles 0 and 1, both at step 3; tile 1 published 7, 8, 9, 10 at step 2, and -1 at word 3 of step 1. -/
def windowed : State :=
  let f (x : Tile) : Tile := { x with winN := 4, step := 3, wr := false, hist := [⟨[1, 2, 3, 4], [], []⟩, ⟨[7, 8, 9, 10], [], []⟩, ⟨[0, 0, 0, -1], [], []⟩] }
  onTile 1 f (onTile 0 f (pair (withRegs [(1, 1 + 1 * 2 ^ 16), (2, 3), (4, 44)])))
theorem wit_windows : Here windowed 0 0 ∧ Issues windowed threadOnly [gId 1] [gId 3] ∧ Issues windowed threadOnly [gId 2, gId 4] [] ∧
    (let w := seen (getTile windowed 0) (getTile windowed 1) 1
     (0 : Int) ≤ windowIndex 0x1_0001 2 ∧ windowIndex 0x1_0001 2 < (getTile windowed 0).winN ∧ (me windowed).out.length < 4 ∧
      cut 0x1_0001 9 7 = 0 ∧ ldhDist 0x1_0001 ≤ 15 ∧ 2 * ldhDist 0x1_0001 + cut 0x1_0001 32 5 ≤ 31 ∧
      ((1 % 72 : Nat) : Int) = (0 % 72 : Nat) + ldhDx 0x1_0001 ∧ ((1 / 72 : Nat) : Int) = (0 / 72 : Nat) + ldhDy 0x1_0001 ∧
      (getTile windowed 1).grp = (getTile windowed 0).grp ∧ windowed.noise = [] ∧ (windowIndex 0x1_0001 2).toNat ∉ w.bad ∧ w.flaws = []) :=
  ⟨⟨rfl, by decide⟩, issues_of (by decide +kernel), issues_of (by decide +kernel), by decide +kernel⟩
/-- Distance 1, lag 1: the row of one step ago, sign-extended, 14 cycles; one more lag; before the window's first step, the image. -/
theorem test_ldh : onWay (exec (.ldh 0 2 false 1 3) windowed) = 10 ∧ (me (out (exec (.ldh 0 2 false 1 3) windowed))).out.map (·.due) = [14] ∧
    onWay (exec (.ldh 0 2 false 1 3) (modMe windowed (regs [(1, 1 + 2 ^ 16 + 2 ^ 32)]))) = 2 ^ 64 - 1 ∧
    onWay (exec (.ldh 0 2 true 1 3) (modMe windowed (regs [(1, 1 + 2 ^ 16 + 2 ^ 32)]))) = 2 ^ 32 - 1 := by decide +kernel
theorem test_ldh_before : let s := onTile 0 (fun x => { x with step := 0, winImg := ⟨[5, 6, 7, 8], [], []⟩ }) windowed
    let s := onTile 1 (fun x => { x with winImg := ⟨[5, 6, 7, 8], [], []⟩ }) s
    onWay (exec (.ldh 0 2 false 1 3) s) = 8 ∧ (me (out (exec (.ldh 0 2 false 1 3) s))).out.map (·.pre) = [true] := by decide +kernel
/-- A slot publishes when its PUB completes. -/
def publishing : State :=
  { out (exec (.pub 1 0 2 4) (onTile 0 (fun x => { x with pub := ⟨[1, 2, 3, 4], [3], []⟩ }) windowed)) with ev := .op (.tile 0 0) 0, cycle := 6 }
theorem wit_late_pub : OpDue publishing (.tile 0 0) 0 ((me publishing).out.headD (longOp [])) ∧
    ((me publishing).out.map (fun o => (o.wbs, o.win, o.qcnt, o.fx)) = [([], [(3, 44)], [], .none)]) ∧
    (∀ j : Fin 10, ((getHart publishing (.tile 0 j)).out.filter (!·.win.isEmpty)).all (fun q => decide (6 < q.due ∨ (6 = q.due ∧ 0 ≤ j.val)))) :=
  ⟨opDue_of (by decide +kernel), by decide +kernel⟩
theorem test_late_pub : (getTile publishing 0).pub = ⟨[1, 2, 3, 4], [3], []⟩ ∧
    (getTile (out (exec .longOpComplete publishing)) 0).pub = ⟨[1, 2, 3, 44], [], []⟩ := by decide +kernel

theorem test_pub : (me (out (exec (.pub 1 0 2 4) windowed))).out.map (·.due) = [6] ∧
    (getTile (out (exec .longOpComplete (onTile 0 (fun x => { x with idle := true }) publishing))) 0).pub = ⟨[1, 2, 3, 4], [3], []⟩ := by
  decide +kernel

/-- Two rows of 8 bytes, source stride 16, destination stride 32; e1 source, e2 destination, e3 the shape, tag in g5. -/
def shape8 : Nat := 8 + 2 * 2 ^ 16 + 4 * 2 ^ 32 + 8 * 2 ^ 48
def copying (src dst shape : Nat) : State :=
  pair (mk fun h => { regs [(5, 0x77)] h with e := ((h.e.set 1 (w64 src)).set 2 (w64 dst)).set 3 (w64 shape) })
/-- Tile 1 as the target of a local endpoint, offset 0x40 of A; a register of its slot 2, ready. -/
def endA : Nat := 0x40 + 2 * 2 ^ 18 + 2 ^ 20
def endReg : Nat := 2 ^ 63 + (1 + 2 * 2 ^ 16 + 6 * 2 ^ 24)
theorem wit_copy (dst : Nat) : Here (copying 0x100 dst shape8) 0 0 := ⟨rfl, by decide⟩
theorem wit_copy_lm : (let s := copying 0x100 endA shape8
    (me s).out.length < 4 ∧ shapeLen shape8 ≠ 0 ∧ shapeLen shape8 % 4 = 0 ∧ shapeRows shape8 ≠ 0 ∧ (re (me s) 3).toNat = shape8 ∧
      LocalFits s false 0x100 (shapeSrc shape8) (shapeRows shape8) (shapeLen shape8) ∧
      LocalFits s true endA (shapeDst shape8) (shapeRows shape8) (shapeLen shape8)) ∧
    Issues (copying 0x100 endA shape8) threadOnly [eId 1, eId 2, eId 3, gId (low 5)] [] := by
  refine ⟨?_, issues_of (by decide +kernel)⟩
  unfold LocalFits
  decide +kernel
/-- The last byte of a store is in range, the first bytes lie below it with a falling stride. -/
theorem wit_copy_edges : let s := copying 0x1_FFF8 0x10 (8 + 2 * 2 ^ 16 + (2 ^ 16 - 4) * 2 ^ 32)
    LocalFits s false 0x1_FFF8 (-16) 2 8 ∧ GlobalFits s 0x10 := by
  refine ⟨?_, globalFits_of (by decide +kernel)⟩
  unfold LocalFits
  decide +kernel
theorem wit_copy_register : let s := modHart (copying 0x100 endReg (8 + 2 ^ 16)) (.tile 1 2) fun h => { h with status := .ready }
    RegisterFits s 0 endReg 1 8 := by
  refine ⟨by decide, by decide, rfl, rfl, ⟨.g, 6⟩, 1, 2, ?_⟩
  decide +kernel
theorem test_cpy : let s := copying 0x100 endA shape8
    (getTile (out (exec (.cpyLm 2 5 3 2 1) s)) 0).copies = [requestedCopy s (me s) .lm 0x100 (w64 endA) shape8 0x77] ∧
    (me (out (exec (.cpyLm 2 5 3 2 1) s))).out.map (·.left) = [2] ∧
    (getTile (out (exec (.cpyGg 2 5 3 2 1) (copying 0x100 0x200 shape8))) 0).copies.map (fun c => (c.dir, c.len, c.rows, c.sst, c.dstS)) =
      [(.gg, 8, 2, 16, 32)] := by decide +kernel
theorem test_cpy_traps : causeOf (exec (.cpyGl 0 5 3 2 1) (copying 0x100 0x40 6)) = 0x42 ∧
    causeOf (exec (.cpyLg 0 5 3 2 1) (copying 0x1_FFFC 0x40 shape8)) = 0x11 := by decide +kernel

/-- The request of a copy, accepted, in a tile whose porter runs. -/
def requested (dir : CopyDir) (src dst shape : Nat) : State :=
  { copying src dst shape with
      tiles := alSet (copying src dst shape).tiles 0 { getTile (copying src dst shape) 0 with
        copies := [{ requestedCopy (copying src dst shape) (me (copying src dst shape)) dir (w64 src) (w64 dst) shape 0x77 with id := 5 }] }
      ev := .tileItem 0 5 }
def acceptedAs (st : CopySt) (s : State) : State := onTile 0 (fun x => { x with copies := x.copies.map fun c => { c with st := st } }) s
theorem wit_cpyq : Here (acceptedAs .moving (requested .lm 0x100 endA shape8)) 0 0 ∧
    Issues (acceptedAs .moving (requested .lm 0x100 endA shape8)) threadOnly [gId (low 5)] [] :=
  ⟨⟨rfl, by decide⟩, issues_of (by decide +kernel)⟩
theorem test_cpyq_cpyx : (me (out (exec .cpyq (acceptedAs .pending (requested .lm 0x100 endA shape8))))).cpyq = 0x1_0001 ∧
    (getTile (out (exec (.cpyx 5) (acceptedAs .moving (requested .lm 0x100 endA shape8)))) 0).copies.map (fun c => (c.st, c.cancel)) =
      [(.posting, true)] ∧
    (getTile (out (exec (.cpyx 5) (requested .lm 0x100 endA shape8))) 0).copies.map (fun c => (c.st, c.cancel)) = [(.requested, false)] := by
  decide +kernel
theorem wit_copy_accept : let s := requested .lm 0x100 endA shape8
    findCopy s 0 5 = some { requestedCopy (copying 0x100 endA shape8) (me s) .lm 0x100 (w64 endA) shape8 0x77 with id := 5 } ∧
    copyAcceptable s 0 5 = true := by decide +kernel
theorem wit_copy_post : let s := acceptedAs .posting (requested .lm 0x100 endA shape8)
    (findCopy s 0 5).map (·.st) = some .posting ∧ tileRuns s 0 = true ∧ (∀ u ∈ s.tiles, ∀ f ∈ u.2.fills, f.id ≠ 5) ∧
    (getTile s 0).mbox.length < 32 := by decide +kernel
theorem wit_copy_resume : let s := acceptedAs .pending (requested .lm 0x100 endA shape8)
    copyResumable s 0 5 = true := by decide +kernel
theorem test_copy_ends : (getTile (out (exec .copyAccept (requested .lm 0x100 endA shape8))) 0).copies.map (·.st) = [.moving] ∧
    (getTile (out (exec .copyPost (acceptedAs .posting (requested .lm 0x100 endA shape8)))) 0).mbox.map (fun p => (p.tag, p.payload)) = [(0x77, 0)] := by
  decide +kernel

/-- The bytes 1 to 8 at 0x100 of L and of device memory. -/
def holding (s : State) : State :=
  onTile 0 (fun x => { x with l := memWrite [] 0x100 8 0x0807_0605_0403_0201 }) (withMem [(0x100, 8, 0x0807_0605_0403_0201)] s)
theorem wit_copy_burst (dir : CopyDir) (h : dir ∈ [CopyDir.lm, .gl, .lg, .gg]) :
    let s := holding (acceptedAs .moving (requested dir 0x100 0x2_0000 shape8))
    let c := (getTile s 0).copies.headD (requestedCopy s (me s) dir 0 0 0 0)
    ((movable (getTile s 0)).find? (·.id == 5) = some c ∧ findCopy s 0 5 = some c ∧
      (tileRuns s 0 && tileTarget s (getTile s 0).ctx 0 0 == .ok 0 0 && c.len == 8 && rowAt c.src.toNat c.sst c.done == 0x100 &&
        rowAt c.dst.toNat c.dstS c.done == 0x2_0000) = true ∧ (getTile s 0).poison = [] ∧ (getTile s 0).flaws = [] ∧
      Memory.wf (storeMem (getTile s 0) (endStore 0x100)) = true ∧ s.noise = [] ∧ Sound s ∧ Memory.wf s.mem = true) ∧
    CopyHand s 0 c 0x100 .read (Config.hdmBase + 0x100) ∧ CopyHand s 0 c 0x2_0000 .write (Config.hdmBase + 0x2_0000) := by
  simp only [List.mem_cons, List.not_mem_nil, or_false] at h
  rcases h with rfl | rfl | rfl | rfl <;>
    exact ⟨⟨by decide +kernel, by decide +kernel, by decide +kernel, rfl, rfl, by decide +kernel, rfl, ⟨rfl, rfl⟩, by decide +kernel⟩,
      copyHand_of (by decide +kernel), copyHand_of (by decide +kernel)⟩
/-- Tile 4 runs no group: it refuses the row. -/
def refusing : State := holding (acceptedAs .moving (requested .lm 0x100 (4 * 2 ^ 20) shape8))
theorem wit_copy_refused : (movable (getTile refusing 0)).find? (·.id == 5) = findCopy refusing 0 5 ∧
    (findCopy refusing 0 5).any (fun c => decide (c.dst.toNat < 2 ^ 63) && rowAt c.src.toNat c.sst c.done == 0x100) = true ∧
    tileRuns refusing 0 = true ∧ tileTarget refusing (getTile refusing 0).ctx 4 0 = .bad ∧ (getTile refusing 0).poison = [] ∧
    Memory.wf (storeMem (getTile refusing 0) (endStore 0x100)) = true := by decide +kernel
theorem test_copy_refused : (getTile (out (exec .copyBurst refusing)) 0).copies.map (fun c => (c.st, c.fault, c.done)) = [(.posting, true, 0)] ∧
    (out (exec .copyBurst refusing)).reports.length = 1 := by decide +kernel
theorem test_copy_burst : let s dir dst := out (exec .copyBurst (holding (acceptedAs .moving (requested dir 0x100 dst shape8))))
    memRead (getTile (s .lm endA) 1).a 0x40 8 = 0x0807_0605_0403_0201 ∧ memRead (s .lg 0x2_0000).mem (Config.hdmBase + 0x2_0000) 8 = 0x0807_0605_0403_0201 ∧
    memRead (getTile (s .gl 0x204) 0).l 0x204 8 = 0x0807_0605_0403_0201 ∧ (getTile (s .gg 0x2_0000) 0).copies.map (·.done) = [1] := by
  decide +kernel

/-! ## Gradient queues and fused updates (R303 to R312) -/

/-- A descriptor at 0x8000 of type `ty`: capacity 4, ring at 0x200, credits, occupancy, pushes and pops; of tile 0, or of slot 2 of
mender 3. -/
def queueDesc (tile : Bool) (ty cred occ pushes pops : Nat) : Nat :=
  ty + (if tile then 8 else 0) + 16 + 2 * 2 ^ 5 + 3 * 2 ^ 8 + 4 * 2 ^ 16 + 0x300 * 2 ^ 64 + cred * 2 ^ 192 + occ * 2 ^ 200 + 0x200 * 2 ^ 224 +
    pushes * 2 ^ 256 + pops * (2 ^ 160 * 2 ^ 160)
/-- An entry: 1, 2 and -3 in FP32, key 0x77 with scale 2. -/
def entryPay : Nat := 0x3F80_0000 + 0x4000_0000 * 2 ^ 32 + 0xC040_0000 * 2 ^ 64
def entryKey : Nat := 0x77 + 128 * 2 ^ 48
/-- Tile 0 with one entry at ring place `k`; the queue's handle in g1, a key in g2, a payload in v3. -/
def queued (ty occ k : Nat) : State :=
  withMem [(0x8000, 64, queueDesc true ty 2 occ (k + occ) k)] (onTile 0 (fun x =>
    { x with l := memWrite (memWrite [] (0x200 + 72 * (k % 4)) 64 entryPay) (0x240 + 72 * (k % 4)) 8 entryKey })
    (mk fun h => { regs [(1, 0x8000 + ty), (2, 1)] h with v := h.v.set 3 (BitVec.ofNat 512 entryPay) }))
/-- The same for slot 2 of mender 3. -/
def queuedM (ty occ k : Nat) : State :=
  let s := mender fun h => { regs [(1, 0x8000 + ty), (2, 1)] h with v := h.v.set 3 (BitVec.ofNat 512 entryPay) }
  withMem [(0x8000, 64, queueDesc false ty 2 occ (k + occ) k)]
    { s with menders := s.menders.map fun m => (m.1, { m.2 with
        buf := memWrite (memWrite [] (0x200 + 72 * (k % 4)) 64 entryPay) (0x240 + 72 * (k % 4)) 8 entryKey }) }
theorem wit_queue_tile : QueueAt (queued 0 1 5) 0x8000 at8000 (queueDesc true 0 2 1 6 5) := by
  constructor
  case hand => exact atHand_of (by decide +kernel)
  case sound => exact ⟨rfl, rfl⟩
  case apart => exact alone_of (by decide +kernel) _ _ _ _
  all_goals decide +kernel
theorem wit_queue_mender : QueueAt (queuedM 3 1 5) 0x8003 at8000 (queueDesc false 3 2 1 6 5) := by
  constructor
  case hand => exact atHand_of (by decide +kernel)
  case sound => exact ⟨rfl, rfl⟩
  case apart => exact alone_of (by decide +kernel) _ _ _ _
  all_goals decide +kernel
theorem wit_queue_use : (let s := queued 0 1 5
    let l := queueDesc true 0 2 1 6 5
    rg (me s) 1 = 0x8000 ∧ (rg (me s) 2).toNat < 2 ^ 8 ∧ (me s).out.any isStoreOp = false ∧ cut l 192 8 ≠ 0 ∧ cut l 200 8 ≠ 0 ∧
      cut (queueDesc true 0 0 0 6 6) 192 8 = 0 ∧ cut (queueDesc true 0 0 0 6 6) 200 8 = 0 ∧ Memory.wf (getTile s 0).l = true ∧
      cut l 200 8 + cut l 192 8 + (rg (me s) 2).toNat ≤ cut l 16 6) ∧ Receives (queued 0 1 5) (queueDesc true 0 2 1 6 5) ∧
    ∀ r ∈ [([gId 1, gId 2, vId 3], []), ([gId 1, gId 2], []), ([gId 1], [gId 5]),
      ([gId 1], gId 2 :: (List.range (popGroup 0)).map fun i => vId (Fin.ofNat 16 (4 + i)))], Issues (queued 0 1 5) threadOrMender r.1 r.2 :=
  ⟨by decide +kernel, ⟨by decide, by decide, by decide⟩, issues_all (by decide +kernel)⟩
theorem wit_queue_use_mender : let s := queuedM 3 1 5
    ((4 : VReg).val % popGroup 3 = 0 ∧ Memory.wf (getMender s 3).buf = true) ∧ Receives s (queueDesc false 3 2 1 6 5) ∧
    Issues s threadOrMender [gId 1] (gId 2 :: (List.range (popGroup 3)).map fun i => vId (Fin.ofNat 16 (4 + i))) :=
  ⟨by decide +kernel, ⟨by decide, by decide, by decide⟩, issues_of (by decide +kernel)⟩
/-- R305: the push of entry 6 goes to place 2; R308: the pop of entry 5 comes from place 1, scaled by 2. -/
theorem test_gqpush : memRead (getTile (out (exec (.gqpush 2 1 3) (queued 0 1 5))) 0).l (0x200 + 144) 8 = 0x4000_0000_3F80_0000 ∧
    memRead (out (exec (.gqpush 2 1 3) (queued 0 1 5))).mem at8000 64 = queueDesc true 0 1 2 7 5 := by decide +kernel
theorem test_gqpop : (List.range 3).map (laneOf32 (exec (.gqpop 2 1 4) (queued 0 1 5)) 4) = [0x4000_0000, 0x4080_0000, 0xC0C0_0000] ∧
    gOf (exec (.gqpop 2 1 4) (queued 0 1 5)) 2 = entryKey ∧
    memRead (out (exec (.gqpop 2 1 4) (queued 0 1 5))).mem at8000 64 = queueDesc true 0 2 0 6 6 := by decide +kernel
theorem test_gqwin_gqlen : memRead (out (exec (.gqwin 2 1) (queued 0 1 5))).mem at8000 64 = queueDesc true 0 3 1 6 5 ∧
    gOf (exec (.gqlen 5 1) (queued 0 1 5)) 5 = 0x201 := by decide +kernel
/-- R305: an E4M3 entry with scale byte 128: 0x38 is 1, doubled. -/
theorem test_gqpop_e4m3 : laneOf32 (exec (.gqpop 2 1 4) (queuedM 3 1 5)) 4 0 = 0 ∧
    laneOf32 (exec (.gqpop 2 1 4) (queuedM 3 1 5)) 4 7 = 0x4080_0000 := by decide +kernel

/-- Mender 3's slot 2 with a descriptor of context 1 at 0x8000 that waits. -/
def serviceable : State :=
  let s := queuedM 0 1 5
  let f (m : Mender) : Mender := { m with pend := [at8000], use := m.use.set 2 none, harts := m.harts.set 2 Hart.reset }
  let g (c : Ctx) : Ctx := { c with desc := 0x40 }
  { s with
    menders := s.menders.map fun m => (m.1, f m.2)
    ctxs := s.ctxs.map fun c => (c.1, g c.2)
    mem := memWrite s.mem (at8000 + 16) 8 0x40
    ev := .hart (.mender 3 2) }
theorem wit_mender_slot_start : slotPending serviceable 3 2 = some at8000 ∧ ((getMender serviceable 3).harts.get 2).status = .free ∧
    ctxOfDesc serviceable (gqCtx (memRead serviceable.mem at8000 64)) = some 1 ∧ vaOf serviceable 1 at8000 = some 0x8000 := by decide +kernel
/-- Slot 2 of mender 3 serves its queue at 0x8000, with `occ` entries. -/
def serving (occ : Nat) : State :=
  let s := queuedM 0 occ 5
  { s with menders := s.menders.map fun m => (m.1, { m.2 with use := m.2.use.set 2 (some ⟨at8000, 1⟩) }) }
def disabled (st : Status) : State :=
  let s := queuedM 0 1 5
  let h : Hart := { Hart.reset with status := st }
  let f (m : Mender) : Mender := { m with use := m.use.set 2 (some ⟨at8000, 1⟩), harts := m.harts.set 2 h }
  { s with
    menders := s.menders.map fun m => (m.1, f m.2)
    mem := memWrite s.mem at8000 1 0x40
    ev := .hart (.mender 3 2) }
theorem wit_gq_en_clear : (let s := disabled .trapped
    (getMender s 3).use.get 2 = some ⟨at8000, 1⟩ ∧ cut (memRead s.mem at8000 64) 4 1 = 0 ∧ ((getMender s 3).harts.get 2).status = .trapped) ∧
    (let s := { out (exec (.gqpop 2 1 4) (queued 0 0 5)) with cur := .tile 0 0 }
     cut (memRead s.mem at8000 1) 4 1 = 1 ∧ (at8000, .hart (.tile 0 0)) ∈ s.gqWait ∧ cut (queueDesc true 0 2 0 5 5 - 16) 4 1 = 0) ∧
    let s := out (exec (.gqpop 2 1 4) (serving 0))
    (at8000, .hart (.mender 3 2)) ∈ s.gqWait ∧ (getMender s 3).use.get 2 = some ⟨at8000, 1⟩ ∧
      (getHart s (.mender 3 2)).status = .parked (.gradQueue at8000 false) := by decide +kernel
theorem test_mender_slot : let h := (getMender (out (exec .menderSlotStart serviceable)) 3).harts.get 2
    h.status = .ready ∧ h.pc = 0x300 ∧ rg h 8 = 0x8000 ∧
    ((getMender (out (exec .gqEnClear (disabled .trapped))) 3).harts.get 2).status = .free := by decide +kernel

/-- A block at 0x8000 for one element with gradients at 0x9000: lr 1, wd 0, b1 0, c1 1, b2 0, c2 1, eps 0, gs 1, bc1 1, bc2 1; word
3 at 0xA000, moments 0 at 0xB000. -/
def optBlock (n : Nat) : Nat :=
  n + 0x9000 * 2 ^ 64 + 0x3F80_0000 * (2 ^ 128 + 2 ^ 224 + 2 ^ 288 + 2 ^ 352 + 2 ^ 384 + 2 ^ 416)
def updating (n : Nat) : State :=
  withMem [(0x8000, 64, optBlock n), (0x9000, 4, 0x4000_0000), (0xA000, 4, 0x4040_0000)]
    (mender fun h => { h with e := ((h.e.set 1 0xA000).set 2 0xB000).set 3 0x8000 })
theorem wit_opt : OptReady ⟨.optAdamw 0 3 2 1, [eId 1, eId 2, eId 3], fun i => [0xA000 + 4 * i, 0xB000 + 8 * i, 0xB000 + 8 * i + 4],
    0xA000 % 4 = 0 ∧ 0xB000 % 8 = 0, true, adamw⟩ (updating 1) 3 at8000 (optBlock 1) 1 := by
  constructor
  case block => exact ⟨atHand_of (by decide +kernel), alone_of (by decide +kernel) _ _ _ _⟩
  case words =>
    intro i hi a ha
    obtain rfl : i = 0 := by omega
    refine ⟨Config.hdmBase + a, ?_⟩
    simp only [List.mem_cons, List.not_mem_nil, or_false] at ha
    rcases ha with rfl | rfl | rfl <;> exact ⟨atHand_of (by decide +kernel), noTable_of (by decide +kernel), alone_of (by decide +kernel) _ _ _ _⟩
  case grads =>
    intro _ i hi
    obtain rfl : i = 0 := by omega
    exact ⟨Config.hdmBase + 0x9000, atHand_of (by decide +kernel), alone_of (by decide +kernel) _ _ _ _⟩
  case sound => exact ⟨rfl, rfl⟩
  all_goals decide +kernel
theorem wit_opt_sets : kindOf (withRegs []).cur = .thread ∧ kindOf (sequencer id).cur = .matSeq ∧
    AtHand (updating 1) (cut (optBlock 1) 64 64) .read (Config.hdmBase + 0x9000) :=
  ⟨by decide, by decide +kernel, atHand_of (by decide +kernel)⟩
/-- R311: m = 2, v = 4, u = 2 / sqrt 4 = 1, w = 3 - 1 = 2; SGDM: m = 2, w = 3 - 2 = 1. -/
theorem test_opt_adamw : let m := (out (exec (.optAdamw 0 3 2 1) (updating 1))).mem
    [0xA000, 0xB000, 0xB004].map (fun a => memRead m (Config.hdmBase + a) 4) = [0x4000_0000, 0x4000_0000, 0x4080_0000] ∧
    memRead m (at8000 + 56) 8 = 0 := by decide +kernel
theorem test_opt_sgdm : [0xA000, 0xB000].map (fun a => memRead (out (exec (.optSgdm 0 3 2 1) (updating 1))).mem (Config.hdmBase + a) 4) =
    [0x3F80_0000, 0x4000_0000] ∧ 
    (me (out (exec (.optSgdm 0 3 2 1) (withRegs [])))).status = .trapped := by decide +kernel
/-- R311: the norm b1 = 4 exceeds the limit c1 = 2: the word 3 is halved. -/
theorem test_opt_clip : memRead (out (exec (.optClip 0 3 1) (withMem [(0x8018, 8, 0x4000_0000_4080_0000)] (updating 1)))).mem
    (Config.hdmBase + 0xA000) 4 = 0x3FC0_0000 := by decide +kernel

/-! ## Episodes (R313 to R323) -/

/-- A domain at 0x1000 with gamma = lambda gamma = 1, version 7, three versions of lag; its queues of type 5, each of capacity 4 in
slot 0 of tile 0; an open block at 0x4000 with a buffer of 4 records at 0x3000; two records there. -/
def queue5 (cred ring : Nat) : Nat := 5 + 8 + 16 + 4 * 2 ^ 16 + cred * 2 ^ 192 + ring * 2 ^ 224
def farm : State :=
  withMem [(0x1000, 16, 0x3F80_0000 + 0x3F80_0000 * 2 ^ 32 + 7 * 2 ^ 64 + 3 * 2 ^ 96), (0x1018, 8, 0x2005), (0x1020, 8, 0x2045),
      (0x1028, 8, 0x2085), (0x2000, 64, queue5 2 0x400), (0x2040, 64, queue5 2 0x600), (0x2080, 64, queue5 1 0x800),
      (0x3000, 16, 0x3F80_0000 + 0x4000_0000 * 2 ^ 32 + 2 * 2 ^ 96), (0x3010, 16, 0x3F80_0000 + 0x4040_0000 * 2 ^ 32 + 3 * 2 ^ 96),
      (0x4000, 24, 0x1000 + 0x3000 * 2 ^ 64 + 4 * 2 ^ 128 + 6 * 2 ^ 160)]
    (withRegs [(1, 2), (2, 0x4000), (3, 0x8000), (4, 0x1_3F80_0000), (5, 0x1000), (6, 0x1_0000_0000_0002), (7, 0x4000_0000)])
/-- An entry of index 0 of die 2: identity 2, two records made. -/
def entry (st : EpState) (rp : List Nat) : Episode where
  idx := 0
  ctx := 1
  dom := 0x1000
  id := 2
  st := st
  buf := 0x3000
  cap := 4
  ver := 6
  count := 2
  rp := rp
  csn := 0
  closed := 0
  tmo := 0
  tmoHit := false
  stale := false
  lag := 0
  miss := 0
def withEntry (e : Episode) (s : State) : State := { s with dies := s.dies.set 2 { s.dies.get 2 with eps := [e] } }
theorem held_all {s : State} {d : Fin 4} {c : Nat} {l : List (Nat × Need)}
    (h : (l.all fun r => heldCheck s d c r.1 r.2 (Config.hdmBase + r.1)) = true) : ∀ r ∈ l, HeldAt s d c r.1 r.2 (Config.hdmBase + r.1) :=
  fun r hr => heldAt_of (List.all_eq_true.mp h r hr)
theorem dom_at {s : State} {need : Need} (h : (handCheck s 0x1000 need (Config.hdmBase + 0x1000) && s.gPoison.isEmpty && s.gLatent.isEmpty &&
    s.noise.isEmpty && (me s).out.isEmpty) = true) : DomainAt s 0x1000 need (Config.hdmBase + 0x1000) := by
  simp only [Bool.and_eq_true, List.isEmpty_iff] at h
  exact ⟨by decide, atHand_of h.1.1.1.1, ⟨h.1.1.1.2, h.1.1.2⟩, alone_of h.2 _ _ _ _, h.1.2⟩
theorem wit_epopen : (let s := farm
    let blk := memRead s.mem (Config.hdmBase + 0x4000) 64
    let dv := memRead s.mem (Config.hdmBase + 0x1000) 64
    (rg (me s) 1).toNat = 2 ∧ (rg (me s) 2).toNat = 0x4000 ∧ cut blk 141 19 = 0 ∧ cut blk 192 320 = 0 ∧ cut blk 0 64 = 0x1000 ∧ cut blk 128 13 = 4 ∧
      cut blk 64 64 = 0x3000 ∧ cut dv 192 3 = 5 ∧ cut dv 256 3 = 5 ∧ cut dv 320 3 = 5 ∧
      (∀ e ∈ (s.dies.get 2).eps, ¬ (e.ctx = 1 ∧ e.dom = 0x1000 ∧ e.id = 2)) ∧
      (∃ e ∈ ((withEntry (entry .opened []) s).dies.get 2).eps, e.ctx = 1 ∧ e.dom = 0x1000 ∧ e.id = 2)) ∧
    Issues farm threadOrMender [gId 1, gId 2] [gId 9] ∧ AtHand farm 0x4000 .read (Config.hdmBase + 0x4000) ∧ (me farm).out = [] ∧
    DomainAt farm 0x1000 .readWrite (Config.hdmBase + 0x1000) ∧
    ∀ i < 4, AtHand farm (0x3000 + 16 * i) .readWrite (Config.hdmBase + 0x3000 + 16 * i) :=
  ⟨by decide +kernel, issues_of (by decide +kernel), atHand_of (by decide +kernel), by decide +kernel, dom_at (by decide +kernel),
    fun i h => atHand_of ((by decide +kernel : ∀ i < 4, handCheck farm (0x3000 + 16 * i) .readWrite (Config.hdmBase + 0x3000 + 16 * i) = true) i h)⟩
/-- R365: the lowest free entry of die 2's table; the buffer is cleared. -/
theorem test_epopen : gOf (exec (.epopen 9 1 2) farm) 9 = 0x8000 ∧ memRead (out (exec (.epopen 9 1 2) farm)).mem (Config.hdmBase + 0x3000) 64 = 0 ∧
    gOf (exec (.epopen 9 1 2) (withEntry (entry .opened []) farm)) 9 = 2 ^ 63 + 2 := by decide +kernel

theorem wit_eprec : let s := withEntry (entry .opened [0, 1]) farm
    ((rg (me s) 4).toNat < 2 ^ 33 ∧ s.noise = [] ∧ (me s).out = [] ∧ (entry .opened [0, 1]).count < (entry .opened [0, 1]).cap) ∧
    Issues s threadOrMender [gId 3, gId 4] [gId 9] ∧ Ticket s (rg (me s) 3) (entry .opened [0, 1]) ∧
    AtHand s (recordAt (entry .opened [0, 1]) 2) .write (Config.hdmBase + 0x3020) :=
  ⟨by decide +kernel, issues_of (by decide +kernel), ⟨by decide +kernel, by decide +kernel, by decide +kernel⟩, atHand_of (by decide +kernel)⟩
theorem test_eprec : gOf (exec (.eprec 9 3 4) (withEntry (entry .opened []) farm)) 9 = 2 ∧
    memRead (out (exec (.eprec 9 3 4) (withEntry (entry .opened []) farm))).mem (Config.hdmBase + 0x3020) 16 = 0x3F80_0000 + 2 ^ 96 ∧
    causeOf (exec (.eprec 9 3 4) (withEntry (entry .judged []) farm)) = 0x45 := by decide +kernel
/-- The reward of RWSEND at die 2's table. -/
def rewarded (e : Episode) : State := { withEntry e (out (exec (.rwsend 5 6 7) farm)) with ev := .die 2 }
theorem wit_epclose : (let s := withEntry (entry .opened [0, 1]) farm
    (∀ i ∈ (entry .opened [0, 1]).rp, i < 2) ∧ Memory.wf s.mem = true ∧ (rg (me s) 3).toNat = 0x8000 ∧ tableOf (rg (me s) 3) = 2 ∧
      (s.dies.get 2).arrivals = [] ∧ ((rewarded (entry .opened [0, 1])).dies.get 2).arrivals ≠ []) ∧
    (∀ r ∈ [(0x1000, .readWrite), (0x1000 + 64 + 8 * 2, .readWrite), (0x1000 + 16, .read)],
      HeldAt (withEntry (entry .opened [0, 1]) farm) 0 1 r.1 r.2 (Config.hdmBase + r.1)) ∧
    NoTable (withEntry (entry .opened [0, 1]) farm) (Config.hdmBase + 0x1050) :=
  ⟨by decide +kernel, held_all (by decide +kernel), noTable_of (by decide +kernel)⟩
theorem test_epclose : let s rp := out (exec (.epclose 9 3) (withEntry (entry .opened rp) (withMem [(0x1050, 8, 41)] farm)))
    rg (me (s [0, 1])) 9 = 41 ∧ memRead (s [0, 1]).mem (Config.hdmBase + 0x1050) 8 = 42 ∧ ((s [0, 1]).dies.get 2).eps.map (·.st) = [.judged] ∧
    ((s [0]).dies.get 2).eps.map (·.st) = [.joining] := by decide +kernel
theorem wit_epstat : (∀ r ∈ [withEntry (entry .judged [0]) farm, farm], Issues r threadOrMender [gId 3] [gId 9]) ∧
    Ticket (withEntry (entry .judged [0]) farm) (rg (me farm) 3) (entry .judged [0]) ∧ (rg (me farm) 3).toNat < 2 ^ 16 ∧
    (∀ e, ¬ Ticket farm (rg (me farm) 3) e) := by
  refine ⟨?_, ⟨by decide +kernel, by decide +kernel, by decide +kernel⟩, by decide +kernel, fun e h => ?_⟩
  · simp only [List.forall_mem_cons, List.not_mem_nil, false_implies, implies_true, and_true]
    exact ⟨issues_of (by decide +kernel), issues_of (by decide +kernel)⟩
  · have := h.2.2
    rw [show (farm.dies.get (tableOf (rg (me farm) 3))).eps = [] by decide +kernel] at this
    cases this
theorem test_epstat : gOf (exec (.epstat 9 3) (withEntry (entry .judged [0]) farm)) 9 = 3 + 2 * 2 ^ 16 + 2 ^ 32 ∧ gOf (exec (.epstat 9 3) farm) 9 = 0 := by
  decide +kernel
theorem wit_rwsend : ((me farm).out.any isStoreOp = false ∧ (rg (me farm) 7).toNat < 2 ^ 32 ∧ (rg (me farm) 5).toNat = 0x1000 ∧
      cut 0x1004 0 7 = (3 : Fin 16).val + 1 ∧ ((linked farm).links.get 3).st = .up ∧ 2 ≤ ((linked farm).links.get 3).ver) ∧
    Issues farm threadOrMender [gId 5, gId 6, gId 7] [] ∧ DomainAt farm 0x1000 .read (Config.hdmBase + 0x1000) :=
  ⟨by decide +kernel, issues_of (by decide +kernel), dom_at (by decide +kernel)⟩
theorem test_rwsend : ((out (exec (.rwsend 5 6 7) farm)).dies.get 2).arrivals.map (fun a => (a.msg.id, a.msg.step, a.msg.reward)) = [(2, 1, 0x4000_0000)] ∧
    ((out (exec (.rwsend 5 6 7) (linked (modMe farm (regs [(5, 0x1004)]))))).links.get 3).queue.length = 1 ∧
    causeOf (exec (.rwsend 5 6 7) (modMe farm (regs [(5, 0x1004)]))) = 0x47 := by decide +kernel

theorem wit_reward_arrival (st : EpState) (h : st ∈ [EpState.opened, .joining]) : let s := rewarded (entry st [0])
    ((s.dies.get 2).arrivals = [⟨rewardMsg farm 0x1000 0x1_0000_0000_0002 0x4000_0000, some (.tile 0 0, 0x1_0004), none, false, 0, none, []⟩] ∧
      (getHart s (.tile 0 0)).status = .parked (.remote 1) ∧ s.gqWait = [] ∧ Memory.wf s.mem = true ∧ s.gPoison = [] ∧ s.gLatent = [] ∧
      (s.dies.get 2).eps.find? (fun e => e.ctx == 1 && e.dom == 0x1000 && e.id == 2) = some (entry st [0])) ∧
    HeldAt s 2 1 (recordAt (entry st [0]) 1) .write (Config.hdmBase + 0x3010) := by
  simp only [List.mem_cons, List.not_mem_nil, or_false] at h
  rcases h with rfl | rfl <;> exact ⟨by decide +kernel, heldAt_of (by decide +kernel)⟩
/-- No entry has the reward's key, and oq has no credit. -/
theorem wit_orphan : (let s := withMem [(0x2040, 64, queue5 0 0x600)] (rewarded { entry .opened [0] with id := 6 })
    (∀ e ∈ (s.dies.get 2).eps, ¬ (e.ctx = 1 ∧ e.dom = 0x1000 ∧ e.id = 2)) ∧ cut (memRead s.mem (Config.hdmBase + 0x2040) 64) 192 8 = 0 ∧
      memRead s.mem (Config.hdmBase + 0x1020) 8 / 64 * 64 = 0x2040 ∧ (Config.hdmBase + 0x2040) / 64 ≠ (Config.hdmBase + 0x1000) / 64) ∧
    (∀ r ∈ [(0x1000, .readWrite), (0x2040, .readWrite)],
      HeldAt (withMem [(0x2040, 64, queue5 0 0x600)] (rewarded { entry .opened [0] with id := 6 })) 2 1 r.1 r.2 (Config.hdmBase + r.1)) ∧
    NoTable (rewarded (entry .opened [0])) (Config.hdmBase + 0x1000) :=
  ⟨by decide +kernel, held_all (by decide +kernel), noTable_of (by decide +kernel)⟩
/-- An EPCLOSE that waits behind a reward, once that has been taken. -/
def closing : State :=
  let r := rewarded (entry .opened [0])
  let s := { modHart r (.tile 0 1) (fun _ => me farm) with cur := .tile 0 1 }
  { out (exec .rewardArrival { out (exec (.epclose 9 3) s) with ev := .die 2 }) with ev := .die 2 }
theorem wit_epclose_arrival : ((closing.dies.get 2).arrivals.map fun x => (x.sender, x.close, x.msg.ctx, x.msg.dom, x.msg.id)) =
      [(some (.tile 0 1, 0x1_0004), some (0, 9), 1, 0x1000, 2)] ∧
    (closing.dies.get 2).eps.map (fun e => (e.idx, e.st)) = [(0, .opened)] := by decide +kernel
theorem test_reward_arrival : let s := out (exec .rewardArrival (rewarded (entry .joining [0])))
    memRead s.mem (Config.hdmBase + 0x3014) 4 = 0x4000_0000 ∧ (s.dies.get 2).eps.map (fun e => (e.st, e.rp)) = [(.judged, [0, 1])] ∧
    (getHart s (.tile 0 0)).pc = 0x1_0004 := by decide +kernel
/-- R319: a reward for a step that has one is an orphan of reason 2, a record in oq. -/
theorem test_orphan : let s := out (exec .rewardArrival (rewarded (entry .opened [0, 1])))
    memRead s.mem (Config.hdmBase + 0x1030) 8 = 1 ∧ memRead (getTile s 0).l 0x600 24 = 0x0001_0000_0000_0002 + 0x4000_0000 * 2 ^ 64 + 2 * 2 ^ 128 := by
  decide +kernel
def remote : State := { out (exec (.rwsend 5 6 7) (linked (modMe farm (regs [(5, 0x1004)])))) with ev := .key 1 }
theorem wit_remote_answer : remote.rewards = [⟨1, .tile 0 0, 3, rewardMsg farm 0x1004 0x1_0000_0000_0002 0x4000_0000, 0x1_0004⟩] ∧
    (getLink remote 3).st = .up ∧ (getHart remote (.tile 0 0)).status = .parked (.remote 1) := by decide +kernel
theorem test_remote_answer : (me (out (exec .rwsendRemoteAnswer remote))).pc = 0x1_0004 ∧
    rg (getHart (out (exec .rewardArrival closing)) (.tile 0 1)) 9 = 0 := by decide +kernel

def onEntry (e : Episode) : State := { withEntry e farm with ev := .dieItem 2 0 }
theorem wit_episode_timeout : let e := { entry .joining [0] with tmo := 5 }
    let s := { onEntry e with cycle := 12000 }
    (s.dies.get 2).eps.find? (fun y => y.idx == 0) = some e ∧ e.tmo ≠ 0 ∧ e.closed + 2400 * e.tmo ≤ s.cycle ∧ (s.dies.get 2).arrivals = [] := by
  decide +kernel
theorem test_episode_timeout : let e := { entry .joining [0] with tmo := 5 }
    ((out (exec .episodeTimeout { onEntry e with cycle := 12000 })).dies.get 2).eps.map (fun e => (e.st, e.tmoHit)) = [(.judged, true)] ∧
    ((out (exec .episodeTimeout { onEntry e with cycle := 11999 })).dies.get 2).eps.map (·.st) = [.joining] := by decide +kernel
theorem wit_wringer : let s := onEntry (entry .judged [0, 1])
    cut (memRead s.mem (Config.hdmBase + 0x1000) 16) 96 32 = 3 ∧
    (∀ r ∈ [(0x1000, .read), (0x3000, .read), (0x3000, .write), (0x3010, .read), (0x3010, .write)], HeldAt s 2 1 r.1 r.2 (Config.hdmBase + r.1)) ∧
    (∀ a ∈ pagesOf 0x3000 (16 * 2), ∃ pa, HeldAt s 2 1 (a % 2 ^ 64) .write pa) ∧
    ∀ i < 2, recordAt (entry .judged [0, 1]) i = 0x3000 + 16 * i ∧ NoTable s (Config.hdmBase + 0x3000 + 16 * i) ∧
      (Config.hdmBase + 0x3000 + 16 * i) % 16 = 0 := by
  refine ⟨by decide +kernel, held_all (by decide +kernel), ?_, ?_⟩
  · intro a ha
    obtain rfl : a = 0x3000 := by
      rw [show pagesOf 0x3000 (16 * 2) = [0x3000] by decide +kernel] at ha
      simpa using ha
    exact ⟨Config.hdmBase + 0x3000, heldAt_of (by decide +kernel)⟩
  · intro i hi
    rcases i with _ | _ | i
    · exact ⟨by decide +kernel, noTable_of (by decide +kernel), by decide +kernel⟩
    · exact ⟨by decide +kernel, noTable_of (by decide +kernel), by decide +kernel⟩
    · omega
/-- R320: record 1 (3, done): 3 - 1 = 2; record 0: 2 + 1 - 1 + 2 = 4; a record without a reward is NaN and MISS. -/
theorem test_wringer_scan : let s := out (exec .wringerScan (onEntry (entry .judged [0, 1])))
    memRead s.mem (Config.hdmBase + 0x3018) 4 = 0x4000_0000 ∧ memRead s.mem (Config.hdmBase + 0x3008) 4 = 0x4080_0000 ∧
    (s.dies.get 2).eps.map (fun e => (e.st, e.lag, e.stale, e.miss)) = [(.releasing, 1, false, 0)] := by decide +kernel
theorem test_wringer_stale : let s := out (exec .wringerScan (onEntry { entry .judged [0, 1] with ver := 3 }))
    (s.dies.get 2).eps.map (fun e => (e.st, e.lag, e.stale)) = [(.releasing, 4, true)] ∧
    memRead s.mem (Config.hdmBase + 0x3018) 4 = 0 := by decide +kernel
theorem wit_release : (let s := onEntry (entry .releasing [0, 1])
    let l := memRead s.mem (Config.hdmBase + 0x2000) 64
    memRead s.mem (Config.hdmBase + 0x1018) 8 = 0x2005 ∧ (Config.hdmBase + 0x2000) / 64 ≠ (Config.hdmBase + 0x1070) / 64 ∧
      (Config.hdmBase + 0x2000) % 64 = 0 ∧ (Config.hdmBase + 0x1070) % 8 = 0 ∧ memRead s.mem (Config.hdmBase + 0x1070) 8 = 0 ∧
      gqReserved l = false ∧ gqInvalid l 5 = false ∧ cut l 192 8 ≠ 0 ∧ s.gqWait = [] ∧ switchedOut s 1 (cut l 32 13) = false ∧
      cut (queue5 0 0x400) 192 8 = 0) ∧
    (∀ r ∈ [(0x1000 + 96 + 8 * 2, .readWrite), (0x1018, .read), (0x2000, .readWrite)],
      HeldAt (onEntry (entry .releasing [0, 1])) 2 1 r.1 r.2 (Config.hdmBase + r.1)) ∧
    NoTable (onEntry (entry .releasing [0, 1])) (Config.hdmBase + 0x1070) ∧ NoTable (onEntry (entry .releasing [0, 1])) (Config.hdmBase + 0x2000) :=
  ⟨by decide +kernel, held_all (by decide +kernel), noTable_of (by decide +kernel), noTable_of (by decide +kernel)⟩
theorem wit_release_stale : let s := onEntry { entry .releasing [0, 1] with stale := true }
    (memRead s.mem (Config.hdmBase + 0x1028) 8 = 0x2085 ∧ (Config.hdmBase + 0x1038) / 64 ≠ (Config.hdmBase + 0x2080) / 64 ∧
      (Config.hdmBase + 0x1038) % 8 = 0 ∧ 0x1038 + 8 ≤ 0x1070) ∧
    ∀ r ∈ [(0x1028, .read), (0x1038, .readWrite)], HeldAt s 2 1 r.1 r.2 (Config.hdmBase + r.1) :=
  ⟨by decide +kernel, held_all (by decide +kernel)⟩
/-- R321: the record: identity, buffer, count, version. -/
theorem test_release : let s := out (exec .episodeRelease (onEntry (entry .releasing [0, 1])))
    memRead (getTile s 0).l 0x400 32 = 2 + 0x3000 * 2 ^ 64 + 2 * 2 ^ 128 + 6 * 2 ^ 192 ∧ memRead s.mem (Config.hdmBase + 0x1070) 8 = 1 ∧
    (s.dies.get 2).eps = [] := by decide +kernel

/-! ## Queues, groups, partitions (R242 to R276) -/

/-- A node of kind 0 and queue 1 with one group of 2 by 2 tiles at (4, 0), its kernel at 0xC000. -/
def nodeOf (kind status next : Nat) : Nat :=
  kind + 2 ^ 4 + 2 ^ 8 + 1 * 2 ^ 16 + next * 2 ^ 64 + 0xC000 * 2 ^ 192 + 0xD000 * 2 ^ 256 + 0xE000 * 2 ^ 64 * 2 ^ 256 + 4 * 2 ^ 128 * 2 ^ 256 +
    (2 * 2 ^ 144 + 2 * 2 ^ 152 + 2 ^ 160 + 2 ^ 168) * 2 ^ 256 + status * 2 ^ 192 * 2 ^ 256
/-- Context 1 with four queues from 0x9000; queue 1 is enabled, of die 1; its tail and cur are a dummy node at 0xA000; the node at 0xB000
stands behind it. -/
def tables (s : State) : State :=
  let f (c : Ctx) : Ctx := { c with qbase := 0x9000, qcnt := 4 }
  withMem [(0x9040, 64, 0xA000 * 2 ^ 128 + 0xA000 * 2 ^ 192 + 2 ^ 258 + 2 ^ 260), (0xB000, 64, nodeOf 0 0 0)]
    { s with ctxs := s.ctxs.map fun c => (c.1, f c.2) }
def toLaunch : State := tables (mk fun h => { h with e := h.e.set 2 0xB000 })
theorem wit_launch : (let s := toLaunch
    (me s).out.any isStoreOp = false ∧ s.gPoison = [] ∧ s.gLatent = [] ∧ s.noise = [] ∧ s.gfe = [] ∧
      alGet s.ctxs 1 = some { loadCtx with qbase := 0x9000, qcnt := 4 } ∧ cut (memRead s.mem (Config.hdmBase + 0xB000) 64) 16 12 = 1 ∧
      isDevice (Config.hdmBase + 0x9040) = true ∧ memRead s.mem (Config.hdmBase + 0x9050) 8 = 0xA000) ∧ Here toLaunch 0 0 ∧
    Issues toLaunch threadOnly [eId 2] [] ∧ NoTable toLaunch (Config.hdmBase + 0x9040) ∧ HeldAt toLaunch 0 1 0xA008 .write (Config.hdmBase + 0xA008) ∧
    ∀ r ∈ [(0xB000, .read), (0x9040, .readWrite)], AtHand toLaunch r.1 r.2 (Config.hdmBase + r.1) :=
  ⟨by decide +kernel, ⟨rfl, by decide⟩, issues_of (by decide +kernel), noTable_of (by decide +kernel), heldAt_of (by decide +kernel),
    fun r hr => atHand_of (List.all_eq_true.mp (by decide +kernel : ([(0xB000, .read), (0x9040, .readWrite)].all fun r =>
      handCheck toLaunch r.1 r.2 (Config.hdmBase + r.1)) = true) r hr)⟩
theorem test_launch : let s := out (exec (.launch 2) toLaunch)
    [0x9040, 0x9050, 0xA008].map (fun a => memRead s.mem (Config.hdmBase + a) 8) = [0xB000, 0xB000, 0xB000] ∧ (me s).pc = 0x1_0004 := by
  decide +kernel

/-- Queue 1 armed, with the node linked behind the dummy. -/
def armed : State :=
  let s := withMem [(0xA008, 8, 0xB000), (0x9040, 8, 0xB000)] (tables (mk id))
  { s with gEmpty := [], ev := .ctxQueue 1 1 }
theorem wit_queue_walk : (let s := armed
    let v := memRead s.mem (Config.hdmBase + 0xB000) 64
    s.gPoison = [] ∧ s.gLatent = [] ∧ Memory.wf s.mem = true ∧ s.gfe = [] ∧ cut (memRead s.mem (Config.hdmBase + 0x9040) 64) 260 2 = 1 ∧
      cut (memRead s.mem (Config.hdmBase + 0x9040) 64) 192 64 = 0xA000 ∧ gFull s (Config.hdmBase + 0x9040) = true ∧ cut v 64 64 = 0 ∧
      nodeOk true 1 v = true ∧ cut v 448 2 = 0 ∧ cut v 459 1 = 0 ∧ cut v 32 32 = 0 ∧ (alGet s.ctxs 1).any (fun x => !x.destroyed) = true) ∧
    (∀ va ∈ [0x9040, 0xA000, 0xB000], UnitAt armed 1 1 va .readWrite (Config.hdmBase + va) ∧ NoTable armed (Config.hdmBase + va)) ∧
    [0x9040, 0xA000, 0xB000].Pairwise fun a b => Apart (Config.hdmBase + a) (Config.hdmBase + b) := by
  refine ⟨by decide +kernel, fun va hv => ?_, ?_⟩
  · simp only [List.mem_cons, List.not_mem_nil, or_false] at hv
    rcases hv with rfl | rfl | rfl <;> exact ⟨unitAt_of (by decide +kernel), noTable_of (by decide +kernel)⟩
  · simp only [Apart]
    decide +kernel
/-- R260: state 1 and WLK. -/
theorem test_queue_walk : let s := out (exec .queueWalk armed)
    memRead s.mem (Config.hdmBase + 0xB038) 8 = 0x801 ∧ memRead s.mem (Config.hdmBase + 0x9058) 8 = 0xB000 ∧
    (s.dies.get 1).queues.map (fun r => (r.q, r.mapped, r.nodes)) = [(1, false, [0xB000])] := by decide +kernel

/-- Queue 1 has walked its node. -/
def walked : State := { out (exec .queueWalk armed) with cycle := 240000 }
theorem wit_period : walked.bounds ≤ now walked / 100000 := by decide +kernel
theorem test_period : (out (exec .periodBoundary walked)).bounds = 2 ∧
    ((out (exec .periodBoundary walked)).dies.get 1).queues.map (fun r => (r.q, r.mapped, r.p)) = [(1, true, 0)] := by decide +kernel
def toDispatch : State := { out (exec .periodBoundary walked) with ev := .node 1 1 0xB000 }
theorem wit_dispatch : (let s := toDispatch
    let v := memRead s.mem (Config.hdmBase + 0xB000) 64
    s.gPoison = [] ∧ s.gLatent = [] ∧ Memory.wf s.mem = true ∧ qeDie (entryPeek s 1 1) = 1 ∧
      (findRec s 1 1 1).map (fun r => (r.nodes, dispatchNext s r)) = some ([0xB000], some 0xB000) ∧ cut v 440 8 = 0 ∧ cut v 450 1 = 0 ∧
      cut v 0 2 = 0) ∧ NoTable toDispatch (Config.hdmBase + 0xB000) ∧ UnitAt toDispatch 1 1 0xB000 .readWrite (Config.hdmBase + 0xB000) :=
  ⟨by decide +kernel, noTable_of (by decide +kernel), unitAt_of (by decide +kernel)⟩
/-- The node is a host notification of value 77, and its queue has vector 3. -/
def toNotify : State :=
  let s := withMem [(0xB000, 1, 0x13), (0xB018, 8, 77), (0x9062, 2, 3)] toDispatch
  { s with ports := s.ports.set 0 { s.ports.get 0 with up := true } }
theorem wit_notify : (let s := toNotify
    let v := memRead s.mem (Config.hdmBase + 0xB000) 64
    let e := memRead s.mem (Config.hdmBase + 0x9040) 64
    cut v 0 2 = 3 ∧ cut v 11 1 = 0 ∧ cut v 192 64 = 77 ∧ cut e 272 16 = 3 ∧ entryVa s 1 1 = 0x9040 ∧ s.gfe = [] ∧ (s.ports.get 0).up = true ∧
      s.launches = [] ∧ (findRec s 1 1 1).map (dispatchNext s) = some (some 0xB000)) ∧ OffWalk toNotify 1 0x9040 (Config.hdmBase + 0xB000) ∧
    NoTable toNotify (Config.hdmBase + 0x9040) ∧ UnitAt toNotify 1 1 0x9040 .readWrite (Config.hdmBase + 0x9040) :=
  ⟨by decide +kernel, offWalk_of (by decide +kernel), noTable_of (by decide +kernel), unitAt_of (by decide +kernel)⟩
theorem test_notify : (out (exec .nodeDispatch toNotify)).msix = [(3, 0, some 77)] ∧
    memRead (out (exec .nodeDispatch toNotify)).mem (Config.hdmBase + 0xB038) 8 = 3 + 2 ^ 11 := by decide +kernel
theorem test_dispatch : memRead (out (exec .nodeDispatch toDispatch)).mem (Config.hdmBase + 0xB038) 8 = 0x802 ∧
    (out (exec .nodeDispatch toDispatch)).launches.map (fun l => (l.queue, l.node, l.st)) = [(1, 0xB000, .checking)] := by decide +kernel

/-- A kernel at 0xC000: one slot, a code of four halfwords from its byte 64, entered at its second one, a data image of 8 bytes, a
window of two words. -/
def header : Nat :=
  0x4B52_4E4C + 2 ^ 32 + 2 ^ 40 + 2 * 2 ^ 48 + 2 * 2 ^ 64 + 8 * 2 ^ 96 + 8 * 2 ^ 128 + 2 ^ 160 + 2 * 2 ^ 192 + 0x80 * 2 ^ 32 * 2 ^ 256 + 0x90 * 2 ^ 64 * 2 ^ 256
def checking : State :=
  withMem [(0xC000, 64, header), (0xC080, 8, 0x0000_0006_0000_0005), (0xC090, 8, 0x0123_4567_89AB_CDEF), (0xD000, 8, 77),
      (0xE000, 64, 0x24 + 5 * 2 ^ 128)] { out (exec .nodeDispatch toDispatch) with ev := .key (out (exec .nodeDispatch toDispatch)).ids }
def theLaunch : Launch := checking.launches.getD 0 ⟨0, 0, 0, 0, 0, 0, none, none, none, 0, .ending, 0, 0, false, false, 0⟩
theorem header_ok : HeaderOk header := by
  constructor
  case parts => unfold PartIn; decide +kernel
  all_goals decide +kernel
theorem wit_checking : (checking.ev = .key theLaunch.key ∧ checking.launches.find? (·.key == theLaunch.key) = some theLaunch ∧
      theLaunch.st = .checking ∧ theLaunch.die = 1 ∧ theLaunch.hdr = none ∧ theLaunch.pool = none ∧ checking.gPoison = [] ∧ checking.gLatent = [] ∧
      cut theLaunch.nodeV 192 64 = 0xC000 ∧ header = memRead checking.mem (Config.hdmBase + 0xC000) 64 ∧ placeBad checking 1 theLaunch.nodeV = false ∧
      (loadPages header theLaunch.nodeV).all (fun a => heldCheck checking 1 1 (a % 2 ^ 64) .read (Config.hdmBase + a)) = true) ∧
    HeldAt checking 1 1 0xC000 .read (Config.hdmBase + 0xC000) ∧ ReadsAs checking 1 1 (0xC000 + 64) 8 0 ∧ ReadsAs checking 1 1 0xC000 0 0 :=
  ⟨by decide +kernel, heldAt_of (by decide +kernel), readsAs_of (pa := Config.hdmBase + 0xC040) (by decide +kernel),
    readsAs_of (pa := 0) (by decide +kernel)⟩
theorem wit_promise : Promised header 0 [] 1 := by
  have h : ¬ HasUnordered 0 (cut header 96 32) [] := by
    rintro ⟨o, -, -, -, -, h, -⟩
    simp [cut] at h
  exact ⟨by decide, by decide +kernel, by simp [h], by simp [h]; decide +kernel⟩
theorem test_checking : (out (exec .kernelChecking checking)).launches.map (fun l => (l.st, l.hdr, l.promise)) = [(.placing, some header, 1)] ∧
    (out (exec .kernelChecking (withMem [(0xC000, 1, 0)] checking))).reports.length = 1 := by decide +kernel

def placing : State := out (exec .kernelChecking checking)
theorem wit_placement : (placing.launches.map fun l => placeAt placing l) = [some (0, 4, 0)] := by decide +kernel
def placed : State :=
  let s := out (exec .groupPlacement placing)
  { s with ev := .key s.ids }
theorem test_placement : placed.groups.map (fun g => (g.ox, g.oy, g.w, g.h, g.st)) = [(0, 0, 2, 2, .running), (4, 0, 2, 2, .placed)] ∧
    (getTile placed 77).grp = some placed.ids ∧ placed.launches.map (·.st) = [.running] := by decide +kernel
theorem wit_load : ((findGroup placed placed.ids).map (fun g => (groupTiles g, g.loaded, g.ctx, g.part)) = some ([4, 5, 76, 77], 0, 1, 0) ∧
      (placed.parts.get 0).resident = some 1 ∧ (placed.parts.get 0).sw = none ∧ placed.gPoison = [] ∧ placed.gLatent = [] ∧
      (getTile placed 4).mheld = [] ∧ (getTile placed 4).fills = [] ∧ cut header 160 6 ≤ 32) ∧
    ∃ l ∈ placed.launches, Loads placed l header 0x0123_4567_89AB_CDEF 0x0000_0006_0000_0005 (0x24 + 5 * 2 ^ 128) 77 := by
  refine ⟨by decide +kernel, (placed.launches.getD 0 theLaunch), by decide +kernel, by decide +kernel, ?_, ?_, .inr ⟨by decide +kernel, ?_, ?_⟩⟩
  · exact readsAs_of (pa := Config.hdmBase + 0xC090) (by decide +kernel)
  · exact readsAs_of (pa := Config.hdmBase + 0xC080) (by decide +kernel)
  · exact readsAs_of (pa := Config.hdmBase + 0xE000) (by decide +kernel)
  · exact readsAs_of (pa := Config.hdmBase + 0xD000) (by decide +kernel)
def loaded1 : State := out (exec .groupLoad placed)
theorem test_load : let x := getTile loaded1 4
    (x.slots, x.winN, x.winImg, x.promise, x.seed, x.fmt.get 0) = (2, 2, ⟨[5, 6], [], []⟩, 1, 5, 0x24) ∧ memRead x.l 0 8 = 0x0123_4567_89AB_CDEF ∧
    memRead x.l 0x1_FEF8 16 = 0xD000 + 77 * 2 ^ 64 := by decide +kernel
theorem test_load_gid : (getTile loaded1 4).gid = 0x0202_0004 ∧ loaded1.groups.map (fun g => (g.st, g.loaded)) = [(.running, 4), (.loading, 1)] := by
  decide +kernel

/-- A group of the launch at tiles 4, 5, 76 and 77, as `st` and `n` say. -/
def theGroup (st : GroupSt) (n : Nat) : State :=
  let g : Group := ⟨9, theLaunch.key, 1, 0, 0, 4, 0, 2, 2, st, n⟩
  let l : Launch := { theLaunch with st := .running, hdr := some header, placed := 1, nodeV := theLaunch.nodeV + 2 ^ 160 * 2 ^ 256 }
  let s := { mk id with groups := [g], launches := [l], ev := .key 9 }
  [4, 5, 76, 77].foldl (fun s t => onTile t (fun x => { x with grp := some 9, ctx := 1 }) s) s
theorem wit_release_group : let s := theGroup .loading 4
    (findGroup s 9).map (fun g => (g.st, g.loaded, groupTiles g)) = some (.loading, 4, [4, 5, 76, 77]) ∧
    s.launches.map (fun l => (l.key, l.hdr)) = [(theLaunch.key, some header)] ∧ (s.parts.get 0).resident = some 1 ∧ (s.parts.get 0).sw = none ∧
    (∀ t ∈ [4, 5, 76, 77], (getTile s t).fe = []) := by decide +kernel
theorem test_release_group : let s := out (exec .groupRelease (theGroup .loading 4))
    [4, 5, 76, 77].map (fun t => ((getHart s (.tile t 0)).status, (getHart s (.tile t 0)).pc)) = List.replicate 4 (.ready, 0xC042) := by
  decide +kernel
theorem wit_retire : (let s := theGroup .running 4
    s.launches.map (fun l => (l.st, l.retired + 1, cut l.nodeV 416 8 * cut l.nodeV 424 8)) = [(.running, 1, 2)] ∧
      ∀ t ∈ [4, 5, 76, 77], (getTile s t).mheld = [] ∧ (getTile s t).fills = []) ∧
    ∃ g ∈ (theGroup .running 4).groups, findGroup (theGroup .running 4) 9 = some g ∧ MayRetire (theGroup .running 4) g := by
  refine ⟨by decide +kernel, _, List.mem_singleton.mpr rfl, by decide +kernel, rfl, ?_⟩
  decide +kernel
theorem test_retire : let s := out (exec .groupRetire (theGroup .running 4))
    (s.groups, (getTile s 77).grp, s.launches.map (·.retired)) = ([], none, [1]) := by decide +kernel

/-- A request block at 0x8000: SETRUN of partition 0 with the context of the loaded program and a slice of 9 µs. -/
def requests (w : Nat) : State :=
  let s := supRegs [(1, 0x8000)]
  withMem [(0x8000, 64, w)] s
theorem wit_swreq : let s := requests (2 + 9 * 2 ^ 224)
    ((me s).sup = true ∧ (me s).out.any isStoreOp = false ∧ s.noise = [] ∧ s.gPoison = [] ∧ s.gLatent = [] ∧
      (readDescs (wakeSlice (readFilled s [gId 1]) at8000) (srNamed (memRead s.mem at8000 64))).2 = (none, some [])) ∧
    Here s 0 0 ∧ Issues s threadOnly [gId 1] [gId 2] ∧ AtHand s 0x8000 .read at8000 :=
  ⟨by decide +kernel, ⟨rfl, by decide⟩, issues_of (by decide +kernel), atHand_of (by decide +kernel)⟩

theorem test_swreq : gOf (exec (.swreqDefpart 2 1) (requests (1 + 2 ^ 8 + 16 * 2 ^ 192 + 2 ^ 208 + 2 ^ 216))) 2 = 4 ∧
    (let s := { requests (1 + 2 ^ 8 + 16 * 2 ^ 192 + 2 ^ 208 + 2 ^ 216) with parts := Vector.replicate 32 Part.reset }
     let p := (out (exec (.swreqDefpart 2 1) s)).parts.get 1
     (p.valid, p.cx, p.cy, p.cw, p.ch) = (true, 16, 0, 1, 1)) ∧
    ((out (exec (.swreqSetrun 2 1) (requests (2 + 9 * 2 ^ 224)))).parts.get 0).slice = 9 ∧
    ((out (exec (.swreqSwitch 2 1) (requests 0))).parts.get 0).sw = some ⟨2000, 0, 0, some (1, 0), 0⟩ := by decide +kernel
/-- R275: a descriptor that cannot be read counts as malformed. -/
theorem test_swreq_status : gOf (exec (.swreqDestroy 2 1) (requests (3 + 0x10 * 2 ^ 64))) 2 = 1 ∧ gOf (exec (.swreqSwitch 2 1) (requests 0x10)) 2 = 1 := by
  decide +kernel

/-- Partition 0 of four by four tiles; context 1 resident, no group. -/
def sliced (f : Part → Part) : State :=
  let p : Part := ⟨true, 0, 0, 1, 1, [1, 1], 0, 0, some 1, 0, none⟩
  let s := mk id
  { s with parts := s.parts.set 0 (f p), groups := [], ev := .part 0 }
theorem wit_slice : let s := { sliced id with cycle := 4795200 }
    let x := s.parts.get 0
    x.sw = none ∧ x.resident = some 1 ∧ aliveIn s x = [1, 1] ∧ x.start + sliceOfPart x ≤ now s + 2000 := by decide +kernel
theorem test_slice : ((out (exec .timeSliceNaming { sliced id with cycle := 4795200 })).parts.get 0).sw.map (fun w => (w.t, w.target, w.phase)) =
    some (2000000, 1, 0) := by decide +kernel
def switching (phase : Nat) : State := sliced fun p => { p with sw := some ⟨2000, 1, 0x2000, some (1, 0x40), phase⟩ }
theorem wit_stop : (let s := { switching 0 with cycle := 4800 }
    (s.parts.get 0).sw = some ⟨2000, 1, 0x2000, some (1, 0x40), 0⟩ ∧ 2000 ≤ now s ∧ s.groups = [] ∧ alGet s.ctxs 1 = some loadCtx ∧
      (partTiles (s.parts.get 0)).all (fun t => (getTile s t).harts.toList.all fun h => match h.status with
        | .parked (.remote _) => false
        | _ => true) = true) ∧
    (((switching 1).parts.get 0).sw.map (·.phase)) = some 1 ∧ (switching 1).reports = [] ∧
    (((switching 2).parts.get 0).sw.map (·.phase)) = some 2 := by decide +kernel
/-- The stop of a partition of no tiles. -/
theorem test_stop : let s := switching 0
    let t := out (exec .gangSwitchStop { s with cycle := 4800, parts := s.parts.set 0 { s.parts.get 0 with cw := 0 } })
    (t.parts.get 0).sw.map (·.phase) = some 1 ∧ (alGet t.ctxs 1).map (fun y => (y.res, y.ns)) = some ([(0, .leaving)], 2000) := by decide +kernel
theorem test_save_restore : ((out (exec .gangSwitchSaveDone (switching 1))).parts.get 0).resident = none ∧
    (let s := out (exec .gangSwitchRestore (switching 2))
     ((s.parts.get 0).resident, (s.parts.get 0).sw, s.reports.map (fun r => cut r.data 0 8)) = (some 1, none, [10])) := by decide +kernel

/-! ## Collectives, translation control, links, reports (R272, R286 to R288, R330, R331, R335 to R339) -/

/-- A ready group 5 of context 1 with two members: link 3 and this device of rank 1. -/
def twoMembers : CollGroup := ⟨1, 5, 2, 2, 1, 100, [3, 255], [], 7⟩
/-- Control word: 4 elements of FP32 for group 5; source at 0x3000, destination at 0x4000, tag in g6; a descriptor of group 9 at
0x5000. -/
def collDesc : Nat := 9 + 2 * 2 ^ 8 + 2 ^ 16 + 100 * 2 ^ 32 + 3 * 2 ^ 64 + 255 * 2 ^ 72
def collective : State :=
  let s := linked (withMem [(0x5000, 64, collDesc)]
    (mk fun h => { regs [(6, 0x66)] h with e := ((((h.e.set 1 0x3000).set 2 0x4000).set 3 (w64 (4 + 5 * 2 ^ 40))).set 4 0x5000).set 5 (w64 (5 * 2 ^ 40)) }))
  { s with collGroups := [twoMembers] }
theorem wit_coll : (let s := collective
    let cw := 4 + 5 * 2 ^ 40
    s.cur = .tile 0 0 ∧ (me s).out.length < 4 ∧ (re (me s) 3).toNat = cw ∧ findColl s 1 (cut cw 40 6) = some twoMembers ∧
      alGet s.ctxs 1 = some loadCtx ∧ cut cw 34 6 = 0 ∧ cw < 2 ^ 46 ∧ cut cw 32 2 < 2 ∧ cut cw 0 32 ≠ 0 ∧
      0x3000 + 4 * sourceWords .rsO 2 4 ≤ 2 ^ 64 ∧ canonical loadCtx.tfd 0x3000 = true ∧ canonical loadCtx.tfd 0x4000 = true ∧
      cut (re (me s) 5).toNat 0 32 = 0 ∧ cut (re (me s) 5).toNat 32 2 = 0) ∧ Here collective 0 0 ∧
    ∀ l ∈ [[eId 1, eId 2, eId 3, gId (low 6)], [eId 5, gId (low 6)]], Issues collective threadOnly l [] :=
  ⟨by decide +kernel, ⟨rfl, by decide⟩, issues_all (by decide +kernel)⟩
theorem wit_coll_decl : (let s := collective
    memRead s.mem (Config.hdmBase + 0x5000) 64 = collDesc ∧ s.colls = [] ∧ s.noise = [] ∧ s.gPoison = [] ∧ s.gLatent = []) ∧ DescriptorOk collDesc ∧
    Issues collective threadOnly [eId 4, gId (low 6)] [] ∧ AtHand collective 0x5000 .read (Config.hdmBase + 0x5000) := by
  refine ⟨by decide +kernel, ?_, issues_of (by decide +kernel), atHand_of (by decide +kernel)⟩
  refine ⟨rfl, rfl, rfl, by decide +kernel, ?_⟩
  change 1 ≤ 2 ∧ 2 ≤ 16 ∧ 1 < 2 ∧ _ = 255 ∧ (∀ k < 2, k ≠ 1 → _) ∧ ∀ j < 2, ∀ k < 2, j ≠ 1 → k ≠ 1 → _ → j = k
  decide +kernel
theorem test_coll : (collRows 2 6 3 2 1).all (fun r => (out (exec r.1 collective)).colls == [issuedColl collective r.2.1 0x3000 0x4000 5 4 0 0 0x66]) = true ∧
    (me (out (exec (.collBar 2 6 5) collective))).out.map (·.left) = [2] ∧
    (out (exec (.collDecl 2 6 4) collective)).colls.map (fun x => (x.fn, x.gid)) = [(.decl, 9)] := by decide +kernel
/-- R336: no MAX or MIN of integers beyond type 1: type 2 does not reduce. -/
theorem test_coll_trap : causeOf (exec (.collArO 0 6 3 2 1) (modMe collective fun h => { h with e := h.e.set 3 (w64 (4 + 2 * 2 ^ 32 + 5 * 2 ^ 40)) })) = 0x46 ∧
    causeOf (exec (.collAg 0 6 3 2 1) { collective with collGroups := [] }) = 0x46 := by decide +kernel

/-- The barrier as the only collective, at `st`. -/
def barrier (f : Coll → Coll) : State :=
  let s := out (exec (.collBar 2 6 5) collective)
  { s with colls := s.colls.map f, ev := .key 1 }
def declaring (f : Coll → Coll) : State :=
  let s := out (exec (.collDecl 2 6 4) collective)
  { s with colls := s.colls.map f, ev := .key 1 }
/-- The barrier once it is accepted. -/
def starting : State := { out (exec .collAccept (barrier id)) with ev := .key 1 }
theorem wit_coll_accept (x : Coll) (h : x ∈ (barrier id).colls) : Acceptable (barrier id) x ∧ findColl (barrier id) x.ctx x.gid = some twoMembers ∧
    x.fn ≠ .decl := by
  obtain rfl : x = issuedColl collective .bar 0 0 5 0 0 0 0x66 := by
    rw [show (barrier id).colls = [issuedColl collective .bar 0 0 5 0 0 0 0x66] by decide +kernel] at h
    simpa using h
  refine ⟨⟨⟨rfl, by decide +kernel, by decide +kernel, ?_⟩, by decide +kernel, ?_⟩, by decide +kernel⟩
  · change ∀ o ∈ List.takeWhile (fun o => o.await != .accept 1) (getHart (barrier id) (.tile 0 0)).out, _
    rw [show (getHart (barrier id) (.tile 0 0)).out.takeWhile (fun o => o.await != .accept 1) = [] by decide +kernel]; simp
  · change ∀ y ∈ List.takeWhile (fun y => y.id != 1) (barrier id).colls, _
    rw [show (barrier id).colls.takeWhile (fun y => y.id != 1) = [] by decide +kernel]; simp
theorem wit_coll_start (x : Coll) (h : x ∈ starting.colls) : NextToRun starting x ∧ findColl starting x.ctx x.gid = some { twoMembers with seq := 8 } ∧
    ∀ i ∈ sentFor starting x, i.member ∉ twoMembers.down := by
  rw [show starting.colls = [{ issuedColl collective .bar 0 0 5 0 0 0 0x66 with st := .accepted, seq := 7, acc := 2 }] by decide +kernel] at h
  obtain rfl := List.mem_singleton.mp h
  exact ⟨⟨rfl, by decide +kernel⟩, by decide +kernel, by decide⟩
theorem test_coll_accept : (out (exec .collAccept (barrier id))).colls.map (fun x => (x.st, x.seq)) = [(.accepted, 7)] ∧
    (out (exec .collAccept (barrier id))).collGroups.map (·.seq) = [8] ∧
    (out (exec .collAccept (declaring id))).collGroups = [twoMembers, ⟨1, 9, 1, 2, 1, 100, [3, 255], [], 1⟩] := by decide +kernel
theorem test_coll_start : let s := out (exec .collAccept starting)
    s.colls.map (·.st) = [.running] ∧ s.collIn.map (fun i => (i.seq, i.member, i.ans.f)) = [(7, 1, 7)] ∧ (s.links.get 3).queue.length = 1 := by
  decide +kernel
/-- The barrier runs; member 0 has answered or not. -/
def running (l : List Nat) : State :=
  let s := barrier fun x => { x with st := .running, seq := 7, heard := [(0, 0), (1, 0)] }
  { s with collIn := l.map fun k => ⟨1, 5, 7, k, ⟨7, 0, 0, [], []⟩⟩ }
/-- ALLREDUCE.o of four FP32 elements runs; member 0 has sent ones, and this device, member 1, twos. -/
def reducing : State :=
  let s := out (exec (.collArO 2 6 3 2 1) collective)
  { s with colls := s.colls.map (fun x => { x with st := .running, seq := 7 }), ev := .key 1,
           collIn := [⟨1, 5, 7, 0, ⟨4, 4, 0, [], List.replicate 4 0x3F80_0000⟩⟩, ⟨1, 5, 7, 1, ⟨4, 4, 0, [], List.replicate 4 0x4000_0000⟩⟩] }
theorem elemsHeld : ((List.range 4).all fun j => heldCheck reducing 0 1 (0x4000 + 4 * j) .write (Config.hdmBase + 0x4000 + 4 * j)) = true := by
  decide +kernel
theorem wit_coll_write (x : Coll) (h : x ∈ reducing.colls) : Writable reducing x twoMembers 4 0x4040
    (fun j => Config.hdmBase + 0x4000 + 4 * j) (fun b => Config.hdmBase + 0x4040 + 2 * b) := by
  rw [show reducing.colls = [{ issuedColl collective .arO 0x3000 0x4000 5 4 0 0 0x66 with st := .running, seq := 7 }] by decide +kernel] at h
  obtain rfl := List.mem_singleton.mp h
  constructor
  case sound => exact ⟨⟨rfl, rfl⟩, by decide +kernel⟩
  case elems => exact fun j hj => ⟨heldAt_of (List.all_eq_true.mp elemsHeld j (List.mem_range.mpr hj)), noTable_of (by rfl)⟩
  case masks => intro b hb; obtain rfl : b = 0 := by omega
                exact ⟨heldAt_of (by decide +kernel), noTable_of (by rfl)⟩
  all_goals decide +kernel
/-- 1 + 2 = 3 in the first element, and both members in the mask. -/
theorem test_coll_write : let s := out (exec .collPost reducing)
    [(0x4000, 4), (0x400C, 4), (0x4040, 2)].map (fun (a : Nat × Nat) => memRead s.mem (Config.hdmBase + a.1) a.2) = [0x4040_0000, 0x4040_0000, 3] ∧
    s.colls.map (·.status) = [3] := by decide +kernel
theorem wit_coll_done (x : Coll) (h : x ∈ (running [1, 0]).colls) : x.st = .running ∧ x.fn = .bar ∧ x.c = 0 ∧ x.fault = false ∧
    findColl (running [1, 0]) x.ctx x.gid = some twoMembers ∧
    ∀ k < 2, k = twoMembers.rank ∨ k ∈ twoMembers.down ∨ ∃ i ∈ sentFor (running [1, 0]) x, i.member = k := by
  revert x
  decide +kernel
theorem wit_coll_post : let s := barrier fun x => { x with st := .posting, status := 3 }
    s.colls.map (fun x => (tileOf? x.hart, tileTarget s x.ctx 0 0)) = [(some 0, .ok 0 0)] ∧ stopped s 0 = false ∧ (getTile s 0).mbox.length < 32 := by
  decide +kernel
theorem wit_coll_answer : ∀ g ∈ (running [1]).collGroups, g.ctx = 1 → g.gid = 5 → 0 ∉ g.down := by decide +kernel
theorem wit_coll_silent : let s := { running [1] with cycle := 240000 }
    s.colls.map (fun x => (alGet x.heard 0, (sentFor s x).map (·.member))) = [(some 0, [1])] ∧ 0 + 2400 * twoMembers.tmo ≤ s.cycle := by decide +kernel
theorem test_coll_end : (out (exec .collPost (running [1, 0]))).colls.map (fun x => (x.st, x.status)) = [(.posting, 3)] ∧
    (getTile (out (exec .collPost (barrier fun x => { x with st := .posting, status := 3 }))) 0).mbox = [⟨0x66, 3, true, none⟩] := by decide +kernel
theorem test_coll_member : (out (exec .collMemberAnswer { running [1] with ev := .coll 1 5 7 0 ⟨7, 0, 0, [], []⟩ })).collIn.map (·.member) = [1, 0] ∧
    (out (exec .collMemberTimeout { running [1] with cycle := 240000, ev := .collMember 1 0 })).collGroups.map (·.down) = [[0]] := by decide +kernel

theorem wit_tlbinv : (let s := supRegs [(1, 0), (2, 0x4000)]
    let found h va := tlbFind (s.dies.get (hartDie s.cur)) h (hartCtx s s.cur) va
    (me s).out = [] ∧ cut (rg (me s) 1).toNat 2 14 = 0 ∧ cut (rg (me s) 1).toNat 0 2 ≠ 3 ∧ alGet s.ctxs (hartCtx s s.cur) = some loadCtx ∧
      canonical loadCtx.tfd 0x4000 = true ∧ canonical loadCtx.tfd (2 ^ 60) = false ∧ found (.tile 0) 0x4000 = some (leaf (.tile 0)) ∧
      found (.tile 0) (2 ^ 39) = none ∧ found (.cluster (clusterOf 0)) (2 ^ 39) = none ∧ (s.dies.get (hartDie s.cur)).wcache = [] ∧
      (walk s loadCtx (2 ^ 39)).1 = .absent) ∧
    ∀ r ∈ [([gId 2, gId 1], []), ([gId 2], [gId 3])], Issues (supRegs [(1, 0), (2, 0x4000)]) threadOnly r.1 r.2 :=
  ⟨by decide +kernel, issues_all (by decide +kernel)⟩
theorem test_tlbinv : ((out (exec (.tlbinv 1 2) (supRegs [(1, 0), (2, 0x4000)]))).dies.get 2).tlb = [] ∧
    ((out (exec (.tlbinv 1 2) (supRegs [(1, 0x2_0001), (2, 0x4000)]))).dies.get 2).tlb.length = 4 ∧
    gOf (exec (.tlbprobe 3 2) (supRegs [(2, 0x4000)])) 3 = 495 + Config.hdmBase + 0x4000 := by decide +kernel

theorem wit_lkctl : ∀ w ∈ [0, 16 + 4 * 2 ^ 16 + 50 * 2 ^ 32, 2], let s := supRegs [(1, 3 + 16), (2, w)]
    (s.cur = .tile 0 0 ∧ (me s).sup = true) ∧ issuesCheck s threadOnly [gId 1, gId 2] [gId 3] = true := by decide +kernel
theorem test_lkctl : gOf (exec (.lkctlStatus 3 1 2) (linked (supRegs [(1, 3)]))) 3 = 2 + 2 * 4 + 8 * 16 + 255 * 256 + 8 * 2 ^ 16 ∧
    ((out (exec (.lkctlStatus 3 1 2) (linked (supRegs [(1, 3 + 16), (2, 16 + 4 * 2 ^ 16 + 60 * 2 ^ 32)])))).links.get 3).hold = 60 ∧
    ((out (exec (.lkctlStatus 3 1 2) (linked (supRegs [(1, 3 + 32), (2, 2)])))).links.get 3).maxw = 2 ∧
    ((out (exec (.lkctlStatus 3 1 2) (linked (supRegs [(1, 3 + 48)])))).links.get 3).st = .training := by decide +kernel

/-- A report queue of 2^5 records at 0x6000, its records from 0x7000, of which 33 have been made and 2 taken. -/
def reporting : State :=
  onTile 0 (fun x => { x with repq := 0x6000 }) (withMem [(0x6000, 64, 0x7000 + 5 * 2 ^ 64 + 33 * 2 ^ 128 + 2 * 2 ^ 192)]
    (supRegs [(1, 0xAB), (2, 0xCD)]))
theorem wit_report : (let s := reporting
    let h := memRead s.mem (Config.hdmBase + 0x6000) 64
    (me s).sup = true ∧ s.reports = [] ∧ s.gfe = [] ∧ s.gqWait = [] ∧ s.gPoison = [] ∧ s.gLatent = [] ∧ Memory.wf s.mem = true ∧
      (getTile s 0).repq.toNat / 64 * 64 = 0x6000 ∧ cut h 0 6 = 0 ∧ cut h 64 16 = 5 ∧ cut h 80 48 = 0 ∧ cut h 400 112 = 0 ∧
      cut h 128 64 < cut h 192 64 + 2 ^ 5) ∧ Here reporting 0 0 ∧ Issues reporting threadOnly [gId 1, gId 2] [] ∧
    ∀ r ∈ [(0x6000, .readWrite), (0x7040, .write)], HeldAt reporting (dieOf 0) (getTile reporting 0).ctx r.1 r.2 (Config.hdmBase + r.1) :=
  ⟨by decide +kernel, ⟨rfl, by decide⟩, issues_of (by decide +kernel), fun r hr => heldAt_of (List.all_eq_true.mp (by decide +kernel :
    ([(0x6000, .readWrite), (0x7040, .write)].all fun r => heldCheck reporting (dieOf 0) (getTile reporting 0).ctx r.1 r.2 (Config.hdmBase + r.1)) = true)
      r hr)⟩
/-- The queue full: 34 made, 2 taken, of 2^4 places. -/
theorem test_report_lost : let s := out (exec (.report 2 1) (withMem [(0x6008, 8, 4)] reporting))
    [(0x6020, 8), (0x6010, 8)].map (fun (a : Nat × Nat) => memRead s.mem (Config.hdmBase + a.1) a.2) = [1, 33] := by decide +kernel
theorem test_report : let s := out (exec (.report 2 1) { reporting with cycle := 24 })
    [(0x7040, 1), (0x7048, 8), (0x7050, 8), (0x7058, 8), (0x7068, 8), (0x6010, 8), (0x6028, 8)].map (fun (a : Nat × Nat) =>
      memRead s.mem (Config.hdmBase + a.1) a.2) = [11, 0x1_0000, 0xAB, 10, 0xCD, 34, 34] := by decide +kernel

/-! ## Events (R50, R57, R60, R64, R77, R84, R98, R99, R142, R148, R253, R280, R284, R285, R301, R323 to R329, R334, R341 to R347) -/

/-- A product on its way to g3, due in cycle 8. -/
def multiplied : State := { out (exec (.mul 0 3 1 2) (withRegs [(1, 6), (2, 7)])) with ev := .op (.tile 0 0) 0, cycle := 8 }
theorem wit_long_op : OpDue multiplied (.tile 0 0) 0 ((me multiplied).out.headD (longOp [])) ∧
    (me multiplied).out.map (fun o => (o.fx, o.win, o.wbs.map (·.reg))) = [(.none, [], [gId 3])] ∧ ownReg (gId 3) :=
  ⟨opDue_of (by decide +kernel), by decide +kernel, (by decide : 3 < 32)⟩
/-- MZERO of c1, due. -/
def zeroed : State := { out (exec (.mzero 0 1 false) (mk id)) with ev := .op (.tile 0 0) 0, cycle := 1000 }
/-- An atomic with acquire order behind which a product is outstanding. -/
def fenced : State := { out (exec (.amoAddW .l .acq .tile 4 1 2) (modMe multiplied (regs [(2, 0x40)]))) with ev := .op (.tile 0 0) 0, cycle := 8 }
theorem wit_fence_end : (me fenced).status = .parked (.fence 0x1_0008) ∧
    (me fenced).out.map (fun o => (o.await, decide (o.due ≤ 8), o.fx, o.win)) = [(.time, true, .none, [])] := by decide +kernel
theorem test_long_op : rg (me (out (exec .longOpComplete multiplied))) 3 = 42 ∧ (me (out (exec .longOpComplete multiplied))).out = [] ∧
    (me multiplied).gF.getLsbD 3 = false ∧ (me (out (exec .longOpComplete multiplied))).gF.getLsbD 3 = true ∧
    (getTile zeroed 0).cF = 0xFFFD ∧ (getTile (out (exec .longOpComplete zeroed)) 0).cF = 0xFFFF ∧
    (me (out (exec .longOpComplete fenced))).pc = 0x1_0008 := by decide +kernel

def waitingAs (st : Status) : State :=
  { mk (fun h => { h with status := st, wlim := 2, gF := 0xFFFF_FFF7 }) with ev := .hart (.tile 0 0), cycle := 512 }
theorem wit_waits : hazard (me (waitingAs (.parked (.reg (gId 3))))) (gId 3) = false ∧
    regFull (waitingAs (.parked (.reg (gId 3)))) (.tile 0 0) (gId 3) = false ∧
    ∀ r ∈ [Reason.reg (gId 3), .ring 0x1_0004 0, .word .m 0x40, .wordRetry .m 0x40 600, .wordAgain .m 0x40 0, .held 1 true .m 0x40 0],
      waitOver (waitingAs (.parked r)) (.tile 0 0) ∧ placeRuns (waitingAs (.parked r)) (.tile 0 0) := by
  refine ⟨by decide +kernel, by decide +kernel, fun r hr => ?_⟩
  simp only [List.mem_cons, List.not_mem_nil, or_false] at hr
  rcases hr with rfl | rfl | rfl | rfl | rfl | rfl <;> exact ⟨⟨by decide +kernel, by decide +kernel⟩, fun t h => by cases h; decide +kernel⟩
theorem test_waits : causeOf (exec .registerWaitLimit (waitingAs (.parked (.reg (gId 3))))) = 0x33 ∧
    causeOf (exec .feWaitLimit (waitingAs (.parked (.word .m 0x40)))) = 0x31 ∧
    (me (out (exec .registerWaitLimit { waitingAs (.parked (.reg (gId 3))) with cycle := 511 }))).status = .parked (.reg (gId 3)) := by decide +kernel
theorem test_retries : (me (out (exec .parkDeadline (waitingAs (.parked (.deadline 213)))))).status = .ready ∧
    (me (out (exec .parkDeadline (waitingAs (.parked (.deadline 214)))))).status = .parked (.deadline 214) ∧
    (me (out (exec .putrRetry (waitingAs (.parked (.putrRetry 512)))))).status = .ready ∧
    (me (out (exec .feListFullRetry (waitingAs (.parked (.wordRetry .l 8 500)))))).status = .parked (.wordRetry .l 8 0) := by decide +kernel
theorem test_illegal : (fun h => (h.status, h.tcause, h.tval, h.tepc)) (me (out (exec .illegalInstruction { withRegs [] with iword := 0xFFFF }))) =
    (.trapped, 0, 0xFFFF, 0x1_0000) := by decide +kernel

/-- Nothing translated; a walk of a page that is there, and of one that is not. -/
def walking (va : Word) (need : Need) : State := { base with ev := .walk 2 1 va need }
theorem wit_walk : alGet base.ctxs 1 = some loadCtx ∧ permits loadTfd loadPte .write = true ∧ canonical loadTfd 0x1234 = true ∧
    (base.dies.get 2).wcache = [] ∧ Memory.wf base.mem = true ∧ (base.dies.get 2).preqMore = [] ∧ (base.dies.get 2).preq = [] ∧
    (match (walk (walking 0x1234 .write) loadCtx 0x1234).1 with
      | .leaf l => l.pte == loadPte && l.lvl == 3
      | _ => false) = true ∧
    (walk (walking (w64 (2 ^ 39)) .read) loadCtx (2 ^ 39)).1 = .absent := by decide +kernel
theorem test_walk : ((out (exec .pageWalk (walking 0x1234 .write))).dies.get 2).tlb.map (fun e => (e.ctx, e.lvl, e.frame, e.pte)) =
      [(1, 3, Config.hdmBase / 4096, loadPte)] ∧
    ((out (exec .pageWalk (walking (w64 (2 ^ 39)) .read))).dies.get 2).preq = [⟨1, 2 ^ 27⟩] := by decide +kernel
def asked (ans : PageAnswer) : State :=
  { mk (fun h => { h with status := .parked (.page 1 7) }) with
    dies := Vector.replicate 4 { Die.reset with
      preq := [⟨1, 7⟩, ⟨1, 8⟩], preqMore := [⟨1, 9⟩], dir := [5], tlb := [⟨.die, 1, 0, 0, 1, 1, [5]⟩, ⟨.tile 3, 1, 9, 0, 2, 1, [6]⟩] }
    ev := .page 0 1 7 ans }
theorem wit_page_answer : (⟨1, 7⟩ : PageReq) ∈ ((asked .success).dies.get 0).preq ∧ dieOf 0 = 0 ∧
    (getHart (asked .invalid) (.tile 0 0)).status = .parked (.page 1 7) ∧ hartDie (.tile 0 0) = 0 ∧ 5 ∈ ((asked .success).dies.get 0).dir := by
  decide +kernel
theorem test_page_answer : ((out (exec .pageResponse (asked .success))).dies.get 0).preq = [⟨1, 8⟩, ⟨1, 9⟩] ∧
    (me (out (exec .pageResponse (asked .invalid)))).refused = some 7 ∧
    ((out (exec .tableLineSnoop { asked .success with ev := .key 5 })).dies.get 3).tlb = [⟨.tile 3, 1, 9, 0, 2, 1, [6]⟩] := by decide +kernel

/-- A hart that is ready; tile 0 waits at its step for tile 1, whose slot 0 has not arrived, since cycle 0, with a stepwatch of 1 µs. -/
def ready : Hart := { Hart.reset with status := .ready }
def held : State :=
  onTile 1 (fun x => { x with stepmask := 1, harts := x.harts.set 0 ready }) (onTile 0 (fun x =>
    { x with stepmask := 1, arrived := 1, waitSince := some 0, stepwatch := 1, repq := 0x6000, step := 9 })
      (pair { mk id with groups := [{ loadGroup with h := 1 }], cycle := 2400, ev := .tile 0 }))
theorem wit_stepwatch : stepwatchDue held 0 = true := by decide +kernel
theorem test_stepwatch : (out (exec .stepwatchReport held)).reports.map (fun r => (r.repq, cut r.data 0 8, cut r.data 256 64, cut r.data 320 64)) =
    [(0x6000, 2, 4, 9)] := by decide +kernel
def still : State := { mk (fun h => { h with status := .free }) with ev := .tile 0 }
theorem wit_sleep : sleepDue still 0 = true ∧ wakeDue (onTile 0 (fun x => { x with asleep := true }) { mk id with ev := .tile 0 }) 0 = true := by
  decide +kernel
theorem test_sleep : (getTile (out (exec .tileSleep still)) 0).asleep = true ∧ (getTile (out (exec .tileSleep { mk id with ev := .tile 0 })) 0).asleep = false ∧
    (fun x => (x.asleep, x.wakeAt)) (getTile (out (exec .tileWake (onTile 0 (fun x => { x with asleep := true, sleepDepth := 1 })
      { mk id with ev := .tile 0 }))) 0) = (false, 64) := by decide +kernel
def busy : State :=
  { onTile 0 (fun x => { x with lvl := true, level := 4096, work := [⟨1, 1, none⟩, ⟨2, 2, none⟩, ⟨3, 3, none⟩, ⟨4, 4, none⟩] }) (pair (mk id)) with ev := .tile 0 }
theorem wit_level : levelDue busy 0 = true ∧ leastNeighbour busy 0 = some 1 ∧ (getTile busy 1).work.length + 2 ≤ (getTile busy 0).work.length := by
  decide +kernel
theorem test_level : (fun s => ((getTile s 0).work.map (·.x), (getTile s 1).work.map (·.x))) (out (exec .levellerTick busy)) =
    ([1, 2], [3, 4]) := by decide +kernel
def barred : State :=
  let f (x : Tile) : Tile :=
    { x with stepmask := 1, barArr := x.barArr.set 1 1, barSince := x.barSince.set 1 (some 0), stepwatch := 1, gen := x.gen.set 1 6 }
  { onTile 0 f (mk fun h => { h with status := .parked (.bar .qbar 0 0) }) with cycle := 2400, ev := .kindTile .qbar 0 }
theorem wit_barwatch : barWatchDue barred .qbar 0 = true := by decide +kernel
theorem test_barwatch : (out (exec .barrierWaitReport barred)).reports.map (fun r => (cut r.data 0 8, cut r.data 256 64, cut r.data 320 64)) = [(3, 6, 1)] := by
  decide +kernel
def blocked : State :=
  { mk id with
    msgs := [⟨4, .tile 0 0, 1, 1, .post ⟨0, 0, false, none⟩ 0 0, 0, false, false, []⟩, ⟨5, .tile 0 1, 1, 1, .post ⟨0, 0, false, none⟩ 0 0, 69999, false, false, []⟩]
    cycle := 70000, ev := .msg 4 }
theorem wit_escape : (getTile blocked 0).escwait.toNat ≤ 70000 ∧ (out (exec .escapeEntry blocked)).msgs.map (fun m => (m.id, m.escape)) =
    [(4, true), (5, false)] := by decide +kernel
theorem test_escape : (out (exec .escapeEntry { out (exec .escapeEntry blocked) with ev := .msg 5 })).msgs.map (·.escape) = [true, true] := by
  decide +kernel
/-- An uncorrectable error in the line that die 1's darner checks next. -/
def darning : State :=
  { base with gLatent := [(Config.hdmBase / 64 + 128 + 5, true)], cycle := 2 ^ 40,
              dies := base.dies.set 1 { Die.reset with darn := 5 }, ev := .die 1 }
theorem wit_darn : darnDue darning 1 = true := by decide +kernel
theorem test_darn : (out (exec .darnerLine darning)).gPoison = [Config.hdmBase / 64 + 133] ∧
    ((out (exec .darnerLine darning)).dies.get 1).darn = 6 ∧ ((out (exec .darnerLine darning)).dies.get 1).err.mue = 1 := by decide +kernel
theorem test_power_down : (out (exec .homeChannelPowerDown { base with cycle := 2400, lastReq := [(3, 1)] })).chanDown.length = 127 ∧
    (out (exec .selfRefreshEntry { base with cycle := 24001, lastReq := [(3, 1)] })).selfRefresh.length = 128 := by decide +kernel

/-! ### The device, its host and its links -/

theorem wit_bring_up : State.reset.boot = 0 ∧ State.reset.stacksOk = true ∧ trainable (State.reset.ports.get 0) ∧
    imageFault { State.reset with images := [⟨0, 0, 0, 0, Config.sha3 0 0 + 1, 0, none⟩] } ⟨0, 0, 0, 0, Config.sha3 0 0 + 1, 0, none⟩ ≠ 0 :=
  ⟨rfl, rfl, ⟨3, 31, rfl, by decide, by decide⟩, by simp [imageFault]⟩
/-- No image to check, and a port that trains; a fault of a stack; no host. -/
theorem test_bring_up : (fun s => (s.boot, (s.ports.get 1).up, (s.ports.get 1).ver)) (out (exec .bringUp { State.reset with images := [] })) = (1, true, 3) ∧
    (fun s => (s.boot, s.fcode)) (out (exec .bringUp { State.reset with images := [], stacksOk := false })) = (2, 4) ∧
    (fun s => (s.boot, s.fcode)) (out (exec .bringUp { State.reset with images := [], ports := Vector.replicate 2 ⟨false, 0, 0, none, []⟩ })) = (2, 5) := by
  decide +kernel
theorem test_attestation : (out (exec .attestationStart { base with nonce := 7, devid := 3 })).attest = some (7, 3) ∧
    (out (exec .attestationStart { base with abusy := true })).aerr = true := by decide +kernel
/-- The parts of the report in bytes: nonce, devid, digest and version of each loaded image, key, signature. -/
theorem test_attestation_report : (out (exec .attestationDone { base with abusy := true, attest := some (7, 3), images := [⟨1, 2, 0, 0, 0, 0, some 1⟩, ⟨2, 2, 0, 0, 0, 0, none⟩] })).report.map (·.map (·.1)) =
    some [32, 2, 32, 4, 1312, 2420] := by decide +kernel

/-- Port 0 is up, port 1 is down; and the other way round. -/
def ported (a b : Bool) : State := { mk id with ports := #v[⟨a, 3, 31, some (3, 31), []⟩, ⟨b, 3, 31, some (3, 31), []⟩] }
theorem wit_ports : ViaPort (ported true false) 0 ∧ ViaPort (ported false true) 1 ∧ isDevice at8000 = true ∧ isDevice 0x1000 = false :=
  ⟨.inl (by decide +kernel), .inr (by decide +kernel), by decide +kernel, by decide +kernel⟩
theorem test_thermal : (fun s => (s.trip, s.msix)) (out (exec .thermalTrip { ported true false with tvec := 9, ev := .dieSensor 1 2 })) =
      (true, [(9, 0, none)]) ∧
    (fun s => (s.trip, s.msix)) (out (exec .thermalTrip { ported false true with tvec := 9, ev := .hot [(1, 2)] })) = (true, [(9, 1, none)]) ∧
    (out (exec .tripClear { base with trip := true })).trip = false ∧
    (out (exec .tripClear { base with trip := true, dies := base.dies.set 1 { Die.reset with hot := Vector.replicate 4 true } })).trip = true := by decide +kernel
theorem test_registers : (out (exec .registerWrite { base with ev := .reg 0 0x0005_0000 })).devid = 5 ∧
    (out (exec .registerWrite { base with ev := .reg 0x48 9 })).nonce = 9 * 2 ^ 64 ∧
    ((out (exec .registerWrite { base with ev := .reg 0x1_0138 48 })).dies.get 1).err.dper = 48 ∧
    (out (exec .registerWrite { base with ev := .reg 8 0x0003_0001 })).abusy = true := by decide +kernel
/-- R325, R345: devstat with boot 1 and TRIP, and die 1's lcrc. -/
theorem test_register_reads : (out (exec .registerWrite { base with boot := 1, trip := true, ev := .regRead 0 })).hostGot = some (.data 0x101 false) ∧
    (out (exec .registerWrite { base with dies := base.dies.set 1 { Die.reset with err := { Die.reset.err with lcrc := 5 } }, ev := .regRead 0x1_0120 })).hostGot =
      some (.data 5 false) := by decide +kernel
theorem test_ide_key : ((out (exec .registerWrite { ported true true with ev := .ideKey 1 0 77 })).ports.get 1).keys = [(0, 77)] ∧
    (out (exec .registerWrite { ported true false with ev := .ideKey 1 0 77 })).hostGot = some .unsupported := by decide +kernel
theorem test_host_port : ((out (exec .hostPortDown { ported true true with ev := .key 1 })).ports.get 1).up = false := by decide +kernel

def hosted (e : EvData) : State := { withMem [(0x8000, 4, 0x1122_3344)] (ported true false) with hostHeld := [5], ev := e }
theorem test_host : memRead (out (exec .hostMemAccess (hosted (.hostMem at8000 4 (some 9) false)))).mem at8000 4 = 9 ∧
    (out (exec .hostMemAccess (hosted (.hostMem at8000 4 none false)))).hostGot = some (.data 0x1122_3344 false) ∧
    (out (exec .hostMemAccess (hosted (.hostMem at8000 4 (some 9) true)))).gPoison = [at8000 / 64] ∧
    (out (exec .hostLineSnoop (hosted (.key 5)))).hostHeld = [] := by decide +kernel
/-- R123: the host's addition; R259: a read of the alias region; R324: an address outside the range. -/
theorem test_host_more : memRead (out (exec .hostMemAccess (hosted (.hostAdd at8000 4 1)))).mem at8000 4 = 0x1122_3345 ∧
    (out (exec .hostMemAccess (hosted (.hostMem (aliasAt 8) 8 none false)))).hostGot = some (.data 0 false) ∧
    (out (exec .hostMemAccess (hosted (.hostMem 0x1000 4 none false)))).hostGot = some .unsupported ∧
    (out (exec .hostLineSnoop (hosted (.hostMem 0x140 4 (some 7) false)))).hostHeld = [] := by decide +kernel
/-- The arm alias of queue 2 of context 1, whose table is at 0x9000. -/
def arming (off size : Nat) : State :=
  let f (c : Ctx) : Ctx := { c with qbase := 0x9000, qcnt := 4 }
  { mapped base with ctxs := [(1, f loadCtx)], gEmpty := [(Config.hdmBase + 0x9080) / 8], ev := .armStore (1 * 2 ^ 16 + off) size 77 }
theorem wit_arm : (alGet (arming 16 8).ctxs 1 = some { loadCtx with qbase := 0x9000, qcnt := 4 } ∧ (arming 16 8).gfe = []) ∧
    HeldAt (arming 16 8) 0 1 ((0x9000 + 64 * 2) % 2 ^ 64) .write (Config.hdmBase + 0x9080) := ⟨by decide +kernel, heldAt_of (by decide +kernel)⟩
theorem test_arm : memRead (out (exec .armAliasStore (arming 16 8))).mem (Config.hdmBase + 0x9080) 8 = 77 ∧
    (out (exec .armAliasStore (arming 16 8))).gEmpty = [] ∧ (out (exec .armAliasStore (arming 32 8))).reports.map (fun r => cut r.data 0 8) = [8] := by
  decide +kernel
theorem test_reward_window : let s := { arming 0 8 with ev := .window (1 * 2 ^ 16 + 0x8FC0) 64 [0x1000, 0x0003_0000_0000_0002, 0x4000_0000] }
    ((out (exec .rewardWindowWrite s)).dies.get 2).arrivals.map (fun a => (a.msg.dom, a.msg.id, a.msg.step, a.msg.reward)) =
      [(0x1000, 2, 3, 0x4000_0000)] := by decide +kernel

/-- Link 3 as `f` makes it. -/
def linkAs (f : Link → Link) : State :=
  { base with
    links := base.links.set 3 (f { Link.reset with st := .up, ver := 3, width := 4, rxWidth := 4, good := 255, maxw := 8 })
    cycle := 240_000_000, ev := .link 3 }
theorem wit_links : (let x := (linkAs id).links.get 3
    widest x = 8 ∧ x.queue = [] ∧ x.wake = none ∧ x.rcvd + 24_000 ≤ 240_000_000 ∧ x.sent + 2400 ≤ 240_000_000 ∧ x.st = .up) ∧
    widest ((linkAs fun x => { x with maxw := 2 }).links.get 3) = 2 ∧
    ((linkAs fun x => { x with st := .training }).links.get 3).st = .training := by decide +kernel
/-- What waits for an answer through link 3. -/
theorem wit_link_waits : remote.rewards.map (fun r => (r.link, r.hart)) = [(3, .tile 0 0)] ∧ (getHart remote (.tile 0 0)).status = .parked (.remote 1) := by
  decide +kernel
theorem test_link_time : (fun x => (x.st, x.downs)) ((out (exec .linkTrainingTimeout (linkAs fun x => { x with st := .training }))).links.get 3) = (.down, 1) ∧
    ((out (exec .linkIdleTimeout (linkAs id))).links.get 3).st = .down ∧
    (out (exec .idleFlitSend (linkAs id))).sentFlits = [(3, .idle)] ∧
    ((out (exec .linkWiden (linkAs fun x => { x with wideSince := some 239_997_600 }))).links.get 3).wake = some 240_004_800 := by decide +kernel
/-- R329: the width flit goes behind a flit that is partly sent, and the width changes once it has left. -/
theorem test_link_width : let q : List FlitBody := [.rewardAnswer (.tile 0 0)]
    (fun x => (x.width, x.queue)) ((out (exec .wakeComplete (linkAs fun x => { x with wake := some 5, queue := q, part := 3 }))).links.get 3) =
      (4, q ++ [.widen]) ∧
    (fun x => (x.width, x.queue)) ((out (exec .linkNarrow (linkAs fun x => { x with maxw := 2, queue := q }))).links.get 3) = (4, .narrow :: q) ∧
    ((linkCycle (linkAs fun x => { x with queue := [.widen], part := 4 }) 3).links.get 3).width = 8 := by decide +kernel
theorem test_link_train : ((out (exec .widthFlitReceive { linkAs id with ev := .widthFlit 3 true })).links.get 3).rxWidth = 8 ∧
    (fun x => (x.st, x.ver, x.width, x.peer, x.peerWaves)) ((out (exec .linkTrainingDone { linkAs (fun x => { x with st := .training }) with
      ev := .trained 3 0x07 2 6 8 })).links.get 3) = (.up, 2, 2, 6, 8) := by decide +kernel
def flitted (f : Flit) : State := out (exec .flitReceive { linkAs id with ev := .flit 3 f })
theorem test_flit : ((flitted ⟨true, true, true, [], .reward ⟨1, 0x1000, 4, 0, 7⟩ (.tile 5 5)⟩).links.get 3).rcvd = 240_000_000 ∧
    ((flitted ⟨true, true, true, [], .reward ⟨1, 0x1000, 4, 0, 7⟩ (.tile 5 5)⟩).dies.get 0).arrivals.map (·.link) = [some (3, .tile 5 5)] ∧
    ((flitted ⟨true, false, false, [], .reward ⟨1, 0x1000, 4, 0, 7⟩ (.tile 5 5)⟩).links.get 3).queue = [.lost (.tile 5 5)] ∧
    ((flitted ⟨false, false, true, [], .idle⟩).dies.get 0).err.lcrc = 1 := by decide +kernel
/-- R328: byte 9 of a flit at width 4 lies on wavelength 1. -/
theorem test_flit_lane : ((flitted ⟨false, true, true, [9], .idle⟩).links.get 3).fails = [(1, 240_000_000)] := by decide +kernel

/-! ## Sets of the harts, issue, traps, encodings (R34 to R68) -/

theorem wit_sets : (encode (.ldm 0 1 .word 2 3)).isSome = true ∧ engineIllegal (kindOf (mender id).cur) (.ldm 0 1 .word 2 3) = true ∧
    (encode (.add 3 4 5)).isSome = true ∧ engineIllegal (kindOf (sequencer id).cur) (.add 3 4 5) = true ∧
    (encode (.csrr 1 0x200)).isSome = true ∧ engineIllegal (kindOf (sequencer id).cur) (.csrr 1 0x200) = true ∧ csrListed 0x200 = true ∧
    csrListed 0x3FF = false ∧ isSup (withRegs []) = false ∧ csrNamed (.csrw 0x200 1) = some 0x200 := by decide +kernel
theorem test_sets : (me (out (exec (.ldm 0 1 .word 2 3) (mender id)))).tcause = 0x0B ∧
    ((getTile (out (exec (.add 3 4 5) (sequencer id))) 0).mbox.map (·.tag)) = [w64 (0xFFFF_FFFF_FFFF_FF00 + 2 * 0x0B)] ∧
    causeOf (exec (.csrr 1 0x200) (withRegs [])) = 0x03 ∧ causeOf (exec (.tlbinv 1 2) (withRegs [])) = 0x03 := by decide +kernel
theorem test_csr_unlisted : (fun h => (h.status, h.tcause)) (me (out (exec (.csrr 1 0x3FF) (supRegs [])))) = (.trapped, 0) := by decide +kernel

theorem wit_issue : regFull (mk fun h => { h with gF := 0xFFFF_FFEF }) (.tile 0 0) (gId 4) = false ∧
    hazard (me (out (exec (.mul 0 3 1 2) (withRegs [])))) (gId 3) = true ∧
    (let s := mk fun h => { h with out := List.replicate 4 { longOp [] with due := 9 } }
     4 ≤ (openOps s.cycle (me s)).length) := by decide +kernel
theorem test_issue : (me (out (exec (.add 3 4 5) (mk fun h => { h with gF := 0xFFFF_FFEF })))).status = .parked (.reg (gId 4)) ∧
    (me (out (exec (.add 3 4 5) (out (exec (.mul 0 3 1 2) (withRegs [])))))).status = .parked (.trap 2 3) ∧
    (me (out (exec (.mul 0 3 1 2) (mk fun h => { h with out := List.replicate 4 { longOp [] with due := 9 } })))).status =
      .parked .outFull := by decide +kernel
theorem wit_frame : ∀ r ∈ aluRows 3 4 5 ++ aluMoreRows 3 4 5 6 ++ immRows 3 4 7 2, Issues (withRegs []) r.ok (r.srcs.map gId) [gId r.dst] :=
  issues_all (by decide +kernel)
/-- The cell of g4, which holds 9, has an error. -/
def flawed (f : Flaw) : State := mk fun h => { regs [(4, 9)] h with flaws := [(.reg (gId 4), f)] }
theorem wit_flawed : ∀ f ∈ [Flaw.soft, .hard, .found], flawAt (me (flawed f)).flaws (.reg (gId 4)) = some f ∧ (me (flawed f)).filled = [] ∧
    regFull (flawed f) (.tile 0 0) (gId 4) = true ∧ (me (flawed f)).status = .ready ∧ (flawed f).reads = [] ∧ hazard (me (flawed f)) (gId 3) = false := by decide +kernel
/-- R296: ADDI with 1: the corrected value; zero and a report; zero and a report again, not counted. -/
theorem test_flawed : [Flaw.soft, .hard, .found].map (fun f =>
      let s := out (settle (.tile 0 0) (me (flawed f)) (exec (.addi 3 4 1) (flawed f)))
      ((rg (me s) 3).toNat, (s.dies.get 0).err.sce, (s.dies.get 0).err.sue, s.reports.length)) = [(10, 1, 0, 0), (1, 0, 1, 1), (1, 0, 0, 1)] := by
  decide +kernel

def trapped (f : Hart → Hart) : State := trapOn (mk f) (.tile 0 0) 0x10 0x44
/-- A handler; none; a handler that has trapped; an operation outstanding; the fault of a sequencer. -/
theorem test_trap : (fun h => (h.pc, h.inh, h.tepc)) (me (trapped fun h => { h with tvec := 0x500 })) = (0x500, true, 0x1_0000) ∧
    (me (trapped id)).status = .trapped ∧ (me (trapped fun h => { h with tvec := 0x500, inh := true })).status = .trapped ∧
    (trapped id).reports.map (fun r => (cut r.data 0 8, cut r.data 8 8, cut r.data 64 64, cut r.data 128 64)) = [(0, 0x10, 0x1_0000, 0x44)] := by
  decide +kernel
theorem test_trap_waits : (me (trapOn (out (exec (.mul 0 3 1 2) (withRegs []))) (.tile 0 0) 0x10 0x44)).status = .parked (.trap 0x10 0x44) ∧
    ((getTile (trapOn (sequencer id) (.tile 0 8) 0x10 0x44) 0).mbox.map fun p => (p.tag, p.payload)) = [(w64 0xFFFF_FFFF_FFFF_FF20, 0)] := by decide +kernel

theorem wit_encode : (WellFormed (.csrr 1 0x200) && (encode (.csrr 1 0x200)).isSome && WellFormed (.cMov 5 6) && (encode (.cMov 5 6)).isSome) = true := by
  decide +kernel
theorem test_no_word : [0x0000_0001, 0x0000_007F, 0x080A_4183].map (decodeTableWord 32) = [none, none, none] ∧ decodeTableWord 16 0 = none := by decide

/-- ADD g3, g4, g5 at the pc, 3 + 4. -/
def fetched : State := modMe (mapped (State.reset.withFetchWord 32 0x000A_4183)) (regs [(4, 3), (5, 4)])
theorem wit_step_run : (pick fetched).1 = .hart (.tile 0 0) ∧ dueTrap (pick fetched).2 (.tile 0 0) = none := by decide +kernel
/-- The ADD holds its slot until its hart's operations are done, and they are. -/
def heldAdd : State := modMe fetched fun h => { h with status := .parked (.slot .drain 0x000A_4183) }
theorem wit_held : (pick heldAdd).1 = .held (.tile 0 0) 0x000A_4183 := by decide +kernel
theorem test_held : (fun s => (rg (me s) 3, (me s).pc, (me s).status)) (match step heldAdd with
    | .next t => t
    | _ => State.reset) = (7, 0x1_0004, .ready) := by decide +kernel
theorem wit_fetch : let s := markIssue (pick fetched).2 (.tile 0 0)
    Fetches s (.tile 0 0) (me s).pc 0x4183 (codeRead s (.tile 0 0) (Config.hdmBase + 0x1_0000) 2).1 := by
  refine ⟨Config.hdmBase + 0x1_0000, atHand_of (by decide +kernel), ?_⟩
  exact Prod.ext rfl (by decide +kernel)
theorem wit_fetch_second : let s := (codeRead (markIssue (pick fetched).2 (.tile 0 0)) (.tile 0 0) (Config.hdmBase + 0x1_0000) 2).1
    Fetches s (.tile 0 0) 0x1_0002 0x000A (codeRead s (.tile 0 0) (Config.hdmBase + 0x1_0002) 2).1 := by
  refine ⟨Config.hdmBase + 0x1_0002, atHand_of (by decide +kernel), ?_⟩
  exact Prod.ext rfl (by decide +kernel)
theorem wit_memory : memWf fetched = true := by decide +kernel
/-- The step reads the word, adds, and a cycle passes; with no translation at hand it is made first. -/
theorem test_step_fetch : (fun s => (rg (me s) 3, (me s).pc, s.cycle)) (match step fetched with
    | .next t => t
    | _ => State.reset) = (7, 0x1_0004, 1) ∧
    (fun s => ((me s).pc, s.cycle)) (match step (State.reset.withFetchWord 32 0x000A_4183) with
    | .next t => t
    | _ => State.reset) = (0x1_0004, 1) := by decide +kernel

end Sys2Proof.Tests
end

section
/-! PROOF of O60: every step keeps every memory in its canonical form (log 4). `memWf` speaks of four places: device and host memory, the
stores of the tiles, the buffers of the menders, and the tiles that a gang switch has saved. A function that writes none of them keeps the
form at once (`keep_wf`); the others write through `memWrite`, `memCopy` and `memZero`, which keep it. Each function of the model from which
a step is made has one lemma, its name with `_wf`, in the order in which the model defines them. -/

namespace Sys2Proof.Machine

set_option Elab.async false

/-! ## The invariant, memory by memory -/

/-- The part of `memWf` that speaks of a gang's context. -/
def ctxMemWf (x : Ctx) : Bool := x.saved.all fun r => tileMemWf r.state

theorem mem_wf {s} (hs : memWf s) : Memory.wf s.mem := by
  simp only [memWf, Bool.and_eq_true] at hs
  exact hs.1.1.1

theorem tiles_wf {s} (hs : memWf s) : ∀ x ∈ s.tiles, tileMemWf x.2 := by
  simp only [memWf, Bool.and_eq_true, List.all_eq_true] at hs
  exact hs.1.1.2

theorem menders_wf {s} (hs : memWf s) : ∀ x ∈ s.menders, Memory.wf x.2.buf := by
  simp only [memWf, Bool.and_eq_true, List.all_eq_true] at hs
  exact hs.1.2

theorem ctxs_wf {s} (hs : memWf s) : ∀ x ∈ s.ctxs, ctxMemWf x.2 := by
  simp only [memWf, Bool.and_eq_true, List.all_eq_true (l := s.ctxs)] at hs
  exact hs.2

/-- `memWf` from its four parts; `mem_wf`, `tiles_wf`, `menders_wf` and `ctxs_wf` take it apart. -/
theorem wf_of {s} (hm : Memory.wf s.mem) (ht : ∀ x ∈ s.tiles, tileMemWf x.2) (hb : ∀ x ∈ s.menders, Memory.wf x.2.buf)
    (hc : ∀ x ∈ s.ctxs, ctxMemWf x.2) : memWf s := by
  simp only [memWf, Bool.and_eq_true, List.all_eq_true (l := s.ctxs), List.all_eq_true (l := s.tiles), List.all_eq_true (l := s.menders)]
  exact ⟨⟨⟨hm, ht⟩, hb⟩, hc⟩

/-- The same where device memory alone is new. -/
theorem withMem_wf {s t} (hs : memWf s) (hm : Memory.wf t.mem) (ht : t.tiles = s.tiles := by rfl) (hb : t.menders = s.menders := by rfl)
    (hc : t.ctxs = s.ctxs := by rfl) : memWf t :=
  wf_of hm (ht ▸ tiles_wf hs) (hb ▸ menders_wf hs) (hc ▸ ctxs_wf hs)

/-- The same where the tiles alone are new. -/
theorem withTiles_wf {s t} (hs : memWf s) (ht : ∀ x ∈ t.tiles, tileMemWf x.2) (hm : t.mem = s.mem := by rfl)
    (hb : t.menders = s.menders := by rfl) (hc : t.ctxs = s.ctxs := by rfl) : memWf t :=
  wf_of (hm ▸ mem_wf hs) ht (hb ▸ menders_wf hs) (hc ▸ ctxs_wf hs)

/-- The same where the menders alone are new. -/
theorem withMenders_wf {s t} (hs : memWf s) (hb : ∀ x ∈ t.menders, Memory.wf x.2.buf) (hm : t.mem = s.mem := by rfl)
    (ht : t.tiles = s.tiles := by rfl) (hc : t.ctxs = s.ctxs := by rfl) : memWf t :=
  wf_of (hm ▸ mem_wf hs) (ht ▸ tiles_wf hs) hb (hc ▸ ctxs_wf hs)

/-- A state whose memories are those of another keeps the form: `rfl` shows the four equations of a record update. -/
theorem keep_wf {s t} (hs : memWf s) (hm : t.mem = s.mem := by rfl) (ht : t.tiles = s.tiles := by rfl)
    (hb : t.menders = s.menders := by rfl) (hc : t.ctxs = s.ctxs := by rfl) : memWf t :=
  wf_of (hm ▸ mem_wf hs) (ht ▸ tiles_wf hs) (hb ▸ menders_wf hs) (hc ▸ ctxs_wf hs)

/-- The same where the contexts alone are new. -/
theorem withCtxs_wf {s t} (hs : memWf s) (hc : ∀ x ∈ t.ctxs, ctxMemWf x.2) (hm : t.mem = s.mem := by rfl)
    (ht : t.tiles = s.tiles := by rfl) (hb : t.menders = s.menders := by rfl) : memWf t :=
  wf_of (hm ▸ mem_wf hs) (ht ▸ tiles_wf hs) (hb ▸ menders_wf hs) hc

theorem mem_of_alGet {α : Type} {l : List (Nat × α)} {k : Nat} {x : α} (h : alGet l k = some x) : (k, x) ∈ l := by
  induction l with
  | nil => simp [alGet] at h
  | cons c r ih =>
    obtain ⟨k', y⟩ := c
    simp only [alGet] at h
    split at h
    · next e => cases h; simp [e]
    · exact List.mem_cons_of_mem _ (ih h)

theorem mem_alSet {α : Type} {l : List (Nat × α)} {k : Nat} {x : α} {p : Nat × α} (h : p ∈ alSet l k x) :
    p ∈ l ∨ p = (k, x) := by
  induction l with
  | nil => simpa [alSet] using h
  | cons c r ih =>
    obtain ⟨k', y⟩ := c
    simp only [alSet] at h
    split at h
    · simp only [List.mem_cons] at h ⊢; tauto
    · split at h
      · simp only [List.mem_cons] at h ⊢; tauto
      · simp only [List.mem_cons] at h ⊢
        rcases h with h | h
        · tauto
        · have := ih h; tauto

theorem getTile_wf {s t} (hs : memWf s) : tileMemWf (getTile s t) := by
  unfold getTile
  cases h : alGet s.tiles t with
  | none => decide
  | some x => exact tiles_wf hs _ (mem_of_alGet h)

theorem setTile_wf {s t x} (hs : memWf s) (hx : tileMemWf x) : memWf (setTile s t x) :=
  withTiles_wf hs fun p hp => (mem_alSet hp).elim (tiles_wf hs p) fun e => e ▸ hx

theorem getMender_wf {s m} (hs : memWf s) : Memory.wf (getMender s m).buf := by
  unfold getMender
  cases h : alGet s.menders m with
  | none => decide
  | some x => exact menders_wf hs _ (mem_of_alGet h)

theorem setMender_wf {s m x} (hs : memWf s) (hx : Memory.wf x.buf) : memWf (setMender s m x) :=
  withMenders_wf hs fun p hp => (mem_alSet hp).elim (menders_wf hs p) fun e => e ▸ hx

theorem tileMemWf_iff {x : Tile} : tileMemWf x ↔ Memory.wf x.l ∧ Memory.wf x.w ∧ Memory.wf x.a ∧ Memory.wf x.c := by
  simp [tileMemWf, and_assoc]

theorem tile_l_wf {x : Tile} (hx : tileMemWf x) : Memory.wf x.l := (tileMemWf_iff.mp hx).1
theorem tile_w_wf {x : Tile} (hx : tileMemWf x) : Memory.wf x.w := (tileMemWf_iff.mp hx).2.1
theorem tile_a_wf {x : Tile} (hx : tileMemWf x) : Memory.wf x.a := (tileMemWf_iff.mp hx).2.2.1
theorem tile_c_wf {x : Tile} (hx : tileMemWf x) : Memory.wf x.c := (tileMemWf_iff.mp hx).2.2.2

/-- A tile whose four stores are those of another keeps the form. -/
theorem keepTile_wf {x y : Tile} (hx : tileMemWf x) (hl : y.l = x.l := by rfl) (hw : y.w = x.w := by rfl)
    (ha : y.a = x.a := by rfl) (hc : y.c = x.c := by rfl) : tileMemWf y :=
  tileMemWf_iff.mpr ⟨hl ▸ tile_l_wf hx, hw ▸ tile_w_wf hx, ha ▸ tile_a_wf hx, hc ▸ tile_c_wf hx⟩

theorem getCtx_wf {s c x} (hs : memWf s) (h : alGet s.ctxs c = some x) : ctxMemWf x := ctxs_wf hs _ (mem_of_alGet h)

/-- A context changes, but for the tiles that are saved of it. -/
theorem setCtx_wf {s t c x y} (hs : memWf s) (hx : ctxMemWf x) (hc : t.ctxs = alSet s.ctxs c y := by rfl) (hy : y.saved = x.saved := by rfl)
    (hm : t.mem = s.mem := by rfl) (ht : t.tiles = s.tiles := by rfl) (hb : t.menders = s.menders := by rfl) : memWf t := by
  have hy : ctxMemWf y := by unfold ctxMemWf; exact hy ▸ hx
  exact withCtxs_wf hs (hc ▸ fun p hp => (mem_alSet hp).elim (ctxs_wf hs p) fun e => e ▸ hy) hm ht hb

theorem ctxMemWf_filter {x : Ctx} {f} (hx : ctxMemWf x) : ctxMemWf { x with saved := x.saved.filter f } :=
  List.all_eq_true.mpr fun r hr => List.all_eq_true.mp hx r (List.mem_filter.mp hr).1

theorem Tile.reset_wf : tileMemWf Tile.reset := by decide

theorem ite_wf {c : Prop} [Decidable c] {s t : State} (hs : memWf s) (ht : memWf t) : memWf (if c then s else t) := by
  split <;> assumption

theorem ite_safe {c : Prop} [Decidable c] {s t : Out} (hs : safeOut s) (ht : safeOut t) : safeOut (if c then s else t) := by
  split <;> assumption

theorem ite_tile {c : Prop} [Decidable c] {s t : Tile} (hs : tileMemWf s) (ht : tileMemWf t) : tileMemWf (if c then s else t) := by
  split <;> assumption

theorem ite_fst {α : Type} {c : Prop} [Decidable c] {p q : State × α} (hp : memWf p.1) (hq : memWf q.1) :
    memWf (if c then p else q).1 := by
  split <;> assumption
/-- The state of a pair that `split` has named by the equation `e`. -/
theorem fst_wf {α : Type} {p : State × α} {s : State} {x : α} (hp : memWf p.1) (e : p = (s, x)) : memWf s := by
  subst e; exact hp

/-- A fold keeps what each of its steps keeps. -/
theorem foldl_wf {α : Type} {l : List α} {f : State → α → State} {s : State} (hs : memWf s)
    (hf : ∀ s a, memWf s → memWf (f s a)) : memWf (l.foldl f s) := by
  induction l generalizing s with
  | nil => exact hs
  | cons a l ih => exact ih (hf _ _ hs)

theorem foldl_tile {α : Type} {l : List α} {f : Tile → α → Tile} {x : Tile} (hx : tileMemWf x)
    (hf : ∀ x a, tileMemWf x → tileMemWf (f x a)) : tileMemWf (l.foldl f x) := by
  induction l generalizing x with
  | nil => exact hx
  | cons a l ih => exact ih (hf _ _ hx)

theorem foldl_fst {α β : Type} {l : List α} {f : State × β → α → State × β} {p : State × β} (hs : memWf p.1)
    (hf : ∀ p a, memWf p.1 → memWf (f p a).1) : memWf (l.foldl f p).1 := by
  induction l generalizing p with
  | nil => exact hs
  | cons a l ih => exact ih (hf _ _ hs)

theorem foldl_tile_fst {α β : Type} {l : List α} {f : Tile × β → α → Tile × β} {p : Tile × β} (hp : tileMemWf p.1)
    (hf : ∀ p a, tileMemWf p.1 → tileMemWf (f p a).1) : tileMemWf (l.foldl f p).1 := by
  induction l generalizing p with
  | nil => exact hp
  | cons a l ih => exact ih (hf _ _ hp)

/-! ## The registers -/

theorem modTile_wf {s t f} (hs : memWf s) (hf : ∀ x, tileMemWf x → tileMemWf (f x)) : memWf (modTile s t f) :=
  setTile_wf hs (hf _ (getTile_wf hs))

theorem setHart_wf {s h x} (hs : memWf s) : memWf (setHart s h x) := by
  unfold setHart
  split
  · exact setTile_wf hs (getTile_wf hs)
  · exact setMender_wf hs (getMender_wf hs)

theorem modHart_wf {s h f} (hs : memWf s) : memWf (modHart s h f) := setHart_wf hs
theorem modMe_wf {s f} (hs : memWf s) : memWf (modMe s f) := modHart_wf hs

theorem markTileReg_wf {t r full} (ht : tileMemWf t) : tileMemWf (markTileReg t r full) := by
  unfold markTileReg
  split <;> exact ht

theorem emptyReg_wf {s h r} (hs : memWf s) : memWf (emptyReg s h r) := by
  unfold emptyReg
  split
  · exact modTile_wf hs fun _ h1 => markTileReg_wf h1
  · exact modTile_wf hs fun _ h1 => markTileReg_wf h1
  · exact modTile_wf hs fun _ h1 => markTileReg_wf h1
  · exact modHart_wf hs

theorem putReg_wf {s h w} (hs : memWf s) : memWf (putReg s h w) := by
  unfold putReg
  split
  · exact modTile_wf hs fun _ h1 => markTileReg_wf h1
  · exact modTile_wf hs fun _ h1 => markTileReg_wf h1
  · exact modTile_wf hs fun _ h1 => markTileReg_wf h1
  · exact modHart_wf hs

theorem countErr_wf {s d f} (hs : memWf s) : memWf (countErr s d f) := hs
theorem countCell_wf {s d unc} (hs : memWf s) : memWf (countCell s d unc) := countErr_wf hs

/-! ## The shared operations -/

theorem completeAs_wf {st s h next} (hs : memWf s) : memWf (completeAs st s h next) := modHart_wf hs
theorem complete_wf {s h next} (hs : memWf s) : memWf (complete s h next) := completeAs_wf hs
theorem goto_wf {next s} (hs : memWf s) : safeOut (goto next s) := complete_wf hs
theorem done_wf {len s} (hs : memWf s) : safeOut (done len s) := goto_wf hs
theorem parkHart_wf {s h r} (hs : memWf s) : memWf (parkHart s h r) := modHart_wf hs
theorem park_wf {r s} (hs : memWf s) : safeOut (park r s) := parkHart_wf hs
theorem hold_wf {w s} (hs : memWf s) : safeOut (hold w s) := park_wf hs
theorem tileReport_wf {s t kind cause slot pc val d0 d1} (hs : memWf s) : memWf (tileReport s t kind cause slot pc val d0 d1) := hs
theorem unitReport_wf {s d c kind cause pc val d0 d1} (hs : memWf s) : memWf (unitReport s d c kind cause pc val d0 d1) := hs
theorem hartReport_wf {s h kind cause pc val d0 d1} (hs : memWf s) : memWf (hartReport s h kind cause pc val d0 d1) := hs
theorem poisonReportAt_wf {s h pc space ea} (hs : memWf s) : memWf (poisonReportAt s h pc space ea) := hartReport_wf hs
theorem poisonReport_wf {s h space ea} (hs : memWf s) : memWf (poisonReport s h space ea) := poisonReportAt_wf hs
theorem notePoisonRead_wf {fetch s h space ea} (hs : memWf s) : memWf (notePoisonRead fetch s h space ea) := hs
theorem nextFree_wf {s} (hs : memWf s) : memWf (nextFree s).1 := hs
theorem cellReport_wf {s h val} (hs : memWf s) : memWf (cellReport s h val) := hartReport_wf (nextFree_wf hs)

theorem flawSeen_wf {s h f val} (hs : memWf s) : memWf (flawSeen s h f val) := by
  unfold flawSeen
  split
  · exact countCell_wf hs
  · exact cellReport_wf (countCell_wf hs)
  · exact cellReport_wf hs

theorem noteCell_wf {s h c f val} (hs : memWf s) : memWf (noteCell s h c f val) := ite_wf hs (ite_wf hs hs)

theorem readCell_wf {s h r} (hs : memWf s) : memWf (readCell s h r) := by
  unfold readCell
  split
  · exact hs
  · exact noteCell_wf (ite_wf hs (modHart_wf hs))

theorem findCell_wf {s h c f} (hs : memWf s) : memWf (findCell s h c f) := by
  unfold findCell
  extract_lets
  split
  · exact countCell_wf (modHart_wf hs)
  · exact countCell_wf (modHart_wf hs)
  · exact modHart_wf hs

theorem commitNote_wf {s n} (hs : memWf s) : memWf (commitNote s n) := by
  unfold commitNote
  extract_lets s1
  have h1 : memWf s1 := by unfold s1; split; exacts [findCell_wf hs, hs]
  split <;> exact h1

theorem commitNotes_wf {s l} (hs : memWf s) : memWf (commitNotes s l) := foldl_wf hs fun _ _ h1 => commitNote_wf h1

theorem readEntry_wf {s h f} (hs : memWf s) : memWf (readEntry s h f).1 := by
  unfold readEntry
  split
  · exact hs
  · exact flawSeen_wf (nextFree_wf hs)

theorem readCells_wf {s h rs} (hs : memWf s) : memWf (readCells s h rs) := ite_wf hs (foldl_wf hs fun _ _ h1 => readCell_wf h1)

theorem endSequencer_wf {s h} (hs : memWf s) : memWf (endSequencer s h) := by
  unfold endSequencer
  extract_lets
  split
  · exact modHart_wf (modHart_wf hs)
  · exact modHart_wf hs

theorem posterGoesOn_wf {s p} (hs : memWf s) : memWf (posterGoesOn s p) := by
  unfold posterGoesOn
  split
  · exact hs
  · split
    · exact endSequencer_wf hs
    · exact ite_wf (complete_wf hs) hs
    · exact hs

theorem mailFilled_wf {s t} (hs : memWf s) : memWf (mailFilled s t) :=
  ite_wf hs (foldl_wf hs fun _ _ h1 => ite_wf (parkHart_wf (modTile_wf h1 fun _ h2 => h2)) h1)
theorem mailPost_wf {s t p} (hs : memWf s) : memWf (mailPost s t p) :=
  ite_wf (mailFilled_wf (posterGoesOn_wf (setTile_wf hs (getTile_wf hs)))) (setTile_wf hs (getTile_wf hs))

theorem mailRefill_wf {s t} (hs : memWf s) : memWf (mailRefill s t) := by
  unfold mailRefill
  extract_lets
  split
  · exact ite_wf (mailFilled_wf (posterGoesOn_wf (setTile_wf hs (getTile_wf hs)))) hs
  · exact hs

theorem freshId_wf {s} (hs : memWf s) : memWf (freshId s).1 := hs

theorem sequencerFault_wf {s t h e cause val} (hs : memWf s) : memWf (sequencerFault s t h e cause val) := by
  unfold sequencerFault
  extract_lets _ s1 _
  have h1 : memWf s1 := by
    unfold s1
    split
    · exact ite_wf (modHart_wf hs) (hartReport_wf hs)
    · exact hartReport_wf hs
  exact mailPost_wf (modHart_wf (freshId_wf h1))

theorem takeTrap_wf {s h cause val} (hs : memWf s) : memWf (takeTrap s h cause val) := by
  unfold takeTrap
  split
  · exact ite_wf (ite_wf (setHart_wf hs) (hartReport_wf (setHart_wf hs))) (sequencerFault_wf hs)
  · exact hartReport_wf (setHart_wf hs)

theorem trapOn_wf {s h cause val} (hs : memWf s) : memWf (trapOn s h cause val) := ite_wf (takeTrap_wf hs) (parkHart_wf hs)
theorem trap_wf {cause val s} (hs : memWf s) : safeOut (trap cause val s) := trapOn_wf hs
theorem illegal_wf {s} (hs : memWf s) : safeOut (illegal s) := trap_wf hs
theorem trapReturn_wf {s} (hs : memWf s) : safeOut (trapReturn s) := ite_safe (modMe_wf (modMe_wf hs)) (illegal_wf hs)
theorem inSet_wf {ok s k} (hs : memWf s) (hk : ∀ t, memWf t → safeOut (k t)) : safeOut (inSet ok s k) := ite_safe (hk _ hs) (trap_wf hs)
theorem supOnly_wf {s k} (hs : memWf s) (hk : ∀ t, memWf t → safeOut (k t)) : safeOut (supOnly s k) := ite_safe (hk _ hs) (trap_wf hs)

theorem acquire_wf {s h} (hs : memWf s) : memWf (acquire s h) := by
  unfold acquire
  split
  · exact modTile_wf hs fun _ h1 => h1
  · exact hs

theorem readFilled_wf {s rs} (hs : memWf s) : memWf (readFilled s rs) := ite_wf (acquire_wf (modMe_wf hs)) hs

theorem sources_wf {rs s k} (hs : memWf s) (hk : ∀ t, memWf t → safeOut (k t)) : safeOut (sources rs s k) := by
  unfold sources
  split
  · exact park_wf hs
  · exact hk _ (readCells_wf (readFilled_wf hs))

theorem dests_wf {rs s k} (hs : memWf s) (hk : ∀ t, memWf t → safeOut (k t)) : safeOut (dests rs s k) := by
  unfold dests
  split
  · exact trap_wf hs
  · exact hk _ hs

theorem drained_wf {s k} (hs : memWf s) (hk : ∀ t, memWf t → safeOut (k t)) : safeOut (drained s k) := ite_safe (hk _ hs) (park_wf hs)
theorem acked_wf {s k} (hs : memWf s) (hk : ∀ t, memWf t → safeOut (k t)) : safeOut (acked s k) := ite_safe (park_wf hs) (hk _ hs)
theorem heldDrained_wf {s k} (hs : memWf s) (hk : ∀ t, memWf t → safeOut (k t)) : safeOut (heldDrained s k) :=
  ite_safe (hk _ hs) (hold_wf hs)
theorem heldAcked_wf {s k} (hs : memWf s) (hk : ∀ t, memWf t → safeOut (k t)) : safeOut (heldAcked s k) := ite_safe (hold_wf hs) (hk _ hs)
theorem roomForLong_wf {s k} (hs : memWf s) (hk : ∀ t, memWf t → safeOut (k t)) : safeOut (roomForLong s k) :=
  ite_safe (hk _ hs) (park_wf hs)
theorem pubWord_wf {t i x} (ht : tileMemWf t) : tileMemWf (pubWord t i x) := ite_tile ht ht

theorem writeBack_wf {s h o} (hs : memWf s) : memWf (writeBack s h o) := by
  unfold writeBack
  extract_lets
  split
  · extract_lets s1
    have h1 : memWf s1 := foldl_wf (modHart_wf (foldl_wf hs fun _ _ h2 => putReg_wf h2)) fun _ _ h3 => modTile_wf h3 fun _ h4 => h4
    exact foldl_wf h1 fun _ _ h5 => modTile_wf h5 fun _ h6 => pubWord_wf h6
  · exact modHart_wf (foldl_wf hs fun _ _ h1 => putReg_wf h1)

theorem finished_wf {lb s k} (hs : memWf s) (hk : ∀ t, memWf t → safeOut (k t)) : safeOut (finished lb s k) :=
  ite_safe (hk _ hs) (park_wf hs)
theorem inOrder_wf {holds a s k} (hs : memWf s) (hk : ∀ t, memWf t → safeOut (k t)) : safeOut (inOrder holds a s k) :=
  ite_safe (hk _ hs) (ite_safe (hold_wf hs) (park_wf hs))
theorem issueLong_wf {len la lat o s} (hs : memWf s) : safeOut (issueLong len la lat o s) :=
  done_wf (modMe_wf (foldl_wf hs fun _ _ h1 => emptyReg_wf h1))
theorem issueAwait_wf {len la a s} (hs : memWf s) : safeOut (issueAwait len la a s) := done_wf (modMe_wf hs)

theorem fenceGoesOn_wf {s h} (hs : memWf s) : memWf (fenceGoesOn s h) := by
  unfold fenceGoesOn
  split
  · exact ite_wf (complete_wf (acquire_wf hs)) hs
  · exact hs

theorem awaitDone_wf {s h a} (hs : memWf s) : memWf (awaitDone s h a) := fenceGoesOn_wf (modHart_wf hs)

/-! ## Translation -/

theorem dropLine_wf {s line} (hs : memWf s) : memWf (dropLine s line) := ite_wf hs hs

theorem findError_wf {s line} (hs : memWf s) : memWf (findError s line) := by
  unfold findError
  extract_lets
  split
  · exact hs
  · exact ite_wf (ite_wf hs (countErr_wf hs)) (countErr_wf hs)

theorem wakeSlice_wf {s pa} (hs : memWf s) : memWf (wakeSlice s pa) := ite_wf hs (findError_wf hs)
theorem noteEnable_wf {s pa} (hs : memWf s) : memWf (noteEnable s pa) := ite_wf (setMender_wf hs (getMender_wf hs)) hs

theorem slotEnds_wf {s h} (hs : memWf s) : memWf (slotEnds s h) := by
  unfold slotEnds
  split
  · exact setMender_wf hs (getMender_wf hs)
  · exact hs

theorem endWait_wf {s pa who} (hs : memWf s) : memWf (endWait s pa who) := by
  unfold endWait
  split
  · exact ite_wf (slotEnds_wf hs) (ite_wf (parkHart_wf hs) hs)
  · exact hs

theorem noteDisable_wf {s pa} (hs : memWf s) : memWf (noteDisable s pa) :=
  foldl_wf (foldl_wf hs fun _ _ h1 => endWait_wf h1) fun _ _ h2 => setMender_wf h2 (getMender_wf h2)

theorem physWrite_wf {s pa n v} (hs : memWf s) : memWf (physWrite s pa n v) := by
  unfold physWrite
  extract_lets _ _ _ _ s1 s2 _
  have h1 : memWf s1 := dropLine_wf (withMem_wf hs (memWrite_wf _ _ _ (mem_wf hs)))
  have h2 : memWf s2 := ite_wf (noteEnable_wf h1) (ite_wf (noteDisable_wf h1) h1)
  exact wakeSlice_wf (ite_wf (ite_wf h2 h2) (ite_wf h2 h2))

theorem travel_wf {s} (hs : memWf s) : memWf (travel s).1 := by
  unfold travel
  split
  · exact hs
  · exact hs
  all_goals exact countErr_wf hs

theorem travelAll_wf {n s} (hs : memWf s) : memWf (travelAll n s).1 := by
  induction n generalizing s with
  | zero => exact hs
  | succ n ih =>
    unfold travelAll
    split
    · exact ih (fst_wf (travel_wf hs) ‹_›)
    · exact fst_wf (travel_wf hs) ‹_›

theorem tlbPut_wf {s d e} (hs : memWf s) : memWf (tlbPut s d e) := ite_wf hs hs
theorem walkBy_wf {s d cid c va} (hs : memWf s) : memWf (walkBy s d cid c va).1 :=
  ite_fst hs (travelAll_wf (foldl_wf hs fun _ _ h1 => wakeSlice_wf h1))
theorem tlbFill_wf {s d hsl e} (hs : memWf s) : memWf (tlbFill s d hsl e) := foldl_wf hs fun _ _ h1 => tlbPut_wf h1

theorem walkAccess_wf {s d hsl cid c va n} (hs : memWf s) : memWf (walkAccess s d hsl cid c va n).1 := by
  unfold walkAccess
  split
  · exact fst_wf (walkBy_wf hs) ‹_›
  · exact keep_wf (fst_wf (walkBy_wf hs) ‹_›)
  next s1 _ _ e =>
    have h1 : memWf s1 := fst_wf (walkBy_wf hs) e
    exact ite_fst h1 (tlbFill_wf (ite_wf h1 (physWrite_wf h1)))

theorem walkQuiet_wf {s d hsl cid c va} (hs : memWf s) : memWf (walkQuiet s d hsl cid c va).1 := by
  unfold walkQuiet
  split
  next s1 _ _ e =>
    have h1 : memWf s1 := fst_wf (walkBy_wf hs) e
    exact ite_wf (tlbFill_wf h1) h1
  · exact fst_wf (walkBy_wf hs) ‹_›

theorem xlate_wf {s d hsl cid va n ref} (hs : memWf s) : memWf (xlate s d hsl cid va n ref).1 := by
  unfold xlate
  split
  · exact hs
  · refine ite_fst hs <| ite_fst hs ?_
    split
    · exact ite_fst hs (ite_fst (walkAccess_wf hs) (ite_wf hs (tlbFill_wf hs)))
    · exact walkAccess_wf hs

theorem xlateHart_wf {s h va n} (hs : memWf s) : memWf (xlateHart s h va n).1 := xlate_wf hs

theorem withPa_wf {base va n s k} (hs : memWf s) (hk : ∀ x t, memWf t → safeOut (k x t)) : safeOut (withPa base va n s k) := by
  unfold withPa
  split
  · exact hk _ _ (fst_wf (xlateHart_wf hs) ‹_›)
  · exact park_wf (fst_wf (xlateHart_wf hs) ‹_›)
  all_goals exact trap_wf (fst_wf (xlateHart_wf hs) ‹_›)

theorem gAccess_wf {n need va s k} (hs : memWf s) (hk : ∀ x t, memWf t → safeOut (k x t)) : safeOut (gAccess n need va s k) :=
  ite_safe (trap_wf hs) (withPa_wf hs hk)

/-! ## The homes of memory -/

theorem storeMem_wf {t x} (ht : tileMemWf t) : Memory.wf (storeMem t x) := by
  unfold storeMem
  split
  · exact tile_l_wf ht
  · exact tile_w_wf ht
  · exact tile_a_wf ht
  · exact tile_c_wf ht

theorem setStoreMem_wf {t x m} (ht : tileMemWf t) (hm : Memory.wf m) : tileMemWf (setStoreMem t x m) := by
  obtain ⟨hl, hw, ha, hc⟩ := tileMemWf_iff.mp ht
  cases x with
  | l => exact tileMemWf_iff.mpr ⟨hm, hw, ha, hc⟩
  | w => exact tileMemWf_iff.mpr ⟨hl, hm, ha, hc⟩
  | a => exact tileMemWf_iff.mpr ⟨hl, hw, hm, hc⟩
  | c => exact tileMemWf_iff.mpr ⟨hl, hw, ha, hm⟩

theorem storeWrite_wf {t x a n v} (ht : tileMemWf t) : tileMemWf (storeWrite t x a n v) := by
  unfold storeWrite
  extract_lets x1
  have h1 : tileMemWf x1 := setStoreMem_wf ht (memWrite_wf _ _ _ (storeMem_wf ht))
  exact ite_tile h1 h1

theorem storeTaint_wf {t x a n} (ht : tileMemWf t) : tileMemWf (storeTaint t x a n) := foldl_tile ht fun _ _ h1 => ite_tile h1 h1

theorem meetFlaws_wf {s t x a n} (hs : memWf s) : memWf (meetFlaws s t x a n) :=
  ite_wf hs (foldl_wf (setTile_wf hs (foldl_tile (getTile_wf hs) fun _ _ h1 => ite_tile (storeTaint_wf h1) h1)) fun _ _ h2 =>
    countCell_wf h2)

theorem countFlaws_wf {s d l hit} (hs : memWf s) : memWf (countFlaws s d l hit) := foldl_wf hs fun _ _ h1 => countCell_wf h1
theorem lFill_wf {t i n} (ht : tileMemWf t) : tileMemWf (lFill t i n) := ht
theorem lDrain_wf {t i n} (ht : tileMemWf t) : tileMemWf (lDrain t i n) := ht
theorem gFill_wf {s pa} (hs : memWf s) : memWf (gFill s pa) := hs
theorem gDrain_wf {s pa} (hs : memWf s) : memWf (gDrain s pa) := hs

theorem tileEffect_wf {t r} (ht : tileMemWf t) : tileMemWf (tileEffect t r) := by
  unfold tileEffect
  split
  · exact lDrain_wf ht
  · exact ht
  · exact lFill_wf (storeWrite_wf ht)

theorem feDeliver_wf {s r v} (hs : memWf s) : memWf (feDeliver s r v) := by
  unfold feDeliver
  split
  · exact acquire_wf (modHart_wf hs)
  · exact acquire_wf (modHart_wf hs)
  · exact hs

theorem tileServe_wf {s t r} (hs : memWf s) : memWf (tileServe s t r) := by
  unfold tileServe
  extract_lets s1 _ _ _ s2 _
  have h1 : memWf s1 := ite_wf hs (meetFlaws_wf hs)
  have h2 : memWf s2 := feDeliver_wf (modTile_wf (ite_wf (poisonReport_wf h1) h1) fun _ h3 => tileEffect_wf h3)
  exact complete_wf (commitNotes_wf (ite_wf (modTile_wf h2 fun _ h4 => storeTaint_wf h4) h2))

theorem serveTile_wf {s t n} (hs : memWf s) : memWf (serveTile s t n) := by
  induction n generalizing s with
  | zero => exact hs
  | succ n ih =>
    unfold serveTile
    split
    · exact hs
    · exact ih (tileServe_wf (modTile_wf hs fun _ h => h))

theorem serveTileAll_wf {s t} (hs : memWf s) : memWf (serveTileAll s t) := serveTile_wf hs

theorem sliceEffect_wf {s r} (hs : memWf s) : memWf (sliceEffect s r) := by
  unfold sliceEffect
  split
  · exact gDrain_wf hs
  · exact hs
  · exact gFill_wf (physWrite_wf hs)

theorem dropCached_wf {s h pa} (hs : memWf s) : memWf (dropCached s h pa) := by
  unfold dropCached
  split
  · exact modTile_wf hs fun _ h1 => h1
  · exact hs

theorem taintLine_wf {s pa} (hs : memWf s) : memWf (taintLine s pa) := hs

theorem sliceServe_wf {s r} (hs : memWf s) : memWf (sliceServe s r) := by
  unfold sliceServe
  extract_lets _ _ _ s1 _
  have h1 : memWf s1 := feDeliver_wf (dropCached_wf (sliceEffect_wf (ite_wf (poisonReport_wf (wakeSlice_wf hs)) (wakeSlice_wf hs))))
  exact complete_wf (commitNotes_wf (ite_wf (taintLine_wf h1) h1))

theorem serveSlices_wf {s n} (hs : memWf s) : memWf (serveSlices s n) := by
  induction n generalizing s with
  | zero => exact hs
  | succ n ih =>
    unfold serveSlices
    split
    · exact hs
    · exact ih (sliceServe_wf hs)

theorem serveSlicesAll_wf {s} (hs : memWf s) : memWf (serveSlicesAll s) := serveSlices_wf hs
theorem meetCached_wf {s t sp pa n} (hs : memWf s) : memWf (meetCached s t sp pa n) :=
  ite_wf hs (foldl_wf (setTile_wf hs (getTile_wf hs)) fun _ _ h1 => countCell_wf h1)
theorem freshLine_wf {t sp line} (ht : tileMemWf t) : tileMemWf (freshLine t sp line) := ite_tile ht ht
theorem lineRead_wf {s pa n} (hs : memWf s) : memWf (lineRead s pa n).1 := travel_wf (wakeSlice_wf hs)

theorem readLines_wf {s l} (hs : memWf s) : memWf (readLines s l).1 := by
  induction l generalizing s with
  | nil => exact hs
  | cons c r ih => exact ih (lineRead_wf hs (n := c.2))

theorem lineWrite_wf {h pc s pa va n v} (hs : memWf s) : memWf (lineWrite h pc s pa va n v) := by
  unfold lineWrite
  split
  · exact physWrite_wf (fst_wf (travel_wf hs) ‹_›)
  · exact poisonReportAt_wf (taintLine_wf (physWrite_wf (fst_wf (travel_wf hs) ‹_›)))
  · exact poisonReportAt_wf (fst_wf (travel_wf hs) ‹_›)

theorem codeRead_wf {s h pa n} (hs : memWf s) : memWf (codeRead s h pa n).1 := by
  unfold codeRead
  split
  · split
    · exact meetCached_wf hs
    · split
      next s1 _ _ e =>
      have h1 : memWf s1 := fst_wf (lineRead_wf hs) e
      exact ite_fst h1 (modTile_wf h1 fun _ h2 => freshLine_wf h2)
  · exact lineRead_wf hs

theorem cacheHit_wf {s t pa n} (hs : memWf s) : memWf (cacheHit s t pa n).1 := meetCached_wf hs

theorem sliceRead_wf {s h pa n} (hs : memWf s) : memWf (sliceRead s h pa n).1 := by
  unfold sliceRead
  extract_lets
  split
  · exact ite_fst (wakeSlice_wf hs) (modTile_wf (wakeSlice_wf hs) fun _ h1 => freshLine_wf h1)
  · exact wakeSlice_wf hs

theorem cacheStore_wf {s h pa n v} (hs : memWf s) : memWf (cacheStore s h pa n v) := by
  unfold cacheStore
  split
  · exact modTile_wf hs fun _ h1 => h1
  · exact hs

theorem hwFill_wf {s pa v} (hs : memWf s) : memWf (hwFill s pa v) :=
  ite_wf (serveSlicesAll_wf (gFill_wf (physWrite_wf hs))) (physWrite_wf hs)

/-! ## Operands of the units -/

theorem parkHeld_wf {t fe sp ea s} (hs : memWf s) : safeOut (parkHeld t fe sp ea s) := by
  unfold parkHeld
  split
  · exact ite_safe (park_wf hs) (park_wf (freshId_wf hs))
  · exact park_wf (freshId_wf hs)

theorem rouse_wf {s t} (hs : memWf s) : memWf (rouse s t) := ite_wf (setTile_wf hs (getTile_wf hs)) hs

theorem mAccess_wf {n fe ea s k} (hs : memWf s) (hk : ∀ x y t, memWf t → safeOut (k x y t)) : safeOut (mAccess n fe ea s k) := by
  unfold mAccess
  refine ite_safe (trap_wf hs) ?_
  split
  · exact trap_wf hs
  · exact parkHeld_wf hs
  · exact park_wf hs
  · exact hk _ _ _ hs

theorem pairOrder_wf {holds u s k} (hs : memWf s) (hk : ∀ t, memWf t → safeOut (k t)) : safeOut (pairOrder holds u s k) :=
  ite_safe (hk _ hs) (ite_safe (hold_wf hs) (park_wf hs))
theorem awake_wf {t s k} (hs : memWf s) (hk : ∀ t, memWf t → safeOut (k t)) : safeOut (awake t s k) :=
  ite_safe (park_wf (rouse_wf hs)) (hk _ hs)
theorem storeAccess_wf {x n ea s k} (hs : memWf s) (hk : ∀ t, memWf t → safeOut (k t)) : safeOut (storeAccess x n ea s k) :=
  ite_safe (trap_wf hs) (ite_safe (trap_wf hs) (hk _ hs))

/-! ## The ALU forms -/

theorem alu2_wf {f len d a b s} (hs : memWf s) : safeOut (alu2 f len d a b s) :=
  inSet_wf hs fun _ h1 => sources_wf h1 fun _ h2 => dests_wf h2 fun _ h3 => done_wf (modMe_wf h3)
theorem alu3_wf {f d a b s} (hs : memWf s) : safeOut (alu3 f d a b s) :=
  inSet_wf hs fun _ h1 => sources_wf h1 fun _ h2 => dests_wf h2 fun _ h3 => done_wf (modMe_wf h3)
theorem alu1_wf {ok f len d a s} (hs : memWf s) : safeOut (alu1 ok f len d a s) :=
  inSet_wf hs fun _ h1 => sources_wf h1 fun _ h2 => dests_wf h2 fun _ h3 => done_wf (modMe_wf h3)
theorem aluLong_wf {f lat la d a b s} (hs : memWf s) : safeOut (aluLong f lat la d a b s) :=
  inSet_wf hs fun _ h1 => sources_wf h1 fun _ h2 => roomForLong_wf h2 fun _ h3 => dests_wf h3 fun _ h4 => issueLong_wf h4

theorem execLdk_wf {d imm s} (hs : memWf s) : safeOut (execLdk d imm s) :=
  inSet_wf hs fun _ h1 => dests_wf h1 fun _ h2 => withPa_wf h2 fun _ _ h3 =>
    done_wf (modMe_wf (ite_wf (poisonReport_wf (codeRead_wf h3)) (codeRead_wf h3)))

theorem execSetx_wf {e a s} (hs : memWf s) : safeOut (execSetx e a s) :=
  inSet_wf hs fun _ h1 => sources_wf h1 fun _ h2 => dests_wf h2 fun _ h3 => done_wf (modMe_wf h3)
theorem execGetx_wf {d e s} (hs : memWf s) : safeOut (execGetx d e s) :=
  inSet_wf hs fun _ h1 => sources_wf h1 fun _ h2 => dests_wf h2 fun _ h3 => done_wf (modMe_wf h3)

/-! ## The flags and the long forms -/

theorem raise_wf {fl s} (hs : memWf s) : memWf (raise fl s) := modMe_wf hs
theorem putRnd_wf {r s} (hs : memWf s) : memWf (putRnd r s) := ite_wf hs (modTile_wf hs fun _ h1 => h1)

/-! ## Loads and stores -/

theorem cTileFull_wf {x ea s k} (hs : memWf s) (hk : ∀ t, memWf t → safeOut (k t)) : safeOut (cTileFull x ea s k) :=
  ite_safe (park_wf hs) (hk _ hs)

theorem storeLoad_wf {ok x len la ea a w d s} (hs : memWf s) : safeOut (storeLoad ok x len la ea a w d s) :=
  inSet_wf hs fun _ h1 => sources_wf h1 fun _ h2 => roomForLong_wf h2 fun _ h3 => dests_wf h3 fun _ h4 => storeAccess_wf h4 fun _ h5 =>
    cTileFull_wf h5 fun _ h6 => issueLong_wf (ite_wf (poisonReport_wf (meetFlaws_wf h6)) (meetFlaws_wf h6))

theorem storeStore_wf {ok x len la ea a w d s} (hs : memWf s) : safeOut (storeStore ok x len la ea a w d s) :=
  inSet_wf hs fun _ h1 => sources_wf h1 fun _ h2 => roomForLong_wf h2 fun _ h3 => storeAccess_wf h3 fun _ h4 => cTileFull_wf h4 fun _ h5 =>
    issueLong_wf (modTile_wf h5 fun _ h6 => storeWrite_wf h6)

theorem execLdm_wf {la imm w a d s} (hs : memWf s) : safeOut (execLdm la imm w a d s) :=
  inSet_wf hs fun _ h1 => sources_wf h1 fun _ h2 => roomForLong_wf h2 fun _ h3 => dests_wf h3 fun _ h4 => mAccess_wf h4 fun _ _ _ h5 =>
    issueLong_wf (ite_wf h5 (rouse_wf h5))

theorem execStm_wf {la imm w a d s} (hs : memWf s) : safeOut (execStm la imm w a d s) :=
  inSet_wf hs fun _ h1 => sources_wf h1 fun _ h2 => roomForLong_wf h2 fun _ h3 => mAccess_wf h3 fun _ _ _ h4 =>
    issueLong_wf (ite_wf h4 (rouse_wf h4))

theorem execLdg_wf {la imm w a d s} (hs : memWf s) : safeOut (execLdg la imm w a d s) :=
  inSet_wf hs fun _ h1 => sources_wf h1 fun _ h2 => roomForLong_wf h2 fun _ h3 => dests_wf h3 fun _ h4 => gAccess_wf h4 fun _ _ h5 =>
    issueLong_wf h5

theorem execStg_wf {la imm w a d s} (hs : memWf s) : safeOut (execStg la imm w a d s) :=
  inSet_wf hs fun _ h1 => sources_wf h1 fun _ h2 => roomForLong_wf h2 fun _ h3 => gAccess_wf h3 fun _ _ h4 => issueLong_wf h4
theorem onLoom_wf {s h tile} (hs : memWf s) : memWf (onLoom s h tile).1 := ite_fst hs (travel_wf hs)

theorem homeRead_wf {s h a} (hs : memWf s) : memWf (homeRead s h a).1 := by
  unfold homeRead
  split
  · exact meetFlaws_wf hs
  · exact sliceRead_wf hs

theorem loadAccess_wf {s h a w} (hs : memWf s) : memWf (loadAccess s h a w).1 := by
  unfold loadAccess
  refine ite_fst (ite_wf (poisonReportAt_wf (cacheHit_wf hs)) (cacheHit_wf hs)) ?_
  split
  · exact poisonReportAt_wf (fst_wf (onLoom_wf hs) ‹_›)
  · exact poisonReportAt_wf (homeRead_wf (fst_wf (onLoom_wf hs) ‹_›))
  next s1 e =>
    have h1 : memWf s1 := fst_wf (onLoom_wf hs) e
    exact ite_wf (poisonReportAt_wf (homeRead_wf h1)) (homeRead_wf h1)

theorem homeWrite_wf {s h a v} (hs : memWf s) : memWf (homeWrite s h a v) := by
  unfold homeWrite
  split
  · exact modTile_wf hs fun _ h1 => storeWrite_wf h1
  · exact cacheStore_wf (physWrite_wf hs)

theorem taintAt_wf {s a} (hs : memWf s) : memWf (taintAt s a) := by
  unfold taintAt
  split
  · exact modTile_wf hs fun _ h1 => storeTaint_wf h1
  · exact taintLine_wf hs

theorem storeAccessDone_wf {s h a v} (hs : memWf s) : memWf (storeAccessDone s h a v) := by
  unfold storeAccessDone
  split
  · exact homeWrite_wf (fst_wf (onLoom_wf hs) ‹_›)
  · exact poisonReportAt_wf (taintAt_wf (homeWrite_wf (fst_wf (onLoom_wf hs) ‹_›)))
  · exact poisonReportAt_wf (fst_wf (onLoom_wf hs) ‹_›)

/-! ## The full/empty forms -/

theorem lostRequest_wf {r s} (hs : memWf s) : safeOut (lostRequest r s) :=
  complete_wf (feDeliver_wf (poisonReport_wf (ite_wf (dropCached_wf hs) hs)))

theorem sendRequest_wf {tile r s k} (hs : memWf s) (hk : ∀ x t, memWf t → safeOut (k x t)) : safeOut (sendRequest tile r s k) := by
  unfold sendRequest
  split
  · exact hk _ _ (fst_wf (onLoom_wf hs) ‹_›)
  · exact hk _ _ (fst_wf (onLoom_wf hs) ‹_›)
  · exact lostRequest_wf (fst_wf (onLoom_wf hs) ‹_›)

theorem tileRequest_wf {t r s} (hs : memWf s) : safeOut (tileRequest t r s) :=
  ite_safe (serveTileAll_wf (tileServe_wf hs)) (ite_safe (park_wf (modTile_wf hs fun _ h1 => h1)) (park_wf hs))
theorem sliceRequest_wf {r s} (hs : memWf s) : safeOut (sliceRequest r s) :=
  ite_safe (serveSlicesAll_wf (sliceServe_wf (wakeSlice_wf hs))) (ite_safe (park_wf (wakeSlice_wf hs)) (park_wf (wakeSlice_wf hs)))
theorem tileSet_wf {t off n v s} (hs : memWf s) : memWf (tileSet t off n v s) :=
  serveTileAll_wf (modTile_wf hs fun _ h1 => (by split; exacts [lFill_wf (storeWrite_wf h1), lDrain_wf h1]))
theorem meshHome_wf {t off n ea s k} (hs : memWf s) (hk : ∀ t, memWf t → safeOut (k t)) : safeOut (meshHome t off n ea s k) :=
  inOrder_wf hs fun _ h1 => pairOrder_wf h1 fun _ h2 => awake_wf h2 hk

theorem feLoad_wf {op sp imm z a d s} (hs : memWf s) : safeOut (feLoad op sp imm z a d s) := by
  unfold feLoad
  refine inSet_wf hs fun _ h1 => sources_wf h1 fun _ h2 => dests_wf h2 fun _ h3 => ?_
  extract_lets
  split
  · exact storeAccess_wf h3 fun _ h4 => tileRequest_wf h4
  · exact mAccess_wf h3 fun _ _ _ h4 => meshHome_wf h4 fun _ h5 => sendRequest_wf h5 fun _ _ h6 => tileRequest_wf h6

theorem feFill_wf {sp imm z a d s} (hs : memWf s) : safeOut (feFill sp imm z a d s) := by
  unfold feFill
  refine inSet_wf hs fun _ h1 => sources_wf h1 fun _ h2 => ?_
  extract_lets
  split
  · exact storeAccess_wf h2 fun _ h3 => acked_wf h3 fun _ h4 => tileRequest_wf h4
  · exact mAccess_wf h2 fun _ _ _ h3 => acked_wf h3 fun _ h4 => meshHome_wf h4 fun _ h5 => sendRequest_wf h5 fun _ _ h6 => tileRequest_wf h6

theorem released_wf {v s k} (hs : memWf s) (hk : ∀ t, memWf t → safeOut (k t)) : safeOut (released v s k) :=
  ite_safe (acked_wf hs hk) (hk _ hs)

theorem meshSet_wf {v t off n x ea s} (hs : memWf s) : memWf (meshSet v t off n x ea s) := by
  unfold meshSet
  split
  · exact tileSet_wf (fst_wf (onLoom_wf hs) ‹_›)
  next s1 e =>
    have h1 : memWf s1 := fst_wf (onLoom_wf hs) e
    exact ite_wf (poisonReport_wf (modTile_wf (tileSet_wf h1) fun _ h2 => storeTaint_wf h2)) (tileSet_wf h1)
  · exact poisonReport_wf (fst_wf (onLoom_wf hs) ‹_›)

theorem feSet_wf {v sp imm n a d s} (hs : memWf s) : safeOut (feSet v sp imm n a d s) := by
  unfold feSet
  refine inSet_wf hs fun _ h1 => sources_wf h1 fun _ h2 => ?_
  extract_lets
  split
  · exact storeAccess_wf h2 fun _ h3 => released_wf h3 fun _ h4 => done_wf (tileSet_wf h4)
  · exact mAccess_wf h2 fun _ _ _ h3 => released_wf h3 fun _ h4 => meshHome_wf h4 fun _ h5 => done_wf (meshSet_wf h5)

theorem taggedAccess_wf {need ea s k} (hs : memWf s) (hk : ∀ x t, memWf t → safeOut (k x t)) : safeOut (taggedAccess need ea s k) :=
  gAccess_wf hs fun _ _ h1 => ite_safe (hk _ _ h1) (trap_wf h1)

theorem feLoadG_wf {op need imm a d s} (hs : memWf s) : safeOut (feLoadG op need imm a d s) :=
  inSet_wf hs fun _ h1 => sources_wf h1 fun _ h2 => dests_wf h2 fun _ h3 => taggedAccess_wf h3 fun _ _ h4 => inOrder_wf h4 fun _ h5 =>
    sendRequest_wf h5 fun _ _ h6 => sliceRequest_wf h6

theorem execStfgF_wf {imm a d s} (hs : memWf s) : safeOut (execStfgF imm a d s) :=
  inSet_wf hs fun _ h1 => sources_wf h1 fun _ h2 => taggedAccess_wf h2 fun _ _ h3 => acked_wf h3 fun _ h4 => inOrder_wf h4 fun _ h5 =>
    sendRequest_wf h5 fun _ _ h6 => sliceRequest_wf h6

theorem sliceSet_wf {v pa x ea s} (hs : memWf s) : memWf (sliceSet v pa x ea s) := by
  unfold sliceSet
  extract_lets set
  have hset u (hu : memWf u) : memWf (set u) := serveSlicesAll_wf (ite_wf (gFill_wf (physWrite_wf hu)) (gDrain_wf (wakeSlice_wf hu)))
  have h1 := onLoom_wf (h := s.cur) (tile := none) (dropCached_wf (h := s.cur) (pa := pa) hs)
  split
  next e => exact hset _ (fst_wf h1 e)
  next e => exact ite_wf (poisonReport_wf (taintLine_wf (hset _ (fst_wf h1 e)))) (hset _ (fst_wf h1 e))
  next e => exact poisonReport_wf (fst_wf h1 e)

theorem feSetG_wf {v imm a d s} (hs : memWf s) : safeOut (feSetG v imm a d s) :=
  inSet_wf hs fun _ h1 => sources_wf h1 fun _ h2 => taggedAccess_wf h2 fun _ _ h3 => released_wf h3 fun _ h4 => inOrder_wf h4 fun _ h5 =>
    done_wf (sliceSet_wf h5)

/-! ## The atomics -/

theorem amoOrdered_wf {o s k} (hs : memWf s) (hk : ∀ t, memWf t → safeOut (k t)) : safeOut (amoOrdered o s k) :=
  ite_safe (heldDrained_wf hs hk) (hk _ hs)
theorem amoAcquire_wf {o s} (hs : memWf s) : safeOut (amoAcquire o s) :=
  ite_safe (ite_safe (done_wf (acquire_wf hs)) (park_wf hs)) (done_wf hs)

theorem amoFinish_wf {o d r s} (hs : memWf s) : safeOut (amoFinish o d r s) := by
  unfold amoFinish
  extract_lets _ s1
  have h1 : memWf s1 := by unfold s1; split; exacts [modMe_wf (raise_wf hs), (raise_wf hs)]
  exact amoAcquire_wf h1

theorem amoHome_wf {sp bad o d ea old f write taint s} (hwrite : ∀ x t, memWf t → memWf (write x t))
    (htaint : ∀ t, memWf t → memWf (taint t)) (hs : memWf s) : safeOut (amoHome sp bad o d ea old f write taint s) := by
  unfold amoHome
  split
  · exact amoFinish_wf (poisonReport_wf hs)
  · exact ite_safe (amoFinish_wf (poisonReport_wf (htaint _ (hwrite _ _ hs)))) (amoFinish_wf (hwrite _ _ hs))

theorem amoTile_wf {t off n sp bad o d ea f s} (hs : memWf s) : safeOut (amoTile t off n sp bad o d ea f s) := by
  unfold amoTile
  exact amoHome_wf (fun _ _ h1 => modTile_wf h1 fun _ h2 => storeWrite_wf h2) (fun _ h3 => modTile_wf h3 fun _ h4 => storeTaint_wf h4)
    (meetFlaws_wf hs)

theorem amoG_wf {pa n bad o d ea f s} (hs : memWf s) : safeOut (amoG pa n bad o d ea f s) := by
  unfold amoG
  exact amoHome_wf (fun _ _ h1 => physWrite_wf h1) (fun _ h2 => taintLine_wf h2) (wakeSlice_wf hs)

theorem amoSend_wf {tile sp o d ea s k} (hs : memWf s) (hk : ∀ x t, memWf t → safeOut (k x t)) : safeOut (amoSend tile sp o d ea s k) := by
  unfold amoSend
  split
  · exact hk _ _ (fst_wf (onLoom_wf hs) ‹_›)
  · exact hk _ _ (fst_wf (onLoom_wf hs) ‹_›)
  · exact amoFinish_wf (poisonReport_wf (fst_wf (onLoom_wf hs) ‹_›))

theorem amo_wf {n sp o d srcs a f s} (hs : memWf s) : safeOut (amo n sp o d srcs a f s) := by
  unfold amo
  refine inSet_wf hs fun _ h1 => sources_wf h1 fun _ h2 => dests_wf h2 fun _ h3 => amoOrdered_wf h3 fun _ h4 => ?_
  extract_lets
  split
  · exact storeAccess_wf h4 fun _ h5 => amoTile_wf h5
  · exact mAccess_wf h4 fun _ _ _ h5 => inOrder_wf h5 fun _ h6 => pairOrder_wf h6 fun _ h7 => awake_wf h7 fun _ h8 =>
      amoSend_wf h8 fun _ _ h9 => amoTile_wf h9
  · exact gAccess_wf h4 fun _ _ h5 => inOrder_wf h5 fun _ h6 => amoSend_wf (dropCached_wf h6) fun _ _ h7 => amoG_wf h7

theorem amoD_wf {f sp o d b a s} (hs : memWf s) : safeOut (amoD f sp o d b a s) := amo_wf hs
theorem amoW_wf {f sp o d b a s} (hs : memWf s) : safeOut (amoW f sp o d b a s) := amo_wf hs
theorem amoF_wf {f sp o d b a s} (hs : memWf s) : safeOut (amoF f sp o d b a s) := amo_wf hs
theorem execFenceAcq_wf {s} (hs : memWf s) : safeOut (execFenceAcq s) :=
  inSet_wf hs fun _ h1 => finished_wf h1 fun _ h2 => done_wf (acquire_wf h2)
theorem execFenceRel_wf {s} (hs : memWf s) : safeOut (execFenceRel s) := inSet_wf hs fun _ h1 => drained_wf h1 fun _ h2 => done_wf h2
theorem execFenceFull_wf {s} (hs : memWf s) : safeOut (execFenceFull s) :=
  inSet_wf hs fun _ h1 => drained_wf h1 fun _ h2 => done_wf (acquire_wf h2)
theorem execFenceLb_wf {s} (hs : memWf s) : safeOut (execFenceLb s) := inSet_wf hs fun _ h1 => finished_wf h1 fun _ h2 => done_wf h2

/-! ## Branches and jumps -/

theorem branch_wf {f len a b off s} (hs : memWf s) : safeOut (branch f len a b off s) :=
  inSet_wf hs fun _ h1 => sources_wf h1 fun _ h2 => ite_safe (goto_wf h2) (done_wf h2)
theorem branchBit_wf {v a bit off s} (hs : memWf s) : safeOut (branchBit v a bit off s) :=
  inSet_wf hs fun _ h1 => sources_wf h1 fun _ h2 => ite_safe (goto_wf h2) (done_wf h2)
theorem link_wf {d len target s} (hs : memWf s) : safeOut (link d len target s) := goto_wf (modMe_wf hs)
theorem execJal_wf {d off s} (hs : memWf s) : safeOut (execJal d off s) := inSet_wf hs fun _ h1 => dests_wf h1 fun _ h2 => link_wf h2
theorem jumpReg_wf {d a imm len s} (hs : memWf s) : safeOut (jumpReg d a imm len s) :=
  inSet_wf hs fun _ h1 => sources_wf h1 fun _ h2 => dests_wf h2 fun _ h3 => ite_safe (trap_wf h3) (link_wf h3)
theorem execCJ_wf {off s} (hs : memWf s) : safeOut (execCJ off s) := inSet_wf hs fun _ h1 => link_wf h1

/-! ## The work list, SPAWN and EXIT -/

theorem dropFills_wf {s t i} (hs : memWf s) : memWf (dropFills s t i) := by
  unfold dropFills
  extract_lets
  refine foldl_wf (modTile_wf hs fun _ h1 => h1) fun _ _ h2 => ?_
  split
  · exact awaitDone_wf h2
  · exact h2

theorem orphanCopies_wf {s t i} (hs : memWf s) : memWf (orphanCopies s t i) := modTile_wf hs fun _ h1 => h1
theorem freeSlot_wf {s t i} (hs : memWf s) : memWf (freeSlot s t i) := dropFills_wf (modHart_wf (orphanCopies_wf hs))

theorem exitThread_wf {s} (hs : memWf s) : safeOut (exitThread s) := by
  unfold exitThread
  refine inSet_wf hs fun _ h1 => drained_wf h1 fun _ h2 => ?_
  split
  · exact goto_wf (modMe_wf h2)
  · exact freeSlot_wf h2
  · exact done_wf h2

theorem yieldThread_wf {len s} (hs : memWf s) : safeOut (yieldThread len s) := inSet_wf hs fun _ h1 => done_wf (modMe_wf h1)
theorem clearReg_wf {len r s} (hs : memWf s) : safeOut (clearReg len r s) :=
  inSet_wf hs fun _ h1 => dests_wf h1 fun _ h2 => done_wf (modMe_wf h2)
theorem execIsfull_wf {d r i s} (hs : memWf s) : safeOut (execIsfull d r i s) :=
  inSet_wf hs fun _ h1 => dests_wf h1 fun _ h2 => done_wf (modMe_wf h2)
theorem execTid_wf {d s} (hs : memWf s) : safeOut (execTid d s) := inSet_wf hs fun _ h1 => dests_wf h1 fun _ h2 => done_wf (modMe_wf h2)

theorem execPutr_wf {la a b s} (hs : memWf s) : safeOut (execPutr la a b s) := by
  unfold execPutr
  refine inSet_wf hs fun _ h1 => sources_wf h1 fun _ h2 => roomForLong_wf h2 fun _ h3 => ?_
  extract_lets
  split
  · refine ite_safe (trap_wf h3) <| acked_wf h3 fun _ h4 => pairOrder_wf h4 fun _ h5 => ite_safe (park_wf h5) ?_
    extract_lets
    split
    · exact issueLong_wf (poisonReport_wf (fst_wf (onLoom_wf h5) ‹_›))
    next s6 _ _ e =>
      have h6 : memWf s6 := fst_wf (onLoom_wf h5) e
      exact issueAwait_wf (modTile_wf (freshId_wf (ite_wf (poisonReport_wf h6) h6)) fun _ h7 => h7)
  · exact trap_wf h3

theorem spawnThread_wf {hashed d a b s} (hs : memWf s) : safeOut (spawnThread hashed d a b s) := by
  unfold spawnThread
  refine inSet_wf hs fun _ h1 => sources_wf h1 fun _ h2 => dests_wf h2 fun _ h3 => ?_
  extract_lets
  refine ite_safe (trap_wf h3) <| ite_safe (trap_wf h3) <| ite_safe (trap_wf h3) <| ite_safe (trap_wf h3) <| acked_wf h3 fun _ h4 => ?_
  split
  · exact done_wf (modMe_wf (poisonReport_wf (fst_wf (onLoom_wf h4) ‹_›)))
  · exact park_wf (keep_wf (fst_wf (onLoom_wf h4) ‹_›))

theorem startChild_wf {s t i h} (hs : memWf s) : memWf (startChild s t i h) := modTile_wf hs fun _ h1 => h1

theorem execSpawnAnswer_wf {s} (hs : memWf s) : safeOut (execSpawnAnswer s) := by
  unfold execSpawnAnswer
  split
  · split
    · split
      · refine ite_safe hs ?_
        extract_lets
        split
        · exact complete_wf (modHart_wf (commitNotes_wf (ite_wf (poisonReport_wf (startChild_wf hs)) (startChild_wf hs))))
        · exact ite_safe (trapOn_wf hs) (complete_wf (modHart_wf (commitNotes_wf hs)))
      · exact hs
    · exact hs
  · exact hs

theorem execWlpush_wf {d a b s} (hs : memWf s) : safeOut (execWlpush d a b s) :=
  inSet_wf hs fun _ h1 => sources_wf h1 fun _ h2 => dests_wf h2 fun _ h3 => heldAcked_wf h3 fun _ h4 =>
    ite_safe (done_wf (modMe_wf (modTile_wf h4 fun _ h5 => h5))) (done_wf (modMe_wf h4))

theorem execWlpop_wf {d a s} (hs : memWf s) : safeOut (execWlpop d a s) := by
  unfold execWlpop
  refine inSet_wf hs fun _ h1 => dests_wf h1 fun _ h2 => ?_
  split
  · exact done_wf (acquire_wf (modMe_wf (readEntry_wf (modTile_wf h2 fun _ h3 => h3))))
  · exact done_wf (modMe_wf h2)

theorem execWlcnt_wf {d s} (hs : memWf s) : safeOut (execWlcnt d s) := inSet_wf hs fun _ h1 => dests_wf h1 fun _ h2 => done_wf (modMe_wf h2)

/-! ## The copy engine -/

theorem copyIssue_wf {dir la n ec eb ea s} (hs : memWf s) : safeOut (copyIssue dir la n ec eb ea s) := by
  unfold copyIssue
  extract_lets
  refine inSet_wf hs fun _ h1 => sources_wf h1 fun _ h2 => roomForLong_wf h2 fun _ h3 => ?_
  extract_lets
  split
  · exact trap_wf h3
  · exact issueAwait_wf (modTile_wf (freshId_wf h3) fun _ h4 => h4)

theorem execCpyq_wf {s} (hs : memWf s) : safeOut (execCpyq s) := inSet_wf hs fun _ h1 => done_wf (modMe_wf h1)

theorem execCpyx_wf {n s} (hs : memWf s) : safeOut (execCpyx n s) := by
  unfold execCpyx
  exact inSet_wf hs fun _ h1 => sources_wf h1 fun _ h2 => done_wf (modTile_wf h2 fun _ h3 => h3)

theorem xlateChunks_wf {s d os c need ref l} (hs : memWf s) : memWf (xlateChunks s d os c need ref l).1 := by
  induction l generalizing s with
  | nil => exact hs
  | cons x r ih =>
    unfold xlateChunks
    split
    next s1 pa e =>
      have h1 := ih (fst_wf (xlate_wf hs) e)
      split
      · exact fst_wf h1 ‹_›
      · exact h1
    next e => exact fst_wf (xlate_wf hs) e
    next e => exact fst_wf (xlate_wf hs) e

theorem readChunks_wf {s l} (hs : memWf s) : memWf (readChunks s l).1 := by
  induction l generalizing s with
  | nil => exact hs
  | cons c r ih => exact ih (lineRead_wf hs (n := c.2))

theorem writeChunks_wf {s i l ws} (hs : memWf s) : memWf (writeChunks s i l ws).1 := by
  induction l generalizing s i ws with
  | nil => exact hs
  | cons c r ih =>
    have h1 := travel_wf hs
    have h2 {a n v} := ite_wf (c := (travel s).2 == .lost) h1 (physWrite_wf h1 (pa := a) (n := n) (v := v))
    exact ih (ite_wf h2 h2)

theorem writeStore_wf {t x a wsl} (ht : tileMemWf t) : tileMemWf (writeStore t x a wsl) :=
  foldl_tile (storeWrite_wf ht) fun _ _ h1 => ite_tile (storeTaint_wf h1) h1

theorem copyRead_wf {s d hsl ctx t c} (hs : memWf s) : memWf (copyRead s d hsl ctx t c).1 := by
  unfold copyRead
  refine ite_fst (meetFlaws_wf hs) ?_
  split
  · exact readChunks_wf (fst_wf (xlateChunks_wf hs) ‹_›)
  · exact fst_wf (xlateChunks_wf hs) ‹_›
  · exact fst_wf (xlateChunks_wf hs) ‹_›

theorem sendRow_wf {s t u x f a b ws} (hs : memWf s) : memWf (sendRow s t u x f a b ws).1 := by
  induction f generalizing s a b ws with
  | zero => exact hs
  | succ f ih =>
    unfold sendRow
    refine ite_fst hs ?_
    exact ih (ite_wf (onLoom_wf hs) (modTile_wf (onLoom_wf hs) fun _ h => writeStore_wf h))

theorem copyFill_wf {s t c wsl} (hs : memWf s) : memWf (copyFill s t c wsl).1 := by
  unfold copyFill
  extract_lets
  split
  · exact ite_fst hs (ite_fst hs (ite_wf (onLoom_wf hs) (modTile_wf (onLoom_wf hs) fun _ h1 => h1)))
  · exact hs

theorem copyWrite_wf {s d hsl ctx t c wsl} (hs : memWf s) : memWf (copyWrite s d hsl ctx t c wsl).1 := by
  unfold copyWrite
  refine ite_fst (ite_fst (copyFill_wf hs) (sendRow_wf hs)) ?_
  extract_lets
  split
  · exact writeChunks_wf (fst_wf (xlateChunks_wf hs) ‹_›)
  · exact fst_wf (xlateChunks_wf hs) ‹_›
  · exact fst_wf (xlateChunks_wf hs) ‹_›

theorem copyRow_wf {s d hsl ctx t c} (hs : memWf s) : memWf (copyRow s d hsl ctx t c).1 := by
  unfold copyRow
  split
  · exact copyWrite_wf (fst_wf (copyRead_wf hs) ‹_›)
  · exact fst_wf (copyRead_wf hs) ‹_›

theorem putCopy_wf {s t c} (hs : memWf s) : memWf (putCopy s t c) := modTile_wf hs fun _ h1 => h1

theorem execCopyAccept_wf {s} (hs : memWf s) : safeOut (execCopyAccept s) := by
  unfold execCopyAccept
  split
  · split
    · exact ite_safe (awaitDone_wf (modTile_wf hs fun _ h1 => h1)) hs
    · exact hs
  · exact hs

theorem queueBurst_wf {s k} (hs : memWf s) : memWf (queueBurst s k) := by
  unfold queueBurst
  split
  · refine ite_wf hs ?_
    extract_lets
    split
    next s1 _ e =>
    have h1 : memWf s1 := fst_wf (copyRow_wf hs) e
    extract_lets
    split
    · exact unitReport_wf h1
    · exact unitReport_wf h1
    · exact h1
  · exact hs

theorem queuePost_wf {s k} (hs : memWf s) : memWf (queuePost s k) := by
  unfold queuePost
  split
  · exact ite_wf hs hs
  · exact hs

theorem copyNote_wf {s t c r} (hs : memWf s) : memWf (copyNote s t c r) := by
  unfold copyNote
  extract_lets
  split
  · exact tileReport_wf (putCopy_wf hs)
  · exact tileReport_wf (putCopy_wf hs)
  all_goals exact putCopy_wf hs

theorem execCopyBurst_wf {s} (hs : memWf s) : safeOut (execCopyBurst s) := by
  unfold execCopyBurst
  split
  · split
    · refine ite_safe hs ?_
      split
      · exact putCopy_wf hs
      · exact hs
      · exact copyNote_wf hs
      · split
        · exact rouse_wf hs
        · exact copyNote_wf (copyRow_wf hs)
    · exact hs
  · exact queueBurst_wf hs
  · exact hs

theorem execCopyResume_wf {s} (hs : memWf s) : safeOut (execCopyResume s) := by
  unfold execCopyResume
  split
  · split
    · exact ite_safe (putCopy_wf hs) hs
    · exact hs
  · exact hs

theorem execCopyPost_wf {s} (hs : memWf s) : safeOut (execCopyPost s) := by
  unfold execCopyPost
  split
  · split
    · exact ite_safe (mailPost_wf (modTile_wf hs fun _ h1 => h1)) hs
    · exact hs
  · exact queuePost_wf hs
  · exact hs

/-! ## The units -/

theorem blockRead_wf {holds n need va s k} (hs : memWf s) (hk : ∀ x y t, memWf t → safeOut (k x y t)) :
    safeOut (blockRead holds n need va s k) := by
  unfold blockRead
  refine gAccess_wf hs fun _ _ h1 => inOrder_wf h1 fun _ h2 => ?_
  split
  next s3 _ _ e =>
  have h3 : memWf s3 := fst_wf (lineRead_wf h2) e
  exact hk _ _ _ (ite_wf (notePoisonRead_wf h3) h3)

theorem actFor_wf {x s} (hs : memWf s) : memWf (actFor x s) := hs

theorem unitXlate_wf {s d c va need} (hs : memWf s) : memWf (unitXlate s d c va need).1 := by
  unfold unitXlate
  split
  next s1 _ e =>
    have h1 : memWf s1 := fst_wf (xlate_wf hs) e
    exact ite_wf h1 h1
  · exact xlate_wf hs

theorem unitForgets_wf {s d} (hs : memWf s) : memWf (unitForgets s d) := hs
theorem unitSettled_wf {s d} (hs : memWf s) : memWf (unitSettled s d) := ite_wf hs hs

theorem unitRead_wf {s d c va n need} (hs : memWf s) : memWf (unitRead s d c va n need).1 := by
  unfold unitRead
  split
  · split
    next s1 _ _ e =>
    have h1 : memWf s1 := fst_wf (lineRead_wf (fst_wf (unitXlate_wf hs) ‹_›)) e
    exact h1
  · exact fst_wf (unitXlate_wf hs) ‹_›
  · exact fst_wf (unitXlate_wf hs) ‹_›

theorem unitChunks_wf {s d c need l} (hs : memWf s) : memWf (unitChunks s d c need l).1 := by
  induction l generalizing s with
  | nil => exact hs
  | cons x r ih =>
    unfold unitChunks
    split
    next e =>
      have h1 := ih (fst_wf (unitXlate_wf hs) e)
      split
      · exact fst_wf h1 ‹_›
      · exact h1
    next e => exact fst_wf (unitXlate_wf hs) e
    next e => exact fst_wf (unitXlate_wf hs) e

theorem unitReady_wf {s d c need l} (hs : memWf s) : memWf (unitReady s d c need l).1 := by
  induction l generalizing s with
  | nil => exact hs
  | cons va r ih =>
    unfold unitReady
    split
    next e => exact fst_wf (unitXlate_wf hs) e
    next e => exact ih (fst_wf (unitXlate_wf hs) e)

theorem writeDropped_wf {s d c writer cause block failing} (hs : memWf s) : memWf (writeDropped s d c writer cause block failing) :=
  unitReport_wf hs
theorem unitPoison_wf {s d c va} (hs : memWf s) : memWf (unitPoison s d c va) := unitReport_wf hs

theorem unitGet_wf {s d c va n} (hs : memWf s) : memWf (unitGet s d c va n).1 := by
  unfold unitGet
  split
  · exact fst_wf (unitRead_wf hs) ‹_›
  · exact unitPoison_wf (fst_wf (unitRead_wf hs) ‹_›)
  · exact nextFree_wf (fst_wf (unitRead_wf hs) ‹_›)

theorem unitPut_wf {s d c writer block va f} (hs : memWf s) (hf : ∀ t x, memWf t → memWf (f t x)) :
    memWf (unitPut s d c writer block va f) := by
  unfold unitPut
  split
  next s1 _ e =>
    have h1 : memWf s1 := fst_wf (unitXlate_wf hs) e
    split
    · exact hf _ _ (fst_wf (travel_wf h1) ‹_›)
    · exact unitPoison_wf (taintLine_wf (hf _ _ (fst_wf (travel_wf h1) ‹_›)))
    · exact unitPoison_wf (fst_wf (travel_wf h1) ‹_›)
  · exact fst_wf (unitXlate_wf hs) ‹_›
  · exact writeDropped_wf (fst_wf (unitXlate_wf hs) ‹_›)

theorem unitBump_wf {s d c writer block va n} (hs : memWf s) : memWf (unitBump s d c writer block va n).1 := by
  unfold unitBump
  split
  · exact physWrite_wf (fst_wf (unitRead_wf hs) ‹_›)
  · exact writeDropped_wf (fst_wf (unitRead_wf hs) ‹_›)
  · exact fst_wf (unitRead_wf hs) ‹_›

/-! ## The vector forms -/

theorem vfp_wf {f t mode srcs k b a d s} (hs : memWf s) : safeOut (vfp f t mode srcs k b a d s) :=
  inSet_wf hs fun _ h1 => sources_wf h1 fun _ h2 => dests_wf h2 fun _ h3 => done_wf (raise_wf (modMe_wf (putRnd_wf h3)))
theorem vbits_wf {w f srcs k b a d s} (hs : memWf s) : safeOut (vbits w f srcs k b a d s) :=
  inSet_wf hs fun _ h1 => sources_wf h1 fun _ h2 => dests_wf h2 fun _ h3 => done_wf (modMe_wf h3)

theorem execVmax_wf {t k b a d s} (hs : memWf s) : safeOut (execVmax t k b a d s) := by
  unfold execVmax
  exact vbits_wf hs

theorem execVmin_wf {t k b a d s} (hs : memWf s) : safeOut (execVmin t k b a d s) := by
  unfold execVmin
  exact vbits_wf hs

theorem execVabs_wf {t k a d s} (hs : memWf s) : safeOut (execVabs t k a d s) := by
  unfold execVabs
  exact vbits_wf hs

theorem execVneg_wf {t k a d s} (hs : memWf s) : safeOut (execVneg t k a d s) := by
  unfold execVneg
  exact vbits_wf hs

theorem execVsel_wf {t k b a d s} (hs : memWf s) : safeOut (execVsel t k b a d s) :=
  inSet_wf hs fun _ h1 => sources_wf h1 fun _ h2 => dests_wf h2 fun _ h3 => done_wf (modMe_wf h3)
theorem vcompare_wf {w p k b a kd s} (hs : memWf s) : safeOut (vcompare w p k b a kd s) :=
  inSet_wf hs fun _ h1 => sources_wf h1 fun _ h2 => dests_wf h2 fun _ h3 => ite_safe (done_wf h3) (done_wf (raise_wf (modMe_wf h3)))
theorem vapprox_wf {n f t k a d s} (hs : memWf s) : safeOut (vapprox n f t k a d s) :=
  inSet_wf hs fun _ h1 => sources_wf h1 fun _ h2 => dests_wf h2 fun _ h3 => done_wf (raise_wf (modMe_wf h3))

theorem lineUpdate_wf {pa va f s} (hs : memWf s) : memWf (lineUpdate pa va f s) := by
  unfold lineUpdate
  split
  · exact poisonReport_wf (fst_wf (travel_wf (wakeSlice_wf (dropCached_wf hs))) ‹_›)
  next s1 _ _ e =>
    have h1 : memWf s1 := fst_wf (travel_wf (wakeSlice_wf (dropCached_wf hs))) e
    exact ite_wf (poisonReport_wf h1) (ite_wf (poisonReport_wf (taintLine_wf (physWrite_wf h1))) (physWrite_wf h1))

theorem lineAtomic_wf {va f s k} (hs : memWf s) (hk : ∀ t, memWf t → safeOut (k t)) : safeOut (lineAtomic va f s k) :=
  gAccess_wf hs fun _ _ h1 => inOrder_wf h1 fun _ h2 => hk _ (lineUpdate_wf h2)
theorem execVamaxu_wf {t k j a s} (hs : memWf s) : safeOut (execVamaxu t k j a s) :=
  inSet_wf hs fun _ h1 => sources_wf h1 fun _ h2 => lineAtomic_wf h2 fun _ h3 => done_wf h3
theorem vint_wf {t f k b a d s} (hs : memWf s) : safeOut (vint t f k b a d s) := vbits_wf hs
theorem vred_wf {f t k c a d s} (hf : ∀ x t, memWf t → memWf (f x t).2.2) (hs : memWf s) : safeOut (vred f t k c a d s) :=
  inSet_wf hs fun _ h1 => sources_wf h1 fun _ h2 => dests_wf h2 fun _ h3 => done_wf (raise_wf (modMe_wf (hf _ _ h3)))
theorem execVrsumO_wf {t k c a d s} (hs : memWf s) : safeOut (execVrsumO t k c a d s) := vred_wf (fun _ _ h1 => h1) hs
theorem execVrsumU_wf {t k c a d s} (hs : memWf s) : safeOut (execVrsumU t k c a d s) := vred_wf (fun _ _ h1 => h1) hs
theorem execVrmax_wf {t k c a d s} (hs : memWf s) : safeOut (execVrmax t k c a d s) := vred_wf (fun _ _ h1 => h1) hs
theorem execVramax_wf {t k c a d s} (hs : memWf s) : safeOut (execVramax t k c a d s) := vred_wf (fun _ _ h1 => h1) hs
theorem execVrmin_wf {t k c a d s} (hs : memWf s) : safeOut (execVrmin t k c a d s) := vred_wf (fun _ _ h1 => h1) hs
theorem vperm_wf {t f srcs k b a d s} (hs : memWf s) : safeOut (vperm t f srcs k b a d s) :=
  inSet_wf hs fun _ h1 => sources_wf h1 fun _ h2 => dests_wf h2 fun _ h3 => done_wf (modMe_wf h3)
theorem execVins_wf {g n d s} (hs : memWf s) : safeOut (execVins g n d s) :=
  inSet_wf hs fun _ h1 => sources_wf h1 fun _ h2 => dests_wf h2 fun _ h3 => done_wf (modMe_wf h3)
theorem execVext_wf {g n a s} (hs : memWf s) : safeOut (execVext g n a s) :=
  inSet_wf hs fun _ h1 => sources_wf h1 fun _ h2 => dests_wf h2 fun _ h3 => done_wf (modMe_wf h3)

/-! ## The gradient queues -/

theorem gqChecked_wf {holds h s k} (hs : memWf s) (hk : ∀ x y t, memWf t → safeOut (k x y t)) : safeOut (gqChecked holds h s k) :=
  ite_safe (trap_wf hs) (blockRead_wf hs fun _ _ _ h1 => ite_safe (trap_wf h1) (ite_safe (trap_wf h1) (hk _ _ _ h1)))

theorem gqPutEntry_wf {s l i payload key} (hs : memWf s) : memWf (gqPutEntry s l i payload key) := by
  unfold gqPutEntry
  extract_lets
  refine ite_wf ?_ (setMender_wf hs (memWrite_wf _ _ _ (getMender_wf hs)))
  exact modTile_wf (rouse_wf hs) fun _ h1 => storeWrite_wf (storeWrite_wf h1)

theorem gqPush_wf {s pa l payload key} (hs : memWf s) : memWf (gqPush s pa l payload key) := gqPutEntry_wf (physWrite_wf hs)
theorem gqEnter_wf {s pa x} (hs : memWf s) : memWf (gqEnter s pa x) := ite_wf hs hs
theorem gqPark_wf {pa push s} (hs : memWf s) : safeOut (gqPark pa push s) := park_wf (gqEnter_wf hs)
theorem gqLeave_wf {s pa x} (hs : memWf s) : memWf (gqLeave s pa x) := hs
theorem gqTaint_wf {s l} (hs : memWf s) : memWf (gqTaint s l) :=
  ite_wf (modTile_wf hs fun _ h1 => storeTaint_wf h1) (setMender_wf hs (getMender_wf hs))

theorem gqPushed_wf {pa l payload key dv s} (hs : memWf s) : memWf (gqPushed pa l payload key dv s) := by
  unfold gqPushed
  split
  · exact gqPush_wf (fst_wf (travel_wf hs) ‹_›)
  · exact poisonReport_wf (gqTaint_wf (gqPush_wf (fst_wf (travel_wf hs) ‹_›)))
  · exact poisonReport_wf (fst_wf (travel_wf hs) ‹_›)

theorem gqAwake_wf {l s k} (hs : memWf s) (hk : ∀ t, memWf t → safeOut (k t)) : safeOut (gqAwake l s k) :=
  ite_safe (awake_wf hs hk) (hk _ hs)

theorem execGqpush_wf {b a d s} (hs : memWf s) : safeOut (execGqpush b a d s) :=
  inSet_wf hs fun _ h1 => sources_wf h1 fun _ h2 => gqChecked_wf h2 fun _ _ _ h3 =>
    ite_safe (trap_wf h3) (heldAcked_wf h3 fun _ h4 =>
      ite_safe (parkHeld_wf h4) (ite_safe (gqPark_wf h4) (gqAwake_wf h4 fun _ h5 => done_wf (gqPushed_wf (gqLeave_wf h5)))))

theorem gqMeet_wf {s h pc dv l} (hs : memWf s) : memWf (gqMeet s h pc dv l) := by
  unfold gqMeet
  extract_lets _ s1
  have h1 : memWf s1 := ite_wf (meetFlaws_wf hs) hs
  exact ite_wf h1 (ite_wf (poisonReportAt_wf h1) (poisonReportAt_wf h1))

theorem execGqpop_wf {b a d s} (hs : memWf s) : safeOut (execGqpop b a d s) :=
  inSet_wf hs fun _ h1 => sources_wf h1 fun _ h2 => gqChecked_wf h2 fun _ _ _ h3 =>
    ite_safe (trap_wf h3) (ite_safe (trap_wf h3)
      (dests_wf h3 fun _ h4 => ite_safe (gqPark_wf h4) (done_wf (acquire_wf (modMe_wf (physWrite_wf (gqLeave_wf (gqMeet_wf h4))))))))

theorem execGqwin_wf {b a s} (hs : memWf s) : safeOut (execGqwin b a s) :=
  inSet_wf hs fun _ h1 => sources_wf h1 fun _ h2 => gqChecked_wf h2 fun _ _ _ h3 =>
    ite_safe (trap_wf h3) (ite_safe (trap_wf h3) (done_wf (physWrite_wf h3)))

theorem execGqlen_wf {d a s} (hs : memWf s) : safeOut (execGqlen d a s) :=
  inSet_wf hs fun _ h1 => sources_wf h1 fun _ h2 => gqChecked_wf h2 fun _ _ _ h3 => dests_wf h3 fun _ h4 => done_wf (modMe_wf h4)

theorem unitPush_wf {s d c h payload key} (hs : memWf s) : memWf (unitPush s d c h payload key).1 := by
  unfold unitPush
  split
  · exact fst_wf (unitRead_wf hs) ‹_›
  · exact fst_wf (unitRead_wf hs) ‹_›
  next s1 _ _ e =>
    have h1 : memWf s1 := fst_wf (unitRead_wf hs) e
    exact ite_fst (gqPush_wf (gqLeave_wf h1)) h1

theorem execMenderSlotStart_wf {s} (hs : memWf s) : safeOut (execMenderSlotStart s) := by
  unfold execMenderSlotStart
  split
  · split
    · refine ite_safe hs ?_
      extract_lets _ _ s1 _
      have h1 : memWf s1 := setMender_wf hs (getMender_wf hs)
      split
      · exact h1
      · exact setMender_wf (nextFree_wf h1) (getMender_wf (nextFree_wf h1))
    · exact hs
  · exact hs

theorem gqForget_wf {s x} (hs : memWf s) : memWf (gqForget s x) := hs
theorem freeMenderSlot_wf {s m i} (hs : memWf s) : memWf (freeMenderSlot s m i) :=
  setMender_wf (gqForget_wf hs) (getMender_wf (gqForget_wf hs))

theorem execGqEnClear_wf {s} (hs : memWf s) : safeOut (execGqEnClear s) := by
  unfold execGqEnClear
  split
  · exact ite_safe (freeMenderSlot_wf hs) hs
  · exact hs

/-! ## The episodes -/

theorem epSet_wf {s d e} (hs : memWf s) : memWf (epSet s d e) := hs
theorem epDel_wf {s d idx} (hs : memWf s) : memWf (epDel s d idx) := gqForget_wf hs
theorem orphanReady_wf {s d c dom} (hs : memWf s) : memWf (orphanReady s d c dom).1 := unitReady_wf hs

theorem orphan_wf {s d m reason} (hs : memWf s) : memWf (orphan s d m reason) := by
  unfold orphan
  extract_lets
  split
  next s1 _ e =>
  have h1 : memWf s1 := fst_wf (unitGet_wf (unitBump_wf hs)) e
  split
  · exact fst_wf (unitPush_wf h1) ‹_›
  · exact writeDropped_wf (fst_wf (unitPush_wf h1) ‹_›)
  · exact unitBump_wf (fst_wf (unitPush_wf h1) ‹_›)
  · exact unitBump_wf (unitForgets_wf (fst_wf (unitPush_wf h1) ‹_›))

theorem withTicket_wf {a s k} (hs : memWf s) (hk : ∀ x t, memWf t → safeOut (k x t)) : safeOut (withTicket a s k) :=
  ite_safe (trap_wf hs) (hk _ _ hs)

theorem domRead_wf {need dom s k} (hs : memWf s) (hk : ∀ x t, memWf t → safeOut (k x t)) : safeOut (domRead need dom s k) := by
  unfold domRead
  refine gAccess_wf hs fun _ _ h1 => inOrder_wf h1 fun _ h2 => ?_
  split
  next s3 _ _ e =>
  have h3 : memWf s3 := fst_wf (lineRead_wf h2) e
  split
  next s4 _ _ e =>
  have h4 : memWf s4 := fst_wf (lineRead_wf h3) e
  exact hk _ _ (ite_wf (notePoisonRead_wf h4) h4)

theorem bufChunks_wf {b s k} (hs : memWf s) (hk : ∀ x t, memWf t → safeOut (k x t)) : safeOut (bufChunks b s k) := by
  unfold bufChunks
  split
  · exact hk _ _ (fst_wf (xlateChunks_wf hs) ‹_›)
  · exact park_wf (fst_wf (xlateChunks_wf hs) ‹_›)
  · exact trap_wf (fst_wf (xlateChunks_wf hs) ‹_›)

theorem bufOrder_wf {l b s k} (hs : memWf s) (hk : ∀ t, memWf t → safeOut (k t)) : safeOut (bufOrder l b s k) := by
  unfold bufOrder
  extract_lets
  split
  · exact hold_wf hs
  · exact hk _ hs

theorem epOpenAt_wf {s id b l} (hs : memWf s) : memWf (epOpenAt s id b l).1 := by
  unfold epOpenAt
  extract_lets
  refine ite_fst hs ?_
  split
  · exact hs
  · exact foldl_wf hs fun _ _ h1 => lineWrite_wf h1

theorem execEpopen_wf {d a b s} (hs : memWf s) : safeOut (execEpopen d a b s) :=
  inSet_wf hs fun _ h1 => sources_wf h1 fun _ h2 =>
    ite_safe (trap_wf h2) (blockRead_wf h2 fun _ _ _ h3 =>
      ite_safe (trap_wf h3) (domRead_wf h3 fun _ _ h4 =>
        ite_safe (trap_wf h4) (bufChunks_wf h4 fun _ _ h5 => bufOrder_wf h5 fun _ h6 => dests_wf h6 fun _ h7 =>
          done_wf (modMe_wf (epOpenAt_wf h7)))))

theorem recordStep_wf {s pa v ea} (hs : memWf s) : memWf (recordStep s pa v ea) := by
  unfold recordStep
  extract_lets
  split
  · exact homeWrite_wf (homeWrite_wf (fst_wf (travel_wf hs) ‹_›))
  · exact poisonReport_wf (taintLine_wf (homeWrite_wf (homeWrite_wf (fst_wf (travel_wf hs) ‹_›))))
  · exact poisonReport_wf (fst_wf (travel_wf hs) ‹_›)

theorem execEprec_wf {d a b s} (hs : memWf s) : safeOut (execEprec d a b s) := by
  unfold execEprec
  refine inSet_wf hs fun _ h1 => sources_wf h1 fun _ h2 => withTicket_wf h2 fun _ _ h3 => ?_
  split
  · exact trap_wf h3
  · exact ite_safe (trap_wf h3) (ite_safe (trap_wf h3) (dests_wf h3 fun _ h4 => withPa_wf h4 fun _ _ h5 => inOrder_wf h5 fun _ h6 =>
      done_wf (modMe_wf (epSet_wf (recordStep_wf h6)))))

theorem closeOrphans_wf {s d e l} (hs : memWf s) : memWf (closeOrphans s d e l) := by
  induction l generalizing s with
  | nil => exact hs
  | cons i r ih =>
    unfold closeOrphans
    exact ih (orphan_wf (unitGet_wf hs))

theorem closeReady_wf {s d e} (hs : memWf s) : memWf (closeReady s d e).1 := by
  unfold closeReady
  split
  · exact unitReady_wf (fst_wf (orphanReady_wf hs) ‹_›)
  · exact orphanReady_wf hs

theorem closeAt_wf {s k t e} (hs : memWf s) : memWf (closeAt s k t e).1 :=
  unitSettled_wf (epSet_wf (closeOrphans_wf (unitGet_wf (nextFree_wf (unitBump_wf hs)))))
theorem enqueueArrival_wf {s d x} (hs : memWf s) : memWf (enqueueArrival s d x) := hs

theorem awakeAll_wf {t s k} (hs : memWf s) (hk : ∀ t, memWf t → safeOut (k t)) : safeOut (awakeAll t s k) := by
  unfold awakeAll
  split
  · exact park_wf (rouse_wf hs)
  · exact hk _ hs

theorem execEpclose_wf {d a s} (hs : memWf s) : safeOut (execEpclose d a s) := by
  unfold execEpclose
  refine inSet_wf hs fun _ h1 => sources_wf h1 fun _ h2 => withTicket_wf h2 fun _ _ h3 => ?_
  split
  · exact trap_wf h3
  · refine dests_wf h3 fun _ h4 => ?_
    extract_lets
    refine ite_safe (park_wf (enqueueArrival_wf (freshId_wf h4))) ?_
    split
    · exact park_wf (fst_wf (closeReady_wf (actFor_wf h4)) ‹_›)
    · exact awakeAll_wf (fst_wf (closeReady_wf (actFor_wf h4)) ‹_›) fun _ h5 => done_wf (modMe_wf (closeAt_wf h5))

theorem execEpstat_wf {d a s} (hs : memWf s) : safeOut (execEpstat d a s) :=
  inSet_wf hs fun _ h1 => sources_wf h1 fun _ h2 => withTicket_wf h2 fun _ _ h3 => dests_wf h3 fun _ h4 => done_wf (modMe_wf h4)
theorem queueFlit_wf {s l b} (hs : memWf s) : memWf (queueFlit s l b) := ite_wf hs hs
theorem enqueueReward_wf {s x} (hs : memWf s) : memWf (enqueueReward s x) := enqueueArrival_wf hs

theorem execRwsend_wf {d a b s} (hs : memWf s) : safeOut (execRwsend d a b s) := by
  unfold execRwsend
  refine inSet_wf hs fun _ h1 => sources_wf h1 fun _ h2 => ?_
  extract_lets
  refine ite_safe (trap_wf h2) <| ite_safe (trap_wf h2) ?_
  split
  · refine domRead_wf h2 fun _ _ h3 => heldAcked_wf h3 fun _ h4 => ?_
    split
    next s5 _ e =>
    have h5 : memWf s5 := fst_wf (freshId_wf h4) e
    split
    · exact done_wf (poisonReport_wf (fst_wf (travel_wf h5) ‹_›))
    · exact park_wf (enqueueReward_wf (fst_wf (travel_wf h5) ‹_›))
  · exact ite_safe (trap_wf h2) (ite_safe (trap_wf h2) (heldAcked_wf h2 fun _ h3 => park_wf (queueFlit_wf h3)))

theorem writeReward_wf {s d e m bad} (hs : memWf s) : memWf (writeReward s d e m bad) := by
  unfold writeReward
  extract_lets
  refine unitPut_wf hs fun _ _ h1 => ?_
  extract_lets _ s2
  have h2 : memWf s2 := physWrite_wf (physWrite_wf h1)
  exact ite_wf h2 h2

theorem takeReward_wf {s d m bad} (hs : memWf s) : memWf (takeReward s d m bad).1 := by
  unfold takeReward
  split
  · split
    · exact rouse_wf (fst_wf (orphanReady_wf hs) ‹_›)
    · exact orphan_wf (fst_wf (orphanReady_wf hs) ‹_›)
    · exact fst_wf (orphanReady_wf hs) ‹_›
  · split
    · exact hs
    · split
      · exact epSet_wf (writeReward_wf (fst_wf (unitReady_wf hs) ‹_›))
      · exact fst_wf (unitReady_wf hs) ‹_›

theorem remoteOk_wf {s d m} (hs : memWf s) : memWf (remoteOk s d m).1 := by
  unfold remoteOk
  split <;> exact fst_wf (unitXlate_wf hs) ‹_›

theorem arrivalGone_wf {s d} (hs : memWf s) : memWf (arrivalGone s d) := unitSettled_wf hs

theorem rewardTaken_wf {s d x} (hs : memWf s) : memWf (rewardTaken s d x) := by
  unfold rewardTaken
  extract_lets _ s1
  have h1 : memWf s1 := by
    unfold s1
    split
    · split
      · exact complete_wf (arrivalGone_wf hs)
      · exact arrivalGone_wf hs
    · exact arrivalGone_wf hs
  split
  · exact queueFlit_wf h1
  · exact h1

theorem rewardTurn_wf {s d x} (hs : memWf s) : memWf (rewardTurn s d x) := by
  unfold rewardTurn
  split
  next s1 _ e =>
  have h1 : memWf s1 := fst_wf (ite_fst (remoteOk_wf hs) hs) e
  split
  · exact h1
  · exact rewardTaken_wf (unitReport_wf h1)
  · split
    · exact rewardTaken_wf (fst_wf (takeReward_wf h1) ‹_›)
    · exact fst_wf (takeReward_wf h1) ‹_›

theorem closeTurn_wf {s d x idx r} (hs : memWf s) : memWf (closeTurn s d x idx r) := by
  unfold closeTurn
  split
  · exact trapOn_wf (arrivalGone_wf hs)
  · split
    · exact fst_wf (closeReady_wf hs) ‹_›
    next s1 e =>
      have h1 : memWf s1 := fst_wf (closeReady_wf hs) e
      split
      · exact rouse_wf h1
      · exact complete_wf (commitNotes_wf (modHart_wf (arrivalGone_wf (closeAt_wf h1))))
  · exact arrivalGone_wf hs

theorem execRewardArrival_wf {s} (hs : memWf s) : safeOut (execRewardArrival s) := by
  unfold execRewardArrival
  split
  · extract_lets
    split
    · exact actFor_wf hs
    · split
      · exact closeTurn_wf (actFor_wf hs)
      · exact ite_safe (actFor_wf hs) (rewardTurn_wf (actFor_wf hs))
  · exact hs

theorem execEpisodeTimeout_wf {s} (hs : memWf s) : safeOut (execEpisodeTimeout s) := by
  unfold execEpisodeTimeout
  split
  · extract_lets
    split
    · exact ite_safe (epSet_wf hs) hs
    · exact hs
  · exact hs

theorem wring_wf {s d e gam gl t miss vn an} (hs : memWf s) : memWf (wring s d e gam gl t miss vn an).1 := by
  induction t generalizing s miss vn an with
  | zero => exact hs
  | succ t ih => exact ih (unitPut_wf (unitGet_wf hs) fun _ _ h => physWrite_wf (physWrite_wf h))

theorem scanReady_wf {s d e} (hs : memWf s) : memWf (scanReady s d e).1 := by
  unfold scanReady
  split
  · exact unitReady_wf (fst_wf (unitReady_wf hs) ‹_›)
  · exact unitReady_wf hs

theorem execWringerScan_wf {s} (hs : memWf s) : safeOut (execWringerScan s) := by
  fun_cases execWringerScan s with
  | case2 k i _ d e _ _ s0 s1 _ e1 => exact fst_wf (scanReady_wf (actFor_wf hs)) e1
  | case3 k i _ d e _ _ s0 s1 e1 s2 dv e2 lag stale s3 miss e3 =>
    have h2 : memWf s2 := fst_wf (unitGet_wf (fst_wf (scanReady_wf (actFor_wf hs)) e1)) e2
    exact unitSettled_wf (epSet_wf (fst_wf (ite_fst h2 (wring_wf h2)) e3))
  | case1 | case4 | case5 => exact hs

theorem execEpisodeRelease_wf {s} (hs : memWf s) : safeOut (execEpisodeRelease s) := by
  unfold execEpisodeRelease
  split
  · extract_lets
    split
    · refine ite_safe hs ?_
      extract_lets
      split
      next s1 _ _ e =>
        have h1 : memWf s1 := fst_wf (unitRead_wf (actFor_wf hs)) e
        refine ite_safe h1 ?_
        split
        next s2 _ e =>
        have h2 : memWf s2 := fst_wf (unitGet_wf h1) e
        split
        · exact rouse_wf h2
        · split
          · exact gqEnter_wf (fst_wf (unitPush_wf h2) ‹_›)
          · exact fst_wf (unitPush_wf h2) ‹_›
          next s3 _ _ _ e =>
            have h3 : memWf s3 := fst_wf (unitPush_wf h2) e
            extract_lets s4 _ _
            have h4 : memWf s4 := by unfold s4; split; exacts [writeDropped_wf h3, h3]
            exact unitSettled_wf (epDel_wf (ite_wf (unitBump_wf (unitBump_wf h4)) (unitBump_wf h4)))
      · exact unitSettled_wf (epDel_wf (writeDropped_wf (fst_wf (unitRead_wf (actFor_wf hs)) ‹_›)))
      · exact fst_wf (unitRead_wf (actFor_wf hs)) ‹_›
    · exact hs
  · exact hs

/-! ## The engines -/

theorem startSequencer_wf {s e pc by'} (hs : memWf s) : memWf (startSequencer s e pc by') := setHart_wf hs

theorem execKick_wf {vector ea s} (hs : memWf s) : safeOut (execKick vector ea s) := by
  unfold execKick
  exact inSet_wf hs fun _ h1 => sources_wf h1 fun _ h2 =>
    ite_safe (trap_wf h2) (acked_wf h2 fun _ h3 => ite_safe (done_wf (startSequencer_wf h3)) (park_wf h3))

theorem execFork_wf {mask ea eb s} (hs : memWf s) : safeOut (execFork mask ea eb s) := by
  unfold execFork
  extract_lets
  refine inSet_wf hs fun _ h1 => sources_wf h1 fun _ h2 => ?_
  split
  · exact trap_wf h2
  · exact acked_wf h2 fun _ h3 => ite_safe (done_wf (modMe_wf (foldl_wf h3 fun _ _ h4 => startSequencer_wf h4))) (park_wf h3)

theorem execRdv_wf {s} (hs : memWf s) : safeOut (execRdv s) := by
  unfold execRdv
  refine inSet_wf hs fun _ h1 => ite_safe (park_wf h1) ?_
  extract_lets
  split
  · exact trap_wf (modMe_wf (acquire_wf h1))
  · exact done_wf (acquire_wf h1)

/-! ## Conversions -/

theorem nfdCheck_wf {j n s k} (hs : memWf s) (hk : ∀ t, memWf t → safeOut (k t)) : safeOut (nfdCheck j n s k) := by
  unfold nfdCheck
  split
  · exact trap_wf hs
  · exact hk _ hs

theorem cvtFmt_wf {t j s k} (hs : memWf s) (hk : ∀ x t, memWf t → safeOut (k x t)) : safeOut (cvtFmt t j s k) :=
  ite_safe (nfdCheck_wf hs fun _ h1 => hk _ _ h1) (hk _ _ hs)

theorem execVcvt_wf {t rm j widen part a d s} (hs : memWf s) : safeOut (execVcvt t rm j widen part a d s) :=
  inSet_wf hs fun _ h1 => sources_wf h1 fun _ h2 => cvtFmt_wf h2 fun _ _ h3 => dests_wf h3 fun _ h4 =>
    ite_safe (done_wf (raise_wf (modMe_wf (putRnd_wf h4)))) (done_wf (raise_wf (modMe_wf (putRnd_wf h4))))

theorem readCur_wf {j s k} (hs : memWf s) (hk : ∀ x t, memWf t → safeOut (k x t)) : safeOut (readCur j s k) := by
  unfold readCur
  extract_lets
  refine gAccess_wf hs fun _ _ h1 => inOrder_wf h1 fun _ h2 => ?_
  split
  next s3 _ _ e =>
  have h3 : memWf s3 := fst_wf (lineRead_wf h2) e
  exact hk _ _ (ite_wf (poisonReport_wf h3) h3)

theorem quantDone_wf {d out scales fl rnd s} (hs : memWf s) : safeOut (quantDone d out scales fl rnd s) :=
  done_wf (raise_wf (modMe_wf (putRnd_wf hs)))

theorem execVquant_wf {t rm j mode a d s} (hs : memWf s) : safeOut (execVquant t rm j mode a d s) :=
  inSet_wf hs fun _ h1 => sources_wf h1 fun _ h2 => cvtFmt_wf h2 fun _ _ h3 => dests_wf h3 fun _ h4 =>
    ite_safe (readCur_wf h4 fun _ _ h5 => quantDone_wf h5) (quantDone_wf h4)

theorem execVquantv_wf {t rm j thr a d s} (hs : memWf s) : safeOut (execVquantv t rm j thr a d s) :=
  inSet_wf hs fun _ h1 => sources_wf h1 fun _ h2 => cvtFmt_wf h2 fun _ _ h3 => dests_wf h3 fun _ h4 =>
    done_wf (raise_wf (modMe_wf (putRnd_wf h4)))

theorem execVdeq_wf {t rm j mode a d s} (hs : memWf s) : safeOut (execVdeq t rm j mode a d s) := by
  unfold execVdeq
  exact inSet_wf hs fun _ h1 => sources_wf h1 fun _ h2 => cvtFmt_wf h2 fun _ _ h3 => dests_wf h3 fun _ h4 =>
    done_wf (raise_wf (modMe_wf (putRnd_wf h4)))

theorem execSclnext_wf {t j s} (hs : memWf s) : safeOut (execSclnext t j s) :=
  inSet_wf hs fun _ h1 => cvtFmt_wf h1 fun _ _ h2 => lineAtomic_wf (nextFree_wf h2) fun _ h3 => done_wf h3
theorem nibbleFmt_wf {t j s k} (hs : memWf s) (hk : ∀ t, memWf t → safeOut (k t)) : safeOut (nibbleFmt t j s k) :=
  cvtFmt_wf hs fun _ _ h1 => ite_safe (trap_wf h1) (hk _ h1)
theorem execVpack_wf {t j b a d s} (hs : memWf s) : safeOut (execVpack t j b a d s) :=
  inSet_wf hs fun _ h1 => sources_wf h1 fun _ h2 => nibbleFmt_wf h2 fun _ h3 => dests_wf h3 fun _ h4 => done_wf (modMe_wf h4)
theorem execVunpk_wf {t j hi a d s} (hs : memWf s) : safeOut (execVunpk t j hi a d s) :=
  inSet_wf hs fun _ h1 => sources_wf h1 fun _ h2 => nibbleFmt_wf h2 fun _ h3 => dests_wf h3 fun _ h4 => done_wf (modMe_wf h4)

/-! ## The matrix unit -/

theorem issueArray_wf {la lat o s} (hs : memWf s) : safeOut (issueArray la lat o s) := by
  unfold issueArray
  extract_lets _ _ s1 _ _ _
  have h1 : memWf s1 := modTile_wf hs fun _ h2 => h2
  exact ite_safe (modMe_wf (complete_wf (modMe_wf (foldl_wf h1 fun _ _ h3 => emptyReg_wf h3)))) (issueLong_wf h1)

theorem oerrLog_wf {t r} (ht : tileMemWf t) : tileMemWf (oerrLog t r) := by
  unfold oerrLog
  extract_lets
  split <;> exact ht

theorem oerrLogAll_wf {t l} (ht : tileMemWf t) : tileMemWf (oerrLogAll t l) := foldl_tile ht fun _ _ h1 => oerrLog_wf h1

theorem meetOperand_wf {s t x v} (hs : memWf s) : memWf (meetOperand s t x v) := by
  unfold meetOperand
  extract_lets _ s1
  have h1 : memWf s1 := foldl_wf hs fun _ _ h2 => meetFlaws_wf h2
  exact ite_wf hs (ite_wf h1 (meetFlaws_wf h1))

theorem meetBank_wf {s t b} (hs : memWf s) : memWf (meetBank s t b) := ite_wf hs (countFlaws_wf (modTile_wf hs fun _ h1 => h1))
theorem meetBankAcc_wf {s t b} (hs : memWf s) : memWf (meetBankAcc s t b) :=
  ite_wf hs (countFlaws_wf (modTile_wf hs fun _ h1 => oerrLogAll_wf h1))
theorem meetLatch_wf {s t} (hs : memWf s) : memWf (meetLatch s t) := ite_wf hs (countFlaws_wf (modTile_wf hs fun _ h1 => h1))

theorem mmaRows_wf {wide bank n ys t r l} (ht : tileMemWf t) : tileMemWf (mmaRows wide bank n ys t r l).1 := by
  induction l generalizing t r with
  | nil => exact ht
  | cons x xs ih => exact ih (storeWrite_wf (oerrLogAll_wf ht))

theorem bankUsed_wf {t b} (ht : tileMemWf t) : tileMemWf (bankUsed t b) := ite_tile ht (oerrLogAll_wf ht)

theorem multiply_wf {trans la n bank descs hd read s} (hread : ∀ t, memWf t → memWf (read t).1) (hs : memWf s) :
    safeOut (multiply trans la n bank descs hd read s) := by
  unfold multiply
  extract_lets
  split
  · exact trap_wf hs
  · refine sources_wf hs fun _ h1 => roomForLong_wf h1 fun _ h2 => ?_
    split
    next s3 _ _ e =>
    have h3 : memWf s3 := fst_wf (hread _ (meetBank_wf h2)) e
    exact issueArray_wf (setTile_wf (meetFlaws_wf h3) (mmaRows_wf (bankUsed_wf (oerrLogAll_wf (getTile_wf (meetFlaws_wf h3))))))

theorem multiplyStore_wf {trans la n bank ea s} (hs : memWf s) : safeOut (multiplyStore trans la n bank ea s) := by
  unfold multiplyStore
  refine inSet_wf hs fun _ h1 => sources_wf h1 fun _ h2 => ?_
  extract_lets
  split
  · exact trap_wf h2
  · exact multiply_wf (fun _ h3 => meetOperand_wf h3) h2

theorem multiplyLatch_wf {trans la n bank s} (hs : memWf s) : safeOut (multiplyLatch trans la n bank s) :=
  inSet_wf hs fun _ h1 => sources_wf h1 fun _ h2 => multiply_wf (fun _ h3 => meetLatch_wf h3) h2

theorem execMld_wf {la bank ea s} (hs : memWf s) : safeOut (execMld la bank ea s) := by
  unfold execMld
  refine inSet_wf hs fun _ h1 => sources_wf h1 fun _ h2 => roomForLong_wf h2 fun _ h3 => ?_
  extract_lets
  split
  · exact trap_wf h3
  · exact ite_safe (trap_wf h3) (issueArray_wf (setTile_wf (meetOperand_wf h3) (oerrLogAll_wf (getTile_wf (meetOperand_wf h3)))))

theorem execMout_wf {la bank eb ea s} (hs : memWf s) : safeOut (execMout la bank eb ea s) := by
  unfold execMout
  refine inSet_wf hs fun _ h1 => sources_wf h1 fun _ h2 => roomForLong_wf h2 fun _ h3 => ?_
  extract_lets _ _ _ _ _ _ s4
  have h4 : memWf s4 := meetBankAcc_wf (meetOperand_wf (meetOperand_wf h3))
  split
  · exact trap_wf h3
  split
  · exact trap_wf h3
  exact issueArray_wf (setTile_wf h4 (oerrLogAll_wf (keepTile_wf (getTile_wf h4))))

theorem execMdrain_wf {la n bank s} (hs : memWf s) : safeOut (execMdrain la n bank s) :=
  inSet_wf hs fun _ h1 => sources_wf h1 fun _ h2 => roomForLong_wf h2 fun _ h3 => issueArray_wf (meetBankAcc_wf h3)
theorem execMzero_wf {la n bank s} (hs : memWf s) : safeOut (execMzero la n bank s) :=
  inSet_wf hs fun _ h1 => sources_wf h1 fun _ h2 => roomForLong_wf h2 fun _ h3 => issueArray_wf (modTile_wf h3 fun _ h4 => h4)

/-! ## The ring -/

theorem execRingdef_wf {la ea s} (hs : memWf s) : safeOut (execRingdef la ea s) :=
  inSet_wf hs fun _ h1 => sources_wf h1 fun _ h2 => roomForLong_wf h2 fun _ h3 =>
    ite_safe (trap_wf h3) (ite_safe (trap_wf h3) (issueArray_wf (modTile_wf h3 fun _ h4 => h4)))

theorem execLatch_wf {la ea s} (hs : memWf s) : safeOut (execLatch la ea s) := by
  unfold execLatch
  refine inSet_wf hs fun _ h1 => sources_wf h1 fun _ h2 => roomForLong_wf h2 fun _ h3 => ?_
  extract_lets
  split
  · exact trap_wf h3
  · split
    · exact trap_wf h3
    · exact issueArray_wf (setTile_wf (meetOperand_wf h3) (oerrLogAll_wf (getTile_wf (meetOperand_wf h3))))

theorem execBrot_wf {la s} (hs : memWf s) : safeOut (execBrot la s) := by
  unfold execBrot
  refine inSet_wf hs fun _ h1 => roomForLong_wf h1 fun _ h2 => ?_
  split
  · exact trap_wf h2
  · refine sources_wf h2 fun _ h3 => ?_
    extract_lets _ s4
    have h4 : memWf s4 := modTile_wf h3 fun _ h5 => h5
    exact ite_safe (park_wf h4) (issueAwait_wf h4)

theorem ringBegins_wf {s h o} (hs : memWf s) : memWf (ringBegins s h o) := by
  unfold ringBegins
  split
  · extract_lets _ s1
    have h1 : memWf s1 := complete_wf (modHart_wf hs)
    exact ite_wf (modHart_wf h1) h1
  · split
    · exact modHart_wf hs
    · exact hs

theorem ringPass_wf {alone old s t} (hs : memWf s) : memWf (ringPass alone old s t) := by
  unfold ringPass
  split
  · extract_lets _ _ _ _ s1 _
    have h1 : memWf s1 := modTile_wf hs fun _ h2 => h2
    exact ringBegins_wf (ite_wf (onLoom_wf h1) (cellReport_wf (onLoom_wf h1)))
  · exact hs

theorem execRingMove_wf {s} (hs : memWf s) : safeOut (execRingMove s) := by
  unfold execRingMove
  split
  · refine ite_safe hs ?_
    split
    · exact foldl_wf hs fun _ _ h1 => ringPass_wf h1
    · exact ite_safe (ringPass_wf hs) hs
  · exact hs

/-! ## Steps and barriers -/

theorem stepSlot_wf {len s} (hs : memWf s) : safeOut (stepSlot len s) :=
  inSet_wf hs fun _ h1 => drained_wf h1 fun _ h2 => park_wf (modTile_wf h2 fun _ h3 => ite_tile h3 h3)

theorem stepGoesOn_wf {s t i} (hs : memWf s) : memWf (stepGoesOn s t i) := by
  unfold stepGoesOn
  split
  · exact complete_wf hs
  · exact hs

theorem advanced_wf {t} (ht : tileMemWf t) : tileMemWf (advanced t) := ht

theorem execStepAdvance_wf {s} (hs : memWf s) : safeOut (execStepAdvance s) := by
  unfold execStepAdvance
  split
  · exact ite_safe (foldl_wf (modTile_wf hs fun _ h1 => advanced_wf h1) fun _ _ h2 => stepGoesOn_wf h2) hs
  · exact hs

theorem execStepwatchReport_wf {s} (hs : memWf s) : safeOut (execStepwatchReport s) := by
  unfold execStepwatchReport
  split
  · exact ite_safe (tileReport_wf (modTile_wf hs fun _ h1 => h1)) hs
  · exact hs

theorem execStepidle_wf {a s} (hs : memWf s) : safeOut (execStepidle a s) :=
  inSet_wf hs fun _ h1 => supOnly_wf h1 fun _ h2 => sources_wf h2 fun _ h3 => drained_wf h3 fun _ h4 =>
    ite_safe (trap_wf h4) (done_wf (modTile_wf h4 fun _ h5 => h5))

theorem meetWindow_wf {s u v i} (hs : memWf s) : memWf (meetWindow s u v i) :=
  ite_wf hs (countFlaws_wf (setTile_wf hs (ite_tile (getTile_wf hs) (getTile_wf hs))))

theorem execLdh_wf {la imm natural a d s} (hs : memWf s) : safeOut (execLdh la imm natural a d s) :=
  inSet_wf hs fun _ h1 => sources_wf h1 fun _ h2 => roomForLong_wf h2 fun _ h3 => dests_wf h3 fun _ h4 =>
    ite_safe (trap_wf h4) (ite_safe (trap_wf h4)
      (ite_safe (trap_wf h4) (ite_safe (trap_wf h4)
        (ite_safe (trap_wf h4) (issueLong_wf (ite_wf (poisonReport_wf (onLoom_wf (meetWindow_wf h4))) (onLoom_wf (meetWindow_wf h4))))))))

theorem execPub_wf {la imm a d s} (hs : memWf s) : safeOut (execPub la imm a d s) :=
  inSet_wf hs fun _ h1 => sources_wf h1 fun _ h2 => roomForLong_wf h2 fun _ h3 =>
    ite_safe (trap_wf h3) (ite_safe (trap_wf h3) (issueLong_wf h3))

theorem barrier_wf {k d s} (hs : memWf s) : safeOut (barrier k d s) :=
  inSet_wf hs fun _ h1 => drained_wf h1 fun _ h2 => ite_safe (park_wf h2) (ite_safe (trap_wf h2) (park_wf (modTile_wf h2 fun _ h3 => h3)))

theorem barDepart_wf {k s t i} (hs : memWf s) : memWf (barDepart k s t i) := by
  unfold barDepart
  split
  · exact ite_wf (complete_wf (acquire_wf (modHart_wf hs))) hs
  · exact hs

theorem genDone_wf {k t} (ht : tileMemWf t) : tileMemWf (genDone k t) := ht

theorem execBarrierGenerationComplete_wf {s} (hs : memWf s) : safeOut (execBarrierGenerationComplete s) := by
  unfold execBarrierGenerationComplete
  split
  · refine ite_safe ?_ hs
    exact foldl_wf hs fun _ _ h1 => foldl_wf (modTile_wf h1 fun _ h2 => genDone_wf h2) fun _ _ h3 => barDepart_wf h3
  · exact hs

theorem execBarrierWaitReport_wf {s} (hs : memWf s) : safeOut (execBarrierWaitReport s) := by
  unfold execBarrierWaitReport
  split
  · exact ite_safe (tileReport_wf (modTile_wf hs fun _ h1 => h1)) hs
  · exact hs

theorem noteTile_wf {s t x} (hx : tileMemWf x) : tileMemWf (noteTile s t x) := hx
theorem noteWaits_wf {s} (hs : memWf s) : memWf (noteWaits s) :=
  withTiles_wf hs <| List.forall_mem_map.mpr fun _ hx => ite_tile (tiles_wf hs _ hx) (noteTile_wf (tiles_wf hs _ hx))

/-! ## The completion of long operations -/

theorem putWords_wf {t l} (ht : tileMemWf t) : tileMemWf (putWords t l) := foldl_tile ht fun _ _ h1 => storeWrite_wf h1
theorem endRows_wf {t r} (ht : tileMemWf t) : tileMemWf (endRows t r) :=
  ite_tile (ite_tile ht ht) (foldl_tile ht fun _ _ h1 => storeWrite_wf h1)

theorem endRing_wf {s h u block alone} (hs : memWf s) : memWf (endRing s h u block alone) := by
  unfold endRing
  extract_lets s1
  have h1 : memWf s1 := by unfold s1; split; exacts [modTile_wf hs fun _ h2 => h2, hs]
  exact modTile_wf h1 fun _ h3 => h3

theorem onTileOf_wf {s h f} (hs : memWf s) (hf : ∀ x, tileMemWf x → tileMemWf (f x)) : memWf (onTileOf s h f) := by
  unfold onTileOf
  split
  · exact modTile_wf hs hf
  · exact hs

theorem finishOp_wf {s h o} (hs : memWf s) : memWf (finishOp s h o) := by
  unfold finishOp
  split
  · exact writeBack_wf hs
  · exact writeBack_wf (loadAccess_wf hs)
  · exact writeBack_wf (storeAccessDone_wf hs)
  · exact writeBack_wf (onTileOf_wf hs fun _ h1 => putWords_wf h1)
  · exact writeBack_wf (onTileOf_wf hs fun _ h1 => endRows_wf h1)
  · exact writeBack_wf (endRing_wf hs)
  · exact hs

theorem completeOp_wf {s h i o} (hs : memWf s) : memWf (completeOp s h i o) := fenceGoesOn_wf (modHart_wf (finishOp_wf hs))

/-! ## The queues -/

theorem modRec_wf {s d c q f} (hs : memWf s) : memWf (modRec s d c q f) := hs
theorem noteReady_wf {s c n} (hs : memWf s) : memWf (noteReady s c n) := hs
theorem dropNode_wf {s c n} (hs : memWf s) : memWf (dropNode s c n) := hs

theorem sendMsi_wf {s vec v} (hs : memWf s) : memWf (sendMsi s vec v) := by
  unfold sendMsi
  split
  · exact ite_wf hs hs
  · exact hs

theorem countDown_wf {s d c node succ} (hs : memWf s) : memWf (countDown s d c node succ) := by
  unfold countDown
  split
  next s1 _ _ e =>
    have h1 : memWf s1 := fst_wf (unitRead_wf hs) e
    exact ite_wf (unitReport_wf h1) (ite_wf (noteReady_wf (physWrite_wf (physWrite_wf h1))) (physWrite_wf h1))
  · exact writeDropped_wf (fst_wf (unitRead_wf hs) ‹_›)
  · exact fst_wf (unitRead_wf hs) ‹_›

theorem succList_wf {s d c va n} (hs : memWf s) : memWf (succList s d c va n).1 := by
  induction n generalizing s va with
  | zero => exact hs
  | succ n ih =>
    unfold succList
    split
    next e => exact ih (fst_wf (unitRead_wf hs) e)
    next e => exact ih (fst_wf (unitRead_wf hs) e)

theorem endReady_wf {s d c q node v} (hs : memWf s) : memWf (endReady s d c q node v).1 := by
  unfold endReady
  split
  next s1 e =>
    have h1 : memWf s1 := fst_wf (unitReady_wf hs) e
    split
    · exact unitReady_wf (succList_wf (fst_wf (unitReady_wf h1) ‹_›))
    · exact unitReady_wf h1
  · exact unitReady_wf hs

theorem endWrite_wf {s d l} (hs : memWf s) : memWf (endWrite s d l) := by
  unfold endWrite
  extract_lets
  split
  next s1 _ e =>
  have h1 : memWf s1 := fst_wf (succList_wf (unitPut_wf hs fun _ _ h2 => physWrite_wf h2)) e
  extract_lets s3 _ s4
  have h3 : memWf s3 := foldl_wf h1 fun _ _ h5 => countDown_wf h5
  have h4 : memWf s4 := by
    unfold s4
    split
    · exact hwFill_wf (fst_wf (unitRead_wf h3) ‹_›)
    · exact writeDropped_wf (fst_wf (unitRead_wf h3) ‹_›)
    · exact fst_wf (unitRead_wf h3) ‹_›
  exact ite_wf (sendMsi_wf h4) h4

theorem tryEnd_wf {s k} (hs : memWf s) : memWf (tryEnd s k) := by
  unfold tryEnd
  split
  · refine ite_wf hs ?_
    extract_lets
    split
    · exact fst_wf (endReady_wf (actFor_wf hs)) ‹_›
    · exact unitSettled_wf (endWrite_wf (fst_wf (endReady_wf (actFor_wf hs)) ‹_›))
  · exact hs

theorem modLaunch_wf {s k f} (hs : memWf s) : memWf (modLaunch s k f) := hs
theorem endLaunch_wf {s k ends} (hs : memWf s) : memWf (endLaunch s k ends) := tryEnd_wf (modLaunch_wf hs)
theorem endNode_wf {s d c q n v ends} (hs : memWf s) : memWf (endNode s d c q n v ends) := tryEnd_wf hs
theorem refuseReport_wf {s d c q n reason} (hs : memWf s) : memWf (refuseReport s d c q n reason) := unitReport_wf hs
theorem linkNode_wf {s d c epa n} (hs : memWf s) : memWf (linkNode s d c epa n) :=
  hwFill_wf (unitPut_wf (physWrite_wf hs) fun _ _ h1 => physWrite_wf h1)

theorem launchSent_wf {s d c epa n} (hs : memWf s) : memWf (launchSent s d c epa n) := by
  unfold launchSent
  split
  · exact linkNode_wf (fst_wf (travel_wf hs) ‹_›)
  · exact poisonReport_wf (taintLine_wf (linkNode_wf (fst_wf (travel_wf hs) ‹_›)))
  · exact poisonReport_wf (fst_wf (travel_wf hs) ‹_›)

theorem oldOrder_wf {s c old k} (hs : memWf s) (hk : ∀ t, memWf t → safeOut (k t)) : safeOut (oldOrder s c old k) := by
  unfold oldOrder
  split
  · exact inOrder_wf hs hk
  · exact hk _ hs

theorem execLaunch_wf {ea s} (hs : memWf s) : safeOut (execLaunch ea s) := by
  unfold execLaunch
  refine inSet_wf hs fun _ h1 => sources_wf h1 fun _ h2 => ?_
  extract_lets
  refine blockRead_wf h2 fun _ _ _ h3 => ite_safe (trap_wf h3) <| ite_safe (trap_wf h3) <| gAccess_wf h3 fun _ _ h4 =>
    inOrder_wf h4 fun _ h5 => heldAcked_wf h5 fun _ h6 => ?_
  extract_lets
  split
  · exact park_wf (fst_wf (unitReady_wf (actFor_wf h6)) ‹_›)
  · exact oldOrder_wf (fst_wf (unitReady_wf (actFor_wf h6)) ‹_›) fun _ h7 => done_wf (unitSettled_wf (launchSent_wf h7))

theorem consumeArm_wf {s pa} (hs : memWf s) : memWf (consumeArm s pa) := serveSlicesAll_wf (gDrain_wf hs)

theorem walkReady_wf {s d c f n} (hs : memWf s) : memWf (walkReady s d c f n).1 := by
  induction f generalizing s n with
  | zero => exact hs
  | succ f ih =>
    unfold walkReady
    refine ite_fst hs ?_
    have h1 := unitReady_wf (d := d) (c := c) (need := .readWrite) (l := [n]) hs
    split
    next e => exact ite_fst (fst_wf h1 e) (ih (fst_wf h1 e))
    next => exact h1

theorem walkNode_wf {s d c q n pa v} (hs : memWf s) : memWf (walkNode s d c q n pa v) :=
  ite_wf (endNode_wf (refuseReport_wf (physWrite_wf (modRec_wf hs))))
    (ite_wf (noteReady_wf (physWrite_wf (modRec_wf hs))) (physWrite_wf (modRec_wf hs)))

theorem walkList_wf {s d c q f n last} (hs : memWf s) : memWf (walkList s d c q f n last).1 := by
  induction f generalizing s n last with
  | zero => exact hs
  | succ f ih =>
    unfold walkList
    refine ite_fst hs (ite_fst (unitReport_wf hs) ?_)
    have h1 := unitRead_wf (d := d) (c := c) (va := n) (n := 64) (need := .readWrite) hs
    split
    next e => exact ite_fst (unitReport_wf (fst_wf h1 e)) (ih (walkNode_wf (fst_wf h1 e)))
    next e => exact unitReport_wf (fst_wf h1 e)
    next e => exact fst_wf h1 e

theorem walkQueue_wf {s d c q} (hs : memWf s) : memWf (walkQueue s d c q) := by
  unfold walkQueue
  extract_lets
  split
  next s1 _ _ e =>
    have h1 : memWf s1 := fst_wf (unitRead_wf hs) e
    extract_lets
    split
    · split
      next s2 _ e =>
      have h2 : memWf s2 := fst_wf (walkList_wf (fst_wf (unitRead_wf h1) ‹_›)) e
      exact ite_wf h2 (physWrite_wf h2)
    · exact unitReport_wf (fst_wf (unitRead_wf h1) ‹_›)
  · exact unitReport_wf (fst_wf (unitRead_wf hs) ‹_›)

theorem lostEntry_wf {s a} (hs : memWf s) : memWf (lostEntry s a) := by
  unfold lostEntry
  split
  · exact fst_wf (unitXlate_wf (actFor_wf hs)) ‹_›
  · exact fst_wf (unitXlate_wf (actFor_wf hs)) ‹_›
  · exact unitSettled_wf (unitReport_wf (consumeArm_wf (fst_wf (unitXlate_wf (actFor_wf hs)) ‹_›)))

theorem execQueueWalk_wf {s} (hs : memWf s) : safeOut (execQueueWalk s) := by
  unfold execQueueWalk
  split
  · split
    · split
      · exact lostEntry_wf hs
      · exact hs
    · extract_lets
      split
      · exact fst_wf (unitReady_wf (actFor_wf hs)) ‹_›
      next s1 e =>
        have h1 : memWf s1 := fst_wf (unitReady_wf (actFor_wf hs)) e
        split
        · exact fst_wf (unitReady_wf h1) ‹_›
        next s2 e =>
          have h2 : memWf s2 := fst_wf (unitReady_wf h1) e
          split
          · exact fst_wf (walkReady_wf h2) ‹_›
          next s3 e =>
            have h3 : memWf s3 := fst_wf (walkReady_wf h2) e
            extract_lets s4
            have h4 : memWf s4 := by unfold s4; split; exacts [consumeArm_wf h3, h3]
            exact unitSettled_wf (walkQueue_wf (modRec_wf h4))
  · exact hs

theorem execPeriodBoundary_wf {s} (hs : memWf s) : safeOut (execPeriodBoundary s) := ite_safe hs hs

theorem readRange_wf {s d c va n} (hs : memWf s) : memWf (readRange s d c va n).1 := by
  unfold readRange
  split
  · exact readLines_wf (fst_wf (unitChunks_wf hs) ‹_›)
  · exact fst_wf (unitChunks_wf hs) ‹_›

theorem dispatchNode_wf {s d c q n v start} (hs : memWf s) (hstart : ∀ t, memWf t → memWf (start t)) :
    memWf (dispatchNode s d c q n v start) := by
  unfold dispatchNode
  refine ite_wf (endNode_wf hs) ?_
  split
  next s1 _ e =>
  have h1 : memWf s1 := fst_wf (freshId_wf (hstart _ hs)) e
  split
  · exact h1
  · split
    next s2 _ e =>
      have h2 : memWf s2 := fst_wf (readRange_wf h1) e
      exact ite_wf (endNode_wf (refuseReport_wf h2)) h2
    · exact endNode_wf (refuseReport_wf (fst_wf (readRange_wf h1) ‹_›))
  · exact endNode_wf h1
  · exact endNode_wf (sendMsi_wf h1)

theorem dispatchRead_wf {s d c q n v start} (hs : memWf s) (hstart : ∀ t, memWf t → memWf (start t)) :
    memWf (dispatchRead s d c q n v start) :=
  ite_wf (dispatchNode_wf (readRange_wf hs) hstart) (endNode_wf (refuseReport_wf (readRange_wf hs)))

theorem execNodeDispatch_wf {s} (hs : memWf s) : safeOut (execNodeDispatch s) := by
  unfold execNodeDispatch
  split
  · extract_lets
    split
    · refine ite_safe (actFor_wf hs) ?_
      split
      · exact fst_wf (unitReady_wf (actFor_wf hs)) ‹_›
      next s1 e =>
        have h1 : memWf s1 := fst_wf (unitReady_wf (actFor_wf hs)) e
        split
        · exact unitSettled_wf (dispatchRead_wf (fst_wf (unitRead_wf h1) ‹_›) fun _ h2 => physWrite_wf h2)
        · exact fst_wf (unitRead_wf h1) ‹_›
        next s2 _ e =>
          have h2 : memWf s2 := fst_wf (unitRead_wf h1) e
          extract_lets
          split
          · exact unitSettled_wf (dispatchRead_wf (fst_wf (unitRead_wf (writeDropped_wf h2)) ‹_›) fun _ h3 => h3)
          · exact unitSettled_wf (dropNode_wf (fst_wf (unitRead_wf (writeDropped_wf h2)) ‹_›))
    · exact actFor_wf hs
  · exact tryEnd_wf hs
  · exact hs

theorem allReadable_wf {s d c l} (hs : memWf s) : memWf (allReadable s d c l).1 := by
  induction l generalizing s with
  | nil => exact hs
  | cons va r ih =>
    unfold allReadable
    split
    next e => exact ih (fst_wf (unitXlate_wf hs) e)
    next e => exact fst_wf (unitXlate_wf hs) e

theorem takeHeader_wf {s d l} (hs : memWf s) : memWf (takeHeader s d l).1 := by
  unfold takeHeader
  split
  · exact hs
  · split
    · exact fst_wf (unitReady_wf hs) ‹_›
    next s1 e =>
      have h1 : memWf s1 := fst_wf (unitReady_wf hs) e
      split
      · exact modLaunch_wf (fst_wf (unitRead_wf h1) ‹_›)
      · exact unitRead_wf h1

theorem takePool_wf {s d l h} (hs : memWf s) : memWf (takePool s d l h).1 := by
  unfold takePool
  extract_lets
  split
  · exact hs
  · split
    · exact fst_wf (unitReady_wf hs) ‹_›
    · split
      next s1 _ e =>
      have h1 : memWf s1 := fst_wf (readRange_wf (fst_wf (unitReady_wf hs) ‹_›)) e
      split
      next s2 _ e =>
      have h2 : memWf s2 := fst_wf (readRange_wf h1) e
      split
      · exact modLaunch_wf h2
      · exact h2

theorem lastChecks_wf {s d l h p} (hs : memWf s) : memWf (lastChecks s d l h p).1 := by
  unfold lastChecks
  split
  · exact fst_wf (unitReady_wf hs) ‹_›
  next s1 e =>
    have h1 : memWf s1 := fst_wf (unitReady_wf hs) e
    split
    · exact fst_wf (allReadable_wf h1) ‹_›
    next s2 e =>
      have h2 : memWf s2 := fst_wf (allReadable_wf h1) e
      exact ite_fst h2 (ite_fst h2 h2)

theorem checkKernel_wf {s d l} (hs : memWf s) : memWf (checkKernel s d l).1 := by
  unfold checkKernel
  split
  · exact fst_wf (takeHeader_wf hs) ‹_›
  · exact fst_wf (takeHeader_wf hs) ‹_›
  next s1 _ _ e =>
    have h1 : memWf s1 := fst_wf (takeHeader_wf hs) e
    split
    · exact fst_wf (takePool_wf h1) ‹_›
    · exact fst_wf (takePool_wf h1) ‹_›
    next s2 _ _ e =>
      have h2 : memWf s2 := fst_wf (takePool_wf h1) e
      split
      · exact h2
      · exact ite_fst h2 (lastChecks_wf h2)

theorem execKernelChecking_wf {s} (hs : memWf s) : safeOut (execKernelChecking s) := by
  unfold execKernelChecking
  split
  · split
    · refine ite_safe hs ?_
      extract_lets
      split
      · exact fst_wf (checkKernel_wf (actFor_wf hs)) ‹_›
      · exact endLaunch_wf (refuseReport_wf (unitSettled_wf (fst_wf (checkKernel_wf (actFor_wf hs)) ‹_›)))
      · exact modLaunch_wf (unitSettled_wf (fst_wf (checkKernel_wf (actFor_wf hs)) ‹_›))
    · exact hs
  · exact hs

/-! ## Groups -/

theorem setGroup_wf {s g} (hs : memWf s) : memWf (setGroup s g) := hs
theorem modTiles_wf {s f l} (hs : memWf s) (hf : ∀ x y, tileMemWf y → tileMemWf (f x y)) : memWf (modTiles s f l) :=
  foldl_wf hs fun _ _ h1 => modTile_wf h1 fun _ h2 => hf _ _ h2

theorem execGroupPlacement_wf {s} (hs : memWf s) : safeOut (execGroupPlacement s) := by
  unfold execGroupPlacement
  split
  · split
    · refine ite_safe hs ?_
      split
      · exact hs
      · exact modLaunch_wf (modTiles_wf hs fun _ _ h1 => h1)
    · exact hs
  · exact hs

theorem idleTile_wf {t} (ht : tileMemWf t) : tileMemWf (idleTile t) := ht

theorem readImage_wf {s off l} (hs : memWf s) : memWf (readImage s off l).1 := by
  induction l generalizing s off with
  | nil => exact hs
  | cons c r ih => exact ih (lineRead_wf hs (n := c.2))

theorem readImages_wf {s l} (hs : memWf s) : memWf (readImages s l).1 := by
  induction l generalizing s with
  | nil => exact hs
  | cons c r ih => exact ih (readImage_wf hs)

theorem loadL_wf {t off n x} (ht : tileMemWf t) : tileMemWf (loadL t off n x) :=
  foldl_tile (ite_tile ht (storeWrite_wf ht)) fun _ _ h1 => storeTaint_wf h1

theorem loadChunks_wf {s d c l} (hs : memWf s) : memWf (loadChunks s d c l).1 := by
  induction l generalizing s with
  | nil => exact hs
  | cons x r ih =>
    unfold loadChunks
    split
    next e =>
      have h1 := ih (fst_wf (unitChunks_wf hs) e)
      split
      · exact fst_wf h1 ‹_›
      · exact h1
    next e => exact fst_wf (unitChunks_wf hs) e
    next e => exact fst_wf (unitChunks_wf hs) e

theorem loadTile_wf {s l g t x p im} (hx : tileMemWf x) : tileMemWf (loadTile s l g t x p im) := by
  unfold loadTile
  extract_lets _ _ _ _ _ x1
  have h1 : tileMemWf x1 := tileMemWf_iff.mpr ⟨rfl, tile_w_wf (x := x) hx, tile_a_wf (x := x) hx, tile_c_wf (x := x) hx⟩
  exact keepTile_wf (loadL_wf (storeWrite_wf (loadL_wf h1)))

theorem releaseSenders_wf {s t} (hs : memWf s) : memWf (releaseSenders s t) := by
  unfold releaseSenders
  extract_lets
  refine foldl_wf (foldl_wf hs fun _ _ h1 => posterGoesOn_wf h1) fun _ _ h2 => ?_
  split
  · exact awaitDone_wf h2
  · exact h2

theorem dropGroup_wf {s g} (hs : memWf s) : memWf (dropGroup s g) := by
  unfold dropGroup
  extract_lets ts s1
  have h1 : memWf s1 := foldl_wf hs fun _ _ h => releaseSenders_wf h
  refine modTiles_wf (withCtxs_wf h1 ?_) fun _ _ h => idleTile_wf h
  exact List.forall_mem_map.mpr fun c hc => ctxMemWf_filter (ctxs_wf h1 c hc)

theorem forgetGroup_wf {s g} (hs : memWf s) : memWf (forgetGroup s g) :=
  withTiles_wf hs <| List.forall_mem_map.mpr fun _ hx => keepTile_wf (tiles_wf hs _ hx)
theorem loadFailed_wf {s l} (hs : memWf s) : memWf (loadFailed s l) :=
  endLaunch_wf (unitSettled_wf (refuseReport_wf (foldl_wf hs fun _ _ h1 => dropGroup_wf (forgetGroup_wf h1))))
theorem notePoison_wf {s l bad} (hs : memWf s) : memWf (notePoison s l bad) :=
  ite_wf hs (modLaunch_wf (foldl_wf hs fun _ _ h1 => unitPoison_wf h1))
theorem loadPoison_wf {s l first im} (hs : memWf s) : memWf (loadPoison s l first im) := notePoison_wf hs

theorem takePacket_wf {s l} (hs : memWf s) : memWf (takePacket s l).1 := by
  unfold takePacket
  split
  · exact hs
  · split
    · exact fst_wf (loadChunks_wf hs) ‹_›
    · exact fst_wf (loadChunks_wf hs) ‹_›
    · exact notePoison_wf (modLaunch_wf (readImage_wf (readImage_wf (fst_wf (loadChunks_wf hs) ‹_›))))

theorem loadNext_wf {s l g p im} (hs : memWf s) : memWf (loadNext s l g p im) := by
  unfold loadNext
  extract_lets
  split
  next s1 _ e =>
  have h1 : memWf s1 := fst_wf (readImages_wf hs) e
  extract_lets s2 _ _
  have h2 : memWf s2 := unitSettled_wf (loadPoison_wf h1)
  exact setGroup_wf (setTile_wf (releaseSenders_wf h2) (loadTile_wf (getTile_wf h2)))

theorem execGroupLoad_wf {s} (hs : memWf s) : safeOut (execGroupLoad s) := by
  unfold execGroupLoad
  split
  · split
    · split
      · refine ite_safe hs ?_
        split
        · exact fst_wf (takePacket_wf (actFor_wf hs)) ‹_›
        · exact loadFailed_wf (fst_wf (takePacket_wf (actFor_wf hs)) ‹_›)
        next s1 _ e =>
          have h1 : memWf s1 := fst_wf (takePacket_wf (actFor_wf hs)) e
          split
          · exact fst_wf (loadChunks_wf h1) ‹_›
          · exact loadFailed_wf (fst_wf (loadChunks_wf h1) ‹_›)
          · exact loadNext_wf (fst_wf (loadChunks_wf h1) ‹_›)
      · exact hs
    · exact hs
  · exact hs

theorem startSlot0_wf {l g sup t} (ht : tileMemWf t) : tileMemWf (startSlot0 l g sup t) := ht

theorem execGroupRelease_wf {s} (hs : memWf s) : safeOut (execGroupRelease s) := by
  unfold execGroupRelease
  split
  · split
    · split
      · exact ite_safe hs (foldl_wf (modTiles_wf (setGroup_wf hs) fun _ _ h1 => startSlot0_wf h1) fun _ _ h2 => serveTileAll_wf h2)
      · exact hs
    · exact hs
  · exact hs

theorem launchRetired_wf {s k trap} (hs : memWf s) : memWf (launchRetired s k trap) := by
  unfold launchRetired
  split
  · exact ite_wf (endLaunch_wf (modLaunch_wf hs)) (modLaunch_wf hs)
  · exact hs

theorem execGroupRetire_wf {s} (hs : memWf s) : safeOut (execGroupRetire s) := by
  unfold execGroupRetire
  split
  · split
    · exact ite_safe (launchRetired_wf (dropGroup_wf hs)) hs
    · exact hs
  · exact hs

theorem levelMove_wf {s t} (hs : memWf s) : memWf (levelMove s t) := by
  unfold levelMove
  split
  · exact ite_wf hs (modTile_wf (modTile_wf hs fun _ h1 => h1) fun _ h2 => h2)
  · exact hs

theorem execLevellerTick_wf {s} (hs : memWf s) : safeOut (execLevellerTick s) := by
  unfold execLevellerTick
  split
  · exact ite_safe (levelMove_wf (modTile_wf hs fun _ h => keepTile_wf h)) hs
  · exact hs

/-! ## Mailboxes -/

theorem mailPark_wf {r s} (hs : memWf s) : safeOut (mailPark r s) := park_wf (modTile_wf hs fun _ h1 => ite_tile h1 h1)
theorem popPost_wf {p rest d a s} (hs : memWf s) : memWf (popPost p rest d a s) :=
  mailRefill_wf (acquire_wf (modMe_wf (readEntry_wf (modTile_wf hs fun _ h1 => h1))))

theorem execRecvm_wf {d a s} (hs : memWf s) : safeOut (execRecvm d a s) := by
  unfold execRecvm
  refine inSet_wf hs fun _ h1 => dests_wf h1 fun _ h2 => ?_
  split
  · exact ite_safe (done_wf (popPost_wf h2)) (mailPark_wf h2)
  · exact mailPark_wf h2

theorem execRecvmO_wf {d a s} (hs : memWf s) : safeOut (execRecvmO d a s) := by
  unfold execRecvmO
  refine inSet_wf hs fun _ h1 => dests_wf h1 fun _ h2 => ?_
  extract_lets
  split
  · exact ite_safe (done_wf (popPost_wf (modTile_wf h2 fun _ h3 => h3))) (mailPark_wf h2)
  · exact ite_safe (trap_wf (modTile_wf h2 fun _ h3 => h3)) (mailPark_wf h2)

theorem waitMail_wf {len s} (hs : memWf s) : safeOut (waitMail len s) := inSet_wf hs fun _ h1 => ite_safe (park_wf h1) (done_wf h1)

theorem execPeekm_wf {d a s} (hs : memWf s) : safeOut (execPeekm d a s) := by
  unfold execPeekm
  refine inSet_wf hs fun _ h1 => dests_wf h1 fun _ h2 => ?_
  extract_lets m
  cases m with
  | nil => exact done_wf (modMe_wf h2)
  | cons p r =>
    have h3 {h f} := readEntry_wf (h := h) (f := f) h2
    exact ite_safe (done_wf (modMe_wf h2)) (done_wf (modMe_wf (ite_wf h3 (modTile_wf h3 fun _ h => h))))

theorem endPost_wf {tag payload s} (hs : memWf s) : safeOut (endPost tag payload s) := by
  unfold endPost
  split
  · exact ite_safe (endSequencer_wf hs) (mailPost_wf (modMe_wf (freshId_wf hs)))
  · exact hs

theorem execSendm_wf {d a b s} (hs : memWf s) : safeOut (execSendm d a b s) := by
  unfold execSendm
  refine inSet_wf hs fun _ h1 => ?_
  split
  · exact ite_safe (illegal_wf h1) (sources_wf h1 fun _ h2 => ite_safe (trap_wf h2) (drained_wf h2 fun _ h3 => endPost_wf h3))
  · refine sources_wf h1 fun _ h2 => ?_
    extract_lets
    refine ite_safe (trap_wf h2) <| ite_safe (trap_wf h2) <| acked_wf h2 fun _ h3 => ?_
    split
    · exact done_wf (poisonReport_wf (fst_wf (onLoom_wf h3) ‹_›))
    · exact park_wf (keep_wf (fst_wf (onLoom_wf h3) ‹_›))

theorem execMailboxPostArrival_wf {s} (hs : memWf s) : safeOut (execMailboxPostArrival s) := by
  unfold execMailboxPostArrival
  split
  · split
    · split
      · refine ite_safe hs ?_
        split
        · exact hs
        · exact hs
        · exact trapOn_wf hs
        · extract_lets s1 _
          have h1 : memWf s1 := parkHart_wf (commitNotes_wf hs)
          exact mailPost_wf (ite_wf (poisonReport_wf h1) h1)
      · exact hs
    · exact hs
  · exact hs

/-! ## The gang switch -/

theorem readDesc_wf {s w} (hs : memWf s) : memWf (readDesc s w).1 := by
  unfold readDesc
  refine ite_fst hs ?_
  split
  · exact fst_wf (xlateHart_wf hs) ‹_›
  · split
    next s1 _ _ e =>
    have h1 : memWf s1 := fst_wf (lineRead_wf (fst_wf (xlateHart_wf hs) ‹_›)) e
    refine ite_fst h1 ?_
    split
    · exact fst_wf (xlateHart_wf h1) ‹_›
    · split
      next s2 _ _ e =>
      have h2 : memWf s2 := fst_wf (lineRead_wf (fst_wf (xlateHart_wf h1) ‹_›)) e
      split <;> exact h2
    · exact fst_wf (xlateHart_wf h1) ‹_›
  · exact fst_wf (xlateHart_wf hs) ‹_›

theorem readDescs_wf {s l} (hs : memWf s) : memWf (readDescs s l).1 := by
  induction l generalizing s with
  | nil => exact hs
  | cons w r ih =>
    unfold readDescs
    split
    next e => exact fst_wf (readDesc_wf hs) e
    next e => exact fst_wf (readDesc_wf hs) e
    next e =>
      have h1 := ih (fst_wf (readDesc_wf hs) e)
      split
      next e => exact fst_wf h1 e
      next => exact h1

/-- What reading a descriptor comes to names no tile that is saved. -/
theorem readDesc_ctx {s s1 : State} {w c x} (h : readDesc s w = (s1, .ok c x)) : ctxMemWf x := by
  revert h
  fun_cases readDesc s w <;> intro h <;> cases h
  rfl

theorem readDescs_ctxs {s s1 : State} {l x} (h : readDescs s l = (s1, none, some x)) : ∀ c ∈ x, ctxMemWf c.2 := by
  induction l generalizing s s1 x with
  | nil => cases h; simp
  | cons w r ih =>
    unfold readDescs at h
    split at h
    next => cases h
    next => cases h
    next e =>
      split at h
      next e2 => cases h; exact List.forall_mem_cons.mpr ⟨readDesc_ctx e, ih e2⟩
      next hn => exact absurd h (hn _ _)

theorem takeCtx_wf {s c x} (hs : memWf s) (hx : ctxMemWf x) : memWf (takeCtx s c x) := by
  unfold takeCtx
  extract_lets y
  refine setCtx_wf (y := y) hs ?_ (hy := rfl)
  unfold y
  split
  next e => have hy := getCtx_wf hs e; exact hy
  next => exact hx

theorem descState_wf {s x r} (hs : memWf s) : memWf (descState s x r) := by
  unfold descState
  split
  · exact physWrite_wf hs
  · exact hs

theorem setRes_wf {s c p r} (hs : memWf s) : memWf (setRes s c p r) := by
  unfold setRes
  split
  next x e =>
    have hx : ctxMemWf x := getCtx_wf hs e
    exact ite_wf hs (descState_wf (setCtx_wf hs hx))
  next => exact hs

theorem nameSwitch_wf {s p t c desc issuer} (hs : memWf s) : memWf (nameSwitch s p t c desc issuer) := ite_wf hs (setRes_wf hs)

theorem destroyCtx_wf {s c} (hs : memWf s) : memWf (destroyCtx s c) := by
  unfold destroyCtx
  extract_lets s1 s2
  have h1 : memWf s1 := by
    unfold s1
    split
    · exact descState_wf (setCtx_wf hs rfl)
    · exact hs
  have h2 : memWf s2 := keep_wf h1
  refine foldl_wf h2 fun _ _ h => foldl_wf h fun _ _ h => ?_
  split
  · exact ite_wf (freeMenderSlot_wf h) h
  · exact h

theorem takeCtxs_wf {s} {l : List (Nat × Ctx)} (hs : memWf s) (hl : ∀ c ∈ l, ctxMemWf c.2) :
    memWf (l.foldl (fun s c => takeCtx s c.1 c.2) s) :=
  List.foldlRecOn (motive := (memWf · = true)) l _ hs fun _ h c hc => takeCtx_wf h (hl c hc)

theorem srTake_wf {s b l} (hs : memWf s) (hl : ∀ c ∈ l, ctxMemWf c.2) : memWf (srTake s b l) := by
  unfold srTake
  have h1 := takeCtxs_wf hs hl
  extract_lets p s1
  split
  · exact nameSwitch_wf h1
  · exact keep_wf h1
  · exact keep_wf h1
  · exact foldl_wf h1 fun _ _ h => destroyCtx_wf h

theorem switchRequest_wf {d a s} (hs : memWf s) : safeOut (switchRequest d a s) := by
  unfold switchRequest
  refine inSet_wf hs fun _ h1 => supOnly_wf h1 fun _ h2 => sources_wf h2 fun _ h3 => blockRead_wf h3 fun _ b s h4 =>
    dests_wf h4 fun _ h5 => acked_wf h5 fun s h6 => ?_
  split
  next e => exact park_wf (fst_wf (readDescs_wf h6) e)
  next s1 l e =>
    have h7 : memWf s1 := fst_wf (readDescs_wf h6) e
    refine done_wf (modMe_wf (ite_wf (srTake_wf h7 fun c hc => ?_) h7))
    cases l with
    | none => cases hc
    | some l => exact readDescs_ctxs e c hc

theorem execTimeSliceNaming_wf {s} (hs : memWf s) : safeOut (execTimeSliceNaming s) := by
  unfold execTimeSliceNaming
  split
  · extract_lets
    split
    · exact nameSwitch_wf hs
    · exact hs
  · exact hs

theorem cutRun_wf {t r k} (ht : tileMemWf t) : tileMemWf (cutRun t r k).1 := by
  fun_cases cutRun t r k
  next => exact keepTile_wf ht
  next =>
    refine tileMemWf_iff.mpr ⟨tile_l_wf (x := t) ht, tile_w_wf (x := t) ht, tile_a_wf (x := t) ht, ?_⟩
    exact List.foldlRecOn (motive := (Memory.wf · = true)) _ _ (tile_c_wf ht) fun _ h _ _ => memWrite_wf _ _ _ h
  next => exact foldl_tile ht fun _ _ h => storeWrite_wf h

theorem cutOp_wf {now t o} (ht : tileMemWf t) : tileMemWf (cutOp now t o).1 := by
  unfold cutOp
  split
  · extract_lets
    split
    · exact cutRun_wf ht
    · exact endRows_wf ht
  all_goals exact ht

theorem modOp_wf {t i k f} (ht : tileMemWf t) : tileMemWf (modOp t i k f) := ht

theorem cutTile_wf {now t} (ht : tileMemWf t) : tileMemWf (cutTile now t) := by
  unfold cutTile
  refine foldl_tile ht fun _ _ h1 => ?_
  split
  · exact modOp_wf (cutOp_wf h1)
  · exact h1

theorem requeue_wf {now t} (ht : tileMemWf t) : tileMemWf (requeue now t) := by
  refine keepTile_wf (foldl_tile_fst (p := (t, now)) ht fun r m h => ?_)
  split
  · split
    · split
      · exact modOp_wf h
      · exact h
    all_goals exact h
  · exact h

theorem settleAll_wf {hsl n s} (hs : memWf s) : memWf (settleAll hsl n s) := by
  induction n generalizing s with
  | zero => exact hs
  | succ n ih =>
    unfold settleAll
    split
    · exact ih (completeOp_wf hs)
    · exact hs

theorem settleTrap_wf {s h} (hs : memWf s) : memWf (settleTrap s h) := by
  unfold settleTrap
  split
  · exact ite_wf (takeTrap_wf hs) hs
  · exact hs

theorem settleMessage_wf {s h ts} (hs : memWf s) : memWf (settleMessage s h ts) := by
  unfold settleMessage
  split
  · exact hs
  · split
    · exact modTile_wf hs fun _ h1 => h1
    · exact hs
  · exact hs

theorem again_wf {s h} (hs : memWf s) : memWf (again s h) := by
  unfold again
  split
  next s1 _ e =>
  have h1 : memWf s1 := fst_wf (freshId_wf hs) e
  split
  · exact modHart_wf h1
  · exact modHart_wf h1
  · exact h1

theorem holdOutside_wf {ts t s r} (hs : memWf s) : memWf (holdOutside ts t s r) := ite_wf hs (modHart_wf (freshId_wf hs))

theorem withdraw_wf {s ts hsl} (hs : memWf s) : memWf (withdraw s ts hsl) := by
  unfold withdraw
  extract_lets s1 w s2 s3
  have h1 : memWf s1 := foldl_wf hs fun _ _ h => foldl_wf h fun _ _ h => holdOutside_wf h
  have h2 : memWf s2 := foldl_wf h1 fun _ _ h => again_wf h
  have h3 : memWf s3 := foldl_wf h2 fun _ _ h => by
    split
    · exact again_wf h
    · exact h
  exact withTiles_wf h3 <| List.forall_mem_map.mpr fun _ hx => keepTile_wf (tiles_wf h3 _ hx)

theorem pauseTile_wf {now x} (hx : tileMemWf x) : tileMemWf (pauseTile now x) := hx
theorem resumeTile_wf {now x} (hx : tileMemWf x) : tileMemWf (resumeTile now x) := hx

theorem stopTiles_wf {s ts} (hs : memWf s) : memWf (stopTiles s ts) :=
  modTiles_wf (withdraw_wf (foldl_wf (foldl_wf (settleAll_wf (modTiles_wf hs fun _ _ h1 => requeue_wf (cutTile_wf h1))) fun _ _ h2 =>
    settleTrap_wf h2) fun _ _ h3 => settleMessage_wf h3)) fun _ _ h4 => pauseTile_wf h4

theorem execGangSwitchStop_wf {s} (hs : memWf s) : safeOut (execGangSwitchStop s) := by
  fun_cases execGangSwitchStop s with
  | case1 k _ p x w _ _ s1 s2 =>
    have h2 : memWf s2 := by
      unfold s2
      split
      next c _ =>
        have h1 : memWf (setRes s1 c p .leaving) := setRes_wf (stopTiles_wf hs)
        extract_lets s3
        split
        next e => exact setCtx_wf h1 (getCtx_wf h1 e)
        next => exact h1
      next => exact stopTiles_wf hs
    exact keep_wf h2
  | case2 | case3 => exact hs

/-! ## SYS and the CSRs -/

theorem execNop_wf {s} (hs : memWf s) : safeOut (execNop s) := inSet_wf hs fun _ h1 => done_wf h1
theorem execEcall_wf {s} (hs : memWf s) : safeOut (execEcall s) := inSet_wf hs fun _ h1 => trap_wf h1
theorem execEbreak_wf {s} (hs : memWf s) : safeOut (execEbreak s) := inSet_wf hs fun _ h1 => trap_wf h1
theorem execTret_wf {s} (hs : memWf s) : safeOut (execTret s) := inSet_wf hs fun _ h1 => trapReturn_wf h1
theorem execIfence_wf {s} (hs : memWf s) : safeOut (execIfence s) :=
  inSet_wf hs fun _ h1 => drained_wf h1 fun _ h2 => done_wf (by split; exacts [modTile_wf h2 fun _ h3 => h3, h2])
theorem execPark_wf {a s} (hs : memWf s) : safeOut (execPark a s) :=
  inSet_wf hs fun _ h1 => sources_wf h1 fun _ h2 => ite_safe (park_wf h2) (done_wf h2)
theorem execCSysNop_wf {s} (hs : memWf s) : safeOut (execCSysNop s) := inSet_wf hs fun _ h1 => done_wf h1

theorem csrWriteTile_wf {t n v} (ht : tileMemWf t) : tileMemWf (csrWriteTile t n v) := by
  unfold csrWriteTile
  split
  · exact ht
  · exact ht
  · exact ht
  · exact ite_tile ht ht
  · exact ht
  · exact ht
  · exact ite_tile ht ht

theorem csrClear_wf {s h n mask} (hs : memWf s) : memWf (csrClear s h n mask) := by
  unfold csrClear
  refine ite_wf (modHart_wf hs) <| ite_wf ?_ hs
  split
  · exact modTile_wf hs fun _ h1 => ite_tile h1 h1
  · exact hs

theorem csrWrite_wf {s h n v} (hs : memWf s) : memWf (csrWrite s h n v) := by
  unfold csrWrite
  extract_lets
  split
  · exact modTile_wf (modHart_wf hs) fun _ h1 => (csrWriteTile_wf h1)
  · exact modHart_wf hs

theorem csrFetch_wf {s h n} (hs : memWf s) : memWf (csrFetch s h n).1 := by
  unfold csrFetch
  split
  · exact hs
  · extract_lets _ s1
    have h1 : memWf s1 := by
      unfold s1
      split
      · exact modTile_wf (modHart_wf hs) fun _ h2 => ite_tile h2 h2
      · exact modHart_wf hs
    exact flawSeen_wf h1

theorem csrCheck_wf {n s k} (hs : memWf s) (hk : ∀ t, memWf t → safeOut (k t)) : safeOut (csrCheck n s k) :=
  ite_safe (illegal_wf hs) (inSet_wf hs fun _ h1 => ite_safe (illegal_wf h1) (ite_safe (supOnly_wf h1 hk) (hk _ h1)))
theorem flagsSettled_wf {n s k} (hs : memWf s) (hk : ∀ t, memWf t → safeOut (k t)) : safeOut (flagsSettled n s k) :=
  ite_safe (hold_wf hs) (hk _ hs)
theorem csrDone_wf {st s} (hs : memWf s) : safeOut (csrDone st s) := completeAs_wf hs
theorem execCsrr_wf {d csr s} (hs : memWf s) : safeOut (execCsrr d csr s) :=
  csrCheck_wf hs fun _ h1 => flagsSettled_wf h1 fun _ h2 => dests_wf h2 fun _ h3 => done_wf (modMe_wf (csrFetch_wf h3))
theorem execCsrw_wf {csr a s} (hs : memWf s) : safeOut (execCsrw csr a s) :=
  csrCheck_wf hs fun _ h1 => sources_wf h1 fun _ h2 => csrDone_wf (csrWrite_wf (csrClear_wf h2))

theorem csrSwap_wf {f clr d csr a s} (hs : memWf s) : safeOut (csrSwap f clr d csr a s) :=
  csrCheck_wf hs fun _ h1 => sources_wf h1 fun _ h2 => flagsSettled_wf h2 fun _ h3 => dests_wf h3 fun _ h4 =>
    csrDone_wf (modMe_wf (csrWrite_wf (ite_wf (csrClear_wf (csrFetch_wf h4)) (csrFetch_wf h4))))

/-! ## The press -/

theorem dropLines_wf {s line n} (hs : memWf s) : memWf (dropLines s line n) := foldl_wf hs fun _ _ h1 => dropLine_wf h1
theorem wakePage_wf {s pa} (hs : memWf s) : memWf (wakePage s pa) := foldl_wf hs fun _ _ h1 => wakeSlice_wf h1

theorem pageSent_wf {old s pa} (hold : memWf old) (hs : memWf s) : memWf (pageSent old s pa) := by
  unfold pageSent
  refine ite_wf hs <| foldl_wf hs fun _ _ h1 => ?_
  extract_lets
  split
  · exact fst_wf (travel_wf h1) ‹_›
  · exact taintLine_wf (fst_wf (travel_wf h1) ‹_›)
  next s2 e =>
    have h2 : memWf s2 := fst_wf (travel_wf h1) e
    exact withMem_wf h2 (memCopy_wf _ _ _ (mem_wf h2) (mem_wf hold))

theorem putPage_wf {s m off pa bad} (hs : memWf s) (hm : Memory.wf m) : memWf (putPage s m off pa bad) :=
  dropLines_wf (pageSent_wf hs (wakePage_wf (withMem_wf hs (memCopy_wf _ _ _ (mem_wf hs) hm))))
theorem savePage_wf {s x st off pa} (hs : memWf s) (hx : tileMemWf x) : memWf (savePage s x st off pa) := putPage_wf hs (storeMem_wf hx)

theorem pageBad_wf {s pa} (hs : memWf s) : memWf (pageBad s pa).1 := by
  unfold pageBad
  extract_lets _ s1 _
  have h1 : memWf s1 := foldl_wf (wakePage_wf hs) fun _ _ h2 => findError_wf h2
  exact ite_fst h1 (foldl_fst h1 fun _ _ h3 => (travel_wf h3))

theorem pressWrite_wf {s d c va n v} (hs : memWf s) : memWf (pressWrite s d c va n v) := by
  unfold pressWrite
  split
  · refine foldl_fst (fst_wf (unitChunks_wf hs) ‹_›) fun _ _ h1 => ?_
    split
    next s2 e =>
      have h2 : memWf s2 := fst_wf (travel_wf h1) e
      exact dropLine_wf (withMem_wf h2 (memWrite_wf _ _ _ (mem_wf h2)))
    next s2 e =>
      have h2 : memWf s2 := fst_wf (travel_wf h1) e
      exact taintLine_wf (dropLine_wf (withMem_wf h2 (memWrite_wf _ _ _ (mem_wf h2))))
    · exact fst_wf (travel_wf h1) ‹_›
  · exact fst_wf (unitChunks_wf hs) ‹_›

theorem pressRead_wf {s d c va n} (hs : memWf s) : memWf (pressRead s d c va n).1 := by
  unfold pressRead
  split
  next s1 _ e =>
    have h1 : memWf s1 := fst_wf (unitChunks_wf hs) e
    exact ite_wf (unitPoison_wf (readLines_wf h1)) (readLines_wf h1)
  · exact fst_wf (unitChunks_wf hs) ‹_›

theorem saveRecord_wf {s c y t} (hs : memWf s) : memWf (saveRecord s c y t) := by
  unfold saveRecord
  extract_lets s0 x base s1 s2
  have hx : tileMemWf x := getTile_wf (actFor_wf hs)
  have h1 : memWf s1 := foldl_wf (actFor_wf hs) fun _ _ h => by
    split
    next e => exact savePage_wf (fst_wf (unitXlate_wf h) e) hx
    next e => exact fst_wf (unitXlate_wf h) e
  have h2 : memWf s2 := foldl_wf h1 fun _ _ h => by
    split
    next e => exact putPage_wf (fst_wf (unitXlate_wf h) e) rfl
    next e => exact fst_wf (unitXlate_wf h) e
  exact foldl_wf h2 fun _ _ h => pressWrite_wf h

theorem saveHeader_wf {s c y} (hs : memWf s) : memWf (saveHeader s c y) := by
  unfold saveHeader
  extract_lets
  split
  · exact physWrite_wf (physWrite_wf (physWrite_wf (physWrite_wf (fst_wf (unitXlate_wf (actFor_wf hs)) ‹_›))))
  · exact fst_wf (unitXlate_wf (actFor_wf hs)) ‹_›

theorem saveTiles_wf {s p c} (hs : memWf s) : memWf (saveTiles s p c) := by
  unfold saveTiles
  split
  next => exact hs
  next y e =>
    have hy := getCtx_wf hs e
    extract_lets ts used recs z s1 s2
    have hr : ∀ r ∈ recs, tileMemWf r.state := by
      unfold recs
      split
      · exact List.forall_mem_map.mpr fun _ _ => getTile_wf hs
      · simp
    have hz : ctxMemWf z := by
      refine List.all_eq_true.mpr fun r hm => (List.mem_append.mp hm).elim (fun hm => ?_) (hr r)
      exact List.all_eq_true.mp hy r (List.mem_filter.mp hm).1
    have h1 : memWf s1 := setCtx_wf hs hz
    have h2 : memWf s2 := ite_wf (foldl_wf h1 fun _ _ h => saveRecord_wf h) h1
    exact setRes_wf (saveHeader_wf h2)

theorem execGangSwitchSaveDone_wf {s} (hs : memWf s) : safeOut (execGangSwitchSaveDone s) := by
  unfold execGangSwitchSaveDone
  split
  · extract_lets _ s1 _ _
    have h1 : memWf s1 := by unfold s1; split; exacts [saveTiles_wf hs, hs]
    split
    · exact modTiles_wf h1 fun _ _ _ => Tile.reset_wf
    · exact hs
  · exact hs

/-- Putting a piece of a record back leaves the stores of the tile as they are. -/
def KeepsStores (p : Piece) : Prop := ∀ v t, (p.put v t).l = t.l ∧ (p.put v t).w = t.w ∧ (p.put v t).a = t.a ∧ (p.put v t).c = t.c

theorem windowPieces_keep : ∀ p ∈ windowPieces, KeepsStores p := by
  simp only [windowPieces, List.forall_mem_append, List.forall_mem_map]
  exact ⟨fun _ _ _ _ => ⟨rfl, rfl, rfl, rfl⟩, by simp [KeepsStores]⟩

theorem latchPieces_keep : ∀ p ∈ latchPieces, KeepsStores p := by
  simp [latchPieces, KeepsStores]

theorem bankPieces_keep {b} : ∀ p ∈ bankPieces b, KeepsStores p := by
  simp [bankPieces, KeepsStores]

theorem foldPieces_keep {q} : ∀ p ∈ foldPieces q, KeepsStores p := by
  simp [foldPieces, KeepsStores]

theorem hartPieces_keep {h} : ∀ p ∈ hartPieces h, KeepsStores p := by
  simp [hartPieces, KeepsStores]

theorem tilePieces_keep : ∀ p ∈ tilePieces, KeepsStores p := by
  simp [tilePieces, KeepsStores]

theorem pieces_keep : ∀ p ∈ pieces, KeepsStores p := by
  intro p hp
  simp only [pieces, List.mem_append, List.mem_flatMap] at hp
  rcases hp with ((((hp | hp) | ⟨_, _, hp⟩) | ⟨_, _, hp⟩) | ⟨_, _, hp⟩) | hp
  · exact windowPieces_keep p hp
  · exact latchPieces_keep p hp
  · exact bankPieces_keep p hp
  · exact foldPieces_keep p hp
  · exact hartPieces_keep p hp
  · exact tilePieces_keep p hp

theorem put_wf {p : Piece} {v t} (hp : p ∈ pieces) (ht : tileMemWf t) : tileMemWf (p.put v t) := by
  obtain ⟨hl, hw, ha, hc⟩ := pieces_keep p hp v t
  exact keepTile_wf ht hl hw ha hc

/-- A state and a tile beside it, both in canonical form. -/
def pairWf (r : State × Tile) : Prop := memWf r.1 ∧ tileMemWf r.2

theorem loadPage_pairWf {s x st off pa} (hs : memWf s) (hx : tileMemWf x) : pairWf (loadPage s x st off pa) := by
  unfold loadPage
  refine ⟨pageBad_wf hs, foldl_tile ?_ fun _ _ h => ite_tile (storeTaint_wf h) (keepTile_wf h)⟩
  exact keepTile_wf (setStoreMem_wf hx (memCopy_wf _ _ _ (storeMem_wf hx) (mem_wf (pageBad_wf hs))))

theorem loadRecord_wf {s c y t x} (hs : memWf s) (hx : tileMemWf x) : pairWf (loadRecord s c y t x) := by
  unfold loadRecord
  extract_lets s0 base r
  have hr : pairWf r := List.foldlRecOn (motive := pairWf) _ _ ⟨actFor_wf hs, hx⟩ fun _ ⟨h1, h2⟩ _ _ => by
    split
    next e => exact loadPage_pairWf (fst_wf (unitXlate_wf h1) e) h2
    next e => exact ⟨fst_wf (unitXlate_wf h1) e, h2⟩
  refine List.foldlRecOn (motive := pairWf) _ _ hr fun _ ⟨h1, h2⟩ p hp => ?_
  split
  next e => exact ⟨fst_wf (pressRead_wf h1) e, ite_tile h2 (put_wf hp h2)⟩
  next e => exact ⟨fst_wf (pressRead_wf h1) e, h2⟩

theorem restoreTile_wf {s p c y t} (hs : memWf s) (hy : ctxMemWf y) : memWf (restoreTile s p c y t) := by
  unfold restoreTile
  split
  next r e =>
    have h : pairWf (loadRecord s c y t r.state) := loadRecord_wf hs (List.all_eq_true.mp hy r (List.mem_of_find?_eq_some e))
    generalize loadRecord s c y t r.state = q at h ⊢
    exact setTile_wf h.1 (resumeTile_wf h.2)
  next =>
    refine setTile_wf hs ?_
    exact keepTile_wf Tile.reset_wf

theorem answered_wf {s h} (hs : memWf s) : memWf (answered s h) := by
  unfold answered
  extract_lets
  split
  · exact ite_wf (modHart_wf hs) (complete_wf (modHart_wf hs))
  · exact modHart_wf hs

theorem dropPartTlb_wf {s ts} (hs : memWf s) : memWf (dropPartTlb s ts) := hs

theorem switchReport_wf {s p w} (hs : memWf s) : memWf (switchReport s p w) := by
  unfold switchReport
  split <;> exact hs

theorem dropSaved_wf {s c p} (hs : memWf s) : memWf (dropSaved s c p) := by
  unfold dropSaved
  split
  next e => exact setCtx_wf hs (ctxMemWf_filter (getCtx_wf hs e))
  next => exact hs

theorem execGangSwitchRestore_wf {s} (hs : memWf s) : safeOut (execGangSwitchRestore s) := by
  fun_cases execGangSwitchRestore s with
  | case2 k _ p w _ _ ts s1 s2 =>
    have h1 : memWf s1 := by
      unfold s1
      split
      next y e =>
        have h2 : memWf (ts.foldl (fun s t => restoreTile s p w.target y t) s) := foldl_wf hs fun _ _ h => restoreTile_wf h (getCtx_wf hs e)
        exact setRes_wf (foldl_wf (dropSaved_wf h2) fun _ _ h => answered_wf h)
      next => exact hs
    have h2 : memWf s2 := dropPartTlb_wf h1
    exact switchReport_wf (keep_wf h2)
  | case1 | case3 | case4 => exact hs

/-! ## The harts that wake -/

theorem pruneYield_wf {s t x issued} (hx : tileMemWf x) : tileMemWf (pruneYield s t x issued) := hx

/-! ## The device -/

theorem clearDevice_wf {s} (hs : memWf s) : memWf (clearDevice s) := withMem_wf hs (memWfFrom_filter _ _ _ (mem_wf hs))

theorem execBringUp_wf {s} (hs : memWf s) : safeOut (execBringUp s) := by
  unfold execBringUp
  refine ite_safe hs ?_
  extract_lets _ s1 _ _
  have h1 : memWf s1 := ite_wf (clearDevice_wf hs) hs
  exact ite_safe h1 h1

theorem startAttestation_wf {s} (hs : memWf s) : memWf (startAttestation s) := ite_wf hs hs

theorem execAttestationDone_wf {s} (hs : memWf s) : safeOut (execAttestationDone s) := by
  unfold execAttestationDone
  split <;> exact hs

theorem tripped_wf {s} (hs : memWf s) : memWf (tripped s) := sendMsi_wf hs
theorem senseHot_wf {s l} (hs : memWf s) : memWf (senseHot s l) := hs

theorem execThermalTrip_wf {s} (hs : memWf s) : safeOut (execThermalTrip s) := by
  unfold execThermalTrip
  split
  · exact tripped_wf hs
  · exact ite_wf (tripped_wf (senseHot_wf hs)) (senseHot_wf hs)
  · exact hs

theorem clearTrip_wf {s} (hs : memWf s) : memWf (clearTrip s) := hs

theorem execTripClear_wf {s} (hs : memWf s) : safeOut (execTripClear s) := by
  unfold execTripClear
  split
  · extract_lets s1
    have h1 : memWf s1 := clearTrip_wf (senseHot_wf hs)
    exact ite_wf (tripped_wf h1) h1
  · exact clearTrip_wf hs

theorem writeDevstat_wf {s v} (hs : memWf s) : memWf (writeDevstat s v) := ite_wf (clearTrip_wf hs) hs
theorem writeDevctl_wf {s v} (hs : memWf s) : memWf (writeDevctl s v) := ite_wf (startAttestation_wf hs) hs
theorem writeDper_wf {s d v} (hs : memWf s) : memWf (writeDper s d v) := countErr_wf (nextFree_wf hs)
theorem setIdeKey_wf {s p stream key} (hs : memWf s) : memWf (setIdeKey s p stream key) := ite_wf hs hs

theorem execRegisterWrite_wf {s} (hs : memWf s) : safeOut (execRegisterWrite s) := by
  unfold execRegisterWrite
  split
  · exact setIdeKey_wf hs
  · exact hs
  · refine ite_safe (writeDevstat_wf hs) (ite_safe (writeDevctl_wf hs) (ite_safe ?_ (ite_safe (writeDper_wf hs) (ite_safe ?_ hs))))
    · exact keep_wf hs
    · exact keep_wf hs
  · exact hs

theorem aliasDropped_wf {s c off size} (hs : memWf s) : memWf (aliasDropped s c off size) := unitReport_wf hs

theorem armQueue_wf {s c q v} (hs : memWf s) : memWf (armQueue s c q v) := by
  unfold armQueue
  extract_lets
  split
  · exact keep_wf (fst_wf (unitReady_wf (actFor_wf hs)) ‹_›)
  · exact unitSettled_wf (unitPut_wf (fst_wf (unitReady_wf (actFor_wf hs)) ‹_›) fun _ _ h1 => hwFill_wf h1)

theorem aliasStore_wf {s off size v} (hs : memWf s) : memWf (aliasStore s off size v) := by
  unfold aliasStore
  split
  · exact hs
  · exact ite_wf hs (ite_wf (armQueue_wf hs) (aliasDropped_wf hs))

theorem execArmAliasStore_wf {s} (hs : memWf s) : safeOut (execArmAliasStore s) := by
  unfold execArmAliasStore
  split
  · exact aliasStore_wf hs
  · split
    · exact armQueue_wf hs
    · exact hs
  · exact hs

theorem windowStore_wf {s off size l} (hs : memWf s) : memWf (windowStore s off size l) := by
  unfold windowStore
  split
  · exact hs
  · exact ite_wf hs (ite_wf (enqueueReward_wf hs) (aliasDropped_wf hs))

theorem execRewardWindowWrite_wf {s} (hs : memWf s) : safeOut (execRewardWindowWrite s) := by
  unfold execRewardWindowWrite
  split
  · exact windowStore_wf hs
  · exact hs

theorem hostWrite_wf {s pa n v bad} (hs : memWf s) : memWf (hostWrite s pa n v bad) := ite_wf (physWrite_wf hs) (physWrite_wf hs)
theorem hostTold_wf {s a} (hs : memWf s) : memWf (hostTold s a) := hs
theorem hostRead_wf {s pa n} (hs : memWf s) : memWf (hostRead s pa n) := hostTold_wf (wakeSlice_wf hs)
theorem hostAlias_wf {s off n v} (hs : memWf s) : memWf (hostAlias s off n v) := ite_wf (windowStore_wf hs) (aliasStore_wf hs)
theorem hostAdds_wf {s pa n v put} (hs : memWf s) (hput : ∀ t x, memWf t → memWf (put t x)) : memWf (hostAdds s pa n v put) :=
  hostTold_wf (hput _ _ hs)

theorem execHostMemAccess_wf {s} (hs : memWf s) : safeOut (execHostMemAccess s) := by
  unfold execHostMemAccess
  refine ite_safe hs <| ite_safe (hostTold_wf hs) ?_
  split
  · split
    · exact hostWrite_wf hs
    · exact hostRead_wf hs
    · exact hostAlias_wf hs
    · exact hostTold_wf hs
    · exact hostTold_wf hs
  · exact ite_safe (hostAdds_wf hs fun _ _ h1 => hostWrite_wf h1) (hostTold_wf hs)
  · exact hs

theorem hostTakes_wf {s pa n data bad} (hs : memWf s) : memWf (hostTakes s pa n data bad) := by
  unfold hostTakes
  extract_lets
  split
  · extract_lets s1 _ _
    have h1 : memWf s1 := withMem_wf (dropLine_wf hs) (memWrite_wf _ _ _ (mem_wf (dropLine_wf hs)))
    exact ite_wf (ite_wf h1 h1) (ite_wf h1 h1)
  · exact dropLine_wf hs

theorem execHostLineSnoop_wf {s} (hs : memWf s) : safeOut (execHostLineSnoop s) := by
  unfold execHostLineSnoop
  split
  · exact ite_safe hs (hostTakes_wf hs)
  · exact ite_safe hs (hostAdds_wf hs fun _ _ h1 => hostTakes_wf h1)
  · exact hs
  · exact hs

theorem execTableLineSnoop_wf {s} (hs : memWf s) : safeOut (execTableLineSnoop s) := by
  unfold execTableLineSnoop
  split
  · exact ite_safe hs (hostTakes_wf hs)
  · exact dropLine_wf hs
  · exact hs

theorem execHostPortDown_wf {s} (hs : memWf s) : safeOut (execHostPortDown s) := by
  unfold execHostPortDown
  split
  · exact ite_safe hs hs
  · exact hs

theorem execHomeChannelPowerDown_wf {s} (hs : memWf s) : safeOut (execHomeChannelPowerDown s) := hs
theorem execSelfRefreshEntry_wf {s} (hs : memWf s) : safeOut (execSelfRefreshEntry s) := hs

theorem execTileSleep_wf {s} (hs : memWf s) : safeOut (execTileSleep s) := by
  unfold execTileSleep
  split
  · exact ite_safe (modTile_wf hs fun _ h1 => h1) hs
  · exact hs

theorem execTileWake_wf {s} (hs : memWf s) : safeOut (execTileWake s) := by
  unfold execTileWake
  split
  · exact ite_safe (modTile_wf hs fun _ h1 => h1) hs
  · exact hs

theorem execDarnerLine_wf {s} (hs : memWf s) : safeOut (execDarnerLine s) := by
  unfold execDarnerLine
  split
  · exact ite_safe hs (findError_wf (wakeSlice_wf hs))
  · exact hs

theorem execEscapeEntry_wf {s} (hs : memWf s) : safeOut (execEscapeEntry s) := by
  unfold execEscapeEntry
  split
  · exact hs
  · exact modHart_wf hs
  · exact hs

/-! ## The links -/

theorem setLink_wf {s l x} (hs : memWf s) : memWf (setLink s l x) := hs
theorem membersDown_wf {s l} (hs : memWf s) : memWf (membersDown s l) := hs

theorem rewardsEnd_wf {s l} (hs : memWf s) : memWf (rewardsEnd s l) := by
  unfold rewardsEnd
  extract_lets
  refine foldl_wf hs fun _ _ h1 => ?_
  split
  · exact ite_wf (complete_wf (poisonReport_wf h1)) h1
  · exact h1

theorem linkDown_wf {s l} (hs : memWf s) : memWf (linkDown s l) := rewardsEnd_wf (membersDown_wf (setLink_wf hs))
theorem linkTrain_wf {s l} (hs : memWf s) : memWf (linkTrain s l) := hs

theorem execLinkTrainingDone_wf {s} (hs : memWf s) : safeOut (execLinkTrainingDone s) := by
  unfold execLinkTrainingDone
  split
  · exact ite_safe hs (ite_wf (membersDown_wf (setLink_wf hs)) (setLink_wf hs))
  · exact hs

theorem execLinkTrainingTimeout_wf {s} (hs : memWf s) : safeOut (execLinkTrainingTimeout s) := by
  unfold execLinkTrainingTimeout
  split
  · exact ite_safe (linkDown_wf hs) hs
  · exact hs

theorem execLinkIdleTimeout_wf {s} (hs : memWf s) : safeOut (execLinkIdleTimeout s) := by
  unfold execLinkIdleTimeout
  split
  · exact ite_safe (linkDown_wf hs) hs
  · exact hs

theorem sendNow_wf {s l b} (hs : memWf s) : memWf (sendNow s l b) := hs

theorem execIdleFlitSend_wf {s} (hs : memWf s) : safeOut (execIdleFlitSend s) := by
  unfold execIdleFlitSend
  split
  · exact ite_safe (sendNow_wf hs) hs
  · exact hs

theorem sendReady_wf {l n s} (hs : memWf s) : memWf (sendReady l n s) := by
  induction n generalizing s with
  | zero => exact hs
  | succ n ih =>
    unfold sendReady
    extract_lets
    split
    · exact setLink_wf hs
    · exact ite_wf hs (ih (sendNow_wf (setLink_wf hs)))

theorem linkCycle_wf {s l} (hs : memWf s) : memWf (linkCycle s l) := setLink_wf (sendReady_wf (setLink_wf hs))
theorem linkCycles_wf {s} (hs : memWf s) : memWf (linkCycles s) := foldl_wf hs fun _ _ h1 => ite_wf (linkCycle_wf h1) h1

theorem execLinkWiden_wf {s} (hs : memWf s) : safeOut (execLinkWiden s) := by
  unfold execLinkWiden
  split
  · exact ite_safe (setLink_wf hs) hs
  · exact hs

theorem execWakeComplete_wf {s} (hs : memWf s) : safeOut (execWakeComplete s) := by
  unfold execWakeComplete
  split
  · exact ite_safe (setLink_wf hs) hs
  · exact hs

theorem execLinkNarrow_wf {s} (hs : memWf s) : safeOut (execLinkNarrow s) := by
  unfold execLinkNarrow
  split
  · exact ite_safe (setLink_wf hs) hs
  · exact hs

theorem execWidthFlitReceive_wf {s} (hs : memWf s) : safeOut (execWidthFlitReceive s) := by
  unfold execWidthFlitReceive
  split
  · exact ite_safe (setLink_wf hs) hs
  · exact hs

theorem laneFailed_wf {s l i} (hs : memWf s) : memWf (laneFailed s l i) := ite_wf (linkDown_wf (setLink_wf hs)) (setLink_wf hs)
theorem noteLane_wf {s l i} (hs : memWf s) : memWf (noteLane s l i) := ite_wf (laneFailed_wf (setLink_wf hs)) (setLink_wf hs)

theorem rewardAnswered_wf {s l h} (hs : memWf s) : memWf (rewardAnswered s l h) := by
  unfold rewardAnswered
  split
  · extract_lets
    split
    · exact ite_wf (complete_wf hs) hs
    · exact hs
  · exact hs

theorem rewardLost_wf {s l h} (hs : memWf s) : memWf (rewardLost s l h) := by
  unfold rewardLost
  split
  · exact rewardAnswered_wf (poisonReport_wf hs)
  · exact hs

theorem execRwsendRemoteAnswer_wf {s} (hs : memWf s) : safeOut (execRwsendRemoteAnswer s) := by
  unfold execRwsendRemoteAnswer
  split
  · split
    · exact ite_safe (rewardAnswered_wf hs) hs
    · exact hs
  · exact hs

theorem collArrive_wf {s c gid seq member a} (hs : memWf s) : memWf (collArrive s c gid seq member a) := ite_wf hs hs

theorem collFlitLost_wf {s l c gid seq} (hs : memWf s) : memWf (collFlitLost s l c gid seq) := by
  unfold collFlitLost
  extract_lets
  split <;> exact unitPoison_wf hs

theorem takeFlit_wf {s l ok b} (hs : memWf s) : memWf (takeFlit s l ok b) := by
  unfold takeFlit
  split
  · exact hs
  · exact hs
  · exact setLink_wf hs
  · exact setLink_wf hs
  · exact ite_wf hs (enqueueReward_wf hs)
  · exact rewardAnswered_wf hs
  · exact rewardLost_wf hs
  · exact collFlitLost_wf hs
  · exact ite_wf hs (collArrive_wf hs)

theorem flitLost_wf {s l b} (hs : memWf s) : memWf (flitLost s l b) := by
  unfold flitLost
  split
  · exact queueFlit_wf hs
  · exact queueFlit_wf hs
  all_goals exact hs

theorem execFlitReceive_wf {s} (hs : memWf s) : safeOut (execFlitReceive s) := by
  unfold execFlitReceive
  split
  · refine ite_safe hs ?_
    extract_lets _ _ _ s1 s2 s3 s4
    have h1 : memWf s1 := ite_wf (setLink_wf hs) (countErr_wf (setLink_wf hs))
    have h2 : memWf s2 := ite_wf h1 (countErr_wf h1)
    have h3 : memWf s3 := ite_wf h2 (countErr_wf h2)
    have h4 : memWf s4 := ite_wf (takeFlit_wf h3) (flitLost_wf h3)
    exact ite_wf h4 (foldl_wf h4 fun _ _ h5 => noteLane_wf h5)
  · exact hs

theorem lkctlDo_wf {s l op v} (hs : memWf s) : memWf (lkctlDo s l op v) := by
  unfold lkctlDo
  split
  · exact setLink_wf hs
  · exact setLink_wf hs
  · exact linkTrain_wf (ite_wf (linkDown_wf hs) hs)
  · exact hs

theorem lkctl_wf {d a b s} (hs : memWf s) : safeOut (lkctl d a b s) :=
  inSet_wf hs fun _ h1 => supOnly_wf h1 fun _ h2 => sources_wf h2 fun _ h3 =>
    ite_safe (trap_wf h3) (ite_safe (trap_wf h3) (dests_wf h3 fun _ h4 => done_wf (modMe_wf (lkctlDo_wf h4))))

/-! ## The collectives -/

theorem putColl_wf {s g} (hs : memWf s) : memWf (putColl s g) := hs
theorem collHand_wf {f la n ea eb gid c ty desc s} (hs : memWf s) : safeOut (collHand f la n ea eb gid c ty desc s) := issueAwait_wf hs

theorem execCollDecl_wf {la n ea s} (hs : memWf s) : safeOut (execCollDecl la n ea s) :=
  inSet_wf hs fun _ h1 => sources_wf h1 fun _ h2 => roomForLong_wf h2 fun _ h3 => blockRead_wf h3 fun _ _ _ h4 =>
    ite_safe (trap_wf h4) (ite_safe (trap_wf h4) (collHand_wf h4))

theorem collData_wf {f la n ec eb ea s} (hs : memWf s) : safeOut (collData f la n ec eb ea s) := by
  unfold collData
  refine inSet_wf hs fun _ h1 => sources_wf h1 fun _ h2 => roomForLong_wf h2 fun _ h3 => ?_
  extract_lets
  split
  · exact trap_wf h3
  · exact collHand_wf h3

theorem execCollBar_wf {la n ec s} (hs : memWf s) : safeOut (execCollBar la n ec s) := by
  unfold execCollBar
  refine inSet_wf hs fun _ h1 => sources_wf h1 fun _ h2 => roomForLong_wf h2 fun _ h3 => ?_
  extract_lets
  split
  · exact trap_wf h3
  · exact collHand_wf h3

theorem putCollOp_wf {s x} (hs : memWf s) : memWf (putCollOp s x) := hs

theorem collTake_wf {s x} (hs : memWf s) : memWf (collTake s x) := by
  unfold collTake
  split
  next s1 _ e =>
  have h1 : memWf s1 := fst_wf (freshId_wf (awaitDone_wf hs)) e
  extract_lets
  refine ite_wf (putCollOp_wf h1) ?_
  split
  · exact putCollOp_wf (putColl_wf h1)
  · exact h1

theorem collSend_wf {s x g own k} (hs : memWf s) : memWf (collSend s x g own k) := ite_wf hs (foldl_wf hs fun _ _ h1 => queueFlit_wf h1)
theorem collBegin_wf {s x g own fault} (hs : memWf s) : memWf (collBegin s x g own fault) :=
  putCollOp_wf (foldl_wf hs fun _ _ h1 => collSend_wf h1)

theorem collRun_wf {s x} (hs : memWf s) : memWf (collRun s x) := by
  unfold collRun
  split
  · exact hs
  · extract_lets
    split
    · exact fst_wf (unitReady_wf (actFor_wf hs)) ‹_›
    next s1 e =>
      have h1 : memWf s1 := fst_wf (unitReady_wf (actFor_wf hs)) e
      split
      · exact collBegin_wf (unitSettled_wf (readChunks_wf (fst_wf (unitChunks_wf h1) ‹_›)))
      · exact collBegin_wf (unitSettled_wf (fst_wf (unitChunks_wf h1) ‹_›))

theorem execCollAccept_wf {s} (hs : memWf s) : safeOut (execCollAccept s) := by
  unfold execCollAccept
  split
  · split
    · exact ite_safe (collTake_wf hs) (ite_safe (collRun_wf hs) hs)
    · exact hs
  · exact hs

theorem execCollMemberAnswer_wf {s} (hs : memWf s) : safeOut (execCollMemberAnswer s) := by
  unfold execCollMemberAnswer
  split
  · exact collArrive_wf hs
  · exact hs

theorem execCollMemberTimeout_wf {s} (hs : memWf s) : safeOut (execCollMemberTimeout s) := by
  unfold execCollMemberTimeout
  split
  · split
    · refine ite_safe hs ?_
      split
      · exact putColl_wf hs
      · exact hs
    · exact hs
  · exact hs

theorem collPut_wf {s x r} (hs : memWf s) : memWf (collPut s x r).1 := by
  unfold collPut
  extract_lets
  split
  next s1 _ e =>
    have h1 : memWf s1 := fst_wf (unitChunks_wf hs) e
    split
    · exact fst_wf (writeChunks_wf h1) ‹_›
    · exact unitPoison_wf (fst_wf (writeChunks_wf h1) ‹_›)
  · exact fst_wf (unitChunks_wf hs) ‹_›

theorem collPutAll_wf {s x l} (hs : memWf s) : memWf (collPutAll s x l).1 := by
  induction l generalizing s with
  | nil => exact hs
  | cons r l ih =>
    unfold collPutAll
    split
    next e => exact ih (fst_wf (collPut_wf hs) e)
    next e => exact fst_wf (collPut_wf hs) e

theorem maskPutAll_wf {s x va n l} (hs : memWf s) : memWf (maskPutAll s x va n l).1 := by
  induction n generalizing s va l with
  | zero => exact hs
  | succ n ih =>
    unfold maskPutAll
    refine ite_fst hs ?_
    extract_lets d va
    split
    next s1 pa e =>
      split
      next s2 w e2 =>
        have h2 : memWf s2 := fst_wf (travel_wf (fst_wf (unitXlate_wf hs) e)) e2
        extract_lets s3 s4
        have h3 : memWf s3 := ite_wf h2 (physWrite_wf h2)
        have h4 : memWf s4 := ite_wf (taintLine_wf h3) h3
        exact ih (ite_wf h4 (unitPoison_wf h4))
    next e => exact fst_wf (unitXlate_wf hs) e

theorem collEnd_wf {s x g status} (hs : memWf s) : memWf (collEnd s x g status) := putCollOp_wf (ite_wf (putColl_wf hs) hs)

theorem collFinish_wf {s x g} (hs : memWf s) : memWf (collFinish s x g) := by
  unfold collFinish
  extract_lets
  split
  · exact fst_wf (unitReady_wf (actFor_wf hs)) ‹_›
  · split
    next s1 _ e =>
    have h1 : memWf s1 := fst_wf (collPutAll_wf (fst_wf (unitReady_wf (actFor_wf hs)) ‹_›)) e
    split
    next s2 _ e =>
    have h2 : memWf s2 := fst_wf (ite_fst h1 (maskPutAll_wf h1)) e
    exact collEnd_wf (unitSettled_wf h2)

theorem execCollPost_wf {s} (hs : memWf s) : safeOut (execCollPost s) := by
  unfold execCollPost
  split
  · split
    · split
      · exact hs
      · refine ite_safe (collFinish_wf hs) <| ite_safe ?_ hs
        extract_lets
        split
        · exact mailPost_wf hs
        · exact hs
    · exact hs
  · exact hs

/-! ## OPT -/

theorem optXlate_wf {s h r need l} (hs : memWf s) : memWf (optXlate s h r need l).1 := xlateChunks_wf hs

theorem optRead_wf {s ps vs} (hs : memWf s) : memWf (optRead s ps vs).1 := by
  induction ps generalizing s vs with
  | nil => exact hs
  | cons p ps ih =>
    cases vs with
    | nil => exact hs
    | cons v vs => exact ih (lineRead_wf hs (n := 4))

theorem optPut_wf {h pc s ps vs l} (hs : memWf s) : memWf (optPut h pc s ps vs l) := by
  fun_induction optPut h pc s ps vs l with
  | case1 _ _ _ _ _ _ _ ih => exact ih (lineWrite_wf hs)
  | case2 => exact hs

theorem optSkip_wf {s h r a} (hs : memWf s) : memWf (optSkip s h r a).1 := poisonReportAt_wf hs

theorem optElem_wf {h ops i g bad s r} (hs : memWf s) : memWf (optElem h ops i g bad s r).1 := by
  unfold optElem
  split
  · exact optSkip_wf hs
  · extract_lets
    split
    · exact fst_wf (optXlate_wf hs) ‹_›
    · exact fst_wf (optXlate_wf hs) ‹_›
    next s1 _ e =>
      have h1 : memWf s1 := fst_wf (optXlate_wf hs) e
      extract_lets
      split
      · exact h1
      · split
        · exact optSkip_wf (fst_wf (optRead_wf h1) ‹_›)
        · exact optPut_wf (fst_wf (optRead_wf h1) ‹_›)

theorem optGrad_wf {h ops s r} (hs : memWf s) : memWf (optGrad h ops s r).1 := by
  unfold optGrad
  refine ite_fst hs ?_
  extract_lets
  split
  next s1 _ e =>
    have h1 : memWf s1 := fst_wf (optXlate_wf hs) e
    split
    · exact h1
    · exact optRead_wf h1
  · exact fst_wf (optXlate_wf hs) ‹_›
  · exact fst_wf (optXlate_wf hs) ‹_›

theorem optPop_wf {h ops s r} (hs : memWf s) : memWf (optPop h ops s r).1 := by
  unfold optPop
  extract_lets
  split
  · split
    next s1 _ _ e =>
    have h1 : memWf s1 := fst_wf (lineRead_wf (fst_wf (xlate_wf hs) ‹_›)) e
    extract_lets s2 _
    have h2 : memWf s2 := ite_wf (poisonReportAt_wf h1) h1
    exact ite_fst (gqEnter_wf h2) (ite_fst (ite_fst (gqEnter_wf h2) h2) (physWrite_wf (gqLeave_wf h2)))
  · exact fst_wf (xlate_wf hs) ‹_›
  · exact fst_wf (xlate_wf hs) ‹_›

theorem optAct_wf {h ops s r} (hs : memWf s) : memWf (optAct h ops s r).1 := by
  unfold optAct
  split
  · split
    · split
      · exact fst_wf (optElem_wf hs) ‹_›
      · exact optElem_wf hs
    · exact ite_fst hs (optPop_wf hs)
  · refine ite_fst hs ?_
    split
    · exact fst_wf (optGrad_wf hs) ‹_›
    · exact optElem_wf (fst_wf (optGrad_wf hs) ‹_›)

theorem optLoop_wf {h ops n s r} (hs : memWf s) : memWf (optLoop h ops n s r).1 := by
  induction n generalizing s r with
  | zero => exact hs
  | succ n ih =>
    unfold optLoop
    split
    next e => exact fst_wf (optAct_wf hs) e
    next e => exact ih (fst_wf (optAct_wf hs) e)

theorem optStatus_wf {s h r fault} (hs : memWf s) : memWf (optStatus s h r fault) := lineWrite_wf hs

theorem optGo_wf {la s r} (hs : memWf s) : safeOut (optGo la s r) := by
  unfold optGo
  split
  · exact done_wf (modMe_wf (fst_wf (optLoop_wf hs) ‹_›))
  · exact issueLong_wf (optStatus_wf (fst_wf (optLoop_wf hs) ‹_›))

theorem optResume_wf {s h i r} (hs : memWf s) : memWf (optResume s h i r) := by
  unfold optResume
  split
  · exact modHart_wf (fst_wf (optLoop_wf hs) ‹_›)
  · exact modHart_wf (optStatus_wf (fst_wf (optLoop_wf hs) ‹_›))

theorem optAddrs_wf {l s k} (hs : memWf s) (hk : ∀ t, memWf t → safeOut (k t)) : safeOut (optAddrs l s k) := by
  unfold optAddrs
  split
  · exact trap_wf hs
  · split
    · exact trap_wf hs
    · exact hk _ hs

theorem optQueue_wf {f b s k} (hs : memWf s) (hk : ∀ t, memWf t → safeOut (k t)) : safeOut (optQueue f b s k) :=
  ite_safe (trap_wf hs) (ite_safe (hk _ hs) (gqChecked_wf hs fun _ _ _ h1 => ite_safe (trap_wf h1) (hk _ h1)))

theorem optIssue_wf {f la ec eb ea s} (hs : memWf s) : safeOut (optIssue f la ec eb ea s) := by
  unfold optIssue
  split
  · exact illegal_wf hs
  · exact trap_wf hs
  · exact trap_wf hs
  · exact sources_wf hs fun _ h1 => roomForLong_wf h1 fun _ h2 => blockRead_wf h2 fun _ _ _ h3 =>
      ite_safe (trap_wf h3) (optQueue_wf h3 fun _ h4 => optAddrs_wf h4 fun _ h5 => optGo_wf h5)

/-! ## The events -/

theorem opTurn_wf {s h i o} (hs : memWf s) : memWf (opTurn s h i o) := by
  unfold opTurn
  split
  · exact optResume_wf hs
  all_goals exact completeOp_wf hs

theorem execLongOpComplete_wf {s} (hs : memWf s) : safeOut (execLongOpComplete s) := by
  unfold execLongOpComplete
  split
  · split
    · exact ite_safe (opTurn_wf hs) hs
    · exact hs
  · exact hs

theorem dropRing_wf {s h} (hs : memWf s) : memWf (dropRing s h) := by
  cases h with
  | tile t i => exact withTiles_wf hs <| List.forall_mem_map.mpr fun _ hx => keepTile_wf (tiles_wf hs _ hx)
  | mender m i => exact hs

theorem execRegisterWaitLimit_wf {s} (hs : memWf s) : safeOut (execRegisterWaitLimit s) := by
  unfold execRegisterWaitLimit
  split
  · split
    · exact trapOn_wf (dropRing_wf hs)
    · exact hs
  · exact hs

theorem dropRequests_wf {s h} (hs : memWf s) : memWf (dropRequests s h) :=
  withTiles_wf hs <| List.forall_mem_map.mpr fun _ hx => keepTile_wf (tiles_wf hs _ hx)

theorem execFeWaitLimit_wf {s} (hs : memWf s) : safeOut (execFeWaitLimit s) := by
  unfold execFeWaitLimit
  split
  · split
    · exact trapOn_wf (dropRequests_wf hs)
    · exact hs
  · exact hs

theorem execFeListFullRetry_wf {s} (hs : memWf s) : safeOut (execFeListFullRetry s) := by
  unfold execFeListFullRetry
  split
  · split
    · exact ite_safe (modHart_wf hs) hs
    · exact hs
  · exact hs

theorem execPutrRetry_wf {s} (hs : memWf s) : safeOut (execPutrRetry s) := by
  unfold execPutrRetry
  split
  · exact ite_safe (modHart_wf hs) hs
  · exact hs

theorem execParkDeadline_wf {s} (hs : memWf s) : safeOut (execParkDeadline s) := by
  unfold execParkDeadline
  split
  · exact ite_safe (modHart_wf hs) hs
  · exact hs

theorem execPutrFill_wf {s} (hs : memWf s) : safeOut (execPutrFill s) := by
  unfold execPutrFill
  split
  · split
    · refine ite_safe hs ?_
      extract_lets s1 _
      have h1 : memWf s1 := modTile_wf hs fun _ h2 => h2
      split
      · exact awaitDone_wf (modHart_wf h1)
      · exact modHart_wf h1
    · exact hs
  · exact hs

theorem execPageWalk_wf {s} (hs : memWf s) : safeOut (execPageWalk s) := by
  unfold execPageWalk
  split
  · extract_lets
    split
    · exact ite_safe hs (ite_safe (walkQuiet_wf hs) (walkAccess_wf hs))
    · exact hs
  · exact hs

theorem dropPage_wf {s d p} (hs : memWf s) : memWf (dropPage s d p) := hs

theorem copyPages_wf {s d c vpn ref} (hs : memWf s) : memWf (copyPages s d c vpn ref) := by
  refine withTiles_wf hs <| List.forall_mem_map.mpr fun x hx => ?_
  split
  · exact keepTile_wf (tiles_wf hs x hx)
  · exact tiles_wf hs x hx

theorem pageHarts_wf {s d c vpn ref} (hs : memWf s) : memWf (pageHarts s d c vpn ref) := by
  refine wf_of (mem_wf (s := s) hs) (List.forall_mem_map.mpr fun x hx => ?_) (List.forall_mem_map.mpr fun x hx => ?_) (ctxs_wf (s := s) hs)
  · split
    · exact keepTile_wf (tiles_wf hs x hx)
    · exact tiles_wf hs x hx
  · split <;> exact menders_wf hs x hx

theorem execPageResponse_wf {s} (hs : memWf s) : safeOut (execPageResponse s) := by
  unfold execPageResponse
  split
  · extract_lets
    refine ite_safe hs ?_
    split
    · exact pageHarts_wf (copyPages_wf (dropPage_wf hs))
    · exact pageHarts_wf (copyPages_wf (ite_wf (dropPage_wf hs) hs))
    · exact pageHarts_wf (copyPages_wf (ite_wf (dropPage_wf hs) hs))
  · exact hs

/-! ## The fold units -/

theorem putFold_wf {t q f} (ht : tileMemWf t) : tileMemWf (putFold t q f) := ht
theorem meetAcc_wf {s t n} (hs : memWf s) : memWf (meetAcc s t n) := meetFlaws_wf hs
theorem execQinit_wf {la q s} (hs : memWf s) : safeOut (execQinit la q s) :=
  inSet_wf hs fun _ h1 => sources_wf h1 fun _ h2 => roomForLong_wf h2 fun _ h3 => issueArray_wf (modTile_wf h3 fun _ h4 => putFold_wf h4)

theorem householder_wf {append la n q ea s} (hs : memWf s) : safeOut (householder append la n q ea s) := by
  unfold householder
  refine inSet_wf hs fun _ h1 => sources_wf h1 fun _ h2 => roomForLong_wf h2 fun _ h3 => ?_
  extract_lets
  split
  · exact trap_wf h3
  · exact issueArray_wf (setTile_wf (meetAcc_wf h3) (putFold_wf (oerrLogAll_wf (getTile_wf (meetAcc_wf h3)))))

theorem execQapp_wf {la q s} (hs : memWf s) : safeOut (execQapp la q s) :=
  inSet_wf hs fun _ h1 => sources_wf h1 fun _ h2 => roomForLong_wf h2 fun _ h3 =>
    ite_safe (trap_wf h3) (issueArray_wf (modTile_wf h3 fun _ h4 => putFold_wf h4))

theorem foldApply_wf {readsTile f la n q s} (hs : memWf s) : safeOut (foldApply readsTile f la n q s) := by
  unfold foldApply
  refine inSet_wf hs fun _ h1 => sources_wf h1 fun _ h2 => roomForLong_wf h2 fun _ h3 => ?_
  extract_lets _ s4 _ _ _
  have h4 : memWf s4 := ite_wf (meetAcc_wf h3) h3
  exact issueArray_wf (setTile_wf h4 (ite_tile (oerrLogAll_wf (getTile_wf h4)) (getTile_wf h4)))

theorem execQsave_wf {la n q s} (hs : memWf s) : safeOut (execQsave la n q s) :=
  inSet_wf hs fun _ h1 => ite_safe (sources_wf h1 fun _ h2 => trap_wf h2) (sources_wf h1 fun _ h3 => roomForLong_wf h3 fun _ h4 =>
    issueArray_wf h4)

theorem execQload_wf {la n q s} (hs : memWf s) : safeOut (execQload la n q s) := by
  unfold execQload
  refine inSet_wf hs fun _ h1 => ite_safe (sources_wf h1 fun _ h2 => trap_wf h2) <| sources_wf h1 fun _ h3 => roomForLong_wf h3 fun _ h4 =>
    ?_
  extract_lets s5 _ _ _ _
  have h5 : memWf s5 := meetAcc_wf (meetAcc_wf h4)
  exact ite_safe (trap_wf h5) (issueArray_wf (setTile_wf h5 (putFold_wf (oerrLogAll_wf (getTile_wf h5)))))

/-! ## The privileged forms -/

theorem tlbDrop_wf {s kind c va} (hs : memWf s) : memWf (tlbDrop s kind c va) := hs

theorem execTlbinv_wf {b a s} (hs : memWf s) : safeOut (execTlbinv b a s) :=
  inSet_wf hs fun _ h1 => supOnly_wf h1 fun _ h2 => sources_wf h2 fun _ h3 =>
    ite_safe (trap_wf h3) (drained_wf h3 fun _ h4 => done_wf (tlbDrop_wf h4))

theorem probe_wf {s h va} (hs : memWf s) : memWf (probe s h va).1 := by
  unfold probe
  split
  · exact hs
  · refine ite_fst hs ?_
    split
    · exact hs
    · split <;> exact fst_wf (walkQuiet_wf hs) ‹_›

theorem execTlbprobe_wf {d a s} (hs : memWf s) : safeOut (execTlbprobe d a s) :=
  inSet_wf hs fun _ h1 => supOnly_wf h1 fun _ h2 => sources_wf h2 fun _ h3 => dests_wf h3 fun _ h4 => done_wf (modMe_wf (probe_wf h4))

/-! ## The reports -/

theorem reportLost_wf {s r} (hs : memWf s) : memWf (reportLost s r) := unitSettled_wf hs
theorem reportWrite_wf {s r pa h ra} (hs : memWf s) : memWf (reportWrite s r pa h ra) :=
  unitSettled_wf (sendMsi_wf (hwFill_wf (physWrite_wf (physWrite_wf hs))))

theorem reportSent_wf {s r pa h ra} (hs : memWf s) : memWf (reportSent s r pa h ra) := by
  unfold reportSent
  split
  · exact reportWrite_wf (fst_wf (travel_wf hs) ‹_›)
  · exact taintLine_wf (reportWrite_wf (fst_wf (travel_wf hs) ‹_›))
  · exact reportLost_wf (fst_wf (travel_wf hs) ‹_›)

theorem postReport_wf {s r} (hs : memWf s) : memWf (postReport s r).1 := by
  unfold postReport
  extract_lets
  refine ite_fst (reportLost_wf (actFor_wf hs)) ?_
  split
  · exact fst_wf (unitRead_wf (actFor_wf hs)) ‹_›
  · exact reportLost_wf (fst_wf (unitRead_wf (actFor_wf hs)) ‹_›)
  next s1 _ _ e =>
    have h1 : memWf s1 := fst_wf (unitRead_wf (actFor_wf hs)) e
    refine ite_fst (reportLost_wf h1) <| ite_fst (unitSettled_wf (physWrite_wf h1)) ?_
    split
    · exact fst_wf (unitXlate_wf h1) ‹_›
    next s2 _ e =>
      have h2 : memWf s2 := fst_wf (unitXlate_wf h1) e
      exact ite_fst (reportLost_wf h2) (reportSent_wf h2)
    · exact reportLost_wf (fst_wf (unitXlate_wf h1) ‹_›)

theorem postEnded_wf {s r} (hs : memWf s) : memWf (postEnded s r) := by
  unfold postEnded
  split
  · split
    · exact complete_wf hs
    · exact hs
  · exact hs

theorem postAll_wf {l s} (hs : memWf s) : memWf (postAll l s) := by
  induction l generalizing s with
  | nil => exact hs
  | cons r l ih =>
    unfold postAll
    refine ite_wf (ih (keep_wf hs)) ?_
    split
    next e => exact ih (postEnded_wf (fst_wf (postReport_wf hs) e))
    next e => exact ih (keep_wf (fst_wf (postReport_wf hs) e))

theorem drainReports_wf {s} (hs : memWf s) : memWf (drainReports s) := by
  unfold drainReports
  split
  · exact hs
  · exact postAll_wf hs

theorem execReport_wf {b a s} (hs : memWf s) : safeOut (execReport b a s) := by
  unfold execReport
  refine inSet_wf hs fun _ h1 => supOnly_wf h1 fun _ h2 => sources_wf h2 fun _ h3 => ?_
  split
  · exact drainReports_wf (parkHart_wf h3)
  · exact done_wf h3

/-! ## The dispatch of an instruction -/

/-- Every instruction and every event keeps the form; the arms of one family go by the lemma of the family. -/
theorem exec_wf {i s} (hs : memWf s) : safeOut (exec i s) := by
  unfold exec
  cases i with
  | add | sub | and | or | xor | sll | srl | sra | slt | sltn | min | max | minn | maxn | addw | subw | rol | ror | bfx | cMov | cAdd
    | cSub | cAnd => exact alu2_wf hs
  | mul | mulh | mulhn | mulw | div | divn | rem | remn => exact aluLong_wf hs
  | clz | ctz | popc | addi | andi | ori | xori | slti | slli | srli | srai | rori | cAddi => exact alu1_wf hs
  | sel | bfi => exact alu3_wf hs
  | ldk => exact execLdk_wf hs
  | setx => exact execSetx_wf hs
  | getx => exact execGetx_wf hs
  | beq | bne | blt | bge | bltn | bgen | cBeqz | cBnez => exact branch_wf hs
  | bbs | bbc => exact branchBit_wf hs
  | jal => exact execJal_wf hs
  | jalr | cRet => exact jumpReg_wf hs
  | park => exact execPark_wf hs
  | csrr => exact execCsrr_wf hs
  | csrw => exact execCsrw_wf hs
  | csrs | csrc | csrx => exact csrSwap_wf hs
  | ldl | ldws | ldas | ldcs | cLdlD => exact storeLoad_wf hs
  | stl | stws | stas | stcs | cStlD => exact storeStore_wf hs
  | ldm => exact execLdm_wf hs
  | stm => exact execStm_wf hs
  | ldg => exact execLdg_wf hs
  | stg => exact execStg_wf hs
  | ldh => exact execLdh_wf hs
  | pub => exact execPub_wf hs
  | ldflC | ldflP | ldfmC | ldfmP => exact feLoad_wf hs
  | stflF | stfmF => exact feFill_wf hs
  | stflX | stflE | stfmX | stfmE => exact feSet_wf hs
  | ldfgC | ldfgP => exact feLoadG_wf hs
  | stfgF => exact execStfgF_wf hs
  | stfgX | stfgE => exact feSetG_wf hs
  | amoAddW | amoSwapW => exact amoW_wf hs
  | amoAddD | amoAndD | amoOrD | amoXorD | amoMinD | amoMaxD | amoMinnD | amoMaxnD | amoSwapD => exact amoD_wf hs
  | amoCasW | amoCasD | amoEsadd | amoEsrd | amoEsclr => exact amo_wf hs
  | amoFaddU | amoFmax | amoFmin => exact amoF_wf hs
  | fenceAcq => exact execFenceAcq_wf hs
  | fenceRel => exact execFenceRel_wf hs
  | fenceFull => exact execFenceFull_wf hs
  | spawn | spawnH => exact spawnThread_wf hs
  | sendm => exact execSendm_wf hs
  | recvm => exact execRecvm_wf hs
  | recvmO => exact execRecvmO_wf hs
  | peekm => exact execPeekm_wf hs
  | clre | cClre => exact clearReg_wf hs
  | isfull => exact execIsfull_wf hs
  | putr => exact execPutr_wf hs
  | fork => exact execFork_wf hs
  | kick => exact execKick_wf hs
  | wlpush => exact execWlpush_wf hs
  | wlpop => exact execWlpop_wf hs
  | wlcnt => exact execWlcnt_wf hs
  | tbar | qbar | clbar => exact barrier_wf hs
  | stepidle => exact execStepidle_wf hs
  | cpyLm | cpyGl | cpyLg | cpyGg => exact copyIssue_wf hs
  | cpyx => exact execCpyx_wf hs
  | launch => exact execLaunch_wf hs
  | vadd | vsub | vmul | vfma | vfms | vfnma | vrcp | vrsq | vsqrt => exact vfp_wf hs
  | vmax => exact execVmax_wf hs
  | vmin => exact execVmin_wf hs
  | vabs => exact execVabs_wf hs
  | vneg => exact execVneg_wf hs
  | vceq | vclt | vcle | viceq | viclt => exact vcompare_wf hs
  | vsel => exact execVsel_wf hs
  | vexp2 | vlog2 | vtanh => exact vapprox_wf hs
  | vamaxu => exact execVamaxu_wf hs
  | viadd | visub | vimul | viand | vior | vixor | vishl | vishr | visra | vimin | vimax | viadds | visubs => exact vint_wf hs
  | vcvt => exact execVcvt_wf hs
  | vquant => exact execVquant_wf hs
  | vquantv => exact execVquantv_wf hs
  | vdeq => exact execVdeq_wf hs
  | sclnext => exact execSclnext_wf hs
  | vpack => exact execVpack_wf hs
  | vunpk => exact execVunpk_wf hs
  | vrsumO => exact execVrsumO_wf hs
  | vrsumU => exact execVrsumU_wf hs
  | vrmax => exact execVrmax_wf hs
  | vramax => exact execVramax_wf hs
  | vrmin => exact execVrmin_wf hs
  | vshuf | vbcast | vslide => exact vperm_wf hs
  | vins => exact execVins_wf hs
  | vext => exact execVext_wf hs
  | mld => exact execMld_wf hs
  | mma | mmat => exact multiplyStore_wf hs
  | mmaLatch | mmatLatch => exact multiplyLatch_wf hs
  | mout => exact execMout_wf hs
  | mdrain => exact execMdrain_wf hs
  | mzero => exact execMzero_wf hs
  | ringdef => exact execRingdef_wf hs
  | latch => exact execLatch_wf hs
  | qinit => exact execQinit_wf hs
  | qhh | qgen => exact householder_wf hs
  | qapp => exact execQapp_wf hs
  | qapl | qaplt | qapr | qaprt | qdense => exact foldApply_wf hs
  | qsave => exact execQsave_wf hs
  | qload => exact execQload_wf hs
  | gqpush => exact execGqpush_wf hs
  | gqpop => exact execGqpop_wf hs
  | gqwin => exact execGqwin_wf hs
  | gqlen => exact execGqlen_wf hs
  | optAdamw | optSgdm | optClip => exact optIssue_wf hs
  | epopen => exact execEpopen_wf hs
  | eprec => exact execEprec_wf hs
  | epclose => exact execEpclose_wf hs
  | rwsend => exact execRwsend_wf hs
  | epstat => exact execEpstat_wf hs
  | collDecl => exact execCollDecl_wf hs
  | collAg | collRsO | collRsU | collArO | collArU | collA2a => exact collData_wf hs
  | collBar => exact execCollBar_wf hs
  | tlbinv => exact execTlbinv_wf hs
  | tlbprobe => exact execTlbprobe_wf hs
  | lkctlStatus | lkctlThresh | lkctlMaxw | lkctlRetrain => exact lkctl_wf hs
  | swreqSwitch | swreqDefpart | swreqSetrun | swreqDestroy => exact switchRequest_wf hs
  | report => exact execReport_wf hs
  | cJ => exact execCJ_wf hs
  | nop => exact execNop_wf hs
  | ecall => exact execEcall_wf hs
  | ebreak => exact execEbreak_wf hs
  | tret => exact execTret_wf hs
  | ifence => exact execIfence_wf hs
  | fenceLb => exact execFenceLb_wf hs
  | waitm | cWaitm => exact waitMail_wf hs
  | exit | cExit => exact exitThread_wf hs
  | yield | cYield => exact yieldThread_wf hs
  | tid => exact execTid_wf hs
  | rdv => exact execRdv_wf hs
  | step | cStep => exact stepSlot_wf hs
  | cpyq => exact execCpyq_wf hs
  | brot => exact execBrot_wf hs
  | cSysNop => exact execCSysNop_wf hs
  | bringUp => exact execBringUp_wf hs
  | attestationStart => exact startAttestation_wf hs
  | attestationDone => exact execAttestationDone_wf hs
  | thermalTrip => exact execThermalTrip_wf hs
  | tripClear => exact execTripClear_wf hs
  | registerWrite => exact execRegisterWrite_wf hs
  | armAliasStore => exact execArmAliasStore_wf hs
  | rewardWindowWrite => exact execRewardWindowWrite_wf hs
  | hostMemAccess => exact execHostMemAccess_wf hs
  | queueWalk => exact execQueueWalk_wf hs
  | periodBoundary => exact execPeriodBoundary_wf hs
  | nodeDispatch => exact execNodeDispatch_wf hs
  | kernelChecking => exact execKernelChecking_wf hs
  | groupPlacement => exact execGroupPlacement_wf hs
  | groupLoad => exact execGroupLoad_wf hs
  | groupRelease => exact execGroupRelease_wf hs
  | groupRetire => exact execGroupRetire_wf hs
  | longOpComplete => exact execLongOpComplete_wf hs
  | registerWaitLimit => exact execRegisterWaitLimit_wf hs
  | feWaitLimit => exact execFeWaitLimit_wf hs
  | feListFullRetry => exact execFeListFullRetry_wf hs
  | putrFill => exact execPutrFill_wf hs
  | putrRetry => exact execPutrRetry_wf hs
  | parkDeadline => exact execParkDeadline_wf hs
  | spawnAnswer => exact execSpawnAnswer_wf hs
  | stepAdvance => exact execStepAdvance_wf hs
  | stepwatchReport => exact execStepwatchReport_wf hs
  | barrierGenerationComplete => exact execBarrierGenerationComplete_wf hs
  | barrierWaitReport => exact execBarrierWaitReport_wf hs
  | tileSleep => exact execTileSleep_wf hs
  | tileWake => exact execTileWake_wf hs
  | mailboxPostArrival => exact execMailboxPostArrival_wf hs
  | copyAccept => exact execCopyAccept_wf hs
  | copyBurst => exact execCopyBurst_wf hs
  | copyResume => exact execCopyResume_wf hs
  | copyPost => exact execCopyPost_wf hs
  | ringMove => exact execRingMove_wf hs
  | pageWalk => exact execPageWalk_wf hs
  | pageResponse => exact execPageResponse_wf hs
  | tableLineSnoop => exact execTableLineSnoop_wf hs
  | timeSliceNaming => exact execTimeSliceNaming_wf hs
  | gangSwitchStop => exact execGangSwitchStop_wf hs
  | gangSwitchSaveDone => exact execGangSwitchSaveDone_wf hs
  | gangSwitchRestore => exact execGangSwitchRestore_wf hs
  | darnerLine => exact execDarnerLine_wf hs
  | levellerTick => exact execLevellerTick_wf hs
  | escapeEntry => exact execEscapeEntry_wf hs
  | linkTrainingDone => exact execLinkTrainingDone_wf hs
  | linkTrainingTimeout => exact execLinkTrainingTimeout_wf hs
  | linkIdleTimeout => exact execLinkIdleTimeout_wf hs
  | idleFlitSend => exact execIdleFlitSend_wf hs
  | flitReceive => exact execFlitReceive_wf hs
  | linkWiden => exact execLinkWiden_wf hs
  | wakeComplete => exact execWakeComplete_wf hs
  | linkNarrow => exact execLinkNarrow_wf hs
  | widthFlitReceive => exact execWidthFlitReceive_wf hs
  | collAccept => exact execCollAccept_wf hs
  | collMemberAnswer => exact execCollMemberAnswer_wf hs
  | collMemberTimeout => exact execCollMemberTimeout_wf hs
  | collPost => exact execCollPost_wf hs
  | menderSlotStart => exact execMenderSlotStart_wf hs
  | gqEnClear => exact execGqEnClear_wf hs
  | rewardArrival => exact execRewardArrival_wf hs
  | rwsendRemoteAnswer => exact execRwsendRemoteAnswer_wf hs
  | episodeTimeout => exact execEpisodeTimeout_wf hs
  | wringerScan => exact execWringerScan_wf hs
  | episodeRelease => exact execEpisodeRelease_wf hs
  | illegalInstruction => exact illegal_wf hs
  | hostPortDown => exact execHostPortDown_wf hs
  | homeChannelPowerDown => exact execHomeChannelPowerDown_wf hs
  | selfRefreshEntry => exact execSelfRefreshEntry_wf hs
  | hostLineSnoop => exact execHostLineSnoop_wf hs

/-! ## The fetch -/

theorem fetchHalf_wf {va s k} (hs : memWf s) (hk : ∀ x t, memWf t → safeOut (k x t)) : safeOut (fetchHalf va s k) := by
  unfold fetchHalf
  split
  next s1 _ e =>
    have h1 : memWf s1 := fst_wf (xlateHart_wf hs) e
    exact hk _ _ (ite_wf (notePoisonRead_wf (codeRead_wf h1)) (codeRead_wf h1))
  · exact park_wf (fst_wf (xlateHart_wf hs) ‹_›)
  all_goals exact trap_wf (fst_wf (xlateHart_wf hs) ‹_›)

theorem fetchWord_wf {s k} (hs : memWf s) (hk : ∀ x y t, memWf t → safeOut (k x y t)) : safeOut (fetchWord s k) := by
  unfold fetchWord
  exact fetchHalf_wf hs fun _ _ h1 => ite_safe (hk _ _ _ h1) (fetchHalf_wf h1 fun _ _ h2 => hk _ _ _ h2)

theorem settle_wf {h x r} (hr : safeOut r) : safeOut (settle h x r) := by
  cases r with
  | next s => exact commitNotes_wf (keep_wf (s := s) hr)
  | fault | refused => exact hr

theorem fetchInstr_wf {k s} (hk : ∀ x t, memWf t → safeOut (k x t)) (hs : memWf s) : safeOut (fetchInstr k s) :=
  fetchWord_wf hs fun _ _ _ h1 => hk _ _ h1

/-! ## The turns -/

theorem choose_wf {s l} (hs : memWf s) : memWf (choose s l).2 := by
  unfold choose
  split
  · exact hs
  · exact hs
  · exact nextFree_wf hs

theorem pick_wf {s} (hs : memWf s) : memWf (pick s).2 := by
  unfold pick
  split
  · exact hs
  · split
    · exact choose_wf hs
    · split
      · exact hs
      · exact choose_wf hs

theorem markIssue_wf {s h} (hs : memWf s) : memWf (markIssue s h) := by
  unfold markIssue
  extract_lets
  split
  · exact ite_wf (modTile_wf (modHart_wf hs) fun _ h1 => h1) (modHart_wf hs)
  · exact setMender_wf (modHart_wf hs) (getMender_wf (modHart_wf hs))

theorem levelCycle_wf {s t x} (hx : tileMemWf x) : tileMemWf (levelCycle s t x) := ite_tile hx hx

theorem wakeAll_wf {s} (hs : memWf s) : memWf (wakeAll s) :=
  wf_of (mem_wf (s := s) hs) (List.forall_mem_map.mpr fun _ hx => keepTile_wf (tiles_wf hs _ hx))
    (List.forall_mem_map.mpr fun x hx => menders_wf hs x hx) (ctxs_wf (s := s) hs)

theorem tick_wf {x s} (hs : memWf s) : memWf (tick x s) := by
  unfold tick
  extract_lets s1 s2 s3 s4
  have h1 : memWf s1 := withTiles_wf hs <| List.forall_mem_map.mpr fun _ hx => levelCycle_wf (tiles_wf hs _ hx)
  have h2 : memWf s2 := linkCycles_wf (noteWaits_wf (drainReports_wf h1))
  clear_value s2
  have h3 : memWf s3 := keep_wf h2
  have h4 : memWf s4 := wakeAll_wf h3
  clear_value s4
  exact withTiles_wf h4 <| List.forall_mem_map.mpr fun _ hx => pruneYield_wf (tiles_wf h4 _ hx)

/-! ## The step -/

theorem hartTurn_wf {h s} (hs : memWf s) : safeOut (hartTurn h s) := by
  unfold hartTurn
  split
  · exact takeTrap_wf (markIssue_wf hs)
  · exact settle_wf (fetchInstr_wf (fun _ _ h1 => exec_wf h1) (markIssue_wf hs))

theorem heldTurn_wf {h w s} (hs : memWf s) : safeOut (heldTurn h w s) := settle_wf (exec_wf hs)

theorem runTurn_wf {x s} (hs : memWf s) : safeOut (runTurn x s) := by
  unfold runTurn
  split
  · exact exec_wf hs
  · exact hartTurn_wf hs
  · exact heldTurn_wf hs
  · exact hs

theorem ticked_wf {x r} (hr : safeOut r) : safeOut (ticked x r) := by
  cases r with
  | next s => exact tick_wf hr
  | fault | refused => exact hr

theorem step_wf {s} (hs : memWf s) : safeOut (step s) := ticked_wf (runTurn_wf (pick_wf hs))

/-- Settles O60: a turn keeps the canonical form (`exec_wf` for its instruction or event), and so does the clock after it (`tick_wf`). -/
theorem stepKeepsMemory : Obligations.StepKeepsMemory := by
  unfold Obligations.StepKeepsMemory
  intro s t hs h
  have ht : safeOut (step s) := step_wf hs
  rw [h] at ht
  exact ht

end Sys2Proof.Machine
end

section
/-! PROOF of O9: LDM and STM, from the rules of what they are made of. An operation that writes registers of its hart alone issues and
completes as one change of that hart (`issueLong_own`, `completeOp_own`); an access to a tile's L-store that nothing befalls on its way reads or
writes the bytes at its home (`loadAccess_tile`, `storeAccessDone_tile`). -/

namespace Sys2Proof.Machine

open Sys2Proof.Claims

/-! ## Operand forms of the M format (R37, R88, R93) -/

theorem widthSize_eq (w : Width) : widthSize w = accessSize w := by cases w <;> rfl

theorem dataReg_eq (w : Width) (d : GReg) : dataReg w d = dataId w d := by cases w <;> rfl

theorem dataVal_eq (h : Hart) (w : Width) (d : GReg) : dataVal h w d = stored w d h := by cases w <;> rfl

theorem sextNat_eq_toInt (n v : Nat) : sextNat n v = (BitVec.ofNat n v).toInt := by
  rw [BitVec.toInt_eq_toNat_cond, BitVec.toNat_ofNat]
  cases n with
  | zero => simp [sextNat, Nat.mod_one]
  | succ n =>
    have half : v % 2 ^ (n + 1) < 2 ^ n ↔ 2 * (v % 2 ^ (n + 1)) < 2 ^ (n + 1) := by rw [Nat.pow_succ]; omega
    simp only [sextNat, Nat.add_sub_cancel, half]

theorem loadValue_eq (w : Width) (v : Nat) : loadValue w v = loaded w v := by
  cases w <;> simp [loadValue, loaded, sextNat_eq_toInt]

theorem effAddr_eq (h : Hart) (a : GReg) (imm : Imm8) (w : Width) : effAddr h a imm (widthSize w) = eaOf a imm w h := by
  simp only [effAddr, eaOf, i64, w64, widthSize_eq, BitVec.signExtend, BitVec.ofInt_add, BitVec.ofInt_mul, BitVec.ofInt_toInt,
    BitVec.ofInt_natCast]

/-- g0 is no destination (R55, R60). -/
theorem realDests_data (w : Width) (d : GReg) : realDests [⟨dataReg w d, 0⟩] = backOf w d := by
  rw [dataReg_eq]
  by_cases hv : w = .vec
  · subst hv; rfl
  · have zero : d = 0 ↔ d.val = 0 := Fin.ext_iff
    by_cases hd : d.val = 0 <;> simp [realDests, backOf, dataId, hv, zero, hd]

/-- The data register of an access is one of its hart. -/
theorem ownReg_dataId (w : Width) (d : GReg) : ownReg (dataId w d) := by
  unfold dataId
  split
  · exact Nat.mod_lt _ (by decide)
  · exact d.isLt

theorem ownReg_backOf {w : Width} {d : GReg} : ∀ b ∈ backOf w d, ownReg b.reg := by
  intro b hb
  unfold backOf at hb
  split at hb
  · cases hb
  · rw [List.mem_singleton.mp hb]; exact ownReg_dataId w d

/-! ## Registers of the hart itself -/

theorem emptyReg_own {s : State} {h : HartId} {r : RegId} (hr : ownReg r) : emptyReg s h r = modHart s h fun x => emptyHartReg x r := by
  obtain ⟨cls, i⟩ := r
  cases cls with
  | g | e | v | k => rfl
  | c | q | latch => exact hr.elim

theorem putReg_own {s : State} {h : HartId} {w : WriteBack} (hr : ownReg w.reg) :
    putReg s h w = modHart s h fun x => putHartReg x w.reg w.val := by
  obtain ⟨⟨cls, i⟩, v⟩ := w
  cases cls with
  | g | e | v | k => rfl
  | c | q | latch => exact hr.elim

theorem modHart_congr {s : State} {h : HartId} {f g : Hart → Hart} (hfg : f (getHart s h) = g (getHart s h)) : modHart s h f = modHart s h g :=
  congrArg (setHart s h) hfg

/-- Updates of one hart, one behind the other and then one more, are one update of it. -/
theorem modHart_foldl {α : Type} {g : State → α → State} {f : Hart → α → Hart} {h : HartId} (k : Hart → Hart) {l : List α} {s : State}
    (hg : ∀ t, t.cur = s.cur → ∀ a ∈ l, g t a = modHart t h (f · a)) :
    modHart (l.foldl g s) h k = modHart s h (fun x => k (l.foldl f x)) ∧ (l.foldl g s).cur = s.cur := by
  induction l generalizing s with
  | nil => exact ⟨rfl, rfl⟩
  | cons a l ih =>
    have head : g s a = modHart s h (f · a) := hg s rfl a List.mem_cons_self
    have cur : (g s a).cur = s.cur := by rw [head, modHart_cur]
    obtain ⟨fold, keeps⟩ := ih (s := g s a) fun t ht b hb => hg t (ht.trans cur) b (List.mem_cons_of_mem _ hb)
    refine ⟨?_, keeps.trans cur⟩
    rw [List.foldl_cons, fold, head, modHart_modHart]
    rfl

/-- What every step of a fold keeps, the fold keeps. -/
theorem foldl_keeps {α β γ : Type} {f : β → α → β} (p : β → γ) (hp : ∀ b a, p (f b a) = p b) (l : List α) (b : β) :
    p (l.foldl f b) = p b := by
  rw [← List.foldl_hom p (g₁ := f) (g₂ := fun c _ => c) fun b a => (hp b a).symm, List.foldl_fixed]

/-- Emptying registers leaves the rest of the hart. -/
theorem emptyHartRegs_frame (l : List WriteBack) (h : Hart) :
    let x := l.foldl (fun h w => emptyHartReg h w.reg) h
    x.pc = h.pc ∧ x.out = h.out ∧ x.ss = h.ss ∧ x.inh = h.inh := by
  have one (h : Hart) (r : RegId) : (fun x : Hart => (x.pc, x.out, x.ss, x.inh)) (emptyHartReg h r) = (h.pc, h.out, h.ss, h.inh) := by
    unfold emptyHartReg
    split
    case h_1 | h_4 => split <;> rfl
    all_goals rfl
  simpa using foldl_keeps (fun x : Hart => (x.pc, x.out, x.ss, x.inh)) (fun h w => one h w.reg) l h

/-- Writing registers leaves the status of the hart and its outstanding operations. -/
theorem putHartRegs_frame (l : List WriteBack) (h : Hart) :
    let x := l.foldl (fun h w => putHartReg h w.reg w.val) h
    x.status = h.status ∧ x.out = h.out := by
  have one (h : Hart) (r : RegId) (v : Nat) : (fun x : Hart => (x.status, x.out)) (putHartReg h r v) = (h.status, h.out) := by
    unfold putHartReg
    split <;> simp
  simpa using foldl_keeps (fun x : Hart => (x.status, x.out)) (fun h w => one h w.reg w.val) l h

/-! ## Issue (R59 to R61) -/

/-- Issuing an operation whose destinations are registers of its hart changes that hart alone. -/
theorem issueLong_own {s : State} {len la lat : Nat} {o : LongOp} (ho : ∀ w ∈ realDests o.wbs, ownReg w.reg) :
    issueLong len la lat o s = .next (modHart s s.cur (hartIssued s len
      { o with wbs := realDests o.wbs, left := lookahead s la, due := max (s.cycle + lat) (orderDue s o) })) := by
  have hg : ∀ t : State, t.cur = s.cur → ∀ w ∈ realDests o.wbs, emptyReg t t.cur w.reg = modHart t s.cur fun x => emptyHartReg x w.reg :=
    fun t ht w hw => ht ▸ emptyReg_own (ho w hw)
  rw [issueLong_eq]
  simp only [modMe_eq, (modHart_foldl id hg).2, (modHart_foldl _ hg).1, modHart_cur, complete, completeAs, me, getHart_modHart_same,
    modHart_modHart]
  refine congrArg Host.Outcome.next (modHart_congr ?_)
  obtain ⟨hpc, hout, hss, hinh⟩ := emptyHartRegs_frame (realDests o.wbs) (getHart s s.cur)
  simp [hartIssued, spendShadow, stepped, hpc, hout, hss, hinh]

theorem le_foldl_max {α : Type} (f : α → Nat) (l : List α) (m : Nat) :
    m ≤ l.foldl (fun m a => max m (f a)) m ∧ ∀ a ∈ l, f a ≤ l.foldl (fun m a => max m (f a)) m := by
  induction l generalizing m with
  | nil => simp
  | cons b l ih =>
    obtain ⟨hm, hl⟩ := ih (max m (f b))
    rw [List.foldl_cons, List.forall_mem_cons]
    exact ⟨le_trans (le_max_left _ _) hm, le_trans (le_max_right _ _) hm, hl⟩

/-- An operation is due no earlier than each outstanding one whose bytes it shares (R61). -/
theorem le_orderDue {s : State} {o p : LongOp} {a : MemAcc} (ha : opAccess o = some a) (hp : p ∈ ahead s a) : p.due ≤ orderDue s o := by
  simp only [orderDue, ha]
  exact (le_foldl_max LongOp.due (ahead s a) 0).2 p hp

/-- The cycle for which an access is issued: its latency passes, and the hart's accesses to the same bytes come first (R61). -/
theorem follows_due {s : State} {a : MemAcc} {lat : Nat} {o : LongOp} (ha : opAccess o = some a) :
    Follows s a lat (max (s.cycle + lat) (orderDue s o)) := by
  refine ⟨Nat.le_max_left _ _, fun p hp ht => ?_, fun none => ?_⟩
  · exact Nat.le_trans (le_orderDue ha (List.mem_filter.mpr ⟨hp, ht⟩)) (Nat.le_max_right _ _)
  · have : ahead s a = [] := List.filter_eq_nil_iff.mpr fun p hp => by simp [none p hp]
    simp [orderDue, ha, this]

@[simp] theorem orderDue_readFilled (s : State) (rs : List RegId) (o : LongOp) : orderDue (readFilled s rs) o = orderDue s o := by
  simp [orderDue, ahead, me_readFilled]

/-! ## Mesh targets (R12, R64, R88, R95) -/

@[simp] theorem meshTarget_readFilled (s : State) (rs : List RegId) (c : Nat) (ea : Word) :
    meshTarget (readFilled s rs) c ea = meshTarget s c ea := by
  simp [meshTarget, tileTarget, inCtxParts, switchedOut, groupAt, partOf]

@[simp] theorem lSleeps_readFilled (s : State) (rs : List RegId) (t : Nat) : lSleeps (readFilled s rs) t = lSleeps s t := by simp [lSleeps]

theorem hartCtx_readFilled (s : State) (rs : List RegId) {h : HartId} {u : Nat} (hu : tileOf? h = some u) :
    hartCtx (readFilled s rs) h = hartCtx s h := by
  cases h with
  | tile t i => simp [hartCtx]
  | mender m i => cases hu

/-- A mesh access that is aligned and accepted by its target sets out to it (R88). -/
theorem mAccess_pass {n : Nat} {fe : Bool} {ea : Word} {s : State} (k : Nat → Nat → State → Out) {t off : Nat}
    (hal : ea.toNat % n = 0) (ht : meshTarget s (hartCtx s s.cur) ea = .ok t off) : mAccess n fe ea s k = k t off s := by
  simp [mAccess, hal, ht]

/-- A mesh address that is accepted names the tile and the offset that it is made of (R12). -/
theorem meshTarget_place {s : State} {c t off u o : Nat} {ea : Word} (hp : meshPlace ea t off) (ht : meshTarget s c ea = .ok u o) :
    u = t ∧ o = off := by
  obtain ⟨hea, hoff, hy⟩ := hp
  have atX : meshX ea = t % 72 := by simp only [meshX, bits, hea]; omega
  have atY : meshY ea = t / 72 := by simp only [meshY, bits, hea]; omega
  have atOff : meshOff ea = off := by simp only [meshOff, bits, hea]; omega
  have place : tileAt (t % 72) (t / 72) = t := by simp only [tileAt]; omega
  simp only [meshTarget, tileTarget, atX, atY, atOff, place] at ht
  repeat' split at ht
  all_goals cases ht
  exact ⟨rfl, rfl⟩

/-- An access rouses no tile that does not sleep at depth 2 (R64). -/
theorem rouse_awake {s : State} {t : Nat} (h : lSleeps s t = false) : rouse s t = s := by
  have : ((getTile s t).asleep && (getTile s t).sleepDepth == 2) = false := by
    simp only [lSleeps, Bool.and_eq_false_iff, Bool.or_eq_false_iff] at h ⊢
    exact h.elim .inr fun ha => .inl ha.1
  exact if_neg (by simp only [this, Bool.false_eq_true, not_false_eq_true])

/-- The own tile, and one that is awake, is reached in the cycles of the way there (R95). -/
theorem meshDue_eq {s : State} {u t : Nat} (hu : tileOf? s.cur = some u) (ht : t = u ∨ lSleeps s t = false) :
    meshDue s t = meshCycles u t := by
  have mine : myTile s = u := by simp [myTile, hu]
  have asleep : ¬ (t ≠ u ∧ lSleeps s t) := by rcases ht with h | h <;> simp [h]
  rw [meshDue, mine, if_neg asleep, meshLatency, mine]
  simp only [meshCycles, hops, dieEdges, tileX, tileY, eq_comm (a := t)]

/-- What is sent to the own tile, or to one that is awake, rouses none. -/
theorem rouse_other {s : State} {u t : Nat} (hu : tileOf? s.cur = some u) (ht : t = u ∨ lSleeps s t = false) :
    (if t = myTile s then s else rouse s t) = s := by
  have mine : myTile s = u := by simp [myTile, hu]
  split
  · rfl
  · next h => exact rouse_awake (ht.resolve_left (mine ▸ h))

/-! ## LDM and STM set out (R92, R93) -/

@[simp] theorem hartIssued_readFilled (s : State) (rs : List RegId) : hartIssued (readFilled s rs) = hartIssued s := by
  funext len o h
  simp [hartIssued]

theorem sentAcc_readFilled (s : State) (rs : List RegId) (t : Option Nat) (off n : Nat) (ea : Word) (lines : List Nat) :
    sentAcc (readFilled s rs) t off n ea lines = accNow s t off n ea lines := by
  simp [sentAcc, accNow, me_readFilled]

theorem effAddr_readFilled (s : State) (rs : List RegId) (a : GReg) (imm : Imm8) (w : Width) :
    effAddr (me (readFilled s rs)) a imm (widthSize w) = eaOf a imm w (me s) := by
  rw [effAddr_eq]; simp [eaOf]

theorem stored_readFilled (s : State) (rs : List RegId) (w : Width) (d : GReg) :
    stored w d (me (readFilled s rs)) = stored w d (me s) := by
  simp [stored]

/-- An access that has passed its checks stands last among the hart's outstanding operations, for the time of its way and behind what it
must follow. -/
theorem issue_access {s : State} {rs : List RegId} {a : MemAcc} {la lat : Nat} {wbs : List WriteBack} {fx : OpFx}
    (ho : ∀ b ∈ realDests wbs, ownReg b.reg) (ha : opAccess { longOp wbs with fx := fx } = some a) :
    ∃ due, Follows s a lat due ∧ issueLong 4 la lat { longOp wbs with fx := fx } (readFilled s rs) =
      .next (modHart (readFilled s rs) s.cur (hartIssued s 4 (opAt (me s) la due (realDests wbs) 0 false fx))) := by
  refine ⟨_, follows_due ha, ?_⟩
  rw [issueLong_own ho]
  simp [lookahead, longOp, opAt]

section
variable {s : State} {u t off : Nat} {la : La} {imm : Imm8} {w : Width} {a d : GReg} (hu : tileOf? s.cur = some u)
  (hal : (eaOf a imm w (me s)).toNat % accessSize w = 0) (ht : meshTarget s (hartCtx s s.cur) (eaOf a imm w (me s)) = .ok t off)
include hu hal ht

/-- The access goes to its target, whose address the hart gives. -/
theorem mAccess_readFilled (rs : List RegId) (k : Nat → Nat → State → Out) :
    mAccess (widthSize w) false (eaOf a imm w (me s)) (readFilled s rs) k = k t off (readFilled s rs) :=
  mAccess_pass k (widthSize_eq w ▸ hal) (by rw [readFilled_cur, hartCtx_readFilled s rs hu, meshTarget_readFilled, ht])

variable (haw : t = u ∨ lSleeps s t = false)
omit hal ht
include haw

theorem meshDue_readFilled (rs : List RegId) : meshDue (readFilled s rs) t = meshCycles u t :=
  meshDue_eq (by rwa [readFilled_cur]) (by rwa [lSleeps_readFilled])

theorem rouse_readFilled (rs : List RegId) :
    (if t = myTile (readFilled s rs) then readFilled s rs else rouse (readFilled s rs) t) = readFilled s rs :=
  rouse_other (by rwa [readFilled_cur]) (by rwa [lSleeps_readFilled])

variable (hroom : (me s).out.length < 4)
include hal ht hroom

theorem ldm_issues (hi : Issues s threadOnly [gId a] [dataId w d]) :
    let acc := accNow s (some t) off (accessSize w) (eaOf a imm w (me s)) []
    ∃ due, Follows s acc (meshCycles u t) due ∧ exec (.ldm la imm w a d) s =
      .next (modHart (readFilled s [gId a]) s.cur (hartIssued s 4 (opAt (me s) la.val due (backOf w d) 0 false (.load acc w)))) := by
  intro acc
  obtain ⟨due, follows, he⟩ := issue_access (s := s) (rs := [gId a]) (a := acc) (la := la.val) (lat := meshCycles u t)
    (wbs := [⟨dataReg w d, 0⟩]) (fx := .load acc w) (realDests_data w d ▸ ownReg_backOf) rfl
  rw [realDests_data] at he
  refine ⟨due, follows, ?_⟩
  show execLdm la imm w a d s = _
  rw [← he, execLdm, inSet_pass _ hi.kind, sources_pass _ hi.full hi.sound, roomForLong_pass _ (by simpa [me_readFilled] using hroom),
    dests_pass _ (by simpa [dataReg_eq] using hi.free), effAddr_readFilled, mAccess_readFilled hu hal ht, sentAcc_readFilled,
    meshDue_readFilled hu haw, rouse_readFilled hu haw, widthSize_eq]

theorem stm_issues (hi : Issues s threadOnly [gId a, dataId w d] []) :
    let acc := accNow s (some t) off (accessSize w) (eaOf a imm w (me s)) []
    ∃ due, Follows s acc (meshCycles u t) due ∧ exec (.stm la imm w a d) s =
      .next (modHart (readFilled s [gId a, dataId w d]) s.cur
        (hartIssued s 4 (opAt (me s) la.val due [] 0 false (.store acc (stored w d (me s)))))) := by
  intro acc
  obtain ⟨due, follows, he⟩ := issue_access (s := s) (rs := [gId a, dataId w d]) (a := acc) (la := la.val) (lat := meshCycles u t)
    (wbs := []) (fx := .store acc (stored w d (me s))) nofun rfl
  refine ⟨due, follows, ?_⟩
  show execStm la imm w a d s = _
  rw [execStm, inSet_pass _ hi.kind, dataReg_eq, sources_pass _ hi.full hi.sound, roomForLong_pass _ (by simpa [me_readFilled] using hroom),
    effAddr_readFilled, mAccess_readFilled hu hal ht, sentAcc_readFilled, dataVal_eq, stored_readFilled,
    meshDue_readFilled hu haw, rouse_readFilled hu haw, widthSize_eq]
  exact he
end

/-! ## Completion (R60) -/

/-- The hart after its operation `i`, which is `o`, has completed. -/
def completedHart (i : Nat) (o : LongOp) (h : Hart) : Hart :=
  let x := o.wbs.foldl (fun x w => putHartReg x w.reg w.val) h
  { x with
    fflags := x.fflags ||| o.flags, pre := x.pre || o.pre, out := x.out.eraseIdx i,
    status := if o.inl && x.status == .inline then .ready else x.status }

/-- An access raises no flags. -/
theorem completedHart_access {i : Nat} {o : LongOp} (hfl : o.flags = 0) (hpre : o.pre = false) (hinl : o.inl = false) :
    completedHart i o = fun h => { o.wbs.foldl (fun x w => putHartReg x w.reg w.val) h with out := h.out.eraseIdx i } := by
  funext h
  simp [completedHart, hfl, hpre, hinl, (putHartRegs_frame _ _).2]

theorem fenceGoesOn_going {s : State} {h : HartId} (hf : ∀ n, (getHart s h).status ≠ .parked (.fence n)) : fenceGoesOn s h = s := by
  unfold fenceGoesOn
  split
  · next n hn => exact (hf n hn).elim
  · rfl

/-- What an operation writes of its hart alone is one change of that hart with the change behind it. -/
theorem modHart_writeBack {s : State} {h : HartId} {o : LongOp} (f : Hart → Hart) (ho : ∀ w ∈ o.wbs, ownReg w.reg) (hq : o.qcnt = [])
    (hw : o.win = []) :
    modHart (writeBack s h o) h f = modHart s h fun x =>
      let y := o.wbs.foldl (fun x w => putHartReg x w.reg w.val) x
      f { y with fflags := y.fflags ||| o.flags, pre := y.pre || o.pre } := by
  have hg : ∀ t : State, t.cur = s.cur → ∀ w ∈ o.wbs, putReg t h w = modHart t h fun x => putHartReg x w.reg w.val :=
    fun t _ w hm => putReg_own (ho w hm)
  cases h <;> simp only [writeBack, hq, hw, List.foldl_nil, modHart_modHart, (modHart_foldl _ hg).1]

/-- The end of an operation that writes registers of its hart alone, with `t` the state behind its effect on others: one change of the
hart. -/
theorem completeOp_own {s t : State} {h : HartId} {i : Nat} {o p : LongOp} (hfin : finishOp s h o = writeBack t h p)
    (hinl : p.inl = o.inl) (ho : ∀ w ∈ p.wbs, ownReg w.reg) (hq : p.qcnt = []) (hw : p.win = [])
    (hf : ∀ n, (getHart t h).status ≠ .parked (.fence n)) : completeOp s h i o = modHart t h (completedHart i p) := by
  have ended : completeOp s h i o = fenceGoesOn (modHart t h (completedHart i p)) h := by
    simp only [completeOp, hfin, modHart_writeBack _ ho hq hw, ← hinl]
    rfl
  have status : (completedHart i p (getHart t h)).status = .ready ∨ (completedHart i p (getHart t h)).status = (getHart t h).status := by
    simp only [completedHart, (putHartRegs_frame _ _).1]
    split
    · exact .inl rfl
    · exact .inr rfl
  rw [ended, fenceGoesOn_going]
  intro n
  rw [getHart_modHart_same]
  rcases status with hs | hs <;> rw [hs]
  · nofun
  · exact hf n

/-- What is due of an operation that is no OPT comes about. -/
theorem longOpComplete_of {s : State} {h : HartId} {i : Nat} {o : LongOp} (he : s.ev = .op h i) (ho : (getHart s h).out[i]? = some o)
    (hd : opDue s h o = true) (hx : isOpt o = false) : exec .longOpComplete s = .next (completeOp s h i o) := by
  show execLongOpComplete s = _
  have turn : opTurn s h i o = completeOp s h i o := by
    unfold opTurn
    split
    · next r hr => simp [isOpt, hr] at hx
    all_goals rfl
  simp [execLongOpComplete, he, ho, hd, turn]

/-! ## The home of an access in an L-store (R91, R93, R94, R298) -/

theorem onLoom_quiet {s : State} {h : HartId} {t : Option Nat} (hn : s.noise = []) : onLoom s h t = (s, .whole) := by
  unfold onLoom
  split
  · rfl
  · simp [travel, hn]

theorem meetFlaws_none {s : State} {t a n : Nat} {x : Store} (hf : (getTile s t).flaws = []) : meetFlaws s t x a n = s := by
  simp [meetFlaws, hf]

theorem storeRead_sound {t : Tile} {x : Store} {a n : Nat} (hp : storePoison t x a n = false) :
    storeRead t x a n = memRead (storeMem t x) a n := by
  simp [storeRead, hp]

/-- A load that nothing befalls delivers the bytes that are at its home. -/
theorem loadAccess_tile {s : State} {h : HartId} {a : MemAcc} {w : Width} {t : Nat} (ha : a.tile = some t) (hn : s.noise = [])
    (hf : (getTile s t).flaws = []) (hp : storePoison (getTile s t) .l a.addr a.size = false) :
    loadAccess s h a w = (s, loaded w (memRead (getTile s t).l a.addr a.size)) := by
  simp [loadAccess, ha, onLoom_quiet hn, homeRead, meetFlaws_none hf, storeRead_sound hp, hp, loadValue_eq, storeMem]

/-- A store that nothing befalls puts its bytes at its home. -/
theorem storeAccessDone_tile {s : State} {h : HartId} {a : MemAcc} {v t : Nat} (ha : a.tile = some t) (hn : s.noise = []) :
    storeAccessDone s h a v = modTile s t fun x => storeWrite x .l a.addr a.size v := by
  simp [storeAccessDone, onLoom_quiet hn, homeWrite, ha]

/-! ## What a store to a tile's store changes -/

theorem storeMem_storeWrite (t : Tile) (x y : Store) (a n v : Nat) :
    storeMem (storeWrite t x a n v) y = if y = x then memWrite (storeMem t x) a n v else storeMem t y := by
  have frame : storeMem (storeWrite t x a n v) y = storeMem (setStoreMem t x (memWrite (storeMem t x) a n v)) y := by
    simp only [storeWrite]
    split
    · rfl
    · cases y <;> rfl
  rw [frame]
  cases x <;> cases y <;> rfl

theorem storeWrite_harts (t : Tile) (x : Store) (a n v : Nat) : (storeWrite t x a n v).harts = t.harts := by
  simp only [storeWrite]
  split <;> cases x <;> rfl

theorem storeMem_modHart (s : State) (h : HartId) (f : Hart → Hart) (u : Nat) (x : Store) :
    storeMem (getTile (modHart s h f) u) x = storeMem (getTile s u) x := by
  cases x <;> simp [storeMem]

/-- What leaves the harts of a tile leaves every hart. -/
theorem getHart_modTile {s : State} {t : Nat} {f : Tile → Tile} (hf : (f (getTile s t)).harts = (getTile s t).harts) (k : HartId) :
    getHart (modTile s t f) k = getHart s k := by
  cases k with
  | mender m i => rfl
  | tile u i =>
    by_cases e : u = t
    · subst e; simp [getHart, modTile, hf]
    · simp [getHart, modTile, getTile_setTile_other _ _ e]

section
variable (s : State) (h : HartId) (f : Hart → Hart) (t a n v : Nat) (x : Store)

/-- A store, and then a change of a hart: the bytes that were put are there. -/
theorem memRead_stored :
    memRead (storeMem (getTile (modHart (modTile s t fun y => storeWrite y x a n v) h f) t) x) a n = v % 256 ^ n := by
  rw [storeMem_modHart, modTile, getTile_setTile_same, storeMem_storeWrite, if_pos rfl, memRead_memWrite_same]

theorem onlyStoreBytes_stored : OnlyStoreBytes s (modHart (modTile s t fun y => storeWrite y x a n v) h f) t x a n := by
  refine ⟨by simp, fun u y b => ?_⟩
  simp only [storeByte, storeMem_modHart]
  by_cases hu : u = t
  · subst hu
    rw [modTile, getTile_setTile_same, storeMem_storeWrite]
    by_cases hy : y = x
    · subst hy
      rw [if_pos rfl]
      by_cases hb : a ≤ b ∧ b < a + n
      · exact .inl ⟨rfl, rfl, hb⟩
      · exact .inr (memRead_memWrite_other _ _ _ _ _ _ (by omega))
    · rw [if_neg hy]; exact .inr rfl
  · rw [modTile, getTile_setTile_other _ _ hu]; exact .inr rfl

theorem getHart_stored (k : HartId) :
    getHart (modHart (modTile s t fun y => storeWrite y x a n v) h f) k = if k = h then f (getHart s h) else getHart s k := by
  split
  · next e => rw [e, getHart_modHart_same, getHart_modTile (storeWrite_harts _ _ _ _ _)]
  · next e => rw [getHart_modHart_other _ _ e, getHart_modTile (storeWrite_harts _ _ _ _ _)]
end

/-! ## LDM and STM are performed (R93, R101, R334) -/

theorem isOpt_access {o : LongOp} {a : MemAcc} (ha : opAccess o = some a) : isOpt o = false := by
  cases hx : o.fx with
  | opt r => simp [opAccess, hx] at ha
  | none | load | store | words | rows | ring => simp [isOpt, hx]

/-- An access to a tile whose time has passed may complete: its target is not switched out, and it is the next of its pair. -/
theorem opDue_access {s : State} {h : HartId} {o : LongOp} {a : MemAcc} {t : Nat} (hawait : o.await = .time) (hdue : o.due ≤ s.cycle)
    (hwin : o.win = []) (ha : opAccess o = some a) (ht : a.tile = some t) (hs : switchedOut s (hartCtx s h) t = false)
    (hp : ∀ u, tileOf? h = some u → pairNext s u t a.sent = true) : opDue s h o = true := by
  have held : opHeld s h o = false := by simp [opHeld, ha, ht, hs]
  have pub : pubTurn s h o = true := by cases h <;> simp [pubTurn, hwin]
  have pair : pairedTurn s h o = true := by
    cases hu : tileOf? h with
    | none => simp [pairedTurn, hu]
    | some u => simp [pairedTurn, hu, ha, ht, hp u hu]
  simp [opDue, hawait, hdue, held, pub, pair]

section
variable {s : State} {h : HartId} {i : Nat} {a : MemAcc} {t : Nat} (ht : a.tile = some t) (hs : switchedOut s (hartCtx s h) t = false)
  (hp : ∀ u, tileOf? h = some u → pairNext s u t a.sent = true)
include ht hs hp

theorem access_completes {wbs : List WriteBack} {fx : OpFx} (hd : AccessDue s h i wbs fx)
    (ha : ∀ o : LongOp, o.fx = fx → opAccess o = some a) :
    ∃ left due, exec .longOpComplete s = .next (completeOp s h i { opAt (getHart s h) 0 due wbs 0 false fx with left := left }) := by
  obtain ⟨he, ⟨left, due, hdue, ho⟩, -, -⟩ := hd
  exact ⟨left, due, longOpComplete_of he ho (opDue_access rfl hdue rfl (ha _ rfl) ht hs hp) (isOpt_access (ha _ rfl))⟩

theorem load_performed {w : Width} {d : GReg} (hd : AccessDue s h i (backOf w d) (.load a w)) (hf : (getTile s t).flaws = [])
    (hb : storePoison (getTile s t) .l a.addr a.size = false) :
    exec .longOpComplete s = .next (modHart s h (loadedHart w d i (memRead (getTile s t).l a.addr a.size))) := by
  obtain ⟨left, due, he⟩ := access_completes ht hs hp hd fun o ho => by simp [opAccess, ho]
  let o : LongOp := { opAt (getHart s h) 0 due (backOf w d) 0 false (.load a w) with left := left }
  have fin : finishOp s h o = writeBack s h
      { o with wbs := (backOf w d).map fun b => ⟨b.reg, loaded w (memRead (getTile s t).l a.addr a.size)⟩ } := by
    simp only [finishOp, o, opAt, loadAccess_tile ht hd.quiet hf hb]
  rw [he, completeOp_own fin rfl (by simpa using ownReg_backOf) rfl rfl hd.going, completedHart_access rfl rfl rfl]
  simp only [List.foldl_map]
  rfl

theorem store_performed {v : Nat} (hd : AccessDue s h i [] (.store a v)) :
    exec .longOpComplete s = .next (modHart (modTile s t fun x => storeWrite x .l a.addr a.size v) h
      fun x => { x with out := x.out.eraseIdx i }) := by
  obtain ⟨left, due, he⟩ := access_completes ht hs hp hd fun o ho => by simp [opAccess, ho]
  let o : LongOp := { opAt (getHart s h) 0 due [] 0 false (.store a v) with left := left }
  have fin : finishOp s h o = writeBack (modTile s t fun x => storeWrite x .l a.addr a.size v) h o := by
    simp only [finishOp, o, opAt, storeAccessDone_tile ht hd.quiet]
  have going : ∀ n, (getHart (modTile s t fun x => storeWrite x .l a.addr a.size v) h).status ≠ .parked (.fence n) := by
    rw [getHart_modTile (storeWrite_harts _ _ _ _ _)]; exact hd.going
  rw [he, completeOp_own fin rfl nofun rfl rfl going, completedHart_access rfl rfl rfl]
  rfl
end

/-- Settles O9: LDM and STM set out to the tile of their address (`meshTarget_place`, `ldm_issues`, `stm_issues`), and act on the bytes of
its L-store as they complete (`load_performed`, `store_performed`). -/
theorem meshAccesses : Obligations.MeshAccesses := by
  unfold Obligations.MeshAccesses
  refine ⟨fun s c t off u o ea => meshTarget_place, ?_, ?_⟩
  · intro la imm w a d s u t off hu ea acc hroom hal ht haw
    exact ⟨ldm_issues hu hal ht haw hroom, stm_issues hu hal ht haw hroom⟩
  · intro s h i t off v sent ea pc esc w d hs hp acc
    refine ⟨load_performed (a := acc) rfl hs hp, fun hd => ?_⟩
    refine ⟨_, store_performed (a := acc) rfl hs hp hd, memRead_stored s h _ t off (accessSize w) v .l,
      onlyStoreBytes_stored s h _ t off (accessSize w) v .l, ?_, fun k hk => ?_⟩
    · rw [getHart_stored, if_pos rfl]
    · rw [getHart_stored, if_neg hk]

end Sys2Proof.Machine
end

section
/-! PROOF of O57 and O56: decoding an encoding. The fields of a word, format by format, are what its encoder put there; an instruction is
then decoded from a word of which nothing is known but its fields (`decodes_R` to `decodes_half`), and so for each instruction (`decodes`). -/

namespace Sys2Proof.Laws

open Sys2Proof.Claims Sys2Proof.Machine Fin.NatCast

/-! ## The registers and immediates of a word, from its fields (R35) -/

@[simp] theorem need_true (e : DecodeError) (i : Instr) : need true e i = .ok i := rfl

/-- A register number of `n` values is the one of the field of `m` values at the same place, where `n` divides `m`. -/
theorem cast_div {n m p w : Nat} [NeZero n] (h : n ∣ m) : ((w / p : Nat) : Fin n) = (fld w p m : Fin n) :=
  Fin.ext (by simp [fld, Nat.mod_mod_of_dvd _ h])

section
variable (w : Nat)
@[simp] theorem rd_eq_dF : rd w = (dF w : Fin 32) := cast_div (by decide)
@[simp] theorem ra_eq_aF : ra w = (aF w : Fin 32) := cast_div (by decide)
@[simp] theorem rb_eq_bF : rb w = (bF w : Fin 32) := cast_div (by decide)
@[simp] theorem laX_eq_xF : laX w = (xF w : Fin 16) := cast_div (by decide)
@[simp] theorem laM_eq_laE : laM w = (laE w : Fin 16) := cast_div (by decide)
@[simp] theorem kV_eq_kF : kV w = (kF w : Fin 4) := cast_div (by decide)
@[simp] theorem bV_eq_vbF : bV w = (vbF w : Fin 16) := cast_div (by decide)
@[simp] theorem aV_eq_vaF : aV w = (vaF w : Fin 16) := cast_div (by decide)
@[simp] theorem dV_eq_vdF : dV w = (vdF w : Fin 16) := cast_div (by decide)
@[simp] theorem fin8_d : ((w / 128 : Nat) : Fin 8) = (dF w : Fin 8) := cast_div (by decide)
@[simp] theorem fin16_d : ((w / 128 : Nat) : Fin 16) = (vdF w : Fin 16) := cast_div (by decide)
@[simp] theorem fin4_d : ((w / 128 : Nat) : Fin 4) = (vdF w : Fin 4) := cast_div (by decide)
@[simp] theorem fin8_ea : ((w / 4096 : Nat) : Fin 8) = (eaF w : Fin 8) := cast_div (by decide)
@[simp] theorem fin8_eb : ((w / 32768 : Nat) : Fin 8) = (ebF w : Fin 8) := cast_div (by decide)
@[simp] theorem fin8_ec : ((w / 262144 : Nat) : Fin 8) = (ecF w : Fin 8) := cast_div (by decide)
@[simp] theorem fin4_m : ((w / 2097152 : Nat) : Fin 4) = (mE w : Fin 4) := cast_div (by decide)
@[simp] theorem fin16_n : ((w / 16777216 : Nat) : Fin 16) = (nE w : Fin 16) := cast_div (by decide)
@[simp] theorem fin4_n : ((w / 16777216 : Nat) : Fin 4) = (nE w : Fin 4) := cast_div (by decide)
@[simp] theorem fin16_la : ((w / 268435456 : Nat) : Fin 16) = (laE w : Fin 16) := cast_div (by decide)
@[simp] theorem fin4_vb : ((w / 32768 : Nat) : Fin 4) = (vbF w : Fin 4) := cast_div (by decide)
/-- An e-register in the a field of the R format, and a v-register in its d field. -/
theorem eaF_eq_aF : eaF w = aF w % 8 := by simp only [eaF, aF, fld]; omega
theorem vdF_eq_dF : vdF w = dF w % 16 := by simp only [vdF, dF, fld]; omega
end

/-! ## The fields of each format that are not set out above -/

section
variable {imm a d : Nat} (hd : d < 32) (ha : a < 32)
include hd ha
theorem encI_imm {maj : Nat} (h0 : maj < 64) : encI maj imm a d / 131072 = imm := by simp only [encI]; omega

/-- SHI: the operation stands above the shift amount (R72). -/
theorem encI_shift {k n : Nat} (hk : k < 4) (hn : n < 64) : let w := encI 7 (8192 * k + n) a d
    w / 131072 % 64 = n ∧ fld w 8388608 128 = 0 ∧ fld w 1073741824 4 = k := by
  simp only [encI, fld]; omega

/-- CSR: the operation stands above the number (R67). -/
theorem encI_csr {k n : Nat} (hk : k < 8) (hn : n < 4096) : let w := encI 15 (4096 * k + n) a d
    w / 131072 % 4096 = n ∧ fld w 536870912 8 = k := by
  simp only [encI, fld]; omega
end

theorem encM_fields {maj la imm wd a d : Nat} (h0 : maj < 64) (hl : la < 16) (hi : imm < 256) (hw : wd < 8) (hd : d < 32) (ha : a < 32) :
    let w := encM maj la imm wd a d
    majorF w = maj ∧ dF w = d ∧ aF w = a ∧ laE w = la ∧ fld w 131072 8 = wd ∧ fld w 131072 2 = wd % 2 ∧ fld w 262144 4 = wd / 2 ∧
      imm8F w = BitVec.ofNat 8 imm := by
  have himm : encM maj la imm wd a d / 1048576 % 256 = imm := by simp only [encM]; omega
  refine ⟨?_, ?_, ?_, ?_, ?_, ?_, ?_, BitVec.eq_of_toNat_eq (by simpa [imm8F, Nat.mod_eq_of_lt hi] using himm)⟩
  all_goals simp only [encM, majorF, dF, aF, laE, fld]; omega

theorem encB_fields {cond off b a : Nat} (hc : cond < 8) (hb : b < 32) (ha : a < 32) : let w := encB cond off b a
    majorF w = 10 ∧ dF w = a ∧ aF w = b ∧ fld w 131072 8 = cond ∧ w / 1048576 = off := by
  simp only [encB, majorF, dF, aF, fld]; omega

theorem encJ_fields {maj off d : Nat} (h0 : maj < 64) (hd : d < 32) : let w := encJ maj off d
    majorF w = maj ∧ dF w = d ∧ w / 4096 = off := by
  simp only [encJ, majorF, dF, fld]; omega

/-- An atomic: the order and the scope are the two parts of x (R38). -/
theorem encR_atomic {maj f o sc d a b : Nat} (h0 : maj < 64) (hf : f < 32) (hs : sc < 8) (hd : d < 32) (ha : a < 32)
    (hb : b < 32) : let w := encR maj f (8 * o + sc) d a b
    fld w 134217728 8 = sc ∧ fld w 1073741824 4 = o % 4 := by
  simp only [encR, fld]; omega

/-- The V format of VINS and VEXT is the other one with t split (R39). -/
theorem encVt_fields {maj f6 t k vb va vd : Nat} (h0 : maj < 64) (h1 : f6 < 64) (h3 : k < 4) (h4 : vb < 16) (h5 : va < 16)
    (h6 : vd < 16) : let w := encVt maj f6 t k vb va vd
    majorF w = maj ∧ f6F w = f6 ∧ w / 134217728 = t ∧ kF w = k ∧ vbF w = vb ∧ vaF w = va ∧ vdF w = vd := by
  simp only [encVt, majorF, f6F, kF, vbF, vaF, vdF, fld]; omega

/-! ## Codes read back -/

@[simp] theorem widthOf_code (x : Width) : widthOf x.code = x := by cases x <;> rfl
@[simp] theorem feSizeOf_code (x : FeSize) : feSizeOf x.code = x := by cases x <;> rfl
@[simp] theorem amoOrderOf_code (x : AmoOrder) : amoOrderOf x.code = x := by cases x <;> rfl
@[simp] theorem scopeOf_code (x : Scope) : scopeOf x.code = some x := by cases x <;> rfl
@[simp] theorem clreClassOf_code (x : ClreClass) : clreClassOf x.code = some x := by cases x <;> rfl
@[simp] theorem ftyOf_code (x : FTy) : ftyOf x.code = some x := by cases x <;> rfl
@[simp] theorem ityOf_code (x : ITy) : ityOf x.code = some x := by cases x <;> rfl
@[simp] theorem ctyOf_code (x : CTy) : ctyOf x.code = some x := by cases x <;> rfl
@[simp] theorem eltwOf_code (x : EltW) : eltwOf x.code = some x := by cases x <;> rfl
@[simp] theorem rmOf_code (x : Rm) : rmOf x.code = x := by cases x <;> rfl
/-- ISFULL names a class whose index it can check (R82). -/
theorem regClassOf_code {x : RegClass} {i : GReg} (h : regIndexOk x i = true) : regClassOf x.code = some x := by
  cases x with
  | latch => cases h
  | g | e | v | k | c | q => rfl
@[simp] theorem b2n_false : b2n false = 0 := rfl
@[simp] theorem b2n_true : b2n true = 1 := rfl
@[simp] theorem b2n_le_one (b : Bool) : b2n b ≤ 1 := by cases b <;> decide
@[simp] theorem b2n_eq_one (b : Bool) : (b2n b == 1) = b := by cases b <;> rfl

/-! ## What a word is read as (R33) -/

/-- The bytes of an odd word of 32 bits are read as that word. -/
theorem decodeTableWord_32 {w : Nat} (hw : w < 2 ^ 32) (h1 : w % 2 = 1) : decodeTableWord 32 w = (decode32 w).toOption := by
  have low : w % 256 + 256 * (w / 256 % 256) + 65536 * (w / 256 / 256 % 256 + 256 * (w / 256 / 256 / 256 % 256)) = w := by omega
  have odd : (w % 256 + 256 * (w / 256 % 256)) % 2 = 1 := by omega
  simp only [decodeTableWord, Nat.mod_eq_of_lt hw, wordBytes, decode, BitVec.toNat_ofNat, odd, if_true]
  norm_num only [low]
  cases decode32 w <;> rfl

/-- The bytes of an even word of 16 bits are read as that halfword. -/
theorem decodeTableWord_16 {w : Nat} (hw : w < 2 ^ 16) (h0 : w % 2 = 0) : decodeTableWord 16 w = (decode16 w).toOption := by
  have low : w % 256 + 256 * (w / 256 % 256) = w := by omega
  simp only [decodeTableWord, Nat.mod_eq_of_lt hw, wordBytes, decode, BitVec.toNat_ofNat]
  norm_num only [low, h0]
  cases decode16 w <;> rfl

/-- What O57 asks of an instruction. -/
def Decodes (i : Instr) : Prop :=
  ∀ n w : Nat, WellFormed i = true → encode i = some (n, w) → (n = 16 ∨ n = 32) ∧ w < 2 ^ n ∧ decodeTableWord n w = some (canon i)

theorem decodes_none {i : Instr} (he : encode i = none) : Decodes i := fun n w _ hw => by rw [he] at hw; cases hw

theorem decodes_32 {i : Instr} {w : Nat} (he : encode i = some (32, w)) (hw : w < 2 ^ 32 ∧ w % 2 = 1)
    (hd : WellFormed i = true → decode32 w = .ok (canon i)) : Decodes i := by
  intro n v hi hv
  cases he.symm.trans hv
  exact ⟨.inr rfl, hw.1, by rw [decodeTableWord_32 hw.1 hw.2, hd hi]; rfl⟩

theorem decodes_16 {i : Instr} {w : Nat} (he : encode i = some (16, w)) (hw : w < 2 ^ 16 ∧ w % 2 = 0)
    (hd : WellFormed i = true → decode16 w = .ok (canon i)) : Decodes i := by
  intro n v hi hv
  cases he.symm.trans hv
  exact ⟨.inl rfl, hw.1, by rw [decodeTableWord_16 hw.1 hw.2, hd hi]; rfl⟩

/-! ## From the fields of its word to the instruction

What is decoded is a word of which nothing is known but its fields. -/

section
variable {i : Instr}
theorem decodes_R {maj f x d a b : Nat} (he : encode i = some (32, encR maj f x d a b))
    (hw : maj < 64 ∧ f < 32 ∧ x < 32 ∧ d < 32 ∧ a < 32 ∧ b < 32)
    (h : ∀ w, majorF w = maj ∧ dF w = d ∧ aF w = a ∧ bF w = b ∧ fF w = f ∧ xF w = x → WellFormed i = true → decode32 w = .ok (canon i)) :
    Decodes i := by
  obtain ⟨h0, hf, hx, hd, ha, hb⟩ := hw
  exact decodes_32 he ⟨encR_lt h0 hd ha hb hf hx, by simp only [encR]; omega⟩ (h _ (encR_fields h0 hd ha hb hf hx))

theorem decode32_atomic {w : Nat} {sp : AmoSpace} (h : majorF w = 36 + sp.code) : decode32 w = decAmo w sp := by
  cases sp <;> simp [decode32, h, AmoSpace.code]

theorem decodes_atomic {sp : AmoSpace} {o : AmoOrder} {sc : Scope} {f d a b : Nat}
    (he : encode i = some (32, encR (36 + sp.code) f (8 * o.code + sc.code) d a b)) (hw : f < 32 ∧ d < 32 ∧ a < 32 ∧ b < 32)
    (h : ∀ w, dF w = d ∧ aF w = a ∧ bF w = b ∧ fF w = f → decAmoF w sp o sc = .ok (canon i)) : Decodes i := by
  obtain ⟨hf, hd, ha, hb⟩ := hw
  have hp := AmoSpace.code_lt sp
  have ho := AmoOrder.code_lt o
  have hs := Scope.code_lt sc
  have hm : 36 + sp.code < 64 := by omega
  have hx : 8 * o.code + sc.code < 32 := by omega
  obtain ⟨fm, fd, fa, fb, ff, -⟩ := encR_fields hm hd ha hb hf hx
  obtain ⟨fs, fo⟩ := encR_atomic (o := o.code) (sc := sc.code) hm hf (by omega) hd ha hb
  refine decodes_32 he ⟨encR_lt hm hd ha hb hf hx, by simp only [encR]; omega⟩ fun _ => ?_
  rw [decode32_atomic fm, decAmo, fs, fo, scopeOf_code, Nat.mod_eq_of_lt ho, amoOrderOf_code]
  exact h _ ⟨fd, fa, fb, ff⟩

theorem decodes_I {maj imm a d : Nat} (he : encode i = some (32, encI maj imm a d)) (hw : maj < 64 ∧ imm < 2 ^ 15 ∧ a < 32 ∧ d < 32)
    (h : ∀ w, majorF w = maj ∧ dF w = d ∧ aF w = a ∧ w / 131072 = imm → decode32 w = .ok (canon i)) : Decodes i := by
  obtain ⟨h0, hi, ha, hd⟩ := hw
  obtain ⟨hm, fd, fa⟩ := encI_fields (imm := imm) h0 hd ha
  exact decodes_32 he ⟨encI_lt h0 hd ha hi, by simp only [encI]; omega⟩ fun _ => h _ ⟨hm, fd, fa, encI_imm hd ha h0⟩

theorem decodes_M {maj la imm wd a d : Nat} (he : encode i = some (32, encM maj la imm wd a d))
    (hw : maj < 64 ∧ la < 16 ∧ imm < 256 ∧ wd < 8 ∧ a < 32 ∧ d < 32)
    (h : ∀ w, majorF w = maj ∧ dF w = d ∧ aF w = a ∧ laE w = la ∧ fld w 131072 8 = wd ∧ fld w 131072 2 = wd % 2 ∧ fld w 262144 4 = wd / 2 ∧
      imm8F w = BitVec.ofNat 8 imm → WellFormed i = true → decode32 w = .ok (canon i)) : Decodes i := by
  obtain ⟨h0, hl, hi, hwd, ha, hd⟩ := hw
  exact decodes_32 he ⟨encM_lt h0 hd ha hwd hi hl, by simp only [encM]; omega⟩ (h _ (encM_fields h0 hl hi hwd hd ha))

theorem decodes_B {cond off b a : Nat} (he : encode i = some (32, encB cond off b a)) (hw : cond < 8 ∧ off < 4096 ∧ b < 32 ∧ a < 32)
    (h : ∀ w, majorF w = 10 ∧ dF w = a ∧ aF w = b ∧ fld w 131072 8 = cond ∧ w / 1048576 = off → decode32 w = .ok (canon i)) :
    Decodes i := by
  obtain ⟨hc, ho, hb, ha⟩ := hw
  exact decodes_32 he ⟨encB_lt hc ho hb ha, by simp only [encB]; omega⟩ fun _ => h _ (encB_fields hc hb ha)

theorem decodes_J {maj off d : Nat} (he : encode i = some (32, encJ maj off d)) (hw : maj < 64 ∧ off < 2 ^ 20 ∧ d < 32)
    (h : ∀ w, majorF w = maj ∧ dF w = d ∧ w / 4096 = off → decode32 w = .ok (canon i)) : Decodes i := by
  obtain ⟨h0, ho, hd⟩ := hw
  exact decodes_32 he ⟨encJ_lt h0 ho hd, by simp only [encJ]; omega⟩ fun _ => h _ (encJ_fields h0 hd)

theorem decodes_E {maj f la n m ec eb ea : Nat} (he : encode i = some (32, encE maj f la n m ec eb ea))
    (hw : maj < 64 ∧ f < 32 ∧ la < 16 ∧ n < 16 ∧ m < 8 ∧ ec < 8 ∧ eb < 8 ∧ ea < 8)
    (h : ∀ w, majorF w = maj ∧ fE w = f ∧ laE w = la ∧ nE w = n ∧ mE w = m ∧ ecF w = ec ∧ ebF w = eb ∧ eaF w = ea → WellFormed i = true →
      decode32 w = .ok (canon i)) : Decodes i := by
  obtain ⟨h0, h1, h2, h3, h4, h5, h6, h7⟩ := hw
  exact decodes_32 he ⟨encE_lt h0 h1 h2 h3 h4 h5 h6 h7, by simp only [encE]; omega⟩ (h _ (encE_fields h0 h1 h2 h3 h4 h5 h6 h7))

theorem decodes_V {maj f6 ty rm k vb va vd : Nat} (he : encode i = some (32, encV maj f6 ty rm k vb va vd))
    (hw : maj < 64 ∧ f6 < 64 ∧ ty < 8 ∧ rm < 4 ∧ k < 4 ∧ vb < 16 ∧ va < 16 ∧ vd < 16)
    (h : ∀ w, majorF w = maj ∧ f6F w = f6 ∧ tF w = ty ∧ rmF w = rm ∧ kF w = k ∧ vbF w = vb ∧ vaF w = va ∧ vdF w = vd → WellFormed i = true →
      decode32 w = .ok (canon i)) : Decodes i := by
  obtain ⟨h0, h1, h2, h3, h4, h5, h6, h7⟩ := hw
  exact decodes_32 he ⟨encV_lt h0 h1 h2 h3 h4 h5 h6 h7, by simp only [encV]; omega⟩ (h _ (encV_fields h0 h1 h2 h3 h4 h5 h6 h7))

theorem decodes_Vt {maj f6 t k vb va vd : Nat} (he : encode i = some (32, encVt maj f6 t k vb va vd))
    (hw : maj < 64 ∧ f6 < 64 ∧ t < 32 ∧ k < 4 ∧ vb < 16 ∧ va < 16 ∧ vd < 16)
    (h : ∀ w, majorF w = maj ∧ f6F w = f6 ∧ w / 134217728 = t ∧ kF w = k ∧ vbF w = vb ∧ vaF w = va ∧ vdF w = vd →
      decode32 w = .ok (canon i)) : Decodes i := by
  obtain ⟨h0, h1, h2, h3, h4, h5, h6⟩ := hw
  exact decodes_32 he ⟨encVt_lt h0 h1 h2 h3 h4 h5 h6, by simp only [encVt]; omega⟩ fun _ => h _ (encVt_fields h0 h1 h3 h4 h5 h6)
end

/-! ## The instructions of 32 bits, major by major (R46) -/

theorem decodes_alu (d a b : GReg) (la : La) : ∀ i ∈
    [Instr.add d a b, .sub d a b, .and d a b, .or d a b, .xor d a b, .sll d a b, .srl d a b, .sra d a b, .slt d a b, .sltn d a b,
      .min d a b, .max d a b, .minn d a b, .maxn d a b, .addw d a b, .subw d a b, .mul la d a b, .mulh la d a b, .mulhn la d a b,
      .mulw la d a b, .div la d a b, .divn la d a b, .rem la d a b, .remn la d a b, .clz d a, .ctz d a, .popc d a, .rol d a b,
      .ror d a b, .sel d a b, .bfx d a b, .bfi d a b], Decodes i := by
  simp only [List.forall_mem_cons, List.not_mem_nil, false_implies, implies_true, and_true]
  and_intros
  all_goals exact decodes_R rfl (by omega) fun w h _ => by simp [decode32, decAlu, canon, h]

theorem decodes_imm (d a : GReg) (imm : Imm15) : ∀ i ∈
    [Instr.addi d a imm, .andi d a imm, .ori d a imm, .xori d a imm, .slti d a imm, .ldk d imm, .jalr d a imm], Decodes i := by
  simp only [List.forall_mem_cons, List.not_mem_nil, false_implies, implies_true, and_true]
  and_intros
  all_goals exact decodes_I rfl (by omega) fun w h => by simp [decode32, imm15F, canon, h]

theorem decodes_br (a b : GReg) (off : Off12) (bit : GReg) : ∀ i ∈
    [Instr.beq a b off, .bne a b off, .blt a b off, .bge a b off, .bltn a b off, .bgen a b off, .bbs a bit off, .bbc a bit off], Decodes i := by
  simp only [List.forall_mem_cons, List.not_mem_nil, false_implies, implies_true, and_true]
  and_intros
  all_goals exact decodes_B rfl (by omega) fun w h => by simp [decode32, decBr, canon, h]

theorem decodes_xregSys (e : EReg) (a d : GReg) : ∀ i ∈
    [Instr.setx e a, .getx d e, .park a, .nop, .ecall, .ebreak, .tret, .ifence], Decodes i := by
  simp only [List.forall_mem_cons, List.not_mem_nil, false_implies, implies_true, and_true]
  and_intros
  all_goals exact decodes_R rfl (by omega) fun w h _ => by simp [decode32, decXreg, decSys, zeroXbad, canon, h, eaF_eq_aF, Nat.mod_eq_of_lt]

theorem decodes_mem (la : La) (imm : Imm8) (w : Width) (a d : GReg) : ∀ i ∈
    [Instr.ldl la imm w a d, .stl la imm w a d, .ldm la imm w a d, .stm la imm w a d, .ldg la imm w a d, .stg la imm w a d,
      .ldws la imm w a d, .stws la imm w a d, .ldas la imm w a d, .stas la imm w a d, .ldcs la imm w a d, .stcs la imm w a d], Decodes i := by
  have hw := Width.code_lt w
  simp only [List.forall_mem_cons, List.not_mem_nil, false_implies, implies_true, and_true]
  and_intros
  all_goals
    exact decodes_M rfl (by omega) fun w h hi => by
      simp only [WellFormed] at hi
      simp [decode32, decMem, canon, h, hi]

theorem decodes_ldhPub (la : La) (imm : Imm8) (natural : Bool) (a d : GReg) : ∀ i ∈
    [Instr.ldh la imm natural a d, .pub la imm a d], Decodes i := by
  have hn := b2n_lt natural
  simp only [List.forall_mem_cons, List.not_mem_nil, false_implies, implies_true, and_true]
  and_intros
  · exact decodes_M rfl (by omega) fun w h _ => by cases natural <;> simp [decode32, decLdh, canon, h]
  · exact decodes_M rfl (by omega) fun w h _ => by simp [decode32, decPub, canon, h]

theorem decodes_fe (imm : Imm8) (sz : FeSize) (a d : GReg) : ∀ i ∈
    [Instr.ldflC imm sz a d, .ldflP imm sz a d, .stflF imm sz a d, .stflX imm sz a d, .stflE imm a, .ldfmC imm sz a d,
      .ldfmP imm sz a d, .stfmF imm sz a d, .stfmX imm sz a d, .stfmE imm a, .ldfgC imm a d, .ldfgP imm a d, .stfgF imm a d,
      .stfgX imm a d, .stfgE imm a], Decodes i := by
  have hz := FeSize.code_lt sz
  have get : sz.code / 2 = 0 ∧ sz.code % 2 = sz.code := by omega
  have take : (2 + sz.code) / 2 = 1 ∧ (2 + sz.code) % 2 = sz.code := by omega
  simp only [List.forall_mem_cons, List.not_mem_nil, false_implies, implies_true, and_true]
  and_intros
  all_goals
    exact decodes_M rfl (by omega) fun w h _ => by
      simp [decode32, decFeLoad, decFeStore, decFeLoadG, decFeStoreG, canon, h, get, take]

theorem decodes_amo (sp : AmoSpace) (o : AmoOrder) (sc : Scope) (d b a : GReg) : ∀ i ∈
    [Instr.amoAddW sp o sc d b a, .amoAddD sp o sc d b a, .amoAndD sp o sc d b a, .amoOrD sp o sc d b a, .amoXorD sp o sc d b a,
      .amoMinD sp o sc d b a, .amoMaxD sp o sc d b a, .amoMinnD sp o sc d b a, .amoMaxnD sp o sc d b a, .amoSwapW sp o sc d b a,
      .amoSwapD sp o sc d b a, .amoCasW sp o sc d b a, .amoCasD sp o sc d b a, .amoFaddU sp o sc d b a, .amoFmax sp o sc d b a,
      .amoFmin sp o sc d b a, .amoEsadd sp o sc b a, .amoEsrd sp o sc d a, .amoEsclr sp o sc a], Decodes i := by
  simp only [List.forall_mem_cons, List.not_mem_nil, false_implies, implies_true, and_true]
  and_intros
  all_goals exact decodes_atomic rfl (by omega) fun w h => by simp [decAmoF, canon, h]

theorem decodes_thr (d a b : GReg) (la : La) : ∀ i ∈
    [Instr.spawn d a b, .spawnH d a b, .sendm d a b, .recvm d a, .recvmO d a, .peekm d a, .putr la a b, .tid d, .fenceAcq, .fenceRel,
      .fenceFull, .fenceLb, .waitm, .exit, .yield], Decodes i := by
  simp only [List.forall_mem_cons, List.not_mem_nil, false_implies, implies_true, and_true]
  and_intros
  all_goals exact decodes_R rfl (by omega) fun w h _ => by simp [decode32, decFence, decSpawn, decMbx, decThr, zeroXbad, scopeOf, canon, h]

theorem decodes_eng (vector : Bool) (ea : EReg) (la : La) (n : GLow) (ec eb : EReg) : ∀ i ∈
    [Instr.kick vector ea, .cpyLm la n ec eb ea, .cpyGl la n ec eb ea, .cpyLg la n ec eb ea, .cpyGg la n ec eb ea, .cpyx n,
      .launch ea, .rdv, .cpyq], Decodes i := by
  have hv := b2n_lt vector
  simp only [List.forall_mem_cons, List.not_mem_nil, false_implies, implies_true, and_true]
  and_intros
  all_goals exact decodes_E rfl (by omega) fun w h _ => by simp [decode32, decEng, decCpy, decKrn, canon, h]

theorem decodes_stepb (d a b : GReg) : ∀ i ∈
    [Instr.wlpush d a b, .wlpop d a, .wlcnt d, .tbar d, .qbar d, .clbar d, .stepidle a, .step], Decodes i := by
  simp only [List.forall_mem_cons, List.not_mem_nil, false_implies, implies_true, and_true]
  and_intros
  all_goals exact decodes_R rfl (by omega) fun w h _ => by simp [decode32, decWl, decStepb, canon, h]

theorem decodes_vfp (t : FTy) (rm : Rm) (k : KReg) (b a d : VReg) (kd : KReg) (j : Slot4) : ∀ i ∈
    [Instr.vadd t rm k b a d, .vsub t rm k b a d, .vmul t rm k b a d, .vfma t rm k b a d, .vfms t rm k b a d, .vfnma t rm k b a d,
      .vmax t k b a d, .vmin t k b a d, .vabs t k a d, .vneg t k a d, .vceq t k b a kd, .vclt t k b a kd, .vcle t k b a kd,
      .vsel t k b a d, .vrcp t rm k a d, .vrsq t rm k a d, .vsqrt t rm k a d, .vexp2 t k a d, .vlog2 t k a d, .vtanh t k a d,
      .vamaxu t k j a], Decodes i := by
  have ht := FTy.code_lt t
  have hr := Rm.code_lt rm
  simp only [List.forall_mem_cons, List.not_mem_nil, false_implies, implies_true, and_true]
  and_intros
  all_goals exact decodes_V rfl (by omega) fun w h _ => by simp [decode32, decVfp, canon, h]

theorem decodes_vint (t : ITy) (k : KReg) (b a d : VReg) (kd : KReg) : ∀ i ∈
    [Instr.viadd t k b a d, .visub t k b a d, .vimul t k b a d, .viand t k b a d, .vior t k b a d, .vixor t k b a d, .vishl t k b a d,
      .vishr t k b a d, .visra t k b a d, .vimin t k b a d, .vimax t k b a d, .viadds t k b a d, .visubs t k b a d, .viceq t k b a kd,
      .viclt t k b a kd], Decodes i := by
  have ht := ITy.code_lt t
  simp only [List.forall_mem_cons, List.not_mem_nil, false_implies, implies_true, and_true]
  and_intros
  all_goals exact decodes_V rfl (by omega) fun w h _ => by simp [decode32, decVint, canon, h]

theorem decodes_mtx (la : La) (bank : Bool) (ea : EReg) (n : CTile) (eb : EReg) : ∀ i ∈
    [Instr.mld la bank ea, .mma la n bank ea, .mmaLatch la n bank, .mmat la n bank ea, .mmatLatch la n bank, .mout la bank eb ea,
      .mdrain la n bank, .mzero la n bank, .ringdef la ea, .latch la ea, .brot la], Decodes i := by
  have hb := b2n_lt bank
  simp only [List.forall_mem_cons, List.not_mem_nil, false_implies, implies_true, and_true]
  and_intros
  all_goals exact decodes_E rfl (by omega) fun w h _ => by cases bank <;> simp [decode32, decMtx, decMulSrc, decRing, canon, h]

theorem decodes_qf (la : La) (q : QReg) (n : CTile) (ea : EReg) : ∀ i ∈
    [Instr.qinit la q, .qhh la n q ea, .qapp la q, .qgen la n q ea, .qapl la n q, .qaplt la n q, .qapr la n q, .qaprt la n q,
      .qdense la n q, .qsave la n q, .qload la n q], Decodes i := by
  simp only [List.forall_mem_cons, List.not_mem_nil, false_implies, implies_true, and_true]
  and_intros
  all_goals exact decodes_E rfl (by omega) fun w h _ => by simp [decode32, decQf, canon, h]

theorem decodes_gq (b a : GReg) (d : VReg) : ∀ i ∈
    [Instr.gqpush b a d, .gqpop b a d, .gqwin b a], Decodes i := by
  simp only [List.forall_mem_cons, List.not_mem_nil, false_implies, implies_true, and_true]
  and_intros
  all_goals exact decodes_R rfl (by omega) fun w h _ => by simp [decode32, decGq, canon, h, vdF_eq_dF, Nat.mod_eq_of_lt]

theorem decodes_ep (d a b : GReg) : ∀ i ∈
    [Instr.gqlen d a, .epopen d a b, .eprec d a b, .epclose d a, .rwsend d a b, .epstat d a], Decodes i := by
  simp only [List.forall_mem_cons, List.not_mem_nil, false_implies, implies_true, and_true]
  and_intros
  all_goals exact decodes_R rfl (by omega) fun w h _ => by simp [decode32, decGq, decEp, canon, h]

theorem decodes_opt (la : La) (ec eb ea : EReg) : ∀ i ∈
    [Instr.optAdamw la ec eb ea, .optSgdm la ec eb ea, .optClip la ec ea], Decodes i := by
  simp only [List.forall_mem_cons, List.not_mem_nil, false_implies, implies_true, and_true]
  and_intros
  all_goals exact decodes_E rfl (by omega) fun w h _ => by simp [decode32, decOpt, canon, h]

theorem decodes_coll (la : La) (n : GLow) (ea ec eb : EReg) : ∀ i ∈
    [Instr.collDecl la n ea, .collAg la n ec eb ea, .collRsO la n ec eb ea, .collRsU la n ec eb ea, .collArO la n ec eb ea,
      .collArU la n ec eb ea, .collA2a la n ec eb ea, .collBar la n ec], Decodes i := by
  simp only [List.forall_mem_cons, List.not_mem_nil, false_implies, implies_true, and_true]
  and_intros
  all_goals exact decodes_E rfl (by omega) fun w h _ => by simp [decode32, decColl, canon, h]

theorem decodes_priv (b a d : GReg) : ∀ i ∈
    [Instr.tlbinv b a, .tlbprobe d a, .lkctlStatus d a b, .swreqSwitch d a, .report b a, .lkctlThresh d a b, .lkctlMaxw d a b,
      .lkctlRetrain d a b, .swreqDefpart d a, .swreqSetrun d a, .swreqDestroy d a], Decodes i := by
  simp only [List.forall_mem_cons, List.not_mem_nil, false_implies, implies_true, and_true]
  and_intros
  all_goals exact decodes_R rfl (by omega) fun w h _ => by simp [decode32, decPriv, canon, h]

/-- A word of SHI with operation `k` (R72). -/
theorem decodes_shift {i : Instr} {k : Nat} {n : Sh6} {a d : GReg} (he : encode i = some (32, encI 7 (8192 * k + n) a d)) (hk : k < 4)
    (h : ∀ w, dF w = d ∧ aF w = a ∧ ((w / 131072 : Nat) : Fin 64) = n ∧ fld w 8388608 128 = 0 ∧ fld w 1073741824 4 = k →
      decShi w = .ok (canon i)) : Decodes i := by
  obtain ⟨hm, fd, fa⟩ := encI_fields (maj := 7) (imm := 8192 * k + n) (by decide) d.isLt a.isLt
  obtain ⟨fn, fz, fk⟩ := encI_shift d.isLt a.isLt hk n.isLt
  refine decodes_32 he ⟨encI_lt (by decide) d.isLt a.isLt (by omega), by simp only [encI]; omega⟩ fun _ => ?_
  rw [decode32, hm]
  exact h _ ⟨fd, fa, Fin.ext fn, fz, fk⟩

theorem decodes_shi (d a : GReg) (n : Sh6) : ∀ i ∈ [Instr.slli d a n, .srli d a n, .srai d a n, .rori d a n], Decodes i := by
  simp only [List.forall_mem_cons, List.not_mem_nil, false_implies, implies_true, and_true]
  and_intros
  · exact decodes_shift (k := 0) (n := n) (a := a) (d := d) rfl (by decide) fun w h => by simp [decShi, canon, h]
  · exact decodes_shift (k := 1) rfl (by decide) fun w h => by simp [decShi, canon, h]
  · exact decodes_shift (k := 2) rfl (by decide) fun w h => by simp [decShi, canon, h]
  · exact decodes_shift (k := 3) rfl (by decide) fun w h => by simp [decShi, canon, h]

/-- A word of CSR with operation `k` (R67). -/
theorem decodes_csrOp {i : Instr} {k d a : Nat} {n : CsrNo} (he : encode i = some (32, encI 15 (4096 * k + n.toNat) a d))
    (hw : k < 8 ∧ d < 32 ∧ a < 32)
    (h : ∀ w, dF w = d ∧ aF w = a ∧ BitVec.ofNat 12 (w / 131072) = n ∧ fld w 536870912 8 = k → decCsr w = .ok (canon i)) :
    Decodes i := by
  obtain ⟨hk, hd, ha⟩ := hw
  obtain ⟨hm, fd, fa⟩ := encI_fields (maj := 15) (imm := 4096 * k + n.toNat) (by decide) hd ha
  obtain ⟨fn, fk⟩ := encI_csr hd ha hk n.isLt
  refine decodes_32 he ⟨encI_lt (by decide) hd ha (by omega), by simp only [encI]; omega⟩ fun _ => ?_
  rw [decode32, hm]
  exact h _ ⟨fd, fa, BitVec.eq_of_toNat_eq fn, fk⟩

theorem decodes_csr (d a : GReg) (n : CsrNo) :
    ∀ i ∈ [Instr.csrr d n, .csrw n a, .csrs d n a, .csrc d n a, .csrx d n a], Decodes i := by
  simp only [List.forall_mem_cons, List.not_mem_nil, false_implies, implies_true, and_true]
  and_intros
  · exact decodes_csrOp (k := 0) (by simp [encode]; rfl) (by omega) fun w h => by simp [decCsr, canon, h]
  · exact decodes_csrOp (k := 1) rfl (by omega) fun w h => by simp [decCsr, canon, h]
  · exact decodes_csrOp (k := 2) rfl (by omega) fun w h => by simp [decCsr, canon, h]
  · exact decodes_csrOp (k := 3) rfl (by omega) fun w h => by simp [decCsr, canon, h]
  · exact decodes_csrOp (k := 4) rfl (by omega) fun w h => by simp [decCsr, canon, h]

theorem decodes_jal (d : GReg) (off : Off20) : Decodes (.jal d off) :=
  decodes_J rfl (by omega) fun w h => by simp [decode32, canon, h]

@[simp] theorem except_ok_bind {ε α β : Type} (a : α) (f : α → Except ε β) : (Except.ok a >>= f) = f a := rfl

theorem decodes_clre (cls : ClreClass) (i : GReg) : Decodes (.clre cls i) := by
  have hc := ClreClass.code_lt cls
  exact decodes_R rfl (by omega) fun w h hi => by
    simp only [WellFormed] at hi
    simp [decode32, decThr, canon, h, hi]

theorem decodes_isfull (d : GReg) (cls : RegClass) (i : GReg) : Decodes (.isfull d cls i) := by
  have hc := RegClass.code_lt cls
  exact decodes_R rfl (by omega) fun w h hi => by
    simp only [WellFormed] at hi
    simp [decode32, decThr, canon, h, hi, regClassOf_code hi]

theorem decodes_fork (mask : SeqMask) (ea eb : EReg) : Decodes (.fork mask ea eb) :=
  decodes_E rfl (by omega) fun w h hi => by
    simp only [WellFormed] at hi
    simp [decode32, decEng, canon, h, hi]

theorem decodes_vcvt (t : CTy) (rm : Rm) (j : Slot4) (widen : Bool) (part : Slot4) (a d : VReg) : Decodes (.vcvt t rm j widen part a d) := by
  have ht := CTy.code_lt t
  have hr := Rm.code_lt rm
  have hb := b2n_lt widen
  have low : ((8 * b2n widen + part.val : Nat) : Fin 4) = part := Fin.ext (by show (8 * b2n widen + part.val) % 4 = part.val; omega)
  have mid : fld (8 * b2n widen + part.val) 4 2 = 0 := by simp only [fld]; omega
  have top : fld (8 * b2n widen + part.val) 8 2 = b2n widen := by simp only [fld]; omega
  exact decodes_V rfl (by omega) fun w h hi => by
    simp only [WellFormed] at hi
    simp [decode32, decVcvt, canon, h, hi, low, mid, top]

theorem decodes_quant (t : CTy) (rm : Rm) (j mode : Slot4) (thr : Nib) (b a d : VReg) (hf : Bool) : ∀ i ∈
    [Instr.vquant t rm j mode a d, .vquantv t rm j thr a d, .vdeq t rm j mode a d, .sclnext t j, .vpack t j b a d,
      .vunpk t j hf a d], Decodes i := by
  have ht := CTy.code_lt t
  have hr := Rm.code_lt rm
  have hb := b2n_lt hf
  simp only [List.forall_mem_cons, List.not_mem_nil, false_implies, implies_true, and_true]
  and_intros
  all_goals
    exact decodes_V rfl (by omega) fun w h hi => by
      simp only [WellFormed] at hi
      simp [decode32, decVcvt, canon, h, hi, hb]

theorem decodes_vred (t : FTy) (k : KReg) (c : Nib) (a d : VReg) :
    ∀ i ∈ [Instr.vrsumO t k c a d, .vrsumU t k c a d, .vrmax t k c a d, .vramax t k c a d, .vrmin t k c a d], Decodes i := by
  have ht := FTy.code_lt t
  simp only [List.forall_mem_cons, List.not_mem_nil, false_implies, implies_true, and_true]
  and_intros
  all_goals
    exact decodes_V rfl (by omega) fun w h hi => by
      simp only [WellFormed] at hi
      simp [decode32, decVred, canon, h, hi]

theorem decodes_vperm (t : EltW) (k : KReg) (b a d : VReg) (n : Nib) :
    ∀ i ∈ [Instr.vshuf t k b a d, .vbcast t k n a d, .vslide t k n a d], Decodes i := by
  have ht := EltW.code_lt t
  simp only [List.forall_mem_cons, List.not_mem_nil, false_implies, implies_true, and_true]
  and_intros
  all_goals exact decodes_V rfl (by omega) fun w h _ => by simp [decode32, decVperm, permOf, canon, h]

theorem decodes_vins (g : GReg) (n : Nib) (v : VReg) : Decodes (.vins g n v) ∧ Decodes (.vext g n v) :=
  ⟨decodes_Vt rfl (by omega) fun w h => by simp [decode32, decVperm, canon, h],
    decodes_Vt rfl (by omega) fun w h => by simp [decode32, decVperm, canon, h]⟩

/-! ## The compact forms (R44, R45) -/

/-- The fields of a halfword: op3, the five bits above it, and the seven above those, as one number or in two parts (R44). -/
structure Half (w op lo hi : Nat) : Prop where
  op3 : fld w 2 8 = op
  reg : ((w / 16 : Nat) : Fin 32) = (lo : Fin 32)
  five : fld w 16 32 = lo
  above : w / 512 = hi
  seven : fld w 512 128 = hi
  f2 : fld w 16384 4 = hi / 32
  off : w / 4096 = hi / 8
  twelve : w / 16 = 32 * hi + lo
  nonzero : lo ≠ 0 → w ≠ 0

theorem decodes_half {i : Instr} {w op lo hi : Nat} (he : encode i = some (16, w))
    (hw : w = 2 * op + 16 * lo + 512 * hi ∧ op < 8 ∧ lo < 32 ∧ hi < 128)
    (h : ∀ w, Half w op lo hi → WellFormed i = true → decode16 w = .ok (canon i)) : Decodes i := by
  obtain ⟨hv, hop, hlo, hhi⟩ := hw
  refine decodes_16 he (by omega) (h _ ⟨?_, Fin.ext (by show w / 16 % 32 = lo % 32; omega), ?_, ?_, ?_, ?_, ?_, ?_, ?_⟩)
  all_goals try simp only [fld]
  all_goals omega

theorem decodes_cAddi (d : GReg) (imm : Imm7) : Decodes (.cAddi d imm) :=
  decodes_half (op := 0) (lo := d) (hi := imm.toNat) rfl (by omega) fun w h hd => by
    simp only [WellFormed] at hd
    have hw : w ≠ 0 := h.nonzero fun e => bne_iff_ne.mp hd (Fin.ext e)
    simp [decode16, canon, h.op3, h.reg, h.above, hd, hw]

/-- A register-register form with `k` in f2. -/
theorem decodes_cmovOp {i : Instr} {k : Nat} {a d : GReg} (hk : k < 4)
    (he : encode i = some (16, 2 + 16384 * k + 512 * a.val + 16 * d.val)) (hd : WellFormed i = (d != 0))
    (h : ∀ w, ((w / 16 : Nat) : Fin 32) = d ∧ ((w / 512 : Nat) : Fin 32) = a ∧ fld w 16384 4 = k → (d != 0) = true →
      decCmov w = .ok (canon i)) : Decodes i := by
  have reg : ((32 * k + a.val : Nat) : Fin 32) = a := Fin.ext (by show (32 * k + a.val) % 32 = a.val; omega)
  have op : (32 * k + a.val) / 32 = k := by omega
  refine decodes_half (op := 1) (lo := d) (hi := 32 * k + a.val) he (by omega) fun w hw hi => ?_
  rw [decode16, hw.op3]
  exact h w ⟨by simpa using hw.reg, by rw [hw.above, reg], by rw [hw.f2, op]⟩ (hd ▸ hi)

theorem decodes_cmov (d a : GReg) : ∀ i ∈ [Instr.cMov d a, .cAdd d a, .cSub d a, .cAnd d a], Decodes i := by
  simp only [List.forall_mem_cons, List.not_mem_nil, false_implies, implies_true, and_true]
  and_intros
  · exact decodes_cmovOp (k := 0) (by decide) rfl rfl fun w h hd => by simp [decCmov, canon, h, hd]
  · exact decodes_cmovOp (k := 1) (by decide) rfl rfl fun w h hd => by simp [decCmov, canon, h, hd]
  · exact decodes_cmovOp (k := 2) (by decide) rfl rfl fun w h hd => by simp [decCmov, canon, h, hd]
  · exact decodes_cmovOp (k := 3) (by decide) rfl rfl fun w h hd => by simp [decCmov, canon, h, hd]

theorem decodes_cmem (off : Nib) (a : EReg) (d : GReg) : ∀ i ∈ [Instr.cLdlD off a d, .cStlD off a d], Decodes i := by
  have base : ((8 * off.val + a.val : Nat) : Fin 8) = a := Fin.ext (by show (8 * off.val + a.val) % 8 = a.val; omega)
  have place : (8 * off.val + a.val) / 8 = off.val := by omega
  simp only [List.forall_mem_cons, List.not_mem_nil, false_implies, implies_true, and_true]
  constructor
  · exact decodes_half (op := 2) (lo := d) (hi := 8 * off.val + a.val) rfl (by omega) fun w h _ => by
      simp only [decode16, canon, h.op3, Fin.ofNat_eq_cast, h.off, place, h.above, base, h.reg, Fin.cast_val_eq_self]
  · exact decodes_half (op := 3) (lo := d) (hi := 8 * off.val + a.val) rfl (by omega) fun w h _ => by
      simp only [decode16, canon, h.op3, Fin.ofNat_eq_cast, h.off, place, h.above, base, h.reg, Fin.cast_val_eq_self]

theorem decodes_cbranch (off : Imm7) (a : GReg) : ∀ i ∈ [Instr.cBeqz off a, .cBnez off a], Decodes i := by
  simp only [List.forall_mem_cons, List.not_mem_nil, false_implies, implies_true, and_true]
  constructor
  · exact decodes_half (op := 4) (lo := a) (hi := off.toNat) rfl (by omega) fun w h _ => by simp [decode16, canon, h.op3, h.reg, h.above]
  · exact decodes_half (op := 5) (lo := a) (hi := off.toNat) rfl (by omega) fun w h _ => by simp [decode16, canon, h.op3, h.reg, h.above]

theorem decodes_cJ (off : Off12) : Decodes (.cJ off) := by
  have whole : 32 * (off.toNat / 32) + off.toNat % 32 = off.toNat := by omega
  exact decodes_half (op := 6) (lo := off.toNat % 32) (hi := off.toNat / 32) rfl (by omega) fun w h _ => by
    simp [decode16, canon, h.op3, h.twelve, whole]

/-- C.SYS with function `k`. -/
theorem decodes_csysFn {i : Instr} {k lo : Nat} (he : encode i = some (16, 14 + 512 * k + 16 * lo)) (hk : k < 7 ∧ lo < 32)
    (h : ∀ w, ((w / 16 : Nat) : Fin 32) = (lo : Fin 32) ∧ fld w 16 32 = lo ∧ fld w 512 128 = k → decCsys w = .ok (canon i)) : Decodes i :=
  decodes_half (op := 7) (lo := lo) (hi := k) he (by omega) fun w hw _ => by
    rw [decode16, hw.op3]
    exact h w ⟨hw.reg, hw.five, hw.seven⟩

theorem decodes_csys (d : GReg) : ∀ i ∈ [Instr.cSysNop, .cStep, .cYield, .cExit, .cRet, .cClre d, .cWaitm], Decodes i := by
  simp only [List.forall_mem_cons, List.not_mem_nil, false_implies, implies_true, and_true]
  and_intros
  · exact decodes_csysFn (k := 0) (lo := 0) rfl (by decide) fun w h => by simp [decCsys, canon, h]
  · exact decodes_csysFn (k := 1) (lo := 0) rfl (by decide) fun w h => by simp [decCsys, canon, h]
  · exact decodes_csysFn (k := 2) (lo := 0) rfl (by decide) fun w h => by simp [decCsys, canon, h]
  · exact decodes_csysFn (k := 3) (lo := 0) rfl (by decide) fun w h => by simp [decCsys, canon, h]
  · exact decodes_csysFn (k := 4) (lo := 0) rfl (by decide) fun w h => by simp [decCsys, canon, h]
  · exact decodes_csysFn (k := 5) (lo := d) rfl (by omega) fun w h => by simp [decCsys, canon, h]
  · exact decodes_csysFn (k := 6) (lo := 0) rfl (by decide) fun w h => by simp [decCsys, canon, h]

/-! ## Every instruction -/

/-- Every instruction is decoded from its encoding; an event of the machine has none. -/
theorem decodes (i : Instr) : Decodes i := by
  cases i
  case add d a b | sub d a b | and d a b | or d a b | xor d a b | sll d a b | srl d a b | sra d a b | slt d a b | sltn d a b
    | min d a b | max d a b | minn d a b | maxn d a b | addw d a b | subw d a b | rol d a b | ror d a b | sel d a b | bfx d a b
    | bfi d a b => exact decodes_alu d a b 0 _ (by repeat constructor)
  case mul la d a b | mulh la d a b | mulhn la d a b | mulw la d a b | div la d a b | divn la d a b | rem la d a b | remn la d a b =>
    exact decodes_alu d a b la _ (by repeat constructor)
  case clz d a | ctz d a | popc d a => exact decodes_alu d a 0 0 _ (by repeat constructor)
  case addi d a imm | andi d a imm | ori d a imm | xori d a imm | slti d a imm | jalr d a imm =>
    exact decodes_imm d a imm _ (by repeat constructor)
  case ldk d imm => exact decodes_imm d 0 imm _ (by repeat constructor)
  case beq a b off | bne a b off | blt a b off | bge a b off | bltn a b off | bgen a b off =>
    exact decodes_br a b off 0 _ (by repeat constructor)
  case bbs a bit off | bbc a bit off => exact decodes_br a 0 off bit _ (by repeat constructor)
  case setx e a => exact decodes_xregSys e a 0 _ (by repeat constructor)
  case getx d e => exact decodes_xregSys e 0 d _ (by repeat constructor)
  case park a => exact decodes_xregSys 0 a 0 _ (by repeat constructor)
  case nop | ecall | ebreak | tret | ifence => exact decodes_xregSys 0 0 0 _ (by repeat constructor)
  case ldl la imm w a d | stl la imm w a d | ldm la imm w a d | stm la imm w a d | ldg la imm w a d | stg la imm w a d
    | ldws la imm w a d | stws la imm w a d | ldas la imm w a d | stas la imm w a d | ldcs la imm w a d | stcs la imm w a d =>
    exact decodes_mem la imm w a d _ (by repeat constructor)
  case ldh la imm natural a d => exact decodes_ldhPub la imm natural a d _ (by repeat constructor)
  case pub la imm a d => exact decodes_ldhPub la imm false a d _ (by repeat constructor)
  case ldflC imm sz a d | ldflP imm sz a d | stflF imm sz a d | stflX imm sz a d | ldfmC imm sz a d | ldfmP imm sz a d
    | stfmF imm sz a d | stfmX imm sz a d => exact decodes_fe imm sz a d _ (by repeat constructor)
  case stflE imm a | stfmE imm a | stfgE imm a => exact decodes_fe imm .word a 0 _ (by repeat constructor)
  case ldfgC imm a d | ldfgP imm a d | stfgF imm a d | stfgX imm a d => exact decodes_fe imm .word a d _ (by repeat constructor)
  case amoAddW sp o sc d b a | amoAddD sp o sc d b a | amoAndD sp o sc d b a | amoOrD sp o sc d b a | amoXorD sp o sc d b a
    | amoMinD sp o sc d b a | amoMaxD sp o sc d b a | amoMinnD sp o sc d b a | amoMaxnD sp o sc d b a | amoSwapW sp o sc d b a
    | amoSwapD sp o sc d b a | amoCasW sp o sc d b a | amoCasD sp o sc d b a | amoFaddU sp o sc d b a | amoFmax sp o sc d b a
    | amoFmin sp o sc d b a => exact decodes_amo sp o sc d b a _ (by repeat constructor)
  case amoEsadd sp o sc b a => exact decodes_amo sp o sc 0 b a _ (by repeat constructor)
  case amoEsrd sp o sc d a => exact decodes_amo sp o sc d 0 a _ (by repeat constructor)
  case amoEsclr sp o sc a => exact decodes_amo sp o sc 0 0 a _ (by repeat constructor)
  case spawn d a b | spawnH d a b | sendm d a b => exact decodes_thr d a b 0 _ (by repeat constructor)
  case recvm d a | recvmO d a | peekm d a => exact decodes_thr d a 0 0 _ (by repeat constructor)
  case putr la a b => exact decodes_thr 0 a b la _ (by repeat constructor)
  case tid d => exact decodes_thr d 0 0 0 _ (by repeat constructor)
  case fenceAcq | fenceRel | fenceFull | fenceLb | waitm | exit | yield => exact decodes_thr 0 0 0 0 _ (by repeat constructor)
  case kick vector ea => exact decodes_eng vector ea 0 0 0 0 _ (by repeat constructor)
  case cpyLm la n ec eb ea | cpyGl la n ec eb ea | cpyLg la n ec eb ea | cpyGg la n ec eb ea =>
    exact decodes_eng false ea la n ec eb _ (by repeat constructor)
  case cpyx n => exact decodes_eng false 0 0 n 0 0 _ (by repeat constructor)
  case launch ea => exact decodes_eng false ea 0 0 0 0 _ (by repeat constructor)
  case rdv | cpyq => exact decodes_eng false 0 0 0 0 0 _ (by repeat constructor)
  case wlpush d a b => exact decodes_stepb d a b _ (by repeat constructor)
  case wlpop d a => exact decodes_stepb d a 0 _ (by repeat constructor)
  case wlcnt d | tbar d | qbar d | clbar d => exact decodes_stepb d 0 0 _ (by repeat constructor)
  case stepidle a => exact decodes_stepb 0 a 0 _ (by repeat constructor)
  case step => exact decodes_stepb 0 0 0 _ (by repeat constructor)
  case vadd t rm k b a d | vsub t rm k b a d | vmul t rm k b a d | vfma t rm k b a d | vfms t rm k b a d | vfnma t rm k b a d =>
    exact decodes_vfp t rm k b a d 0 0 _ (by repeat constructor)
  case vmax t k b a d | vmin t k b a d | vsel t k b a d => exact decodes_vfp t .frm k b a d 0 0 _ (by repeat constructor)
  case vabs t k a d | vneg t k a d | vexp2 t k a d | vlog2 t k a d | vtanh t k a d =>
    exact decodes_vfp t .frm k 0 a d 0 0 _ (by repeat constructor)
  case vceq t k b a kd | vclt t k b a kd | vcle t k b a kd => exact decodes_vfp t .frm k b a 0 kd 0 _ (by repeat constructor)
  case vrcp t rm k a d | vrsq t rm k a d | vsqrt t rm k a d => exact decodes_vfp t rm k 0 a d 0 0 _ (by repeat constructor)
  case vamaxu t k j a => exact decodes_vfp t .frm k 0 a 0 0 j _ (by repeat constructor)
  case viadd t k b a d | visub t k b a d | vimul t k b a d | viand t k b a d | vior t k b a d | vixor t k b a d | vishl t k b a d
    | vishr t k b a d | visra t k b a d | vimin t k b a d | vimax t k b a d | viadds t k b a d | visubs t k b a d =>
    exact decodes_vint t k b a d 0 _ (by repeat constructor)
  case viceq t k b a kd | viclt t k b a kd => exact decodes_vint t k b a 0 kd _ (by repeat constructor)
  case mld la bank ea => exact decodes_mtx la bank ea 0 0 _ (by repeat constructor)
  case mma la n bank ea | mmat la n bank ea => exact decodes_mtx la bank ea n 0 _ (by repeat constructor)
  case mmaLatch la n bank | mmatLatch la n bank | mdrain la n bank | mzero la n bank =>
    exact decodes_mtx la bank 0 n 0 _ (by repeat constructor)
  case mout la bank eb ea => exact decodes_mtx la bank ea 0 eb _ (by repeat constructor)
  case ringdef la ea | latch la ea => exact decodes_mtx la false ea 0 0 _ (by repeat constructor)
  case brot la => exact decodes_mtx la false 0 0 0 _ (by repeat constructor)
  case qinit la q | qapp la q => exact decodes_qf la q 0 0 _ (by repeat constructor)
  case qhh la n q ea | qgen la n q ea => exact decodes_qf la q n ea _ (by repeat constructor)
  case qapl la n q | qaplt la n q | qapr la n q | qaprt la n q | qdense la n q | qsave la n q | qload la n q =>
    exact decodes_qf la q n 0 _ (by repeat constructor)
  case gqpush b a d | gqpop b a d => exact decodes_gq b a d _ (by repeat constructor)
  case gqwin b a => exact decodes_gq b a 0 _ (by repeat constructor)
  case gqlen d a | epclose d a | epstat d a => exact decodes_ep d a 0 _ (by repeat constructor)
  case epopen d a b | eprec d a b | rwsend d a b => exact decodes_ep d a b _ (by repeat constructor)
  case optAdamw la ec eb ea | optSgdm la ec eb ea => exact decodes_opt la ec eb ea _ (by repeat constructor)
  case optClip la ec ea => exact decodes_opt la ec 0 ea _ (by repeat constructor)
  case collDecl la n ea => exact decodes_coll la n ea 0 0 _ (by repeat constructor)
  case collAg la n ec eb ea | collRsO la n ec eb ea | collRsU la n ec eb ea | collArO la n ec eb ea | collArU la n ec eb ea
    | collA2a la n ec eb ea => exact decodes_coll la n ea ec eb _ (by repeat constructor)
  case collBar la n ec => exact decodes_coll la n 0 ec 0 _ (by repeat constructor)
  case tlbinv b a | report b a => exact decodes_priv b a 0 _ (by repeat constructor)
  case tlbprobe d a | swreqSwitch d a | swreqDefpart d a | swreqSetrun d a | swreqDestroy d a =>
    exact decodes_priv 0 a d _ (by repeat constructor)
  case lkctlStatus d a b | lkctlThresh d a b | lkctlMaxw d a b | lkctlRetrain d a b => exact decodes_priv b a d _ (by repeat constructor)
  case slli d a n | srli d a n | srai d a n | rori d a n => exact decodes_shi d a n _ (by repeat constructor)
  case csrr d n => exact decodes_csr d 0 n _ (by repeat constructor)
  case csrw n a => exact decodes_csr 0 a n _ (by repeat constructor)
  case csrs d n a | csrc d n a | csrx d n a => exact decodes_csr d a n _ (by repeat constructor)
  case vquant t rm j mode a d | vdeq t rm j mode a d => exact decodes_quant t rm j mode 0 0 a d false _ (by repeat constructor)
  case vquantv t rm j thr a d => exact decodes_quant t rm j 0 thr 0 a d false _ (by repeat constructor)
  case sclnext t j => exact decodes_quant t .frm j 0 0 0 0 0 false _ (by repeat constructor)
  case vpack t j b a d => exact decodes_quant t .frm j 0 0 b a d false _ (by repeat constructor)
  case vunpk t j hf a d => exact decodes_quant t .frm j 0 0 0 a d hf _ (by repeat constructor)
  case vrsumO t k c a d | vrsumU t k c a d | vrmax t k c a d | vramax t k c a d | vrmin t k c a d =>
    exact decodes_vred t k c a d _ (by repeat constructor)
  case vshuf t k b a d => exact decodes_vperm t k b a d 0 _ (by repeat constructor)
  case vbcast t k n a d | vslide t k n a d => exact decodes_vperm t k 0 a d n _ (by repeat constructor)
  case cMov d a | cAdd d a | cSub d a | cAnd d a => exact decodes_cmov d a _ (by repeat constructor)
  case cLdlD off a d | cStlD off a d => exact decodes_cmem off a d _ (by repeat constructor)
  case cBeqz off a | cBnez off a => exact decodes_cbranch off a _ (by repeat constructor)
  case cSysNop | cStep | cYield | cExit | cRet | cWaitm => exact decodes_csys 0 _ (by repeat constructor)
  case cClre d => exact decodes_csys d _ (by repeat constructor)
  case jal d off => exact decodes_jal d off
  case clre cls i => exact decodes_clre cls i
  case isfull d cls i => exact decodes_isfull d cls i
  case fork mask ea eb => exact decodes_fork mask ea eb
  case vcvt t rm j widen part a d => exact decodes_vcvt t rm j widen part a d
  case cAddi d imm => exact decodes_cAddi d imm
  case cJ off => exact decodes_cJ off
  case vins g n d => exact (decodes_vins g n d).1
  case vext g n a => exact (decodes_vins g n a).2
  all_goals exact decodes_none rfl

/-- Settles O57: for each instruction, the fields of its word give its operands back (`decodes`). -/
theorem decodeEncode : Obligations.DecodeEncode := decodes

/-- The majors 0x00 and 0x3F hold no instruction (R34). -/
theorem decodeTableWord_illegalMajor {w : Nat} (hw : w < 2 ^ 32) (h1 : w % 2 = 1) (hm : cut w 1 6 = 0x00 ∨ cut w 1 6 = 0x3F) :
    decodeTableWord 32 w = none := by
  have major : majorF w = cut w 1 6 := rfl
  rw [decodeTableWord_32 hw h1, decode32, major]
  rcases hm with h | h <;> rw [h] <;> rfl

theorem exec_illegalInstruction (s : State) : exec .illegalInstruction s = .next (trapOn s s.cur 0x00 (w64 s.iword)) := rfl

/-- Settles O56. -/
theorem decodeWords : Obligations.DecodeWords :=
  ⟨rfl, fun _ hw h1 hm => decodeTableWord_illegalMajor hw h1 hm, exec_illegalInstruction, by decide, rfl⟩

end Sys2Proof.Laws
end

section
/-! PROOF of O7: loads and stores of a tile's own stores. The checks that an access passes, each once; what finding the errors of a store
leaves alone (`meetFlaws_frame`); then a load and a store of any of the four stores (`storeLoad_issues`, `storeStore_issues`). -/

namespace Sys2Proof.Machine

open Sys2Proof.Claims

/-! ## The checks of an access to a store of the own tile (R87, R88) -/

theorem myTile_of {s : State} {t : Nat} (h : tileOf? s.cur = some t) : myTile s = t := by simp [myTile, h]

theorem storeAccess_pass {x : Store} {n : Nat} {ea : Word} {s : State} (k : State → Out) (ha : ea.toNat % n = 0) (hi : ea.toNat < x.size) :
    storeAccess x n ea s k = k s := by
  simp [storeAccess, ha, hi]

/-- A hart of a tile sees the accumulator tiles of its tile (R55). -/
theorem regFull_cTile {s : State} {h : HartId} {t i : Nat} (ht : tileOf? h = some t) : regFull s h ⟨.c, i⟩ = (getTile s t).cF.getLsbD i := by
  cases h with
  | mender m j => cases ht
  | tile u j => cases ht; rfl

theorem cTileFull_pass {x : Store} {ea : Word} {s : State} (k : State → Out)
    (h : x = .c → regFull s s.cur ⟨.c, ea.toNat / 0x1000⟩ = true) : cTileFull x ea s k = k s := by
  have : (x == .c && !regFull s s.cur ⟨.c, ea.toNat / 0x1000⟩) = false := by
    by_cases hx : x = .c
    · simp [h hx]
    · simp [beq_eq_false_iff_ne.mpr hx]
  simp only [cTileFull, this, Bool.false_eq_true, if_false]

/-! ## What meeting the errors of a store leaves (R296) -/

/-- The harts of a tile and the bytes of its stores. -/
def hartsAndStores (t : Tile) := (t.harts, t.l, t.w, t.a, t.c)

theorem storeMem_congr {t u : Tile} (h : hartsAndStores t = hartsAndStores u) (y : Store) : storeMem t y = storeMem u y := by
  simp only [hartsAndStores, Prod.mk.injEq] at h
  obtain ⟨-, hl, hw, ha, hc⟩ := h
  cases y <;> assumption

theorem storeTaint_keeps (t : Tile) (x : Store) (a n : Nat) : hartsAndStores (storeTaint t x a n) = hartsAndStores t :=
  foldl_keeps hartsAndStores (fun t i => by split <;> rfl) _ t

/-- What of the state a count of errors leaves. -/
def uncounted (s : State) := (s.cur, s.cycle, s.menders, s.tiles)

/-- Meeting errors changes poison, errors and counts, and no hart and no byte of a store. -/
theorem meetFlaws_frame (s : State) (t : Nat) (x : Store) (a n : Nat) :
    (meetFlaws s t x a n).cur = s.cur ∧ (meetFlaws s t x a n).cycle = s.cycle ∧ (meetFlaws s t x a n).menders = s.menders ∧
      ∀ u, hartsAndStores (getTile (meetFlaws s t x a n) u) = hartsAndStores (getTile s u) := by
  by_cases hf : (getTile s t).flaws = []
  · rw [meetFlaws_none hf]; exact ⟨rfl, rfl, rfl, fun _ => rfl⟩
  · let y : Tile := { getTile s t with flaws := (getTile s t).flaws.filter fun f => !flawHit x a n f }
    let l := (getTile s t).flaws.filter (flawHit x a n)
    let z := l.foldl (fun y f => if f.2.2 then storeTaint y x (f.2.1 * 32) 32 else y) y
    have met : meetFlaws s t x a n = l.foldl (fun s f => countCell s (dieOf t) f.2.2) (setTile s t z) := if_neg hf
    have kept : hartsAndStores z = hartsAndStores (getTile s t) :=
      foldl_keeps (f := fun y f => if f.2.2 then storeTaint y x (f.2.1 * 32) 32 else y) hartsAndStores
        (fun y f => by split <;> [exact storeTaint_keeps _ _ _ _; rfl]) l y
    have counts : uncounted (meetFlaws s t x a n) = uncounted (setTile s t z) :=
      met ▸ foldl_keeps (f := fun s f => countCell s (dieOf t) f.2.2) uncounted (fun _ _ => rfl) l _
    simp only [uncounted, Prod.mk.injEq] at counts
    obtain ⟨hc, hy, hm, ht⟩ := counts
    refine ⟨hc, hy, hm, fun u => ?_⟩
    rw [getTile, ht]
    by_cases hu : u = t
    · subst hu; exact (congrArg hartsAndStores (getTile_setTile_same s u z)).trans kept
    · exact congrArg hartsAndStores (getTile_setTile_other s z hu)

theorem getHart_meetFlaws (s : State) (t : Nat) (x : Store) (a n : Nat) (k : HartId) : getHart (meetFlaws s t x a n) k = getHart s k := by
  obtain ⟨-, -, hm, ht⟩ := meetFlaws_frame s t x a n
  cases k with
  | mender m i => simp only [getHart, getMender, hm]
  | tile u i => exact congrArg (fun h : Vector Hart 10 => h.get i) (Prod.mk.inj (ht u)).1

/-- Noting that filled registers have been read changes no store. -/
theorem storeMem_readFilled (s : State) (rs : List RegId) (u : Nat) (y : Store) :
    storeMem (getTile (readFilled s rs) u) y = storeMem (getTile s u) y := by
  cases y <;> simp [storeMem]

/-! ## A load and a store of a store of the own tile (R93) -/

/-- The destination of a load that is served as it issues: g0 is none (R55, R60). -/
theorem realDests_load (w : Width) (d : GReg) (v : Nat) : realDests [⟨dataReg w d, loadValue w v⟩] = loadBack w d v := by
  rw [dataReg_eq, loadValue_eq]
  by_cases hv : w = .vec
  · subst hv; rfl
  · have zero : d = 0 ↔ d.val = 0 := Fin.ext_iff
    by_cases hd : d.val = 0 <;> simp [realDests, loadBack, dataId, hv, zero, hd]

theorem ownReg_loadBack {w : Width} {d : GReg} {v : Nat} : ∀ b ∈ loadBack w d v, ownReg b.reg := by
  intro b hb
  unfold loadBack at hb
  split at hb
  · cases hb
  · rw [List.mem_singleton.mp hb]; exact ownReg_dataId w d

/-- An operation that only writes registers of its hart issues. -/
theorem issueLong_issued {s : State} {len la lat : Nat} {wbs : List WriteBack} (ho : ∀ w ∈ realDests wbs, ownReg w.reg) :
    issueLong len la lat (longOp wbs) s = .next (issued s len la lat (realDests wbs) 0 false) := by
  rw [issueLong_own (by exact ho), issued]
  refine congrArg Host.Outcome.next (modHart_congr ?_)
  have due : orderDue s (longOp wbs) = 0 := orderDue_still rfl
  simp only [issuedHart, opAt, lookahead, me, due, Nat.max_zero]
  rfl

section
variable {ok : HartKind → Bool} {x : Store} {ea : Hart → Word} {a d : GReg} {w : Width} {s : State} {t : Nat} {e : Word}
  (hroom : (me s).out.length < 4) (ht : tileOf? s.cur = some t) (he : ∀ rs, ea (me (readFilled s rs)) = e)
  (hal : e.toNat % accessSize w = 0) (hin : e.toNat < x.size) (hc : x = .c → (getTile s t).cF.getLsbD (e.toNat / 0x1000) = true)
include hroom ht he hal hin hc

omit hroom he hal hin in
theorem cTile_readFilled (rs : List RegId) (hx : x = .c) :
    regFull (readFilled s rs) (readFilled s rs).cur ⟨.c, e.toNat / 0x1000⟩ = true := by
  rw [readFilled_cur, regFull_cTile ht]
  simpa using hc hx

theorem storeLoad_issues (hi : Issues s ok [gId a] [dataId w d]) (len : Nat) (la : La) :
    let s1 := meetFlaws (readFilled s [gId a]) t x e.toNat (accessSize w)
    storePoison (getTile s1 t) x e.toNat (accessSize w) = false →
      storeLoad ok x len la ea a w d s =
        .next (issued s1 len la.val 6 (loadBack w d (memRead (storeMem (getTile s t) x) e.toNat (accessSize w))) 0 false) := by
  intro s1 hp
  rw [storeLoad, inSet_pass _ hi.kind, sources_pass _ hi.full hi.sound, roomForLong_pass _ (by simpa [me_readFilled] using hroom),
    dests_pass _ (by simpa [dataReg_eq] using hi.free)]
  simp only [he]
  rw [widthSize_eq, storeAccess_pass _ hal hin, cTileFull_pass _ (cTile_readFilled ht hc _), myTile_readFilled, myTile_of ht]
  have own : ∀ b ∈ realDests [⟨dataReg w d, loadValue w (memRead (storeMem (getTile s t) x) e.toNat (accessSize w))⟩], ownReg b.reg := by
    rw [realDests_load]; exact ownReg_loadBack
  have bytes : storeMem (getTile s1 t) x = storeMem (getTile s t) x := by
    rw [storeMem_congr ((meetFlaws_frame _ _ _ _ _).2.2.2 t) x, storeMem_readFilled]
  have sound := storeRead_sound hp
  simp only [s1] at hp bytes sound
  have mine : myTile (meetFlaws (readFilled s [gId a]) t x e.toNat (accessSize w)) = t :=
    myTile_of (by rw [(meetFlaws_frame _ _ _ _ _).1, readFilled_cur, ht])
  simp only [mine, hp, Bool.false_eq_true, if_false, sound, bytes]
  rw [issueLong_issued own, realDests_load]

theorem storeStore_issues (hi : Issues s ok [gId a, dataId w d] []) (len : Nat) (la : La) :
    let s1 := readFilled s [gId a, dataId w d]
    storeStore ok x len la ea a w d s =
      .next (modHart (modTile s1 t fun y => storeWrite y x e.toNat (accessSize w) (stored w d (me s))) s.cur
        (issuedHart s len la.val 6 [] 0 false)) := by
  intro s1
  rw [storeStore, inSet_pass _ hi.kind, dataReg_eq, sources_pass _ hi.full hi.sound, roomForLong_pass _ (by simpa [me_readFilled] using hroom)]
  simp only [he]
  rw [widthSize_eq, storeAccess_pass _ hal hin, cTileFull_pass _ (cTile_readFilled ht hc _), myTile_readFilled, myTile_of ht,
    dataVal_eq, stored_readFilled, issueLong_issued (fun _ hw => by cases hw), issued]
  have same : issuedHart (modTile s1 t fun y => storeWrite y x e.toNat (accessSize w) (stored w d (me s))) = issuedHart s := by
    funext; simp [issuedHart, hartIssued, s1, modTile]
  have cur : (modTile s1 t fun y => storeWrite y x e.toNat (accessSize w) (stored w d (me s))).cur = s.cur := readFilled_cur s _
  exact congrArg Host.Outcome.next (by rw [same, cur]; rfl)
end

/-! ## The rows of O7 -/

theorem compactEa_eq (a : EReg) (off : Nib) : compactAddr a off = compactEa a off := by
  funext h
  exact BitVec.eq_of_toNat_eq (by simp [compactAddr, compactEa, w64])

theorem compactEa_readFilled (s : State) (rs : List RegId) (a : EReg) (off : Nib) :
    compactEa a off (me (readFilled s rs)) = compactEa a off (me s) := by
  simp [compactEa]

theorem effAddr_fun (a : GReg) (imm : Imm8) (w : Width) : (fun h => effAddr h a imm (widthSize w)) = eaOf a imm w :=
  funext fun h => effAddr_eq h a imm w

/-- A row of loads is the load of its store, at an address that reading its sources does not change. -/
theorem exec_loadRow {la : La} {imm : Imm8} {w : Width} {a d : GReg} {c : EReg} {off : Nib} {r : SRow} (hr : r ∈ loadRows la imm w a d c off)
    (s : State) : (∃ la' : La, la'.val = r.la ∧ exec r.instr s = storeLoad r.ok r.store r.len la' r.ea r.base r.width r.data s) ∧
      ∀ rs, r.ea (me (readFilled s rs)) = r.ea (me s) := by
  have eaReads (rs : List RegId) : eaOf a imm w (me (readFilled s rs)) = eaOf a imm w (me s) := by simp [eaOf]
  simp only [loadRows, List.mem_cons, List.not_mem_nil, or_false] at hr
  rcases hr with rfl | rfl | rfl | rfl | rfl
  · exact ⟨⟨la, rfl, by rw [← effAddr_fun]; rfl⟩, eaReads⟩
  · exact ⟨⟨la, rfl, by rw [← effAddr_fun]; rfl⟩, eaReads⟩
  · exact ⟨⟨la, rfl, by rw [← effAddr_fun]; rfl⟩, eaReads⟩
  · exact ⟨⟨la, rfl, by rw [← effAddr_fun]; rfl⟩, eaReads⟩
  · exact ⟨⟨0, rfl, by rw [← compactEa_eq]; rfl⟩, fun rs => compactEa_readFilled s rs c off⟩

/-- A row of stores is the store of its store. -/
theorem exec_storeRow {la : La} {imm : Imm8} {w : Width} {a d : GReg} {c : EReg} {off : Nib} {r : SRow} (hr : r ∈ storeRows la imm w a d c off)
    (s : State) : (∃ la' : La, la'.val = r.la ∧ exec r.instr s = storeStore r.ok r.store r.len la' r.ea r.base r.width r.data s) ∧
      ∀ rs, r.ea (me (readFilled s rs)) = r.ea (me s) := by
  have eaReads (rs : List RegId) : eaOf a imm w (me (readFilled s rs)) = eaOf a imm w (me s) := by simp [eaOf]
  simp only [storeRows, List.mem_cons, List.not_mem_nil, or_false] at hr
  rcases hr with rfl | rfl | rfl | rfl | rfl
  · exact ⟨⟨la, rfl, by rw [← effAddr_fun]; rfl⟩, eaReads⟩
  · exact ⟨⟨la, rfl, by rw [← effAddr_fun]; rfl⟩, eaReads⟩
  · exact ⟨⟨la, rfl, by rw [← effAddr_fun]; rfl⟩, eaReads⟩
  · exact ⟨⟨la, rfl, by rw [← effAddr_fun]; rfl⟩, eaReads⟩
  · exact ⟨⟨0, rfl, by rw [← compactEa_eq]; rfl⟩, fun rs => compactEa_readFilled s rs c off⟩

theorem getHart_readFilled_other (s : State) (rs : List RegId) {k : HartId} (hk : k ≠ s.cur) : getHart (readFilled s rs) k = getHart s k := by
  unfold readFilled
  split
  · rw [getHart_acquire, modMe_eq, getHart_modHart_other _ _ hk]
  · rfl

/-- Settles O7: each row is a load or a store of one store of the own tile (`exec_loadRow`, `exec_storeRow`), which issues once its checks
pass (`storeLoad_issues`, `storeStore_issues`). -/
theorem storeAccesses : Obligations.StoreAccesses := by
  unfold Obligations.StoreAccesses
  refine ⟨fun la imm w a d c off r hr s t ⟨hi, hroom, ht, hal, hin, hc⟩ => ?_,
    fun la imm w a d c off r hr s t ⟨hi, hroom, ht, hal, hin, hc⟩ => ?_⟩
  · intro ea s1 hp
    obtain ⟨⟨la', hla, he⟩, hea⟩ := exec_loadRow hr s
    rw [he, ← hla]
    exact storeLoad_issues hroom ht hea hal hin hc hi r.len la' hp
  · intro s1 ea
    obtain ⟨⟨la', hla, he⟩, hea⟩ := exec_storeRow hr s
    refine ⟨_, he.trans (storeStore_issues hroom ht hea hal hin hc hi r.len la'), memRead_stored _ _ _ _ _ _ _ _, ?_, ?_, fun k hk => ?_⟩
    · obtain ⟨hmem, hbytes⟩ := onlyStoreBytes_stored s1 s.cur (issuedHart s r.len la'.val 6 [] 0 false) t ea (accessSize r.width)
        (stored r.width r.data (me s)) r.store
      refine ⟨hmem.trans (readFilled_mem s _), fun v y b => (hbytes v y b).imp_right fun h => h.trans ?_⟩
      simp only [storeByte, s1, storeMem_readFilled]
    · rw [getHart_stored, if_pos rfl, hla]
      exact congrArg _ (by rw [me, readFilled_cur])
    · rw [getHart_stored, if_neg hk, getHart_readFilled_other s _ hk]

end Sys2Proof.Machine
end

section
/-! PROOF of O30: moves between the register files, and literals. The rules of an access to physical memory when all is well come first: a
translation at hand (`xlateHart_atHand`), a line that arrives whole (`lineRead_sound`), code that the instruction cache does not hold
(`codeRead_miss`). -/

namespace Sys2Proof.Machine

open Sys2Proof.Claims

/-! ## Translations at hand (R283, R284) -/

theorem tlbFind_holder {d : Die} {a : Holder} {c va : Nat} {e : Tlb} (h : tlbFind d a c va = some e) : e.at_ = a := by
  have found := List.find?_some h
  simp only [Bool.and_eq_true, beq_iff_eq] at found
  exact found.1.1

/-- The nearest TLB is the first in which a hart looks. -/
theorem looksIn_nearest (h : HartId) : ∃ l, looksIn h = nearest h :: l := by
  cases h with
  | tile t i => exact ⟨_, rfl⟩
  | mender m i => exact ⟨_, rfl⟩

/-- A translation at hand gives its address and changes nothing. -/
theorem xlateHart_atHand {s : State} {va pa : Nat} {need : Need} (h : AtHand s va need pa) : xlateHart s s.cur va need = (s, .ok pa) := by
  obtain ⟨⟨x, e, hctx, hcanon, hfind, hperm, hdirty, rfl⟩, href⟩ := h
  obtain ⟨l, hl⟩ := looksIn_nearest s.cur
  have clean : (dirties need && !bitAt e.pte x.tfd.dpos) = false := by
    cases hd : dirties need with
    | false => rfl
    | true => simp [hdirty hd]
  have refused : (getHart s s.cur).refused ≠ some (va / 4096) := href
  simp [xlateHart, xlate, hctx, hcanon, refused, hl, tlbLook, hfind, hperm, clean, tlbFind_holder hfind, leafPa]

theorem withPa_atHand {base : Nat} {va : Word} {need : Need} {s : State} {pa : Nat} (k : Nat → State → Out) (h : AtHand s va.toNat need pa) :
    withPa base va need s k = k pa s := by
  rw [withPa, xlateHart_atHand h]

/-! ## Lines that arrive whole (R94, R298) -/

theorem travel_quiet {s : State} (h : s.noise = []) : travel s = (s, .whole) := by simp [travel, h]

/-- An access to a slice whose memory holds no error only notes that the slice is awake. -/
theorem wakeSlice_sound {s : State} (pa : Nat) (h : s.gLatent = []) :
    wakeSlice s pa = { s with chanDown := delNat s.chanDown (sliceOf pa), selfRefresh := delNat s.selfRefresh (sliceOf pa),
                              lastReq := alSet s.lastReq (sliceOf pa) s.cycle } := by
  simp [wakeSlice, h]

theorem physPoison_sound {s : State} {pa n : Nat} (h : Sound s) : physPoison s pa n = false := by
  obtain ⟨hp, hl⟩ := h
  simp [physPoison, hp, hl]

theorem lineRead_sound {s : State} {pa n : Nat} (h : Sound s) (hn : s.noise = []) :
    lineRead s pa n = (wakeSlice s pa, memRead s.mem pa n, false) := by
  have woken := wakeSlice_sound pa h.2
  have noise : (wakeSlice s pa).noise = [] := by rw [woken]; exact hn
  have mem : (wakeSlice s pa).mem = s.mem := by rw [woken]
  have sound : Sound (wakeSlice s pa) := by rw [woken]; exact h
  simp [lineRead, travel_quiet noise, physPoison_sound sound, mem]

/-- The state after reading code changes only in its tiles' caches and in what is noted of its slices. -/
structure SameButCaches (s t : State) : Prop where
  cur : t.cur = s.cur
  mem : t.mem = s.mem
  harts : ∀ k, getHart t k = getHart s k

theorem wakeSlice_same {s : State} (pa : Nat) (h : s.gLatent = []) : SameButCaches s (wakeSlice s pa) := by
  rw [wakeSlice_sound pa h]
  exact ⟨rfl, rfl, fun _ => rfl⟩

theorem freshLine_harts (t : Tile) (sp line : Nat) : (freshLine t sp line).harts = t.harts := by
  rw [freshLine]; split <;> rfl

/-- Code that the instruction cache of the hart's tile does not hold comes from memory (R73, R77). -/
theorem codeRead_miss {s : State} {h : HartId} {pa n : Nat} (hs : Sound s) (hn : s.noise = [])
    (hc : ∀ t, tileOf? h = some t → alGet (getTile s t).icache (pa / 64) = none) :
    ∃ s', codeRead s h pa n = (s', memRead s.mem pa n, false) ∧ SameButCaches s s' := by
  have woken := wakeSlice_same pa hs.2
  have read := lineRead_sound (n := n) (pa := pa) hs hn
  cases h with
  | mender m i => exact ⟨_, read, woken⟩
  | tile t i =>
    rw [codeRead, hc t rfl]
    simp only [read, Bool.false_eq_true, if_false]
    refine ⟨_, rfl, woken.cur, woken.mem, fun k => ?_⟩
    rw [getHart_modTile (by exact freshLine_harts _ _ _), woken.harts]

/-! ## SETX, GETX and LDK (R42, R73) -/

theorem literalAddr_eq (pc : Word) (imm : Imm15) : literalAddr pc imm = literalAt pc imm := by
  simp only [literalAddr, literalAt, i64, w64, immI, BitVec.ofInt_add, BitVec.ofInt_mul, BitVec.ofInt_natCast]
  rfl

/-- A literal that is at hand goes to its register, in the issuing step. -/
theorem execLdk_atHand {d : GReg} {imm : Imm15} {s : State} {pa : Nat} (hi : Issues s threadOrMender [] [gId d])
    (ha : AtHand s (literalAt (me s).pc imm).toNat .read pa) (hs : Sound s)
    (hc : ∀ t, tileOf? s.cur = some t → alGet (getTile s t).icache (pa / 64) = none) (hn : s.noise = []) :
    ∃ s1, SameButCaches s s1 ∧ exec (.ldk d imm) s = done 4 (modMe s1 fun h => wg h d (w64 (memRead s.mem pa 8))) := by
  obtain ⟨s1, read, same⟩ := codeRead_miss (n := 8) hs hn hc
  refine ⟨s1, same, ?_⟩
  rw [← literalAddr_eq] at ha
  show execLdk d imm s = _
  rw [execLdk, inSet_pass _ hi.kind, dests_pass _ hi.free, withPa_atHand _ ha, read]
  rfl

/-- A short instruction that has written its own hart goes on behind itself. -/
theorem done_modHart {s : State} {rs : List RegId} {f g : Hart → Hart} (len : Nat)
    (hfg : f (me (readFilled s rs)) = g (me (readFilled s rs))) (hpc : (g (me (readFilled s rs))).pc = (me s).pc) :
    done len (modMe (readFilled s rs) f) = .next (Claims.finished s rs len g) := by
  have same : modMe (readFilled s rs) f = modHart (readFilled s rs) s.cur g := by
    rw [modMe_eq, readFilled_cur]
    exact modHart_congr (by simpa only [me, readFilled_cur] using hfg)
  have pc : (me (modHart (readFilled s rs) s.cur g)).pc = (me s).pc := by
    rw [me, modHart_cur, readFilled_cur, getHart_modHart_same, ← hpc, me, readFilled_cur]
  rw [same, done, goto, pc, modHart_cur, readFilled_cur, Claims.finished]

theorem execSetx_moves {e : EReg} {a : GReg} {s : State} (hi : Issues s threadOrMender [gId a] [eId e]) :
    exec (.setx e a) s = .next (Claims.finished s [gId a] 4 fun h => we h e (rg (me s) a)) := by
  show execSetx e a s = _
  rw [execSetx, inSet_pass _ hi.kind, sources_pass _ hi.full hi.sound, dests_pass _ (by simpa using hi.free)]
  exact done_modHart 4 (by rw [rg_readFilled]) (by simp)

theorem execGetx_moves {e : EReg} {d : GReg} {s : State} (hi : Issues s threadOrMender [eId e] [gId d]) :
    exec (.getx d e) s = .next (Claims.finished s [eId e] 4 fun h => wg h d (re (me s) e)) := by
  show execGetx d e s = _
  rw [execGetx, inSet_pass _ hi.kind, sources_pass _ hi.full hi.sound, dests_pass _ (by simpa using hi.free)]
  exact done_modHart 4 (by rw [re_readFilled]) (by simp)

/-- A register of g is 0 at number 0, and otherwise what was last written to it. -/
theorem rg_wg (h : Hart) (d r : GReg) (x : Word) : rg (wg h d x) r = if r = d ∧ d ≠ 0 then x else rg h r := by
  by_cases hr : r = d
  · subst hr
    by_cases h0 : r = 0
    · simp [h0]
    · simp [h0, rg_wg_same]
  · simp [hr, rg_wg_other _ _ hr]

/-- Settles O30: the moves write their own hart alone (`done_modHart`), and a literal at hand is in memory (`execLdk_atHand`). -/
theorem registerMoves : Obligations.RegisterMoves := by
  intro e a d imm s
  refine ⟨execSetx_moves, execGetx_moves, fun pa hi ha hs hc _ hn => ?_⟩
  obtain ⟨s1, same, ran⟩ := execLdk_atHand hi ha hs hc hn
  have mine : getHart s1 s.cur = me s := same.harts s.cur
  refine ⟨_, ran, ?_, ?_, fun r => ?_⟩
  · simp [same.cur, getHart_complete_same, me, same.harts, w64]
  · simp [same.mem]
  · simp only [modMe_eq, modHart_cur, same.cur, getHart_complete_same, getHart_modHart_same, mine, ← rg_wg]
    rfl

end Sys2Proof.Machine
end

section
/-! PROOF of O58: its negation. The bound on a halfword that is read, `v < 2 ^ 16`, is claimed of every state, and without the premise that
memory is in its canonical form (log 4), which the clause behind it has: where a memory lists a byte twice, `memRead` adds both. -/

namespace Sys2Proof.Machine

open Sys2Proof.Claims Sys2Proof.Laws

/-- The reset state with page 0 mapped for tile 0, and with a memory out of its canonical form: it lists the byte at address 1 twice. -/
def doubledByte : State :=
  { State.reset with
    ctxs := [(0, loadCtx)], dies := Vector.replicate 4 { Die.reset with tlb := [⟨.tile 0, 0, 0, 3, 0, loadPte, []⟩] },
    mem := [(1, 255), (1, 255)] }

theorem doubledByte_not_wf : Memory.wf doubledByte.mem = false := rfl

/-- The halfword at address 0 is fetched, and what is read is 2 · 255 · 256. -/
theorem doubledByte_fetches : ∃ t, Fetches doubledByte (.tile 0 0) 0 130560 t :=
  ⟨(codeRead doubledByte (.tile 0 0) 0 2).1, 0, atHand_of (by decide +kernel), Prod.ext rfl (by decide +kernel)⟩

/-- Refutes O58: `doubledByte` fetches a halfword that is not below 2 ^ 16. -/
theorem not_stepRunsDecoded : ¬ Obligations.StepRunsDecoded := by
  unfold Obligations.StepRunsDecoded
  rintro ⟨-, -, -, fetched, -⟩
  obtain ⟨t, ht⟩ := doubledByte_fetches
  obtain ⟨-, -, -, bound⟩ := fetched _ _ _ _ _ ht
  omega

end Sys2Proof.Machine
end

section
/-! PROOF of O51: the sets of the harts. Every instruction begins with the check of its hart's set, so on a hart whose kind is known the outcome
of an instruction outside the set is computed (`mender_outside`, `sequencer_outside`). A CSR instruction looks first whether its number is
listed (`exec_csr`). -/

namespace Sys2Proof.Machine

open Sys2Proof.Claims

/-- The trap of an instruction outside the set of its hart (R50). -/
def outsideSet (s : State) : Out := .next (trapOn s s.cur 0x0B (w64 s.iword))

/-! ## CSR instructions (R65, R67) -/

/-- A CSR instruction goes on behind the checks of the CSR that it names. -/
theorem exec_csr {i : Instr} {n : CsrNo} (h : csrNamed i = some n) (s : State) : ∃ k, exec i s = csrCheck n s k := by
  cases i
  case csrr d m => cases h; show ∃ k, execCsrr d n s = _; exact ⟨_, by rw [execCsrr]⟩
  case csrw m a => cases h; show ∃ k, execCsrw n a s = _; exact ⟨_, by rw [execCsrw]⟩
  case csrs d m a => cases h; show ∃ k, execCsrs d n a s = _; exact ⟨_, by rw [execCsrs, csrSwap]⟩
  case csrc d m a => cases h; show ∃ k, execCsrc d n a s = _; exact ⟨_, by rw [execCsrc, csrSwap]⟩
  case csrx d m a => cases h; show ∃ k, execCsrx d n a s = _; exact ⟨_, by rw [execCsrx, csrSwap]⟩
  all_goals cases h

theorem csrCheck_unlisted {n : CsrNo} {s : State} (k : State → Out) (h : csrListed n.toNat = false) : csrCheck n s k = illegal s := by
  simp [csrCheck, h]

theorem csrCheck_outside {n : CsrNo} {s : State} (k : State → Out) (hl : csrListed n.toNat = true)
    (hk : threadOrMender (kindOf s.cur) = false) : csrCheck n s k = outsideSet s := by
  simp only [csrCheck, hl, Bool.not_true, Bool.false_eq_true, if_false]
  exact inSet_refuse _ hk

/-- A thread names a supervisor CSR in user mode (R50). -/
theorem csrCheck_user {n : CsrNo} {s : State} (k : State → Out) (hl : csrListed n.toNat = true) (hn : 0x200 ≤ n.toNat)
    (hk : kindOf s.cur = .thread) (hs : isSup s = false) : csrCheck n s k = .next (trapOn s s.cur 0x03 (w64 s.iword)) := by
  simp only [csrCheck, hl, Bool.not_true, Bool.false_eq_true, if_false]
  rw [inSet_pass _ (by rw [hk]; rfl), hk]
  simp only [ge_iff_le, hn, if_true]
  exact supOnly_refuse k hs

/-! ## Outside the set of a mender or a sequencer (R48) -/

/-- A state whose executing hart is known. -/
theorem withCur {s : State} {h : HartId} (hc : s.cur = h) : { s with cur := h } = s := by subst hc; rfl

/-- The atomics. -/
def amoForms (sp : AmoSpace) (o : AmoOrder) (sc : Scope) (d b a : GReg) : List Instr :=
  [.amoAddW sp o sc d b a, .amoAddD sp o sc d b a, .amoAndD sp o sc d b a, .amoOrD sp o sc d b a, .amoXorD sp o sc d b a,
    .amoMinD sp o sc d b a, .amoMaxD sp o sc d b a, .amoMinnD sp o sc d b a, .amoMaxnD sp o sc d b a, .amoSwapW sp o sc d b a,
    .amoSwapD sp o sc d b a, .amoCasW sp o sc d b a, .amoCasD sp o sc d b a, .amoFaddU sp o sc d b a, .amoFmax sp o sc d b a,
    .amoFmin sp o sc d b a, .amoEsadd sp o sc b a, .amoEsrd sp o sc d a, .amoEsclr sp o sc a]

/-- A mender has the atomics of G alone. -/
theorem amo_mender (s : State) (m : Nat) (j : Fin 8) {sp : AmoSpace} (h : (sp != .g) = true) (o : AmoOrder) (sc : Scope) (d b a : GReg) :
    ∀ i ∈ amoForms sp o sc d b a,
      exec i { s with cur := .mender m j } = outsideSet { s with cur := .mender m j } := by
  simp only [amoForms, List.forall_mem_cons, List.not_mem_nil, false_implies, implies_true, and_true]
  cases sp
  case g => cases h
  all_goals and_intros
  all_goals rfl

theorem mender_outside (s : State) (m : Nat) (j : Fin 8) {i : Instr} (h : menderLacks i = true) :
    exec i { s with cur := .mender m j } = outsideSet { s with cur := .mender m j } := by
  cases i
  case amoAddW sp o sc d b a | amoAddD sp o sc d b a | amoAndD sp o sc d b a | amoOrD sp o sc d b a | amoXorD sp o sc d b a
    | amoMinD sp o sc d b a | amoMaxD sp o sc d b a | amoMinnD sp o sc d b a | amoMaxnD sp o sc d b a | amoSwapW sp o sc d b a
    | amoSwapD sp o sc d b a | amoCasW sp o sc d b a | amoCasD sp o sc d b a | amoFaddU sp o sc d b a | amoFmax sp o sc d b a
    | amoFmin sp o sc d b a => exact amo_mender s m j h o sc d b a _ (by repeat constructor)
  case amoEsadd sp o sc b a => exact amo_mender s m j h o sc 0 b a _ (by repeat constructor)
  case amoEsrd sp o sc d a => exact amo_mender s m j h o sc d 0 a _ (by repeat constructor)
  case amoEsclr sp o sc a => exact amo_mender s m j h o sc 0 0 a _ (by repeat constructor)
  all_goals cases h
  all_goals rfl

/-- A sequencer has no atomics. -/
theorem amo_sequencer (s : State) (t : Nat) {j : Fin 10} (hj : j = 8 ∨ j = 9) (sp : AmoSpace) (o : AmoOrder) (sc : Scope) (d b a : GReg) :
    ∀ i ∈ amoForms sp o sc d b a, exec i { s with cur := .tile t j } = outsideSet { s with cur := .tile t j } := by
  simp only [amoForms, List.forall_mem_cons, List.not_mem_nil, false_implies, implies_true, and_true]
  cases sp
  all_goals rcases hj with rfl | rfl
  all_goals and_intros
  all_goals rfl

theorem sequencer_outside (s : State) (t : Nat) {j : Fin 10} (hj : j = 8 ∨ j = 9) {i : Instr} (he : (encode i).isSome = true)
    (h : sequencerRuns i = false) (hc : csrNamed i = none) :
    exec i { s with cur := .tile t j } = outsideSet { s with cur := .tile t j } := by
  cases i
  case amoAddW sp o sc d b a | amoAddD sp o sc d b a | amoAndD sp o sc d b a | amoOrD sp o sc d b a | amoXorD sp o sc d b a
    | amoMinD sp o sc d b a | amoMaxD sp o sc d b a | amoMinnD sp o sc d b a | amoMaxnD sp o sc d b a | amoSwapW sp o sc d b a
    | amoSwapD sp o sc d b a | amoCasW sp o sc d b a | amoCasD sp o sc d b a | amoFaddU sp o sc d b a | amoFmax sp o sc d b a
    | amoFmin sp o sc d b a => exact amo_sequencer s t hj sp o sc d b a _ (by repeat constructor)
  case amoEsadd sp o sc b a => exact amo_sequencer s t hj sp o sc 0 b a _ (by repeat constructor)
  case amoEsrd sp o sc d a => exact amo_sequencer s t hj sp o sc d 0 a _ (by repeat constructor)
  case amoEsclr sp o sc a => exact amo_sequencer s t hj sp o sc 0 0 a _ (by repeat constructor)
  all_goals cases hc
  all_goals cases h
  all_goals cases he
  all_goals rcases hj with rfl | rfl
  all_goals rfl

/-- An instruction outside the set of its hart, but for a CSR instruction, traps before anything else (R48, R50). -/
theorem exec_outside {i : Instr} {s : State} (he : (encode i).isSome = true) (h : engineIllegal (kindOf s.cur) i = true)
    (hc : csrNamed i = none) : exec i s = outsideSet s := by
  cases hcur : s.cur with
  | mender m j =>
    rw [hcur] at h
    rw [← withCur hcur]
    exact mender_outside s m j h
  | tile t j =>
    rw [hcur] at h
    have hj : j = 8 ∨ j = 9 := by
      by_contra hne
      have thread : kindOf (.tile t j) = .thread := if_pos (by omega)
      rw [thread] at h
      cases h
    have runs : sequencerRuns i = false := by
      rcases hj with rfl | rfl <;> simpa [engineIllegal, kindOf] using h
    rw [← withCur hcur]
    exact sequencer_outside s t hj he runs hc

/-! ## Privileged instructions (R48) -/

theorem exec_privileged {i : Instr} {a b d : GReg} (h : Privileged i a b d) (s : State) :
    ∃ k, exec i s = inSet threadOnly s fun s => supOnly s k := by
  rcases h with rfl | rfl | rfl | rfl | rfl | rfl | rfl | rfl | rfl | rfl | rfl | rfl
  · show ∃ k, execTlbinv b a s = _; exact ⟨_, by rw [execTlbinv]⟩
  · show ∃ k, execTlbprobe d a s = _; exact ⟨_, by rw [execTlbprobe]⟩
  · show ∃ k, execLkctlStatus d b a s = _; exact ⟨_, by rw [execLkctlStatus, lkctl]⟩
  · show ∃ k, execLkctlThresh d b a s = _; exact ⟨_, by rw [execLkctlThresh, lkctl]⟩
  · show ∃ k, execLkctlMaxw d b a s = _; exact ⟨_, by rw [execLkctlMaxw, lkctl]⟩
  · show ∃ k, execLkctlRetrain d b a s = _; exact ⟨_, by rw [execLkctlRetrain, lkctl]⟩
  · show ∃ k, execSwreqSwitch d a s = _; exact ⟨_, by rw [execSwreqSwitch, switchRequest]⟩
  · show ∃ k, execSwreqDefpart d a s = _; exact ⟨_, by rw [execSwreqDefpart, switchRequest]⟩
  · show ∃ k, execSwreqSetrun d a s = _; exact ⟨_, by rw [execSwreqSetrun, switchRequest]⟩
  · show ∃ k, execSwreqDestroy d a s = _; exact ⟨_, by rw [execSwreqDestroy, switchRequest]⟩
  · show ∃ k, execReport b a s = _; exact ⟨_, by rw [execReport]⟩
  · show ∃ k, execStepidle a s = _; exact ⟨_, by rw [execStepidle]⟩

/-- OPT is legal on a mender alone (R48). -/
theorem optIssue_thread {f : OptFn} {la : La} {ec : EReg} {eb : Option EReg} {ea : EReg} {s : State} (h : kindOf s.cur = .thread) :
    optIssue f la ec eb ea s = illegal s := by
  simp only [optIssue, h]

/-- What a mender has and a thread too, lies outside the set of a sequencer alone. -/
theorem threadOrMender_outside {k : HartKind} {i : Instr} (hm : menderLacks i = false) (h : engineIllegal k i = true) :
    threadOrMender k = false := by
  cases k with
  | thread => cases h
  | mender => exact absurd (hm.symm.trans h) Bool.false_ne_true
  | matSeq | vecSeq => rfl

/-- A mender has the CSR instructions. -/
theorem csr_mender {i : Instr} {n : CsrNo} (h : csrNamed i = some n) : menderLacks i = false := by
  cases i
  case csrr | csrw | csrs | csrc | csrx => rfl
  all_goals cases h

theorem csr_outside {i : Instr} {n : CsrNo} {s : State} (hn : csrNamed i = some n) (hl : csrListed n.toNat = true)
    (h : engineIllegal (kindOf s.cur) i = true) : exec i s = outsideSet s := by
  obtain ⟨k, run⟩ := exec_csr hn s
  rw [run]
  exact csrCheck_outside k hl (threadOrMender_outside (csr_mender hn) h)

/-- Settles O51: an instruction outside the set traps at its first check (`exec_outside`, `csr_outside`), a privileged one at its second
(`exec_privileged`), and a CSR instruction as `csrCheck` says (`exec_csr`). -/
theorem hartSets : Obligations.HartSets := by
  unfold Obligations.HartSets
  refine ⟨fun i s he h hc => ?_, fun la ec eb ea s hk => ?_, fun i a b d s hp hk hs => ?_,
    fun i n s hn hl h2 hk hs => ?_, fun i n s hn hl => ?_⟩
  · cases hn : csrNamed i with
    | none => exact exec_outside he h hn
    | some n => exact csr_outside hn (hc n hn) h
  · simp only [List.forall_mem_cons, List.not_mem_nil, false_implies, implies_true, and_true]
    exact ⟨optIssue_thread hk, optIssue_thread hk, optIssue_thread hk⟩
  · obtain ⟨k, run⟩ := exec_privileged hp s
    rw [run, inSet_pass _ (by rw [hk]; rfl), supOnly_refuse k hs]
  · obtain ⟨k, run⟩ := exec_csr hn s
    rw [run, csrCheck_user k hl h2 hk hs]
  · obtain ⟨k, run⟩ := exec_csr hn s
    rw [run, csrCheck_unlisted k hl]
    rfl

end Sys2Proof.Machine
end

section
/-! PROOF of O45: events of a hart. What the completion of an operation does beside its registers changes no hart (`writeBack_counts`), so that
an operation which writes its own hart is one change of that hart; then the limits, the retries and the deadline, each from the status that
waits. -/

namespace Sys2Proof.Machine

open Sys2Proof.Claims

/-! ## Tiles -/

theorem getTile_modTile (s : State) (t u : Nat) (f : Tile → Tile) :
    getTile (modTile s t f) u = if u = t then f (getTile s t) else getTile s u := by
  by_cases e : u = t
  · subst e; simp [modTile]
  · simp [modTile, getTile_setTile_other _ _ e, e]

/-- What a change of a tile keeps of it, it keeps of every tile. -/
theorem getTile_modTile_keeps {α : Type} {f : Tile → Tile} (p : Tile → α) (hp : ∀ x, p (f x) = p x) (s : State) (t u : Nat) :
    p (getTile (modTile s t f) u) = p (getTile s u) := by
  rw [getTile_modTile]
  split
  · next e => rw [hp, e]
  · rfl

theorem alGet_map {α β : Type} (f : α → β) (l : List (Nat × α)) (k : Nat) :
    alGet (l.map fun x => (x.1, f x.2)) k = (alGet l k).map f := by
  induction l with
  | nil => rfl
  | cons c l ih =>
    simp only [List.map_cons, alGet, ih]
    split <;> rfl

/-- A change of every tile of a machine that leaves a tile of the reset state as it is. -/
theorem getTile_mapTiles {s t : State} (f : Tile → Tile) (ht : t.tiles = s.tiles.map fun x => (x.1, f x.2))
    (hf : f Tile.reset = Tile.reset) (u : Nat) : getTile t u = f (getTile s u) := by
  simp only [getTile, ht, alGet_map]
  cases alGet s.tiles u with
  | none => exact hf.symm
  | some x => rfl

/-! ## Writing back (R60) -/

/-- The flags of an operation that completes. -/
def raised (o : LongOp) (x : Hart) : Hart := { x with fflags := x.fflags ||| o.flags, pre := x.pre || o.pre }

/-- The hart and the flags written, before the counts of a tile's Q registers follow. -/
def writtenBack (s : State) (h : HartId) (o : LongOp) : State := modHart (o.wbs.foldl (fun s w => putReg s h w) s) h (raised o)

/-- The count of a Q register. -/
def countQ (c : Nat × Nat) (x : Tile) : Tile :=
  { x with q := x.q.set (Fin.ofNat 4 c.1) { x.q.get (Fin.ofNat 4 c.1) with cnt := c.2 } }

/-- The counts that follow change no hart and no memory, and leave the accumulator tiles full as they are. -/
theorem writeBack_counts {s : State} {h : HartId} {o : LongOp} (hw : o.win = []) :
    (∀ k, getHart (writeBack s h o) k = getHart (writtenBack s h o) k) ∧ (writeBack s h o).mem = (writtenBack s h o).mem ∧
      ∀ u, (getTile (writeBack s h o) u).cF = (getTile (writtenBack s h o) u).cF ∧
        (getTile (writeBack s h o) u).c = (getTile (writtenBack s h o) u).c := by
  cases h with
  | mender m i => exact ⟨fun _ => rfl, rfl, fun _ => ⟨rfl, rfl⟩⟩
  | tile t i =>
    let f (s : State) (c : Nat × Nat) : State := modTile s t (countQ c)
    have fold : writeBack s (.tile t i) o = o.qcnt.foldl f (writtenBack s (.tile t i) o) := by
      simp only [writeBack, hw, List.foldl_nil]
      rfl
    rw [fold]
    refine ⟨fun k => ?_, ?_, fun u => ⟨?_, ?_⟩⟩
    · exact foldl_keeps (f := f) (getHart · k) (fun b c => getHart_modTile (by rfl) k) _ _
    · exact foldl_keeps (f := f) State.mem (fun b c => rfl) _ _
    · exact foldl_keeps (f := f) (fun s => (getTile s u).cF) (fun b c => getTile_modTile_keeps (f := countQ c) Tile.cF (fun _ => rfl) b t u) _ _
    · exact foldl_keeps (f := f) (fun s => (getTile s u).c) (fun b c => getTile_modTile_keeps (f := countQ c) Tile.c (fun _ => rfl) b t u) _ _

/-- Writing registers of any kind leaves memory, and of every hart the status and the outstanding operations. -/
theorem putRegs_frame (s : State) (h : HartId) (l : List WriteBack) :
    let t := l.foldl (fun s w => putReg s h w) s
    t.mem = s.mem ∧ ∀ k, (getHart t k).status = (getHart s k).status ∧ (getHart t k).out = (getHart s k).out := by
  have mark (x : Tile) (r : RegId) : (markTileReg x r true).harts = x.harts := by
    unfold markTileReg
    split <;> rfl
  have own (s : State) (w : WriteBack) (k : HartId) :
      (fun x : Hart => (x.status, x.out)) (getHart (modHart s h fun x => putHartReg x w.reg w.val) k)
      = ((getHart s k).status, (getHart s k).out) := by
    by_cases e : k = h
    · subst e
      obtain ⟨status, out⟩ := putHartRegs_frame [w] (getHart s k)
      simpa using ⟨status, out⟩
    · rw [getHart_modHart_other _ _ e]
  have one (s : State) (w : WriteBack) : (putReg s h w).mem = s.mem ∧ ∀ k,
      (fun x : Hart => (x.status, x.out)) (getHart (putReg s h w) k) = ((getHart s k).status, (getHart s k).out) := by
    unfold putReg
    split
    case h_4 => exact ⟨modHart_mem s _ _, own s w⟩
    all_goals exact ⟨rfl, fun k => by rw [getHart_modTile (mark _ _)]⟩
  refine ⟨foldl_keeps State.mem (fun b w => (one b w).1) l s, fun k => ?_⟩
  simpa using foldl_keeps (fun s => (fun x : Hart => (x.status, x.out)) (getHart s k)) (fun b w => (one b w).2 k) l s

/-! ## Completion (R60, R108) -/

section
variable {s : State} {h : HartId} {i : Nat} {o : LongOp}

/-- An operation that is no access and publishes nothing completes when its time has come. -/
theorem plain_completes (he : s.ev = .op h i) (ho : (getHart s h).out[i]? = some o) (ht : o.await = .time) (hd : o.due ≤ s.cycle)
    (hx : o.fx = .none) (hw : o.win = []) :
    exec .longOpComplete s = .next (fenceGoesOn (modHart (writeBack s h o) h fun x =>
      { x with out := x.out.eraseIdx i, status := if o.inl && x.status == .inline then .ready else x.status }) h) := by
  have access : opAccess o = none := by simp [opAccess, hx]
  have pub : pubTurn s h o = true := by cases h <;> simp [pubTurn, hw]
  have due : opDue s h o = true := by simp [opDue, ht, hd, opHeld, pub, pairedTurn, access]
  rw [longOpComplete_of he ho due (by simp [isOpt, hx]), completeOp, finishOp, hx]

theorem writtenBack_frame (s : State) (h : HartId) (o : LongOp) :
    (writtenBack s h o).mem = s.mem ∧ (getHart (writtenBack s h o) h).status = (getHart s h).status ∧
      (getHart (writtenBack s h o) h).out = (getHart s h).out := by
  obtain ⟨mem, harts⟩ := putRegs_frame s h o.wbs
  exact ⟨by rw [writtenBack, modHart_mem, mem], by rw [writtenBack, getHart_modHart_same]; exact harts h⟩

/-- A hart in no fence has finished with its operation. -/
theorem going_completes (hd : OpDue s h i o) (hx : o.fx = .none) (hw : o.win = []) :
    exec .longOpComplete s = .next (modHart (writeBack s h o) h fun x =>
      { x with out := x.out.eraseIdx i, status := if o.inl && x.status == .inline then .ready else x.status }) := by
  obtain ⟨he, ho, ⟨ht, hdue⟩, hf⟩ := hd
  rw [plain_completes he ho ht hdue hx hw, fenceGoesOn_going]
  intro n
  rw [getHart_modHart_same, (writeBack_counts hw).1]
  simp only [(writtenBack_frame s h o).2.1]
  split
  · nofun
  · exact hf n

theorem ownOp_completes (hd : OpDue s h i o) (hx : o.fx = .none) (hw : o.win = []) (hown : ∀ w ∈ o.wbs, ownReg w.reg) :
    ∃ s', exec .longOpComplete s = .next s' ∧ s'.mem = s.mem ∧ getHart s' h = completedHart i o (getHart s h) := by
  refine ⟨_, going_completes hd hx hw, ?_, ?_⟩
  · rw [modHart_mem, (writeBack_counts hw).2.1, (writtenBack_frame s h o).1]
  · have wrote : getHart (writtenBack s h o) h = raised o (o.wbs.foldl (fun x w => putHartReg x w.reg w.val) (getHart s h)) := by
      have hg : ∀ t : State, t.cur = s.cur → ∀ w ∈ o.wbs, putReg t h w = modHart t h fun x => putHartReg x w.reg w.val :=
        fun t _ w hm => putReg_own (hown w hm)
      rw [writtenBack, (modHart_foldl _ hg).1, getHart_modHart_same]
    rw [getHart_modHart_same, (writeBack_counts hw).1, wrote]
    rfl

/-- An operation whose destination is an accumulator tile sets it full, and its data is in place. -/
theorem tileOp_completes {t k : Nat} (hd : OpDue s h i o) (hx : o.fx = .none) (hw : o.win = []) (ht : tileOf? h = some t) (hk : k < 16)
    (hc : o.wbs.map (·.reg) = [⟨.c, k⟩]) :
    ∃ s', exec .longOpComplete s = .next s' ∧ (getTile s' t).cF.getLsbD k = true ∧ (getTile s' t).c = (getTile s t).c := by
  obtain ⟨w, hwbs, hreg⟩ := List.map_eq_singleton_iff.mp hc
  have put : o.wbs.foldl (fun s w => putReg s h w) s = modTile s t fun x => { x with cF := x.cF ||| (1#16 <<< k) } := by
    cases h with
    | mender m j => cases ht
    | tile u j => cases ht; simp [hwbs, putReg, hreg, markTileReg]
  obtain ⟨hcF, hc⟩ := (writeBack_counts (s := s) (h := h) hw).2.2 t
  refine ⟨_, going_completes hd hx hw, ?_, ?_⟩
  · rw [getTile_modHart_cF, hcF, writtenBack, put, getTile_modHart_cF, getTile_modTile, if_pos rfl]
    simp [hk]
  · rw [getTile_modHart_c, hc, writtenBack, put, getTile_modHart_c, getTile_modTile, if_pos rfl]

/-- The last operation of a hart in the fence of an atomic ends the fence. -/
theorem fence_completes {next : Word} (he : s.ev = .op h 0) (hout : (getHart s h).out = [o]) (ht : o.await = .time) (hd : o.due ≤ s.cycle)
    (hx : o.fx = .none) (hw : o.win = []) (hs : (getHart s h).status = .parked (.fence next)) :
    ∃ s', exec .longOpComplete s = .next s' ∧ (getHart s' h).pc = next ∧ (getHart s' h).out = [] ∧ Acquired s' h ∧ s'.mem = s.mem := by
  obtain ⟨mem, status, out⟩ := writtenBack_frame s h o
  let s1 := modHart (writeBack s h o) h fun x =>
    { x with out := x.out.eraseIdx 0, status := if o.inl && x.status == .inline then .ready else x.status }
  have ended : getHart s1 h = { getHart (writtenBack s h o) h with
      out := [], status := .parked (.fence next) } := by
    simp [s1, getHart_modHart_same, (writeBack_counts hw).1, status, out, hs, hout]
  have goes : fenceGoesOn s1 h = complete (acquire s1 h) h next := by simp [fenceGoesOn, ended]
  refine ⟨_, plain_completes he (by rw [hout]; rfl) ht hd hx hw, ?_⟩
  rw [goes]
  refine ⟨?_, ?_, fun t j e => ?_, ?_⟩
  · rw [getHart_complete_same]
  · simp [getHart_complete_same, ended, spendShadow]
  · subst e
    simp [acquire, complete, completeAs, modTile]
  · rw [complete_mem]
    simp [acquire_mem, s1, (writeBack_counts hw).2.1, mem]
end

/-! ## Limits, retries and deadlines (R57, R77, R84, R98, R99, R219) -/

section
variable {s : State} {h : HartId}

theorem limitReached_of (hw : waitOver s h) : limitReached s h = true := by
  obtain ⟨hne, hover⟩ := hw
  have limited : ((getHart s h).wlim != 0) = true := bne_iff_ne.mpr hne
  simp only [limitReached, limited, hover, decide_true, Bool.and_true]

theorem hartHere_of (hp : placeRuns s h) : hartHere s h = true := by
  cases h with
  | mender m i => rfl
  | tile t i => exact hp t rfl

/-- A wait on a register that has come to its limit traps with the register's designation. -/
theorem registerWait_ends {r : RegId} (he : s.ev = .hart h) (hw : waitOver s h) (hp : placeRuns s h) (hl : limitedReg s h = some r)
    (hr : runnable s h = false) : exec .registerWaitLimit s = .next (trapOn (dropRing s h) h 0x33 (designation r)) := by
  have due : regLimitDue s h = true := by simp [regLimitDue, limitReached_of hw, hl, hr, hartHere_of hp]
  show execRegisterWaitLimit s = _
  simp [execRegisterWaitLimit, he, due, hl]

/-- Only sequencers wait without a limit (R57). -/
theorem limited_kind (hk : kindOf h = .thread ∨ kindOf h = .mender) : (kindOf h == .matSeq || kindOf h == .vecSeq) = false := by
  rcases hk with hk | hk <;> rw [hk] <;> rfl

theorem registerWait_limited {r : RegId} (hk : kindOf h = .thread ∨ kindOf h = .mender) (hs : (getHart s h).status = .parked (.reg r))
    (hz : hazard (getHart s h) r = false) : limitedReg s h = some r := by
  simp [limitedReg, limited_kind hk, hs, hz]

theorem ringWait_limited {next : Word} {la : Nat} (hk : kindOf h = .thread) (hs : (getHart s h).status = .parked (.ring next la)) :
    limitedReg s h = some ⟨.latch, 1⟩ := by
  simp [limitedReg, limited_kind (.inl hk), hs]

/-- A BROT that is withdrawn stands with no tile. -/
theorem dropRing_withdrawn {t : Nat} {i : Fin 10} (u : Nat) : ∀ r ∈ (getTile (dropRing s (.tile t i)) u).ringReq, r.2 ≠ (t, i) := by
  intro r hr
  rw [getTile_mapTiles (s := s) (fun x => { x with ringReq := x.ringReq.filter fun r => r.2 != (t, i) }) rfl rfl] at hr
  simpa using (List.mem_filter.mp hr).2

theorem feWait_ends {sp : AmoSpace} {ea : Nat} (he : s.ev = .hart h) (hw : waitOver s h) (hp : placeRuns s h)
    (hf : feWaiting s h = some (sp, ea)) : exec .feWaitLimit s = .next (trapOn (dropRequests s h) h (waitCause sp) (w64 ea)) := by
  have due : feLimitDue s h = true := by simp [feLimitDue, limitReached_of hw, hf, hartHere_of hp]
  have cause : feCause sp = waitCause sp := by cases sp <;> rfl
  show execFeWaitLimit s = _
  simp [execFeWaitLimit, he, due, hf, cause]

/-- The forms of a full/empty wait that the limit ends. -/
theorem feWaiting_of {sp : AmoSpace} {ea u n : Nat} {w : Reason}
    (hm : w ∈ [Reason.word sp ea, .wordRetry sp ea n, .wordAgain sp ea n, .held u true sp ea n]) (hs : (getHart s h).status = .parked w) :
    feWaiting s h = some (sp, ea) := by
  simp only [List.mem_cons, List.not_mem_nil, or_false] at hm
  rcases hm with rfl | rfl | rfl | rfl <;> simp [feWaiting, hs]

/-- A hart's requests that are dropped stand nowhere. -/
theorem dropRequests_dropped :
    (∀ r ∈ (dropRequests s h).gfe, r.hart ≠ h) ∧ ∀ t, ∀ r ∈ (getTile (dropRequests s h) t).fe, r.hart ≠ h := by
  refine ⟨fun r hr => by simpa using (List.mem_filter.mp hr).2, fun t r hr => ?_⟩
  rw [getTile_mapTiles (s := s) (fun x => { x with fe := x.fe.filter fun r => r.hart != h }) rfl rfl] at hr
  simpa using (List.mem_filter.mp hr).2

theorem feRetry_made {sp : AmoSpace} {ea due : Nat} (he : s.ev = .hart h) (hs : (getHart s h).status = .parked (.wordRetry sp ea due))
    (hd : due ≤ s.cycle) : exec .feListFullRetry s = .next (statusSet s h (.parked (.wordRetry sp ea 0))) := by
  show execFeListFullRetry s = _
  simp only [execFeListFullRetry, he, hs, hd, if_true]
  rfl

theorem putrRetry_made {due : Nat} (he : s.ev = .hart h) (hs : (getHart s h).status = .parked (.putrRetry due)) (hd : due ≤ s.cycle) :
    exec .putrRetry s = .next (statusSet s h .ready) := by
  have due : putrRetryDue s h = true := by simp [putrRetryDue, hs, hd]
  show execPutrRetry s = _
  simp only [execPutrRetry, he, due, if_true]
  rfl

theorem park_ends {t : Nat} (he : s.ev = .hart h) (hs : (getHart s h).status = .parked (.deadline t)) (hd : t ≤ s.cycle * 5 / 12) :
    exec .parkDeadline s = .next (statusSet s h .ready) := by
  have due : deadlineDue s h = true := by simp [deadlineDue, hs, timeNs, hd]
  show execParkDeadline s = _
  simp only [execParkDeadline, he, due, if_true]
  rfl
end

/-- Settles O45: operations that are due complete (`ownOp_completes`, `tileOp_completes`, `fence_completes`), and each wait ends as its
status says. -/
theorem hartEvents : Obligations.HartEvents := by
  unfold Obligations.HartEvents
  refine ⟨fun s h i o hd hx hw => ⟨ownOp_completes hd hx hw, fun t k => tileOp_completes hd hx hw⟩,
    fun s h o next he hout ht hd hx hw hs => fence_completes he hout ht hd hx hw hs,
    fun s h he => ⟨fun hw hp => ⟨fun r hk hs hz hf => ?_, fun t i next la hh hi hs => ?_, fun sp ea u n w hm hs => ?_⟩,
      fun sp ea due => feRetry_made he, fun due => putrRetry_made he, fun t => park_ends he⟩, fun s => rfl⟩
  · exact registerWait_ends he hw hp (registerWait_limited hk hs hz) (by simp [runnable, hs, cleared, hf])
  · subst hh
    exact ⟨registerWait_ends he hw hp (ringWait_limited (if_pos hi) hs) (by simp [runnable, hs, cleared]), dropRing_withdrawn⟩
  · exact ⟨feWait_ends he hw hp (feWaiting_of hm hs), dropRequests_dropped⟩

end Sys2Proof.Machine
end

section
/-! SUPPORT for O39: the accesses of a die's units when all is well (R277, R281 to R285). A translation at hand holds for the whole of its line
(`heldAt_line`); reads wake slices and change nothing else (`Woken`); a write whose line built no translation changes its bytes
(`physWrite_plain`); and what a walk reads decides what it finds (`walk_congr`). -/

namespace Sys2Proof.Machine

open Sys2Proof.Claims

/-! ## What reading leaves (R15, R341) -/

/-- Slices have been woken, or have taken a line of the host. -/
def Woken (s t : State) : Prop := ∃ c d l h, t = { s with chanDown := c, selfRefresh := d, lastReq := l, hostHeld := h }

theorem Woken.refl (s : State) : Woken s s := ⟨_, _, _, _, rfl⟩

theorem Woken.trans {s t u : State} (h1 : Woken s t) (h2 : Woken t u) : Woken s u := by
  obtain ⟨c, d, l, h, rfl⟩ := h1
  obtain ⟨c', d', l', h', rfl⟩ := h2
  exact ⟨c', d', l', h', rfl⟩

section
variable {s t : State} (h : Woken s t)
include h

theorem Woken.mem : t.mem = s.mem := by obtain ⟨c, d, l, k, rfl⟩ := h; rfl
theorem Woken.dies : t.dies = s.dies := by obtain ⟨c, d, l, k, rfl⟩ := h; rfl
theorem Woken.ctxs : t.ctxs = s.ctxs := by obtain ⟨c, d, l, k, rfl⟩ := h; rfl
theorem Woken.noise : t.noise = s.noise := by obtain ⟨c, d, l, k, rfl⟩ := h; rfl
theorem Woken.parts : t.parts = s.parts := by obtain ⟨c, d, l, k, rfl⟩ := h; rfl
theorem Woken.launches : t.launches = s.launches := by obtain ⟨c, d, l, k, rfl⟩ := h; rfl
theorem Woken.sound (hs : Sound s) : Sound t := by obtain ⟨c, d, l, k, rfl⟩ := h; exact hs
end

theorem wakeSlice_woken {s : State} (pa : Nat) (h : s.gLatent = []) : Woken s (wakeSlice s pa) := ⟨_, _, _, _, wakeSlice_sound pa h⟩

/-! ## Translations for a unit (R283, R284) -/

section
variable {s t : State} {d : Fin 4} {c va pa : Nat} {need : Need}

theorem heldAt_same (h : HeldAt s d c va need pa) (hd : t.dies = s.dies) (hc : t.ctxs = s.ctxs) : HeldAt t d c va need pa := by
  obtain ⟨⟨x, e, hctx, hcanon, hfind, hperm, hdirty, hpa⟩, href⟩ := h
  exact ⟨⟨x, e, by rw [hc]; exact hctx, hcanon, by rw [hd]; exact hfind, hperm, hdirty, hpa⟩, by rw [hd]; exact href⟩

theorem xlate_held (h : HeldIn s d .die c va need pa) : xlate s d [.die] c va need none = (s, .ok pa) := by
  obtain ⟨x, e, hctx, hcanon, hfind, hperm, hdirty, rfl⟩ := h
  have clean : (dirties need && !bitAt e.pte x.tfd.dpos) = false := by
    cases hd : dirties need with
    | false => rfl
    | true => simp [hdirty hd]
  simp [xlate, hctx, hcanon, tlbLook, hfind, hperm, clean, tlbFind_holder hfind, leafPa]

theorem unitXlate_held (h : HeldAt s d c va need pa) : unitXlate s d c va need = (s, .ok pa) := by
  obtain ⟨held, href⟩ := h
  simp [unitXlate, href, xlate_held held]

/-- A page is made of lines. -/
theorem page_lines (l : Nat) : 2 ^ (12 + 9 * l) = 64 * 2 ^ (6 + 9 * l) := by
  rw [show 12 + 9 * l = 6 + (6 + 9 * l) by omega, pow_add, show 2 ^ 6 = 64 from rfl]

/-- Addresses of one line lie on one side of every boundary of a page, and have their bits from 6 on in common. -/
theorem canonical_line {f : Tfd} {a b : Nat} (h : a / 64 = b / 64) : canonical f a = canonical f b := by
  have high (k : Nat) : a / 2 ^ (6 + k) = b / 2 ^ (6 + k) := by
    rw [pow_add, show 2 ^ 6 = 64 from rfl, ← Nat.div_div_eq_div_mul, ← Nat.div_div_eq_div_mul, h]
  have top : tfdTop f = 6 + (5 + 9 * f.levels) := by unfold tfdTop; omega
  simp only [canonical, bitAt, top, Nat.add_assoc, high]

theorem tlbFind_line {x : Die} {a : Holder} {va' : Nat} (h : va / 64 = va' / 64) : tlbFind x a c va = tlbFind x a c va' := by
  have page (e : Tlb) : va / 2 ^ (12 + 9 * e.lvl) = va' / 2 ^ (12 + 9 * e.lvl) := by
    rw [page_lines, ← Nat.div_div_eq_div_mul, ← Nat.div_div_eq_div_mul, h]
  simp only [tlbFind, page]

/-- The offset in a line is that of the virtual address. -/
theorem mod_line {a i l : Nat} (h : a % 64 + i < 64) : (a + i) % 2 ^ (12 + 9 * l) = a % 2 ^ (12 + 9 * l) + i := by
  have line : (a + i) / 64 = a / 64 := by omega
  rw [page_lines, Nat.mod_mul, Nat.mod_mul, line]
  omega

/-- A translation holds for the rest of its line. -/
theorem heldAt_line {i : Nat} (h : HeldAt s d c va need pa) (hi : va % 64 + i < 64) : HeldAt s d c (va + i) need (pa + i) := by
  obtain ⟨⟨x, e, hctx, hcanon, hfind, hperm, hdirty, rfl⟩, href⟩ := h
  have line : (va + i) / 64 = va / 64 := by omega
  refine ⟨⟨x, e, hctx, (canonical_line line).trans hcanon, (tlbFind_line line).trans hfind, hperm, hdirty, ?_⟩, href⟩
  rw [mod_line hi, Nat.add_assoc]

/-- A translation at hand is one. -/
theorem heldAt_unique {pb : Nat} {need' : Need} (h : HeldAt s d c va need pa) (h' : HeldAt s d c va need' pb) : pa = pb := by
  obtain ⟨⟨x, e, -, -, hfind, -, -, rfl⟩, -⟩ := h
  obtain ⟨⟨y, f, -, -, hfind', -, -, rfl⟩, -⟩ := h'
  rw [hfind] at hfind'
  cases hfind'
  rfl

theorem heldAt_offset (h : HeldAt s d c va need pa) : pa % 64 = va % 64 := by
  obtain ⟨⟨x, e, -, -, -, -, -, rfl⟩, -⟩ := h
  rw [page_lines, Nat.mod_mul]
  omega

/-- What may read and write may do either. -/
theorem heldAt_weaken (h : HeldAt s d c va .readWrite pa) : HeldAt s d c va .write pa ∧ HeldAt s d c va .read pa := by
  obtain ⟨⟨x, e, hctx, hcanon, hfind, hperm, hdirty, rfl⟩, href⟩ := h
  simp only [permits, Bool.and_eq_true] at hperm
  obtain ⟨hu, hr, hw⟩ := hperm
  exact ⟨⟨⟨x, e, hctx, hcanon, hfind, by simp [permits, hu, hw], fun _ => hdirty rfl, rfl⟩, href⟩,
    ⟨⟨x, e, hctx, hcanon, hfind, by simp [permits, hu, hr], nofun, rfl⟩, href⟩⟩
end

/-! ## Reads (R273, R297) -/

section
variable {s : State} {d : Fin 4} {c : Nat} {need : Need} (hs : Sound s) (hn : s.noise = [])
include hs hn

theorem lineRead_woken (pa n : Nat) : ∃ t, Woken s t ∧ lineRead s pa n = (t, memRead s.mem pa n, false) :=
  ⟨_, wakeSlice_woken pa hs.2, lineRead_sound hs hn⟩

theorem unitRead_held {va pa : Nat} (n : Nat) (h : HeldAt s d c va need pa) :
    ∃ t, Woken s t ∧ unitRead s d c va n need = (t, .ok pa (memRead s.mem pa n)) := by
  obtain ⟨t, woken, read⟩ := lineRead_woken hs hn pa n
  exact ⟨t, woken, by simp [unitRead, unitXlate_held h, read]⟩
end

theorem unitReady_held {s : State} {d : Fin 4} {c : Nat} {need : Need} {l : List Nat} (h : ∀ a ∈ l, ∃ pa, HeldAt s d c (a % 2 ^ 64) need pa) :
    unitReady s d c need l = (s, none) := by
  induction l with
  | nil => rfl
  | cons a l ih =>
    obtain ⟨pa, held⟩ := h a List.mem_cons_self
    rw [unitReady, unitXlate_held held]
    exact ih fun b hb => h b (List.mem_cons_of_mem _ hb)

theorem unitSettled_none {s : State} {d : Fin 4} (h : (s.dies.get d).unitRef = []) : unitSettled s d = s := by simp [unitSettled, h]

/-! ## Writes (R94, R285) -/

/-- A line from which no die has built a translation is written without a notice. -/
theorem dropLine_noTable {s : State} {pa : Nat} (h : NoTable s pa) : dropLine s (pa / 64) = s := by
  have : vany s.dies (fun d => d.dir.contains (pa / 64)) = false := by
    simp only [vany, List.any_eq_false, Vector.mem_toList_iff]
    intro x hx
    obtain ⟨i, hi, rfl⟩ := Vector.mem_iff_getElem.mp hx
    simpa using (show pa / 64 ∉ s.dies[i].dir from h ⟨i, hi⟩)
  rw [dropLine, if_neg (by rw [this]; exact Bool.false_ne_true)]

/-- A write of less than a line, not at its start, to a line of no table. -/
theorem physWrite_plain {s : State} {pa n v : Nat} (ht : NoTable s pa) (hl : s.gLatent = []) (h0 : pa % 64 ≠ 0) (hn : n < 64) :
    Woken { s with mem := memWrite s.mem pa n v } (physWrite s pa n v) := by
  have drop : dropLine { s with mem := memWrite s.mem pa n v } (pa / 64) = { s with mem := memWrite s.mem pa n v } :=
    dropLine_noTable (s := { s with mem := memWrite s.mem pa n v }) ht
  simp only [physWrite, h0, false_and, if_false, drop, ge_iff_le, Nat.not_le.mpr hn]
  split
  · exact wakeSlice_woken pa hl
  · exact Woken.trans ⟨_, _, _, _, rfl⟩ (wakeSlice_woken pa hl)

/-! ## Reads without an effect (R280, R297) -/

/-- The two states read the same 8 bytes at the table entry `a`. -/
def SameEntry (s t : State) (a : Nat) : Prop := physPoison t a 8 = physPoison s a 8 ∧ memRead t.mem a 8 = memRead s.mem a 8

theorem mem_insNat (l : List Nat) (k x : Nat) : x ∈ insNat l k ↔ x = k ∨ x ∈ l := by
  induction l with
  | nil => simp [insNat]
  | cons a l ih =>
    simp only [insNat]
    split
    · simp
    · split
      · next e => subst e; simp
      · simp [ih]; tauto

theorem SameEntry.refl (s : State) (a : Nat) : SameEntry s s a := ⟨rfl, rfl⟩

/-- The entry that a walk reads at level `l`. -/
def walkEntry (va l base : Nat) : Nat := base + 8 * (va / 2 ^ (12 + 9 * l) % 512)

/-- One level of a walk ends it, or leads to the next table, as the entry says. -/
theorem walkFrom_level (s : State) (f : Tfd) (va l base : Nat) (ls : List Nat) :
    let a := walkEntry va l base
    (∃ e, ∀ t, SameEntry s t a → walkFrom t f va (l + 1) base ls = (e, insNat ls (a / 64))) ∨
      ∃ b, ∀ t, SameEntry s t a → walkFrom t f va (l + 1) base ls = walkFrom t f va l b (insNat ls (a / 64)) := by
  intro a
  let pte := memRead s.mem a 8
  have same {t : State} (h : SameEntry s t a) : walkFrom t f va (l + 1) base ls =
      (if physPoison s a 8 then (.fault, insNat ls (a / 64))
      else if !bitAt pte f.vpos then (.absent, insNat ls (a / 64))
      else if isLeaf f pte then
        if l > 3 ∨ pte / 2 ^ f.ppos % 2 ^ f.pwid % 2 ^ (9 * l) ≠ 0 ∨ (bitAt pte f.wpos && !bitAt pte f.rpos) then (.fault, insNat ls (a / 64))
        else (.leaf ⟨pte / 2 ^ f.ppos % 2 ^ f.pwid, l, pte, a⟩, insNat ls (a / 64))
      else if f.lmode = 0 ∧ (bitAt pte f.rpos || bitAt pte f.wpos || bitAt pte f.xpos) then (.fault, insNat ls (a / 64))
      else walkFrom t f va l (pte / 2 ^ f.ppos % 2 ^ f.pwid * 4096) (insNat ls (a / 64))) := by
    obtain ⟨poison, mem⟩ := h
    simp only [walkFrom, pte, ← poison, ← mem]
    rfl
  split at same
  · exact .inl ⟨_, fun t => same⟩
  · split at same
    · exact .inl ⟨_, fun t => same⟩
    · split at same
      · split at same <;> exact .inl ⟨_, fun t => same⟩
      · split at same
        · exact .inl ⟨_, fun t => same⟩
        · exact .inr ⟨_, fun t => same⟩

/-- A walk keeps the lines that it had. -/
theorem walkFrom_lines (s : State) (f : Tfd) (va fuel base : Nat) (ls : List Nat) : ∀ x ∈ ls, x ∈ (walkFrom s f va fuel base ls).2 := by
  induction fuel generalizing base ls with
  | zero => exact fun x hx => hx
  | succ l ih =>
    intro x hx
    have here : x ∈ insNat ls (walkEntry va l base / 64) := (mem_insNat _ _ _).mpr (.inr hx)
    rcases walkFrom_level s f va l base ls with ⟨e, ends⟩ | ⟨b, goes⟩
    · rw [ends s (.refl s _)]; exact here
    · rw [goes s (.refl s _)]; exact ih b _ x here

/-- A walk that reads the same entries comes to the same end. -/
theorem walkFrom_congr {s t : State} (f : Tfd) (va fuel base : Nat) (ls : List Nat)
    (h : ∀ a, a / 64 ∈ (walkFrom s f va fuel base ls).2 → SameEntry s t a) : walkFrom t f va fuel base ls = walkFrom s f va fuel base ls := by
  induction fuel generalizing base ls with
  | zero => rfl
  | succ l ih =>
    have here : walkEntry va l base / 64 ∈ insNat ls (walkEntry va l base / 64) := (mem_insNat _ _ _).mpr (.inl rfl)
    rcases walkFrom_level s f va l base ls with ⟨e, ends⟩ | ⟨b, goes⟩
    · have read : SameEntry s t (walkEntry va l base) := h _ (by rw [ends s (.refl s _)]; exact here)
      rw [ends t read, ends s (.refl s _)]
    · have lines := walkFrom_lines s f va l b _ _ here
      have read : SameEntry s t (walkEntry va l base) := h _ (by rw [goes s (.refl s _)]; exact lines)
      rw [goes t read, goes s (.refl s _)]
      exact ih b _ fun a ha => h a (by rw [goes s (.refl s _)]; exact ha)

/-- What a translation leads to, where its walk reads the same entries. -/
theorem peekPa_congr {s t : State} {c va : Nat} {need : Need} (hc : t.ctxs = s.ctxs)
    (h : ∀ x, alGet s.ctxs c = some x → ∀ a, a / 64 ∈ (walk s x va).2 → SameEntry s t a) : peekPa t c va need = peekPa s c va need := by
  simp only [peekPa, hc]
  cases hx : alGet s.ctxs c with
  | none => rfl
  | some x =>
    have same : walk t x va = walk s x va := by
      have entries := h x hx
      simp only [walk] at entries ⊢
      split at entries
      · next hcanon => rw [if_pos hcanon, if_pos hcanon]; exact walkFrom_congr _ _ _ _ _ entries
      · next hcanon => rw [if_neg hcanon, if_neg hcanon]
    simp only [same]

theorem unitPeek_congr {s t : State} {c va : Nat} (hc : t.ctxs = s.ctxs)
    (h : ∀ x, alGet s.ctxs c = some x → ∀ a, a / 64 ∈ (walk s x va).2 → SameEntry s t a)
    (hr : ∀ pa, peekPa s c va .read = .ok pa → physRead t pa 64 = physRead s pa 64) : unitPeek t c va = unitPeek s c va := by
  simp only [unitPeek, peekPa_congr hc h]
  cases hp : peekPa s c va .read with
  | ok pa => exact hr pa hp
  | absent | refused | access | perm => rfl

end Sys2Proof.Machine
end

section
/-! PROOF of O39, first part: slots at a period boundary (R263), and the checks of a kernel (R236, R239, R240, R49). -/

namespace Sys2Proof.Machine

open Sys2Proof.Claims

/-! ## Period boundaries (R263) -/

theorem rankRec_keeps (s : State) (l : List QueueRec) (r : QueueRec) :
    (rankRec s l r).ctx = r.ctx ∧ (rankRec s l r).q = r.q ∧ (rankRec s l r).nodes = r.nodes := by
  unfold rankRec
  repeat' split
  all_goals exact ⟨rfl, rfl, rfl⟩

/-- A queue that competes has a ready node. -/
theorem competes_ready {s : State} {r : QueueRec} (h : competes s r = true) : (readyNodes s r).isEmpty = false := by
  simp only [competes, Bool.and_eq_true, Bool.not_eq_true'] at h
  exact h.2

theorem rankRec_mapped (s : State) (l : List QueueRec) (r : QueueRec) :
    (rankRec s l r).mapped = true ↔ competes s r = true ∧ (l.filter fun o => competes s o && outranks s o r).length < 64 := by
  unfold rankRec
  split
  · next he => exact ⟨nofun, fun ⟨hc, _⟩ => by rw [competes_ready hc] at he; cases he⟩
  · split
    · next hc => exact ⟨nofun, fun ⟨h, _⟩ => by rw [h] at hc; cases hc⟩
    · next hc =>
      have comp : competes s r = true := by simpa using hc
      split
      · next h => exact ⟨fun _ => ⟨comp, h⟩, fun _ => rfl⟩
      · next h => exact ⟨nofun, fun hp => absurd hp.2 h⟩

theorem rankRec_pass (s : State) (l : List QueueRec) (r : QueueRec) :
    (rankRec s l r).p = if (readyNodes s r).isEmpty || (rankRec s l r).mapped then 0 else if competes s r then r.p + 1 else r.p := by
  unfold rankRec
  split
  · next he => simp [he]
  · next he =>
    split
    · next hc => simp_all
    · split <;> simp_all

theorem periodBoundary_ranks {s : State} (h : s.bounds ≤ now s / 100000) :
    exec .periodBoundary s = .next { s with
      bounds := s.bounds + 1, dies := vmap s.dies fun d => { d with queues := d.queues.map (rankRec s d.queues) } } := by
  have due : boundaryDue s = true := decide_eq_true h
  show execPeriodBoundary s = _
  rw [execPeriodBoundary, if_pos due]

/-- What a vector's map holds. -/
theorem get_vmap {α β : Type} {n : Nat} (v : Vector α n) (f : α → β) (i : Fin n) : (vmap v f).get i = f (v.get i) := by
  simp [vmap]

theorem boundary_slots {s : State} (h : s.bounds ≤ now s / 100000) : ∃ s', exec .periodBoundary s = .next s' ∧ s'.bounds = s.bounds + 1 ∧
    ∀ d : Fin 4, (s'.dies.get d).queues = (s.dies.get d).queues.map (rankRec s (s.dies.get d).queues) :=
  ⟨_, periodBoundary_ranks h, rfl, fun d => by rw [get_vmap]⟩

/-! ## Reads of a unit for several lines (R239) -/

/-- The bytes of physical chunks, one behind the other. -/
def linesValue (m : Mem) : List (Nat × Nat) → Nat
  | [] => 0
  | (pa, n) :: r => memRead m pa n + 256 ^ n * linesValue m r

theorem readLines_sound {s : State} (hs : Sound s) (hn : s.noise = []) (l : List (Nat × Nat)) :
    ∃ t, Woken s t ∧ readLines s l = (t, linesValue s.mem l, false) := by
  induction l generalizing s with
  | nil => exact ⟨s, .refl s, rfl⟩
  | cons c l ih =>
    obtain ⟨t, w1, read⟩ := lineRead_woken hs hn c.1 c.2
    obtain ⟨u, w2, rest⟩ := ih (w1.sound hs) (w1.noise.trans hn)
    refine ⟨u, w1.trans w2, ?_⟩
    simp [readLines, read, rest, linesValue, w1.mem]

theorem memRead_succ (m : Mem) (a n : Nat) : memRead m a (n + 1) = memRead m a n + 256 ^ n * memRead m (a + n) 1 := by
  induction m with
  | nil => rfl
  | cons c m ih =>
    obtain ⟨k, b⟩ := c
    simp only [memRead]
    rcases Nat.lt_trichotomy k (a + n) with h | h | h
    · rw [if_pos h, if_pos (show k < a + (n + 1) by omega), if_pos h, ih]
      split <;> omega
    · subst h
      simp [ih, Nat.mul_add]
      ring
    · rw [if_neg (show ¬ k < a by omega), if_neg (show ¬ k < a + (n + 1) by omega), if_neg (show ¬ k < a by omega),
        if_neg (show ¬ k < a + n by omega), if_neg (show ¬ k < a + n by omega), if_neg (show ¬ k < a + n + 1 by omega), ih]

theorem byte_pow (n : Nat) : 256 ^ n = 2 ^ (8 * n) := by rw [pow_mul, show 2 ^ 8 = 256 from rfl]

/-- Bytes that are those of a value, read together. -/
theorem memRead_bytes {m : Mem} {a n v : Nat} (h : ∀ i < n, memRead m (a + i) 1 = cut v (8 * i) 8) : memRead m a n = v % 256 ^ n := by
  induction n with
  | zero => rw [memRead_none fun c _ => by omega, pow_zero, Nat.mod_one]
  | succ n ih =>
    rw [memRead_succ, ih fun i hi => h i (by omega), h n (by omega), pow_succ, Nat.mod_mul, cut, byte_pow, show 2 ^ 8 = 256 from rfl]

section
variable {s : State} {d : Fin 4} {c : Nat}

/-- Every byte of a range is at hand, and is that of a value. -/
def BytesAt (s : State) (d : Fin 4) (c va n v : Nat) : Prop :=
  ∀ i < n, ∃ pa, HeldAt s d c (va + i) .read pa ∧ memRead s.mem pa 1 = cut v (8 * i) 8

/-- The bytes of a range within one line are read together at the address of the first. -/
theorem bytesAt_line {va n v : Nat} (h : BytesAt s d c va n v) (h0 : 0 < n) (hn : va % 64 + n ≤ 64) :
    ∃ pa, HeldAt s d c va .read pa ∧ memRead s.mem pa n = v % 256 ^ n := by
  obtain ⟨pa, held, -⟩ := h 0 h0
  refine ⟨pa, held, memRead_bytes fun i hi => ?_⟩
  obtain ⟨pb, held', byte⟩ := h i hi
  rw [heldAt_unique (heldAt_line held (by omega)) held', byte]

theorem bytesAt_rest {va n v k : Nat} (h : BytesAt s d c va n v) : BytesAt s d c (va + k) (n - k) (v / 256 ^ k) := by
  intro i hi
  obtain ⟨pa, held, byte⟩ := h (k + i) (by omega)
  refine ⟨pa, by rw [Nat.add_assoc]; exact held, byte.trans ?_⟩
  rw [cut, cut, byte_pow, Nat.div_div_eq_div_mul, ← pow_add, Nat.mul_add]

theorem unitChunks_lines {f va n v : Nat} (h : BytesAt s d c va n v) (hfit : va + n ≤ 2 ^ 64) (hv : v < 256 ^ n)
    (hf : n = 0 ∨ va % 64 + n ≤ 64 * f) :
    ∃ l, unitChunks s d c .read (lineChunks f va n) = (s, .ok l) ∧ linesValue s.mem l = v := by
  induction f generalizing va n v with
  | zero =>
    have : n = 0 := by omega
    subst this
    exact ⟨[], rfl, by simp at hv; simp [linesValue, hv]⟩
  | succ f ih =>
    by_cases h0 : n = 0
    · subst h0
      exact ⟨[], by simp [lineChunks, unitChunks], by simp at hv; simp [linesValue, hv]⟩
    · have len : min n (64 - va % 64) ≤ n := Nat.min_le_left _ _
      generalize hk : min n (64 - va % 64) = k at len
      obtain ⟨pa, held, first⟩ := bytesAt_line (n := k) (fun i hi => h i (by omega)) (by omega) (by omega)
      obtain ⟨l, chunks, rest⟩ := ih (va := va + k) (n := n - k) (v := v / 256 ^ k) (bytesAt_rest h) (by omega)
        (by rw [Nat.div_lt_iff_lt_mul (by positivity), ← pow_add, Nat.sub_add_cancel len]; exact hv) (by omega)
      refine ⟨(pa, k) :: l, ?_, ?_⟩
      · rw [lineChunks, if_neg h0]
        simp only [hk]
        rw [unitChunks, Nat.mod_eq_of_lt (by omega), unitXlate_held held]
        simp only [chunks]
      · rw [linesValue, first, rest, Nat.mod_add_div]

/-- A unit reads a range that is at hand. -/
theorem readRange_reads {va n v : Nat} (hs : Sound s) (hn : s.noise = []) (h : ReadsAs s d c va n v) :
    ∃ t, Woken s t ∧ readRange s d c va n = (t, some v) := by
  obtain ⟨l, chunks, value⟩ := unitChunks_lines (f := n / 64 + 2) h.bytes h.fits h.size (by omega)
  obtain ⟨t, woken, read⟩ := readLines_sound hs hn l
  exact ⟨t, woken, by simp [readRange, rowChunks, chunks, read, value]⟩

/-- The addresses of a range's pages lie in the range. -/
theorem pagesOf_within {va n a : Nat} (h : a ∈ pagesOf va n) : ∃ i < n, a = va + i := by
  unfold pagesOf at h
  split at h
  · cases h
  · simp only [List.mem_map, List.mem_range] at h
    obtain ⟨i, hi, rfl⟩ := h
    split
    · exact ⟨0, by omega, rfl⟩
    · exact ⟨va / 4096 * 4096 + 4096 * i - va, by omega, by omega⟩

theorem pagesOf_held {va n v : Nat} (h : ReadsAs s d c va n v) : ∀ a ∈ pagesOf va n, ∃ pa, HeldAt s d c (a % 2 ^ 64) .read pa := by
  intro a ha
  obtain ⟨i, hi, rfl⟩ := pagesOf_within ha
  obtain ⟨pa, held, -⟩ := h.bytes i hi
  have fits := h.fits
  rw [Nat.mod_eq_of_lt (by omega)]
  exact ⟨pa, held⟩

theorem allReadable_held {l : List Nat} (h : ∀ a ∈ l, ∃ pa, HeldAt s d c (a % 2 ^ 64) .read pa) : allReadable s d c l = (s, true) := by
  induction l with
  | nil => rfl
  | cons a l ih =>
    obtain ⟨pa, held⟩ := h a List.mem_cons_self
    rw [allReadable, unitXlate_held held]
    exact ih fun b hb => h b (List.mem_cons_of_mem _ hb)

theorem readsAs_same {t : State} {va n v : Nat} (h : ReadsAs s d c va n v) (hd : t.dies = s.dies) (hc : t.ctxs = s.ctxs)
    (hm : t.mem = s.mem) : ReadsAs t d c va n v :=
  ⟨h.fits, h.size, fun i hi => let ⟨pa, held, byte⟩ := h.bytes i hi; ⟨pa, heldAt_same held hd hc, by rw [hm]; exact byte⟩⟩
end

/-! ## The header and the pool table (R236, R239) -/

theorem khField (h p n : Nat) : bits h p n = cut h p n := rfl

theorem partOut_in {h o n : Nat} (hp : PartIn h o n) : partOut h o n false = false := by
  rcases hp with rfl | ⟨hfit, hbehind⟩
  · simp [partOut]
  · have behind : 64 + khCsize h ≤ o := hbehind
    simp only [partOut, Bool.not_false, Bool.true_and, Bool.and_eq_false_iff, Bool.or_eq_false_iff, decide_eq_false_iff_not]
    exact .inr ⟨Nat.not_lt.mpr hfit, Nat.not_lt.mpr behind⟩

theorem headerReason_ok {h : Nat} (hok : HeaderOk h) : headerReason h = none := by
  obtain ⟨magic, ⟨r1, r2, r3, r4⟩, ⟨ver, isa⟩, ⟨slots, window⟩, ⟨even, entry, inside, code⟩, data, p1, p2, p3⟩ := hok
  have reserved : khReserved h = false := by simp [khReserved, khField, r1, r2, r3, r4]
  have codeIn : partOut h 64 (khCsize h) true = false := by
    simp only [partOut, Bool.not_true, Bool.false_and, Bool.or_false, Bool.and_eq_false_iff, decide_eq_false_iff_not]
    exact .inr (Nat.not_lt.mpr code)
  have parts : partOut h (khPtab h) (8 * khPcnt h) false = false ∧ partOut h (khWimg h) (4 * khWindow h) false = false ∧
      partOut h (khDimg h) (khDsize h) false = false := ⟨partOut_in p1, partOut_in p2, partOut_in p3⟩
  rw [headerReason, if_neg (by simp [khMagic, khField, magic, reserved]), if_neg (by simp only [khVer, khField]; omega),
    if_neg (by simp only [khIsa, khField]; omega), if_neg (by simp only [khSlots, khWindow, khField]; omega), if_neg]
  simp only [codeIn, parts.1, parts.2.1, parts.2.2, Bool.false_eq_true, or_false]
  simp only [khCsize, khEntry, khDsize, khField]
  omega

theorem cut_shift (v a p n : Nat) : cut (v / 2 ^ a) p n = cut v (a + p) n := by
  rw [cut, cut, Nat.div_div_eq_div_mul, ← pow_add]

theorem poolRanges_eq (v n : Nat) : poolRanges v n = pools v n := by
  induction n generalizing v with
  | zero => rfl
  | succ n ih =>
    have first : (v % 2 ^ 32, v / 2 ^ 32 % 2 ^ 32) = (cut v (64 * 0) 32, cut v (64 * 0 + 32) 32) := by
      rw [cut, cut, Nat.mul_zero, pow_zero, Nat.div_one, Nat.zero_add]
    have rest (i : Nat) : (cut (v / 2 ^ 64) (64 * i) 32, cut (v / 2 ^ 64) (64 * i + 32) 32) =
        (cut v (64 * (i + 1)) 32, cut v (64 * (i + 1) + 32) 32) := by
      rw [cut_shift, cut_shift, show 64 * (i + 1) = 64 + 64 * i by omega, Nat.add_assoc]
    rw [poolRanges, ih, first, pools, pools, List.range_succ_eq_map, List.map_cons, List.map_map]
    exact congrArg _ (List.map_congr_left fun i _ => rest i)

/-! ## The scan for unordered encodings (R49) -/

section
variable {img n : Nat} {ps : List (Nat × Nat)}

theorem skipTo_eq (ps : List (Nat × Nat)) (o : Nat) : skipTo ps o = (ps.find? (touches o)).map fun p => (p.1 + p.2 + 1) / 2 * 2 := rfl

theorem unordered_iff (w : Nat) : unordered w = true ↔ Unordered w := by
  have major : decide (0x24 ≤ bits w 1 6 ∧ bits w 1 6 ≤ 0x26) = true ↔ (cut w 1 6 = 0x24 ∨ cut w 1 6 = 0x25 ∨ cut w 1 6 = 0x26) := by
    rw [decide_eq_true_eq, khField]; omega
  simp only [unordered, Unordered, major, Bool.or_eq_true, Bool.and_eq_true, beq_iff_eq, List.mem_cons, List.not_mem_nil, or_false, or_assoc]
  simp only [khField]

/-- A range that is skipped ends behind the halfword that it touches. -/
theorem skip_forward {o : Nat} {p : Nat × Nat} (h : ps.find? (touches o) = some p) : o < (p.1 + p.2 + 1) / 2 * 2 := by
  have touched := List.find?_some h
  simp only [touches, decide_eq_true_eq] at touched
  omega

/-- The first bit of the halfword at `o`. -/
theorem codeBit (img o : Nat) : img / 256 ^ o % 2 = cut img (8 * o) 1 := by rw [cut, byte_pow, pow_one]

/-- One halfword of the scan: it skips a range, or takes a short or a long word. -/
theorem scanFrom_skip {f o : Nat} {p : Nat × Nat} (ho : o < n) (h : ps.find? (touches o) = some p) :
    scanFrom img n ps (f + 1) o = scanFrom img n ps f ((p.1 + p.2 + 1) / 2 * 2) := by
  rw [scanFrom, if_neg (by omega), skipTo_eq, h]
  simp only [Option.map_some, if_pos (skip_forward h)]

theorem scanFrom_short {f o : Nat} (ho : o < n) (h : ps.find? (touches o) = none) (hb : cut img (8 * o) 1 = 0) :
    scanFrom img n ps (f + 1) o = scanFrom img n ps f (o + 2) := by
  rw [scanFrom, if_neg (by omega), skipTo_eq, h]
  simp [codeBit, hb]

/-- The long word at `o` counts: it lies in the image, and no range is skipped within it. -/
def Counts (n : Nat) (ps : List (Nat × Nat)) (o : Nat) : Prop := o + 4 ≤ n ∧ ps.find? (touches (o + 2)) = none

theorem scanFrom_long {f o : Nat} (ho : o < n) (h : ps.find? (touches o) = none) (hb : cut img (8 * o) 1 = 1) :
    scanFrom img n ps (f + 1) o = true ↔ (Counts n ps o ∧ Unordered (cut img (8 * o) 32)) ∨ scanFrom img n ps f (o + 4) = true := by
  have word : img / 256 ^ o % 2 ^ 32 = cut img (8 * o) 32 := by rw [cut, byte_pow]
  rw [scanFrom, if_neg (by omega), skipTo_eq, h]
  simp only [Option.map_none, codeBit, hb, one_ne_zero, if_false]
  split
  · next out =>
    have : ¬ Counts n ps o := by
      rintro ⟨hin, hnone⟩
      rcases out with out | out
      · omega
      · simp [skipTo_eq, hnone] at out
    simp [this]
  · next out =>
    simp only [not_or, Nat.not_lt, Bool.not_eq_true, skipTo_eq, Option.isSome_map, Option.isSome_eq_false_iff, Option.isNone_iff_eq_none] at out
    have : Counts n ps o := out
    simp only [word, Bool.or_eq_true, unordered_iff, this, true_and]

/-- What the scan finds is unordered and counts. -/
theorem hasUnordered_of_scan {f o : Nat} (ho : Scanned img n ps o) (h : scanFrom img n ps f o = true) : HasUnordered img n ps := by
  induction f generalizing o with
  | zero => cases h
  | succ f ih =>
    by_cases hin : o < n
    · cases hp : ps.find? (touches o) with
      | some p => exact ih (.skip o p ho hin hp) (scanFrom_skip hin hp ▸ h)
      | none =>
        rcases Nat.mod_two_eq_zero_or_one (img / 2 ^ (8 * o)) with hb | hb
        · exact ih (.short o ho hin hp hb) (scanFrom_short hin hp hb ▸ h)
        · rcases (scanFrom_long hin hp hb).mp h with ⟨⟨h4, hnone⟩, hu⟩ | h
          · exact ⟨o, ho, h4, hp, hnone, hb, hu⟩
          · exact ih (.long o ho hin hp hb) h
    · rw [scanFrom, if_pos (by omega)] at h
      cases h

/-- The scan stays at the start of halfwords. -/
theorem scanned_even {o : Nat} (ho : Scanned img n ps o) : o % 2 = 0 := by
  induction ho <;> omega

/-- The scan comes to every offset to which R49's does, with fuel for the rest. -/
theorem scan_reaches {F : Nat} (hF : n < 2 * F) {o : Nat} (ho : Scanned img n ps o) :
    ∃ f, n < o + 2 * f ∧ (scanFrom img n ps f o = true → scanFrom img n ps F 0 = true) := by
  induction ho with
  | start => exact ⟨F, by omega, id⟩
  | skip o p ho hin hp ih =>
    obtain ⟨f, hf, goes⟩ := ih
    obtain ⟨g, rfl⟩ : ∃ g, f = g + 1 := ⟨f - 1, by omega⟩
    have forward := skip_forward hp
    have even := scanned_even ho
    exact ⟨g, by omega, fun h => goes (scanFrom_skip hin hp ▸ h)⟩
  | short o _ hin hp hb ih =>
    obtain ⟨f, hf, goes⟩ := ih
    obtain ⟨g, rfl⟩ : ∃ g, f = g + 1 := ⟨f - 1, by omega⟩
    exact ⟨g, by omega, fun h => goes (scanFrom_short hin hp hb ▸ h)⟩
  | long o _ hin hp hb ih =>
    obtain ⟨f, hf, goes⟩ := ih
    obtain ⟨g, rfl⟩ : ∃ g, f = g + 1 := ⟨f - 1, by omega⟩
    exact ⟨g, by omega, fun h => goes ((scanFrom_long hin hp hb).mpr (.inr h))⟩

theorem scan_iff : scanFrom img n ps (n / 2 + 1) 0 = true ↔ HasUnordered img n ps := by
  refine ⟨hasUnordered_of_scan .start, fun ⟨o, ho, h4, hp, hnone, hb, hu⟩ => ?_⟩
  obtain ⟨f, hf, goes⟩ := scan_reaches (F := n / 2 + 1) (by omega) ho
  obtain ⟨g, rfl⟩ : ∃ g, f = g + 1 := ⟨f - 1, by omega⟩
  exact goes ((scanFrom_long (by omega) hp hb).mpr (.inl ⟨⟨h4, hnone⟩, hu⟩))
end

/-- The promise is what R240 says of the header and the scan. -/
theorem promiseOf_promised {h img p : Nat} {ps : List (Nat × Nat)} (hp : Promised h img ps p) : promiseOf h img ps = p := by
  obtain ⟨hlt, hlvl, huno, hdet⟩ := hp
  have uno : scanFrom img (khCsize h) ps (khCsize h / 2 + 1) 0 = true ↔ p / 2 % 2 = 1 := scan_iff.trans huno.symm
  have lvl : khLvl h = true ↔ p / 4 = 1 := by
    rw [hlvl]
    exact beq_iff_eq
  have bit : cut h 51 1 < 2 := Nat.mod_lt _ (by omega)
  rw [← huno] at hdet
  rw [promiseOf]
  cases hu : scanFrom img (khCsize h) ps (khCsize h / 2 + 1) 0 <;> cases hl : khLvl h <;> simp only [hu, hl] at uno lvl <;>
    simp [b2n] at uno lvl ⊢ <;> omega

/-! ## Checking (R239, R240) -/

theorem launches_modLaunch (s : State) (k : Nat) (f : Launch → Launch) (hf : ∀ x, (f x).key = x.key) :
    (modLaunch s k f).launches.find? (·.key == k) = (s.launches.find? (·.key == k)).map f := by
  have same (x : Launch) : ((if x.key = k then f x else x).key == k) = (x.key == k) := by split <;> simp [hf]
  simp only [modLaunch, List.find?_map, Function.comp_def, same]
  cases hx : s.launches.find? (·.key == k) with
  | none => rfl
  | some x =>
    have key : x.key = k := by simpa using List.find?_some hx
    simp [key]

/-- What a unit sees is the same in both states, and physical memory and the loom are. -/
structure SameView (s t : State) : Prop where
  dies : t.dies = s.dies
  ctxs : t.ctxs = s.ctxs
  mem : t.mem = s.mem
  parts : t.parts = s.parts
  sound : Sound s → Sound t
  noise : t.noise = s.noise

theorem SameView.trans {s t u : State} (h1 : SameView s t) (h2 : SameView t u) : SameView s u :=
  ⟨h2.dies.trans h1.dies, h2.ctxs.trans h1.ctxs, h2.mem.trans h1.mem, h2.parts.trans h1.parts, fun h => h2.sound (h1.sound h),
    h2.noise.trans h1.noise⟩

theorem Woken.view {s t : State} (h : Woken s t) : SameView s t := ⟨h.dies, h.ctxs, h.mem, h.parts, h.sound, h.noise⟩
theorem modLaunch_view (s : State) (k : Nat) (f : Launch → Launch) : SameView s (modLaunch s k f) := ⟨rfl, rfl, rfl, rfl, id, rfl⟩

section
variable {s : State} {d : Fin 4} {l : Launch} (hs : Sound s) (hn : s.noise = [])
include hs hn

theorem takeHeader_read {ph : Nat} (hh : l.hdr = none) (held : HeldAt s d l.ctx (ndObj l.nodeV) .read ph) :
    ∃ t, SameView s t ∧ takeHeader s d l = (t, .ok ph (memRead s.mem ph 64)) ∧
      t.launches.find? (·.key == l.key) =
        (s.launches.find? (·.key == l.key)).map fun x => { x with hdr := some (memRead s.mem ph 64) } := by
  have small : ndObj l.nodeV % 2 ^ 64 = ndObj l.nodeV := Nat.mod_mod _ _
  have ready : unitReady s d l.ctx .read [ndObj l.nodeV] = (s, none) :=
    unitReady_held fun a ha => ⟨ph, by rw [List.mem_singleton.mp ha, small]; exact held⟩
  obtain ⟨t, woken, read⟩ := unitRead_held hs hn 64 held
  refine ⟨_, woken.view.trans (modLaunch_view t l.key fun x => { x with hdr := some (memRead s.mem ph 64) }), ?_, ?_⟩
  · rw [takeHeader, hh]
    simp only [ready, read]
  · exact (launches_modLaunch t l.key (fun x => { x with hdr := some (memRead s.mem ph 64) }) fun _ => rfl).trans (by rw [woken.launches])

theorem takePool_read {h img tab : Nat} (hp : l.pool = none) (hi : ReadsAs s d l.ctx (ndObj l.nodeV + 64) (khCsize h) img)
    (ht : ReadsAs s d l.ctx (ndObj l.nodeV + khPtab h) (8 * khPcnt h) tab) :
    let p := promiseOf h img (poolRanges tab (khPcnt h))
    ∃ t, SameView s t ∧ takePool s d l h = (t, .ok p tab) ∧
      t.launches.find? (·.key == l.key) = (s.launches.find? (·.key == l.key)).map fun x => { x with pool := some tab, promise := p } := by
  intro p
  have ready : unitReady s d l.ctx .read (pagesOf (ndObj l.nodeV + 64) (khCsize h) ++ pagesOf (ndObj l.nodeV + khPtab h) (8 * khPcnt h)) =
      (s, none) := unitReady_held fun a ha => (List.mem_append.mp ha).elim (pagesOf_held hi a) (pagesOf_held ht a)
  obtain ⟨t, w1, code⟩ := readRange_reads hs hn hi
  obtain ⟨u, w2, table⟩ := readRange_reads (w1.sound hs) (w1.noise.trans hn) (readsAs_same ht w1.dies w1.ctxs w1.mem)
  have woken := w1.trans w2
  refine ⟨_, woken.view.trans (modLaunch_view u l.key fun x => { x with pool := some tab, promise := p }), ?_, ?_⟩
  · rw [takePool, hp]
    simp only [ready, code, table]
    rfl
  · exact (launches_modLaunch u l.key (fun x => { x with pool := some tab, promise := p }) fun _ => rfl).trans (by rw [woken.launches])
end

theorem placeBad_same {s t : State} (h : SameView s t) (c v : Nat) : placeBad t c v = placeBad s c v := by
  simp only [placeBad, ctxParts, h.ctxs, h.parts]

theorem lastChecks_pass {s : State} {d : Fin 4} {l : Launch} {h p : Nat}
    (hpages : ∀ a ∈ loadPages h l.nodeV, ∃ pa, HeldAt s d l.ctx (a % 2 ^ 64) .read pa) (hplace : placeBad s l.ctx l.nodeV = false)
    (hreq : cut l.nodeV 10 1 = 1 → p % 2 = 1) : lastChecks s d l h p = (s, .ok) := by
  have req : (ndReq l.nodeV && p % 2 == 0) = false := by
    by_cases hb : cut l.nodeV 10 1 = 1
    · simp [hreq hb]
    · have : ndReq l.nodeV = false := beq_eq_false_iff_ne.mpr hb
      simp [this]
  simp [lastChecks, unitReady_held hpages, allReadable_held hpages, req, hplace]

/-- A kernel that passes its checks is to be placed. -/
theorem kernel_placed {s : State} {l : Launch} {d : Fin 4} {img tab ph p : Nat} (he : s.ev = .key l.key)
    (hl : s.launches.find? (·.key == l.key) = some l) (hst : l.st = .checking) (hdie : l.die = d.val) (hh : l.hdr = none) (hp : l.pool = none)
    (hs : Sound s) (hn : s.noise = []) (held : HeldAt s d l.ctx (ndObj l.nodeV) .read ph) (hok : HeaderOk (memRead s.mem ph 64))
    (hi : ReadsAs s d l.ctx (ndObj l.nodeV + 64) (khCsize (memRead s.mem ph 64)) img)
    (ht : ReadsAs s d l.ctx (ndObj l.nodeV + khPtab (memRead s.mem ph 64)) (8 * khPcnt (memRead s.mem ph 64)) tab)
    (hin : ∀ x ∈ pools tab (khPcnt (memRead s.mem ph 64)), x.1 + x.2 ≤ khCsize (memRead s.mem ph 64))
    (hpages : ∀ a ∈ loadPages (memRead s.mem ph 64) l.nodeV, ∃ pa, HeldAt s d l.ctx (a % 2 ^ 64) .read pa)
    (hplace : placeBad s l.ctx l.nodeV = false) (hpr : Promised (memRead s.mem ph 64) img (pools tab (khPcnt (memRead s.mem ph 64))) p)
    (hreq : cut l.nodeV 10 1 = 1 → p % 2 = 1) :
    ∃ s', exec .kernelChecking s = .next s' ∧ s'.mem = s.mem ∧ s'.launches.find? (·.key == l.key) =
      some { l with st := .placing, hdr := some (memRead s.mem ph 64), pool := some tab, promise := p } := by
  generalize hhd : memRead s.mem ph 64 = h at *
  let s0 := actFor (.queue l.ctx l.queue) s
  have v0 : SameView s s0 := ⟨rfl, rfl, rfl, rfl, id, rfl⟩
  obtain ⟨s1, v1, header, l1⟩ := takeHeader_read (s := s0) hs hn hh (heldAt_same held v0.dies v0.ctxs)
  have w1 := v0.trans v1
  obtain ⟨s2, v2, pool, l2⟩ := takePool_read (w1.sound hs) (w1.noise.trans hn) hp (readsAs_same hi w1.dies w1.ctxs w1.mem)
    (readsAs_same ht w1.dies w1.ctxs w1.mem)
  have w2 := w1.trans v2
  rw [poolRanges_eq, promiseOf_promised hpr] at pool l2
  have inside : ((poolRanges tab (khPcnt h)).any fun x => decide (x.1 + x.2 > khCsize h)) = false := by
    rw [poolRanges_eq, List.any_eq_false]
    exact fun x hx => by simpa using hin x hx
  have checked : checkKernel s0 d l = (s2, .ok) := by
    rw [checkKernel, header]
    simp only [s0, actFor, hhd, pool, headerReason_ok hok, inside, Bool.false_eq_true, if_false]
    exact lastChecks_pass (fun a ha => let ⟨pa, hpa⟩ := hpages a ha; ⟨pa, heldAt_same hpa w2.dies w2.ctxs⟩)
      ((placeBad_same w2 _ _).trans hplace) hreq
  have settled : unitSettled s2 d = s2 := unitSettled_none (by rw [w2.dies]; exact held.2)
  refine ⟨modLaunch s2 l.key fun x => { x with st := .placing }, ?_, w2.mem, ?_⟩
  · show execKernelChecking s = _
    have die : Fin.ofNat 4 l.die = d := by rw [hdie]; exact Fin.ofNat_val_eq_self d
    simp only [execKernelChecking, he, hl, hst, bne_self_eq_false, Bool.false_eq_true, if_false, die]
    rw [show actFor (.queue l.ctx l.queue) s = s0 from rfl, checked]
    simp only [settled]
  · refine (launches_modLaunch s2 l.key (fun x => { x with st := .placing }) fun _ => rfl).trans ?_
    rw [l2, l1, show s0.launches = s.launches from rfl, hl]
    simp [s0, actFor, hhd]

end Sys2Proof.Machine
end

section
/-! PROOF of O39, second part: dispatch of a node (R261, R262). -/

namespace Sys2Proof.Machine

open Sys2Proof.Claims

/-! ## Parts of what a line holds -/

/-- Bytes side by side. -/
theorem memRead_add (m : Mem) (a n k : Nat) : memRead m a (n + k) = memRead m a n + 256 ^ n * memRead m (a + n) k := by
  induction k with
  | zero => rw [memRead_none (a := a + n) fun c _ => by omega, Nat.mul_zero, Nat.add_zero, Nat.add_zero]
  | succ k ih => rw [← Nat.add_assoc, memRead_succ, ih, memRead_succ m (a + n), pow_add, Nat.add_assoc a]; ring

theorem memWfFrom_ge {m : Mem} {lo : Nat} (h : memWfFrom lo m = true) : ∀ c ∈ m, lo ≤ c.1 := by
  induction m generalizing lo with
  | nil => nofun
  | cons c m ih =>
    simp only [memWfFrom, Bool.and_eq_true, decide_eq_true_eq] at h
    intro x hx
    rcases List.mem_cons.mp hx with rfl | hx
    · exact h.1.1
    · exact Nat.le_of_succ_le (ih (memWfFrom_mono (Nat.succ_le_succ h.1.1) h.2) x hx)

/-- A canonical memory holds bytes. -/
theorem memRead_byte {m : Mem} {lo : Nat} (h : memWfFrom lo m = true) (a : Nat) : memRead m a 1 < 256 := by
  induction m generalizing lo with
  | nil => exact Nat.zero_lt_succ _
  | cons c m ih =>
    obtain ⟨k, b⟩ := c
    simp only [memWfFrom, Bool.and_eq_true] at h
    have rest := ih h.2
    simp only [memRead]
    split
    · exact rest
    · split
      · have : k = a := by omega
        subst this
        rw [memRead_none fun c hc => by have := memWfFrom_ge h.2 c hc; omega, Nat.sub_self]
        have := b.isLt
        omega
      · exact rest

theorem memRead_lt {m : Mem} (h : Memory.wf m = true) (a n : Nat) : memRead m a n < 256 ^ n := by
  induction n with
  | zero => rw [memRead_none fun c _ => by omega]; decide
  | succ n ih =>
    have byte := memRead_byte h (a + n)
    have : 256 ^ n * memRead m (a + n) 1 ≤ 256 ^ n * 255 := Nat.mul_le_mul_left _ (by omega)
    rw [memRead_succ, pow_succ]
    omega

/-- The bytes within a read are its digits. -/
theorem memRead_part {m : Mem} {n o k : Nat} (h : Memory.wf m = true) (a : Nat) (hk : o + k ≤ n) :
    memRead m (a + o) k = memRead m a n / 256 ^ o % 256 ^ k := by
  obtain ⟨j, rfl⟩ := Nat.le.dest hk
  have digits : memRead m a (o + k + j) / 256 ^ o = memRead m (a + o) k + 256 ^ k * memRead m (a + (o + k)) j := by
    rw [memRead_add, memRead_add m a o k, pow_add, Nat.mul_assoc, Nat.add_assoc, ← Nat.mul_add, Nat.add_mul_div_left _ _ (by positivity),
      Nat.div_eq_of_lt (memRead_lt h a o), Nat.zero_add]
  rw [digits, Nat.add_mul_mod_self_left, Nat.mod_eq_of_lt (memRead_lt h _ k)]

/-! ## What the choice of a node reads -/

theorem unitPeek_act (x : Agent) (s : State) (c va : Nat) : unitPeek (actFor x s) c va = unitPeek s c va :=
  unitPeek_congr rfl (fun _ _ a _ => SameEntry.refl s a) fun _ _ => rfl

theorem entryPeek_act (x : Agent) (s : State) (c q : Nat) : entryPeek (actFor x s) c q = entryPeek s c q := unitPeek_act x s c _

theorem dispatchNext_act (x : Agent) (s : State) (r : QueueRec) : dispatchNext (actFor x s) r = dispatchNext s r := by
  simp only [dispatchNext, firstByPri, readyNodes, heldBack, unplaced, runningNodes, nodePeek, unitPeek_act]
  rfl

/-- What is chosen is one of the list. -/
theorem firstByPri_mem {s : State} {c n : Nat} {l : List Nat} (h : firstByPri s c l = some n) : n ∈ l := by
  suffices step : ∀ (l : List Nat) (o : Option Nat), l.foldl (fun o n => match o with
      | some m => if ndPri (nodePeek s c n) > ndPri (nodePeek s c m) then some n else some m
      | none => some n) o = some n → o = some n ∨ n ∈ l from
    (step l none h).resolve_left nofun
  intro l
  induction l with
  | nil => exact fun o h => .inl h
  | cons a l ih =>
    intro o h
    rcases ih _ h with first | rest
    · cases o with
      | none => simp_all
      | some m =>
        simp only at first
        split at first <;> simp_all
    · exact .inr (List.mem_cons_of_mem _ rest)

/-- The node that is dispatched is *ready*. -/
theorem dispatchNext_ready {s : State} {r : QueueRec} {n : Nat} (h : dispatchNext s r = some n) : ndState (nodePeek s r.ctx n) = 1 := by
  unfold dispatchNext at h
  split at h
  · have listed := (List.mem_filter.mp (firstByPri_mem h)).1
    simpa using (List.mem_filter.mp listed).2
  · cases h

theorem findRec_ctx {s : State} {d : Fin 4} {c q : Nat} {r : QueueRec} (h : findRec s d c q = some r) : r.ctx = c := by
  have named := List.find?_some h
  simp only [Bool.and_eq_true, beq_iff_eq] at named
  exact named.1

theorem unitPeek_at {s : State} {d : Fin 4} {c va pa : Nat} {need : Need} (hs : Sound s) (h : UnitAt s d c va need pa) :
    unitPeek s c va = memRead s.mem pa 64 := by
  obtain ⟨-, peek, -⟩ := h
  simp [unitPeek, peek, physRead, physPoison_sound hs]

/-! ## Writing to a line of no table -/

theorem Woken.withMem {s t : State} (h : Woken s t) (m : Mem) : Woken { s with mem := m } { t with mem := m } := by
  obtain ⟨c, d, l, k, rfl⟩ := h
  exact ⟨c, d, l, k, rfl⟩

theorem Woken.noTable {s t : State} {pa : Nat} (h : Woken s t) (ht : NoTable s pa) : NoTable t pa := by
  rw [NoTable, h.dies]
  exact ht

theorem Woken.msix {s t : State} (h : Woken s t) : t.msix = s.msix := by obtain ⟨c, d, l, k, rfl⟩ := h; rfl
theorem Woken.ports {s t : State} (h : Woken s t) : t.ports = s.ports := by obtain ⟨c, d, l, k, rfl⟩ := h; rfl
theorem Woken.gfe {s t : State} (h : Woken s t) : t.gfe = s.gfe := by obtain ⟨c, d, l, k, rfl⟩ := h; rfl
theorem Woken.ids {s t : State} (h : Woken s t) : t.ids = s.ids := by obtain ⟨c, d, l, k, rfl⟩ := h; rfl

/-- A line of no table, from its first byte on. -/
theorem noTable_line {s : State} {pa i : Nat} (h : NoTable s pa) (h0 : pa % 64 = 0) (hi : i < 64) : NoTable s (pa + i) := by
  have line : (pa + i) / 64 = pa / 64 := by omega
  unfold NoTable
  rw [line]
  exact h

theorem Woken.withFill {s t : State} (h : Woken s t) (m : Mem) (g : List Nat) :
    Woken { s with mem := m, gEmpty := g } { t with mem := m, gEmpty := g } := by
  obtain ⟨c, d, l, k, rfl⟩ := h
  exact ⟨c, d, l, k, rfl⟩

theorem hwFill_plain {s : State} {pa v : Nat} (ht : NoTable s pa) (hl : s.gLatent = []) (h0 : pa % 64 ≠ 0) (hg : s.gfe = []) :
    ∃ g, Woken { s with mem := memWrite s.mem pa 8 v, gEmpty := g } (hwFill s pa v) := by
  obtain ⟨c, d, l, k, written⟩ := physWrite_plain (v := v) ht hl h0 (by decide : 8 < 64)
  unfold hwFill
  simp only [written]
  split
  · exact ⟨delNat s.gEmpty (pa / 8), c, d, l, k, by simp [serveSlicesAll, serveSlices, gFill, hg]⟩
  · exact ⟨s.gEmpty, c, d, l, k, rfl⟩

/-! ## Dispatch (R261) -/

section
variable {s : State} {d : Fin 4} {c q n v : Nat} {start : State → State}

theorem dispatchNode_kernel (hcan : ndCan v = false) (hk : ndKind v = 0) : dispatchNode s d c q n v start =
    { start s with ids := (start s).ids + 1, launches := (start s).launches ++ [newLaunch ((start s).ids + 1) d c q n v .checking] } := by
  simp [dispatchNode, hcan, hk, freshId]

theorem dispatchNode_notice (hcan : ndCan v = false) (hk : ndKind v = 3) : dispatchNode s d c q n v start =
    endNode (sendMsi { start s with ids := (start s).ids + 1 } (qeVec (entryPeek { start s with ids := (start s).ids + 1 } c q))
      (some (w64 (ndObj v)))) d c q n v 0 := by
  simp [dispatchNode, hcan, hk, freshId]
end

/-- What a unit of queue `q` sees when the status of the node at `pn` has been raised. -/
def statusRaised (s : State) (c q pn : Nat) : State :=
  { s with agent := .queue c q, mem := memWrite s.mem (pn + 56) 8 (ndStatus (memRead s.mem pn 64) + 1) }

section
variable {s : State} {c q pn : Nat} {node : Word} {r : QueueRec} {d : Fin 4} (he : s.ev = .node c q node) (hs : Sound s) (hn : s.noise = [])
  (hd : qeDie (entryPeek s c q) = d) (hr : findRec s d c q = some r) (hnext : dispatchNext s r = some node.toNat)
  (hat : UnitAt s d c node.toNat .readWrite pn) (h0 : pn % 64 = 0) (ht : NoTable s pn) (hsucc : ndNsucc (memRead s.mem pn 64) = 0)
include he hs hn hd hr hnext hat h0 ht hsucc

/-- A node without successors that is chosen, and is no copy, is dispatched as it stands in memory, with its status raised. -/
theorem nodeDispatch_dispatches (hkind : ndKind (memRead s.mem pn 64) ≠ 1) :
    ∃ t start, Woken (statusRaised s c q pn) (start t) ∧
      exec .nodeDispatch s = .next (unitSettled (dispatchNode t d c q node.toNat (memRead s.mem pn 64) start) d) := by
  obtain ⟨t, woken, read⟩ := unitRead_held (s := actFor (.queue c q) s) hs hn 64 (heldAt_same hat.2.2 rfl rfl)
  have peek : nodePeek (actFor (.queue c q) s) c node.toNat = memRead s.mem pn 64 := (unitPeek_act _ _ _ _).trans (unitPeek_at hs hat)
  have found : findRec (actFor (.queue c q) s) d c q = some r := hr
  have written : Woken { t with mem := memWrite t.mem (pn + 56) 8 (ndStatus (memRead s.mem pn 64) + 1) } _ :=
    physWrite_plain (woken.noTable (noTable_line ht h0 (by decide))) (woken.sound hs).2 (by omega) (by decide)
  rw [woken.mem] at written
  refine ⟨t, fun t => physWrite t (pn + 56) 8 (ndStatus (memRead s.mem pn 64) + 1), (woken.withMem _).trans written, ?_⟩
  show execNodeDispatch s = _
  rw [execNodeDispatch, he]
  simp only [entryPeek_act, hd, found, dispatchNext_act, hnext, bne_self_eq_false, Bool.false_eq_true, if_false, peek, hsucc, hkind,
    Nat.mul_zero, pagesOf, List.append_nil, if_true, unitReady, read]
  simp [dispatchRead, readRange, rowChunks, lineChunks, unitChunks, readLines, hsucc, actFor]

/-- A kernel that is dispatched is to be checked. -/
theorem kernel_dispatched (hcan : ndCan (memRead s.mem pn 64) = false) (hkind : ndKind (memRead s.mem pn 64) = 0) :
    ∃ s', exec .nodeDispatch s = .next s' ∧ memRead s'.mem (pn + 56) 8 = (ndStatus (memRead s.mem pn 64) + 1) % 2 ^ 64 ∧
      s'.launches = s.launches ++
        [⟨s.ids + 1, d.val, c, q, node, memRead s.mem pn 64, none, none, none, 0, .checking, 0, 0, false, false, 0⟩] := by
  obtain ⟨t, start, woken, dispatches⟩ := nodeDispatch_dispatches he hs hn hd hr hnext hat h0 ht hsucc (by omega)
  rw [dispatchNode_kernel hcan hkind, unitSettled_none (by rw [woken.dies]; exact hat.2.2.2)] at dispatches
  refine ⟨_, dispatches, ?_, ?_⟩
  · show memRead (start t).mem _ _ = _
    rw [woken.mem, statusRaised, memRead_memWrite_same, byte_pow]
  · show (start t).launches ++ [newLaunch ((start t).ids + 1) _ _ _ _ _ _] = _
    rw [woken.launches, woken.ids, newLaunch, w64, BitVec.ofNat_toNat, BitVec.setWidth_eq]
    rfl
end

/-! ## Completion (R262) -/

/-- The pages of a node without successors are at hand for its completion. -/
theorem endReady_held {s : State} {d : Fin 4} {c q node v pn pe : Nat} (hnode : HeldAt s d c node .readWrite pn)
    (hentry : HeldAt s d c (entryVa s c q) .readWrite pe) (hn : node < 2 ^ 64) (he : entryVa s c q < 2 ^ 64) (hsucc : ndNsucc v = 0) :
    endReady s d c q node v = (s, none) := by
  have ready : unitReady s d c .readWrite [node, entryVa s c q] = (s, none) := unitReady_held fun a ha => by
    rcases List.mem_pair.mp ha with rfl | rfl
    · exact ⟨pn, by rwa [Nat.mod_eq_of_lt hn]⟩
    · exact ⟨pe, by rwa [Nat.mod_eq_of_lt he]⟩
  rw [endReady, ready, hsucc]
  simp [pagesOf, unitReady, succList]

theorem entryVa_lt (s : State) (c q : Nat) : entryVa s c q < 2 ^ 64 := by
  unfold entryVa
  split
  · exact Nat.mod_lt _ (by decide)
  · decide

theorem unitPut_held {s : State} {d : Fin 4} {c w b va pa : Nat} {f : State → Nat → State} (hn : s.noise = [])
    (h : HeldAt s d c va .write pa) : unitPut s d c w b va f = f s pa := by
  simp [unitPut, unitXlate_held h, travel_quiet hn]

/-- The status word of a node that ends, where it is `old` before (R262). -/
def endedStatus (ends old : Nat) : Nat := 3 + ends + stWlk * b2n (bitAt old 11)

section
variable {s : State} {d : Fin 4} {l : Launch} {pn pe : Nat} (hs : Sound s) (hn : s.noise = []) (hg : s.gfe = [])
  (hnode : HeldAt s d l.ctx l.node.toNat .readWrite pn) (hentry : HeldAt s d l.ctx (entryVa s l.ctx l.queue) .readWrite pe)
  (hn0 : pn % 64 = 0) (he0 : pe % 64 = 0) (htn : NoTable s pn) (hte : NoTable s pe)
  (hsucc : ndNsucc l.nodeV = 0) (hhn : ndHn l.nodeV = false)
include hs hn hg hnode hentry hn0 he0 htn hte hsucc hhn

/-- A completion writes the node's status word, and counts in the queue's entry. -/
theorem endWrite_writes :
    let m := memWrite s.mem (pn + 56) 8 (endedStatus l.ends (memRead s.mem (pn + 56) 8))
    ∃ g, Woken { s with mem := memWrite m (pe + 8) 8 (memRead m (pe + 8) 8 + 1), gEmpty := g } (endWrite s d l) := by
  intro m
  have status : HeldAt s d l.ctx (l.node.toNat + 56) .write (pn + 56) :=
    (heldAt_weaken (heldAt_line hnode (by rw [← heldAt_offset hnode]; omega))).1
  have count : HeldAt s d l.ctx (entryVa s l.ctx l.queue + 8) .readWrite (pe + 8) :=
    heldAt_line hentry (by rw [← heldAt_offset hentry]; omega)
  have first : Woken { s with mem := m } (physWrite s (pn + 56) 8 (endedStatus l.ends (memRead s.mem (pn + 56) 8))) :=
    physWrite_plain (noTable_line htn hn0 (by decide)) hs.2 (by omega) (by decide)
  have put : unitPut s d l.ctx 0 l.node.toNat (l.node.toNat + 56) (fun s pa =>
      physWrite s pa 8 (3 + l.ends + stWlk * b2n (bitAt (memRead s.mem pa 8) 11))) = _ := unitPut_held hn status
  rw [endWrite, put, ← endedStatus]
  generalize physWrite s (pn + 56) 8 (endedStatus l.ends (memRead s.mem (pn + 56) 8)) = u at *
  have entry : entryVa u l.ctx l.queue = entryVa s l.ctx l.queue := by rw [entryVa, first.ctxs]; rfl
  obtain ⟨t, woken, read⟩ := unitRead_held (first.sound hs) (first.noise.trans hn) 8 (heldAt_same count first.dies first.ctxs)
  have second := first.trans woken
  obtain ⟨g, last⟩ := hwFill_plain (v := memRead m (pe + 8) 8 + 1) (second.noTable (noTable_line hte he0 (by decide : 8 < 64)))
    (second.sound hs).2 (by omega) (second.gfe.trans hg)
  refine ⟨g, ?_⟩
  simp only [hsucc, succList, List.foldl_nil, entry, read, hhn, Bool.false_eq_true, if_false, first.mem]
  rw [second.mem] at last
  exact (second.withFill _ g).trans last
end

theorem tryEnd_ends {s : State} {k : Nat} {l : Launch} {d : Fin 4} (hl : s.launches.find? (·.key == k) = some l) (hst : l.st = .ending)
    (hd : l.die = d.val) (hready : endReady (actFor (.queue l.ctx l.queue) s) d l.ctx l.queue l.node.toNat l.nodeV =
      (actFor (.queue l.ctx l.queue) s, none)) :
    tryEnd s k = { dropNode (unitSettled (endWrite (actFor (.queue l.ctx l.queue) s) d l) d) l.ctx l.node.toNat with
      launches := (unitSettled (endWrite (actFor (.queue l.ctx l.queue) s) d l) d).launches.filter (·.key != k) } := by
  have die : Fin.ofNat 4 l.die = d := by rw [hd]; exact Fin.ofNat_val_eq_self d
  simp only [tryEnd, hl, hst, bne_self_eq_false, Bool.false_eq_true, if_false, die, hready]

/-- A launch with a new key is the one that the key finds, and the others stay without it. -/
theorem find_newKey {l : List Launch} {k : Nat} {x : Launch} (h : ∀ y ∈ l, y.key < k) (hx : x.key = k) :
    (l ++ [x]).find? (·.key == k) = some x ∧ (l ++ [x]).filter (·.key != k) = l := by
  have none : l.find? (·.key == k) = none := List.find?_eq_none.mpr fun y hy => by simpa using (h y hy).ne
  have all : l.filter (·.key != k) = l := List.filter_eq_self.mpr fun y hy => by simpa using (h y hy).ne
  simp [List.find?_append, none, all, hx]

section
variable {s : State} {d : Fin 4} {c q v pn pe : Nat} {node : Word} (hs : Sound s) (hn : s.noise = []) (hg : s.gfe = [])
  (hnode : HeldAt s d c node.toNat .readWrite pn) (hentry : HeldAt s d c (entryVa s c q) .readWrite pe)
  (hn0 : pn % 64 = 0) (he0 : pe % 64 = 0) (htn : NoTable s pn) (hte : NoTable s pe) (hkeys : ∀ l ∈ s.launches, l.key ≤ s.ids)
  (hsucc : ndNsucc v = 0) (hhn : ndHn v = false)
include hs hn hg hnode hentry hn0 he0 htn hte hkeys hsucc hhn

/-- A node that no launch holds completes at once, where its pages are at hand. -/
theorem endNode_completes (ends : Nat) :
    let m := memWrite s.mem (pn + 56) 8 (endedStatus ends (memRead s.mem (pn + 56) 8))
    let s' := endNode s d c q node.toNat v ends
    s'.mem = memWrite m (pe + 8) 8 (memRead m (pe + 8) 8 + 1) ∧ s'.launches = s.launches ∧ s'.msix = s.msix ∧
      (s'.dies.get d).unitRef = [] := by
  intro m s'
  let l : Launch := ⟨s.ids + 1, d.val, c, q, w64 node.toNat, v, none, none, none, 0, .ending, 0, 0, false, false, ends⟩
  let s1 : State := { s with ids := s.ids + 1, launches := s.launches ++ [l] }
  have word : (w64 node.toNat).toNat = node.toNat := by simp [w64]
  obtain ⟨found, others⟩ := find_newKey (x := l) (fun y hy => Nat.lt_succ_of_le (hkeys y hy)) rfl
  have held : HeldAt (actFor (.queue c q) s1) d c (w64 node.toNat).toNat .readWrite pn := by rw [word]; exact heldAt_same hnode rfl rfl
  have heldE : HeldAt (actFor (.queue c q) s1) d c (entryVa (actFor (.queue c q) s1) c q) .readWrite pe := heldAt_same hentry rfl rfl
  obtain ⟨g, woken⟩ := endWrite_writes (s := actFor (.queue c q) s1) (l := l) hs hn hg held heldE hn0 he0 htn hte hsucc hhn
  have ended : s' = _ := tryEnd_ends (s := s1) (l := l) (d := d) found rfl rfl
    (endReady_held held heldE (BitVec.isLt _) (entryVa_lt _ _ _) hsucc)
  have settled := unitSettled_none (s := endWrite (actFor (.queue c q) s1) d l) (d := d) (by rw [woken.dies]; exact hnode.2)
  rw [settled] at ended
  generalize endWrite (actFor (.queue c q) s1) d l = w at ended woken
  have launches : w.launches = s.launches ++ [l] := woken.launches
  have dies : w.dies = s.dies := woken.dies
  rw [ended]
  refine ⟨woken.mem, ?_, woken.msix, ?_⟩
  · show w.launches.filter _ = _
    rw [launches]; exact others
  · show ((dropNode w _ _).dies.get d).unitRef = []
    rw [dropNode, get_vmap, dies]; exact hnode.2
end

/-- The entry of a queue reads as before when the status of a node in another line has been raised. -/
theorem entryPeek_raised {s t : State} {c q pn pe : Nat} {d : Fin 4} {need : Need} (hs : Sound s) (h0 : pn % 64 = 0) (he0 : pe % 64 = 0)
    (hoff : OffWalk s c (entryVa s c q) pn) (hapart : Apart pe pn) (hat : UnitAt s d c (entryVa s c q) need pe)
    (hm : t.mem = (statusRaised s c q pn).mem) (hc : t.ctxs = s.ctxs) (ht : Sound t) : entryPeek t c q = memRead s.mem pe 64 := by
  have other {a n : Nat} (ha : a + n ≤ pn + 56 ∨ pn + 64 ≤ a) : memRead t.mem a n = memRead s.mem a n := by
    rw [hm]; exact memRead_memWrite_other _ _ _ _ _ _ ha
  have entry : entryVa t c q = entryVa s c q := by rw [entryVa, hc]; rfl
  rw [entryPeek, entry, ← unitPeek_at hs hat]
  refine unitPeek_congr hc (fun x hx a ha => ⟨by rw [physPoison_sound ht, physPoison_sound hs], other ?_⟩) fun pa hpa => ?_
  · have : a / 64 ≠ pn / 64 := fun e => hoff x hx (e ▸ ha)
    omega
  · obtain rfl : pe = pa := XRes.ok.inj (hat.2.1.symm.trans hpa)
    have : pe / 64 ≠ pn / 64 := hapart
    simp only [physRead, physPoison_sound ht, physPoison_sound hs, Bool.false_eq_true, if_false]
    exact other (by omega)

theorem sendMsi_port0 {s : State} {vec : Nat} (v : Option Word) (hp : (s.ports.get 0).up = true) (h0 : vec ≠ 0) (hv : vec ≤ 2047) :
    sendMsi s vec v = { s with msix := (vec, 0, v) :: s.msix } := by
  have port : hostPort s = some 0 := by rw [hostPort, if_pos hp]
  simp only [sendMsi, port, h0, Nat.not_lt.mpr hv, or_self, if_false]

/-- A ready node that has been dispatched ends with state 3, its walk bit as it was. -/
theorem endedStatus_raised {v : Nat} (h : ndState v = 1) : endedStatus 0 ((ndStatus v + 1) % 2 ^ 64) = 3 + 2 ^ 11 * cut v 459 1 := by
  have state : v / 2 ^ 448 % 2 ^ 2 = 1 := h
  have walked : cut v 459 1 = v / 2 ^ 448 / 2 ^ 11 % 2 := by rw [cut, Nat.div_div_eq_div_mul, ← pow_add, pow_one]
  have bit : b2n (bitAt ((ndStatus v + 1) % 2 ^ 64) 11) = cut v 459 1 := by
    have raised : (ndStatus v + 1) % 2 ^ 64 / 2 ^ 11 % 2 = cut v 459 1 := by
      rw [walked, ndStatus, khField, cut]
      omega
    simp only [bitAt, raised]
    have : cut v 459 1 < 2 := Nat.mod_lt _ (by decide)
    rcases (by omega : cut v 459 1 = 0 ∨ cut v 459 1 = 1) with e | e <;> simp [e, b2n]
  rw [endedStatus, bit]
  rfl

section
variable {s : State} {c q pn pe : Nat} {node : Word} {r : QueueRec} {d : Fin 4} (he : s.ev = .node c q node) (hs : Sound s)
  (hn : s.noise = []) (hw : Memory.wf s.mem = true)
  (hd : qeDie (entryPeek s c q) = d) (hr : findRec s d c q = some r) (hnext : dispatchNext s r = some node.toNat)
  (hat : UnitAt s d c node.toNat .readWrite pn) (h0 : pn % 64 = 0) (ht : NoTable s pn) (hsucc : ndNsucc (memRead s.mem pn 64) = 0)
  (hcan : ndCan (memRead s.mem pn 64) = false) (hkind : ndKind (memRead s.mem pn 64) = 3)
include he hs hn hw hd hr hnext hat h0 ht hsucc hcan hkind

/-- A host notification that is dispatched sends its value and completes. -/
theorem notice_dispatched (heat : UnitAt s d c (entryVa s c q) .readWrite pe) (he0 : entryVa s c q % 64 = 0)
    (hoff : OffWalk s c (entryVa s c q) pn) (hapart : Apart pe pn) (hte : NoTable s pe) (hg : s.gfe = [])
    (hkeys : ∀ l ∈ s.launches, l.key ≤ s.ids) (hhn : ndHn (memRead s.mem pn 64) = false) (hport : (s.ports.get 0).up = true)
    (hvec : qeVec (memRead s.mem pe 64) ≠ 0) (hvec' : qeVec (memRead s.mem pe 64) ≤ 2047) :
    ∃ s', exec .nodeDispatch s = .next s' ∧
      s'.msix = (qeVec (memRead s.mem pe 64), 0, some (w64 (ndObj (memRead s.mem pn 64)))) :: s.msix ∧
      memRead s'.mem (pn + 56) 8 = 3 + 2 ^ 11 * cut (memRead s.mem pn 64) 459 1 ∧
      memRead s'.mem (pe + 8) 8 = (cut (memRead s.mem pe 64) 64 64 + 1) % 2 ^ 64 ∧ s'.launches = s.launches := by
  obtain ⟨t, start, woken, dispatches⟩ := nodeDispatch_dispatches he hs hn hd hr hnext hat h0 ht hsucc (by omega)
  generalize hu : start t = u at woken
  have hpe0 : pe % 64 = 0 := (heldAt_offset heat.2.2).trans he0
  have ready : ndState (memRead s.mem pn 64) = 1 := by
    rw [← unitPeek_at hs hat, ← findRec_ctx hr]; exact dispatchNext_ready hnext
  have entry : entryPeek { u with ids := u.ids + 1 } c q = memRead s.mem pe 64 :=
    entryPeek_raised hs h0 hpe0 hoff hapart heat woken.mem woken.ctxs (woken.sound hs)
  have send := sendMsi_port0 (s := { u with ids := u.ids + 1 }) (some (w64 (ndObj (memRead s.mem pn 64))))
    (show (u.ports.get 0).up = true by rw [woken.ports]; exact hport) hvec hvec'
  rw [dispatchNode_notice hcan hkind, hu, entry, send] at dispatches
  have entryAt : entryVa u c q = entryVa s c q := by rw [entryVa, woken.ctxs]; rfl
  have keys : ∀ l ∈ u.launches, l.key ≤ u.ids + 1 := by
    rw [woken.launches, woken.ids]
    exact fun l hl => Nat.le_succ_of_le (hkeys l hl)
  obtain ⟨mem, launches, msix, ref⟩ := endNode_completes
    (s := { u with ids := u.ids + 1, msix := (qeVec (memRead s.mem pe 64), 0, some (w64 (ndObj (memRead s.mem pn 64)))) :: u.msix })
    (woken.sound hs) (woken.noise.trans hn) (woken.gfe.trans hg) (heldAt_same hat.2.2 woken.dies woken.ctxs)
    (by show HeldAt _ _ _ (entryVa u c q) _ pe; rw [entryAt]; exact heldAt_same heat.2.2 woken.dies woken.ctxs) h0 hpe0
    (woken.noTable ht) (woken.noTable hte) keys hsucc hhn 0
  refine ⟨_, dispatches, ?_⟩
  have lines : pe / 64 ≠ pn / 64 := hapart
  have status : memRead u.mem (pn + 56) 8 = (ndStatus (memRead s.mem pn 64) + 1) % 2 ^ 64 := by
    rw [woken.mem, statusRaised, memRead_memWrite_same, byte_pow]
  have count : memRead u.mem (pe + 8) 8 = cut (memRead s.mem pe 64) 64 64 := by
    rw [woken.mem, statusRaised, memRead_memWrite_other _ _ _ _ _ _ (by omega), memRead_part (n := 64) hw pe (by decide)]
    rfl
  have walked : cut (memRead s.mem pn 64) 459 1 < 2 := Nat.mod_lt _ (by decide)
  rw [unitSettled_none ref]
  refine ⟨msix.trans (congrArg _ woken.msix), ?_, ?_, launches.trans woken.launches⟩
  · rw [mem, memRead_memWrite_other _ _ _ _ _ _ (by omega), memRead_memWrite_same]
    show endedStatus 0 (memRead u.mem _ _) % _ = _
    rw [status, endedStatus_raised ready]
    omega
  · rw [mem, memRead_memWrite_same, memRead_memWrite_other _ _ _ _ _ _ (by omega)]
    show (memRead u.mem _ _ + 1) % _ = _
    rw [count, byte_pow]
end

/-- Settles O39: the boundary ranks the queues (`boundary_slots`), a chosen node is dispatched as it stands in memory
(`kernel_dispatched`, `notice_dispatched`), and a kernel whose checks pass is to be placed (`kernel_placed`). -/
theorem dispatch : Obligations.Dispatch := by
  unfold Obligations.Dispatch
  refine ⟨?_, ?_, ?_⟩
  · intro s hdue
    obtain ⟨s', goes, bounds, queues⟩ := boundary_slots hdue
    refine ⟨s', goes, bounds, fun d => ?_⟩
    rw [queues d, List.length_map]
    refine ⟨rfl, fun i r r' hr hr' => ?_⟩
    rw [List.getElem?_map, hr] at hr'
    obtain rfl := Option.some.inj hr'
    obtain ⟨ctx, q, nodes⟩ := rankRec_keeps s (s.dies.get d).queues r
    exact ⟨ctx, q, nodes, rankRec_mapped s _ r, rankRec_pass s _ r⟩
  · intro s c q pn node r he hs hn hw d v hr hnext hat h0 ht hsucc hcan
    have can : ndCan v = false := beq_eq_false_iff_ne.mpr (by rw [show v / 2 ^ 450 % 2 = cut v 450 1 from rfl, hcan]; decide)
    refine ⟨fun hkind => kernel_dispatched he hs hn rfl hr hnext hat h0 ht hsucc can hkind,
      fun hkind pe heat he0 _ hoff hapart hte hg hkeys hhn hport => ?_⟩
    have hn' : ndHn v = false := beq_eq_false_iff_ne.mpr (by rw [show v / 2 ^ 11 % 2 = cut v 11 1 from rfl, hhn]; decide)
    exact notice_dispatched he hs hn hw rfl hr hnext hat h0 ht hsucc can hkind heat he0 hoff hapart hte hg hkeys hn' hport
  · intro s l d h img tab ph he hl hst hdie hh hp hs hn obj _ held hh' hok hi ht hin hpages hplace p hpr hreq
    subst hh'
    exact kernel_placed he hl hst hdie hh hp hs hn held hok hi ht hin hpages hplace hpr hreq

end Sys2Proof.Machine
end

section
/-! SUPPORT for O35: what the writes of a fused update leave. A write of a word may start a mender slot or end waits (R304), and it changes no
pc, no register and no translation (`physWrite_kept`). -/

namespace Sys2Proof.Machine

open Sys2Proof.Claims

/-- The two states agree in memory and in its errors, and in what hart `h` runs and translates by. -/
structure KeptFor (h : HartId) (s t : State) : Prop where
  cur : t.cur = s.cur
  mem : t.mem = s.mem
  ctxs : t.ctxs = s.ctxs
  dies : t.dies = s.dies
  noise : t.noise = s.noise
  poison : t.gPoison = s.gPoison
  latent : t.gLatent = s.gLatent
  pc : (getHart t h).pc = (getHart s h).pc
  g : (getHart t h).g = (getHart s h).g
  ctx : hartCtx t h = hartCtx s h

section
variable {h : HartId} {s t u : State}

theorem KeptFor.refl : KeptFor h s s := ⟨rfl, rfl, rfl, rfl, rfl, rfl, rfl, rfl, rfl, rfl⟩

theorem KeptFor.trans (a : KeptFor h s t) (b : KeptFor h t u) : KeptFor h s u :=
  ⟨b.cur.trans a.cur, b.mem.trans a.mem, b.ctxs.trans a.ctxs, b.dies.trans a.dies, b.noise.trans a.noise, b.poison.trans a.poison,
    b.latent.trans a.latent, b.pc.trans a.pc, b.g.trans a.g, b.ctx.trans a.ctx⟩

theorem KeptFor.sound (a : KeptFor h s t) (hs : Sound s) : Sound t := ⟨a.poison.trans hs.1, a.latent.trans hs.2⟩

theorem KeptFor.noTable {pa : Nat} (a : KeptFor h s t) (ht : NoTable s pa) : NoTable t pa := by
  rw [NoTable, a.dies]
  exact ht

theorem KeptFor.withMem (a : KeptFor h s t) (m : Mem) : KeptFor h { s with mem := m } { t with mem := m } :=
  ⟨a.cur, rfl, a.ctxs, a.dies, a.noise, a.poison, a.latent, a.pc, a.g, a.ctx⟩

theorem Woken.kept (w : Woken s t) : KeptFor h s t := by
  obtain ⟨_, _, _, _, rfl⟩ := w
  exact ⟨rfl, rfl, rfl, rfl, rfl, rfl, rfl, rfl, rfl, rfl⟩

theorem getMender_modHart_use (s : State) (k : HartId) (f : Hart → Hart) (m : Nat) :
    (getMender (modHart s k f) m).use = (getMender s m).use := by
  cases k with
  | tile t i => rfl
  | mender n i =>
    by_cases e : m = n
    · subst e; simp [modHart, setHart]
    · simp [modHart, setHart, getMender_setMender_other s _ e]

theorem modHart_kept (k : HartId) {f : Hart → Hart} (hf : ∀ x, (f x).pc = x.pc ∧ (f x).g = x.g) : KeptFor h s (modHart s k f) := by
  have hart : (getHart (modHart s k f) h).pc = (getHart s h).pc ∧ (getHart (modHart s k f) h).g = (getHart s h).g := by
    by_cases e : h = k
    · subst e; rw [getHart_modHart_same]; exact hf _
    · rw [getHart_modHart_other s f e]; exact ⟨rfl, rfl⟩
  have ctx : hartCtx (modHart s k f) h = hartCtx s h := by
    cases h with
    | tile t i => simp [hartCtx]
    | mender m i => simp only [hartCtx, getMender_modHart_use]
  exact ⟨by simp, by simp, by simp, by simp, by simp, by simp, by simp, hart.1, hart.2, ctx⟩

/-- What is noted of a mender's slots is not what they run. -/
theorem setMender_kept (m : Nat) {x : Mender} (hu : x.use = (getMender s m).use) (hh : x.harts = (getMender s m).harts) :
    KeptFor h s (setMender s m x) := by
  have same (n : Nat) : (getMender (setMender s m x) n).use = (getMender s n).use ∧
      (getMender (setMender s m x) n).harts = (getMender s n).harts := by
    by_cases e : n = m
    · subst e; rw [getMender_setMender_same]; exact ⟨hu, hh⟩
    · rw [getMender_setMender_other s x e]; exact ⟨rfl, rfl⟩
  have hart : getHart (setMender s m x) h = getHart s h := by
    cases h with
    | tile t i => rfl
    | mender n i => simp only [getHart, (same n).2]
  have ctx : hartCtx (setMender s m x) h = hartCtx s h := by
    cases h with
    | tile t i => rfl
    | mender n i => simp only [hartCtx, (same n).1]
  exact ⟨rfl, rfl, rfl, rfl, rfl, rfl, rfl, by rw [hart], by rw [hart], ctx⟩

theorem foldl_kept {α : Type} {f : State → α → State} (hf : ∀ s a, KeptFor h s (f s a)) (l : List α) (s : State) :
    KeptFor h s (l.foldl f s) := by
  induction l generalizing s with
  | nil => exact .refl
  | cons a l ih => exact (hf s a).trans (ih _)

theorem noteEnable_kept (pa : Nat) : KeptFor h s (noteEnable s pa) := by
  unfold noteEnable
  extract_lets d m
  split
  · exact setMender_kept m rfl rfl
  · exact .refl

theorem endWait_kept (pa : Nat) (who : Agent) : KeptFor h s (endWait s pa who) := by
  unfold endWait
  cases who with
  | hart k =>
    simp only
    split
    · cases k with
      | tile t i => exact .refl
      | mender m i => exact setMender_kept m rfl rfl
    · split
      · exact modHart_kept k fun x => ⟨rfl, rfl⟩
      · exact .refl
  | _ => exact .refl

theorem noteDisable_kept (pa : Nat) : KeptFor h s (noteDisable s pa) := by
  have first : KeptFor h s { s with gqWait := s.gqWait.filter fun x => !(x.1 == pa && isHartAgent x.2) } :=
    ⟨rfl, rfl, rfl, rfl, rfl, rfl, rfl, rfl, rfl, rfl⟩
  unfold noteDisable
  extract_lets w s1
  have second : KeptFor h s s1 := first.trans (foldl_kept (fun _ x => endWait_kept pa x.2) w _)
  refine second.trans ?_
  apply foldl_kept
  exact fun u m => setMender_kept m.1 rfl rfl

/-- A write of less than a line, to a line of no table, changes its bytes. -/
theorem physWrite_kept {pa n v : Nat} (ht : NoTable s pa) (hl : s.gLatent = []) (hn : n < 64) :
    KeptFor h { s with mem := memWrite s.mem pa n v } (physWrite s pa n v) := by
  have drop : dropLine { s with mem := memWrite s.mem pa n v } (pa / 64) = { s with mem := memWrite s.mem pa n v } :=
    dropLine_noTable (s := { s with mem := memWrite s.mem pa n v }) ht
  unfold physWrite
  extract_lets line old set clr s1 s2 s3
  have noted : KeptFor h { s with mem := memWrite s.mem pa n v } s2 := by
    rw [← drop]
    show KeptFor h s1 (if set then noteEnable s1 pa else if clr then noteDisable s1 pa else s1)
    split
    · exact noteEnable_kept pa
    · split
      · exact noteDisable_kept pa
      · exact .refl
  have latent : s2.gLatent = [] := noted.latent.trans hl
  rw [show s3 = s2 from if_neg (by omega)]
  refine noted.trans ?_
  split
  · exact (wakeSlice_woken pa latent).kept
  · have held : Woken s2 { s2 with hostHeld := insNat s2.hostHeld line } := ⟨_, _, _, _, rfl⟩
    exact (held.trans (wakeSlice_woken pa latent)).kept
end

end Sys2Proof.Machine
end

section
/-! PROOF of O35, first part: the elements of a stream are updated one after the other (`optLoop_updates`), and what memory holds then
(`memAfter_new`). -/

namespace Sys2Proof.Machine

open Sys2Proof.Claims

/-! ## Accesses to the words of an element (R311) -/

section
variable {h : HartId} {s t : State} {d : Fin 4} {c va pa : Nat} {need : Need}

theorem xlate_hand (held : HeldIn s d (nearest h) c va need pa) : xlate s d (looksIn h) c va need none = (s, .ok pa) := by
  obtain ⟨x, e, hctx, hcanon, hfind, hperm, hdirty, rfl⟩ := held
  obtain ⟨l, hl⟩ := looksIn_nearest h
  have clean : (dirties need && !bitAt e.pte x.tfd.dpos) = false := by
    cases hd : dirties need with
    | false => rfl
    | true => simp [hdirty hd]
  simp [xlate, hctx, hcanon, hl, tlbLook, hfind, hperm, clean, tlbFind_holder hfind, leafPa]

theorem heldIn_same {a : Holder} (held : HeldIn s d a c va need pa) (hc : t.ctxs = s.ctxs) (hd : t.dies = s.dies) :
    HeldIn t d a c va need pa := by
  obtain ⟨x, e, hctx, hcanon, hfind, hperm, hdirty, hpa⟩ := held
  exact ⟨x, e, by rw [hc]; exact hctx, hcanon, by rw [hd]; exact hfind, hperm, hdirty, hpa⟩

theorem heldIn_unique {a : Holder} {pb : Nat} {need' : Need} (held : HeldIn s d a c va need pa) (held' : HeldIn s d a c va need' pb) :
    pa = pb := by
  obtain ⟨x, e, -, -, hfind, -, -, rfl⟩ := held
  obtain ⟨y, f, -, -, hfind', -, -, rfl⟩ := held'
  rw [hfind] at hfind'
  cases hfind'
  rfl
end

/-- Hart `h` may access the word at `va`, whose home is `pa`, with none of the operations `ops` before it. -/
structure WordAt (s : State) (h : HartId) (ops : List LongOp) (need : Need) (va pa : Nat) : Prop where
  held : HeldIn s (hartDie h) (nearest h) (hartCtx s h) va need pa
  fits : va < 2 ^ 64
  alone : ∀ o ∈ ops, opTouches o (hereAcc none pa 4 (w64 va)) = false

section
variable {h : HartId} {ops : List LongOp} {s t : State} {need : Need} {r : OptRun} {vas pas : List Nat}

theorem WordAt.kept {va pa : Nat} {m : Mem} (w : WordAt s h ops need va pa) (k : KeptFor h { s with mem := m } t) :
    WordAt t h ops need va pa :=
  ⟨by rw [k.ctx]; exact heldIn_same w.held k.ctxs k.dies, w.fits, w.alone⟩

theorem optXlate_words (hr : r.ref = none) (hw : List.Forall₂ (WordAt t h ops need) vas pas) :
    optXlate t h r need vas = (t, .ok (pas.map fun pa => (pa, 4))) := by
  unfold optXlate
  induction hw with
  | nil => rfl
  | cons first _ ih =>
    simp only [List.map_cons, xlateChunks, Nat.mod_eq_of_lt first.fits, hr, xlate_hand first.held]
    rw [hr] at ih
    simp only [ih]

theorem optBehind_words (hw : List.Forall₂ (WordAt t h ops need) vas pas) : optBehind ops pas vas = none := by
  unfold optBehind
  induction hw with
  | nil => rfl
  | cons first _ ih =>
    have alone : (ops.any fun o => opTouches o (hereAcc none _ 4 (w64 _))) = false := List.any_eq_false.mpr fun o ho => by
      rw [first.alone o ho]; exact Bool.false_ne_true
    rw [List.zip_cons_cons, List.map_cons, List.find?_cons, alone]
    exact ih

theorem optRead_words (hs : Sound t) (hn : t.noise = []) (hl : pas.length = vas.length) :
    ∃ u, Woken t u ∧ optRead t pas vas = (u, pas.map fun pa => memRead t.mem pa 4, none) := by
  induction pas generalizing t vas with
  | nil => exact ⟨t, .refl t, rfl⟩
  | cons pa pas ih =>
    obtain ⟨va, vas, rfl⟩ := List.exists_cons_of_length_eq_add_one hl.symm
    obtain ⟨u, w1, read⟩ := lineRead_woken hs hn pa 4
    obtain ⟨v, w2, rest⟩ := ih (w1.sound hs) (w1.noise.trans hn) (Nat.succ.inj hl)
    exact ⟨v, w1.trans w2, by simp [optRead, read, rest, w1.mem]⟩

/-- Memory with the words `vs` at `pas`, put one after the other. -/
def wordsPut : Mem → List Nat → List Nat → Mem
  | m, pa :: pas, v :: vs => wordsPut (memWrite m pa 4 v) pas vs
  | m, _, _ => m

theorem optPut_words (pc : Word) (hs : Sound t) (hn : t.noise = []) (ht : ∀ pa ∈ pas, NoTable t pa) (hl : pas.length = vas.length)
    (vs : List Nat) : KeptFor h { t with mem := wordsPut t.mem pas vs } (optPut h pc t pas vas vs) := by
  induction pas generalizing t vas vs with
  | nil => exact .refl
  | cons pa pas ih =>
    obtain ⟨va, vas, rfl⟩ := List.exists_cons_of_length_eq_add_one hl.symm
    cases vs with
    | nil => exact .refl
    | cons v vs =>
      have first : KeptFor h _ (physWrite t pa 4 v) := physWrite_kept (ht pa List.mem_cons_self) hs.2 (by decide)
      have rest := ih (first.sound hs) (first.noise.trans hn) (fun p hp => first.noTable (ht p (List.mem_cons_of_mem _ hp)))
        (Nat.succ.inj hl) vs
      rw [optPut, lineWrite, travel_quiet hn]
      rw [first.mem] at rest
      exact (first.withMem _).trans rest

/-- The element is updated at its words' homes. -/
theorem optElem_updates {i g : Nat} (hr : r.ref = none) (hs : Sound t) (hn : t.noise = [])
    (hw : List.Forall₂ (WordAt t h ops .readWrite) (optWords (optFn r.fn) r.ea r.eb i) pas) (ht : ∀ pa ∈ pas, NoTable t pa) :
    ∃ u fl, KeptFor h { t with mem := wordsPut t.mem pas (optNew (optFn r.fn) r.blk g (pas.map fun pa => memRead t.mem pa 4)).1 } u ∧
      optElem h ops i g none t r = (u, { r with done := r.done + 1, fl := fl }, none) := by
  obtain ⟨u, woken, read⟩ := optRead_words hs hn hw.length_eq.symm
  have put := optPut_words (h := h) r.pc (woken.sound hs) (woken.noise.trans hn) (fun pa hp => woken.noTable (ht pa hp)) hw.length_eq.symm
    (optNew (optFn r.fn) r.blk g (pas.map fun pa => memRead t.mem pa 4)).1
  rw [woken.mem] at put
  have homes : (pas.map fun pa => (pa, 4)).map (·.1) = pas := List.map_map.trans (List.map_id pas)
  refine ⟨_, r.fl ||| (optNew (optFn r.fn) r.blk g (pas.map fun pa => memRead t.mem pa 4)).2, (woken.kept.withMem _).trans put, ?_⟩
  simp only [optElem, optXlate_words hr hw, homes, optBehind_words hw, read]

theorem optNew_clip (blk g g' : Nat) (x : List Nat) : optNew .clip blk g x = optNew .clip blk g' x := rfl

/-- The gradient of the next element, as far as its update looks at it. -/
theorem optGrad_reads {q : Nat} (hr : r.ref = none) (hs : Sound t) (hn : t.noise = [])
    (hw : optFn r.fn ≠ .clip → WordAt t h ops .read (optGsa r.blk + 4 * r.done) q) :
    ∃ u g, Woken t u ∧ optGrad h ops t r = (u, none, g, none) ∧
      ∀ x, optNew (optFn r.fn) r.blk g x = optNew (optFn r.fn) r.blk (memRead t.mem q 4) x := by
  by_cases hf : optFn r.fn = .clip
  · refine ⟨t, 0, .refl t, by simp [optGrad, hf], fun x => ?_⟩
    rw [hf]
    exact optNew_clip _ _ _ _
  · have word : List.Forall₂ (WordAt t h ops .read) [optGsa r.blk + 4 * r.done] [q] := .cons (hw hf) .nil
    obtain ⟨u, woken, read⟩ := optRead_words (pas := [q]) (vas := [optGsa r.blk + 4 * r.done]) hs hn rfl
    refine ⟨u, _, woken, ?_, fun x => rfl⟩
    have behind := optBehind_words word
    simp only [List.map_cons, List.map_nil] at read
    simp only [optGrad, beq_eq_false_iff_ne.mpr hf, Bool.false_eq_true, if_false, optXlate_words hr word, List.map_cons, List.map_nil, behind,
      read, nth, List.getD_cons_zero]
end

/-! ## The elements of a stream -/

section
variable (f : OptFn) (blk : Nat) (m : Mem) (P : Nat → List Nat) (Q : Nat → Nat)

/-- Memory when the first elements have been updated; the words of element `i` have their homes at `P i`, its gradient at `Q i`. -/
def memAfter : Nat → Mem
  | 0 => m
  | i + 1 => wordsPut (memAfter i) (P i) (optNew f blk (memRead (memAfter i) (Q i) 4) ((P i).map fun pa => memRead (memAfter i) pa 4)).1
end

section
variable {h : HartId} {ops : List LongOp} {s : State} {r : OptRun} {P : Nat → List Nat} {Q : Nat → Nat} {n : Nat}
  (hr : r.ref = none) (hg : optGsrc r.blk = false) (hcnt : optCnt r.blk = n) (hs : Sound s) (hn : s.noise = [])
  (hw : ∀ i < n, List.Forall₂ (WordAt s h ops .readWrite) (optWords (optFn r.fn) r.ea r.eb i) (P i))
  (ht : ∀ i < n, ∀ pa ∈ P i, NoTable s pa) (hq : optFn r.fn ≠ .clip → ∀ i < n, WordAt s h ops .read (optGsa r.blk + 4 * i) (Q i))
include hr hg hcnt hs hn hw ht hq

/-- One action updates the next element. -/
theorem optAct_updates {i : Nat} {fl : BitVec 5} {t : State} (hi : i < n)
    (hk : KeptFor h { s with mem := memAfter (optFn r.fn) r.blk s.mem P Q i } t) :
    ∃ u fl', KeptFor h { s with mem := memAfter (optFn r.fn) r.blk s.mem P Q (i + 1) } u ∧
      optAct h ops t { r with done := i, fl := fl } = (u, { r with done := i + 1, fl := fl' }, none) := by
  have sound : Sound t := hk.sound hs
  obtain ⟨u, g, woken, grad, same⟩ := optGrad_reads (r := { r with done := i, fl := fl }) (q := Q i) hr sound (hk.noise.trans hn)
    fun hf => (hq hf i hi).kept hk
  have kept := hk.trans woken.kept
  obtain ⟨v, fl', put, elem⟩ := optElem_updates (r := { r with done := i, fl := fl }) (i := i) (g := g) hr (woken.sound sound)
    (kept.noise.trans hn) ((hw i hi).imp fun _ _ w => w.kept kept) fun pa hp => kept.noTable (ht i hi pa hp)
  have mem : u.mem = memAfter (optFn r.fn) r.blk s.mem P Q i := kept.mem
  rw [same, ← woken.mem, mem] at put
  refine ⟨v, fl', (kept.withMem _).trans put, ?_⟩
  have more : ¬ i = optCnt r.blk := by omega
  simp only [optAct, hg, Bool.false_eq_true, if_false, more, grad, elem]

/-- The loop updates every element, and ends. -/
theorem optLoop_updates {k i fuel : Nat} {fl : BitVec 5} {t : State} (hi : i + k = n) (hfuel : k < fuel)
    (hk : KeptFor h { s with mem := memAfter (optFn r.fn) r.blk s.mem P Q i } t) :
    ∃ u fl', KeptFor h { s with mem := memAfter (optFn r.fn) r.blk s.mem P Q n } u ∧
      optLoop h ops fuel t { r with done := i, fl := fl } = (u, { r with done := n, fl := fl' }, .done) := by
  induction k generalizing i fuel fl t with
  | zero =>
    obtain ⟨fuel, rfl⟩ : ∃ g, fuel = g + 1 := ⟨fuel - 1, by omega⟩
    obtain rfl : i = n := by omega
    exact ⟨t, fl, hk, by simp [optLoop, optAct, hg, hcnt]⟩
  | succ k ih =>
    obtain ⟨fuel, rfl⟩ : ∃ g, fuel = g + 1 := ⟨fuel - 1, by omega⟩
    obtain ⟨u, fl', kept, act⟩ := optAct_updates hr hg hcnt hs hn hw ht hq (i := i) (fl := fl) (by omega) hk
    obtain ⟨v, fl'', kept', loop⟩ := ih (i := i + 1) (fuel := fuel) (fl := fl') (by omega) (by omega) kept
    exact ⟨v, fl'', kept', by simp only [optLoop, act, loop]⟩
end

/-! ## What the words hold at the end -/

/-- The words at the two addresses do not meet. -/
def WordsApart (a b : Nat) : Prop := a + 4 ≤ b ∨ b + 4 ≤ a

theorem wordsPut_other {m : Mem} {b n : Nat} {pas : List Nat} (h : ∀ pa ∈ pas, b + n ≤ pa ∨ pa + 4 ≤ b) (vs : List Nat) :
    memRead (wordsPut m pas vs) b n = memRead m b n := by
  induction pas generalizing m vs with
  | nil => cases vs <;> rfl
  | cons pa pas ih =>
    cases vs with
    | nil => rfl
    | cons v vs =>
      rw [wordsPut, ih (fun p hp => h p (List.mem_cons_of_mem _ hp)), memRead_memWrite_other _ _ _ _ _ _ (h pa List.mem_cons_self)]

/-- Words that do not meet hold what is put there. -/
theorem wordsPut_same {m : Mem} {pas vs : List Nat} {j : Nat} (hp : pas.Pairwise WordsApart) (hl : vs.length = pas.length)
    (hj : j < pas.length) : memRead (wordsPut m pas vs) (pas.getD j 0) 4 = vs.getD j 0 % 2 ^ 32 := by
  induction pas generalizing m vs j with
  | nil => cases hj
  | cons pa pas ih =>
    obtain ⟨v, vs, rfl⟩ := List.exists_cons_of_length_eq_add_one hl
    obtain ⟨first, rest⟩ := List.pairwise_cons.mp hp
    cases j with
    | zero =>
      rw [wordsPut, List.getD_cons_zero, List.getD_cons_zero, wordsPut_other fun p hp => first p hp, memRead_memWrite_same, byte_pow]
    | succ j =>
      rw [wordsPut, List.getD_cons_succ, List.getD_cons_succ]
      exact ih rest (Nat.succ.inj hl) (Nat.lt_of_succ_lt_succ hj)

theorem optNew_length (f : OptFn) (blk g : Nat) (x : List Nat) : (optNew f blk g x).1.length = (optWords f 0 0 0).length := by
  cases f <;> rfl

/-- No word of the first `n` elements meets another of them, or a gradient. -/
structure Separate (f : OptFn) (n : Nat) (P : Nat → List Nat) (Q : Nat → Nat) : Prop where
  within : ∀ i < n, (P i).Pairwise WordsApart
  words : ∀ i < n, ∀ a ∈ P i, ∀ i' < n, i' ≠ i → ∀ b ∈ P i', WordsApart a b
  grads : f ≠ .clip → ∀ i < n, ∀ a ∈ P i, ∀ i' < n, WordsApart a (Q i')

section
variable {f : OptFn} {blk n : Nat} {m : Mem} {P : Nat → List Nat} {Q : Nat → Nat} (hd : Separate f n P Q)
include hd

/-- The words of the other elements, and the gradients, are as they were. -/
theorem memAfter_other {e i : Nat} (he : e ≤ n) (hi : i < n) (hei : e ≤ i) {a : Nat} (ha : a ∈ P i) :
    memRead (memAfter f blk m P Q e) a 4 = memRead m a 4 := by
  induction e with
  | zero => rfl
  | succ e ih =>
    rw [memAfter, wordsPut_other fun b hb => hd.words i hi a ha e (by omega) (by omega) b hb]
    exact ih (by omega) (by omega)

theorem memAfter_grad {e i : Nat} (hf : f ≠ .clip) (he : e ≤ n) (hi : i < n) :
    memRead (memAfter f blk m P Q e) (Q i) 4 = memRead m (Q i) 4 := by
  induction e with
  | zero => rfl
  | succ e ih =>
    rw [memAfter, wordsPut_other fun b hb => (hd.grads hf e (by omega) b hb i hi).symm]
    exact ih (by omega)

/-- The words of an element that has been updated are new, from the old words and the gradient. -/
theorem memAfter_new {e i j : Nat} (he : e ≤ n) (hi : i < e) (hl : ∀ i < n, (P i).length = (optWords f 0 0 0).length) (hj : j < (P i).length) :
    memRead (memAfter f blk m P Q e) ((P i).getD j 0) 4 =
      (optNew f blk (memRead m (Q i) 4) ((P i).map fun a => memRead m a 4)).1.getD j 0 % 2 ^ 32 := by
  induction e with
  | zero => cases hi
  | succ e ih =>
    rw [memAfter]
    by_cases hie : i = e
    · subst hie
      have old : ((P i).map fun a => memRead (memAfter f blk m P Q i) a 4) = (P i).map fun a => memRead m a 4 :=
        List.map_congr_left fun a ha => memAfter_other hd (by omega) (by omega) (le_refl i) ha
      have grad : optNew f blk (memRead (memAfter f blk m P Q i) (Q i) 4) = optNew f blk (memRead m (Q i) 4) := by
        by_cases hf : f = .clip
        · subst hf; exact funext fun x => optNew_clip _ _ _ x
        · rw [memAfter_grad hd hf (by omega) (by omega)]
      rw [wordsPut_same (hd.within i (by omega)) (by rw [optNew_length, hl i (by omega)]) hj, old, grad]
    · have member : (P i).getD j 0 ∈ P i := by rw [List.getD_eq_getElem _ _ hj]; exact List.getElem_mem hj
      rw [wordsPut_other fun b hb => hd.words i (by omega) _ member e (by omega) (by omega) b hb]
      exact ih (by omega) (by omega)
end

end Sys2Proof.Machine
end

section
/-! PROOF of O35, second part: a fused update issues, runs and ends (R309 to R311). -/

namespace Sys2Proof.Machine

open Sys2Proof.Claims

/-! ## A fused update issues (R309, R310) -/

theorem optFn_code (f : OptFn) : optFn f.code = f := by cases f <;> rfl

/-- What a row of R311 says of the function that it is, with the registers and addresses of its operands. -/
structure RowIs (r : OptRow) (f : OptFn) (la : La) (ec : EReg) (eb : Option EReg) (ea : EReg) (a b : Nat) : Prop where
  runs : ∀ s, exec r.instr s = optIssue f la ec eb ea s
  srcs : r.srcs = [eId ea] ++ (eb.map eId).toList ++ [eId ec]
  words : r.words = optWords f a b
  stream : r.stream = true ↔ f ≠ .clip
  new : ∀ blk g x, r.new blk g x = (optNew f blk g x).1
  aligned : ∀ blk, r.aligned ∧ (r.stream = true → optGsa blk % 4 = 0) → ∀ x ∈ optChecks f a b blk, x.1 % x.2 = 0
  named : ∀ blk, ∀ x ∈ optChecks f a b blk, x.1 ∈ r.words 0 ∨ r.stream = true ∧ x.1 = optGsa blk

theorem hyper_eq (blk i : Nat) : hyper blk i = optPar blk i := rfl

theorem adamw_new (blk g : Nat) (x : List Nat) : adamw blk g x = (optNew .adamw blk g x).1 := by
  simp only [adamw, hyper_eq, mul, fma, optNew, adamwStep, nth]

theorem sgdm_new (blk g : Nat) (x : List Nat) : sgdm blk g x = (optNew .sgdm blk g x).1 := by
  simp only [sgdm, hyper_eq, mul, fma, optNew, sgdmStep, nth]

theorem clip_new (blk g : Nat) (x : List Nat) : clip blk g x = (optNew .clip blk g x).1 := by
  simp only [clip, hyper_eq, mul, optNew, clipStep, clipFactor, nth, apply_ite Prod.fst]
  rfl

/-- Of the stream only the address of the gradients is checked. -/
theorem mem_gradCheck {blk : Nat} {x : Nat × Nat} (h : x ∈ if optGsrc blk then [] else [(optGsa blk, 4)]) : x = (optGsa blk, 4) := by
  split at h
  · cases h
  · exact List.mem_singleton.mp h

theorem rows_are {la : La} {ec eb ea : EReg} {a b : Nat} {r : OptRow} (h : r ∈ optRows la ec eb ea a b) :
    RowIs r .adamw la ec (some eb) ea a b ∨ RowIs r .sgdm la ec (some eb) ea a b ∨ RowIs r .clip la ec none ea a 0 := by
  simp only [optRows, List.mem_cons, List.not_mem_nil, or_false] at h
  rcases h with rfl | rfl | rfl
  · refine .inl ⟨fun s => rfl, rfl, rfl, by simp, adamw_new, fun blk ⟨⟨ha, hb⟩, hg⟩ x hx => ?_, fun blk x hx => ?_⟩
    · rcases List.mem_append.mp hx with hx | hx
      · rcases List.mem_pair.mp hx with rfl | rfl
        · exact ha
        · exact hb
      · rw [mem_gradCheck hx]; exact hg rfl
    · rcases List.mem_append.mp hx with hx | hx
      · rcases List.mem_pair.mp hx with rfl | rfl <;> simp
      · rw [mem_gradCheck hx]; exact .inr ⟨rfl, rfl⟩
  · refine .inr (.inl ⟨fun s => rfl, rfl, rfl, by simp, sgdm_new, fun blk ⟨⟨ha, hb⟩, hg⟩ x hx => ?_, fun blk x hx => ?_⟩)
    · rcases List.mem_append.mp hx with hx | hx
      · rcases List.mem_pair.mp hx with rfl | rfl
        · exact ha
        · exact hb
      · rw [mem_gradCheck hx]; exact hg rfl
    · rcases List.mem_append.mp hx with hx | hx
      · rcases List.mem_pair.mp hx with rfl | rfl <;> simp
      · rw [mem_gradCheck hx]; exact .inr ⟨rfl, rfl⟩
  · refine .inr (.inr ⟨fun s => rfl, rfl, rfl, by simp, clip_new, fun blk ⟨ha, _⟩ x hx => ?_, fun blk x hx => ?_⟩)
    · obtain rfl := List.mem_singleton.mp hx; exact ha
    · obtain rfl := List.mem_singleton.mp hx; simp

section
variable {s : State}

theorem readFilled_kept (rs : List RegId) (hk : kindOf s.cur = .mender) : KeptFor s.cur s (readFilled s rs) := by
  unfold readFilled
  split
  · cases hc : s.cur with
    | tile t i =>
      rw [hc, kindOf] at hk
      split at hk
      · cases hk
      · split at hk <;> cases hk
    | mender m i =>
      rw [modMe, hc]
      exact modHart_kept (f := fun x => { x with filled := x.filled.filter fun r => !rs.contains r }) _ fun _ => ⟨rfl, rfl⟩
  · exact .refl

theorem atHand_readFilled {va pa : Nat} {need : Need} {rs : List RegId} (hk : kindOf s.cur = .mender) (h : AtHand s va need pa) :
    AtHand (readFilled s rs) va need pa := by
  have kept := readFilled_kept rs hk
  obtain ⟨held, refused⟩ := h
  refine ⟨?_, by rw [me_readFilled_refused]; exact refused⟩
  rw [readFilled_cur, kept.ctx]
  exact heldIn_same held kept.ctxs kept.dies

/-- A block at hand is read whole. -/
theorem blockRead_hand {n pa : Nat} {need : Need} {va : Word} (k : Nat → Nat → State → Out) (hs : Sound s) (hn : s.noise = [])
    (h : AtHand s va.toNat need pa) (hal : va.toNat % n = 0) (ha : Alone s none pa n va) (holds : Bool) :
    blockRead holds n need va s k = k pa (memRead s.mem pa n) (wakeSlice s pa) := by
  have first : ahead s (hereAcc none pa n va) = [] := List.filter_eq_nil_iff.mpr fun o ho => by rw [ha o ho]; exact Bool.false_ne_true
  rw [blockRead, gAccess, if_neg (not_not.mpr hal), withPa_atHand _ h, inOrder_pass _ first, lineRead_sound hs hn]
  rfl

theorem physWrite_inner {pa n v : Nat} (hl : s.gLatent = []) (h0 : pa % 64 ≠ 0) (hn : n < 64) :
    SameButCaches { s with mem := memWrite s.mem pa n v } (physWrite s pa n v) := by
  have drop (t : State) (line : Nat) : SameButCaches t (dropLine t line) ∧ (dropLine t line).gLatent = t.gLatent := by
    unfold dropLine
    split <;> exact ⟨⟨rfl, rfl, fun _ => rfl⟩, rfl⟩
  obtain ⟨dropped, latent⟩ := drop { s with mem := memWrite s.mem pa n v } (pa / 64)
  simp only [physWrite, h0, false_and, if_false, ge_iff_le, Nat.not_le.mpr hn]
  generalize dropLine { s with mem := memWrite s.mem pa n v } (pa / 64) = t at *
  have woken : Woken t (wakeSlice (if isDevice pa then t else { t with hostHeld := insNat t.hostHeld (pa / 64) }) pa) := by
    split
    · exact wakeSlice_woken pa (latent.trans hl)
    · exact Woken.trans ⟨_, _, _, _, rfl⟩ (wakeSlice_woken pa (latent.trans hl))
  obtain ⟨_, _, _, _, e⟩ := woken
  rw [e]
  exact ⟨dropped.cur, dropped.mem, dropped.harts⟩

/-- Issuing an operation that writes no register completes its instruction. -/
theorem issueLong_completes {la lat : Nat} {o : LongOp} (ho : o.wbs = []) : ∃ s', issueLong 4 la lat o s = .next s' ∧
    (getHart s' s.cur).pc = (me s).pc + 4 ∧ (getHart s' s.cur).g = (me s).g ∧ s'.mem = s.mem := by
  refine ⟨_, issueLong_eq 4 la lat o s, ?_⟩
  simp [ho, realDests, complete, completeAs, me]
  rfl
end

/-- The word at hand, with nothing of the hart before it. -/
theorem wordAt_of {s : State} {need : Need} {va pa : Nat} (h : AtHand s va need pa) (hf : va < 2 ^ 64) (ha : Alone s none pa 4 (w64 va)) :
    WordAt s s.cur (me s).out need va pa := ⟨h.1, hf, ha⟩

/-- Where the words and the gradients of the elements have their homes. -/
structure Homes (s : State) (f : OptFn) (a b gsa n : Nat) (P : Nat → List Nat) (Q : Nat → Nat) : Prop where
  words : ∀ i < n, List.Forall₂ (WordAt s s.cur (me s).out .readWrite) (optWords f a b i) (P i)
  tables : ∀ i < n, ∀ pa ∈ P i, NoTable s pa
  grads : f ≠ .clip → ∀ i < n, WordAt s s.cur (me s).out .read (gsa + 4 * i) (Q i)

section
variable {s : State} {r : OptRow} {f : OptFn} {la : La} {ec ea : EReg} {eb : Option EReg} {a b pb blk n : Nat}
  {P : Nat → List Nat} {Q : Nat → Nat}

/-- The run of a fused update as it begins. -/
def firstRun (s : State) (f : OptFn) (ec : EReg) (a b pb blk : Nat) : OptRun :=
  ⟨f.code, (me s).pc, a, b, (re (me s) ec).toNat, pb, blk, 0, [], 0, 0, 0, none⟩

theorem heldIn_offset {d : Fin 4} {c va pa : Nat} {need : Need} {a : Holder} (h : HeldIn s d a c va need pa) : pa % 64 = va % 64 := by
  obtain ⟨x, e, -, -, -, -, -, rfl⟩ := h
  rw [page_lines, Nat.mod_mul]
  omega

theorem optWords_length (f : OptFn) (a b i : Nat) : (optWords f a b i).length = (optWords f 0 0 0).length := by
  cases f <;> rfl

/-- Words that are apart, as the statement says it of their numbers. -/
theorem separate_range {f : OptFn} {n k : Nat} {p : Nat → Nat → Nat} {Q : Nat → Nat}
    (hp : ∀ i < n, ∀ j < k, ∀ i' < n, ∀ j' < k, (i' = i ∧ j' = j) ∨ WordsApart (p i j) (p i' j'))
    (hq : f ≠ .clip → ∀ i < n, ∀ j < k, ∀ i' < n, WordsApart (p i j) (Q i')) :
    Separate f n (fun i => (List.range k).map (p i)) Q := by
  refine ⟨fun i hi => ?_, fun i hi a ha i' hi' hne b hb => ?_, fun hf i hi a ha i' hi' => ?_⟩
  · refine List.pairwise_map.mpr (List.pairwise_lt_range.imp_of_mem fun {j j'} hj hj' hlt => ?_)
    exact (hp i hi j (List.mem_range.mp hj) i hi j' (List.mem_range.mp hj')).resolve_left fun ⟨_, e⟩ => by omega
  · obtain ⟨j, hj, rfl⟩ := List.mem_map.mp ha
    obtain ⟨j', hj', rfl⟩ := List.mem_map.mp hb
    exact (hp i hi j (List.mem_range.mp hj) i' hi' j' (List.mem_range.mp hj')).resolve_left fun ⟨e, _⟩ => hne e
  · obtain ⟨j, hj, rfl⟩ := List.mem_map.mp ha
    exact hq hf i hi j (List.mem_range.mp hj) i' hi'

theorem optAddrs_pass {l : List (Nat × Nat)} (k : State → Out) (h0 : ∀ x ∈ l, x.1 % x.2 = 0)
    (hc : ∀ x ∈ l, epCanonical s (hartCtx s s.cur) (w64 x.1) = true) : optAddrs l s k = k s := by
  have aligned : (l.find? fun x => x.1 % x.2 != 0) = none := List.find?_eq_none.mpr fun x hx => by simp [h0 x hx]
  have canonical : (l.find? fun x => !epCanonical s (hartCtx s s.cur) (w64 x.1)) = none :=
    List.find?_eq_none.mpr fun x hx => by simp [hc x hx]
  simp only [optAddrs, aligned, canonical]

/-- An address at hand is canonical. -/
theorem epCanonical_hand {t : State} {va pa : Nat} {need : Need} (hc : t.ctxs = s.ctxs) (h : AtHand s va need pa) (hf : va < 2 ^ 64) :
    epCanonical t (hartCtx s s.cur) (w64 va) = true := by
  obtain ⟨⟨x, e, hctx, hcanon, -⟩, -⟩ := h
  have word : (w64 va).toNat = va := by rw [w64, BitVec.toNat_ofNat, Nat.mod_eq_of_lt hf]
  simp only [epCanonical, hc, hctx, word, hcanon]

/-- The checks of R309 to R311 pass. -/
theorem optIssue_goes (hrow : RowIs r f la ec eb ea a b) (ha : a = (re (me s) ea).toNat)
    (hb : (eb.map fun r => (re (me s) r).toNat).getD 0 = b) (h : OptReady r s ec pb blk n) :
    ∃ t, KeptFor s.cur s t ∧ (me t).out = (me s).out ∧ exec r.instr s = optGo la t (firstRun s f ec a b pb blk) := by
  have kept := readFilled_kept r.srcs h.mender
  obtain ⟨block, alone⟩ := h.block
  have woken := wakeSlice_woken (s := readFilled s r.srcs) pb (kept.sound h.sound).2
  have kept2 := kept.trans woken.kept
  have behind : Alone (readFilled s r.srcs) none pb 64 (re (me s) ec) := fun o ho => alone o (by rwa [me_readFilled_out] at ho)
  have same : me (wakeSlice (readFilled s r.srcs) pb) = me (readFilled s r.srcs) := by
    obtain ⟨_, _, _, _, e⟩ := woken
    rw [e]; rfl
  have checked : ∀ x ∈ optChecks f a b blk, epCanonical (wakeSlice (readFilled s r.srcs) pb)
      (hartCtx (wakeSlice (readFilled s r.srcs) pb) (wakeSlice (readFilled s r.srcs) pb).cur) (w64 x.1) = true := by
    intro x hx
    have pos : 0 < n := Nat.pos_of_ne_zero h.count.2
    rw [kept2.cur, kept2.ctx]
    rcases hrow.named blk x hx with hin | ⟨hst, he⟩
    · obtain ⟨pa, hand, -, -⟩ := h.words 0 pos _ hin
      exact epCanonical_hand kept2.ctxs hand (h.fits.1 0 pos _ hin)
    · obtain ⟨pa, hand, -⟩ := h.grads hst 0 pos
      rw [he]
      exact epCanonical_hand kept2.ctxs hand (Nat.mod_lt _ (by decide))
  have unreserved : optReserved blk = false := by
    obtain ⟨r1, r2⟩ := h.reserved
    simp [optReserved, khField, r1, r2]
  have stream : optGsrc blk = false := beq_eq_false_iff_ne.mpr (by rw [show blk / 2 ^ 32 % 2 = cut blk 32 1 from rfl, h.stream]; decide)
  have count : optCnt blk ≠ 0 := by rw [show optCnt blk = cut blk 0 32 from rfl, ← h.count.1]; exact h.count.2
  refine ⟨_, kept2, by rw [same, me_readFilled_out], ?_⟩
  rw [hrow.runs, optIssue, h.mender]
  show sources (_ ++ _ ++ _) s _ = _
  rw [← hrow.srcs, sources_pass _ h.full h.sources, roomForLong_pass _ (by rw [me_readFilled_out]; exact h.room)]
  simp only [re_readFilled]
  rw [blockRead_hand _ (kept.sound h.sound) (kept.noise.trans h.quiet) (atHand_readFilled h.mender block) h.blockAligned behind,
    readFilled_mem, ← h.value]
  simp only [unreserved, Bool.false_eq_true, if_false, optQueue, count, stream, and_false, or_self, Bool.not_false, if_true, ← ha, hb]
  rw [optAddrs_pass _ (hrow.aligned blk h.aligned) checked, same, firstRun]
  simp

/-- What a fused update leaves in memory: its elements are updated, and then its status is written. -/
theorem optGo_updates {t : State} (hg : optGsrc blk = false) (hcnt : optCnt blk = n) (hs : Sound s) (hn : s.noise = [])
    (hh : Homes s f a b (optGsa blk) n P Q) (hpb : pb % 64 = 0) (hk : KeptFor s.cur s t) (ho : (me t).out = (me s).out) :
    ∃ s', optGo la t (firstRun s f ec a b pb blk) = .next s' ∧ (getHart s' s.cur).pc = (me s).pc + 4 ∧ (getHart s' s.cur).g = (me s).g ∧
      s'.mem = memWrite (memAfter f blk s.mem P Q n) (pb + 56) 8 0 := by
  have fn : optFn (firstRun s f ec a b pb blk).fn = f := optFn_code f
  have start : KeptFor s.cur { s with mem := memAfter (optFn (firstRun s f ec a b pb blk).fn) blk s.mem P Q 0 } t := hk
  obtain ⟨u, fl, kept, loop⟩ := optLoop_updates (r := firstRun s f ec a b pb blk) (ops := (me s).out) (P := P) (Q := Q) (n := n) (k := n)
    (i := 0) (fuel := optFuel blk) (fl := 0) rfl hg hcnt hs hn (by rw [fn]; exact hh.words) hh.tables (by rw [fn]; exact hh.grads)
    (Nat.zero_add n) (by rw [optFuel, hcnt]; omega) start
  rw [fn] at kept
  have status : optStatus u u.cur { firstRun s f ec a b pb blk with done := n, fl := fl } false = physWrite u (pb + 56) 8 0 := by
    simp [optStatus, lineWrite, travel_quiet (kept.noise.trans hn), firstRun, b2n]
  have written := physWrite_inner (v := 0) (kept.sound hs).2 (show (pb + 56) % 64 ≠ 0 by omega) (by decide : 8 < 64)
  obtain ⟨s', issues, pc, g, mem⟩ := issueLong_completes (s := physWrite u (pb + 56) 8 0) (la := la.val) (lat := 16 + n)
    (o := { longOp [] with flags := fl, fp := true }) rfl
  have cur : (physWrite u (pb + 56) 8 0).cur = s.cur := written.cur.trans kept.cur
  refine ⟨s', ?_, ?_, ?_, ?_⟩
  · rw [optGo, hk.cur, ho]
    have run : ({ firstRun s f ec a b pb blk with done := 0, fl := 0 } : OptRun) = firstRun s f ec a b pb blk := rfl
    rw [run] at loop
    rw [show (firstRun s f ec a b pb blk).blk = blk from rfl, loop]
    show issueLong 4 la.val (16 + n) _ (optStatus u u.cur _ false) = _
    rw [status]
    exact issues
  · rw [← cur, pc, me, cur, written.harts]
    exact congrArg (· + 4) kept.pc
  · rw [← cur, g, me, cur, written.harts]
    exact kept.g
  · rw [mem, written.mem]
    show memWrite u.mem _ _ _ = _
    rw [kept.mem]
    rfl
end

section
variable {s : State} {r : OptRow} {f : OptFn} {la : La} {ec ea : EReg} {eb : Option EReg} {a b pb blk n : Nat}
  (hrow : RowIs r f la ec eb ea a b) (h : OptReady r s ec pb blk n)
include hrow h

/-- The words of an update that is ready have homes. -/
theorem optReady_homes : ∃ (p : Nat → Nat → Nat) (Q : Nat → Nat),
    (∀ i < n, ∀ j < (r.words 0).length, AtHand s ((r.words i).getD j 0) .readWrite (p i j)) ∧
    (r.stream = true → ∀ i < n, AtHand s (cut blk 64 64 + 4 * i) .read (Q i)) ∧
    Homes s f a b (optGsa blk) n (fun i => (List.range (r.words 0).length).map (p i)) Q := by
  have length (i : Nat) : (r.words i).length = (r.words 0).length := by
    rw [hrow.words]; exact (optWords_length f a b i).trans (optWords_length f a b 0).symm
  have each (i j : Nat) : ∃ pa, i < n → j < (r.words 0).length → AtHand s ((r.words i).getD j 0) .readWrite pa ∧ NoTable s pa ∧
      WordAt s s.cur (me s).out .readWrite ((r.words i).getD j 0) pa := by
    by_cases hij : i < n ∧ j < (r.words 0).length
    · obtain ⟨hi, hj⟩ := hij
      rw [← length i] at hj
      have member : (r.words i).getD j 0 ∈ r.words i := by rw [List.getD_eq_getElem _ _ hj]; exact List.getElem_mem hj
      obtain ⟨pa, hand, table, alone⟩ := h.words i hi _ member
      exact ⟨pa, fun _ _ => ⟨hand, table, wordAt_of hand (h.fits.1 i hi _ member) alone⟩⟩
    · exact ⟨0, fun hi hj => absurd ⟨hi, hj⟩ hij⟩
  have grad (i : Nat) : ∃ q, i < n → r.stream = true → AtHand s (cut blk 64 64 + 4 * i) .read q ∧
      WordAt s s.cur (me s).out .read (optGsa blk + 4 * i) q := by
    by_cases hi : i < n ∧ r.stream = true
    · obtain ⟨q, hand, alone⟩ := h.grads hi.2 i hi.1
      have fits : optGsa blk + 4 * n ≤ 2 ^ 64 := h.fits.2 hi.2
      exact ⟨q, fun _ _ => ⟨hand, wordAt_of hand (by omega) alone⟩⟩
    · exact ⟨0, fun h1 h2 => absurd ⟨h1, h2⟩ hi⟩
  choose p hp using each
  choose Q hQ using grad
  refine ⟨p, Q, fun i hi j hj => (hp i j hi hj).1, fun hst i hi => (hQ i hi hst).1, ⟨fun i hi => ?_, fun i hi pa hpa => ?_, fun hf i hi => ?_⟩⟩
  · rw [← hrow.words]
    refine List.forall₂_iff_get.mpr ⟨by simp [length i], fun j h1 h2 => ?_⟩
    have hj : j < (r.words 0).length := by rw [← length i]; exact h1
    have word := (hp i j hi hj).2.2
    rw [List.getD_eq_getElem _ _ h1] at word
    simpa using word
  · obtain ⟨j, hj, rfl⟩ := List.mem_map.mp hpa
    exact (hp i j hi (List.mem_range.mp hj)).2.1
  · exact (hQ i hi (hrow.stream.mpr hf)).2

/-- Every update of R311, on any number of elements. -/
theorem fused_completes (ha : a = (re (me s) ea).toNat) (hb : (eb.map fun r => (re (me s) r).toNat).getD 0 = b) :
    ∃ s', exec r.instr s = .next s' ∧ (getHart s' s.cur).pc = (me s).pc + 4 ∧ (getHart s' s.cur).g = (me s).g ∧
      memRead s'.mem (pb + 56) 8 = 0 ∧
      ∀ (p : Nat → Nat → Nat) (q : Nat → Nat),
        let k := (r.words 0).length
        (∀ i < n, ∀ j < k, AtHand s ((r.words i).getD j 0) .readWrite (p i j)) →
        (r.stream = true → ∀ i < n, AtHand s (cut blk 64 64 + 4 * i) .read (q i)) →
        (∀ i < n, ∀ j < k, (p i j + 4 ≤ pb + 56 ∨ pb + 64 ≤ p i j) ∧
          (∀ i' < n, ∀ j' < k, (i' = i ∧ j' = j) ∨ p i j + 4 ≤ p i' j' ∨ p i' j' + 4 ≤ p i j) ∧
          (r.stream = true → ∀ i' < n, p i j + 4 ≤ q i' ∨ q i' + 4 ≤ p i j)) →
          ∀ i < n, ∀ j < k, memRead s'.mem (p i j) 4 =
            (r.new blk (memRead s.mem (q i) 4) ((List.range k).map fun j => memRead s.mem (p i j) 4)).getD j 0 % 2 ^ 32 := by
  obtain ⟨p0, Q, hp0, hQ, homes⟩ := optReady_homes hrow h
  obtain ⟨t, kept, out, goes⟩ := optIssue_goes hrow ha hb h
  have stream : optGsrc blk = false := beq_eq_false_iff_ne.mpr (by rw [show blk / 2 ^ 32 % 2 = cut blk 32 1 from rfl, h.stream]; decide)
  have home : pb % 64 = 0 := (heldIn_offset h.block.1.1).trans h.blockAligned
  obtain ⟨s', go, pc, g, mem⟩ := optGo_updates (la := la) (ec := ec) stream h.count.1.symm h.sound h.quiet homes home kept out
  refine ⟨s', goes.trans go, pc, g, by rw [mem, memRead_memWrite_same]; rfl, fun p q hp hq hdis i hi j hj => ?_⟩
  have same {i j : Nat} (hi : i < n) (hj : j < (r.words 0).length) : p i j = p0 i j := heldIn_unique (hp i hi j hj).1 (hp0 i hi j hj).1
  have sameQ (hst : r.stream = true) {i : Nat} (hi : i < n) : q i = Q i := heldIn_unique (hq hst i hi).1 (hQ hst i hi).1
  have apart : Separate f n (fun i => (List.range (r.words 0).length).map (p0 i)) Q := separate_range (fun i hi j hj i' hi' j' hj' => by
    rw [← same hi hj, ← same hi' hj']; exact (hdis i hi j hj).2.1 i' hi' j' hj') fun hf i hi j hj i' hi' => by
    rw [← same hi hj, ← sameQ (hrow.stream.mpr hf) hi']; exact (hdis i hi j hj).2.2 (hrow.stream.mpr hf) i' hi'
  have new := memAfter_new (blk := blk) (m := s.mem) apart (le_refl n) hi (j := j)
    (fun i _ => by rw [List.length_map, List.length_range, hrow.words, optWords_length]) (by simpa using hj)
  have word : ((List.range (r.words 0).length).map (p0 i)).getD j 0 = p i j := by
    rw [List.getD_eq_getElem _ _ (by simpa using hj), List.getElem_map, List.getElem_range, same hi hj]
  have olds : ((List.range (r.words 0).length).map (p0 i)).map (fun a => memRead s.mem a 4) =
      (List.range (r.words 0).length).map fun j => memRead s.mem (p i j) 4 := by
    rw [List.map_map]
    exact List.map_congr_left fun j hj => by rw [same hi (List.mem_range.mp hj)]; rfl
  have grad (x : List Nat) : optNew f blk (memRead s.mem (Q i) 4) x = optNew f blk (memRead s.mem (q i) 4) x := by
    by_cases hf : f = .clip
    · subst hf; exact optNew_clip _ _ _ _
    · rw [sameQ (hrow.stream.mpr hf) hi]
  rw [word, olds, grad, ← hrow.new] at new
  rw [mem, memRead_memWrite_other _ _ _ _ _ _ (hdis i hi j hj).1]
  exact new
end

/-- Settles O35: a fused update that passes its checks (`optIssue_goes`) runs to its end (`optLoop_updates`, `optGo_updates`), and the memory
that it leaves holds the new words (`memAfter_new`). -/
theorem fusedUpdates : Obligations.FusedUpdates := by
  unfold Obligations.FusedUpdates
  intro la ec eb ea s r hr
  have runs : ∃ f eb' a b, RowIs r f la ec eb' ea a b ∧ a = (re (me s) ea).toNat ∧ (eb'.map fun r => (re (me s) r).toNat).getD 0 = b := by
    rcases rows_are hr with row | row | row
    · exact ⟨_, _, _, _, row, rfl, rfl⟩
    · exact ⟨_, _, _, _, row, rfl, rfl⟩
    · exact ⟨_, _, _, _, row, rfl, rfl⟩
  obtain ⟨f, eb', a, b, row, ha, hb⟩ := runs
  refine ⟨fun hk => ?_, fun hk => ?_, fun pb blk n h => fused_completes row h ha hb⟩
  · rw [row.runs, optIssue, hk]; rfl
  · rw [row.runs, optIssue]
    rcases hk with hk | hk <;> rw [hk] <;> rfl

end Sys2Proof.Machine
end

section
/-! PROOF of O59: every step answers a next state, one cycle later. `tick` alone moves the clock, so what is to be shown of each function of the
model from which a turn is made is that it leaves the clock (`AtCycle`), and that no outcome is a fault or a refusal (`GoesOn`). It has one
lemma for it, its name with `_clock`, in the order in which the model defines them; a change of tiles, harts or memory leaves the clock by
`rfl`, whatever it writes. -/

namespace Sys2Proof.Machine

set_option Elab.async false

/-- The state stands at cycle `now`. -/
def AtCycle (now : Nat) (s : State) : Prop := s.cycle = now

/-- The outcome is a next state, at cycle `now`. -/
def GoesOn (now : Nat) (r : Out) : Prop :=
  match r with
  | .next s => AtCycle now s
  | .fault _ | .refused _ => False

section
variable {now : Nat}

/-- A state whose clock is that of another; `rfl` shows the equation of a record update. -/
theorem keep_clock {s t} (hs : AtCycle now s) (h : t.cycle = s.cycle := by rfl) : AtCycle now t := h.trans hs

theorem setTile_clock {s t x} (hs : AtCycle now s) : AtCycle now (setTile s t x) := hs
theorem setMender_clock {s m x} (hs : AtCycle now s) : AtCycle now (setMender s m x) := hs

theorem ite_clock {c : Prop} [Decidable c] {s t : State} (hs : AtCycle now s) (ht : AtCycle now t) : AtCycle now (if c then s else t) := by
  split <;> assumption

theorem ite_goesOn {c : Prop} [Decidable c] {s t : Out} (hs : GoesOn now s) (ht : GoesOn now t) : GoesOn now (if c then s else t) := by
  split <;> assumption

theorem ite_fst_clock {α : Type} {c : Prop} [Decidable c] {p q : State × α} (hp : AtCycle now p.1) (hq : AtCycle now q.1) :
    AtCycle now (if c then p else q).1 := by
  split <;> assumption

/-- The state of a pair that `split` has named by the equation `e`. -/
theorem fst_clock {α : Type} {p : State × α} {s : State} {x : α} (hp : AtCycle now p.1) (e : p = (s, x)) : AtCycle now s := by
  subst e; exact hp

/-- A fold keeps the cycle that each of its steps keeps. -/
theorem foldl_clock {α : Type} {l : List α} {f : State → α → State} {s : State} (hs : AtCycle now s)
    (hf : ∀ s a, AtCycle now s → AtCycle now (f s a)) : AtCycle now (l.foldl f s) := by
  induction l generalizing s with
  | nil => exact hs
  | cons a l ih => exact ih (hf _ _ hs)

theorem foldl_fst_clock {α β : Type} {l : List α} {f : State × β → α → State × β} {p : State × β} (hs : AtCycle now p.1)
    (hf : ∀ p a, AtCycle now p.1 → AtCycle now (f p a).1) : AtCycle now (l.foldl f p).1 := by
  induction l generalizing p with
  | nil => exact hs
  | cons a l ih => exact ih (hf _ _ hs)

theorem modTile_clock {s t f} (hs : AtCycle now s) : AtCycle now (modTile s t f) :=
  setTile_clock hs

theorem setHart_clock {s h x} (hs : AtCycle now s) : AtCycle now (setHart s h x) := by
  unfold setHart
  split <;> exact hs

theorem modHart_clock {s h f} (hs : AtCycle now s) : AtCycle now (modHart s h f) := setHart_clock hs
theorem modMe_clock {s f} (hs : AtCycle now s) : AtCycle now (modMe s f) := modHart_clock hs

theorem emptyReg_clock {s h r} (hs : AtCycle now s) : AtCycle now (emptyReg s h r) := by
  unfold emptyReg
  split
  · exact modTile_clock hs
  · exact modTile_clock hs
  · exact modTile_clock hs
  · exact modHart_clock hs

theorem putReg_clock {s h w} (hs : AtCycle now s) : AtCycle now (putReg s h w) := by
  unfold putReg
  split
  · exact modTile_clock hs
  · exact modTile_clock hs
  · exact modTile_clock hs
  · exact modHart_clock hs

theorem countErr_clock {s d f} (hs : AtCycle now s) : AtCycle now (countErr s d f) := hs
theorem countCell_clock {s d unc} (hs : AtCycle now s) : AtCycle now (countCell s d unc) := countErr_clock hs

/-! ## The shared operations -/

theorem completeAs_clock {st s h next} (hs : AtCycle now s) : AtCycle now (completeAs st s h next) := modHart_clock hs
theorem complete_clock {s h next} (hs : AtCycle now s) : AtCycle now (complete s h next) := completeAs_clock hs
theorem goto_clock {next s} (hs : AtCycle now s) : GoesOn now (goto next s) := complete_clock hs
theorem done_clock {len s} (hs : AtCycle now s) : GoesOn now (done len s) := goto_clock hs
theorem parkHart_clock {s h r} (hs : AtCycle now s) : AtCycle now (parkHart s h r) := modHart_clock hs
theorem park_clock {r s} (hs : AtCycle now s) : GoesOn now (park r s) := parkHart_clock hs
theorem hold_clock {w s} (hs : AtCycle now s) : GoesOn now (hold w s) := park_clock hs
theorem tileReport_clock {s t kind cause slot pc val d0 d1} (hs : AtCycle now s) :
    AtCycle now (tileReport s t kind cause slot pc val d0 d1) :=
  hs
theorem unitReport_clock {s d c kind cause pc val d0 d1} (hs : AtCycle now s) : AtCycle now (unitReport s d c kind cause pc val d0 d1) := hs
theorem hartReport_clock {s h kind cause pc val d0 d1} (hs : AtCycle now s) : AtCycle now (hartReport s h kind cause pc val d0 d1) := hs
theorem poisonReportAt_clock {s h pc space ea} (hs : AtCycle now s) : AtCycle now (poisonReportAt s h pc space ea) := hartReport_clock hs
theorem poisonReport_clock {s h space ea} (hs : AtCycle now s) : AtCycle now (poisonReport s h space ea) := poisonReportAt_clock hs
theorem notePoisonRead_clock {fetch s h space ea} (hs : AtCycle now s) : AtCycle now (notePoisonRead fetch s h space ea) := hs
theorem nextFree_clock {s} (hs : AtCycle now s) : AtCycle now (nextFree s).1 := hs
theorem cellReport_clock {s h val} (hs : AtCycle now s) : AtCycle now (cellReport s h val) := hartReport_clock (nextFree_clock hs)

theorem flawSeen_clock {s h f val} (hs : AtCycle now s) : AtCycle now (flawSeen s h f val) := by
  unfold flawSeen
  split <;> exact hs

theorem noteCell_clock {s h c f val} (hs : AtCycle now s) : AtCycle now (noteCell s h c f val) := ite_clock hs (ite_clock hs hs)

theorem readCell_clock {s h r} (hs : AtCycle now s) : AtCycle now (readCell s h r) := by
  unfold readCell
  split
  · exact hs
  · exact noteCell_clock (ite_clock hs (modHart_clock hs))

theorem findCell_clock {s h c f} (hs : AtCycle now s) : AtCycle now (findCell s h c f) := by
  unfold findCell
  extract_lets
  split
  · exact countCell_clock (modHart_clock hs)
  · exact countCell_clock (modHart_clock hs)
  · exact modHart_clock hs

theorem commitNote_clock {s n} (hs : AtCycle now s) : AtCycle now (commitNote s n) := by
  unfold commitNote
  extract_lets s1
  have h1 : AtCycle now s1 := by unfold s1; split; exacts [findCell_clock hs, hs]
  split <;> exact h1

theorem commitNotes_clock {s l} (hs : AtCycle now s) : AtCycle now (commitNotes s l) := foldl_clock hs fun _ _ h1 => commitNote_clock h1

theorem readEntry_clock {s h f} (hs : AtCycle now s) : AtCycle now (readEntry s h f).1 := by
  unfold readEntry
  split
  · exact hs
  · exact flawSeen_clock (nextFree_clock hs)

theorem readCells_clock {s h rs} (hs : AtCycle now s) : AtCycle now (readCells s h rs) :=
  ite_clock hs (foldl_clock hs fun _ _ h1 => readCell_clock h1)

theorem endSequencer_clock {s h} (hs : AtCycle now s) : AtCycle now (endSequencer s h) := by
  unfold endSequencer
  extract_lets
  split
  · exact modHart_clock (modHart_clock hs)
  · exact modHart_clock hs

theorem posterGoesOn_clock {s p} (hs : AtCycle now s) : AtCycle now (posterGoesOn s p) := by
  unfold posterGoesOn
  split
  · exact hs
  · split
    · exact endSequencer_clock hs
    · exact ite_clock (complete_clock hs) hs
    · exact hs

theorem mailFilled_clock {s t} (hs : AtCycle now s) : AtCycle now (mailFilled s t) :=
  ite_clock hs (foldl_clock hs fun _ _ h1 => ite_clock (parkHart_clock (modTile_clock h1)) h1)
theorem mailPost_clock {s t p} (hs : AtCycle now s) : AtCycle now (mailPost s t p) :=
  ite_clock (mailFilled_clock (posterGoesOn_clock (setTile_clock hs))) (setTile_clock hs)

theorem mailRefill_clock {s t} (hs : AtCycle now s) : AtCycle now (mailRefill s t) := by
  unfold mailRefill
  extract_lets
  split
  · exact ite_clock (mailFilled_clock (posterGoesOn_clock (setTile_clock hs))) hs
  · exact hs

theorem freshId_clock {s} (hs : AtCycle now s) : AtCycle now (freshId s).1 := hs

theorem sequencerFault_clock {s t h e cause val} (hs : AtCycle now s) : AtCycle now (sequencerFault s t h e cause val) := by
  unfold sequencerFault
  extract_lets _ s1 _
  have h1 : AtCycle now s1 := by
    unfold s1
    split
    · exact ite_clock (modHart_clock hs) (hartReport_clock hs)
    · exact hartReport_clock hs
  exact mailPost_clock (modHart_clock (freshId_clock h1))

theorem takeTrap_clock {s h cause val} (hs : AtCycle now s) : AtCycle now (takeTrap s h cause val) := by
  unfold takeTrap
  split
  · exact ite_clock (ite_clock (setHart_clock hs) (hartReport_clock (setHart_clock hs))) (sequencerFault_clock hs)
  · exact hartReport_clock (setHart_clock hs)

theorem trapOn_clock {s h cause val} (hs : AtCycle now s) : AtCycle now (trapOn s h cause val) :=
  ite_clock (takeTrap_clock hs) (parkHart_clock hs)
theorem trap_clock {cause val s} (hs : AtCycle now s) : GoesOn now (trap cause val s) := trapOn_clock hs
theorem illegal_clock {s} (hs : AtCycle now s) : GoesOn now (illegal s) := trap_clock hs
theorem trapReturn_clock {s} (hs : AtCycle now s) : GoesOn now (trapReturn s) :=
  ite_goesOn (modMe_clock (modMe_clock hs)) (illegal_clock hs)
theorem inSet_clock {ok s k} (hs : AtCycle now s) (hk : ∀ t, AtCycle now t → GoesOn now (k t)) : GoesOn now (inSet ok s k) :=
  ite_goesOn (hk _ hs) (trap_clock hs)
theorem supOnly_clock {s k} (hs : AtCycle now s) (hk : ∀ t, AtCycle now t → GoesOn now (k t)) : GoesOn now (supOnly s k) :=
  ite_goesOn (hk _ hs) (trap_clock hs)

theorem acquire_clock {s h} (hs : AtCycle now s) : AtCycle now (acquire s h) := by
  unfold acquire
  split <;> exact hs

theorem readFilled_clock {s rs} (hs : AtCycle now s) : AtCycle now (readFilled s rs) := ite_clock (acquire_clock (modMe_clock hs)) hs

theorem sources_clock {rs s k} (hs : AtCycle now s) (hk : ∀ t, AtCycle now t → GoesOn now (k t)) : GoesOn now (sources rs s k) := by
  unfold sources
  split
  · exact park_clock hs
  · exact hk _ (readCells_clock (readFilled_clock hs))

theorem dests_clock {rs s k} (hs : AtCycle now s) (hk : ∀ t, AtCycle now t → GoesOn now (k t)) : GoesOn now (dests rs s k) := by
  unfold dests
  split
  · exact trap_clock hs
  · exact hk _ hs

theorem drained_clock {s k} (hs : AtCycle now s) (hk : ∀ t, AtCycle now t → GoesOn now (k t)) : GoesOn now (drained s k) :=
  ite_goesOn (hk _ hs) (park_clock hs)
theorem acked_clock {s k} (hs : AtCycle now s) (hk : ∀ t, AtCycle now t → GoesOn now (k t)) : GoesOn now (acked s k) :=
  ite_goesOn (park_clock hs) (hk _ hs)
theorem heldDrained_clock {s k} (hs : AtCycle now s) (hk : ∀ t, AtCycle now t → GoesOn now (k t)) : GoesOn now (heldDrained s k) :=
  ite_goesOn (hk _ hs) (hold_clock hs)
theorem heldAcked_clock {s k} (hs : AtCycle now s) (hk : ∀ t, AtCycle now t → GoesOn now (k t)) : GoesOn now (heldAcked s k) :=
  ite_goesOn (hold_clock hs) (hk _ hs)
theorem roomForLong_clock {s k} (hs : AtCycle now s) (hk : ∀ t, AtCycle now t → GoesOn now (k t)) : GoesOn now (roomForLong s k) :=
  ite_goesOn (hk _ hs) (park_clock hs)

theorem writeBack_clock {s h o} (hs : AtCycle now s) : AtCycle now (writeBack s h o) := by
  unfold writeBack
  extract_lets
  split
  · extract_lets s1
    have h1 : AtCycle now s1 := foldl_clock (modHart_clock (foldl_clock hs fun _ _ h2 => putReg_clock h2)) fun _ _ h3 => modTile_clock h3
    exact foldl_clock h1 fun _ _ h5 => modTile_clock h5
  · exact modHart_clock (foldl_clock hs fun _ _ h1 => putReg_clock h1)

theorem finished_clock {lb s k} (hs : AtCycle now s) (hk : ∀ t, AtCycle now t → GoesOn now (k t)) : GoesOn now (finished lb s k) :=
  ite_goesOn (hk _ hs) (park_clock hs)
theorem inOrder_clock {holds a s k} (hs : AtCycle now s) (hk : ∀ t, AtCycle now t → GoesOn now (k t)) : GoesOn now (inOrder holds a s k) :=
  ite_goesOn (hk _ hs) (ite_goesOn (hold_clock hs) (park_clock hs))
theorem issueLong_clock {len la lat o s} (hs : AtCycle now s) : GoesOn now (issueLong len la lat o s) :=
  done_clock (modMe_clock (foldl_clock hs fun _ _ h1 => emptyReg_clock h1))
theorem issueAwait_clock {len la a s} (hs : AtCycle now s) : GoesOn now (issueAwait len la a s) := done_clock (modMe_clock hs)

theorem fenceGoesOn_clock {s h} (hs : AtCycle now s) : AtCycle now (fenceGoesOn s h) := by
  unfold fenceGoesOn
  split
  · exact ite_clock (complete_clock (acquire_clock hs)) hs
  · exact hs

theorem awaitDone_clock {s h a} (hs : AtCycle now s) : AtCycle now (awaitDone s h a) := fenceGoesOn_clock (modHart_clock hs)

/-! ## Translation -/

theorem dropLine_clock {s line} (hs : AtCycle now s) : AtCycle now (dropLine s line) := ite_clock hs hs

theorem findError_clock {s line} (hs : AtCycle now s) : AtCycle now (findError s line) := by
  unfold findError
  extract_lets
  split
  · exact hs
  · exact ite_clock (ite_clock hs (countErr_clock hs)) (countErr_clock hs)

theorem wakeSlice_clock {s pa} (hs : AtCycle now s) : AtCycle now (wakeSlice s pa) := ite_clock hs (findError_clock hs)
theorem noteEnable_clock {s pa} (hs : AtCycle now s) : AtCycle now (noteEnable s pa) := ite_clock (setMender_clock hs) hs

theorem slotEnds_clock {s h} (hs : AtCycle now s) : AtCycle now (slotEnds s h) := by
  unfold slotEnds
  split <;> exact hs

theorem endWait_clock {s pa who} (hs : AtCycle now s) : AtCycle now (endWait s pa who) := by
  unfold endWait
  split
  · exact ite_clock (slotEnds_clock hs) (ite_clock (parkHart_clock hs) hs)
  · exact hs

theorem noteDisable_clock {s pa} (hs : AtCycle now s) : AtCycle now (noteDisable s pa) :=
  foldl_clock (foldl_clock hs fun _ _ h1 => endWait_clock h1) fun _ _ h2 => setMender_clock h2

theorem physWrite_clock {s pa n v} (hs : AtCycle now s) : AtCycle now (physWrite s pa n v) := by
  unfold physWrite
  extract_lets _ _ _ _ s1 s2 _
  have h1 : AtCycle now s1 := dropLine_clock hs
  have h2 : AtCycle now s2 := ite_clock (noteEnable_clock h1) (ite_clock (noteDisable_clock h1) h1)
  exact wakeSlice_clock (ite_clock (ite_clock h2 h2) (ite_clock h2 h2))

theorem travel_clock {s} (hs : AtCycle now s) : AtCycle now (travel s).1 := by
  unfold travel
  split <;> exact hs

theorem travelAll_clock {n s} (hs : AtCycle now s) : AtCycle now (travelAll n s).1 := by
  induction n generalizing s with
  | zero => exact hs
  | succ n ih =>
    unfold travelAll
    split
    · exact ih (fst_clock (travel_clock hs) ‹_›)
    · exact fst_clock (travel_clock hs) ‹_›

theorem tlbPut_clock {s d e} (hs : AtCycle now s) : AtCycle now (tlbPut s d e) := ite_clock hs hs
theorem walkBy_clock {s d cid c va} (hs : AtCycle now s) : AtCycle now (walkBy s d cid c va).1 :=
  ite_fst_clock hs (travelAll_clock (foldl_clock hs fun _ _ h1 => wakeSlice_clock h1))
theorem tlbFill_clock {s d hsl e} (hs : AtCycle now s) : AtCycle now (tlbFill s d hsl e) := foldl_clock hs fun _ _ h1 => tlbPut_clock h1

theorem walkAccess_clock {s d hsl cid c va n} (hs : AtCycle now s) : AtCycle now (walkAccess s d hsl cid c va n).1 := by
  unfold walkAccess
  split
  · exact fst_clock (walkBy_clock hs) ‹_›
  · exact keep_clock (fst_clock (walkBy_clock hs) ‹_›)
  next s1 _ _ e =>
    have h1 : AtCycle now s1 := fst_clock (walkBy_clock hs) e
    exact ite_fst_clock h1 (tlbFill_clock (ite_clock h1 (physWrite_clock h1)))

theorem walkQuiet_clock {s d hsl cid c va} (hs : AtCycle now s) : AtCycle now (walkQuiet s d hsl cid c va).1 := by
  unfold walkQuiet
  split
  next s1 _ _ e =>
    have h1 : AtCycle now s1 := fst_clock (walkBy_clock hs) e
    exact ite_clock (tlbFill_clock h1) h1
  · exact fst_clock (walkBy_clock hs) ‹_›

theorem xlate_clock {s d hsl cid va n ref} (hs : AtCycle now s) : AtCycle now (xlate s d hsl cid va n ref).1 := by
  unfold xlate
  split
  · exact hs
  · refine ite_fst_clock hs <| ite_fst_clock hs ?_
    split
    · exact ite_fst_clock hs (ite_fst_clock (walkAccess_clock hs) (ite_clock hs (tlbFill_clock hs)))
    · exact walkAccess_clock hs

theorem xlateHart_clock {s h va n} (hs : AtCycle now s) : AtCycle now (xlateHart s h va n).1 := xlate_clock hs

theorem withPa_clock {base va n s k} (hs : AtCycle now s) (hk : ∀ x t, AtCycle now t → GoesOn now (k x t)) :
    GoesOn now (withPa base va n s k) := by
  unfold withPa
  split
  · exact hk _ _ (fst_clock (xlateHart_clock hs) ‹_›)
  · exact park_clock (fst_clock (xlateHart_clock hs) ‹_›)
  all_goals exact trap_clock (fst_clock (xlateHart_clock hs) ‹_›)

theorem gAccess_clock {n need va s k} (hs : AtCycle now s) (hk : ∀ x t, AtCycle now t → GoesOn now (k x t)) :
    GoesOn now (gAccess n need va s k) :=
  ite_goesOn (trap_clock hs) (withPa_clock hs hk)

/-! ## The homes of memory -/

theorem meetFlaws_clock {s t x a n} (hs : AtCycle now s) : AtCycle now (meetFlaws s t x a n) :=
  ite_clock hs (foldl_clock (setTile_clock hs) fun _ _ h2 =>
    countCell_clock h2)

theorem countFlaws_clock {s d l hit} (hs : AtCycle now s) : AtCycle now (countFlaws s d l hit) :=
  foldl_clock hs fun _ _ h1 => countCell_clock h1
theorem gFill_clock {s pa} (hs : AtCycle now s) : AtCycle now (gFill s pa) := hs
theorem gDrain_clock {s pa} (hs : AtCycle now s) : AtCycle now (gDrain s pa) := hs

theorem feDeliver_clock {s r v} (hs : AtCycle now s) : AtCycle now (feDeliver s r v) := by
  unfold feDeliver
  split
  · exact acquire_clock (modHart_clock hs)
  · exact acquire_clock (modHart_clock hs)
  · exact hs

theorem tileServe_clock {s t r} (hs : AtCycle now s) : AtCycle now (tileServe s t r) := by
  unfold tileServe
  extract_lets s1 _ _ _ s2 _
  have h1 : AtCycle now s1 := ite_clock hs (meetFlaws_clock hs)
  have h2 : AtCycle now s2 := feDeliver_clock (modTile_clock (ite_clock (poisonReport_clock h1) h1))
  exact complete_clock (commitNotes_clock (ite_clock (modTile_clock h2) h2))

theorem serveTile_clock {s t n} (hs : AtCycle now s) : AtCycle now (serveTile s t n) := by
  induction n generalizing s with
  | zero => exact hs
  | succ n ih =>
    unfold serveTile
    split
    · exact hs
    · exact ih (tileServe_clock (modTile_clock hs))

theorem serveTileAll_clock {s t} (hs : AtCycle now s) : AtCycle now (serveTileAll s t) := serveTile_clock hs

theorem sliceEffect_clock {s r} (hs : AtCycle now s) : AtCycle now (sliceEffect s r) := by
  unfold sliceEffect
  split
  · exact gDrain_clock hs
  · exact hs
  · exact gFill_clock (physWrite_clock hs)

theorem dropCached_clock {s h pa} (hs : AtCycle now s) : AtCycle now (dropCached s h pa) := by
  unfold dropCached
  split <;> exact hs

theorem taintLine_clock {s pa} (hs : AtCycle now s) : AtCycle now (taintLine s pa) := hs

theorem sliceServe_clock {s r} (hs : AtCycle now s) : AtCycle now (sliceServe s r) := by
  unfold sliceServe
  extract_lets _ _ _ s1 _
  have h1 : AtCycle now s1 := feDeliver_clock (dropCached_clock (sliceEffect_clock (ite_clock (poisonReport_clock (wakeSlice_clock hs)) (wakeSlice_clock hs))))
  exact complete_clock (commitNotes_clock (ite_clock (taintLine_clock h1) h1))

theorem serveSlices_clock {s n} (hs : AtCycle now s) : AtCycle now (serveSlices s n) := by
  induction n generalizing s with
  | zero => exact hs
  | succ n ih =>
    unfold serveSlices
    split
    · exact hs
    · exact ih (sliceServe_clock hs)

theorem serveSlicesAll_clock {s} (hs : AtCycle now s) : AtCycle now (serveSlicesAll s) := serveSlices_clock hs
theorem meetCached_clock {s t sp pa n} (hs : AtCycle now s) : AtCycle now (meetCached s t sp pa n) :=
  ite_clock hs (foldl_clock (setTile_clock hs) fun _ _ h1 => countCell_clock h1)
theorem lineRead_clock {s pa n} (hs : AtCycle now s) : AtCycle now (lineRead s pa n).1 := travel_clock (wakeSlice_clock hs)

theorem readLines_clock {s l} (hs : AtCycle now s) : AtCycle now (readLines s l).1 := by
  induction l generalizing s with
  | nil => exact hs
  | cons c r ih => exact ih (lineRead_clock hs (n := c.2))

theorem lineWrite_clock {h pc s pa va n v} (hs : AtCycle now s) : AtCycle now (lineWrite h pc s pa va n v) := by
  unfold lineWrite
  split
  · exact physWrite_clock (fst_clock (travel_clock hs) ‹_›)
  · exact poisonReportAt_clock (taintLine_clock (physWrite_clock (fst_clock (travel_clock hs) ‹_›)))
  · exact poisonReportAt_clock (fst_clock (travel_clock hs) ‹_›)

theorem codeRead_clock {s h pa n} (hs : AtCycle now s) : AtCycle now (codeRead s h pa n).1 := by
  unfold codeRead
  split
  · split
    · exact meetCached_clock hs
    · split
      next s1 _ _ e =>
      have h1 : AtCycle now s1 := fst_clock (lineRead_clock hs) e
      exact ite_fst_clock h1 (modTile_clock h1)
  · exact lineRead_clock hs

theorem cacheHit_clock {s t pa n} (hs : AtCycle now s) : AtCycle now (cacheHit s t pa n).1 := meetCached_clock hs

theorem sliceRead_clock {s h pa n} (hs : AtCycle now s) : AtCycle now (sliceRead s h pa n).1 := by
  unfold sliceRead
  extract_lets
  split
  · exact ite_fst_clock (wakeSlice_clock hs) (modTile_clock (wakeSlice_clock hs))
  · exact wakeSlice_clock hs

theorem cacheStore_clock {s h pa n v} (hs : AtCycle now s) : AtCycle now (cacheStore s h pa n v) := by
  unfold cacheStore
  split <;> exact hs

theorem hwFill_clock {s pa v} (hs : AtCycle now s) : AtCycle now (hwFill s pa v) :=
  ite_clock (serveSlicesAll_clock (gFill_clock (physWrite_clock hs))) (physWrite_clock hs)

/-! ## Operands of the units -/

theorem parkHeld_clock {t fe sp ea s} (hs : AtCycle now s) : GoesOn now (parkHeld t fe sp ea s) := by
  unfold parkHeld
  split
  · exact ite_goesOn (park_clock hs) (park_clock (freshId_clock hs))
  · exact park_clock (freshId_clock hs)

theorem rouse_clock {s t} (hs : AtCycle now s) : AtCycle now (rouse s t) := ite_clock (setTile_clock hs) hs

theorem mAccess_clock {n fe ea s k} (hs : AtCycle now s) (hk : ∀ x y t, AtCycle now t → GoesOn now (k x y t)) :
    GoesOn now (mAccess n fe ea s k) := by
  unfold mAccess
  refine ite_goesOn (trap_clock hs) ?_
  split
  · exact trap_clock hs
  · exact parkHeld_clock hs
  · exact park_clock hs
  · exact hk _ _ _ hs

theorem pairOrder_clock {holds u s k} (hs : AtCycle now s) (hk : ∀ t, AtCycle now t → GoesOn now (k t)) :
    GoesOn now (pairOrder holds u s k) :=
  ite_goesOn (hk _ hs) (ite_goesOn (hold_clock hs) (park_clock hs))
theorem awake_clock {t s k} (hs : AtCycle now s) (hk : ∀ t, AtCycle now t → GoesOn now (k t)) : GoesOn now (awake t s k) :=
  ite_goesOn (park_clock (rouse_clock hs)) (hk _ hs)
theorem storeAccess_clock {x n ea s k} (hs : AtCycle now s) (hk : ∀ t, AtCycle now t → GoesOn now (k t)) :
    GoesOn now (storeAccess x n ea s k) :=
  ite_goesOn (trap_clock hs) (ite_goesOn (trap_clock hs) (hk _ hs))

/-! ## The ALU forms -/

theorem alu2_clock {f len d a b s} (hs : AtCycle now s) : GoesOn now (alu2 f len d a b s) :=
  inSet_clock hs fun _ h1 => sources_clock h1 fun _ h2 => dests_clock h2 fun _ h3 => done_clock (modMe_clock h3)
theorem alu3_clock {f d a b s} (hs : AtCycle now s) : GoesOn now (alu3 f d a b s) :=
  inSet_clock hs fun _ h1 => sources_clock h1 fun _ h2 => dests_clock h2 fun _ h3 => done_clock (modMe_clock h3)
theorem alu1_clock {ok f len d a s} (hs : AtCycle now s) : GoesOn now (alu1 ok f len d a s) :=
  inSet_clock hs fun _ h1 => sources_clock h1 fun _ h2 => dests_clock h2 fun _ h3 => done_clock (modMe_clock h3)
theorem aluLong_clock {f lat la d a b s} (hs : AtCycle now s) : GoesOn now (aluLong f lat la d a b s) :=
  inSet_clock hs fun _ h1 => sources_clock h1 fun _ h2 => roomForLong_clock h2 fun _ h3 => dests_clock h3 fun _ h4 => issueLong_clock h4

theorem execLdk_clock {d imm s} (hs : AtCycle now s) : GoesOn now (execLdk d imm s) :=
  inSet_clock hs fun _ h1 => dests_clock h1 fun _ h2 => withPa_clock h2 fun _ _ h3 =>
    done_clock (modMe_clock (ite_clock (poisonReport_clock (codeRead_clock h3)) (codeRead_clock h3)))

theorem execSetx_clock {e a s} (hs : AtCycle now s) : GoesOn now (execSetx e a s) :=
  inSet_clock hs fun _ h1 => sources_clock h1 fun _ h2 => dests_clock h2 fun _ h3 => done_clock (modMe_clock h3)
theorem execGetx_clock {d e s} (hs : AtCycle now s) : GoesOn now (execGetx d e s) :=
  inSet_clock hs fun _ h1 => sources_clock h1 fun _ h2 => dests_clock h2 fun _ h3 => done_clock (modMe_clock h3)

/-! ## The flags and the long forms -/

theorem raise_clock {fl s} (hs : AtCycle now s) : AtCycle now (raise fl s) := modMe_clock hs
theorem putRnd_clock {r s} (hs : AtCycle now s) : AtCycle now (putRnd r s) := ite_clock hs (modTile_clock hs)

/-! ## Loads and stores -/

theorem cTileFull_clock {x ea s k} (hs : AtCycle now s) (hk : ∀ t, AtCycle now t → GoesOn now (k t)) : GoesOn now (cTileFull x ea s k) :=
  ite_goesOn (park_clock hs) (hk _ hs)

theorem storeLoad_clock {ok x len la ea a w d s} (hs : AtCycle now s) : GoesOn now (storeLoad ok x len la ea a w d s) :=
  inSet_clock hs fun _ h1 => sources_clock h1 fun _ h2 => roomForLong_clock h2 fun _ h3 => dests_clock h3 fun _ h4 => storeAccess_clock h4 fun _ h5 =>
    cTileFull_clock h5 fun _ h6 => issueLong_clock (ite_clock (poisonReport_clock (meetFlaws_clock h6)) (meetFlaws_clock h6))

theorem storeStore_clock {ok x len la ea a w d s} (hs : AtCycle now s) : GoesOn now (storeStore ok x len la ea a w d s) :=
  inSet_clock hs fun _ h1 => sources_clock h1 fun _ h2 => roomForLong_clock h2 fun _ h3 => storeAccess_clock h3 fun _ h4 => cTileFull_clock h4 fun _ h5 =>
    issueLong_clock (modTile_clock h5)

theorem execLdm_clock {la imm w a d s} (hs : AtCycle now s) : GoesOn now (execLdm la imm w a d s) :=
  inSet_clock hs fun _ h1 => sources_clock h1 fun _ h2 => roomForLong_clock h2 fun _ h3 => dests_clock h3 fun _ h4 => mAccess_clock h4 fun _ _ _ h5 =>
    issueLong_clock (ite_clock h5 (rouse_clock h5))

theorem execStm_clock {la imm w a d s} (hs : AtCycle now s) : GoesOn now (execStm la imm w a d s) :=
  inSet_clock hs fun _ h1 => sources_clock h1 fun _ h2 => roomForLong_clock h2 fun _ h3 => mAccess_clock h3 fun _ _ _ h4 =>
    issueLong_clock (ite_clock h4 (rouse_clock h4))

theorem execLdg_clock {la imm w a d s} (hs : AtCycle now s) : GoesOn now (execLdg la imm w a d s) :=
  inSet_clock hs fun _ h1 => sources_clock h1 fun _ h2 => roomForLong_clock h2 fun _ h3 => dests_clock h3 fun _ h4 => gAccess_clock h4 fun _ _ h5 =>
    issueLong_clock h5

theorem execStg_clock {la imm w a d s} (hs : AtCycle now s) : GoesOn now (execStg la imm w a d s) :=
  inSet_clock hs fun _ h1 => sources_clock h1 fun _ h2 => roomForLong_clock h2 fun _ h3 => gAccess_clock h3 fun _ _ h4 => issueLong_clock h4
theorem onLoom_clock {s h tile} (hs : AtCycle now s) : AtCycle now (onLoom s h tile).1 := ite_fst_clock hs (travel_clock hs)

theorem homeRead_clock {s h a} (hs : AtCycle now s) : AtCycle now (homeRead s h a).1 := by
  unfold homeRead
  split
  · exact meetFlaws_clock hs
  · exact sliceRead_clock hs

theorem loadAccess_clock {s h a w} (hs : AtCycle now s) : AtCycle now (loadAccess s h a w).1 := by
  unfold loadAccess
  refine ite_fst_clock (ite_clock (poisonReportAt_clock (cacheHit_clock hs)) (cacheHit_clock hs)) ?_
  split
  · exact poisonReportAt_clock (fst_clock (onLoom_clock hs) ‹_›)
  · exact poisonReportAt_clock (homeRead_clock (fst_clock (onLoom_clock hs) ‹_›))
  next s1 e =>
    have h1 : AtCycle now s1 := fst_clock (onLoom_clock hs) e
    exact ite_clock (poisonReportAt_clock (homeRead_clock h1)) (homeRead_clock h1)

theorem homeWrite_clock {s h a v} (hs : AtCycle now s) : AtCycle now (homeWrite s h a v) := by
  unfold homeWrite
  split
  · exact modTile_clock hs
  · exact cacheStore_clock (physWrite_clock hs)

theorem taintAt_clock {s a} (hs : AtCycle now s) : AtCycle now (taintAt s a) := by
  unfold taintAt
  split <;> exact hs

theorem storeAccessDone_clock {s h a v} (hs : AtCycle now s) : AtCycle now (storeAccessDone s h a v) := by
  unfold storeAccessDone
  split
  · exact homeWrite_clock (fst_clock (onLoom_clock hs) ‹_›)
  · exact poisonReportAt_clock (taintAt_clock (homeWrite_clock (fst_clock (onLoom_clock hs) ‹_›)))
  · exact poisonReportAt_clock (fst_clock (onLoom_clock hs) ‹_›)

/-! ## The full/empty forms -/

theorem lostRequest_clock {r s} (hs : AtCycle now s) : GoesOn now (lostRequest r s) :=
  complete_clock (feDeliver_clock (poisonReport_clock (ite_clock (dropCached_clock hs) hs)))

theorem sendRequest_clock {tile r s k} (hs : AtCycle now s) (hk : ∀ x t, AtCycle now t → GoesOn now (k x t)) :
    GoesOn now (sendRequest tile r s k) := by
  unfold sendRequest
  split
  · exact hk _ _ (fst_clock (onLoom_clock hs) ‹_›)
  · exact hk _ _ (fst_clock (onLoom_clock hs) ‹_›)
  · exact lostRequest_clock (fst_clock (onLoom_clock hs) ‹_›)

theorem tileRequest_clock {t r s} (hs : AtCycle now s) : GoesOn now (tileRequest t r s) :=
  ite_goesOn (serveTileAll_clock (tileServe_clock hs)) (ite_goesOn (park_clock (modTile_clock hs)) (park_clock hs))
theorem sliceRequest_clock {r s} (hs : AtCycle now s) : GoesOn now (sliceRequest r s) :=
  ite_goesOn (serveSlicesAll_clock (sliceServe_clock (wakeSlice_clock hs))) (ite_goesOn (park_clock (wakeSlice_clock hs)) (park_clock (wakeSlice_clock hs)))
theorem tileSet_clock {t off n v s} (hs : AtCycle now s) : AtCycle now (tileSet t off n v s) :=
  serveTileAll_clock (modTile_clock hs)
theorem meshHome_clock {t off n ea s k} (hs : AtCycle now s) (hk : ∀ t, AtCycle now t → GoesOn now (k t)) :
    GoesOn now (meshHome t off n ea s k) :=
  inOrder_clock hs fun _ h1 => pairOrder_clock h1 fun _ h2 => awake_clock h2 hk

theorem feLoad_clock {op sp imm z a d s} (hs : AtCycle now s) : GoesOn now (feLoad op sp imm z a d s) := by
  unfold feLoad
  refine inSet_clock hs fun _ h1 => sources_clock h1 fun _ h2 => dests_clock h2 fun _ h3 => ?_
  extract_lets
  split
  · exact storeAccess_clock h3 fun _ h4 => tileRequest_clock h4
  · exact mAccess_clock h3 fun _ _ _ h4 => meshHome_clock h4 fun _ h5 => sendRequest_clock h5 fun _ _ h6 => tileRequest_clock h6

theorem feFill_clock {sp imm z a d s} (hs : AtCycle now s) : GoesOn now (feFill sp imm z a d s) := by
  unfold feFill
  refine inSet_clock hs fun _ h1 => sources_clock h1 fun _ h2 => ?_
  extract_lets
  split
  · exact storeAccess_clock h2 fun _ h3 => acked_clock h3 fun _ h4 => tileRequest_clock h4
  · exact mAccess_clock h2 fun _ _ _ h3 => acked_clock h3 fun _ h4 => meshHome_clock h4 fun _ h5 => sendRequest_clock h5 fun _ _ h6 => tileRequest_clock h6

theorem released_clock {v s k} (hs : AtCycle now s) (hk : ∀ t, AtCycle now t → GoesOn now (k t)) : GoesOn now (released v s k) :=
  ite_goesOn (acked_clock hs hk) (hk _ hs)

theorem meshSet_clock {v t off n x ea s} (hs : AtCycle now s) : AtCycle now (meshSet v t off n x ea s) := by
  unfold meshSet
  split
  · exact tileSet_clock (fst_clock (onLoom_clock hs) ‹_›)
  next s1 e =>
    have h1 : AtCycle now s1 := fst_clock (onLoom_clock hs) e
    exact ite_clock (poisonReport_clock (modTile_clock (tileSet_clock h1))) (tileSet_clock h1)
  · exact poisonReport_clock (fst_clock (onLoom_clock hs) ‹_›)

theorem feSet_clock {v sp imm n a d s} (hs : AtCycle now s) : GoesOn now (feSet v sp imm n a d s) := by
  unfold feSet
  refine inSet_clock hs fun _ h1 => sources_clock h1 fun _ h2 => ?_
  extract_lets
  split
  · exact storeAccess_clock h2 fun _ h3 => released_clock h3 fun _ h4 => done_clock (tileSet_clock h4)
  · exact mAccess_clock h2 fun _ _ _ h3 => released_clock h3 fun _ h4 => meshHome_clock h4 fun _ h5 => done_clock (meshSet_clock h5)

theorem taggedAccess_clock {need ea s k} (hs : AtCycle now s) (hk : ∀ x t, AtCycle now t → GoesOn now (k x t)) :
    GoesOn now (taggedAccess need ea s k) :=
  gAccess_clock hs fun _ _ h1 => ite_goesOn (hk _ _ h1) (trap_clock h1)

theorem feLoadG_clock {op need imm a d s} (hs : AtCycle now s) : GoesOn now (feLoadG op need imm a d s) :=
  inSet_clock hs fun _ h1 => sources_clock h1 fun _ h2 => dests_clock h2 fun _ h3 => taggedAccess_clock h3 fun _ _ h4 => inOrder_clock h4 fun _ h5 =>
    sendRequest_clock h5 fun _ _ h6 => sliceRequest_clock h6

theorem execStfgF_clock {imm a d s} (hs : AtCycle now s) : GoesOn now (execStfgF imm a d s) :=
  inSet_clock hs fun _ h1 => sources_clock h1 fun _ h2 => taggedAccess_clock h2 fun _ _ h3 => acked_clock h3 fun _ h4 => inOrder_clock h4 fun _ h5 =>
    sendRequest_clock h5 fun _ _ h6 => sliceRequest_clock h6

theorem sliceSet_clock {v pa x ea s} (hs : AtCycle now s) : AtCycle now (sliceSet v pa x ea s) := by
  unfold sliceSet
  extract_lets set
  have hset u (hu : AtCycle now u) : AtCycle now (set u) := serveSlicesAll_clock (ite_clock (gFill_clock (physWrite_clock hu)) (gDrain_clock (wakeSlice_clock hu)))
  have h1 := onLoom_clock (h := s.cur) (tile := none) (dropCached_clock (h := s.cur) (pa := pa) hs)
  split
  next e => exact hset _ (fst_clock h1 e)
  next e => exact ite_clock (poisonReport_clock (taintLine_clock (hset _ (fst_clock h1 e)))) (hset _ (fst_clock h1 e))
  next e => exact poisonReport_clock (fst_clock h1 e)

theorem feSetG_clock {v imm a d s} (hs : AtCycle now s) : GoesOn now (feSetG v imm a d s) :=
  inSet_clock hs fun _ h1 => sources_clock h1 fun _ h2 => taggedAccess_clock h2 fun _ _ h3 => released_clock h3 fun _ h4 => inOrder_clock h4 fun _ h5 =>
    done_clock (sliceSet_clock h5)

/-! ## The atomics -/

theorem amoOrdered_clock {o s k} (hs : AtCycle now s) (hk : ∀ t, AtCycle now t → GoesOn now (k t)) : GoesOn now (amoOrdered o s k) :=
  ite_goesOn (heldDrained_clock hs hk) (hk _ hs)
theorem amoAcquire_clock {o s} (hs : AtCycle now s) : GoesOn now (amoAcquire o s) :=
  ite_goesOn (ite_goesOn (done_clock (acquire_clock hs)) (park_clock hs)) (done_clock hs)

theorem amoFinish_clock {o d r s} (hs : AtCycle now s) : GoesOn now (amoFinish o d r s) := by
  unfold amoFinish
  extract_lets _ s1
  have h1 : AtCycle now s1 := by unfold s1; split; exacts [modMe_clock (raise_clock hs), (raise_clock hs)]
  exact amoAcquire_clock h1

theorem amoHome_clock {sp bad o d ea old f write taint s} (hwrite : ∀ x t, AtCycle now t → AtCycle now (write x t)) (htaint : ∀ t, AtCycle now t → AtCycle now (taint t)) (hs : AtCycle now s) :
    GoesOn now (amoHome sp bad o d ea old f write taint s) := by
  unfold amoHome
  split
  · exact amoFinish_clock (poisonReport_clock hs)
  · exact ite_goesOn (amoFinish_clock (poisonReport_clock (htaint _ (hwrite _ _ hs)))) (amoFinish_clock (hwrite _ _ hs))

theorem amoTile_clock {t off n sp bad o d ea f s} (hs : AtCycle now s) : GoesOn now (amoTile t off n sp bad o d ea f s) := by
  unfold amoTile
  exact amoHome_clock (fun _ _ h1 => modTile_clock h1) (fun _ h3 => modTile_clock h3)
    (meetFlaws_clock hs)

theorem amoG_clock {pa n bad o d ea f s} (hs : AtCycle now s) : GoesOn now (amoG pa n bad o d ea f s) := by
  unfold amoG
  exact amoHome_clock (fun _ _ h1 => physWrite_clock h1) (fun _ h2 => taintLine_clock h2) (wakeSlice_clock hs)

theorem amoSend_clock {tile sp o d ea s k} (hs : AtCycle now s) (hk : ∀ x t, AtCycle now t → GoesOn now (k x t)) :
    GoesOn now (amoSend tile sp o d ea s k) := by
  unfold amoSend
  split
  · exact hk _ _ (fst_clock (onLoom_clock hs) ‹_›)
  · exact hk _ _ (fst_clock (onLoom_clock hs) ‹_›)
  · exact amoFinish_clock (poisonReport_clock (fst_clock (onLoom_clock hs) ‹_›))

theorem amo_clock {n sp o d srcs a f s} (hs : AtCycle now s) : GoesOn now (amo n sp o d srcs a f s) := by
  unfold amo
  refine inSet_clock hs fun _ h1 => sources_clock h1 fun _ h2 => dests_clock h2 fun _ h3 => amoOrdered_clock h3 fun _ h4 => ?_
  extract_lets
  split
  · exact storeAccess_clock h4 fun _ h5 => amoTile_clock h5
  · exact mAccess_clock h4 fun _ _ _ h5 => inOrder_clock h5 fun _ h6 => pairOrder_clock h6 fun _ h7 => awake_clock h7 fun _ h8 =>
      amoSend_clock h8 fun _ _ h9 => amoTile_clock h9
  · exact gAccess_clock h4 fun _ _ h5 => inOrder_clock h5 fun _ h6 => amoSend_clock (dropCached_clock h6) fun _ _ h7 => amoG_clock h7

theorem amoD_clock {f sp o d b a s} (hs : AtCycle now s) : GoesOn now (amoD f sp o d b a s) := amo_clock hs
theorem amoW_clock {f sp o d b a s} (hs : AtCycle now s) : GoesOn now (amoW f sp o d b a s) := amo_clock hs
theorem amoF_clock {f sp o d b a s} (hs : AtCycle now s) : GoesOn now (amoF f sp o d b a s) := amo_clock hs
theorem execFenceAcq_clock {s} (hs : AtCycle now s) : GoesOn now (execFenceAcq s) :=
  inSet_clock hs fun _ h1 => finished_clock h1 fun _ h2 => done_clock (acquire_clock h2)
theorem execFenceRel_clock {s} (hs : AtCycle now s) : GoesOn now (execFenceRel s) :=
  inSet_clock hs fun _ h1 => drained_clock h1 fun _ h2 => done_clock h2
theorem execFenceFull_clock {s} (hs : AtCycle now s) : GoesOn now (execFenceFull s) :=
  inSet_clock hs fun _ h1 => drained_clock h1 fun _ h2 => done_clock (acquire_clock h2)
theorem execFenceLb_clock {s} (hs : AtCycle now s) : GoesOn now (execFenceLb s) :=
  inSet_clock hs fun _ h1 => finished_clock h1 fun _ h2 => done_clock h2

/-! ## Branches and jumps -/

theorem branch_clock {f len a b off s} (hs : AtCycle now s) : GoesOn now (branch f len a b off s) :=
  inSet_clock hs fun _ h1 => sources_clock h1 fun _ h2 => ite_goesOn (goto_clock h2) (done_clock h2)
theorem branchBit_clock {v a bit off s} (hs : AtCycle now s) : GoesOn now (branchBit v a bit off s) :=
  inSet_clock hs fun _ h1 => sources_clock h1 fun _ h2 => ite_goesOn (goto_clock h2) (done_clock h2)
theorem link_clock {d len target s} (hs : AtCycle now s) : GoesOn now (link d len target s) := goto_clock (modMe_clock hs)
theorem execJal_clock {d off s} (hs : AtCycle now s) : GoesOn now (execJal d off s) :=
  inSet_clock hs fun _ h1 => dests_clock h1 fun _ h2 => link_clock h2
theorem jumpReg_clock {d a imm len s} (hs : AtCycle now s) : GoesOn now (jumpReg d a imm len s) :=
  inSet_clock hs fun _ h1 => sources_clock h1 fun _ h2 => dests_clock h2 fun _ h3 => ite_goesOn (trap_clock h3) (link_clock h3)
theorem execCJ_clock {off s} (hs : AtCycle now s) : GoesOn now (execCJ off s) := inSet_clock hs fun _ h1 => link_clock h1

/-! ## The work list, SPAWN and EXIT -/

theorem dropFills_clock {s t i} (hs : AtCycle now s) : AtCycle now (dropFills s t i) := by
  unfold dropFills
  extract_lets
  refine foldl_clock (modTile_clock hs) fun _ _ h2 => ?_
  split
  · exact awaitDone_clock h2
  · exact h2

theorem orphanCopies_clock {s t i} (hs : AtCycle now s) : AtCycle now (orphanCopies s t i) := modTile_clock hs
theorem freeSlot_clock {s t i} (hs : AtCycle now s) : AtCycle now (freeSlot s t i) :=
  dropFills_clock (modHart_clock (orphanCopies_clock hs))

theorem exitThread_clock {s} (hs : AtCycle now s) : GoesOn now (exitThread s) := by
  unfold exitThread
  refine inSet_clock hs fun _ h1 => drained_clock h1 fun _ h2 => ?_
  split
  · exact goto_clock (modMe_clock h2)
  · exact freeSlot_clock h2
  · exact done_clock h2

theorem yieldThread_clock {len s} (hs : AtCycle now s) : GoesOn now (yieldThread len s) :=
  inSet_clock hs fun _ h1 => done_clock (modMe_clock h1)
theorem clearReg_clock {len r s} (hs : AtCycle now s) : GoesOn now (clearReg len r s) :=
  inSet_clock hs fun _ h1 => dests_clock h1 fun _ h2 => done_clock (modMe_clock h2)
theorem execIsfull_clock {d r i s} (hs : AtCycle now s) : GoesOn now (execIsfull d r i s) :=
  inSet_clock hs fun _ h1 => dests_clock h1 fun _ h2 => done_clock (modMe_clock h2)
theorem execTid_clock {d s} (hs : AtCycle now s) : GoesOn now (execTid d s) :=
  inSet_clock hs fun _ h1 => dests_clock h1 fun _ h2 => done_clock (modMe_clock h2)

theorem execPutr_clock {la a b s} (hs : AtCycle now s) : GoesOn now (execPutr la a b s) := by
  unfold execPutr
  refine inSet_clock hs fun _ h1 => sources_clock h1 fun _ h2 => roomForLong_clock h2 fun _ h3 => ?_
  extract_lets
  split
  · refine ite_goesOn (trap_clock h3) <| acked_clock h3 fun _ h4 => pairOrder_clock h4 fun _ h5 => ite_goesOn (park_clock h5) ?_
    extract_lets
    split
    · exact issueLong_clock (poisonReport_clock (fst_clock (onLoom_clock h5) ‹_›))
    next s6 _ _ e =>
      have h6 : AtCycle now s6 := fst_clock (onLoom_clock h5) e
      exact issueAwait_clock (modTile_clock (freshId_clock (ite_clock (poisonReport_clock h6) h6)))
  · exact trap_clock h3

theorem spawnThread_clock {hashed d a b s} (hs : AtCycle now s) : GoesOn now (spawnThread hashed d a b s) := by
  unfold spawnThread
  refine inSet_clock hs fun _ h1 => sources_clock h1 fun _ h2 => dests_clock h2 fun _ h3 => ?_
  extract_lets
  refine ite_goesOn (trap_clock h3) <| ite_goesOn (trap_clock h3) <| ite_goesOn (trap_clock h3) <| ite_goesOn (trap_clock h3) <| acked_clock h3 fun _ h4 => ?_
  split
  · exact done_clock (modMe_clock (poisonReport_clock (fst_clock (onLoom_clock h4) ‹_›)))
  · exact park_clock (keep_clock (fst_clock (onLoom_clock h4) ‹_›))

theorem startChild_clock {s t i h} (hs : AtCycle now s) : AtCycle now (startChild s t i h) := modTile_clock hs

theorem execSpawnAnswer_clock {s} (hs : AtCycle now s) : GoesOn now (execSpawnAnswer s) := by
  unfold execSpawnAnswer
  split
  · split
    · split
      · refine ite_goesOn hs ?_
        extract_lets
        split
        · exact complete_clock (modHart_clock (commitNotes_clock (ite_clock (poisonReport_clock (startChild_clock hs)) (startChild_clock hs))))
        · exact ite_goesOn (trapOn_clock hs) (complete_clock (modHart_clock (commitNotes_clock hs)))
      · exact hs
    · exact hs
  · exact hs

theorem execWlpush_clock {d a b s} (hs : AtCycle now s) : GoesOn now (execWlpush d a b s) :=
  inSet_clock hs fun _ h1 => sources_clock h1 fun _ h2 => dests_clock h2 fun _ h3 => heldAcked_clock h3 fun _ h4 =>
    ite_goesOn (done_clock (modMe_clock (modTile_clock h4))) (done_clock (modMe_clock h4))

theorem execWlpop_clock {d a s} (hs : AtCycle now s) : GoesOn now (execWlpop d a s) := by
  unfold execWlpop
  refine inSet_clock hs fun _ h1 => dests_clock h1 fun _ h2 => ?_
  split
  · exact done_clock (acquire_clock (modMe_clock (readEntry_clock (modTile_clock h2))))
  · exact done_clock (modMe_clock h2)

theorem execWlcnt_clock {d s} (hs : AtCycle now s) : GoesOn now (execWlcnt d s) :=
  inSet_clock hs fun _ h1 => dests_clock h1 fun _ h2 => done_clock (modMe_clock h2)

/-! ## The copy engine -/

theorem copyIssue_clock {dir la n ec eb ea s} (hs : AtCycle now s) : GoesOn now (copyIssue dir la n ec eb ea s) := by
  unfold copyIssue
  extract_lets
  refine inSet_clock hs fun _ h1 => sources_clock h1 fun _ h2 => roomForLong_clock h2 fun _ h3 => ?_
  extract_lets
  split
  · exact trap_clock h3
  · exact issueAwait_clock (modTile_clock (freshId_clock h3))

theorem execCpyq_clock {s} (hs : AtCycle now s) : GoesOn now (execCpyq s) := inSet_clock hs fun _ h1 => done_clock (modMe_clock h1)

theorem execCpyx_clock {n s} (hs : AtCycle now s) : GoesOn now (execCpyx n s) := by
  unfold execCpyx
  exact inSet_clock hs fun _ h1 => sources_clock h1 fun _ h2 => done_clock (modTile_clock h2)

theorem xlateChunks_clock {s d os c need ref l} (hs : AtCycle now s) : AtCycle now (xlateChunks s d os c need ref l).1 := by
  induction l generalizing s with
  | nil => exact hs
  | cons x r ih =>
    unfold xlateChunks
    split
    next s1 pa e =>
      have h1 := ih (fst_clock (xlate_clock hs) e)
      split
      · exact fst_clock h1 ‹_›
      · exact h1
    next e => exact fst_clock (xlate_clock hs) e
    next e => exact fst_clock (xlate_clock hs) e

theorem readChunks_clock {s l} (hs : AtCycle now s) : AtCycle now (readChunks s l).1 := by
  induction l generalizing s with
  | nil => exact hs
  | cons c r ih => exact ih (lineRead_clock hs (n := c.2))

theorem writeChunks_clock {s i l ws} (hs : AtCycle now s) : AtCycle now (writeChunks s i l ws).1 := by
  induction l generalizing s i ws with
  | nil => exact hs
  | cons c r ih =>
    have h1 := travel_clock hs
    have h2 {a n v} := ite_clock (c := (travel s).2 == .lost) h1 (physWrite_clock h1 (pa := a) (n := n) (v := v))
    exact ih (ite_clock h2 h2)

theorem copyRead_clock {s d hsl ctx t c} (hs : AtCycle now s) : AtCycle now (copyRead s d hsl ctx t c).1 := by
  unfold copyRead
  refine ite_fst_clock (meetFlaws_clock hs) ?_
  split
  · exact readChunks_clock (fst_clock (xlateChunks_clock hs) ‹_›)
  · exact fst_clock (xlateChunks_clock hs) ‹_›
  · exact fst_clock (xlateChunks_clock hs) ‹_›

theorem sendRow_clock {s t u x f a b ws} (hs : AtCycle now s) : AtCycle now (sendRow s t u x f a b ws).1 := by
  induction f generalizing s a b ws with
  | zero => exact hs
  | succ f ih =>
    unfold sendRow
    refine ite_fst_clock hs ?_
    exact ih (ite_clock (onLoom_clock hs) (modTile_clock (onLoom_clock hs)))

theorem copyFill_clock {s t c wsl} (hs : AtCycle now s) : AtCycle now (copyFill s t c wsl).1 := by
  unfold copyFill
  extract_lets
  split
  · exact ite_fst_clock hs (ite_fst_clock hs (ite_clock (onLoom_clock hs) (modTile_clock (onLoom_clock hs))))
  · exact hs

theorem copyWrite_clock {s d hsl ctx t c wsl} (hs : AtCycle now s) : AtCycle now (copyWrite s d hsl ctx t c wsl).1 := by
  unfold copyWrite
  refine ite_fst_clock (ite_fst_clock (copyFill_clock hs) (sendRow_clock hs)) ?_
  extract_lets
  split
  · exact writeChunks_clock (fst_clock (xlateChunks_clock hs) ‹_›)
  · exact fst_clock (xlateChunks_clock hs) ‹_›
  · exact fst_clock (xlateChunks_clock hs) ‹_›

theorem copyRow_clock {s d hsl ctx t c} (hs : AtCycle now s) : AtCycle now (copyRow s d hsl ctx t c).1 := by
  unfold copyRow
  split
  · exact copyWrite_clock (fst_clock (copyRead_clock hs) ‹_›)
  · exact fst_clock (copyRead_clock hs) ‹_›

theorem putCopy_clock {s t c} (hs : AtCycle now s) : AtCycle now (putCopy s t c) := modTile_clock hs

theorem execCopyAccept_clock {s} (hs : AtCycle now s) : GoesOn now (execCopyAccept s) := by
  unfold execCopyAccept
  split
  · split
    · exact ite_goesOn (awaitDone_clock (modTile_clock hs)) hs
    · exact hs
  · exact hs

theorem queueBurst_clock {s k} (hs : AtCycle now s) : AtCycle now (queueBurst s k) := by
  unfold queueBurst
  split
  · refine ite_clock hs ?_
    extract_lets
    split
    next s1 _ e =>
    have h1 : AtCycle now s1 := fst_clock (copyRow_clock hs) e
    extract_lets
    split
    · exact unitReport_clock h1
    · exact unitReport_clock h1
    · exact h1
  · exact hs

theorem queuePost_clock {s k} (hs : AtCycle now s) : AtCycle now (queuePost s k) := by
  unfold queuePost
  split
  · exact ite_clock hs hs
  · exact hs

theorem copyNote_clock {s t c r} (hs : AtCycle now s) : AtCycle now (copyNote s t c r) := by
  unfold copyNote
  split <;> exact hs

theorem execCopyBurst_clock {s} (hs : AtCycle now s) : GoesOn now (execCopyBurst s) := by
  unfold execCopyBurst
  split
  · split
    · refine ite_goesOn hs ?_
      split
      · exact putCopy_clock hs
      · exact hs
      · exact copyNote_clock hs
      · split
        · exact rouse_clock hs
        · exact copyNote_clock (copyRow_clock hs)
    · exact hs
  · exact queueBurst_clock hs
  · exact hs

theorem execCopyResume_clock {s} (hs : AtCycle now s) : GoesOn now (execCopyResume s) := by
  unfold execCopyResume
  split
  · split
    · exact ite_goesOn (putCopy_clock hs) hs
    · exact hs
  · exact hs

theorem execCopyPost_clock {s} (hs : AtCycle now s) : GoesOn now (execCopyPost s) := by
  unfold execCopyPost
  split
  · split
    · exact ite_goesOn (mailPost_clock (modTile_clock hs)) hs
    · exact hs
  · exact queuePost_clock hs
  · exact hs

/-! ## The units -/

theorem blockRead_clock {holds n need va s k} (hs : AtCycle now s) (hk : ∀ x y t, AtCycle now t → GoesOn now (k x y t)) :
    GoesOn now (blockRead holds n need va s k) := by
  unfold blockRead
  refine gAccess_clock hs fun _ _ h1 => inOrder_clock h1 fun _ h2 => ?_
  split
  next s3 _ _ e =>
  have h3 : AtCycle now s3 := fst_clock (lineRead_clock h2) e
  exact hk _ _ _ (ite_clock (notePoisonRead_clock h3) h3)

theorem actFor_clock {x s} (hs : AtCycle now s) : AtCycle now (actFor x s) := hs

theorem unitXlate_clock {s d c va need} (hs : AtCycle now s) : AtCycle now (unitXlate s d c va need).1 := by
  unfold unitXlate
  split
  next s1 _ e =>
    have h1 : AtCycle now s1 := fst_clock (xlate_clock hs) e
    exact ite_clock h1 h1
  · exact xlate_clock hs

theorem unitForgets_clock {s d} (hs : AtCycle now s) : AtCycle now (unitForgets s d) := hs
theorem unitSettled_clock {s d} (hs : AtCycle now s) : AtCycle now (unitSettled s d) := ite_clock hs hs

theorem unitRead_clock {s d c va n need} (hs : AtCycle now s) : AtCycle now (unitRead s d c va n need).1 := by
  unfold unitRead
  split
  · split
    next s1 _ _ e =>
    have h1 : AtCycle now s1 := fst_clock (lineRead_clock (fst_clock (unitXlate_clock hs) ‹_›)) e
    exact h1
  · exact fst_clock (unitXlate_clock hs) ‹_›
  · exact fst_clock (unitXlate_clock hs) ‹_›

theorem unitChunks_clock {s d c need l} (hs : AtCycle now s) : AtCycle now (unitChunks s d c need l).1 := by
  induction l generalizing s with
  | nil => exact hs
  | cons x r ih =>
    unfold unitChunks
    split
    next e =>
      have h1 := ih (fst_clock (unitXlate_clock hs) e)
      split
      · exact fst_clock h1 ‹_›
      · exact h1
    next e => exact fst_clock (unitXlate_clock hs) e
    next e => exact fst_clock (unitXlate_clock hs) e

theorem unitReady_clock {s d c need l} (hs : AtCycle now s) : AtCycle now (unitReady s d c need l).1 := by
  induction l generalizing s with
  | nil => exact hs
  | cons va r ih =>
    unfold unitReady
    split
    next e => exact fst_clock (unitXlate_clock hs) e
    next e => exact ih (fst_clock (unitXlate_clock hs) e)

theorem writeDropped_clock {s d c writer cause block failing} (hs : AtCycle now s) :
    AtCycle now (writeDropped s d c writer cause block failing) :=
  unitReport_clock hs
theorem unitPoison_clock {s d c va} (hs : AtCycle now s) : AtCycle now (unitPoison s d c va) := unitReport_clock hs

theorem unitGet_clock {s d c va n} (hs : AtCycle now s) : AtCycle now (unitGet s d c va n).1 := by
  unfold unitGet
  split
  · exact fst_clock (unitRead_clock hs) ‹_›
  · exact unitPoison_clock (fst_clock (unitRead_clock hs) ‹_›)
  · exact nextFree_clock (fst_clock (unitRead_clock hs) ‹_›)

theorem unitPut_clock {s d c writer block va f} (hs : AtCycle now s) (hf : ∀ t x, AtCycle now t → AtCycle now (f t x)) :
    AtCycle now (unitPut s d c writer block va f) := by
  unfold unitPut
  split
  next s1 _ e =>
    have h1 : AtCycle now s1 := fst_clock (unitXlate_clock hs) e
    split
    · exact hf _ _ (fst_clock (travel_clock h1) ‹_›)
    · exact unitPoison_clock (taintLine_clock (hf _ _ (fst_clock (travel_clock h1) ‹_›)))
    · exact unitPoison_clock (fst_clock (travel_clock h1) ‹_›)
  · exact fst_clock (unitXlate_clock hs) ‹_›
  · exact writeDropped_clock (fst_clock (unitXlate_clock hs) ‹_›)

theorem unitBump_clock {s d c writer block va n} (hs : AtCycle now s) : AtCycle now (unitBump s d c writer block va n).1 := by
  unfold unitBump
  split
  · exact physWrite_clock (fst_clock (unitRead_clock hs) ‹_›)
  · exact writeDropped_clock (fst_clock (unitRead_clock hs) ‹_›)
  · exact fst_clock (unitRead_clock hs) ‹_›

/-! ## The vector forms -/

theorem vfp_clock {f t mode srcs k b a d s} (hs : AtCycle now s) : GoesOn now (vfp f t mode srcs k b a d s) :=
  inSet_clock hs fun _ h1 => sources_clock h1 fun _ h2 => dests_clock h2 fun _ h3 => done_clock (raise_clock (modMe_clock (putRnd_clock h3)))
theorem vbits_clock {w f srcs k b a d s} (hs : AtCycle now s) : GoesOn now (vbits w f srcs k b a d s) :=
  inSet_clock hs fun _ h1 => sources_clock h1 fun _ h2 => dests_clock h2 fun _ h3 => done_clock (modMe_clock h3)

theorem execVmax_clock {t k b a d s} (hs : AtCycle now s) : GoesOn now (execVmax t k b a d s) := by
  unfold execVmax
  exact vbits_clock hs

theorem execVmin_clock {t k b a d s} (hs : AtCycle now s) : GoesOn now (execVmin t k b a d s) := by
  unfold execVmin
  exact vbits_clock hs

theorem execVabs_clock {t k a d s} (hs : AtCycle now s) : GoesOn now (execVabs t k a d s) := by
  unfold execVabs
  exact vbits_clock hs

theorem execVneg_clock {t k a d s} (hs : AtCycle now s) : GoesOn now (execVneg t k a d s) := by
  unfold execVneg
  exact vbits_clock hs

theorem execVsel_clock {t k b a d s} (hs : AtCycle now s) : GoesOn now (execVsel t k b a d s) :=
  inSet_clock hs fun _ h1 => sources_clock h1 fun _ h2 => dests_clock h2 fun _ h3 => done_clock (modMe_clock h3)
theorem vcompare_clock {w p k b a kd s} (hs : AtCycle now s) : GoesOn now (vcompare w p k b a kd s) :=
  inSet_clock hs fun _ h1 => sources_clock h1 fun _ h2 => dests_clock h2 fun _ h3 => ite_goesOn (done_clock h3) (done_clock (raise_clock (modMe_clock h3)))
theorem vapprox_clock {n f t k a d s} (hs : AtCycle now s) : GoesOn now (vapprox n f t k a d s) :=
  inSet_clock hs fun _ h1 => sources_clock h1 fun _ h2 => dests_clock h2 fun _ h3 => done_clock (raise_clock (modMe_clock h3))

theorem lineUpdate_clock {pa va f s} (hs : AtCycle now s) : AtCycle now (lineUpdate pa va f s) := by
  unfold lineUpdate
  split
  · exact poisonReport_clock (fst_clock (travel_clock (wakeSlice_clock (dropCached_clock hs))) ‹_›)
  next s1 _ _ e =>
    have h1 : AtCycle now s1 := fst_clock (travel_clock (wakeSlice_clock (dropCached_clock hs))) e
    exact ite_clock (poisonReport_clock h1) (ite_clock (poisonReport_clock (taintLine_clock (physWrite_clock h1))) (physWrite_clock h1))

theorem lineAtomic_clock {va f s k} (hs : AtCycle now s) (hk : ∀ t, AtCycle now t → GoesOn now (k t)) : GoesOn now (lineAtomic va f s k) :=
  gAccess_clock hs fun _ _ h1 => inOrder_clock h1 fun _ h2 => hk _ (lineUpdate_clock h2)
theorem execVamaxu_clock {t k j a s} (hs : AtCycle now s) : GoesOn now (execVamaxu t k j a s) :=
  inSet_clock hs fun _ h1 => sources_clock h1 fun _ h2 => lineAtomic_clock h2 fun _ h3 => done_clock h3
theorem vint_clock {t f k b a d s} (hs : AtCycle now s) : GoesOn now (vint t f k b a d s) := vbits_clock hs
theorem vred_clock {f t k c a d s} (hf : ∀ x t, AtCycle now t → AtCycle now (f x t).2.2) (hs : AtCycle now s) :
    GoesOn now (vred f t k c a d s) :=
  inSet_clock hs fun _ h1 => sources_clock h1 fun _ h2 => dests_clock h2 fun _ h3 => done_clock (raise_clock (modMe_clock (hf _ _ h3)))
theorem execVrsumO_clock {t k c a d s} (hs : AtCycle now s) : GoesOn now (execVrsumO t k c a d s) := vred_clock (fun _ _ h1 => h1) hs
theorem execVrsumU_clock {t k c a d s} (hs : AtCycle now s) : GoesOn now (execVrsumU t k c a d s) := vred_clock (fun _ _ h1 => h1) hs
theorem execVrmax_clock {t k c a d s} (hs : AtCycle now s) : GoesOn now (execVrmax t k c a d s) := vred_clock (fun _ _ h1 => h1) hs
theorem execVramax_clock {t k c a d s} (hs : AtCycle now s) : GoesOn now (execVramax t k c a d s) := vred_clock (fun _ _ h1 => h1) hs
theorem execVrmin_clock {t k c a d s} (hs : AtCycle now s) : GoesOn now (execVrmin t k c a d s) := vred_clock (fun _ _ h1 => h1) hs
theorem vperm_clock {t f srcs k b a d s} (hs : AtCycle now s) : GoesOn now (vperm t f srcs k b a d s) :=
  inSet_clock hs fun _ h1 => sources_clock h1 fun _ h2 => dests_clock h2 fun _ h3 => done_clock (modMe_clock h3)
theorem execVins_clock {g n d s} (hs : AtCycle now s) : GoesOn now (execVins g n d s) :=
  inSet_clock hs fun _ h1 => sources_clock h1 fun _ h2 => dests_clock h2 fun _ h3 => done_clock (modMe_clock h3)
theorem execVext_clock {g n a s} (hs : AtCycle now s) : GoesOn now (execVext g n a s) :=
  inSet_clock hs fun _ h1 => sources_clock h1 fun _ h2 => dests_clock h2 fun _ h3 => done_clock (modMe_clock h3)

/-! ## The gradient queues -/

theorem gqChecked_clock {holds h s k} (hs : AtCycle now s) (hk : ∀ x y t, AtCycle now t → GoesOn now (k x y t)) :
    GoesOn now (gqChecked holds h s k) :=
  ite_goesOn (trap_clock hs) (blockRead_clock hs fun _ _ _ h1 => ite_goesOn (trap_clock h1) (ite_goesOn (trap_clock h1) (hk _ _ _ h1)))

theorem gqPutEntry_clock {s l i payload key} (hs : AtCycle now s) : AtCycle now (gqPutEntry s l i payload key) := by
  unfold gqPutEntry
  extract_lets
  refine ite_clock ?_ (setMender_clock hs)
  exact modTile_clock (rouse_clock hs)

theorem gqPush_clock {s pa l payload key} (hs : AtCycle now s) : AtCycle now (gqPush s pa l payload key) :=
  gqPutEntry_clock (physWrite_clock hs)
theorem gqEnter_clock {s pa x} (hs : AtCycle now s) : AtCycle now (gqEnter s pa x) := ite_clock hs hs
theorem gqPark_clock {pa push s} (hs : AtCycle now s) : GoesOn now (gqPark pa push s) := park_clock (gqEnter_clock hs)
theorem gqLeave_clock {s pa x} (hs : AtCycle now s) : AtCycle now (gqLeave s pa x) := hs
theorem gqTaint_clock {s l} (hs : AtCycle now s) : AtCycle now (gqTaint s l) :=
  ite_clock (modTile_clock hs) (setMender_clock hs)

theorem gqPushed_clock {pa l payload key dv s} (hs : AtCycle now s) : AtCycle now (gqPushed pa l payload key dv s) := by
  unfold gqPushed
  split
  · exact gqPush_clock (fst_clock (travel_clock hs) ‹_›)
  · exact poisonReport_clock (gqTaint_clock (gqPush_clock (fst_clock (travel_clock hs) ‹_›)))
  · exact poisonReport_clock (fst_clock (travel_clock hs) ‹_›)

theorem gqAwake_clock {l s k} (hs : AtCycle now s) (hk : ∀ t, AtCycle now t → GoesOn now (k t)) : GoesOn now (gqAwake l s k) :=
  ite_goesOn (awake_clock hs hk) (hk _ hs)

theorem execGqpush_clock {b a d s} (hs : AtCycle now s) : GoesOn now (execGqpush b a d s) :=
  inSet_clock hs fun _ h1 => sources_clock h1 fun _ h2 => gqChecked_clock h2 fun _ _ _ h3 =>
    ite_goesOn (trap_clock h3) (heldAcked_clock h3 fun _ h4 =>
      ite_goesOn (parkHeld_clock h4) (ite_goesOn (gqPark_clock h4) (gqAwake_clock h4 fun _ h5 => done_clock (gqPushed_clock (gqLeave_clock h5)))))

theorem gqMeet_clock {s h pc dv l} (hs : AtCycle now s) : AtCycle now (gqMeet s h pc dv l) := by
  unfold gqMeet
  extract_lets _ s1
  have h1 : AtCycle now s1 := ite_clock (meetFlaws_clock hs) hs
  exact ite_clock h1 (ite_clock (poisonReportAt_clock h1) (poisonReportAt_clock h1))

theorem execGqpop_clock {b a d s} (hs : AtCycle now s) : GoesOn now (execGqpop b a d s) :=
  inSet_clock hs fun _ h1 => sources_clock h1 fun _ h2 => gqChecked_clock h2 fun _ _ _ h3 =>
    ite_goesOn (trap_clock h3) (ite_goesOn (trap_clock h3)
      (dests_clock h3 fun _ h4 => ite_goesOn (gqPark_clock h4) (done_clock (acquire_clock (modMe_clock (physWrite_clock (gqLeave_clock (gqMeet_clock h4))))))))

theorem execGqwin_clock {b a s} (hs : AtCycle now s) : GoesOn now (execGqwin b a s) :=
  inSet_clock hs fun _ h1 => sources_clock h1 fun _ h2 => gqChecked_clock h2 fun _ _ _ h3 =>
    ite_goesOn (trap_clock h3) (ite_goesOn (trap_clock h3) (done_clock (physWrite_clock h3)))

theorem execGqlen_clock {d a s} (hs : AtCycle now s) : GoesOn now (execGqlen d a s) :=
  inSet_clock hs fun _ h1 => sources_clock h1 fun _ h2 => gqChecked_clock h2 fun _ _ _ h3 => dests_clock h3 fun _ h4 => done_clock (modMe_clock h4)

theorem unitPush_clock {s d c h payload key} (hs : AtCycle now s) : AtCycle now (unitPush s d c h payload key).1 := by
  unfold unitPush
  split
  · exact fst_clock (unitRead_clock hs) ‹_›
  · exact fst_clock (unitRead_clock hs) ‹_›
  next s1 _ _ e =>
    have h1 : AtCycle now s1 := fst_clock (unitRead_clock hs) e
    exact ite_fst_clock (gqPush_clock (gqLeave_clock h1)) h1

theorem execMenderSlotStart_clock {s} (hs : AtCycle now s) : GoesOn now (execMenderSlotStart s) := by
  unfold execMenderSlotStart
  split
  · split
    · refine ite_goesOn hs ?_
      extract_lets _ _ s1 _
      have h1 : AtCycle now s1 := setMender_clock hs
      split
      · exact h1
      · exact setMender_clock (nextFree_clock h1)
    · exact hs
  · exact hs

theorem gqForget_clock {s x} (hs : AtCycle now s) : AtCycle now (gqForget s x) := hs
theorem freeMenderSlot_clock {s m i} (hs : AtCycle now s) : AtCycle now (freeMenderSlot s m i) :=
  setMender_clock (gqForget_clock hs)

theorem execGqEnClear_clock {s} (hs : AtCycle now s) : GoesOn now (execGqEnClear s) := by
  unfold execGqEnClear
  split
  · exact ite_goesOn (freeMenderSlot_clock hs) hs
  · exact hs

/-! ## The episodes -/

theorem epSet_clock {s d e} (hs : AtCycle now s) : AtCycle now (epSet s d e) := hs
theorem epDel_clock {s d idx} (hs : AtCycle now s) : AtCycle now (epDel s d idx) := gqForget_clock hs
theorem orphanReady_clock {s d c dom} (hs : AtCycle now s) : AtCycle now (orphanReady s d c dom).1 := unitReady_clock hs

theorem orphan_clock {s d m reason} (hs : AtCycle now s) : AtCycle now (orphan s d m reason) := by
  unfold orphan
  extract_lets
  split
  next s1 _ e =>
  have h1 : AtCycle now s1 := fst_clock (unitGet_clock (unitBump_clock hs)) e
  split
  · exact fst_clock (unitPush_clock h1) ‹_›
  · exact writeDropped_clock (fst_clock (unitPush_clock h1) ‹_›)
  · exact unitBump_clock (fst_clock (unitPush_clock h1) ‹_›)
  · exact unitBump_clock (unitForgets_clock (fst_clock (unitPush_clock h1) ‹_›))

theorem withTicket_clock {a s k} (hs : AtCycle now s) (hk : ∀ x t, AtCycle now t → GoesOn now (k x t)) : GoesOn now (withTicket a s k) :=
  ite_goesOn (trap_clock hs) (hk _ _ hs)

theorem domRead_clock {need dom s k} (hs : AtCycle now s) (hk : ∀ x t, AtCycle now t → GoesOn now (k x t)) :
    GoesOn now (domRead need dom s k) := by
  unfold domRead
  refine gAccess_clock hs fun _ _ h1 => inOrder_clock h1 fun _ h2 => ?_
  split
  next s3 _ _ e =>
  have h3 : AtCycle now s3 := fst_clock (lineRead_clock h2) e
  split
  next s4 _ _ e =>
  have h4 : AtCycle now s4 := fst_clock (lineRead_clock h3) e
  exact hk _ _ (ite_clock (notePoisonRead_clock h4) h4)

theorem bufChunks_clock {b s k} (hs : AtCycle now s) (hk : ∀ x t, AtCycle now t → GoesOn now (k x t)) : GoesOn now (bufChunks b s k) := by
  unfold bufChunks
  split
  · exact hk _ _ (fst_clock (xlateChunks_clock hs) ‹_›)
  · exact park_clock (fst_clock (xlateChunks_clock hs) ‹_›)
  · exact trap_clock (fst_clock (xlateChunks_clock hs) ‹_›)

theorem bufOrder_clock {l b s k} (hs : AtCycle now s) (hk : ∀ t, AtCycle now t → GoesOn now (k t)) : GoesOn now (bufOrder l b s k) := by
  unfold bufOrder
  extract_lets
  split
  · exact hold_clock hs
  · exact hk _ hs

theorem epOpenAt_clock {s id b l} (hs : AtCycle now s) : AtCycle now (epOpenAt s id b l).1 := by
  unfold epOpenAt
  extract_lets
  refine ite_fst_clock hs ?_
  split
  · exact hs
  · exact foldl_clock hs fun _ _ h1 => lineWrite_clock h1

theorem execEpopen_clock {d a b s} (hs : AtCycle now s) : GoesOn now (execEpopen d a b s) :=
  inSet_clock hs fun _ h1 => sources_clock h1 fun _ h2 =>
    ite_goesOn (trap_clock h2) (blockRead_clock h2 fun _ _ _ h3 =>
      ite_goesOn (trap_clock h3) (domRead_clock h3 fun _ _ h4 =>
        ite_goesOn (trap_clock h4) (bufChunks_clock h4 fun _ _ h5 => bufOrder_clock h5 fun _ h6 => dests_clock h6 fun _ h7 =>
          done_clock (modMe_clock (epOpenAt_clock h7)))))

theorem recordStep_clock {s pa v ea} (hs : AtCycle now s) : AtCycle now (recordStep s pa v ea) := by
  unfold recordStep
  extract_lets
  split
  · exact homeWrite_clock (homeWrite_clock (fst_clock (travel_clock hs) ‹_›))
  · exact poisonReport_clock (taintLine_clock (homeWrite_clock (homeWrite_clock (fst_clock (travel_clock hs) ‹_›))))
  · exact poisonReport_clock (fst_clock (travel_clock hs) ‹_›)

theorem execEprec_clock {d a b s} (hs : AtCycle now s) : GoesOn now (execEprec d a b s) := by
  unfold execEprec
  refine inSet_clock hs fun _ h1 => sources_clock h1 fun _ h2 => withTicket_clock h2 fun _ _ h3 => ?_
  split
  · exact trap_clock h3
  · exact ite_goesOn (trap_clock h3) (ite_goesOn (trap_clock h3) (dests_clock h3 fun _ h4 => withPa_clock h4 fun _ _ h5 => inOrder_clock h5 fun _ h6 =>
      done_clock (modMe_clock (epSet_clock (recordStep_clock h6)))))

theorem closeOrphans_clock {s d e l} (hs : AtCycle now s) : AtCycle now (closeOrphans s d e l) := by
  induction l generalizing s with
  | nil => exact hs
  | cons i r ih =>
    unfold closeOrphans
    exact ih (orphan_clock (unitGet_clock hs))

theorem closeReady_clock {s d e} (hs : AtCycle now s) : AtCycle now (closeReady s d e).1 := by
  unfold closeReady
  split
  · exact unitReady_clock (fst_clock (orphanReady_clock hs) ‹_›)
  · exact orphanReady_clock hs

theorem closeAt_clock {s k t e} (hs : AtCycle now s) : AtCycle now (closeAt s k t e).1 :=
  unitSettled_clock (epSet_clock (closeOrphans_clock (unitGet_clock (nextFree_clock (unitBump_clock hs)))))
theorem enqueueArrival_clock {s d x} (hs : AtCycle now s) : AtCycle now (enqueueArrival s d x) := hs

theorem awakeAll_clock {t s k} (hs : AtCycle now s) (hk : ∀ t, AtCycle now t → GoesOn now (k t)) : GoesOn now (awakeAll t s k) := by
  unfold awakeAll
  split
  · exact park_clock (rouse_clock hs)
  · exact hk _ hs

theorem execEpclose_clock {d a s} (hs : AtCycle now s) : GoesOn now (execEpclose d a s) := by
  unfold execEpclose
  refine inSet_clock hs fun _ h1 => sources_clock h1 fun _ h2 => withTicket_clock h2 fun _ _ h3 => ?_
  split
  · exact trap_clock h3
  · refine dests_clock h3 fun _ h4 => ?_
    extract_lets
    refine ite_goesOn (park_clock (enqueueArrival_clock (freshId_clock h4))) ?_
    split
    · exact park_clock (fst_clock (closeReady_clock (actFor_clock h4)) ‹_›)
    · exact awakeAll_clock (fst_clock (closeReady_clock (actFor_clock h4)) ‹_›) fun _ h5 => done_clock (modMe_clock (closeAt_clock h5))

theorem execEpstat_clock {d a s} (hs : AtCycle now s) : GoesOn now (execEpstat d a s) :=
  inSet_clock hs fun _ h1 => sources_clock h1 fun _ h2 => withTicket_clock h2 fun _ _ h3 => dests_clock h3 fun _ h4 => done_clock (modMe_clock h4)
theorem queueFlit_clock {s l b} (hs : AtCycle now s) : AtCycle now (queueFlit s l b) := ite_clock hs hs
theorem enqueueReward_clock {s x} (hs : AtCycle now s) : AtCycle now (enqueueReward s x) := enqueueArrival_clock hs

theorem execRwsend_clock {d a b s} (hs : AtCycle now s) : GoesOn now (execRwsend d a b s) := by
  unfold execRwsend
  refine inSet_clock hs fun _ h1 => sources_clock h1 fun _ h2 => ?_
  extract_lets
  refine ite_goesOn (trap_clock h2) <| ite_goesOn (trap_clock h2) ?_
  split
  · refine domRead_clock h2 fun _ _ h3 => heldAcked_clock h3 fun _ h4 => ?_
    split
    next s5 _ e =>
    have h5 : AtCycle now s5 := fst_clock (freshId_clock h4) e
    split
    · exact done_clock (poisonReport_clock (fst_clock (travel_clock h5) ‹_›))
    · exact park_clock (enqueueReward_clock (fst_clock (travel_clock h5) ‹_›))
  · exact ite_goesOn (trap_clock h2) (ite_goesOn (trap_clock h2) (heldAcked_clock h2 fun _ h3 => park_clock (queueFlit_clock h3)))

theorem writeReward_clock {s d e m bad} (hs : AtCycle now s) : AtCycle now (writeReward s d e m bad) := by
  unfold writeReward
  extract_lets
  refine unitPut_clock hs fun _ _ h1 => ?_
  extract_lets _ s2
  have h2 : AtCycle now s2 := physWrite_clock (physWrite_clock h1)
  exact ite_clock h2 h2

theorem takeReward_clock {s d m bad} (hs : AtCycle now s) : AtCycle now (takeReward s d m bad).1 := by
  unfold takeReward
  split
  · split
    · exact rouse_clock (fst_clock (orphanReady_clock hs) ‹_›)
    · exact orphan_clock (fst_clock (orphanReady_clock hs) ‹_›)
    · exact fst_clock (orphanReady_clock hs) ‹_›
  · split
    · exact hs
    · split
      · exact epSet_clock (writeReward_clock (fst_clock (unitReady_clock hs) ‹_›))
      · exact fst_clock (unitReady_clock hs) ‹_›

theorem remoteOk_clock {s d m} (hs : AtCycle now s) : AtCycle now (remoteOk s d m).1 := by
  unfold remoteOk
  split <;> exact fst_clock (unitXlate_clock hs) ‹_›

theorem arrivalGone_clock {s d} (hs : AtCycle now s) : AtCycle now (arrivalGone s d) := unitSettled_clock hs

theorem rewardTaken_clock {s d x} (hs : AtCycle now s) : AtCycle now (rewardTaken s d x) := by
  unfold rewardTaken
  extract_lets _ s1
  have h1 : AtCycle now s1 := by
    unfold s1
    split
    · split
      · exact complete_clock (arrivalGone_clock hs)
      · exact arrivalGone_clock hs
    · exact arrivalGone_clock hs
  split
  · exact queueFlit_clock h1
  · exact h1

theorem rewardTurn_clock {s d x} (hs : AtCycle now s) : AtCycle now (rewardTurn s d x) := by
  unfold rewardTurn
  split
  next s1 _ e =>
  have h1 : AtCycle now s1 := fst_clock (ite_fst_clock (remoteOk_clock hs) hs) e
  split
  · exact h1
  · exact rewardTaken_clock (unitReport_clock h1)
  · split
    · exact rewardTaken_clock (fst_clock (takeReward_clock h1) ‹_›)
    · exact fst_clock (takeReward_clock h1) ‹_›

theorem closeTurn_clock {s d x idx r} (hs : AtCycle now s) : AtCycle now (closeTurn s d x idx r) := by
  unfold closeTurn
  split
  · exact trapOn_clock (arrivalGone_clock hs)
  · split
    · exact fst_clock (closeReady_clock hs) ‹_›
    next s1 e =>
      have h1 : AtCycle now s1 := fst_clock (closeReady_clock hs) e
      split
      · exact rouse_clock h1
      · exact complete_clock (commitNotes_clock (modHart_clock (arrivalGone_clock (closeAt_clock h1))))
  · exact arrivalGone_clock hs

theorem execRewardArrival_clock {s} (hs : AtCycle now s) : GoesOn now (execRewardArrival s) := by
  unfold execRewardArrival
  split
  · extract_lets
    split
    · exact actFor_clock hs
    · split
      · exact closeTurn_clock (actFor_clock hs)
      · exact ite_goesOn (actFor_clock hs) (rewardTurn_clock (actFor_clock hs))
  · exact hs

theorem execEpisodeTimeout_clock {s} (hs : AtCycle now s) : GoesOn now (execEpisodeTimeout s) := by
  unfold execEpisodeTimeout
  split
  · extract_lets
    split
    · exact ite_goesOn (epSet_clock hs) hs
    · exact hs
  · exact hs

theorem wring_clock {s d e gam gl t miss vn an} (hs : AtCycle now s) : AtCycle now (wring s d e gam gl t miss vn an).1 := by
  induction t generalizing s miss vn an with
  | zero => exact hs
  | succ t ih => exact ih (unitPut_clock (unitGet_clock hs) fun _ _ h => physWrite_clock (physWrite_clock h))

theorem scanReady_clock {s d e} (hs : AtCycle now s) : AtCycle now (scanReady s d e).1 := by
  unfold scanReady
  split
  · exact unitReady_clock (fst_clock (unitReady_clock hs) ‹_›)
  · exact unitReady_clock hs

theorem execWringerScan_clock {s} (hs : AtCycle now s) : GoesOn now (execWringerScan s) := by
  fun_cases execWringerScan s with
  | case2 k i _ d e _ _ s0 s1 _ e1 => exact fst_clock (scanReady_clock (actFor_clock hs)) e1
  | case3 k i _ d e _ _ s0 s1 e1 s2 dv e2 lag stale s3 miss e3 =>
    have h2 : AtCycle now s2 := fst_clock (unitGet_clock (fst_clock (scanReady_clock (actFor_clock hs)) e1)) e2
    exact unitSettled_clock (epSet_clock (fst_clock (ite_fst_clock h2 (wring_clock h2)) e3))
  | case1 | case4 | case5 => exact hs

theorem execEpisodeRelease_clock {s} (hs : AtCycle now s) : GoesOn now (execEpisodeRelease s) := by
  unfold execEpisodeRelease
  split
  · extract_lets
    split
    · refine ite_goesOn hs ?_
      extract_lets
      split
      next s1 _ _ e =>
        have h1 : AtCycle now s1 := fst_clock (unitRead_clock (actFor_clock hs)) e
        refine ite_goesOn h1 ?_
        split
        next s2 _ e =>
        have h2 : AtCycle now s2 := fst_clock (unitGet_clock h1) e
        split
        · exact rouse_clock h2
        · split
          · exact gqEnter_clock (fst_clock (unitPush_clock h2) ‹_›)
          · exact fst_clock (unitPush_clock h2) ‹_›
          next s3 _ _ _ e =>
            have h3 : AtCycle now s3 := fst_clock (unitPush_clock h2) e
            extract_lets s4 _ _
            have h4 : AtCycle now s4 := by unfold s4; split; exacts [writeDropped_clock h3, h3]
            exact unitSettled_clock (epDel_clock (ite_clock (unitBump_clock (unitBump_clock h4)) (unitBump_clock h4)))
      · exact unitSettled_clock (epDel_clock (writeDropped_clock (fst_clock (unitRead_clock (actFor_clock hs)) ‹_›)))
      · exact fst_clock (unitRead_clock (actFor_clock hs)) ‹_›
    · exact hs
  · exact hs

/-! ## The engines -/

theorem startSequencer_clock {s e pc by'} (hs : AtCycle now s) : AtCycle now (startSequencer s e pc by') := setHart_clock hs

theorem execKick_clock {vector ea s} (hs : AtCycle now s) : GoesOn now (execKick vector ea s) := by
  unfold execKick
  exact inSet_clock hs fun _ h1 => sources_clock h1 fun _ h2 =>
    ite_goesOn (trap_clock h2) (acked_clock h2 fun _ h3 => ite_goesOn (done_clock (startSequencer_clock h3)) (park_clock h3))

theorem execFork_clock {mask ea eb s} (hs : AtCycle now s) : GoesOn now (execFork mask ea eb s) := by
  unfold execFork
  extract_lets
  refine inSet_clock hs fun _ h1 => sources_clock h1 fun _ h2 => ?_
  split
  · exact trap_clock h2
  · exact acked_clock h2 fun _ h3 => ite_goesOn (done_clock (modMe_clock (foldl_clock h3 fun _ _ h4 => startSequencer_clock h4))) (park_clock h3)

theorem execRdv_clock {s} (hs : AtCycle now s) : GoesOn now (execRdv s) := by
  unfold execRdv
  refine inSet_clock hs fun _ h1 => ite_goesOn (park_clock h1) ?_
  extract_lets
  split
  · exact trap_clock (modMe_clock (acquire_clock h1))
  · exact done_clock (acquire_clock h1)

/-! ## Conversions -/

theorem nfdCheck_clock {j n s k} (hs : AtCycle now s) (hk : ∀ t, AtCycle now t → GoesOn now (k t)) : GoesOn now (nfdCheck j n s k) := by
  unfold nfdCheck
  split
  · exact trap_clock hs
  · exact hk _ hs

theorem cvtFmt_clock {t j s k} (hs : AtCycle now s) (hk : ∀ x t, AtCycle now t → GoesOn now (k x t)) : GoesOn now (cvtFmt t j s k) :=
  ite_goesOn (nfdCheck_clock hs fun _ h1 => hk _ _ h1) (hk _ _ hs)

theorem execVcvt_clock {t rm j widen part a d s} (hs : AtCycle now s) : GoesOn now (execVcvt t rm j widen part a d s) :=
  inSet_clock hs fun _ h1 => sources_clock h1 fun _ h2 => cvtFmt_clock h2 fun _ _ h3 => dests_clock h3 fun _ h4 =>
    ite_goesOn (done_clock (raise_clock (modMe_clock (putRnd_clock h4)))) (done_clock (raise_clock (modMe_clock (putRnd_clock h4))))

theorem readCur_clock {j s k} (hs : AtCycle now s) (hk : ∀ x t, AtCycle now t → GoesOn now (k x t)) : GoesOn now (readCur j s k) := by
  unfold readCur
  extract_lets
  refine gAccess_clock hs fun _ _ h1 => inOrder_clock h1 fun _ h2 => ?_
  split
  next s3 _ _ e =>
  have h3 : AtCycle now s3 := fst_clock (lineRead_clock h2) e
  exact hk _ _ (ite_clock (poisonReport_clock h3) h3)

theorem quantDone_clock {d out scales fl rnd s} (hs : AtCycle now s) : GoesOn now (quantDone d out scales fl rnd s) :=
  done_clock (raise_clock (modMe_clock (putRnd_clock hs)))

theorem execVquant_clock {t rm j mode a d s} (hs : AtCycle now s) : GoesOn now (execVquant t rm j mode a d s) :=
  inSet_clock hs fun _ h1 => sources_clock h1 fun _ h2 => cvtFmt_clock h2 fun _ _ h3 => dests_clock h3 fun _ h4 =>
    ite_goesOn (readCur_clock h4 fun _ _ h5 => quantDone_clock h5) (quantDone_clock h4)

theorem execVquantv_clock {t rm j thr a d s} (hs : AtCycle now s) : GoesOn now (execVquantv t rm j thr a d s) :=
  inSet_clock hs fun _ h1 => sources_clock h1 fun _ h2 => cvtFmt_clock h2 fun _ _ h3 => dests_clock h3 fun _ h4 =>
    done_clock (raise_clock (modMe_clock (putRnd_clock h4)))

theorem execVdeq_clock {t rm j mode a d s} (hs : AtCycle now s) : GoesOn now (execVdeq t rm j mode a d s) := by
  unfold execVdeq
  exact inSet_clock hs fun _ h1 => sources_clock h1 fun _ h2 => cvtFmt_clock h2 fun _ _ h3 => dests_clock h3 fun _ h4 =>
    done_clock (raise_clock (modMe_clock (putRnd_clock h4)))

theorem execSclnext_clock {t j s} (hs : AtCycle now s) : GoesOn now (execSclnext t j s) :=
  inSet_clock hs fun _ h1 => cvtFmt_clock h1 fun _ _ h2 => lineAtomic_clock (nextFree_clock h2) fun _ h3 => done_clock h3
theorem nibbleFmt_clock {t j s k} (hs : AtCycle now s) (hk : ∀ t, AtCycle now t → GoesOn now (k t)) : GoesOn now (nibbleFmt t j s k) :=
  cvtFmt_clock hs fun _ _ h1 => ite_goesOn (trap_clock h1) (hk _ h1)
theorem execVpack_clock {t j b a d s} (hs : AtCycle now s) : GoesOn now (execVpack t j b a d s) :=
  inSet_clock hs fun _ h1 => sources_clock h1 fun _ h2 => nibbleFmt_clock h2 fun _ h3 => dests_clock h3 fun _ h4 => done_clock (modMe_clock h4)
theorem execVunpk_clock {t j hi a d s} (hs : AtCycle now s) : GoesOn now (execVunpk t j hi a d s) :=
  inSet_clock hs fun _ h1 => sources_clock h1 fun _ h2 => nibbleFmt_clock h2 fun _ h3 => dests_clock h3 fun _ h4 => done_clock (modMe_clock h4)

/-! ## The matrix unit -/

theorem issueArray_clock {la lat o s} (hs : AtCycle now s) : GoesOn now (issueArray la lat o s) := by
  unfold issueArray
  extract_lets _ _ s1 _ _ _
  have h1 : AtCycle now s1 := modTile_clock hs
  exact ite_goesOn (modMe_clock (complete_clock (modMe_clock (foldl_clock h1 fun _ _ h3 => emptyReg_clock h3)))) (issueLong_clock h1)

theorem meetOperand_clock {s t x v} (hs : AtCycle now s) : AtCycle now (meetOperand s t x v) := by
  unfold meetOperand
  extract_lets _ s1
  have h1 : AtCycle now s1 := foldl_clock hs fun _ _ h2 => meetFlaws_clock h2
  exact ite_clock hs (ite_clock h1 (meetFlaws_clock h1))

theorem meetBank_clock {s t b} (hs : AtCycle now s) : AtCycle now (meetBank s t b) := ite_clock hs (countFlaws_clock (modTile_clock hs))
theorem meetBankAcc_clock {s t b} (hs : AtCycle now s) : AtCycle now (meetBankAcc s t b) :=
  ite_clock hs (countFlaws_clock (modTile_clock hs))
theorem meetLatch_clock {s t} (hs : AtCycle now s) : AtCycle now (meetLatch s t) := ite_clock hs (countFlaws_clock (modTile_clock hs))

theorem multiply_clock {trans la n bank descs hd read s} (hread : ∀ t, AtCycle now t → AtCycle now (read t).1) (hs : AtCycle now s) :
    GoesOn now (multiply trans la n bank descs hd read s) := by
  unfold multiply
  extract_lets
  split
  · exact trap_clock hs
  · refine sources_clock hs fun _ h1 => roomForLong_clock h1 fun _ h2 => ?_
    split
    next s3 _ _ e =>
    have h3 : AtCycle now s3 := fst_clock (hread _ (meetBank_clock h2)) e
    exact issueArray_clock (setTile_clock (meetFlaws_clock h3))

theorem multiplyStore_clock {trans la n bank ea s} (hs : AtCycle now s) : GoesOn now (multiplyStore trans la n bank ea s) := by
  unfold multiplyStore
  refine inSet_clock hs fun _ h1 => sources_clock h1 fun _ h2 => ?_
  extract_lets
  split
  · exact trap_clock h2
  · exact multiply_clock (fun _ h3 => meetOperand_clock h3) h2

theorem multiplyLatch_clock {trans la n bank s} (hs : AtCycle now s) : GoesOn now (multiplyLatch trans la n bank s) :=
  inSet_clock hs fun _ h1 => sources_clock h1 fun _ h2 => multiply_clock (fun _ h3 => meetLatch_clock h3) h2

theorem execMld_clock {la bank ea s} (hs : AtCycle now s) : GoesOn now (execMld la bank ea s) := by
  unfold execMld
  refine inSet_clock hs fun _ h1 => sources_clock h1 fun _ h2 => roomForLong_clock h2 fun _ h3 => ?_
  extract_lets
  split
  · exact trap_clock h3
  · exact ite_goesOn (trap_clock h3) (issueArray_clock (setTile_clock (meetOperand_clock h3)))

theorem execMout_clock {la bank eb ea s} (hs : AtCycle now s) : GoesOn now (execMout la bank eb ea s) := by
  unfold execMout
  refine inSet_clock hs fun _ h1 => sources_clock h1 fun _ h2 => roomForLong_clock h2 fun _ h3 => ?_
  extract_lets _ _ _ _ _ _ s4
  have h4 : AtCycle now s4 := meetBankAcc_clock (meetOperand_clock (meetOperand_clock h3))
  split
  · exact trap_clock h3
  split
  · exact trap_clock h3
  exact issueArray_clock (setTile_clock h4)

theorem execMdrain_clock {la n bank s} (hs : AtCycle now s) : GoesOn now (execMdrain la n bank s) :=
  inSet_clock hs fun _ h1 => sources_clock h1 fun _ h2 => roomForLong_clock h2 fun _ h3 => issueArray_clock (meetBankAcc_clock h3)
theorem execMzero_clock {la n bank s} (hs : AtCycle now s) : GoesOn now (execMzero la n bank s) :=
  inSet_clock hs fun _ h1 => sources_clock h1 fun _ h2 => roomForLong_clock h2 fun _ h3 => issueArray_clock (modTile_clock h3)

/-! ## The ring -/

theorem execRingdef_clock {la ea s} (hs : AtCycle now s) : GoesOn now (execRingdef la ea s) :=
  inSet_clock hs fun _ h1 => sources_clock h1 fun _ h2 => roomForLong_clock h2 fun _ h3 =>
    ite_goesOn (trap_clock h3) (ite_goesOn (trap_clock h3) (issueArray_clock (modTile_clock h3)))

theorem execLatch_clock {la ea s} (hs : AtCycle now s) : GoesOn now (execLatch la ea s) := by
  unfold execLatch
  refine inSet_clock hs fun _ h1 => sources_clock h1 fun _ h2 => roomForLong_clock h2 fun _ h3 => ?_
  extract_lets
  split
  · exact trap_clock h3
  · split
    · exact trap_clock h3
    · exact issueArray_clock (setTile_clock (meetOperand_clock h3))

theorem execBrot_clock {la s} (hs : AtCycle now s) : GoesOn now (execBrot la s) := by
  unfold execBrot
  refine inSet_clock hs fun _ h1 => roomForLong_clock h1 fun _ h2 => ?_
  split
  · exact trap_clock h2
  · refine sources_clock h2 fun _ h3 => ?_
    extract_lets _ s4
    have h4 : AtCycle now s4 := modTile_clock h3
    exact ite_goesOn (park_clock h4) (issueAwait_clock h4)

theorem ringBegins_clock {s h o} (hs : AtCycle now s) : AtCycle now (ringBegins s h o) := by
  unfold ringBegins
  split
  · extract_lets _ s1
    have h1 : AtCycle now s1 := complete_clock (modHart_clock hs)
    exact ite_clock (modHart_clock h1) h1
  · split
    · exact modHart_clock hs
    · exact hs

theorem ringPass_clock {alone old s t} (hs : AtCycle now s) : AtCycle now (ringPass alone old s t) := by
  unfold ringPass
  split
  · extract_lets _ _ _ _ s1 _
    have h1 : AtCycle now s1 := modTile_clock hs
    exact ringBegins_clock (ite_clock (onLoom_clock h1) (cellReport_clock (onLoom_clock h1)))
  · exact hs

theorem execRingMove_clock {s} (hs : AtCycle now s) : GoesOn now (execRingMove s) := by
  unfold execRingMove
  split
  · refine ite_goesOn hs ?_
    split
    · exact foldl_clock hs fun _ _ h1 => ringPass_clock h1
    · exact ite_goesOn (ringPass_clock hs) hs
  · exact hs

/-! ## Steps and barriers -/

theorem stepSlot_clock {len s} (hs : AtCycle now s) : GoesOn now (stepSlot len s) :=
  inSet_clock hs fun _ h1 => drained_clock h1 fun _ h2 => park_clock (modTile_clock h2)

theorem stepGoesOn_clock {s t i} (hs : AtCycle now s) : AtCycle now (stepGoesOn s t i) := by
  unfold stepGoesOn
  split <;> exact hs

theorem execStepAdvance_clock {s} (hs : AtCycle now s) : GoesOn now (execStepAdvance s) := by
  unfold execStepAdvance
  split
  · exact ite_goesOn (foldl_clock (modTile_clock hs) fun _ _ h2 => stepGoesOn_clock h2) hs
  · exact hs

theorem execStepwatchReport_clock {s} (hs : AtCycle now s) : GoesOn now (execStepwatchReport s) := by
  unfold execStepwatchReport
  split
  · exact ite_goesOn (tileReport_clock (modTile_clock hs)) hs
  · exact hs

theorem execStepidle_clock {a s} (hs : AtCycle now s) : GoesOn now (execStepidle a s) :=
  inSet_clock hs fun _ h1 => supOnly_clock h1 fun _ h2 => sources_clock h2 fun _ h3 => drained_clock h3 fun _ h4 =>
    ite_goesOn (trap_clock h4) (done_clock (modTile_clock h4))

theorem meetWindow_clock {s u v i} (hs : AtCycle now s) : AtCycle now (meetWindow s u v i) :=
  ite_clock hs (countFlaws_clock (setTile_clock hs))

theorem execLdh_clock {la imm natural a d s} (hs : AtCycle now s) : GoesOn now (execLdh la imm natural a d s) :=
  inSet_clock hs fun _ h1 => sources_clock h1 fun _ h2 => roomForLong_clock h2 fun _ h3 => dests_clock h3 fun _ h4 =>
    ite_goesOn (trap_clock h4) (ite_goesOn (trap_clock h4)
      (ite_goesOn (trap_clock h4) (ite_goesOn (trap_clock h4)
        (ite_goesOn (trap_clock h4) (issueLong_clock (ite_clock (poisonReport_clock (onLoom_clock (meetWindow_clock h4))) (onLoom_clock (meetWindow_clock h4))))))))

theorem execPub_clock {la imm a d s} (hs : AtCycle now s) : GoesOn now (execPub la imm a d s) :=
  inSet_clock hs fun _ h1 => sources_clock h1 fun _ h2 => roomForLong_clock h2 fun _ h3 =>
    ite_goesOn (trap_clock h3) (ite_goesOn (trap_clock h3) (issueLong_clock h3))

theorem barrier_clock {k d s} (hs : AtCycle now s) : GoesOn now (barrier k d s) :=
  inSet_clock hs fun _ h1 => drained_clock h1 fun _ h2 => ite_goesOn (park_clock h2) (ite_goesOn (trap_clock h2) (park_clock (modTile_clock h2)))

theorem barDepart_clock {k s t i} (hs : AtCycle now s) : AtCycle now (barDepart k s t i) := by
  unfold barDepart
  split
  · exact ite_clock (complete_clock (acquire_clock (modHart_clock hs))) hs
  · exact hs

theorem execBarrierGenerationComplete_clock {s} (hs : AtCycle now s) : GoesOn now (execBarrierGenerationComplete s) := by
  unfold execBarrierGenerationComplete
  split
  · refine ite_goesOn ?_ hs
    exact foldl_clock hs fun _ _ h1 => foldl_clock (modTile_clock h1) fun _ _ h3 => barDepart_clock h3
  · exact hs

theorem execBarrierWaitReport_clock {s} (hs : AtCycle now s) : GoesOn now (execBarrierWaitReport s) := by
  unfold execBarrierWaitReport
  split
  · exact ite_goesOn (tileReport_clock (modTile_clock hs)) hs
  · exact hs

theorem noteWaits_clock {s} (hs : AtCycle now s) : AtCycle now (noteWaits s) :=
  hs

/-! ## The completion of long operations -/

theorem endRing_clock {s h u block alone} (hs : AtCycle now s) : AtCycle now (endRing s h u block alone) := by
  unfold endRing
  split <;> exact hs

theorem onTileOf_clock {s h f} (hs : AtCycle now s) : AtCycle now (onTileOf s h f) := by
  unfold onTileOf
  split <;> exact hs

theorem finishOp_clock {s h o} (hs : AtCycle now s) : AtCycle now (finishOp s h o) := by
  unfold finishOp
  split
  · exact writeBack_clock hs
  · exact writeBack_clock (loadAccess_clock hs)
  · exact writeBack_clock (storeAccessDone_clock hs)
  · exact writeBack_clock (onTileOf_clock hs)
  · exact writeBack_clock (onTileOf_clock hs)
  · exact writeBack_clock (endRing_clock hs)
  · exact hs

theorem completeOp_clock {s h i o} (hs : AtCycle now s) : AtCycle now (completeOp s h i o) :=
  fenceGoesOn_clock (modHart_clock (finishOp_clock hs))

/-! ## The queues -/

theorem modRec_clock {s d c q f} (hs : AtCycle now s) : AtCycle now (modRec s d c q f) := hs
theorem noteReady_clock {s c n} (hs : AtCycle now s) : AtCycle now (noteReady s c n) := hs
theorem dropNode_clock {s c n} (hs : AtCycle now s) : AtCycle now (dropNode s c n) := hs

theorem sendMsi_clock {s vec v} (hs : AtCycle now s) : AtCycle now (sendMsi s vec v) := by
  unfold sendMsi
  split
  · exact ite_clock hs hs
  · exact hs

theorem countDown_clock {s d c node succ} (hs : AtCycle now s) : AtCycle now (countDown s d c node succ) := by
  unfold countDown
  split
  next s1 _ _ e =>
    have h1 : AtCycle now s1 := fst_clock (unitRead_clock hs) e
    exact ite_clock (unitReport_clock h1) (ite_clock (noteReady_clock (physWrite_clock (physWrite_clock h1))) (physWrite_clock h1))
  · exact writeDropped_clock (fst_clock (unitRead_clock hs) ‹_›)
  · exact fst_clock (unitRead_clock hs) ‹_›

theorem succList_clock {s d c va n} (hs : AtCycle now s) : AtCycle now (succList s d c va n).1 := by
  induction n generalizing s va with
  | zero => exact hs
  | succ n ih =>
    unfold succList
    split
    next e => exact ih (fst_clock (unitRead_clock hs) e)
    next e => exact ih (fst_clock (unitRead_clock hs) e)

theorem endReady_clock {s d c q node v} (hs : AtCycle now s) : AtCycle now (endReady s d c q node v).1 := by
  unfold endReady
  split
  next s1 e =>
    have h1 : AtCycle now s1 := fst_clock (unitReady_clock hs) e
    split
    · exact unitReady_clock (succList_clock (fst_clock (unitReady_clock h1) ‹_›))
    · exact unitReady_clock h1
  · exact unitReady_clock hs

theorem endWrite_clock {s d l} (hs : AtCycle now s) : AtCycle now (endWrite s d l) := by
  unfold endWrite
  extract_lets
  split
  next s1 _ e =>
  have h1 : AtCycle now s1 := fst_clock (succList_clock (unitPut_clock hs fun _ _ h2 => physWrite_clock h2)) e
  extract_lets s3 _ s4
  have h3 : AtCycle now s3 := foldl_clock h1 fun _ _ h5 => countDown_clock h5
  have h4 : AtCycle now s4 := by
    unfold s4
    split
    · exact hwFill_clock (fst_clock (unitRead_clock h3) ‹_›)
    · exact writeDropped_clock (fst_clock (unitRead_clock h3) ‹_›)
    · exact fst_clock (unitRead_clock h3) ‹_›
  exact ite_clock (sendMsi_clock h4) h4

theorem tryEnd_clock {s k} (hs : AtCycle now s) : AtCycle now (tryEnd s k) := by
  unfold tryEnd
  split
  · refine ite_clock hs ?_
    extract_lets
    split
    · exact fst_clock (endReady_clock (actFor_clock hs)) ‹_›
    · exact unitSettled_clock (endWrite_clock (fst_clock (endReady_clock (actFor_clock hs)) ‹_›))
  · exact hs

theorem modLaunch_clock {s k f} (hs : AtCycle now s) : AtCycle now (modLaunch s k f) := hs
theorem endLaunch_clock {s k ends} (hs : AtCycle now s) : AtCycle now (endLaunch s k ends) := tryEnd_clock (modLaunch_clock hs)
theorem endNode_clock {s d c q n v ends} (hs : AtCycle now s) : AtCycle now (endNode s d c q n v ends) := tryEnd_clock hs
theorem refuseReport_clock {s d c q n reason} (hs : AtCycle now s) : AtCycle now (refuseReport s d c q n reason) := unitReport_clock hs
theorem linkNode_clock {s d c epa n} (hs : AtCycle now s) : AtCycle now (linkNode s d c epa n) :=
  hwFill_clock (unitPut_clock (physWrite_clock hs) fun _ _ h1 => physWrite_clock h1)

theorem launchSent_clock {s d c epa n} (hs : AtCycle now s) : AtCycle now (launchSent s d c epa n) := by
  unfold launchSent
  split
  · exact linkNode_clock (fst_clock (travel_clock hs) ‹_›)
  · exact poisonReport_clock (taintLine_clock (linkNode_clock (fst_clock (travel_clock hs) ‹_›)))
  · exact poisonReport_clock (fst_clock (travel_clock hs) ‹_›)

theorem oldOrder_clock {s c old k} (hs : AtCycle now s) (hk : ∀ t, AtCycle now t → GoesOn now (k t)) : GoesOn now (oldOrder s c old k) := by
  unfold oldOrder
  split
  · exact inOrder_clock hs hk
  · exact hk _ hs

theorem execLaunch_clock {ea s} (hs : AtCycle now s) : GoesOn now (execLaunch ea s) := by
  unfold execLaunch
  refine inSet_clock hs fun _ h1 => sources_clock h1 fun _ h2 => ?_
  extract_lets
  refine blockRead_clock h2 fun _ _ _ h3 => ite_goesOn (trap_clock h3) <| ite_goesOn (trap_clock h3) <| gAccess_clock h3 fun _ _ h4 =>
    inOrder_clock h4 fun _ h5 => heldAcked_clock h5 fun _ h6 => ?_
  extract_lets
  split
  · exact park_clock (fst_clock (unitReady_clock (actFor_clock h6)) ‹_›)
  · exact oldOrder_clock (fst_clock (unitReady_clock (actFor_clock h6)) ‹_›) fun _ h7 => done_clock (unitSettled_clock (launchSent_clock h7))

theorem consumeArm_clock {s pa} (hs : AtCycle now s) : AtCycle now (consumeArm s pa) := serveSlicesAll_clock (gDrain_clock hs)

theorem walkReady_clock {s d c f n} (hs : AtCycle now s) : AtCycle now (walkReady s d c f n).1 := by
  induction f generalizing s n with
  | zero => exact hs
  | succ f ih =>
    unfold walkReady
    refine ite_fst_clock hs ?_
    have h1 := unitReady_clock (d := d) (c := c) (need := .readWrite) (l := [n]) hs
    split
    next e => exact ite_fst_clock (fst_clock h1 e) (ih (fst_clock h1 e))
    next => exact h1

theorem walkNode_clock {s d c q n pa v} (hs : AtCycle now s) : AtCycle now (walkNode s d c q n pa v) :=
  ite_clock (endNode_clock (refuseReport_clock (physWrite_clock (modRec_clock hs))))
    (ite_clock (noteReady_clock (physWrite_clock (modRec_clock hs))) (physWrite_clock (modRec_clock hs)))

theorem walkList_clock {s d c q f n last} (hs : AtCycle now s) : AtCycle now (walkList s d c q f n last).1 := by
  induction f generalizing s n last with
  | zero => exact hs
  | succ f ih =>
    unfold walkList
    refine ite_fst_clock hs (ite_fst_clock (unitReport_clock hs) ?_)
    have h1 := unitRead_clock (d := d) (c := c) (va := n) (n := 64) (need := .readWrite) hs
    split
    next e => exact ite_fst_clock (unitReport_clock (fst_clock h1 e)) (ih (walkNode_clock (fst_clock h1 e)))
    next e => exact unitReport_clock (fst_clock h1 e)
    next e => exact fst_clock h1 e

theorem walkQueue_clock {s d c q} (hs : AtCycle now s) : AtCycle now (walkQueue s d c q) := by
  unfold walkQueue
  extract_lets
  split
  next s1 _ _ e =>
    have h1 : AtCycle now s1 := fst_clock (unitRead_clock hs) e
    extract_lets
    split
    · split
      next s2 _ e =>
      have h2 : AtCycle now s2 := fst_clock (walkList_clock (fst_clock (unitRead_clock h1) ‹_›)) e
      exact ite_clock h2 (physWrite_clock h2)
    · exact unitReport_clock (fst_clock (unitRead_clock h1) ‹_›)
  · exact unitReport_clock (fst_clock (unitRead_clock hs) ‹_›)

theorem lostEntry_clock {s a} (hs : AtCycle now s) : AtCycle now (lostEntry s a) := by
  unfold lostEntry
  split
  · exact fst_clock (unitXlate_clock (actFor_clock hs)) ‹_›
  · exact fst_clock (unitXlate_clock (actFor_clock hs)) ‹_›
  · exact unitSettled_clock (unitReport_clock (consumeArm_clock (fst_clock (unitXlate_clock (actFor_clock hs)) ‹_›)))

theorem execQueueWalk_clock {s} (hs : AtCycle now s) : GoesOn now (execQueueWalk s) := by
  unfold execQueueWalk
  split
  · split
    · split
      · exact lostEntry_clock hs
      · exact hs
    · extract_lets
      split
      · exact fst_clock (unitReady_clock (actFor_clock hs)) ‹_›
      next s1 e =>
        have h1 : AtCycle now s1 := fst_clock (unitReady_clock (actFor_clock hs)) e
        split
        · exact fst_clock (unitReady_clock h1) ‹_›
        next s2 e =>
          have h2 : AtCycle now s2 := fst_clock (unitReady_clock h1) e
          split
          · exact fst_clock (walkReady_clock h2) ‹_›
          next s3 e =>
            have h3 : AtCycle now s3 := fst_clock (walkReady_clock h2) e
            extract_lets s4
            have h4 : AtCycle now s4 := by unfold s4; split; exacts [consumeArm_clock h3, h3]
            exact unitSettled_clock (walkQueue_clock (modRec_clock h4))
  · exact hs

theorem execPeriodBoundary_clock {s} (hs : AtCycle now s) : GoesOn now (execPeriodBoundary s) := ite_goesOn hs hs

theorem readRange_clock {s d c va n} (hs : AtCycle now s) : AtCycle now (readRange s d c va n).1 := by
  unfold readRange
  split
  · exact readLines_clock (fst_clock (unitChunks_clock hs) ‹_›)
  · exact fst_clock (unitChunks_clock hs) ‹_›

theorem dispatchNode_clock {s d c q n v start} (hs : AtCycle now s) (hstart : ∀ t, AtCycle now t → AtCycle now (start t)) :
    AtCycle now (dispatchNode s d c q n v start) := by
  unfold dispatchNode
  refine ite_clock (endNode_clock hs) ?_
  split
  next s1 _ e =>
  have h1 : AtCycle now s1 := fst_clock (freshId_clock (hstart _ hs)) e
  split
  · exact h1
  · split
    next s2 _ e =>
      have h2 : AtCycle now s2 := fst_clock (readRange_clock h1) e
      exact ite_clock (endNode_clock (refuseReport_clock h2)) h2
    · exact endNode_clock (refuseReport_clock (fst_clock (readRange_clock h1) ‹_›))
  · exact endNode_clock h1
  · exact endNode_clock (sendMsi_clock h1)

theorem dispatchRead_clock {s d c q n v start} (hs : AtCycle now s) (hstart : ∀ t, AtCycle now t → AtCycle now (start t)) :
    AtCycle now (dispatchRead s d c q n v start) :=
  ite_clock (dispatchNode_clock (readRange_clock hs) hstart) (endNode_clock (refuseReport_clock (readRange_clock hs)))

theorem execNodeDispatch_clock {s} (hs : AtCycle now s) : GoesOn now (execNodeDispatch s) := by
  unfold execNodeDispatch
  split
  · extract_lets
    split
    · refine ite_goesOn (actFor_clock hs) ?_
      split
      · exact fst_clock (unitReady_clock (actFor_clock hs)) ‹_›
      next s1 e =>
        have h1 : AtCycle now s1 := fst_clock (unitReady_clock (actFor_clock hs)) e
        split
        · exact unitSettled_clock (dispatchRead_clock (fst_clock (unitRead_clock h1) ‹_›) fun _ h2 => physWrite_clock h2)
        · exact fst_clock (unitRead_clock h1) ‹_›
        next s2 _ e =>
          have h2 : AtCycle now s2 := fst_clock (unitRead_clock h1) e
          extract_lets
          split
          · exact unitSettled_clock (dispatchRead_clock (fst_clock (unitRead_clock (writeDropped_clock h2)) ‹_›) fun _ h3 => h3)
          · exact unitSettled_clock (dropNode_clock (fst_clock (unitRead_clock (writeDropped_clock h2)) ‹_›))
    · exact actFor_clock hs
  · exact tryEnd_clock hs
  · exact hs

theorem allReadable_clock {s d c l} (hs : AtCycle now s) : AtCycle now (allReadable s d c l).1 := by
  induction l generalizing s with
  | nil => exact hs
  | cons va r ih =>
    unfold allReadable
    split
    next e => exact ih (fst_clock (unitXlate_clock hs) e)
    next e => exact fst_clock (unitXlate_clock hs) e

theorem takeHeader_clock {s d l} (hs : AtCycle now s) : AtCycle now (takeHeader s d l).1 := by
  unfold takeHeader
  split
  · exact hs
  · split
    · exact fst_clock (unitReady_clock hs) ‹_›
    next s1 e =>
      have h1 : AtCycle now s1 := fst_clock (unitReady_clock hs) e
      split
      · exact modLaunch_clock (fst_clock (unitRead_clock h1) ‹_›)
      · exact unitRead_clock h1

theorem takePool_clock {s d l h} (hs : AtCycle now s) : AtCycle now (takePool s d l h).1 := by
  unfold takePool
  extract_lets
  split
  · exact hs
  · split
    · exact fst_clock (unitReady_clock hs) ‹_›
    · split
      next s1 _ e =>
      have h1 : AtCycle now s1 := fst_clock (readRange_clock (fst_clock (unitReady_clock hs) ‹_›)) e
      split
      next s2 _ e =>
      have h2 : AtCycle now s2 := fst_clock (readRange_clock h1) e
      split
      · exact modLaunch_clock h2
      · exact h2

theorem lastChecks_clock {s d l h p} (hs : AtCycle now s) : AtCycle now (lastChecks s d l h p).1 := by
  unfold lastChecks
  split
  · exact fst_clock (unitReady_clock hs) ‹_›
  next s1 e =>
    have h1 : AtCycle now s1 := fst_clock (unitReady_clock hs) e
    split
    · exact fst_clock (allReadable_clock h1) ‹_›
    next s2 e =>
      have h2 : AtCycle now s2 := fst_clock (allReadable_clock h1) e
      exact ite_fst_clock h2 (ite_fst_clock h2 h2)

theorem checkKernel_clock {s d l} (hs : AtCycle now s) : AtCycle now (checkKernel s d l).1 := by
  unfold checkKernel
  split
  · exact fst_clock (takeHeader_clock hs) ‹_›
  · exact fst_clock (takeHeader_clock hs) ‹_›
  next s1 _ _ e =>
    have h1 : AtCycle now s1 := fst_clock (takeHeader_clock hs) e
    split
    · exact fst_clock (takePool_clock h1) ‹_›
    · exact fst_clock (takePool_clock h1) ‹_›
    next s2 _ _ e =>
      have h2 : AtCycle now s2 := fst_clock (takePool_clock h1) e
      split
      · exact h2
      · exact ite_fst_clock h2 (lastChecks_clock h2)

theorem execKernelChecking_clock {s} (hs : AtCycle now s) : GoesOn now (execKernelChecking s) := by
  unfold execKernelChecking
  split
  · split
    · refine ite_goesOn hs ?_
      extract_lets
      split
      · exact fst_clock (checkKernel_clock (actFor_clock hs)) ‹_›
      · exact endLaunch_clock (refuseReport_clock (unitSettled_clock (fst_clock (checkKernel_clock (actFor_clock hs)) ‹_›)))
      · exact modLaunch_clock (unitSettled_clock (fst_clock (checkKernel_clock (actFor_clock hs)) ‹_›))
    · exact hs
  · exact hs

/-! ## Groups -/

theorem setGroup_clock {s g} (hs : AtCycle now s) : AtCycle now (setGroup s g) := hs
theorem modTiles_clock {s f l} (hs : AtCycle now s) : AtCycle now (modTiles s f l) :=
  foldl_clock hs fun _ _ h1 => modTile_clock h1

theorem execGroupPlacement_clock {s} (hs : AtCycle now s) : GoesOn now (execGroupPlacement s) := by
  unfold execGroupPlacement
  split
  · split
    · refine ite_goesOn hs ?_
      split
      · exact hs
      · exact modLaunch_clock (modTiles_clock hs)
    · exact hs
  · exact hs

theorem readImage_clock {s off l} (hs : AtCycle now s) : AtCycle now (readImage s off l).1 := by
  induction l generalizing s off with
  | nil => exact hs
  | cons c r ih => exact ih (lineRead_clock hs (n := c.2))

theorem readImages_clock {s l} (hs : AtCycle now s) : AtCycle now (readImages s l).1 := by
  induction l generalizing s with
  | nil => exact hs
  | cons c r ih => exact ih (readImage_clock hs)

theorem loadChunks_clock {s d c l} (hs : AtCycle now s) : AtCycle now (loadChunks s d c l).1 := by
  induction l generalizing s with
  | nil => exact hs
  | cons x r ih =>
    unfold loadChunks
    split
    next e =>
      have h1 := ih (fst_clock (unitChunks_clock hs) e)
      split
      · exact fst_clock h1 ‹_›
      · exact h1
    next e => exact fst_clock (unitChunks_clock hs) e
    next e => exact fst_clock (unitChunks_clock hs) e

theorem releaseSenders_clock {s t} (hs : AtCycle now s) : AtCycle now (releaseSenders s t) := by
  unfold releaseSenders
  extract_lets
  refine foldl_clock (foldl_clock hs fun _ _ h1 => posterGoesOn_clock h1) fun _ _ h2 => ?_
  split
  · exact awaitDone_clock h2
  · exact h2

theorem dropGroup_clock {s g} (hs : AtCycle now s) : AtCycle now (dropGroup s g) :=
  modTiles_clock (foldl_clock hs fun _ _ h => releaseSenders_clock h)

theorem forgetGroup_clock {s g} (hs : AtCycle now s) : AtCycle now (forgetGroup s g) :=
  hs
theorem loadFailed_clock {s l} (hs : AtCycle now s) : AtCycle now (loadFailed s l) :=
  endLaunch_clock (unitSettled_clock (refuseReport_clock (foldl_clock hs fun _ _ h1 => dropGroup_clock (forgetGroup_clock h1))))
theorem notePoison_clock {s l bad} (hs : AtCycle now s) : AtCycle now (notePoison s l bad) :=
  ite_clock hs (modLaunch_clock (foldl_clock hs fun _ _ h1 => unitPoison_clock h1))
theorem loadPoison_clock {s l first im} (hs : AtCycle now s) : AtCycle now (loadPoison s l first im) := notePoison_clock hs

theorem takePacket_clock {s l} (hs : AtCycle now s) : AtCycle now (takePacket s l).1 := by
  unfold takePacket
  split
  · exact hs
  · split
    · exact fst_clock (loadChunks_clock hs) ‹_›
    · exact fst_clock (loadChunks_clock hs) ‹_›
    · exact notePoison_clock (modLaunch_clock (readImage_clock (readImage_clock (fst_clock (loadChunks_clock hs) ‹_›))))

theorem loadNext_clock {s l g p im} (hs : AtCycle now s) : AtCycle now (loadNext s l g p im) := by
  unfold loadNext
  extract_lets
  split
  next s1 _ e =>
  have h1 : AtCycle now s1 := fst_clock (readImages_clock hs) e
  extract_lets s2 _ _
  have h2 : AtCycle now s2 := unitSettled_clock (loadPoison_clock h1)
  exact setGroup_clock (setTile_clock (releaseSenders_clock h2))

theorem execGroupLoad_clock {s} (hs : AtCycle now s) : GoesOn now (execGroupLoad s) := by
  unfold execGroupLoad
  split
  · split
    · split
      · refine ite_goesOn hs ?_
        split
        · exact fst_clock (takePacket_clock (actFor_clock hs)) ‹_›
        · exact loadFailed_clock (fst_clock (takePacket_clock (actFor_clock hs)) ‹_›)
        next s1 _ e =>
          have h1 : AtCycle now s1 := fst_clock (takePacket_clock (actFor_clock hs)) e
          split
          · exact fst_clock (loadChunks_clock h1) ‹_›
          · exact loadFailed_clock (fst_clock (loadChunks_clock h1) ‹_›)
          · exact loadNext_clock (fst_clock (loadChunks_clock h1) ‹_›)
      · exact hs
    · exact hs
  · exact hs

theorem execGroupRelease_clock {s} (hs : AtCycle now s) : GoesOn now (execGroupRelease s) := by
  unfold execGroupRelease
  split
  · split
    · split
      · exact ite_goesOn hs (foldl_clock (modTiles_clock (setGroup_clock hs)) fun _ _ h2 => serveTileAll_clock h2)
      · exact hs
    · exact hs
  · exact hs

theorem launchRetired_clock {s k trap} (hs : AtCycle now s) : AtCycle now (launchRetired s k trap) := by
  unfold launchRetired
  split
  · exact ite_clock (endLaunch_clock (modLaunch_clock hs)) (modLaunch_clock hs)
  · exact hs

theorem execGroupRetire_clock {s} (hs : AtCycle now s) : GoesOn now (execGroupRetire s) := by
  unfold execGroupRetire
  split
  · split
    · exact ite_goesOn (launchRetired_clock (dropGroup_clock hs)) hs
    · exact hs
  · exact hs

theorem levelMove_clock {s t} (hs : AtCycle now s) : AtCycle now (levelMove s t) := by
  unfold levelMove
  split
  · exact ite_clock hs (modTile_clock (modTile_clock hs))
  · exact hs

theorem execLevellerTick_clock {s} (hs : AtCycle now s) : GoesOn now (execLevellerTick s) := by
  unfold execLevellerTick
  split
  · exact ite_goesOn (levelMove_clock (modTile_clock hs)) hs
  · exact hs

/-! ## Mailboxes -/

theorem mailPark_clock {r s} (hs : AtCycle now s) : GoesOn now (mailPark r s) := park_clock (modTile_clock hs)
theorem popPost_clock {p rest d a s} (hs : AtCycle now s) : AtCycle now (popPost p rest d a s) :=
  mailRefill_clock (acquire_clock (modMe_clock (readEntry_clock (modTile_clock hs))))

theorem execRecvm_clock {d a s} (hs : AtCycle now s) : GoesOn now (execRecvm d a s) := by
  unfold execRecvm
  refine inSet_clock hs fun _ h1 => dests_clock h1 fun _ h2 => ?_
  split
  · exact ite_goesOn (done_clock (popPost_clock h2)) (mailPark_clock h2)
  · exact mailPark_clock h2

theorem execRecvmO_clock {d a s} (hs : AtCycle now s) : GoesOn now (execRecvmO d a s) := by
  unfold execRecvmO
  refine inSet_clock hs fun _ h1 => dests_clock h1 fun _ h2 => ?_
  extract_lets
  split
  · exact ite_goesOn (done_clock (popPost_clock (modTile_clock h2))) (mailPark_clock h2)
  · exact ite_goesOn (trap_clock (modTile_clock h2)) (mailPark_clock h2)

theorem waitMail_clock {len s} (hs : AtCycle now s) : GoesOn now (waitMail len s) :=
  inSet_clock hs fun _ h1 => ite_goesOn (park_clock h1) (done_clock h1)

theorem execPeekm_clock {d a s} (hs : AtCycle now s) : GoesOn now (execPeekm d a s) := by
  unfold execPeekm
  refine inSet_clock hs fun _ h1 => dests_clock h1 fun _ h2 => ?_
  extract_lets m
  cases m with
  | nil => exact done_clock (modMe_clock h2)
  | cons p r =>
    have h3 {h f} := readEntry_clock (h := h) (f := f) h2
    exact ite_goesOn (done_clock (modMe_clock h2)) (done_clock (modMe_clock (ite_clock h3 (modTile_clock h3))))

theorem endPost_clock {tag payload s} (hs : AtCycle now s) : GoesOn now (endPost tag payload s) := by
  unfold endPost
  split
  · exact ite_goesOn (endSequencer_clock hs) (mailPost_clock (modMe_clock (freshId_clock hs)))
  · exact hs

theorem execSendm_clock {d a b s} (hs : AtCycle now s) : GoesOn now (execSendm d a b s) := by
  unfold execSendm
  refine inSet_clock hs fun _ h1 => ?_
  split
  · exact ite_goesOn (illegal_clock h1) (sources_clock h1 fun _ h2 => ite_goesOn (trap_clock h2) (drained_clock h2 fun _ h3 => endPost_clock h3))
  · refine sources_clock h1 fun _ h2 => ?_
    extract_lets
    refine ite_goesOn (trap_clock h2) <| ite_goesOn (trap_clock h2) <| acked_clock h2 fun _ h3 => ?_
    split
    · exact done_clock (poisonReport_clock (fst_clock (onLoom_clock h3) ‹_›))
    · exact park_clock (keep_clock (fst_clock (onLoom_clock h3) ‹_›))

theorem execMailboxPostArrival_clock {s} (hs : AtCycle now s) : GoesOn now (execMailboxPostArrival s) := by
  unfold execMailboxPostArrival
  split
  · split
    · split
      · refine ite_goesOn hs ?_
        split
        · exact hs
        · exact hs
        · exact trapOn_clock hs
        · extract_lets s1 _
          have h1 : AtCycle now s1 := parkHart_clock (commitNotes_clock hs)
          exact mailPost_clock (ite_clock (poisonReport_clock h1) h1)
      · exact hs
    · exact hs
  · exact hs

/-! ## The gang switch -/

theorem readDesc_clock {s w} (hs : AtCycle now s) : AtCycle now (readDesc s w).1 := by
  unfold readDesc
  refine ite_fst_clock hs ?_
  split
  · exact fst_clock (xlateHart_clock hs) ‹_›
  · split
    next s1 _ _ e =>
    have h1 : AtCycle now s1 := fst_clock (lineRead_clock (fst_clock (xlateHart_clock hs) ‹_›)) e
    refine ite_fst_clock h1 ?_
    split
    · exact fst_clock (xlateHart_clock h1) ‹_›
    · split
      next s2 _ _ e =>
      have h2 : AtCycle now s2 := fst_clock (lineRead_clock (fst_clock (xlateHart_clock h1) ‹_›)) e
      split <;> exact h2
    · exact fst_clock (xlateHart_clock h1) ‹_›
  · exact fst_clock (xlateHart_clock hs) ‹_›

theorem readDescs_clock {s l} (hs : AtCycle now s) : AtCycle now (readDescs s l).1 := by
  induction l generalizing s with
  | nil => exact hs
  | cons w r ih =>
    unfold readDescs
    split
    next e => exact fst_clock (readDesc_clock hs) e
    next e => exact fst_clock (readDesc_clock hs) e
    next e =>
      have h1 := ih (fst_clock (readDesc_clock hs) e)
      split
      next e => exact fst_clock h1 e
      next => exact h1

theorem takeCtx_clock {s c x} (hs : AtCycle now s) : AtCycle now (takeCtx s c x) := hs

theorem descState_clock {s x r} (hs : AtCycle now s) : AtCycle now (descState s x r) := by
  unfold descState
  split
  · exact physWrite_clock hs
  · exact hs

theorem setRes_clock {s c p r} (hs : AtCycle now s) : AtCycle now (setRes s c p r) := by
  unfold setRes
  split
  next x e =>
    exact ite_clock hs (descState_clock hs)
  next => exact hs

theorem nameSwitch_clock {s p t c desc issuer} (hs : AtCycle now s) : AtCycle now (nameSwitch s p t c desc issuer) :=
  ite_clock hs (setRes_clock hs)

theorem destroyCtx_clock {s c} (hs : AtCycle now s) : AtCycle now (destroyCtx s c) := by
  unfold destroyCtx
  extract_lets s1 s2
  have h1 : AtCycle now s1 := by
    unfold s1
    split
    · exact descState_clock hs
    · exact hs
  have h2 : AtCycle now s2 := h1
  refine foldl_clock h2 fun _ _ h => foldl_clock h fun _ _ h => ?_
  split
  · exact ite_clock (freeMenderSlot_clock h) h
  · exact h

theorem takeCtxs_clock {s} {l : List (Nat × Ctx)} (hs : AtCycle now s) : AtCycle now (l.foldl (fun s c => takeCtx s c.1 c.2) s) :=
  foldl_clock hs fun _ _ h => takeCtx_clock h

theorem srTake_clock {s b l} (hs : AtCycle now s) : AtCycle now (srTake s b l) := by
  unfold srTake
  have h1 := takeCtxs_clock (l := l) hs
  extract_lets p s1
  split
  · exact nameSwitch_clock h1
  · exact h1
  · exact h1
  · exact foldl_clock h1 fun _ _ h => destroyCtx_clock h

theorem switchRequest_clock {d a s} (hs : AtCycle now s) : GoesOn now (switchRequest d a s) := by
  unfold switchRequest
  refine inSet_clock hs fun _ h1 => supOnly_clock h1 fun _ h2 => sources_clock h2 fun _ h3 => blockRead_clock h3 fun _ b s h4 =>
    dests_clock h4 fun _ h5 => acked_clock h5 fun s h6 => ?_
  split
  next e => exact park_clock (fst_clock (readDescs_clock h6) e)
  next s1 l e =>
    have h7 : AtCycle now s1 := fst_clock (readDescs_clock h6) e
    refine done_clock (modMe_clock (ite_clock (srTake_clock h7) h7))

theorem execTimeSliceNaming_clock {s} (hs : AtCycle now s) : GoesOn now (execTimeSliceNaming s) := by
  unfold execTimeSliceNaming
  split
  · extract_lets
    split
    · exact nameSwitch_clock hs
    · exact hs
  · exact hs

theorem settleAll_clock {hsl n s} (hs : AtCycle now s) : AtCycle now (settleAll hsl n s) := by
  induction n generalizing s with
  | zero => exact hs
  | succ n ih =>
    unfold settleAll
    split
    · exact ih (completeOp_clock hs)
    · exact hs

theorem settleTrap_clock {s h} (hs : AtCycle now s) : AtCycle now (settleTrap s h) := by
  unfold settleTrap
  split
  · exact ite_clock (takeTrap_clock hs) hs
  · exact hs

theorem settleMessage_clock {s h ts} (hs : AtCycle now s) : AtCycle now (settleMessage s h ts) := by
  unfold settleMessage
  split
  · exact hs
  · split
    · exact modTile_clock hs
    · exact hs
  · exact hs

theorem again_clock {s h} (hs : AtCycle now s) : AtCycle now (again s h) := by
  unfold again
  split
  next s1 _ e =>
  have h1 : AtCycle now s1 := fst_clock (freshId_clock hs) e
  split
  · exact modHart_clock h1
  · exact modHart_clock h1
  · exact h1

theorem holdOutside_clock {ts t s r} (hs : AtCycle now s) : AtCycle now (holdOutside ts t s r) :=
  ite_clock hs (modHart_clock (freshId_clock hs))

theorem withdraw_clock {s ts hsl} (hs : AtCycle now s) : AtCycle now (withdraw s ts hsl) := by
  unfold withdraw
  extract_lets s1 w s2 s3
  have h1 : AtCycle now s1 := foldl_clock hs fun _ _ h => foldl_clock h fun _ _ h => holdOutside_clock h
  have h2 : AtCycle now s2 := foldl_clock h1 fun _ _ h => again_clock h
  have h3 : AtCycle now s3 := foldl_clock h2 fun _ _ h => by
    split
    · exact again_clock h
    · exact h
  exact h3

theorem stopTiles_clock {s ts} (hs : AtCycle now s) : AtCycle now (stopTiles s ts) :=
  modTiles_clock (withdraw_clock (foldl_clock (foldl_clock (settleAll_clock (modTiles_clock hs)) fun _ _ h2 =>
    settleTrap_clock h2) fun _ _ h3 => settleMessage_clock h3))

theorem execGangSwitchStop_clock {s} (hs : AtCycle now s) : GoesOn now (execGangSwitchStop s) := by
  fun_cases execGangSwitchStop s with
  | case1 k _ p x w _ _ s1 s2 =>
    have h2 : AtCycle now s2 := by
      unfold s2
      split
      next c _ =>
        have h1 : AtCycle now (setRes s1 c p .leaving) := setRes_clock (stopTiles_clock hs)
        extract_lets s3
        split
        next e => exact h1
        next => exact h1
      next => exact stopTiles_clock hs
    exact h2
  | case2 | case3 => exact hs

/-! ## SYS and the CSRs -/

theorem execNop_clock {s} (hs : AtCycle now s) : GoesOn now (execNop s) := inSet_clock hs fun _ h1 => done_clock h1
theorem execEcall_clock {s} (hs : AtCycle now s) : GoesOn now (execEcall s) := inSet_clock hs fun _ h1 => trap_clock h1
theorem execEbreak_clock {s} (hs : AtCycle now s) : GoesOn now (execEbreak s) := inSet_clock hs fun _ h1 => trap_clock h1
theorem execTret_clock {s} (hs : AtCycle now s) : GoesOn now (execTret s) := inSet_clock hs fun _ h1 => trapReturn_clock h1
theorem execIfence_clock {s} (hs : AtCycle now s) : GoesOn now (execIfence s) :=
  inSet_clock hs fun _ h1 => drained_clock h1 fun _ h2 => done_clock (by split; exacts [modTile_clock h2, h2])
theorem execPark_clock {a s} (hs : AtCycle now s) : GoesOn now (execPark a s) :=
  inSet_clock hs fun _ h1 => sources_clock h1 fun _ h2 => ite_goesOn (park_clock h2) (done_clock h2)
theorem execCSysNop_clock {s} (hs : AtCycle now s) : GoesOn now (execCSysNop s) := inSet_clock hs fun _ h1 => done_clock h1

theorem csrClear_clock {s h n mask} (hs : AtCycle now s) : AtCycle now (csrClear s h n mask) := by
  unfold csrClear
  refine ite_clock (modHart_clock hs) <| ite_clock ?_ hs
  split
  · exact modTile_clock hs
  · exact hs

theorem csrWrite_clock {s h n v} (hs : AtCycle now s) : AtCycle now (csrWrite s h n v) := by
  unfold csrWrite
  split <;> exact hs

theorem csrFetch_clock {s h n} (hs : AtCycle now s) : AtCycle now (csrFetch s h n).1 := by
  unfold csrFetch
  split
  · exact hs
  · extract_lets _ s1
    have h1 : AtCycle now s1 := by
      unfold s1
      split
      · exact modTile_clock (modHart_clock hs)
      · exact modHart_clock hs
    exact flawSeen_clock h1

theorem csrCheck_clock {n s k} (hs : AtCycle now s) (hk : ∀ t, AtCycle now t → GoesOn now (k t)) : GoesOn now (csrCheck n s k) :=
  ite_goesOn (illegal_clock hs) (inSet_clock hs fun _ h1 => ite_goesOn (illegal_clock h1) (ite_goesOn (supOnly_clock h1 hk) (hk _ h1)))
theorem flagsSettled_clock {n s k} (hs : AtCycle now s) (hk : ∀ t, AtCycle now t → GoesOn now (k t)) : GoesOn now (flagsSettled n s k) :=
  ite_goesOn (hold_clock hs) (hk _ hs)
theorem csrDone_clock {st s} (hs : AtCycle now s) : GoesOn now (csrDone st s) := completeAs_clock hs
theorem execCsrr_clock {d csr s} (hs : AtCycle now s) : GoesOn now (execCsrr d csr s) :=
  csrCheck_clock hs fun _ h1 => flagsSettled_clock h1 fun _ h2 => dests_clock h2 fun _ h3 => done_clock (modMe_clock (csrFetch_clock h3))
theorem execCsrw_clock {csr a s} (hs : AtCycle now s) : GoesOn now (execCsrw csr a s) :=
  csrCheck_clock hs fun _ h1 => sources_clock h1 fun _ h2 => csrDone_clock (csrWrite_clock (csrClear_clock h2))

theorem csrSwap_clock {f clr d csr a s} (hs : AtCycle now s) : GoesOn now (csrSwap f clr d csr a s) :=
  csrCheck_clock hs fun _ h1 => sources_clock h1 fun _ h2 => flagsSettled_clock h2 fun _ h3 => dests_clock h3 fun _ h4 =>
    csrDone_clock (modMe_clock (csrWrite_clock (ite_clock (csrClear_clock (csrFetch_clock h4)) (csrFetch_clock h4))))

/-! ## The press -/

theorem dropLines_clock {s line n} (hs : AtCycle now s) : AtCycle now (dropLines s line n) := foldl_clock hs fun _ _ h1 => dropLine_clock h1
theorem wakePage_clock {s pa} (hs : AtCycle now s) : AtCycle now (wakePage s pa) := foldl_clock hs fun _ _ h1 => wakeSlice_clock h1

theorem pageSent_clock {old s pa} (hs : AtCycle now s) : AtCycle now (pageSent old s pa) := by
  unfold pageSent
  refine ite_clock hs <| foldl_clock hs fun _ _ h1 => ?_
  extract_lets
  split
  · exact fst_clock (travel_clock h1) ‹_›
  · exact taintLine_clock (fst_clock (travel_clock h1) ‹_›)
  next s2 e =>
    have h2 : AtCycle now s2 := fst_clock (travel_clock h1) e
    exact h2

theorem putPage_clock {s m off pa bad} (hs : AtCycle now s) : AtCycle now (putPage s m off pa bad) :=
  dropLines_clock (pageSent_clock (wakePage_clock hs))
theorem savePage_clock {s x st off pa} (hs : AtCycle now s) : AtCycle now (savePage s x st off pa) := putPage_clock hs

theorem pageBad_clock {s pa} (hs : AtCycle now s) : AtCycle now (pageBad s pa).1 := by
  unfold pageBad
  extract_lets _ s1 _
  have h1 : AtCycle now s1 := foldl_clock (wakePage_clock hs) fun _ _ h2 => findError_clock h2
  exact ite_fst_clock h1 (foldl_fst_clock h1 fun _ _ h3 => (travel_clock h3))

theorem pressWrite_clock {s d c va n v} (hs : AtCycle now s) : AtCycle now (pressWrite s d c va n v) := by
  unfold pressWrite
  split
  · refine foldl_fst_clock (fst_clock (unitChunks_clock hs) ‹_›) fun _ _ h1 => ?_
    split
    next s2 e =>
      have h2 : AtCycle now s2 := fst_clock (travel_clock h1) e
      exact dropLine_clock h2
    next s2 e =>
      have h2 : AtCycle now s2 := fst_clock (travel_clock h1) e
      exact taintLine_clock (dropLine_clock h2)
    · exact fst_clock (travel_clock h1) ‹_›
  · exact fst_clock (unitChunks_clock hs) ‹_›

theorem pressRead_clock {s d c va n} (hs : AtCycle now s) : AtCycle now (pressRead s d c va n).1 := by
  unfold pressRead
  split
  next s1 _ e =>
    have h1 : AtCycle now s1 := fst_clock (unitChunks_clock hs) e
    exact ite_clock (unitPoison_clock (readLines_clock h1)) (readLines_clock h1)
  · exact fst_clock (unitChunks_clock hs) ‹_›

theorem saveRecord_clock {s c y t} (hs : AtCycle now s) : AtCycle now (saveRecord s c y t) := by
  unfold saveRecord
  extract_lets s0 x base s1 s2
  have h1 : AtCycle now s1 := foldl_clock (actFor_clock hs) fun _ _ h => by
    split
    next e => exact savePage_clock (fst_clock (unitXlate_clock h) e)
    next e => exact fst_clock (unitXlate_clock h) e
  have h2 : AtCycle now s2 := foldl_clock h1 fun _ _ h => by
    split
    next e => exact putPage_clock (fst_clock (unitXlate_clock h) e)
    next e => exact fst_clock (unitXlate_clock h) e
  exact foldl_clock h2 fun _ _ h => pressWrite_clock h

theorem saveHeader_clock {s c y} (hs : AtCycle now s) : AtCycle now (saveHeader s c y) := by
  unfold saveHeader
  extract_lets
  split
  · exact physWrite_clock (physWrite_clock (physWrite_clock (physWrite_clock (fst_clock (unitXlate_clock (actFor_clock hs)) ‹_›))))
  · exact fst_clock (unitXlate_clock (actFor_clock hs)) ‹_›

theorem saveTiles_clock {s p c} (hs : AtCycle now s) : AtCycle now (saveTiles s p c) := by
  unfold saveTiles
  split
  next => exact hs
  next y e =>
    extract_lets ts used recs z s1 s2
    have h1 : AtCycle now s1 := hs
    have h2 : AtCycle now s2 := ite_clock (foldl_clock h1 fun _ _ h => saveRecord_clock h) h1
    exact setRes_clock (saveHeader_clock h2)

theorem execGangSwitchSaveDone_clock {s} (hs : AtCycle now s) : GoesOn now (execGangSwitchSaveDone s) := by
  unfold execGangSwitchSaveDone
  split
  · extract_lets _ s1 _ _
    have h1 : AtCycle now s1 := by unfold s1; split; exacts [saveTiles_clock hs, hs]
    split
    · exact modTiles_clock h1
    · exact hs
  · exact hs

theorem loadPage_clock {s x st off pa} (hs : AtCycle now s) : AtCycle now (loadPage s x st off pa).1 := pageBad_clock hs

theorem loadRecord_clock {s c y t x} (hs : AtCycle now s) : AtCycle now (loadRecord s c y t x).1 := by
  unfold loadRecord
  extract_lets s0 base r
  have hr : AtCycle now r.1 := foldl_fst_clock (actFor_clock hs) fun _ _ h => by
    split
    next e => exact loadPage_clock (fst_clock (unitXlate_clock h) e)
    next e => exact fst_clock (unitXlate_clock h) e
  refine foldl_fst_clock hr fun _ _ h => ?_
  split
  next e => exact fst_clock (pressRead_clock h) e
  next e => exact fst_clock (pressRead_clock h) e

theorem restoreTile_clock {s p c y t} (hs : AtCycle now s) : AtCycle now (restoreTile s p c y t) := by
  unfold restoreTile
  split
  · split
    exact setTile_clock (fst_clock (loadRecord_clock hs) ‹_›)
  · exact setTile_clock hs

theorem answered_clock {s h} (hs : AtCycle now s) : AtCycle now (answered s h) := by
  unfold answered
  extract_lets
  split
  · exact ite_clock (modHart_clock hs) (complete_clock (modHart_clock hs))
  · exact modHart_clock hs

theorem dropPartTlb_clock {s ts} (hs : AtCycle now s) : AtCycle now (dropPartTlb s ts) := hs

theorem switchReport_clock {s p w} (hs : AtCycle now s) : AtCycle now (switchReport s p w) := by
  unfold switchReport
  split <;> exact hs

theorem dropSaved_clock {s c p} (hs : AtCycle now s) : AtCycle now (dropSaved s c p) := by
  unfold dropSaved
  split <;> exact hs

theorem execGangSwitchRestore_clock {s} (hs : AtCycle now s) : GoesOn now (execGangSwitchRestore s) := by
  fun_cases execGangSwitchRestore s with
  | case2 k _ p w _ _ ts s1 s2 =>
    have h1 : AtCycle now s1 := by
      unfold s1
      split
      next y e =>
        have h2 : AtCycle now (ts.foldl (fun s t => restoreTile s p w.target y t) s) := foldl_clock hs fun _ _ h => restoreTile_clock h
        exact setRes_clock (foldl_clock (dropSaved_clock h2) fun _ _ h => answered_clock h)
      next => exact hs
    have h2 : AtCycle now s2 := dropPartTlb_clock h1
    exact switchReport_clock h2
  | case1 | case3 | case4 => exact hs

/-! ## The harts that wake -/

/-! ## The device -/

theorem clearDevice_clock {s} (hs : AtCycle now s) : AtCycle now (clearDevice s) := hs

theorem execBringUp_clock {s} (hs : AtCycle now s) : GoesOn now (execBringUp s) := by
  unfold execBringUp
  refine ite_goesOn hs ?_
  extract_lets _ s1 _ _
  have h1 : AtCycle now s1 := ite_clock (clearDevice_clock hs) hs
  exact ite_goesOn h1 h1

theorem startAttestation_clock {s} (hs : AtCycle now s) : AtCycle now (startAttestation s) := ite_clock hs hs

theorem execAttestationDone_clock {s} (hs : AtCycle now s) : GoesOn now (execAttestationDone s) := by
  unfold execAttestationDone
  split <;> exact hs

theorem tripped_clock {s} (hs : AtCycle now s) : AtCycle now (tripped s) := sendMsi_clock hs
theorem senseHot_clock {s l} (hs : AtCycle now s) : AtCycle now (senseHot s l) := hs

theorem execThermalTrip_clock {s} (hs : AtCycle now s) : GoesOn now (execThermalTrip s) := by
  unfold execThermalTrip
  split
  · exact tripped_clock hs
  · exact ite_clock (tripped_clock (senseHot_clock hs)) (senseHot_clock hs)
  · exact hs

theorem clearTrip_clock {s} (hs : AtCycle now s) : AtCycle now (clearTrip s) := hs

theorem execTripClear_clock {s} (hs : AtCycle now s) : GoesOn now (execTripClear s) := by
  unfold execTripClear
  split
  · extract_lets s1
    have h1 : AtCycle now s1 := clearTrip_clock (senseHot_clock hs)
    exact ite_clock (tripped_clock h1) h1
  · exact clearTrip_clock hs

theorem writeDevstat_clock {s v} (hs : AtCycle now s) : AtCycle now (writeDevstat s v) := ite_clock (clearTrip_clock hs) hs
theorem writeDevctl_clock {s v} (hs : AtCycle now s) : AtCycle now (writeDevctl s v) := ite_clock (startAttestation_clock hs) hs
theorem writeDper_clock {s d v} (hs : AtCycle now s) : AtCycle now (writeDper s d v) := countErr_clock (nextFree_clock hs)
theorem setIdeKey_clock {s p stream key} (hs : AtCycle now s) : AtCycle now (setIdeKey s p stream key) := ite_clock hs hs

theorem execRegisterWrite_clock {s} (hs : AtCycle now s) : GoesOn now (execRegisterWrite s) := by
  unfold execRegisterWrite
  split
  · exact setIdeKey_clock hs
  · exact hs
  · refine ite_goesOn (writeDevstat_clock hs) (ite_goesOn (writeDevctl_clock hs) (ite_goesOn ?_ (ite_goesOn (writeDper_clock hs) (ite_goesOn ?_ hs))))
    · exact keep_clock hs
    · exact keep_clock hs
  · exact hs

theorem aliasDropped_clock {s c off size} (hs : AtCycle now s) : AtCycle now (aliasDropped s c off size) := unitReport_clock hs

theorem armQueue_clock {s c q v} (hs : AtCycle now s) : AtCycle now (armQueue s c q v) := by
  unfold armQueue
  extract_lets
  split
  · exact keep_clock (fst_clock (unitReady_clock (actFor_clock hs)) ‹_›)
  · exact unitSettled_clock (unitPut_clock (fst_clock (unitReady_clock (actFor_clock hs)) ‹_›) fun _ _ h1 => hwFill_clock h1)

theorem aliasStore_clock {s off size v} (hs : AtCycle now s) : AtCycle now (aliasStore s off size v) := by
  unfold aliasStore
  split
  · exact hs
  · exact ite_clock hs (ite_clock (armQueue_clock hs) (aliasDropped_clock hs))

theorem execArmAliasStore_clock {s} (hs : AtCycle now s) : GoesOn now (execArmAliasStore s) := by
  unfold execArmAliasStore
  split
  · exact aliasStore_clock hs
  · split
    · exact armQueue_clock hs
    · exact hs
  · exact hs

theorem windowStore_clock {s off size l} (hs : AtCycle now s) : AtCycle now (windowStore s off size l) := by
  unfold windowStore
  split
  · exact hs
  · exact ite_clock hs (ite_clock (enqueueReward_clock hs) (aliasDropped_clock hs))

theorem execRewardWindowWrite_clock {s} (hs : AtCycle now s) : GoesOn now (execRewardWindowWrite s) := by
  unfold execRewardWindowWrite
  split
  · exact windowStore_clock hs
  · exact hs

theorem hostWrite_clock {s pa n v bad} (hs : AtCycle now s) : AtCycle now (hostWrite s pa n v bad) :=
  ite_clock (physWrite_clock hs) (physWrite_clock hs)
theorem hostTold_clock {s a} (hs : AtCycle now s) : AtCycle now (hostTold s a) := hs
theorem hostRead_clock {s pa n} (hs : AtCycle now s) : AtCycle now (hostRead s pa n) := hostTold_clock (wakeSlice_clock hs)
theorem hostAlias_clock {s off n v} (hs : AtCycle now s) : AtCycle now (hostAlias s off n v) :=
  ite_clock (windowStore_clock hs) (aliasStore_clock hs)
theorem hostAdds_clock {s pa n v put} (hs : AtCycle now s) (hput : ∀ t x, AtCycle now t → AtCycle now (put t x)) :
    AtCycle now (hostAdds s pa n v put) :=
  hostTold_clock (hput _ _ hs)

theorem execHostMemAccess_clock {s} (hs : AtCycle now s) : GoesOn now (execHostMemAccess s) := by
  unfold execHostMemAccess
  refine ite_goesOn hs <| ite_goesOn (hostTold_clock hs) ?_
  split
  · split
    · exact hostWrite_clock hs
    · exact hostRead_clock hs
    · exact hostAlias_clock hs
    · exact hostTold_clock hs
    · exact hostTold_clock hs
  · exact ite_goesOn (hostAdds_clock hs fun _ _ h1 => hostWrite_clock h1) (hostTold_clock hs)
  · exact hs

theorem hostTakes_clock {s pa n data bad} (hs : AtCycle now s) : AtCycle now (hostTakes s pa n data bad) := by
  unfold hostTakes
  extract_lets
  split
  · extract_lets s1 _ _
    have h1 : AtCycle now s1 := (dropLine_clock hs)
    exact ite_clock (ite_clock h1 h1) (ite_clock h1 h1)
  · exact dropLine_clock hs

theorem execHostLineSnoop_clock {s} (hs : AtCycle now s) : GoesOn now (execHostLineSnoop s) := by
  unfold execHostLineSnoop
  split
  · exact ite_goesOn hs (hostTakes_clock hs)
  · exact ite_goesOn hs (hostAdds_clock hs fun _ _ h1 => hostTakes_clock h1)
  · exact hs
  · exact hs

theorem execTableLineSnoop_clock {s} (hs : AtCycle now s) : GoesOn now (execTableLineSnoop s) := by
  unfold execTableLineSnoop
  split
  · exact ite_goesOn hs (hostTakes_clock hs)
  · exact dropLine_clock hs
  · exact hs

theorem execHostPortDown_clock {s} (hs : AtCycle now s) : GoesOn now (execHostPortDown s) := by
  unfold execHostPortDown
  split
  · exact ite_goesOn hs hs
  · exact hs

theorem execHomeChannelPowerDown_clock {s} (hs : AtCycle now s) : GoesOn now (execHomeChannelPowerDown s) := hs
theorem execSelfRefreshEntry_clock {s} (hs : AtCycle now s) : GoesOn now (execSelfRefreshEntry s) := hs

theorem execTileSleep_clock {s} (hs : AtCycle now s) : GoesOn now (execTileSleep s) := by
  unfold execTileSleep
  split
  · exact ite_goesOn (modTile_clock hs) hs
  · exact hs

theorem execTileWake_clock {s} (hs : AtCycle now s) : GoesOn now (execTileWake s) := by
  unfold execTileWake
  split
  · exact ite_goesOn (modTile_clock hs) hs
  · exact hs

theorem execDarnerLine_clock {s} (hs : AtCycle now s) : GoesOn now (execDarnerLine s) := by
  unfold execDarnerLine
  split
  · exact ite_goesOn hs (findError_clock (wakeSlice_clock hs))
  · exact hs

theorem execEscapeEntry_clock {s} (hs : AtCycle now s) : GoesOn now (execEscapeEntry s) := by
  unfold execEscapeEntry
  split
  · exact hs
  · exact modHart_clock hs
  · exact hs

/-! ## The links -/

theorem setLink_clock {s l x} (hs : AtCycle now s) : AtCycle now (setLink s l x) := hs
theorem membersDown_clock {s l} (hs : AtCycle now s) : AtCycle now (membersDown s l) := hs

theorem rewardsEnd_clock {s l} (hs : AtCycle now s) : AtCycle now (rewardsEnd s l) := by
  unfold rewardsEnd
  extract_lets
  refine foldl_clock hs fun _ _ h1 => ?_
  split
  · exact ite_clock (complete_clock (poisonReport_clock h1)) h1
  · exact h1

theorem linkDown_clock {s l} (hs : AtCycle now s) : AtCycle now (linkDown s l) := rewardsEnd_clock (membersDown_clock (setLink_clock hs))
theorem linkTrain_clock {s l} (hs : AtCycle now s) : AtCycle now (linkTrain s l) := hs

theorem execLinkTrainingDone_clock {s} (hs : AtCycle now s) : GoesOn now (execLinkTrainingDone s) := by
  unfold execLinkTrainingDone
  split
  · exact ite_goesOn hs (ite_clock (membersDown_clock (setLink_clock hs)) (setLink_clock hs))
  · exact hs

theorem execLinkTrainingTimeout_clock {s} (hs : AtCycle now s) : GoesOn now (execLinkTrainingTimeout s) := by
  unfold execLinkTrainingTimeout
  split
  · exact ite_goesOn (linkDown_clock hs) hs
  · exact hs

theorem execLinkIdleTimeout_clock {s} (hs : AtCycle now s) : GoesOn now (execLinkIdleTimeout s) := by
  unfold execLinkIdleTimeout
  split
  · exact ite_goesOn (linkDown_clock hs) hs
  · exact hs

theorem sendNow_clock {s l b} (hs : AtCycle now s) : AtCycle now (sendNow s l b) := hs

theorem execIdleFlitSend_clock {s} (hs : AtCycle now s) : GoesOn now (execIdleFlitSend s) := by
  unfold execIdleFlitSend
  split
  · exact ite_goesOn (sendNow_clock hs) hs
  · exact hs

theorem sendReady_clock {l n s} (hs : AtCycle now s) : AtCycle now (sendReady l n s) := by
  induction n generalizing s with
  | zero => exact hs
  | succ n ih =>
    unfold sendReady
    extract_lets
    split
    · exact setLink_clock hs
    · exact ite_clock hs (ih (sendNow_clock (setLink_clock hs)))

theorem linkCycle_clock {s l} (hs : AtCycle now s) : AtCycle now (linkCycle s l) := setLink_clock (sendReady_clock (setLink_clock hs))
theorem linkCycles_clock {s} (hs : AtCycle now s) : AtCycle now (linkCycles s) :=
  foldl_clock hs fun _ _ h1 => ite_clock (linkCycle_clock h1) h1

theorem execLinkWiden_clock {s} (hs : AtCycle now s) : GoesOn now (execLinkWiden s) := by
  unfold execLinkWiden
  split
  · exact ite_goesOn (setLink_clock hs) hs
  · exact hs

theorem execWakeComplete_clock {s} (hs : AtCycle now s) : GoesOn now (execWakeComplete s) := by
  unfold execWakeComplete
  split
  · exact ite_goesOn (setLink_clock hs) hs
  · exact hs

theorem execLinkNarrow_clock {s} (hs : AtCycle now s) : GoesOn now (execLinkNarrow s) := by
  unfold execLinkNarrow
  split
  · exact ite_goesOn (setLink_clock hs) hs
  · exact hs

theorem execWidthFlitReceive_clock {s} (hs : AtCycle now s) : GoesOn now (execWidthFlitReceive s) := by
  unfold execWidthFlitReceive
  split
  · exact ite_goesOn (setLink_clock hs) hs
  · exact hs

theorem laneFailed_clock {s l i} (hs : AtCycle now s) : AtCycle now (laneFailed s l i) :=
  ite_clock (linkDown_clock (setLink_clock hs)) (setLink_clock hs)
theorem noteLane_clock {s l i} (hs : AtCycle now s) : AtCycle now (noteLane s l i) :=
  ite_clock (laneFailed_clock (setLink_clock hs)) (setLink_clock hs)

theorem rewardAnswered_clock {s l h} (hs : AtCycle now s) : AtCycle now (rewardAnswered s l h) := by
  unfold rewardAnswered
  split
  · extract_lets
    split
    · exact ite_clock (complete_clock hs) hs
    · exact hs
  · exact hs

theorem rewardLost_clock {s l h} (hs : AtCycle now s) : AtCycle now (rewardLost s l h) := by
  unfold rewardLost
  split
  · exact rewardAnswered_clock (poisonReport_clock hs)
  · exact hs

theorem execRwsendRemoteAnswer_clock {s} (hs : AtCycle now s) : GoesOn now (execRwsendRemoteAnswer s) := by
  unfold execRwsendRemoteAnswer
  split
  · split
    · exact ite_goesOn (rewardAnswered_clock hs) hs
    · exact hs
  · exact hs

theorem collArrive_clock {s c gid seq member a} (hs : AtCycle now s) : AtCycle now (collArrive s c gid seq member a) := ite_clock hs hs

theorem collFlitLost_clock {s l c gid seq} (hs : AtCycle now s) : AtCycle now (collFlitLost s l c gid seq) := by
  unfold collFlitLost
  extract_lets
  split <;> exact unitPoison_clock hs

theorem takeFlit_clock {s l ok b} (hs : AtCycle now s) : AtCycle now (takeFlit s l ok b) := by
  unfold takeFlit
  split
  · exact hs
  · exact hs
  · exact setLink_clock hs
  · exact setLink_clock hs
  · exact ite_clock hs (enqueueReward_clock hs)
  · exact rewardAnswered_clock hs
  · exact rewardLost_clock hs
  · exact collFlitLost_clock hs
  · exact ite_clock hs (collArrive_clock hs)

theorem flitLost_clock {s l b} (hs : AtCycle now s) : AtCycle now (flitLost s l b) := by
  unfold flitLost
  split
  · exact queueFlit_clock hs
  · exact queueFlit_clock hs
  all_goals exact hs

theorem execFlitReceive_clock {s} (hs : AtCycle now s) : GoesOn now (execFlitReceive s) := by
  unfold execFlitReceive
  split
  · refine ite_goesOn hs ?_
    extract_lets _ _ _ s1 s2 s3 s4
    have h1 : AtCycle now s1 := ite_clock (setLink_clock hs) (countErr_clock (setLink_clock hs))
    have h2 : AtCycle now s2 := ite_clock h1 (countErr_clock h1)
    have h3 : AtCycle now s3 := ite_clock h2 (countErr_clock h2)
    have h4 : AtCycle now s4 := ite_clock (takeFlit_clock h3) (flitLost_clock h3)
    exact ite_clock h4 (foldl_clock h4 fun _ _ h5 => noteLane_clock h5)
  · exact hs

theorem lkctlDo_clock {s l op v} (hs : AtCycle now s) : AtCycle now (lkctlDo s l op v) := by
  unfold lkctlDo
  split
  · exact setLink_clock hs
  · exact setLink_clock hs
  · exact linkTrain_clock (ite_clock (linkDown_clock hs) hs)
  · exact hs

theorem lkctl_clock {d a b s} (hs : AtCycle now s) : GoesOn now (lkctl d a b s) :=
  inSet_clock hs fun _ h1 => supOnly_clock h1 fun _ h2 => sources_clock h2 fun _ h3 =>
    ite_goesOn (trap_clock h3) (ite_goesOn (trap_clock h3) (dests_clock h3 fun _ h4 => done_clock (modMe_clock (lkctlDo_clock h4))))

/-! ## The collectives -/

theorem putColl_clock {s g} (hs : AtCycle now s) : AtCycle now (putColl s g) := hs
theorem collHand_clock {f la n ea eb gid c ty desc s} (hs : AtCycle now s) : GoesOn now (collHand f la n ea eb gid c ty desc s) :=
  issueAwait_clock hs

theorem execCollDecl_clock {la n ea s} (hs : AtCycle now s) : GoesOn now (execCollDecl la n ea s) :=
  inSet_clock hs fun _ h1 => sources_clock h1 fun _ h2 => roomForLong_clock h2 fun _ h3 => blockRead_clock h3 fun _ _ _ h4 =>
    ite_goesOn (trap_clock h4) (ite_goesOn (trap_clock h4) (collHand_clock h4))

theorem collData_clock {f la n ec eb ea s} (hs : AtCycle now s) : GoesOn now (collData f la n ec eb ea s) := by
  unfold collData
  refine inSet_clock hs fun _ h1 => sources_clock h1 fun _ h2 => roomForLong_clock h2 fun _ h3 => ?_
  extract_lets
  split
  · exact trap_clock h3
  · exact collHand_clock h3

theorem execCollBar_clock {la n ec s} (hs : AtCycle now s) : GoesOn now (execCollBar la n ec s) := by
  unfold execCollBar
  refine inSet_clock hs fun _ h1 => sources_clock h1 fun _ h2 => roomForLong_clock h2 fun _ h3 => ?_
  extract_lets
  split
  · exact trap_clock h3
  · exact collHand_clock h3

theorem putCollOp_clock {s x} (hs : AtCycle now s) : AtCycle now (putCollOp s x) := hs

theorem collTake_clock {s x} (hs : AtCycle now s) : AtCycle now (collTake s x) := by
  unfold collTake
  split
  next s1 _ e =>
  have h1 : AtCycle now s1 := fst_clock (freshId_clock (awaitDone_clock hs)) e
  extract_lets
  refine ite_clock (putCollOp_clock h1) ?_
  split
  · exact putCollOp_clock (putColl_clock h1)
  · exact h1

theorem collSend_clock {s x g own k} (hs : AtCycle now s) : AtCycle now (collSend s x g own k) :=
  ite_clock hs (foldl_clock hs fun _ _ h1 => queueFlit_clock h1)
theorem collBegin_clock {s x g own fault} (hs : AtCycle now s) : AtCycle now (collBegin s x g own fault) :=
  putCollOp_clock (foldl_clock hs fun _ _ h1 => collSend_clock h1)

theorem collRun_clock {s x} (hs : AtCycle now s) : AtCycle now (collRun s x) := by
  unfold collRun
  split
  · exact hs
  · extract_lets
    split
    · exact fst_clock (unitReady_clock (actFor_clock hs)) ‹_›
    next s1 e =>
      have h1 : AtCycle now s1 := fst_clock (unitReady_clock (actFor_clock hs)) e
      split
      · exact collBegin_clock (unitSettled_clock (readChunks_clock (fst_clock (unitChunks_clock h1) ‹_›)))
      · exact collBegin_clock (unitSettled_clock (fst_clock (unitChunks_clock h1) ‹_›))

theorem execCollAccept_clock {s} (hs : AtCycle now s) : GoesOn now (execCollAccept s) := by
  unfold execCollAccept
  split
  · split
    · exact ite_goesOn (collTake_clock hs) (ite_goesOn (collRun_clock hs) hs)
    · exact hs
  · exact hs

theorem execCollMemberAnswer_clock {s} (hs : AtCycle now s) : GoesOn now (execCollMemberAnswer s) := by
  unfold execCollMemberAnswer
  split
  · exact collArrive_clock hs
  · exact hs

theorem execCollMemberTimeout_clock {s} (hs : AtCycle now s) : GoesOn now (execCollMemberTimeout s) := by
  unfold execCollMemberTimeout
  split
  · split
    · refine ite_goesOn hs ?_
      split
      · exact putColl_clock hs
      · exact hs
    · exact hs
  · exact hs

theorem collPut_clock {s x r} (hs : AtCycle now s) : AtCycle now (collPut s x r).1 := by
  unfold collPut
  extract_lets
  split
  next s1 _ e =>
    have h1 : AtCycle now s1 := fst_clock (unitChunks_clock hs) e
    split
    · exact fst_clock (writeChunks_clock h1) ‹_›
    · exact unitPoison_clock (fst_clock (writeChunks_clock h1) ‹_›)
  · exact fst_clock (unitChunks_clock hs) ‹_›

theorem collPutAll_clock {s x l} (hs : AtCycle now s) : AtCycle now (collPutAll s x l).1 := by
  induction l generalizing s with
  | nil => exact hs
  | cons r l ih =>
    unfold collPutAll
    split
    next e => exact ih (fst_clock (collPut_clock hs) e)
    next e => exact fst_clock (collPut_clock hs) e

theorem maskPutAll_clock {s x va n l} (hs : AtCycle now s) : AtCycle now (maskPutAll s x va n l).1 := by
  induction n generalizing s va l with
  | zero => exact hs
  | succ n ih =>
    unfold maskPutAll
    refine ite_fst_clock hs ?_
    extract_lets d va
    split
    next s1 pa e =>
      split
      next s2 w e2 =>
        have h2 : AtCycle now s2 := fst_clock (travel_clock (fst_clock (unitXlate_clock hs) e)) e2
        extract_lets s3 s4
        have h3 : AtCycle now s3 := ite_clock h2 (physWrite_clock h2)
        have h4 : AtCycle now s4 := ite_clock (taintLine_clock h3) h3
        exact ih (ite_clock h4 (unitPoison_clock h4))
    next e => exact fst_clock (unitXlate_clock hs) e

theorem collEnd_clock {s x g status} (hs : AtCycle now s) : AtCycle now (collEnd s x g status) :=
  putCollOp_clock (ite_clock (putColl_clock hs) hs)

theorem collFinish_clock {s x g} (hs : AtCycle now s) : AtCycle now (collFinish s x g) := by
  unfold collFinish
  extract_lets
  split
  · exact fst_clock (unitReady_clock (actFor_clock hs)) ‹_›
  · split
    next s1 _ e =>
    have h1 : AtCycle now s1 := fst_clock (collPutAll_clock (fst_clock (unitReady_clock (actFor_clock hs)) ‹_›)) e
    split
    next s2 _ e =>
    have h2 : AtCycle now s2 := fst_clock (ite_fst_clock h1 (maskPutAll_clock h1)) e
    exact collEnd_clock (unitSettled_clock h2)

theorem execCollPost_clock {s} (hs : AtCycle now s) : GoesOn now (execCollPost s) := by
  unfold execCollPost
  split
  · split
    · split
      · exact hs
      · refine ite_goesOn (collFinish_clock hs) <| ite_goesOn ?_ hs
        extract_lets
        split
        · exact mailPost_clock hs
        · exact hs
    · exact hs
  · exact hs

/-! ## OPT -/

theorem optXlate_clock {s h r need l} (hs : AtCycle now s) : AtCycle now (optXlate s h r need l).1 := xlateChunks_clock hs

theorem optRead_clock {s ps vs} (hs : AtCycle now s) : AtCycle now (optRead s ps vs).1 := by
  induction ps generalizing s vs with
  | nil => exact hs
  | cons p ps ih =>
    cases vs with
    | nil => exact hs
    | cons v vs => exact ih (lineRead_clock hs (n := 4))

theorem optPut_clock {h pc s ps vs l} (hs : AtCycle now s) : AtCycle now (optPut h pc s ps vs l) := by
  fun_induction optPut h pc s ps vs l with
  | case1 _ _ _ _ _ _ _ ih => exact ih (lineWrite_clock hs)
  | case2 => exact hs

theorem optSkip_clock {s h r a} (hs : AtCycle now s) : AtCycle now (optSkip s h r a).1 := poisonReportAt_clock hs

theorem optElem_clock {h ops i g bad s r} (hs : AtCycle now s) : AtCycle now (optElem h ops i g bad s r).1 := by
  unfold optElem
  split
  · exact optSkip_clock hs
  · extract_lets
    split
    · exact fst_clock (optXlate_clock hs) ‹_›
    · exact fst_clock (optXlate_clock hs) ‹_›
    next s1 _ e =>
      have h1 : AtCycle now s1 := fst_clock (optXlate_clock hs) e
      extract_lets
      split
      · exact h1
      · split
        · exact optSkip_clock (fst_clock (optRead_clock h1) ‹_›)
        · exact optPut_clock (fst_clock (optRead_clock h1) ‹_›)

theorem optGrad_clock {h ops s r} (hs : AtCycle now s) : AtCycle now (optGrad h ops s r).1 := by
  unfold optGrad
  refine ite_fst_clock hs ?_
  extract_lets
  split
  next s1 _ e =>
    have h1 : AtCycle now s1 := fst_clock (optXlate_clock hs) e
    split
    · exact h1
    · exact optRead_clock h1
  · exact fst_clock (optXlate_clock hs) ‹_›
  · exact fst_clock (optXlate_clock hs) ‹_›

theorem optPop_clock {h ops s r} (hs : AtCycle now s) : AtCycle now (optPop h ops s r).1 := by
  unfold optPop
  extract_lets
  split
  · split
    next s1 _ _ e =>
    have h1 : AtCycle now s1 := fst_clock (lineRead_clock (fst_clock (xlate_clock hs) ‹_›)) e
    extract_lets s2 _
    have h2 : AtCycle now s2 := ite_clock (poisonReportAt_clock h1) h1
    exact ite_fst_clock (gqEnter_clock h2) (ite_fst_clock (ite_fst_clock (gqEnter_clock h2) h2) (physWrite_clock (gqLeave_clock h2)))
  · exact fst_clock (xlate_clock hs) ‹_›
  · exact fst_clock (xlate_clock hs) ‹_›

theorem optAct_clock {h ops s r} (hs : AtCycle now s) : AtCycle now (optAct h ops s r).1 := by
  unfold optAct
  split
  · split
    · split
      · exact fst_clock (optElem_clock hs) ‹_›
      · exact optElem_clock hs
    · exact ite_fst_clock hs (optPop_clock hs)
  · refine ite_fst_clock hs ?_
    split
    · exact fst_clock (optGrad_clock hs) ‹_›
    · exact optElem_clock (fst_clock (optGrad_clock hs) ‹_›)

theorem optLoop_clock {h ops n s r} (hs : AtCycle now s) : AtCycle now (optLoop h ops n s r).1 := by
  induction n generalizing s r with
  | zero => exact hs
  | succ n ih =>
    unfold optLoop
    split
    next e => exact fst_clock (optAct_clock hs) e
    next e => exact ih (fst_clock (optAct_clock hs) e)

theorem optStatus_clock {s h r fault} (hs : AtCycle now s) : AtCycle now (optStatus s h r fault) := lineWrite_clock hs

theorem optGo_clock {la s r} (hs : AtCycle now s) : GoesOn now (optGo la s r) := by
  unfold optGo
  split
  · exact done_clock (modMe_clock (fst_clock (optLoop_clock hs) ‹_›))
  · exact issueLong_clock (optStatus_clock (fst_clock (optLoop_clock hs) ‹_›))

theorem optResume_clock {s h i r} (hs : AtCycle now s) : AtCycle now (optResume s h i r) := by
  unfold optResume
  split
  · exact modHart_clock (fst_clock (optLoop_clock hs) ‹_›)
  · exact modHart_clock (optStatus_clock (fst_clock (optLoop_clock hs) ‹_›))

theorem optAddrs_clock {l s k} (hs : AtCycle now s) (hk : ∀ t, AtCycle now t → GoesOn now (k t)) : GoesOn now (optAddrs l s k) := by
  unfold optAddrs
  split
  · exact trap_clock hs
  · split
    · exact trap_clock hs
    · exact hk _ hs

theorem optQueue_clock {f b s k} (hs : AtCycle now s) (hk : ∀ t, AtCycle now t → GoesOn now (k t)) : GoesOn now (optQueue f b s k) :=
  ite_goesOn (trap_clock hs) (ite_goesOn (hk _ hs) (gqChecked_clock hs fun _ _ _ h1 => ite_goesOn (trap_clock h1) (hk _ h1)))

theorem optIssue_clock {f la ec eb ea s} (hs : AtCycle now s) : GoesOn now (optIssue f la ec eb ea s) := by
  unfold optIssue
  split
  · exact illegal_clock hs
  · exact trap_clock hs
  · exact trap_clock hs
  · exact sources_clock hs fun _ h1 => roomForLong_clock h1 fun _ h2 => blockRead_clock h2 fun _ _ _ h3 =>
      ite_goesOn (trap_clock h3) (optQueue_clock h3 fun _ h4 => optAddrs_clock h4 fun _ h5 => optGo_clock h5)

/-! ## The events -/

theorem opTurn_clock {s h i o} (hs : AtCycle now s) : AtCycle now (opTurn s h i o) := by
  unfold opTurn
  split
  · exact optResume_clock hs
  all_goals exact completeOp_clock hs

theorem execLongOpComplete_clock {s} (hs : AtCycle now s) : GoesOn now (execLongOpComplete s) := by
  unfold execLongOpComplete
  split
  · split
    · exact ite_goesOn (opTurn_clock hs) hs
    · exact hs
  · exact hs

theorem dropRing_clock {s h} (hs : AtCycle now s) : AtCycle now (dropRing s h) := by
  unfold dropRing
  split <;> exact hs

theorem execRegisterWaitLimit_clock {s} (hs : AtCycle now s) : GoesOn now (execRegisterWaitLimit s) := by
  unfold execRegisterWaitLimit
  split
  · split
    · exact trapOn_clock (dropRing_clock hs)
    · exact hs
  · exact hs

theorem dropRequests_clock {s h} (hs : AtCycle now s) : AtCycle now (dropRequests s h) :=
  hs

theorem execFeWaitLimit_clock {s} (hs : AtCycle now s) : GoesOn now (execFeWaitLimit s) := by
  unfold execFeWaitLimit
  split
  · split
    · exact trapOn_clock (dropRequests_clock hs)
    · exact hs
  · exact hs

theorem execFeListFullRetry_clock {s} (hs : AtCycle now s) : GoesOn now (execFeListFullRetry s) := by
  unfold execFeListFullRetry
  split
  · split
    · exact ite_goesOn (modHart_clock hs) hs
    · exact hs
  · exact hs

theorem execPutrRetry_clock {s} (hs : AtCycle now s) : GoesOn now (execPutrRetry s) := by
  unfold execPutrRetry
  split
  · exact ite_goesOn (modHart_clock hs) hs
  · exact hs

theorem execParkDeadline_clock {s} (hs : AtCycle now s) : GoesOn now (execParkDeadline s) := by
  unfold execParkDeadline
  split
  · exact ite_goesOn (modHart_clock hs) hs
  · exact hs

theorem execPutrFill_clock {s} (hs : AtCycle now s) : GoesOn now (execPutrFill s) := by
  unfold execPutrFill
  split
  · split
    · refine ite_goesOn hs ?_
      extract_lets s1 _
      have h1 : AtCycle now s1 := modTile_clock hs
      split
      · exact awaitDone_clock (modHart_clock h1)
      · exact modHart_clock h1
    · exact hs
  · exact hs

theorem execPageWalk_clock {s} (hs : AtCycle now s) : GoesOn now (execPageWalk s) := by
  unfold execPageWalk
  split
  · extract_lets
    split
    · exact ite_goesOn hs (ite_goesOn (walkQuiet_clock hs) (walkAccess_clock hs))
    · exact hs
  · exact hs

theorem dropPage_clock {s d p} (hs : AtCycle now s) : AtCycle now (dropPage s d p) := hs

theorem copyPages_clock {s d c vpn ref} (hs : AtCycle now s) : AtCycle now (copyPages s d c vpn ref) := hs

theorem pageHarts_clock {s d c vpn ref} (hs : AtCycle now s) : AtCycle now (pageHarts s d c vpn ref) := hs

theorem execPageResponse_clock {s} (hs : AtCycle now s) : GoesOn now (execPageResponse s) := by
  unfold execPageResponse
  split
  · extract_lets
    refine ite_goesOn hs ?_
    split
    · exact pageHarts_clock (copyPages_clock (dropPage_clock hs))
    · exact pageHarts_clock (copyPages_clock (ite_clock (dropPage_clock hs) hs))
    · exact pageHarts_clock (copyPages_clock (ite_clock (dropPage_clock hs) hs))
  · exact hs

/-! ## The fold units -/

theorem meetAcc_clock {s t n} (hs : AtCycle now s) : AtCycle now (meetAcc s t n) := meetFlaws_clock hs
theorem execQinit_clock {la q s} (hs : AtCycle now s) : GoesOn now (execQinit la q s) :=
  inSet_clock hs fun _ h1 => sources_clock h1 fun _ h2 => roomForLong_clock h2 fun _ h3 => issueArray_clock (modTile_clock h3)

theorem householder_clock {append la n q ea s} (hs : AtCycle now s) : GoesOn now (householder append la n q ea s) := by
  unfold householder
  refine inSet_clock hs fun _ h1 => sources_clock h1 fun _ h2 => roomForLong_clock h2 fun _ h3 => ?_
  extract_lets
  split
  · exact trap_clock h3
  · exact issueArray_clock (setTile_clock (meetAcc_clock h3))

theorem execQapp_clock {la q s} (hs : AtCycle now s) : GoesOn now (execQapp la q s) :=
  inSet_clock hs fun _ h1 => sources_clock h1 fun _ h2 => roomForLong_clock h2 fun _ h3 =>
    ite_goesOn (trap_clock h3) (issueArray_clock (modTile_clock h3))

theorem foldApply_clock {readsTile f la n q s} (hs : AtCycle now s) : GoesOn now (foldApply readsTile f la n q s) := by
  unfold foldApply
  refine inSet_clock hs fun _ h1 => sources_clock h1 fun _ h2 => roomForLong_clock h2 fun _ h3 => ?_
  extract_lets _ s4 _ _ _
  have h4 : AtCycle now s4 := ite_clock (meetAcc_clock h3) h3
  exact issueArray_clock (setTile_clock h4)

theorem execQsave_clock {la n q s} (hs : AtCycle now s) : GoesOn now (execQsave la n q s) :=
  inSet_clock hs fun _ h1 => ite_goesOn (sources_clock h1 fun _ h2 => trap_clock h2) (sources_clock h1 fun _ h3 => roomForLong_clock h3 fun _ h4 =>
    issueArray_clock h4)

theorem execQload_clock {la n q s} (hs : AtCycle now s) : GoesOn now (execQload la n q s) := by
  unfold execQload
  refine inSet_clock hs fun _ h1 => ite_goesOn (sources_clock h1 fun _ h2 => trap_clock h2) <| sources_clock h1 fun _ h3 => roomForLong_clock h3 fun _ h4 =>
    ?_
  extract_lets s5 _ _ _ _
  have h5 : AtCycle now s5 := meetAcc_clock (meetAcc_clock h4)
  exact ite_goesOn (trap_clock h5) (issueArray_clock (setTile_clock h5))

/-! ## The privileged forms -/

theorem tlbDrop_clock {s kind c va} (hs : AtCycle now s) : AtCycle now (tlbDrop s kind c va) := hs

theorem execTlbinv_clock {b a s} (hs : AtCycle now s) : GoesOn now (execTlbinv b a s) :=
  inSet_clock hs fun _ h1 => supOnly_clock h1 fun _ h2 => sources_clock h2 fun _ h3 =>
    ite_goesOn (trap_clock h3) (drained_clock h3 fun _ h4 => done_clock (tlbDrop_clock h4))

theorem probe_clock {s h va} (hs : AtCycle now s) : AtCycle now (probe s h va).1 := by
  unfold probe
  split
  · exact hs
  · refine ite_fst_clock hs ?_
    split
    · exact hs
    · split <;> exact fst_clock (walkQuiet_clock hs) ‹_›

theorem execTlbprobe_clock {d a s} (hs : AtCycle now s) : GoesOn now (execTlbprobe d a s) :=
  inSet_clock hs fun _ h1 => supOnly_clock h1 fun _ h2 => sources_clock h2 fun _ h3 => dests_clock h3 fun _ h4 => done_clock (modMe_clock (probe_clock h4))

/-! ## The reports -/

theorem reportLost_clock {s r} (hs : AtCycle now s) : AtCycle now (reportLost s r) := unitSettled_clock hs
theorem reportWrite_clock {s r pa h ra} (hs : AtCycle now s) : AtCycle now (reportWrite s r pa h ra) :=
  unitSettled_clock (sendMsi_clock (hwFill_clock (physWrite_clock (physWrite_clock hs))))

theorem reportSent_clock {s r pa h ra} (hs : AtCycle now s) : AtCycle now (reportSent s r pa h ra) := by
  unfold reportSent
  split
  · exact reportWrite_clock (fst_clock (travel_clock hs) ‹_›)
  · exact taintLine_clock (reportWrite_clock (fst_clock (travel_clock hs) ‹_›))
  · exact reportLost_clock (fst_clock (travel_clock hs) ‹_›)

theorem postReport_clock {s r} (hs : AtCycle now s) : AtCycle now (postReport s r).1 := by
  unfold postReport
  extract_lets
  refine ite_fst_clock (reportLost_clock (actFor_clock hs)) ?_
  split
  · exact fst_clock (unitRead_clock (actFor_clock hs)) ‹_›
  · exact reportLost_clock (fst_clock (unitRead_clock (actFor_clock hs)) ‹_›)
  next s1 _ _ e =>
    have h1 : AtCycle now s1 := fst_clock (unitRead_clock (actFor_clock hs)) e
    refine ite_fst_clock (reportLost_clock h1) <| ite_fst_clock (unitSettled_clock (physWrite_clock h1)) ?_
    split
    · exact fst_clock (unitXlate_clock h1) ‹_›
    next s2 _ e =>
      have h2 : AtCycle now s2 := fst_clock (unitXlate_clock h1) e
      exact ite_fst_clock (reportLost_clock h2) (reportSent_clock h2)
    · exact reportLost_clock (fst_clock (unitXlate_clock h1) ‹_›)

theorem postEnded_clock {s r} (hs : AtCycle now s) : AtCycle now (postEnded s r) := by
  unfold postEnded
  split
  · split
    · exact complete_clock hs
    · exact hs
  · exact hs

theorem postAll_clock {l s} (hs : AtCycle now s) : AtCycle now (postAll l s) := by
  induction l generalizing s with
  | nil => exact hs
  | cons r l ih =>
    unfold postAll
    refine ite_clock (ih hs) ?_
    split
    next e => exact ih (postEnded_clock (fst_clock (postReport_clock hs) e))
    next e => exact ih (keep_clock (fst_clock (postReport_clock hs) e))

theorem drainReports_clock {s} (hs : AtCycle now s) : AtCycle now (drainReports s) := by
  unfold drainReports
  split
  · exact hs
  · exact postAll_clock hs

theorem execReport_clock {b a s} (hs : AtCycle now s) : GoesOn now (execReport b a s) := by
  unfold execReport
  refine inSet_clock hs fun _ h1 => supOnly_clock h1 fun _ h2 => sources_clock h2 fun _ h3 => ?_
  split
  · exact drainReports_clock (parkHart_clock h3)
  · exact done_clock h3

/-! ## The dispatch of an instruction -/

/-- Every instruction and every event answers a next state and leaves the clock; the arms of one family go by the lemma of the family. -/
theorem exec_clock {i s} (hs : AtCycle now s) : GoesOn now (exec i s) := by
  unfold exec
  cases i with
  | add | sub | and | or | xor | sll | srl | sra | slt | sltn | min | max | minn | maxn | addw | subw | rol | ror | bfx | cMov | cAdd
    | cSub | cAnd => exact alu2_clock hs
  | mul | mulh | mulhn | mulw | div | divn | rem | remn => exact aluLong_clock hs
  | clz | ctz | popc | addi | andi | ori | xori | slti | slli | srli | srai | rori | cAddi => exact alu1_clock hs
  | sel | bfi => exact alu3_clock hs
  | ldk => exact execLdk_clock hs
  | setx => exact execSetx_clock hs
  | getx => exact execGetx_clock hs
  | beq | bne | blt | bge | bltn | bgen | cBeqz | cBnez => exact branch_clock hs
  | bbs | bbc => exact branchBit_clock hs
  | jal => exact execJal_clock hs
  | jalr | cRet => exact jumpReg_clock hs
  | park => exact execPark_clock hs
  | csrr => exact execCsrr_clock hs
  | csrw => exact execCsrw_clock hs
  | csrs | csrc | csrx => exact csrSwap_clock hs
  | ldl | ldws | ldas | ldcs | cLdlD => exact storeLoad_clock hs
  | stl | stws | stas | stcs | cStlD => exact storeStore_clock hs
  | ldm => exact execLdm_clock hs
  | stm => exact execStm_clock hs
  | ldg => exact execLdg_clock hs
  | stg => exact execStg_clock hs
  | ldh => exact execLdh_clock hs
  | pub => exact execPub_clock hs
  | ldflC | ldflP | ldfmC | ldfmP => exact feLoad_clock hs
  | stflF | stfmF => exact feFill_clock hs
  | stflX | stflE | stfmX | stfmE => exact feSet_clock hs
  | ldfgC | ldfgP => exact feLoadG_clock hs
  | stfgF => exact execStfgF_clock hs
  | stfgX | stfgE => exact feSetG_clock hs
  | amoAddW | amoSwapW => exact amoW_clock hs
  | amoAddD | amoAndD | amoOrD | amoXorD | amoMinD | amoMaxD | amoMinnD | amoMaxnD | amoSwapD => exact amoD_clock hs
  | amoCasW | amoCasD | amoEsadd | amoEsrd | amoEsclr => exact amo_clock hs
  | amoFaddU | amoFmax | amoFmin => exact amoF_clock hs
  | fenceAcq => exact execFenceAcq_clock hs
  | fenceRel => exact execFenceRel_clock hs
  | fenceFull => exact execFenceFull_clock hs
  | spawn | spawnH => exact spawnThread_clock hs
  | sendm => exact execSendm_clock hs
  | recvm => exact execRecvm_clock hs
  | recvmO => exact execRecvmO_clock hs
  | peekm => exact execPeekm_clock hs
  | clre | cClre => exact clearReg_clock hs
  | isfull => exact execIsfull_clock hs
  | putr => exact execPutr_clock hs
  | fork => exact execFork_clock hs
  | kick => exact execKick_clock hs
  | wlpush => exact execWlpush_clock hs
  | wlpop => exact execWlpop_clock hs
  | wlcnt => exact execWlcnt_clock hs
  | tbar | qbar | clbar => exact barrier_clock hs
  | stepidle => exact execStepidle_clock hs
  | cpyLm | cpyGl | cpyLg | cpyGg => exact copyIssue_clock hs
  | cpyx => exact execCpyx_clock hs
  | launch => exact execLaunch_clock hs
  | vadd | vsub | vmul | vfma | vfms | vfnma | vrcp | vrsq | vsqrt => exact vfp_clock hs
  | vmax => exact execVmax_clock hs
  | vmin => exact execVmin_clock hs
  | vabs => exact execVabs_clock hs
  | vneg => exact execVneg_clock hs
  | vceq | vclt | vcle | viceq | viclt => exact vcompare_clock hs
  | vsel => exact execVsel_clock hs
  | vexp2 | vlog2 | vtanh => exact vapprox_clock hs
  | vamaxu => exact execVamaxu_clock hs
  | viadd | visub | vimul | viand | vior | vixor | vishl | vishr | visra | vimin | vimax | viadds | visubs => exact vint_clock hs
  | vcvt => exact execVcvt_clock hs
  | vquant => exact execVquant_clock hs
  | vquantv => exact execVquantv_clock hs
  | vdeq => exact execVdeq_clock hs
  | sclnext => exact execSclnext_clock hs
  | vpack => exact execVpack_clock hs
  | vunpk => exact execVunpk_clock hs
  | vrsumO => exact execVrsumO_clock hs
  | vrsumU => exact execVrsumU_clock hs
  | vrmax => exact execVrmax_clock hs
  | vramax => exact execVramax_clock hs
  | vrmin => exact execVrmin_clock hs
  | vshuf | vbcast | vslide => exact vperm_clock hs
  | vins => exact execVins_clock hs
  | vext => exact execVext_clock hs
  | mld => exact execMld_clock hs
  | mma | mmat => exact multiplyStore_clock hs
  | mmaLatch | mmatLatch => exact multiplyLatch_clock hs
  | mout => exact execMout_clock hs
  | mdrain => exact execMdrain_clock hs
  | mzero => exact execMzero_clock hs
  | ringdef => exact execRingdef_clock hs
  | latch => exact execLatch_clock hs
  | qinit => exact execQinit_clock hs
  | qhh | qgen => exact householder_clock hs
  | qapp => exact execQapp_clock hs
  | qapl | qaplt | qapr | qaprt | qdense => exact foldApply_clock hs
  | qsave => exact execQsave_clock hs
  | qload => exact execQload_clock hs
  | gqpush => exact execGqpush_clock hs
  | gqpop => exact execGqpop_clock hs
  | gqwin => exact execGqwin_clock hs
  | gqlen => exact execGqlen_clock hs
  | optAdamw | optSgdm | optClip => exact optIssue_clock hs
  | epopen => exact execEpopen_clock hs
  | eprec => exact execEprec_clock hs
  | epclose => exact execEpclose_clock hs
  | rwsend => exact execRwsend_clock hs
  | epstat => exact execEpstat_clock hs
  | collDecl => exact execCollDecl_clock hs
  | collAg | collRsO | collRsU | collArO | collArU | collA2a => exact collData_clock hs
  | collBar => exact execCollBar_clock hs
  | tlbinv => exact execTlbinv_clock hs
  | tlbprobe => exact execTlbprobe_clock hs
  | lkctlStatus | lkctlThresh | lkctlMaxw | lkctlRetrain => exact lkctl_clock hs
  | swreqSwitch | swreqDefpart | swreqSetrun | swreqDestroy => exact switchRequest_clock hs
  | report => exact execReport_clock hs
  | cJ => exact execCJ_clock hs
  | nop => exact execNop_clock hs
  | ecall => exact execEcall_clock hs
  | ebreak => exact execEbreak_clock hs
  | tret => exact execTret_clock hs
  | ifence => exact execIfence_clock hs
  | fenceLb => exact execFenceLb_clock hs
  | waitm | cWaitm => exact waitMail_clock hs
  | exit | cExit => exact exitThread_clock hs
  | yield | cYield => exact yieldThread_clock hs
  | tid => exact execTid_clock hs
  | rdv => exact execRdv_clock hs
  | step | cStep => exact stepSlot_clock hs
  | cpyq => exact execCpyq_clock hs
  | brot => exact execBrot_clock hs
  | cSysNop => exact execCSysNop_clock hs
  | bringUp => exact execBringUp_clock hs
  | attestationStart => exact startAttestation_clock hs
  | attestationDone => exact execAttestationDone_clock hs
  | thermalTrip => exact execThermalTrip_clock hs
  | tripClear => exact execTripClear_clock hs
  | registerWrite => exact execRegisterWrite_clock hs
  | armAliasStore => exact execArmAliasStore_clock hs
  | rewardWindowWrite => exact execRewardWindowWrite_clock hs
  | hostMemAccess => exact execHostMemAccess_clock hs
  | queueWalk => exact execQueueWalk_clock hs
  | periodBoundary => exact execPeriodBoundary_clock hs
  | nodeDispatch => exact execNodeDispatch_clock hs
  | kernelChecking => exact execKernelChecking_clock hs
  | groupPlacement => exact execGroupPlacement_clock hs
  | groupLoad => exact execGroupLoad_clock hs
  | groupRelease => exact execGroupRelease_clock hs
  | groupRetire => exact execGroupRetire_clock hs
  | longOpComplete => exact execLongOpComplete_clock hs
  | registerWaitLimit => exact execRegisterWaitLimit_clock hs
  | feWaitLimit => exact execFeWaitLimit_clock hs
  | feListFullRetry => exact execFeListFullRetry_clock hs
  | putrFill => exact execPutrFill_clock hs
  | putrRetry => exact execPutrRetry_clock hs
  | parkDeadline => exact execParkDeadline_clock hs
  | spawnAnswer => exact execSpawnAnswer_clock hs
  | stepAdvance => exact execStepAdvance_clock hs
  | stepwatchReport => exact execStepwatchReport_clock hs
  | barrierGenerationComplete => exact execBarrierGenerationComplete_clock hs
  | barrierWaitReport => exact execBarrierWaitReport_clock hs
  | tileSleep => exact execTileSleep_clock hs
  | tileWake => exact execTileWake_clock hs
  | mailboxPostArrival => exact execMailboxPostArrival_clock hs
  | copyAccept => exact execCopyAccept_clock hs
  | copyBurst => exact execCopyBurst_clock hs
  | copyResume => exact execCopyResume_clock hs
  | copyPost => exact execCopyPost_clock hs
  | ringMove => exact execRingMove_clock hs
  | pageWalk => exact execPageWalk_clock hs
  | pageResponse => exact execPageResponse_clock hs
  | tableLineSnoop => exact execTableLineSnoop_clock hs
  | timeSliceNaming => exact execTimeSliceNaming_clock hs
  | gangSwitchStop => exact execGangSwitchStop_clock hs
  | gangSwitchSaveDone => exact execGangSwitchSaveDone_clock hs
  | gangSwitchRestore => exact execGangSwitchRestore_clock hs
  | darnerLine => exact execDarnerLine_clock hs
  | levellerTick => exact execLevellerTick_clock hs
  | escapeEntry => exact execEscapeEntry_clock hs
  | linkTrainingDone => exact execLinkTrainingDone_clock hs
  | linkTrainingTimeout => exact execLinkTrainingTimeout_clock hs
  | linkIdleTimeout => exact execLinkIdleTimeout_clock hs
  | idleFlitSend => exact execIdleFlitSend_clock hs
  | flitReceive => exact execFlitReceive_clock hs
  | linkWiden => exact execLinkWiden_clock hs
  | wakeComplete => exact execWakeComplete_clock hs
  | linkNarrow => exact execLinkNarrow_clock hs
  | widthFlitReceive => exact execWidthFlitReceive_clock hs
  | collAccept => exact execCollAccept_clock hs
  | collMemberAnswer => exact execCollMemberAnswer_clock hs
  | collMemberTimeout => exact execCollMemberTimeout_clock hs
  | collPost => exact execCollPost_clock hs
  | menderSlotStart => exact execMenderSlotStart_clock hs
  | gqEnClear => exact execGqEnClear_clock hs
  | rewardArrival => exact execRewardArrival_clock hs
  | rwsendRemoteAnswer => exact execRwsendRemoteAnswer_clock hs
  | episodeTimeout => exact execEpisodeTimeout_clock hs
  | wringerScan => exact execWringerScan_clock hs
  | episodeRelease => exact execEpisodeRelease_clock hs
  | illegalInstruction => exact illegal_clock hs
  | hostPortDown => exact execHostPortDown_clock hs
  | homeChannelPowerDown => exact execHomeChannelPowerDown_clock hs
  | selfRefreshEntry => exact execSelfRefreshEntry_clock hs
  | hostLineSnoop => exact execHostLineSnoop_clock hs

/-! ## The fetch -/

theorem fetchHalf_clock {va s k} (hs : AtCycle now s) (hk : ∀ x t, AtCycle now t → GoesOn now (k x t)) : GoesOn now (fetchHalf va s k) := by
  unfold fetchHalf
  split
  next s1 _ e =>
    have h1 : AtCycle now s1 := fst_clock (xlateHart_clock hs) e
    exact hk _ _ (ite_clock (notePoisonRead_clock (codeRead_clock h1)) (codeRead_clock h1))
  · exact park_clock (fst_clock (xlateHart_clock hs) ‹_›)
  all_goals exact trap_clock (fst_clock (xlateHart_clock hs) ‹_›)

theorem fetchWord_clock {s k} (hs : AtCycle now s) (hk : ∀ x y t, AtCycle now t → GoesOn now (k x y t)) : GoesOn now (fetchWord s k) := by
  unfold fetchWord
  exact fetchHalf_clock hs fun _ _ h1 => ite_goesOn (hk _ _ _ h1) (fetchHalf_clock h1 fun _ _ h2 => hk _ _ _ h2)

theorem settle_clock {h x r} (hr : GoesOn now r) : GoesOn now (settle h x r) := by
  cases r with
  | next s => exact commitNotes_clock (hr)
  | fault | refused => exact hr

theorem fetchInstr_clock {k s} (hk : ∀ x t, AtCycle now t → GoesOn now (k x t)) (hs : AtCycle now s) : GoesOn now (fetchInstr k s) :=
  fetchWord_clock hs fun _ _ _ h1 => hk _ _ h1

/-! ## The turns -/

theorem choose_clock {s l} (hs : AtCycle now s) : AtCycle now (choose s l).2 := by
  unfold choose
  split <;> exact hs

theorem pick_clock {s} (hs : AtCycle now s) : AtCycle now (pick s).2 := by
  unfold pick
  split
  · exact hs
  · split
    · exact choose_clock hs
    · split
      · exact hs
      · exact choose_clock hs

theorem markIssue_clock {s h} (hs : AtCycle now s) : AtCycle now (markIssue s h) := by
  unfold markIssue
  extract_lets
  split
  · exact ite_clock (modTile_clock (modHart_clock hs)) (modHart_clock hs)
  · exact setMender_clock (modHart_clock hs)

theorem wakeAll_clock {s} (hs : AtCycle now s) : AtCycle now (wakeAll s) := hs

/-- What passes with every step takes one cycle. -/
theorem tick_clock {x s} (hs : AtCycle now s) : AtCycle (now + 1) (tick x s) := by
  unfold tick
  extract_lets s1 s2 s3 s4
  have h1 : AtCycle now s1 := hs
  have h2 : AtCycle now s2 := linkCycles_clock (noteWaits_clock (drainReports_clock h1))
  have h3 : AtCycle (now + 1) s3 := congrArg (· + 1) h2
  exact keep_clock (wakeAll_clock h3)

/-! ## The step -/

theorem hartTurn_clock {h s} (hs : AtCycle now s) : GoesOn now (hartTurn h s) := by
  unfold hartTurn
  split
  · exact takeTrap_clock (markIssue_clock hs)
  · exact settle_clock (fetchInstr_clock (fun _ _ h1 => exec_clock h1) (markIssue_clock hs))

theorem heldTurn_clock {h w s} (hs : AtCycle now s) : GoesOn now (heldTurn h w s) := settle_clock (exec_clock hs)

theorem runTurn_clock {x s} (hs : AtCycle now s) : GoesOn now (runTurn x s) := by
  unfold runTurn
  split
  · exact exec_clock hs
  · exact hartTurn_clock hs
  · exact heldTurn_clock hs
  · exact hs

theorem ticked_clock {x r} (hr : GoesOn now r) : GoesOn (now + 1) (ticked x r) := by
  cases r with
  | next s => exact tick_clock hr
  | fault | refused => exact hr

theorem step_clock {s} (hs : AtCycle now s) : GoesOn (now + 1) (step s) := ticked_clock (runTurn_clock (pick_clock hs))

end

end Sys2Proof.Machine

namespace Sys2Proof

open Sys2Proof.Machine

/-- Settles O59: a turn answers a next state and leaves the clock as it is (`runTurn_clock`), which then goes on by one cycle (`tick_clock`). -/
theorem stepGoesOn : Obligations.StepGoesOn := by
  unfold Obligations.StepGoesOn
  intro s
  have h : GoesOn (s.cycle + 1) (Machine.step s) := step_clock rfl
  cases e : Machine.step s with
  | next t => exact ⟨t, rfl, by rw [e] at h; exact h⟩
  | fault f | refused r => rw [e] at h; exact h.elim

end Sys2Proof
end

section
/-! PROOF of O1 and O53: the values of the integer instructions as numbers; the form that the rows of ALU and ALUI share (`HasForm`), from
which both what each does and what it leaves alone follow; the long operations. -/

namespace Sys2Proof.Machine

open Sys2Proof.Claims

/-! ## Words as numbers -/

theorem w64_toNat_add (x y : Word) : w64 (x.toNat + y.toNat) = x + y := by
  rw [w64, BitVec.ofNat_add, BitVec.ofNat_toNat, BitVec.ofNat_toNat]; simp

theorem w64_toNat_mul (x y : Word) : w64 (x.toNat * y.toNat) = x * y := by
  rw [w64, BitVec.ofNat_mul, BitVec.ofNat_toNat, BitVec.ofNat_toNat]; simp

theorem i64_toNat_sub (x y : Word) : i64 ((x.toNat : Int) - y.toNat) = x - y := by
  rw [i64, Int.sub_eq_add_neg, BitVec.ofInt_add, BitVec.ofInt_neg, BitVec.ofInt_natCast, BitVec.ofInt_natCast, BitVec.sub_eq_add_neg]; simp

theorem shiftLeft_eq_mul (x : Word) (n : Nat) : x <<< n = w64 (x.toNat * 2 ^ n) := by
  rw [w64, ← Nat.shiftLeft_eq]; rfl

theorem ushiftRight_eq_div (x : Word) (n : Nat) : x >>> n = w64 (x.toNat / 2 ^ n) := by
  apply BitVec.eq_of_toNat_eq
  have : x.toNat / 2 ^ n < 2 ^ 64 := lt_of_le_of_lt (Nat.div_le_self _ _) x.isLt
  rw [BitVec.toNat_ushiftRight, Nat.shiftRight_eq_div_pow, w64, BitVec.toNat_ofNat, Nat.mod_eq_of_lt this]

theorem sshiftRight_eq_div (x : Word) (n : Nat) : x.sshiftRight n = i64 (x.toInt / 2 ^ n) := by
  apply BitVec.eq_of_toInt_eq
  have div : (x.sshiftRight n).toInt = x.toInt / 2 ^ n := by rw [BitVec.toInt_sshiftRight, Int.shiftRight_eq_div_pow]; norm_cast
  rw [← div, i64, BitVec.ofInt_toInt]

theorem flagWord_decide (p : Prop) [Decidable p] : flagWord (decide p) = if p then 1 else 0 := by
  by_cases h : p <;> simp [flagWord, h]

theorem sextW_eq (x : Word) : sextW x = (x.setWidth 32).signExtend 64 := by
  rw [sextW, sextNat_eq_toInt, i64, BitVec.signExtend, ← BitVec.ofNat_toNat]

theorem sextW_add (x y : Word) : sextW (x + y) = i64 (sextNat 32 (x.toNat + y.toNat)) := by
  have low : (x + y).toNat % 2 ^ 32 = (x.toNat + y.toNat) % 2 ^ 32 := by
    rw [BitVec.toNat_add, Nat.mod_mod_of_dvd _ (by decide)]
  rw [sextW, sextNat, sextNat, low]

theorem rotL_eq (x : Word) {n : Nat} (h : n < 64) : rotL x n = x.rotateLeft n := by
  rw [rotL, BitVec.rotateLeft_def, Nat.mod_eq_of_lt h]

theorem rotR_eq (x : Word) {n : Nat} (h : n < 64) : rotR x n = x.rotateRight n := by
  rw [rotR, BitVec.rotateRight_def, Nat.mod_eq_of_lt h]

theorem popCount_eq (n v : Nat) : popCount n v = (List.range n).countP v.testBit := by
  induction n generalizing v with
  | zero => rfl
  | succ n ih =>
    have rest : v.testBit ∘ Nat.succ = (v / 2).testBit := funext fun i => Nat.testBit_succ v i
    rw [popCount, ih, List.range_succ_eq_map, List.countP_cons, List.countP_map, rest, Nat.testBit_zero, Nat.add_comm]
    rcases Nat.mod_two_eq_zero_or_one v with h | h <;> simp [h]

theorem trailZeros_eq (n v : Nat) : trailZeros n v = ((List.range n).takeWhile fun i => !v.testBit i).length := by
  induction n generalizing v with
  | zero => rfl
  | succ n ih =>
    have rest : (fun i => !v.testBit i) ∘ Nat.succ = fun i => !(v / 2).testBit i := funext fun i => by simp [Nat.testBit_succ]
    rw [trailZeros, ih, List.range_succ_eq_map, List.takeWhile_cons, List.takeWhile_map, rest, Nat.testBit_zero]
    rcases Nat.mod_two_eq_zero_or_one v with h | h <;> simp [h, Nat.add_comm]

theorem leadZeros_eq (n v : Nat) : leadZeros n v = ((List.range n).takeWhile fun i => !v.testBit (n - 1 - i)).length := by
  induction n generalizing v with
  | zero => rfl
  | succ n ih =>
    have rest : (fun i => !v.testBit (n + 1 - 1 - i)) ∘ Nat.succ = fun i => !v.testBit (n - 1 - i) :=
      funext fun i => by simp [Nat.sub_sub, Nat.add_comm]
    rw [leadZeros, ih, List.range_succ_eq_map, List.takeWhile_cons, List.takeWhile_map, rest, Nat.add_sub_cancel, Nat.sub_zero,
      Nat.testBit_eq_decide_div_mod_eq]
    rcases Nat.mod_two_eq_zero_or_one (v / 2 ^ n) with h | h <;> simp [h, Nat.add_comm]

/-- The mask of a field: its bits are ones from its position up, as many as its length. -/
theorem testBit_field (p n i : Nat) : ((2 ^ n - 1) * 2 ^ p).testBit i = decide (p ≤ i ∧ i < p + n) := by
  rw [Nat.testBit_mul_two_pow, Nat.testBit_two_pow_sub_one, ← Bool.decide_and, decide_eq_decide]
  omega

theorem bfInsert_bits (d a p n i : Nat) :
    (d % 2 ^ p + a % 2 ^ n * 2 ^ p + d / (2 ^ p * 2 ^ n) * (2 ^ p * 2 ^ n)).testBit i =
      if p ≤ i ∧ i < p + n then a.testBit (i - p) else d.testBit i := by
  have low : d % 2 ^ p < 2 ^ p := Nat.mod_lt _ (by positivity)
  have mid : a % 2 ^ n * 2 ^ p + d % 2 ^ p < 2 ^ (p + n) := by
    have : a % 2 ^ n + 1 ≤ 2 ^ n := Nat.mod_lt _ (by positivity)
    have := Nat.mul_le_mul_right (2 ^ p) this
    rw [Nat.pow_add]; nlinarith
  have parts : d % 2 ^ p + a % 2 ^ n * 2 ^ p + d / (2 ^ p * 2 ^ n) * (2 ^ p * 2 ^ n) =
      2 ^ (p + n) * (d / 2 ^ (p + n)) + (2 ^ p * (a % 2 ^ n) + d % 2 ^ p) := by rw [← Nat.pow_add]; ring
  rw [parts, Nat.testBit_two_pow_mul_add _ (by rw [Nat.mul_comm]; exact mid), Nat.testBit_two_pow_mul_add _ low, Nat.testBit_mod_two_pow,
    Nat.testBit_mod_two_pow, Nat.testBit_div_two_pow]
  by_cases hp : i < p
  · simp [hp, show i < p + n by omega, show ¬ p ≤ i by omega]
  · by_cases hn : i < p + n
    · simp [hp, hn, show p ≤ i by omega, show i - p < n by omega]
    · simp [hn, show p + n ≤ i by omega]

/-- BFI puts the low bits of `a` into the field of `d` (R69). -/
theorem bfInsert_eq (a b d : Word) :
    bfInsert a b d = (d &&& ~~~w64 ((2 ^ fieldLen b - 1) * 2 ^ fieldPos b)) |||
      (w64 (a.toNat * 2 ^ fieldPos b) &&& w64 ((2 ^ fieldLen b - 1) * 2 ^ fieldPos b)) := by
  apply BitVec.eq_of_getLsbD_eq
  intro i hi
  rw [bfInsert, BitVec.getLsbD_or, BitVec.getLsbD_and, BitVec.getLsbD_and, BitVec.getLsbD_not]
  simp only [w64, BitVec.getLsbD_ofNat, hi, decide_true, Bool.true_and, testBit_field, Nat.testBit_mul_two_pow a.toNat]
  rw [show bfPos b = fieldPos b from rfl, show bfLen b = fieldLen b from rfl, bfInsert_bits]
  by_cases h : fieldPos b ≤ i ∧ i < fieldPos b + fieldLen b
  · simp [h]
  · simp [h, BitVec.getLsbD]

/-! ## The forms of ALU and ALUI (R69 to R72) -/

/-- The row's instruction checks its set, its sources and its destination, and then writes its value. -/
def HasForm (r : GRow) : Prop :=
  ∀ s, exec r.instr s = inSet r.ok s fun s => sources (r.srcs.map gId) s fun s => dests [gId r.dst] s fun s =>
    done r.len (modMe s fun h => wg h r.dst (r.val (rg h)))

theorem alu2_hasForm {i : Instr} {len : Nat} {d a b : GReg} (f v : Word → Word → Word)
    (hx : ∀ s, exec i s = alu2 f len d a b s) (hf : ∀ x y, f x y = v x y) :
    HasForm ⟨i, threadOrMender, [a, b], d, len, fun g => v (g a) (g b)⟩ := by
  obtain rfl : f = v := funext₂ hf
  intro s; rw [hx]; rfl

theorem alu1_hasForm {i : Instr} {ok : HartKind → Bool} {len : Nat} {d a : GReg} (f v : Word → Word)
    (hx : ∀ s, exec i s = alu1 ok f len d a s) (hf : ∀ x, f x = v x) : HasForm ⟨i, ok, [a], d, len, fun g => v (g a)⟩ := by
  obtain rfl : f = v := funext hf
  intro s; rw [hx]; rfl

theorem alu3_hasForm {i : Instr} {d a b : GReg} (f v : Word → Word → Word → Word)
    (hx : ∀ s, exec i s = alu3 f d a b s) (hf : ∀ x y z, f x y z = v x y z) :
    HasForm ⟨i, threadOrMender, [a, b, d], d, 4, fun g => v (g a) (g b) (g d)⟩ := by
  obtain rfl : f = v := by funext x y z; exact hf x y z
  intro s; rw [hx]; rfl

theorem slt_eq (x y : Word) : flagWord (x.slt y) = if x.toInt < y.toInt then 1 else 0 := flagWord_decide _
theorem ult_eq (x y : Word) : flagWord (x.ult y) = if x.toNat < y.toNat then 1 else 0 := flagWord_decide _

theorem i64_toInt (x : Word) : i64 x.toInt = x := BitVec.ofInt_toInt
theorem w64_toNat (x : Word) : w64 x.toNat = x := by simp [w64]

theorem min_eq (x y : Word) : (if x.slt y then x else y) = i64 (min x.toInt y.toInt) := by
  by_cases h : x.toInt < y.toInt <;> simp [BitVec.slt, h, i64_toInt, min_eq_left_of_lt, le_of_not_gt]

theorem max_eq (x y : Word) : (if x.slt y then y else x) = i64 (max x.toInt y.toInt) := by
  by_cases h : x.toInt < y.toInt <;> simp [BitVec.slt, h, i64_toInt, max_eq_right_of_lt, le_of_not_gt]

theorem minn_eq (x y : Word) : (if x.ult y then x else y) = w64 (min x.toNat y.toNat) := by
  by_cases h : x.toNat < y.toNat <;> simp [BitVec.ult, h, w64_toNat, min_eq_left_of_lt, le_of_not_gt]

theorem maxn_eq (x y : Word) : (if x.ult y then y else x) = w64 (max x.toNat y.toNat) := by
  by_cases h : x.toNat < y.toNat <;> simp [BitVec.ult, h, w64_toNat, max_eq_right_of_lt, le_of_not_gt]

theorem sextW_sub (x y : Word) : sextW (x - y) = (x.setWidth 32 - y.setWidth 32).signExtend 64 := by
  rw [sextW_eq, BitVec.sub_eq_add_neg, BitVec.setWidth_add _ _ (by decide), BitVec.setWidth_neg_of_le (by decide), ← BitVec.sub_eq_add_neg]

theorem sextW_mul (x y : Word) : sextW (x * y) = (x.setWidth 32 * y.setWidth 32).signExtend 64 := by
  rw [sextW_eq, BitVec.setWidth_mul _ _ (by decide)]

theorem add_i64 (x : Word) (n : Int) : x + i64 n = i64 (x.toInt + n) := by rw [i64, i64, BitVec.ofInt_add, BitVec.ofInt_toInt]

/-- C.MOV adds g0, which reads zero. -/
theorem cMov_hasForm (d a : GReg) : HasForm ⟨.cMov d a, threadOrMender, [a, 0], d, 2, fun g => g a⟩ := by
  intro s
  show alu2 (fun x y => x + y) 2 d a 0 s = _
  have zero (h : Hart) : wg h d (rg h a + rg h 0) = wg h d (rg h a) := by simp [rg]
  simp only [alu2, zero]
  rfl

theorem aluRows_hasForm (d a b : GReg) : ∀ r ∈ aluRows d a b, HasForm r := by
  simp only [aluRows, List.forall_mem_cons]
  refine ⟨?_, ?_, ?_, ?_, ?_, ?_, ?_, ?_, ?_, ?_, ?_, ?_, ?_, ?_, ?_, ?_, ?_, ?_, ?_, List.forall_mem_nil _⟩
  · exact alu2_hasForm (fun x y => x + y) (fun x y => w64 (x.toNat + y.toNat)) (fun _ => rfl) fun x y => (w64_toNat_add x y).symm
  · exact alu2_hasForm (fun x y => x - y) (fun x y => i64 (x.toNat - y.toNat)) (fun _ => rfl) fun x y => (i64_toNat_sub x y).symm
  · exact alu2_hasForm (fun x y => x &&& y) (fun x y => x &&& y) (fun _ => rfl) fun x y => rfl
  · exact alu2_hasForm (fun x y => x ||| y) (fun x y => x ||| y) (fun _ => rfl) fun x y => rfl
  · exact alu2_hasForm (fun x y => x ^^^ y) (fun x y => x ^^^ y) (fun _ => rfl) fun x y => rfl
  · exact alu2_hasForm (fun x y => x <<< amount y) (fun x y => w64 (x.toNat * 2 ^ (y.toNat % 64))) (fun _ => rfl) fun x y => shiftLeft_eq_mul x (amount y)
  · exact alu2_hasForm (fun x y => x >>> amount y) (fun x y => w64 (x.toNat / 2 ^ (y.toNat % 64))) (fun _ => rfl) fun x y => ushiftRight_eq_div x (amount y)
  · exact alu2_hasForm (fun x y => x.sshiftRight (amount y)) (fun x y => i64 (x.toInt / 2 ^ (y.toNat % 64))) (fun _ => rfl) fun x y => sshiftRight_eq_div x (amount y)
  · exact alu2_hasForm (fun x y => flagWord (x.slt y)) (fun x y => if x.toInt < y.toInt then 1 else 0) (fun _ => rfl) fun x y => slt_eq x y
  · exact alu2_hasForm (fun x y => flagWord (x.ult y)) (fun x y => if x.toNat < y.toNat then 1 else 0) (fun _ => rfl) fun x y => ult_eq x y
  · exact alu2_hasForm (fun x y => if x.slt y then x else y) (fun x y => i64 (min x.toInt y.toInt)) (fun _ => rfl) fun x y => min_eq x y
  · exact alu2_hasForm (fun x y => if x.slt y then y else x) (fun x y => i64 (max x.toInt y.toInt)) (fun _ => rfl) fun x y => max_eq x y
  · exact alu2_hasForm (fun x y => if x.ult y then x else y) (fun x y => w64 (min x.toNat y.toNat)) (fun _ => rfl) fun x y => minn_eq x y
  · exact alu2_hasForm (fun x y => if x.ult y then y else x) (fun x y => w64 (max x.toNat y.toNat)) (fun _ => rfl) fun x y => maxn_eq x y
  · exact alu2_hasForm (fun x y => sextW (x + y)) (fun x y => i64 (sextNat 32 (x.toNat + y.toNat))) (fun _ => rfl) fun x y => sextW_add x y
  · exact alu2_hasForm (fun x y => sextW (x - y)) (fun x y => (x.setWidth 32 - y.setWidth 32).signExtend 64) (fun _ => rfl) fun x y => sextW_sub x y
  · exact alu2_hasForm (fun x y => rotL x (amount y)) (fun x y => x.rotateLeft (y.toNat % 64)) (fun _ => rfl) fun x y => rotL_eq x (n := amount y) (Nat.mod_lt _ (by decide))
  · exact alu2_hasForm (fun x y => rotR x (amount y)) (fun x y => x.rotateRight (y.toNat % 64)) (fun _ => rfl) fun x y => rotR_eq x (n := amount y) (Nat.mod_lt _ (by decide))
  · exact alu2_hasForm (bfExtract) (fun x y => w64 (x.toNat / 2 ^ fieldPos y % 2 ^ fieldLen y)) (fun _ => rfl) fun x y => rfl

theorem aluMoreRows_hasForm (d a b : GReg) (imm : Imm7) : ∀ r ∈ aluMoreRows d a b imm, HasForm r := by
  simp only [aluMoreRows, List.forall_mem_cons]
  refine ⟨?_, ?_, ?_, ?_, ?_, ?_, ?_, ?_, ?_, ?_, List.forall_mem_nil _⟩
  · exact alu3_hasForm (fun x y z => if z ≠ 0 then x else y) (fun x y z => if z ≠ 0 then x else y) (fun _ => rfl) fun _ _ _ => rfl
  · exact alu3_hasForm bfInsert (fun x y z => (z &&& ~~~w64 ((2 ^ fieldLen y - 1) * 2 ^ fieldPos y)) |||
      (w64 (x.toNat * 2 ^ fieldPos y) &&& w64 ((2 ^ fieldLen y - 1) * 2 ^ fieldPos y))) (fun _ => rfl) bfInsert_eq
  · exact alu1_hasForm (fun x => w64 (leadZeros 64 x.toNat)) (fun x => w64 (runDown x)) (fun _ => rfl) fun x => congrArg w64 (leadZeros_eq 64 x.toNat)
  · exact alu1_hasForm (fun x => w64 (trailZeros 64 x.toNat)) (fun x => w64 (runUp x)) (fun _ => rfl) fun x => congrArg w64 (trailZeros_eq 64 x.toNat)
  · exact alu1_hasForm (fun x => w64 (popCount 64 x.toNat)) (fun x => w64 ((List.range 64).countP fun i => x.getLsbD i)) (fun _ => rfl) fun x => congrArg w64 (popCount_eq 64 x.toNat)
  · exact alu1_hasForm (fun x => x + imm.signExtend 64) (fun x => i64 (x.toInt + imm.toInt)) (fun _ => rfl) fun x => add_i64 x imm.toInt
  · exact cMov_hasForm d a
  · exact alu2_hasForm (fun x y => x + y) (fun x y => w64 (x.toNat + y.toNat)) (fun _ => rfl) fun x y => (w64_toNat_add x y).symm
  · exact alu2_hasForm (fun x y => x - y) (fun x y => i64 (x.toNat - y.toNat)) (fun _ => rfl) fun x y => (i64_toNat_sub x y).symm
  · exact alu2_hasForm (fun x y => x &&& y) (fun x y => x &&& y) (fun _ => rfl) fun _ _ => rfl

theorem immRows_hasForm (d a : GReg) (imm : Imm15) (n : Sh6) : ∀ r ∈ immRows d a imm n, HasForm r := by
  simp only [immRows, List.forall_mem_cons]
  refine ⟨?_, ?_, ?_, ?_, ?_, ?_, ?_, ?_, ?_, List.forall_mem_nil _⟩
  · exact alu1_hasForm (fun x => x + immI imm) (fun x => i64 (x.toInt + imm.toInt)) (fun _ => rfl) fun x => add_i64 x imm.toInt
  · exact alu1_hasForm (fun x => x &&& immI imm) (fun x => x &&& i64 imm.toInt) (fun _ => rfl) fun _ => rfl
  · exact alu1_hasForm (fun x => x ||| immI imm) (fun x => x ||| i64 imm.toInt) (fun _ => rfl) fun _ => rfl
  · exact alu1_hasForm (fun x => x ^^^ immI imm) (fun x => x ^^^ i64 imm.toInt) (fun _ => rfl) fun _ => rfl
  · exact alu1_hasForm (fun x => flagWord (x.slt (immI imm))) (fun x => if x.toInt < imm.toInt then 1 else 0) (fun _ => rfl) fun x => by
      rw [slt_eq, immI, BitVec.toInt_signExtend_of_le (by decide)]
  · exact alu1_hasForm (fun x => x <<< n.val) (fun x => w64 (x.toNat * 2 ^ n.val)) (fun _ => rfl) fun x => shiftLeft_eq_mul x n.val
  · exact alu1_hasForm (fun x => x >>> n.val) (fun x => w64 (x.toNat / 2 ^ n.val)) (fun _ => rfl) fun x => ushiftRight_eq_div x n.val
  · exact alu1_hasForm (fun x => x.sshiftRight n.val) (fun x => i64 (x.toInt / 2 ^ n.val)) (fun _ => rfl) fun x => sshiftRight_eq_div x n.val
  · exact alu1_hasForm (fun x => rotR x n.val) (fun x => x.rotateRight n.val) (fun _ => rfl) fun x => rotR_eq x n.isLt

/-! ## What follows of the form (O1) -/

theorem rg_readFilled_eq (s : State) (rs : List RegId) : rg (me (readFilled s rs)) = rg (me s) := funext (rg_readFilled s rs)

theorem runs_of_form {r : GRow} (hr : HasForm r) : r.runs := by
  intro s hi
  rw [hr, inSet_pass _ hi.kind, sources_pass _ hi.full hi.sound, dests_pass _ (by simpa using hi.free)]
  exact done_modHart r.len (by rw [rg_readFilled_eq]) (by simp)

theorem realDests_g (d : GReg) (v : Word) : realDests [⟨gId d, v.toNat⟩] = gBack d v := by
  have zero : d = 0 ↔ d.val = 0 := Fin.ext_iff
  by_cases hd : d.val = 0 <;> simp [realDests, gBack, gId, zero, hd]

theorem ownReg_gBack {d : GReg} {v : Word} : ∀ b ∈ gBack d v, ownReg b.reg := by
  intro b hb
  unfold gBack at hb
  split at hb
  · cases hb
  · rw [List.mem_singleton.mp hb]; exact d.isLt

/-- A long operation of ALU sets out with its result on its way (R59, R60, R62). -/
theorem aluLong_issues {f : Word → Word → Word} {lat : Nat} {la : La} {d a b : GReg} {s : State}
    (hi : Issues s threadOrMender [gId a, gId b] [gId d]) (hroom : (me s).out.length < 4) :
    aluLong f lat la d a b s = .next (issued (readFilled s [gId a, gId b]) 4 la.val lat (gBack d (f (rg (me s) a) (rg (me s) b))) 0 false) := by
  rw [aluLong, inSet_pass _ hi.kind, sources_pass _ hi.full hi.sound, roomForLong_pass _ (by simpa [me_readFilled] using hroom),
    dests_pass _ (by simpa using hi.free), issueLong_own (by simpa only [longOp, realDests_g] using ownReg_gBack), orderDue_still rfl]
  simp only [longOp, realDests_g, rg_readFilled, Nat.max_zero, lookahead]
  rfl

theorem mulHigh_nat (x y : Word) : mulHigh x.toNat y.toNat = w64 (x.toNat * y.toNat / 2 ^ 64) := by
  rw [mulHigh, i64, w64, ← BitVec.ofInt_natCast]; norm_cast

theorem longRows_issue (la : La) (d a b : GReg) : ∀ r ∈ longRows la d a b, ∃ f : Word → Word → Word, (∀ x y, f x y = r.2.2 x y) ∧
    ∀ s, exec r.1 s = aluLong f r.2.1 la d a b s := by
  simp only [longRows, List.forall_mem_cons]
  refine ⟨⟨fun x y => x * y, fun x y => (w64_toNat_mul x y).symm, fun _ => rfl⟩,
    ⟨fun x y => mulHigh x.toInt y.toInt, fun _ _ => rfl, fun _ => rfl⟩,
    ⟨fun x y => mulHigh x.toNat y.toNat, mulHigh_nat, fun _ => rfl⟩,
    ⟨fun x y => sextW (x * y), sextW_mul, fun _ => rfl⟩,
    ⟨divS, fun _ _ => rfl, fun _ => rfl⟩, ⟨divN, fun _ _ => rfl, fun _ => rfl⟩, ⟨remS, fun _ _ => rfl, fun _ => rfl⟩,
    ⟨remN, fun _ _ => rfl, fun _ => rfl⟩, List.forall_mem_nil _⟩

/-- Settles O1: each short form is `HasForm` with its row's value, and a long one sets out with it (`aluLong_issues`). -/
theorem integerInstructions : Obligations.IntegerInstructions := by
  unfold Obligations.IntegerInstructions
  refine ⟨fun d a b imm c n => ⟨fun r hr => runs_of_form (aluRows_hasForm d a b r hr), fun r hr => runs_of_form (aluMoreRows_hasForm d a b c r hr),
    fun r hr => runs_of_form (immRows_hasForm d a imm n r hr)⟩, fun la d a b r hr s hi hroom => ?_⟩
  obtain ⟨f, value, ran⟩ := longRows_issue la d a b r hr
  rw [ran, aluLong_issues hi hroom, value]

/-! ## The frame of the forms (O53) -/

theorem rows_form {d a b : GReg} {imm : Imm15} {c : Imm7} {n : Sh6} : ∀ r ∈ aluRows d a b ++ aluMoreRows d a b c ++ immRows d a imm n, HasForm r := by
  intro r hr
  rcases List.mem_append.mp hr with hr | hr
  · exact (List.mem_append.mp hr).elim (aluRows_hasForm d a b r) (aluMoreRows_hasForm d a b c r)
  · exact immRows_hasForm d a imm n r hr

theorem storeByte_finished (s : State) (rs : List RegId) (len : Nat) (f : Hart → Hart) (u : Nat) (x : Store) (b : Nat) :
    storeByte (Claims.finished s rs len f) u x b = storeByte s u x b := by
  cases x <;> simp [storeByte, Claims.finished, storeMem, complete, completeAs]

/-- Writing a g-register leaves the rest of the hart. -/
theorem onlyRegister_finished (s : State) (rs : List RegId) (len : Nat) (d : GReg) (x : Word) :
    OnlyRegister s (Claims.finished s rs len fun h => wg h d x) s.cur d := by
  refine ⟨fun r hr => ?_, fun k hk => ?_, ?_, ?_, fun u x b => storeByte_finished .., fun u => ?_, ?_⟩
  · rw [Claims.finished, getHart_complete_same, getHart_modHart_same]
    show rg (wg (getHart (readFilled s rs) s.cur) d x) r = rg (getHart s s.cur) r
    rw [rg_wg_other _ _ hr, getHart_readFilled]
    rfl
  · rw [Claims.finished, getHart_complete_other _ _ hk, getHart_modHart_other _ _ hk, getHart_readFilled_other _ _ hk]
  · simp [Claims.finished]
  · simp [Claims.finished]
  · simp [Claims.finished, complete, completeAs]
  · simp [Claims.finished, getHart_complete_same]

/-- Settles O53: the forms of ALU and ALUI (`rows_form`) write one register of their hart. -/
theorem registerFrame : Obligations.RegisterFrame := by
  unfold Obligations.RegisterFrame
  intro d a b imm c n r hr s hi
  exact ⟨_, runs_of_form (rows_form r hr) s hi, onlyRegister_finished s _ r.len r.dst _⟩

end Sys2Proof.Machine
end

section
/-! PROOF of O52: the fields of a report; the stops before an instruction; what an instruction meets in reading is noted (`Noted`) and made
good when it has completed (`madeGood`). -/

namespace Sys2Proof.Machine

open Sys2Proof.Claims

/-! ## The fields of a report (R368) -/

/-- Each field of a report holds what was put there. -/
theorem record_fields (s : State) (kind cause tile slot : Nat) (pc val : Word) (d0 d1 : Nat) :
    let r := record s kind cause tile slot pc val d0 d1
    cut r 0 8 = kind % 256 ∧ cut r 8 8 = cause % 128 ∧ cut r 16 16 = tile % 2 ^ 16 ∧ cut r 32 3 = slot % 8 ∧ cut r 64 64 = pc.toNat ∧
      cut r 128 64 = val.toNat ∧ cut r 256 64 = d0 % 2 ^ 64 ∧ cut r 320 64 = d1 % 2 ^ 64 := by
  have := pc.isLt
  have := val.isLt
  simp only [record, cut]
  omega

/-- A report of a hart holds its kind and its value. -/
theorem hartRecord_fields (s : State) (h : HartId) (kind cause : Nat) (pc val : Word) (d0 d1 : Nat) :
    cut (hartRecord s h kind cause pc val d0 d1).data 0 8 = kind % 256 ∧ cut (hartRecord s h kind cause pc val d0 d1).data 128 64 = val.toNat := by
  cases h <;> exact ⟨(record_fields ..).1, (record_fields ..).2.2.2.2.2.1⟩

/-! ## Stops before an instruction (R57, R60, R61) -/

theorem designation_g (d : GReg) : designation (gId d) = w64 d.val := by simp [designation, classCode, gId]

/-- An instruction with an empty source parks on one. -/
theorem form_parks {r : GRow} (hr : HasForm r) {s : State} (hk : r.ok (kindOf s.cur) = true)
    (he : ∃ q ∈ r.srcs, regFull s s.cur (gId q) = false) :
    ∃ q ∈ r.srcs, regFull s s.cur (gId q) = false ∧ exec r.instr s = .next (parkHart s s.cur (.reg (gId q))) := by
  obtain ⟨q, hq, empty⟩ := he
  cases hf : (r.srcs.map gId).find? fun x => !regFull s s.cur x with
  | none => simpa [empty] using List.find?_eq_none.mp hf (gId q) (List.mem_map_of_mem hq)
  | some x =>
    obtain ⟨p, hp, rfl⟩ := List.mem_map.mp (List.mem_of_find?_eq_some hf)
    exact ⟨p, hp, by simpa using List.find?_some hf, by rw [hr, inSet_pass _ hk, sources_park _ hf]⟩

/-- An instruction whose destination is outstanding traps. -/
theorem form_traps {r : GRow} (hr : HasForm r) {s : State} (hk : r.ok (kindOf s.cur) = true)
    (hs : ∀ q ∈ r.srcs, regFull s s.cur (gId q) = true ∧ flawAt (me s).flaws (.reg (gId q)) = none) (hd : hazard (me s) (gId r.dst) = true) :
    exec r.instr s = .next (trapOn (readFilled s (r.srcs.map gId)) s.cur 0x02 (w64 r.dst.val)) := by
  rw [hr, inSet_pass _ hk, sources_pass _ (List.forall_mem_map.mpr fun q hq => (hs q hq).1) (List.forall_mem_map.mpr fun q hq => (hs q hq).2),
    dests_trap (r := gId r.dst) _ (by simp [hd]), designation_g, readFilled_cur]

/-- A long operation waits for room. -/
theorem aluLong_parks {f : Word → Word → Word} {lat : Nat} {la : La} {d a b : GReg} {s : State}
    (hi : Issues s threadOrMender [gId a, gId b] []) (hfull : 4 ≤ (openOps s.cycle (me s)).length) :
    aluLong f lat la d a b s = .next (parkHart (readFilled s [gId a, gId b]) s.cur .outFull) := by
  have open_ : openOps s.cycle (me (readFilled s [gId a, gId b])) = openOps s.cycle (me s) := by simp [openOps]
  rw [aluLong, inSet_pass _ hi.kind, sources_pass _ hi.full hi.sound, roomForLong_park _ (by rw [readFilled_cycle, open_]; omega), readFilled_cur]

/-! ## A source with an error in its cell (R296) -/

/-- A row reads one register, and what it writes depends on that register alone. -/
def ReadsOne (d a : GReg) (r : GRow) : Prop := r.srcs = [a] ∧ r.dst = d ∧ ∃ f : Word → Word, r.val = fun g => f (g a)

theorem immRows_readsOne (d a : GReg) (imm : Imm15) (n : Sh6) : ∀ r ∈ immRows d a imm n, ReadsOne d a r := by
  have one (i : Instr) (ok : HartKind → Bool) (len : Nat) (f : Word → Word) : ReadsOne d a ⟨i, ok, [a], d, len, fun g => f (g a)⟩ :=
    ⟨rfl, rfl, f, rfl⟩
  simp only [immRows, List.forall_mem_cons]
  exact ⟨one _ _ _ fun x => i64 (x.toInt + imm.toInt), one _ _ _ fun x => x &&& i64 imm.toInt, one _ _ _ fun x => x ||| i64 imm.toInt,
    one _ _ _ fun x => x ^^^ i64 imm.toInt, one _ _ _ fun x => if x.toInt < imm.toInt then 1 else 0,
    one _ _ _ fun x => w64 (x.toNat * 2 ^ n.val), one _ _ _ fun x => w64 (x.toNat / 2 ^ n.val), one _ _ _ fun x => i64 (x.toInt / 2 ^ n.val),
    one _ _ _ fun x => x.rotateRight n.val, List.forall_mem_nil _⟩

/-- The hart that has read register `r` with the error `f`: an uncorrectable one delivers zero. -/
def readHart (r : RegId) (f : Flaw) (h : Hart) : Hart := if f = .soft then h else { putHartReg h r 0 with flaws := h.flaws }

/-- Hart `h` has read register `r` with the error `f`: that is noted, with its report where the error is uncorrectable. -/
structure Noted (s t : State) (h : HartId) (r : RegId) (f : Flaw) (n : ReadNote) : Prop where
  hart : getHart t h = readHart r f (getHart s h)
  reads : t.reads = [n]
  cell : n.cell = some (h, .reg r, f)
  silent : f = .soft → n.report = none
  report : f ≠ .soft → ∃ p, n.report = some p ∧ cut p.data 0 8 = 1 ∧ cut p.data 128 64 = (designation r).toNat
  cur : t.cur = s.cur
  dies : t.dies = s.dies
  reports : t.reports = s.reports

theorem noteCell_soft {s : State} (h : HartId) (c : CellLoc) (val : Word) (hr : s.reads = []) :
    noteCell s h c .soft val = { s with reads := [⟨some (h, c, .soft), none, false⟩] } := by simp [noteCell, hr]

theorem noteCell_bad {s : State} (h : HartId) (c : CellLoc) {f : Flaw} (hf : f ≠ .soft) (val : Word) (hr : s.reads = []) :
    noteCell s h c f val = { s with free := s.free + 1, reads :=
      [⟨some (h, c, f), some (hartRecord s h 1 0 (getHart s h).pc val (Config.freeWord s.free % 8) 0), false⟩] } := by
  simp [noteCell, hr, hf, nextFree]
  rfl

theorem readCells_flawed {s : State} {h : HartId} {r : RegId} {f : Flaw} (hf : flawAt (getHart s h).flaws (.reg r) = some f) (hr : s.reads = []) :
    ∃ n, Noted s (readCells s h [r]) h r f n := by
  have some_ : (getHart s h).flaws ≠ [] := fun e => by simp [e, flawAt] at hf
  have one : readCells s h [r] =
      noteCell (if f == .soft then s else modHart s h fun x => { putHartReg x r 0 with flaws := x.flaws }) h (.reg r) f (designation r) := by
    simp [readCells, some_, readCell, hf]
  rw [one]
  by_cases soft : f = .soft
  · subst soft
    rw [beq_self_eq_true, if_pos rfl, noteCell_soft _ _ _ hr]
    exact ⟨_, rfl, rfl, rfl, fun _ => rfl, nofun, rfl, rfl, rfl⟩
  · rw [beq_false_of_ne soft, if_neg Bool.false_ne_true, noteCell_bad _ _ soft _ (by rw [modHart_reads, hr])]
    refine ⟨_, ?_, rfl, rfl, fun e => absurd e soft, fun _ => ⟨_, rfl, hartRecord_fields ..⟩, modHart_cur .., modHart_dies .., modHart_reports ..⟩
    show getHart (modHart s h _) h = _
    rw [getHart_modHart_same, readHart, if_neg soft]

/-! ## What the instruction has met is made good -/

theorem flawAt_flawRead {l : List (CellLoc × Flaw)} (c : CellLoc) (f : Flaw) :
    flawAt (flawRead l c f) c = if f = .soft then none else some .found := by
  by_cases soft : f = .soft <;> simp [flawRead, flawAt, soft]

theorem findCell_hart (s : State) (h : HartId) (c : CellLoc) (f : Flaw) :
    getHart (findCell s h c f) h = if flawAt (getHart s h).flaws c = some f then
      { getHart s h with flaws := flawRead (getHart s h).flaws c f } else getHart s h := by
  have put := getHart_modHart_same s h fun x => if flawAt x.flaws c = some f then { x with flaws := flawRead x.flaws c f } else x
  cases f <;> exact put

theorem findCell_reports (s : State) (h : HartId) (c : CellLoc) (f : Flaw) : (findCell s h c f).reports = s.reports := by
  cases f <;> exact modHart_reports ..

/-- The counts of an error block after a cell with flaw `f` has been found. -/
def foundErr (f : Flaw) (e : ErrBlock) : ErrBlock :=
  match f with
  | .soft => { e with sce := satAdd e.sce }
  | .hard => { e with sue := satAdd e.sue }
  | .found => e

theorem errOf_countCell (s : State) (d : Fin 4) (unc : Bool) :
    errOf (countCell s d unc) d = if unc then { errOf s d with sue := satAdd (errOf s d).sue } else { errOf s d with sce := satAdd (errOf s d).sce } := by
  simp [errOf, countCell, countErr]

theorem errOf_modHart (s : State) (h : HartId) (f : Hart → Hart) (d : Fin 4) : errOf (modHart s h f) d = errOf s d := by
  rw [errOf, modHart_dies, errOf]

theorem findCell_err (s : State) (h : HartId) (c : CellLoc) (f : Flaw) :
    errOf (findCell s h c f) (hartDie h) = foundErr f (errOf s (hartDie h)) := by
  cases f <;> simp only [findCell, errOf_countCell, errOf_modHart, foundErr, if_true, if_false, Bool.false_eq_true]

/-- Of an instruction that has completed, everything it met is made good. -/
theorem notesDue_completed {w : Nat} {x y : Hart} {l : List ReadNote} (hi : y.inh = x.inh)
    (hs : y.status = .ready ∨ ∃ v, y.status = .parked (.trap 7 v)) : notesDue w x y l = l := by
  rcases hs with hs | ⟨v, hs⟩
  · have : handlerEntered w x y = false := by cases e : x.inh <;> simp [handlerEntered, hi, e]
    simp [notesDue, hs, this]
  · simp [notesDue, hs, hasActed]

theorem settle_noEffect {s : State} {h : HartId} (x : Hart) {q : RegId} (hs : (getHart s h).status = .parked (.reg q)) :
    settle h x (.next s) = .next { s with reads := [] } := by
  simp only [settle, notesDue, hs, hasActed, Bool.false_eq_true, if_false]
  rfl

/-- The state after an instruction that has met one flawed register, and writes `v` to g-register `d`: what it met is made good. -/
def madeGood (t : State) (h : HartId) (d : GReg) (v next : Word) (n : ReadNote) : State :=
  commitNote { complete (modHart t h fun x => wg x d v) h next with reads := [] } n

/-- The hart of `madeGood` before its flaw has been found. -/
theorem completed_wg (t : State) (h : HartId) (d : GReg) (v next : Word) :
    let y := getHart (complete (modHart t h fun x => wg x d v) h next) h
    rg y d = rg (wg (getHart t h) d v) d ∧ y.flaws = (wg (getHart t h) d v).flaws ∧ y.inh = (getHart t h).inh ∧
      (y.status = .ready ∨ ∃ v, y.status = .parked (.trap 7 v)) := by
  intro y
  have hy : y = _ := getHart_complete_same ..
  rw [getHart_modHart_same] at hy
  rw [hy]
  refine ⟨rfl, rfl, by simp, ?_⟩
  by_cases st : stepped h (wg (getHart t h) d v)
  · exact .inr ⟨_, if_pos st⟩
  · exact .inl (if_neg st)

theorem settle_madeGood {s t : State} {h : HartId} {r : RegId} {f : Flaw} {n : ReadNote} (hn : Noted s t h r f n) {x : Hart}
    (hx : (getHart t h).inh = x.inh) (d : GReg) (v next : Word) :
    settle h x (.next (complete (modHart t h fun x => wg x d v) h next)) = .next (madeGood t h d v next n) := by
  obtain ⟨_, _, inh, status⟩ := completed_wg t h d v next
  rw [settle, complete_reads, modHart_reads, hn.reads, notesDue_completed (inh.trans hx) status]
  rfl

theorem commitNote_cell (s : State) {n : ReadNote} {h : HartId} {c : CellLoc} {f : Flaw} (hn : n.cell = some (h, c, f)) :
    getHart (commitNote s n) h = getHart (findCell s h c f) h ∧ (commitNote s n).reports = s.reports ++ n.report.toList ∧
      errOf (commitNote s n) (hartDie h) = foundErr f (errOf s (hartDie h)) := by
  rw [← findCell_err, ← findCell_reports s h c f]
  unfold commitNote
  rw [hn]
  cases n.report with
  | none => exact ⟨rfl, (List.append_nil _).symm, rfl⟩
  | some p => exact ⟨by cases h <;> rfl, rfl, rfl⟩

/-- What `madeGood` has done to its hart, to the reports and to the counts of its die. -/
theorem madeGood_eq {s t : State} {h : HartId} {r : RegId} {f : Flaw} {n : ReadNote} (hn : Noted s t h r f n) (d : GReg) (v next : Word) :
    let y := wg (getHart t h) d v
    rg (getHart (madeGood t h d v next n) h) d = rg y d ∧
      (getHart (madeGood t h d v next n) h).flaws = (if flawAt y.flaws (.reg r) = some f then flawRead y.flaws (.reg r) f else y.flaws) ∧
      (madeGood t h d v next n).reports = s.reports ++ n.report.toList ∧
      errOf (madeGood t h d v next n) (hartDie h) = foundErr f (errOf s (hartDie h)) := by
  obtain ⟨value, flaws, _, _⟩ := completed_wg t h d v next
  obtain ⟨hart, reports, err⟩ := commitNote_cell { complete (modHart t h fun x => wg x d v) h next with reads := [] } hn.cell
  have keep : getHart { complete (modHart t h fun x => wg x d v) h next with reads := [] } h =
      getHart (complete (modHart t h fun x => wg x d v) h next) h := by cases h <;> rfl
  rw [findCell_hart, keep, flaws] at hart
  refine ⟨?_, ?_, reports.trans ?_, err.trans ?_⟩
  · rw [← value, madeGood, hart]; split <;> rfl
  · rw [madeGood, hart]; split <;> simp [flaws]
  · rw [← hn.reports]
    exact congrArg (· ++ _) ((complete_reports ..).trans (modHart_reports ..))
  · rw [errOf, errOf, ← hn.dies]
    exact congrArg (fun d => foundErr f (d.get (hartDie h)).err) ((complete_dies ..).trans (modHart_dies ..))

theorem rg_readHart (f : Flaw) (h : Hart) (a : GReg) : rg (readHart (gId a) f h) a = if f = .soft then rg h a else 0 := by
  unfold readHart
  split
  · rfl
  · show rg (wg h (Fin.ofNat 32 a.val) (w64 0)) a = 0
    rw [show Fin.ofNat 32 a.val = a from Fin.ofNat_val_eq_self a]
    by_cases z : a = 0
    · simp [rg, z]
    · rw [rg_wg_same _ _ z]; rfl

theorem flaws_readHart (f : Flaw) (r : RegId) (h : Hart) : (readHart r f h).flaws = h.flaws := by
  unfold readHart; split <;> rfl

theorem inh_readHart (f : Flaw) (r : RegId) (h : Hart) : (readHart r f h).inh = h.inh := by
  unfold readHart
  split
  · rfl
  · unfold putHartReg; cases r.cls <;> simp

theorem out_readHart (f : Flaw) (r : RegId) (h : Hart) : (readHart r f h).out = h.out := by
  unfold readHart
  split
  · rfl
  · unfold putHartReg; cases r.cls <;> simp

/-- The errors after register `a` has been read with flaw `f` and `d` has been written. -/
theorem flaws_after (h : Hart) (d a : GReg) (f : Flaw) (v : Word) (hf : flawAt h.flaws (.reg (gId a)) = some f) :
    let l := (wg h d v).flaws
    flawAt (if flawAt l (.reg (gId a)) = some f then flawRead l (.reg (gId a)) f else l) (.reg (gId a)) =
      if f = .soft ∨ (d = a ∧ d ≠ 0) then none else some .found := by
  by_cases z : d = 0
  · simp [hf, flawAt_flawRead, z]
  · have heals : (wg h d v).flaws = healed h (.reg (gId d)) := by simp [wg, z, gId]
    by_cases e : d = a
    · subst e; simp [heals, z]
    · have other : (CellLoc.reg (gId a)) ≠ .reg (gId d) := by
        simp only [ne_eq, CellLoc.reg.injEq, gId, RegId.mk.injEq, true_and]
        exact fun he => e (Fin.ext he.symm)
      simp [heals, flawAt_healed_other _ other, hf, flawAt_flawRead, e]

/-- An instruction of ALUI that reads a register with an error in its cell (R296). -/
theorem form_flawed {r : GRow} (hr : HasForm r) {d a : GReg} (one : ReadsOne d a r) {s : State} {f : Flaw} (hk : r.ok (kindOf s.cur) = true)
    (full : regFull s s.cur (gId a) = true) (free : hazard (me s) (gId d) = false) (nofill : (me s).filled = [])
    (hf : flawAt (me s).flaws (.reg (gId a)) = some f) (hreads : s.reads = []) :
    ∃ t n next, Noted s t s.cur (gId a) f n ∧
      settle s.cur (me s) (exec r.instr s) = .next (madeGood t s.cur d (r.val fun q => if f = .soft then rg (me s) q else 0) next n) := by
  obtain ⟨n, hn⟩ := readCells_flawed hf hreads
  obtain ⟨hsrc, hdst, g, hval⟩ := one
  set t := readCells s s.cur [gId a] with ht
  have hart : me t = readHart (gId a) f (me s) := by rw [me, hn.cur]; exact hn.hart
  have read : rg (me t) a = if f = .soft then rg (me s) a else 0 := by rw [hart, rg_readHart]
  have ran : exec r.instr s = done r.len (modMe t fun h => wg h d (r.val (rg h))) := by
    rw [hr, inSet_pass _ hk, hsrc, hdst]
    have src : sources ([a].map gId) s = fun k => k t := by
      funext k
      simp only [sources, List.map_cons, List.map_nil, List.find?_cons, full, Bool.not_true, List.find?_nil]
      rw [readFilled_none (by simp [nofill])]
    rw [src]
    exact dests_pass _ (by simpa [hart, hazard, out_readHart] using free)
  refine ⟨t, n, (me (modMe t fun h => wg h d (r.val (rg h)))).pc + w64 r.len, hn, ?_⟩
  have value : (fun h => wg h d (r.val (rg h))) (me t) = (fun h => wg h d (r.val fun q => if f = .soft then rg (me s) q else 0)) (me t) := by
    simp only [hval, read]
  rw [ran]
  show settle s.cur (me s) (.next (complete (modHart t t.cur _) (modHart t t.cur _).cur _)) = _
  rw [modHart_cur, hn.cur, modHart_congr (g := fun h => wg h d (r.val fun q => if f = .soft then rg (me s) q else 0)) (by rw [← hn.cur]; exact value)]
  exact settle_madeGood hn (by rw [hn.hart, inh_readHart]; rfl) d _ _

/-- Settles O52: each stop by the check that makes it (`form_parks`, `form_traps`, `aluLong_parks`), the error of a cell by what is noted when
it is read and made good when the instruction has completed (`form_flawed`, `madeGood_eq`). -/
theorem issueRules : Obligations.IssueRules := by
  unfold Obligations.IssueRules
  refine ⟨fun d a b imm c n r hr s hk => ⟨form_parks (rows_form r hr) hk, form_traps (rows_form r hr) hk⟩, fun la d a b r hr s hi hfull => ?_,
    fun d a imm n r hr s f hk full free nofill hf _ hreads => ?_, fun s h x q hq => settle_noEffect x hq⟩
  · obtain ⟨f, _, ran⟩ := longRows_issue la d a b r hr
    rw [ran, aluLong_parks hi hfull]
  · have one := immRows_readsOne d a imm n r hr
    obtain ⟨t, note, next, hn, settled⟩ := form_flawed (immRows_hasForm d a imm n r hr) one hk full free nofill hf hreads
    obtain ⟨value, flaws, reports, err⟩ := madeGood_eq hn d (r.val fun q => if f = .soft then rg (me s) q else 0) next
    refine ⟨_, settled, ?_, ?_, fun soft => ?_, fun hard room => ?_, fun found => ?_, fun bad => ?_⟩
    · rw [value]
      by_cases z : d = 0
      · simp [rg, z]
      · rw [rg_wg_same _ _ z, if_neg z]
    · rw [flaws, hn.hart]
      exact flaws_after _ d a f _ (by rw [flaws_readHart]; exact hf)
    · refine ⟨by rw [reports, hn.silent soft]; simp, fun room => ?_⟩
      rw [err, soft]
      exact if_pos (by omega)
    · rw [err, hard]
      exact if_pos (by omega)
    · rw [err, found]; rfl
    · obtain ⟨p, hp, kind, val⟩ := hn.report bad
      refine ⟨p, by rw [reports, hp]; rfl, kind, val.trans ?_⟩
      rw [designation_g]
      exact Nat.mod_eq_of_lt (by omega)

end Sys2Proof.Machine
end

section
/-! PROOF of O55, O2 and O3: what reset leaves; a control transfer ends in `goto`, so each form is said once, over its condition or its link
register. -/

namespace Sys2Proof.Machine

open Sys2Proof.Claims

/-- Settles O55: every value stands in the definitions of the reset state. -/
theorem resetState : Obligations.ResetState := by
  unfold Obligations.ResetState
  refine ⟨rfl, rfl, rfl, rfl, rfl, rfl, rfl, fun r => ?_, rfl, rfl, rfl, rfl, rfl, rfl, rfl, rfl, rfl, rfl, rfl, rfl, rfl, rfl, rfl, rfl,
    fun i => ?_, fun d => ?_, fun l => ?_⟩
  · simp [rg, Hart.reset, Vector.get]
  · simp [Tile.reset, Vector.get]
  · simp [State.reset, Vector.get, Die.reset]
  · simp [State.reset, Vector.get, Link.reset]

/-! ## Targets (R75, R76) -/

theorem add_offset {n : Nat} (pc : Word) (off : BitVec n) : pc + off.signExtend 64 * 2 = i64 (pc.toInt + off.toInt * 2) := by
  have wide : off.signExtend 64 * 2 = i64 (off.toInt * 2) := by
    rw [i64, BitVec.ofInt_mul]; rfl
  rw [wide, add_i64]

theorem brTarget_eq (pc : Word) (off : Off12) : brTarget pc off = i64 (pc.toInt + off.toInt * 2) := add_offset pc off

theorem brTarget_short (pc : Word) (c : Imm7) : brTarget pc (c.signExtend 12) = i64 (pc.toInt + c.toInt * 2) := by
  rw [brTarget_eq, BitVec.toInt_signExtend_of_le (by decide)]

/-! ## Branches (R75, R44) -/

/-- The row's instruction checks its sources, and goes to its target when its condition holds. -/
def Forks (r : BRow) : Prop :=
  ∃ f : (GReg → Word) → Bool, (∀ g, f g = true ↔ r.cond g) ∧
    ∀ s, exec r.instr s = inSet allHarts s fun s => sources (r.srcs.map gId) s fun s =>
      if f (rg (me s)) then goto (i64 ((me s).pc.toInt + r.off)) s else done r.len s

theorem branch_forks {i : Instr} {a b : GReg} {off : Off12} {f : Word → Word → Bool} {p : Word → Word → Prop}
    (hx : ∀ s, exec i s = branch f 4 a b off s) (hf : ∀ x y, f x y = true ↔ p x y) :
    Forks ⟨i, [a, b], 4, off.toInt * 2, fun g => p (g a) (g b)⟩ := by
  refine ⟨fun g => f (g a) (g b), fun g => hf (g a) (g b), fun s => ?_⟩
  rw [hx, branch]
  simp only [brTarget_eq]
  rfl

theorem branchBit_forks {i : Instr} {a b : GReg} {off : Off12} {v : Bool} (hx : ∀ s, exec i s = branchBit v a b off s) :
    Forks ⟨i, [a], 4, off.toInt * 2, fun g => (g a).getLsbD b.val = v⟩ := by
  refine ⟨fun g => (g a).getLsbD b.val == v, fun g => beq_iff_eq, fun s => ?_⟩
  rw [hx, branchBit]
  simp only [brTarget_eq, beq_iff_eq]
  rfl

/-- A branch on a register that is zero, or not, compares it with g0. -/
theorem branchZero_forks {i : Instr} {a : GReg} {c : Imm7} {f : Word → Word → Bool} {p : Word → Prop}
    (hx : ∀ s, exec i s = branch f 2 a 0 (c.signExtend 12) s) (hf : ∀ x, f x 0 = true ↔ p x) :
    Forks ⟨i, [a, 0], 2, c.toInt * 2, fun g => p (g a)⟩ := by
  refine ⟨fun g => f (g a) 0, fun g => hf (g a), fun s => ?_⟩
  rw [hx, branch]
  simp only [brTarget_short, rg_zero]
  rfl

theorem branchRows_fork (a b : GReg) (off : Off12) (c : Imm7) : ∀ r ∈ branchRows a b off c, Forks r := by
  simp only [branchRows, List.forall_mem_cons]
  refine ⟨branch_forks (f := fun x y => x == y) (p := fun x y => x = y) (fun _ => rfl) (by simp),
    branch_forks (f := fun x y => x != y) (p := fun x y => x ≠ y) (fun _ => rfl) (by simp),
    branch_forks (f := fun x y => x.slt y) (p := fun x y => x.toInt < y.toInt) (fun _ => rfl) (by simp [BitVec.slt]),
    branch_forks (f := fun x y => !x.slt y) (p := fun x y => y.toInt ≤ x.toInt) (fun _ => rfl) (by simp [BitVec.slt]),
    branch_forks (f := fun x y => x.ult y) (p := fun x y => x.toNat < y.toNat) (fun _ => rfl) (by simp [BitVec.ult]),
    branch_forks (f := fun x y => !x.ult y) (p := fun x y => y.toNat ≤ x.toNat) (fun _ => rfl) (by simp [BitVec.ult]),
    branchBit_forks fun _ => rfl, branchBit_forks fun _ => rfl,
    branchZero_forks (f := fun x y => x == y) (p := fun x => x = 0) (fun _ => rfl) (by simp),
    branchZero_forks (f := fun x y => x != y) (p := fun x => x ≠ 0) (fun _ => rfl) (by simp), List.forall_mem_nil _⟩

/-- Settles O2. -/
theorem branches : Obligations.Branches := by
  unfold Obligations.Branches
  intro a b off c r hr s hi
  obtain ⟨f, cond, runs⟩ := branchRows_fork a b off c r hr
  have ran := runs s
  rw [inSet_pass _ hi.kind, sources_pass _ hi.full hi.sound, rg_readFilled_eq] at ran
  refine ⟨fun holds => ?_, fun fails => ?_⟩
  · rw [ran, if_pos ((cond _).mpr holds), goto, readFilled_cur]; simp
  · rw [ran, if_neg (mt (cond _).mp fails), done, goto, readFilled_cur]; simp

/-! ## Jumps (R76, R45) -/

theorem link_jumped {s : State} {srcs : List RegId} {d : GReg} {len : Nat} {t : Word} :
    link d len t (readFilled s srcs) = .next (jumped s srcs d len t) := by
  simp [link, goto, jumped, modMe]

/-- A jump without a source. -/
theorem link_jumped_none {s : State} {d : GReg} {len : Nat} {t : Word} : link d len t s = .next (jumped s [] d len t) := by
  rw [← link_jumped, readFilled_none (by simp)]

theorem jumpReg_jumps {d a : GReg} {imm : Imm15} {len : Nat} {s : State} (hi : Issues s threadOrMender [gId a] [gId d]) :
    let t := i64 ((rg (me s) a).toInt + imm.toInt)
    (t.toNat % 2 = 0 → jumpReg d a imm len s = .next (jumped s [gId a] d len t)) ∧
      (t.toNat % 2 = 1 → jumpReg d a imm len s = .next (trapOn (readFilled s [gId a]) s.cur 0x08 t)) := by
  intro t
  have target : rg (me s) a + immI imm = t := add_i64 _ _
  have odd : t.getLsbD 0 = decide (t.toNat % 2 = 1) := by rw [BitVec.getLsbD, Nat.testBit_zero]
  have ran : jumpReg d a imm len s = if t.toNat % 2 = 1 then trap 0x08 t (readFilled s [gId a]) else link d len t (readFilled s [gId a]) := by
    rw [jumpReg, inSet_pass _ hi.kind, sources_pass _ hi.full hi.sound, dests_pass _ (by simpa using hi.free)]
    simp only [rg_readFilled, target, odd, decide_eq_true_eq]
  refine ⟨fun even => ?_, fun isOdd => ?_⟩
  · rw [ran, if_neg (by omega), link_jumped]
  · rw [ran, if_pos isOdd, trap, readFilled_cur]

/-- Settles O3. -/
theorem jumps : Obligations.Jumps := by
  unfold Obligations.Jumps
  refine ⟨fun d off c => ?_, fun d a imm => ?_⟩
  · simp only [jumpRows, List.forall_mem_cons]
    refine ⟨fun s hi => ?_, fun s hi => ?_, List.forall_mem_nil _⟩
    · show execJal d off s = _
      rw [execJal, inSet_pass _ hi.kind, dests_pass _ (by simpa using hi.free), jalTarget, add_offset]
      exact link_jumped_none
    · show execCJ c s = _
      rw [execCJ, inSet_pass _ hi.kind, brTarget_eq]
      exact link_jumped_none
  · simp only [jalrRows, List.forall_mem_cons]
    exact ⟨fun s hi => jumpReg_jumps hi, fun s hi => jumpReg_jumps (imm := 0) hi, List.forall_mem_nil _⟩

end Sys2Proof.Machine
end

section
/-! PROOF of O54: a thread's trap entry is one change of its hart, with a report where there is no handler; the fault of a sequencer is followed
through its post to the mailbox, each part of which leaves the registers of its hart, the entries and the memory alone (`Quiet`). -/

namespace Sys2Proof.Machine

open Sys2Proof.Claims

/-- Between the two states, the mailbox of tile `t` and memory have not changed, and hart `h` has kept its g-registers. -/
structure Quiet (t : Nat) (h : HartId) (s s' : State) : Prop where
  mbox : (getTile s' t).mbox = (getTile s t).mbox
  regs : (getHart s' h).g = (getHart s h).g
  mem : s'.mem = s.mem

theorem Quiet.trans {t : Nat} {h : HartId} {a b c : State} (p : Quiet t h a b) (q : Quiet t h b c) : Quiet t h a c :=
  ⟨q.mbox.trans p.mbox, q.regs.trans p.regs, q.mem.trans p.mem⟩

/-- A change of a hart that keeps its g-registers. -/
theorem quiet_modHart (t : Nat) (h k : HartId) (s : State) {f : Hart → Hart} (hf : ∀ x, (f x).g = x.g) : Quiet t h s (modHart s k f) := by
  refine ⟨getTile_modHart_mbox .., ?_, modHart_mem ..⟩
  by_cases e : h = k
  · subst e; rw [getHart_modHart_same, hf]
  · rw [getHart_modHart_other s f e]

/-- The hart of a sequencer whose program has ended. -/
def freed (x : Hart) : Hart := { x with status := .free, forkedBy := none }

/-- The program of a sequencer ends: its hart is freed, and what else changes is the fork set of a thread. -/
theorem endSequencer_cases (s : State) (h : HartId) : endSequencer s h = modHart s h freed ∨
    ∃ (k : HartId) (l : Hart → List Nat), endSequencer s h = modHart (modHart s h freed) k fun y => { y with fork := l y } := by
  simp only [endSequencer]
  split
  · exact .inr ⟨_, _, rfl⟩
  · exact .inl rfl

theorem endSequencer_quiet (t : Nat) (s : State) (h : HartId) : Quiet t h s (endSequencer s h) ∧ (getHart (endSequencer s h) h).status = .free := by
  have first : Quiet t h s (modHart s h freed) := quiet_modHart t h h s fun _ => rfl
  have free : (getHart (modHart s h freed) h).status = .free := by rw [getHart_modHart_same]; rfl
  obtain e | ⟨k, l, e⟩ := endSequencer_cases s h
  · rw [e]; exact ⟨first, free⟩
  · rw [e]
    refine ⟨first.trans (quiet_modHart _ _ _ _ fun _ => rfl), ?_⟩
    by_cases e : h = k
    · subst e; rw [getHart_modHart_same]; exact free
    · rw [getHart_modHart_other _ _ e]; exact free

/-- A full mailbox without the tag mnext traps the slots that wait for it, and no hart that does not. -/
theorem mailFilled_quiet (s : State) (t : Nat) {h : HartId} (hs : (getHart s h).status ≠ .parked .mailTag) :
    (getTile (mailFilled s t) t).mbox = (getTile s t).mbox ∧ getHart (mailFilled s t) h = getHart s h ∧ (mailFilled s t).mem = s.mem := by
  simp only [mailFilled]
  split
  · exact ⟨rfl, rfl, rfl⟩
  · refine List.foldlRecOn (motive := fun u => (getTile u t).mbox = (getTile s t).mbox ∧ getHart u h = getHart s h ∧ u.mem = s.mem) _ _
      ⟨rfl, rfl, rfl⟩ ?_
    rintro u ⟨mbox, hart, mem⟩ i -
    split
    · next waits =>
      have other : h ≠ .tile t i := fun e => hs (by rw [← hart, e]; exact beq_iff_eq.mp waits)
      refine ⟨?_, ?_, ?_⟩
      · rw [parkHart, getTile_modHart_mbox, getTile_modTile, if_pos rfl]; exact mbox
      · rw [getHart_parkHart_other _ _ other, getHart_modTile rfl]; exact hart
      · exact (modHart_mem ..).trans mem
    · exact ⟨mbox, hart, mem⟩

/-- A post of a sequencer whose program ends with it is accepted by a mailbox with room. -/
theorem mailPost_ends {s : State} {t : Nat} {h : HartId} {p : HeldPost} {tag val : Word} {b : Bool} (room : (getTile s t).mbox.length < 32)
    (hp : p.sender = some h) (hs : (getHart s h).status = .posting tag val b) :
    let s' := mailPost s t p
    (getTile s' t).mbox = (getTile s t).mbox ++ [p.post] ∧ (getHart s' h).status = .free ∧ (getHart s' h).g = (getHart s h).g ∧ s'.mem = s.mem := by
  set u := setTile s t { getTile s t with mbox := (getTile s t).mbox ++ [p.post] } with hu
  have hart : getHart u h = getHart s h := getHart_modTile (f := fun x => { x with mbox := x.mbox ++ [p.post] }) rfl h
  have goes : posterGoesOn u p = endSequencer u h := by rw [posterGoesOn, hp]; simp only [hart, hs]
  obtain ⟨ends, free⟩ := endSequencer_quiet t u h
  obtain ⟨mbox, same, mem⟩ := mailFilled_quiet (endSequencer u h) t (h := h) (by rw [free]; nofun)
  have ran : mailPost s t p = mailFilled (endSequencer u h) t := by rw [mailPost, if_pos room, ← hu, goes]
  intro s'
  show (getTile (mailPost s t p) t).mbox = _ ∧ (getHart (mailPost s t p) h).status = _ ∧ (getHart (mailPost s t p) h).g = _ ∧ (mailPost s t p).mem = _
  rw [ran, same, mbox, mem, free, ends.mbox, ends.regs, ends.mem, hart, hu, getTile_setTile_same]
  exact ⟨rfl, rfl, rfl, rfl⟩

/-- The record of a sequencer's fault: with the thread that forked it, or as a report. -/
def faultTold (s : State) (t : Nat) (h : HartId) (e cause : Nat) (val : Word) : State :=
  let x := getHart s h
  match x.forkedBy with
  | some n =>
    if (getHart s (.tile t n)).fork.contains e then
      modHart s (.tile t n) fun y => { y with forkFaults := y.forkFaults ++ [⟨e, cause, val⟩] }
    else hartReport s h 4 cause x.pc val 0 0
  | none => hartReport s h 4 cause x.pc val 0 0

theorem sequencerFault_eq (s : State) (t : Nat) (h : HartId) (e cause : Nat) (val : Word) :
    sequencerFault s t h e cause val =
      let tag := w64 (0xFFFF_FFFF_FFFF_FF00 + cause % 128 * 2 + e)
      let pc := (getHart s h).pc
      let u := (freshId (faultTold s t h e cause val)).1
      mailPost (modHart u h fun y => { y with status := .posting tag pc true }) t
        ⟨⟨tag, pc, false, none⟩, (freshId (faultTold s t h e cause val)).2, some h⟩ := rfl

theorem quiet_freshId (t : Nat) (h : HartId) (s : State) : Quiet t h s (freshId s).1 := ⟨rfl, by cases h <;> rfl, rfl⟩

theorem getHart_hartReport (h k : HartId) (s : State) (kind cause : Nat) (pc val : Word) (d0 d1 : Nat) :
    getHart (hartReport s k kind cause pc val d0 d1) h = getHart s h := by cases h <;> rfl

theorem quiet_hartReport (t : Nat) (h k : HartId) (s : State) (kind cause : Nat) (pc val : Word) (d0 d1 : Nat) :
    Quiet t h s (hartReport s k kind cause pc val d0 d1) := ⟨rfl, congrArg Hart.g (getHart_hartReport ..), rfl⟩

theorem faultTold_quiet (s : State) (t : Nat) (h : HartId) (e cause : Nat) (val : Word) : Quiet t h s (faultTold s t h e cause val) := by
  simp only [faultTold]
  split
  · split
    · exact quiet_modHart _ _ _ _ fun _ => rfl
    · exact quiet_hartReport ..
  · exact quiet_hartReport ..

/-- The fault of a sequencer (R174): its entry is posted, and its program has ended. -/
theorem sequencerFault_ends {s : State} {t : Nat} {h : HartId} (e cause : Nat) (val : Word) (room : (getTile s t).mbox.length < 32) :
    let s' := sequencerFault s t h e cause val
    (getTile s' t).mbox = (getTile s t).mbox ++ [⟨w64 (0xFFFF_FFFF_FFFF_FF00 + cause % 128 * 2 + e), (getHart s h).pc, false, none⟩] ∧
      (getHart s' h).status = .free ∧ (getHart s' h).g = (getHart s h).g ∧ s'.mem = s.mem := by
  rw [sequencerFault_eq]
  set tag := w64 (0xFFFF_FFFF_FFFF_FF00 + cause % 128 * 2 + e)
  set told := faultTold s t h e cause val with htold
  have quiet : Quiet t h s (modHart (freshId told).1 h fun y => { y with status := .posting tag (getHart s h).pc true }) :=
    ((faultTold_quiet s t h e cause val).trans (quiet_freshId t h told)).trans (quiet_modHart _ _ _ _ fun _ => rfl)
  obtain ⟨mbox, status, regs, mem⟩ := mailPost_ends (s := modHart (freshId told).1 h fun y => { y with status := .posting tag (getHart s h).pc true })
    (t := t) (h := h) (p := ⟨⟨tag, (getHart s h).pc, false, none⟩, (freshId told).2, some h⟩) (by rw [quiet.mbox]; exact room) rfl
    (congrArg Hart.status (getHart_modHart_same ..))
  exact ⟨by rw [mbox, quiet.mbox], status, regs.trans quiet.regs, mem.trans quiet.mem⟩

/-- A thread without a handler, or in it, is *trapped*, with a report (R68). -/
theorem takeTrap_trapped {s : State} {t : Nat} {i : Fin 10} (c : Nat) (v : Word) (hi : i.val < 8)
    (hn : (getHart s (.tile t i)).tvec = 0 ∨ (getHart s (.tile t i)).inh = true) :
    takeTrap s (.tile t i) c v =
      hartReport (setHart s (.tile t i) { saveTrap (getHart s (.tile t i)) c v with status := .trapped }) (.tile t i) 0 c
        (getHart s (.tile t i)).pc v (trapD0 (getHart s (.tile t i))) (getTile s t).step.toNat := by
  have no : ¬ ((getHart s (.tile t i)).tvec ≠ 0 ∧ (getHart s (.tile t i)).inh = false) := by
    rintro ⟨has, out⟩
    exact hn.elim has (by simp [out])
  simp only [takeTrap, hi, if_true, no, if_false]

theorem saveTrap_keeps (x : Hart) {cause : Nat} (val : Word) (hc : cause < 128) :
    (saveTrap x cause val).tcause.toNat = cause ∧ (saveTrap x cause val).tval = val ∧ (saveTrap x cause val).tepc = x.pc ∧
      (saveTrap x cause val).g = x.g ∧ (saveTrap x cause val).sup = x.sup := by
  refine ⟨?_, rfl, rfl, rfl, rfl⟩
  show (BitVec.ofNat 64 cause).toNat = cause
  rw [BitVec.toNat_ofNat, Nat.mod_eq_of_lt (by omega)]

/-- Settles O54. -/
theorem trapEntry : Obligations.TrapEntry := by
  unfold Obligations.TrapEntry
  intro s t i cause val hc h x
  refine ⟨fun waits => ?_, fun idle thread => ?_, fun idle seq room => ?_⟩
  · rw [trapOn_waits _ _ waits]
    obtain ⟨n, hart⟩ := getHart_parkHart_same s h (.trap cause val)
    rw [hart]
    exact ⟨rfl, rfl, modHart_reports ..⟩
  · rw [trapOn_taken _ _ idle]
    by_cases has : x.tvec ≠ 0 ∧ x.inh = false
    · rw [takeTrap_handler cause val thread has.1 has.2, getHart_setHart_same]
      obtain ⟨c, v, e, g, su⟩ := saveTrap_keeps x val hc
      refine ⟨⟨c, v, e, g, su, setHart_mem ..⟩, fun _ _ => ⟨rfl, rfl, rfl, setHart_reports ..⟩, fun no => ?_⟩
      exact (no.elim has.1 (by simp [has.2])).elim
    · have no : x.tvec = 0 ∨ x.inh = true := by
        by_contra e
        simp only [not_or, Bool.not_eq_true] at e
        exact has e
      rw [takeTrap_trapped cause val thread no]
      have hart : getHart (hartReport (setHart s h { saveTrap x cause val with status := .trapped }) h 0 cause x.pc val (trapD0 x)
          (getTile s t).step.toNat) h = { saveTrap x cause val with status := .trapped } :=
        (getHart_hartReport ..).trans (getHart_setHart_same ..)
      rw [hart]
      obtain ⟨c, v, e, g, su⟩ := saveTrap_keeps x val hc
      refine ⟨⟨c, v, e, g, su, setHart_mem ..⟩, fun p q => (has ⟨p, q⟩).elim, fun _ => ⟨rfl, rfl, rfl, _,
        congrArg (· ++ _) (setHart_reports ..), getTile_setHart_ctx .., getTile_setHart_repq .., ?_⟩⟩
      have slot : (if i.val < 8 then i.val else i.val - 8) = i.val := if_pos thread
      obtain ⟨kind, cse, tile, sl, pc, vl, _⟩ := record_fields (setHart s h { saveTrap x cause val with status := .trapped }) 0 cause t
        (if i.val < 8 then i.val else i.val - 8) x.pc val (trapD0 x) (getTile s t).step.toNat
      exact ⟨kind, cse.trans (Nat.mod_eq_of_lt hc), tile, sl.trans (by rw [slot, Nat.mod_eq_of_lt thread]), pc, vl⟩
  · rw [trapOn_taken _ _ idle]
    have fault : takeTrap s h cause val = sequencerFault s t h (i.val - 8) cause val := by
      simp [takeTrap, h, show ¬ i.val < 8 by omega]
    obtain ⟨mbox, status, regs, mem⟩ := sequencerFault_ends (h := h) (i.val - 8) cause val room
    intro s'
    show (getTile (takeTrap s h cause val) t).mbox = _ ∧ (getHart (takeTrap s h cause val) h).status = _ ∧
      (getHart (takeTrap s h cause val) h).g = _ ∧ (takeTrap s h cause val).mem = _
    rw [fault]
    refine ⟨?_, status, regs, mem⟩
    rw [mbox, Nat.mod_eq_of_lt hc, Nat.mul_comm cause 2]

end Sys2Proof.Machine
end

section
/-! PROOF of O4: the system instructions and the fences. A fence that goes on has emptied caches of the hart's tile (`cachesEmptied`), which
changes no hart. -/

namespace Sys2Proof.Machine

open Sys2Proof.Claims

/-! ## Instructions that only go on -/

theorem complete_modHart_id (s : State) (h : HartId) (p : Word) : complete (modHart s h id) h p = complete s h p := by
  simp only [complete, completeAs, getHart_modHart_same, modHart_modHart, id]

theorem done_finished (s : State) (rs : List RegId) (len : Nat) : done len (readFilled s rs) = .next (Claims.finished s rs len id) := by
  rw [Claims.finished, complete_modHart_id, done, goto, readFilled_cur]
  simp

theorem done_finished_none (s : State) (len : Nat) : done len s = .next (Claims.finished s [] len id) := by
  rw [← done_finished, readFilled_none (by simp)]

theorem nop_goesOn {s : State} (hi : Issues s threadOrMender [] []) (len : Nat) :
    inSet threadOrMender s (done len) = .next (Claims.finished s [] len id) := by
  rw [inSet_pass _ hi.kind, done_finished_none]

/-! ## Caches emptied (R91, R109) -/

theorem cachesEmptied_cur (g c : Bool) (s : State) : (cachesEmptied g c s).cur = s.cur := by
  unfold cachesEmptied; split <;> rfl

theorem me_cachesEmptied (g c : Bool) (s : State) : me (cachesEmptied g c s) = me s := by
  rw [me, cachesEmptied_cur]
  unfold cachesEmptied
  split
  · exact getHart_modTile (f := fun x => { x with gcache := if g then [] else x.gcache, icache := if c then [] else x.icache }) rfl _
  · rfl

theorem done_cachesEmptied (g c : Bool) (s : State) :
    done 4 (cachesEmptied g c s) = .next (complete (cachesEmptied g c s) s.cur ((me s).pc + 4)) := by
  rw [done, goto, me_cachesEmptied, cachesEmptied_cur]; rfl

theorem acquire_eq_cachesEmptied (s : State) : acquire s s.cur = cachesEmptied true false s := by
  unfold cachesEmptied
  cases s.cur <;> rfl

theorem modHart_setTile_same (s : State) (t : Nat) (i : Fin 10) (f : Hart → Hart) :
    modHart (setTile s t (getTile s t)) (.tile t i) f = modHart s (.tile t i) f := by
  simp [modHart, setHart, getHart]

/-- Emptying no cache is no change to a completion. -/
theorem complete_cachesEmptied_none (s : State) (p : Word) : complete (cachesEmptied false false s) s.cur p = complete s s.cur p := by
  have hart : getHart (cachesEmptied false false s) s.cur = getHart s s.cur := by
    have := me_cachesEmptied false false s
    rwa [me, cachesEmptied_cur] at this
  rw [complete, complete, hart]
  unfold cachesEmptied completeAs
  split
  · next t i h => rw [h]; exact modHart_setTile_same s t i _
  · rfl

/-! ## What a fence waits for (R109) -/

theorem fenceClear_iff (s : State) (lb : Bool) : fenceClear s s.cur lb = true ↔ fenceOver (some lb) s := by
  cases lb <;> simp [fenceClear, fenceOver, me]

theorem finished_over {s : State} {lb : Bool} (k : State → Out) (h : fenceOver (some lb) s) : finished lb s k = k s :=
  if_pos ((fenceClear_iff s lb).mpr h)

theorem finished_waits {s : State} {lb : Bool} (k : State → Out) (h : ¬ fenceOver (some lb) s) :
    finished lb s k = .next (parkHart s s.cur (.fenced lb)) := if_neg (mt (fenceClear_iff s lb).mp h)

theorem drained_waits {s : State} (k : State → Out) (h : (me s).out ≠ []) : drained s k = .next (parkHart s s.cur .drain) := if_neg h

/-- A fence waits for what its row says, and then empties the caches of its row. -/
def Fences (r : Instr × Bool × Bool × Option Bool) : Prop :=
  ∀ s, exec r.1 s = inSet threadOrMender s fun s =>
    (match r.2.2.2 with
      | none => drained s
      | some lb => finished lb s) fun s => .next (complete (cachesEmptied r.2.1 r.2.2.1 s) s.cur ((me s).pc + 4))

theorem fenceRows_fence : ∀ r ∈ fenceRows, Fences r := by
  simp only [fenceRows, List.forall_mem_cons]
  have plain (s : State) : done 4 s = .next (complete (cachesEmptied false false s) s.cur ((me s).pc + 4)) := by
    rw [complete_cachesEmptied_none]; rfl
  have acquires (s : State) : done 4 (acquire s s.cur) = .next (complete (cachesEmptied true false s) s.cur ((me s).pc + 4)) := by
    rw [acquire_eq_cachesEmptied, done_cachesEmptied]
  have code (s : State) : done 4 (match s.cur with
      | .tile t _ => modTile s t fun x => { x with icache := [] }
      | .mender _ _ => s) = .next (complete (cachesEmptied false true s) s.cur ((me s).pc + 4)) := by
    rw [← done_cachesEmptied]; rfl
  refine ⟨fun s => ?_, fun s => ?_, fun s => ?_, fun s => ?_, fun s => ?_, List.forall_mem_nil _⟩
  · simp only [← acquires]; rfl
  · simp only [← plain]; rfl
  · simp only [← acquires]; rfl
  · simp only [← plain]; rfl
  · simp only [← code]; rfl

/-! ## The statements of O4 -/

theorem execTret_returns {s : State} (hi : Issues s threadOrMender [] []) (inh : (me s).inh = true) :
    exec .tret s = .next (modHart s s.cur fun h =>
      { h with inh := false, pc := h.tepc, status := .ready, out := spendShadow h.out, refused := none, why := none }) := by
  show execTret s = _
  rw [execTret, inSet_pass _ hi.kind, trapReturn, if_pos inh]
  simp

/-- Settles O4: each instruction is the check of its set before what it does; a fence by its row (`fenceRows_fence`). -/
theorem systemAndFences : Obligations.SystemAndFences := by
  unfold Obligations.SystemAndFences
  refine ⟨⟨?_, fun a s hi => ?_, fun s hi => ⟨?_, ?_, execTret_returns hi, fun out => ?_⟩⟩, fun r hr s hi => ?_⟩
  · exact List.forall_mem_cons.mpr ⟨fun s hi => nop_goesOn hi 4, List.forall_mem_singleton.mpr fun s hi => nop_goesOn hi 2⟩
  · have ran : exec (.park a) s = if s.cycle * 5 / 12 < (rg (me s) a).toNat then
        .next (parkHart (readFilled s [gId a]) s.cur (.deadline (rg (me s) a).toNat)) else .next (Claims.finished s [gId a] 4 id) := by
      show execPark a s = _
      rw [execPark, inSet_pass _ hi.kind, sources_pass _ hi.full hi.sound, done_finished]
      simp [timeNs, park]
    exact ⟨fun come => by rw [ran, if_neg (Nat.not_lt.mpr come)], fun later => by rw [ran, if_pos later]⟩
  · show execEcall s = _
    rw [execEcall, inSet_pass _ hi.kind, trap, isSup]
  · show execEbreak s = _
    rw [execEbreak, inSet_pass _ hi.kind, trap]
  · show execTret s = _
    rw [execTret, inSet_pass _ hi.kind, trapReturn, if_neg (by simp [out])]
    rfl
  · obtain ⟨i, g, c, w⟩ := r
    have ran := fenceRows_fence _ hr s
    rw [inSet_pass _ hi.kind] at ran
    cases w with
    | none => exact ⟨fun past => ran.trans (drained_pass _ past), fun waits => ran.trans (drained_waits _ waits)⟩
    | some lb => exact ⟨fun past => ran.trans (finished_over _ past), fun waits => ran.trans (finished_waits _ waits)⟩

end Sys2Proof.Machine
end

section
/-! PROOF of O15: what passes with a step, seen from what the slots note for YIELD. The step's last act drops notes by the readiness of slots,
and readiness reads no note (`countsReady_withTiles`), so that it is the readiness after the step; the acts before it keep the notes
(`Notes`). -/

namespace Sys2Proof.Machine

open Sys2Proof.Claims

/-! ## Readiness reads no note of a YIELD -/

/-- The state with other tiles. -/
def withTiles (s : State) (l : List (Nat × Tile)) : State := { s with tiles := l }

/-- Tile `y` is tile `x` but for what its slots note for YIELD. -/
structure YieldsOnly (x y : Tile) : Prop where
  tile : ∃ v, y = { x with harts := v }
  hart : ∀ i, ∃ l, y.harts.get i = { x.harts.get i with yield := l }

theorem YieldsOnly.refl (x : Tile) : YieldsOnly x x := ⟨⟨x.harts, rfl⟩, fun _ => ⟨_, rfl⟩⟩

section
variable {s : State} {l : List (Nat × Tile)} (hl : ∀ t, YieldsOnly (getTile s t) (getTile (withTiles s l) t))
include hl

theorem getHart_withTiles (h : HartId) : ∃ y, getHart (withTiles s l) h = { getHart s h with yield := y } := by
  cases h with
  | tile t i => exact (hl t).hart i
  | mender m i => exact ⟨_, rfl⟩

theorem status_withTiles (h : HartId) : (getHart (withTiles s l) h).status = (getHart s h).status := by
  obtain ⟨y, e⟩ := getHart_withTiles hl h; rw [e]

theorem out_withTiles (h : HartId) : (getHart (withTiles s l) h).out = (getHart s h).out := by
  obtain ⟨y, e⟩ := getHart_withTiles hl h; rw [e]

theorem waitOf_withTiles (h : HartId) : waitOf (getHart (withTiles s l) h) = waitOf (getHart s h) := by
  obtain ⟨y, e⟩ := getHart_withTiles hl h; rw [e]; rfl

/-- A property of a tile that reads no hart. -/
theorem tile_withTiles {α : Type} (p : Tile → α) (hp : ∀ x v, p { x with harts := v } = p x) (t : Nat) :
    p (getTile (withTiles s l) t) = p (getTile s t) := by
  obtain ⟨v, e⟩ := (hl t).tile
  rw [e, hp]

theorem regFull_withTiles (h : HartId) (r : RegId) : regFull (withTiles s l) h r = regFull s h r := by
  have hart : hartRegFull (getHart (withTiles s l) h) r = hartRegFull (getHart s h) r := by
    obtain ⟨y, e⟩ := getHart_withTiles hl h; rw [e]; rfl
  cases h with
  | mender m i => unfold regFull; cases r.cls <;> exact hart
  | tile t i =>
    have tile : tileRegFull (getTile (withTiles s l) t) r = tileRegFull (getTile s t) r := tile_withTiles hl (tileRegFull · r) (fun _ _ => rfl) t
    unfold regFull
    cases r.cls with
    | c | q | latch => exact tile
    | g | e | v | k => exact hart

theorem tileRuns_withTiles (t : Nat) : tileRuns (withTiles s l) t = tileRuns s t := by
  unfold tileRuns
  rw [tile_withTiles hl (·.grp) (fun _ _ => rfl) t]
  rfl

theorem hartHere_withTiles (h : HartId) : hartHere (withTiles s l) h = hartHere s h := by
  cases h with
  | tile t i => exact tileRuns_withTiles hl t
  | mender m i => rfl

theorem groupAt_withTiles (c t : Nat) : groupAt (withTiles s l) c t = groupAt s c t := by
  unfold groupAt
  rw [tile_withTiles hl (·.grp) (fun _ _ => rfl) t]
  rfl

theorem hartCtx_withTiles (h : HartId) : hartCtx (withTiles s l) h = hartCtx s h := by
  cases h with
  | tile t i => exact tile_withTiles hl (·.ctx) (fun _ _ => rfl) t
  | mender m i => rfl

theorem lSleeps_withTiles (t : Nat) : lSleeps (withTiles s l) t = lSleeps s t :=
  tile_withTiles hl (fun x => x.sleepDepth == 2 && (x.asleep || decide (s.cycle < x.wakeAt))) (fun _ _ => rfl) t

theorem pairFlights_withTiles (t u : Nat) : pairFlights (withTiles s l) t u = pairFlights s t u := by
  unfold pairFlights
  have out (i : Fin 10) : ((getTile (withTiles s l) t).harts.get i).out = ((getTile s t).harts.get i).out := out_withTiles hl (.tile t i)
  simp only [out]
  rfl

theorem againBefore_withTiles (n : Nat) : againBefore (withTiles s l) n = againBefore s n := by
  funext h
  unfold againBefore
  rw [waitOf_withTiles hl, hartHere_withTiles hl]

theorem heldBefore_withTiles (t n : Nat) : heldBefore (withTiles s l) t n = heldBefore s t n := by
  funext h
  unfold heldBefore
  rw [waitOf_withTiles hl, hartHere_withTiles hl]

theorem mailTurn_withTiles (t : Nat) (i : Fin 10) : mailTurn (getTile (withTiles s l) t) i = mailTurn (getTile s t) i := by
  have serves : mailServes (getTile (withTiles s l) t) = mailServes (getTile s t) := by
    funext j
    unfold mailServes
    rw [show waitOf ((getTile (withTiles s l) t).harts.get j) = waitOf ((getTile s t).harts.get j) from waitOf_withTiles hl (.tile t j),
      tile_withTiles hl (·.mbox) (fun _ _ => rfl) t, tile_withTiles hl (·.mnext) (fun _ _ => rfl) t]
  unfold mailTurn
  rw [serves, tile_withTiles hl (·.mwait) (fun _ _ => rfl) t]

theorem gqTurn_withTiles (pa : Nat) (push : Bool) (x : Agent) : gqTurn (withTiles s l) pa push x = gqTurn s pa push x := by
  have waits : gqWaiting (withTiles s l) pa push = gqWaiting s pa push := by
    funext y
    cases y with
    | hart h => simp only [gqWaiting, optWaits, waitOf_withTiles hl, out_withTiles hl]
    | _ => rfl
  unfold gqTurn gqAhead
  rw [waits]
  rfl

variable (keys : l.map Prod.fst = s.tiles.map Prod.fst)
include keys

omit hl in
theorem allHartIds_withTiles : allHartIds (withTiles s l) = allHartIds s := by
  have byKey (k : List (Nat × Tile)) : k.flatMap (fun t => (List.finRange 10).map fun i => HartId.tile t.1 i) =
      (k.map Prod.fst).flatMap fun t => (List.finRange 10).map fun i => HartId.tile t i := by rw [List.flatMap_map]
  rw [allHartIds, allHartIds, byKey, byKey]
  exact congrArg (List.flatMap _) keys

theorem cleared_withTiles (h : HartId) (r : Reason) : cleared (withTiles s l) h r = cleared s h r := by
  obtain ⟨y, hart⟩ := getHart_withTiles hl h
  have tile {α : Type} (p : Tile → α) (hp : ∀ x v, p { x with harts := v } = p x) := tile_withTiles hl p hp
  cases r with
  | reg q => exact regFull_withTiles hl h q
  | outFull | fenced _ => simp only [cleared, fenceClear, openOps, out_withTiles hl]; rfl
  | drain | trap _ _ | order _ | acks => simp only [cleared, out_withTiles hl]
  | rdv => simp only [cleared, hart]
  | pair u => simp only [cleared, pairFlights_withTiles hl]
  | wordRetry _ _ due => rfl
  | wordAgain _ _ n => simp only [cleared, allHartIds_withTiles keys, againBefore_withTiles hl]
  | held u _ _ _ n =>
    simp only [cleared, allHartIds_withTiles keys, heldBefore_withTiles hl, hartCtx_withTiles hl]
    rfl
  | loading u => simp only [cleared, groupAt_withTiles hl, hartCtx_withTiles hl]
  | waking u => simp only [cleared, lSleeps_withTiles hl]
  | page c vpn => rfl
  | barAhead k gen => exact tile (fun x => x.gen.get (barIdx k) != gen) (fun _ _ => rfl) _
  | mail => simp only [cleared, mailTurn_withTiles hl, tile (·.mbox) (fun _ _ => rfl), tile (·.mwait) (fun _ _ => rfl)]
  | mailTag => simp only [cleared, mailTurn_withTiles hl, tile (·.mbox) (fun _ _ => rfl), tile (·.mnext) (fun _ _ => rfl)]
  | engine m =>
    have idle (t : Nat) : seqIdle (withTiles s l) t = seqIdle s t := funext fun e => by unfold seqIdle; rw [status_withTiles hl]
    simp only [cleared, idle]
  | gradQueue pa push => simp only [cleared, queueCleared, gqTurn_withTiles hl]; rfl
  | _ => rfl

theorem countsReady_withTiles (h : HartId) : countsReady (withTiles s l) h = countsReady s h := by
  unfold countsReady runnable
  rw [status_withTiles hl]
  simp only [cleared_withTiles hl keys]
end

/-! ## What the slots of a tile note -/

/-- What slot `i` of tile `t` notes for YIELD. -/
def notesOf (s : State) (t : Nat) (i : Fin 10) : List (Fin 10) := (getHart s (.tile t i)).yield

theorem alGet_mapKey {α β : Type} (f : Nat → α → β) (l : List (Nat × α)) (k : Nat) :
    alGet (l.map fun x => (x.1, f x.1 x.2)) k = (alGet l k).map (f k) := by
  induction l with
  | nil => rfl
  | cons c l ih =>
    by_cases e : c.1 = k
    · subst e; simp [alGet]
    · simp [alGet, e, ih]

/-- The tiles of a state have each been changed by `f`. -/
theorem getTile_mapped {s u : State} {f : Nat → Tile → Tile} (h : u.tiles = s.tiles.map fun t => (t.1, f t.1 t.2)) (t : Nat) :
    getTile u t = f t (getTile s t) ∨ getTile u t = getTile s t := by
  rw [getTile, getTile, h, alGet_mapKey]
  cases alGet s.tiles t with
  | none => exact .inr rfl
  | some x => exact .inl rfl

theorem notesOf_mapped {s u : State} {f : Nat → Tile → Tile} (h : u.tiles = s.tiles.map fun t => (t.1, f t.1 t.2))
    (hf : ∀ t x i, ((f t x).harts.get i).yield = (x.harts.get i).yield) : notesOf u = notesOf s := by
  funext t i
  show ((getTile u t).harts.get i).yield = ((getTile s t).harts.get i).yield
  obtain e | e := getTile_mapped h t
  · rw [e, hf]
  · rw [e]

theorem sendReady_tiles (l n : Nat) (s : State) : (sendReady l n s).tiles = s.tiles := by
  induction n generalizing s with
  | zero => rfl
  | succ n ih =>
    unfold sendReady
    extract_lets
    split
    · rfl
    · split
      · rfl
      · rw [ih]; rfl

theorem linkCycles_tiles (s : State) : (linkCycles s).tiles = s.tiles :=
  foldl_keeps (·.tiles) (fun s l => by split <;> [exact sendReady_tiles _ _ _; rfl]) _ s

theorem wakeHart_yield (s : State) (h : HartId) (x : Hart) : (wakeHart s h x).yield = x.yield := by
  unfold wakeHart
  split
  · split <;> rfl
  · rfl

theorem wakeOps_yield (s : State) (h : HartId) (x : Hart) : (wakeOps s h x).yield = x.yield := by
  unfold wakeOps; split <;> rfl

/-- A tile whose waits have ended. -/
def wokenTile (s : State) (t : Nat) (x : Tile) : Tile :=
  { x with harts := Vector.ofFn fun i => wakeOps s (.tile t i) (wakeHart s (.tile t i) (x.harts.get i)) }

theorem notesOf_wakeAll (s : State) : notesOf (wakeAll s) = notesOf s :=
  notesOf_mapped (f := wokenTile s) rfl fun t x i => by
    rw [show (wokenTile s t x).harts.get i = wakeOps s (.tile t i) (wakeHart s (.tile t i) (x.harts.get i)) by simp [wokenTile],
      wakeOps_yield, wakeHart_yield]

/-- A cycle passes for the levellers, then for reports, waits and links. -/
def leveled (s : State) : State := { s with ev := .none, reads := [], tiles := s.tiles.map fun t => (t.1, levelCycle s t.1 t.2) }
def linked (s : State) : State := linkCycles (noteWaits (drainReports (leveled s)))

/-- The state behind all that passes with a step but the notes for YIELD. -/
def passed (s : State) : State :=
  wakeAll { linked s with armSeen := armsSeen (linked s), gqWait := (linked s).gqWait.filter (!gqLeft (linked s) ·), cycle := (linked s).cycle + 1 }

theorem notesOf_leveled (s : State) : notesOf (leveled s) = notesOf s :=
  notesOf_mapped (f := levelCycle { s with ev := .none, reads := [] }) rfl fun t x i => by unfold levelCycle; split <;> rfl

theorem notesOf_noteWaits (s : State) : notesOf (noteWaits s) = notesOf s :=
  notesOf_mapped (f := fun t x => if stopped s t then x else noteTile s t x) rfl fun t x i => by split <;> rfl

theorem notesOf_congr {s u : State} (h : u.tiles = s.tiles) : notesOf u = notesOf s := by
  funext t i
  show ((getTile u t).harts.get i).yield = ((getTile s t).harts.get i).yield
  rw [getTile, h, getTile]

theorem notesOf_clock (u : State) (a : List ArmSeen) (g : List (Nat × Agent)) (n : Nat) :
    notesOf { u with armSeen := a, gqWait := g, cycle := n } = notesOf u := notesOf_congr rfl

theorem notesOf_passed {s : State} (hs : s.reports = []) : notesOf (passed s) = notesOf s := by
  have drained : drainReports (leveled s) = leveled s := by
    have none : (leveled s).reports = [] := hs
    rw [drainReports, none]
  have woken : notesOf (passed s) = notesOf (linked s) := by
    unfold passed
    rw [notesOf_wakeAll]
    exact notesOf_clock ..
  calc notesOf (passed s) = notesOf (linked s) := woken
    _ = notesOf (noteWaits (leveled s)) := by rw [linked, drained]; exact notesOf_congr (linkCycles_tiles _)
    _ = notesOf s := (notesOf_noteWaits _).trans (notesOf_leveled s)

/-- The tiles after a step's last act. -/
def prunedTiles (x : Turn) (u : State) : List (Nat × Tile) := u.tiles.map fun t => (t.1, pruneYield u t.1 t.2 (issuedOn x t.1))

theorem tick_eq (x : Turn) (s : State) : tick x s = withTiles (passed s) (prunedTiles x (passed s)) := rfl

/-- A slot after a step's last act. -/
def prunedHart (u : State) (t : Nat) (o : Option (Fin 10)) (h : Hart) : Hart :=
  { h with yield := h.yield.filter fun j => some j != o && countsReady u (.tile t j) }

theorem pruneYield_hart (u : State) (t : Nat) (x : Tile) (o : Option (Fin 10)) (i : Fin 10) :
    (pruneYield u t x o).harts.get i = prunedHart u t o (x.harts.get i) := by
  show (vmap x.harts fun h => if h.yield = [] then h else prunedHart u t o h).get i = _
  rw [get_vmap]
  by_cases none : (x.harts.get i).yield = []
  · rw [if_pos none, prunedHart, none, List.filter_nil, ← none]
  · rw [if_neg none]

theorem prunedTiles_yieldsOnly (x : Turn) (u : State) (t : Nat) : YieldsOnly (getTile u t) (getTile (withTiles u (prunedTiles x u)) t) := by
  obtain e | e := getTile_mapped (s := u) (u := withTiles u (prunedTiles x u)) (f := fun t y => pruneYield u t y (issuedOn x t)) rfl t
  · rw [e]; exact ⟨⟨_, rfl⟩, fun i => ⟨_, pruneYield_hart ..⟩⟩
  · rw [e]; exact .refl _

theorem issuedOn_iff (x : Turn) (t : Nat) (j : Fin 10) : issuedOn x t = some j ↔ hasIssued x t j := by
  unfold issuedOn hasIssued
  split
  · next u i => by_cases e : u = t <;> simp [e]
  · next u i w => by_cases e : u = t <;> simp [e]
  · next h1 h2 => simp; exact ⟨h1 t j, h2 t j⟩

theorem mem_notesOf_pruned (x : Turn) (u : State) (t : Nat) (i j : Fin 10) :
    j ∈ notesOf (withTiles u (prunedTiles x u)) t i ↔ j ∈ notesOf u t i ∧ issuedOn x t ≠ some j ∧ countsReady u (.tile t j) = true := by
  show j ∈ ((getTile (withTiles u (prunedTiles x u)) t).harts.get i).yield ↔ j ∈ ((getTile u t).harts.get i).yield ∧ _
  rw [getTile, withTiles, prunedTiles, alGet_mapKey (fun t y => pruneYield u t y (issuedOn x t)), getTile]
  cases alGet u.tiles t with
  | none => simp [Tile.reset, Hart.reset, Vector.get]
  | some y =>
    show j ∈ ((pruneYield u t y (issuedOn x t)).harts.get i).yield ↔ _
    rw [pruneYield_hart]
    show j ∈ List.filter _ _ ↔ _
    rw [List.mem_filter, Bool.and_eq_true, bne_iff_ne, ne_comm]
    rfl

/-- What a slot notes after a step: the slots it has noted that are ready after the step and have not issued in it (R80). -/
theorem mem_notesOf_tick (x : Turn) {s : State} (hs : s.reports = []) (t : Nat) (i j : Fin 10) :
    j ∈ notesOf (tick x s) t i ↔ j ∈ notesOf s t i ∧ ¬ hasIssued x t j ∧ countsReady (tick x s) (.tile t j) = true := by
  have keys : (prunedTiles x (passed s)).map Prod.fst = (passed s).tiles.map Prod.fst := by
    rw [prunedTiles, List.map_map]; rfl
  have ready : countsReady (tick x s) (.tile t j) = countsReady (passed s) (.tile t j) :=
    countsReady_withTiles (prunedTiles_yieldsOnly x (passed s)) keys _
  rw [ready, ← notesOf_passed hs, ← issuedOn_iff, tick_eq, mem_notesOf_pruned]

/-! ## The instructions -/

theorem kindOf_here {s : State} {t : Nat} {i : Fin 10} (h : Here s t i) : kindOf s.cur = .thread := by
  rw [h.1, kindOf, if_pos h.2]

theorem threadOnly_here {s : State} {t : Nat} {i : Fin 10} (h : Here s t i) : threadOnly (kindOf s.cur) = true := by
  rw [kindOf_here h]; rfl

theorem myTile_here {s : State} {t : Nat} {i : Fin 10} (h : Here s t i) : myTile s = t := myTile_of (by rw [h.1]; rfl)

/-- An instruction without sources that has changed its own hart goes on. -/
theorem done_modMe {s : State} {f g : Hart → Hart} (len : Nat) (hfg : f (me s) = g (me s)) (hpc : (g (me s)).pc = (me s).pc) :
    done len (modMe s f) = .next (Claims.finished s [] len g) := by
  have none : readFilled s [] = s := readFilled_none (by simp)
  have ran := done_modHart (s := s) (rs := []) (f := f) (g := g) len (by rwa [none]) (by rwa [none])
  rwa [none] at ran

theorem emptyHartReg_pc (h : Hart) (r : RegId) : (emptyHartReg h r).pc = h.pc := by
  unfold emptyHartReg
  cases r.cls with
  | g | k => dsimp only; split <;> rfl
  | e | v | c | q | latch => rfl

/-- The slots that YIELD notes. -/
theorem otherReady_here {s : State} {t : Nat} {i : Fin 10} (h : Here s t i) : otherReady s = (List.finRange 10).filter fun j =>
    decide (j.val < 8 ∧ j ≠ i ∧ mayBeReady (getHart s (.tile t j)).status = true) := by
  unfold otherReady
  rw [myTile_here h, h.1]
  congr
  funext j
  rw [Bool.eq_iff_iff]
  simp [slotOf, Fin.ext_iff, getHart, and_assoc]

theorem yieldThread_notes {s : State} {t : Nat} {i : Fin 10} (h : Here s t i) (len : Nat) :
    yieldThread len s = .next (Claims.finished s [] len fun x =>
      { x with yield := (List.finRange 10).filter fun j => decide (j.val < 8 ∧ j ≠ i ∧ mayBeReady (getHart s (.tile t j)).status = true) }) := by
  rw [yieldThread, inSet_pass _ (threadOnly_here h), otherReady_here h]
  exact done_modMe len rfl rfl

theorem clearReg_empties {s : State} {r : RegId} (len : Nat) (hi : Issues s threadOnly [] [r]) :
    clearReg len r s = .next (Claims.finished s [] len fun h => emptyHartReg h r) := by
  rw [clearReg, inSet_pass _ hi.kind, dests_pass _ hi.free]
  exact done_modMe len rfl (emptyHartReg_pc ..)

/-- Settles O15: the notes of YIELD by what a step's last act leaves of them (`mem_notesOf_tick`); each instruction changes its own hart. -/
theorem threadRegisters : Obligations.ThreadRegisters := by
  unfold Obligations.ThreadRegisters
  refine ⟨fun x s t i j hs => mem_notesOf_tick x hs t i j, fun s t i h => ⟨?_, fun c k => ?_, fun d cls k hi => ?_, fun d hi => ?_⟩⟩
  · exact List.forall_mem_cons.mpr ⟨yieldThread_notes h 4, List.forall_mem_singleton.mpr (yieldThread_notes h 2)⟩
  · refine List.forall_mem_cons.mpr ⟨fun hi => ?_, List.forall_mem_singleton.mpr fun hi => clearReg_empties 2 hi⟩
    cases c <;> exact clearReg_empties 4 hi
  · show execIsfull d cls k s = _
    rw [execIsfull, inSet_pass _ hi.kind, dests_pass _ hi.free]
    exact done_modMe 4 rfl (by simp)
  · show execTid d s = _
    rw [execTid, inSet_pass _ hi.kind, dests_pass _ hi.free, myTile_here h, h.1]
    exact done_modMe 4 rfl (by simp)

end Sys2Proof.Machine
end

section
/-! PROOF of O5: what each CSR reads; a CSR instruction is its checks, the clearing of RC bits (`csrMasked`) and one write. -/

namespace Sys2Proof.Machine

open Sys2Proof.Claims

/-! ## Values of CSRs (R65, R66) -/

theorem setWidth_w64 {n : Nat} (v : BitVec n) : v.setWidth 64 = w64 v.toNat := by
  rw [w64, ← BitVec.ofNat_toNat]

/-- The CSRs that are one of several of a kind: formats, scales, random states, fold counts and error locations. -/
theorem csrRead_indexed (s : State) (h : HartId) {n : Nat} (hn : 0x020 ≤ n ∧ n < 0x028 ∨ 0x030 ≤ n ∧ n < 0x044 ∨ 0x051 ≤ n ∧ n < 0x059) :
    let t := getTile s ((tileOf? h).getD 0)
    csrRead s h n =
      if n < 0x024 then (t.fmt.get (Fin.ofNat 4 n) &&& nfdBits).setWidth 64
      else if n < 0x028 then t.scp.get (Fin.ofNat 4 n)
      else if n < 0x040 then (t.lfsr.get (Fin.ofNat 16 n)).setWidth 64
      else if n < 0x044 then w64 (t.q.get (Fin.ofNat 4 n)).cnt
      else t.oerrloc.get (Fin.ofNat 8 (n - 0x051)) := by
  unfold csrRead
  split
  case h_32 => rfl
  all_goals omega

theorem csrNo_toNat {n : Nat} (h : n < 4096) : (csrNo n).toNat = n := by
  rw [csrNo, BitVec.toNat_ofNat, Nat.mod_eq_of_lt h]

/-- The bits of a number format that are not reserved (R153). -/
theorem nfd_toNat (v : W32) : (v &&& nfdBits).toNat = v.toNat % 2 ^ 24 / 2 ^ 16 * 2 ^ 16 + v.toNat % 2 ^ 12 := by
  apply Nat.eq_of_testBit_eq
  intro j
  have low : v.toNat % 2 ^ 12 < 2 ^ 16 := by omega
  rw [BitVec.toNat_and, Nat.testBit_and, show nfdBits.toNat = 2 ^ 16 * (2 ^ 8 - 1) + (2 ^ 12 - 1) from rfl,
    Nat.testBit_two_pow_mul_add _ (by decide), Nat.mul_comm _ (2 ^ 16), Nat.testBit_two_pow_mul_add _ low, Nat.testBit_div_two_pow,
    Nat.testBit_mod_two_pow, Nat.testBit_mod_two_pow, Nat.testBit_two_pow_sub_one, Nat.testBit_two_pow_sub_one]
  by_cases h : j < 16
  · simp [h, Bool.and_comm]
  · have back : j - 16 + 16 = j := by omega
    have cut : decide (j - 16 < 8) = decide (j < 24) := decide_eq_decide.mpr (by omega)
    simp [h, back, cut, Bool.and_comm]

section
variable (s : State) (t : Nat) (i : Fin 10)

theorem csrRead_fmt (k : Fin 4) : csrRead s (.tile t i) (csrNo (0x020 + k.val)).toNat =
    w64 (((getTile s t).fmt.get k).toNat % 2 ^ 24 / 2 ^ 16 * 2 ^ 16 + ((getTile s t).fmt.get k).toNat % 2 ^ 12) := by
  have index : Fin.ofNat 4 (0x020 + k.val) = k := Fin.ext (by simp [Fin.ofNat]; omega)
  rw [csrNo_toNat (by omega), csrRead_indexed _ _ (by omega), if_pos (by omega), index, setWidth_w64, nfd_toNat]
  rfl

theorem csrRead_scp (k : Fin 4) : csrRead s (.tile t i) (csrNo (0x024 + k.val)).toNat = w64 ((getTile s t).scp.get k).toNat := by
  have index : Fin.ofNat 4 (0x024 + k.val) = k := Fin.ext (by simp [Fin.ofNat]; omega)
  rw [csrNo_toNat (by omega), csrRead_indexed _ _ (by omega), if_neg (by omega), if_pos (by omega), index, w64_toNat]
  rfl

theorem csrRead_lfsr (k : Fin 16) : csrRead s (.tile t i) (csrNo (0x030 + k.val)).toNat = w64 ((getTile s t).lfsr.get k).toNat := by
  have index : Fin.ofNat 16 (0x030 + k.val) = k := Fin.ext (by simp [Fin.ofNat]; omega)
  rw [csrNo_toNat (by omega), csrRead_indexed _ _ (by omega), if_neg (by omega), if_neg (by omega), if_pos (by omega), index, setWidth_w64]
  rfl

theorem csrRead_cnt (k : Fin 4) : csrRead s (.tile t i) (csrNo (0x040 + k.val)).toNat = w64 ((getTile s t).q.get k).cnt := by
  have index : Fin.ofNat 4 (0x040 + k.val) = k := Fin.ext (by simp [Fin.ofNat]; omega)
  rw [csrNo_toNat (by omega), csrRead_indexed _ _ (by omega), if_neg (by omega), if_neg (by omega), if_neg (by omega), if_pos (by omega), index]
  rfl

theorem csrRead_oerrloc (k : Fin 8) : csrRead s (.tile t i) (csrNo (0x051 + k.val)).toNat = w64 ((getTile s t).oerrloc.get k).toNat := by
  have index : Fin.ofNat 8 (0x051 + k.val - 0x051) = k := Fin.ext (by simp [Fin.ofNat])
  rw [csrNo_toNat (by omega), csrRead_indexed _ _ (by omega), if_neg (by omega), if_neg (by omega), if_neg (by omega), if_neg (by omega), index]
  exact (w64_toNat _).symm

theorem csrValues_read : ∀ r ∈ csrValues s t i, csrRead s (.tile t i) r.1.toNat = w64 r.2 := by
  have word (v : Word) : v = w64 v.toNat := (w64_toNat v).symm
  unfold csrValues
  simp only [List.forall_mem_append, List.forall_mem_map, List.forall_mem_cons]
  refine ⟨⟨⟨⟨⟨?_, fun k _ => csrRead_fmt s t i k⟩, fun k _ => csrRead_scp s t i k⟩, fun k _ => csrRead_lfsr s t i k⟩,
    fun k _ => csrRead_cnt s t i k⟩, fun k _ => csrRead_oerrloc s t i k⟩
  exact ⟨setWidth_w64 _, setWidth_w64 _, rfl, word _, word _, word _, word _, rfl, setWidth_w64 _, setWidth_w64 _, word _, word _, rfl, rfl, word _,
    setWidth_w64 _, rfl, rfl, rfl, setWidth_w64 _, word _, word _, word _, rfl, word _, word _, rfl, setWidth_w64 _, rfl, rfl, setWidth_w64 _,
    List.forall_mem_nil _⟩
end

/-! ## Accesses (R65, R67) -/

theorem csrCheck_pass {n : CsrNo} {s : State} (k : State → Out) (h : csrOpen s n) : csrCheck n s k = k s := by
  obtain ⟨listed, kind, sup⟩ := h
  have inside : threadOrMender (kindOf s.cur) = true := by
    obtain e | ⟨e, -⟩ := kind <;> rw [e] <;> rfl
  have own : (kindOf s.cur == .mender && !menderCsr n.toNat) = false := by
    obtain e | ⟨e, m⟩ := kind
    · rw [e]; rfl
    · rw [m, Bool.not_true, Bool.and_false]
  simp only [csrCheck, listed, Bool.not_true, Bool.false_eq_true, if_false]
  rw [inSet_pass _ inside, own, if_neg Bool.false_ne_true]
  by_cases hn : n.toNat ≥ 0x200
  · rw [if_pos hn, supOnly_pass _ (sup hn)]
  · rw [if_neg hn]

theorem csrOpen_zero {n : CsrNo} : n.toNat = 0 ↔ n = 0 := BitVec.toNat_eq (y := 0) |>.symm

theorem flagsSettled_pass {n : CsrNo} {s : State} (k : State → Out) (h : n = 0 → (me s).out.all (!·.fp) = true) : flagsSettled n s k = k s := by
  refine if_neg fun e => ?_
  have quiet := h (csrOpen_zero.mp e.1)
  rw [List.all_eq_not_any_not] at quiet
  simp [e.2] at quiet

/-- A read of fflags waits for an operation that can set flags (R54). -/
theorem flagsSettled_holds {s : State} (k : State → Out) (h : (openOps s.cycle (me s)).any (·.fp) = true) :
    flagsSettled 0 s k = .next (parkHart s s.cur (.slot .flags s.iword)) := by
  have fp : (me s).out.any (·.fp) = true := by
    rw [List.any_eq_true] at h ⊢
    obtain ⟨o, ho, e⟩ := h
    exact ⟨o, (List.mem_filter.mp ho).1, e⟩
  exact if_pos ⟨rfl, fp⟩

theorem csrFetch_sound {s : State} {h : HartId} {n : Nat} (hf : csrFlaw s h n = none) : csrFetch s h n = (s, csrRead s h n) := by
  rw [csrFetch, hf]

theorem csrFlaw_readFilled (s : State) (rs : List RegId) (n : Nat) : csrFlaw (readFilled s rs) s.cur n = csrFlaw s s.cur n := by
  unfold csrFlaw
  rw [getHart_readFilled]
  cases s.cur <;> simp

theorem csrClear_cur (s : State) (h : HartId) (n : Nat) (m : Word) : (csrClear s h n m).cur = s.cur := by
  unfold csrClear
  split
  · exact modHart_cur ..
  · split
    · cases h <;> rfl
    · rfl

theorem csrWrite_cur (s : State) (h : HartId) (n : Nat) (v : Word) : (csrWrite s h n v).cur = s.cur := by
  unfold csrWrite
  cases h <;> exact modHart_cur ..

/-- The hart of a CSR after its RC bits have been cleared. -/
theorem getHart_csrClear (s : State) (h : HartId) (n : Nat) (m : Word) : getHart (csrClear s h n m) h =
    if n = 0x002 then { getHart s h with pre := (getHart s h).pre && !m.getLsbD 0 } else getHart s h := by
  unfold csrClear
  split
  · exact getHart_modHart_same ..
  · split
    · cases h with
      | mender k i => rfl
      | tile t i =>
        refine getHart_modTile ?_ _
        split <;> rfl
    · rfl

/-- A write of a CSR leaves the harts of a tile, and the registers of a hart. -/
theorem csrWriteTile_harts (x : Tile) (n : Nat) (v : Word) : (csrWriteTile x n v).harts = x.harts := by
  unfold csrWriteTile
  (repeat' split) <;> rfl

theorem csrWriteHart_frame (x : Hart) (n : Nat) (v : Word) : let y := csrWriteHart x n v
    y.g = x.g ∧ y.e = x.e ∧ y.v = x.v ∧ y.k = x.k ∧ y.pc = x.pc ∧ y.status = x.status ∧ y.out = x.out := by
  dsimp only
  unfold csrWriteHart
  (repeat' split) <;> exact ⟨rfl, rfl, rfl, rfl, rfl, rfl, rfl⟩

/-- The hart of a CSR after a write. -/
theorem getHart_csrWrite (s : State) (h : HartId) (n : Nat) (v : Word) : getHart (csrWrite s h n v) h =
    { csrWriteHart (getHart s h) n v with flaws := csrHealed n (getHart s h).flaws } := by
  have put := getHart_modHart_same s h fun x => { csrWriteHart x n v with flaws := csrHealed n x.flaws }
  unfold csrWrite
  cases h with
  | mender k i => exact put
  | tile t i => exact (getHart_modTile (csrWriteTile_harts ..) _).trans put

theorem pc_csrWrite (s : State) (h : HartId) (n : Nat) (v : Word) : (getHart (csrWrite s h n v) h).pc = (getHart s h).pc := by
  rw [getHart_csrWrite]
  obtain ⟨-, -, -, -, pc, -, -⟩ := csrWriteHart_frame (getHart s h) n v
  exact pc

theorem pc_csrClear (s : State) (h : HartId) (n : Nat) (m : Word) : (getHart (csrClear s h n m) h).pc = (getHart s h).pc := by
  rw [getHart_csrClear]; split <;> rfl

/-- The state behind the clearing of RC bits, where the instruction clears any. -/
def csrMasked (s : State) (n : CsrNo) (c : Option Word) : State :=
  match c with
  | some m => csrClear s s.cur n.toNat m
  | none => s

theorem csrMasked_cur (s : State) (n : CsrNo) (c : Option Word) : (csrMasked s n c).cur = s.cur := by
  cases c with
  | none => rfl
  | some m => exact csrClear_cur ..

theorem pc_csrMasked (s : State) (n : CsrNo) (c : Option Word) : (getHart (csrMasked s n c) s.cur).pc = (me s).pc := by
  cases c with
  | none => rfl
  | some m => exact pc_csrClear ..

theorem csrStored_eq (s : State) (n : CsrNo) (c : Option Word) (v : Word) (f : Hart → Hart) : csrStored s n c v f =
    completeAs (stepped s.cur (me s)) (modHart (csrWrite (csrMasked s n c) s.cur n.toNat v) s.cur f) s.cur ((me s).pc + 4) := by
  cases c <;> rfl

/-- A CSR has been written, and the hart changed: the instruction completes. -/
theorem csrDone_stored (s : State) (n : CsrNo) (c : Option Word) (v : Word) {f : Hart → Hart} (hf : ∀ x, (f x).pc = x.pc) :
    csrDone (stepped s.cur (me s)) (modMe (csrWrite (csrMasked s n c) s.cur n.toNat v) f) = .next (csrStored s n c v f) := by
  rw [csrStored_eq, csrDone, modMe_eq, modHart_cur, csrWrite_cur, csrMasked_cur]
  congr 3
  rw [me, modHart_cur, csrWrite_cur, csrMasked_cur, getHart_modHart_same, hf, pc_csrWrite, pc_csrMasked]

theorem completeAs_modHart_id (st : Bool) (s : State) (h : HartId) (p : Word) : completeAs st (modHart s h id) h p = completeAs st s h p := by
  simp only [completeAs, modHart_modHart, id]

theorem csrDone_stored_id (s : State) (n : CsrNo) (c : Option Word) (v : Word) :
    csrDone (stepped s.cur (me s)) (csrWrite (csrMasked s n c) s.cur n.toNat v) = .next (csrStored s n c v id) := by
  rw [csrStored_eq, completeAs_modHart_id, csrDone, csrWrite_cur, csrMasked_cur]
  congr 3
  rw [me, csrWrite_cur, csrMasked_cur, pc_csrWrite, pc_csrMasked]

theorem execCsrr_reads {d : GReg} {n : CsrNo} {s : State} (hi : Issues s threadOrMender [] [gId d]) (hn : csrOpen s n)
    (hf : csrFlaw s s.cur n.toNat = none) (quiet : n = 0 → (me s).out.all (!·.fp) = true) :
    exec (.csrr d n) s = .next (Claims.finished s [] 4 fun h => wg h d (csrRead s s.cur n.toNat)) := by
  show execCsrr d n s = _
  rw [execCsrr, csrCheck_pass _ hn, flagsSettled_pass _ quiet, dests_pass _ hi.free, csrFetch_sound hf]
  exact done_modMe 4 rfl (by simp)

theorem csrOpen_readFilled {s : State} {n : CsrNo} (rs : List RegId) (h : csrOpen s n) : csrOpen (readFilled s rs) n := by
  unfold csrOpen isSup at h ⊢
  rwa [readFilled_cur, me_readFilled]

theorem csrSwap_swaps {f : Word → Word → Word} {clr : Bool} {d a : GReg} {n : CsrNo} {s : State}
    (hi : Issues s threadOrMender [gId a] [gId d]) (hn : csrOpen s n) (hf : csrFlaw s s.cur n.toNat = none)
    (quiet : n = 0 → (me s).out.all (!·.fp) = true) :
    let s1 := readFilled s [gId a]
    let m := rg (me s) a
    let old := csrRead s1 s.cur n.toNat
    csrSwap f clr d n a s = .next (csrStored s1 n (if clr then some m else none) (f old m) fun h => wg h d old) := by
  intro s1 m old
  have cur : s1.cur = s.cur := readFilled_cur ..
  have fetched : csrFetch s1 s1.cur n.toNat = (s1, old) := by
    rw [cur, csrFetch_sound ((csrFlaw_readFilled ..).trans hf)]
  have masked : (if clr then csrClear s1 s1.cur n.toNat m else s1) = csrMasked s1 n (if clr then some m else none) := by
    cases clr <;> rfl
  have quiet1 : n = 0 → (me s1).out.all (!·.fp) = true := by simpa [s1] using quiet
  have free1 : ∀ r ∈ [gId d], hazard (me s1) r = false := by simpa [s1] using hi.free
  have mask : rg (me s1) a = m := rg_readFilled ..
  have read (k : State → Out) : sources [gId a] s k = k s1 := sources_pass k hi.full hi.sound
  rw [csrSwap, csrCheck_pass _ hn, read, flagsSettled_pass _ quiet1, dests_pass _ free1]
  simp only [mask, fetched]
  rw [masked, csrMasked_cur]
  exact csrDone_stored s1 n _ _ fun x => by simp

/-- Settles O5: the values by `csrValues_read`, each instruction by the checks it passes and `csrDone_stored`. -/
theorem csrAccesses : Obligations.CsrAccesses := by
  unfold Obligations.CsrAccesses
  refine ⟨⟨fun d n s hi hn hf => ⟨execCsrr_reads hi hn hf, fun zero fp => ?_⟩, csrValues_read⟩, fun d n a s hi hn hf => ⟨?_, fun quiet => ?_⟩⟩
  · subst zero
    show execCsrr d 0 s = _
    rw [execCsrr, csrCheck_pass _ hn, flagsSettled_holds _ fp]
  · show execCsrw n a s = _
    rw [execCsrw, csrCheck_pass _ hn, sources_pass _ hi.full hi.sound]
    simp only [rg_readFilled]
    exact csrDone_stored_id (readFilled s [gId a]) n (some (rg (me s) a)) _
  · have swaps (f : Word → Word → Word) (clr : Bool) := csrSwap_swaps (f := f) (clr := clr) hi hn hf quiet
    refine List.forall_mem_cons.mpr ⟨?_, List.forall_mem_cons.mpr ⟨?_, List.forall_mem_singleton.mpr ?_⟩⟩
    · exact Eq.trans (b := execCsrs d n a s) rfl (swaps (fun o m => o ||| m) false)
    · exact Eq.trans (b := execCsrc d n a s) rfl (swaps (fun o m => o &&& ~~~m) true)
    · exact Eq.trans (b := execCsrx d n a s) rfl (swaps (fun _ m => m) true)

end Sys2Proof.Machine
end

section
/-! PROOF of O6: a write of a CSR changes one field of the hart or of its tile, so what the CSR then reads is that field. -/

namespace Sys2Proof.Machine

open Sys2Proof.Claims

/-! ## What a write changes -/

theorem csrWriteTile_withHarts (x : Tile) (v : Vector Hart 10) (n : Nat) (w : Word) :
    csrWriteTile { x with harts := v } n w = { csrWriteTile x n w with harts := v } := by
  unfold csrWriteTile
  split
  case h_4 => split <;> rfl
  case h_7 => split <;> rfl
  all_goals rfl

theorem getTile_modHart_same (s : State) (t : Nat) (i : Fin 10) (f : Hart → Hart) :
    getTile (modHart s (.tile t i) f) t = { getTile s t with harts := (getTile s t).harts.set i (f ((getTile s t).harts.get i)) } :=
  getTile_setTile_same ..

/-- The tile of a CSR after a write. -/
theorem getTile_csrWrite (s : State) (t : Nat) (i : Fin 10) (n : Nat) (w : Word) : ∃ v l,
    getTile (csrWrite s (.tile t i) n w) t = { csrWriteTile (getTile s t) n w with harts := v, csrFlaws := l } := by
  set u := modHart s (.tile t i) fun x => { csrWriteHart x n w with flaws := csrHealed n x.flaws } with hu
  have put : getTile (csrWrite s (.tile t i) n w) t = { csrWriteTile (getTile u t) n w with csrFlaws := csrHealed n (getTile u t).csrFlaws } :=
    getTile_setTile_same ..
  have written : csrWriteTile (getTile u t) n w = { csrWriteTile (getTile s t) n w with harts := (getTile u t).harts } := by
    rw [hu, getTile_modHart_same]; exact csrWriteTile_withHarts ..
  rw [written] at put
  exact ⟨_, _, put⟩

theorem csrWrite_cycle (s : State) (t : Nat) (i : Fin 10) (n : Nat) (w : Word) : (csrWrite s (.tile t i) n w).cycle = s.cycle := modHart_cycle ..

/-- What is read of a CSR depends on the hart and its tile, and on nothing of their errors. -/
theorem csrRead_congr {s u : State} {t : Nat} {i : Fin 10} {n : Nat} {y : Hart} {z : Tile}
    (hart : ∃ f, getHart u (.tile t i) = { y with flaws := f }) (tile : ∃ v f, getTile u t = { z with harts := v, csrFlaws := f })
    (hy : y = getHart s (.tile t i)) (hz : z = getTile s t) (cycle : u.cycle = s.cycle) :
    csrRead u (.tile t i) n = csrRead s (.tile t i) n := by
  subst hy hz
  obtain ⟨f, hart⟩ := hart
  obtain ⟨v, l, tile⟩ := tile
  have here : (tileOf? (.tile t i)).getD 0 = t := rfl
  simp only [csrRead, timeNs, here, hart, tile, cycle]
  rfl

/-! ## What a CSR holds after a write -/

/-- What CSR `n` reads after `v` has been written to it is `f` of what it read and of `v`. -/
def Writes (n : CsrNo) (f : Nat → Nat → Nat) : Prop :=
  ∀ (s : State) (t : Nat) (i : Fin 10) (v : Word),
    (csrRead (csrWrite s (.tile t i) n.toNat v) (.tile t i) n.toNat).toNat = f (csrRead s (.tile t i) n.toNat).toNat v.toNat

/-- A CSR of the hart, which reads `p` of it. -/
theorem writes_hart {n : CsrNo} {f : Nat → Nat → Nat} (p : Nat → Hart → Word)
    (hp : ∀ u t i, csrRead u (.tile t i) n.toNat = p u.cycle (getHart u (.tile t i)))
    (hf : ∀ now x l, p now { x with flaws := l } = p now x)
    (hw : ∀ now x v, (p now (csrWriteHart x n.toNat v)).toNat = f (p now x).toNat v.toNat) : Writes n f := by
  intro s t i v
  rw [hp, hp, getHart_csrWrite, csrWrite_cycle, hf, hw]

/-- A CSR of the tile. -/
theorem writes_tile {n : CsrNo} {f : Nat → Nat → Nat} (p : Tile → Word) (hp : ∀ u t i, csrRead u (.tile t i) n.toNat = p (getTile u t))
    (hf : ∀ x v l, p { x with harts := v, csrFlaws := l } = p x)
    (hw : ∀ x v, (p (csrWriteTile x n.toNat v)).toNat = f (p x).toNat v.toNat) : Writes n f := by
  intro s t i v
  obtain ⟨w, l, tile⟩ := getTile_csrWrite s t i n.toNat v
  rw [hp, hp, tile, hf, hw]

theorem narrow_toNat {n : Nat} (h : n ≤ 64) (v : Word) : ((v.setWidth n).setWidth 64).toNat = v.toNat % 2 ^ n := by
  have : v.toNat % 2 ^ n < 2 ^ 64 := lt_of_lt_of_le (Nat.mod_lt _ (by positivity)) (Nat.pow_le_pow_right (by decide) h)
  rw [BitVec.toNat_setWidth, BitVec.toNat_setWidth, Nat.mod_eq_of_lt this]

theorem w64_small {n : Nat} (h : n < 2 ^ 64) : (w64 n).toNat = n := by rw [w64, BitVec.toNat_ofNat, Nat.mod_eq_of_lt h]

theorem evenWord_toNat (v : Word) : (evenWord v).toNat = v.toNat / 2 * 2 := w64_small (by have := v.isLt; omega)

theorem b2n_getLsbD_zero (v : Word) : b2n (v.getLsbD 0) = v.toNat % 2 := by
  rw [BitVec.getLsbD, Nat.testBit_zero]
  rcases Nat.mod_two_eq_zero_or_one v.toNat with h | h <;> simp [h, b2n]

theorem bit_written (v : Word) : (w64 (b2n (v.getLsbD 0))).toNat = v.toNat % 2 := by
  rw [b2n_getLsbD_zero, w64_small (by omega)]

theorem cause_toNat (v : Word) : (v &&& w64 (2 ^ 63 + 127)).toNat = v.toNat / 2 ^ 63 * 2 ^ 63 + v.toNat % 128 := by
  apply Nat.eq_of_testBit_eq
  intro j
  have low : v.toNat % 2 ^ 7 < 2 ^ 63 := by omega
  rw [BitVec.toNat_and, Nat.testBit_and, show (w64 (2 ^ 63 + 127)).toNat = 2 ^ 63 * (2 ^ 1 - 1) + (2 ^ 7 - 1) from rfl,
    Nat.testBit_two_pow_mul_add _ (by decide), Nat.mul_comm _ (2 ^ 63), show 128 = 2 ^ 7 from rfl, Nat.testBit_two_pow_mul_add _ low,
    Nat.testBit_div_two_pow, Nat.testBit_mod_two_pow, Nat.testBit_two_pow_sub_one, Nat.testBit_two_pow_sub_one]
  by_cases h : j < 63
  · simp [h, Bool.and_comm]
  · have back : j - 63 + 63 = j := by omega
    by_cases e : j = 63
    · simp [e]
    · have high : v.toNat.testBit j = false := Nat.testBit_lt_two_pow (lt_of_lt_of_le v.isLt (Nat.pow_le_pow_right (by decide) (by omega)))
      simp [h, back, high]

/-- tstatus, of which INH alone is written (R66). -/
theorem tstatus_inh (now : Nat) (x : Hart) (v : Word) :
    (tstatusOf now { x with inh := v.getLsbD 0 }).toNat = (tstatusOf now x).toNat / 2 * 2 + v.toNat % 2 := by
  have small (b : Bool) : b2n b ≤ 1 := by cases b <;> decide
  have i := small x.inh
  have u := small x.sup
  show (w64 (b2n (v.getLsbD 0) + 2 * b2n x.sup + 256 * (x.stack.length % 16) + 65536 * ((openOps now x).length % 8))).toNat = _
  rw [b2n_getLsbD_zero, tstatusOf, w64_small (by omega), w64_small (by omega)]
  omega

theorem sleepDepth_written (x : Tile) (v : Word) : ((csrWriteTile x 0x200 v).sleepDepth.setWidth 64).toNat =
    if v.toNat % 4 = 3 then (x.sleepDepth.setWidth 64).toNat else v.toNat % 4 := by
  show ((if v.toNat % 4 = 3 then x else { x with sleepDepth := v.setWidth 2 }).sleepDepth.setWidth 64).toNat = _
  split
  · rfl
  · exact narrow_toNat (by decide) v

theorem frm_written (x : Hart) (v : Word) : ((csrWriteHart x 0x001 v).frm.setWidth 64).toNat =
    if v.toNat % 8 < 5 then v.toNat % 8 else (x.frm.setWidth 64).toNat := by
  show ((if v.toNat % 8 < 5 then { x with frm := v.setWidth 3 } else x).frm.setWidth 64).toNat = _
  split
  · exact narrow_toNat (by decide) v
  · rfl

theorem escwait_written (x : Tile) (v : Word) : ((csrWriteTile x 0x203 v).escwait.setWidth 64).toNat = max 16 (v.toNat % 65536) := by
  show ((if v.toNat % 65536 < 16 then 16 else v.setWidth 16 : BitVec 16).setWidth 64).toNat = _
  split
  · next small => rw [max_eq_left (by omega)]; rfl
  · next large => rw [max_eq_right (by omega)]; exact narrow_toNat (by decide) v

theorem repq_written (v : Word) : (w64 ((w64 (v.toNat / 64 * 64)).toNat / 64 * 64)).toNat = v.toNat / 64 * 64 := by
  have := v.isLt
  rw [w64_small (by rw [w64_small (by omega)]; omega), w64_small (by omega)]
  omega

theorem csrWriteTile_lfsr (x : Tile) {n : Nat} (h : 0x030 ≤ n ∧ n < 0x040) (v : Word) : csrWriteTile x n v =
    { x with lfsr := x.lfsr.set (Fin.ofNat 16 n) (if v.toNat % 2 ^ 32 = 0 then 1 else v.setWidth 32) } := by
  unfold csrWriteTile
  split
  case h_7 => exact if_pos h
  all_goals omega

theorem lfsr_writes (k : Nat) (hk : k < 16) : Writes (csrNo (0x030 + k)) fun _ v => if v % 2 ^ 32 = 0 then 1 else v % 2 ^ 32 := by
  have number : (csrNo (0x030 + k)).toNat = 0x030 + k := csrNo_toNat (by omega)
  refine writes_tile (fun x => (x.lfsr.get (Fin.ofNat 16 (0x030 + k))).setWidth 64) (fun u t i => ?_) (fun _ _ _ => rfl) fun x v => ?_
  · rw [number, csrRead_indexed _ _ (by omega), if_neg (by omega), if_neg (by omega), if_pos (by omega)]
    rfl
  · rw [number, csrWriteTile_lfsr x (by omega)]
    simp only [vector_get_set_same]
    split
    · rfl
    · exact narrow_toNat (by decide) v

theorem csrWritten_writes : ∀ r ∈ csrWritten, Writes r.1 r.2 := by
  have narrow {n : Nat} (h : n ≤ 64) (v : Word) := narrow_toNat h v
  unfold csrWritten
  simp only [List.forall_mem_append, List.forall_mem_map, List.forall_mem_cons, List.mem_range]
  refine ⟨⟨?_, ?_, ?_, ?_, ?_, ?_, ?_, ?_, ?_, ?_, ?_, ?_, ?_, ?_, ?_, ?_, List.forall_mem_nil _⟩, lfsr_writes⟩
  · exact writes_hart (fun _ x => x.fflags.setWidth 64) (fun _ _ _ => rfl) (fun _ _ _ => rfl) fun _ _ v => narrow (by decide) v
  · exact writes_hart (fun _ x => x.frm.setWidth 64) (fun _ _ _ => rfl) (fun _ _ _ => rfl) fun _ x v => frm_written x v
  · exact writes_tile (·.mnext) (fun _ _ _ => rfl) (fun _ _ _ => rfl) fun _ _ => rfl
  · exact writes_tile (·.stepmask.setWidth 64) (fun _ _ _ => rfl) (fun _ _ _ => rfl) fun _ v => narrow (by decide) v
  · exact writes_tile (·.stepwatch.setWidth 64) (fun _ _ _ => rfl) (fun _ _ _ => rfl) fun _ v => narrow (by decide) v
  · exact writes_hart (fun _ x => x.wlim.setWidth 64) (fun _ _ _ => rfl) (fun _ _ _ => rfl) fun _ _ v => narrow (by decide) v
  · exact writes_hart (fun _ x => x.tcause) (fun _ _ _ => rfl) (fun _ _ _ => rfl) fun _ _ v => cause_toNat v
  · exact writes_hart (fun _ x => x.tval) (fun _ _ _ => rfl) (fun _ _ _ => rfl) fun _ _ _ => rfl
  · exact writes_hart (fun _ x => x.tepc) (fun _ _ _ => rfl) (fun _ _ _ => rfl) fun _ _ v => evenWord_toNat v
  · exact writes_hart tstatusOf (fun _ _ _ => rfl) (fun _ _ _ => rfl) tstatus_inh
  · exact writes_hart (fun _ x => x.tvec) (fun _ _ _ => rfl) (fun _ _ _ => rfl) fun _ _ v => evenWord_toNat v
  · exact writes_hart (fun _ x => x.tscratch) (fun _ _ _ => rfl) (fun _ _ _ => rfl) fun _ _ _ => rfl
  · exact writes_hart (fun _ x => w64 (b2n x.ss)) (fun _ _ _ => rfl) (fun _ _ _ => rfl) fun _ _ v => bit_written v
  · exact writes_tile (·.sleepDepth.setWidth 64) (fun _ _ _ => rfl) (fun _ _ _ => rfl) sleepDepth_written
  · exact writes_tile (fun x => w64 (x.repq.toNat / 64 * 64)) (fun _ _ _ => rfl) (fun _ _ _ => rfl) fun _ v => repq_written v
  · exact writes_tile (·.escwait.setWidth 64) (fun _ _ _ => rfl) (fun _ _ _ => rfl) escwait_written

/-! ## What no write changes -/

theorem csrWriteHart_fixed (x : Hart) {n : Nat} (h : csrWritable n = false) (v : Word) : csrWriteHart x n v = x := by
  unfold csrWriteHart
  split
  case h_11 => rfl
  all_goals exact absurd h (by decide)

theorem csrWriteTile_fixed (x : Tile) {n : Nat} (h : csrWritable n = false) (v : Word) : csrWriteTile x n v = x := by
  unfold csrWriteTile
  split
  case h_7 => exact if_neg fun e => by simp [csrWritable, e.1, e.2] at h
  all_goals exact absurd h (by decide)

theorem csrWrite_fixed {n : Nat} (h : csrWritable n = false) (s : State) (t : Nat) (i : Fin 10) (v : Word) :
    csrRead (csrWrite s (.tile t i) n v) (.tile t i) n = csrRead s (.tile t i) n :=
  csrRead_congr ⟨_, getHart_csrWrite ..⟩ (getTile_csrWrite ..) (csrWriteHart_fixed _ h v) (csrWriteTile_fixed _ h v) (csrWrite_cycle ..)

theorem csrFixed_unwritable : ∀ n ∈ csrFixed, csrWritable n.toNat = false := by
  unfold csrFixed
  simp only [List.forall_mem_append, List.forall_mem_map, List.mem_range]
  exact ⟨by decide, ⟨by decide, by decide⟩, by decide⟩

/-! ## What a mask clears (R66, R67, R211) -/

theorem pre_cleared (b : Bool) (m : Word) : (w64 (b2n (b && !m.getLsbD 0))).toNat = if m.toNat % 2 = 1 then 0 else (w64 (b2n b)).toNat := by
  have bit : m.getLsbD 0 = decide (m.toNat % 2 = 1) := by rw [BitVec.getLsbD, Nat.testBit_zero]
  rw [bit]
  by_cases h : m.toNat % 2 = 1
  · rw [if_pos h, decide_eq_true h, Bool.not_true, Bool.and_false]; rfl
  · rw [if_neg h, decide_eq_false h, Bool.not_false, Bool.and_true]

theorem csrClear_eq_modHart (s : State) (h : HartId) (m : Word) :
    csrClear s h 0x002 m = modHart s h fun x => { x with pre := x.pre && !m.getLsbD 0 } := if_pos rfl

/-- The clearing of hst. -/
theorem csrClear_hst (s : State) (t : Nat) (i : Fin 10) (m : Word) :
    getHart (csrClear s (.tile t i) 0x002 m) (.tile t i) = { getHart s (.tile t i) with pre := (getHart s (.tile t i)).pre && !m.getLsbD 0 } :=
  (getHart_csrClear ..).trans (if_pos rfl)

/-- A tile whose oerr has been cleared under a mask. -/
def oerrCleared (m : Word) (x : Tile) : Tile :=
  let x := { x with oerrLost := x.oerrLost && !m.getLsbD 1 }
  if m.getLsbD 0 then { x with oerrErr := false, oerrCnt := 0, oerrloc := vmap x.oerrloc fun w => w &&& w64 (2 ^ 63 - 1) } else x

theorem csrClear_oerr (s : State) (t : Nat) (i : Fin 10) (m : Word) : csrClear s (.tile t i) 0x050 m = modTile s t (oerrCleared m) := rfl

theorem oerrOf_cleared (x : Tile) (m : Word) : (oerrOf (oerrCleared m x)).toNat =
    (if m.toNat % 2 = 1 then 0 else (oerrOf x).toNat % 2 + (oerrOf x).toNat / 65536 * 65536) +
      (if m.toNat / 2 % 2 = 1 then 0 else (oerrOf x).toNat / 2 % 2 * 2) := by
  have bit0 : m.getLsbD 0 = decide (m.toNat % 2 = 1) := by rw [BitVec.getLsbD, Nat.testBit_zero]
  have bit1 : m.getLsbD 1 = decide (m.toNat / 2 % 2 = 1) := by rw [BitVec.getLsbD, Nat.testBit_succ, Nat.testBit_zero]
  have small (b : Bool) : b2n b ≤ 1 := by cases b <;> decide
  have e := small x.oerrErr
  have l := small x.oerrLost
  have lost : b2n (x.oerrLost && !m.getLsbD 1) = if m.toNat / 2 % 2 = 1 then 0 else b2n x.oerrLost := by
    rw [bit1]; by_cases h : m.toNat / 2 % 2 = 1 <;> simp [h, b2n]
  have whole : (oerrOf x).toNat = b2n x.oerrErr + 2 * b2n x.oerrLost + 65536 * (x.oerrCnt % 65536) := w64_small (by omega)
  rw [whole]
  by_cases h : m.toNat % 2 = 1
  · have cleared : oerrOf (oerrCleared m x) = w64 (b2n false + 2 * b2n (x.oerrLost && !m.getLsbD 1) + 65536 * (0 % 65536)) := by
      simp only [oerrCleared, bit0, h, decide_true, if_true]; rfl
    rw [cleared, lost, if_pos h, show b2n false = 0 from rfl]
    split
    · rfl
    · rw [w64_small (by omega)]; omega
  · have kept : oerrOf (oerrCleared m x) = w64 (b2n x.oerrErr + 2 * b2n (x.oerrLost && !m.getLsbD 1) + 65536 * (x.oerrCnt % 65536)) := by
      simp only [oerrCleared, bit0, h, decide_false, if_false, Bool.false_eq_true]; rfl
    rw [kept, lost, if_neg h]
    split
    · rw [w64_small (by omega)]; omega
    · rw [w64_small (by omega)]; omega

theorem csrRead_loc (s : State) (t : Nat) (i : Fin 10) (k : Fin 8) :
    csrRead s (.tile t i) (0x051 + k.val) = (getTile s t).oerrloc.get k := by
  have := csrRead_oerrloc s t i k
  rwa [csrNo_toNat (by omega), w64_toNat] at this

theorem oerrloc_cleared (x : Tile) (m : Word) (k : Fin 8) : ((oerrCleared m x).oerrloc.get k).toNat =
    if m.toNat % 2 = 1 then (x.oerrloc.get k).toNat % 2 ^ 63 else (x.oerrloc.get k).toNat := by
  have bit0 : m.getLsbD 0 = decide (m.toNat % 2 = 1) := by rw [BitVec.getLsbD, Nat.testBit_zero]
  by_cases h : m.toNat % 2 = 1
  · have cleared : (oerrCleared m x).oerrloc = vmap x.oerrloc fun w => w &&& w64 (2 ^ 63 - 1) := by
      simp only [oerrCleared, bit0, h, decide_true, if_true]
    rw [cleared, get_vmap, if_pos h, BitVec.toNat_and, show (w64 (2 ^ 63 - 1)).toNat = 2 ^ 63 - 1 from rfl, Nat.and_two_pow_sub_one_eq_mod]
  · have kept : (oerrCleared m x).oerrloc = x.oerrloc := by
      simp only [oerrCleared, bit0, h, decide_false, if_false, Bool.false_eq_true]
    rw [kept, if_neg h]

/-- Clearing hst, and what that leaves of the error locations. -/
theorem csrClear_reads_hst (s : State) (t : Nat) (i : Fin 10) (m : Word) :
    (csrRead (csrClear s (.tile t i) 0x002 m) (.tile t i) 0x002).toNat = csrCleared 0x002 (csrRead s (.tile t i) 0x002).toNat m.toNat ∧
      ∀ k : Fin 8, csrRead (csrClear s (.tile t i) 0x002 m) (.tile t i) (0x051 + k.val) = csrRead s (.tile t i) (0x051 + k.val) := by
  refine ⟨?_, fun k => ?_⟩
  · show (w64 (b2n (getHart (csrClear s (.tile t i) 0x002 m) (.tile t i)).pre)).toNat = _
    rw [csrClear_hst]
    exact pre_cleared ..
  · rw [csrRead_loc, csrRead_loc, csrClear_eq_modHart, getTile_modHart_oerrloc]

/-- Clearing oerr, and with oerr.ERR the error locations. -/
theorem csrClear_reads_oerr (s : State) (t : Nat) (i : Fin 10) (m : Word) :
    (csrRead (csrClear s (.tile t i) 0x050 m) (.tile t i) 0x050).toNat = csrCleared 0x050 (csrRead s (.tile t i) 0x050).toNat m.toNat ∧
      ∀ k : Fin 8, (csrRead (csrClear s (.tile t i) 0x050 m) (.tile t i) (0x051 + k.val)).toNat =
        if m.toNat % 2 = 1 then (csrRead s (.tile t i) (0x051 + k.val)).toNat % 2 ^ 63 else (csrRead s (.tile t i) (0x051 + k.val)).toNat := by
  have tile : getTile (csrClear s (.tile t i) 0x050 m) t = oerrCleared m (getTile s t) := getTile_setTile_same ..
  refine ⟨?_, fun k => ?_⟩
  · show (oerrOf (getTile (csrClear s (.tile t i) 0x050 m) t)).toNat = _
    rw [tile]
    exact oerrOf_cleared ..
  · rw [csrRead_loc, csrRead_loc, tile, oerrloc_cleared]

/-! ## What neither changes -/

/-- Between the two states neither memory nor another hart has changed, nor a register of hart `h`. -/
def CsrFrame (s u : State) (h : HartId) : Prop :=
  u.mem = s.mem ∧ (∀ k : HartId, k ≠ h → getHart u k = getHart s k) ∧
    let x := getHart s h
    let y := getHart u h
    y.g = x.g ∧ y.e = x.e ∧ y.v = x.v ∧ y.k = x.k ∧ y.pc = x.pc ∧ y.status = x.status ∧ y.out = x.out

theorem csrWrite_frame (s : State) (t : Nat) (i : Fin 10) (n : Nat) (v : Word) : CsrFrame s (csrWrite s (.tile t i) n v) (.tile t i) := by
  refine ⟨modHart_mem .., fun k hk => ?_, ?_⟩
  · exact (getHart_modTile (csrWriteTile_harts ..) k).trans (getHart_modHart_other _ _ hk)
  · dsimp only
    rw [getHart_csrWrite]
    exact csrWriteHart_frame ..

theorem oerrCleared_harts (m : Word) (x : Tile) : (oerrCleared m x).harts = x.harts := by
  unfold oerrCleared
  dsimp only
  split <;> rfl

theorem csrClear_frame (s : State) (t : Nat) (i : Fin 10) (n : Nat) (m : Word) : CsrFrame s (csrClear s (.tile t i) n m) (.tile t i) := by
  by_cases hst : n = 0x002
  · subst hst
    refine ⟨csrClear_eq_modHart s _ m ▸ modHart_mem .., fun k hk => csrClear_eq_modHart s _ m ▸ getHart_modHart_other _ _ hk, ?_⟩
    dsimp only
    rw [csrClear_hst]
    exact ⟨rfl, rfl, rfl, rfl, rfl, rfl, rfl⟩
  · by_cases oerr : n = 0x050
    · subst oerr
      rw [csrClear_oerr]
      have same (k : HartId) : getHart (modTile s t (oerrCleared m)) k = getHart s k := getHart_modTile (oerrCleared_harts ..) k
      refine ⟨rfl, fun k _ => same k, ?_⟩
      dsimp only
      rw [same]
      exact ⟨rfl, rfl, rfl, rfl, rfl, rfl, rfl⟩
    · have none : csrClear s (.tile t i) n m = s := (if_neg hst).trans (if_neg oerr)
      rw [none]
      exact ⟨rfl, fun _ _ => rfl, rfl, rfl, rfl, rfl, rfl, rfl, rfl⟩

/-- Settles O6: each CSR with RW bits by the field that it writes (`csrWritten_writes`), the others by `csrWrite_fixed`. -/
theorem csrFieldsAfterWrite : Obligations.CsrFieldsAfterWrite := by
  unfold Obligations.CsrFieldsAfterWrite
  refine ⟨csrWritten_writes, fun n hn s t i v => csrWrite_fixed (csrFixed_unwritable n hn) s t i v, fun s t i m => ?_, fun s t i n v => ?_⟩
  · refine List.forall_mem_cons.mpr ⟨?_, List.forall_mem_singleton.mpr ?_⟩
    · obtain ⟨hst, locs⟩ := csrClear_reads_hst s t i m
      exact ⟨hst, fun k => by rw [if_neg fun e => absurd e.1 (by decide)]; exact congrArg _ (locs k)⟩
    · obtain ⟨oerr, locs⟩ := csrClear_reads_oerr s t i m
      refine ⟨oerr, fun k => (locs k).trans ?_⟩
      simp
  · exact List.forall_mem_cons.mpr ⟨csrWrite_frame s t i n.toNat v, List.forall_mem_singleton.mpr (csrClear_frame s t i n.toNat v)⟩

end Sys2Proof.Machine
end

section
/-! PROOF of O17: EXIT frees the slot, and what freeing ends beside leaves the slot free (`Kept`); SPAWN sends one message; its answer starts a
thread whose registers are those of reset but four (`freshThread_new`). -/

namespace Sys2Proof.Machine

open Sys2Proof.Claims

/-! ## EXIT (R79) -/

/-- What a slot that has become free keeps while its fills are dropped: its status, its g-registers, and every byte of memory. -/
structure Kept (h : HartId) (s u : State) : Prop where
  free : (getHart u h).status = .free
  regs : (getHart u h).g = (getHart s h).g
  mem : u.mem = s.mem
  stores : ∀ t x b, storeByte u t x b = storeByte s t x b

theorem storeByte_modHart (s : State) (h : HartId) (f : Hart → Hart) (t : Nat) (x : Store) (b : Nat) :
    storeByte (modHart s h f) t x b = storeByte s t x b := by
  cases x <;> simp [storeByte, storeMem]

theorem storeByte_acquire (s : State) (h : HartId) (t : Nat) (x : Store) (b : Nat) : storeByte (acquire s h) t x b = storeByte s t x b := by
  cases x <;> simp [storeByte, storeMem]

/-- A change of a hart keeps the slot where it keeps the slot's own hart. -/
theorem Kept.modHart {h : HartId} {s u : State} (hk : Kept h s u) (k : HartId) {f : Hart → Hart}
    (hf : k = h → (f (getHart u h)).status = .free ∧ (f (getHart u h)).g = (getHart u h).g) : Kept h s (modHart u k f) := by
  have hart : (getHart (Machine.modHart u k f) h).status = .free ∧ (getHart (Machine.modHart u k f) h).g = (getHart u h).g := by
    by_cases e : h = k
    · subst e; rw [getHart_modHart_same]; exact hf rfl
    · rw [getHart_modHart_other _ _ e]; exact ⟨hk.free, rfl⟩
  exact ⟨hart.1, hart.2.trans hk.regs, (modHart_mem ..).trans hk.mem, fun t x b => (storeByte_modHart ..).trans (hk.stores t x b)⟩

theorem Kept.acquire {h : HartId} {s u : State} (hk : Kept h s u) (k : HartId) : Kept h s (acquire u k) := by
  refine ⟨?_, ?_, (acquire_mem ..).trans hk.mem, fun t x b => (storeByte_acquire ..).trans (hk.stores t x b)⟩
  · rw [getHart_acquire]; exact hk.free
  · rw [getHart_acquire]; exact hk.regs

theorem Kept.fenceGoesOn {h : HartId} {s u : State} (hk : Kept h s u) (k : HartId) : Kept h s (fenceGoesOn u k) := by
  unfold Machine.fenceGoesOn
  split
  · next next waits =>
    split
    · have other : k ≠ h := fun e => by rw [e, hk.free] at waits; cases waits
      unfold complete completeAs
      exact (hk.acquire k).modHart k fun e => absurd e other
    · exact hk
  · exact hk

theorem Kept.awaitDone {h : HartId} {s u : State} (hk : Kept h s u) (k : HartId) (a : Await) : Kept h s (awaitDone u k a) :=
  (hk.modHart k fun _ => ⟨hk.free, rfl⟩).fenceGoesOn k

theorem storeByte_modTile {s : State} {t : Nat} {f : Tile → Tile} (hf : hartsAndStores (f (getTile s t)) = hartsAndStores (getTile s t))
    (v : Nat) (x : Store) (b : Nat) : storeByte (modTile s t f) v x b = storeByte s v x b := by
  unfold storeByte
  rw [getTile_modTile]
  split
  · next e => rw [storeMem_congr hf, e]
  · rfl

theorem Kept.modTile {h : HartId} {s u : State} (hk : Kept h s u) (t : Nat) {f : Tile → Tile}
    (hf : hartsAndStores (f (getTile u t)) = hartsAndStores (getTile u t)) : Kept h s (modTile u t f) := by
  have harts : (f (getTile u t)).harts = (getTile u t).harts := (Prod.mk.inj hf).1
  exact ⟨by rw [getHart_modTile harts]; exact hk.free, by rw [getHart_modTile harts]; exact hk.regs, hk.mem,
    fun v x b => (storeByte_modTile hf v x b).trans (hk.stores v x b)⟩

theorem dropFills_kept {h : HartId} {s u : State} (hk : Kept h s u) (t : Nat) (i : Fin 10) : Kept h s (dropFills u t i) := by
  refine List.foldlRecOn (motive := Kept h s) _ _ (hk.modTile t rfl) fun v hv f _ => ?_
  split
  · exact hv.awaitDone _ _
  · exact hv

/-- The hart of a slot that becomes free. -/
def freedSlot (x : Hart) : Hart := { x with status := .free, fork := [], forkFaults := [], yield := [] }

theorem freeSlot_kept (s : State) (t : Nat) (i : Fin 10) : Kept (.tile t i) s (freeSlot s t i) := by
  have orphans (k : HartId) : getHart (orphanCopies s t i) k = getHart s k := getHart_modTile rfl k
  have freed : Kept (.tile t i) s (modHart (orphanCopies s t i) (.tile t i) freedSlot) := by
    refine ⟨?_, ?_, modHart_mem .., fun v x b => (storeByte_modHart ..).trans (storeByte_modTile rfl v x b)⟩
    · rw [getHart_modHart_same]; rfl
    · rw [getHart_modHart_same, orphans]; rfl
  exact dropFills_kept freed t i

theorem exitThread_frees {s : State} {t : Nat} {i : Fin 10} (h : Here s t i) (out : (me s).out = []) (stack : (me s).stack = []) :
    exitThread s = .next (freeSlot s t i) := by
  rw [exitThread, inSet_pass _ (threadOnly_here h), drained_pass _ out, stack, h.1]

theorem exitThread_returns {s : State} {t : Nat} {i : Fin 10} (h : Here s t i) (out : (me s).out = []) {f : Frame} {r : List Frame}
    (stack : (me s).stack = f :: r) :
    exitThread s = .next (complete (modHart s s.cur fun h => { wg h f.d 0 with stack := r, path := f.path }) s.cur f.ret) := by
  rw [exitThread, inSet_pass _ (threadOnly_here h), drained_pass _ out, stack]
  simp only [goto, modMe_eq, modHart_cur]

/-! ## SPAWN (R247 to R249) -/

theorem childPath_eq (p : Word) (idx : Nat) : childPath p idx = pathOf p idx := rfl

theorem hashTile_eq (gid cp : Word) (w : Nat) : hashTile gid cp = spawnTarget true gid cp w := rfl

theorem tileOf_word (gid cp : Word) (w : Nat) : tileAt (bits w 0 8) (bits w 8 8) = spawnTarget false gid cp w := by
  simp [tileAt, bits, spawnTarget]

theorem inGid_of {gid : Word} {h : Hart} {w : Nat} {p : Word} (ok : spawnOk false gid h w p) : inGid gid (bits w 0 8) (bits w 8 8) = true := by
  obtain ⟨-, -, -, -, inside⟩ := ok
  simpa [inGid, bits, gidOx, gidOy, gidW, gidH] using inside rfl

/-- The checks of SPAWN, once they pass. -/
theorem spawnOk_checks {hashed : Bool} {gid : Word} {h : Hart} {a : Word} {p : Word} (ok : spawnOk hashed gid h a.toNat p) :
    ¬ (a.toNat / 2 ^ 24 ≠ 0 ∨ (hashed = true ∧ a.toNat % 2 ^ 16 ≠ 0)) ∧ p.getLsbD 0 = false ∧ pathDepth h.path ≠ 5 ∧
      (!hashed && !inGid gid (bits a.toNat 0 8) (bits a.toNat 8 8)) = false := by
  obtain ⟨small, low, even, depth, -⟩ := id ok
  refine ⟨?_, ?_, depth, ?_⟩
  · rintro (big | ⟨e, odd⟩)
    · omega
    · exact odd (low e)
  · rw [BitVec.getLsbD, Nat.testBit_zero, even]; rfl
  · cases hashed with
    | true => rfl
    | false => rw [inGid_of ok]; rfl

theorem spawnThread_sends {hashed : Bool} {d a b : GReg} {s : State} {t : Nat} {i : Fin 10} (here : Here s t i)
    (hi : Issues s threadOnly [gId a, gId b] [gId d]) (stores : (me s).out.any isStoreOp = false) (quiet : s.noise = [])
    (ok : spawnOk hashed (getTile s t).gid (me s) (rg (me s) a).toNat (rg (me s) b)) :
    let h := me s
    let w := (rg h a).toNat
    let cp := pathOf h.path (w / 2 ^ 16 % 256)
    let m : Msg := ⟨s.ids + 1, s.cur, (getTile s t).ctx, spawnTarget hashed (getTile s t).gid cp w,
      .spawn (rg h b) #v[rg h 8, rg h 9, rg h 10, rg h 11] cp h.sup d (rg h a) (h.pc + 4), s.cycle, false, false, s.reads⟩
    spawnThread hashed d a b s = .next (parkHart { readFilled s [gId a, gId b] with ids := s.ids + 1, msgs := s.msgs ++ [m] } s.cur
      (.spawn (s.ids + 1))) := by
  intro h w cp m
  set s1 := readFilled s [gId a, gId b] with hs1
  obtain ⟨word, even, depth, inside⟩ := spawnOk_checks ok
  have read (k : State → Out) : sources [gId a, gId b] s k = k s1 := sources_pass k hi.full hi.sound
  have free : ∀ r ∈ [gId d], hazard (me s1) r = false := by simpa [s1] using hi.free
  have regs (r : GReg) : rg (me s1) r = rg h r := rg_readFilled ..
  have path : (me s1).path = h.path := by rw [hs1, me_readFilled]
  have sup : (me s1).sup = h.sup := by rw [hs1, me_readFilled]
  have pc : (me s1).pc = h.pc := by rw [hs1, me_readFilled]
  have out : (me s1).out.any isStoreOp = false := by rw [hs1, me_readFilled]; exact stores
  have cur : s1.cur = s.cur := readFilled_cur ..
  have mine : myTile s1 = t := myTile_of (by rw [cur, here.1]; rfl)
  have gid : (getTile s1 t).gid = (getTile s t).gid := getTile_readFilled_gid ..
  have ctx : hartCtx s1 s.cur = (getTile s t).ctx := by rw [here.1]; exact getTile_readFilled_ctx ..
  have noise : s1.noise = [] := (readFilled_noise ..).trans quiet
  have target : (if hashed = true then hashTile (getTile s t).gid cp else tileAt (bits w 0 8) (bits w 8 8)) =
      spawnTarget hashed (getTile s t).gid cp w := by
    cases hashed with
    | true => exact hashTile_eq ..
    | false => exact tileOf_word ..
  rw [spawnThread, inSet_pass _ hi.kind, read, dests_pass _ free]
  simp only [regs, path, mine, gid]
  rw [if_neg word, if_neg (by rw [even]; exact Bool.false_ne_true), if_neg depth, if_neg (by rw [inside]; exact Bool.false_ne_true), acked_pass _ out,
    onLoom_quiet noise]
  show Host.Outcome.next (parkHart { s1 with ids := s1.ids + 1, msgs := s1.msgs ++ [⟨s1.ids + 1, s1.cur, hartCtx s1 s1.cur,
    if hashed = true then hashTile (getTile s t).gid cp else tileAt (bits w 0 8) (bits w 8 8),
    .spawn (rg h b) #v[rg h 8, rg h 9, rg h 10, rg h 11] cp (me s1).sup d (rg h a) ((me s1).pc + 4), s1.cycle, false, false, s1.reads⟩] } s1.cur
    (.spawn (s1.ids + 1))) = _
  rw [target, sup, pc, cur, ctx, show s1.ids = s.ids from readFilled_ids .., show s1.msgs = s.msgs from readFilled_msgs ..,
    show s1.cycle = s.cycle from readFilled_cycle .., show s1.reads = s.reads from readFilled_reads ..]

/-! ## The answer (R249) -/

/-- Making notes good changes nothing of a hart but the errors of its cells. -/
theorem commitNote_hart (s : State) (n : ReadNote) (k : HartId) : ∃ l, getHart (commitNote s n) k = { getHart s k with flaws := l } := by
  have reports (u : State) (o : Option PendReport) : getHart (match o with
      | some r => { u with reports := u.reports ++ [r] }
      | none => u) k = getHart u k := by
    cases o with
    | none => rfl
    | some r => cases k <;> rfl
  unfold commitNote
  cases n.cell with
  | none => exact ⟨_, reports s n.report⟩
  | some c =>
    obtain ⟨h, c, f⟩ := c
    have found : ∃ l, getHart (findCell s h c f) k = { getHart s k with flaws := l } := by
      by_cases e : k = h
      · subst e
        rw [findCell_hart]
        split
        · exact ⟨_, rfl⟩
        · exact ⟨_, rfl⟩
      · have other := getHart_modHart_other s (fun x => if flawAt x.flaws c = some f then { x with flaws := flawRead x.flaws c f } else x) e
        refine ⟨(getHart s k).flaws, Eq.trans ?_ other⟩
        cases f <;> cases k <;> rfl
    obtain ⟨l, hl⟩ := found
    exact ⟨l, (reports _ _).trans hl⟩

theorem commitNotes_hart (s : State) (l : List ReadNote) (k : HartId) : ∃ m, getHart (commitNotes s l) k = { getHart s k with flaws := m } := by
  refine List.foldlRecOn (motive := fun u => ∃ m, getHart u k = { getHart s k with flaws := m }) _ _ ⟨_, rfl⟩ ?_
  rintro u ⟨m, hm⟩ n -
  obtain ⟨m', hm'⟩ := commitNote_hart u n k
  exact ⟨m', by rw [hm', hm]⟩

theorem freshThread_regs (pc path : Word) (sup : Bool) (args : Vector Word 4) (r : GReg) : rg (freshThread pc path sup args) r =
    if r = 8 then args.get 0 else if r = 9 then args.get 1 else if r = 10 then args.get 2 else if r = 11 then args.get 3 else 0 := by
  have zero : rg { Hart.reset with status := .ready, pc := pc, path := path, sup := sup } r = 0 := by simp [rg, Hart.reset, Vector.get]
  unfold freshThread
  by_cases h11 : r = 11
  · subst h11; exact rg_wg_same _ _ (by decide)
  · rw [rg_wg_other _ _ h11]
    by_cases h10 : r = 10
    · subst h10; exact rg_wg_same _ _ (by decide)
    · rw [rg_wg_other _ _ h10]
      by_cases h9 : r = 9
      · subst h9; exact rg_wg_same _ _ (by decide)
      · rw [rg_wg_other _ _ h9]
        by_cases h8 : r = 8
        · subst h8; exact rg_wg_same _ _ (by decide)
        · rw [rg_wg_other _ _ h8, zero, if_neg h8, if_neg h9, if_neg h10, if_neg h11]

/-- Where every g-register is full, every one is after a write. -/
theorem wg_full {h : Hart} {r : GReg} {x : Word} (full : h.gF = 0xFFFF_FFFF) : (wg h r x).gF = 0xFFFF_FFFF := by
  unfold wg
  split
  · exact full
  · show h.gF ||| _ = _
    rw [full]
    exact BitVec.allOnes_or

/-- A thread that leaves *free*, whatever its barriers, its last issue and the errors of its cells (R55). -/
theorem freshThread_new (pc path : Word) (sup : Bool) (args : Vector Word 4) (b : Vector (BitVec 16) 3) (o : Option Nat) (l : List (CellLoc × Flaw)) :
    NewThread { freshThread pc path sup args with bar := b, issued := o, flaws := l } pc path sup args := by
  have kept {α : Type} (p : Hart → α) (hp : ∀ h r x, p (wg h r x) = p h) :
      p (freshThread pc path sup args) = p { Hart.reset with status := .ready, pc := pc, path := path, sup := sup } := by
    unfold freshThread; rw [hp, hp, hp, hp]
  have full : (freshThread pc path sup args).gF = 0xFFFF_FFFF := wg_full (wg_full (wg_full (wg_full rfl)))
  refine ⟨kept (·.status) (by simp), kept (·.pc) (by simp), kept (·.path) (by simp), kept (·.sup) (by simp), freshThread_regs pc path sup args, full,
    kept (·.eF) (by simp), kept (·.vF) (by simp), kept (·.kF) (by simp), fun r => (kept (re · r) (by simp [re])).trans ?_,
    fun r => (kept (rv · r) (by simp [rv])).trans ?_, fun r => (kept (rk · r) (by simp [rk])).trans ?_, kept (·.fflags) (by simp),
    kept (·.frm) (by simp), kept (·.pre) (by simp), kept (·.tvec) (by simp), kept (·.ss) (by simp), kept (·.inh) (by simp),
    kept (·.wlim) (by simp), kept (·.out) (by simp)⟩
  · simp [re, Hart.reset, Vector.get]
  · simp [rv, Hart.reset, Vector.get]
  · fin_cases r <;> rfl

theorem freeCandidate_some {x : Tile} {k : Fin 10} (slot : k.val < x.slots) (free : (x.harts.get k).status = .free)
    (first : ∀ j < k, (x.harts.get j).status ≠ .free) : freeCandidate x = some k := by
  refine List.find?_eq_some_iff_getElem.mpr ⟨by simp [slot, free], k.val, by simp, by simp, fun j hj => ?_⟩
  have other := first ⟨j, by omega⟩ hj
  simp [other]

theorem freeCandidate_none {x : Tile} (busy : ∀ k : Fin 10, k.val < x.slots → (x.harts.get k).status ≠ .free) : freeCandidate x = none := by
  refine List.find?_eq_none.mpr fun k _ e => ?_
  rw [Bool.and_eq_true, decide_eq_true_eq, beq_iff_eq] at e
  exact busy k e.1 e.2

/-- The message that an event of a message comes about for, when it asks for a child and its sender waits. -/
structure Asks (s : State) (m : Msg) (pc : Word) (args : Vector Word 4) (path : Word) (sup : Bool) (d : GReg) (word next : Word) : Prop where
  event : s.ev = .msg m.id
  found : s.msgs.find? (·.id == m.id) = some m
  body : m.body = .spawn pc args path sup d word next
  waits : (getHart s m.hart).status = .parked (.spawn m.id)
  sound : m.bad = false

/-- The state without the message. -/
def withoutMsg (s : State) (id : Nat) : State := { s with msgs := s.msgs.filter (·.id != id) }

theorem getHart_withoutMsg (s : State) (id : Nat) (h : HartId) : getHart (withoutMsg s id) h = getHart s h := by cases h <;> rfl

section
variable {s : State} {m : Msg} {pc path word next : Word} {args : Vector Word 4} {sup : Bool} {d : GReg}

/-- The target answers: with its lowest free slot, or inline. -/
theorem execSpawnAnswer_eq (hm : Asks s m pc args path sup d word next) : exec .spawnAnswer s =
    match freeCandidate (getTile (withoutMsg s m.id) m.target) with
    | some i => .next (complete (modHart (commitNotes (startChild (withoutMsg s m.id) m.target i { freshThread pc path sup args with
        issued := (getHart (withoutMsg s m.id) (.tile m.target i)).issued }) m.notes) m.hart fun x => wg x d 1) m.hart next)
    | none => if (getHart (withoutMsg s m.id) m.hart).stack.length = 15 then .next (trapOn (withoutMsg s m.id) m.hart 0x0C word)
      else .next (complete (modHart (commitNotes (withoutMsg s m.id) m.notes) m.hart fun x =>
        { x with stack := ⟨next, d, x.path⟩ :: x.stack, path := path }) m.hart pc) := by
  have waits : spawnWaits s m = true := beq_iff_eq.mpr hm.waits
  show execSpawnAnswer s = _
  unfold execSpawnAnswer
  split
  · next id e =>
    obtain rfl : id = m.id := by rw [hm.event] at e; cases e; rfl
    simp only [hm.found, hm.body, waits, hm.sound, Bool.not_true, Bool.false_eq_true, if_false]
    rfl
  · next no => exact absurd hm.event (no _)

theorem execSpawnAnswer_starts (hm : Asks s m pc args path sup d word next) {k : Fin 10} (free : freeCandidate (getTile s m.target) = some k) :
    ∃ o, exec .spawnAnswer s = .next (complete (modHart (commitNotes (startChild (withoutMsg s m.id) m.target k
      { freshThread pc path sup args with issued := o }) m.notes) m.hart fun x => wg x d 1) m.hart next) := by
  have here : freeCandidate (getTile (withoutMsg s m.id) m.target) = some k := free
  exact ⟨_, by rw [execSpawnAnswer_eq hm, here]⟩

theorem execSpawnAnswer_inline (hm : Asks s m pc args path sup d word next) (busy : freeCandidate (getTile s m.target) = none)
    (room : (getHart s m.hart).stack.length ≠ 15) :
    exec .spawnAnswer s = .next (complete (modHart (commitNotes (withoutMsg s m.id) m.notes) m.hart fun x =>
      { x with path := path, stack := ⟨next, d, x.path⟩ :: x.stack }) m.hart pc) := by
  have here : freeCandidate (getTile (withoutMsg s m.id) m.target) = none := busy
  rw [execSpawnAnswer_eq hm, here]
  exact if_neg (by rw [getHart_withoutMsg]; exact room)
end

/-- The slot on which a child starts. -/
theorem getHart_startChild (s : State) (t : Nat) (k : Fin 10) (h : Hart) :
    getHart (startChild s t k h) (.tile t k) = { h with bar := vmap (getTile s t).gen (· + 1) } := by
  show (getTile (startChild s t k h) t).harts.get k = _
  rw [startChild, modTile, getTile_setTile_same, vector_get_set_same]

/-- The child starts with new registers, and its parent goes on with 1 in `d`. -/
theorem spawned (s : State) (t : Nat) (k : Fin 10) (h : HartId) (other : h ≠ .tile t k) (notes : List ReadNote) (d : GReg)
    (pc path next : Word) (sup : Bool) (args : Vector Word 4) (o : Option Nat) :
    let u := complete (modHart (commitNotes (startChild s t k { freshThread pc path sup args with issued := o }) notes) h fun x => wg x d 1) h next
    NewThread (getHart u (.tile t k)) pc path sup args ∧ (getHart u h).pc = next ∧ rg (getHart u h) d = if d = 0 then 0 else 1 := by
  intro u
  obtain ⟨l, notes_⟩ := commitNotes_hart (startChild s t k { freshThread pc path sup args with issued := o }) notes (.tile t k)
  refine ⟨?_, ?_, ?_⟩
  · have child : getHart u (.tile t k) = _ := getHart_complete_other _ _ other.symm
    rw [child, getHart_modHart_other _ _ other.symm, notes_, getHart_startChild]
    exact freshThread_new pc path sup args _ o l
  · rw [show getHart u h = _ from getHart_complete_same ..]
  · rw [show getHart u h = _ from getHart_complete_same .., getHart_modHart_same]
    show rg (wg _ d 1) d = _
    rw [rg_wg]
    by_cases z : d = 0
    · simp [z]
    · simp [z]

/-- Settles O17: EXIT by `freeSlot_kept`, SPAWN by `spawnThread_sends`, the answer by what the target tile has (`execSpawnAnswer_eq`). -/
theorem spawnAndExit : Obligations.SpawnAndExit := by
  unfold Obligations.SpawnAndExit
  refine ⟨?_, fun d a b => ?_, ?_⟩
  · have exits (i : Instr) (hx : ∀ s, exec i s = exitThread s) : ∀ (s : State) (t : Nat) (k : Fin 10), Here s t k → (me s).out = [] →
        ((me s).stack = [] → ∃ s', exec i s = .next s' ∧ (getHart s' s.cur).status = .free ∧ (getHart s' s.cur).g = (me s).g ∧ s'.mem = s.mem ∧
          ∀ u x b, storeByte s' u x b = storeByte s u x b) ∧
        (∀ f r, (me s).stack = f :: r →
          exec i s = .next (complete (modHart s s.cur fun h => { wg h f.d 0 with stack := r, path := f.path }) s.cur f.ret)) := by
      intro s t k here out
      refine ⟨fun stack => ?_, fun f r stack => (hx s).trans (exitThread_returns here out stack)⟩
      have kept := freeSlot_kept s t k
      rw [← here.1] at kept
      exact ⟨_, (hx s).trans (exitThread_frees here out stack), kept.free, kept.regs, kept.mem, kept.stores⟩
    exact List.forall_mem_cons.mpr ⟨exits .exit fun _ => rfl, List.forall_mem_singleton.mpr (exits .cExit fun _ => rfl)⟩
  · exact List.forall_mem_cons.mpr ⟨fun s t i here hi stores quiet => spawnThread_sends (hashed := false) here hi stores quiet,
      List.forall_mem_singleton.mpr fun s t i here hi stores quiet => spawnThread_sends (hashed := true) here hi stores quiet⟩
  · intro s id t c h pc path word next args sup d since e notes event waits found
    have asks : Asks s ⟨id, h, c, t, .spawn pc args path sup d word next, since, e, false, notes⟩ pc args path sup d word next :=
      ⟨event, found, rfl, waits, rfl⟩
    refine ⟨fun k slot free other first => ?_, fun busy room => execSpawnAnswer_inline asks (freeCandidate_none busy) room⟩
    obtain ⟨o, ran⟩ := execSpawnAnswer_starts asks (freeCandidate_some slot free first)
    exact ⟨_, ran, spawned (withoutMsg s id) t k h other notes d pc path next sup args o⟩

end Sys2Proof.Machine
end

section
/-! PROOF of O19: the checks of PUTR by the parts of its designation (`putrTarget_parts`); the fill by what makes it good. -/

namespace Sys2Proof.Machine

open Sys2Proof.Claims

/-! ## The designation (R83) -/

/-- A designation that names a register of a thread gives its register, its tile and its slot. -/
theorem putrTarget_parts {v : Nat} {r : RegId} {u : Nat} {k : Fin 10} (h : putrTarget v = some (r, u, k)) :
    putrReg v = some r ∧ putrTile v = some u ∧ putrSlot v = k := by
  unfold putrTarget at h
  dsimp only at h
  split at h
  · next ok =>
    obtain ⟨small, b19, b22, hx, hy, cls⟩ := ok
    simp only [Option.some.injEq, Prod.mk.injEq] at h
    obtain ⟨rfl, rfl, rfl⟩ := h
    have legal : ¬ (v / 2 ^ 29 ≠ 0 ∨ bits v 19 1 ≠ 0 ∨ bits v 22 2 ≠ 0) := by unfold bits; omega
    have inside : ¬ (bits v 0 8 > 71 ∨ bits v 8 8 > 63) := by unfold bits; omega
    refine ⟨?_, ?_, rfl⟩
    · rw [putrReg, if_neg legal]
      obtain ⟨zero, index⟩ | ⟨one, index⟩ := cls
      · have c : bits v 20 2 = 0 := zero
        obtain ⟨j, hj⟩ : ∃ j, v / 2 ^ 24 % 32 = j + 1 := ⟨_, (Nat.succ_pred index).symm⟩
        have i : bits v 24 5 = j + 1 := hj
        rw [c, i, if_pos zero, hj]
        rfl
      · have c : bits v 20 2 = 1 := one
        rw [c, if_neg (by omega)]
        exact if_pos index
    · rw [putrTile, if_neg inside]
      simp [tileAt, bits]
  · cases h

/-! ## What the first read of a filled register leaves (R112) -/

/-- A hart keeps everything but which of its registers were filled. -/
theorem getHart_readFilled_any (s : State) (rs : List RegId) (h : HartId) : ∃ l, getHart (readFilled s rs) h = { getHart s h with filled := l } := by
  by_cases e : h = s.cur
  · subst e; exact ⟨_, getHart_readFilled ..⟩
  · exact ⟨_, getHart_readFilled_other s rs e⟩

theorem pairFlights_readFilled (s : State) (rs : List RegId) (t u : Nat) : pairFlights (readFilled s rs) t u = pairFlights s t u := by
  have out (i : Fin 10) : ((getTile (readFilled s rs) t).harts.get i).out = ((getTile s t).harts.get i).out := by
    obtain ⟨l, e⟩ := getHart_readFilled_any s rs (.tile t i)
    show (getHart (readFilled s rs) (.tile t i)).out = (getHart s (.tile t i)).out
    rw [e]
  unfold pairFlights
  simp only [out, readFilled_msgs]

theorem partOf_readFilled (s : State) (rs : List RegId) (t : Nat) : partOf (readFilled s rs) t = partOf s t := by
  unfold partOf
  rw [readFilled_parts]

theorem pairOrder_pass {holds : Bool} {u : Nat} {s : State} (k : State → Out) (h : pairFlights s (myTile s) u = []) :
    pairOrder holds u s k = k s := if_pos h

/-! ## PUTR (R84) -/

/-- Issuing an operation that an event of its own ends: the hart goes on, and the operation stands last among the outstanding ones. -/
theorem issueAwait_hart (len la : Nat) (a : Await) (s : State) : ∃ u, issueAwait len la a s = .next u ∧ (getHart u s.cur).pc = (me s).pc + w64 len ∧
    (getHart u s.cur).out.getLast? = some { opAt (me s) la 0 [] 0 false .none with await := a } ∧ ∀ t, (getTile u t).fills = (getTile s t).fills := by
  let o : LongOp := ⟨lookahead s la + 1, 0, [], 0, false, [], a, false, false, [], .none⟩
  let f : Hart → Hart := fun x => { x with out := x.out ++ [o] }
  have pc : (me (modHart s s.cur f)).pc = (me s).pc := by rw [me, modHart_cur, getHart_modHart_same]; rfl
  have cur : (modHart s s.cur f).cur = s.cur := modHart_cur ..
  have hart : getHart (complete (modHart s s.cur f) s.cur ((me s).pc + w64 len)) s.cur = _ := getHart_complete_same ..
  refine ⟨complete (modHart s s.cur f) s.cur ((me s).pc + w64 len), ?_, ?_, ?_, fun t => ?_⟩
  · show Host.Outcome.next (complete (modHart s s.cur f) (modHart s s.cur f).cur ((me (modHart s s.cur f)).pc + w64 len)) = _
    rw [pc, cur]
  · rw [hart]
  · rw [hart, getHart_modHart_same]
    show (spendShadow ((me s).out ++ [o])).getLast? = _
    rw [spendShadow, List.map_append]
    exact List.getLast?_concat ..
  · exact (getTile_modHart_fills ..).trans (getTile_modHart_fills ..)

theorem putrTargetOk_readFilled {s : State} {t u : Nat} {k : Fin 10} (rs : List RegId) (part : (partOf s t).isSome = true)
    (same : partOf s u = partOf s t) (slot : k.val < 7) (busy : (getHart s (.tile u k)).status ≠ .free) :
    putrTargetOk (readFilled s rs) t u k = true := by
  obtain ⟨l, e⟩ := getHart_readFilled_any s rs (.tile u k)
  have status : ((getTile (readFilled s rs) u).harts.get k).status = (getHart s (.tile u k)).status := by
    show (getHart (readFilled s rs) (.tile u k)).status = _
    rw [e]
  unfold putrTargetOk
  rw [partOf_readFilled, partOf_readFilled, status]
  simp [part, same, slot, busy]

theorem me_modTile {s : State} {t : Nat} {f : Tile → Tile} (hf : (f (getTile s t)).harts = (getTile s t).harts) : me (modTile s t f) = me s :=
  getHart_modTile hf _

theorem me_withIds (s : State) (n : Nat) : me { s with ids := n } = me s := by
  show getHart { s with ids := n } s.cur = getHart s s.cur
  cases s.cur <;> rfl

theorem execPutr_sends {la : La} {a b : GReg} {s : State} {t : Nat} {i : Fin 10} {r : RegId} {u : Nat} {k : Fin 10} (here : Here s t i)
    (hi : Issues s threadOnly [gId a, gId b] []) (room : (me s).out.length < 4) (stores : (me s).out.any isStoreOp = false)
    (target : putrTarget (rg (me s) a).toNat = some (r, u, k)) (slot : k.val < 7) (busy : (getHart s (.tile u k)).status ≠ .free)
    (part : (partOf s t).isSome = true) (same : partOf s u = partOf s t) (space : (getTile s u).fills.length < 8) (pair : pairFlights s t u = [])
    (quiet : s.noise = []) :
    exec (.putr la a b) s = issueAwait 4 la.val (.fill (s.ids + 1)) (modTile { readFilled s [gId a, gId b] with ids := s.ids + 1 } u fun x =>
      { x with fills := x.fills ++ [⟨s.ids + 1, k, r, rg (me s) b, some s.cur, false⟩] }) := by
  obtain ⟨reg, tile, slot_⟩ := putrTarget_parts target
  set s1 := readFilled s [gId a, gId b] with hs1
  have cur : s1.cur = s.cur := readFilled_cur ..
  have mine : myTile s1 = t := myTile_of (by rw [cur, here.1]; rfl)
  have read (k : State → Out) : sources [gId a, gId b] s k = k s1 := sources_pass k hi.full hi.sound
  have ok : putrTargetOk s1 t u k = true := putrTargetOk_readFilled _ part same slot busy
  have regs (r : GReg) : rg (me s1) r = rg (me s) r := rg_readFilled ..
  have out : (me s1).out.length < 4 := by rw [hs1, me_readFilled]; exact room
  have acks : (me s1).out.any isStoreOp = false := by rw [hs1, me_readFilled]; exact stores
  have flights : pairFlights s1 (myTile s1) u = [] := by rw [mine, hs1, pairFlights_readFilled, pair]
  have fills : ¬ (getTile s1 u).fills.length ≥ 8 := by rw [hs1, getTile_readFilled_fills]; omega
  have noise : s1.noise = [] := (readFilled_noise ..).trans quiet
  show execPutr la a b s = _
  rw [execPutr, inSet_pass _ hi.kind, read, roomForLong_pass _ out]
  simp only [regs, reg, tile, slot_, mine, ok, Bool.not_true, Bool.false_eq_true, if_false]
  rw [acked_pass _ acks, pairOrder_pass _ flights, if_neg fills, onLoom_quiet noise]
  have whole : (Arrived.whole == Arrived.bad) = false := rfl
  simp only [whole, Bool.false_eq_true, if_false, freshId, me_withIds, regs]
  rw [cur, show s1.ids = s.ids from readFilled_ids ..]

/-! ## The fill (R84, R112) -/

/-- The end of an awaited operation leaves other harts and the fills of every tile, and takes the operation from its hart. -/
theorem awaitDone_ends (s : State) (h : HartId) (a : Await) : (getHart (awaitDone s h a) h).out = (getHart s h).out.filter (·.await != a) ∧
    (∀ k, k ≠ h → getHart (awaitDone s h a) k = getHart s k) ∧ ∀ t, (getTile (awaitDone s h a) t).fills = (getTile s t).fills := by
  set u := modHart s h fun x => { x with out := x.out.filter fun o => o.await != a } with hu
  have hart : (getHart u h).out = (getHart s h).out.filter (·.await != a) := by rw [hu, getHart_modHart_same]
  have others (k : HartId) (hk : k ≠ h) : getHart u k = getHart s k := getHart_modHart_other _ _ hk
  have fills (t : Nat) : (getTile u t).fills = (getTile s t).fills := getTile_modHart_fills ..
  show (getHart (fenceGoesOn u h) h).out = _ ∧ (∀ k, k ≠ h → getHart (fenceGoesOn u h) k = _) ∧ ∀ t, (getTile (fenceGoesOn u h) t).fills = _
  unfold fenceGoesOn
  split
  · split
    · next none =>
      refine ⟨?_, fun k hk => ?_, fun t => ?_⟩
      · rw [getHart_complete_same, getHart_acquire, ← hart, none]; rfl
      · rw [getHart_complete_other _ _ hk, getHart_acquire, others k hk]
      · exact (getTile_modHart_fills ..).trans ((getTile_acquire_fills ..).trans (fills t))
    · exact ⟨hart, others, fills⟩
  · exact ⟨hart, others, fills⟩

theorem putHartReg_filled (h : Hart) (r : RegId) (v : Nat) : (putHartReg h r v).filled = h.filled := by
  unfold putHartReg
  cases r.cls with
  | g => exact wg_filled ..
  | e => rfl
  | v => rfl
  | k => exact wk_filled ..
  | c | q | latch => rfl

theorem makeFill_sound {f : Fill} (x : Hart) (sound : f.bad = false) : makeFill f x =
    { putHartReg x f.reg f.val.toNat with filled := f.reg :: x.filled.filter (· != f.reg) } := by
  simp [makeFill, sound, putHartReg_filled]

/-- The state behind the fill `f` of tile `t`, whose PUTR is hart `h`'s. -/
def putrFilled (s : State) (t : Nat) (f : Fill) (h : HartId) : State :=
  awaitDone (modHart (modTile s t fun x => { x with fills := x.fills.filter (·.id != f.id) }) (.tile t f.slot) (makeFill f)) h (.fill f.id)

theorem putrFill_fills {s : State} {t : Nat} {f : Fill} {h : HartId} (event : s.ev = .tileItem t f.id) (fills : (getTile s t).fills = [f])
    (sender : f.sender = some h) (runs : tileRuns s t = true) (empty : hartRegFull (getHart s (.tile t f.slot)) f.reg = false) :
    exec .putrFill s = .next (putrFilled s t f h) := by
  have due : fillable s t f = true := by
    have e : hartRegFull ((getTile s t).harts.get f.slot) f.reg = false := empty
    simp [fillable, runs, e, fills]
  show execPutrFill s = _
  unfold execPutrFill
  split
  · next u id e =>
    obtain ⟨rfl, rfl⟩ : u = t ∧ id = f.id := by rw [event] at e; cases e; exact ⟨rfl, rfl⟩
    rw [fills]
    simp only [List.find?_cons, beq_self_eq_true, due, Bool.not_true, Bool.false_eq_true, if_false, sender]
    rfl
  · next no => exact absurd event (no _ _)

/-- The fill writes the register of its slot, and the PUTR is outstanding no more. -/
theorem putrFilled_effect {s : State} {t : Nat} {f : Fill} {h : HartId} (fills : (getTile s t).fills = [f]) (sound : f.bad = false)
    (other : h ≠ .tile t f.slot) : (getTile (putrFilled s t f h) t).fills = [] ∧
      getHart (putrFilled s t f h) (.tile t f.slot) = { putHartReg (getHart s (.tile t f.slot)) f.reg f.val.toNat with
        filled := f.reg :: (getHart s (.tile t f.slot)).filled.filter (· != f.reg) } ∧
      (getHart (putrFilled s t f h) h).out = (getHart s h).out.filter fun o => o.await != .fill f.id := by
  set u := modTile s t fun x => { x with fills := x.fills.filter (·.id != f.id) } with hu
  have harts (k : HartId) : getHart u k = getHart s k := getHart_modTile rfl k
  have none : (getTile u t).fills = [] := by
    rw [hu, show getTile (modTile s t _) t = _ from getTile_setTile_same ..]
    simp [fills]
  obtain ⟨out, others, kept⟩ := awaitDone_ends (modHart u (.tile t f.slot) (makeFill f)) h (.fill f.id)
  refine ⟨?_, ?_, ?_⟩
  · exact (kept t).trans ((getTile_modHart_fills ..).trans none)
  · refine (others _ other.symm).trans ?_
    rw [getHart_modHart_same, harts, makeFill_sound _ sound]
  · refine out.trans ?_
    rw [getHart_modHart_other _ _ other, harts]

/-- Settles O19: PUTR by the checks it passes (`execPutr_sends`), the fill by `putrFilled_effect`. -/
theorem putr : Obligations.Putr := by
  unfold Obligations.Putr
  refine ⟨fun la a b s t i r u k here hi room stores target slot busy part same space pair quiet => ?_, ?_⟩
  · obtain ⟨v, ran, pc, last, fills⟩ := issueAwait_hart 4 la.val (.fill (s.ids + 1))
      (modTile { readFilled s [gId a, gId b] with ids := s.ids + 1 } u fun x =>
        { x with fills := x.fills ++ [⟨s.ids + 1, k, r, rg (me s) b, some s.cur, false⟩] })
    set w := modTile { readFilled s [gId a, gId b] with ids := s.ids + 1 } u fun x =>
        { x with fills := x.fills ++ [⟨s.ids + 1, k, r, rg (me s) b, some s.cur, false⟩] } with hw
    have cur : w.cur = s.cur := readFilled_cur ..
    have hart : me w = me (readFilled s [gId a, gId b]) := by
      rw [hw]
      exact (me_modTile (by rfl)).trans (me_withIds ..)
    rw [cur, hart, me_readFilled] at pc last
    refine ⟨v, (execPutr_sends here hi room stores target slot busy part same space pair quiet).trans ran, ?_, pc, last⟩
    rw [fills, hw, show getTile (modTile _ u _) u = _ from getTile_setTile_same ..]
    exact congrArg (· ++ _) (getTile_readFilled_fills ..)
  · intro s t f h event fills sound sender other runs empty cls
    exact ⟨_, putrFill_fills event fills sender runs empty, putrFilled_effect fills sound other⟩

end Sys2Proof.Machine
end


section
/-! PROOF of O47: events of tiles, messages and dies. Each event that is due does one change of its state (an `exec_…_due` lemma each);
what a line of the darner finds is said once for its home (`findError_latent`). -/

namespace Sys2Proof.Machine

open Sys2Proof.Claims

/-! ## Reports of a tile (R142, R148, R368) -/

/-- A report of a tile is made, for whatever state its context and queue were read in. -/
theorem tileReport_reported {s x : State} {t kind d0 d1 : Nat} (hr : x.reports = s.reports) (hc : (getTile x t).ctx = (getTile s t).ctx)
    (hq : (getTile x t).repq = (getTile s t).repq) (hk : kind < 256) :
    reported s (tileReport x t kind 0 0 0 0 d0 d1) t kind d0 d1 := by
  obtain ⟨kindF, -, tileF, -, -, -, d0F, d1F⟩ := record_fields x kind 0 t 0 0 0 d0 d1
  exact ⟨_, by rw [← hr]; rfl, hc, hq, by rw [kindF, Nat.mod_eq_of_lt hk], tileF, d0F, d1F⟩

/-- A report whose stretch has been told is not due again. -/
theorem stepwatchDue_told {s : State} {t : Nat} (h : (getTile s t).waitTold = true) : stepwatchDue s t = false := by
  cases e : (getTile s t).waitSince <;> simp [stepwatchDue, e, h]

theorem stepwatchReport_due {s : State} {t : Nat} (ev : s.ev = .tile t) (due : stepwatchDue s t = true) :
    ∃ s', exec .stepwatchReport s = .next s' ∧ (getTile s' t).waitTold = true ∧
      reported s s' t 2 (heldDirections s t) (getTile s t).step.toNat ∧ stepwatchDue s' t = false := by
  let told := modTile s t fun x => { x with waitTold := true }
  have here : getTile told t = { getTile s t with waitTold := true } := getTile_setTile_same ..
  have run : exec .stepwatchReport s = .next (tileReport told t 2 0 0 0 0 (heldDirections s t) (getTile s t).step.toNat) := by
    simp [exec, execStepwatchReport, ev, due, told]
  have tellsIt : (getTile told t).waitTold = true := by rw [here]
  exact ⟨_, run, tellsIt, tileReport_reported rfl (by rw [here]) (by rw [here]) (by omega), stepwatchDue_told tellsIt⟩

theorem barrierWaitReport_due {s : State} {k : BarKind} {t : Nat} (ev : s.ev = .kindTile k t) (due : barWatchDue s k t = true) :
    ∃ s', exec .barrierWaitReport s = .next s' ∧ (getTile s' t).barTold.get (barIdx k) = true ∧
      reported s s' t 3 ((getTile s t).gen.get (barIdx k)).toNat (barIdx k).val := by
  let told := modTile s t fun x => { x with barTold := x.barTold.set (barIdx k) true }
  have here : getTile told t = { getTile s t with barTold := (getTile s t).barTold.set (barIdx k) true } := getTile_setTile_same ..
  have run : exec .barrierWaitReport s =
      .next (tileReport told t 3 0 0 0 0 ((getTile s t).gen.get (barIdx k)).toNat (barIdx k).val) := by
    simp [exec, execBarrierWaitReport, ev, due, told]
  have tellsIt : (getTile told t).barTold.get (barIdx k) = true := by rw [here]; exact Vector.getElem_set_self ..
  exact ⟨_, run, tellsIt, tileReport_reported rfl (by rw [here]) (by rw [here]) (by omega)⟩

/-! ## Sleep (R64) -/

theorem tileSleep_due {s : State} {t : Nat} (ev : s.ev = .tile t) (due : sleepDue s t = true) :
    exec .tileSleep s = .next (setTile s t { getTile s t with asleep := true }) := by
  simp [exec, execTileSleep, ev, due, modTile]

theorem tileWake_due {s : State} {t : Nat} (ev : s.ev = .tile t) (due : wakeDue s t = true) :
    exec .tileWake s = .next (setTile s t { getTile s t with
      asleep := false, wakeAt := s.cycle + wakeLatency (getTile s t).sleepDepth }) := by
  simp [exec, execTileWake, ev, due, modTile]

/-! ## The leveller (R253) -/

/-- The neighbour with the least work depends on the groups and the work of the tiles alone. -/
theorem leastNeighbour_congr {s x : State} (hg : ∀ u, (getTile x u).grp = (getTile s u).grp)
    (hw : ∀ u, (getTile x u).work = (getTile s u).work) (t : Nat) : leastNeighbour x t = leastNeighbour s t := by
  simp only [leastNeighbour, hg, hw]

theorem levellerTick_due {s : State} {t u : Nat} (ev : s.ev = .tile t) (due : levelDue s t = true) (least : leastNeighbour s t = some u)
    (ne : u ≠ t) (more : (getTile s u).work.length + 2 ≤ (getTile s t).work.length) :
    let n := ((getTile s t).work.length - (getTile s u).work.length) / 2
    ∃ s', exec .levellerTick s = .next s' ∧ (getTile s' t).work = (getTile s t).work.take ((getTile s t).work.length - n) ∧
      (getTile s' u).work = (getTile s t).work.drop ((getTile s t).work.length - n) ++ (getTile s u).work ∧
      (getTile s' t).level = (getTile s t).level - 4096 := by
  let x := modTile s t fun x => { x with level := x.level - 4096 }
  have here : getTile x t = { getTile s t with level := (getTile s t).level - 4096 } := getTile_setTile_same ..
  have work (v : Nat) : (getTile x v).work = (getTile s v).work := getTile_modTile_keeps (·.work) (fun _ => by dsimp only) s t v
  have grp (v : Nat) : (getTile x v).grp = (getTile s v).grp := getTile_modTile_keeps (·.grp) (fun _ => by dsimp only) s t v
  have least' : leastNeighbour x t = some u := (leastNeighbour_congr grp work t).trans least
  have run : exec .levellerTick s = .next (levelMove x t) := by
    simp only [exec, execLevellerTick, ev]
    rw [if_pos due]
  refine ⟨_, run, ?_⟩
  have few : ¬ (getTile s t).work.length < (getTile s u).work.length + 2 := by omega
  simp only [levelMove, least', work, if_neg few, getTile_modTile, if_neg ne, if_neg (Ne.symm ne), if_true]
  exact ⟨trivial, trivial, by rw [here]⟩

/-! ## The escape channel (R334) -/

/-- What is in flight between two tiles holds the messages of that pair. -/
theorem pairEscaped_of_msg {s : State} {y : Msg} {t u n : Nat} (hy : y ∈ s.msgs) (ht : tileOf? y.hart = some t) (hu : y.target = u)
    (ne : t ≠ u) (first : y.since < n) (esc : y.escape = true) : pairEscaped s t u n = true := by
  refine List.any_eq_true.mpr ⟨(y.since, y.escape), ?_, by simp [first, esc]⟩
  rw [pairFlights, if_neg ne]
  exact List.mem_append_right _ (List.mem_map.mpr ⟨y, List.mem_filter.mpr ⟨hy, by simp [ht, hu]⟩, rfl⟩)

/-- A message that is blocked, or follows an escaped one of its pair, escapes. -/
theorem escapeDue_of {s : State} {m : Msg} (out : m.escape = false)
    (h : ∃ t i, m.hart = .tile t i ∧ (m.since + (getTile s t).escwait.toNat ≤ s.cycle ∨
      t ≠ m.target ∧ ∃ y ∈ s.msgs, tileOf? y.hart = some t ∧ y.target = m.target ∧ y.since < m.since ∧ y.escape = true)) :
    escapeDue s m = true := by
  obtain ⟨t, i, hart, why⟩ := h
  have place : tileOf? m.hart = some t := by rw [hart]; rfl
  rcases why with long | ⟨ne, y, hy, ht, hu, first, esc⟩
  · simp [escapeDue, escapesNow, out, place, long]
  · simp [escapeDue, escapesNow, out, place, pairEscaped_of_msg hy ht hu ne first esc]

/-- The messages after the event of a message. -/
def escapedMsgs (s : State) (id : Nat) : List Msg :=
  s.msgs.map fun m => if (m.id == id && escapeDue s m) then { m with escape := true } else m

theorem escapeEntry_msg {s : State} {id : Nat} (ev : s.ev = .msg id) : exec .escapeEntry s = .next { s with msgs := escapedMsgs s id } := by
  simp [exec, execEscapeEntry, ev, escapedMsgs]

theorem escapedMsgs_ids (s : State) (id : Nat) : (escapedMsgs s id).map (·.id) = s.msgs.map (·.id) := by
  rw [escapedMsgs, List.map_map]
  refine List.map_congr_left fun m _ => ?_
  simp only [Function.comp_apply]
  split <;> rfl

theorem mem_escapedMsgs {s : State} {m : Msg} (hm : m ∈ s.msgs) (due : escapeDue s m = true) :
    { m with escape := true } ∈ escapedMsgs s m.id :=
  List.mem_map.mpr ⟨m, hm, by simp [due]⟩

theorem opAccess_escapedOp {o : LongOp} {a : MemAcc} (h : opAccess o = some a) : opAccess (escapedOp o) = some { a with escape := true } := by
  cases e : o.fx <;> simp_all [opAccess, escapedOp]

theorem escapeEntry_op {s : State} {t u i : Nat} {k : Fin 10} {o : LongOp} {a : MemAcc} (ev : s.ev = .op (.tile t k) i)
    (at_ : (getHart s (.tile t k)).out[i]? = some o) (acc : opAccess o = some a) (goal : a.tile = some u) (ne : u ≠ t) (out : a.escape = false)
    (long : o.due + (getTile s t).escwait.toNat ≤ s.cycle) :
    ∃ s' o', exec .escapeEntry s = .next s' ∧ (getHart s' (.tile t k)).out[i]? = some o' ∧ opAccess o' = some { a with escape := true } ∧
      (getHart s' (.tile t k)).g = (getHart s (.tile t k)).g ∧ s'.mem = s.mem := by
  have due : opEscapes s (.tile t k) o = true := by simp [opEscapes, tileOf?, acc, goal, ne, out, escapesNow, long]
  have run : exec .escapeEntry s = .next (modHart s (.tile t k) fun x =>
      { x with out := x.out.modify i fun o => if opEscapes s (.tile t k) o then escapedOp o else o }) := by
    simp [exec, execEscapeEntry, ev]
  refine ⟨_, escapedOp o, run, ?_, opAccess_escapedOp acc, ?_, modHart_mem ..⟩
  · simp [at_, due]
  · simp

/-! ## Errors at their home (R296, R301) -/

/-- The die of a line. -/
def lineDie (line : Nat) : Fin 4 := Fin.ofNat 4 (sliceOf (line * 64) / 32)

/-- What finding the error of a line leaves as it was: all but the errors, the poison, and the counts of the line's die. -/
structure FoundIn (line : Nat) (s t : State) : Prop where
  mem : t.mem = s.mem
  cycle : t.cycle = s.cycle
  darn (d : Fin 4) : (t.dies.get d).darn = (s.dies.get d).darn
  clean : ∀ l ∈ t.gLatent, l.1 ≠ line
  unc : (line, true) ∈ s.gLatent → (line, false) ∉ s.gLatent → line ∈ t.gPoison ∧
    (line ∉ s.gPoison → (errOf s (lineDie line)).mue < 2 ^ 64 - 1 → (errOf t (lineDie line)).mue = (errOf s (lineDie line)).mue + 1)
  cor : (line, false) ∈ s.gLatent → (line, true) ∉ s.gLatent → t.gPoison = s.gPoison ∧
    ((errOf s (lineDie line)).mce < 2 ^ 64 - 1 → (errOf t (lineDie line)).mce = (errOf s (lineDie line)).mce + 1)

theorem satAdd_below {n : Nat} (h : n < 2 ^ 64 - 1) : satAdd n = n + 1 := if_pos (by omega)

theorem countErr_get (s : State) (d : Fin 4) (f : ErrBlock → ErrBlock) :
    (countErr s d f).dies.get d = { s.dies.get d with err := f (s.dies.get d).err } := vector_get_set_same ..

theorem countErr_darn (s : State) (d e : Fin 4) (f : ErrBlock → ErrBlock) :
    ((countErr s d f).dies.get e).darn = (s.dies.get e).darn := by
  by_cases h : e = d
  · subst h; rw [countErr_get]
  · rw [countErr, vector_get_set_other _ _ h]

/-- The first error of a line, where one kind alone is there. -/
theorem find_line {l : List (Nat × Bool)} {line : Nat} {unc : Bool} (there : (line, unc) ∈ l) (other : (line, !unc) ∉ l) :
    l.find? (·.1 == line) = some (line, unc) := by
  cases e : l.find? (·.1 == line) with
  | none => exact absurd (List.find?_eq_none.mp e _ there) (by simp)
  | some x =>
    obtain ⟨k, b⟩ := x
    obtain rfl : k = line := by simpa using List.find?_some e
    have : b ≠ !unc := fun h => other (h ▸ List.mem_of_find?_eq_some e)
    cases b <;> cases unc <;> simp_all

/-- No error of the line is left. -/
theorem line_filtered {l : List (Nat × Bool)} {line : Nat} : ∀ x ∈ l.filter (·.1 != line), x.1 ≠ line := by simp

theorem findError_found (s : State) (line : Nat) : FoundIn line s (findError s line) := by
  unfold findError
  split
  next absent =>
    have away (b : Bool) : (line, b) ∉ s.gLatent := fun h => absurd (List.find?_eq_none.mp absent _ h) (by simp)
    exact ⟨rfl, rfl, fun _ => rfl, by simpa using absent, fun h => absurd h (away true), fun h => absurd h (away false)⟩
  next k unc first =>
    obtain rfl : k = line := by simpa using List.find?_some first
    have other (b : Bool) (there : (k, b) ∈ s.gLatent) (alone : (k, !b) ∉ s.gLatent) : unc = b := by
      rw [find_line there alone] at first
      simp_all
    cases unc with
    | true =>
      have notCor (h : (k, false) ∈ s.gLatent) (a : (k, true) ∉ s.gLatent) : False := absurd (other false h a) (by simp)
      simp only [if_true]
      split
      next known =>
        exact ⟨rfl, rfl, fun _ => rfl, line_filtered, fun _ _ => ⟨by simpa using known, fun new => absurd (by simpa using known) new⟩,
          fun h a => (notCor h a).elim⟩
      next =>
        refine ⟨rfl, rfl, fun _ => countErr_darn .., line_filtered, fun _ _ => ⟨(mem_insNat _ _ _).mpr (.inl rfl), fun _ few => ?_⟩,
          fun h a => (notCor h a).elim⟩
        exact (congrArg (fun y : Die => y.err.mue) (countErr_get ..)).trans (satAdd_below few)
    | false =>
      simp only [Bool.false_eq_true, if_false]
      refine ⟨rfl, rfl, fun _ => countErr_darn .., line_filtered, fun h a => absurd (other true h a) (by simp), fun _ _ => ⟨rfl, fun few => ?_⟩⟩
      exact (congrArg (fun y : Die => y.err.mce) (countErr_get ..)).trans (satAdd_below few)

/-- A line without an error is met as it is. -/
theorem findError_clean {s : State} {line : Nat} (h : ∀ l ∈ s.gLatent, l.1 ≠ line) : findError s line = s := by
  have absent : s.gLatent.find? (·.1 == line) = none := List.find?_eq_none.mpr (by simpa using h)
  simp [findError, absent]

/-- An access to a line meets its error; the slice that it wakes is no more than awake. -/
theorem wakeSlice_found (s : State) (line : Nat) : FoundIn line s (wakeSlice s (line * 64)) := by
  have at_ : line * 64 / 64 = line := Nat.mul_div_cancel _ (by omega)
  have met : FoundIn line s (if s.gLatent = [] then s else findError s line) := by
    split
    next clean =>
      have met := findError_found s line
      rwa [findError_clean (by simp [clean])] at met
    next => exact findError_found s line
  obtain ⟨mem, cycle, darn, clean, unc, cor⟩ := met
  unfold wakeSlice
  rw [at_]
  exact ⟨mem, cycle, darn, clean, unc, cor⟩

/-! ## The darner (R301) -/

/-- The line that a die's darner is to check lies in the die's stacks. -/
theorem lineDie_darnLine (d : Fin 4) (k : Nat) : lineDie (darnLine d k) = d := by
  have hd := d.isLt
  have slice : sliceOf (darnLine d k * 64) / 32 = d.val := by
    simp only [sliceOf, darnLine, Config.hdmBase]
    omega
  rw [lineDie, slice]
  exact Fin.ext (Nat.mod_eq_of_lt hd)

/-- The darner's step after its line has been checked in `x`. -/
def darned (x : State) (d : Fin 4) : State :=
  let y := x.dies.get d
  let wrap := decide (y.darn + 1 ≥ darnLines)
  let e := if wrap then { y.err with dpass := satAdd y.err.dpass } else y.err
  { x with dies := x.dies.set d { y with darn := if wrap then 0 else y.darn + 1, darnAt := x.cycle, err := e } }

theorem darnerLine_due {s : State} {d : Fin 4} (ev : s.ev = .die d.val) (due : darnDue s d = true) :
    exec .darnerLine s = .next (darned (wakeSlice s (darnLine d (s.dies.get d).darn * 64)) d) := by
  have at_ : Fin.ofNat 4 d.val = d := Fin.ext (Nat.mod_eq_of_lt d.isLt)
  have once := findError_clean (wakeSlice_found s (darnLine d (s.dies.get d).darn)).clean
  simp only [exec, execDarnerLine, ev, at_, due, once]
  rfl

theorem darned_get (x : State) (d : Fin 4) : (darned x d).dies.get d =
    { x.dies.get d with
      darn := if decide ((x.dies.get d).darn + 1 ≥ darnLines) then 0 else (x.dies.get d).darn + 1, darnAt := x.cycle,
      err := if decide ((x.dies.get d).darn + 1 ≥ darnLines) then { (x.dies.get d).err with dpass := satAdd (x.dies.get d).err.dpass }
        else (x.dies.get d).err } :=
  vector_get_set_same ..

/-- The counts of errors that the darner's step leaves. -/
theorem darned_counts (x : State) (d : Fin 4) : (errOf (darned x d) d).mue = (errOf x d).mue ∧ (errOf (darned x d) d).mce = (errOf x d).mce := by
  simp only [errOf, darned_get]
  split <;> exact ⟨rfl, rfl⟩

/-! ## Power-down (R341) -/

theorem mem_foldl_insNat (ks l : List Nat) (x : Nat) : x ∈ ks.foldl insNat l ↔ x ∈ l ∨ x ∈ ks := by
  induction ks generalizing l with
  | nil => simp
  | cons k ks ih => rw [List.foldl_cons, ih, mem_insNat, List.mem_cons, or_comm (a := x = k), or_assoc]

theorem mem_quietSlices (s : State) (n : Nat) {i : Nat} (h : i < 128) : i ∈ quietSlices s n ↔ (alGet s.lastReq i).getD 0 + n ≤ s.cycle := by
  simp [quietSlices, h]

/-- The slices that a power-down adds. -/
theorem mem_powered (s : State) (n : Nat) (l : List Nat) {i : Nat} (h : i < 128) :
    i ∈ (quietSlices s n).foldl insNat l ↔ i ∈ l ∨ (alGet s.lastReq i).getD 0 + n ≤ s.cycle := by
  rw [mem_foldl_insNat, mem_quietSlices s n h]

/-- Settles O47: each event that is due by its own lemma; what the darner finds by `wakeSlice_found` at the home of its line. -/
theorem tileEvents : Obligations.TileEvents := by
  unfold Obligations.TileEvents
  refine ⟨fun s t ev => ⟨stepwatchReport_due ev, tileSleep_due ev, tileWake_due ev, fun u => levellerTick_due ev⟩,
    fun s k t => barrierWaitReport_due, ?_, fun s t u i k o a => escapeEntry_op, ?_, fun s => ⟨?_, ?_⟩⟩
  · intro s m l r ev parts _ out why
    have there : m ∈ s.msgs := by rw [parts]; simp
    exact ⟨_, escapeEntry_msg ev, mem_escapedMsgs there (escapeDue_of out why), escapedMsgs_ids s m.id, rfl⟩
  · intro s d ev due
    have found := wakeSlice_found s (darnLine d (s.dies.get d).darn)
    obtain ⟨mem, cycle, darn, clean, unc, cor⟩ := found
    rw [lineDie_darnLine] at unc cor
    refine ⟨_, darnerLine_due ev due, mem, clean, fun h a => ?_, fun h a => ?_, ?_, ?_⟩
    · obtain ⟨bad, count⟩ := unc h a
      exact ⟨bad, fun new few => (darned_counts _ d).1.trans (count new few)⟩
    · obtain ⟨same, count⟩ := cor h a
      exact ⟨same, fun few => (darned_counts _ d).2.trans (count few)⟩
    · rw [darned_get]; exact cycle
    · rw [darned_get, darn]; simp [darnLines, devSize]
  · exact ⟨_, rfl, fun i => mem_powered s 2400 s.chanDown, rfl⟩
  · exact ⟨_, rfl, fun i => mem_powered s 24000 s.selfRefresh, rfl⟩

end Sys2Proof.Machine
end


section
/-! PROOF of O10: LDG and STG. A translation may set bits of a table entry at its home and end waits there, but it leaves where every hart is, what
it has outstanding and its registers (`Carried`); so an access issues behind its translation as it would before it. An access is then performed at
the home of its physical address, or in the read cache of its tile. -/

namespace Sys2Proof.Machine

open Sys2Proof.Claims

/-! ## What a translation and a write at a home leave of every hart (R282, R304) -/

/-- What a hart is about stands: where it is, what it has outstanding, its registers; and no fence begins. -/
structure Goes (x y : Hart) : Prop where
  pc : y.pc = x.pc
  out : y.out = x.out
  ss : y.ss = x.ss
  g : y.g = x.g
  going : (∀ n, x.status ≠ .parked (.fence n)) → ∀ n, y.status ≠ .parked (.fence n)

theorem Goes.refl (x : Hart) : Goes x x := ⟨rfl, rfl, rfl, rfl, id⟩

theorem Goes.trans {x y z : Hart} (a : Goes x y) (b : Goes y z) : Goes x z :=
  ⟨b.pc.trans a.pc, b.out.trans a.out, b.ss.trans a.ss, b.g.trans a.g, b.going ∘ a.going⟩

/-- The same instruction executes in the same cycle, and every hart goes on with what it is about. -/
structure Carried (s t : State) : Prop where
  cur : t.cur = s.cur
  cycle : t.cycle = s.cycle
  hart : ∀ k, Goes (getHart s k) (getHart t k)

theorem Carried.refl (s : State) : Carried s s := ⟨rfl, rfl, fun _ => .refl _⟩

theorem Carried.trans {s t u : State} (a : Carried s t) (b : Carried t u) : Carried s u :=
  ⟨b.cur.trans a.cur, b.cycle.trans a.cycle, fun k => (a.hart k).trans (b.hart k)⟩

/-- The harts are those of the tiles and the menders. -/
theorem getHart_places {s t : State} (tiles : t.tiles = s.tiles) (menders : t.menders = s.menders) (k : HartId) : getHart t k = getHart s k := by
  cases k <;> simp only [getHart, getTile, getMender, tiles, menders]

section
variable {a s : State} (hs : Carried a s)
include hs

/-- What changes neither tiles nor menders. -/
theorem Carried.elsewhere {t : State} (cur : t.cur = s.cur := by rfl) (cycle : t.cycle = s.cycle := by rfl) (tiles : t.tiles = s.tiles := by rfl)
    (menders : t.menders = s.menders := by rfl) : Carried a t := by
  refine hs.trans ⟨cur, cycle, fun k => ?_⟩
  rw [getHart_places tiles menders]
  exact .refl _

theorem Carried.modHart {h : HartId} {f : Hart → Hart} (hf : Goes (getHart s h) (f (getHart s h))) : Carried a (modHart s h f) := by
  refine hs.trans ⟨modHart_cur .., modHart_cycle .., fun k => ?_⟩
  by_cases e : k = h
  · subst e; rw [getHart_modHart_same]; exact hf
  · rw [getHart_modHart_other _ _ e]; exact .refl _

/-- A change of a mender beside its harts. -/
theorem Carried.setMender {m : Nat} {x : Mender} (hx : x.harts = (getMender s m).harts) : Carried a (setMender s m x) := by
  refine hs.trans ⟨rfl, rfl, fun k => ?_⟩
  cases k with
  | tile t i => exact .refl _
  | mender n i =>
    by_cases e : n = m
    · subst e; simp only [getHart, getMender_setMender_same, hx]; exact .refl _
    · simp only [getHart, getMender_setMender_other _ _ e]; exact .refl _

theorem Carried.modTile {t : Nat} {f : Tile → Tile} (hf : (f (getTile s t)).harts = (getTile s t).harts) : Carried a (modTile s t f) :=
  hs.trans ⟨rfl, rfl, fun k => by rw [getHart_modTile hf]; exact .refl _⟩

omit hs in
theorem Carried.ite {c : Prop} [Decidable c] {t : State} (ht : c → Carried a t) (hu : ¬ c → Carried a s) : Carried a (if c then t else s) := by
  split
  · exact ht ‹_›
  · exact hu ‹_›

theorem Carried.foldl {α : Type} {f : State → α → State} (hf : ∀ s x, Carried a s → Carried a (f s x)) (l : List α) : Carried a (l.foldl f s) := by
  induction l generalizing s with
  | nil => exact hs
  | cons x l ih => exact ih (hf s x hs)

/-! ### Homes (R15, R94, R285, R301, R304, R308) -/

theorem countErr_carried (d : Fin 4) (f : ErrBlock → ErrBlock) : Carried a (countErr s d f) := hs.elsewhere

theorem findError_carried (line : Nat) : Carried a (findError s line) := by
  unfold findError
  split
  · exact hs
  · exact .ite (fun _ => .ite (fun _ => hs.elsewhere) fun _ => countErr_carried (hs.elsewhere) ..)
      fun _ => countErr_carried (hs.elsewhere) ..

theorem wakeSlice_carried (pa : Nat) : Carried a (wakeSlice s pa) :=
  (Carried.ite (fun _ => hs) fun _ => findError_carried hs _).elsewhere

theorem dropLine_carried (line : Nat) : Carried a (dropLine s line) := .ite (fun _ => hs.elsewhere) fun _ => hs

theorem noteEnable_carried (pa : Nat) : Carried a (noteEnable s pa) := .ite (fun _ => hs.setMender rfl) fun _ => hs

theorem slotEnds_carried (h : HartId) : Carried a (slotEnds s h) := by
  cases h with
  | tile t i => exact hs
  | mender m i => exact hs.setMender rfl

theorem endWait_carried (pa : Nat) (who : Agent) : Carried a (endWait s pa who) := by
  unfold endWait
  split
  · exact .ite (fun _ => slotEnds_carried hs _) fun _ => .ite (fun _ => hs.modHart ⟨rfl, rfl, rfl, rfl, fun _ _ => nofun⟩) fun _ => hs
  · exact hs

theorem noteDisable_carried (pa : Nat) : Carried a (noteDisable s pa) := by
  unfold noteDisable
  extract_lets w ended
  have h1 : Carried a ended := (by exact hs.elsewhere : Carried a _).foldl (fun _ _ hx => endWait_carried hx ..) w
  exact h1.foldl (fun _ _ hx => hx.setMender (by rfl)) _

/-- A write at a home. -/
theorem physWrite_carried (pa n v : Nat) : Carried a (physWrite s pa n v) := by
  unfold physWrite
  extract_lets _ _ _ _ put noted cleared
  have h1 : Carried a put := dropLine_carried (hs.elsewhere) _
  have h2 : Carried a noted := .ite (fun _ => noteEnable_carried h1 _) fun _ => .ite (fun _ => noteDisable_carried h1 _) fun _ => h1
  have h3 : Carried a cleared := .ite (fun _ => h2.elsewhere) fun _ => h2
  exact wakeSlice_carried (.ite (fun _ => h3) fun _ => h3.elsewhere) _

/-! ### Translations (R278 to R284) -/

theorem travel_carried : Carried a (travel s).1 := by
  unfold travel
  split
  · exact hs
  all_goals exact hs.elsewhere

theorem travelAll_carried (n : Nat) : Carried a (travelAll n s).1 := by
  induction n generalizing s with
  | zero => exact hs
  | succ n ih =>
    have one := travel_carried hs
    unfold travelAll
    split
    next e => rw [e] at one; exact ih one
    next e => rw [e] at one; exact one

theorem walkBy_carried (d : Fin 4) (c : Nat) (x : Ctx) (va : Nat) : Carried a (walkBy s d c x va).1 := by
  unfold walkBy
  split
  · exact hs
  · extract_lets _ _ _ new entered
    have woken : Carried a entered := (by exact hs.elsewhere : Carried a _).foldl (fun _ _ hx => wakeSlice_carried hx _) new
    exact (travelAll_carried woken new.length).elsewhere

theorem tlbPut_carried (d : Fin 4) (e : Tlb) : Carried a (tlbPut s d e) := .ite (fun _ => hs.elsewhere) fun _ => hs.elsewhere

theorem tlbFill_carried (d : Fin 4) (l : List Holder) (e : Tlb) : Carried a (tlbFill s d l e) := hs.foldl (fun _ _ hx => tlbPut_carried hx d _) l

theorem walkAccess_carried (d : Fin 4) (l : List Holder) (c : Nat) (x : Ctx) (va : Nat) (need : Need) :
    Carried a (walkAccess s d l c x va need).1 := by
  have walked := walkBy_carried hs d c x va
  unfold walkAccess
  split
  next e => rw [e] at walked; exact walked
  next e => rw [e] at walked; exact walked.elsewhere
  next t leaf lines e =>
    rw [e] at walked
    split
    · exact walked
    · extract_lets _ pte marked entered
      have h1 : Carried a marked := .ite (fun _ => walked) fun _ => physWrite_carried walked ..
      exact tlbFill_carried h1.elsewhere ..

theorem xlate_carried (d : Fin 4) (l : List Holder) (c va : Nat) (need : Need) (ref : Option Nat) :
    Carried a (xlate s d l c va need ref).1 := by
  have walked (x : Ctx) := walkAccess_carried hs d l c x va need
  unfold xlate
  split
  · exact hs
  · split
    · exact hs
    · split
      · exact hs
      · split
        · split
          · exact hs
          · split
            · exact walked _
            · exact .ite (fun _ => hs) fun _ => tlbFill_carried hs ..
        · exact walked _
end

/-- A translation for a hart. -/
theorem xlateHart_carried {s t : State} {h : HartId} {va : Nat} {need : Need} {r : XRes} (e : xlateHart s h va need = (t, r)) : Carried s t := by
  have all : Carried s (xlateHart s h va need).1 := xlate_carried (.refl s) ..
  rwa [e] at all

/-! ## LDG and STG set out (R92, R93) -/

/-- The latency of a G access that its cache does not hold (R95). -/
theorem gLatency_eq (s : State) (pa : Nat) : gLatency s pa = homeCycles (hartDie s.cur) pa := by
  cases h : isDevice pa <;> simp only [gLatency, homeCycles, h] <;> rfl

/-- An access that is aligned and translated goes on with its physical address (R88). -/
theorem gAccess_pass {n : Nat} {need : Need} {va : Word} {s t : State} {pa : Nat} (k : Nat → State → Out) (hal : va.toNat % n = 0)
    (hx : xlateHart s s.cur va.toNat need = (t, .ok pa)) : gAccess n need va s k = k pa t := by
  simp [gAccess, hal, withPa, hx]

section
variable {s t : State}

/-- The operands that are read leave the machine as it goes. -/
theorem readFilled_carried (rs : List RegId) : Carried s (readFilled s rs) := by
  refine ⟨readFilled_cur .., readFilled_cycle .., fun k => ?_⟩
  obtain ⟨l, e⟩ := getHart_readFilled_any s rs k
  rw [e]
  exact ⟨rfl, rfl, rfl, rfl, id⟩

variable (h : Carried s t)
include h

/-- The hart that executes goes on. -/
theorem Carried.me : Goes (Machine.me s) (Machine.me t) := by
  show Goes _ (getHart t t.cur)
  rw [h.cur]
  exact h.hart s.cur

theorem Carried.orderDue (o : LongOp) : orderDue t o = orderDue s o := by
  simp only [Machine.orderDue, ahead, h.me.out]

theorem Carried.hartIssued : hartIssued t = hartIssued s := by
  funext len o x
  simp only [Claims.hartIssued, h.cur]

theorem Carried.sentAcc (u : Option Nat) (off n : Nat) (ea : Word) (lines : List Nat) : sentAcc t u off n ea lines = accNow s u off n ea lines := by
  simp only [Machine.sentAcc, accNow, h.me.pc, h.cycle]

/-- An access that has been translated stands last among the hart's outstanding operations, for the time of its way and behind what it must
follow. -/
theorem issue_translated {acc : MemAcc} {la lat : Nat} {wbs : List WriteBack} {fx : OpFx} (ho : ∀ b ∈ realDests wbs, ownReg b.reg)
    (ha : opAccess { longOp wbs with fx := fx } = some acc) :
    ∃ due, Follows s acc lat due ∧ issueLong 4 la lat { longOp wbs with fx := fx } t =
      .next (modHart t s.cur (hartIssued s 4 (opAt (me s) la due (realDests wbs) 0 false fx))) := by
  refine ⟨_, follows_due (lat := lat) ha, ?_⟩
  rw [issueLong_own ho, h.orderDue, h.hartIssued, h.cur, h.cycle]
  simp only [longOp, opAt, lookahead, h.me.ss]
end

section
variable {la : La} {imm : Imm8} {w : Width} {a d : GReg} {s s2 : State} {pa : Nat} (hroom : (me s).out.length < 4)
  (hal : (eaOf a imm w (me s)).toNat % accessSize w = 0)
include hroom hal

theorem ldg_issues (hi : Issues s threadOrMender [gId a] [dataId w d])
    (hx : xlateHart (readFilled s [gId a]) s.cur (eaOf a imm w (me s)).toNat .read = (s2, .ok pa)) :
    let acc := accNow s none pa (accessSize w) (eaOf a imm w (me s)) (tableLines s2 s.cur (eaOf a imm w (me s)).toNat)
    ∃ due, Follows s acc (if lineCached s2 s.cur pa then 8 else homeCycles (hartDie s.cur) pa) due ∧ exec (.ldg la imm w a d) s =
      .next (modHart s2 s.cur (hartIssued s 4 (opAt (me s) la.val due (backOf w d) 0 false (.load acc w)))) := by
  intro acc
  have kept := (readFilled_carried [gId a]).trans (xlateHart_carried hx)
  obtain ⟨due, follows, he⟩ := issue_translated kept (acc := acc) (la := la.val)
    (lat := if lineCached s2 s.cur pa then 8 else homeCycles (hartDie s.cur) pa)
    (wbs := [⟨dataReg w d, 0⟩]) (fx := .load acc w) (realDests_data w d ▸ ownReg_backOf) rfl
  rw [realDests_data] at he
  refine ⟨due, follows, ?_⟩
  show execLdg la imm w a d s = _
  rw [← he, execLdg, inSet_pass _ hi.kind, sources_pass _ hi.full hi.sound, roomForLong_pass _ (by simpa [me_readFilled] using hroom),
    dests_pass _ (by simpa [dataReg_eq] using hi.free), effAddr_readFilled]
  simp only
  rw [gAccess_pass _ (widthSize_eq w ▸ hal) (by rw [readFilled_cur]; exact hx), kept.sentAcc, gLatency_eq, kept.cur, widthSize_eq]

theorem stg_issues (hi : Issues s threadOrMender [gId a, dataId w d] [])
    (hx : xlateHart (readFilled s [gId a, dataId w d]) s.cur (eaOf a imm w (me s)).toNat .write = (s2, .ok pa)) :
    let acc := accNow s none pa (accessSize w) (eaOf a imm w (me s)) (tableLines s2 s.cur (eaOf a imm w (me s)).toNat)
    ∃ due, Follows s acc (homeCycles (hartDie s.cur) pa) due ∧ exec (.stg la imm w a d) s =
      .next (modHart s2 s.cur (hartIssued s 4 (opAt (me s) la.val due [] 0 false (.store acc (stored w d (me s)))))) := by
  intro acc
  have kept := (readFilled_carried [gId a, dataId w d]).trans (xlateHart_carried hx)
  obtain ⟨due, follows, he⟩ := issue_translated kept (acc := acc) (la := la.val) (lat := homeCycles (hartDie s.cur) pa)
    (wbs := []) (fx := .store acc (stored w d (me s))) nofun rfl
  refine ⟨due, follows, ?_⟩
  show execStg la imm w a d s = _
  rw [execStg, inSet_pass _ hi.kind, dataReg_eq, sources_pass _ hi.full hi.sound, roomForLong_pass _ (by simpa [me_readFilled] using hroom),
    effAddr_readFilled, dataVal_eq, stored_readFilled]
  simp only
  rw [gAccess_pass _ (widthSize_eq w ▸ hal) (by rw [readFilled_cur]; exact hx), kept.sentAcc, gLatency_eq, kept.cur, widthSize_eq]
  exact he
end

/-! ## Bytes at their home (R91, R94, R301) -/

theorem findError_mem (s : State) (line : Nat) : (findError s line).mem = s.mem := (findError_found s line).mem

/-- A slice wakes without a change of its bytes. -/
theorem wakeSlice_mem (s : State) (pa : Nat) : (wakeSlice s pa).mem = s.mem := by
  unfold wakeSlice
  dsimp only
  split
  · rfl
  · exact findError_mem s _

/-- A slice wakes without a change of a hart. -/
theorem getHart_wakeSlice (s : State) (pa : Nat) (k : HartId) : getHart (wakeSlice s pa) k = getHart s k := by
  have found (line : Nat) : (findError s line).tiles = s.tiles ∧ (findError s line).menders = s.menders := by
    unfold findError
    dsimp only
    split
    · exact ⟨rfl, rfl⟩
    · split
      · split <;> exact ⟨rfl, rfl⟩
      · exact ⟨rfl, rfl⟩
  unfold wakeSlice
  refine getHart_places ?_ ?_ k <;> dsimp only <;> split
  · rfl
  · exact (found _).1
  · rfl
  · exact (found _).2

/-- Bytes that are not poisoned are not poisoned for the error that an access to a line may find there. -/
theorem physPoison_findError {s : State} {pa n line : Nat} (h : physPoison s pa n = false) (inside : pa / 64 ≤ line ∧ line ≤ (pa + n - 1) / 64) :
    physPoison (findError s line) pa n = false := by
  obtain ⟨clean, latent⟩ := Bool.or_eq_false_iff.mp h
  unfold findError
  split
  · exact h
  next k unc first =>
    obtain rfl : k = line := by simpa using List.find?_some first
    have here := List.any_eq_false.mp latent _ (List.mem_of_find?_eq_some first)
    obtain rfl : unc = false := by simpa [inside] using here
    refine Bool.or_eq_false_iff.mpr ⟨clean, List.any_eq_false.mpr fun l hl => ?_⟩
    exact List.any_eq_false.mp latent l (List.mem_of_mem_filter hl)

theorem physPoison_wakeSlice {s : State} {pa n : Nat} (h : physPoison s pa n = false) (hn : 0 < n) : physPoison (wakeSlice s pa) pa n = false := by
  have found : physPoison (if s.gLatent = [] then s else findError s (pa / 64)) pa n = false := by
    split
    · exact h
    · exact physPoison_findError h ⟨le_rfl, Nat.div_le_div_right (by omega)⟩
  exact found

/-- A slice delivers the bytes that it holds, and the read cache takes their line in. -/
theorem sliceRead_sound {s : State} {h : HartId} {pa n : Nat} (hp : physPoison s pa n = false) (hn : 0 < n) :
    ∃ t, sliceRead s h pa n = (t, memRead s.mem pa n, false) ∧ t.mem = s.mem ∧ ∀ k, getHart t k = getHart s k := by
  have woken := physPoison_wakeSlice hp hn
  have harts := getHart_wakeSlice s pa
  simp only [sliceRead, physRead, woken, wakeSlice_mem, Bool.false_eq_true, if_false]
  cases h with
  | mender m i => exact ⟨_, rfl, wakeSlice_mem s pa, harts⟩
  | tile t i => exact ⟨_, rfl, wakeSlice_mem s pa, fun k => (getHart_modTile (by exact freshLine_harts _ _ _) k).trans (harts k)⟩

/-! ## LDG is performed (R91, R93) -/

/-- An access to physical memory whose time has passed may complete. -/
theorem opDue_global {s : State} {h : HartId} {o : LongOp} {a : MemAcc} (hawait : o.await = .time) (hdue : o.due ≤ s.cycle)
    (hwin : o.win = []) (ha : opAccess o = some a) (ht : a.tile = none) : opDue s h o = true := by
  have held : opHeld s h o = false := by simp [opHeld, ha, ht]
  have pub : pubTurn s h o = true := by cases h <;> simp [pubTurn, hwin]
  have pair : pairedTurn s h o = true := by cases hu : tileOf? h <;> simp [pairedTurn, hu, ha, ht]
  simp [opDue, hawait, hdue, held, pub, pair]

section
variable {s : State} {h : HartId} {i : Nat} {a : MemAcc} (ht : a.tile = none)
include ht

theorem global_completes {wbs : List WriteBack} {fx : OpFx} (hd : AccessDue s h i wbs fx) (ha : ∀ o : LongOp, o.fx = fx → opAccess o = some a) :
    ∃ left due, exec .longOpComplete s = .next (completeOp s h i { opAt (getHart s h) 0 due wbs 0 false fx with left := left }) := by
  obtain ⟨he, ⟨left, due, hdue, ho⟩, -, -⟩ := hd
  exact ⟨left, due, longOpComplete_of he ho (opDue_global rfl hdue rfl (ha _ rfl) ht) (isOpt_access (ha _ rfl))⟩

/-- A load that delivers `v`, in a state whose harts are those before it, writes it to its destination. -/
theorem load_delivers {t : State} {w : Width} {d : GReg} {v : Nat} (hd : AccessDue s h i (backOf w d) (.load a w))
    (hl : loadAccess s h a w = (t, loaded w v)) (hk : getHart t h = getHart s h) :
    exec .longOpComplete s = .next (modHart t h (loadedHart w d i v)) := by
  obtain ⟨left, due, he⟩ := global_completes ht hd fun o ho => by simp [opAccess, ho]
  let o : LongOp := { opAt (getHart s h) 0 due (backOf w d) 0 false (.load a w) with left := left }
  have fin : finishOp s h o = writeBack t h { o with wbs := (backOf w d).map fun b => ⟨b.reg, loaded w v⟩ } := by
    simp only [finishOp, o, opAt, hl]
  rw [he, completeOp_own fin rfl (by simpa using ownReg_backOf) rfl rfl (hk ▸ hd.going), completedHart_access rfl rfl rfl]
  simp only [List.foldl_map]
  rfl
end

/-- What the read cache of a tile holds is delivered from there. -/
theorem loadAccess_cached {s : State} {t : Nat} {k : Fin 10} {a : MemAcc} {w : Width} {x : BitVec 512} (ht : a.tile = none)
    (hx : alGet (getTile s t).gcache (a.addr / 64) = some x) (hf : (getTile s t).flaws = []) (hb : cachedBad (getTile s t) 2 a.addr a.size = false) :
    loadAccess s (.tile t k) a w = (s, loaded w (x.toNat / 256 ^ (a.addr % 64) % 256 ^ a.size)) := by
  simp [loadAccess, ht, lineCached, hx, cacheHit, meetCached, hf, hb, tileOf?, loadValue_eq, lineBytes]

/-- What no read cache of the hart's holds comes from its home. -/
theorem loadAccess_home {s : State} {h : HartId} {a : MemAcc} {w : Width} (ht : a.tile = none) (hc : lineCached s h a.addr = false)
    (hq : s.noise = []) (hp : physPoison s a.addr a.size = false) (hn : 0 < a.size) :
    ∃ t, loadAccess s h a w = (t, loaded w (memRead s.mem a.addr a.size)) ∧ t.mem = s.mem ∧ ∀ k, getHart t k = getHart s k := by
  obtain ⟨t, read, mem, harts⟩ := sliceRead_sound (h := h) hp hn
  exact ⟨t, by simp [loadAccess, ht, hc, onLoom_quiet hq, homeRead, read, loadValue_eq], mem, harts⟩

/-! ## STG is performed (R91, R93) -/

theorem endWait_mem (s : State) (pa : Nat) (who : Agent) : (endWait s pa who).mem = s.mem := by
  unfold endWait
  split
  next h =>
    split
    · cases h <;> rfl
    · split
      · exact parkHart_mem ..
      · rfl
  · rfl

theorem noteDisable_mem (s : State) (pa : Nat) : (noteDisable s pa).mem = s.mem := by
  unfold noteDisable
  extract_lets w ended
  have h1 : ended.mem = s.mem := foldl_keeps State.mem (fun _ _ => endWait_mem ..) w _
  exact (foldl_keeps State.mem (fun _ _ => by rfl) _ ended).trans h1

theorem dropLine_mem (s : State) (line : Nat) : (dropLine s line).mem = s.mem := by
  unfold dropLine
  split <;> rfl

theorem noteEnable_mem (s : State) (pa : Nat) : (noteEnable s pa).mem = s.mem := by
  unfold noteEnable
  dsimp only
  split <;> rfl

/-- A write changes the bytes that it writes. -/
theorem physWrite_mem (s : State) (pa n v : Nat) : (physWrite s pa n v).mem = memWrite s.mem pa n v := by
  unfold physWrite
  extract_lets _ _ _ _ put noted cleared
  have h1 : put.mem = memWrite s.mem pa n v := dropLine_mem ..
  have h2 : noted.mem = put.mem := by
    unfold noted
    split
    · exact noteEnable_mem ..
    · split
      · exact noteDisable_mem ..
      · rfl
  have h3 : cleared.mem = noted.mem := by
    unfold cleared
    split <;> rfl
  rw [wakeSlice_mem, ← h1, ← h2, ← h3]
  split <;> rfl

/-- A store of a thread may change a line of its tile's read cache. -/
theorem cacheStore_frame (s : State) (h : HartId) (pa n v : Nat) : (cacheStore s h pa n v).mem = s.mem ∧ Carried s (cacheStore s h pa n v) := by
  cases h with
  | tile t i =>
    refine ⟨rfl, ?_⟩
    unfold cacheStore
    exact .modTile (.refl s) (by rfl)
  | mender m i => exact ⟨rfl, .refl s⟩

/-- A store that nothing befalls puts its bytes at their physical address. -/
theorem storeAccessDone_home {s : State} {h : HartId} {a : MemAcc} {v : Nat} (ht : a.tile = none) (hq : s.noise = []) :
    (storeAccessDone s h a v).mem = memWrite s.mem a.addr a.size v ∧ Carried s (storeAccessDone s h a v) := by
  obtain ⟨mem, carried⟩ := cacheStore_frame (physWrite s a.addr a.size v) h a.addr a.size v
  simp only [storeAccessDone, onLoom_quiet hq, homeWrite, ht]
  exact ⟨mem.trans (physWrite_mem ..), (physWrite_carried (.refl s) ..).trans carried⟩

theorem store_done {s : State} {h : HartId} {i v : Nat} {a : MemAcc} (ht : a.tile = none) (hd : AccessDue s h i [] (.store a v)) :
    exec .longOpComplete s = .next (modHart (storeAccessDone s h a v) h fun x => { x with out := x.out.eraseIdx i }) := by
  obtain ⟨left, due, he⟩ := global_completes ht hd fun o ho => by simp [opAccess, ho]
  let o : LongOp := { opAt (getHart s h) 0 due [] 0 false (.store a v) with left := left }
  have fin : finishOp s h o = writeBack (storeAccessDone s h a v) h o := rfl
  have going := ((storeAccessDone_home (h := h) (v := v) ht hd.quiet).2.hart h).going hd.going
  rw [he, completeOp_own fin rfl nofun rfl rfl going, completedHart_access rfl rfl rfl]
  rfl

theorem accessSize_pos (w : Width) : 0 < accessSize w := by cases w <;> decide

/-- Settles O10: LDG and STG set out behind their translation (`ldg_issues`, `stg_issues`); a load is performed in its read cache
(`loadAccess_cached`) or at its home (`loadAccess_home`), and a store at its home (`storeAccessDone_home`). -/
theorem globalAccesses : Obligations.GlobalAccesses := by
  unfold Obligations.GlobalAccesses
  refine ⟨fun la imm w a d s s2 pa hroom hal => ⟨ldg_issues hroom hal, stg_issues hroom hal⟩, ?_⟩
  intro s h i pa v sent ea pc esc lines w d _ acc
  refine ⟨fun hd => ⟨?_, ?_⟩, fun hd => ?_⟩
  · rintro t k x rfl hx hf hb
    have run := load_delivers (a := acc) rfl hd (loadAccess_cached rfl hx hf hb) rfl
    exact ⟨_, run, modHart_mem .., getHart_modHart_same ..⟩
  · intro hc hp _
    obtain ⟨t, read, mem, harts⟩ := loadAccess_home (a := acc) (w := w) rfl hc hd.quiet hp (accessSize_pos w)
    have run := load_delivers (a := acc) rfl hd read (harts h)
    exact ⟨_, run, (modHart_mem ..).trans mem, by rw [getHart_modHart_same, harts]⟩
  · obtain ⟨mem, kept⟩ := storeAccessDone_home (h := h) (a := acc) (v := v) rfl hd.quiet
    refine ⟨_, store_done (a := acc) rfl hd, ?_, fun b hb => ?_, ?_, fun k => ?_⟩
    · rw [modHart_mem, mem]; exact memRead_memWrite_same ..
    · rw [modHart_mem, mem]; exact memRead_memWrite_other _ _ _ _ _ _ (hb.imp_left Nat.succ_le_of_lt)
    · rw [getHart_modHart_same]; exact congrArg (·.eraseIdx i) (kept.hart h).out
    · by_cases e : k = h
      · subst e; rw [getHart_modHart_same]; exact (kept.hart k).g
      · rw [getHart_modHart_other _ _ e]; exact (kept.hart k).g

end Sys2Proof.Machine
end


section
/-! PROOF of O8: an access to a store of the own tile that fails one of the checks of R88. A load and a store of any of the four stores come to that
check with their address (`storeLoad_checks`, `storeStore_checks`), and its answer is then the trap of its space (`storeAccess_misaligned`,
`storeAccess_outside`). -/

namespace Sys2Proof.Machine

open Sys2Proof.Claims

/-! ## The check of an access to a store of the own tile (R88) -/

/-- The causes of R88 from the space numbers of R89. -/
theorem storeCause_space (x : Store) : 0x10 + 4 * x.space = storeCause x := by cases x <;> rfl

theorem storeAccess_misaligned {x : Store} {n : Nat} {ea : Word} {s : State} (k : State → Out) (h : ea.toNat % n ≠ 0) :
    storeAccess x n ea s k = .next (trapOn s s.cur (storeCause x) ea) := by
  rw [storeAccess, if_pos h, storeCause_space, trap]

theorem storeAccess_outside {x : Store} {n : Nat} {ea : Word} {s : State} (k : State → Out) (ha : ea.toNat % n = 0) (ho : x.size ≤ ea.toNat) :
    storeAccess x n ea s k = .next (trapOn s s.cur (storeCause x + 1) ea) := by
  rw [storeAccess, if_neg (not_not.mpr ha), if_pos ho, storeCause_space, trap]

/-! ## Loads and stores come to the check (R57, R60, R61) -/

section
variable {ok : HartKind → Bool} {x : Store} {ea : Hart → Word} {a d : GReg} {w : Width} {s : State} {e : Word}
  (hroom : (me s).out.length < 4) (he : ∀ rs, ea (me (readFilled s rs)) = e)
include hroom he

theorem storeLoad_checks (hi : Issues s ok [gId a] [dataId w d]) (len : Nat) (la : La) :
    ∃ k, storeLoad ok x len la ea a w d s = storeAccess x (accessSize w) e (readFilled s [gId a]) k := by
  rw [storeLoad, inSet_pass _ hi.kind, sources_pass _ hi.full hi.sound, roomForLong_pass _ (by simpa [me_readFilled] using hroom),
    dests_pass _ (by simpa [dataReg_eq] using hi.free)]
  simp only [he, widthSize_eq]
  exact ⟨_, rfl⟩

theorem storeStore_checks (hi : Issues s ok [gId a, dataId w d] []) (len : Nat) (la : La) :
    ∃ k, storeStore ok x len la ea a w d s = storeAccess x (accessSize w) e (readFilled s [gId a, dataId w d]) k := by
  rw [storeStore, inSet_pass _ hi.kind, dataReg_eq, sources_pass _ hi.full hi.sound, roomForLong_pass _ (by simpa [me_readFilled] using hroom)]
  simp only [he, widthSize_eq]
  exact ⟨_, rfl⟩
end

/-- What comes to the check of R88 with an address that fails it traps. -/
theorem storeAccess_traps {o : Out} {x : Store} {n : Nat} {ea : Word} {s : State} {h : HartId} (hs : s.cur = h)
    (ho : ∃ k, o = storeAccess x n ea s k) :
    (ea.toNat % n ≠ 0 → o = .next (trapOn s h (storeCause x) ea)) ∧
      (ea.toNat % n = 0 → x.size ≤ ea.toNat → o = .next (trapOn s h (storeCause x + 1) ea)) := by
  obtain ⟨k, rfl⟩ := ho
  subst hs
  exact ⟨storeAccess_misaligned k, storeAccess_outside k⟩

/-- Settles O8: each row comes to the check of its store (`storeLoad_checks`, `storeStore_checks`), which traps (`storeAccess_traps`). -/
theorem storeAccessTraps : Obligations.StoreAccessTraps := by
  unfold Obligations.StoreAccessTraps
  refine fun la imm w a d c off s hroom => ⟨fun r hr hi => ?_, fun r hr hi => ?_⟩
  · obtain ⟨⟨la', _, he⟩, hea⟩ := exec_loadRow hr s
    exact storeAccess_traps (readFilled_cur ..) (he ▸ storeLoad_checks hroom hea hi r.len la')
  · obtain ⟨⟨la', _, he⟩, hea⟩ := exec_storeRow hr s
    exact storeAccess_traps (readFilled_cur ..) (he ▸ storeStore_checks hroom hea hi r.len la')

end Sys2Proof.Machine
end


section
/-! PROOF of O11 and O12: the full/empty forms of L and M. A request reaches its home in a tile's L-store (`feLoad_arrives`, `feFill_arrives`,
`feSet_sets`), where it is served or waits (`tileRequest_serves`, `tileRequest_waits`, `tileRequest_retries`). Beside the words of its access it
changes no word of any home (`SameWords`). -/

namespace Sys2Proof.Machine

open Sys2Proof.Claims

/-! ## Operand forms (R37, R88, R97) -/

theorem feSize_eq (z : FeSize) : feSize z = feBytes z := by cases z <;> rfl

theorem feValue_eq (n v : Nat) : feValue n v = feWord n v := by simp only [feValue, feWord, sextNat_eq_toInt]

theorem effAddr_feEa (h : Hart) (a : GReg) (imm : Imm8) (n : Nat) : effAddr h a imm n = feEa h a imm n := by
  simp only [effAddr, feEa, i64, w64, BitVec.signExtend, BitVec.ofInt_add, BitVec.ofInt_mul, BitVec.ofInt_toInt, BitVec.ofInt_natCast]

theorem effAddr_filled (s : State) (rs : List RegId) (a : GReg) (imm : Imm8) (n : Nat) :
    effAddr (me (readFilled s rs)) a imm n = feEa (me s) a imm n := by
  rw [effAddr_feEa]; simp [feEa]

/-! ## Full/empty bits (R96) -/

theorem lAllFull_iff {t : Tile} {i n : Nat} : lAllFull t i n = true ↔ ∀ k, i ≤ k → k < i + n → k ∉ t.lEmpty := by
  simp only [lAllFull, List.all_eq_true, List.mem_range, Bool.not_eq_true', List.contains_eq_mem, decide_eq_false_iff_not]
  refine ⟨fun h k lo hi => ?_, fun h k hk => h _ (by omega) (by omega)⟩
  simpa [Nat.add_sub_cancel' lo] using h (k - i) (by omega)

theorem lAllEmpty_iff {t : Tile} {i n : Nat} : lAllEmpty t i n = true ↔ ∀ k, i ≤ k → k < i + n → k ∈ t.lEmpty := by
  simp only [lAllEmpty, List.all_eq_true, List.mem_range, List.contains_eq_mem, decide_eq_true_eq]
  refine ⟨fun h k lo hi => ?_, fun h k hk => h _ (by omega) (by omega)⟩
  simpa [Nat.add_sub_cancel' lo] using h (k - i) (by omega)

theorem mem_lFill (t : Tile) (i n k : Nat) : k ∈ (lFill t i n).lEmpty ↔ k ∈ t.lEmpty ∧ ¬ (i ≤ k ∧ k < i + n) := by
  simp only [lFill, List.mem_filter, Bool.not_eq_true', decide_eq_false_iff_not]

theorem mem_insRange (l : List Nat) (i n k : Nat) : k ∈ insRange l i n ↔ k ∈ l ∨ (i ≤ k ∧ k < i + n) := by
  induction n generalizing l i with
  | zero => exact ⟨.inl, fun h => h.elim id fun inside => absurd inside (by omega)⟩
  | succ n ih =>
    have range : (k = i ∨ i + 1 ≤ k ∧ k < i + 1 + n) ↔ i ≤ k ∧ k < i + (n + 1) := by omega
    rw [insRange, ih, mem_insNat, or_comm (a := k = i), or_assoc, range]

theorem mem_lDrain (t : Tile) (i n k : Nat) : k ∈ (lDrain t i n).lEmpty ↔ k ∈ t.lEmpty ∨ (i ≤ k ∧ k < i + n) := mem_insRange ..

theorem storeWrite_lists (t : Tile) (x : Store) (a n v : Nat) :
    (storeWrite t x a n v).lEmpty = t.lEmpty ∧ (storeWrite t x a n v).fe = t.fe := by
  simp only [storeWrite]
  split <;> cases x <;> exact ⟨rfl, rfl⟩

/-! ## What the homes hold -/

/-- The homes hold the same words: the bytes of memory and of every store, and the full/empty bits. -/
structure SameWords (s t : State) : Prop where
  mem : t.mem = s.mem
  gBits : t.gEmpty = s.gEmpty
  stores : ∀ u x, storeMem (getTile t u) x = storeMem (getTile s u) x
  lBits : ∀ u, (getTile t u).lEmpty = (getTile s u).lEmpty

theorem SameWords.trans {s t u : State} (a : SameWords s t) (b : SameWords t u) : SameWords s u :=
  ⟨b.mem.trans a.mem, b.gBits.trans a.gBits, fun v x => (b.stores v x).trans (a.stores v x), fun v => (b.lBits v).trans (a.lBits v)⟩

theorem sameWords_readFilled (s : State) (rs : List RegId) : SameWords s (readFilled s rs) :=
  ⟨readFilled_mem .., readFilled_gEmpty .., storeMem_readFilled s rs, fun _ => getTile_readFilled_lEmpty ..⟩

theorem sameWords_modHart (s : State) (h : HartId) (f : Hart → Hart) : SameWords s (modHart s h f) :=
  ⟨modHart_mem .., modHart_gEmpty .., storeMem_modHart s h f, fun _ => getTile_modHart_lEmpty ..⟩

theorem sameWords_complete (s : State) (h : HartId) (p : Word) : SameWords s (complete s h p) := by
  unfold complete completeAs
  exact sameWords_modHart ..

theorem sameWords_acquire (s : State) (h : HartId) : SameWords s (acquire s h) :=
  ⟨acquire_mem .., acquire_gEmpty .., fun _ x => by cases x <;> simp [storeMem], fun _ => getTile_acquire_lEmpty ..⟩

theorem SameWords.storeByte {s t : State} (h : SameWords s t) (u : Nat) (x : Store) (b : Nat) : storeByte t u x b = storeByte s u x b := by
  rw [Claims.storeByte, h.stores, Claims.storeByte]

theorem SameWords.wordFull {s t : State} (h : SameWords s t) (u k : Nat) : wordFull t u k ↔ wordFull s u k := by
  rw [Claims.wordFull, h.lBits, Claims.wordFull]

/-! ### One access to the words of a tile (R97) -/

section
variable {s s1 s' : State} {t off n : Nat} (before : SameWords s s1)
include before

/-- Only the bits of one access have changed. -/
theorem onlyWordBits_of {f : Tile → Tile} {full : Bool} (after : SameWords (modTile s1 t f) s')
    (hf : ∀ k, k ∈ (f (getTile s1 t)).lEmpty ↔
      if off / 4 ≤ k ∧ k < off / 4 + n / 4 then full = false else k ∈ (getTile s1 t).lEmpty) : OnlyWordBits s s' t off n full := by
  refine ⟨after.gBits.trans before.gBits, fun u hu => ?_, fun k => ?_⟩
  · rw [after.lBits, modTile, getTile_setTile_other _ _ hu, before.lBits]
  · have here : wordFull s' t k ↔ ¬ (if off / 4 ≤ k ∧ k < off / 4 + n / 4 then full = false else k ∈ (getTile s1 t).lEmpty) := by
      rw [← hf k, wordFull, after.lBits, modTile, getTile_setTile_same]
    refine ⟨fun inside => ?_, fun outside => ?_⟩
    · rw [here, if_pos inside, Bool.not_eq_false]
    · rw [here, if_neg outside, before.lBits, wordFull]

/-- The words are emptied. -/
theorem drained_bits (after : SameWords (modTile s1 t fun x => lDrain x (off / 4) (n / 4)) s') : OnlyWordBits s s' t off n false := by
  refine onlyWordBits_of before after fun k => ?_
  rw [mem_lDrain]
  split <;> simp [*]

theorem drained_bytes (after : SameWords (modTile s1 t fun x => lDrain x (off / 4) (n / 4)) s') :
    s'.mem = s.mem ∧ ∀ u x b, storeByte s' u x b = storeByte s u x b := by
  refine ⟨after.mem.trans before.mem, fun u x b => ?_⟩
  rw [after.storeByte, storeByte_modTile (by exact rfl), before.storeByte]

/-- The words are written and set full. -/
theorem filled_words {v : Nat} (after : SameWords (modTile s1 t fun x => lFill (storeWrite x .l off n v) (off / 4) (n / 4)) s') :
    memRead (getTile s' t).l off n = v % 256 ^ n ∧ OnlyStoreBytes s s' t .l off n ∧ OnlyWordBits s s' t off n true := by
  have put (u : Nat) (y : Store) : storeMem (getTile s' u) y = storeMem (getTile (modTile s1 t fun x => storeWrite x .l off n v) u) y := by
    rw [after.stores, getTile_modTile, getTile_modTile]
    split
    · cases y <;> rfl
    · rfl
  refine ⟨?_, ⟨after.mem.trans before.mem, fun u y b => ?_⟩, onlyWordBits_of before after fun k => ?_⟩
  · have := memRead_stored s1 s1.cur id t off n v .l
    rwa [storeMem_modHart, ← put] at this
  · obtain ⟨-, bytes⟩ := onlyStoreBytes_stored s1 s1.cur id t off n v .l
    refine (bytes u y b).imp_right fun same => ?_
    rw [storeByte_modHart, Claims.storeByte, ← put] at same
    exact same.trans (before.storeByte u y b)
  · rw [mem_lFill, (storeWrite_lists ..).1]
    split <;> simp [*]
end

/-! ## A value is delivered (R97, R98) -/

section
variable {s : State} {h : HartId} {g : Hart → Hart} {p : Word}

/-- The state after a hart has been given what its load delivers: the value, the acquire, and the completion. -/
def delivered (s : State) (h : HartId) (g : Hart → Hart) (p : Word) : State := complete (acquire (modHart s h g) h) h p

theorem delivered_hart : getHart (delivered s h g p) h = getHart (complete (modHart s h g) h p) h := by
  simp only [delivered, getHart_complete_same, getHart_acquire]

theorem delivered_acquired : Acquired (delivered s h g p) h := by
  rintro u i rfl
  simp [delivered, complete, completeAs, getTile_acquire]

theorem delivered_words : SameWords s (delivered s h g p) :=
  ((sameWords_modHart ..).trans (sameWords_acquire ..)).trans (sameWords_complete ..)

theorem delivered_fe (t : Nat) : (getTile (delivered s h g p) t).fe = (getTile s t).fe := by
  simp [delivered, complete, completeAs]
end

/-! ## A request at its home (R97, R98) -/

/-- A home that no request waits at serves none. -/
theorem serveTileAll_none {s : State} {t : Nat} (h : (getTile s t).fe = []) : serveTileAll s t = s := by simp [serveTileAll, h, serveTile]

section
variable {t : Nat} {r : FeReq} {s : State}

theorem tileRequest_waits (can : tileCan (getTile s t) r = false) (room : (getTile s t).fe.length < 64) :
    tileRequest t r s = .next (parkHart (setTile s t { getTile s t with fe := (getTile s t).fe ++ [{ r with notes := s.reads }] }) s.cur
      (.word r.sp r.ea.toNat)) := by
  rw [tileRequest, if_neg (by simp [can]), if_pos room]
  rfl

theorem tileRequest_retries (can : tileCan (getTile s t) r = false) (full : 64 ≤ (getTile s t).fe.length) :
    tileRequest t r s = .next (parkHart s s.cur (.wordRetry r.sp r.ea.toNat (s.cycle + 64))) := by
  rw [tileRequest, if_neg (by simp [can]), if_neg (by omega)]
  rfl

/-- Serving a request changes its words and its hart, and no list. -/
theorem tileRequest_serves (can : tileCan (getTile s t) r = true) (idle : (getTile s t).fe = []) {s' : State} (served : tileServe s t r = s')
    (still : (getTile s' t).fe = (getTile s t).fe) : tileRequest t r s = .next s' := by
  rw [tileRequest, if_pos can, served, serveTileAll_none (still.trans idle)]

theorem feDeliver_load (load : r.op ≠ .fill) (v : Nat) :
    feDeliver s r v = acquire (modHart s r.hart fun x => wg x r.d (feWord r.size v)) r.hart := by
  cases h : r.op with
  | fill => exact absurd h load
  | consume | peek => simp only [feDeliver, h, feValue_eq]

/-- A load without an error delivers the bytes of its words. -/
theorem tileServe_load (load : r.op ≠ .fill) (sound : r.bad = false) (notes : r.notes = []) (hf : (getTile s t).flaws = [])
    (hp : storePoison (getTile s t) .l r.addr r.size = false) :
    tileServe s t r = delivered (modTile s t (tileEffect · r)) r.hart (fun x => wg x r.d (feWord r.size (memRead (getTile s t).l r.addr r.size))) r.next := by
  have kind : (r.op == FeOp.fill) = false := beq_eq_false_iff_ne.mpr load
  simp [tileServe, kind, sound, notes, meetFlaws_none hf, hp, storeRead_sound hp, feDeliver_load load, commitNotes, storeMem, delivered]

/-- A fill puts its value and completes. -/
theorem tileServe_fill (fill : r.op = .fill) (sound : r.bad = false) (notes : r.notes = []) :
    tileServe s t r = complete (modTile s t (tileEffect · r)) r.hart r.next := by
  simp [tileServe, fill, sound, notes, feDeliver, commitNotes]
end

/-! ## An access arrives at its home (R61, R64, R88, R334) -/

theorem thread_tile {h : HartId} (hk : threadOnly (kindOf h) = true) : ∃ u, tileOf? h = some u := by
  cases h with
  | tile u i => exact ⟨u, rfl⟩
  | mender m i => cases hk

theorem meshHome_pass {t off n : Nat} {ea : Word} {s : State} (k : State → Out) (hahead : ahead s (hereAcc (some t) off n ea) = [])
    (hpair : pairFlights s (myTile s) t = []) (hawake : t = myTile s ∨ lSleeps s t = false) : meshHome t off n ea s k = k s := by
  rw [meshHome, inOrder_pass _ hahead, pairOrder_pass _ hpair, awake, if_neg]
  rintro ⟨other, asleep⟩
  rcases hawake with h | h
  · exact other h
  · rw [h] at asleep; cases asleep

/-- What nothing befalls on its way is at its home. -/
theorem sendRequest_quiet {tile : Option Nat} {r : FeReq} {s : State} (k : FeReq → State → Out) (h : s.noise = []) :
    sendRequest tile r s k = k r s := by
  rw [sendRequest, onLoom_quiet h]

section
variable {s : State} {n t off : Nat} {ea : Word}

variable (h : Arrives s .m ea n t off)
include h

/-- An access to M is accepted by the tile of its address. -/
theorem arrives_accepted (thread : threadOnly (kindOf s.cur) = true) (rs : List RegId) (fe : Bool) (k : Nat → Nat → State → Out) :
    mAccess n fe ea (readFilled s rs) k = k t off (readFilled s rs) := by
  obtain ⟨⟨hal, ht⟩, -⟩ := h
  obtain ⟨u, hu⟩ := thread_tile thread
  exact mAccess_pass _ hal (by rw [readFilled_cur, hartCtx_readFilled s rs hu, meshTarget_readFilled, ht])

theorem arrives_noise (rs : List RegId) : (readFilled s rs).noise = [] := (readFilled_noise ..).trans (h.2 rfl).2.2.2

/-- An access to M comes to its home there. -/
theorem arrives_home (rs : List RegId) (k : State → Out) : meshHome t off n ea (readFilled s rs) k = k (readFilled s rs) := by
  obtain ⟨-, hm⟩ := h
  obtain ⟨alone, pair, awake, -⟩ := hm rfl
  refine meshHome_pass k ?_ ?_ ?_
  · exact List.filter_eq_nil_iff.mpr fun o ho => by simpa using alone o (by simpa using ho)
  · rw [myTile_readFilled, pairFlights_readFilled, pair]
  · rw [lSleeps_readFilled, myTile_readFilled]
    exact awake.imp_left fun own => (myTile_of own).symm
end

/-! ## The forms come to their home (R97) -/

section
variable {s : State} {imm : Imm8} {z : FeSize} {a d : GReg} {t off n : Nat} {sp : AmoSpace}

theorem feReq_readFilled (rs : List RegId) (op : FeOp) (ea : Word) : feReq (readFilled s rs) op sp ea off n d = feReq s op sp ea off n d := by
  simp [feReq]

theorem feLoad_arrives {op : FeOp} (hi : Issues s threadOnly [gId a] [gId d])
    (h : Arrives s sp (feEa (me s) a imm (feBytes z)) (feBytes z) t off) :
    feLoad op sp imm z a d s =
      tileRequest t (feReq s op sp (feEa (me s) a imm (feBytes z)) off (feBytes z) d) (readFilled s [gId a]) := by
  rw [feLoad, inSet_pass _ hi.kind, sources_pass _ hi.full hi.sound, dests_pass _ (by simpa using hi.free), feSize_eq]
  simp only [effAddr_filled]
  cases sp with
  | l =>
    obtain ⟨⟨hal, ht, hin, rfl⟩, -⟩ := h
    simp only [storeAccess_pass (x := .l) _ hal hin, myTile_readFilled, myTile_of ht, feReq_readFilled]
  | m => simp only [arrives_accepted h hi.kind, arrives_home h, sendRequest_quiet _ (arrives_noise h _), feReq_readFilled]
  | g => exact h.1.2.elim

theorem feFill_arrives (hi : Issues s threadOnly [gId a, gId d] []) (hack : (me s).out.any isStoreOp = false)
    (h : Arrives s sp (feEa (me s) a imm (feBytes z)) (feBytes z) t off) :
    feFill sp imm z a d s =
      tileRequest t (feReq s .fill sp (feEa (me s) a imm (feBytes z)) off (feBytes z) d) (readFilled s [gId a, gId d]) := by
  have hack : (me (readFilled s [gId a, gId d])).out.any isStoreOp = false := by rwa [me_readFilled_out]
  rw [feFill, inSet_pass _ hi.kind, sources_pass _ hi.full hi.sound, feSize_eq]
  simp only [effAddr_filled]
  cases sp with
  | l =>
    obtain ⟨⟨hal, ht, hin, rfl⟩, -⟩ := h
    simp only [storeAccess_pass (x := .l) _ hal hin, acked_pass _ hack, myTile_readFilled, myTile_of ht, feReq_readFilled]
  | m =>
    simp only [arrives_accepted h hi.kind, acked_pass _ hack, arrives_home h, sendRequest_quiet _ (arrives_noise h _), feReq_readFilled]
  | g => exact h.1.2.elim

/-- The words of an unconditional store are written and set full, or set empty. -/
def setWords (v : Bool) (off n : Nat) (x : Word) (y : Tile) : Tile :=
  if v then lFill (storeWrite y .l off n x.toNat) (off / 4) (n / 4) else lDrain y (off / 4) (n / 4)

theorem setWords_frame (v : Bool) (off n : Nat) (x : Word) (y : Tile) :
    (setWords v off n x y).harts = y.harts ∧ (setWords v off n x y).fe = y.fe := by
  cases v with
  | false => exact ⟨rfl, rfl⟩
  | true => exact ⟨storeWrite_harts .., (storeWrite_lists ..).2⟩

theorem tileSet_idle {s : State} (idle : (getTile s t).fe = []) (v : Bool) (x : Word) :
    tileSet t off n (if v then some x else none) s = modTile s t (setWords v off n x) := by
  have serves : serveTileAll (modTile s t (setWords v off n x)) t = modTile s t (setWords v off n x) :=
    serveTileAll_none (by rw [modTile, getTile_setTile_same, (setWords_frame ..).2, idle])
  cases v <;> exact serves

/-- A short instruction that changes its words at a tile goes on. -/
theorem done_modTile {s : State} {f : Tile → Tile} (hf : (f (getTile s t)).harts = (getTile s t).harts) :
    done 4 (modTile s t f) = .next (complete (modTile s t f) s.cur ((me s).pc + 4)) := by
  have hart : me (modTile s t f) = me s := getHart_modTile hf s.cur
  rw [done, goto, hart, modTile_cur]
  rfl

theorem feSet_sets {v : Bool} {srcs : List RegId} (hsrcs : srcs = if v then [gId a, gId d] else [gId a]) (hi : Issues s threadOnly srcs [])
    (hack : v = true → (me s).out.any isStoreOp = false) (h : Arrives s sp (feEa (me s) a imm n) n t off) (idle : (getTile s t).fe = []) :
    feSet v sp imm n a d s =
      .next (complete (modTile (readFilled s srcs) t (setWords v off n (rg (me s) d))) s.cur ((me s).pc + 4)) := by
  have pass (k : State → Out) : released v (readFilled s srcs) k = k (readFilled s srcs) := by
    cases v with
    | false => rfl
    | true => exact acked_pass k (by rw [me_readFilled_out]; exact hack rfl)
  have sets : done 4 (tileSet t off n (if v then some (rg (me s) d) else none) (readFilled s srcs)) =
      .next (complete (modTile (readFilled s srcs) t (setWords v off n (rg (me s) d))) s.cur ((me s).pc + 4)) := by
    rw [tileSet_idle (by rw [getTile_readFilled_fe, idle]), done_modTile (setWords_frame ..).1, readFilled_cur, me_readFilled_pc]
  rw [← sets, feSet, inSet_pass _ hi.kind, ← hsrcs, sources_pass _ hi.full hi.sound]
  simp only [effAddr_filled, rg_readFilled]
  cases sp with
  | l =>
    obtain ⟨⟨hal, ht, hin, rfl⟩, -⟩ := h
    simp only [storeAccess_pass (x := .l) _ hal hin, pass, myTile_readFilled, myTile_of ht]
  | m => simp only [arrives_accepted h hi.kind, pass, arrives_home h, meshSet, onLoom_quiet (arrives_noise h _)]
  | g => exact h.1.2.elim
end

/-! ## The rows of O11 -/

theorem exec_feLoad {imm : Imm8} {z : FeSize} {a d : GReg} {r : Instr × AmoSpace × Bool} (hr : r ∈ feLoads imm z a d) (s : State) :
    exec r.1 s = feLoad (if r.2.2 then .consume else .peek) r.2.1 imm z a d s := by
  simp only [feLoads, List.mem_cons, List.not_mem_nil, or_false] at hr
  rcases hr with rfl | rfl | rfl | rfl <;> rfl

/-- What a load does to its words changes no hart and no list. -/
theorem tileEffect_frame {r : FeReq} (load : r.op ≠ .fill) (x : Tile) :
    (tileEffect x r).harts = x.harts ∧ (tileEffect x r).fe = x.fe := by
  cases h : r.op with
  | fill => exact absurd h load
  | consume | peek => rw [tileEffect, h]; exact ⟨rfl, rfl⟩

/-- The words of a load are full. -/
theorem tileCan_load {s : State} {t off n : Nat} {sp : AmoSpace} {d : GReg} {op : FeOp} (load : op ≠ .fill) (ea : Word) (rs : List RegId) :
    tileCan (getTile (readFilled s rs) t) (feReq s op sp ea off n d) = true ↔ ∀ k, off / 4 ≤ k → k < off / 4 + n / 4 → wordFull s t k := by
  have full : tileCan (getTile (readFilled s rs) t) (feReq s op sp ea off n d) =
      lAllFull (getTile (readFilled s rs) t) (off / 4) (n / 4) := by
    cases op with
    | fill => exact absurd rfl load
    | consume | peek => rfl
  rw [full, lAllFull_iff, getTile_readFilled_lEmpty]
  rfl

theorem sameWords_modTile_id (s : State) (t : Nat) : SameWords s (modTile s t fun x => x) := by
  refine ⟨modTile_mem .., modTile_gEmpty .., fun u x => ?_, fun u => ?_⟩ <;> rw [getTile_modTile] <;> split <;> simp [*]

/-- What a load leaves of its words: all of them full, or none. -/
theorem load_words {s s1 s' : State} {t off n : Nat} {b : Bool} {sp : AmoSpace} {ea : Word} {d : GReg} (before : SameWords s s1)
    (after : SameWords (modTile s1 t (tileEffect · (feReq s (if b then .consume else .peek) sp ea off n d))) s') :
    (∀ u x b, storeByte s' u x b = storeByte s u x b) ∧ s'.mem = s.mem ∧
      if b then OnlyWordBits s s' t off n false else s'.gEmpty = s.gEmpty ∧ ∀ u k, wordFull s' u k ↔ wordFull s u k := by
  cases b with
  | true =>
    obtain ⟨mem, bytes⟩ := drained_bytes before after
    exact ⟨bytes, mem, drained_bits before after⟩
  | false =>
    have same : SameWords s s' := (before.trans (sameWords_modTile_id s1 t)).trans after
    exact ⟨same.storeByte, same.mem, same.gBits, same.wordFull⟩

theorem storePoison_readFilled (s : State) (rs : List RegId) (t : Nat) (x : Store) (a n : Nat) :
    storePoison (getTile (readFilled s rs) t) x a n = storePoison (getTile s t) x a n := by
  simp [storePoison]

/-- Settles O11: a load comes to its home (`feLoad_arrives`), where it is served (`tileServe_load`, `load_words`), waits or is refused
(`tileRequest_waits`, `tileRequest_retries`). -/
theorem fullEmptyLoads : Obligations.FullEmptyLoads := by
  unfold Obligations.FullEmptyLoads
  intro imm z a d r hr s t off hi n ea s1 harr
  have load : (if r.2.2 then FeOp.consume else .peek) ≠ .fill := by split <;> nofun
  have can := tileCan_load (s := s) (t := t) (off := off) (n := n) (sp := r.2.1) (d := d) load ea [gId a]
  have list : (getTile s1 t).fe = (getTile s t).fe := getTile_readFilled_fe ..
  rw [exec_feLoad hr, feLoad_arrives hi harr]
  refine ⟨fun full idle sound clean => ?_, fun notFull => ?_⟩
  · let q := feReq s (if r.2.2 then .consume else .peek) r.2.1 ea off n d
    obtain ⟨harts, lists⟩ := tileEffect_frame (r := q) load (getTile s1 t)
    have served : tileServe s1 t q = delivered (modTile s1 t (tileEffect · q)) s.cur
        (fun h => wg h d (feWord n (memRead (getTile s t).l off n))) ((me s).pc + 4) := by
      rw [tileServe_load load rfl rfl (by rwa [getTile_readFilled_flaws]) (by rwa [storePoison_readFilled]), getTile_readFilled_l]
      rfl
    have still : (getTile (modTile s1 t (tileEffect · q)) t).fe = (getTile s1 t).fe := by rw [modTile, getTile_setTile_same, lists]
    refine ⟨_, tileRequest_serves (can.mpr full) (list.trans idle) served ((delivered_fe t).trans still), ?_, delivered_acquired,
      load_words (sameWords_readFilled s _) delivered_words⟩
    have same : getHart (modTile s1 t (tileEffect · q)) s.cur = getHart s1 s.cur := getHart_modTile harts s.cur
    simp only [delivered_hart, getHart_complete_same, getHart_modHart_same, same]
  · intro q
    have cannot := Bool.eq_false_iff.mpr (notFull ∘ can.mp)
    refine ⟨fun room => ?_, fun room => ?_⟩
    · rw [tileRequest_waits cannot (list ▸ room), list, readFilled_reads, readFilled_cur]
      rfl
    · rw [tileRequest_retries cannot (list ▸ room), readFilled_cycle, readFilled_cur]
      rfl

/-! ## The rows of O12 -/

theorem exec_feFill {imm : Imm8} {z : FeSize} {a d : GReg} {r : Instr × AmoSpace} (hr : r ∈ feFills imm z a d) (s : State) :
    exec r.1 s = feFill r.2 imm z a d s := by
  simp only [feFills, List.mem_cons, List.not_mem_nil, or_false] at hr
  rcases hr with rfl | rfl <;> rfl

/-- A row of unconditional stores writes its word, or only empties it. -/
theorem exec_feSet {imm : Imm8} {z : FeSize} {a d : GReg} {r : Instr × AmoSpace × Bool × Nat} (hr : r ∈ feSets imm z a d) (s : State) :
    ∃ d', (r.2.2.1 = true → d' = d) ∧ exec r.1 s = feSet r.2.2.1 r.2.1 imm r.2.2.2 a d' s := by
  simp only [feSets, List.mem_cons, List.not_mem_nil, or_false] at hr
  rcases hr with rfl | rfl | rfl | rfl
  · exact ⟨d, fun _ => rfl, by rw [← feSize_eq]; rfl⟩
  · exact ⟨0, nofun, rfl⟩
  · exact ⟨d, fun _ => rfl, by rw [← feSize_eq]; rfl⟩
  · exact ⟨0, nofun, rfl⟩

/-- The words of a fill are empty. -/
theorem tileCan_fill {s : State} {t off n : Nat} {sp : AmoSpace} {d : GReg} (ea : Word) (rs : List RegId) :
    tileCan (getTile (readFilled s rs) t) (feReq s .fill sp ea off n d) = true ↔ ∀ k, off / 4 ≤ k → k < off / 4 + n / 4 → ¬ wordFull s t k := by
  have empty : tileCan (getTile (readFilled s rs) t) (feReq s .fill sp ea off n d) =
      lAllEmpty (getTile (readFilled s rs) t) (off / 4) (n / 4) := rfl
  simp only [empty, lAllEmpty_iff, getTile_readFilled_lEmpty, wordFull, not_not]

/-- What an unconditional store leaves of its words: written and full, or empty. -/
theorem set_words {s s1 s' : State} {t off n : Nat} {v : Bool} {x : Word} (before : SameWords s s1)
    (after : SameWords (modTile s1 t (setWords v off n x)) s') :
    (if v then memRead (getTile s' t).l off n = x.toNat % 256 ^ n ∧ OnlyStoreBytes s s' t .l off n
      else s'.mem = s.mem ∧ ∀ u x b, storeByte s' u x b = storeByte s u x b) ∧ OnlyWordBits s s' t off n v := by
  cases v with
  | true =>
    obtain ⟨bytes, store, bits⟩ := filled_words before after
    exact ⟨⟨bytes, store⟩, bits⟩
  | false => exact ⟨drained_bytes before after, drained_bits before after⟩

/-- What changes the words of a tile leaves its hart's completion as it is. -/
theorem getHart_complete_modTile {s : State} {t : Nat} {f : Tile → Tile} (hf : (f (getTile s t)).harts = (getTile s t).harts) (h : HartId)
    (p : Word) : getHart (complete (modTile s t f) h p) h = getHart (complete s h p) h := by
  rw [getHart_complete_same, getHart_complete_same, getHart_modTile hf]

/-- Settles O12: a fill comes to its home (`feFill_arrives`), where it is served (`tileServe_fill`) or waits (`tileRequest_waits`); an
unconditional store is performed in any case (`feSet_sets`). -/
theorem fullEmptyStores : Obligations.FullEmptyStores := by
  unfold Obligations.FullEmptyStores
  refine ⟨?_, ?_⟩
  · intro imm z a d r hr s t off hi hack n ea s1 harr
    have can := tileCan_fill (s := s) (t := t) (off := off) (n := n) (sp := r.2) (d := d) ea [gId a, gId d]
    have list : (getTile s1 t).fe = (getTile s t).fe := getTile_readFilled_fe ..
    rw [exec_feFill hr, feFill_arrives hi hack harr]
    refine ⟨fun empty idle => ?_, fun notEmpty room => ?_⟩
    · let q := feReq s .fill r.2 ea off n d
      have served : tileServe s1 t q = complete (modTile s1 t (setWords true off n (rg (me s) d))) s.cur ((me s).pc + 4) :=
        tileServe_fill rfl rfl rfl
      obtain ⟨harts, lists⟩ := setWords_frame true off n (rg (me s) d) (getTile s1 t)
      refine ⟨_, tileRequest_serves (can.mpr empty) (list.trans idle) served ?_, ?_⟩
      · simpa [complete, completeAs, modTile] using lists.trans list
      · obtain ⟨⟨bytes, store⟩, bits⟩ := set_words (v := true) (sameWords_readFilled s [gId a, gId d]) (sameWords_complete ..)
        exact ⟨bytes, store, bits, getHart_complete_modTile harts ..⟩
    · intro q
      rw [tileRequest_waits (Bool.eq_false_iff.mpr (notEmpty ∘ can.mp)) (list ▸ room), list, readFilled_reads, readFilled_cur]
      rfl
  · intro imm z a d r hr s t off srcs hi hack n s1 harr idle
    obtain ⟨d', hd, he⟩ := exec_feSet hr s
    have reads : srcs = if r.2.2.1 then [gId a, gId d'] else [gId a] := by
      unfold srcs
      split
      next v => rw [hd v]
      next => rfl
    obtain ⟨harts, -⟩ := setWords_frame r.2.2.1 off n (rg (me s) d') (getTile s1 t)
    obtain ⟨words, bits⟩ := set_words (v := r.2.2.1) (x := rg (me s) d') (sameWords_readFilled s srcs) (sameWords_complete _ s.cur ((me s).pc + 4))
    refine ⟨_, he.trans (feSet_sets reads hi hack harr idle), ?_, bits, getHart_complete_modTile harts ..⟩
    split
    next v =>
      rw [if_pos v] at words
      rwa [← hd v]
    next v => rwa [if_neg v] at words

end Sys2Proof.Machine
end


section
/-! PROOF of O14: its negation. The clause on atomics of G says of every state that the atomic leaves the record of its hart's last wait (R51) as it
is, and has no premise on the gradient queues: where the hart is still listed as waiting at a queue, and its atomic clears EN of that queue's
descriptor (R304, R308), the write ends that wait, which is noted in the hart with the cycle of the write. -/

namespace Sys2Proof.Machine

open Sys2Proof.Claims Sys2Proof.Laws

/-- The reset state in cycle 5 with page 0 mapped for tile 0. A descriptor of a gradient queue with EN set is at address 0, and slot 0 of tile 0,
which has waited there since cycle 0 and is *ready* again, is still listed as waiting. -/
def listedWaiter : State :=
  modMe { State.reset with
    ctxs := [(0, loadCtx)], dies := Vector.replicate 4 { Die.reset with tlb := [⟨.tile 0, 0, 0, 3, 0, loadPte, []⟩] },
    mem := [(0, 16)], gqWait := [(0, .hart (.tile 0 0))], cycle := 5 } fun h => { h with status := .ready, why := some (.gradQueue 0 false) }

/-- AMOG SWAP.d of zero at address 0, which clears EN there. -/
def clearEn : Instr := .amoSwapD .g .rlx .dev 1 0 0

def clearEnRow : AmoRow := ⟨clearEn, 8, [0], some 1, fun g _ => (g 0).toNat, w64, fun _ _ => 0⟩

theorem clearEnRow_mem : clearEnRow ∈ amoRows .g .rlx .dev 1 0 0 := by simp [amoRows, clearEnRow, clearEn]

theorem clearEn_issues : AmoIssues clearEnRow listedWaiter .g .rlx 0 := ⟨issues_of (by decide +kernel), by rintro (h | h) <;> cases h⟩

theorem clearEn_translated :
    xlateHart (readFilled listedWaiter [gId 0, gId 0]) listedWaiter.cur 0 .readWrite = (readFilled listedWaiter [gId 0, gId 0], .ok 0) :=
  xlateHart_atHand (s := readFilled listedWaiter [gId 0, gId 0]) (atHand_of (by decide +kernel))

/-- When the last wait of a hart began, as it stands after an outcome. -/
def sinceAfter (h : HartId) (o : Out) : Nat :=
  match o with
  | .next s => (getHart s h).since
  | .fault _ | .refused _ => 0

/-- The wait of the hart is noted in the cycle in which its atomic ends it. -/
theorem clearEn_since : sinceAfter listedWaiter.cur (exec clearEn listedWaiter) = 5 := by decide +kernel

/-- Refutes O14: the hart of `listedWaiter` does not leave its last wait at cycle 0 behind `clearEn`. -/
theorem not_atomics : ¬ Obligations.Atomics := by
  unfold Obligations.Atomics
  rintro ⟨-, home⟩
  obtain ⟨s', run, -, -, hart, -⟩ := home .rlx .dev 1 0 0 clearEnRow clearEnRow_mem listedWaiter _ 0 clearEn_issues (by decide +kernel)
    (arrives_g (by decide +kernel)) clearEn_translated (by decide +kernel)
  have kept : (getHart s' listedWaiter.cur).since = 0 := (congrArg Hart.since hart).trans (by decide +kernel)
  have noted : (getHart s' listedWaiter.cur).since = 5 := congrArg (sinceAfter listedWaiter.cur) run |>.symm.trans clearEn_since
  omega

end Sys2Proof.Machine
end


section
/-! PROOF of O13: the full/empty forms of G. Once it is translated a request is at its slice in the next state (`feLoadG_arrives`,
`stfgF_arrives`, `feSetG_sets`), and what comes of it there is memory and the full/empty bits of one doubleword (`Performed`). -/

namespace Sys2Proof.Machine

open Sys2Proof.Claims

/-! ## What a write at a home leaves of the rest (R285, R301, R304, R308) -/

/-- What no write at a home changes: the packets to come, the full/empty bits, the requests that wait for them, and the notes of the instruction. -/
def beside (s : State) := (s.noise, s.gEmpty, s.gfe, s.reads, fun u => (getTile s u).lEmpty)

theorem beside_modHart (s : State) (h : HartId) (f : Hart → Hart) : beside (modHart s h f) = beside s := by simp [beside]

theorem beside_findError (s : State) (line : Nat) : beside (findError s line) = beside s := by
  unfold findError
  dsimp only
  split
  · rfl
  · split
    · split <;> rfl
    · rfl

theorem beside_wakeSlice (s : State) (pa : Nat) : beside (wakeSlice s pa) = beside s := by
  unfold wakeSlice
  extract_lets found
  have h1 : beside found = beside s := by
    unfold found
    split
    · rfl
    · exact beside_findError ..
  exact h1

theorem beside_dropLine (s : State) (line : Nat) : beside (dropLine s line) = beside s := by
  unfold dropLine
  split <;> rfl

theorem beside_noteEnable (s : State) (pa : Nat) : beside (noteEnable s pa) = beside s := by
  unfold noteEnable
  dsimp only
  split <;> rfl

theorem beside_endWait (s : State) (pa : Nat) (who : Agent) : beside (endWait s pa who) = beside s := by
  unfold endWait
  split
  next h =>
    split
    · cases h <;> rfl
    · split
      · exact beside_modHart ..
      · rfl
  · rfl

theorem beside_noteDisable (s : State) (pa : Nat) : beside (noteDisable s pa) = beside s := by
  unfold noteDisable
  extract_lets w ended
  have h1 : beside ended = beside s := foldl_keeps beside (fun _ _ => beside_endWait ..) w _
  exact (foldl_keeps beside (fun _ _ => by rfl) _ ended).trans h1

theorem beside_physWrite (s : State) (pa n v : Nat) : beside (physWrite s pa n v) = beside s := by
  unfold physWrite
  extract_lets _ _ _ _ put noted cleared
  have h1 : beside put = beside s := beside_dropLine ..
  have h2 : beside noted = beside put := by
    unfold noted
    split
    · exact beside_noteEnable ..
    · split
      · exact beside_noteDisable ..
      · rfl
  have h3 : beside cleared = beside noted := by
    unfold cleared
    split <;> rfl
  rw [beside_wakeSlice, ← h1, ← h2, ← h3]
  split <;> rfl

theorem beside_dropCached (s : State) (h : HartId) (pa : Nat) : beside (dropCached s h pa) = beside s := by
  cases h with
  | mender m i => rfl
  | tile t i =>
    have words (u : Nat) : (getTile (dropCached s (.tile t i) pa) u).lEmpty = (getTile s u).lEmpty :=
      getTile_modTile_keeps Tile.lEmpty (by exact fun _ => rfl) s t u
    simp only [beside, words]
    rfl

theorem dropCached_frame (s : State) (h : HartId) (pa : Nat) : (dropCached s h pa).mem = s.mem ∧ Carried s (dropCached s h pa) := by
  cases h with
  | mender m i => exact ⟨rfl, .refl s⟩
  | tile t i => exact ⟨rfl, (Carried.refl s).modTile (f := fun x => { x with gcache := x.gcache.filter (·.1 != pa / 64) }) rfl⟩

/-! ## A translation on a quiet loom (R280 to R284, R298) -/

theorem travelAll_quiet {s : State} (h : s.noise = []) (n : Nat) : travelAll n s = (s, true) := by
  induction n with
  | zero => rfl
  | succ n ih => rw [travelAll, travel_quiet h]; exact ih

theorem walkBy_noise {s : State} (h : s.noise = []) (d : Fin 4) (c : Nat) (x : Ctx) (va : Nat) : (walkBy s d c x va).1.noise = [] := by
  unfold walkBy
  split
  · exact h
  · extract_lets _ _ _ new entered
    have quiet : entered.noise = [] :=
      (foldl_keeps State.noise (fun s l => congrArg Prod.fst (beside_wakeSlice s (l * 64))) new _).trans h
    rw [travelAll_quiet quiet]
    exact quiet

theorem tlbPut_noise (s : State) (d : Fin 4) (e : Tlb) : (tlbPut s d e).noise = s.noise := by
  unfold tlbPut
  dsimp only
  split <;> rfl

theorem tlbFill_noise (s : State) (d : Fin 4) (l : List Holder) (e : Tlb) : (tlbFill s d l e).noise = s.noise :=
  foldl_keeps State.noise (fun _ _ => tlbPut_noise ..) l s

theorem walkAccess_noise {s : State} (h : s.noise = []) (d : Fin 4) (l : List Holder) (c : Nat) (x : Ctx) (va : Nat) (need : Need) :
    (walkAccess s d l c x va need).1.noise = [] := by
  have walked := walkBy_noise h d c x va
  unfold walkAccess
  split
  next e => rw [e] at walked; exact walked
  next e => rw [e] at walked; exact walked
  next t leaf lines e =>
    rw [e] at walked
    split
    · exact walked
    · extract_lets _ pte marked entered
      have h1 : marked.noise = t.noise := by
        unfold marked
        split
        · rfl
        · exact congrArg Prod.fst (beside_physWrite ..)
      exact (tlbFill_noise ..).trans (h1.trans walked)

theorem xlate_noise {s : State} (h : s.noise = []) (d : Fin 4) (l : List Holder) (c va : Nat) (need : Need) (ref : Option Nat) :
    (xlate s d l c va need ref).1.noise = [] := by
  have walked (x : Ctx) := walkAccess_noise h d l c x va need
  unfold xlate
  split
  · exact h
  · split
    · exact h
    · split
      · exact h
      · split
        · split
          · exact h
          · split
            · exact walked _
            · split
              · exact h
              · exact (tlbFill_noise ..).trans h
        · exact walked _

theorem xlateHart_noise {s t : State} {h : HartId} {va : Nat} {need : Need} {r : XRes} (e : xlateHart s h va need = (t, r)) (hn : s.noise = []) :
    t.noise = [] := by
  have all : (xlateHart s h va need).1.noise = [] := xlate_noise hn ..
  rwa [e] at all

/-! ## What an access at a slice comes to (R96, R97) -/

/-- Memory is `m` and the full/empty bits of G are `l`; every hart goes on with what it is about, and no other list has changed. -/
structure Performed (s t : State) (m : Mem) (l : List Nat) : Prop where
  carried : Carried s t
  mem : t.mem = m
  bits : t.gEmpty = l
  words : ∀ u, (getTile t u).lEmpty = (getTile s u).lEmpty
  waiting : t.gfe = s.gfe
  notes : t.reads = s.reads

theorem Performed.start (s : State) : Performed s s s.mem s.gEmpty := ⟨.refl s, rfl, rfl, fun _ => rfl, rfl, rfl⟩

section
variable {s t : State} {m : Mem} {l : List Nat} (h : Performed s t m l)
include h

theorem Performed.next {u : State} {n : Mem} (carried : Carried t u) (mem : u.mem = n) (rest : beside u = beside t) : Performed s u n l := by
  simp only [beside, Prod.mk.injEq, funext_iff] at rest
  obtain ⟨-, bits, waiting, notes, words⟩ := rest
  exact ⟨h.carried.trans carried, mem, bits.trans h.bits, fun v => (words v).trans (h.words v), waiting.trans h.waiting, notes.trans h.notes⟩

theorem Performed.wake (pa : Nat) : Performed s (wakeSlice t pa) m l :=
  h.next (wakeSlice_carried (.refl t) pa) ((wakeSlice_mem ..).trans h.mem) (beside_wakeSlice ..)

theorem Performed.write (pa n v : Nat) : Performed s (physWrite t pa n v) (memWrite m pa n v) l :=
  h.next (physWrite_carried (.refl t) ..) (by rw [physWrite_mem, h.mem]) (beside_physWrite ..)

theorem Performed.drop (k : HartId) (pa : Nat) : Performed s (dropCached t k pa) m l := by
  obtain ⟨mem, carried⟩ := dropCached_frame t k pa
  exact h.next carried (mem.trans h.mem) (beside_dropCached ..)

theorem Performed.fill (pa : Nat) : Performed s (gFill t pa) m (delNat l (pa / 8)) :=
  ⟨h.carried.elsewhere, h.mem, congrArg (delNat · (pa / 8)) h.bits, h.words, h.waiting, h.notes⟩

theorem Performed.drain (pa : Nat) : Performed s (gDrain t pa) m (insNat l (pa / 8)) :=
  ⟨h.carried.elsewhere, h.mem, congrArg (insNat · (pa / 8)) h.bits, h.words, h.waiting, h.notes⟩
end

/-- Slices at which no request waits serve none. -/
theorem serveSlicesAll_none {s : State} (idle : s.gfe = []) : serveSlicesAll s = s := by simp [serveSlicesAll, idle, serveSlices]

/-! ## A request at its slice (R97, R98) -/

section
variable {s : State} {r : FeReq} (idle : s.gfe = [])
include idle

/-- The request waits, alone. -/
theorem sliceRequest_waits (can : sliceCan (wakeSlice s r.addr) r = false) : ∃ s', sliceRequest r s = .next s' ∧
    s'.gfe = [{ r with notes := s.reads }] ∧ s'.mem = s.mem ∧ s'.gEmpty = s.gEmpty ∧
    (getHart s' s.cur).status = .parked (.word .g r.ea.toNat) ∧ (getHart s' s.cur).pc = (me s).pc := by
  have woken := (Performed.start s).wake r.addr
  have list : (wakeSlice s r.addr).gfe = [] := woken.waiting.trans idle
  have cur : (wakeSlice s r.addr).cur = s.cur := woken.carried.cur
  refine ⟨_, by rw [sliceRequest, if_neg (by simp [can]), list, if_pos (by simp)]; rfl, ?_, ?_, ?_, ?_⟩
  · simp [woken.notes]
  · simp [woken.mem]
  · simp [woken.bits]
  · rw [← cur]
    obtain ⟨n, parked⟩ := getHart_parkHart_same { wakeSlice s r.addr with gfe := [] ++ [{ r with notes := (wakeSlice s r.addr).reads }] }
      (wakeSlice s r.addr).cur (.word .g r.ea.toNat)
    exact ⟨congrArg Hart.status parked, (congrArg Hart.pc parked).trans woken.carried.me.pc⟩

omit idle in
/-- A load is served where its doubleword is full. -/
theorem sliceCan_load {b : Bool} (op : r.op = if b then .consume else .peek) :
    sliceCan (wakeSlice s r.addr) r = !s.gEmpty.contains (r.addr / 8) := by
  rw [← ((Performed.start s).wake r.addr).bits]
  cases b <;> simp only [sliceCan, op] <;> rfl

omit idle in
/-- A fill is served where its doubleword is empty. -/
theorem sliceCan_fill (op : r.op = .fill) : sliceCan (wakeSlice s r.addr) r = s.gEmpty.contains (r.addr / 8) := by
  rw [← ((Performed.start s).wake r.addr).bits]
  simp only [sliceCan, op, gFull, Bool.not_not]

/-- A request whose condition holds is served, and no other. -/
theorem sliceRequest_serves (can : sliceCan (wakeSlice s r.addr) r = true) {s' : State} (served : sliceServe (wakeSlice s r.addr) r = s')
    (still : s'.gfe = s.gfe) : sliceRequest r s = .next s' := by
  rw [sliceRequest, if_pos can, served, serveSlicesAll_none (still.trans idle)]

/-- A load of a full doubleword without an error is served: the doubleword stays full or is emptied, and what it holds is delivered. -/
theorem sliceRequest_load {b : Bool} (op : r.op = if b then .consume else .peek) (sound : r.bad = false) (notes : r.notes = [])
    (full : s.gEmpty.contains (r.addr / 8) = false) (hp : physPoison s r.addr 8 = false) :
    ∃ t, sliceRequest r s = .next (delivered t r.hart (fun x => wg x r.d (feWord r.size (memRead s.mem r.addr 8))) r.next) ∧
      Performed s t s.mem (if b then insNat s.gEmpty (r.addr / 8) else s.gEmpty) := by
  have once := (Performed.start s).wake r.addr
  have woken := once.wake r.addr
  have clean := physPoison_wakeSlice (physPoison_wakeSlice hp (by decide)) (by decide)
  have load : r.op ≠ .fill := by rw [op]; split <;> nofun
  have can : sliceCan (wakeSlice s r.addr) r = true := by rw [sliceCan_load op, full]; rfl
  have effect : Performed s (sliceEffect (wakeSlice (wakeSlice s r.addr) r.addr) r) s.mem
      (if b then insNat s.gEmpty (r.addr / 8) else s.gEmpty) := by
    cases b with
    | true => simp only [sliceEffect, op]; exact woken.drain r.addr
    | false => simp only [sliceEffect, op]; exact woken
  have dropped := effect.drop r.hart r.addr
  refine ⟨_, sliceRequest_serves idle can ?_ ?_, dropped⟩
  · simp [sliceServe, beq_eq_false_iff_ne.mpr load, sound, notes, clean, physRead, woken.mem, feDeliver_load load, commitNotes, delivered]
  · simp [delivered, dropped.waiting]

/-- A fill of an empty doubleword is served. -/
theorem sliceRequest_fill (op : r.op = .fill) (sound : r.bad = false) (notes : r.notes = []) (empty : s.gEmpty.contains (r.addr / 8) = true) :
    ∃ t, sliceRequest r s = .next (complete t r.hart r.next) ∧
      Performed s t (memWrite s.mem r.addr 8 r.val.toNat) (delNat s.gEmpty (r.addr / 8)) := by
  have once := (Performed.start s).wake r.addr
  have filled := (((once.wake r.addr).write r.addr 8 r.val.toNat).fill r.addr).drop r.hart r.addr
  have can : sliceCan (wakeSlice s r.addr) r = true := (sliceCan_fill op).trans empty
  refine ⟨_, sliceRequest_serves idle can ?_ ?_, filled⟩
  · simp [sliceServe, op, sound, notes, sliceEffect, feDeliver, commitNotes]
  · simp [filled.waiting]

/-- An unconditional store on a quiet loom is performed. -/
theorem sliceSet_sets (hn : s.noise = []) (v : Bool) (pa : Nat) (x ea : Word) :
    Performed s (sliceSet v pa x ea s) (if v then memWrite s.mem pa 8 x.toNat else s.mem)
      (if v then delNat s.gEmpty (pa / 8) else insNat s.gEmpty (pa / 8)) := by
  have dropped := (Performed.start s).drop s.cur pa
  have quiet : (dropCached s s.cur pa).noise = [] := (congrArg Prod.fst (beside_dropCached ..)).trans hn
  unfold sliceSet
  rw [onLoom_quiet quiet]
  cases v with
  | true =>
    have set := (dropped.write pa 8 x.toNat).fill pa
    simpa only [if_true, serveSlicesAll_none (set.waiting.trans idle)] using set
  | false =>
    have set := (dropped.wake pa).drain pa
    simpa only [Bool.false_eq_true, if_false, serveSlicesAll_none (set.waiting.trans idle)] using set
end

/-! ## The forms come to their slice (R88, R97) -/

section
variable {s s2 : State} {imm : Imm8} {a d : GReg} {pa : Nat} (hal : (feEa (me s) a imm 8).toNat % 8 = 0) (hdev : isDevice pa = true)
  (harr : ArrivesG s (feEa (me s) a imm 8) 8 pa)

/-- A translation leaves the hart of the access as it was, and the loom quiet. -/
theorem translated_carried {srcs : List RegId} {need : Need} {va : Nat} (hn : s.noise = [])
    (hx : xlateHart (readFilled s srcs) s.cur va need = (s2, .ok pa)) : Carried s s2 ∧ s2.noise = [] :=
  ⟨(readFilled_carried srcs).trans (xlateHart_carried hx), xlateHart_noise hx ((readFilled_noise ..).trans hn)⟩

theorem Carried.feReq (h : Carried s s2) (op : FeOp) (sp : AmoSpace) (ea : Word) (n : Nat) : feReq s2 op sp ea pa n d = feReq s op sp ea pa n d := by
  simp only [Machine.feReq, h.cur, h.me.pc, rg, h.me.g]

include hdev hal harr

omit harr in
theorem taggedAccess_pass {srcs : List RegId} {need : Need} (k : Nat → State → Out)
    (hx : xlateHart (readFilled s srcs) s.cur (feEa (me s) a imm 8).toNat need = (s2, .ok pa)) :
    taggedAccess need (feEa (me s) a imm 8) (readFilled s srcs) k = k pa s2 := by
  rw [taggedAccess, gAccess_pass _ hal (by rw [readFilled_cur]; exact hx), if_pos hdev]

omit hal hdev in
theorem inOrder_translated (h : Carried s s2) (k : State → Out) : inOrder false (hereAcc none pa 8 (feEa (me s) a imm 8)) s2 k = k s2 := by
  refine inOrder_pass k (List.filter_eq_nil_iff.mpr fun o ho => ?_)
  rw [h.me.out] at ho
  simpa using harr.1 o ho

theorem feLoadG_arrives {op : FeOp} {need : Need} (hi : Issues s threadOrMender [gId a] [gId d])
    (hx : xlateHart (readFilled s [gId a]) s.cur (feEa (me s) a imm 8).toNat need = (s2, .ok pa)) :
    feLoadG op need imm a d s = sliceRequest (feReq s op .g (feEa (me s) a imm 8) pa 8 d) s2 := by
  obtain ⟨carried, quiet⟩ := translated_carried harr.2 hx
  rw [feLoadG, inSet_pass _ hi.kind, sources_pass _ hi.full hi.sound, dests_pass _ (by simpa using hi.free)]
  simp only [effAddr_filled, taggedAccess_pass hal hdev _ hx, inOrder_translated harr carried, sendRequest_quiet _ quiet, carried.feReq]

theorem stfgF_arrives (hi : Issues s threadOrMender [gId a, gId d] []) (hack : (me s).out.any isStoreOp = false)
    (hx : xlateHart (readFilled s [gId a, gId d]) s.cur (feEa (me s) a imm 8).toNat .write = (s2, .ok pa)) :
    execStfgF imm a d s = sliceRequest (feReq s .fill .g (feEa (me s) a imm 8) pa 8 d) s2 := by
  obtain ⟨carried, quiet⟩ := translated_carried harr.2 hx
  have hack : (me s2).out.any isStoreOp = false := by rwa [carried.me.out]
  rw [execStfgF, inSet_pass _ hi.kind, sources_pass _ hi.full hi.sound]
  simp only [effAddr_filled, taggedAccess_pass hal hdev _ hx, acked_pass _ hack, inOrder_translated harr carried, sendRequest_quiet _ quiet,
    carried.feReq]

theorem feSetG_sets {v : Bool} {srcs : List RegId} (idle : s2.gfe = []) (hsrcs : srcs = if v then [gId a, gId d] else [gId a])
    (hi : Issues s threadOrMender srcs []) (hack : v = true → (me s).out.any isStoreOp = false)
    (hx : xlateHart (readFilled s srcs) s.cur (feEa (me s) a imm 8).toNat .write = (s2, .ok pa)) :
    ∃ t, feSetG v imm a d s = .next (complete t s.cur ((me s).pc + 4)) ∧
      Performed s2 t (if v then memWrite s2.mem pa 8 (rg (me s) d).toNat else s2.mem)
        (if v then delNat s2.gEmpty (pa / 8) else insNat s2.gEmpty (pa / 8)) := by
  obtain ⟨carried, quiet⟩ := translated_carried harr.2 hx
  have pass (k : State → Out) : released v s2 k = k s2 := by
    cases v with
    | false => rfl
    | true => exact acked_pass k (by rw [carried.me.out]; exact hack rfl)
  have set := sliceSet_sets idle quiet v pa (rg (me s) d) (feEa (me s) a imm 8)
  have goes := carried.trans set.carried
  refine ⟨_, ?_, set⟩
  rw [feSetG, inSet_pass _ hi.kind, ← hsrcs, sources_pass _ hi.full hi.sound]
  simp only [effAddr_filled, rg_readFilled, taggedAccess_pass hal hdev _ hx, pass, inOrder_translated harr carried]
  rw [done, goto, goes.cur, goes.me.pc]
  rfl
end

/-! ## The rows of O13 -/

theorem exec_feLoadG {imm : Imm8} {a d : GReg} {r : Instr × Need × Bool}
    (hr : r ∈ [(Instr.ldfgC imm a d, Need.readWrite, true), (.ldfgP imm a d, .read, false)]) (s : State) :
    exec r.1 s = feLoadG (if r.2.2 then .consume else .peek) r.2.1 imm a d s := by
  simp only [List.mem_cons, List.not_mem_nil, or_false] at hr
  rcases hr with rfl | rfl <;> rfl

section
variable {s s2 t : State} {m : Mem} {l : List Nat} (carried : Carried s s2) (done : Performed s2 t m l)
include carried done

theorem Performed.hart : Goes (me s) (getHart t s.cur) := (carried.trans done.carried).hart s.cur

/-- What a load leaves of the hart that it is delivered to. -/
theorem delivered_regs (d : GReg) (v p : Word) :
    let s' := delivered t s.cur (fun x => wg x d v) p
    rg (getHart s' s.cur) d = (if d = 0 then 0 else v) ∧ (∀ c, c ≠ d → rg (getHart s' s.cur) c = rg (me s) c) ∧ (getHart s' s.cur).pc = p := by
  have regs (c : GReg) : rg (getHart (delivered t s.cur (fun x => wg x d v) p) s.cur) c = if c = d ∧ d ≠ 0 then v else rg (getHart t s.cur) c := by
    rw [delivered_hart, getHart_complete_same, getHart_modHart_same, ← rg_wg]
    rfl
  refine ⟨?_, fun c hc => ?_, ?_⟩
  · rw [regs]
    by_cases zero : d = 0
    · simp [zero]
    · simp [zero]
  · rw [regs, if_neg fun h => hc h.1, rg, (Performed.hart carried done).g, rg]
  · rw [delivered_hart, getHart_complete_same]

/-- What an unconditional store leaves, and a fill that is served. -/
theorem completed_set {v : Bool} {pa : Nat} {x p : Word} (hm : m = if v then memWrite s2.mem pa 8 x.toNat else s2.mem) :
    let s' := complete t s.cur p
    (if v then memRead s'.mem pa 8 = x.toNat ∧ ∀ b, b < pa ∨ pa + 8 ≤ b → memRead s'.mem b 1 = memRead s2.mem b 1 else s'.mem = s2.mem) ∧
      s'.gEmpty = l ∧ (∀ u, (getTile s' u).lEmpty = (getTile s2 u).lEmpty) ∧ (getHart s' s.cur).g = (me s).g ∧ (getHart s' s.cur).pc = p := by
  intro s'
  have words : SameWords t s' := sameWords_complete ..
  have mem : s'.mem = if v then memWrite s2.mem pa 8 x.toNat else s2.mem := (words.mem.trans done.mem).trans hm
  refine ⟨?_, words.gBits.trans done.bits, fun u => (words.lBits u).trans (done.words u), ?_⟩
  · cases v with
    | true =>
      rw [mem, if_pos rfl, if_pos rfl, memRead_memWrite_same]
      exact ⟨Nat.mod_eq_of_lt x.isLt, fun b hb => memRead_memWrite_other _ _ _ _ _ _ (hb.imp_left Nat.succ_le_of_lt)⟩
    | false => exact mem
  · rw [getHart_complete_same]
    exact ⟨(Performed.hart carried done).g, rfl⟩
end

/-- Settles O13: each form comes to its slice (`feLoadG_arrives`, `stfgF_arrives`, `feSetG_sets`), where a request is served
(`sliceRequest_load`, `sliceRequest_fill`) or waits (`sliceRequest_waits`). -/
theorem fullEmptyGlobal : Obligations.FullEmptyGlobal := by
  unfold Obligations.FullEmptyGlobal
  intro imm a d s s2 pa ea hal hdev _ idle harr q waits
  have waiting {op : FeOp} (carried : Carried s s2) (can : sliceCan (wakeSlice s2 pa) (feReq s op .g ea pa 8 d) = false) :
      ∃ s', sliceRequest (feReq s op .g ea pa 8 d) s2 = .next s' ∧ waits op s' := by
    obtain ⟨s', run, list, mem, bits, status, pc⟩ := sliceRequest_waits idle (r := feReq s op .g ea pa 8 d) can
    rw [carried.cur] at status pc
    exact ⟨s', run, list, mem, bits, status, pc.trans carried.me.pc⟩
  refine ⟨fun r hr hi hx => ?_, fun r hr => ?_⟩
  · have carried := (translated_carried harr.2 hx).1
    let q := feReq s (if r.2.2 then .consume else .peek) .g ea pa 8 d
    rw [exec_feLoadG hr, feLoadG_arrives hal hdev harr hi hx]
    refine ⟨fun empty => waiting carried ((sliceCan_load (r := q) rfl).trans (congrArg (!·) empty)), fun full _ clean => ?_⟩
    obtain ⟨t, run, done⟩ := sliceRequest_load idle (r := q) rfl rfl rfl full clean
    obtain ⟨same, others, pc⟩ := delivered_regs carried done d (feWord 8 (memRead s2.mem pa 8)) ((me s).pc + 4)
    exact ⟨_, run, delivered_words.mem.trans done.mem, delivered_acquired, same, others, fun u => (delivered_words.lBits u).trans (done.words u),
      delivered_words.gBits.trans done.bits, pc⟩
  · simp only [List.mem_cons, List.not_mem_nil, or_false] at hr
    rcases hr with rfl | rfl | rfl <;> intro srcs hi hack hx <;> have carried := (translated_carried harr.2 hx).1
    · have arrives : exec (.stfgF imm a d) s = sliceRequest (feReq s .fill .g ea pa 8 d) s2 := stfgF_arrives hal hdev harr hi (hack rfl) hx
      refine ⟨fun _ full => ?_, fun empty => ?_⟩
      · rw [arrives]
        exact waiting carried ((sliceCan_fill (r := feReq s .fill .g ea pa 8 d) rfl).trans full)
      · obtain ⟨t, run, done⟩ := sliceRequest_fill idle (r := feReq s .fill .g ea pa 8 d) rfl rfl rfl (empty rfl)
        exact ⟨_, arrives.trans run, completed_set (v := true) carried done rfl⟩
    · obtain ⟨t, run, done⟩ := feSetG_sets hal hdev harr (v := true) idle rfl hi hack hx
      exact ⟨nofun, fun _ => ⟨_, run, completed_set (v := true) carried done rfl⟩⟩
    · obtain ⟨t, run, done⟩ := feSetG_sets (d := 0) hal hdev harr (v := false) idle rfl hi nofun hx
      exact ⟨nofun, fun _ => ⟨_, run, completed_set (v := false) (x := 0) carried done rfl⟩⟩

end Sys2Proof.Machine
end


section
/-! PROOF of O49: the events of the host. Its write to device memory is a write at a home (`hostWrite_mem`, `hostWrite_gEmpty`); a line of its own
memory that it takes back is held by no slice and no die (`hostTakes_line`); a store to the alias region or to a reward window goes to the context
that owns its slot (`slotOwner_owned`, `aliasStore_owned`, `windowStore_owned`). -/

namespace Sys2Proof.Machine

open Sys2Proof.Claims

/-! ## The host's ports (R324, R325) -/

theorem hostUp_iff (s : State) : hostUp s = true ↔ ∃ p, ViaPort s p := by
  unfold hostUp hostPort ViaPort
  cases (s.ports.get 0).up <;> cases (s.ports.get 1).up <;> simp

theorem hostCoherent_iff (s : State) : hostCoherent s = true ↔ Coherent s := by
  have listed (p : Fin 2) : s.ports.get p ∈ s.ports.toList := by simp [Vector.get]
  simp only [hostCoherent, vany, List.any_eq_true, Bool.and_eq_true, bitAt, beq_iff_eq, Coherent]
  refine ⟨fun ⟨x, hx, up, feat⟩ => ?_, fun ⟨p, up, feat⟩ => ⟨_, listed p, up, feat⟩⟩
  obtain ⟨i, hi, rfl⟩ := List.mem_iff_getElem.mp hx
  exact ⟨⟨i, by simpa using hi⟩, up, feat⟩

/-- A port through which the host reaches memory is up. -/
theorem hostUp_of_coherent {s : State} (h : Coherent s) : hostUp s = true := by
  obtain ⟨p, up, -⟩ := h
  unfold hostUp hostPort
  match p with
  | 0 => simp [up]
  | 1 => cases (s.ports.get 0).up <;> simp [up]

/-! ## Device memory (R96, R123, R297) -/

/-- A write whose home has no wait at a gradient queue to end changes no tile. -/
theorem physWrite_tiles {s : State} (calm : s.gqWait = []) (pa n v : Nat) : (physWrite s pa n v).tiles = s.tiles := by
  have found (t : State) (line : Nat) : (findError t line).tiles = t.tiles := by
    unfold findError
    dsimp only
    split
    · rfl
    · split
      · split <;> rfl
      · rfl
  have woken (t : State) : (wakeSlice t pa).tiles = t.tiles := by
    unfold wakeSlice
    dsimp only
    split
    · rfl
    · exact found ..
  unfold physWrite
  extract_lets _ _ _ _ put noted cleared
  have h1 : put.tiles = s.tiles ∧ put.gqWait = [] := by
    unfold put dropLine
    split <;> exact ⟨rfl, calm⟩
  have h2 : noted.tiles = put.tiles := by
    unfold noted
    split
    · unfold noteEnable
      dsimp only
      split <;> rfl
    · split
      · unfold noteDisable
        rw [h1.2]
        exact foldl_keeps State.tiles (fun _ _ => by rfl) ..
      · rfl
  have h3 : cleared.tiles = noted.tiles := by
    unfold cleared
    split <;> rfl
  rw [woken, ← h1.1, ← h2, ← h3]
  split <;> rfl

/-- A line that holds no error to be found stays as it is when its slice wakes. -/
theorem wakeSlice_gPoison {s : State} {pa : Nat} (h : ∀ l ∈ s.gLatent, l.1 ≠ pa / 64) : (wakeSlice s pa).gPoison = s.gPoison := by
  unfold wakeSlice
  dsimp only
  split
  · rfl
  · rw [findError_clean h]

/-- A line that is written whole is not poisoned (R94). -/
theorem physWrite_heals (s : State) (pa v : Nat) {n : Nat} (whole : 64 ≤ n) : pa / 64 ∉ (physWrite s pa n v).gPoison := by
  unfold physWrite
  extract_lets _ _ _ _ put noted cleared
  have healed : cleared = { noted with gPoison := delNat noted.gPoison (pa / 64), gLatent := noted.gLatent.filter (·.1 != pa / 64) } :=
    if_pos whole
  have poison (t : State) (gp : t.gPoison = cleared.gPoison) (gl : t.gLatent = cleared.gLatent) : pa / 64 ∉ (wakeSlice t pa).gPoison := by
    rw [wakeSlice_gPoison (by rw [gl, healed]; exact line_filtered), gp, healed]
    simp [delNat]
  split <;> exact poison _ rfl rfl

section
variable (s : State) (pa n v : Nat) (bad : Bool)

theorem hostWrite_mem : (hostWrite s pa n v bad).mem = memWrite s.mem pa n v := by
  unfold hostWrite
  cases bad <;> exact physWrite_mem ..

theorem hostWrite_gEmpty : (hostWrite s pa n v bad).gEmpty = s.gEmpty := by
  have bits : (physWrite s pa n v).gEmpty = s.gEmpty := ((Performed.start s).write pa n v).bits
  unfold hostWrite
  cases bad <;> exact bits

theorem hostWrite_tiles (calm : s.gqWait = []) : (hostWrite s pa n v bad).tiles = s.tiles := by
  unfold hostWrite
  cases bad <;> exact physWrite_tiles calm ..

/-- What the host writes poisoned poisons its line; a whole line that it writes is sound otherwise. -/
theorem hostWrite_gPoison : (bad = true → pa / 64 ∈ (hostWrite s pa n v bad).gPoison) ∧
    (bad = false → 64 ≤ n → pa / 64 ∉ (hostWrite s pa n v bad).gPoison) := by
  unfold hostWrite
  cases bad with
  | true => exact ⟨fun _ => (mem_insNat ..).mpr (.inl rfl), nofun⟩
  | false => exact ⟨nofun, fun _ whole => physWrite_heals s pa v whole⟩
end

/-! ## What the host is told (R123, R259, R297, R324) -/

/-- What lies outside the range is neither device memory nor the alias region. -/
theorem outside_range {pa : Nat} (h : pa < Config.hdmBase ∨ aliasAt (2 ^ 32) ≤ pa) : isDevice pa = false ∧ aliasOff pa = none := by
  have beyond : ¬ (Config.hdmBase ≤ pa ∧ aliasBase ≤ pa - Config.hdmBase ∧ pa - Config.hdmBase < aliasBase + 2 ^ 32) := by
    simp only [aliasAt, aliasBase] at h ⊢
    omega
  refine ⟨decide_eq_false ?_, if_neg beyond⟩
  simp only [aliasAt, devSize] at h ⊢
  omega

theorem aliasAt_place {off : Nat} (h : off < 2 ^ 32) : isDevice (aliasAt off) = false ∧ aliasOff (aliasAt off) = some off := by
  have inside : Config.hdmBase ≤ aliasAt off ∧ aliasBase ≤ aliasAt off - Config.hdmBase ∧ aliasAt off - Config.hdmBase < aliasBase + 2 ^ 32 := by
    simp only [aliasAt, aliasBase]
    omega
  refine ⟨decide_eq_false ?_, (if_pos inside).trans (congrArg some ?_)⟩
  · simp only [aliasAt, devSize]; omega
  · simp only [aliasAt, aliasBase]; omega

section
variable {s : State} {pa n v : Nat} {data : Option Nat} {bad : Bool}

theorem hostMemAccess_incoherent (up : ∃ p, ViaPort s p) (h : ¬ Coherent s) :
    exec .hostMemAccess s = .next (hostTold s .unsupported) := by
  show execHostMemAccess s = _
  simp [execHostMemAccess, (hostUp_iff s).mpr up, mt (hostCoherent_iff s).mp h]

variable (h : Coherent s)
include h

theorem hostMemAccess_write (dev : isDevice pa = true) (ev : s.ev = .hostMem pa n (some v) bad) :
    exec .hostMemAccess s = .next (hostWrite s pa n v bad) := by
  show execHostMemAccess s = _
  simp [execHostMemAccess, hostUp_of_coherent h, (hostCoherent_iff s).mpr h, ev, dev]

theorem hostMemAccess_read (dev : isDevice pa = true) (ev : s.ev = .hostMem pa n none bad) :
    exec .hostMemAccess s = .next (hostRead s pa n) := by
  show execHostMemAccess s = _
  simp [execHostMemAccess, hostUp_of_coherent h, (hostCoherent_iff s).mpr h, ev, dev]

theorem hostMemAccess_add (dev : isDevice pa = true) (ev : s.ev = .hostAdd pa n v) :
    exec .hostMemAccess s = .next (hostAdds s pa n v fun s x => hostWrite s pa n x false) := by
  show execHostMemAccess s = _
  simp [execHostMemAccess, hostUp_of_coherent h, (hostCoherent_iff s).mpr h, ev, dev]

theorem hostMemAccess_aliasRead {off : Nat} (ho : off < 2 ^ 32) (ev : s.ev = .hostMem (aliasAt off) n none bad) :
    exec .hostMemAccess s = .next (hostTold s (.data 0 false)) := by
  obtain ⟨dev, place⟩ := aliasAt_place ho
  show execHostMemAccess s = _
  simp [execHostMemAccess, hostUp_of_coherent h, (hostCoherent_iff s).mpr h, ev, dev, place]

theorem hostMemAccess_outside (ho : pa < Config.hdmBase ∨ aliasAt (2 ^ 32) ≤ pa) (ev : s.ev = .hostMem pa n data bad) :
    exec .hostMemAccess s = .next (hostTold s .unsupported) := by
  obtain ⟨dev, place⟩ := outside_range ho
  show execHostMemAccess s = _
  simp [execHostMemAccess, hostUp_of_coherent h, (hostCoherent_iff s).mpr h, ev, dev, place]
end

/-- An atomic addition of the host leaves the sum (R123). -/
theorem hostAdds_adds {s : State} {pa n v : Nat} {put : State → Nat → State} (hput : ∀ x, (put s x).mem = memWrite s.mem pa n x) :
    memRead (hostAdds s pa n v put).mem pa n = (memRead s.mem pa n + v) % 256 ^ n := by
  have mem : (hostAdds s pa n v put).mem = (put s ((memRead s.mem pa n + v) % 256 ^ n)).mem := rfl
  rw [mem, hput, memRead_memWrite_same, Nat.mod_mod]

/-! ## Lines of the host's memory (R108, R123, R285) -/

/-- No die keeps a line of whose write it has been told. -/
theorem dropLine_dir (s : State) (line : Nat) (d : Fin 4) : line ∉ ((dropLine s line).dies.get d).dir := by
  unfold dropLine
  split
  · rw [get_vmap]; simp [delNat]
  next absent =>
    intro held
    refine absent (List.any_eq_true.mpr ⟨s.dies.get d, by simp [Vector.get], ?_⟩)
    simpa using held

/-- The host writes the line that it takes back: it holds its bytes, no slice holds the line, and no die a translation made from it. -/
theorem hostTakes_line (s : State) (pa n v : Nat) (bad : Bool) :
    (hostTakes s pa n (some v) bad).mem = memWrite s.mem pa n v ∧ pa / 64 ∉ (hostTakes s pa n (some v) bad).hostHeld ∧
      ∀ d : Fin 4, pa / 64 ∉ ((hostTakes s pa n (some v) bad).dies.get d).dir := by
  have dir := dropLine_dir s (pa / 64)
  have mem := dropLine_mem s (pa / 64)
  have away : pa / 64 ∉ delNat (dropLine s (pa / 64)).hostHeld (pa / 64) := by simp [delNat]
  unfold hostTakes
  dsimp only
  rw [mem]
  split <;> split <;> exact ⟨rfl, away, dir⟩

section
variable {s : State} {pa n v : Nat} (host : isDevice pa = false)
include host

theorem snoop_takes {bad : Bool} (ev : s.ev = .hostMem pa n (some v) bad) {e : Instr} (he : e ∈ [Instr.hostLineSnoop, .tableLineSnoop]) :
    exec e s = .next (hostTakes s pa n (some v) bad) := by
  simp only [List.mem_cons, List.not_mem_nil, or_false] at he
  rcases he with rfl | rfl
  · show execHostLineSnoop s = _
    simp [execHostLineSnoop, ev, host]
  · show execTableLineSnoop s = _
    simp [execTableLineSnoop, ev, host]

theorem snoop_adds (ev : s.ev = .hostAdd pa n v) :
    exec .hostLineSnoop s = .next (hostAdds s pa n v fun s x => hostTakes s pa n (some x) false) := by
  show execHostLineSnoop s = _
  simp [execHostLineSnoop, ev, host]
end

/-! ## The alias region (R259, R318) -/

section
variable {s : State} {c o : Nat} {x : Ctx} (ho : o < 2 ^ 16) (hx : alGet s.ctxs c = some x)
include ho

theorem slot_place : (c * 2 ^ 16 + o) / 2 ^ 16 = c ∧ (c * 2 ^ 16 + o) % 2 ^ 16 = o := by omega

include hx

/-- A slot is owned by its context, where that exists. -/
theorem slotOwner_owned (real : c ≠ 0) (alive : x.destroyed = false) : slotOwner s (c * 2 ^ 16 + o) = some c := by
  simp only [slotOwner, (slot_place ho).1, hx]
  simp [real, alive]

theorem slotOwner_none (gone : c = 0 ∨ x.destroyed = true) : slotOwner s (c * 2 ^ 16 + o) = none := by
  simp only [slotOwner, (slot_place ho).1, hx]
  rcases gone with rfl | gone
  · simp
  · simp [gone]
end

theorem aliasStore_unowned {s : State} {off size : Nat} {v : Word} (h : slotOwner s off = none) : aliasStore s off size v = s := by
  rw [aliasStore, h]

/-- A store that its context owns arms a queue, or is dropped with a report. -/
theorem aliasStore_owned {s : State} {off size c o : Nat} {v : Word} {x : Ctx} (h : slotOwner s off = some c) (place : off % 2 ^ 16 = o)
    (ho : o < 0x8000) (hx : alGet s.ctxs c = some x) : aliasStore s off size v =
      if o % 8 = 0 ∧ size = 8 ∧ o / 8 < x.qcnt then armQueue s c (o / 8) v else aliasDropped s c off size := by
  have low : ¬ 0x9000 ≤ o := by omega
  simp only [aliasStore, h, place, hx, low, ho, if_false, true_and, Option.any_some, decide_eq_true_eq]

/-- A store to a reward window that its context owns is a reward, where it has the form of one. -/
theorem windowStore_owned {s : State} {off c o : Nat} {d0 d1 d2 : Word} (h : slotOwner s off = some c) (place : off % 2 ^ 16 = o)
    (lo : 0x8000 ≤ o) (hi : o < 0x9000) (hal : off % 64 = 0) (h2 : d2.toNat < 2 ^ 32) : windowStore s off 64 [d0, d1, d2] =
      enqueueReward s ⟨{ rewardOf c d0 d1 d2 with dom := d0 }, none, none, false, 0, none, []⟩ := by
  have inside : ¬ (o < 0x8000 ∨ 0x9000 ≤ o) := by omega
  have rest : (([d0, d1, d2].drop 3).all (· == 0)) = true := rfl
  simp only [windowStore, h, place, if_neg inside]
  exact if_pos ⟨hal, trivial, rest, h2⟩

section
variable {s : State} {c o size : Nat} {x : Ctx} {v : Word} (ev : s.ev = .armStore (c * 2 ^ 16 + o) size v) (ho : o < 0x8000)
  (hx : alGet s.ctxs c = some x)
include ev ho hx

theorem armAliasStore_unowned (gone : c = 0 ∨ x.destroyed = true) : exec .armAliasStore s = .next s := by
  show execArmAliasStore s = _
  rw [execArmAliasStore, ev]
  exact congrArg Host.Outcome.next (aliasStore_unowned (slotOwner_none (by omega) hx gone))

theorem armAliasStore_owned (real : c ≠ 0) (alive : x.destroyed = false) : exec .armAliasStore s = .next
    (if o % 8 = 0 ∧ size = 8 ∧ o / 8 < x.qcnt then armQueue s c (o / 8) v else aliasDropped s c (c * 2 ^ 16 + o) size) := by
  show execArmAliasStore s = _
  rw [execArmAliasStore, ev]
  exact congrArg Host.Outcome.next (aliasStore_owned (slotOwner_owned (by omega) hx real alive) (slot_place (by omega)).2 ho hx)
end

/-- A hardware fill writes its value, and sets a doubleword of device memory full. -/
theorem hwFill_fills {s : State} (idle : s.gfe = []) (pa v : Nat) :
    (hwFill s pa v).mem = memWrite s.mem pa 8 v ∧ (isDevice pa = true → gFull (hwFill s pa v) pa = true) := by
  have written := (Performed.start s).write pa 8 v
  have filled := written.fill pa
  unfold hwFill
  dsimp only
  split
  · rw [serveSlicesAll_none (filled.waiting.trans idle)]
    exact ⟨filled.mem, fun _ => by simp [gFull, filled.bits, delNat]⟩
  next dev => exact ⟨written.mem, fun h => absurd h dev⟩

theorem unitSettled_words (s : State) (d : Fin 4) : (unitSettled s d).mem = s.mem ∧ (unitSettled s d).gEmpty = s.gEmpty := by
  unfold unitSettled
  dsimp only
  split <;> exact ⟨rfl, rfl⟩

/-- A queue whose entry the units of die 0 have translated is armed. -/
theorem armQueue_arms {s : State} {c q pe : Nat} {v : Word} (idle : s.gfe = []) (hn : s.noise = [])
    (held : HeldAt s 0 c (entryVa s c q) .write pe) :
    (armQueue s c q v).mem = memWrite s.mem pe 8 v.toNat ∧ (isDevice pe = true → gFull (armQueue s c q v) pe = true) := by
  have acts : HeldAt (actFor (.arm c q) s) 0 c (entryVa s c q) .write pe := heldAt_same held rfl rfl
  have ready : unitReady (actFor (.arm c q) s) 0 c .write [entryVa s c q] = (actFor (.arm c q) s, .none) := by
    simp only [unitReady, Nat.mod_eq_of_lt (entryVa_lt s c q), unitXlate_held acts]
  have armed : armQueue s c q v = unitSettled (hwFill (actFor (.arm c q) s) pe v.toNat) 0 := by
    have entry : entryVa (actFor (.arm c q) s) c q = entryVa s c q := rfl
    simp only [armQueue, entry, ready, unitPut_held (by exact hn) acts]
  obtain ⟨mem, full⟩ := hwFill_fills (s := actFor (.arm c q) s) (by exact idle) pe v.toNat
  obtain ⟨same, bits⟩ := unitSettled_words (hwFill (actFor (.arm c q) s) pe v.toNat) 0
  rw [armed, same, gFull, bits]
  exact ⟨mem, full⟩

/-- A write of 64 bytes to the reward window of a context hands its reward to the table of the die that it names (R318). -/
theorem rewardWindowWrite_owned {s : State} {c o : Nat} {x : Ctx} {d0 d1 d2 : Word} (ev : s.ev = .window (c * 2 ^ 16 + o) 64 [d0, d1, d2])
    (lo : 0x8000 ≤ o) (hi : o < 0x9000) (hal : o % 64 = 0) (hx : alGet s.ctxs c = some x) (real : c ≠ 0) (alive : x.destroyed = false)
    (h2 : d2.toNat < 2 ^ 32) : exec .rewardWindowWrite s = .next (enqueueArrival s (Fin.ofNat 4 d1.toNat)
      ⟨⟨c, d0, cut d1.toNat 0 48, cut d1.toNat 48 16, BitVec.ofNat 32 d2.toNat⟩, none, none, false, s.cycle, none, []⟩) := by
  have taken := windowStore_owned (d0 := d0) (d1 := d1) (slotOwner_owned (o := o) (by omega) hx real alive) (slot_place (by omega)).2 lo hi
    (by omega) h2
  have die : (Fin.ofNat 4 (cut d1.toNat 0 48) : Fin 4) = Fin.ofNat 4 d1.toNat := Fin.ext (by simp only [cut, Fin.val_ofNat]; omega)
  show execRewardWindowWrite s = _
  rw [execRewardWindowWrite, ev, ← die]
  exact congrArg Host.Outcome.next taken

theorem enqueueArrival_last (s : State) (d : Fin 4) (a : Arrival) :
    ((enqueueArrival s d a).dies.get d).arrivals = (s.dies.get d).arrivals ++ [a] := by
  simp [enqueueArrival]

/-- A store that is dropped is reported to its context (R259, R368). -/
theorem aliasDropped_report (s : State) (c off size : Nat) : ∃ r : PendReport, (aliasDropped s c off size).reports = s.reports ++ [r] ∧ r.ctx = c ∧
    cut r.data 0 8 = 8 ∧ (aliasDropped s c off size).mem = s.mem :=
  ⟨_, rfl, rfl, (record_fields ..).1, rfl⟩

/-- Settles O49: accesses to device memory by `hostMemAccess_write`, `hostMemAccess_read` and `hostMemAccess_add`, its own lines by
`hostTakes_line`, the alias region by `armAliasStore_unowned`, `aliasDropped_report` and `armQueue_arms`, a reward window by
`rewardWindowWrite_owned`. -/
theorem hostEvents : Obligations.HostEvents := by
  unfold Obligations.HostEvents
  refine ⟨fun s pa n bad up h data ev => hostMemAccess_incoherent up h, fun s pa n bad h => ⟨?_, ?_, ?_, ?_, ?_⟩, ?_, ?_, ?_, ?_⟩
  · intro v ev dev calm
    refine ⟨_, hostMemAccess_write h dev ev, ?_, fun b hb => ?_, hostWrite_gEmpty .., hostWrite_tiles _ _ _ _ _ calm, hostWrite_gPoison ..⟩
    · rw [hostWrite_mem, memRead_memWrite_same]
    · rw [hostWrite_mem, memRead_memWrite_other _ _ _ _ _ _ (hb.imp_left Nat.succ_le_of_lt)]
  · exact fun ev dev => ⟨_, hostMemAccess_read h dev ev, wakeSlice_mem .., rfl⟩
  · intro v ev dev
    refine ⟨_, hostMemAccess_add h dev ev, ?_, hostWrite_gEmpty .., rfl⟩
    exact hostAdds_adds fun x => hostWrite_mem s pa n x false
  · exact fun off ho ev => hostMemAccess_aliasRead h ho ev
  · exact fun data ev ho => hostMemAccess_outside h ho ev
  · intro s line ev
    show execHostLineSnoop s = _
    simp only [execHostLineSnoop, ev, delNat]
  · intro s pa n v host
    refine ⟨fun bad ev e he => ?_, fun ev => ?_⟩
    · obtain ⟨mem, away, dir⟩ := hostTakes_line s pa n v bad
      exact ⟨_, snoop_takes host ev he, by rw [mem, memRead_memWrite_same], away, dir⟩
    · refine ⟨_, snoop_adds host ev, (hostTakes_line ..).2.1, hostAdds_adds fun x => (hostTakes_line s pa n x false).1, rfl⟩
  · intro s c o size x v ev ho hx
    refine ⟨armAliasStore_unowned ev ho hx, fun real alive drop => ?_, fun pe q place whole real alive within idle hn held => ?_⟩
    · obtain ⟨r, reports, ctx, kind, mem⟩ := aliasDropped_report s c (c * 2 ^ 16 + o) size
      refine ⟨_, r, (armAliasStore_owned ev ho hx real alive).trans (congrArg _ (if_neg ?_)), reports, ctx, kind, mem⟩
      omega
    · subst place
      have queue : 8 * q / 8 = q := by omega
      have entry : (x.qbase.toNat + 64 * q) % 2 ^ 64 = entryVa s c q := by simp only [entryVa, hx]
      obtain ⟨mem, full⟩ := armQueue_arms (v := v) idle hn (entry ▸ held)
      have run := (armAliasStore_owned ev ho hx real alive).trans (congrArg _ (if_pos ⟨by omega, whole, by omega⟩))
      rw [queue] at run
      exact ⟨_, run, by rw [mem, memRead_memWrite_same]; exact Nat.mod_eq_of_lt v.isLt, full⟩
  · intro s c o x d0 d1 d2 ev real lo hi hal hx alive h2 k
    exact ⟨_, rewardWindowWrite_owned ev lo hi hal hx real alive h2, enqueueArrival_last ..⟩

end Sys2Proof.Machine
end
